-- ==== Sys2Proof/Word.lean ====
section
/-! DEFINITION. The word types of the XF8: bytes, 32-bit register words, 64-bit instruction words and addresses, and the 11-bit register field code (R2, R4, R16, R21). -/

namespace Sys2Proof

/-- A byte of memory (R2). -/
abbrev Byte := BitVec 8

/-- A 32-bit register lane (R4). -/
abbrev Word := BitVec 32

/-- A 64-bit instruction word, register pair or address (R4, R16). -/
abbrev DWord := BitVec 64

/-- The bit of a Boolean. -/
def bit1 (b : Bool) : BitVec 1 := BitVec.ofBool b

/-- The low word of a pair: register vN (R4). -/
def DWord.lo (d : DWord) : Word := d.extractLsb' 0 32

/-- The high word of a pair: register vN+1 (R4). -/
def DWord.hi (d : DWord) : Word := d.extractLsb' 32 32

/-- The 64-bit value of a pair vN:vN+1, vN holding bits 31:0 (R4). -/
def pairOf (lo hi : Word) : DWord := hi ++ lo

end Sys2Proof
end

