-- ==== Sys2Proof/Syntax.lean ====
section
/-! DEFINITION. The instructions and steps of the XF8: one constructor of Instr per row of spec/opcode_table.json. Instruction-word rows carry the decoded fields of R18 to R38 and of each instruction's chapter; step rows carry the names of what they act on. -/

namespace Sys2Proof

/-- A register field (R21, R22): encodings 0-1535 v, 1536-1599 s, 1600-1663 q, 1664-1727 k, 1728-1747 system values, 1760-1791 h, the rest reserved. -/
inductive Reg where
  | v (n : Fin 1536)
  | s (n : Fin 64)
  | q (n : Fin 64)
  | k (n : Fin 64)
  | sv (n : Fin 20)
  | h (n : Fin 32)
  | rsv (code : BitVec 11)
  deriving DecidableEq, Repr

/-- The header of a full-form word (R18). GAP holds the field, not the cycle count. -/
structure Hdr where
  marker : Bool
  gap : BitVec 2
  gw : Bool
  pg : BitVec 4
  deriving DecidableEq, Repr

/-- Operand types of class 0 (R31). -/
inductive Ty where
  | u32 | s32 | u64 | s64 | u16x2 | s16x2 | u8x4 | s8x4
  deriving DecidableEq, Repr

/-- Rounding modes (R102). -/
inductive Rm where
  | rne | rtz | rup | rdn | rna
  deriving DecidableEq, Repr

/-- Class 1 packing (R32). -/
inductive Pk where
  | f32 | bf16x2 | f16x2
  deriving DecidableEq, Repr

/-- Integer conditions (R115). -/
inductive ICond where
  | eq | ne | lt | le | gt | ge
  deriving DecidableEq, Repr

/-- Floating conditions (R123). -/
inductive FCond where
  | eq | ne | lt | le | gt | ge | ord | uno
  deriving DecidableEq, Repr

/-- Access widths (R28): 8, 16, 32, 64 and 128 bits a lane. -/
inductive Wid where
  | w8 | w16 | w32 | w64 | w128
  deriving DecidableEq, Repr

/-- Orders (R28). -/
inductive MOrd where
  | plain | acquire | release | sc
  deriving DecidableEq, Repr

/-- Scopes (R28, R212). -/
inductive Sco where
  | thread | group | team | cluster | die | module | system
  deriving DecidableEq, Repr

/-- Cache hints (R28). -/
inductive Ch where
  | dflt | streaming | keep | bypassL1
  deriving DecidableEq, Repr

/-- Atomic operations of AT (R29). -/
inductive Aop where
  | add | min | max | and | or | xor | exch
  deriving DecidableEq, Repr

/-- Atomic operations of ATOMS (R148). -/
inductive SAop where
  | add | min | max | exch | cas
  deriving DecidableEq, Repr

/-- Atomic types (R29). -/
inductive ATy where
  | u32 | s32 | u64 | s64 | f32 | f64
  deriving DecidableEq, Repr

/-- Branch hints (R27). -/
inductive Hint where
  | none | likely | unlikely | uniform
  deriving DecidableEq, Repr

/-- Conversion codes (R130). -/
inductive Cvt where
  | f32 | bf16 | f16 | s32 | u32 | s64 | u64 | f64
  deriving DecidableEq, Repr

/-- Operations of GRED and GSCAN (R139). -/
inductive GOp where
  | fadd | fmin | fmax | iadd | smin | smax | umin | umax | and | or | xor | dadd
  deriving DecidableEq, Repr

/-- SHFL modes (R137). -/
inductive ShMode where
  | idx | up | down | xor
  deriving DecidableEq, Repr

/-- TOPK types (R140). -/
inductive TkTy where
  | f32 | s32 | u32
  deriving DecidableEq, Repr

/-- HACC types (R159). -/
inductive HTy where
  | u64 | f32x2 | f64
  deriving DecidableEq, Repr

/-- Fence kinds (R223). -/
inductive FKind where
  | full | acquire | release | sc
  deriving DecidableEq, Repr

/-- PREF targets (R226). -/
inductive PTgt where
  | l1 | home | near
  deriving DecidableEq, Repr

/-- CMAINT scopes (R227). -/
inductive CSco where
  | die | module | system
  deriving DecidableEq, Repr

/-- SIGW conditions (R244). -/
inductive SCond where
  | ge | eq | ne
  deriving DecidableEq, Repr

/-- Pair-form slot operations (R36). -/
inductive SlotOp where
  | iadd | isub | imul | imin | imax | iand | ior | ixor | shl | shr | sar | mov
  | fadd | fsub | fmul | fmin | fmax | noop
  deriving DecidableEq, Repr

/-- Operand B of a class 0 REG3 word: a register or the 22-bit immediate of R25. -/
inductive IOpd where
  | reg (r : Reg)
  | imm (i : BitVec 22)
  deriving DecidableEq, Repr

/-- REG3 fields of class 0 (R31). -/
structure I3 where
  d : Reg
  a : Reg
  b : IOpd
  ty : Ty
  sat : Bool
  deriving DecidableEq, Repr

/-- REG2 fields of class 0 (R31). -/
structure I2 where
  d : Reg
  a : Reg
  ty : Ty
  sat : Bool
  deriving DecidableEq, Repr

/-- BFE and BFI (R113): lenM1 is len − 1. -/
structure BField where
  d : Reg
  a : Reg
  b : Reg
  lenM1 : BitVec 6
  ty : Ty
  deriving DecidableEq, Repr

/-- ICMP (R115). -/
structure ICmp where
  p : BitVec 3
  a : Reg
  b : Reg
  cond : ICond
  ty : Ty
  deriving DecidableEq, Repr

/-- SEL (R116). -/
structure SelF where
  d : Reg
  a : Reg
  b : Reg
  p : BitVec 3
  neg : Bool
  ty : Ty
  deriving DecidableEq, Repr

/-- PLOP (R117). -/
structure PlopF where
  pd : BitVec 3
  pa : BitVec 3
  pb : BitVec 3
  pc : BitVec 3
  tt : BitVec 8
  deriving DecidableEq, Repr

/-- MOVI and MOVHI (R26, R118). -/
structure ImmF where
  d : Reg
  imm : BitVec 22
  deriving DecidableEq, Repr

/-- AADD (R119): signed selects TY s32. -/
structure AaddF where
  d : Reg
  a : Reg
  b : IOpd
  signed : Bool
  sh : BitVec 3
  deriving DecidableEq, Repr

/-- The class 1 modifier field (R32). -/
structure FMod where
  satf : Bool
  absb : Bool
  absa : Bool
  negb : Bool
  nega : Bool
  pk : Pk
  ftz : Bool
  rm : Rm
  deriving DecidableEq, Repr

/-- Operands of a class 1 or 2 REG3 word: with imm, R25 fixes every modifier. -/
inductive FOpd where
  | reg (r : Reg) (x : FMod)
  | imm (i : BitVec 22)
  deriving DecidableEq, Repr

/-- REG3 fields of classes 1 and 2 (R32, R33). -/
structure F3 where
  d : Reg
  a : Reg
  b : FOpd
  deriving DecidableEq, Repr

/-- REG2 fields of classes 1 and 2. -/
structure F2 where
  d : Reg
  a : Reg
  x : FMod
  deriving DecidableEq, Repr

/-- FCMP and DCMP (R123, R129). -/
structure FCmpF where
  p : BitVec 3
  a : Reg
  b : Reg
  cond : FCond
  ftz : Bool
  deriving DecidableEq, Repr

/-- FDOT2 (R124). -/
structure FDotF where
  d : Reg
  a : Reg
  b : Reg
  f16 : Bool
  ftz : Bool
  rm : Rm
  deriving DecidableEq, Repr

/-- A destination and one source, with no further field. -/
structure R2 where
  d : Reg
  a : Reg
  deriving DecidableEq, Repr

/-- A destination and two sources, with no further field. -/
structure R3 where
  d : Reg
  a : Reg
  b : Reg
  deriving DecidableEq, Repr

/-- CVT and CVTD (R130). -/
structure CvtF where
  d : Reg
  a : Reg
  dst : Cvt
  src : Cvt
  sat : Bool
  rm : Rm
  deriving DecidableEq, Repr

/-- CVTQ and MXQ (R132). The format fields stay raw: they are checked at execution. -/
structure QFmtF where
  d : Reg
  a : Reg
  fmt : BitVec 4
  prec : BitVec 3
  read : BitVec 2
  uns : Bool
  widen : Bool
  sat : Bool
  rm : Rm
  deriving DecidableEq, Repr

/-- Operand B of SHFL (R137). -/
inductive ShB where
  | reg (r : Reg)
  | imm (i : BitVec 6)
  deriving DecidableEq, Repr

/-- SHFL (R137): lw is log2 of the segment width. -/
structure ShflF where
  d : Reg
  a : Reg
  b : ShB
  wide : Bool
  lw : Fin 7
  mode : ShMode
  deriving DecidableEq, Repr

/-- VOTE.all and VOTE.any (R138). -/
structure VoteF where
  p : BitVec 3
  ps : BitVec 3
  neg : Bool
  deriving DecidableEq, Repr

/-- VOTE.bal (R138). -/
structure BalF where
  d : Reg
  ps : BitVec 3
  neg : Bool
  deriving DecidableEq, Repr

/-- VOTE.eq (R138). -/
structure VEqF where
  p : BitVec 3
  a : Reg
  wide : Bool
  deriving DecidableEq, Repr

/-- GRED and GSCAN (R139). -/
structure GredF where
  d : Reg
  a : Reg
  op : GOp
  deriving DecidableEq, Repr

/-- TOPK (R140). -/
structure TopkF where
  d : Reg
  a : Reg
  b : Reg
  k : BitVec 7
  nz : Bool
  ty : TkTy
  deriving DecidableEq, Repr

/-- MATCH (R141). -/
structure MatchF where
  d : Reg
  a : Reg
  wide : Bool
  deriving DecidableEq, Repr

/-- The MEM layout (R28). -/
structure MemF where
  d : Reg
  a : Reg
  off : BitVec 11
  wid : Wid
  ord : MOrd
  sco : Sco
  ch : Ch
  deriving DecidableEq, Repr

/-- GATHER (R240). -/
structure GatherF where
  d : Reg
  a : Reg
  off : BitVec 11
  wid : Wid
  ord : MOrd
  sco : Sco
  mask : BitVec 4
  deriving DecidableEq, Repr

/-- The AT layout (R29). -/
structure AtF where
  d : Reg
  a : Reg
  b : Reg
  aop : Aop
  ord : MOrd
  sco : Sco
  ty : ATy
  deriving DecidableEq, Repr

/-- CAS (R29, R246). -/
structure CasF where
  d : Reg
  a : Reg
  b : Reg
  ord : MOrd
  sco : Sco
  ty : ATy
  deriving DecidableEq, Repr

/-- RED (R246). -/
structure RedF where
  a : Reg
  b : Reg
  aop : Aop
  ord : MOrd
  sco : Sco
  ty : ATy
  deriving DecidableEq, Repr

/-- FENCE (R223). -/
structure FenceF where
  kind : FKind
  sco : Sco
  deriving DecidableEq, Repr

/-- PREF (R226): n is the line count minus 1. -/
structure PrefF where
  a : Reg
  off : BitVec 11
  nM1 : BitVec 4
  tgt : PTgt
  deriving DecidableEq, Repr

/-- CMAINT (R227). -/
structure CmaintF where
  a : Reg
  b : Reg
  sco : CSco
  deriving DecidableEq, Repr

/-- A destination and a selector: PQRY, SVR, TINFO. -/
structure SelD where
  d : Reg
  sel : BitVec 8
  deriving DecidableEq, Repr

/-- ATOMS (R148). -/
structure AtomsF where
  d : Reg
  a : Reg
  b : Reg
  aop : SAop
  ord : MOrd
  ty : ATy
  deriving DecidableEq, Repr

/-- PRES.query (R150): n is the line count minus 1. -/
structure PresQ where
  d : Reg
  a : Reg
  nM1 : BitVec 5
  deriving DecidableEq, Repr

/-- PRES.set and PRES.clear (R150). -/
structure PresF where
  a : Reg
  nM1 : BitVec 7
  deriving DecidableEq, Repr

/-- RROT (R153). -/
structure RrotF where
  a : Reg
  b : Reg
  tag : BitVec 8
  back : Bool
  deriving DecidableEq, Repr

/-- HACC (R159). -/
structure HaccF where
  d : Reg
  a : Reg
  b : Reg
  ty : HTy
  deriving DecidableEq, Repr

/-- HDRAIN (R164). -/
structure HdrainF where
  a : Reg
  tag : BitVec 8
  deriving DecidableEq, Repr

/-- HSTAT (R165). -/
structure HstatF where
  d : Reg
  sel : BitVec 3
  deriving DecidableEq, Repr

/-- RPUSH (R297). -/
structure RpushF where
  p : BitVec 3
  a : Reg
  b : Reg
  w : BitVec 2
  deriving DecidableEq, Repr

/-- RPOP and RSTEAL (R297). -/
structure RpopF where
  d : Reg
  a : Reg
  w : BitVec 2
  deriving DecidableEq, Repr

/-- RENQ (R297). -/
structure RenqF where
  d : Reg
  a : Reg
  b : Reg
  w : BitVec 2
  deriving DecidableEq, Repr

/-- GRES (R266). -/
structure GresF where
  neg : Bool
  p : BitVec 3
  g : BitVec 4
  deriving DecidableEq, Repr

/-- QSUB (R30). cnt is n − 1; grd is the guard slot, if any. -/
structure QsubF where
  d : Reg
  a : Reg
  cnt : BitVec 5
  grd : Option (BitVec 4)
  deriving DecidableEq, Repr

/-- MLOOP (R168). -/
structure MloopF where
  d : Reg
  a : Reg
  b : Reg
  stepsM1 : BitVec 12
  deriving DecidableEq, Repr

/-- MZERO (R168). -/
structure MzeroF where
  d : Reg
  tok : Bool
  tag : BitVec 8
  deriving DecidableEq, Repr

/-- MDRAIN and MSTORE (R168). -/
structure MdrainF where
  d : Reg
  a : Reg
  b : Reg
  zero : Bool
  tok : Bool
  tag : BitVec 8
  deriving DecidableEq, Repr

/-- MSTADD (R168). -/
structure MstaddF where
  d : Reg
  a : Reg
  b : Reg
  pool : Bool
  tok : Bool
  tag : BitVec 8
  deriving DecidableEq, Repr

/-- MLDF (R168): nM1 is n − 1. -/
structure MldfF where
  d : Reg
  a : Reg
  nM1 : BitVec 3
  tok : Bool
  tag : BitVec 8
  deriving DecidableEq, Repr

/-- MSCAN (R168). -/
structure MscanF where
  d : Reg
  a : Reg
  b : Reg
  cs : BitVec 2
  deriving DecidableEq, Repr

/-- MCARRY (R168). -/
structure McarryF where
  d : Reg
  b : Reg
  clear : Bool
  reset : Bool
  cs : BitVec 2
  deriving DecidableEq, Repr

/-- BRA and CALL (R27): the signed word offset. -/
structure BrF where
  off : BitVec 32
  hint : Hint
  deriving DecidableEq, Repr

/-- BRX and RET (R63). -/
structure BrxF where
  a : Reg
  hint : Hint
  deriving DecidableEq, Repr

/-- CALLX (R63). -/
structure CallxF where
  d : Reg
  a : Reg
  hint : Hint
  deriving DecidableEq, Repr

/-- MGET (R70). -/
structure MgetF where
  d : Reg
  arr : Bool
  m : BitVec 4
  deriving DecidableEq, Repr

/-- A count or interval: a register, or an 11-bit immediate (BARI, SLEEP; R63). -/
inductive CntOpd where
  | reg (r : Reg)
  | imm (i : BitVec 11)
  deriving DecidableEq, Repr

/-- BARI (R72). -/
structure BariF where
  n : CntOpd
  bar : BitVec 4
  deriving DecidableEq, Repr

/-- BARA: a destination and a barrier; BARW: a phase register and a barrier (R72). -/
structure BarRF where
  r : Reg
  bar : BitVec 4
  deriving DecidableEq, Repr

/-- SIGW (R244): res is D when RES is set. -/
structure SigwF where
  res : Option Reg
  a : Reg
  b : Reg
  cond : SCond
  w64 : Bool
  sco : Sco
  deriving DecidableEq, Repr

/-- TRET.to (R361). -/
structure TretToF where
  a : Reg
  keepp : Bool
  deriving DecidableEq, Repr

/-- PMON.read (R375). -/
structure PmonF where
  d : Reg
  a : Reg
  sel : BitVec 5
  deriving DecidableEq, Repr

/-- A pair-form slot (R35). -/
structure Slot where
  op : SlotOp
  d : Reg
  s : Reg
  deriving DecidableEq, Repr

/-- A pair-form word (R35). -/
structure PairF where
  marker : Bool
  gw : Bool
  ps : Bool
  a : Slot
  b : Slot
  deriving DecidableEq, Repr

/-- The name of a resident thread: its team's key in the state, its group and its lane (R47). -/
structure Tid where
  team : Nat
  group : Nat
  lane : Nat
  deriving DecidableEq, Repr

/-- Which path an order came by (R380). -/
inductive OrderPath where
  | host | management
  deriving DecidableEq, Repr

/-- A 64-byte order record (R380): code, context byte, must-be-zero half word, sequence and the operand bytes from 0x08. -/
structure OrderRec where
  path : OrderPath
  code : Byte
  ctx : Byte
  rsv : BitVec 16
  seq : Word
  opnds : List Byte
  deriving DecidableEq, Repr

/-- A firmware image as the flash holds it (R377): which image, its version, its bytes and its signature. -/
structure FwImage where
  which : Nat
  version : Nat
  bytes : List Byte
  sig : List Byte
  deriving DecidableEq, Repr

/-- What the physics of one start step reports (R376): success on the main path, on the alternate path, and the outcome code. -/
structure StepReport where
  mainOk : Bool
  altOk : Bool
  code : Nat
  deriving DecidableEq, Repr

/-- What a start reports (R376): the twelve steps, the band boundaries that the management plane sets at step 11 (R306), the data ports that fail at step 10, and the priorities that the management plane makes lossless (R367). -/
structure StartReport where
  steps : List StepReport
  dabound : Nat
  mibound : Nat
  failedPorts : List Nat := []
  lossless : List Nat := []
  deriving DecidableEq, Repr

/-- A RoCE v2 frame as it arrives: its queue pair, and whether it carries a congestion mark (R367). -/
structure RoceFrame where
  qp : Nat
  ecn : Bool := false
  deriving DecidableEq, Repr

/-- The 32-byte header of an Evavo message and its payload (R369). -/
structure EvMsg where
  ver : Nat
  type : Nat
  cid : Word
  chunk : Nat
  src : Word
  thash : DWord
  payload : List Byte
  deriving DecidableEq, Repr

/-- The instructions and steps, one constructor per row of the opcode table and in its order. -/
inductive Instr where
  -- class 0 (R110-R119)
  | iadd (h : Hdr) (o : I3) | isub (h : Hdr) (o : I3) | imul (h : Hdr) (o : I3) | imulh (h : Hdr) (o : I3)
  | imad (h : Hdr) (o : I3) | imin (h : Hdr) (o : I3) | imax (h : Hdr) (o : I3) | iabs (h : Hdr) (o : I2)
  | iand (h : Hdr) (o : I3) | ior (h : Hdr) (o : I3) | ixor (h : Hdr) (o : I3) | iandn (h : Hdr) (o : I3)
  | shl (h : Hdr) (o : I3) | shr (h : Hdr) (o : I3) | sar (h : Hdr) (o : I3) | rotl (h : Hdr) (o : I3)
  | popc (h : Hdr) (o : I2) | clz (h : Hdr) (o : I2) | brev (h : Hdr) (o : I2)
  | bfe (h : Hdr) (o : BField) | bfi (h : Hdr) (o : BField)
  | icmp (h : Hdr) (o : ICmp) | sel (h : Hdr) (o : SelF) | plop (h : Hdr) (o : PlopF)
  | mov (h : Hdr) (o : I2) | movi (h : Hdr) (o : ImmF) | movhi (h : Hdr) (o : ImmF)
  | aadd (h : Hdr) (o : AaddF) | imulw (h : Hdr) (o : I3) | idiv (h : Hdr) (o : I3) | irem (h : Hdr) (o : I3)
  -- class 1 (R120-R127)
  | fadd (h : Hdr) (o : F3) | fsub (h : Hdr) (o : F3) | fmul (h : Hdr) (o : F3) | ffma (h : Hdr) (o : F3)
  | fmin (h : Hdr) (o : F3) | fmax (h : Hdr) (o : F3) | fcmp (h : Hdr) (o : FCmpF) | fdot2 (h : Hdr) (o : FDotF)
  | frcp (h : Hdr) (o : F2) | frsq (h : Hdr) (o : F2) | fsqrt (h : Hdr) (o : F2) | fdiv (h : Hdr) (o : F3)
  | fexp2 (h : Hdr) (o : F2) | flog2 (h : Hdr) (o : F2) | fsinpi (h : Hdr) (o : F2) | fcospi (h : Hdr) (o : F2)
  | frint (h : Hdr) (o : F2) | fclass (h : Hdr) (o : R2)
  -- class 2 (R128-R134)
  | dadd (h : Hdr) (o : F3) | dsub (h : Hdr) (o : F3) | dmul (h : Hdr) (o : F3) | dfma (h : Hdr) (o : F3)
  | dmin (h : Hdr) (o : F3) | dmax (h : Hdr) (o : F3) | dcmp (h : Hdr) (o : FCmpF) | ddiv (h : Hdr) (o : F3)
  | dsqrt (h : Hdr) (o : F2) | cvt (h : Hdr) (o : CvtF) | cvtq (h : Hdr) (o : QFmtF) | cvtd (h : Hdr) (o : CvtF)
  | mxq (h : Hdr) (o : QFmtF)
  -- class 3 (R135-R141, R338)
  | shfl (h : Hdr) (o : ShflF) | voteAll (h : Hdr) (o : VoteF) | voteAny (h : Hdr) (o : VoteF)
  | voteBal (h : Hdr) (o : BalF) | voteEq (h : Hdr) (o : VEqF) | gred (h : Hdr) (o : GredF) | gscan (h : Hdr) (o : GredF)
  | topk (h : Hdr) (o : TopkF) | matchLanes (h : Hdr) (o : MatchF) | rnd (h : Hdr) (o : R3) | rndu (h : Hdr) (o : R2)
  | seedr (h : Hdr) (d : Reg)
  -- class 4 (R236-R256, R223-R228, R91-R94, R147-R155)
  | ld (h : Hdr) (o : MemF) | st (h : Hdr) (o : MemF) | gather (h : Hdr) (o : GatherF) | scatter (h : Hdr) (o : MemF)
  | atom (h : Hdr) (o : AtF) | cas (h : Hdr) (o : CasF) | red (h : Hdr) (o : RedF) | redseq (h : Hdr) (o : AtF)
  | fence (h : Hdr) (o : FenceF) | pref (h : Hdr) (o : PrefF)
  | cmaintInv (h : Hdr) (o : CmaintF) | cmaintClean (h : Hdr) (o : CmaintF) | cmaintFlush (h : Hdr) (o : CmaintF)
  | cmaintTinv (h : Hdr) (o : CmaintF)
  | ldp (h : Hdr) (o : MemF) | stp (h : Hdr) (o : MemF) | pqry (h : Hdr) (o : SelD)
  | lds (h : Hdr) (o : MemF) | sts (h : Hdr) (o : MemF) | atoms (h : Hdr) (o : AtomsF)
  | presQuery (h : Hdr) (o : PresQ) | presSet (h : Hdr) (o : PresF) | presClear (h : Hdr) (o : PresF)
  | rrot (h : Hdr) (o : RrotF)
  -- class 5 (R156-R165, R297-R300, R265-R269)
  | hclaim (h : Hdr) (a : Reg) | hfree (h : Hdr) | hins (h : Hdr) (o : R3) | hprobe (h : Hdr) (o : R2)
  | hdel (h : Hdr) (o : R2) | hacc (h : Hdr) (o : HaccF) | hdrain (h : Hdr) (o : HdrainF) | hstat (h : Hdr) (o : HstatF)
  | rdefDefine (h : Hdr) (o : R2) | rdefFree (h : Hdr) (a : Reg) | rdefAdopt (h : Hdr) (a : Reg)
  | rpush (h : Hdr) (o : RpushF) | rpop (h : Hdr) (o : RpopF) | rsteal (h : Hdr) (o : RpopF) | renq (h : Hdr) (o : RenqF)
  | gset (h : Hdr) (g : BitVec 4) | gres (h : Hdr) (o : GresF) | qsub (h : Hdr) (o : QsubF)
  | qpop (h : Hdr) (o : R2) | qstat (h : Hdr) (o : R2) | qwait (h : Hdr) (o : R3)
  -- class 6 (R166-R197)
  | mloop (h : Hdr) (o : MloopF) | mwaitConsumed (h : Hdr) (d : Reg) | mwaitDone (h : Hdr) (d : Reg) | mwaitAll (h : Hdr)
  | mzero (h : Hdr) (o : MzeroF) | mdrain (h : Hdr) (o : MdrainF) | mstore (h : Hdr) (o : MdrainF)
  | mstadd (h : Hdr) (o : MstaddF) | mldf (h : Hdr) (o : MldfF) | mscan (h : Hdr) (o : MscanF) | mcarry (h : Hdr) (o : McarryF)
  -- class 7 (R63-R77, R244, R361-R365, R324, R341, R375)
  | nop (h : Hdr) | bra (h : Hdr) (o : BrF) | brx (h : Hdr) (o : BrxF) | call (h : Hdr) (o : BrF)
  | callx (h : Hdr) (o : CallxF) | ret (h : Hdr) (o : BrxF) | exit (h : Hdr)
  | join (h : Hdr) (m : BitVec 4) | leave (h : Hdr) (m : BitVec 4) | waitm (h : Hdr) (m : BitVec 4)
  | mclr (h : Hdr) (m : BitVec 4) | mget (h : Hdr) (o : MgetF)
  | bari (h : Hdr) (o : BariF) | bara (h : Hdr) (o : BarRF) | barw (h : Hdr) (o : BarRF) | bars (h : Hdr) (bar : BitVec 4)
  | sleep (h : Hdr) (n : CntOpd) | sigw (h : Hdr) (o : SigwF)
  | trap (h : Hdr) (imm : BitVec 12) | tretResume (h : Hdr) (keepp : Bool) | tretSkip (h : Hdr) (keepp : Bool)
  | tretRedirect (h : Hdr) (o : TretToF)
  | tkillThread (h : Hdr) (code : BitVec 8) | tkillGroup (h : Hdr) (code : BitVec 8) | tkillTeam (h : Hdr) (code : BitVec 8)
  | tkillGrid (h : Hdr) (code : BitVec 8)
  | tinfo (h : Hdr) (o : SelD) | bkpt (h : Hdr) (imm : BitVec 12)
  | launch (h : Hdr) (o : R2) | seedw (h : Hdr) (a : Reg) | svr (h : Hdr) (o : SelD)
  | pmonRead (h : Hdr) (o : PmonF) | pmonArm (h : Hdr) (a : Reg) | pmonFreeze (h : Hdr) (a : Reg)
  | illegalOp (w : DWord)
  | pairWord (o : PairF)
  -- queue and landing steps (R258-R261, R54-R61, R90, R143, R177, R355)
  | teamQueuePush (t : Tid) (q : Nat) (slot : Word) | teamQueuePop (t : Tid) (q : Nat) | tokenPop (t : Tid) (q : Nat)
  | longResultLands (t : Tid) (id : Nat) | gapExpiry (t : Tid) | sleepExpiry (t : Tid) | handlerEntry (t : Tid)
  | segmentReload (team : Nat) (seg : Nat) | lineArrival (cmd : Nat) (line : Nat)
  | consumedPoint (cmd : Nat) | donePoint (cmd : Nat)
  -- engine commands (R42)
  | copy1d (cmd : Nat) | copy2d (cmd : Nat) | copy3d (cmd : Nat) | fill (cmd : Nat)
  | sort (cmd : Nat) | sortseg (cmd : Nat) | trvq (cmd : Nat) | trvpair (cmd : Nat)
  | fact (cmd : Nat) | solve (cmd : Nat) | solvebwd (cmd : Nat) | lcp (cmd : Nat)
  | bred (cmd : Nat) | rowz (cmd : Nat) | rowcp (cmd : Nat) | embag (cmd : Nat) | coll (cmd : Nat)
  -- waves, waits, reduction sets and rings (R346, R245, R251, R300)
  | waveApply (team : Nat) | sigwRecheck (t : Tid) | contributionArrival (id : Nat) | contributionApply (set : Nat)
  | renqArrival (id : Nat) | overflowDelivery (id : Nat)
  -- launch unit and scheduler (R303, R323-R336)
  | hostNop (ring : Nat) | hostLaunch (ring : Nat) | hostSignal (ring : Nat) | signalStore (id : Nat)
  | hostPacketSkipped (ring : Nat) | dependencyMet (launch : Nat) (k : Nat)
  | teamPlacement (team : Nat) (core : Nat) | thawSwap (core : Nat) (ctx : Nat) | teamRetire (team : Nat)
  | lullWatchdog (ctx : Nat)
  -- orders of the command path (R380)
  | registerContext (o : OrderRec) | releaseContext (o : OrderRec) | preemptContext (o : OrderRec)
  | resumeContext (o : OrderRec) | preemptTeam (o : OrderRec) | kill (o : OrderRec) | setSeed (o : OrderRec)
  | checkpoint (o : OrderRec) | checkpointTaken (ctx : Nat) | restore (o : OrderRec)
  | partitionChange (o : OrderRec) | partitionChangeComplete (die : Nat)
  | assignHostWorkRings (o : OrderRec) | assignQueuePairs (o : OrderRec) | writeWindowEntry (o : OrderRec)
  | assignMonitor (o : OrderRec) | readMailbox (o : OrderRec)
  -- start, attestation, power, monitors (R374-R379, R12)
  | startSequence (rep : StartReport)
  | getVersion (req : List Byte) | getCapabilities (req : List Byte) | negotiateAlgorithms (req : List Byte)
  | getDigests (req : List Byte) | getCertificate (req : List Byte) | challenge (req : List Byte)
  | getMeasurements (req : List Byte)
  | powerClockLower (mhz : Nat) | monitorSample
  -- fabric (R222, R367-R373)
  | rdmaWrite (f : RoceFrame) (va : DWord) (data : List Byte) | rdmaRead (f : RoceFrame) (va : DWord) (len : Nat)
  | send (f : RoceFrame) (data : List Byte) | fetchAndAdd (f : RoceFrame) (va : DWord) (val : DWord)
  | compareAndSwap (f : RoceFrame) (va : DWord) (cmp : DWord) (swap : DWord)
  | congestionNotification (qp : Nat) | pauseFrame (port : Nat) (prio : Nat) (quanta : Nat) | discardedFrame (port : Nat)
  | collectiveChunk (m : EvMsg) | collectiveResult (m : EvMsg) | renqPacket (m : EvMsg)
  | remoteAccessError (op : Nat) | retryExhausted (qp : Nat) | remoteWriteAcknowledged (op : Nat)
  | powerOff | arithmeticClockRestored (mhz : Nat) | firmwareUpdate (img : FwImage)
  | managementMonitorCommand (mon : Nat) (freeze : Bool)
  deriving DecidableEq, Repr

end Sys2Proof
end

