-- ==== Sys2Proof/WellFormed.lean ====
section
/-! DEFINITION. Which decoded instructions are well formed: the limits that a layout or an instruction sets on its own fields (R24 to R40 and each instruction's chapter). A word that breaks one raises ILLEGAL_OP. -/

namespace Sys2Proof

/-- The reserved codes of the register field (R21, R22). -/
def Reg.wf : Reg → Bool
  | .rsv c => decide (1748 ≤ c.toNat ∧ c.toNat ≤ 1759) || decide (1792 ≤ c.toNat)
  | _ => true

/-- The types that one register holds, without the packed ones. -/
def Ty.wide : Ty → Bool
  | .u32 | .s32 | .u64 | .s64 => true
  | _ => false

/-- The type is 64 bits wide, so that operands are pairs (R110). -/
def Ty.is64 : Ty → Bool
  | .u64 | .s64 => true
  | _ => false

/-- The type's signedness (R110). -/
def Ty.signed : Ty → Bool
  | .s32 | .s64 | .s16x2 | .s8x4 => true
  | _ => false

/-- Operand B of class 0: an immediate fixes type s32 and SAT clear (R25). -/
def IOpd.wf (b : IOpd) (ty : Ty) (sat : Bool) : Bool :=
  match b with
  | .reg r => r.wf
  | .imm _ => decide (ty = .s32) && !sat

/-- A class 0 REG3 word, with the accepted types and SAT of R111. -/
def I3.wf (o : I3) (tyOk : Ty → Bool) (satOk : Bool) : Bool :=
  o.d.wf && o.a.wf && o.b.wf o.ty o.sat && tyOk o.ty && (satOk || !o.sat)

/-- A class 0 REG2 word. -/
def I2.wf (o : I2) (tyOk : Ty → Bool) (satOk : Bool) : Bool :=
  o.d.wf && o.a.wf && tyOk o.ty && (satOk || !o.sat)

/-- The modifiers that R25 fixes for the immediate form of class 1. -/
def FMod.plain : FMod :=
  { satf := false, absb := false, absa := false, negb := false, nega := false, pk := .f32, ftz := false, rm := .rne }

/-- Operand B of class 1. -/
def FOpd.wf (b : FOpd) (immOk : Bool) (modOk : FMod → Bool) : Bool :=
  match b with
  | .reg r x => r.wf && modOk x
  | .imm _ => immOk

/-- A REG3 word of class 1 or 2. -/
def F3.wf (o : F3) (immOk : Bool) (modOk : FMod → Bool) : Bool :=
  o.d.wf && o.a.wf && o.b.wf immOk modOk

/-- A REG2 word of class 1 or 2: ABSB and NEGB are zero (R32). -/
def F2.wf (o : F2) (modOk : FMod → Bool) : Bool :=
  o.d.wf && o.a.wf && !o.x.absb && !o.x.negb && modOk o.x

/-- The FP32-only instructions that accept RNE alone (R121). -/
def FMod.f32Rne (x : FMod) : Bool := decide (x.pk = .f32) && decide (x.rm = .rne)

/-- The FP32-only instructions that accept every rounding mode. -/
def FMod.f32 (x : FMod) : Bool := decide (x.pk = .f32)

/-- Any packing, RNE alone: FMIN and FMAX. -/
def FMod.rneOnly (x : FMod) : Bool := decide (x.rm = .rne)

/-- Class 2 arithmetic: PK and SATF are zero (R33). -/
def FMod.dbl (x : FMod) : Bool := decide (x.pk = .f32) && !x.satf

/-- DMIN and DMAX: RNE alone (R128). -/
def FMod.dblRne (x : FMod) : Bool := x.dbl && decide (x.rm = .rne)

def R2.wf (o : R2) : Bool := o.d.wf && o.a.wf
def R3.wf (o : R3) : Bool := o.d.wf && o.a.wf && o.b.wf

/-- The pairs of codes of CVT and CVTD (R130). -/
def CvtF.wf (o : CvtF) (dbl : Bool) : Bool :=
  o.d.wf && o.a.wf && ((decide (o.dst = .f64) || decide (o.src = .f64)) == dbl)

/-- CVTQ and MXQ: SAT only when narrowing, RM zero when widening, MXQ never widens nor saturates (R132, R134). -/
def QFmtF.wf (o : QFmtF) (mx : Bool) : Bool :=
  o.d.wf && o.a.wf && (if mx then !o.widen && !o.sat else !o.widen || (!o.sat && decide (o.rm = .rne)))

def MemF.wf (o : MemF) (widOk : Wid → Bool) (chOk : Bool) : Bool :=
  o.d.wf && o.a.wf && widOk o.wid && (chOk || decide (o.ch = .dflt))

/-- LDP and STP take 32, 64 and 128 bits (R91). -/
def Wid.pool : Wid → Bool
  | .w32 | .w64 | .w128 => true
  | _ => false

/-- and, or and xor exclude the floating types (R29). -/
def atPair (aop : Aop) (ty : ATy) : Bool :=
  match aop, ty with
  | .and, .f32 | .and, .f64 | .or, .f32 | .or, .f64 | .xor, .f32 | .xor, .f64 => false
  | _, _ => true

/-- REDSEQ takes add, min and max (R249). -/
def Aop.seqOk : Aop → Bool
  | .add | .min | .max => true
  | _ => false

/-- The selectors of PQRY (R94). -/
def pqrySel (s : BitVec 8) : Bool := decide (s.toNat ≤ 9) || (decide (16 ≤ s.toNat) && decide (s.toNat ≤ 31))

/-- The selectors of SVR (R77). -/
def svrSel (s : BitVec 8) : Bool := decide (s.toNat ≤ 12)

/-- The selectors of TINFO (R360). -/
def tinfoSel (s : BitVec 8) : Bool := decide (s.toNat ≤ 13) || (decide (16 ≤ s.toNat) && decide (s.toNat ≤ 47))

/-- The selectors of PMON.read (R375). -/
def pmonSel (s : BitVec 5) : Bool := decide (s.toNat ≤ 7) || decide (16 ≤ s.toNat)

def CntOpd.regWf : CntOpd → Bool
  | .reg r => r.wf
  | .imm _ => true

/-- A slot: a no-op names nothing (R36), so its fields are the code 0, v0. -/
def Slot.wf (s : Slot) : Bool :=
  s.d.wf && s.s.wf && (decide (s.op ≠ .noop) || (decide (s.d = .v 0) && decide (s.s = .v 0)))

def allTy (_ : Ty) : Bool := true
def allMod (_ : FMod) : Bool := true
def allWid (_ : Wid) : Bool := true

/-- Well-formedness of an instruction word. Step rows carry no word and are always well formed. -/
def Instr.wf : Instr → Bool
  | .iadd _ o | .isub _ o | .imul _ o | .imad _ o => o.wf allTy true
  | .imulh _ o | .iand _ o | .ior _ o | .ixor _ o | .iandn _ o => o.wf Ty.wide false
  | .imin _ o | .imax _ o | .shl _ o | .shr _ o | .sar _ o | .rotl _ o => o.wf allTy false
  | .iabs _ o => o.wf allTy true
  | .popc _ o | .clz _ o | .brev _ o | .mov _ o => o.wf Ty.wide false
  | .bfe _ o | .bfi _ o => o.d.wf && o.a.wf && o.b.wf && o.ty.wide
  | .icmp _ o => o.a.wf && o.b.wf && o.ty.wide
  | .sel _ o => o.d.wf && o.a.wf && o.b.wf && o.ty.wide
  | .plop _ _ => true
  | .movi _ o | .movhi _ o => o.d.wf
  | .aadd _ o => o.d.wf && o.a.wf && (match o.b with | .reg r => r.wf | .imm _ => o.signed && decide (o.sh = 0#3))
  | .imulw _ o => o.wf (fun t => decide (t = .u32) || decide (t = .s32)) false
  | .idiv _ o => o.wf Ty.wide true
  | .irem _ o => o.wf Ty.wide false
  | .fadd _ o | .fsub _ o | .fmul _ o | .ffma _ o => o.wf true allMod
  | .fmin _ o | .fmax _ o => o.wf true FMod.rneOnly
  | .fdiv _ o => o.wf true FMod.f32
  | .fcmp _ o | .dcmp _ o => o.a.wf && o.b.wf
  | .fdot2 _ o => o.d.wf && o.a.wf && o.b.wf
  | .frcp _ o | .frsq _ o | .fexp2 _ o | .flog2 _ o | .fsinpi _ o | .fcospi _ o => o.wf FMod.f32Rne
  | .fsqrt _ o => o.wf FMod.f32
  | .frint _ o => o.wf allMod
  | .fclass _ o => o.wf
  | .dadd _ o | .dsub _ o | .dmul _ o | .dfma _ o | .ddiv _ o => o.wf false FMod.dbl
  | .dmin _ o | .dmax _ o => o.wf false FMod.dblRne
  | .dsqrt _ o => o.wf FMod.dbl
  | .cvt _ o => o.wf false
  | .cvtd _ o => o.wf true
  | .cvtq _ o => o.wf false
  | .mxq _ o => o.wf true
  | .shfl _ o => o.d.wf && o.a.wf && (match o.b with | .reg r => r.wf | .imm _ => true)
  | .voteAll _ _ | .voteAny _ _ => true
  | .voteBal _ o => o.d.wf
  | .voteEq _ o => o.a.wf
  | .gred _ o | .gscan _ o => o.d.wf && o.a.wf
  | .topk _ o => o.d.wf && o.a.wf && o.b.wf && decide (o.k ≠ 0#7)
  | .matchLanes _ o => o.d.wf && o.a.wf
  | .rnd _ o => o.wf
  | .rndu _ o => o.wf
  | .seedr _ d => d.wf
  | .ld _ o | .st _ o | .scatter _ o => o.wf allWid true
  | .gather _ o => o.d.wf && o.a.wf && decide (o.wid ≠ .w128)
  | .atom _ o => o.d.wf && o.a.wf && o.b.wf && atPair o.aop o.ty
  | .cas _ o => o.d.wf && o.a.wf && o.b.wf
  | .red _ o => o.a.wf && o.b.wf && atPair o.aop o.ty
  | .redseq _ o => o.d.wf && o.a.wf && o.b.wf && o.aop.seqOk
  | .fence _ _ => true
  | .pref _ o => o.a.wf
  | .cmaintInv _ o | .cmaintClean _ o | .cmaintFlush _ o | .cmaintTinv _ o => o.a.wf && o.b.wf
  | .ldp _ o | .stp _ o => o.wf Wid.pool false
  | .pqry _ o => o.d.wf && pqrySel o.sel
  | .lds _ o | .sts _ o => o.wf allWid false
  | .atoms _ o => o.d.wf && o.a.wf && o.b.wf && decide (o.ty ≠ .f64)
  | .presQuery _ o => o.d.wf && o.a.wf
  | .presSet _ o | .presClear _ o => o.a.wf
  | .rrot _ o => o.a.wf && o.b.wf
  | .hclaim _ a => a.wf
  | .hfree _ => true
  | .hins _ o => o.wf
  | .hprobe _ o | .hdel _ o => o.wf
  | .hacc _ o => o.d.wf && o.a.wf && o.b.wf
  | .hdrain _ o => o.a.wf
  | .hstat _ o => o.d.wf && decide (o.sel.toNat < 6)
  | .rdefDefine _ o => o.wf
  | .rdefFree _ a | .rdefAdopt _ a => a.wf
  | .rpush _ o => o.a.wf && o.b.wf
  | .rpop _ o | .rsteal _ o => o.d.wf && o.a.wf
  | .renq _ o => o.d.wf && o.a.wf && o.b.wf
  | .gset _ _ | .gres _ _ => true
  | .qsub _ o => o.d.wf && o.a.wf
  | .qpop _ o | .qstat _ o => o.wf
  | .qwait _ o => o.wf
  | .mloop _ o => o.d.wf && o.a.wf && o.b.wf
  | .mwaitConsumed _ d | .mwaitDone _ d => d.wf
  | .mwaitAll _ => true
  | .mzero _ o => o.d.wf
  | .mdrain _ o | .mstore _ o => o.d.wf && o.a.wf && o.b.wf
  | .mstadd _ o => o.d.wf && o.a.wf && o.b.wf
  | .mldf _ o => o.d.wf && o.a.wf
  | .mscan _ o => o.d.wf && o.a.wf && o.b.wf
  | .mcarry _ o => o.d.wf && o.b.wf
  | .nop _ | .exit _ | .bra _ _ | .call _ _ => true
  | .brx _ o | .ret _ o => o.a.wf
  | .callx _ o => o.d.wf && o.a.wf
  | .join _ _ | .leave _ _ | .waitm _ _ | .mclr _ _ => true
  | .mget _ o => o.d.wf
  | .bari _ o => (match o.n with | .reg r => r.wf | .imm n => decide (1 ≤ n.toNat) && decide (n.toNat ≤ 1024))
  | .bara _ o | .barw _ o => o.r.wf
  | .bars _ _ => true
  | .sleep _ n => n.regWf
  | .sigw _ o => o.a.wf && o.b.wf && (match o.res with | some r => r.wf | none => true)
  | .trap _ _ | .bkpt _ _ | .tretResume _ _ | .tretSkip _ _ => true
  | .tretRedirect _ o => o.a.wf
  | .tkillThread _ _ | .tkillGroup _ _ | .tkillTeam _ _ | .tkillGrid _ _ => true
  | .tinfo _ o => o.d.wf && tinfoSel o.sel
  | .launch _ o => o.wf
  | .seedw _ a => a.wf
  | .svr _ o => o.d.wf && svrSel o.sel
  | .pmonRead _ o => o.d.wf && o.a.wf && pmonSel o.sel
  | .pmonArm _ a | .pmonFreeze _ a => a.wf
  | .illegalOp _ => true
  | .pairWord o => o.a.wf && o.b.wf
  | .teamQueuePush _ _ _ | .teamQueuePop _ _ | .tokenPop _ _ | .longResultLands _ _ | .gapExpiry _
  | .sleepExpiry _ | .handlerEntry _ | .segmentReload _ _ | .lineArrival _ _ | .consumedPoint _ | .donePoint _
  | .copy1d _ | .copy2d _ | .copy3d _ | .fill _ | .sort _ | .sortseg _ | .trvq _ | .trvpair _
  | .fact _ | .solve _ | .solvebwd _ | .lcp _ | .bred _ | .rowz _ | .rowcp _ | .embag _ | .coll _
  | .waveApply _ | .sigwRecheck _ | .contributionArrival _ | .contributionApply _ | .renqArrival _ | .overflowDelivery _
  | .hostNop _ | .hostLaunch _ | .hostSignal _ | .signalStore _ | .hostPacketSkipped _ | .dependencyMet _ _
  | .teamPlacement _ _ | .thawSwap _ _ | .teamRetire _ | .lullWatchdog _
  | .registerContext _ | .releaseContext _ | .preemptContext _ | .resumeContext _ | .preemptTeam _ | .kill _ | .setSeed _
  | .checkpoint _ | .checkpointTaken _ | .restore _ | .partitionChange _ | .partitionChangeComplete _
  | .assignHostWorkRings _ | .assignQueuePairs _ | .writeWindowEntry _ | .assignMonitor _ | .readMailbox _
  | .startSequence _ | .getVersion _ | .getCapabilities _ | .negotiateAlgorithms _ | .getDigests _ | .getCertificate _
  | .challenge _ | .getMeasurements _ | .powerClockLower _ | .monitorSample | .rdmaWrite _ _ _ | .rdmaRead _ _ _
  | .send _ _ | .fetchAndAdd _ _ _ | .compareAndSwap _ _ _ _ | .congestionNotification _ | .pauseFrame _ _ _ | .discardedFrame _
  | .collectiveChunk _ | .collectiveResult _ | .renqPacket _ | .remoteAccessError _ | .retryExhausted _
  | .remoteWriteAcknowledged _ | .powerOff | .arithmeticClockRestored _ | .firmwareUpdate _
  | .managementMonitorCommand _ _ => true

end Sys2Proof
end

