-- ==== Sys2Proof/Decode.lean ====
section
/-! DEFINITION. The decoder, total on any 64-bit word, and after it the encoder, both written from the layouts of R18 to R38 and each instruction's fields. A word that breaks a layout or names no opcode is the instruction ILLEGAL_OP (R40). -/

namespace Sys2Proof

/-- The fields of a full-form word (R18). -/
structure Fields where
  marker : Bool
  gap : BitVec 2
  gw : Bool
  pg : BitVec 4
  opc : BitVec 10
  d : BitVec 11
  a : BitVec 11
  b : BitVec 11
  x : BitVec 12
  deriving DecidableEq, Repr

/-- Cut a full-form word into its fields (R18). -/
def unpack (w : DWord) : Fields :=
  { marker := w.getLsbD 62, gap := w.extractLsb' 60 2, gw := w.getLsbD 59, pg := w.extractLsb' 55 4,
    opc := w.extractLsb' 45 10, d := w.extractLsb' 34 11, a := w.extractLsb' 23 11, b := w.extractLsb' 12 11,
    x := w.extractLsb' 0 12 }

/-- Lay the fields of a full-form word in place (R18); FORM is 0. -/
def pack (f : Fields) : DWord :=
  0#1 ++ bit1 f.marker ++ f.gap ++ bit1 f.gw ++ f.pg ++ f.opc ++ f.d ++ f.a ++ f.b ++ f.x

/-- The register a field names (R21). -/
def Reg.ofCode (c : BitVec 11) : Reg :=
  if h : c.toNat < 1536 then .v ⟨c.toNat, h⟩
  else if h : c.toNat - 1536 < 64 then .s ⟨c.toNat - 1536, h⟩
  else if h : c.toNat - 1600 < 64 then .q ⟨c.toNat - 1600, h⟩
  else if h : c.toNat - 1664 < 64 then .k ⟨c.toNat - 1664, h⟩
  else if h : c.toNat - 1728 < 20 then .sv ⟨c.toNat - 1728, h⟩
  else if h : 1760 ≤ c.toNat ∧ c.toNat - 1760 < 32 then .h ⟨c.toNat - 1760, h.2⟩
  else .rsv c

/-- The field that names a register (R21). -/
def Reg.code : Reg → BitVec 11
  | .v n => BitVec.ofNat 11 n.val
  | .s n => BitVec.ofNat 11 (1536 + n.val)
  | .q n => BitVec.ofNat 11 (1600 + n.val)
  | .k n => BitVec.ofNat 11 (1664 + n.val)
  | .sv n => BitVec.ofNat 11 (1728 + n.val)
  | .h n => BitVec.ofNat 11 (1760 + n.val)
  | .rsv c => c

/-! ### The coded fields -/

def Ty.ofBits (b : BitVec 3) : Ty :=
  match b.toNat with
  | 0 => .u32 | 1 => .s32 | 2 => .u64 | 3 => .s64 | 4 => .u16x2 | 5 => .s16x2 | 6 => .u8x4 | _ => .s8x4
def Ty.bits : Ty → BitVec 3
  | .u32 => 0 | .s32 => 1 | .u64 => 2 | .s64 => 3 | .u16x2 => 4 | .s16x2 => 5 | .u8x4 => 6 | .s8x4 => 7

def Rm.ofBits (b : BitVec 3) : Option Rm :=
  match b.toNat with
  | 0 => some .rne | 1 => some .rtz | 2 => some .rup | 3 => some .rdn | 4 => some .rna | _ => none
def Rm.bits : Rm → BitVec 3
  | .rne => 0 | .rtz => 1 | .rup => 2 | .rdn => 3 | .rna => 4

def Pk.ofBits (b : BitVec 2) : Option Pk :=
  match b.toNat with
  | 0 => some .f32 | 1 => some .bf16x2 | 2 => some .f16x2 | _ => none
def Pk.bits : Pk → BitVec 2
  | .f32 => 0 | .bf16x2 => 1 | .f16x2 => 2

def ICond.ofBits (b : BitVec 4) : Option ICond :=
  match b.toNat with
  | 0 => some .eq | 1 => some .ne | 2 => some .lt | 3 => some .le | 4 => some .gt | 5 => some .ge | _ => none
def ICond.bits : ICond → BitVec 4
  | .eq => 0 | .ne => 1 | .lt => 2 | .le => 3 | .gt => 4 | .ge => 5

def FCond.ofBits (b : BitVec 4) : Option FCond :=
  match b.toNat with
  | 0 => some .eq | 1 => some .ne | 2 => some .lt | 3 => some .le | 4 => some .gt | 5 => some .ge
  | 6 => some .ord | 7 => some .uno | _ => none
def FCond.bits : FCond → BitVec 4
  | .eq => 0 | .ne => 1 | .lt => 2 | .le => 3 | .gt => 4 | .ge => 5 | .ord => 6 | .uno => 7

def Wid.ofBits (b : BitVec 3) : Option Wid :=
  match b.toNat with
  | 0 => some .w8 | 1 => some .w16 | 2 => some .w32 | 3 => some .w64 | 4 => some .w128 | _ => none
def Wid.bits : Wid → BitVec 3
  | .w8 => 0 | .w16 => 1 | .w32 => 2 | .w64 => 3 | .w128 => 4

def MOrd.ofBits (b : BitVec 2) : MOrd :=
  match b.toNat with
  | 0 => .plain | 1 => .acquire | 2 => .release | _ => .sc
def MOrd.bits : MOrd → BitVec 2
  | .plain => 0 | .acquire => 1 | .release => 2 | .sc => 3

def Sco.ofBits (b : BitVec 3) : Option Sco :=
  match b.toNat with
  | 0 => some .thread | 1 => some .group | 2 => some .team | 3 => some .cluster | 4 => some .die
  | 5 => some .module | 6 => some .system | _ => none
def Sco.bits : Sco → BitVec 3
  | .thread => 0 | .group => 1 | .team => 2 | .cluster => 3 | .die => 4 | .module => 5 | .system => 6

def Ch.ofBits (b : BitVec 2) : Ch :=
  match b.toNat with
  | 0 => .dflt | 1 => .streaming | 2 => .keep | _ => .bypassL1
def Ch.bits : Ch → BitVec 2
  | .dflt => 0 | .streaming => 1 | .keep => 2 | .bypassL1 => 3

def Aop.ofBits (b : BitVec 3) : Option Aop :=
  match b.toNat with
  | 0 => some .add | 1 => some .min | 2 => some .max | 3 => some .and | 4 => some .or | 5 => some .xor
  | 6 => some .exch | _ => none
def Aop.bits : Aop → BitVec 3
  | .add => 0 | .min => 1 | .max => 2 | .and => 3 | .or => 4 | .xor => 5 | .exch => 6

def SAop.ofBits (b : BitVec 3) : Option SAop :=
  match b.toNat with
  | 0 => some .add | 1 => some .min | 2 => some .max | 3 => some .exch | 4 => some .cas | _ => none
def SAop.bits : SAop → BitVec 3
  | .add => 0 | .min => 1 | .max => 2 | .exch => 3 | .cas => 4

def ATy.ofBits (b : BitVec 3) : Option ATy :=
  match b.toNat with
  | 0 => some .u32 | 1 => some .s32 | 2 => some .u64 | 3 => some .s64 | 4 => some .f32 | 5 => some .f64 | _ => none
def ATy.bits : ATy → BitVec 3
  | .u32 => 0 | .s32 => 1 | .u64 => 2 | .s64 => 3 | .f32 => 4 | .f64 => 5

def Hint.ofBits (b : BitVec 2) : Hint :=
  match b.toNat with
  | 0 => .none | 1 => .likely | 2 => .unlikely | _ => .uniform
def Hint.bits : Hint → BitVec 2
  | .none => 0 | .likely => 1 | .unlikely => 2 | .uniform => 3

def Cvt.ofBits (b : BitVec 4) : Option Cvt :=
  match b.toNat with
  | 0 => some .f32 | 1 => some .bf16 | 2 => some .f16 | 10 => some .s32 | 11 => some .u32 | 12 => some .s64
  | 13 => some .u64 | 14 => some .f64 | _ => none
def Cvt.bits : Cvt → BitVec 4
  | .f32 => 0 | .bf16 => 1 | .f16 => 2 | .s32 => 10 | .u32 => 11 | .s64 => 12 | .u64 => 13 | .f64 => 14

def GOp.ofBits (b : BitVec 4) : Option GOp :=
  match b.toNat with
  | 0 => some .fadd | 1 => some .fmin | 2 => some .fmax | 3 => some .iadd | 4 => some .smin | 5 => some .smax
  | 6 => some .umin | 7 => some .umax | 8 => some .and | 9 => some .or | 10 => some .xor | 11 => some .dadd | _ => none
def GOp.bits : GOp → BitVec 4
  | .fadd => 0 | .fmin => 1 | .fmax => 2 | .iadd => 3 | .smin => 4 | .smax => 5 | .umin => 6 | .umax => 7
  | .and => 8 | .or => 9 | .xor => 10 | .dadd => 11

def ShMode.ofBits (b : BitVec 2) : ShMode :=
  match b.toNat with
  | 0 => .idx | 1 => .up | 2 => .down | _ => .xor
def ShMode.bits : ShMode → BitVec 2
  | .idx => 0 | .up => 1 | .down => 2 | .xor => 3

def TkTy.ofBits (b : BitVec 3) : Option TkTy :=
  match b.toNat with
  | 0 => some .f32 | 1 => some .s32 | 2 => some .u32 | _ => none
def TkTy.bits : TkTy → BitVec 3
  | .f32 => 0 | .s32 => 1 | .u32 => 2

def HTy.ofBits (b : BitVec 2) : Option HTy :=
  match b.toNat with
  | 0 => some .u64 | 1 => some .f32x2 | 2 => some .f64 | _ => none
def HTy.bits : HTy → BitVec 2
  | .u64 => 0 | .f32x2 => 1 | .f64 => 2

def FKind.ofBits (b : BitVec 2) : FKind :=
  match b.toNat with
  | 0 => .full | 1 => .acquire | 2 => .release | _ => .sc
def FKind.bits : FKind → BitVec 2
  | .full => 0 | .acquire => 1 | .release => 2 | .sc => 3

def PTgt.ofBits (b : BitVec 2) : Option PTgt :=
  match b.toNat with
  | 0 => some .l1 | 1 => some .home | 2 => some .near | _ => none
def PTgt.bits : PTgt → BitVec 2
  | .l1 => 0 | .home => 1 | .near => 2

def CSco.ofBits (b : BitVec 3) : Option CSco :=
  match b.toNat with
  | 4 => some .die | 5 => some .module | 6 => some .system | _ => none
def CSco.bits : CSco → BitVec 3
  | .die => 4 | .module => 5 | .system => 6

def SCond.ofBits (b : BitVec 2) : Option SCond :=
  match b.toNat with
  | 0 => some .ge | 1 => some .eq | 2 => some .ne | _ => none
def SCond.bits : SCond → BitVec 2
  | .ge => 0 | .eq => 1 | .ne => 2

/-- Slot opcodes (R36). -/
def SlotOp.ofBits (b : BitVec 7) : Option SlotOp :=
  match b.toNat with
  | 0x00 => some .iadd | 0x01 => some .isub | 0x02 => some .imul | 0x05 => some .imin | 0x06 => some .imax
  | 0x08 => some .iand | 0x09 => some .ior | 0x0A => some .ixor | 0x0C => some .shl | 0x0D => some .shr
  | 0x0E => some .sar | 0x18 => some .mov | 0x40 => some .fadd | 0x41 => some .fsub | 0x42 => some .fmul
  | 0x44 => some .fmin | 0x45 => some .fmax | 0x7F => some .noop | _ => none
def SlotOp.bits : SlotOp → BitVec 7
  | .iadd => 0x00 | .isub => 0x01 | .imul => 0x02 | .imin => 0x05 | .imax => 0x06
  | .iand => 0x08 | .ior => 0x09 | .ixor => 0x0A | .shl => 0x0C | .shr => 0x0D
  | .sar => 0x0E | .mov => 0x18 | .fadd => 0x40 | .fsub => 0x41 | .fmul => 0x42
  | .fmin => 0x44 | .fmax => 0x45 | .noop => 0x7F

/-! ### Reading the layouts -/

/-- The header of a full-form word. -/
def Fields.hdr (f : Fields) : Hdr := { marker := f.marker, gap := f.gap, gw := f.gw, pg := f.pg }

def Fields.dr (f : Fields) : Reg := Reg.ofCode f.d
def Fields.ar (f : Fields) : Reg := Reg.ofCode f.a
def Fields.br (f : Fields) : Reg := Reg.ofCode f.b

/-- Bits hi:lo of the modifier field, given as lo and width. -/
def Fields.xf (f : Fields) (lo len : Nat) : BitVec len := f.x.extractLsb' lo len

/-- Bit i of the modifier field. -/
def Fields.xb (f : Fields) (i : Nat) : Bool := f.x.getLsbD i

/-- Keep a reading only when the fields a layout reserves are zero (R24). -/
def req {α : Type} (c : Bool) (r : Option α) : Option α := if c then r else none

/-- The 22-bit immediate of R25 and R26: B above X[10:0]. -/
def Fields.imm22 (f : Fields) : BitVec 22 := f.b ++ f.xf 0 11

/-- Class 0 REG3 (R25, R31). -/
def Fields.i3 (f : Fields) : Option I3 :=
  if f.xb 11 then some { d := f.dr, a := f.ar, b := .imm f.imm22, ty := .s32, sat := false }
  else req (f.xf 4 7 == 0) (some { d := f.dr, a := f.ar, b := .reg f.br, ty := Ty.ofBits (f.xf 0 3), sat := f.xb 3 })

/-- Class 0 REG2: B and X[11] are zero (R24). -/
def Fields.i2 (f : Fields) : Option I2 :=
  req (f.b == 0 && f.xf 4 8 == 0) (some { d := f.dr, a := f.ar, ty := Ty.ofBits (f.xf 0 3), sat := f.xb 3 })

/-- The class 1 modifier field (R32), without IMM. -/
def Fields.fmod (f : Fields) : Option FMod :=
  match Pk.ofBits (f.xf 4 2), Rm.ofBits (f.xf 0 3) with
  | some pk, some rm =>
    some { satf := f.xb 10, absb := f.xb 9, absa := f.xb 8, negb := f.xb 7, nega := f.xb 6, pk := pk, ftz := f.xb 3, rm := rm }
  | _, _ => none

/-- Class 1 and 2 REG3. -/
def Fields.f3 (f : Fields) : Option F3 :=
  if f.xb 11 then some { d := f.dr, a := f.ar, b := .imm f.imm22 }
  else f.fmod.map (fun m => { d := f.dr, a := f.ar, b := .reg f.br m })

/-- Class 1 and 2 REG2. -/
def Fields.f2 (f : Fields) : Option F2 :=
  req (f.b == 0 && !f.xb 11) (f.fmod.map (fun m => { d := f.dr, a := f.ar, x := m }))

def Fields.fcmpF (f : Fields) : Option FCmpF :=
  match FCond.ofBits (f.xf 6 4) with
  | some c =>
    req (f.d.extractLsb' 3 8 == 0 && f.xf 10 2 == 0 && f.xf 4 2 == 0 && f.xf 0 3 == 0)
      (some { p := f.d.extractLsb' 0 3, a := f.ar, b := f.br, cond := c, ftz := f.xb 3 })
  | none => none

/-- The predicate index of a D field (R114). -/
def Fields.pd (f : Fields) : BitVec 3 := f.d.extractLsb' 0 3
/-- D[10:3] is zero (R114). -/
def Fields.pdOk (f : Fields) : Bool := f.d.extractLsb' 3 8 == 0

/-- CVTQ and MXQ (R132): B holds FMT, PREC, READ, UNS and a reserved bit. -/
def Fields.qfmt (f : Fields) : Option QFmtF :=
  match Rm.ofBits (f.xf 0 3) with
  | some rm =>
    req (!f.b.getLsbD 0 && f.xf 4 7 == 0)
      (some { d := f.dr, a := f.ar, fmt := f.b.extractLsb' 7 4, prec := f.b.extractLsb' 4 3, read := f.b.extractLsb' 2 2,
              uns := f.b.getLsbD 1, widen := f.xb 11, sat := f.xb 3, rm := rm })
  | none => none

/-- MEM (R28). -/
def Fields.mem (f : Fields) : Option MemF :=
  match Wid.ofBits (f.xf 9 3), Sco.ofBits (f.xf 4 3) with
  | some w, some sc =>
    req (f.xf 0 2 == 0)
      (some { d := f.dr, a := f.ar, off := f.b, wid := w, ord := MOrd.ofBits (f.xf 7 2), sco := sc, ch := Ch.ofBits (f.xf 2 2) })
  | _, _ => none

/-- AT (R29). -/
def Fields.atF (f : Fields) : Option AtF :=
  match Aop.ofBits (f.xf 9 3), Sco.ofBits (f.xf 4 3), ATy.ofBits (f.xf 1 3) with
  | some op, some sc, some ty =>
    req (!f.xb 0)
      (some { d := f.dr, a := f.ar, b := f.br, aop := op, ord := MOrd.ofBits (f.xf 7 2), sco := sc, ty := ty })
  | _, _, _ => none

/-- CMAINT's operands (R227). -/
def Fields.cmaint (f : Fields) : Option CmaintF :=
  match CSco.ofBits (f.xf 4 3) with
  | some sc => req (f.d == 0 && f.xf 7 5 == 0 && f.xf 2 2 == 0) (some { a := f.ar, b := f.br, sco := sc })
  | none => none

/-- D and A alone; B and X zero. -/
def Fields.r2 (f : Fields) : Option R2 := req (f.b == 0 && f.x == 0) (some { d := f.dr, a := f.ar })
/-- D, A and B; X zero. -/
def Fields.r3 (f : Fields) : Option R3 := req (f.x == 0) (some { d := f.dr, a := f.ar, b := f.br })
/-- A alone; D, B and X zero. -/
def Fields.r1a (f : Fields) : Option Reg := req (f.d == 0 && f.b == 0 && f.x == 0) (some f.ar)
/-- Every operand field zero (NONE). -/
def Fields.none0 (f : Fields) : Bool := f.d == 0 && f.a == 0 && f.b == 0 && f.x == 0
/-- A mask, barrier or guard number in X[3:0], every other field zero. -/
def Fields.x4 (f : Fields) : Option (BitVec 4) :=
  req (f.d == 0 && f.a == 0 && f.b == 0 && f.xf 4 8 == 0) (some (f.xf 0 4))

/-- BR (R27): OFF is bits 44:13 of the word, HINT bits 12:11. -/
def Fields.brF (f : Fields) : Option BrF :=
  req (f.xf 0 11 == 0)
    (some { off := f.d ++ f.a ++ f.b.extractLsb' 1 10, hint := Hint.ofBits (f.b.extractLsb' 0 1 ++ f.xf 11 1) })

/-- A count in B with IMM, or a register in A without (BARI, SLEEP). -/
def Fields.cnt (f : Fields) : Option CntOpd :=
  if f.xb 4 then req (f.a == 0) (some (.imm f.b)) else req (f.b == 0) (some (.reg f.ar))

/-- Codes of TKILL (R361). -/
def Fields.tk (f : Fields) : Option (BitVec 8) :=
  req (f.d == 0 && f.a == 0 && f.b == 0 && f.xf 2 2 == 0) (some (f.xf 4 8))

/-- IMMW (R26). -/
def Fields.immw (f : Fields) : Option ImmF := req (f.a == 0 && !f.xb 11) (some { d := f.dr, imm := f.imm22 })

/-- ZERO, TOK and TAG of MDRAIN and MSTORE, POOL of MSTADD in ZERO's place (R168). -/
def Fields.mdr (f : Fields) : Option MdrainF :=
  req (f.xf 10 2 == 0)
    (some { d := f.dr, a := f.ar, b := f.br, zero := f.xb 9, tok := f.xb 8, tag := f.xf 0 8 })

/-! ### The opcode map (R39) -/

def decClass0 (f : Fields) (h : Hdr) : Option Instr :=
  match f.opc.toNat with
  | 0x000 => f.i3.map (.iadd h)
  | 0x001 => f.i3.map (.isub h)
  | 0x002 => f.i3.map (.imul h)
  | 0x003 => f.i3.map (.imulh h)
  | 0x004 => f.i3.map (.imad h)
  | 0x005 => f.i3.map (.imin h)
  | 0x006 => f.i3.map (.imax h)
  | 0x007 => f.i2.map (.iabs h)
  | 0x008 => f.i3.map (.iand h)
  | 0x009 => f.i3.map (.ior h)
  | 0x00A => f.i3.map (.ixor h)
  | 0x00B => f.i3.map (.iandn h)
  | 0x00C => f.i3.map (.shl h)
  | 0x00D => f.i3.map (.shr h)
  | 0x00E => f.i3.map (.sar h)
  | 0x00F => f.i3.map (.rotl h)
  | 0x010 => f.i2.map (.popc h)
  | 0x011 => f.i2.map (.clz h)
  | 0x012 => f.i2.map (.brev h)
  | 0x013 => req (f.xf 10 2 == 0 && !f.xb 3)
      (some (.bfe h { d := f.dr, a := f.ar, b := f.br, lenM1 := f.xf 4 6, ty := Ty.ofBits (f.xf 0 3) }))
  | 0x014 => req (f.xf 10 2 == 0 && !f.xb 3)
      (some (.bfi h { d := f.dr, a := f.ar, b := f.br, lenM1 := f.xf 4 6, ty := Ty.ofBits (f.xf 0 3) }))
  | 0x015 => (match ICond.ofBits (f.xf 4 4) with
      | some c => req (f.pdOk && f.xf 8 4 == 0 && !f.xb 3)
          (some (.icmp h { p := f.pd, a := f.ar, b := f.br, cond := c, ty := Ty.ofBits (f.xf 0 3) }))
      | none => none)
  | 0x016 => req (f.xf 8 4 == 0 && !f.xb 3)
      (some (.sel h { d := f.dr, a := f.ar, b := f.br, p := f.xf 4 3, neg := f.xb 7, ty := Ty.ofBits (f.xf 0 3) }))
  | 0x017 => req (f.pdOk && f.a.extractLsb' 9 2 == 0 && f.b == 0 && f.xf 8 4 == 0)
      (some (.plop h { pd := f.pd, pa := f.a.extractLsb' 0 3, pb := f.a.extractLsb' 3 3, pc := f.a.extractLsb' 6 3, tt := f.xf 0 8 }))
  | 0x018 => f.i2.map (.mov h)
  | 0x019 => f.immw.map (.movi h)
  | 0x01A => f.immw.map (.movhi h)
  | 0x01B =>
      if f.xb 11 then some (.aadd h { d := f.dr, a := f.ar, b := .imm f.imm22, signed := true, sh := 0 })
      else req (f.xf 7 4 == 0 && !f.xb 3 && f.xf 1 2 == 0)
        (some (.aadd h { d := f.dr, a := f.ar, b := .reg f.br, signed := f.xb 0, sh := f.xf 4 3 }))
  | 0x01C => f.i3.map (.imulw h)
  | 0x01D => f.i3.map (.idiv h)
  | 0x01E => f.i3.map (.irem h)
  | _ => none

def decClass1 (f : Fields) (h : Hdr) : Option Instr :=
  match f.opc.toNat with
  | 0x080 => f.f3.map (.fadd h)
  | 0x081 => f.f3.map (.fsub h)
  | 0x082 => f.f3.map (.fmul h)
  | 0x083 => f.f3.map (.ffma h)
  | 0x084 => f.f3.map (.fmin h)
  | 0x085 => f.f3.map (.fmax h)
  | 0x086 => f.fcmpF.map (.fcmp h)
  | 0x087 => (match Rm.ofBits (f.xf 0 3) with
      | some rm => req (f.xf 6 6 == 0 && (f.xf 4 2 == 1 || f.xf 4 2 == 2))
          (some (.fdot2 h { d := f.dr, a := f.ar, b := f.br, f16 := f.xf 4 2 == 2, ftz := f.xb 3, rm := rm }))
      | none => none)
  | 0x088 => f.f2.map (.frcp h)
  | 0x089 => f.f2.map (.frsq h)
  | 0x08A => f.f2.map (.fsqrt h)
  | 0x08B => f.f3.map (.fdiv h)
  | 0x08C => f.f2.map (.fexp2 h)
  | 0x08D => f.f2.map (.flog2 h)
  | 0x08E => f.f2.map (.fsinpi h)
  | 0x08F => f.f2.map (.fcospi h)
  | 0x090 => f.f2.map (.frint h)
  | 0x091 => f.r2.map (.fclass h)
  | _ => none

def Fields.cvtF (f : Fields) : Option CvtF :=
  match Cvt.ofBits (f.xf 8 4), Cvt.ofBits (f.xf 4 4), Rm.ofBits (f.xf 0 3) with
  | some dst, some src, some rm =>
    req (f.b == 0) (some { d := f.dr, a := f.ar, dst := dst, src := src, sat := f.xb 3, rm := rm })
  | _, _, _ => none

def decClass2 (f : Fields) (h : Hdr) : Option Instr :=
  match f.opc.toNat with
  | 0x100 => f.f3.map (.dadd h)
  | 0x101 => f.f3.map (.dsub h)
  | 0x102 => f.f3.map (.dmul h)
  | 0x103 => f.f3.map (.dfma h)
  | 0x104 => f.f3.map (.dmin h)
  | 0x105 => f.f3.map (.dmax h)
  | 0x106 => f.fcmpF.map (.dcmp h)
  | 0x107 => f.f3.map (.ddiv h)
  | 0x108 => f.f2.map (.dsqrt h)
  | 0x110 => f.cvtF.map (.cvt h)
  | 0x111 => f.qfmt.map (.cvtq h)
  | 0x112 => f.cvtF.map (.cvtd h)
  | 0x113 => f.qfmt.map (.mxq h)
  | _ => none

def Fields.gredF (f : Fields) : Option GredF :=
  match GOp.ofBits (f.xf 0 4) with
  | some op => req (f.b == 0 && f.xf 4 8 == 0) (some { d := f.dr, a := f.ar, op := op })
  | none => none

def decClass3 (f : Fields) (h : Hdr) : Option Instr :=
  match f.opc.toNat with
  | 0x180 =>
      if hl : (f.xf 3 3).toNat < 7 then
        req (f.xf 7 5 == 0 && (!f.xb 2 || f.b.extractLsb' 6 5 == 0))
          (some (.shfl h { d := f.dr, a := f.ar, b := if f.xb 2 then .imm (f.b.extractLsb' 0 6) else .reg f.br,
                           wide := f.xb 6, lw := ⟨(f.xf 3 3).toNat, hl⟩, mode := ShMode.ofBits (f.xf 0 2) }))
      else none
  | 0x181 =>
      req (f.b == 0 && f.xf 7 5 == 0)
        (match (f.xf 0 2).toNat with
         | 0 => req (f.pdOk && f.a == 0 && !f.xb 6) (some (.voteAll h { p := f.pd, ps := f.xf 2 3, neg := f.xb 5 }))
         | 1 => req (f.pdOk && f.a == 0 && !f.xb 6) (some (.voteAny h { p := f.pd, ps := f.xf 2 3, neg := f.xb 5 }))
         | 2 => req (f.a == 0 && !f.xb 6) (some (.voteBal h { d := f.dr, ps := f.xf 2 3, neg := f.xb 5 }))
         | _ => req (f.pdOk && f.xf 2 4 == 0) (some (.voteEq h { p := f.pd, a := f.ar, wide := f.xb 6 })))
  | 0x182 => f.gredF.map (.gred h)
  | 0x183 => f.gredF.map (.gscan h)
  | 0x184 => (match TkTy.ofBits (f.xf 0 3) with
      | some ty => req (!f.xb 11)
          (some (.topk h { d := f.dr, a := f.ar, b := f.br, k := f.xf 4 7, nz := f.xb 3, ty := ty }))
      | none => none)
  | 0x185 => req (f.b == 0 && f.xf 1 11 == 0) (some (.matchLanes h { d := f.dr, a := f.ar, wide := f.xb 0 }))
  | 0x186 => f.r3.map (.rnd h)
  | 0x187 => f.r2.map (.rndu h)
  | 0x188 => req (f.a == 0 && f.b == 0 && f.x == 0) (some (.seedr h f.dr))
  | _ => none

def decClass4 (f : Fields) (h : Hdr) : Option Instr :=
  match f.opc.toNat with
  | 0x200 => f.mem.map (.ld h)
  | 0x201 => f.mem.map (.st h)
  | 0x202 => (match Wid.ofBits (f.xf 9 3), Sco.ofBits (f.xf 4 3) with
      | some w, some sc => some (.gather h { d := f.dr, a := f.ar, off := f.b, wid := w, ord := MOrd.ofBits (f.xf 7 2), sco := sc, mask := f.xf 0 4 })
      | _, _ => none)
  | 0x203 => f.mem.map (.scatter h)
  | 0x204 => f.atF.map (.atom h)
  | 0x205 => f.atF.bind (fun o => req (decide (o.aop = .add))
      (some (.cas h { d := o.d, a := o.a, b := o.b, ord := o.ord, sco := o.sco, ty := o.ty })))
  | 0x206 => f.atF.bind (fun o => req (f.d == 0)
      (some (.red h { a := o.a, b := o.b, aop := o.aop, ord := o.ord, sco := o.sco, ty := o.ty })))
  | 0x207 => f.atF.map (.redseq h)
  | 0x208 => (match Sco.ofBits (f.xf 4 3) with
      | some sc => req (f.d == 0 && f.a == 0 && f.b == 0 && f.xf 9 3 == 0 && f.xf 0 4 == 0)
          (some (.fence h { kind := FKind.ofBits (f.xf 7 2), sco := sc }))
      | none => none)
  | 0x209 => (match PTgt.ofBits (f.xf 2 2) with
      | some t => req (f.d == 0 && f.xf 4 4 == 0 && f.xf 0 2 == 0)
          (some (.pref h { a := f.ar, off := f.b, nM1 := f.xf 8 4, tgt := t }))
      | none => none)
  | 0x20A => f.cmaint.bind (fun o => match (f.xf 0 2).toNat with
      | 0 => some (.cmaintInv h o) | 1 => some (.cmaintClean h o) | 2 => some (.cmaintFlush h o) | _ => some (.cmaintTinv h o))
  | 0x210 => f.mem.map (.ldp h)
  | 0x211 => f.mem.map (.stp h)
  | 0x212 => req (f.a == 0 && f.b == 0 && f.xf 8 4 == 0) (some (.pqry h { d := f.dr, sel := f.xf 0 8 }))
  | 0x218 => f.mem.map (.lds h)
  | 0x219 => f.mem.map (.sts h)
  | 0x21A => (match SAop.ofBits (f.xf 9 3), ATy.ofBits (f.xf 1 3) with
      | some op, some ty => req (f.xf 4 3 == 0 && !f.xb 0)
          (some (.atoms h { d := f.dr, a := f.ar, b := f.br, aop := op, ord := MOrd.ofBits (f.xf 7 2), ty := ty }))
      | _, _ => none)
  | 0x21B => req (f.b == 0 && f.xf 9 3 == 0)
      (match (f.xf 0 2).toNat with
       | 0 => req (f.xf 7 2 == 0) (some (.presQuery h { d := f.dr, a := f.ar, nM1 := f.xf 2 5 }))
       | 1 => req (f.d == 0) (some (.presSet h { a := f.ar, nM1 := f.xf 2 7 }))
       | 2 => req (f.d == 0) (some (.presClear h { a := f.ar, nM1 := f.xf 2 7 }))
       | _ => none)
  | 0x21C => req (f.d == 0 && f.xf 1 3 == 0) (some (.rrot h { a := f.ar, b := f.br, tag := f.xf 4 8, back := f.xb 0 }))
  | _ => none

def decClass5 (f : Fields) (h : Hdr) : Option Instr :=
  match f.opc.toNat with
  | 0x280 => f.r1a.map (.hclaim h)
  | 0x281 => req f.none0 (some (.hfree h))
  | 0x282 => f.r3.map (.hins h)
  | 0x283 => f.r2.map (.hprobe h)
  | 0x284 => f.r2.map (.hdel h)
  | 0x285 => (match HTy.ofBits (f.xf 0 2) with
      | some ty => req (f.xf 2 10 == 0) (some (.hacc h { d := f.dr, a := f.ar, b := f.br, ty := ty }))
      | none => none)
  | 0x286 => req (f.d == 0 && f.b == 0 && f.xf 0 4 == 0) (some (.hdrain h { a := f.ar, tag := f.xf 4 8 }))
  | 0x287 => req (f.a == 0 && f.b == 0 && f.xf 3 9 == 0) (some (.hstat h { d := f.dr, sel := f.xf 0 3 }))
  | 0x290 => req (f.b == 0 && f.xf 2 10 == 0)
      (match (f.xf 0 2).toNat with
       | 0 => some (.rdefDefine h { d := f.dr, a := f.ar })
       | 1 => req (f.d == 0) (some (.rdefFree h f.ar))
       | 2 => req (f.d == 0) (some (.rdefAdopt h f.ar))
       | _ => none)
  | 0x291 => req (f.pdOk && f.xf 2 10 == 0) (some (.rpush h { p := f.pd, a := f.ar, b := f.br, w := f.xf 0 2 }))
  | 0x292 => req (f.b == 0 && f.xf 2 10 == 0) (some (.rpop h { d := f.dr, a := f.ar, w := f.xf 0 2 }))
  | 0x293 => req (f.b == 0 && f.xf 2 10 == 0) (some (.rsteal h { d := f.dr, a := f.ar, w := f.xf 0 2 }))
  | 0x294 => req (f.xf 2 10 == 0) (some (.renq h { d := f.dr, a := f.ar, b := f.br, w := f.xf 0 2 }))
  | 0x2A0 => f.x4.map (.gset h)
  | 0x2A1 => req (f.d == 0 && f.a == 0 && f.b == 0 && f.xf 8 4 == 0)
      (some (.gres h { neg := f.xb 7, p := f.xf 4 3, g := f.xf 0 4 }))
  | 0x2A2 => req (!f.b.getLsbD 0 && f.x == 0)
      (if f.b.extractLsb' 1 5 == 0 then some (.qsub h { d := f.dr, a := f.ar, cnt := f.b.extractLsb' 6 5, grd := none })
       else req (f.b.getLsbD 5) (some (.qsub h { d := f.dr, a := f.ar, cnt := f.b.extractLsb' 6 5, grd := some (f.b.extractLsb' 1 4) })))
  | 0x2A3 => f.r2.map (.qpop h)
  | 0x2A4 => f.r2.map (.qstat h)
  | 0x2A5 => f.r3.map (.qwait h)
  | _ => none

def decClass6 (f : Fields) (h : Hdr) : Option Instr :=
  match f.opc.toNat with
  | 0x300 => some (.mloop h { d := f.dr, a := f.ar, b := f.br, stepsM1 := f.x })
  | 0x301 => req (f.a == 0 && f.b == 0 && f.xf 2 10 == 0)
      (match (f.xf 0 2).toNat with
       | 0 => some (.mwaitConsumed h f.dr)
       | 1 => some (.mwaitDone h f.dr)
       | 2 => req (f.d == 0) (some (.mwaitAll h))
       | _ => none)
  | 0x302 => req (f.a == 0 && f.b == 0 && f.xf 9 3 == 0) (some (.mzero h { d := f.dr, tok := f.xb 8, tag := f.xf 0 8 }))
  | 0x303 => f.mdr.map (.mdrain h)
  | 0x304 => f.mdr.map (.mstore h)
  | 0x305 => f.mdr.map (fun o => .mstadd h { d := o.d, a := o.a, b := o.b, pool := o.zero, tok := o.tok, tag := o.tag })
  | 0x306 => req (f.b == 0) (some (.mldf h { d := f.dr, a := f.ar, nM1 := f.xf 9 3, tok := f.xb 8, tag := f.xf 0 8 }))
  | 0x307 => req (f.xf 2 10 == 0) (some (.mscan h { d := f.dr, a := f.ar, b := f.br, cs := f.xf 0 2 }))
  | 0x308 => req (f.a == 0 && f.xf 4 8 == 0)
      (some (.mcarry h { d := f.dr, b := f.br, clear := f.xb 3, reset := f.xb 2, cs := f.xf 0 2 }))
  | _ => none

def decClass7 (f : Fields) (h : Hdr) : Option Instr :=
  match f.opc.toNat with
  | 0x380 => req f.none0 (some (.nop h))
  | 0x381 => f.brF.map (.bra h)
  | 0x382 => req (f.d == 0 && f.b == 0 && f.xf 2 10 == 0) (some (.brx h { a := f.ar, hint := Hint.ofBits (f.xf 0 2) }))
  | 0x383 => f.brF.map (.call h)
  | 0x384 => req (f.b == 0 && f.xf 2 10 == 0) (some (.callx h { d := f.dr, a := f.ar, hint := Hint.ofBits (f.xf 0 2) }))
  | 0x385 => req (f.d == 0 && f.b == 0 && f.xf 2 10 == 0) (some (.ret h { a := f.ar, hint := Hint.ofBits (f.xf 0 2) }))
  | 0x386 => req f.none0 (some (.exit h))
  | 0x387 => f.x4.map (.join h)
  | 0x388 => f.x4.map (.leave h)
  | 0x389 => f.x4.map (.waitm h)
  | 0x38A => f.x4.map (.mclr h)
  | 0x38B => req (f.a == 0 && f.b == 0 && f.xf 5 7 == 0) (some (.mget h { d := f.dr, arr := f.xb 4, m := f.xf 0 4 }))
  | 0x38C => req (f.d == 0 && f.xf 5 7 == 0) (f.cnt.map (fun n => .bari h { n := n, bar := f.xf 0 4 }))
  | 0x38D => req (f.a == 0 && f.b == 0 && f.xf 4 8 == 0) (some (.bara h { r := f.dr, bar := f.xf 0 4 }))
  | 0x38E => req (f.d == 0 && f.b == 0 && f.xf 4 8 == 0) (some (.barw h { r := f.ar, bar := f.xf 0 4 }))
  | 0x38F => f.x4.map (.bars h)
  | 0x390 => req (f.d == 0 && f.xf 0 4 == 0 && f.xf 5 7 == 0) (f.cnt.map (.sleep h))
  | 0x391 => (match SCond.ofBits (f.xf 10 2), Sco.ofBits (f.xf 4 3) with
      | some c, some sc => req (!f.xb 7 && f.xf 0 4 == 0 && (f.xb 8 || f.d == 0))
          (some (.sigw h { res := if f.xb 8 then some f.dr else none, a := f.ar, b := f.br, cond := c, w64 := f.xb 9, sco := sc }))
      | _, _ => none)
  | 0x398 => req (f.d == 0 && f.a == 0 && f.b == 0) (some (.trap h f.x))
  | 0x399 => req (f.d == 0 && f.b == 0 && f.xf 3 9 == 0)
      (match (f.xf 0 2).toNat with
       | 0 => req (f.a == 0) (some (.tretResume h (f.xb 2)))
       | 1 => req (f.a == 0) (some (.tretSkip h (f.xb 2)))
       | 2 => some (.tretRedirect h { a := f.ar, keepp := f.xb 2 })
       | _ => none)
  | 0x39A => f.tk.bind (fun c => match (f.xf 0 2).toNat with
      | 0 => some (.tkillThread h c) | 1 => some (.tkillGroup h c) | 2 => some (.tkillTeam h c) | _ => some (.tkillGrid h c))
  | 0x39B => req (f.a == 0 && f.b == 0 && f.xf 8 4 == 0) (some (.tinfo h { d := f.dr, sel := f.xf 0 8 }))
  | 0x39C => req (f.d == 0 && f.a == 0 && f.b == 0) (some (.bkpt h f.x))
  | 0x3A0 => f.r2.map (.launch h)
  | 0x3A1 => f.r1a.map (.seedw h)
  | 0x3A2 => req (f.a == 0 && f.b == 0 && f.xf 8 4 == 0) (some (.svr h { d := f.dr, sel := f.xf 0 8 }))
  | 0x3A3 => req (f.b == 0 && f.xf 7 5 == 0)
      (match (f.xf 5 2).toNat with
       | 0 => some (.pmonRead h { d := f.dr, a := f.ar, sel := f.xf 0 5 })
       | 1 => req (f.d == 0 && f.xf 0 5 == 0) (some (.pmonArm h f.ar))
       | 2 => req (f.d == 0 && f.xf 0 5 == 0) (some (.pmonFreeze h f.ar))
       | _ => none)
  | _ => none

/-- The instruction of a full-form word: the class of OPC[9:7], then the opcode map, then the limits of WellFormed. -/
def decodeFields (f : Fields) : Option Instr :=
  let i : Option Instr :=
    match (f.opc.extractLsb' 7 3).toNat with
    | 0 => decClass0 f f.hdr
    | 1 => decClass1 f f.hdr
    | 2 => decClass2 f f.hdr
    | 3 => decClass3 f f.hdr
    | 4 => decClass4 f f.hdr
    | 5 => decClass5 f f.hdr
    | 6 => decClass6 f f.hdr
    | _ => decClass7 f f.hdr
  match i with
  | some j => if j.wf then some j else none
  | none => none

/-- A slot of the pair form (R35). -/
def decodeSlot (s : BitVec 30) : Option Slot :=
  match SlotOp.ofBits (s.extractLsb' 23 7) with
  | some op =>
    let r : Slot := { op := op, d := Reg.ofCode (s.extractLsb' 12 11), s := Reg.ofCode (s.extractLsb' 1 11) }
    req (!s.getLsbD 0 && r.wf) (some r)
  | none => none

/-- A pair-form word (R35). -/
def decodePair (w : DWord) : Option Instr :=
  match decodeSlot (w.extractLsb' 30 30), decodeSlot (w.extractLsb' 0 30) with
  | some a, some b =>
    some (.pairWord { marker := w.getLsbD 62, gw := w.getLsbD 61, ps := w.getLsbD 60, a := a, b := b })
  | _, _ => none

/-- The instruction a 64-bit word is, ILLEGAL_OP included (R18, R35, R40). -/
def decode (w : DWord) : Instr :=
  match (if w.getLsbD 63 then decodePair w else decodeFields (unpack w)) with
  | some i => i
  | none => .illegalOp w

/-! ### The encoder -/

/-- A full-form word from its header, opcode and fields. -/
def mkF (h : Hdr) (opc : BitVec 10) (d a b : BitVec 11) (x : BitVec 12) : Option DWord :=
  some (pack { marker := h.marker, gap := h.gap, gw := h.gw, pg := h.pg, opc := opc, d := d, a := a, b := b, x := x })

def encI3 (h : Hdr) (opc : BitVec 10) (o : I3) : Option DWord :=
  match o.b with
  | .reg r => mkF h opc o.d.code o.a.code r.code (0#8 ++ bit1 o.sat ++ o.ty.bits)
  | .imm i => mkF h opc o.d.code o.a.code (i.extractLsb' 11 11) (1#1 ++ i.extractLsb' 0 11)

def encI2 (h : Hdr) (opc : BitVec 10) (o : I2) : Option DWord :=
  mkF h opc o.d.code o.a.code 0 (0#8 ++ bit1 o.sat ++ o.ty.bits)

def FMod.bits (m : FMod) : BitVec 12 :=
  0#1 ++ bit1 m.satf ++ bit1 m.absb ++ bit1 m.absa ++ bit1 m.negb ++ bit1 m.nega ++ m.pk.bits ++ bit1 m.ftz ++ m.rm.bits

def encF3 (h : Hdr) (opc : BitVec 10) (o : F3) : Option DWord :=
  match o.b with
  | .reg r m => mkF h opc o.d.code o.a.code r.code m.bits
  | .imm i => mkF h opc o.d.code o.a.code (i.extractLsb' 11 11) (1#1 ++ i.extractLsb' 0 11)

def encF2 (h : Hdr) (opc : BitVec 10) (o : F2) : Option DWord := mkF h opc o.d.code o.a.code 0 o.x.bits

def encFCmp (h : Hdr) (opc : BitVec 10) (o : FCmpF) : Option DWord :=
  mkF h opc (0#8 ++ o.p) o.a.code o.b.code (0#2 ++ o.cond.bits ++ 0#2 ++ bit1 o.ftz ++ 0#3)

def encR2 (h : Hdr) (opc : BitVec 10) (o : R2) : Option DWord := mkF h opc o.d.code o.a.code 0 0
def encR3 (h : Hdr) (opc : BitVec 10) (o : R3) : Option DWord := mkF h opc o.d.code o.a.code o.b.code 0

def encCvt (h : Hdr) (opc : BitVec 10) (o : CvtF) : Option DWord :=
  mkF h opc o.d.code o.a.code 0 (o.dst.bits ++ o.src.bits ++ bit1 o.sat ++ o.rm.bits)

def encQ (h : Hdr) (opc : BitVec 10) (o : QFmtF) : Option DWord :=
  mkF h opc o.d.code o.a.code (o.fmt ++ o.prec ++ o.read ++ bit1 o.uns ++ 0#1) (bit1 o.widen ++ 0#7 ++ bit1 o.sat ++ o.rm.bits)

def encGred (h : Hdr) (opc : BitVec 10) (o : GredF) : Option DWord := mkF h opc o.d.code o.a.code 0 (0#8 ++ o.op.bits)

def encMem (h : Hdr) (opc : BitVec 10) (o : MemF) : Option DWord :=
  mkF h opc o.d.code o.a.code o.off (o.wid.bits ++ o.ord.bits ++ o.sco.bits ++ o.ch.bits ++ 0#2)

def encAt (h : Hdr) (opc : BitVec 10) (d : BitVec 11) (a b : Reg) (aop : Aop) (ord : MOrd) (sco : Sco) (ty : ATy) : Option DWord :=
  mkF h opc d a.code b.code (aop.bits ++ ord.bits ++ sco.bits ++ ty.bits ++ 0#1)

def encCmaint (h : Hdr) (op : BitVec 2) (o : CmaintF) : Option DWord :=
  mkF h 0x20A 0 o.a.code o.b.code (0#5 ++ o.sco.bits ++ 0#2 ++ op)

def encVote (h : Hdr) (mode : BitVec 2) (o : VoteF) : Option DWord :=
  mkF h 0x181 (0#8 ++ o.p) 0 0 (0#6 ++ bit1 o.neg ++ o.ps ++ mode)

def encBr (h : Hdr) (opc : BitVec 10) (o : BrF) : Option DWord :=
  mkF h opc (o.off.extractLsb' 21 11) (o.off.extractLsb' 10 11) (o.off.extractLsb' 0 10 ++ o.hint.bits.extractLsb' 1 1)
    (o.hint.bits.extractLsb' 0 1 ++ 0#11)

def encX4 (h : Hdr) (opc : BitVec 10) (m : BitVec 4) : Option DWord := mkF h opc 0 0 0 (0#8 ++ m)

def encMdr (h : Hdr) (opc : BitVec 10) (d a b : Reg) (z t : Bool) (tag : BitVec 8) : Option DWord :=
  mkF h opc d.code a.code b.code (0#2 ++ bit1 z ++ bit1 t ++ tag)

def encRing (h : Hdr) (opc : BitVec 10) (d a b : BitVec 11) (w : BitVec 2) : Option DWord := mkF h opc d a b (0#10 ++ w)

def encTk (h : Hdr) (sc : BitVec 2) (c : BitVec 8) : Option DWord := mkF h 0x39A 0 0 0 (c ++ 0#2 ++ sc)

def Slot.bits (s : Slot) : BitVec 30 := s.op.bits ++ s.d.code ++ s.s.code ++ 0#1

/-- The word of an instruction, from the same layouts; a step that is no instruction word has none. -/
def encode : Instr → Option DWord
  | .iadd h o => encI3 h 0x000 o
  | .isub h o => encI3 h 0x001 o
  | .imul h o => encI3 h 0x002 o
  | .imulh h o => encI3 h 0x003 o
  | .imad h o => encI3 h 0x004 o
  | .imin h o => encI3 h 0x005 o
  | .imax h o => encI3 h 0x006 o
  | .iabs h o => encI2 h 0x007 o
  | .iand h o => encI3 h 0x008 o
  | .ior h o => encI3 h 0x009 o
  | .ixor h o => encI3 h 0x00A o
  | .iandn h o => encI3 h 0x00B o
  | .shl h o => encI3 h 0x00C o
  | .shr h o => encI3 h 0x00D o
  | .sar h o => encI3 h 0x00E o
  | .rotl h o => encI3 h 0x00F o
  | .popc h o => encI2 h 0x010 o
  | .clz h o => encI2 h 0x011 o
  | .brev h o => encI2 h 0x012 o
  | .bfe h o => mkF h 0x013 o.d.code o.a.code o.b.code (0#2 ++ o.lenM1 ++ 0#1 ++ o.ty.bits)
  | .bfi h o => mkF h 0x014 o.d.code o.a.code o.b.code (0#2 ++ o.lenM1 ++ 0#1 ++ o.ty.bits)
  | .icmp h o => mkF h 0x015 (0#8 ++ o.p) o.a.code o.b.code (0#4 ++ o.cond.bits ++ 0#1 ++ o.ty.bits)
  | .sel h o => mkF h 0x016 o.d.code o.a.code o.b.code (0#4 ++ bit1 o.neg ++ o.p ++ 0#1 ++ o.ty.bits)
  | .plop h o => mkF h 0x017 (0#8 ++ o.pd) (0#2 ++ o.pc ++ o.pb ++ o.pa) 0 (0#4 ++ o.tt)
  | .mov h o => encI2 h 0x018 o
  | .movi h o => mkF h 0x019 o.d.code 0 (o.imm.extractLsb' 11 11) (0#1 ++ o.imm.extractLsb' 0 11)
  | .movhi h o => mkF h 0x01A o.d.code 0 (o.imm.extractLsb' 11 11) (0#1 ++ o.imm.extractLsb' 0 11)
  | .aadd h o => (match o.b with
      | .reg r => mkF h 0x01B o.d.code o.a.code r.code (0#5 ++ o.sh ++ 0#1 ++ 0#2 ++ bit1 o.signed)
      | .imm i => mkF h 0x01B o.d.code o.a.code (i.extractLsb' 11 11) (1#1 ++ i.extractLsb' 0 11))
  | .imulw h o => encI3 h 0x01C o
  | .idiv h o => encI3 h 0x01D o
  | .irem h o => encI3 h 0x01E o
  | .fadd h o => encF3 h 0x080 o
  | .fsub h o => encF3 h 0x081 o
  | .fmul h o => encF3 h 0x082 o
  | .ffma h o => encF3 h 0x083 o
  | .fmin h o => encF3 h 0x084 o
  | .fmax h o => encF3 h 0x085 o
  | .fcmp h o => encFCmp h 0x086 o
  | .fdot2 h o => mkF h 0x087 o.d.code o.a.code o.b.code (0#6 ++ (if o.f16 then 2#2 else 1#2) ++ bit1 o.ftz ++ o.rm.bits)
  | .frcp h o => encF2 h 0x088 o
  | .frsq h o => encF2 h 0x089 o
  | .fsqrt h o => encF2 h 0x08A o
  | .fdiv h o => encF3 h 0x08B o
  | .fexp2 h o => encF2 h 0x08C o
  | .flog2 h o => encF2 h 0x08D o
  | .fsinpi h o => encF2 h 0x08E o
  | .fcospi h o => encF2 h 0x08F o
  | .frint h o => encF2 h 0x090 o
  | .fclass h o => encR2 h 0x091 o
  | .dadd h o => encF3 h 0x100 o
  | .dsub h o => encF3 h 0x101 o
  | .dmul h o => encF3 h 0x102 o
  | .dfma h o => encF3 h 0x103 o
  | .dmin h o => encF3 h 0x104 o
  | .dmax h o => encF3 h 0x105 o
  | .dcmp h o => encFCmp h 0x106 o
  | .ddiv h o => encF3 h 0x107 o
  | .dsqrt h o => encF2 h 0x108 o
  | .cvt h o => encCvt h 0x110 o
  | .cvtq h o => encQ h 0x111 o
  | .cvtd h o => encCvt h 0x112 o
  | .mxq h o => encQ h 0x113 o
  | .shfl h o => (match o.b with
      | .reg r => mkF h 0x180 o.d.code o.a.code r.code (0#5 ++ bit1 o.wide ++ BitVec.ofNat 3 o.lw.val ++ 0#1 ++ o.mode.bits)
      | .imm i => mkF h 0x180 o.d.code o.a.code (0#5 ++ i) (0#5 ++ bit1 o.wide ++ BitVec.ofNat 3 o.lw.val ++ 1#1 ++ o.mode.bits))
  | .voteAll h o => encVote h 0 o
  | .voteAny h o => encVote h 1 o
  | .voteBal h o => mkF h 0x181 o.d.code 0 0 (0#6 ++ bit1 o.neg ++ o.ps ++ 2#2)
  | .voteEq h o => mkF h 0x181 (0#8 ++ o.p) o.a.code 0 (0#5 ++ bit1 o.wide ++ 0#4 ++ 3#2)
  | .gred h o => encGred h 0x182 o
  | .gscan h o => encGred h 0x183 o
  | .topk h o => mkF h 0x184 o.d.code o.a.code o.b.code (0#1 ++ o.k ++ bit1 o.nz ++ o.ty.bits)
  | .matchLanes h o => mkF h 0x185 o.d.code o.a.code 0 (0#11 ++ bit1 o.wide)
  | .rnd h o => encR3 h 0x186 o
  | .rndu h o => encR2 h 0x187 o
  | .seedr h d => mkF h 0x188 d.code 0 0 0
  | .ld h o => encMem h 0x200 o
  | .st h o => encMem h 0x201 o
  | .gather h o => mkF h 0x202 o.d.code o.a.code o.off (o.wid.bits ++ o.ord.bits ++ o.sco.bits ++ o.mask)
  | .scatter h o => encMem h 0x203 o
  | .atom h o => encAt h 0x204 o.d.code o.a o.b o.aop o.ord o.sco o.ty
  | .cas h o => encAt h 0x205 o.d.code o.a o.b .add o.ord o.sco o.ty
  | .red h o => encAt h 0x206 0 o.a o.b o.aop o.ord o.sco o.ty
  | .redseq h o => encAt h 0x207 o.d.code o.a o.b o.aop o.ord o.sco o.ty
  | .fence h o => mkF h 0x208 0 0 0 (0#3 ++ o.kind.bits ++ o.sco.bits ++ 0#4)
  | .pref h o => mkF h 0x209 0 o.a.code o.off (o.nM1 ++ 0#4 ++ o.tgt.bits ++ 0#2)
  | .cmaintInv h o => encCmaint h 0 o
  | .cmaintClean h o => encCmaint h 1 o
  | .cmaintFlush h o => encCmaint h 2 o
  | .cmaintTinv h o => encCmaint h 3 o
  | .ldp h o => encMem h 0x210 o
  | .stp h o => encMem h 0x211 o
  | .pqry h o => mkF h 0x212 o.d.code 0 0 (0#4 ++ o.sel)
  | .lds h o => encMem h 0x218 o
  | .sts h o => encMem h 0x219 o
  | .atoms h o => mkF h 0x21A o.d.code o.a.code o.b.code (o.aop.bits ++ o.ord.bits ++ 0#3 ++ o.ty.bits ++ 0#1)
  | .presQuery h o => mkF h 0x21B o.d.code o.a.code 0 (0#3 ++ 0#2 ++ o.nM1 ++ 0#2)
  | .presSet h o => mkF h 0x21B 0 o.a.code 0 (0#3 ++ o.nM1 ++ 1#2)
  | .presClear h o => mkF h 0x21B 0 o.a.code 0 (0#3 ++ o.nM1 ++ 2#2)
  | .rrot h o => mkF h 0x21C 0 o.a.code o.b.code (o.tag ++ 0#3 ++ bit1 o.back)
  | .hclaim h a => mkF h 0x280 0 a.code 0 0
  | .hfree h => mkF h 0x281 0 0 0 0
  | .hins h o => encR3 h 0x282 o
  | .hprobe h o => encR2 h 0x283 o
  | .hdel h o => encR2 h 0x284 o
  | .hacc h o => mkF h 0x285 o.d.code o.a.code o.b.code (0#10 ++ o.ty.bits)
  | .hdrain h o => mkF h 0x286 0 o.a.code 0 (o.tag ++ 0#4)
  | .hstat h o => mkF h 0x287 o.d.code 0 0 (0#9 ++ o.sel)
  | .rdefDefine h o => encRing h 0x290 o.d.code o.a.code 0 0
  | .rdefFree h a => encRing h 0x290 0 a.code 0 1
  | .rdefAdopt h a => encRing h 0x290 0 a.code 0 2
  | .rpush h o => encRing h 0x291 (0#8 ++ o.p) o.a.code o.b.code o.w
  | .rpop h o => encRing h 0x292 o.d.code o.a.code 0 o.w
  | .rsteal h o => encRing h 0x293 o.d.code o.a.code 0 o.w
  | .renq h o => encRing h 0x294 o.d.code o.a.code o.b.code o.w
  | .gset h g => encX4 h 0x2A0 g
  | .gres h o => mkF h 0x2A1 0 0 0 (0#4 ++ bit1 o.neg ++ o.p ++ o.g)
  | .qsub h o => (match o.grd with
      | none => mkF h 0x2A2 o.d.code o.a.code (o.cnt ++ 0#5 ++ 0#1) 0
      | some g => mkF h 0x2A2 o.d.code o.a.code (o.cnt ++ 1#1 ++ g ++ 0#1) 0)
  | .qpop h o => encR2 h 0x2A3 o
  | .qstat h o => encR2 h 0x2A4 o
  | .qwait h o => encR3 h 0x2A5 o
  | .mloop h o => mkF h 0x300 o.d.code o.a.code o.b.code o.stepsM1
  | .mwaitConsumed h d => mkF h 0x301 d.code 0 0 0
  | .mwaitDone h d => mkF h 0x301 d.code 0 0 1
  | .mwaitAll h => mkF h 0x301 0 0 0 2
  | .mzero h o => mkF h 0x302 o.d.code 0 0 (0#3 ++ bit1 o.tok ++ o.tag)
  | .mdrain h o => encMdr h 0x303 o.d o.a o.b o.zero o.tok o.tag
  | .mstore h o => encMdr h 0x304 o.d o.a o.b o.zero o.tok o.tag
  | .mstadd h o => encMdr h 0x305 o.d o.a o.b o.pool o.tok o.tag
  | .mldf h o => mkF h 0x306 o.d.code o.a.code 0 (o.nM1 ++ bit1 o.tok ++ o.tag)
  | .mscan h o => encRing h 0x307 o.d.code o.a.code o.b.code o.cs
  | .mcarry h o => mkF h 0x308 o.d.code 0 o.b.code (0#8 ++ bit1 o.clear ++ bit1 o.reset ++ o.cs)
  | .nop h => mkF h 0x380 0 0 0 0
  | .bra h o => encBr h 0x381 o
  | .brx h o => mkF h 0x382 0 o.a.code 0 (0#10 ++ o.hint.bits)
  | .call h o => encBr h 0x383 o
  | .callx h o => mkF h 0x384 o.d.code o.a.code 0 (0#10 ++ o.hint.bits)
  | .ret h o => mkF h 0x385 0 o.a.code 0 (0#10 ++ o.hint.bits)
  | .exit h => mkF h 0x386 0 0 0 0
  | .join h m => encX4 h 0x387 m
  | .leave h m => encX4 h 0x388 m
  | .waitm h m => encX4 h 0x389 m
  | .mclr h m => encX4 h 0x38A m
  | .mget h o => mkF h 0x38B o.d.code 0 0 (0#7 ++ bit1 o.arr ++ o.m)
  | .bari h o => (match o.n with
      | .reg r => mkF h 0x38C 0 r.code 0 (0#7 ++ 0#1 ++ o.bar)
      | .imm n => mkF h 0x38C 0 0 n (0#7 ++ 1#1 ++ o.bar))
  | .bara h o => mkF h 0x38D o.r.code 0 0 (0#8 ++ o.bar)
  | .barw h o => mkF h 0x38E 0 o.r.code 0 (0#8 ++ o.bar)
  | .bars h b => encX4 h 0x38F b
  | .sleep h n => (match n with
      | .reg r => mkF h 0x390 0 r.code 0 0
      | .imm i => mkF h 0x390 0 0 i 0x010)
  | .sigw h o => (match o.res with
      | none => mkF h 0x391 0 o.a.code o.b.code (o.cond.bits ++ bit1 o.w64 ++ 0#1 ++ 0#1 ++ o.sco.bits ++ 0#4)
      | some r => mkF h 0x391 r.code o.a.code o.b.code (o.cond.bits ++ bit1 o.w64 ++ 1#1 ++ 0#1 ++ o.sco.bits ++ 0#4))
  | .trap h i => mkF h 0x398 0 0 0 i
  | .tretResume h k => mkF h 0x399 0 0 0 (0#9 ++ bit1 k ++ 0#2)
  | .tretSkip h k => mkF h 0x399 0 0 0 (0#9 ++ bit1 k ++ 1#2)
  | .tretRedirect h o => mkF h 0x399 0 o.a.code 0 (0#9 ++ bit1 o.keepp ++ 2#2)
  | .tkillThread h c => encTk h 0 c
  | .tkillGroup h c => encTk h 1 c
  | .tkillTeam h c => encTk h 2 c
  | .tkillGrid h c => encTk h 3 c
  | .tinfo h o => mkF h 0x39B o.d.code 0 0 (0#4 ++ o.sel)
  | .bkpt h i => mkF h 0x39C 0 0 0 i
  | .launch h o => encR2 h 0x3A0 o
  | .seedw h a => mkF h 0x3A1 0 a.code 0 0
  | .svr h o => mkF h 0x3A2 o.d.code 0 0 (0#4 ++ o.sel)
  | .pmonRead h o => mkF h 0x3A3 o.d.code o.a.code 0 (0#5 ++ 0#2 ++ o.sel)
  | .pmonArm h a => mkF h 0x3A3 0 a.code 0 (0#5 ++ 1#2 ++ 0#5)
  | .pmonFreeze h a => mkF h 0x3A3 0 a.code 0 (0#5 ++ 2#2 ++ 0#5)
  | .illegalOp w => some w
  | .pairWord o => some (1#1 ++ bit1 o.marker ++ bit1 o.gw ++ bit1 o.ps ++ o.a.bits ++ o.b.bits)
  | _ => none

/-- The 64-bit word whose little-endian bytes these are, if they are eight (R16). -/
def wordOfBytes : List Byte → Option DWord
  | [b0, b1, b2, b3, b4, b5, b6, b7] => some (b7 ++ b6 ++ b5 ++ b4 ++ b3 ++ b2 ++ b1 ++ b0)
  | _ => none

/-- The eight bytes of a word, lowest address first (R2, R16). -/
def bytesOfWord (w : DWord) : List Byte :=
  [w.extractLsb' 0 8, w.extractLsb' 8 8, w.extractLsb' 16 8, w.extractLsb' 24 8,
   w.extractLsb' 32 8, w.extractLsb' 40 8, w.extractLsb' 48 8, w.extractLsb' 56 8]

/-- Why a byte list is no instruction. -/
inductive DecodeError where
  /-- Fewer than the eight bytes of a word (R16). Safe: step always fetches eight. -/
  | shortWord
  deriving DecidableEq, Repr

/-- Decode the first instruction of a byte list and give the rest (R16). -/
def decodeBytes (bs : List Byte) : Except DecodeError (Instr × List Byte) :=
  match wordOfBytes (bs.take 8) with
  | some w => .ok (decode w, bs.drop 8)
  | none => .error .shortWord

/-- The instruction the decoder reads from an instruction whose bits are w, bit 0 being the least significant bit of the first byte; every bit above nbits is 0. -/
def decodeTableWord (nbits w : Nat) : Option Instr :=
  match decodeBytes (bytesOfWord (BitVec.ofNat 64 (w % 2 ^ nbits))) with
  | .ok (i, _) => some i
  | .error _ => none

end Sys2Proof
end

