-- ==== Sys2Proof/Config.lean ====
section
/-! DEFINITION. What an implementation fixes and the spec leaves open: the oracle of free values (log 2, DESIGN CHOICE) and the functions of outside standards that the spec only names (log 20, DESIGN CHOICE). None has a body, so that no statement can rest on a value. -/

namespace Sys2Proof.Config

/-- The free values: the answer to the n-th open question of a run (log 2, DESIGN CHOICE). -/
opaque free : Nat → Nat

/-- The latency in cycles of the load with a number, which only the monitors see (R374, log 15, DESIGN CHOICE). -/
opaque loadLatency : Nat → Nat

/-- Whether a firmware image's two-level HSS/LMS signature verifies against the fused root key (R377, log 20, DESIGN CHOICE). -/
opaque lmsOk : FwImage → Bool

/-- The SPDM 1.3 answer bytes to a request, for the measurement digests given (R378, log 20, DESIGN CHOICE). -/
opaque spdmAnswer : (request : List Byte) → (measurements : List (List Byte)) → List Byte

/-- The fused configuration, which no rule gives (R378, log 20, DESIGN CHOICE). -/
opaque fuses : List Byte

/-- SHA-384 of a byte string, used for measurement blocks (R378, log 20, DESIGN CHOICE). -/
opaque sha384 : List Byte → List Byte

end Sys2Proof.Config
end

