-- ==== Sys2Proof/Machine/State.lean ====
section
/-! DEFINITION. The state of the machine as plain data: every register, queue, table and memory that the spec gives the XF8, and the state after reset. -/

namespace Sys2Proof.Machine

/-- A sparse byte store: rising addresses, no listed byte equal to what an unlisted address reads as, which is 0 (log 1, DESIGN CHOICE). -/
abbrev Mem := List Host.Cell

/-- Why the machine itself stops. No instruction and no event raises either: only `step` does. -/
inductive Fault where
  /-- Raised by step while the module has no supply (R379) and no start waits. Safe: nothing runs without supply. -/
  | poweredOff
  /-- Raised by step after a start step that is not optional failed on both paths (R376). Safe: the spec halts the module there. -/
  | moduleHalted
  deriving DecidableEq, Repr

/-- Why a step has no meaning. -/
inductive Refusal where
  /-- Raised by exec for a constructor whose meaning is not written yet. Safe: nothing is claimed of it. -/
  | notModelled (mnemonic : String)
  deriving DecidableEq, Repr

/-! ### Threads -/

/-- A fault on its way to a thread, with what the fault record will hold (R273, R360). -/
structure FaultInfo where
  code : Nat
  engine : Nat := 0
  cause : Nat := 0
  async : Bool := false
  fpc : DWord
  rpc : DWord
  addr : DWord := 0
  seq : Word := 0
  noseq : Bool := false
  tag : Nat := 0
  imm : BitVec 12 := 0
  word : DWord := 0
  cmd : List Word := []
  /-- Program order of the issuing instruction (R274). -/
  age : Nat := 0
  deriving DecidableEq, Repr, Inhabited

/-- A thread's fault record (R360): the fault, with the predicates saved at entry (R355). -/
structure FaultRec where
  info : FaultInfo
  preds : BitVec 8
  /-- Asynchronous faults pending for the thread at entry (R360). -/
  pending : Nat := 0
  deriving DecidableEq, Repr

/-- The register files that hold results: the group's window, its uniform registers, its handler frame. -/
inductive RFile where
  | v | s | h
  deriving DecidableEq, Repr

/-- One 32-bit register lane that a long result will write. -/
structure LReg where
  file : RFile
  idx : Nat
  val : Word
  deriving DecidableEq, Repr

/-- An outstanding long result (R56). Its value is fixed when it is ready; a wave operation's is not before its wave is applied (R346). A result to an s register is one for all the active lanes of a group: the lead lane holds the register, and the others wait for it under the word's issue number (R23, R57). -/
structure LongRes where
  id : Nat
  ready : Bool
  regs : List LReg
  /-- The issue number of a word that names an s register as a destination. -/
  issue : Option Nat := none
  deriving DecidableEq, Repr

/-- Why a thread is parked (R61). The retried reasons wake a lane that then executes its pending word again. -/
inductive Park where
  | marker
  | waitm (m : Nat)
  | barrier (b : Nat) (phase : BitVec 16)
  | sleep (wake : Nat)
  /-- EXIT or TRET waiting for outstanding long results, retried. -/
  | longs
  /-- A full or empty queue, or a token not yet posted, retried. -/
  | queue (q : Nat)
  /-- MWAIT, or MCARRY's result wait, retried. -/
  | array
  /-- An absent scratch line, retried. -/
  | line (n : Nat)
  /-- SIGW on the sector of this physical address, retried. -/
  | sector (pa : Nat)
  /-- A full range-lock table, retried. -/
  | locks
  /-- A missing pool segment, retried. -/
  | segment (n : Nat)
  /-- A missing handler reserve segment, retried. -/
  | reserve (id : Nat)
  /-- A delivered fault waiting for long results or for a frame (R355). -/
  | entry (f : FaultInfo)
  deriving DecidableEq, Repr

/-- The word a lane has begun and not finished, with the word's active lanes, the lane map it issued with, and the values this lane has already popped (R50, R259). -/
structure Pend where
  pc : DWord
  word : DWord
  set : List Tid
  /-- The lanes of the issue set, guard failing or not (R50). -/
  map : BitVec 64 := 0
  /-- Issue number of the word. -/
  issue : Nat := 0
  /-- The word acts as a whole: none of its lanes goes on before all can. -/
  joint : Bool := false
  popped : List Word := []
  deriving DecidableEq, Repr

/-- A fence of a thread whose earlier accesses are not all performed (R225): what was issued before `age` comes before later accesses. An acquire or SC access that is not performed at issue leaves one too (R215). -/
structure FenceMark where
  age : Nat
  /-- Later writes alone wait (a release fence). -/
  writes : Bool
  /-- It orders earlier writes that are no reads, contributions to reduction sets among them (R224). -/
  reds : Bool
  /-- At system scope it waits for the acknowledgement of remote stores (R222). -/
  remote : Bool
  /-- It is an access: it comes after that one alone, by its issue number. -/
  own : Option Nat := none
  deriving DecidableEq, Repr

/-- Where an access lies: bytes of its team's pool, or of its context's virtual addresses. -/
structure Place where
  pool : Bool
  addr : Nat
  len : Nat
  deriving DecidableEq, Repr

/-- What an access does in memory order (R215, R217, R224): it reads, it writes, it releases as a release or SC access, a command issue or a barrier arrival does, it reaches the system scope, it sets out for a reduction set. -/
structure MemOrder where
  reads : Bool := false
  writes : Bool := false
  releases : Bool := false
  system : Bool := false
  reduces : Bool := false
  deriving DecidableEq, Repr

/-- A live thread (R47). An ended thread is in no list. -/
structure Thread where
  lane : Nat
  pc : DWord
  /-- p0–p7, pN at bit N; bit 0 is not read (R62). -/
  preds : BitVec 8 := 1
  handler : Bool := false
  /-- Arithmetic cycle of the last issue, wake or placement (R53). -/
  stamp : Nat
  /-- Not eligible up to this arithmetic cycle (R54). -/
  gapUntil : Nat := 0
  giveWay : Bool := false
  /-- Held at issue, which is not a park (R166, R143). -/
  held : Bool := false
  parks : List Park := []
  pend : Option Pend := none
  /-- Its wait seems over, and its word is about to look again: it counts as parked until it has (R61, R328). -/
  waking : Bool := false
  longs : List LongRes := []
  afaults : List FaultInfo := []
  frec : Option FaultRec := none
  /-- Wave count (R346). -/
  wave : Nat := 0
  closed : Bool := false
  /-- The moment of its latest read, and the moment that its later reads may not precede (R219). -/
  seen : Nat := 0
  floor : Nat := 0
  /-- Fences that still hold later accesses back (R225). -/
  fences : List FenceMark := []
  deriving DecidableEq, Repr, Inhabited

/-- A rejoin mask: enrolled and arrived lanes (R67). -/
structure Mask where
  e : BitVec 64 := 0
  w : BitVec 64 := 0
  deriving DecidableEq, Repr

/-- A group (R47): its uniform registers by byte 4N, masks m0–m11, carry status words, and h registers by byte 256N + 4L while it holds a frame. -/
structure Group where
  num : Nat
  role : Nat
  pipe : Nat
  sregs : Mem := []
  masks : List Mask
  cs : List Word
  hregs : Mem := []
  /-- Reserve segment and slot of the frame it holds (R82). -/
  frame : Option (Nat × Nat) := none
  threads : List Thread
  deriving DecidableEq, Repr, Inhabited

/-! ### Teams -/

/-- A team barrier (R71). Its waiter map is the set of threads parked on it. -/
structure Barrier where
  n : Nat
  c : Nat := 0
  p : BitVec 16 := 0
  deriving DecidableEq, Repr

/-- A segment of a team's allotment (R78, R79). `saved` is the address of the save slot that holds its contents while it is evicted or missing (R89, R90, R321). -/
structure Seg where
  index : Nat
  phys : Nat
  saved : Option Nat := none
  /-- A save write failed: claims pass it over (R89). -/
  stuck : Bool := false
  deriving DecidableEq, Repr

/-- A claimed hash region: its HCLAIM words and the counts the hash unit keeps (R156, R165). -/
structure HashR where
  word0 : Word
  cap : Word
  base : DWord
  live : Nat := 0
  spill : Nat := 0
  spilllive : Nat := 0
  tomb : Nat := 0
  deriving DecidableEq, Repr

/-- A word held for its wave (R346), or an access that waits in the load-store unit (R225): the thread, the word and the operand values read at issue. -/
structure WaveOp where
  wave : Nat
  tid : Tid
  long : Nat
  pc : DWord
  word : DWord
  vals : List (List Word)
  /-- The other lanes of a team operation, with their long results (R346). -/
  peers : List (Tid × Nat) := []
  /-- Program order of the issuing instruction (R274). -/
  age : Nat := 0
  /-- Where an access lies, its order, and the fences that it was issued behind (R215, R225). -/
  place : Option Place := none
  ord : MemOrder := {}
  marks : List FenceMark := []
  deriving DecidableEq, Repr

/-- One entry of a twin copy's commit buffer (R350): writer (0 and thread number, or 1 + engine and sequence), address and bytes. -/
structure CommitEntry where
  agent : Nat
  order : Nat
  addr : Nat
  bytes : List Byte
  deriving DecidableEq, Repr

/-- A team's residence (R328). READY and PARKED are read from its threads; a twin copy that has retired stays until its fellow has (R351). -/
inductive TPlace where
  | resident | swapped | retired
  deriving DecidableEq, Repr, Inhabited

/-- A placed team (R47, R328). -/
structure Team where
  key : Nat
  ctx : Nat
  launch : Nat
  index : Nat
  copy : Nat
  core : Nat
  /-- Outside deterministic mode, the core's index within its partition at placement: of the first copy's core, for both copies of a twin (R50, R349). -/
  lcore : Nat := 0
  place : TPlace
  killed : Bool := false
  placedAt : Nat := 0
  parkedSince : Nat := 0
  swappedAt : Nat := 0
  /-- Held off its core by order 0x03 or 0x05 (R328). -/
  orderHeld : Bool := false
  /-- Taken off by the Thaw swap for a waiting team of its context, which comes first (R329). -/
  skip : Bool := false
  groups : List Group
  /-- Register windows and scratchpad by team pool address (R83). -/
  pool : Mem := []
  segs : List Seg
  /-- Scratch lines whose presence bit is clear (R142). -/
  absent : List Nat := []
  /-- Fill counters that are not zero, by line (R142). -/
  fills : List (Nat × Nat) := []
  /-- Lines that PRES.clear has cleared and no command has cleared since: their counters do not fill them (R151). -/
  unfilled : List Nat := []
  barriers : List Barrier
  /-- Guard slots that are pending (R266). -/
  guards : List Nat := []
  /-- Declared team queues: number and slots, oldest first (R260). -/
  queues : List (Nat × List (List Word)) := []
  /-- Token queues: number and token, oldest first (R257). -/
  tokens : List (Nat × Word) := []
  hash : Option HashR := none
  /-- Next sequence number by engine (R264). -/
  seqs : List (Nat × Nat) := []
  /-- Highest wave applied, and words waiting for theirs (R346). -/
  waveDone : Nat := 0
  waveOps : List WaveOp := []
  /-- Accesses that wait in the load-store unit, oldest first (R225). -/
  lsu : List WaveOp := []
  /-- Counted RROT requests (R154). -/
  rrots : Nat := 0
  commit : List CommitEntry := []
  deriving DecidableEq, Repr, Inhabited

/-! ### Launches and contexts -/

/-- A team-queue declaration (R319): `off` is the storage's byte offset. -/
structure QDecl where
  num : Nat
  lslot : Nat
  ldepth : Nat
  prod : Nat
  cons : Nat
  off : Nat
  deriving DecidableEq, Repr

/-- A role of a kernel descriptor (R319): entry offset, group range, budget; absent when none. -/
structure RoleD where
  entry : Nat
  gmin : Nat
  gmax : Nat
  budget : Nat
  deriving DecidableEq, Repr

/-- A kernel descriptor as read at acceptance (R319). -/
structure KDesc where
  code : Nat := 0
  roles : List (Option RoleD) := []
  gx : Nat := 0
  gy : Nat := 0
  gz : Nat := 0
  scratch : Nat := 0
  flags : BitVec 32 := 0
  lcores : Nat := 0
  tmod : Nat := 0
  tres : Nat := 0
  caddr : Nat := 0
  cval : DWord := 0
  csco : Nat := 0
  deps : List (Nat × Nat) := []
  queues : List QDecl := []
  stream : Nat := 0
  scount : Nat := 0
  drawlim : Nat := 0
  viewt : Nat := 0
  viewa : Nat := 0
  thaw : Nat := 0
  rsvx : Nat := 0
  dseed : DWord := 0
  deriving DecidableEq, Repr, Inhabited

/-- A counter reservation (R343). -/
structure Reservation where
  seq : Word
  seed : DWord
  stream : Nat
  count : Nat
  deriving DecidableEq, Repr

/-- Where a host work ring's packet stood, with its successors (R303). -/
structure HostOrigin where
  ring : Nat
  index : Word
  succs : List (Word × Nat)
  deriving DecidableEq, Repr

/-- A launch slot (R322): accepted and not yet completed. -/
structure Launch where
  key : Nat
  ctx : Nat
  seq : Word
  d : KDesc
  /-- The 256-byte constant block image (R87). -/
  consts : Mem := []
  seed : DWord
  /-- The descriptor's 256 bytes as read, for checkpoints (R353). -/
  image : List Byte := []
  met : List Bool
  /-- Next team to place; in deterministic mode, the next team of each logical core (R325, R345). -/
  next : List Nat
  /-- Second copies already placed are recorded by the team index (R349). -/
  second : List Nat := []
  /-- Group counts of twinned teams by index, which the second copy takes too (R349). -/
  counts : List (Nat × List Nat) := []
  first : Option Nat := none
  cause : Nat := 0
  code : Nat := 0
  /-- A grid kill has dropped its WAITING teams (R335). -/
  dropped : Bool := false
  /-- The moment of its acceptance or of the last dependency met, which its teams' reads do not precede (R217, R323). -/
  since : Nat := 0
  host : Option HostOrigin := none
  deriving DecidableEq, Repr, Inhabited

/-- A LAUNCH that waits at the launch unit for a launch slot (R322, R324): the descriptor, and the long results to fill. -/
structure LaunchReq where
  ctx : Nat
  va : Nat
  results : List (Tid × Nat)
  deriving DecidableEq, Repr

/-- A registered context (R321). -/
structure Ctx where
  id : Nat
  root : Nat
  save : Nat
  hentry : DWord
  rsbase : DWord
  rsspill : DWord
  ovfl : DWord
  hrtab : DWord
  evring : Word
  erring : Word
  lullW : Nat
  lullKill : Bool
  clog : Word
  seed0 : DWord
  part : Nat
  /-- SEED register (R339). -/
  seed : DWord
  nextLaunch : Word := 0
  nextColl : Word := 0
  /-- The last completed reservations, oldest first (R343). -/
  history : List Reservation := []
  /-- Module cycle at which the Lull count last restarted (R336). -/
  lullStart : Nat := 0
  /-- Pre-empted by order 0x03 (R380). -/
  preempted : Bool := false
  /-- A checkpoint is ordered at this image address (R352), with the order's path and sequence. -/
  ckpt : Option (DWord × OrderPath × Word) := none
  /-- Being released by order 0x02: the order's path and sequence (R380). -/
  releasing : Option (OrderPath × Word) := none
  deriving DecidableEq, Repr, Inhabited

/-- A handler reserve segment (R82): why it is held, and the address of its save slot while it is evicted. -/
structure RSeg where
  id : Nat
  core : Nat
  ctx : Nat
  phys : Nat
  /-- 0 the context's first, 1 claimed under RSVX, 2 claimed at trap entry. -/
  kind : Nat
  /-- Owner-tagged jointly to swapped teams (R82). -/
  tagged : Bool := false
  taggedAt : Nat := 0
  saved : Option Nat := none
  stuck : Bool := false
  deriving DecidableEq, Repr

/-! ### Commands and locks -/

/-- The engines behind the queues and the arrays (R42, R257, R166). -/
inductive Engine where
  | cpy (core : Nat) | srt (cluster : Nat) | trv (cluster : Nat) | slv (cluster : Nat)
  | base (stack : Nat) | cap (chip : Nat) | fabric
  /-- The X-die, for commands that reach no base die (R310). -/
  | xdie
  | array (core : Nat) (pipe : Nat)
  | hash (core : Nat) | rrot (cluster : Nat)
  deriving DecidableEq, Repr, Inhabited

/-- How far a command has come (R177, R264, R268). -/
inductive Stage where
  /-- Waiting in its queue. -/
  | queued
  /-- Started; its row has run. -/
  | running
  /-- Past its consumed point. -/
  | consumed
  /-- Past its done point; a token or a fault is still owed. -/
  | done
  deriving DecidableEq, Repr

/-- A write a command owes: team pool or virtual address, and the bytes. -/
structure CmdWrite where
  pool : Bool
  addr : Nat
  bytes : List Byte
  deriving DecidableEq, Repr

/-- A command in flight with its command record (R273). -/
structure Cmd where
  id : Nat
  eng : Engine
  team : Nat
  ctx : Nat
  core : Nat
  group : Nat
  code : Nat
  words : List Word
  /-- Values its operand group held at issue, or its parameter block. -/
  args : List Word := []
  pc : DWord
  word : DWord
  age : Nat
  seq : Option Nat
  tag : Nat
  notok : Bool
  recips : List Tid
  guard : Option Nat := none
  stage : Stage := .queued
  /-- Presence clearing still to be made (R143). -/
  fillHeld : Bool := false
  /-- Presence-managed lines not yet arrived (R143). -/
  lines : List Nat := []
  /-- A matrix command's source lines that were absent at its entry and have not become present since (R178). -/
  awaits : List Nat := []
  /-- It has come to its queue's head and found no lock there that it must wait for (R179, log 32, DEDUCED). -/
  claimed : Bool := false
  out : List CmdWrite := []
  /-- A carry status word to write at done: group, number, value (R195). -/
  csOut : Option (Nat × Word) := none
  /-- The long results of its recipients that it will make ready (R196). -/
  longs : List Nat := []
  /-- Chunks of a collective not yet folded, and chunks whose result it has not got (R372). -/
  folds : List Nat := []
  chunks : List Nat := []
  status : Nat := 0
  fault : Option FaultInfo := none
  /-- A token at the consumed point was requested (R170). -/
  tokAtConsumed : Bool := false
  /-- Tokens still to post, with the moments at which they came due (R180). -/
  owed : List (Nat × Word) := []
  /-- It will not run: it was rejected or discarded, and waits for its turn to close (R264, R268). -/
  idle : Bool := false
  /-- Where the pages that it names lie, as its engine translated them at acceptance: page of the virtual address, physical address, and whether it may be written (R310). -/
  pages : List (Nat × Nat × Bool) := []
  deriving DecidableEq, Repr, Inhabited

/-- A range-lock entry (R229). -/
structure Lock where
  cmd : Nat
  core : Nat
  ctx : Nat
  team : Nat
  pool : Bool
  lo : Nat
  len : Nat
  dst : Bool
  /-- A tile's row stride and row bytes; 0 for a range without gaps (R187). -/
  stride : Nat := 0
  row : Nat := 0
  deriving DecidableEq, Repr

/-- A counted RROT request not yet moved (R154). -/
structure RrotReq where
  cmd : Nat
  team : Nat
  k : Nat
  off : Nat
  size : Nat
  back : Bool
  deriving DecidableEq, Repr

/-! ### Rings, sets, fabric, management -/

/-- A defined ring table entry (R292–R295). -/
structure Ring where
  die : Nat
  index : Nat
  ctx : Nat
  desc : DWord
  base : DWord
  ldepth : Nat
  lslot : Nat
  head : Word
  tail : Word
  ownerTeam : Word
  ownerLaunch : Word
  swapped : Bool := false
  deriving DecidableEq, Repr, Inhabited

/-- A packet on its way to a ring (R300): its sender (program order), target and return rings. -/
structure RenqPkt where
  id : Nat
  ctx : Nat
  sender : Nat
  target : Word
  ret : Word
  words : List Word
  /-- Its place in the overflow area that holds it (R300, R321). -/
  slot : Option Nat := none
  deriving DecidableEq, Repr

/-- A host work ring assigned to a context (R303). The launch unit takes up its indices at the first tail write that the host ring monitor sees. -/
structure HostRing where
  ring : Nat
  ctx : Nat
  live : Bool := false
  /-- The slot at the head did not hold its packet yet: the ring waits for another tail write. -/
  waits : Bool := false
  head : Word := 0
  tail : Word := 0
  deriving DecidableEq, Repr

/-- A SIGNAL packet waiting for the earlier launches of its ring (R303). -/
structure HostSignal where
  id : Nat
  ring : Nat
  ctx : Nat
  index : Word
  addr : DWord
  val : DWord
  scope : Nat
  after : List Nat
  succs : List (Word × Nat)
  deriving DecidableEq, Repr

/-- A contribution to a reduction set (R249, R254). A tile has its row stride and its values; a word has one value. -/
structure Contrib where
  id : Nat
  ctx : Nat
  set : Word
  idx : Word
  va : DWord
  aop : Aop
  ty : ATy
  value : DWord
  tile : Option (Nat × List Word) := none
  cmd : Option Nat := none
  recips : List Tid
  pc : DWord
  word : DWord
  age : Nat
  /-- It waits in its load-store unit for a set table entry or a buffer, and its threads' later accesses behind it (R251). -/
  waits : Bool := false
  /-- Its place in the spill area that holds it (R251, R321). -/
  spill : Option Nat := none
  /-- The launch whose thread or command issued it (R334). -/
  launch : Nat := 0
  deriving DecidableEq, Repr

/-- An entry of a die's set table (R251). -/
structure SetEntry where
  die : Nat
  ctx : Nat
  set : Nat
  base : Word
  count : Nat
  start : Nat
  length : Nat
  flagAddr : DWord
  flagVal : DWord
  scope : Nat
  applied : Nat := 0
  held : List Contrib := []
  deriving DecidableEq, Repr, Inhabited

/-- A monitor (R374). `owner`: none, a context, or 64 for the management plane. -/
structure Monitor where
  num : Nat
  src : Word
  state : Nat
  count : Nat
  sum : Nat
  min : Word
  max : Word
  bins : List Nat
  owner : Option Nat
  deriving DecidableEq, Repr

/-- A queue pair (R368): its context, and whether its sending rate is lowered. -/
structure QPair where
  num : Nat
  ctx : Nat
  lowered : Nat := 0
  deriving DecidableEq, Repr

/-- A remote window entry (R370). -/
structure Window where
  index : Nat
  qp : Nat
  rkey : Word
  base : DWord
  len : DWord
  ctx : Nat
  deriving DecidableEq, Repr

/-- A remote store not yet acknowledged (R222, R370). -/
structure RemoteOp where
  id : Nat
  ctx : Nat
  qp : Nat
  recips : List Tid
  va : DWord
  pc : DWord
  word : DWord
  age : Nat
  deriving DecidableEq, Repr

/-- A collective chunk on its way to a rank of this module (R369, R372): from a child, or a result from the parent. The context and the rank it is for are known of those sent within the module. -/
structure CollChunk where
  ctx : Option Nat
  cid : Word
  thash : DWord
  src : Word
  down : Bool
  chunk : Nat
  bytes : List Byte
  dest : Option Word := none
  deriving DecidableEq, Repr

/-- A mapped page of a checkpoint: its virtual address and size, its leaf's attributes other than PA and HOME, and its bytes that are not 0. -/
structure CkptPage where
  va : Nat
  size : Nat
  leaf : DWord
  cells : Mem
  deriving DecidableEq, Repr

/-- The logical image of a checkpoint (R353, log 21, DESIGN CHOICE). It names no partition, root, die or place: those fields are 0 in it. -/
structure CkptImage where
  addr : DWord
  ctx : Ctx
  pages : List CkptPage
  launches : List Launch
  /-- The rings, each under its handle word at the checkpoint. -/
  rings : List (Word × Ring)
  held : List RenqPkt
  /-- Packets and contributions that had not arrived at the boundary. -/
  renqs : List RenqPkt
  contribs : List Contrib
  hostRings : List HostRing
  sets : List SetEntry
  deriving DecidableEq, Repr

/-- What the module has sent. -/
inductive OutMsg where
  /-- An order's 16-byte result (R380). -/
  | orderResult (path : OrderPath) (seq : Word) (code : Nat) (value : DWord)
  /-- A mailbox record returned by order 0x0F. -/
  | mailRecord (path : OrderPath) (bytes : List Byte)
  /-- An SPDM answer (R378). -/
  | spdm (bytes : List Byte)
  /-- An answer to an RDMA read or atomic of a host (R368). -/
  | rdmaData (qp : Nat) (bytes : List Byte)
  /-- An RDMA access that could not be performed. -/
  | rdmaError (qp : Nat)
  /-- A remote window write (R370). -/
  | remote (qp : Nat) (rkey : Word) (va : DWord) (bytes : List Byte)
  /-- A remote window read of n bytes. -/
  | remoteRead (qp : Nat) (rkey : Word) (va : DWord) (n : Nat)
  /-- A 64-bit RoCE v2 atomic at a remote window (R210, R247): fetch-and-add of a value, or compare-and-swap. -/
  | remoteAdd (qp : Nat) (rkey : Word) (va : DWord) (value : DWord)
  | remoteCas (qp : Nat) (rkey : Word) (va : DWord) (compare value : DWord)
  /-- An Evavo message (R369). -/
  | evavo (qp : Nat) (m : EvMsg)
  /-- A congestion notification packet (R367). -/
  | cnp (qp : Nat)
  deriving DecidableEq, Repr

/-- A start journal entry (R376). -/
structure JournalEntry where
  step : Nat
  attempt : Nat
  path : Nat
  outcome : Nat
  deriving DecidableEq, Repr

/-- The start state (R376, R377, R379). -/
structure Boot where
  powered : Bool := true
  started : Bool := false
  halted : Option Nat := none
  /-- The report of the physics that the next start reads (log 11, DESIGN CHOICE). -/
  plan : StartReport
  journal : List JournalEntry := []
  previous : List JournalEntry := []
  absentSteps : List Nat := []
  /-- Firmware in flash, two slots an image, and the images running (R376, R377). -/
  flash : List FwImage := []
  running : List FwImage := []
  rollback : Nat := 0
  /-- Data ports that step 10 left down (R376), and the lossless priorities, at most 2 (R367). -/
  portsDown : List Nat := []
  lossless : List Nat := []
  dabound : Nat := 0
  mibound : Nat := 49152
  /-- The control queue pair that step 12 sets up (R380). -/
  controlQp : Option Nat := none
  /-- How often a congestion notification has lowered its rate (R368). -/
  controlLowered : Nat := 0
  deriving DecidableEq, Repr

/-- The two clocks (R3, R50, R12): the module cycle counter, the arithmetic cycle count, the arithmetic clock in MHz, and the remainder between them. -/
structure Clocks where
  cycle : BitVec 64 := 0
  acycle : Nat := 0
  mhz : Nat := 1200
  frac : Nat := 0
  deriving DecidableEq, Repr

/-- The error mailbox (R379). -/
structure Mailbox where
  records : List (Word × List Byte) := []
  next : Word := 0
  overflow : Nat := 0
  deriving DecidableEq, Repr

/-- A cached translation (R204): a context's leaf for the block that starts at `base`. -/
structure TlbEntry where
  core : Nat
  ctx : Nat
  base : Nat
  size : Nat
  leaf : DWord
  leafAddr : Nat
  deriving DecidableEq, Repr

/-- An L1 sector (R209), with the moment of its fill. Threads in `barred` have read its home since, so it does not serve them (R214). A copy that holds an uncorrectable error is `bad` (R235). -/
structure L1Sector where
  core : Nat
  sector : Nat
  bytes : List Byte
  stamp : Nat := 0
  barred : List Tid := []
  bad : Bool := false
  deriving DecidableEq, Repr

/-- Bytes that a write has replaced and that instruction fetch may still see, in prefetched words or in instruction cache copies (R17, R225, R228): who stored, when, which CMAINT clean of theirs has reached them, and the fences issued after it, each with its thread and scope. -/
structure ICopy where
  pa : Nat
  old : List Byte
  storer : Option Tid
  /-- The storing thread's core. -/
  core : Option Nat := none
  stamp : Nat
  cleaned : Option Nat := none
  fences : List (Tid × Nat) := []
  deriving DecidableEq, Repr

/-- The issue set being executed (R51): its threads by ascending lane, its PC and its word. A retry executes the pending word of lanes that have woken; `set` then holds the lanes that were active when the word issued, and `popped` what its lanes had already popped. -/
structure Cur where
  core : Nat
  pipe : Nat
  team : Nat
  lanes : List Tid
  pc : DWord
  word : DWord
  retry : Bool := false
  set : List Tid := []
  popped : List (Tid × List Word) := []
  /-- Number of the issue. -/
  issue : Nat := 0
  /-- The lane map of the issue, on a retry (R50). -/
  map : BitVec 64 := 0
  deriving DecidableEq, Repr

/-- The whole machine. -/
structure State where
  clk : Clocks
  boot : Boot
  /-- Partition of each C-die, 8 for none (R10, R333, log 12, DESIGN CHOICE). -/
  dieParts : List Nat
  /-- Partition changes that remove a die and have not completed (R333): the die. -/
  removing : List Nat
  /-- Global memory by physical address (R198, R305). -/
  mem : Mem
  /-- LLC sectors that are dirty, with the bytes memory still holds (R208, R228). -/
  dirty : List (Nat × List Byte)
  l1 : List L1Sector
  icache : List ICopy
  tlb : List TlbEntry
  /-- Marked sectors of memory, those of them that are marked at their home slice too, and of instruction caches by core (R235), pool words by team and address, and words of handler frames by reserve segment and offset (R88). -/
  ue : List Nat
  ueHome : List Nat
  icUe : List (Nat × Nat)
  poolUe : List (Nat × Nat)
  frameUe : List (Nat × Nat)
  locks : List Lock
  contexts : List Ctx
  launches : List Launch
  launchWaits : List LaunchReq
  teams : List Team
  reserves : List RSeg
  /-- Thaw marks: core, context, cycle (R329). -/
  thaw : List (Nat × Nat × Nat)
  cmds : List Cmd
  rrots : List RrotReq
  rings : List Ring
  /-- Generation counters that are not 1, by 8192 × die + index (R293, log 13, DESIGN CHOICE). -/
  ringGens : List (Nat × Nat)
  renqs : List RenqPkt
  /-- Packets in overflow areas, by home die (R300). -/
  held : List (Nat × RenqPkt)
  hostRings : List HostRing
  hostSignals : List HostSignal
  sets : List SetEntry
  contribs : List Contrib
  monitors : List Monitor
  mailbox : Mailbox
  qps : List QPair
  windows : List Window
  remoteOps : List RemoteOp
  /-- Paused priorities: port, priority, quanta (R367). -/
  pauses : List (Nat × Nat × Nat)
  collChunks : List CollChunk
  ckpts : List CkptImage
  outbox : List OutMsg
  /-- Steps from outside waiting to happen, oldest first. -/
  inputs : List Instr
  /-- The issue set being executed. -/
  cur : Option Cur
  /-- Lanes woken in the middle of a word, to act before any later word (R259). -/
  retries : List Tid
  /-- Next pipe to issue in this cycle, 4 × core + pipe (log 3, DESIGN CHOICE). -/
  turn : Nat
  /-- The model's own counters: ids and ages handed out, free values used (log 2, DESIGN CHOICE, log 10, DESIGN CHOICE). -/
  nextId : Nat
  freeCtr : Nat
  deriving DecidableEq, Repr

/-- A monitor at reset (R374, log 14, DESIGN CHOICE). -/
def Monitor.reset (n : Nat) : Monitor :=
  { num := n, src := 0, state := 0, count := 0, sum := 0, min := 0xFFFFFFFF, max := 0,
    bins := List.replicate 16 0, owner := none }

/-- The report of a start in which every step succeeds (log 11, DESIGN CHOICE). -/
def StartReport.plain : StartReport :=
  { steps := List.replicate 12 { mainOk := true, altOk := true, code := 0 }, dabound := 0, mibound := 49152 }

/-- The machine right after reset, before the start of R376 has run. -/
def State.reset : State :=
  { clk := {}, boot := { plan := StartReport.plain }, dieParts := List.replicate 8 0, removing := [],
    mem := [], dirty := [], l1 := [], icache := [], tlb := [], ue := [], ueHome := [], icUe := [], poolUe := [], frameUe := [], locks := [],
    contexts := [], launches := [], launchWaits := [], teams := [], reserves := [], thaw := [], cmds := [], rrots := [],
    rings := [], ringGens := [], renqs := [], held := [], hostRings := [], hostSignals := [],
    sets := [], contribs := [], monitors := [], mailbox := {}, qps := [], windows := [], remoteOps := [],
    pauses := [], collChunks := [], ckpts := [], outbox := [], inputs := [], cur := none, retries := [],
    turn := 0, nextId := 0, freeCtr := 0 }

end Sys2Proof.Machine
end

