-- ==== Sys2Proof/Machine/Mem.lean ====
section
/-! DEFINITION. Byte stores in canonical form, and little-endian values in them (R2). Every wider access is built here, so byte order is decided once. -/

namespace Sys2Proof.Machine

/-- The byte at an address: 0 where nothing is listed (log 1, DESIGN CHOICE). -/
def Mem.get : Mem → Nat → Byte
  | [], _ => 0
  | (k, b) :: m, a => if a = k then b else Mem.get m a

/-- List a byte in its place. -/
def Mem.put : Mem → Nat → Byte → Mem
  | [], a, v => [(a, v)]
  | (k, b) :: m, a, v =>
    if a = k then (a, v) :: m
    else if a < k then (a, v) :: (k, b) :: m
    else (k, b) :: Mem.put m a v

/-- Put a listed byte in its place, or take the entry out when the byte is 0. -/
def Mem.set (m : Mem) (a : Nat) (v : Byte) : Mem := if v = 0 then m.filter fun c => decide (c.1 ≠ a) else Mem.put m a v

/-- The canonical form: listed addresses lie above the bound and rise, and no listed byte is 0. -/
def Mem.wfFrom : Nat → Mem → Bool
  | _, [] => true
  | lo, (k, b) :: m => decide (lo ≤ k) && decide (b ≠ 0) && Mem.wfFrom (k + 1) m

/-- The canonical form of a store. -/
def Mem.wf (m : Mem) : Bool := Mem.wfFrom 0 m

/-- n bytes from an address up. -/
def Mem.getN (m : Mem) (a : Nat) : Nat → List Byte
  | 0 => []
  | n + 1 => Mem.get m a :: Mem.getN m (a + 1) n

/-- Write bytes from an address up. -/
def Mem.setN (m : Mem) (a : Nat) : List Byte → Mem
  | [] => m
  | b :: bs => Mem.setN (Mem.set m a b) (a + 1) bs

/-- The listed bytes of [lo, lo + len), by offset from lo. -/
def Mem.slice (m : Mem) (lo len : Nat) : List (Nat × Byte) :=
  (m.filter fun c => decide (lo ≤ c.1 ∧ c.1 < lo + len)).map fun c => (c.1 - lo, c.2)

/-- Make [lo, lo + len) all zero. -/
def Mem.zero (m : Mem) (lo len : Nat) : Mem := m.filter fun c => !decide (lo ≤ c.1 ∧ c.1 < lo + len)

/-- Write listed bytes, each at its offset from lo. -/
def Mem.paste (m : Mem) (lo : Nat) (cells : List (Nat × Byte)) : Mem :=
  cells.foldl (fun m c => Mem.set m (lo + c.1) c.2) m

/-- The unsigned value of little-endian bytes (R2). -/
def leNat : List Byte → Nat
  | [] => 0
  | b :: bs => b.toNat + 256 * leNat bs

/-- The n little-endian bytes of a value (R2). -/
def leBytes : Nat → Nat → List Byte
  | 0, _ => []
  | n + 1, v => BitVec.ofNat 8 v :: leBytes n (v / 256)

/-- An unsigned value of n bytes. -/
def Mem.nat (m : Mem) (a n : Nat) : Nat := leNat (Mem.getN m a n)

/-- Write an unsigned value in n bytes. -/
def Mem.setNat (m : Mem) (a n v : Nat) : Mem := Mem.setN m a (leBytes n v)

/-- The 32-bit word at an address. -/
def Mem.w32 (m : Mem) (a : Nat) : Word := BitVec.ofNat 32 (Mem.nat m a 4)

/-- Write a 32-bit word. -/
def Mem.setW32 (m : Mem) (a : Nat) (w : Word) : Mem := Mem.setNat m a 4 w.toNat

/-- Cut bytes into 32-bit words; a short last word is zero-extended. -/
def wordsOf : List Byte → List Word
  | b0 :: b1 :: b2 :: b3 :: bs => BitVec.ofNat 32 (leNat [b0, b1, b2, b3]) :: wordsOf bs
  | [] => []
  | bs => [BitVec.ofNat 32 (leNat bs)]

/-- The bytes of words, lowest first. -/
def bytesOf (ws : List Word) : List Byte := ws.flatMap fun w => leBytes 4 w.toNat

/-- The u32 field at an offset of a byte list. -/
def u32At (bs : List Byte) (o : Nat) : Nat := leNat ((bs.drop o).take 4)

/-- The u64 field at an offset of a byte list. -/
def u64At (bs : List Byte) (o : Nat) : Nat := leNat ((bs.drop o).take 8)

/-- The u8 field at an offset of a byte list. -/
def u8At (bs : List Byte) (o : Nat) : Nat := leNat ((bs.drop o).take 1)

/-- The u16 field at an offset of a byte list. -/
def u16At (bs : List Byte) (o : Nat) : Nat := leNat ((bs.drop o).take 2)

/-- Every byte of a field is zero. -/
def zeroAt (bs : List Byte) (o n : Nat) : Bool := ((bs.drop o).take n).all (· == 0)

/-- A 64-bit value of two words, the low one first. -/
def pairNat (lo hi : Word) : Nat := lo.toNat + 4294967296 * hi.toNat

/-- The u64 of words i and i + 1 of a list. -/
def wordPair (ws : List Word) (i : Nat) : Nat := pairNat (ws.getD i 0) (ws.getD (i + 1) 0)

/-- A 64-bit value as a word pair. -/
def natPair (v : Nat) : List Word := [BitVec.ofNat 32 v, BitVec.ofNat 32 (v / 4294967296)]

end Sys2Proof.Machine
end

