-- ==== Sys2Proof/Machine/Float.lean ====
section
/-! DEFINITION. Number formats, exact values and rounding (R95 to R108), and the exact operations of classes 1 and 2 before rounding (R120 to R134). Values are dyadic: a sign, a magnitude and a power of two. -/

namespace Sys2Proof.Machine

/-- A value read from a format. -/
inductive FVal where
  | nan
  | inf (neg : Bool)
  /-- (−1)^neg × m × 2^e; m = 0 is a signed zero. -/
  | fin (neg : Bool) (m : Nat) (e : Int)
  deriving DecidableEq, Repr

/-- An exact result before rounding. With sticky, the magnitude lies strictly between m and m + 1 units of 2^e. -/
inductive FExact where
  | nan
  | inf (neg : Bool)
  | fin (neg : Bool) (m : Nat) (e : Int) (sticky : Bool)
  deriving DecidableEq, Repr

/-- How a format treats overflow and special values (R104). -/
inductive FSpecial where
  | ieee | finiteOnly | nanOnly | e2m1
  deriving DecidableEq, Repr

/-- A floating format (R96, R99): total bits, exponent width, precision with the hidden bit, bias, sign, largest finite magnitude code, code of infinity, canonical NaN. -/
structure Fmt where
  w : Nat
  p : Nat
  bias : Nat
  signed : Bool
  maxMag : Nat
  inf : Option Nat
  nan : Option Nat
  special : FSpecial
  /-- No −0 code (R99). -/
  noNegZero : Bool
  deriving DecidableEq, Repr

def Fmt.fp32 : Fmt :=
  { w := 32, p := 24, bias := 127, signed := true, maxMag := 0x7F7FFFFF, inf := some 0x7F800000, nan := some 0x7FC00000,
    special := .ieee, noNegZero := false }
def Fmt.fp64 : Fmt :=
  { w := 64, p := 53, bias := 1023, signed := true, maxMag := 0x7FEFFFFFFFFFFFFF, inf := some 0x7FF0000000000000,
    nan := some 0x7FF8000000000000, special := .ieee, noNegZero := false }
def Fmt.fp16 : Fmt :=
  { w := 16, p := 11, bias := 15, signed := true, maxMag := 0x7BFF, inf := some 0x7C00, nan := some 0x7E00, special := .ieee,
    noNegZero := false }
def Fmt.bf16 : Fmt :=
  { w := 16, p := 8, bias := 127, signed := true, maxMag := 0x7F7F, inf := some 0x7F80, nan := some 0x7FC0, special := .ieee,
    noNegZero := false }
def Fmt.e5m2 : Fmt :=
  { w := 8, p := 3, bias := 15, signed := true, maxMag := 0x7B, inf := some 0x7C, nan := none, special := .ieee,
    noNegZero := false }
def Fmt.e4m3 : Fmt :=
  { w := 8, p := 4, bias := 7, signed := true, maxMag := 0x7E, inf := none, nan := some 0x7F, special := .nanOnly,
    noNegZero := false }
def Fmt.e2m1 : Fmt :=
  { w := 4, p := 2, bias := 1, signed := true, maxMag := 7, inf := none, nan := none, special := .e2m1, noNegZero := false }

/-- binary8pP, signed or unsigned, under a reading (R99, R100). -/
def Fmt.binary8 (prec read : Nat) (uns : Bool) : Fmt :=
  { w := 8, p := prec, bias := if uns then 2 ^ (8 - prec) else 2 ^ (7 - prec), signed := !uns, noNegZero := true,
    maxMag := (match read, uns with
      | 0, false => 0x7E | 0, true => 0xFD
      | 1, false => 0x7F | 1, true => 0xFF
      | _, false => 0x7F | _, true => 0xFE),
    inf := (match read, uns with
      | 0, false => some 0x7F | 0, true => some 0xFE | _, _ => none),
    nan := (match read, uns with
      | 1, _ => none | _, false => some 0x80 | _, true => some 0xFF),
    special := (match read with | 0 => .ieee | 1 => .finiteOnly | _ => .nanOnly) }

/-- The least exponent: the unit of the subnormal positions. -/
def Fmt.emin (f : Fmt) : Int := 2 - (f.bias : Int) - (f.p : Int)

/-- The value of a magnitude code under R96. -/
def Fmt.magVal (f : Fmt) (neg : Bool) (mag : Nat) : FVal :=
  let e := mag / 2 ^ (f.p - 1)
  let fr := mag % 2 ^ (f.p - 1)
  if e = 0 then .fin neg fr f.emin else .fin neg (2 ^ (f.p - 1) + fr) (f.emin + (e : Int) - 1)

/-- The value of a code (R96, R100). -/
def Fmt.val (f : Fmt) (c : Nat) : FVal :=
  let c := c % 2 ^ f.w
  let neg := f.signed && decide (2 ^ (f.w - 1) ≤ c)
  let mag := if f.signed then c % 2 ^ (f.w - 1) else c
  if f.noNegZero && neg && decide (mag = 0) then
    -- the code 0x80 of signed binary8: NaN, or +0 when finite-only
    (if f.nan = none then .fin false 0 f.emin else .nan)
  else if f.inf = some mag then .inf neg
  else if mag ≤ f.maxMag then f.magVal neg mag
  else .nan

/-- The canonical NaN (R97), or the code that stands where the format has none (R104). -/
def Fmt.nanCode (f : Fmt) : Nat := f.nan.getD 0

/-- A signed magnitude code. −0 of binary8 is 0x00 (R99). -/
def Fmt.code (f : Fmt) (neg : Bool) (mag : Nat) : Nat :=
  if !f.signed then (if neg then 0 else mag)
  else if f.noNegZero && decide (mag = 0) then 0
  else if neg then 2 ^ (f.w - 1) + mag else mag

/-- Whether rounding goes up from the truncated significand, given the dropped part in relation to one half (R102). -/
def roundUp (rm : Rm) (neg odd : Bool) (rest : Ordering) (inexact : Bool) : Bool :=
  match rm with
  | .rne => (match rest with | .gt => true | .eq => odd | .lt => false)
  | .rna => (match rest with | .lt => false | _ => true)
  | .rtz => false
  | .rup => !neg && inexact
  | .rdn => neg && inexact

/-- Round m × 2^e (m > 0) to a multiple of 2^q. -/
def roundTo (rm : Rm) (neg : Bool) (m : Nat) (e : Int) (sticky : Bool) (q : Int) : Nat :=
  if q ≤ e then
    let M := m * 2 ^ (e - q).toNat
    if roundUp rm neg (M % 2 = 1) .lt sticky then M + 1 else M
  else
    let sh := (q - e).toNat
    let M := m / 2 ^ sh
    let rem := m % 2 ^ sh
    let half := 2 ^ (sh - 1)
    let rest : Ordering := if rem < half then .lt else if half < rem then .gt else if sticky then .gt else .eq
    if roundUp rm neg (M % 2 = 1) rest (sticky || decide (rem ≠ 0)) then M + 1 else M

/-- The overflow result (R104). -/
def Fmt.overflow (f : Fmt) (rm : Rm) (sat neg : Bool) : Nat :=
  let max := f.code neg f.maxMag
  if sat then max
  else match f.special, f.inf with
    | .ieee, some i =>
      (match rm, neg with
        | .rne, _ | .rna, _ => f.code neg i
        | .rtz, _ => max
        | .rup, false | .rdn, true => f.code neg i
        | .rup, true | .rdn, false => max)
    | .nanOnly, _ => f.nanCode
    | _, _ => max

/-- Deliver an exact result to a format: rounding, overflow, special values and, with ftz, flushing (R102 to R104). (log 35, DEDUCED) -/
def Fmt.round (f : Fmt) (rm : Rm) (sat ftz : Bool) : FExact → Nat
  | .nan => f.nanCode
  | .inf neg =>
    if !f.signed && neg then 0
    else if sat then f.code neg f.maxMag
    else match f.special, f.inf with
      | .ieee, some i => f.code neg i
      | .nanOnly, _ => f.nanCode
      | _, _ => f.code neg f.maxMag
  | .fin neg m e sticky =>
    if m = 0 && !sticky then f.code neg 0
    else if !f.signed && neg then 0
    else
      -- a zero significand with sticky is a value below one unit: give it two units of a quarter
      let m' := if m = 0 then 1 else m
      let e' := if m = 0 then e - 2 else e
      let l : Int := (Nat.log2 m' : Int)
      let qn := e' + l - ((f.p : Int) - 1)
      let flush := ftz && (let M := roundTo rm neg m' e' sticky qn
                           decide (((M : Int) = 2 ^ f.p ∧ qn + 1 < f.emin) ∨ ((M : Int) < 2 ^ f.p ∧ qn < f.emin)))
      if flush then f.code neg 0
      else
        let q := if qn < f.emin then f.emin else qn
        let M := roundTo rm neg m' e' sticky q
        let mag := if M < 2 ^ (f.p - 1) then M else (q - f.emin + 1).toNat * 2 ^ (f.p - 1) + (M - 2 ^ (f.p - 1))
        if f.maxMag < mag then f.overflow rm sat neg else f.code neg mag

/-- A subnormal input reads as zero of the same sign under FTZ (R103). -/
def Fmt.flushIn (f : Fmt) (ftz : Bool) (v : FVal) : FVal :=
  match v with
  | .fin neg m e => if ftz && decide (m < 2 ^ (f.p - 1)) && decide (e = f.emin) then .fin neg 0 e else v
  | _ => v

def FVal.exact : FVal → FExact
  | .nan => .nan
  | .inf n => .inf n
  | .fin n m e => .fin n m e false

def FVal.neg : FVal → FVal
  | .nan => .nan
  | .inf n => .inf (!n)
  | .fin n m e => .fin (!n) m e

def FVal.abs : FVal → FVal
  | .nan => .nan
  | .inf _ => .inf false
  | .fin _ m e => .fin false m e

def FVal.isNan : FVal → Bool
  | .nan => true
  | _ => false

def FVal.isZero : FVal → Bool
  | .fin _ 0 _ => true
  | _ => false

def FVal.sign : FVal → Bool
  | .nan => false
  | .inf n => n
  | .fin n _ _ => n

/-! ### Exact sums (R102, R108) -/

/-- A signed magnitude as an integer of units 2^e. -/
def scaled (neg : Bool) (m : Nat) (e base : Int) : Int :=
  let v : Int := (m * 2 ^ (e - base).toNat : Nat)
  if neg then -v else v

/-- The least exponent of a list of finite terms. -/
def minExp : List FVal → Int → Int
  | [], b => b
  | .fin _ _ e :: vs, b => minExp vs (if e < b then e else b)
  | _ :: vs, b => minExp vs b

/-- The exact sum of terms: NaN and infinities as R108, the zero's sign by the rule given. -/
def sumExact (terms : List FVal) (zeroNeg : Bool) : FExact :=
  if terms.any FVal.isNan then .nan
  else
    let pos := terms.any (fun v => decide (v = .inf false))
    let ngt := terms.any (fun v => decide (v = .inf true))
    if pos && ngt then .nan
    else if pos then .inf false
    else if ngt then .inf true
    else
      let base := minExp terms 0
      let t := terms.foldl (fun acc v => match v with | .fin n m e => acc + scaled n m e base | _ => acc) (0 : Int)
      if t = 0 then .fin zeroNeg 0 0 false
      else .fin (decide (t < 0)) t.natAbs base false

/-- The sign of an exact zero sum: that of the terms when they agree, else + (− under RDN), as IEEE 754-2019. -/
def zeroSign (rm : Rm) (terms : List FVal) : Bool :=
  if terms.all (fun v => v.isZero && v.sign) then true
  else if terms.all (fun v => v.isZero && !v.sign) then false
  else decide (rm = .rdn)

def fAdd (rm : Rm) (a b : FVal) : FExact := sumExact [a, b] (zeroSign rm [a, b])

/-- An exact product. -/
def fMulV (a b : FVal) : FVal :=
  match a, b with
  | .nan, _ | _, .nan => .nan
  | .inf n, .inf m => .inf (n != m)
  | .inf n, .fin m x _ => if x = 0 then .nan else .inf (n != m)
  | .fin m x _, .inf n => if x = 0 then .nan else .inf (n != m)
  | .fin n x e, .fin m y g => .fin (n != m) (x * y) (e + g)

def fMul (a b : FVal) : FExact := (fMulV a b).exact

/-- a × b + c, rounded once by the caller. -/
def fFma (rm : Rm) (a b c : FVal) : FExact :=
  let p := fMulV a b
  sumExact [p, c] (zeroSign rm [p, c])

/-- The quotient, with at least 70 significant bits and a sticky part. -/
def fDiv (a b : FVal) : FExact :=
  match a, b with
  | .nan, _ | _, .nan => .nan
  | .inf _, .inf _ => .nan
  | .inf n, .fin m _ _ => .inf (n != m)
  | .fin n _ _, .inf m => .fin (n != m) 0 0 false
  | .fin n x e, .fin m y g =>
    if y = 0 then (if x = 0 then .nan else .inf (n != m))
    else if x = 0 then .fin (n != m) 0 0 false
    else
      let sh := 70 + Nat.log2 y
      let q := x * 2 ^ sh / y
      .fin (n != m) q (e - g - sh) (decide (x * 2 ^ sh % y ≠ 0))

/-- Integer square root by bits, from bit k − 1 down. -/
def isqrtFrom (n : Nat) : Nat → Nat → Nat
  | 0, r => r
  | k + 1, r => if (r + 2 ^ k) * (r + 2 ^ k) ≤ n then isqrtFrom n k (r + 2 ^ k) else isqrtFrom n k r

def isqrt (n : Nat) : Nat := isqrtFrom n (Nat.log2 n / 2 + 1) 0

/-- The square root, with at least 64 significant bits and a sticky part. -/
def fSqrt (a : FVal) : FExact :=
  match a with
  | .nan => .nan
  | .inf n => if n then .nan else .inf false
  | .fin n m e =>
    if m = 0 then .fin n 0 0 false
    else if n then .nan
    else
      let sh : Nat := 130 + (if (e - 130) % 2 = 0 then 0 else 1)
      let x := m * 2 ^ sh
      let r := isqrt x
      .fin false r ((e - sh) / 2) (decide (r * r ≠ x))

/-- 1/√a truncated to at least 64 significant bits, for a positive finite a. -/
def fRsqrt (m : Nat) (e : Int) : FExact :=
  let k : Nat := 300 + (if (e + 300) % 2 = 0 then 0 else 1)
  .fin false (isqrt (2 ^ k / m)) (-((e + k) / 2)) true

/-! ### Comparison and minimum (R122, R123) -/

/-- Order of two numbers, −0 equal to +0; none when one is a NaN. -/
def fOrd (a b : FVal) : Option Ordering :=
  match a, b with
  | .nan, _ | _, .nan => none
  | .inf n, .inf m => some (if n = m then .eq else if n then .lt else .gt)
  | .inf n, _ => some (if n then .lt else .gt)
  | _, .inf m => some (if m then .gt else .lt)
  | .fin n x e, .fin m y g =>
    let base := if e < g then e else g
    some (compare (scaled n x e base) (scaled m y g base))

/-- The lesser (or the greater) operand: −0 below +0, a NaN gives way to a number (R122). -/
def fMin (greater : Bool) (a b : FVal) : FVal :=
  match fOrd a b with
  | none => if a.isNan then b else a
  | some .lt => if greater then b else a
  | some .gt => if greater then a else b
  | some .eq => if a.sign != greater then a else b

/-! ### Integral values (R127, R105) -/

/-- Round a finite value to an integer by a mode. -/
def toInt (rm : Rm) (neg : Bool) (m : Nat) (e : Int) : Int :=
  let M := if m = 0 then 0 else roundTo rm neg m e false 0
  if neg then -(M : Int) else M

/-- A conversion to an integer range (R105). -/
def fToInt (rm : Rm) (lo hi : Int) : FVal → Int
  | .nan => 0
  | .inf n => if n then lo else hi
  | .fin n m e => let v := toInt rm n m e; if v < lo then lo else if hi < v then hi else v

/-- FRINT's exact result, keeping the sign of a. -/
def fRint (rm : Rm) : FVal → FExact
  | .nan => .nan
  | .inf n => .inf n
  | .fin n m e => if 0 ≤ e then .fin n m e false else .fin n (toInt rm n m e).natAbs 0 false

/-- The value of an integer. -/
def FVal.ofInt (i : Int) : FVal := .fin (decide (i < 0)) i.natAbs 0

/-- A single-bit class word (R127). -/
def fClass (f : Fmt) : FVal → Nat
  | .nan => 0x100
  | .inf n => if n then 1 else 0x80
  | .fin n m e =>
    if m = 0 then (if n then 8 else 0x10)
    else if m < 2 ^ (f.p - 1) ∧ e = f.emin then (if n then 4 else 0x20)
    else (if n then 2 else 0x40)

/-! ### The elementary functions (R126), in fixed point of 320 fraction bits -/

/-- One in fixed point. -/
def fxOne : Nat := 2 ^ 320

/-- Σ x^k / k! from a running term. -/
def expSeries (x : Nat) : Nat → Nat → Nat → Nat → Nat
  | 0, _, _, acc => acc
  | n + 1, k, t, acc => let t' := t * x / fxOne / k; expSeries x n (k + 1) t' (acc + t')

/-- Σ t / (2k + 1) with t divided by d² (as num/den of the square) each time, signs alternating or not. -/
def atanSeries (num den : Nat) (alt : Bool) : Nat → Nat → Nat → Int → Int
  | 0, _, _, acc => acc
  | n + 1, k, t, acc =>
    let term : Int := (t / (2 * k + 1) : Nat)
    atanSeries num den alt n (k + 1) (t * num / den) (if alt && k % 2 = 1 then acc - term else acc + term)

/-- ln 2 = 2 atanh(1/3). -/
def fxLn2 : Nat := 2 * (atanSeries 1 9 false 110 0 (fxOne / 3) 0).toNat

/-- π = 16 atan(1/5) − 4 atan(1/239). -/
def fxPi : Nat :=
  (16 * atanSeries 1 25 true 80 0 (fxOne / 5) 0 - 4 * atanSeries 1 57121 true 40 0 (fxOne / 239) 0).toNat

/-- ln(x) of x in [1, 2): 2 atanh((x − 1) / (x + 1)). -/
def fxLn (x : Nat) : Nat :=
  let z := (x - fxOne) * fxOne / (x + fxOne)
  2 * (atanSeries (z * z) (fxOne * fxOne) false 110 0 z 0).toNat

/-- Alternating Taylor sum of sine or cosine from a running term: t × x² / (k (k + 1)) each time. -/
def trigSeries (x2 : Nat) : Nat → Nat → Nat → Bool → Int → Int
  | 0, _, _, _, acc => acc
  | n + 1, k, t, sub, acc =>
    let t' := t * x2 / fxOne / (k * (k + 1))
    trigSeries x2 n (k + 2) t' (!sub) (if sub then acc - t' else acc + t')

def fxSin (x : Nat) : Nat := (trigSeries (x * x / fxOne) 45 2 x true (x : Int)).toNat
def fxCos (x : Nat) : Nat := (trigSeries (x * x / fxOne) 45 1 fxOne true (fxOne : Int)).toNat

/-- 2^a. -/
def fExp2 : FVal → FExact
  | .nan => .nan
  | .inf n => if n then .fin false 0 0 false else .inf false
  | .fin n m e =>
    if m = 0 then .fin false 1 0 false
    else
      -- beyond ±2^9 every result over- or underflows FP32, as does ±2^9 itself
      let big := decide (9 ≤ (Nat.log2 m : Int) + e)
      if big then (if n then .fin false 1 (-400) true else .fin false 1 400 false)
      else
        let fx : Nat := if 0 ≤ e then m * 2 ^ e.toNat * fxOne else m * fxOne / 2 ^ (-e).toNat
        let v : Int := if n then -(fx : Int) else fx
        let i := v / (fxOne : Int)
        let fr := (v % (fxOne : Int)).toNat
        if fr = 0 then .fin false 1 i false
        else .fin false (expSeries (fr * fxLn2 / fxOne) 80 1 fxOne fxOne) (i - 320) true

/-- log2 a. -/
def fLog2 : FVal → FExact
  | .nan => .nan
  | .inf n => if n then .nan else .inf false
  | .fin n m e =>
    if m = 0 then .inf true
    else if n then .nan
    else
      let l := Nat.log2 m
      let E : Int := e + l
      if m = 2 ^ l then (FVal.ofInt E).exact
      else
        let x := m * fxOne / 2 ^ l
        let v : Int := E * (fxOne : Int) + (fxLn x * fxOne / fxLn2 : Nat)
        .fin (decide (v < 0)) v.natAbs (-320) true

/-- sin(πr) for r = n / 2^320 in [0, 1/2]. -/
def fxSinPi (r : Nat) : Nat :=
  if 4 * r ≤ fxOne then fxSin (r * fxPi / fxOne) else fxCos ((fxOne / 2 - r) * fxPi / fxOne)

/-- sin(πa). -/
def fSinPi : FVal → FExact
  | .nan | .inf _ => .nan
  | .fin n m e =>
    if m = 0 then .fin n 0 0 false
    else if 0 ≤ e then .fin n 0 0 false
    else
      -- |a| = q + r, r in [0, 1)
      let d := 2 ^ (-e).toNat
      let q := m / d
      let r := (m % d) * fxOne / d
      let neg := n != decide (q % 2 = 1)
      if r = 0 then .fin n 0 0 false
      else if 2 * r = fxOne then .fin neg 1 0 false
      else .fin neg (fxSinPi (if 2 * r ≤ fxOne then r else fxOne - r)) (-320) true

/-- cos(πa) = sin(π(a + 1/2)). -/
def fCosPi : FVal → FExact
  | .nan | .inf _ => .nan
  | .fin _ m e =>
    if m = 0 then .fin false 1 0 false
    else
      let d := 2 ^ (-e).toNat
      let q := if 0 ≤ e then m * 2 ^ e.toNat else m / d
      let r := if 0 ≤ e then 0 else (m % d) * fxOne / d
      let odd := decide (q % 2 = 1)
      if r = 0 then .fin odd 1 0 false
      else if 2 * r = fxOne then .fin false 0 0 false
      else if 2 * r < fxOne then .fin odd (fxSinPi (fxOne / 2 - r)) (-320) true
      else .fin (!odd) (fxSinPi (r - fxOne / 2)) (-320) true

/-! ### Step results (R108) -/

/-- The value of one matrix step: every term exact, one rounding; an exact zero is +0 unless every term is −0. -/
def stepSum (terms : List FVal) (skipped : Bool) : FExact :=
  sumExact terms (!skipped && terms.all (fun v => v.isZero && v.sign))

/-- rne(exact(a + b)) in a format, subnormals kept: the sums of atomics, engines and collectives. -/
def Fmt.add (f : Fmt) (a b : Nat) : Nat := f.round .rne false false (fAdd .rne (f.val a) (f.val b))

/-- min or max as R122, a NaN result canonical. -/
def Fmt.minmax (f : Fmt) (greater : Bool) (a b : Nat) : Nat :=
  f.round .rne false false (fMin greater (f.val a) (f.val b)).exact

end Sys2Proof.Machine
end

