-- ==== Sys2Proof/Machine/Access.lean ====
section
/-! DEFINITION. Looking up and updating the records of the state: teams, groups, threads, launches, contexts, commands; the oracle of free values; monitors, mailbox and outbox (R374, R379). -/

namespace Sys2Proof

/-- Bytes of an access width (R28). -/
def Wid.bytes : Wid → Nat
  | .w8 => 1 | .w16 => 2 | .w32 => 4 | .w64 => 8 | .w128 => 16
/-- Data registers of an access width. -/
def Wid.regs : Wid → Nat
  | .w64 => 2 | .w128 => 4 | _ => 1

/-- Bytes of an atomic type (R29). -/
def ATy.bytes : ATy → Nat
  | .u64 | .s64 | .f64 => 8 | _ => 4
/-- Registers of an atomic type. -/
def ATy.regs (t : ATy) : Nat := t.bytes / 4

/-- A scope's rank, narrow to wide (R212). -/
def Sco.rank : Sco → Nat
  | .thread => 0 | .group => 1 | .team => 2 | .cluster => 3 | .die => 4 | .module => 5 | .system => 6

/-- The rank of a CMAINT's scope. -/
def CSco.rank : CSco → Nat
  | .die => 4 | .module => 5 | .system => 6

/-- The order acquires. -/
def MOrd.acquires : MOrd → Bool
  | .acquire | .sc => true | _ => false
/-- The order releases. -/
def MOrd.releases : MOrd → Bool
  | .release | .sc => true | _ => false

end Sys2Proof

namespace Sys2Proof.Machine

/-- Change the records that satisfy a test. -/
def updWhere {α : Type} (p : α → Bool) (f : α → α) (l : List α) : List α := l.map fun x => if p x then f x else x

/-- The value of a key in an association list, or a default. -/
def assoc {α β : Type} [DecidableEq α] (d : β) (l : List (α × β)) (k : α) : β :=
  match l.find? (fun x => decide (x.1 = k)) with
  | some x => x.2
  | none => d

/-- Set the value of a key in an association list. -/
def assocSet {α β : Type} [DecidableEq α] (l : List (α × β)) (k : α) (v : β) : List (α × β) :=
  (k, v) :: l.filter fun x => !decide (x.1 = k)

/-- Two ranges meet; an empty one meets nothing. -/
def meets (a n b m : Nat) : Bool := decide (0 < n ∧ 0 < m ∧ a < b + m ∧ b < a + n)

/-! ### The oracle (log 2, DESIGN CHOICE) -/

/-- The next free value, and the state that has used it. -/
def State.ask (s : State) : Nat × State := (Config.free s.freeCtr, { s with freeCtr := s.freeCtr + 1 })

/-- A free Boolean. -/
def State.flip (s : State) : Bool × State := let r := s.ask; (decide (r.1 % 2 = 1), r.2)

/-- A free choice below n; no question is asked when there is nothing to choose. -/
def State.pick (s : State) (n : Nat) : Nat × State := if n ≤ 1 then (0, s) else let r := s.ask; (r.1 % n, r.2)

/-- A fresh id, growing with time. -/
def State.fresh (s : State) : Nat × State := (s.nextId, { s with nextId := s.nextId + 1 })

/-- Make this the issue set being executed. -/
def State.setCur (s : State) (c : Cur) : State := { s with cur := some c }

/-! ### Teams, groups and threads -/

def State.team? (s : State) (k : Nat) : Option Team := s.teams.find? fun t => decide (t.key = k)
def State.updTeam (s : State) (k : Nat) (f : Team → Team) : State :=
  { s with teams := updWhere (fun t => decide (t.key = k)) f s.teams }
def Team.group? (t : Team) (g : Nat) : Option Group := t.groups.find? fun x => decide (x.num = g)
def Team.updGroup (t : Team) (g : Nat) (f : Group → Group) : Team :=
  { t with groups := updWhere (fun x => decide (x.num = g)) f t.groups }
def Group.thread? (g : Group) (l : Nat) : Option Thread := g.threads.find? fun x => decide (x.lane = l)
def Group.updThread (g : Group) (l : Nat) (f : Thread → Thread) : Group :=
  { g with threads := updWhere (fun x => decide (x.lane = l)) f g.threads }
def State.group? (s : State) (t : Tid) : Option Group := (s.team? t.team).bind fun tm => tm.group? t.group
def State.updGroup (s : State) (t : Tid) (f : Group → Group) : State := s.updTeam t.team fun tm => tm.updGroup t.group f
def State.thread? (s : State) (t : Tid) : Option Thread := (s.group? t).bind fun g => g.thread? t.lane
def State.updThread (s : State) (t : Tid) (f : Thread → Thread) : State := s.updGroup t fun g => g.updThread t.lane f

/-- A test of a thread; false when it has ended. -/
def State.threadIs (s : State) (t : Tid) (p : Thread → Bool) : Bool :=
  match s.thread? t with
  | some th => p th
  | none => false

/-- Every live thread of a group, by ascending lane. -/
def Group.tids (g : Group) (team : Nat) : List Tid := g.threads.map fun th => { team := team, group := g.num, lane := th.lane }

/-- Every live thread of a team. -/
def Team.tids (t : Team) : List Tid := t.groups.flatMap fun g => g.tids t.key

/-- Every live thread of a team, with its record. -/
def Team.allThreads (t : Team) : List Thread := t.groups.flatMap fun g => g.threads

def State.launch? (s : State) (k : Nat) : Option Launch := s.launches.find? fun l => decide (l.key = k)
def State.updLaunch (s : State) (k : Nat) (f : Launch → Launch) : State :=
  { s with launches := updWhere (fun l => decide (l.key = k)) f s.launches }
def State.ctx? (s : State) (c : Nat) : Option Ctx := s.contexts.find? fun x => decide (x.id = c)
def State.updCtx (s : State) (c : Nat) (f : Ctx → Ctx) : State :=
  { s with contexts := updWhere (fun x => decide (x.id = c)) f s.contexts }
def State.cmd? (s : State) (c : Nat) : Option Cmd := s.cmds.find? fun x => decide (x.id = c)
def State.updCmd (s : State) (c : Nat) (f : Cmd → Cmd) : State :=
  { s with cmds := updWhere (fun x => decide (x.id = c)) f s.cmds }

/-- A team's launch. -/
def State.launchOf (s : State) (t : Team) : Launch := (s.launch? t.launch).getD default
/-- A team's kernel descriptor. -/
def State.descOf (s : State) (t : Team) : KDesc := (s.launchOf t).d

/-- A role's record, absent roles as zero (R94). -/
def KDesc.role (d : KDesc) (r : Nat) : RoleD := ((d.roles.getD r none)).getD { entry := 0xFFFFFFFF, gmin := 0, gmax := 0, budget := 0 }
/-- The register budget of a group (R49, R86). -/
def KDesc.budget (d : KDesc) (g : Group) : Nat := (d.role g.role).budget

/-- Launch flags (R319). -/
def KDesc.det (d : KDesc) : Bool := d.flags.getLsbD 0
def KDesc.twin (d : KDesc) : Bool := d.flags.getLsbD 1
def KDesc.cluster (d : KDesc) : Bool := d.flags.getLsbD 2
def KDesc.hintchk (d : KDesc) : Bool := d.flags.getLsbD 3
def KDesc.strict (d : KDesc) : Bool := d.flags.getLsbD 4
def KDesc.prio (d : KDesc) : Nat := (d.flags.extractLsb' 5 3).toNat
def KDesc.seedsel (d : KDesc) : Bool := d.flags.getLsbD 8
def KDesc.seedcap (d : KDesc) : Bool := d.flags.getLsbD 9
/-- The number of teams of the grid. -/
def KDesc.teams (d : KDesc) : Nat := d.gx * d.gy * d.gz
/-- The THAW exponent in force (R319). -/
def KDesc.thawExp (d : KDesc) : Nat := if d.thaw = 0 then 18 else d.thaw

/-- A team runs as one of two copies (R349). -/
def KDesc.twinned (d : KDesc) (t : Nat) : Bool := d.twin && decide (t % d.tmod = d.tres)

/-! ### Places -/

def dieOf (core : Nat) : Nat := core / 32
def clusterOf (core : Nat) : Nat := core / 8
/-- The cores of a partition, from its lowest die (R50). -/
def State.partCores (s : State) (p : Nat) : List Nat :=
  (List.range 8).flatMap fun d => if s.dieParts.getD d 0 = p then (List.range 32).map (fun c => 32 * d + c) else []
/-- A core's index within its partition (R50). -/
def State.coreIndex (s : State) (core : Nat) : Nat :=
  ((s.partCores (s.dieParts.getD (dieOf core) 0)).takeWhile fun c => decide (c ≠ core)).length
/-- The mask of a partition's dies (R77). -/
def State.partDies (s : State) (p : Nat) : Nat :=
  (List.range 8).foldl (fun m d => if s.dieParts.getD d 0 = p then m + 2 ^ d else m) 0

/-- The engine's place in a team's sequence numbering (R264): its queue, and the stack or chip behind it. -/
def Engine.number : Engine → Nat
  | .cpy _ => 0 | .srt _ => 1 | .trv _ => 2 | .slv _ => 3
  | .base k => 16 + k | .cap c => 32 + c | .fabric => 4 | .xdie => 5
  | .array _ p => 8 + p | .hash _ => 6 | .rrot _ => 7

/-- The engine is a matrix array. -/
def Engine.isArray : Engine → Bool
  | .array _ _ => true
  | _ => false

/-- The engine field of a fault record (R360). -/
def Engine.faultField : Engine → Nat
  | .cpy _ => 1 | .srt _ => 2 | .trv _ => 3 | .slv _ => 4 | .array _ _ => 5 | .hash _ => 6 | .rrot _ => 6
  | .base _ | .cap _ | .fabric | .xdie => 7

/-! ### Fault codes (R366) -/

def fcIllegalOp : Nat := 0x01
def fcIllegalReg : Nat := 0x02
def fcIllegalPair : Nat := 0x03
def fcIllegalOrder : Nat := 0x04
def fcRegBudget : Nat := 0x05
def fcHazard : Nat := 0x06
def fcBranchHint : Nat := 0x07
def fcFormatDiverge : Nat := 0x08
def fcMisalign : Nat := 0x09
def fcPageAbsent : Nat := 0x0A
def fcPagePerm : Nat := 0x0B
def fcPageAttr : Nat := 0x0C
def fcRangeLock : Nat := 0x0D
def fcPoolRange : Nat := 0x0E
def fcMemUe : Nat := 0x0F
def fcDetViolation : Nat := 0x10
def fcTwinMismatch : Nat := 0x11
def fcTwinOverflow : Nat := 0x12
def fcHashKey : Nat := 0x13
def fcHashFull : Nat := 0x14
def fcQueueCfg : Nat := 0x15
def fcStaleHandle : Nat := 0x16
def fcEngineCmd : Nat := 0x17
def fcEngineFault : Nat := 0x18
def fcSoftTrap : Nat := 0x19
def fcBreakpoint : Nat := 0x1A
def fcDoubleFault : Nat := 0x1B
def fcWatchdog : Nat := 0x1C
def fcRingCfg : Nat := 0x1D
def fcFormatInvalid : Nat := 0x1E

/-! ### Monitors, mailbox, outbox -/

/-- Some data port is up: step 10 was not skipped, and its alternate path has not left all 12 down (R376). -/
def Boot.portsUp (b : Boot) : Bool := !b.absentSteps.contains 10 && !((List.range 12).all fun p => b.portsDown.contains p)

def State.send (s : State) (m : OutMsg) : State := { s with outbox := s.outbox ++ [m] }

/-- A monitor's record; one that nothing has changed is as reset (log 14, DESIGN CHOICE). -/
def State.monitor (s : State) (n : Nat) : Monitor :=
  (s.monitors.find? fun m => decide (m.num = n)).getD (Monitor.reset n)
def State.setMonitor (s : State) (m : Monitor) : State :=
  { s with monitors := m :: s.monitors.filter fun x => decide (x.num ≠ m.num) }

/-- The bin of a value (R374). -/
def monitorBin (v : Nat) : Nat := if v ≤ 1 then 0 else min 15 (Nat.log2 v)

/-- A monitor accumulates one value (R374): counts saturate. -/
def Monitor.add (m : Monitor) (v : Nat) : Monitor :=
  { m with
    count := Nat.min (m.count + 1) (2 ^ 64 - 1), sum := Nat.min (m.sum + v) (2 ^ 64 - 1),
    min := if v < m.min.toNat then BitVec.ofNat 32 v else m.min, max := if m.max.toNat < v then BitVec.ofNat 32 v else m.max,
    bins := m.bins.set (monitorBin v) (Nat.min (m.bins.getD (monitorBin v) 0 + 1) (2 ^ 32 - 1)) }

/-- Whether an armed monitor watches a source and instance on a die (8 is the X-die). -/
def Monitor.watches (m : Monitor) (die src inst : Nat) (level : Bool) : Bool :=
  decide (m.state = 1) && decide (m.num / 64 = die) && decide ((m.src.extractLsb' 0 8).toNat = src) &&
  decide ((m.src.extractLsb' 8 8).toNat = inst) && (m.src.getLsbD 16 == level)

/-- An event at a source (R374). -/
def State.event (s : State) (die src inst v : Nat) : State :=
  { s with monitors := updWhere (fun m => m.watches die src inst false) (fun m => m.add v) s.monitors }

/-- The 64 bytes of a mailbox record (R379). -/
def mailBytes (seq : Word) (kind code ctx src : Nat) (pa va pc : Nat) (detail : List Byte) : List Byte :=
  (leBytes 4 seq.toNat ++ leBytes 1 kind ++ leBytes 1 code ++ leBytes 1 ctx ++ leBytes 1 src ++ leBytes 8 pa ++ leBytes 8 va ++
    leBytes 8 pc ++ detail ++ List.replicate 32 0).take 64

/-- Append one record to the error mailbox; the oldest of 1,024 is overwritten (R379). -/
def State.mail (s : State) (kind code ctx src pa va pc : Nat) (detail : List Byte) : State :=
  let b := s.mailbox
  let rs := b.records ++ [(b.next, mailBytes b.next kind code ctx src pa va pc detail)]
  let full := decide (1024 < rs.length)
  { s with mailbox := { records := if full then rs.drop 1 else rs, next := b.next + 1,
                        overflow := if full then Nat.min (b.overflow + 1) (2 ^ 32 - 1) else b.overflow } }

/-- Restart a context's Lull count: one of R336's sinks has retired. -/
def State.sink (s : State) (ctx : Nat) : State := s.updCtx ctx fun c => { c with lullStart := s.clk.cycle.toNat }

/-- Release everything held at issue, so that it is tried again (R166, R143). -/
def State.unhold (s : State) : State :=
  { s with teams := s.teams.map fun t => { t with groups := t.groups.map fun g =>
      { g with threads := updWhere (fun th => th.held) (fun th => { th with held := false }) g.threads } } }

/-- Whether a park is one whose wake tries a pending word again. -/
def Park.retried : Park → Bool
  | .longs | .queue _ | .array | .line _ | .sector _ | .locks | .segment _ | .reserve _ => true
  | _ => false

/-- A thread wakes from parks of one kind: it takes a fresh stamp (R61) and, if a word is pending, its lane will act again. -/
def Thread.unpark (th : Thread) (now : Nat) (p : Park → Bool) : Thread :=
  if th.parks.any p then
    { th with parks := th.parks.filter (fun k => !p k), stamp := now,
              waking := th.pend.isSome && th.parks.any (fun k => p k && k.retried) && (th.parks.filter fun k => !p k).isEmpty }
  else th

/-- Wake every thread of a team that parks for a reason, and queue the lanes with pending words, by ascending lane then group. -/
def State.wakeTeam (s : State) (team : Nat) (p : Park → Bool) : State :=
  match s.team? team with
  | none => s
  | some tm =>
    let hit := (List.range 64).flatMap fun l => tm.groups.filterMap fun g =>
      match g.thread? l with
      | some th => if th.parks.any (fun k => p k && k.retried) then some { team := team, group := g.num, lane := l } else none
      | none => none
    let s := s.updTeam team fun t => { t with groups := t.groups.map fun g =>
      { g with threads := g.threads.map fun th => th.unpark s.clk.acycle p } }
    { s with retries := s.retries ++ hit.filter fun t => !s.retries.contains t }

/-- Wake every thread of the machine that parks for a reason. -/
def State.wakeAll (s : State) (p : Park → Bool) : State := s.teams.foldl (fun s t => s.wakeTeam t.key p) s

end Sys2Proof.Machine
end

