-- ==== Sys2Proof/Machine/Translate.lean ====
section
/-! DEFINITION. The physical map (R305 to R309), home dies and slices (R207), the four-level walk with its checks (R198 to R202), the A and D bits (R203) and the translation caches (R204, R205). -/

namespace Sys2Proof.Machine

/-! ### The physical map -/

/-- The regions of R305. -/
inductive Region where
  | da | die (c : Nat) | module | capacity (chip rank : Nat) | none
  deriving DecidableEq, Repr

/-- The region of a physical address (R305). -/
def region (pa : Nat) : Region :=
  if pa < 0x10000000000 then .da
  else if 0x100000000000 ≤ pa ∧ pa < 0x100000000000 + 8 * 2 ^ 37 then .die ((pa - 0x100000000000) / 2 ^ 37)
  else if 0x200000000000 ≤ pa ∧ pa < 0x200000000000 + 2 ^ 40 then .module
  else if 0x300000000000 ≤ pa ∧ pa < 0x300000000000 + 2 ^ 41 then
    .capacity ((pa - 0x300000000000) / 2 ^ 38) ((pa - 0x300000000000) / 2 ^ 36 % 4)
  else .none

/-- The die of the interleave hash (R309), from the line number. -/
def interleaveDie (n : Nat) : Nat := (n % 8) ^^^ (n / 2 ^ 8 % 8) ^^^ (n / 2 ^ 16 % 8) ^^^ (n / 2 ^ 24 % 8)

/-- A place in the DRAM: stack, pseudo-channel, bank, row and byte of the row chunk. -/
structure DramLoc where
  stack : Nat
  pc : Nat
  bank : Nat
  row : Nat
  byte : Nat
  deriving DecidableEq, Repr

/-- A band offset of die c (R308), with the first row of the band. -/
def bandLoc (c firstRow o : Nat) : DramLoc :=
  let n := o / 256
  let q := n / 2
  let rr := q / 2 ^ 12
  { stack := 2 * c + ((n % 2) ^^^ (n / 2 ^ 8 % 2) ^^^ (n / 2 ^ 16 % 2) ^^^ (n / 2 ^ 24 % 2)),
    pc := (q % 64) ^^^ (q / 64 % 64), bank := q / 2 ^ 8 % 16, row := firstRow + rr + rr / 511,
    byte := 256 * (q / 2 ^ 6 % 4) + o % 256 }

/-- Where an HBM4 address lies (R307, R308, R309). -/
def dramLoc (b : Boot) (pa : Nat) : Option DramLoc :=
  match region pa with
  | .da => some { stack := pa / 2 ^ 36 % 16, pc := pa % 2 ^ 16 / 2 ^ 10, bank := pa / 2 ^ 16 % 16, row := pa / 2 ^ 20 % 2 ^ 16,
                  byte := pa % 2 ^ 10 }
  | .die c => some (bandLoc c b.dabound ((pa - 0x100000000000) % 2 ^ 37))
  | .module =>
    let o := pa - 0x200000000000
    some (bandLoc (interleaveDie (o / 256)) b.mibound (o / 256 / 8 * 256 + o % 256))
  | _ => none

/-- A physical address is in a populated part of its region (R305, R306, R376). -/
def populated (b : Boot) (pa : Nat) : Bool :=
  match region pa, dramLoc b pa with
  | .da, some l => decide (l.row < b.dabound)
  | .die _, some l => decide (l.row < b.mibound)
  | .module, some l => decide (l.row < 49152)
  | .capacity _ _, _ => !b.absentSteps.contains 8
  | _, _ => false

/-- A zero row of the DA band reads as zero and ignores writes (R306). -/
def zeroRow (pa : Nat) : Bool := decide (pa < 0x10000000000) && decide (pa / 2 ^ 20 % 512 = 511)

/-- The home slice within a home die (R207). -/
def slice (pa : Nat) : Nat := (pa / 2 ^ 8 % 16) ^^^ (pa / 2 ^ 12 % 16) ^^^ (pa / 2 ^ 16 % 16) ^^^ (pa / 2 ^ 20 % 16)

/-! ### Leaf fields (R201) -/

def leafV (l : DWord) : Bool := l.getLsbD 0
def leafT (l : DWord) : Bool := l.getLsbD 1
def leafR (l : DWord) : Bool := l.getLsbD 2
def leafW (l : DWord) : Bool := l.getLsbD 3
def leafX (l : DWord) : Bool := l.getLsbD 4
def leafOrd (l : DWord) : Nat := (l.extractLsb' 5 2).toNat
def leafCp (l : DWord) : Nat := (l.extractLsb' 7 2).toNat
def leafHome (l : DWord) : Nat := (l.extractLsb' 9 4).toNat
def leafDa (l : DWord) : Bool := l.getLsbD 13
def leafRm (l : DWord) : Bool := l.getLsbD 14
def leafA (l : DWord) : Bool := l.getLsbD 62
def leafD (l : DWord) : Bool := l.getLsbD 63
def leafPa (l : DWord) : Nat := (l.extractLsb' 16 32).toNat * 65536

/-- A leaf without its A and D bits. -/
def leafCore (l : DWord) : DWord := l &&& 0x3FFFFFFFFFFFFFFF

/-- The home die of a byte under a leaf: 8 is the X-die of a remote page (R207). -/
def homeDie (leaf : DWord) (pa : Nat) : Nat :=
  if leafRm leaf then 8 else if leafHome leaf = 8 then interleaveDie ((pa - 0x200000000000) / 256) else leafHome leaf

/-- The format of a leaf (R201) that maps `size` bytes. -/
def leafFormat (l : DWord) (size : Nat) : Bool :=
  decide (l.extractLsb' 48 14 = 0) && !l.getLsbD 15 && decide (leafPa l % size = 0) && decide (leafHome l ≤ 8) &&
  decide (leafCp l ≠ 3) && decide (leafOrd l ≠ 3)

/-- The rules of R202 for a leaf, with the byte's physical address. A remote page's HOME, which must be 0, names no die of a partition. (log 76, DEDUCED) -/
def leafRules (s : State) (part : Nat) (l : DWord) (size pa : Nat) : Bool :=
  (leafR l || (!leafW l && !leafX l)) &&
  (if leafRm l then
     decide (leafOrd l ≠ 1) && decide (leafCp l = 2) && !leafDa l && decide (leafHome l = 0)
   else
     populated s.boot (leafPa l) && populated s.boot pa &&
     (!leafDa l || (decide (size = 65536) && decide (region (leafPa l) = .da))) &&
     (match region (leafPa l) with
      | .da => decide (leafHome l = leafPa l / 2 ^ 37)
      | .die c => decide (leafHome l = c)
      | .module => decide (leafHome l = 8)
      | _ => decide (leafHome l ≠ 8)) &&
     (decide (leafHome l = 8) || decide (s.dieParts.getD (leafHome l) 0 = part)))

/-- A translation: the physical address, the leaf, what it maps, and where the entry lies. -/
structure Xlat where
  pa : Nat
  leaf : DWord
  base : Nat
  size : Nat
  leafAddr : Nat
  deriving DecidableEq, Repr

/-- What an access needs of a leaf (R202). -/
inductive Perm where
  | load | store | atomic | fetch
  /-- W without a store: CMAINT's inv (R228). -/
  | maint
  deriving DecidableEq, Repr

def Perm.ok (p : Perm) (l : DWord) : Bool :=
  match p with
  | .load => leafR l
  | .store => leafW l
  | .atomic => leafR l && leafW l
  | .fetch => leafX l
  | .maint => leafW l

def Perm.writes : Perm → Bool
  | .store | .atomic => true
  | _ => false

/-- A table entry as memory holds it: one in unpopulated space reads 0, so that V is clear. (log 75, DESIGN CHOICE) -/
def State.entry (s : State) (a : Nat) : DWord := BitVec.ofNat 64 (Mem.nat s.mem a 8)

/-- A sector holds an uncorrectable error (R235). (log 37, DESIGN CHOICE) -/
def State.marked (s : State) (pa n : Nat) : Bool := s.ue.any fun q => decide (pa / 32 ≤ q ∧ q ≤ (pa + n - 1) / 32)

/-- How far from the start of a range its first marked byte lies. -/
def State.markAt (s : State) (pa n : Nat) : Nat :=
  let first := (s.ue.filter fun q => decide (pa / 32 ≤ q ∧ q ≤ (pa + n - 1) / 32)).foldl min ((pa + n - 1) / 32)
  32 * first - pa

/-! ### Uncorrectable errors (R235, R379) -/

/-- The die and slice at which a byte is homed when no leaf says so: from its band (R207, R305). -/
def bandHome (pa : Nat) : Nat :=
  match region pa with
  | .da => pa / 2 ^ 37 % 8
  | .die c => c
  | .module => interleaveDie ((pa - 0x200000000000) / 256)
  | .capacity c _ => c
  | .none => 0

/-- Post a MEM_UE record for data read from DRAM: it names the HBM4 stack or the buffer chip (R235, R379). -/
def State.mailDram (s : State) (ctx pa va pc home : Nat) : State :=
  match dramLoc s.boot pa, region pa with
  | some l, _ => s.mail 3 fcMemUe ctx (16 + l.stack) pa va pc (leBytes 4 (3 * 2 ^ 24 + l.stack))
  | none, .capacity c r => s.mail 3 fcMemUe ctx (32 + c) pa va pc (leBytes 4 (4 * 2 ^ 24 + 4 * c + r))
  | none, _ => s.mail 3 fcMemUe ctx (2 + home) pa va pc (leBytes 4 (2 * 2 ^ 24 + 16 * home + slice pa))

/-- Post a MEM_UE record for a marked sector: the storage whose data failed is the DRAM when it is read, and the C-die and slice once the sector is marked at its home slice (R235, R379). (log 37, DESIGN CHOICE) -/
def State.mailUe (s : State) (ctx pa va pc : Nat) (home : Nat := bandHome pa) : State :=
  if s.ueHome.contains (pa / 32) then s.mail 3 fcMemUe ctx (2 + home) pa va pc (leBytes 4 (2 * 2 ^ 24 + 16 * home + slice pa))
  else ({ s with ueHome := pa / 32 :: s.ueHome } : State).mailDram ctx pa va pc home

/-- Post a MEM_UE record for a word of a core's pool. -/
def State.mailPool (s : State) (core ctx pc : Nat) : State :=
  s.mail 3 fcMemUe ctx (2 + dieOf core) 0 0 pc (leBytes 4 core)

/-! ### The walk -/

/-- Follow a table of one level and those below it (R199 to R201): `bits` are the levels' (shift, index width). The error is a fault code. -/
def walkFrom (s : State) (part va : Nat) : List (Nat × Nat) → Nat → Nat → Except Nat Xlat
  | [], _, _ => .error fcPageAttr
  | (sh, w) :: rest, table, level =>
    let a := table + 8 * (va / 2 ^ sh % 2 ^ w)
    let e := s.entry a
    if s.marked a 8 then .error fcMemUe
    else if !leafV e then .error fcPageAbsent
    else if leafT e then
      let next := (e.extractLsb' 8 40).toNat * 256
      let align := match level with | 0 => 65536 | 1 => 4096 | _ => 256
      if decide (e.extractLsb' 48 16 ≠ 0) || decide (e.extractLsb' 2 6 ≠ 0) || decide (next % align ≠ 0) || rest.isEmpty then
        .error fcPageAttr
      else walkFrom s part va rest next (level + 1)
    else
      let size := 2 ^ sh
      let pa := leafPa e + va % size
      if level = 0 || !leafFormat e size || !leafRules s part e size pa then .error fcPageAttr
      else .ok { pa := pa, leaf := e, base := va / size * size, size := size, leafAddr := a }

/-- The levels of R199: the shift and the width of each index. -/
def walkLevels : List (Nat × Nat) := [(43, 14), (30, 13), (21, 9), (16, 5)]

/-- A walk from a context's root (R198, R199). -/
def State.walk (s : State) (ctx : Nat) (va : Nat) : Except Nat Xlat :=
  match s.ctx? ctx with
  | none => .error fcPageAbsent
  | some c => if 2 ^ 57 ≤ va then .error fcPageAbsent else walkFrom s c.part va walkLevels c.root 0

/-- The marked entry at which a walk stops. -/
def markedEntry (s : State) (va : Nat) : List (Nat × Nat) → Nat → Option Nat
  | [], _ => none
  | (sh, w) :: rest, table =>
    let a := table + 8 * (va / 2 ^ sh % 2 ^ w)
    if s.marked a 8 then some a
    else
      let e := s.entry a
      if leafV e && leafT e then markedEntry s va rest ((e.extractLsb' 8 40).toNat * 256) else none

/-- A walk that meets a marked entry posts its record (R234, R235). -/
def State.mailWalk (s : State) (ctx va e : Nat) : State :=
  if e ≠ fcMemUe then s
  else
    match (s.ctx? ctx).bind fun c => markedEntry s va walkLevels c.root with
    | some a => s.mailUe ctx a va 0
    | none => s

/-- A write at the home slice wakes SIGW on its sectors (R245). -/
def State.wakeSectors (s : State) (pa n : Nat) : State :=
  s.wakeAll fun k => match k with | .sector a => decide (pa / 32 ≤ a / 32 ∧ a / 32 ≤ (pa + n - 1) / 32) | _ => false

/-- Set bits of a table entry by an atomic OR at its home slice (R203). -/
def State.orEntry (s : State) (a : Nat) (b : Nat) : State :=
  ({ s with mem := Mem.setNat s.mem a 8 ((s.entry a).toNat ||| 2 ^ b) } : State).wakeSectors a 8

/-- Set D for a store through a leaf whose D is clear, with the checks of R203. `core` is the core whose cached translation it is: the context's entry for that block takes the bit, and every other cached copy stays as it is. -/
def State.setDirty (s : State) (core : Option Nat) (ctx : Nat) (x : Xlat) (p : Perm) : Except Nat Xlat × State :=
  if p.writes && !leafD x.leaf then
    let e := s.entry x.leafAddr
    if !leafV e then (.error fcPageAbsent, s)
    else if !leafW e then (.error fcPagePerm, s)
    else
      let l := x.leaf ||| 0x8000000000000000
      let s := s.orEntry x.leafAddr 63
      (.ok { x with leaf := l },
       { s with tlb := updWhere (fun t => decide (some t.core = core ∧ t.ctx = ctx ∧ t.base = x.base ∧ t.leafAddr = x.leafAddr ∧ t.leaf = x.leaf)) (fun t => { t with leaf := l }) s.tlb })
  else (.ok x, s)

/-- Judge a translation: attributes that the access may not have come before its permission (R232), and D is set last. -/
def State.permit (s : State) (core : Option Nat) (ctx : Nat) (x : Xlat) (p : Perm) (attr : Xlat → Bool) : Except Nat Xlat × State :=
  if attr x then (.error fcPageAttr, s)
  else if p.ok x.leaf then s.setDirty core ctx x p
  else (.error fcPagePerm, s)

/-- What a walk finds, judged: a walk that ends in a fault sets nothing; otherwise A is set before the translation is used (R203, R204). (log 77, DEDUCED) -/
def State.walked (s : State) (ctx va : Nat) (p : Perm) (attr : Xlat → Bool) : Except Nat Xlat × State :=
  match s.walk ctx va with
  | .error e => (.error e, s.mailWalk ctx va e)
  | .ok x =>
    if attr x then (.error fcPageAttr, s)
    else if p.ok x.leaf then (.ok { x with leaf := x.leaf ||| 0x4000000000000000 }, s.orEntry x.leafAddr 62)
    else (.error fcPagePerm, s)

/-- Translate by a fresh walk, as agents without a translation cache do (R203, R204). -/
def State.translateWalk (s : State) (ctx va : Nat) (p : Perm) (attr : Xlat → Bool := fun _ => false) : Except Nat Xlat × State :=
  match s.walked ctx va p attr with
  | (.error e, s) => (.error e, s)
  | (.ok x, s) => s.setDirty none ctx x p

/-- Put a leaf in a core's translation cache of 256 entries (R204). -/
def State.cacheLeaf (s : State) (core ctx : Nat) (x : Xlat) : State :=
  let e : TlbEntry := { core := core, ctx := ctx, base := x.base, size := x.size, leaf := x.leaf, leafAddr := x.leafAddr }
  let mine := (s.tlb.filter fun t => decide (t.core = core)).take 255
  { s with tlb := e :: (mine ++ s.tlb.filter fun t => decide (t.core ≠ core)) }

/-- Whether a cached entry serves an address of a core's context. -/
def TlbEntry.serves (t : TlbEntry) (core ctx va : Nat) : Bool :=
  decide (t.core = core ∧ t.ctx = ctx ∧ t.base ≤ va ∧ va < t.base + t.size)

/-- Translate by a walk and cache what it finds; a walk that faults caches nothing (R204). -/
def State.translateFresh (s : State) (core ctx va : Nat) (p : Perm) (attr : Xlat → Bool) : Except Nat Xlat × State :=
  match ({ s with tlb := s.tlb.filter fun t => !t.serves core ctx va } : State).walked ctx va p attr with
  | (.error e, s) => (.error e, s)
  | (.ok x, s) => (s.cacheLeaf core ctx x).setDirty (some core) ctx x p

/-- Translate for a core (R203 to R205). An entry that CMAINT.tinv has not removed may still serve the access: where it differs from memory's, a free value decides which is used. (log 6, DESIGN CHOICE) -/
def State.translate (s : State) (core ctx va : Nat) (p : Perm) (attr : Xlat → Bool := fun _ => false) : Except Nat Xlat × State :=
  if 2 ^ 57 ≤ va then (.error fcPageAbsent, s)
  else
    match s.tlb.find? fun t => t.serves core ctx va with
    | none => s.translateFresh core ctx va p attr
    | some t =>
      let cached : Xlat := { pa := leafPa t.leaf + va % t.size, leaf := t.leaf, base := t.base, size := t.size, leafAddr := t.leafAddr }
      let same := match s.walk ctx va with
        | .ok x => decide (leafCore x.leaf = leafCore t.leaf ∧ x.base = t.base ∧ x.size = t.size)
        | .error _ => false
      if same then s.permit (some core) ctx cached p attr
      else
        let r := s.flip
        if r.1 then r.2.permit (some core) ctx cached p attr else r.2.translateFresh core ctx va p attr

end Sys2Proof.Machine
end

