-- ==== Sys2Proof/Machine/Global.lean ====
section
/-! DEFINITION. Accesses to global memory: physical reads and writes at the home slices (R208), L1 copies (R209), remote windows (R210, R370), range locks (R229 to R231), marked sectors (R234, R235), commit buffers (R350), and accesses to virtual ranges by the hardware itself. -/

namespace Sys2Proof.Machine

/-! ### Physical accesses -/

/-- Bytes at a physical address; a zero row reads zero (R306). -/
def State.readPhys (s : State) (pa n : Nat) : List Byte := if zeroRow pa then List.replicate n 0 else Mem.getN s.mem pa n

/-- Sectors that a write covers whole lose their marks (R235). -/
def unmark (ue : List Nat) (pa n : Nat) : List Nat := ue.filter fun q => !decide (pa ≤ 32 * q ∧ 32 * q + 32 ≤ pa + n)

/-- Sectors that lie at one slice of one die's LLC. -/
def sameSlice (a b : Nat × List Byte) : Bool := decide (bandHome (32 * a.1) = bandHome (32 * b.1) ∧ slice (32 * a.1) = slice (32 * b.1))

/-- A slice of 4 MiB holds 131,072 sectors: the one that has been dirty longest is written back for a new one (R9). (log 8, DESIGN CHOICE) -/
def makeRoom : List (Nat × List Byte) → List (Nat × List Byte)
  | [] => []
  | e :: es => if es.length < 131072 ∨ (es.filter (sameSlice e)).length < 131072 then e :: es else e :: (es.reverse.eraseP (sameSlice e)).reverse

/-- Record what memory holds under sectors that become dirty in the LLC (R208). -/
def State.noteDirty (s : State) (pa n : Nat) : State :=
  let secs := (List.range ((pa + n - 1) / 32 - pa / 32 + 1)).map fun i => pa / 32 + i
  { s with dirty := secs.foldl (fun d q => if d.any (fun e => decide (e.1 = q)) then d else makeRoom ((q, Mem.getN s.mem (32 * q) 32) :: d)) s.dirty }

/-- Write the dirty sectors of a range back: they stay as they are, and memory holds them too. -/
def State.cleanSectors (s : State) (lo hi : Nat) : State :=
  { s with dirty := s.dirty.filter fun e => !decide (lo ≤ e.1 ∧ e.1 ≤ hi) }

/-- The home slice keeps no copy of what an access to an uncached page has touched (R208). -/
def State.uncache (s : State) (leaf : DWord) (pa n : Nat) : State :=
  if leafCp leaf = 2 then s.cleanSectors (pa / 32) ((pa + n - 1) / 32) else s

/-- A thread's core. -/
def State.coreOf (s : State) (t : Tid) : Option Nat := (s.team? t.team).map fun x => x.core

/-- Record the bytes that a write replaces, which instruction fetch may still see (R17). -/
def State.noteOld (s : State) (pa : Nat) (bs : List Byte) (storer : Option Tid) : State :=
  let old := Mem.getN s.mem pa bs.length
  if old = bs then s
  else { s with icache := { pa := pa, old := old, storer := storer, core := storer.bind s.coreOf, stamp := s.nextId } :: s.icache }

/-- A write performed at its home slice: memory, dirty sectors (kept when the page is cached), marks, sinks, what fetch may still see, and the wake of SIGW on its sectors (R208, R235, R245, R336, R17). -/
def State.writePhys (s : State) (ctx : Nat) (keep : Bool) (pa : Nat) (bs : List Byte) (storer : Option Tid := none) : State :=
  if bs.isEmpty then s
  else
    let s := s.sink ctx
    if zeroRow pa then s
    else
      let s := if keep then s.noteDirty pa bs.length else s.cleanSectors (pa / 32) ((pa + bs.length - 1) / 32)
      let s := s.noteOld pa bs storer
      ({ s with mem := Mem.setN s.mem pa bs, ue := unmark s.ue pa bs.length, ueHome := unmark s.ueHome pa bs.length } : State).wakeSectors
        pa bs.length

/-- Free bytes. -/
def State.askBytes (s : State) (n : Nat) : List Byte × State := let r := s.ask; (leBytes n r.1, r.2)

/-! ### Scopes (R212) and what fetch may still see (R17) -/

/-- A scope, by its rank from thread (0) to system (6), holds both threads; the first, which may be gone, ran on a core. -/
def State.scopeHolds (s : State) (rank : Nat) (a : Tid) (core : Option Nat) (b : Tid) : Bool :=
  match rank with
  | 0 => decide (a = b)
  | 1 => decide (a.team = b.team ∧ a.group = b.group)
  | 2 => decide (a.team = b.team)
  | 3 => core.isSome && decide (core.map clusterOf = (s.coreOf b).map clusterOf)
  | 4 => core.isSome && decide (core.map dieOf = (s.coreOf b).map dieOf)
  | _ => true

/-- A thread is certain not to fetch a word's old bytes (R17): the storing thread has cleaned the range, and both have issued a FENCE that covers both, wider than thread. Bytes that no thread has stored are certain for a team placed since, and otherwise after a clean and the thread's own FENCE. (log 7, DESIGN CHOICE) -/
def State.fetchCertain (s : State) (e : ICopy) (t : Tid) : Bool :=
  match e.storer with
  | none =>
    (match s.team? t.team with | some tm => decide (e.stamp ≤ tm.placedAt) | none => false) ||
    (e.cleaned.isSome && e.fences.any fun f => decide (f.1 = t ∧ 1 ≤ f.2))
  | some u =>
    (match e.cleaned with | some c => s.scopeHolds c u e.core t | none => false) &&
    (e.fences.any fun f => decide (f.1 = u ∧ 1 ≤ f.2) && s.scopeHolds f.2 u e.core t) &&
    e.fences.any fun f => decide (f.1 = t ∧ 1 ≤ f.2) && s.scopeHolds f.2 u e.core t

/-- Put a write's old bytes back into a word at an address. -/
def ICopy.undo (e : ICopy) (pa : Nat) (now : List Byte) : List Byte :=
  now.zipIdx.map fun x => if e.pa ≤ pa + x.2 ∧ pa + x.2 < e.pa + e.old.length then e.old.getD (pa + x.2 - e.pa) 0 else x.1

/-- The older contents of a word that some fetch may still see, newest first. -/
def oldWords (certain : ICopy → Bool) (pa : Nat) : List ICopy → List Byte → List (List Byte)
  | [], _ => []
  | e :: es, now =>
    if meets e.pa e.old.length pa 8 then
      if certain e then [] else e.undo pa now :: oldWords certain pa es (e.undo pa now)
    else oldWords certain pa es now

/-- The parts of a record before, in and after a range; the part inside is what `f` makes of it. -/
def ICopy.within (e : ICopy) (pa n : Nat) (f : ICopy → ICopy) : List ICopy :=
  if !meets e.pa e.old.length pa n then [e]
  else
    let a := pa - e.pa
    let b := pa + n - e.pa
    (if a = 0 then [] else [{ e with old := e.old.take a }]) ++ [f { e with pa := e.pa + a, old := (e.old.take b).drop a }] ++
      (if e.old.length ≤ b then [] else [{ e with pa := e.pa + b, old := e.old.drop b }])

/-- CMAINT clean by a thread, at a scope's rank, has reached the range: of its own stores and of bytes that no thread stored (R17, R228). -/
def State.cleanedBy (s : State) (t : Tid) (rank pa n : Nat) : State :=
  { s with icache := s.icache.flatMap fun e =>
      if e.storer = none ∨ e.storer = some t then
        e.within pa n fun e => { e with cleaned := some (max rank (e.cleaned.getD 0)) }
      else [e] }

/-- The cores of a scope's rank about one of them (R212). -/
def coresWithin (rank core b : Nat) : Bool :=
  match rank with
  | 0 | 1 | 2 => decide (b = core)
  | 3 => decide (clusterOf b = clusterOf core)
  | 4 => decide (dieOf b = dieOf core)
  | _ => true

/-- CMAINT clean invalidates the instruction cache copies of a range, those with an uncorrectable error among them, in every core within the scope (R228). -/
def State.dropInstr (s : State) (rank core lo hi : Nat) : State :=
  { s with icUe := s.icUe.filter fun e => !(coresWithin rank core e.1 && decide (lo ≤ e.2 ∧ e.2 ≤ hi)) }

/-- A FENCE of a thread counts for what had been cleaned before it. -/
def State.fencedBy (s : State) (t : Tid) (rank : Nat) : State :=
  { s with icache := s.icache.map fun e => if e.cleaned.isSome then { e with fences := (t, rank) :: e.fences.filter fun f => !decide (f.1 = t ∧ f.2 = rank) } else e }

/-! ### L1 (R209) -/

/-- Invalidate a core's L1, as every acquire at cluster scope or wider does. -/
def State.invalL1 (s : State) (core : Nat) : State := { s with l1 := s.l1.filter fun e => decide (e.core ≠ core) }

/-- The 256-byte lines of which a core's L1 holds sectors. -/
def l1Lines (l : List L1Sector) : List Nat := (l.map fun e => e.sector / 8).dedup

/-- Put sectors of one line in a core's L1, which holds 512 lines: the line filled longest ago leaves first. -/
def State.putL1 (s : State) (core line : Nat) (qs : List Nat) : State :=
  let mine := s.l1.filter fun e => decide (e.core = core) && !qs.contains e.sector
  let keep := ((l1Lines mine).filter fun x => decide (x ≠ line)).take 511
  let new : List L1Sector := qs.map fun q => { core := core, sector := q, bytes := s.readPhys (32 * q) 32, stamp := s.nextId }
  { s with l1 := new ++ (mine.filter fun e => decide (e.sector / 8 = line) || keep.contains (e.sector / 8)) ++
                 s.l1.filter fun e => decide (e.core ≠ core) }

/-- Fill a whole line. -/
def State.fillLine (s : State) (core line : Nat) : State := s.putL1 core line ((List.range 8).map fun i => 8 * line + i)

/-- A miss fills its line, or its sector alone when sectors of the line are there. (log 5, DESIGN CHOICE) -/
def State.fillL1 (s : State) (core q : Nat) : State :=
  if s.l1.any fun e => decide (e.core = core ∧ e.sector / 8 = q / 8) then s.putL1 core (q / 8) [q] else s.fillLine core (q / 8)

/-- A thread has read a sector at its home: its core's copy serves it no more (R214). -/
def State.barL1 (s : State) (core : Nat) (t : Tid) (q : Nat) : State :=
  { s with l1 := s.l1.map fun e => if e.core = core ∧ e.sector = q then { e with barred := t :: e.barred } else e }

/-- A thread has made a read at a moment; one that acquires comes before its later reads (R219). -/
def State.saw (s : State) (t : Tid) (m : Nat) (orders : Bool) : State :=
  s.updThread t fun th => { th with seen := max th.seen m, floor := if orders then max th.floor m else th.floor }

/-- A load of a page that L1 may hold: a copy that may serve the thread and differs from the home slice may serve it or be gone, as a free value decides. Gives the bytes and the moment of the read, or nothing where a copy with an uncorrectable error serves it (R235). (log 5, DESIGN CHOICE) -/
def State.loadL1 (s : State) (core : Nat) (t : Tid) (pa n : Nat) (fill : Bool) : Option (List Byte × Nat) × State :=
  let q := pa / 32
  let now := s.readPhys (32 * q) 32
  let cut := fun (bs : List Byte) => (bs.drop (pa % 32)).take n
  let floor := match s.thread? t with | some th => th.floor | none => 0
  match s.l1.find? fun e => decide (e.core = core ∧ e.sector = q) with
  | some e =>
    let copy := if e.bad then none else some (cut e.bytes, e.stamp)
    if e.barred.contains t || decide (e.stamp < floor) then (some (cut now, s.nextId), s)
    else if e.bytes = now then (copy, s)
    else
      let r := s.flip
      if r.1 then (copy, r.2) else (some (cut now, s.nextId), r.2.fillL1 core q)
  | none => (some (cut now, s.nextId), if fill then s.fillL1 core q else s)

/-- Post a MEM_UE record for a copy in a core's L1 or instruction cache (R235, R379). -/
def State.mailCopy (s : State) (core ctx pa va pc : Nat) : State :=
  s.mail 3 fcMemUe ctx (2 + dieOf core) pa va pc (leBytes 4 (2 ^ 24 + core))

/-- A store writes its core's L1 copy if there is one (R209); a zero row takes no bytes (R306). -/
def State.storeL1 (s : State) (core pa : Nat) (bs : List Byte) : State :=
  if zeroRow pa then s
  else
    { s with l1 := s.l1.map fun e =>
        if e.core = core ∧ e.sector = pa / 32 then
          { e with bytes := e.bytes.take (pa % 32) ++ bs ++ e.bytes.drop (pa % 32 + bs.length) }
        else e }

/-- L1 may hold lines of this page (R208). -/
def l1Page (leaf : DWord) : Bool := !leafRm leaf && decide (leafCp leaf = 0) && decide (leafOrd leaf ≠ 1)

/-! ### Range locks (R230, R231) -/

/-- A lock overlaps a range. -/
def Lock.overlaps (l : Lock) (lo len : Nat) : Bool := meets l.lo l.len lo len

/-- A thread's global access is turned away by a lock of its core and context: any lock for a write, a destination for a read. -/
def State.lockedVa (s : State) (core ctx va n : Nat) (write : Bool) : Bool :=
  s.locks.any fun l => !l.pool && decide (l.core = core) && decide (l.ctx = ctx) && l.overlaps va n && (l.dst || write)

/-! ### Remote windows (R370) -/

/-- The window entry and remote address of an access through an RM leaf, if it lies within a window of the context. -/
def State.remote? (s : State) (ctx : Nat) (x : Xlat) (n : Nat) : Option (Window × DWord) :=
  let idx := x.pa / 2 ^ 36 % 4096
  let off := x.pa % 2 ^ 36
  match s.windows.find? fun w => decide (w.index = idx) with
  | none => none
  | some w => if w.ctx = ctx ∧ off + n ≤ w.len.toNat then some (w, w.base + BitVec.ofNat 64 off) else none

/-! ### Commit buffers (R350) -/

/-- Lay one buffered write over bytes read from an address. -/
def overlay1 (va : Nat) (bs : List Byte) (e : CommitEntry) : List Byte :=
  bs.zipIdx.map fun x => if e.addr ≤ va + x.2 ∧ va + x.2 < e.addr + e.bytes.length then e.bytes.getD (va + x.2 - e.addr) 0 else x.1

/-- The bytes a twinned copy reads: its own buffered writes over memory. -/
def overlay (es : List CommitEntry) (va : Nat) (bs : List Byte) : List Byte := es.foldl (overlay1 va) bs

/-- Bytes a commit buffer's entries take (R350). -/
def commitSize (es : List CommitEntry) : Nat := es.foldl (fun n e => n + 16 + (e.bytes.length + 15) / 16 * 16) 0

/-- Whether a team runs as a twin copy. -/
def State.isTwin (s : State) (t : Team) : Bool := (s.descOf t).twinned t.index

/-! ### A lane's access (R236) -/

/-- Who accesses: the core, the context, the team, the thread number in the team. -/
structure Who where
  core : Nat
  ctx : Nat
  team : Nat
  thread : Nat
  deriving DecidableEq, Repr

/-- The thread that accesses. -/
def Who.tid (w : Who) : Tid := { team := w.team, group := w.thread / 64, lane := w.thread % 64 }

/-- What an access acquires (R209, R215): nothing, its thread's later accesses alone, or at cluster scope or wider. An SC access comes after its thread's earlier ones too (R215). -/
inductive Acq where
  | none | narrow (sc : Bool) | wide (sc : Bool)
  deriving DecidableEq, Repr

/-- It empties the core's L1 (R209). -/
def Acq.isWide : Acq → Bool
  | .wide _ => true
  | _ => false
/-- It is of an SC access. -/
def Acq.isSc : Acq → Bool
  | .narrow b | .wide b => b
  | .none => false

/-- The outcome of one lane's access: done, a precise fault with its address, an uncorrectable error in the data that it returns (R234), or a fault delivered later. -/
inductive LaneOut (α : Type) where
  | ok (a : α)
  | trap (code : Nat) (addr : Nat)
  | ue (addr : Nat)
  | later (code : Nat) (cause : Nat) (addr : Nat)
  deriving Repr

/-- A remote page's access raises PAGE_ATTR: it lies outside the window or in another context's (R370). -/
def State.badRemote (s : State) (ctx n : Nat) (x : Xlat) : Bool := leafRm x.leaf && (s.remote? ctx x n).isNone

/-- The checks of R232 before an access: MISALIGN, the translation faults with the page's attributes before its permission, and RANGE_LOCK where locks are judged. -/
def State.checkLane (s : State) (w : Who) (va n : Nat) (p : Perm) (locks : Bool) (attr : Xlat → Bool := fun _ => false) : Except Nat Xlat × State :=
  if va % n ≠ 0 then (.error fcMisalign, s)
  else
    match s.translate w.core w.ctx va p (fun x => s.badRemote w.ctx n x || attr x) with
    | (.error e, s) => (.error e, s)
    | (.ok x, s) =>
      if locks && s.lockedVa w.core w.ctx va n p.writes then (.error fcRangeLock, s)
      else (.ok x, s)

/-- An access that acquires at cluster scope or wider empties its core's L1 (R209), and one that is SC is performed no earlier than its thread's earlier reads (R215, R219); on a UN page the order counts as plain (R215). -/
def State.acquireAt (s : State) (w : Who) (leaf : DWord) (acq : Acq) : State :=
  if leafOrd leaf = 2 then s
  else
    let s := if acq.isSc then s.updThread w.tid fun th => { th with floor := max th.floor th.seen } else s
    if acq.isWide then s.invalL1 w.core else s

/-- The access's order comes before its thread's later accesses. -/
def ordersLater (leaf : DWord) (acq : Acq) : Bool := decide (acq ≠ .none) && decide (leafOrd leaf ≠ 2)

/-- A read that travels to a remote end, which answers with data or with a remote access error (R210, R370). It is a fabric egress message (R336). (log 71, DESIGN CHOICE) -/
def State.remoteRead (s : State) (ctx n : Nat) (m : OutMsg) : Option (List Byte) × State :=
  let r := ((s.send m).sink ctx).flip
  if r.1 then (none, r.2) else let d := r.2.askBytes n; (some d.1, d.2)

/-- Who writes: the threads that take a fault of it later, with the PC and the word. -/
structure Writer where
  recips : List Tid := []
  pc : DWord := 0
  word : DWord := 0

/-- A write sets out for a remote end, which acknowledges it or answers with an error (R210, R222, R370). -/
def State.remoteStore (s : State) (ctx : Nat) (win : Window) (ra : DWord) (va : Nat) (bs : List Byte) (by_ : Writer) : State :=
  let f := s.fresh
  { ((f.2.send (.remote win.qp win.rkey ra bs)).sink ctx) with
    remoteOps := s.remoteOps ++ [{ id := f.1, ctx := ctx, qp := win.qp, recips := by_.recips, va := BitVec.ofNat 64 va, pc := by_.pc,
                                   word := by_.word, age := f.1 }] }

/-- A load of one lane (R239). With a wide acquire L1 holds nothing when it reads. A load whose locks were judged at its issue does not meet them again. (log 4, DESIGN CHOICE) -/
def State.loadLane (s : State) (w : Who) (va n : Nat) (acq : Acq) (fill : Bool) (locks : Bool := true) : LaneOut (List Byte) × State :=
  match s.checkLane w va n .load locks with
  | (.error e, s) => (.trap e va, s)
  | (.ok x, s) =>
    let s := s.acquireAt w x.leaf acq
    let own := match s.team? w.team with | some tm => tm.commit | none => []
    if leafRm x.leaf then
      match s.remote? w.ctx x n with
      | none => (.trap fcPageAttr va, s)
      | some (win, ra) =>
        match s.remoteRead w.ctx n (.remoteRead win.qp win.rkey ra n) with
        | (none, s) => (.trap fcPagePerm va, s)
        | (some bs, s) => (.ok (overlay own va bs), s.saw w.tid s.nextId (ordersLater x.leaf acq))
    else if s.marked x.pa n then (.ue va, s.mailUe w.ctx x.pa va 0 (homeDie x.leaf x.pa))
    else if l1Page x.leaf then
      match s.loadL1 w.core w.tid x.pa n fill with
      | (some r, s) => (.ok (overlay own va r.1), s.saw w.tid r.2 (ordersLater x.leaf acq))
      | (none, s) => (.ue va, s.mailCopy w.core w.ctx x.pa va 0)
    else
      let s := (s.uncache x.leaf x.pa n).barL1 w.core w.tid (x.pa / 32)
      (.ok (overlay own va (s.readPhys x.pa n)), s.saw w.tid s.nextId (ordersLater x.leaf acq))

/-- Append a write to a twin copy's commit buffer. -/
def State.commitWrite (s : State) (team agent order va : Nat) (bs : List Byte) : State :=
  s.updTeam team fun t => { t with commit := t.commit ++ [{ agent := agent, order := order, addr := va, bytes := bs }] }

/-- A store of one lane (R239): held in a twin copy's commit buffer (R350), sent to a remote window, dropped when it meets a marked sector in part (R235), or performed. -/
def State.storeLane (s : State) (w : Who) (va : Nat) (bs : List Byte) (acq : Acq) (pc word : DWord) (tid : Tid) (locks : Bool := true) :
    LaneOut Unit × State :=
  let n := bs.length
  match s.checkLane w va n .store locks with
  | (.error e, s) => (.trap e va, s)
  | (.ok x, s) =>
    let s := s.acquireAt w x.leaf acq
    let twin := match s.team? w.team with | some tm => s.isTwin tm | none => false
    if twin then (.ok (), s.commitWrite w.team 0 w.thread va bs)
    else if leafRm x.leaf then
      match s.remote? w.ctx x n with
      | none => (.trap fcPageAttr va, s)
      | some (win, ra) =>
        (.ok (), s.remoteStore w.ctx win ra va bs { recips := [tid], pc := pc, word := word })
    else if s.marked x.pa n && !decide (x.pa % 32 = 0 ∧ n = 32) then
      (.later fcMemUe 0 va, s.mailUe w.ctx x.pa va pc.toNat (homeDie x.leaf x.pa))
    else (.ok (), (s.storeL1 w.core x.pa bs).writePhys w.ctx (decide (leafCp x.leaf ≠ 2)) x.pa bs (some tid))

/-- What an atomic does to the bytes it finds: the new ones, or none to write nothing; and the message by which a remote end performs it, which only a 64-bit add or CAS has (R210, R247). -/
structure AtomAct where
  f : List Byte → Option (List Byte)
  remote : Option (Window → DWord → OutMsg) := none

/-- An atomic of one lane at the home slice (R247). -/
def State.atomicLane (s : State) (w : Who) (va n : Nat) (locks : Bool) (a : AtomAct) (acq : Acq) : LaneOut (List Byte) × State :=
  match s.checkLane w va n .atomic locks (fun x => leafRm x.leaf && a.remote.isNone) with
  | (.error e, s) => (.trap e va, s)
  | (.ok x, s) =>
    let s := s.acquireAt w x.leaf acq
    if leafRm x.leaf then
      match s.remote? w.ctx x n, a.remote with
      | some (win, ra), some m =>
        (match s.remoteRead w.ctx n (m win ra) with
        | (none, s) => (.trap fcPagePerm va, s)
        | (some bs, s) => (.ok bs, s.saw w.tid s.nextId (ordersLater x.leaf acq)))
      | _, _ => (.trap fcPageAttr va, s)
    else if s.marked x.pa n then (.ue va, s.mailUe w.ctx x.pa va 0 (homeDie x.leaf x.pa))
    else
      let old := s.readPhys x.pa n
      let s := (s.barL1 w.core w.tid (x.pa / 32)).saw w.tid s.nextId (ordersLater x.leaf acq)
      match a.f old with
      | none => (.ok old, (s.uncache x.leaf x.pa n).sink w.ctx)
      | some bs => (.ok old, (s.storeL1 w.core x.pa bs).writePhys w.ctx (decide (leafCp x.leaf ≠ 2)) x.pa bs (some w.tid))

/-! ### Ranges of virtual addresses, accessed by hardware of a context -/

/-- The parts of [va, va + n) page by page: address and length. -/
def pageParts : Nat → Nat → Nat → List (Nat × Nat)
  | 0, _, _ => []
  | fuel + 1, va, n =>
    if n = 0 then []
    else
      let k := min n (65536 - va % 65536)
      (va, k) :: pageParts fuel (va + k) (n - k)

/-- The page parts of a range. -/
def parts (va n : Nat) : List (Nat × Nat) := pageParts (n / 65536 + 2) va n

/-- Read one page part. The error is the fault code and the address: of a marked sector, where the range reaches it. -/
def State.readPart (s : State) (ctx : Nat) (va n : Nat) : Except (Nat × Nat) (List Byte) × State :=
  match s.translateWalk ctx va .load (s.badRemote ctx n) with
  | (.error e, s) => (.error (e, va), s)
  | (.ok x, s) =>
    if leafRm x.leaf then
      match s.remote? ctx x n with
      | none => (.error (fcPageAttr, va), s)
      | some (win, ra) =>
        match s.remoteRead ctx n (.remoteRead win.qp win.rkey ra n) with
        | (none, s) => (.error (fcPagePerm, va), s)
        | (some bs, s) => (.ok bs, s)
    else if s.marked x.pa n then
      let k := s.markAt x.pa n
      (.error (fcMemUe, va + k), s.mailUe ctx (x.pa + k) (va + k) 0 (homeDie x.leaf (x.pa + k)))
    else (.ok (s.readPhys x.pa n), s.uncache x.leaf x.pa n)

/-- Read page parts in ascending order. -/
def State.readParts (s : State) (ctx : Nat) : List (Nat × Nat) → Except (Nat × Nat) (List Byte) × State
  | [] => (.ok [], s)
  | (va, n) :: ps =>
    match s.readPart ctx va n with
    | (.error e, s) => (.error e, s)
    | (.ok bs, s) =>
      match s.readParts ctx ps with
      | (.error e, s) => (.error e, s)
      | (.ok cs, s) => (.ok (bs ++ cs), s)

/-- Read n bytes at a virtual address of a context. -/
def State.readVa (s : State) (ctx va n : Nat) : Except (Nat × Nat) (List Byte) × State := s.readParts ctx (parts va n)

/-- A write covers a marked sector in part: that part of it is dropped (R235). -/
def State.halfMarked (s : State) (pa n q : Nat) : Bool := s.ue.contains q && !decide (pa ≤ 32 * q ∧ 32 * q + 32 ≤ pa + n)

/-- How many bytes of a write are dropped at its start and at its end, for marked sectors that it covers in part (R235). -/
def State.dropped (s : State) (pa n : Nat) : Nat × Nat :=
  let head := if s.halfMarked pa n (pa / 32) then min n (32 - pa % 32) else 0
  (head, if s.halfMarked pa n ((pa + n - 1) / 32) then min (n - head) ((pa + n) % 32) else 0)

/-- A write at a physical address, but for what marked sectors drop of it: gives how far from its start the first dropped byte lies (R235). (log 84, DEDUCED) -/
def State.writeAround (s : State) (ctx : Nat) (keep : Bool) (pa : Nat) (bs : List Byte) (storer : Option Tid) : Option Nat × State :=
  let n := bs.length
  let d := s.dropped pa n
  (if d.1 ≠ 0 then some 0 else if d.2 ≠ 0 then some (n - d.2) else none,
   s.writePhys ctx keep (pa + d.1) ((bs.drop d.1).take (n - d.1 - d.2)) storer)

/-- Write one page part: gives the address at which a marked sector has dropped some of it. -/
def State.writePart (s : State) (ctx va : Nat) (bs : List Byte) (by_ : Writer) : Except (Nat × Nat) (Option Nat) × State :=
  match s.translateWalk ctx va .store (s.badRemote ctx bs.length) with
  | (.error e, s) => (.error (e, va), s)
  | (.ok x, s) =>
    if leafRm x.leaf then
      match s.remote? ctx x bs.length with
      | none => (.error (fcPageAttr, va), s)
      | some (win, ra) => (.ok none, s.remoteStore ctx win ra va bs by_)
    else
      match s.writeAround ctx (decide (leafCp x.leaf ≠ 2)) x.pa bs by_.recips.head? with
      | (none, s) => (.ok none, s)
      | (some k, s) => (.ok (some (va + k)), s.mailUe ctx (x.pa + k) (va + k) 0 (homeDie x.leaf (x.pa + k)))

/-- Write bytes by page parts in ascending order; earlier parts stay written when a later one fails, and a part that a marked sector drops keeps no other part from being written. -/
def State.writeParts (s : State) (ctx : Nat) (by_ : Writer) : List (Nat × Nat) → List Byte → Except (Nat × Nat) Unit × State
  | [], _ => (.ok (), s)
  | (va, n) :: ps, bs =>
    match s.writePart ctx va (bs.take n) by_ with
    | (.error e, s) => (.error e, s)
    | (.ok none, s) => s.writeParts ctx by_ ps (bs.drop n)
    | (.ok (some a), s) => (.error (fcMemUe, a), (s.writeParts ctx by_ ps (bs.drop n)).2)

/-- Write bytes at a virtual address of a context. -/
def State.writeVa (s : State) (ctx va : Nat) (bs : List Byte) (by_ : Writer := {}) : Except (Nat × Nat) Unit × State :=
  s.writeParts ctx by_ (parts va bs.length) bs

/-- Translate every page of a range with a permission, writing nothing; the first failure is the fault. -/
def State.probeParts (s : State) (ctx : Nat) (p : Perm) : List (Nat × Nat) → Except (Nat × Nat) Unit × State
  | [] => (.ok (), s)
  | (va, _) :: ps =>
    match s.translateWalk ctx va p with
    | (.error e, s) => (.error (e, va), s)
    | (.ok _, s) => s.probeParts ctx p ps

def State.probeVa (s : State) (ctx va n : Nat) (p : Perm) : Except (Nat × Nat) Unit × State := s.probeParts ctx p (parts va n)

/-- Where a virtual address lies, without setting A or D (R226, R310). -/
def State.peek (s : State) (ctx va : Nat) : Option Xlat :=
  match s.walk ctx va with
  | .ok x => some x
  | .error _ => none

/-- An address with zero bytes that hardware reads as an n-byte unsigned value. -/
def State.readVaNat (s : State) (ctx va n : Nat) : Except (Nat × Nat) Nat × State :=
  match s.readVa ctx va n with
  | (.error e, s) => (.error e, s)
  | (.ok bs, s) => (.ok (leNat bs), s)

end Sys2Proof.Machine
end

