-- ==== Sys2Proof/Machine/Pool.lean ====
section
/-! DEFINITION. The pool: team pool addresses and windows (R83, R84), presence bits and fill counters (R142 to R146), pool locks, segments with their eviction, reload and claims (R78 to R82, R89, R90), handler frames (R82) and the partition word (R81). -/

namespace Sys2Proof.Machine

/-! ### The team pool address space -/

/-- The base of the window region. -/
def winRegion : Nat := 0x400000

/-- Bytes of a group's window (R79). -/
def KDesc.winBytes (d : KDesc) (g : Group) : Nat := d.budget g * 256

/-- W: bytes of all windows of a team (R79). -/
def KDesc.winTotal (d : KDesc) (t : Team) : Nat := (t.groups.map d.winBytes).sum

/-- The team pool address of a group's window (R84). -/
def KDesc.winBase (d : KDesc) (t : Team) (g : Nat) : Nat :=
  winRegion + ((t.groups.filter fun x => decide (x.num < g)).map d.winBytes).sum

/-- The n bytes at a team pool address lie within one region (R83). -/
def poolIn (d : KDesc) (t : Team) (pa n : Nat) : Bool :=
  if pa < winRegion then decide (pa + n ≤ d.scratch)
  else decide (pa < 2 * winRegion) && decide (pa - winRegion + n ≤ d.winTotal t)

/-- A range reaches the storage of a declared team queue (R260). -/
def inQueueStorage (d : KDesc) (pa n : Nat) : Bool :=
  d.queues.any fun q => meets pa n q.off (2 ^ (q.lslot + q.ldepth))

/-- Bytes of a hash region (R157). -/
def HashR.bytes (h : HashR) : Nat := 64 * 2 ^ (h.word0.extractLsb' 24 4).toNat
/-- Its scratch offset (R156). -/
def HashR.off (h : HashR) : Nat := (h.word0.extractLsb' 0 22).toNat

/-- A range reaches the team's claimed hash region (R161). -/
def inHashRegion (t : Team) (pa n : Nat) : Bool :=
  match t.hash with
  | none => false
  | some h => meets pa n h.off h.bytes

/-- A thread's pool access is turned away by a lock of its team (R230): any lock for a write, a destination for a read. -/
def State.lockedPool (s : State) (team pa n : Nat) (write : Bool) : Bool :=
  s.locks.any fun l => l.pool && decide (l.team = team) && l.overlaps pa n && (l.dst || write)
/-- A destination lock without presence management covers the range (R144, R177). -/
def State.lockedPoolDst (s : State) (team pa n : Nat) : Bool :=
  s.locks.any fun l => l.pool && decide (l.team = team) && l.overlaps pa n && l.dst
/-- A source lock covers the range. -/
def State.lockedPoolSrc (s : State) (team pa n : Nat) : Bool :=
  s.locks.any fun l => l.pool && decide (l.team = team) && l.overlaps pa n && !l.dst

/-! ### Presence (R142, R143) -/

/-- The 128-byte lines of a scratch range. -/
def linesOf (pa n : Nat) : List Nat :=
  if n = 0 then [] else (List.range ((pa + n - 1) / 128 - pa / 128 + 1)).map fun i => pa / 128 + i

/-- The line of a scratch address is absent. -/
def Team.lineAbsent (t : Team) (line : Nat) : Bool := t.absent.contains line

/-- Some line of a scratch range is absent. -/
def Team.anyAbsent (t : Team) (pa n : Nat) : Bool := (linesOf pa n).any t.lineAbsent

def Team.setAbsent (t : Team) (line : Nat) (b : Bool) : Team :=
  { t with absent := if b then line :: t.absent.filter (fun l => decide (l ≠ line)) else t.absent.filter fun l => decide (l ≠ line) }

def Team.fill (t : Team) (line : Nat) : Nat := assoc 0 t.fills line
def Team.setFill (t : Team) (line v : Nat) : Team :=
  { t with fills := if v = 0 then t.fills.filter (fun x => decide (x.1 ≠ line)) else assocSet t.fills line v }

/-- Every counter of the lines is below 15, so that a command may clear them (R143). -/
def Team.canClear (t : Team) (lines : List Nat) : Bool := lines.all fun l => decide (t.fill l < 15)

/-- Clear the lines and raise their counters, which fill them (R143, at issue). -/
def Team.clearLines (t : Team) (lines : List Nat) : Team :=
  lines.foldl (fun t l => { ((t.setAbsent l true).setFill l (t.fill l + 1)) with unfilled := t.unfilled.filter fun x => decide (x ≠ l) }) t

/-- One line of a command has arrived: its counter falls, and at zero the line is present and its readers wake (R143), unless PRES.clear has cleared it since (R151). -/
def State.arriveLine (s : State) (team line : Nat) : State :=
  match s.team? team with
  | none => s
  | some t =>
    let v := t.fill line - 1
    let s := s.updTeam team fun t => (t.setFill line v).setAbsent line (t.lineAbsent line && (decide (v ≠ 0) || t.unfilled.contains line))
    if v = 0 ∧ t.unfilled.contains line = false then s.wakeTeam team (fun k => decide (k = .line line)) |>.unhold else s.unhold

/-- Several lines arrive at once. -/
def State.arriveLines (s : State) (team : Nat) (lines : List Nat) : State := lines.foldl (fun s l => s.arriveLine team l) s

/-! ### Segments (R78, R79) -/

/-- Segments that n bytes take. -/
def segCount (n : Nat) : Nat := (n + 65535) / 65536

/-- The allotment index of the segment that holds a team pool address: windows first, then scratch. -/
def segOf (d : KDesc) (t : Team) (pa : Nat) : Nat :=
  if pa < winRegion then segCount (d.winTotal t) + pa / 65536 else (pa - winRegion) / 65536

/-- The team pool address at which a segment's bytes start. -/
def segBase (d : KDesc) (t : Team) (i : Nat) : Nat :=
  let w := segCount (d.winTotal t)
  if i < w then winRegion + 65536 * i else 65536 * (i - w)

def Team.seg? (t : Team) (i : Nat) : Option Seg := t.segs.find? fun x => decide (x.index = i)
def Team.updSeg (t : Team) (i : Nat) (f : Seg → Seg) : Team := { t with segs := updWhere (fun x => decide (x.index = i)) f t.segs }

/-- The first missing segment that a range of a resident team touches (R90). -/
def missingSeg (d : KDesc) (t : Team) (pa n : Nat) : Option Nat :=
  let lo := segOf d t pa
  let hi := segOf d t (pa + (n - 1))
  ((List.range (hi - lo + 1)).map (fun i => lo + i)).find? fun i =>
    match t.seg? i with | some g => g.saved.isSome | none => false

/-- The address of the save slot of physical segment `phys` of a core (R321). -/
def State.slotVa (s : State) (ctx core phys : Nat) : Nat :=
  match s.ctx? ctx with
  | none => 0
  | some c => c.save + (64 * s.coreIndex core + phys) * 65536

/-- The physical segments of a core in use. -/
def State.usedSegs (s : State) (core : Nat) : List Nat :=
  ((s.teams.filter fun t => decide (t.core = core)).flatMap fun t =>
    (t.segs.filter fun g => decide (t.place = .resident) || g.saved.isNone).map fun g => g.phys) ++
  ((s.reserves.filter fun r => decide (r.core = core) && (!r.tagged || r.saved.isNone)).map fun r => r.phys)

/-- The save slot that a context's segment of a core would take still holds a copy that one of its teams needs (R89, R321). -/
def State.slotNeeded (s : State) (ctx core phys : Nat) : Bool :=
  let va := s.slotVa ctx core phys
  (s.teams.any fun t => decide (t.ctx = ctx) && t.segs.any fun g => decide (g.saved = some va)) ||
  (s.reserves.any fun r => decide (r.ctx = ctx ∧ r.saved = some va))

/-- Free segments of a core that a context may take (R89 step 1). -/
def State.freeFor (s : State) (ctx core : Nat) : List Nat :=
  let used := s.usedSegs core
  (List.range 64).filter fun p => !used.contains p && !s.slotNeeded ctx core p

/-- A command still running has a destination in a segment of a team (R89 step 4). -/
def State.segBusy (s : State) (t : Team) (i : Nat) : Bool :=
  let d := s.descOf t
  let base := segBase d t i
  (s.locks.any fun l => l.pool && l.dst && decide (l.team = t.key) && l.overlaps base 65536) ||
  (s.cmds.any fun c => decide (c.team = t.key) && c.lines.any fun l => decide (base ≤ 128 * l ∧ 128 * l < base + 65536))

/-- The frames a reserve segment holds: team key, group, slot (R82). -/
def State.framesIn (s : State) (r : RSeg) : List (Nat × Nat × Nat) :=
  s.teams.flatMap fun t => t.groups.filterMap fun g =>
    match g.frame with
    | some (id, slot) => if id = r.id then some (t.key, g.num, slot) else none
    | none => none

/-- An owner-tagged segment that a claim may evict: a team's or a reserve segment. -/
inductive Victim where
  | seg (team : Nat) (index : Nat)
  | reserve (id : Nat)
  deriving DecidableEq, Repr

/-- Insert by an ascending key, after equal keys. -/
def insertBy {α : Type} (key : α → Nat) (x : α) : List α → List α
  | [] => [x]
  | y :: ys => if key x < key y then x :: y :: ys else y :: insertBy key x ys

/-- Sort by an ascending key, stable. -/
def sortBy {α : Type} (key : α → Nat) (l : List α) : List α := l.foldl (fun acc x => insertBy key x acc) []

/-- The owner-tagged segments of a core in the order of R89 step 2: by the time their owner left, then by falling address, reserve segments of an owner last. -/
def State.victims (s : State) (core : Nat) : List Victim :=
  let swapped := s.teams.filter fun t => decide (t.core = core) && decide (t.place ≠ .resident)
  let segs := swapped.flatMap fun t =>
    let d := s.descOf t
    ((sortBy (fun (g : Seg) => 2 ^ 24 - segBase d t g.index) (t.segs.filter fun g =>
        g.saved.isNone && !g.stuck && !s.segBusy t g.index && !s.slotNeeded t.ctx core g.phys)).map
      fun g => ((2 * t.swappedAt, Victim.seg t.key g.index) : Nat × Victim))
  let res := (s.reserves.filter fun r => decide (r.core = core) && r.tagged && r.saved.isNone && !r.stuck &&
      !s.slotNeeded r.ctx core r.phys).map fun r => ((2 * r.taggedAt + 1, Victim.reserve r.id) : Nat × Victim)
  (sortBy (fun x => x.1) (segs ++ res)).map fun x => x.2

/-- The bytes of a reserve segment: slot k's frame at 8192 k, and zeros where no frame is held (R82; log 78, DESIGN CHOICE). -/
def State.reserveBytes (s : State) (r : RSeg) : List Byte :=
  (List.range 8).flatMap fun k =>
    match (s.framesIn r).find? fun f => decide (f.2.2 = k) with
    | some f => (match s.group? { team := f.1, group := f.2.1, lane := 0 } with
        | some g => Mem.getN g.hregs 0 8192
        | none => List.replicate 8192 0)
    | none => List.replicate 8192 0

/-- A segment's contents can be read: no word of it is marked (R88). -/
def State.segClean (s : State) (t : Team) (i : Nat) : Bool :=
  !(s.poolUe.any fun u => decide (u.1 = t.key) && meets (segBase (s.descOf t) t i) 65536 u.2 4)

/-- Write a segment's bytes to its save slot, unless a word of it is marked (R88, R89 step 5). A claim that is only tried in advance (`dry`) takes every save to succeed. -/
def State.saveBytes (s : State) (dry : Bool) (core ctx va : Nat) (clean : Bool) (bs : List Byte) : Except (Nat × Nat) Unit × State :=
  if dry then (.ok (), s) else if clean then s.writeVa ctx va bs else (.error (fcMemUe, va), s.mailPool core ctx 0)

/-- Write a tagged segment to its save slot (R89 step 3). A failed save leaves it in place, passed over, with a KIND 9 record (R89 step 5). Gives the physical segment freed. -/
def State.evict (s : State) (dry : Bool) (core : Nat) (v : Victim) : Option Nat × State :=
  match v with
  | .seg k i =>
    match s.team? k with
    | none => (none, s)
    | some t =>
      match t.seg? i with
      | none => (none, s)
      | some g =>
        let va := s.slotVa t.ctx core g.phys
        match s.saveBytes dry core t.ctx va (s.segClean t i) (Mem.getN t.pool (segBase (s.descOf t) t i) 65536) with
        | (.error e, s) =>
          (none, (s.updTeam k fun t => t.updSeg i fun g => { g with stuck := true }).mail 9 e.1 t.ctx (2 + dieOf core) 0 e.2 0 (leBytes 8 0))
        | (.ok _, s) => (some g.phys, s.updTeam k fun t => t.updSeg i fun x => { x with saved := some va })
  | .reserve id =>
    match s.reserves.find? fun r => decide (r.id = id) with
    | none => (none, s)
    | some r =>
      let va := s.slotVa r.ctx core r.phys
      match s.saveBytes dry core r.ctx va (!(s.frameUe.any fun u => decide (u.1 = id))) (s.reserveBytes r) with
      | (.error e, s) =>
        (none, ({ s with reserves := updWhere (fun r => decide (r.id = id)) (fun r => { r with stuck := true }) s.reserves }).mail
          9 e.1 r.ctx (2 + dieOf core) 0 e.2 0 (leBytes 8 0))
      | (.ok _, s) =>
        (some r.phys, { s with reserves := updWhere (fun x => decide (x.id = id)) (fun x => { x with saved := some va }) s.reserves })

/-- Evict victims in order until n segments are freed. -/
def State.evictMany (s : State) (dry : Bool) (core : Nat) : Nat → List Victim → List Nat × State
  | 0, _ => ([], s)
  | _, [] => ([], s)
  | n + 1, v :: vs =>
    match s.evict dry core v with
    | (some p, s) => let r := s.evictMany dry core n vs; (p :: r.1, r.2)
    | (none, s) => s.evictMany dry core (n + 1) vs

/-- Claim n segments of a core for a context (R89): free ones first, the lowest numbers first, then evicted ones (log 79, DESIGN CHOICE). None, and the state of any eviction, when there is no room. -/
def State.claim (s : State) (ctx core n : Nat) (dry : Bool := false) : Option (List Nat) × State :=
  let free := s.freeFor ctx core
  if n ≤ free.length then (some (free.take n), s)
  else if free.length + (s.victims core).length < n then (none, s)
  else
    let r := s.evictMany dry core (n - free.length) (s.victims core)
    if r.1.length + free.length < n then (none, r.2) else (some (free ++ r.1), r.2)

/-- Room for n segments under R80. -/
def State.roomFor (s : State) (ctx core n : Nat) : Bool :=
  decide (n ≤ (s.freeFor ctx core).length + (s.victims core).length)

/-! ### Pool bytes -/

/-- Cut a pool range at segment borders. -/
def segParts (pa n : Nat) : List (Nat × Nat) := parts pa n

/-- The first marked word of a range of a team's pool (R88). -/
def State.markedWord (s : State) (team pa n : Nat) : Option Nat :=
  (((s.poolUe.filter fun u => decide (u.1 = team) && meets pa n u.2 4).map fun u => u.2).foldl
    (fun m a => match m with | none => some a | some b => some (min a b)) none)

/-- Read a part of a team's pool for a command: in place, or from the save slot while the segment is evicted (R89). -/
def State.poolPart (s : State) (t : Team) (pa n : Nat) : Except (Nat × Nat) (List Byte) × State :=
  match s.markedWord t.key pa n with
  | some a => (.error (fcMemUe, a), s.mailPool t.core t.ctx 0)
  | none =>
    match (t.seg? (segOf (s.descOf t) t pa)).bind fun g => g.saved with
    | some va => s.readVa t.ctx (va + pa % 65536) n
    | none => (.ok (Mem.getN t.pool pa n), s)

def State.poolReadParts (s : State) (t : Team) : List (Nat × Nat) → Except (Nat × Nat) (List Byte) × State
  | [] => (.ok [], s)
  | (pa, n) :: ps =>
    match s.poolPart t pa n with
    | (.error e, s) => (.error e, s)
    | (.ok bs, s) =>
      match s.poolReadParts t ps with
      | (.error e, s) => (.error e, s)
      | (.ok cs, s) => (.ok (bs ++ cs), s)

/-- Read a team's pool for a command. -/
def State.poolRead (s : State) (team pa n : Nat) : Except (Nat × Nat) (List Byte) × State :=
  match s.team? team with
  | none => (.ok (List.replicate n 0), s)
  | some t => s.poolReadParts t (segParts pa n)

/-- Write pool bytes in place. A whole-word write clears the word's mark (R88). -/
def State.poolSet (s : State) (team pa : Nat) (bs : List Byte) : State :=
  { (s.updTeam team fun t => { t with pool := Mem.setN t.pool pa bs }) with
    poolUe := s.poolUe.filter fun u => !(decide (u.1 = team) && decide (pa ≤ u.2 ∧ u.2 + 4 ≤ pa + bs.length)) }

/-- Write parts of a team's pool for a command, in place or in the save slot (R89). -/
def State.poolWriteParts (s : State) (team : Nat) : List (Nat × Nat) → List Byte → Except (Nat × Nat) Unit × State
  | [], _ => (.ok (), s)
  | (pa, n) :: ps, bs =>
    match s.team? team with
    | none => (.ok (), s)
    | some t =>
      match (t.seg? (segOf (s.descOf t) t pa)).bind fun g => g.saved with
      | some va =>
        (match s.writeVa t.ctx (va + pa % 65536) (bs.take n) with
        | (.error e, s) => (.error e, s)
        | (.ok _, s) => s.poolWriteParts team ps (bs.drop n))
      | none => (s.poolSet team pa (bs.take n)).poolWriteParts team ps (bs.drop n)

/-- Write a team's pool for a command. -/
def State.poolWrite (s : State) (team pa : Nat) (bs : List Byte) : Except (Nat × Nat) Unit × State :=
  s.poolWriteParts team (segParts pa bs.length) bs

/-- A range of a resident team's pool touches a missing segment, so that a command waits (R90). -/
def State.poolMissing (s : State) (team pa n : Nat) : Bool :=
  match s.team? team with
  | none => false
  | some t => decide (t.place = .resident) && decide (n ≠ 0) && (missingSeg (s.descOf t) t pa n).isSome

/-! ### Handler frames (R82) -/

/-- The reserve segments a context holds on a core, tagged ones apart. -/
def State.reservesOf (s : State) (core ctx : Nat) : List RSeg :=
  s.reserves.filter fun r => decide (r.core = core ∧ r.ctx = ctx) && !r.tagged

/-- Slots of a reserve segment that hold no frame. -/
def State.freeSlots (s : State) (r : RSeg) : List Nat :=
  let used := (s.framesIn r).map fun f => f.2.2
  (List.range 8).filter fun k => !used.contains k

/-- Free handler frames of a context on a core (R94). -/
def State.freeFrames (s : State) (core ctx : Nat) : Nat :=
  ((s.reservesOf core ctx).map fun r => (s.freeSlots r).length).sum

/-- A reserve segment is missing: it is held again, and its frames are still in the save area (R82, R90). -/
def State.reserveMissing (s : State) (id : Nat) : Bool := s.reserves.any fun r => decide (r.id = id) && r.saved.isSome

/-- A free slot of a reserve segment of a context, missing or not. -/
def State.freeFrame (s : State) (core ctx : Nat) (missing : Bool) : Option (Nat × Nat) :=
  (s.reservesOf core ctx).findSome? fun r =>
    if r.saved.isSome == missing then (match s.freeSlots r with | k :: _ => some (r.id, k) | [] => none) else none

/-- The missing reserve segment that a group's entry into the handler touches: its own frame's, or the one whose frames alone are free (R82, R90). -/
def State.entryTouch (s : State) (tm : Team) (g : Group) : Option Nat :=
  match g.frame with
  | some (id, _) => if s.reserveMissing id then some id else none
  | none => if (s.freeFrame tm.core tm.ctx false).isSome then none else (s.freeFrame tm.core tm.ctx true).map fun f => f.1

/-- Find a frame for a group: a free one, else in one more reserve segment (R82). None when entry must wait. -/
def State.takeFrame (s : State) (core ctx : Nat) : Option (Nat × Nat) × State :=
  match s.freeFrame core ctx false with
  | some f => (some f, s)
  | none =>
    match s.claim ctx core 1 with
    | (some (p :: _), s) =>
      let f := s.fresh
      (some (f.1, 0), { f.2 with reserves := f.2.reserves ++ [{ id := f.1, core := core, ctx := ctx, phys := p, kind := 2 }] })
    | (_, s) => (none, s)

/-- Extra segments that trap entry claimed beyond the context's first go free when all their frames are (R82). -/
def State.trimReserves (s : State) (core ctx : Nat) : State :=
  let goes := fun (r : RSeg) => decide (r.core = core ∧ r.ctx = ctx ∧ r.kind = 2) && !r.tagged && (s.framesIn r).isEmpty
  let held := s.reservesOf core ctx
  let kept := if held.all goes then (held.head?.map fun r => r.id) else none
  { s with reserves := s.reserves.filter fun r => !goes r || decide (some r.id = kept) }

/-- A group gives up its frame when none of its threads is in handler mode (R363). -/
def State.releaseFrame (s : State) (t : Tid) : State :=
  match s.team? t.team, s.group? t with
  | some tm, some g =>
    if g.frame.isSome && !(g.threads.any fun th => th.handler) then
      (s.updGroup t fun g => { g with frame := none, hregs := [] }).trimReserves tm.core tm.ctx
    else s
  | _, _ => s

/-- The partition word of a core (R81). -/
def State.partWord (s : State) (core : Nat) : Nat :=
  let teamseg := ((s.teams.filter fun t => decide (t.core = core ∧ t.place = .resident)).map fun t => t.segs.length).sum
  let res := (s.reserves.filter fun r => decide (r.core = core) && !r.tagged).length
  let tagged := ((s.teams.filter fun t => decide (t.core = core ∧ t.place ≠ .resident)).map fun t =>
      (t.segs.filter fun g => g.saved.isNone).length).sum +
    (s.reserves.filter fun r => decide (r.core = core) && r.tagged && r.saved.isNone).length
  (64 - teamseg - res - tagged) * 2 ^ 21 + tagged * 2 ^ 14 + res * 2 ^ 7 + teamseg

end Sys2Proof.Machine
end

