-- ==== Sys2Proof/Machine/Operands.lean ====
section
/-! DEFINITION. Register operands: which file and index a field may name (R21 to R23, R356), reading a register lane, with the old or new value while a long write is outstanding (R58), writing one at once or as a long result (R56, R59), and queue operands (R258 to R261). -/

namespace Sys2Proof

/-- The field names an s register: a result there is one for the group, and a word that submits acts once. -/
def Reg.isS (r : Reg) : Bool := match r with | .s _ => true | _ => false

end Sys2Proof

namespace Sys2Proof.Machine

/-- How a word uses a register field. -/
inductive Use where
  /-- A source: a q register pops. -/
  | rd
  /-- A destination: a q register pushes. -/
  | wr
  /-- A destination that is read before it is written: no q register (R23). -/
  | rw
  /-- A queue named without being popped or pushed by name. -/
  | name
  deriving DecidableEq, Repr

/-- One register operand of a word: the field, how many consecutive registers, the alignment of the first, the use, and the files the field accepts. -/
structure Opd where
  reg : Reg
  n : Nat := 1
  align : Nat := 1
  use : Use := .rd
  v : Bool := true
  s : Bool := false
  q : Bool := false
  k : Bool := false
  sv : Bool := false
  /-- An h register may stand wherever V may, in handler mode, unless the field is reached by pool address (R356). -/
  h : Bool := true
  /-- A block named by view that the word reads (R60). -/
  reads : Bool := false
  deriving DecidableEq, Repr

/-- A source of any readable file: classes 0 to 2 (R23). -/
def Opd.src (r : Reg) (n : Nat := 1) : Opd := { reg := r, n := n, align := n, s := true, q := true, k := true, sv := true }
/-- A destination of classes 0 to 2: V, s, or a q register that pushes. -/
def Opd.dst (r : Reg) (n : Nat := 1) : Opd := { reg := r, n := n, align := n, use := .wr, s := true, q := true }
/-- A destination that is also read. -/
def Opd.upd (r : Reg) (n : Nat := 1) : Opd := { reg := r, n := n, align := n, use := .rw, s := true }
/-- A source from V, s or k. -/
def Opd.vsk (r : Reg) (n : Nat := 1) : Opd := { reg := r, n := n, align := n, s := true, k := true }
/-- A source from V or s. -/
def Opd.vs (r : Reg) (n : Nat := 1) : Opd := { reg := r, n := n, align := n, s := true }
/-- A source from s or k. -/
def Opd.sk (r : Reg) (n : Nat := 1) : Opd := { reg := r, n := n, align := n, v := false, h := false, s := true, k := true }
/-- A destination in V or s. -/
def Opd.dvs (r : Reg) (n : Nat := 1) : Opd := { reg := r, n := n, align := n, use := .wr, s := true }
/-- A destination in V. -/
def Opd.dv (r : Reg) (n : Nat := 1) : Opd := { reg := r, n := n, align := n, use := .wr }

/-- A queue's kind (R257): 0 command, 1 token, 2 team, 3 reserved. -/
def queueKind (q : Nat) : Nat :=
  if 32 ≤ q then 2 else if 16 ≤ q then 3
  else if q = 0 ∨ q = 2 ∨ q = 4 ∨ q = 6 ∨ q = 10 ∨ q = 12 ∨ q = 14 then 0 else 1

/-- The field breaks R21, R22, R23, R258 or R356: ILLEGAL_REG. -/
def Opd.illegal (o : Opd) (handler : Bool) : Bool :=
  match o.reg with
  | .v i => !o.v || decide (i.val % o.align ≠ 0) || decide (1536 < i.val + o.n)
  | .s i => !o.s || decide (i.val % o.align ≠ 0) || decide (64 < i.val + o.n)
  | .k i => !o.k || decide (o.use ≠ .rd) || decide (i.val % o.align ≠ 0) || decide (64 < i.val + o.n)
  | .sv i => !o.sv || decide (o.use ≠ .rd) || !(decide (o.n = 1) || (decide (o.n = 2) && (decide (i.val = 16) || decide (i.val = 18))))
  | .h i => !o.h || !handler || decide (i.val % o.align ≠ 0) || decide (32 < i.val + o.n)
  | .q i =>
    !o.q || decide (o.n ≠ 1) ||
    (match o.use with
      | .rd => !(decide (queueKind i.val = 1) || decide (queueKind i.val = 2))
      | .wr => !decide (queueKind i.val = 2)
      | .rw => true
      | .name => decide (queueKind i.val = 3))
  | .rsv _ => true

/-- The field reaches the role's budget: REG_BUDGET (R86). -/
def Opd.overBudget (o : Opd) (budget : Nat) : Bool :=
  match o.reg with
  | .v i => decide (budget < i.val + o.n)
  | _ => false

/-! ### The current word -/

/-- A thread's predicate: p0 reads as true (R62). -/
def Thread.pred (th : Thread) (p : BitVec 3) : Bool := decide (p = 0) || th.preds.getLsbD p.toNat

/-- Write a predicate: a write to p0 is ignored (R62). -/
def Thread.setPred (th : Thread) (p : BitVec 3) (b : Bool) : Thread :=
  if p = 0 then th
  else { th with preds := if b then th.preds ||| ((1 : BitVec 8) <<< p.toNat) else th.preds &&& ~~~((1 : BitVec 8) <<< p.toNat) }

/-- The thread's guard holds (R19). -/
def Thread.guard (th : Thread) (pg : BitVec 4) : Bool :=
  if pg.getLsbD 3 then !th.pred (pg.extractLsb' 0 3) else th.pred (pg.extractLsb' 0 3)

/-- The lane map of the issue set (R50): a retry reads the map of the word's issue. -/
def Cur.laneMap (c : Cur) : BitVec 64 := if c.retry then c.map else c.lanes.foldl (fun m t => m ||| ((1 : BitVec 64) <<< t.lane)) 0

/-- What a lane of the word has already popped (R259). -/
def Cur.had (c : Cur) (t : Tid) : List Word := assoc [] c.popped t

/-- The lane is the lowest active lane of its own group, whose value an s destination takes (R23). (log 93, DESIGN CHOICE) -/
def Cur.lead (c : Cur) (t : Tid) : Bool :=
  match c.set.find? fun x => decide (x.group = t.group) with
  | none => true
  | some x => decide (x = t)

/-- The lane gives an s destination of the current word its value (R23). -/
def State.leads (s : State) (t : Tid) : Bool :=
  match s.cur with
  | some c => c.lead t
  | none => true

/-! ### Reading -/

/-- A system value (R50) of a thread in its team and group. Clock and lane map come in two halves each. -/
def sysOf (clk : Clocks) (c : Cur) (d : KDesc) (tm : Team) (g : Group) (t : Tid) (i : Nat) : Word :=
  BitVec.ofNat 32 (match i with
    | 0 => t.lane
    | 1 => g.pipe
    | 2 => 64 * t.group + t.lane
    | 3 => t.group
    | 4 => g.role
    | 5 => tm.index % d.gx
    | 6 => tm.index / d.gx % d.gy
    | 7 => tm.index / d.gx / d.gy
    | 8 => d.gx
    | 9 => d.gy
    | 10 => d.gz
    | 11 => 64 * tm.groups.length
    | 12 => tm.core
    | 13 => if d.det then tm.index % d.lcores else tm.lcore
    | 14 => dieOf tm.core
    | 15 => tm.ctx
    | 16 => clk.cycle.toNat
    | 17 => clk.cycle.toNat / 2 ^ 32
    | 18 => c.laneMap.toNat
    | _ => c.laneMap.toNat / 2 ^ 32)

/-- The pool address of a lane of a V register of a group's window (R84). -/
def KDesc.laneAddr (d : KDesc) (tm : Team) (t : Tid) (n : Nat) : Nat := d.winBase tm t.group + 256 * n + 4 * t.lane

/-- The pool address of a lane of a V register of a thread's own window (R84). -/
def State.vAddr (s : State) (t : Tid) (n : Nat) : Nat :=
  match s.team? t.team with
  | some tm => (s.descOf tm).laneAddr tm t n
  | none => 0

/-- The stored value of a register lane of a thread in its team and group. -/
def State.regOf (s : State) (t : Tid) (tm : Team) (g : Group) (r : Reg) (j : Nat) : Word :=
  match r with
  | .v i => Mem.w32 tm.pool ((s.descOf tm).laneAddr tm t (i.val + j))
  | .s i => Mem.w32 g.sregs (4 * (i.val + j))
  | .k i => Mem.w32 (s.launchOf tm).consts (4 * (i.val + j))
  | .h i => Mem.w32 g.hregs (256 * (i.val + j) + 4 * t.lane)
  | .sv i => match s.cur with
    | some c => sysOf s.clk c (s.descOf tm) tm g t (i.val + j)
    | none => 0
  | _ => 0

/-- The stored value of a register lane. -/
def State.regVal (s : State) (t : Tid) (r : Reg) (j : Nat) : Word :=
  match s.team? t.team, s.group? t with
  | some tm, some g => s.regOf t tm g r j
  | _, _ => 0

/-- The file and index of a register that results can be written to. -/
def Reg.file? (r : Reg) (j : Nat) : Option (RFile × Nat) :=
  match r with
  | .v i => some (.v, i.val + j)
  | .s i => some (.s, i.val + j)
  | .h i => some (.h, i.val + j)
  | _ => none

/-- The values that a long result would write to a register lane, once they are known. -/
def LongRes.valsAt (l : LongRes) (f : RFile) (i : Nat) : List Word :=
  if l.ready then (l.regs.filter fun x => decide (x.file = f ∧ x.idx = i)).map fun x => x.val else []

/-- The values of outstanding long writes of a thread to a register lane, oldest first. -/
def Thread.pendingVals (th : Thread) (f : RFile) (i : Nat) : List Word := th.longs.flatMap fun l => l.valsAt f i

/-- The threads whose writes reach a register as a thread sees it: every one of its group for an s register, itself for the others. -/
def Group.writers (g : Group) (lane : Nat) (f : RFile) : List Thread :=
  if f = .s then g.threads else g.threads.filter fun th => decide (th.lane = lane)

/-- The outstanding long results whose writes reach a register as a thread sees it, but for those of the word of an issue number: a word reads its operands before it writes. -/
def Group.longsAt (g : Group) (lane : Nat) (f : RFile) (own : Option Nat) : List LongRes :=
  (g.writers lane f).flatMap fun th => th.longs.filter fun l => l.issue.isNone || decide (l.issue ≠ own)

/-- A long write to a register lane of a thread is outstanding. -/
def Group.outstanding (g : Group) (lane : Nat) (f : RFile) (i : Nat) (own : Option Nat) : Bool :=
  (g.longsAt lane f own).any fun l => l.regs.any fun x => decide (x.file = f ∧ x.idx = i)

/-- The issue number of the word being executed. -/
def State.issueNo (s : State) : Option Nat := s.cur.map fun c => c.issue

/-- The values of outstanding long writes to a register lane of a thread. -/
def State.pendings (s : State) (t : Tid) (f : RFile) (i : Nat) : List Word :=
  match s.group? t with
  | some g => (g.longsAt t.lane f s.issueNo).flatMap fun l => l.valsAt f i
  | none => []

/-- Read one register lane (R58): while a long write to it is outstanding, a free value chooses between the value before and a value after. -/
def State.readReg (s : State) (t : Tid) (r : Reg) (j : Nat) : Word × State :=
  let old := s.regVal t r j
  match Reg.file? r j with
  | some (f, i) =>
    match s.pendings t f i with
    | [] => (old, s)
    | vs => let c := s.pick (vs.length + 1); ((old :: vs).getD c.1 old, c.2)
  | none => (old, s)

/-- Read n consecutive register lanes. -/
def State.readRegs (s : State) (t : Tid) (r : Reg) (j : Nat) : Nat → List Word × State
  | 0 => ([], s)
  | n + 1 =>
    let x := s.readReg t r j
    let xs := x.2.readRegs t r (j + 1) n
    (x.1 :: xs.1, xs.2)

/-! ### Queues -/

/-- The declaration of a team queue (R260). -/
def KDesc.queue? (d : KDesc) (q : Nat) : Option QDecl := d.queues.find? fun x => decide (x.num = q)

/-- The slots or tokens a queue holds. -/
def Team.queueLen (t : Team) (q : Nat) : Nat :=
  if 32 ≤ q then (assoc [] t.queues q).length else (t.tokens.filter fun x => decide (x.1 = q)).length

/-- The oldest slot of a queue, taken away. Tokens and team queues are first-in, first-out (R259). -/
def Team.popQueue (t : Team) (q : Nat) : Option (List Word × Team) :=
  if 32 ≤ q then
    match assoc [] t.queues q with
    | [] => none
    | x :: xs => some (x, { t with queues := assocSet t.queues q xs })
  else
    match t.tokens.find? fun x => decide (x.1 = q) with
    | none => none
    | some x => some ([x.2], { t with tokens := t.tokens.eraseP fun y => decide (y.1 = q) })

/-- The scope at which popping a queue acquires is cluster or wider, so that the core's L1 is invalidated (R209, R257). -/
def popInvalidates (q : Nat) : Bool := decide (q < 32)

/-- Pop one slot for a lane, if there is one. A pop of a token acquires (R257); a slot leaving wakes those who wait for room. -/
def State.pop (s : State) (t : Tid) (q : Nat) : Option (List Word × State) :=
  match s.team? t.team with
  | none => none
  | some tm =>
    match tm.popQueue q with
    | none => none
    | some (x, tm') =>
      let s := s.updTeam t.team fun _ => tm'
      let s := if popInvalidates q then s.invalL1 tm.core else s
      some (x, (s.wakeTeam t.team fun k => decide (k = .queue q)).unhold)

/-- A team queue has room (R260). -/
def Team.hasRoom (t : Team) (d : KDesc) (q : Nat) : Bool :=
  match d.queue? q with
  | some x => decide (t.queueLen q < 2 ^ x.ldepth)
  | none => false

/-- Push one slot on a team queue, if there is room (R261). Those who wait for data wake. -/
def State.push (s : State) (t : Tid) (q : Nat) (slot : List Word) : Option State :=
  match s.team? t.team with
  | none => none
  | some tm =>
    if tm.hasRoom (s.descOf tm) q then
      let s := s.updTeam t.team fun tm => { tm with queues := assocSet tm.queues q (assoc [] tm.queues q ++ [slot]) }
      some (s.wakeTeam t.team fun k => decide (k = .queue q))
    else none

/-! ### Writing -/

/-- A later write of a thread drops what earlier long results would still write to the register (R59). -/
def Thread.dropLong (th : Thread) (f : RFile) (i : Nat) : Thread :=
  { th with longs := th.longs.map fun l => { l with regs := l.regs.filter fun x => !decide (x.file = f ∧ x.idx = i) } }

/-- A later write of an issue number drops what older long results of the thread would still write to the register (R59, R93). -/
def Thread.dropOlder (th : Thread) (f : RFile) (i n : Nat) : Thread :=
  { th with longs := th.longs.map fun l => if l.id < n then { l with regs := l.regs.filter fun x => !decide (x.file = f ∧ x.idx = i) } else l }

/-- A later write drops what earlier long results would still write to a register (R59): those of its thread, and those of every thread of its group for an s register. -/
def State.dropLongs (s : State) (t : Tid) (f : RFile) (i : Nat) : State :=
  if f = .s then s.updGroup t fun g => { g with threads := g.threads.map fun th => th.dropLong f i }
  else s.updThread t fun th => th.dropLong f i

/-- The place of a lane's h register in its frame's reserve segment: segment and offset (R82). -/
def Group.frameAt (g : Group) (lane i : Nat) : Option (Nat × Nat) := g.frame.map fun f => (f.1, 8192 * f.2 + 256 * i + 4 * lane)

/-- A word of a handler frame loses its mark (R88). -/
def State.unmarkFrame (s : State) (at_ : Option (Nat × Nat)) : State := { s with frameUe := s.frameUe.filter fun u => decide (some u ≠ at_) }

/-- Store a value in a register lane; a whole word written loses its mark (R88). -/
def State.putReg (s : State) (t : Tid) (f : RFile) (i : Nat) (v : Word) : State :=
  match f with
  | .v => let a := s.vAddr t i; s.poolSet t.team a (leBytes 4 v.toNat)
  | .s => s.updGroup t fun g => { g with sregs := Mem.setW32 g.sregs (4 * i) v }
  | .h =>
    (s.updGroup t fun g => { g with hregs := Mem.setW32 g.hregs (256 * i + 4 * t.lane) v }).unmarkFrame
      ((s.group? t).bind fun g => g.frameAt t.lane i)

/-- A short write (R56): visible to the next word, and later than every outstanding long write to the register. -/
def State.writeShort (s : State) (t : Tid) (f : RFile) (i : Nat) (v : Word) : State := (s.dropLongs t f i).putReg t f i v

/-- The registers of a destination, with their values; an s destination takes the lowest active lane's value alone (R23). -/
def destRegs (lead : Bool) (r : Reg) : Nat → List Word → List LReg
  | _, [] => []
  | j, v :: vs =>
    match Reg.file? r j with
    | some (.s, i) => if lead then { file := .s, idx := i, val := v } :: destRegs lead r (j + 1) vs else destRegs lead r (j + 1) vs
    | some (f, i) => { file := f, idx := i, val := v } :: destRegs lead r (j + 1) vs
    | none => destRegs lead r (j + 1) vs

/-- Write short results to registers. -/
def State.writeRegs (s : State) (t : Tid) : List LReg → State
  | [] => s
  | x :: xs => (s.writeShort t x.file x.idx x.val).writeRegs t xs

/-- Make results a long result of the thread (R56): it lands later. A result that an s register takes part in is `shared` by the active lanes of the group (R23, R57). (log 52, DEDUCED) -/
def State.addLong (s : State) (t : Tid) (ready : Bool) (regs : List LReg) (shared : Bool := false) : Nat × State :=
  let f := s.fresh
  let issue := if shared then s.issueNo else none
  (f.1, f.2.updThread t fun th => { th with longs := th.longs ++ [{ id := f.1, ready := ready, regs := regs, issue := issue }] })

/-- The thread is the one of its group that gives the word of an issue number its s result, and has not landed it. -/
def Thread.leadsIssue (th : Thread) (team group n : Nat) : Bool :=
  (th.longs.any fun l => decide (l.issue = some n) && l.regs.any fun x => decide (x.file = .s)) ||
  (match th.pend with
    | some p => decide (p.issue = n) &&
        decide ((p.set.find? fun t => decide (t.group = group)) = some { team := team, group := group, lane := th.lane })
    | none => false)

/-- A result waits for the lead lane's s result of the same word (R57). -/
def State.awaitsLead (s : State) (t : Tid) (l : LongRes) : Bool :=
  match l.issue, s.group? t with
  | some n, some g => g.threads.any fun th => decide (th.lane ≠ t.lane) && th.leadsIssue t.team t.group n
  | _, _ => false

/-- The missing segment that a landing result touches: a segment of the team, or a reserve segment, counted from 64 (R90). -/
def State.landTouch (s : State) (t : Tid) (l : LongRes) : Option Nat :=
  match s.team? t.team, s.group? t with
  | some tm, some g => l.regs.findSome? fun x => match x.file with
      | .v => missingSeg (s.descOf tm) tm (s.vAddr t x.idx) 4
      | .h => g.frame.bind fun f => if s.reserveMissing f.1 then some (64 + f.1) else none
      | .s => none
  | _, _ => none

/-- A result would change a source that an array has not read yet, which it is to read as it stood when the command entered (R178). -/
def State.landLocked (s : State) (t : Tid) (l : LongRes) : Bool :=
  l.regs.any fun x => decide (x.file = .v) && s.locks.any fun k => k.pool && !k.dst && decide (k.team = t.team) && k.overlaps (s.vAddr t x.idx) 4 &&
    match s.cmd? k.cmd with | some c => c.eng.isArray && decide (l.id < c.id) | none => false

/-- A result may land: its value is known, what it touches is there, and no array is still to read what it replaces. -/
def State.landable (s : State) (t : Tid) (l : LongRes) : Bool :=
  l.ready && !s.awaitsLead t l && (s.landTouch t l).isNone && !s.landLocked t l

/-- Earlier results lose what a later one writes (R59). -/
def Thread.yieldTo (th : Thread) (l : LongRes) (own : Bool) : Thread :=
  { th with longs := th.longs.map fun x =>
      if x.id < l.id then
        { x with regs := x.regs.filter fun y => !((own || decide (y.file = .s)) && l.regs.any fun z => decide (z.file = y.file ∧ z.idx = y.idx)) }
      else x }

/-- A long result lands (R56, R59): it writes what no later write has taken, and what earlier results would still write there is dropped. -/
def State.landLong (s : State) (t : Tid) (id : Nat) : State :=
  match s.thread? t with
  | none => s
  | some th =>
    match th.longs.find? fun l => decide (l.id = id) && s.landable t l with
    | none => s
    | some l =>
      let s := s.updGroup t fun g => { g with threads := g.threads.map fun th => th.yieldTo l (decide (th.lane = t.lane)) }
      let s := s.updThread t fun th => { th with longs := th.longs.filter fun x => decide (x.id ≠ id) }
      l.regs.foldl (fun s x => s.putReg t x.file x.idx x.val) s

end Sys2Proof.Machine
end

