-- ==== Sys2Proof/Machine/Ops.lean ====
section
/-! DEFINITION. The operations every word shares: ending threads (R69), kills (R335), packets of the hardware (R296, R300), taking a fault (R355, R359), masks (R68), barriers (R72), returning from the handler (R363), memory order (R215 to R225), the decode traps (R41), STRICT hazards (R58), and the course of one word over its issue set (R19, R20, R54, R57). -/

namespace Sys2Proof.Machine

/-- What a meaning answers. -/
abbrev Answer := Host.Outcome State Fault Refusal

/-! ### Command queues (R166, R257, R264) -/

/-- The queue of an engine's commands, for those that wait for room. -/
def Engine.cmdQueue : Engine → Nat
  | .cpy _ => 0 | .srt _ => 2 | .trv _ => 4 | .slv _ => 6 | .base _ => 10 | .cap _ => 12 | .fabric => 14
  | .xdie => 10 | .array _ _ | .hash _ | .rrot _ => 64

/-- A command of R264 has not finished: it is not done, or a token is still owed. -/
def Cmd.unfinished (c : Cmd) : Bool := decide (c.stage ≠ .done) || !c.owed.isEmpty

/-- Commands behind an engine that have not finished. -/
def State.queuedFor (s : State) (e : Engine) : Nat := (s.cmds.filter fun c => decide (c.eng = e) && c.unfinished).length

/-- Capacity of an engine's queue (R257, R166, R310): the eight buffer chips of 64 stand behind one engine (R269, R317). The X-die's own rejections take no entry. -/
def Engine.capacity : Engine → Option Nat
  | .cpy _ | .srt _ | .trv _ | .slv _ => some 32
  | .base _ => some 64
  | .cap _ => some 512
  | .fabric => some 256
  | .array _ _ => some 8
  | .xdie | .hash _ | .rrot _ => none

/-- A sequenced MSTADD: the set number among its command words is not all ones (R185). -/
def Cmd.sequenced (c : Cmd) : Bool := c.eng.isArray && decide (c.code = 0xE7) && decide (c.words.getD 5 0 ≠ 0xFFFFFFFF)

/-- A sequenced MSTADD that has been handed to its set (R187). (log 46, DEDUCED) -/
def Cmd.handedOver (c : Cmd) : Bool := c.sequenced && decide (c.stage = .consumed) && c.fault.isNone

/-- A queue has no room. A sequenced MSTADD past its consumed point has left its array's queue (R187). -/
def State.queueFull (s : State) (e : Engine) : Bool :=
  match e.capacity with
  | none => false
  | some n =>
    decide (n ≤ (s.cmds.filter fun c => decide (c.eng = e) && c.unfinished && !c.handedOver).length)

/-- The engine takes commands of a core's teams (R257). -/
def Engine.servesCore : Engine → Nat → Bool
  | .cpy k, core | .array k _, core | .hash k, core => decide (k = core)
  | .srt k, core | .trv k, core | .slv k, core | .rrot k, core => decide (k = clusterOf core)
  | .base _, _ | .cap _, _ | .fabric, _ | .xdie, _ => true

/-- A command queue has room again: those who wait to push on it look (R61, R259). -/
def State.wakePushers (s : State) (e : Engine) : State :=
  if s.queueFull e then s
  else s.teams.foldl (fun s t => if e.servesCore t.core then s.wakeTeam t.key (fun k => decide (k = .queue e.cmdQueue)) else s) s

/-! ### Kills -/

/-- Release a command's locks: its sources alone, or all of them (R229). Threads waiting for an entry wake, and so do held words. -/
def State.releaseLocks (s : State) (cmd : Nat) (all : Bool) : State :=
  let s := { s with locks := s.locks.filter fun l => !(decide (l.cmd = cmd) && (all || !l.dst)) }
  (s.wakeAll fun k => decide (k = .locks)).unhold

/-- A command that has not started is dropped: its locks go, the lines that it has cleared become present, its place in its queue is free (R268, R335). -/
def State.dropCmd (s : State) (c : Cmd) : State :=
  let s := { s with cmds := s.cmds.filter fun x => decide (x.id ≠ c.id) }
  (((s.releaseLocks c.id true).arriveLines c.team (if c.fillHeld then [] else c.lines)).wakePushers c.eng).unhold

/-- Kill every thread of a team and discard its commands that have not started (R335). It retires when its last command has finished, and its token queues are emptied, so that the last tokens can post (log 90, DEDUCED). -/
def State.dropTeam (s : State) (key : Nat) : State :=
  match s.team? key with
  | none => s
  | some t =>
    let s := (s.cmds.filter fun c => decide (c.team = key ∧ c.stage = .queued)).foldl (fun s c => s.dropCmd c) s
    let s := s.updTeam key fun t =>
      { t with killed := true, waveOps := [], lsu := [], tokens := [],
               groups := t.groups.map fun g => { g with threads := [], masks := List.replicate 12 {}, frame := none, hregs := [] } }
    let s := { s with retries := s.retries.filter fun x => decide (x.team ≠ key) }
    s.trimReserves t.core t.ctx

/-- Kill one team, both copies of a twinned one: the grid goes on with CAUSE 2 and the first kill's team and code (R334, R335, R351). -/
def State.killTeam (s : State) (key code : Nat) : State :=
  match s.team? key with
  | none => s
  | some t =>
    let s := s.updLaunch t.launch fun l =>
      if l.first.isNone then { l with first := some t.index, code := code, cause := if l.cause = 0 then 2 else l.cause } else l
    (s.teams.filter fun x => decide (x.launch = t.launch ∧ x.index = t.index)).foldl (fun s x => s.dropTeam x.key) s

/-- Retired first copies whose fellow was never placed, and never will be, are gone (R335, R349). -/
def State.dropShells (s : State) (launch : Nat) : State :=
  { s with teams := s.teams.filter fun t =>
      !(decide (t.launch = launch ∧ t.place = .retired) && !s.teams.any fun x => decide (x.launch = launch ∧ x.index = t.index ∧ x.copy ≠ t.copy)) }

/-- Kill a whole grid (R334, R335). -/
def State.killGrid (s : State) (launch cause code : Nat) : State :=
  let mine := s.teams.filter fun t => decide (t.launch = launch) && !t.killed
  let low := mine.foldl (fun m t => match m with | none => some t.index | some i => some (min i t.index)) (none : Option Nat)
  let s := s.updLaunch launch fun l =>
    if l.dropped then l
    else
      { l with
        dropped := true, cause := cause, code := if cause = 5 then 0 else if l.first.isSome then l.code else code,
        first := if l.first.isSome then l.first else low }
  (mine.foldl (fun s t => s.dropTeam t.key) s).dropShells launch

/-! ### Packets that the hardware posts (R296, R300) -/

/-- The two words of a TASK packet's header. -/
def taskHeader (len nsucc tag : Nat) (arg : Word) : List Word :=
  [BitVec.ofNat 32 (len + 3 * 16 + nsucc * 256 + tag * 65536), arg]

/-- Post a packet to a ring as though by RENQ; a sender of 0 is the hardware itself. -/
def State.postPacket (s : State) (ctx : Nat) (target ret : Word) (words : List Word) : State :=
  let f := s.fresh
  { f.2 with renqs := f.2.renqs ++ [{ id := f.1, ctx := ctx, sender := 0, target := target, ret := ret, words := words }] }

/-- The context error record of R359, to the error ring and to the mailbox. (log 53, DESIGN CHOICE) -/
def State.errorRecord (s : State) (t : Team) (kill first second : Nat) (pc addr : DWord) : State :=
  let words := taskHeader 1 0 0 (BitVec.ofNat 32 kill) ++ [BitVec.ofNat 32 (first + 256 * second), BitVec.ofNat 32 t.index, pc.lo, pc.hi,
    addr.lo, addr.hi]
  match s.ctx? t.ctx with
  | none => s
  | some c =>
    (s.postPacket t.ctx c.erring 0 words).mail 1 kill t.ctx (2 + dieOf t.core) 0 addr.toNat pc.toNat (bytesOf words)

/-! ### Taking a fault (R355, R359) -/

/-- Clear a lane of h0–h31 (R355 step 4). -/
def clearLane (m : Mem) (lane : Nat) : Mem := (List.range 32).foldl (fun m i => Mem.setW32 m (256 * i + 4 * lane) 0) m

/-- The words of a lane of h0–h31 lose their marks: they are written whole (R88). -/
def State.unmarkLane (s : State) (g : Option Group) (lane : Nat) : State :=
  (List.range 32).foldl (fun s i => s.unmarkFrame (g.bind fun g => g.frameAt lane i)) s

/-- A slot of a reserve segment that a group takes over holds no marked word: the model clears it whole (R88; log 78, DESIGN CHOICE). -/
def State.unmarkSlot (s : State) (fr : Nat × Nat) : State :=
  { s with frameUe := s.frameUe.filter fun u => !decide (u.1 = fr.1 ∧ u.2 / 8192 = fr.2) }

/-- Enter the handler with a frame in hand: steps 3 to 5 of R355. -/
def State.enterWith (s : State) (t : Tid) (f : FaultInfo) (hentry : DWord) : State :=
  ((s.unmarkLane (s.group? t) t.lane).updGroup t fun g => { g with hregs := clearLane g.hregs t.lane }).updThread t fun th =>
    { th with frec := some { info := f, preds := th.preds ||| 1, pending := th.afaults.length }, handler := true, pc := hentry,
              parks := [], pend := none, waking := false, held := false, stamp := s.clk.acycle }

/-- Finish an entry that waits: once no long result is outstanding and a frame can be had that is in its place (R90, R355 steps 1 and 2). A context that has no handler any more loses the team (R321, R355). -/
def State.tryEnter (s : State) (t : Tid) : State :=
  match s.thread? t, s.team? t.team, s.group? t with
  | some th, some tm, some g =>
    let entry := th.parks.findSome? fun k => match k with | .entry f => some f | _ => none
    match entry with
    | none => s
    | some f =>
      if th.longs ≠ [] ∨ (s.entryTouch tm g).isSome then s
      else
        let hentry : DWord := match s.ctx? tm.ctx with | some c => c.hentry | none => 0
        if hentry = 0 then s.killTeam t.team f.code
        else if g.frame.isSome then s.enterWith t f hentry
        else
          match s.takeFrame tm.core tm.ctx with
          | (some fr, s) => ((s.unmarkSlot fr).updGroup t fun g => { g with frame := some fr, hregs := [] }).enterWith t f hentry
          | (none, s) => s
  | _, _, _ => s

/-- Deliver a fault to a thread (R355): a thread in handler mode takes a double fault (R359); a context without a handler loses the team; otherwise the thread parks for its entry, which follows at once when nothing is outstanding. -/
def State.takeFault (s : State) (t : Tid) (f : FaultInfo) : State :=
  match s.thread? t, s.team? t.team with
  | some th, some tm =>
    let hentry : DWord := match s.ctx? tm.ctx with | some c => c.hentry | none => 0
    if th.handler then
      let first := match th.frec with | some r => r.info.code | none => 0
      (s.errorRecord tm fcDoubleFault first f.code f.fpc f.addr).killTeam t.team fcDoubleFault
    else if hentry = 0 then s.killTeam t.team f.code
    else
      (s.updThread t fun th => { th with pc := f.rpc, parks := [.entry f], pend := none, waking := false, held := false }).tryEnter t
  | _, _ => s

/-- A precise fault of the word being executed: fault PC and resume PC are the word's own (R41, R360). -/
def State.trap (s : State) (t : Tid) (code : Nat) (addr : Nat := 0) : State :=
  match s.cur with
  | none => s
  | some c => s.takeFault t { code := code, fpc := c.pc, rpc := c.pc, addr := BitVec.ofNat 64 addr, word := c.word }

/-- The same fault in several threads. -/
def State.trapAll (s : State) (ts : List Tid) (code : Nat) (addr : Nat := 0) : State := ts.foldl (fun s t => s.trap t code addr) s

/-- An asynchronous fault becomes pending for a thread (R274). A thread that has ended loses it. -/
def State.asyncFault (s : State) (t : Tid) (f : FaultInfo) : State :=
  s.updThread t fun th => { th with afaults := th.afaults ++ [{ f with async := true }] }

/-- The oldest pending fault, by program order (R274), and the rest. -/
def oldestFault : List FaultInfo → Option (FaultInfo × List FaultInfo)
  | [] => none
  | f :: fs =>
    match oldestFault fs with
    | none => some (f, [])
    | some (g, gs) => if f.age ≤ g.age then some (f, fs) else some (g, f :: gs)

/-- At a synchronising point outside handler mode, deliver the oldest pending fault with a resume PC (R61, R274). True when one was delivered. -/
def State.deliverAsync (s : State) (t : Tid) (rpc : DWord) : Bool × State :=
  match s.thread? t with
  | none => (false, s)
  | some th =>
    if th.handler then (false, s)
    else
      match oldestFault th.afaults with
      | none => (false, s)
      | some (f, rest) => (true, (s.updThread t fun th => { th with afaults := rest }).takeFault t { f with rpc := rpc })

/-- Deliver before an instruction takes effect: the lanes that took no fault go on (R274). (log 34, DEDUCED) -/
def State.deliverPoint (s : State) (pc : DWord) : List Tid → List Tid × State
  | [] => ([], s)
  | t :: ts =>
    let r := s.deliverAsync t pc
    let q := r.2.deliverPoint pc ts
    (if r.1 then q.1 else t :: q.1, q.2)

/-- A thread that waits at a marker alone, with every long result landed, wakes and takes its oldest pending fault there: the marked word has taken full effect (R57, R61, R274). -/
def State.passMarker (s : State) (t : Tid) : State :=
  if s.threadIs t fun th => decide (th.parks = [.marker]) && th.longs.isEmpty then
    let s := s.updThread t fun th => th.unpark s.clk.acycle fun k => decide (k = .marker)
    (s.deliverAsync t (match s.thread? t with | some th => th.pc | none => 0)).2
  else s

/-- Several threads pass their markers. -/
def State.passMarkers (s : State) (ts : List Tid) : State := ts.foldl (fun s t => s.passMarker t) s

/-- The live threads of a thread's group. -/
def State.groupTids (s : State) (t : Tid) : List Tid := match s.group? t with | some g => g.tids t.team | none => []

/-- The live threads of a team. -/
def State.teamTids (s : State) (team : Nat) : List Tid := match s.team? team with | some tm => tm.tids | none => []

/-! ### Masks and barriers -/

def Group.mask (g : Group) (m : Nat) : Mask := g.masks.getD m {}
def Group.setMask (g : Group) (m : Nat) (x : Mask) : Group := { g with masks := g.masks.set m x }

/-- A lane's bit. -/
def laneBit (l : Nat) : BitVec 64 := (1 : BitVec 64) <<< l

/-- The release condition of a mask: E ⊆ W and W not empty (R68). -/
def Mask.ready (m : Mask) : Bool := decide (m.e &&& ~~~m.w = 0) && decide (m.w ≠ 0)

/-- Release a mask: its parked threads resume and both sets are cleared (R68). -/
def State.releaseMask (s : State) (t : Tid) (m : Nat) : State :=
  (s.updGroup t fun g =>
    { (g.setMask m {}) with threads := g.threads.map fun th => th.unpark s.clk.acycle fun k => decide (k = .waitm m) }).passMarkers
    (s.groupTids t)

/-- Release every listed mask of a group whose condition holds. -/
def State.checkMasks (s : State) (t : Tid) : List Nat → State
  | [] => s
  | m :: ms =>
    match s.group? t with
    | none => s
    | some g => (if (g.mask m).ready then s.releaseMask t m else s).checkMasks t ms

/-- Strike a lane from E and W of the listed masks, then release (R69, R363). -/
def State.strike (s : State) (t : Tid) (ms : List Nat) : State :=
  (s.updGroup t fun g => ms.foldl (fun g m =>
    let x := g.mask m
    g.setMask m { e := x.e &&& ~~~laneBit t.lane, w := x.w &&& ~~~laneBit t.lane }) g).checkMasks t ms

def Team.barrier (t : Team) (b : Nat) : Barrier := t.barriers.getD b { n := 1 }
def Team.setBarrier (t : Team) (b : Nat) (x : Barrier) : Team := { t with barriers := t.barriers.set b x }

/-- A thread awaiting a phase resumes; in a deterministic team it opens again with the wave count of the highest wave applied (R72, R346). The wake acquires: its later reads come after its earlier ones (R217, R219). -/
def Thread.passBarrier (th : Thread) (now b : Nat) (p : BitVec 16) (wave : Nat) : Thread :=
  if th.parks.contains (Park.barrier b p) then
    { (th.unpark now fun k => decide (k = .barrier b p)) with closed := false, wave := wave, floor := max th.floor th.seen }
  else th

/-- Change every thread of a team. -/
def Team.mapThreads (t : Team) (f : Thread → Thread) : Team :=
  { t with groups := t.groups.map fun g => { g with threads := g.threads.map f } }

/-- A phase completes (R72): P advances, the count clears, and those awaiting the old phase resume. -/
def State.completePhase (s : State) (team b : Nat) : State :=
  (s.updTeam team fun t =>
    let x := t.barrier b
    (t.setBarrier b { x with c := 0, p := x.p + 1 }).mapThreads fun th => th.passBarrier s.clk.acycle b x.p t.waveDone).passMarkers
    (s.teamTids team)

/-- One arrival (R72). -/
def State.arrive (s : State) (team b : Nat) : State :=
  let s := s.updTeam team fun t => let x := t.barrier b; t.setBarrier b { x with c := x.c + 1 }
  match s.team? team with
  | none => s
  | some t => let x := t.barrier b; if x.c = x.n then s.completePhase team b else s

/-- Take a thread out of its group: it is struck from every mask and waits nowhere (R69, R75). -/
def State.endThread (s : State) (t : Tid) : State :=
  let s := s.strike t (List.range 12)
  let s := s.updGroup t fun g => { g with threads := g.threads.filter fun th => decide (th.lane ≠ t.lane) }
  let s := { s with retries := s.retries.filter fun x => decide (x ≠ t) }
  s.releaseFrame t

/-! ### Returning from the handler (R363) -/

/-- The resume and skip targets of a fault record (R363). -/
def FaultRec.target (r : FaultRec) (skip : Bool) : DWord :=
  if skip && !r.info.async && decide (r.info.rpc = r.info.fpc) then r.info.fpc + 8 else r.info.rpc

/-- Leave handler mode for a target: predicates restored unless kept, m10 and m11 struck; a pending fault enters the handler again with the frame kept; otherwise the mode is normal and the frame's share released. -/
def State.leaveHandler (s : State) (t : Tid) (target : DWord) (keepp : Bool) : State :=
  match s.thread? t with
  | none => s
  | some th =>
    let s := if keepp then s else s.updThread t fun th => { th with preds := match th.frec with | some r => r.preds | none => th.preds }
    let s := s.strike t [10, 11]
    match oldestFault th.afaults with
    | some (f, rest) =>
      let s := s.updThread t fun th =>
        { th with afaults := rest, handler := false, parks := [.entry { f with rpc := target }], pc := target }
      s.tryEnter t
    | none =>
      (s.updThread t fun th => { th with handler := false, pc := target, frec := none }).releaseFrame t

/-! ### Memory order (R215, R217, R220, R222, R224, R225) -/

/-- A command issue (R217). -/
def MemOrder.command : MemOrder := { writes := true, releases := true }
/-- A barrier arrival (R217). -/
def MemOrder.barrier : MemOrder := { releases := true }

/-- An access that has not been performed, by the moment of its issue: whether it reads, whether it is a contribution to a reduction set, where it lies. -/
structure Due where
  age : Nat
  reads : Bool
  reduces : Bool
  place : Option Place
  deriving DecidableEq, Repr

/-- A thread's contribution to a reduction set, issued before a moment. -/
def Contrib.ofThread (k : Contrib) (t : Tid) (before : Nat) : Bool := k.cmd.isNone && k.recips.contains t && decide (k.age < before)

/-- Where a contribution lies. -/
def Contrib.place (k : Contrib) : Place := { pool := false, addr := k.va.toNat, len := k.ty.bytes }

/-- A contribution that is still to be applied. -/
def Contrib.due (k : Contrib) : Due := { age := k.age, reads := false, reduces := true, place := some k.place }

/-- A waiting word of a thread. -/
def WaveOp.ofThread (o : WaveOp) (t : Tid) (before : Nat) : Bool :=
  (decide (o.tid = t) || o.peers.any fun p => decide (p.1 = t)) && decide (o.age < before)

/-- A word that waits for its wave, or in its load-store unit. -/
def WaveOp.due (o : WaveOp) (reads : Bool) : Due := { age := o.age, reads := reads, reduces := o.ord.reduces, place := o.place }

/-- The accesses of a thread, issued before a moment, that have not been performed: contributions, words that wait for their waves, and accesses that wait in the load-store unit (R251, R346, R225). -/
def State.dues (s : State) (t : Tid) (before : Nat) : List Due :=
  ((s.contribs ++ s.sets.flatMap fun e => e.held).filter fun k => k.ofThread t before).map Contrib.due ++
  match s.team? t.team with
  | some tm => (tm.waveOps.filter fun o => o.ofThread t before).map (fun o => o.due true) ++
      (tm.lsu.filter fun o => o.ofThread t before).map fun o => o.due o.ord.reads
  | none => []

/-- An access of a thread issued before a moment has not been performed. (log 63, DEDUCED) -/
def State.accessDue (s : State) (t : Tid) (before : Nat) : Bool := !(s.dues t before).isEmpty

/-- A remote store of a thread issued before a moment has not been acknowledged (R222). -/
def State.remoteDue (s : State) (t : Tid) (before : Nat) : Bool := s.remoteOps.any fun o => o.recips.contains t && decide (o.age < before)

/-- What a fence comes after has not all been performed; a mark of one access comes after that one alone. -/
def State.markHolds (s : State) (t : Tid) (m : FenceMark) : Bool :=
  match m.own with
  | some n => (s.dues t (n + 1)).any fun d => decide (d.age = n)
  | none => ((s.dues t m.age).any fun d => d.reads || m.reds) || (m.remote && s.remoteDue t m.age)

/-- Two accesses of a context touch a byte in common (R214), or lie both on SO pages (R215). -/
def State.placesMeet (s : State) (ctx : Nat) (p q : Place) : Bool :=
  (p.pool == q.pool) &&
  (meets p.addr p.len q.addr q.len ||
    (!p.pool && match s.peek ctx p.addr, s.peek ctx q.addr with
      | some x, some y => meets x.pa p.len y.pa q.len || (decide (leafOrd x.leaf = 1) && decide (leafOrd y.leaf = 1))
      | _, _ => false))

/-- An access may not pass one that has not been performed: they touch a byte in common, or are both SO (R214, R215). Two contributions keep the order of their sets instead (R249). -/
def State.passes (s : State) (t : Tid) (a : MemOrder) (place : Option Place) (d : Due) : Bool :=
  match place, d.place with
  | some p, some q => !(a.reduces && d.reduces) && s.placesMeet (match s.team? t.team with | some tm => tm.ctx | none => 0) p q
  | _, _ => false

/-- An access issued at a moment, behind some fences, must wait: behind a contribution of its thread that waits in the load-store unit (R251), for its thread's earlier accesses where it releases (R215, R222) or may not pass them, or behind a fence (R225). -/
def State.mustFollow (s : State) (a : MemOrder) (t : Tid) (place : Option Place) (before : Nat) (marks : List FenceMark) : Bool :=
  (s.contribs.any fun k => k.waits && k.ofThread t before) ||
  (a.releases && (s.accessDue t before || (a.system && s.remoteDue t before))) ||
  ((s.dues t before).any (s.passes t a place)) ||
  marks.any fun m => (a.writes || !m.writes) && s.markHolds t m

/-- The fences of a thread that still hold something back. -/
def State.marksOf (s : State) (t : Tid) : List FenceMark :=
  match s.thread? t with
  | some th => th.fences.filter (s.markHolds t)
  | none => []

/-- An access that a thread makes now must wait. -/
def State.laneWaits (s : State) (a : MemOrder) (t : Tid) (place : Option Place := none) : Bool :=
  s.mustFollow a t place s.nextId (s.marksOf t)

/-- A word that waits for earlier accesses of its threads without being an access itself: a command issue, a barrier arrival, a pop. Its threads are held at issue meanwhile (log 31, DEDUCED). -/
def State.accessWaits (s : State) (a : MemOrder) (act : List Tid) : Bool := act.any fun t => s.laneWaits a t

/-- A thread has issued a fence; one that has nothing to wait for leaves nothing behind. -/
def State.fenced (s : State) (t : Tid) (m : FenceMark) : State :=
  s.updThread t fun th => { th with fences := (th.fences ++ [m]).filter (s.markHolds t) }

/-- A mark orders later reads behind an access of a moment. -/
def FenceMark.orders (m : FenceMark) (age : Nat) : Bool :=
  !m.writes && match m.own with | some n => decide (n = age) | none => decide (age < m.age)

/-- An access of a thread has been performed: reads that a fence orders behind it are performed after this moment (R219, R220). -/
def State.performedFor (s : State) (t : Tid) (age : Nat) : State :=
  if s.threadIs t fun th => th.fences.any fun m => m.orders age then
    let f := s.fresh
    f.2.updThread t fun th => { th with floor := f.2.nextId }
  else s

/-! ### The course of a word -/

/-- What the lanes of the current word keep of it when they must act later. -/
def Cur.pendOf (c : Cur) (joint : Bool) (popped : List Word) : Pend :=
  { pc := c.pc, word := c.word, set := c.set, map := c.laneMap, issue := c.issue, joint := joint, popped := popped }

/-- Park a lane in the middle of the current word; it will try the word again (R61, R259). -/
def State.parkLane (s : State) (t : Tid) (why : Park) (popped : List Word := []) (joint : Bool := false) : State :=
  match s.cur with
  | none => s
  | some c => s.updThread t fun th => { th with parks := why :: th.parks, pend := some (c.pendOf joint popped), waking := false }

/-- The lanes of a word that acts as a whole park together, and will act together. -/
def State.parkWord (s : State) (ts : List Tid) (why : Park) (popped : List Word := []) : State :=
  ts.foldl (fun s t => s.parkLane t why popped true) s

/-- What a lane of the current word had already popped (R259). -/
def State.had (s : State) (t : Tid) : List Word := match s.cur with | some c => c.had t | none => []

/-- Lanes that could go on wait, not parked, for those that the word cannot act without. -/
def State.awaitPeers (s : State) (ts : List Tid) : State :=
  match s.cur with
  | none => s
  | some c =>
    let s := ts.foldl (fun s t => s.updThread t fun th => { th with pend := some (c.pendOf true (c.had t)) }) s
    { s with retries := s.retries ++ ts }

/-- Hold a word at issue (R166, R143): its threads stand at it again, not parked. -/
def State.holdWord (s : State) (c : Cur) : State :=
  c.lanes.foldl (fun s t => s.updThread t fun th =>
    { th with pc := c.pc, held := true, parks := th.parks.filter (fun k => !k.retried), pend := none, waking := false }) s

/-- A pipe's instance number on its die, for monitors (R374, log 15, DESIGN CHOICE). -/
def pipeInstance (core pipe : Nat) : Nat := 4 * (core % 32) + pipe

/-- An event at a pipe. -/
def State.pipeEvent (s : State) (c : Cur) (src v : Nat) : State := s.event (dieOf c.core) src (pipeInstance c.core c.pipe) v

/-- The issue of a word (R16, R53, R54): each thread of the set advances by 8, takes a fresh stamp, and obeys GAP and GW. -/
def State.issue (s : State) (c : Cur) (gap : Nat) (gw : Bool) : State :=
  c.lanes.foldl (init := s.pipeEvent c 0x01 1) (fun s t => s.updThread t fun th =>
    { th with pc := c.pc + 8, stamp := s.clk.acycle, gapUntil := if gap = 0 then 0 else s.clk.acycle + gap, giveWay := gw })

/-- GAP's cycle count (R18). -/
def gapCycles (g : BitVec 2) : Nat := match g.toNat with | 0 => 0 | 1 => 1 | 2 => 2 | _ => 4

/-- MK (R57): each thread of the set parks until its long results have landed; one with nothing outstanding does not park, and a pending fault is delivered there (R61). A thread that its word has parked passes the marker when it wakes. -/
def State.marker (s : State) (c : Cur) : State :=
  c.lanes.foldl (fun s t =>
    if s.threadIs t fun th => th.pend.isSome || th.held || th.parks.any fun k => match k with | .entry _ => true | _ => false then s
    else if s.threadIs t fun th => th.parks.isEmpty && th.longs.isEmpty then
      (s.deliverAsync t (match s.thread? t with | some th => th.pc | none => 0)).2
    else (s.updThread t fun th => { th with parks := th.parks ++ [.marker] }).passMarker t) s

/-- What a word's decode traps and its operands are (R41). -/
structure Checks where
  illOp : State → Tid → Bool := fun _ _ => false
  illPair : Bool := false
  illReg : State → Tid → Bool := fun _ _ => false
  illOrder : Bool := false
  ops : List Opd := []
  /-- A trap of one lane's operands is taken by every active lane, and nothing is done (R167). -/
  whole : Bool := false
  /-- Each lane waits for its outstanding long results before its operands are looked at (R363). -/
  longs : Bool := false

/-- The first decode trap of a thread, in the order of R41. -/
def Checks.decodeTrap (k : Checks) (s : State) (t : Tid) (handler : Bool) (budget : Nat) : Option Nat :=
  if k.illOp s t then some fcIllegalOp
  else if k.illPair then some fcIllegalPair
  else if k.illReg s t || k.ops.any (fun o => o.illegal handler) then some fcIllegalReg
  else if k.ops.any (fun o => o.overBudget budget) then some fcRegBudget
  else if k.illOrder then some fcIllegalOrder
  else none

/-- The registers an operand names, by file and index. -/
def Opd.regs (o : Opd) : List (RFile × Nat) := (List.range o.n).filterMap fun j => Reg.file? o.reg j

/-- A STRICT word reads a register with a long write outstanding, by name or by view (R58, R60). -/
def hazard (g : Group) (lane : Nat) (ops : List Opd) (own : Option Nat) : Bool :=
  ops.any fun o => (o.reads || decide (o.use = .rd) || decide (o.use = .rw)) && o.regs.any fun x => g.outstanding lane x.1 x.2 own

/-- A queue operand that the launch did not declare, or a slot of another size than 4 bytes used by name (R260, R261). -/
def queueCfg (d : KDesc) (ops : List Opd) : Bool :=
  ops.any fun o => match o.reg with
    | .q i => decide (32 ≤ i.val) && (match d.queue? i.val with
        | none => true
        | some q => decide (o.use ≠ .name) && decide (q.lslot ≠ 2))
    | _ => false

/-- What a thread's operands meet before the word's own effect. -/
inductive Met where
  | trap (code : Nat) (addr : Nat)
  | park (why : Park)
  | go
  deriving DecidableEq, Repr

/-- A pool word that a word reads or writes by name. -/
structure Touch where
  pa : Nat
  reads : Bool
  writes : Bool
  deriving DecidableEq, Repr

/-- The pool words of an operand's lane registers. A block that a word only names is no access of the thread. -/
def State.opdTouch (s : State) (t : Tid) (o : Opd) : List Touch :=
  match o.reg with
  | .v i =>
    if o.use = .name then []
    else (List.range o.n).map fun j => { pa := s.vAddr t (i.val + j), reads := decide (o.use ≠ .wr), writes := decide (o.use ≠ .rd) }
  | _ => []

/-- An operand names h registers. -/
def Opd.isH (o : Opd) : Bool := match o.reg with | .h _ => true | _ => false

/-- A word of the handler frame that an operand reads is marked (R88). -/
def State.frameMarked (s : State) (t : Tid) (g : Group) (o : Opd) : Bool :=
  match o.reg with
  | .h i => decide (o.use = .rd ∨ o.use = .rw) &&
      (List.range o.n).any fun j => (g.frameAt t.lane (i.val + j)).any fun a => s.frameUe.contains a
  | _ => false

/-- The reserve segment of the group's frame is missing. -/
def State.frameMissing (s : State) (g : Group) : Option Nat := (g.frame.map fun f => f.1).filter s.reserveMissing

/-- The operands' own conditions, in the order taken here: HAZARD, QUEUE_CFG, a missing segment, a marked pool word, a locked window (R58, R260, R90, R88, R230). -/
def State.meet (s : State) (t : Tid) (ops : List Opd) : Met :=
  match s.team? t.team, s.group? t with
  | some tm, some g =>
    let d := s.descOf tm
    let words := ops.flatMap fun o => s.opdTouch t o
    if d.strict && hazard g t.lane ops s.issueNo then .trap fcHazard 0
    else if queueCfg d ops then .trap fcQueueCfg 0
    else
      match words.findSome? fun x => missingSeg d tm x.pa 4 with
      | some i => .park (.segment i)
      | none =>
        match (if ops.any Opd.isH then s.frameMissing g else none) with
        | some id => .park (.reserve id)
        | none =>
          match words.find? fun x => x.reads && s.poolUe.any fun u => decide (u.1 = t.team) && meets x.pa 4 u.2 4 with
          | some x => .trap fcMemUe x.pa
          | none =>
            if ops.any (s.frameMarked t g) then .trap fcMemUe 0
            else
              match words.find? fun x => s.lockedPool t.team x.pa 4 x.writes with
              | some x => .trap fcRangeLock x.pa
              | none => .go
  | _, _ => .trap fcIllegalOp 0

/-- A trap of a word's operands or of a pool access. An uncorrectable pool word also posts its mailbox record, which names the C-die and core (R235). -/
def State.metTrap (s : State) (t : Tid) (code addr : Nat) : State :=
  let s := if code = fcMemUe then
      (match s.team? t.team, s.cur with
        | some tm, some c => s.mailPool tm.core tm.ctx c.pc.toNat
        | _, _ => s)
    else s
  s.trap t code addr

/-- The first trap that the operands of some lanes meet. -/
def State.firstTrap (s : State) (ops : List Opd) (ts : List Tid) : Option (Nat × Nat) :=
  ts.findSome? fun t => match s.meet t ops with | .trap code a => some (code, a) | _ => none

/-- Sort the active lanes: those that trap or park do so, the others go on. (log 93, DESIGN CHOICE) -/
def State.letIn (s : State) (ops : List Opd) (joint : Bool) : List Tid → List Tid × State
  | [] => ([], s)
  | t :: ts =>
    match s.meet t ops with
    | .go => let r := s.letIn ops joint ts; (t :: r.1, r.2)
    | .trap code a => (s.metTrap t code a).letIn ops joint ts
    | .park why => (s.parkLane t why (s.had t) joint).letIn ops joint ts

/-- Park the lanes that have long results outstanding; the others go on (R363). -/
def State.afterLongs (s : State) : List Tid → List Tid × State
  | [] => ([], s)
  | t :: ts =>
    if s.threadIs t fun th => !th.longs.isEmpty then (s.parkLane t .longs).afterLongs ts
    else let r := s.afterLongs ts; (t :: r.1, r.2)

/-- Sort the active lanes of a word that traps as a whole (R167), or waits for long results first. -/
def State.letAll (s : State) (k : Checks) (joint : Bool) (ts : List Tid) : List Tid × State :=
  match (if k.whole then s.firstTrap k.ops ts else none) with
  | some (code, a) => ([], ts.foldl (fun s t => s.metTrap t code a) s)
  | none => if k.longs then (let r := s.afterLongs ts; r.2.letIn k.ops joint r.1) else s.letIn k.ops joint ts

/-- Take the decode traps; the lanes without one go on. -/
def State.decodeTraps (s : State) (k : Checks) : List Tid → List Tid × State
  | [] => ([], s)
  | t :: ts =>
    match s.thread? t, s.team? t.team, s.group? t with
    | some th, some tm, some g =>
      (match k.decodeTrap s t th.handler ((s.descOf tm).budget g) with
        | none => let r := s.decodeTraps k ts; (t :: r.1, r.2)
        | some code => (s.trap t code).decodeTraps k ts)
    | _, _, _ => s.decodeTraps k ts

/-- All 64 lanes of a V register of a group are equal (R88). -/
def uniformReg (d : KDesc) (t : Team) (g n : Nat) : Bool :=
  let a := d.winBase t g + 256 * n
  (List.range 64).all fun l => decide (Mem.w32 t.pool (a + 4 * l) = Mem.w32 t.pool a)

/-- V registers that a word reads with one bank access, one event each, while a monitor watches them (R88, R374). -/
def State.countUniform (s : State) (c : Cur) (ops : List Opd) (act : List Tid) : State :=
  if s.monitors.any fun m => decide (m.state = 1 ∧ (m.src.extractLsb' 0 8).toNat = 3) then
    ((act.map fun t => (t.team, t.group)).dedup).foldl (fun s x =>
      match s.team? x.1 with
      | none => s
      | some tm => ops.foldl (fun s o => match o.reg with
          | .v i => if o.use = .wr ∨ o.use = .name then s
                    else (List.range o.n).foldl (fun s j => if uniformReg (s.descOf tm) tm x.2 (i.val + j) then s.pipeEvent c 0x03 1 else s) s
          | _ => s) s) s
  else s

/-- The threads of the set whose guard holds (R20). -/
def State.active (s : State) (c : Cur) (ok : Thread → Bool) : List Tid := c.lanes.filter fun t => s.threadIs t ok

/-- An issue set with its active lanes known. -/
def Cur.withSet (c : Cur) (act : List Tid) : Cur := { c with set := act }

/-- A lane of the word has parked and is to act with the others. -/
def State.someParked (s : State) (ts : List Tid) : Bool := ts.any fun t => s.threadIs t fun th => th.pend.isSome

/-- The course of one word over its issue set: issue, guard, decode traps, operand conditions, the word's effect on the lanes that remain, marker. An effect of none holds the word at issue. A retry goes through the same course for its lanes, without issuing again. A `joint` word acts on its lanes together: while one must wait for a missing segment, none acts. -/
def State.course (s : State) (mk gw : Bool) (gap : Nat) (ok : Thread → Bool) (k : Checks) (joint : Bool)
    (effect : List Tid → State → Option State) : State :=
  match s.cur with
  | none => s
  | some c =>
    let s1 := if c.retry then s else s.issue c gap gw
    let act := if c.retry then c.lanes else s1.active c ok
    let c := if c.retry then c else c.withSet act
    let s1 := s1.setCur c
    let r := if c.retry then (act, s1) else s1.decodeTraps k act
    let r := if c.retry then r else (r.1, r.2.countUniform c k.ops r.1)
    let q := r.2.letAll k joint r.1
    match if joint && q.2.someParked r.1 then some (q.2.awaitPeers q.1) else effect q.1 q.2 with
    | some s2 => if mk then s2.marker c else s2
    | none => s.holdWord c

/-- A full-form word (R18, R19): PG 0b1000 raises ILLEGAL_OP in every thread of the set. -/
def State.word (s : State) (h : Hdr) (k : Checks) (effect : List Tid → State → Option State) (joint : Bool := true) : State :=
  if h.pg = 8 then
    s.course h.marker h.gw (gapCycles h.gap) (fun _ => true) { illOp := fun _ _ => true } joint fun _ s => some s
  else s.course h.marker h.gw (gapCycles h.gap) (fun th => th.guard h.pg) k joint effect

/-! ### Lane by lane -/

/-- The values of a word's operands in one lane; a queue source pops (R259). Gives what was read, what was popped in all, or the queue that was empty. (log 33, DEDUCED) -/
def State.readOps (s : State) (t : Tid) : List Opd → List Word → List Word → (Option (List (List Word)) × List Word × Nat) × State
  | [], _, taken => ((some [], taken, 0), s)
  | o :: os, have_, taken =>
    if o.use = .wr ∨ o.use = .name then
      let r := s.readOps t os have_ taken
      ((r.1.1.map fun vs => [] :: vs, r.1.2), r.2)
    else
      match o.reg with
      | .q i =>
        (match have_ with
          | w :: rest =>
            let r := s.readOps t os rest (taken ++ [w])
            ((r.1.1.map fun vs => [w] :: vs, r.1.2), r.2)
          | [] =>
            match s.pop t i.val with
            | none => ((none, taken, i.val), s)
            | some (slot, s) =>
              let w := slot.getD 0 0
              let r := s.readOps t os [] (taken ++ [w])
              ((r.1.1.map fun vs => [w] :: vs, r.1.2), r.2))
      | _ =>
        let x := s.readRegs t o.reg 0 o.n
        let r := x.2.readOps t os have_ taken
        ((r.1.1.map fun vs => x.1 :: vs, r.1.2), r.2)

/-- A wait that keeps later lanes of the word behind it: for a queue, or for lock entries that its push needs (R259). -/
def Park.ordered : Park → Bool
  | .queue _ | .locks => true
  | _ => false

/-- Run a word lane by lane, ascending (R6): read the lane's operands, then its effect. A lane that must wait parks, and where it waits for a queue so does every later lane (R259). -/
def State.eachLane (s : State) (ops : List Opd) (f : Tid → List (List Word) → State → State × Option Park) : List Tid → State
  | [] => s
  | t :: ts =>
    if (s.thread? t).isNone then s.eachLane ops f ts
    else
    match s.readOps t ops (s.had t) [] with
    | ((none, popped, q), s) => ts.foldl (fun s u => s.parkLane u (.queue q) (s.had u)) (s.parkLane t (.queue q) popped)
    | ((some vals, popped, _), s) =>
      match f t vals s with
      | (s, none) => s.eachLane ops f ts
      | (s, some why) =>
        let s := s.parkLane t why popped
        if why.ordered then ts.foldl (fun s u => s.parkLane u why (s.had u)) s else s.eachLane ops f ts

/-- Write a result to a destination field: a short or a long write, or a push of one slot (R23, R56, R261). -/
def State.result (s : State) (t : Tid) (long : Bool) (d : Reg) (vals : List Word) : State × Option Park :=
  match d with
  | .q i =>
    (match s.push t i.val vals with
      | some s => (s, none)
      | none => (s, some (.queue i.val)))
  | _ =>
    let regs := destRegs (s.leads t) d 0 vals
    if long then ((s.addLong t true regs d.isS).2, none) else (s.writeRegs t regs, none)

/-- A field pops by name. -/
def Opd.pops (o : Opd) : Bool :=
  match o.reg with
  | .q _ => decide (o.use = .rd)
  | _ => false

/-- A field pops a token queue by name: a point at which pending faults are delivered (R61). -/
def Opd.popsToken (o : Opd) : Bool :=
  match o.reg with
  | .q i => decide (o.use = .rd) && decide (i.val < 32)
  | _ => false

/-- Deliver pending faults before a word that is a delivery point takes effect, at its issue or when a parked lane tries it again without having acted; the lanes that took none go on (R274). -/
def State.deliverIf (s : State) (point : Bool) (act : List Tid) : List Tid × State :=
  match s.cur with
  | some c =>
    if point then
      let r := s.deliverPoint c.pc (act.filter fun t => (c.had t).isEmpty)
      (act.filter fun t => !(c.had t).isEmpty || r.1.contains t, r.2)
    else (act, s)
  | none => (act, s)

/-- The word is a retry. -/
def State.retrying (s : State) : Bool :=
  match s.cur with
  | some c => c.retry
  | none => false

/-- A field is a queue. -/
def Opd.isQ (o : Opd) : Bool := match o.reg with | .q _ => true | _ => false

/-- A field pushes a slot on a team queue by name, which releases at team scope (R261). -/
def Opd.pushes (o : Opd) : Bool := o.isQ && decide (o.use = .wr)

/-- A word reaches its turn at a queue while accesses of its threads wait: a pop of a token behind a fence (R224, R225), or a push, which releases (R215, R261). -/
def State.queueWaits (s : State) (point : Bool) (ops : List Opd) (act : List Tid) : Bool :=
  ((point && s.accessWaits {} act) || (ops.any Opd.pushes && s.accessWaits { releases := true } act)) && !s.retrying

/-- A word with an effect in each lane on its own: operands read, then the effect, lane by lane. Where `hold` says so, or where its turn at a queue has not come, it is held at issue instead. A word that is a `point`, or pops a token by name, delivers pending faults first (R61). A `joint` word, and one that pushes or pops, has effects whose order shows: no lane passes one that waits for a missing segment (R6, R259). -/
def State.byLane (s : State) (h : Hdr) (k : Checks) (f : Tid → List (List Word) → State → State × Option Park)
    (hold : State → List Tid → Bool := fun _ _ => false) (point : Bool := false) (joint : Bool := false) : State :=
  s.word h k (joint := joint || k.ops.any Opd.isQ) fun act s =>
    let point := point || k.ops.any Opd.popsToken
    if (hold s act && !s.retrying) || s.queueWaits point k.ops act then none
    else
      let r := s.deliverIf point act
      some (r.2.eachLane k.ops f r.1)

/-- A word that computes a result from its sources lane by lane; the destination stands first, and is the first operand when it is read. A word that reads a q register is long (R56). -/
def State.compute (s : State) (h : Hdr) (long : Bool) (d : Opd) (srcs : List Opd) (f : List (List Word) → List Word) : State :=
  s.byLane h { ops := d :: srcs } fun t vals s => s.result t (long || srcs.any Opd.pops) d.reg (f vals)

/-- Read every lane's operands before any lane is written (R136). Class 3 words name no queue. -/
def State.gather (s : State) (ops : List Opd) : List Tid → List (Tid × List (List Word)) × State
  | [] => ([], s)
  | t :: ts =>
    match s.readOps t ops [] [] with
    | ((some vals, _, _), s) => let r := s.gather ops ts; ((t, vals) :: r.1, r.2)
    | ((none, _, _), s) => s.gather ops ts

/-- The first word of an operand's value. -/
def val1 (vals : List (List Word)) (i : Nat) : Word := (vals.getD i []).getD 0 0
/-- The 64-bit value of an operand's pair. -/
def val2 (vals : List (List Word)) (i : Nat) : DWord := pairOf ((vals.getD i []).getD 0 0) ((vals.getD i []).getD 1 0)

end Sys2Proof.Machine
end

