-- ==== Sys2Proof/Machine/Flags.lean ====
section
/-! DEFINITION. The machine's flags are its predicates (R62): the conditions that compute them (R115, R123), the truth table of PLOP (R117), and the words that write one predicate a lane (R114). -/

namespace Sys2Proof

/-- ICMP's conditions on two integers (R115). -/
def ICond.holds (c : ICond) (a b : Int) : Bool :=
  match c with
  | .eq => decide (a = b)
  | .ne => decide (a ≠ b)
  | .lt => decide (a < b)
  | .le => decide (a ≤ b)
  | .gt => decide (b < a)
  | .ge => decide (b ≤ a)

/-- FCMP's and DCMP's conditions (R123): −0 equals +0, and a NaN makes all false but ne and uno. -/
def FCond.holds (c : FCond) (a b : Machine.FVal) : Bool :=
  match c, Machine.fOrd a b with
  | .ne, none | .uno, none => true
  | _, none => false
  | .eq, some o => decide (o = .eq)
  | .ne, some o => decide (o ≠ .eq)
  | .lt, some o => decide (o = .lt)
  | .le, some o => decide (o ≠ .gt)
  | .gt, some o => decide (o = .gt)
  | .ge, some o => decide (o ≠ .lt)
  | .ord, some _ => true
  | .uno, some _ => false

end Sys2Proof

namespace Sys2Proof.Machine

/-- PLOP's truth table (R117). -/
def plopValue (tt : BitVec 8) (a b c : Bool) : Bool :=
  tt.getLsbD (4 * a.toNat + 2 * b.toNat + c.toNat)

/-- Write one predicate of a thread (R62). -/
def State.putPred (s : State) (t : Tid) (p : BitVec 3) (b : Bool) : State := s.updThread t fun th => th.setPred p b

/-- A predicate of a thread. -/
def State.predOf (s : State) (t : Tid) (p : BitVec 3) : Bool := s.threadIs t fun th => th.pred p

/-- A word that writes one predicate a lane from its operands (R114). -/
def State.comparing (s : State) (h : Hdr) (p : BitVec 3) (ops : List Opd) (f : List (List Word) → Bool) : State :=
  s.byLane h { ops := ops } fun t vals s => (s.putPred t p (f vals), none)

end Sys2Proof.Machine
end

