-- ==== Sys2Proof/Machine/Integer.lean ====
section
/-! DEFINITION. Class 0: integer arithmetic, logic, shifts, bit fields, compares, selection, moves and address arithmetic (R110 to R119). -/

namespace Sys2Proof.Machine

/-! ### Elements (R110) -/

/-- The unsigned value of an operand's registers. -/
def opdNat (vals : List (List Word)) (i : Nat) : Nat :=
  let v := vals.getD i []
  pairNat (v.getD 0 0) (v.getD 1 0)

/-- Element i of width w. -/
def elem (w v i : Nat) : Nat := v / 2 ^ (w * i) % 2 ^ w

/-- A w-bit value read as signed. -/
def signedOf (w v : Nat) : Int := if 2 ^ (w - 1) ≤ v then (v : Int) - 2 ^ w else v

/-- The least and greatest values of w bits. -/
def rangeOf (signed : Bool) (w : Nat) : Int × Int := if signed then (-(2 ^ (w - 1)), 2 ^ (w - 1) - 1) else (0, 2 ^ w - 1)

/-- Clamp an integer to a range. -/
def clampInt (r : Int × Int) (v : Int) : Int := if v < r.1 then r.1 else if r.2 < v then r.2 else v

/-- Reduce an exact integer to w bits: clamped to the range with SAT, else modulo 2^w (R110). -/
def reduce (signed sat : Bool) (w : Nat) (v : Int) : Nat :=
  ((if sat then clampInt (rangeOf signed w) v else v) % 2 ^ w).toNat

/-- n words of a value, the low one first. -/
def wordsN (n v : Nat) : List Word := (natPair v).take n

/-- An immediate sign-extended to 32 bits (R25). -/
def imm32 (i : BitVec 22) : Word := i.signExtend 32

end Sys2Proof.Machine

namespace Sys2Proof

/-- Element width. -/
def Ty.width : Ty → Nat
  | .u32 | .s32 => 32 | .u64 | .s64 => 64 | .u16x2 | .s16x2 => 16 | .u8x4 | .s8x4 => 8
/-- Element count. -/
def Ty.count : Ty → Nat
  | .u16x2 | .s16x2 => 2 | .u8x4 | .s8x4 => 4 | _ => 1
/-- Registers an operand takes. -/
def Ty.regs (t : Ty) : Nat := if t.is64 then 2 else 1

/-- A w-bit value read by a type's signedness. -/
def Ty.int (t : Ty) (v : Nat) : Int := if t.signed then Machine.signedOf t.width v else v

/-- A type's elements computed one by one, and packed again (R98). -/
def Ty.map (t : Ty) (f : Nat → Nat) : Nat :=
  ((List.range t.count).map fun i => f i % 2 ^ t.width * 2 ^ (t.width * i)).sum

/-- The operand B fields of a class 0 word: a register, or none for an immediate. -/
def IOpd.opds (b : IOpd) (n : Nat) : List Machine.Opd :=
  match b with
  | .reg r => [Machine.Opd.src r n]
  | .imm _ => []

/-- Operand B's value: the third operand read, or the immediate. -/
def IOpd.value (b : IOpd) (vals : List (List Word)) : Nat :=
  match b with
  | .reg _ => Machine.opdNat vals 2
  | .imm i => (Machine.imm32 i).toNat

end Sys2Proof

namespace Sys2Proof.Machine

/-- A class 0 word of two sources: `f` gives each element's exact value from old d, a and b. -/
def State.int3 (s : State) (h : Hdr) (o : I3) (long reads : Bool) (nd nb : Nat) (f : Nat → Nat → Nat → Nat) : State :=
  s.compute h long (if reads then Opd.upd o.d nd else Opd.dst o.d nd) (Opd.src o.a o.ty.regs :: o.b.opds nb) fun vals =>
    wordsN nd (f (opdNat vals 0) (opdNat vals 1) (o.b.value vals))

/-- The elementwise form, with exact integers, reduced by SAT. -/
def State.intElems (s : State) (h : Hdr) (o : I3) (long reads : Bool) (f : Int → Int → Int → Int) : State :=
  let w := o.ty.width
  s.int3 h o long reads o.ty.regs o.ty.regs fun d a b => o.ty.map fun i =>
    reduce o.ty.signed o.sat w (f (o.ty.int (elem w d i)) (o.ty.int (elem w a i)) (o.ty.int (elem w b i)))

/-- The bitwise form. -/
def State.intBits (s : State) (h : Hdr) (o : I3) (f : Nat → Nat → Nat) : State :=
  s.int3 h o false false o.ty.regs o.ty.regs fun _ a b => f a b % 2 ^ (32 * o.ty.regs)

/-- The shifts: the amount is B's element, or B's single register for 64-bit types (R111). -/
def State.intShift (s : State) (h : Hdr) (o : I3) (f : Nat → Nat → Nat → Nat) : State :=
  let w := o.ty.width
  s.int3 h o false false o.ty.regs 1 fun _ a b => o.ty.map fun i =>
    f w (elem w a i) (if o.ty.is64 then b else elem w b i)

/-- A class 0 word of one source. -/
def State.int2 (s : State) (h : Hdr) (o : I2) (nd : Nat) (f : Nat → Nat) : State :=
  s.compute h false (Opd.dst o.d nd) [Opd.src o.a o.ty.regs] fun vals => wordsN nd (f (opdNat vals 1))

def shlBits (w a n : Nat) : Nat := if w ≤ n then 0 else a * 2 ^ n % 2 ^ w
def shrBits (w a n : Nat) : Nat := if w ≤ n then 0 else a / 2 ^ n
def sarBits (w a n : Nat) : Nat := reduce true false w (signedOf w a / 2 ^ (if w ≤ n then w else n))
def rotlBits (w a n : Nat) : Nat := a * 2 ^ (n % w) % 2 ^ w + a / 2 ^ (w - n % w)

/-- 1 bits of a w-bit value. -/
def popcount (w a : Nat) : Nat := ((List.range w).filter fun i => a.testBit i).length
/-- Leading 0 bits of a w-bit value. -/
def leadingZeros (w a : Nat) : Nat := if a = 0 then w else w - 1 - Nat.log2 a
/-- A w-bit value reversed. -/
def bitReverse (w a : Nat) : Nat := ((List.range w).map fun i => if a.testBit i then 2 ^ (w - 1 - i) else 0).sum

/-! ### Arithmetic (R111, R112) -/

/-- IADD: a + b. -/
def execIadd (h : Hdr) (o : I3) (s : State) : Answer := .next (s.intElems h o false false fun _ a b => a + b)
/-- ISUB: a − b. -/
def execIsub (h : Hdr) (o : I3) (s : State) : Answer := .next (s.intElems h o false false fun _ a b => a - b)
/-- IMUL: a × b. -/
def execImul (h : Hdr) (o : I3) (s : State) : Answer := .next (s.intElems h o false false fun _ a b => a * b)
/-- IMULH: the upper half of the product. -/
def execImulh (h : Hdr) (o : I3) (s : State) : Answer :=
  .next (s.intElems h o false false fun _ a b => a * b / 2 ^ o.ty.width)
/-- IMAD: a × b + d. -/
def execImad (h : Hdr) (o : I3) (s : State) : Answer := .next (s.intElems h o false true fun d a b => a * b + d)
/-- IMIN: the lesser. -/
def execImin (h : Hdr) (o : I3) (s : State) : Answer := .next (s.intElems h o false false fun _ a b => if b < a then b else a)
/-- IMAX: the greater. -/
def execImax (h : Hdr) (o : I3) (s : State) : Answer := .next (s.intElems h o false false fun _ a b => if a < b then b else a)
/-- IABS: |a|. -/
def execIabs (h : Hdr) (o : I2) (s : State) : Answer :=
  .next (s.int2 h o o.ty.regs fun a => o.ty.map fun i =>
    reduce o.ty.signed o.sat o.ty.width ((o.ty.int (elem o.ty.width a i)).natAbs : Int))
/-- IMULW: the 64-bit product of 32-bit sources. -/
def execImulw (h : Hdr) (o : I3) (s : State) : Answer :=
  .next (s.int3 h o false false 2 1 fun _ a b => reduce o.ty.signed false 64 (o.ty.int a * o.ty.int b))

/-- A quotient truncated toward zero; all ones when b = 0 (R112). The most negative value over −1 overflows, and reduces as the type does. -/
def idivValue (ty : Ty) (sat : Bool) (a b : Nat) : Nat :=
  if b = 0 then 2 ^ ty.width - 1 else reduce ty.signed sat ty.width ((ty.int a).tdiv (ty.int b))
/-- A remainder with the sign of the dividend; a when b = 0 (R112). -/
def iremValue (ty : Ty) (a b : Nat) : Nat := if b = 0 then a else reduce ty.signed false ty.width ((ty.int a).tmod (ty.int b))

/-- IDIV (R112), a long result. -/
def execIdiv (h : Hdr) (o : I3) (s : State) : Answer :=
  .next (s.int3 h o true false o.ty.regs o.ty.regs fun _ a b => idivValue o.ty o.sat a b)
/-- IREM (R112), a long result. -/
def execIrem (h : Hdr) (o : I3) (s : State) : Answer :=
  .next (s.int3 h o true false o.ty.regs o.ty.regs fun _ a b => iremValue o.ty a b)

/-! ### Logic and shifts (R111) -/

/-- AND. -/
def execIand (h : Hdr) (o : I3) (s : State) : Answer := .next (s.intBits h o fun a b => a &&& b)
/-- OR. -/
def execIor (h : Hdr) (o : I3) (s : State) : Answer := .next (s.intBits h o fun a b => a ||| b)
/-- XOR. -/
def execIxor (h : Hdr) (o : I3) (s : State) : Answer := .next (s.intBits h o fun a b => a ^^^ b)
/-- ANDN: a and not b. -/
def execIandn (h : Hdr) (o : I3) (s : State) : Answer := .next (s.intBits h o fun a b => a ^^^ (a &&& b))
/-- SHL. -/
def execShl (h : Hdr) (o : I3) (s : State) : Answer := .next (s.intShift h o shlBits)
/-- SHR. -/
def execShr (h : Hdr) (o : I3) (s : State) : Answer := .next (s.intShift h o shrBits)
/-- SAR. -/
def execSar (h : Hdr) (o : I3) (s : State) : Answer := .next (s.intShift h o sarBits)
/-- ROTL. -/
def execRotl (h : Hdr) (o : I3) (s : State) : Answer := .next (s.intShift h o rotlBits)
/-- POPC; one register for 64-bit types too. -/
def execPopc (h : Hdr) (o : I2) (s : State) : Answer := .next (s.int2 h o 1 fun a => popcount o.ty.width a)
/-- CLZ; one register for 64-bit types too. -/
def execClz (h : Hdr) (o : I2) (s : State) : Answer := .next (s.int2 h o 1 fun a => leadingZeros o.ty.width a)
/-- BREV. -/
def execBrev (h : Hdr) (o : I2) (s : State) : Answer := .next (s.int2 h o o.ty.regs fun a => bitReverse o.ty.width a)

/-! ### Bit fields (R113) -/

/-- The field of a, extended by the type's signedness. -/
def bfeValue (ty : Ty) (len pos a : Nat) : Nat :=
  let f := a / 2 ^ pos % 2 ^ len
  (if ty.signed then signedOf len f else (f : Int)) % 2 ^ ty.width |>.toNat

/-- d with its field replaced by a's low bits. -/
def bfiValue (w len pos d a : Nat) : Nat :=
  ((List.range w).map fun j =>
    if (if pos ≤ j ∧ j < pos + len then a.testBit (j - pos) else d.testBit j) then 2 ^ j else 0).sum

/-- The position: bits 7:0 of B (R113). -/
def bitPos (vals : List (List Word)) : Nat := (val1 vals 2).toNat % 256

/-- BFE: a position at or above the width gives 0. -/
def execBfe (h : Hdr) (o : BField) (s : State) : Answer :=
  .next (s.compute h false (Opd.dst o.d o.ty.regs) [Opd.src o.a o.ty.regs, Opd.vsk o.b] fun vals =>
    wordsN o.ty.regs (bfeValue o.ty (o.lenM1.toNat + 1) (bitPos vals) (opdNat vals 1)))
/-- BFI: d is read before it is written. -/
def execBfi (h : Hdr) (o : BField) (s : State) : Answer :=
  .next (s.compute h false (Opd.upd o.d o.ty.regs) [Opd.src o.a o.ty.regs, Opd.vsk o.b] fun vals =>
    wordsN o.ty.regs (bfiValue o.ty.width (o.lenM1.toNat + 1) (bitPos vals) (opdNat vals 0) (opdNat vals 1)))

/-! ### Compares and selection (R115 to R117) -/

/-- ICMP. -/
def execIcmp (h : Hdr) (o : ICmp) (s : State) : Answer :=
  .next (s.comparing h o.p [Opd.src o.a o.ty.regs, Opd.src o.b o.ty.regs] fun vals =>
    o.cond.holds (o.ty.int (opdNat vals 0)) (o.ty.int (opdNat vals 1)))

/-- SEL. A word that reads a q register is long (R56). -/
def execSel (h : Hdr) (o : SelF) (s : State) : Answer :=
  let srcs := [Opd.src o.a o.ty.regs, Opd.src o.b o.ty.regs]
  .next (s.byLane h { ops := Opd.dst o.d o.ty.regs :: srcs } fun t vals s =>
    s.result t (srcs.any Opd.pops) o.d (if s.predOf t o.p != o.neg then vals.getD 1 [] else vals.getD 2 []))

/-- PLOP: the sources are read before the write. -/
def execPlop (h : Hdr) (o : PlopF) (s : State) : Answer :=
  .next (s.byLane h {} fun t _ s =>
    (s.putPred t o.pd (plopValue o.tt (s.predOf t o.pa) (s.predOf t o.pb) (s.predOf t o.pc)), none))

/-! ### Moves and address arithmetic (R118, R119) -/

/-- MOV. -/
def execMov (h : Hdr) (o : I2) (s : State) : Answer := .next (s.int2 h o o.ty.regs fun a => a)
/-- MOVI: the immediate sign-extended. -/
def execMovi (h : Hdr) (o : ImmF) (s : State) : Answer :=
  .next (s.compute h false (Opd.dst o.d) [] fun _ => [imm32 o.imm])
/-- MOVHI: the immediate in bits 31:10, bits 9:0 kept. -/
def execMovhi (h : Hdr) (o : ImmF) (s : State) : Answer :=
  .next (s.compute h false (Opd.upd o.d) [] fun vals => [BitVec.ofNat 32 (o.imm.toNat * 1024 + (val1 vals 0).toNat % 1024)])

/-- a + ext(b) × 2^sh modulo 2^64. -/
def aaddValue (signed : Bool) (sh : Nat) (a : DWord) (b : Word) : DWord :=
  a + ((if signed then b.signExtend 64 else b.zeroExtend 64) <<< sh)

/-- AADD. -/
def execAadd (h : Hdr) (o : AaddF) (s : State) : Answer :=
  .next (s.compute h false (Opd.dst o.d 2) (Opd.src o.a 2 :: o.b.opds 1) fun vals =>
    let r := aaddValue o.signed o.sh.toNat (val2 vals 1) (BitVec.ofNat 32 (o.b.value vals))
    [r.lo, r.hi])

end Sys2Proof.Machine
end

