-- ==== Sys2Proof/Machine/Floating.lean ====
section
/-! DEFINITION. Classes 1 and 2: FP32 and packed arithmetic, the elementary functions, FP64 and conversions (R120 to R134). -/

namespace Sys2Proof.Machine

/-! ### Preparing and delivering (R120) -/

/-- The format of a packing's elements. -/
def pkFmt (p : Pk) : Fmt := match p with | .f32 => .fp32 | .bf16x2 => .bf16 | .f16x2 => .fp16
/-- Its elements. -/
def pkCount (p : Pk) : Nat := match p with | .f32 => 1 | _ => 2

/-- Steps 1 and 2 for one operand. -/
def prep (f : Fmt) (ftz abs neg : Bool) (c : Nat) : FVal :=
  let v := f.flushIn ftz (f.val c)
  let v := if abs then v.abs else v
  if neg then v.neg else v

/-- SATF (step 5): NaN, negative values and −0 become +0, and values above 1 become 1. -/
def satf (f : Fmt) (c : Nat) : Nat :=
  match fOrd (f.val c) (.fin false 0 0), fOrd (f.val c) (.fin false 1 0) with
  | some .gt, some .gt => f.round .rne false false (.fin false 1 0 false)
  | some .gt, _ => c
  | _, _ => 0

/-- Steps 3 to 5. -/
def deliver (f : Fmt) (x : FMod) (e : FExact) : Nat :=
  let c := f.round x.rm false x.ftz e
  if x.satf then satf f c else c

/-- The modifiers of operand B. -/
def fmodOf (b : FOpd) : FMod := match b with | .reg _ x => x | .imm _ => FMod.plain
def fopds (b : FOpd) (n : Nat) : List Opd := match b with | .reg r _ => [Opd.src r n] | .imm _ => []
/-- Operand B's bits: the third operand, or the immediate in bits 31:10 (R25). -/
def fopdVal (b : FOpd) (vals : List (List Word)) : Nat :=
  match b with
  | .reg _ _ => opdNat vals 2
  | .imm i => i.toNat * 1024

/-- Elements computed one by one and packed again (R98). -/
def packElems (w n : Nat) (f : Nat → Nat) : Nat := ((List.range n).map fun i => f i % 2 ^ w * 2 ^ (w * i)).sum

/-- A class 1 or 2 word of two sources; `g` gives the exact result of an element from old d, a and b. -/
def State.fp3 (s : State) (h : Hdr) (o : F3) (fmt : Fmt) (n regs : Nat) (long reads : Bool) (g : FMod → FVal → FVal → FVal → FExact) : State :=
  let x := fmodOf o.b
  s.compute h long (if reads then Opd.upd o.d regs else Opd.dst o.d regs) (Opd.src o.a regs :: fopds o.b regs) fun vals =>
    wordsN regs (packElems fmt.w n fun i =>
      deliver fmt x (g x (prep fmt x.ftz false false (elem fmt.w (opdNat vals 0) i))
        (prep fmt x.ftz x.absa x.nega (elem fmt.w (opdNat vals 1) i)) (prep fmt x.ftz x.absb x.negb (elem fmt.w (fopdVal o.b vals) i))))

/-- Class 1 of two sources, by its packing. -/
def State.fp1 (s : State) (h : Hdr) (o : F3) (long reads : Bool) (g : FMod → FVal → FVal → FVal → FExact) : State :=
  let p := (fmodOf o.b).pk
  s.fp3 h o (pkFmt p) (pkCount p) 1 long reads g

/-- Class 2 of two sources. -/
def State.fp2 (s : State) (h : Hdr) (o : F3) (reads : Bool) (g : FMod → FVal → FVal → FVal → FExact) : State :=
  s.fp3 h o .fp64 1 2 true reads g

/-- A word of one source, by a function of its prepared value. -/
def State.fpUnary (s : State) (h : Hdr) (o : F2) (fmt : Fmt) (n regs : Nat) (long : Bool) (g : FVal → Nat) : State :=
  s.compute h long (Opd.dst o.d regs) [Opd.src o.a regs] fun vals =>
    wordsN regs (packElems fmt.w n fun i =>
      g (prep fmt o.x.ftz o.x.absa o.x.nega (elem fmt.w (opdNat vals 1) i)))

/-! ### Class 1 arithmetic (R121, R122) -/


/-- FADD. -/
def execFadd (h : Hdr) (o : F3) (s : State) : Answer := .next (s.fp1 h o false false fun x _ a b => fAdd x.rm a b)
/-- FSUB. -/
def execFsub (h : Hdr) (o : F3) (s : State) : Answer := .next (s.fp1 h o false false fun x _ a b => fAdd x.rm a b.neg)
/-- FMUL. -/
def execFmul (h : Hdr) (o : F3) (s : State) : Answer := .next (s.fp1 h o false false fun _ _ a b => fMul a b)
/-- FFMA: a × b + d, rounded once. -/
def execFfma (h : Hdr) (o : F3) (s : State) : Answer := .next (s.fp1 h o false true fun x d a b => fFma x.rm a b d)
/-- FMIN. -/
def execFmin (h : Hdr) (o : F3) (s : State) : Answer := .next (s.fp1 h o false false fun _ _ a b => (fMin false a b).exact)
/-- FMAX. -/
def execFmax (h : Hdr) (o : F3) (s : State) : Answer := .next (s.fp1 h o false false fun _ _ a b => (fMin true a b).exact)
/-- FDIV, a long result. -/
def execFdiv (h : Hdr) (o : F3) (s : State) : Answer := .next (s.fp1 h o true false fun _ _ a b => fDiv a b)

/-- FCMP (R123). -/
def execFcmp (h : Hdr) (o : FCmpF) (s : State) : Answer :=
  .next (s.comparing h o.p [Opd.src o.a, Opd.src o.b] fun vals =>
    o.cond.holds (prep .fp32 o.ftz false false (opdNat vals 0)) (prep .fp32 o.ftz false false (opdNat vals 1)))

/-- The exact sum of FDOT2 with its zero's sign (log 30, DESIGN CHOICE). -/
def fdot2Exact (rm : Rm) (terms : List FVal) : FExact := sumExact terms (zeroSign rm terms)

/-- FDOT2 (R124): a0 × b0 + a1 × b1 + d, rounded once to FP32. -/
def execFdot2 (h : Hdr) (o : FDotF) (s : State) : Answer :=
  .next (s.compute h false (Opd.upd o.d) [Opd.src o.a, Opd.src o.b] fun vals =>
    let f : Fmt := if o.f16 then .fp16 else .bf16
    let el := fun k i => prep f o.ftz false false (elem 16 (opdNat vals k) i)
    wordsN 1 (Fmt.fp32.round o.rm false o.ftz
      (fdot2Exact o.rm [fMulV (el 1 0) (el 2 0), fMulV (el 1 1) (el 2 1), prep .fp32 o.ftz false false (opdNat vals 0)])))

/-! ### Elementary functions (R125, R126) -/

/-- FRCP: 1/a toward zero, but infinite beyond the FP32 maximum (R125). -/
def frcpCode (ftz : Bool) (a : FVal) : Nat :=
  let e := fDiv (.fin false 1 0) a
  let away := Fmt.fp32.round (if a.sign then .rdn else .rup) false ftz e
  if away % 2 ^ 31 = 0x7F800000 then away else Fmt.fp32.round .rtz false ftz e

/-- FRSQ: 1/√a toward zero, with the special inputs of R125. -/
def frsqCode (ftz : Bool) (a : FVal) : Nat :=
  match a with
  | .nan => Fmt.fp32.nanCode
  | .inf n => if n then Fmt.fp32.nanCode else 0
  | .fin n m e =>
    if m = 0 then Fmt.fp32.code n 0x7F800000
    else if n then Fmt.fp32.nanCode
    else Fmt.fp32.round .rtz false ftz (fRsqrt m e)

/-- SATF where the word asks for it. -/
def satIf (x : FMod) (c : Nat) : Nat := if x.satf then satf .fp32 c else c

/-- FRCP, a long result. -/
def execFrcp (h : Hdr) (o : F2) (s : State) : Answer := .next (s.fpUnary h o .fp32 1 1 true fun a => satIf o.x (frcpCode o.x.ftz a))
/-- FRSQ, a long result. -/
def execFrsq (h : Hdr) (o : F2) (s : State) : Answer := .next (s.fpUnary h o .fp32 1 1 true fun a => satIf o.x (frsqCode o.x.ftz a))
/-- FSQRT, a long result. -/
def execFsqrt (h : Hdr) (o : F2) (s : State) : Answer := .next (s.fpUnary h o .fp32 1 1 true fun a => deliver .fp32 o.x (fSqrt a))
/-- FEXP2, a long result. -/
def execFexp2 (h : Hdr) (o : F2) (s : State) : Answer := .next (s.fpUnary h o .fp32 1 1 true fun a => deliver .fp32 o.x (fExp2 a))
/-- FLOG2, a long result. -/
def execFlog2 (h : Hdr) (o : F2) (s : State) : Answer := .next (s.fpUnary h o .fp32 1 1 true fun a => deliver .fp32 o.x (fLog2 a))
/-- FSINPI, a long result. -/
def execFsinpi (h : Hdr) (o : F2) (s : State) : Answer := .next (s.fpUnary h o .fp32 1 1 true fun a => deliver .fp32 o.x (fSinPi a))
/-- FCOSPI, a long result. -/
def execFcospi (h : Hdr) (o : F2) (s : State) : Answer := .next (s.fpUnary h o .fp32 1 1 true fun a => deliver .fp32 o.x (fCosPi a))

/-- FRINT (R127). -/
def execFrint (h : Hdr) (o : F2) (s : State) : Answer :=
  .next (s.fpUnary h o (pkFmt o.x.pk) (pkCount o.x.pk) 1 false fun a => deliver (pkFmt o.x.pk) o.x (fRint o.x.rm a))
/-- FCLASS (R127). -/
def execFclass (h : Hdr) (o : R2) (s : State) : Answer :=
  .next (s.compute h false (Opd.dst o.d) [Opd.src o.a] fun vals => wordsN 1 (fClass .fp32 (Fmt.fp32.val (opdNat vals 1))))

/-! ### FP64 (R128, R129) -/

/-- DADD. -/
def execDadd (h : Hdr) (o : F3) (s : State) : Answer := .next (s.fp2 h o false fun x _ a b => fAdd x.rm a b)
/-- DSUB. -/
def execDsub (h : Hdr) (o : F3) (s : State) : Answer := .next (s.fp2 h o false fun x _ a b => fAdd x.rm a b.neg)
/-- DMUL. -/
def execDmul (h : Hdr) (o : F3) (s : State) : Answer := .next (s.fp2 h o false fun _ _ a b => fMul a b)
/-- DFMA: a × b + d. -/
def execDfma (h : Hdr) (o : F3) (s : State) : Answer := .next (s.fp2 h o true fun x d a b => fFma x.rm a b d)
/-- DMIN. -/
def execDmin (h : Hdr) (o : F3) (s : State) : Answer := .next (s.fp2 h o false fun _ _ a b => (fMin false a b).exact)
/-- DMAX. -/
def execDmax (h : Hdr) (o : F3) (s : State) : Answer := .next (s.fp2 h o false fun _ _ a b => (fMin true a b).exact)
/-- DDIV. -/
def execDdiv (h : Hdr) (o : F3) (s : State) : Answer := .next (s.fp2 h o false fun _ _ a b => fDiv a b)
/-- DSQRT. -/
def execDsqrt (h : Hdr) (o : F2) (s : State) : Answer := .next (s.fpUnary h o .fp64 1 2 true fun a => deliver .fp64 o.x (fSqrt a))
/-- DCMP. -/
def execDcmp (h : Hdr) (o : FCmpF) (s : State) : Answer :=
  .next (s.comparing h o.p [Opd.src o.a 2, Opd.src o.b 2] fun vals =>
    o.cond.holds (prep .fp64 o.ftz false false (opdNat vals 0)) (prep .fp64 o.ftz false false (opdNat vals 1)))

/-! ### Conversions (R130 to R134) -/

/-- The format of a floating code. -/
def cvtFmt (c : Cvt) : Option Fmt :=
  match c with
  | .f32 => some .fp32 | .bf16 => some .bf16 | .f16 => some .fp16 | .f64 => some .fp64
  | _ => none
/-- Width and signedness of an integer code. -/
def cvtInt (c : Cvt) : Nat × Bool :=
  match c with
  | .s32 => (32, true) | .u32 => (32, false) | .s64 => (64, true) | _ => (64, false)
/-- Registers of a code. -/
def cvtRegs (c : Cvt) : Nat :=
  match c with
  | .s64 | .u64 | .f64 => 2
  | _ => 1
/-- The integer of an integer code. -/
def cvtIntVal (c : Cvt) (v : Nat) : Int :=
  let r := cvtInt c
  if r.2 then signedOf r.1 (v % 2 ^ r.1) else (v % 2 ^ r.1 : Nat)

/-- A conversion's result (R131). -/
def cvtValue (dst src : Cvt) (sat : Bool) (rm : Rm) (v : Nat) : Nat :=
  match cvtFmt dst, cvtFmt src with
  | some d, some f => d.round rm sat false (f.val v).exact
  | some d, none => d.round rm sat false (FVal.ofInt (cvtIntVal src v)).exact
  | none, some f =>
    let r := cvtInt dst
    let g := rangeOf r.2 r.1
    reduce r.2 false r.1 (fToInt rm g.1 g.2 (f.val v))
  | none, none =>
    let r := cvtInt dst
    reduce r.2 sat r.1 (cvtIntVal src v)

/-- The same code on both sides leaves the value unchanged but for a NaN (R131). -/
def cvtResult (dst src : Cvt) (sat : Bool) (rm : Rm) (v : Nat) : Nat :=
  if dst = src then
    match cvtFmt dst with
    | some f => let c := v % 2 ^ f.w; if (f.val c).isNan then f.nanCode else c
    | none => v % 2 ^ (cvtInt dst).1
  else cvtValue dst src sat rm v

/-- CVT. -/
def execCvt (h : Hdr) (o : CvtF) (s : State) : Answer :=
  .next (s.compute h true (Opd.dst o.d (cvtRegs o.dst)) [Opd.src o.a (cvtRegs o.src)] fun vals =>
    wordsN (cvtRegs o.dst) (cvtResult o.dst o.src o.sat o.rm (opdNat vals 1)))
/-- CVTD. -/
def execCvtd (h : Hdr) (o : CvtF) (s : State) : Answer :=
  .next (s.compute h true (Opd.dst o.d (cvtRegs o.dst)) [Opd.src o.a (cvtRegs o.src)] fun vals =>
    wordsN (cvtRegs o.dst) (cvtResult o.dst o.src o.sat o.rm (opdNat vals 1)))

/-- A narrow element format: floating, or an integer of 8 bits. -/
inductive NFmt where
  | fp (f : Fmt)
  | int8 (signed : Bool)
  deriving DecidableEq, Repr

/-- The element format of a code of R95 with its binary8 parameters. -/
def nfmt (code prec read : Nat) (uns : Bool) : NFmt :=
  match code with
  | 0 => .fp .fp32 | 1 => .fp .bf16 | 2 => .fp .fp16 | 3 => .fp (.binary8 prec read uns) | 4 => .fp .e2m1
  | 5 => .int8 true | 6 => .int8 false | 8 => .fp .e4m3 | _ => .fp .e5m2

/-- An element's exact value. -/
def NFmt.val (f : NFmt) (c : Nat) : FVal :=
  match f with
  | .fp g => g.val c
  | .int8 sg => FVal.ofInt (if sg then signedOf 8 (c % 256) else (c % 256 : Nat))

/-- Convert an exact value to an element (R102 to R105). -/
def NFmt.convert (f : NFmt) (rm : Rm) (sat : Bool) (v : FVal) : Nat :=
  match f with
  | .fp g => g.round rm sat false v.exact
  | .int8 sg => let r := rangeOf sg 8; reduce sg false 8 (fToInt rm r.1 r.2 v)

/-- Precision, reading and variant as R107 and R132 allow them for a code. -/
def formatFields (code prec read : Nat) (uns : Bool) : Bool :=
  if code = 3 then decide (1 ≤ prec ∧ prec ≤ 7 ∧ read ≠ 3) else decide (prec = 0 ∧ read = 0) && !uns

/-- CVTQ's and MXQ's format fields are valid (R132, R134). -/
def QFmtF.valid (o : QFmtF) (mx : Bool) : Bool :=
  let c := o.fmt.toNat
  (if mx then decide (c = 3 ∨ c = 4)
   else decide (3 ≤ c ∧ c ≤ 9 ∧ c ≠ 7) && (o.widen || decide (c < 8))) &&
  formatFields c o.prec.toNat o.read.toNat o.uns

/-- The element format a word names. -/
def QFmtF.nf (o : QFmtF) : NFmt := nfmt o.fmt.toNat o.prec.toNat o.read.toNat o.uns

/-- CVTQ (R132, R133). -/
def execCvtq (h : Hdr) (o : QFmtF) (s : State) : Answer :=
  let n := if o.fmt = 4 then 8 else 4
  let eb := 32 / n
  let opds := if o.widen then [{ Opd.dst o.d with n := n }, Opd.src o.a] else [Opd.dst o.d, { Opd.src o.a with n := n }]
  .next (s.word h { ops := opds } (joint := opds.any Opd.isQ) fun act s =>
    if !QFmtF.valid o false then some (s.trapAll act fcFormatInvalid)
    else if s.queueWaits (opds.any Opd.popsToken) opds act then none
    else
      let r := s.deliverIf (opds.any Opd.popsToken) act
      some (r.2.eachLane opds (fun t vals s =>
        s.result t true o.d
          (if o.widen then (List.range n).map fun i =>
              BitVec.ofNat 32 (Fmt.fp32.round .rne false false ((QFmtF.nf o).val (elem eb (val1 vals 1).toNat i)).exact)
           else [BitVec.ofNat 32 (packElems eb n fun i =>
              (QFmtF.nf o).convert o.rm o.sat (Fmt.fp32.val ((vals.getD 1 []).getD i 0).toNat))])) r.1))

/-- ⌊log2⌋ of a finite nonzero magnitude. -/
def floorLog2 (m : Nat) (e : Int) : Int := (Nat.log2 m : Int) + e

/-- The magnitude of the greatest of some values, none of them a NaN; infinite as none. -/
def maxMag (vs : List FVal) : FVal := vs.foldl (fun m v => fMin true m v.abs) (.fin false 0 0)

/-- MXQ's shared scale byte for a block's active values (R134). -/
def mxScale (f : Fmt) (vs : List FVal) : Nat :=
  if vs.any FVal.isNan then 0xFF
  else
    let emax : Int := match f.val f.maxMag with | .fin _ m e => floorLog2 m e | _ => 0
    match maxMag vs with
    | .inf _ => 254
    | .fin _ m e => if m = 0 then 0 else (clampInt (-127, 127) (floorLog2 m e - emax) + 127).toNat
    | .nan => 0xFF

/-- A value times 2^k. -/
def FVal.scale (v : FVal) (k : Int) : FVal :=
  match v with
  | .fin n m e => .fin n m (e + k)
  | _ => v

/-- One lane's MXQ word: the element code, with the scale in bits 15:8. -/
def mxWord (f : Fmt) (rm : Rm) (sc : Nat) (v : FVal) : Word :=
  let q := if sc = 0xFF then f.nanCode else f.round rm true false (v.scale (127 - (sc : Int))).exact
  BitVec.ofNat 32 (q + 256 * sc)

/-- How many operands pop. -/
def popCount (ops : List Opd) : Nat := (ops.filter Opd.pops).length

/-- Read the operands of all lanes of a word that combines them; a lane whose queue is empty stops the reading (R259). -/
def State.readAll (s : State) (ops : List Opd) : List (Tid × List Word) → List (Tid × List (List Word) × List Word) × Option Nat × State
  | [] => ([], none, s)
  | (t, had) :: ts =>
    match s.readOps t ops had [] with
    | ((some vals, popped, _), s) => let r := s.readAll ops ts; ((t, vals, popped) :: r.1, r.2)
    | ((none, popped, q), s) => ([(t, [], popped)], some q, s)

/-- Write the results of a word that combines its lanes, in ascending order; a lane whose push finds no room parks with its result at hand, and so do the later ones (R259). -/
def State.putAll (s : State) (d : Reg) (n : Nat) : List (Tid × Word) → State
  | [] => s
  | (t, w) :: rs =>
    match s.result t true d [w] with
    | (s, none) => s.putAll d n rs
    | (s, some why) => ((t, w) :: rs).foldl (fun s x => s.parkLane x.1 why (List.replicate n 0 ++ [x.2])) s

/-- A word that combines the lanes of its set and may pop and push (R259, R23): it takes effect once every lane has its values, and lanes wait together for a queue. (log 36, DEDUCED) -/
def State.together (s : State) (ops : List Opd) (d : Reg) (act : List Tid) (f : List (Tid × List (List Word)) → List (Tid × Word)) : State :=
  let n := popCount ops
  let ready := act.filter fun t => decide (n < (s.had t).length)
  if !ready.isEmpty then s.putAll d n (ready.map fun t => (t, (s.had t).getD n 0))
  else
    let r := s.readAll ops (act.map fun t => (t, s.had t))
    match r.2.1 with
    | none => r.2.2.putAll d n (f (r.1.map fun x => (x.1, x.2.1)))
    | some q =>
      act.foldl (fun s t =>
        let had := match r.1.find? fun x => decide (x.1 = t) with
          | some x => x.2.2
          | none => s.had t
        s.parkLane t (.queue q) had true) r.2.2

/-- MXQ (R134): blocks are lanes 0–31 and 32–63 of each group. -/
def execMxq (h : Hdr) (o : QFmtF) (s : State) : Answer :=
  let opds := [Opd.dst o.d, Opd.src o.a]
  .next (s.word h { ops := opds } fun act s =>
    if !QFmtF.valid o true then some (s.trapAll act fcFormatInvalid)
    else if s.queueWaits (opds.any Opd.popsToken) opds act then none
    else
      let f : Fmt := match QFmtF.nf o with | .fp f => f | .int8 _ => .e2m1
      let r := s.deliverIf (opds.any Opd.popsToken) act
      some (r.2.together opds o.d r.1 fun lanes =>
        let vals := lanes.map fun x => (x.1, Fmt.fp32.val (val1 x.2 1).toNat)
        vals.map fun x =>
          let block := (vals.filter fun y => decide (y.1.group = x.1.group ∧ y.1.lane / 32 = x.1.lane / 32)).map fun y => y.2
          (x.1, mxWord f o.rm (mxScale f block) x.2)))

end Sys2Proof.Machine
end

