-- ==== Sys2Proof/Machine/Lanes.lean ====
section
/-! DEFINITION. Class 3: instructions across the lanes of one group (R135 to R141, R109), and the counter-based generator (R337, R338, R344). -/

namespace Sys2Proof.Machine

/-- The values that the active lanes read, by ascending lane. -/
abbrev LaneVals := List (Tid × List (List Word))

/-- A class 3 word: every source lane is read before any lane is written (R136), and `f` gives a lane's results by destination. Every result is long. -/
def State.cross (s : State) (h : Hdr) (ops : List Opd) (f : State → LaneVals → Tid → List (List Word) → List (Reg × List Word)) : State :=
  s.word h { ops := ops } fun act s =>
    let g := s.gather ops act
    some (g.1.foldl (fun s x =>
      let out := f g.2 g.1 x.1 x.2
      (s.addLong x.1 true (out.flatMap fun r => destRegs (s.leads x.1) r.1 0 r.2) (out.any fun r => r.1.isS)).2) g.2)

/-- A class 3 word whose result is a predicate, the same in every lane (R138). -/
def State.crossPred (s : State) (h : Hdr) (ops : List Opd) (p : BitVec 3) (f : State → LaneVals → Bool) : State :=
  s.word h { ops := ops } fun act s =>
    let g := s.gather ops act
    some (g.1.foldl (fun s x => s.putPred x.1 p (f g.2 g.1)) g.2)

/-- The value of a lane among the active ones. -/
def laneVal (vs : LaneVals) (l i : Nat) : Option (List Word) :=
  (vs.find? fun x => decide (x.1.lane = l)).map fun x => x.2.getD i []

/-! ### SHFL (R137) -/

/-- The source lane of SHFL, if there is one. -/
def shflLane (mode : ShMode) (w l c : Nat) : Option Nat :=
  let base := l - l % w
  match mode with
  | .idx => some (base + c % w)
  | .up => if l < base + c then none else some (l - c)
  | .down => if base + w ≤ l + c then none else some (l + c)
  | .xor => some (l ^^^ (c % w))

/-- SHFL. -/
def execShfl (h : Hdr) (o : ShflF) (s : State) : Answer :=
  let n := if o.wide then 2 else 1
  let b := match o.b with | .reg r => [Opd.vsk r] | .imm _ => []
  .next (s.cross h (Opd.dv o.d n :: Opd.vsk o.a n :: b) fun _ vs t vals =>
    let c := match o.b with | .reg _ => (val1 vals 2).toNat % 64 | .imm i => i.toNat
    let own := vals.getD 1 []
    [(o.d, match shflLane o.mode (2 ^ o.lw.val) t.lane c with
      | some l => (laneVal vs l 1).getD own
      | none => own)])

/-! ### VOTE and MATCH (R138, R141) -/

/-- t[L] of VOTE. -/
def voteBit (s : State) (ps : BitVec 3) (neg : Bool) (t : Tid) : Bool := s.predOf t ps != neg

/-- VOTE.all. -/
def execVoteAll (h : Hdr) (o : VoteF) (s : State) : Answer :=
  .next (s.crossPred h [] o.p fun s vs => vs.all fun x => voteBit s o.ps o.neg x.1)
/-- VOTE.any. -/
def execVoteAny (h : Hdr) (o : VoteF) (s : State) : Answer :=
  .next (s.crossPred h [] o.p fun s vs => vs.any fun x => voteBit s o.ps o.neg x.1)

/-- A lane map of the active lanes that satisfy a test. -/
def laneMapOf (vs : LaneVals) (p : Tid → List (List Word) → Bool) : DWord :=
  vs.foldl (fun m x => if p x.1 x.2 then m ||| laneBit x.1.lane else m) 0

/-- VOTE.bal. -/
def execVoteBal (h : Hdr) (o : BalF) (s : State) : Answer :=
  .next (s.cross h [Opd.dvs o.d 2] fun s vs _ _ =>
    let m := laneMapOf vs fun t _ => voteBit s o.ps o.neg t
    [(o.d, [m.lo, m.hi])])
/-- VOTE.eq. -/
def execVoteEq (h : Hdr) (o : VEqF) (s : State) : Answer :=
  .next (s.crossPred h [Opd.vsk o.a (if o.wide then 2 else 1)] o.p fun _ vs =>
    match vs with
    | [] => true
    | x :: xs => xs.all fun y => decide (y.2.getD 0 [] = x.2.getD 0 []))
/-- MATCH. -/
def execMatchLanes (h : Hdr) (o : MatchF) (s : State) : Answer :=
  .next (s.cross h [Opd.dv o.d 2, Opd.vsk o.a (if o.wide then 2 else 1)] fun _ vs _ vals =>
    let m := laneMapOf vs fun _ v => decide (v.getD 1 [] = vals.getD 1 [])
    [(o.d, [m.lo, m.hi])])

/-! ### GRED and GSCAN (R139, R109) -/

/-- An operation's combination of two values. -/
def gop (op : GOp) (a b : Nat) : Nat :=
  match op with
  | .fadd => Fmt.fp32.add a b
  | .fmin => Fmt.fp32.minmax false a b
  | .fmax => Fmt.fp32.minmax true a b
  | .iadd => (a + b) % 2 ^ 32
  | .smin => if signedOf 32 b < signedOf 32 a then b else a
  | .smax => if signedOf 32 a < signedOf 32 b then b else a
  | .umin => Nat.min a b
  | .umax => Nat.max a b
  | .and => a &&& b
  | .or => a ||| b
  | .xor => a ^^^ b
  | .dadd => Fmt.fp64.add a b

/-- An operation's identity. -/
def gopIdentity : GOp → Nat
  | .fadd => 0x80000000
  | .fmin => 0x7F800000
  | .fmax => 0xFF800000
  | .iadd | .umax | .or | .xor => 0
  | .smin => 0x7FFFFFFF
  | .smax => 0x80000000
  | .umin | .and => 0xFFFFFFFF
  | .dadd => 0x8000000000000000

/-- Registers an operation's values take. -/
def gopRegs : GOp → Nat
  | .dadd => 2
  | _ => 1

/-- One level of the tree: neighbours are combined, left first. -/
def treeLevel (f : Nat → Nat → Nat) : List Nat → List Nat
  | a :: b :: xs => f a b :: treeLevel f xs
  | xs => xs

/-- The root after k levels. -/
def treeRoot (f : Nat → Nat → Nat) : Nat → List Nat → Nat
  | 0, xs => xs.getD 0 0
  | k + 1, xs => treeRoot f k (treeLevel f xs)

/-- One level of the inclusive scan at distance d. -/
def scanLevel (f : Nat → Nat → Nat) (xs : List Nat) (d : Nat) : List Nat :=
  xs.zipIdx.map fun x => if d ≤ x.2 then f (xs.getD (x.2 - d) 0) x.1 else x.1

/-- The 64 values that enter: an inactive lane's is the identity. -/
def entering (op : GOp) (vs : LaneVals) : List Nat :=
  (List.range 64).map fun l => match laneVal vs l 1 with
    | some v => pairNat (v.getD 0 0) (v.getD 1 0)
    | none => gopIdentity op

/-- GRED: the tree root, in every active lane. -/
def execGred (h : Hdr) (o : GredF) (s : State) : Answer :=
  let n := gopRegs o.op
  .next (s.cross h [Opd.dvs o.d n, Opd.vsk o.a n] fun _ vs _ _ =>
    [(o.d, wordsN n (treeRoot (gop o.op) 6 (entering o.op vs)))])
/-- GSCAN: the inclusive prefix. No level combines lane 0, which keeps the bits that it had, a NaN's among them. (log 80, DEDUCED) -/
def execGscan (h : Hdr) (o : GredF) (s : State) : Answer :=
  let n := gopRegs o.op
  .next (s.cross h [Opd.dv o.d n, Opd.vsk o.a n] fun _ vs t _ =>
    [(o.d, wordsN n (([1, 2, 4, 8, 16, 32].foldl (scanLevel (gop o.op)) (entering o.op vs)).getD t.lane 0))])

/-! ### TOPK (R140) -/

/-- A value of TOPK's type is zero. -/
def topkZero (ty : TkTy) (v : Nat) : Bool :=
  match ty with
  | .f32 => decide (v % 2 ^ 31 = 0)
  | _ => decide (v = 0)

/-- a stands strictly above b by value; every NaN lies below all numbers. -/
def topkAbove (ty : TkTy) (a b : Nat) : Bool :=
  match ty with
  | .f32 =>
    let x := Fmt.fp32.val a
    let y := Fmt.fp32.val b
    (match fOrd x y with | some o => decide (o = .gt) | none => !x.isNan && y.isNan)
  | .s32 => decide (signedOf 32 b < signedOf 32 a)
  | .u32 => decide (b < a)

/-- The candidates as lane and value. -/
def topkCand (o : TopkF) (vs : LaneVals) : List (Nat × Nat) :=
  (vs.map fun x => (x.1.lane, (val1 x.2 1).toNat)).filter fun x => !(o.nz && topkZero o.ty x.2)

/-- A candidate's position: how many stand above it, ties to the lower lane. -/
def topkRank (ty : TkTy) (cand : List (Nat × Nat)) (x : Nat × Nat) : Nat :=
  (cand.filter fun y => topkAbove ty y.2 x.2 || (!topkAbove ty x.2 y.2 && decide (y.1 < x.1))).length

/-- TOPK. B is the count's s register. -/
def execTopk (h : Hdr) (o : TopkF) (s : State) : Answer :=
  let cnt : Opd := { reg := o.b, use := .wr, v := false, h := false, s := true }
  .next (s.cross h [Opd.dv o.d, { reg := o.a }, cnt] fun _ vs t _ =>
    let cand := topkCand o vs
    let n := Nat.min o.k.toNat cand.length
    let d : Nat := match cand.find? fun x => decide (x.1 = t.lane) with
      | some x => let r := topkRank o.ty cand x; if r < n then r else 0xFFFFFFFF
      | none => 0xFFFFFFFF
    [(o.d, [BitVec.ofNat 32 d]), (o.b, [BitVec.ofNat 32 n])])

/-! ### The generator (R337, R338) -/

/-- One round of Philox4x32. -/
def philoxRound (k : Nat × Nat) (c : Nat × Nat × Nat × Nat) : Nat × Nat × Nat × Nat :=
  let p0 := 0xD2511F53 * c.1
  let p1 := 0xCD9E8D57 * c.2.2.1
  ((p1 / 2 ^ 32) ^^^ c.2.1 ^^^ k.1, p1 % 2 ^ 32, (p0 / 2 ^ 32) ^^^ c.2.2.2 ^^^ k.2, p0 % 2 ^ 32)

/-- n rounds, the key stepped after each. -/
def philoxFrom : Nat → Nat × Nat → Nat × Nat × Nat × Nat → Nat × Nat × Nat × Nat
  | 0, _, c => c
  | n + 1, k, c => philoxFrom n ((k.1 + 0x9E3779B9) % 2 ^ 32, (k.2 + 0xBB67AE85) % 2 ^ 32) (philoxRound k c)

/-- Philox4x32-10 of a seed, an index and a stream. -/
def philox (seed index stream : Nat) : List Word :=
  let r := philoxFrom 10 (seed % 2 ^ 32, seed / 2 ^ 32 % 2 ^ 32)
    (index % 2 ^ 32, index / 2 ^ 32 % 2 ^ 32, stream % 2 ^ 32, stream / 2 ^ 32 % 2 ^ 32)
  [r.1, r.2.1, r.2.2.1, r.2.2.2].map (BitVec.ofNat 32)

/-- A draw outside the launch's reservation (R344). -/
def drawOutside (d : KDesc) (index stream : Nat) : Bool :=
  decide (d.scount ≠ 0) &&
  !(decide (d.stream ≤ stream ∧ stream < d.stream + d.scount) && (decide (d.drawlim = 0) || decide (index < d.drawlim)))

/-- The launch seed of a thread's team (R340). -/
def State.seedOf (s : State) (t : Tid) : DWord := match s.team? t.team with | some tm => (s.launchOf tm).seed | none => 0

/-- RND. -/
def execRnd (h : Hdr) (o : R3) (s : State) : Answer :=
  let ops := [Opd.dv o.d 4, Opd.vsk o.a 2, Opd.vsk o.b 2]
  .next (s.word h { ops := ops } fun act s =>
    let g := s.gather ops act
    some (g.1.foldl (fun s x =>
      let index := (val2 x.2 1).toNat
      let stream := (val2 x.2 2).toNat
      let out := match s.team? x.1.team with | some tm => drawOutside (s.descOf tm) index stream | none => false
      let s := match s.cur with | some c => if out then s.pipeEvent c 0x11 1 else s | none => s
      (s.result x.1 true o.d (philox (s.seedOf x.1).toNat index stream)).1) g.2))

/-- RNDU: bits 31:8 times 2^−24, exact. -/
def rnduValue (a : Nat) : Nat := Fmt.fp32.round .rne false false (.fin false (a / 256) (-24) false)

/-- RNDU. -/
def execRndu (h : Hdr) (o : R2) (s : State) : Answer :=
  .next (s.cross h [Opd.dvs o.d, Opd.vsk o.a] fun _ _ _ vals => [(o.d, [BitVec.ofNat 32 (rnduValue (val1 vals 1).toNat)])])

/-- SEEDR. -/
def execSeedr (h : Hdr) (d : Reg) (s : State) : Answer :=
  .next (s.cross h [Opd.dvs d 2] fun s _ t _ => let k := s.seedOf t; [(d, [k.lo, k.hi])])

end Sys2Proof.Machine
end

