-- ==== Sys2Proof/Machine/Memory.lean ====
section
/-! DEFINITION. Class 4 on global memory: loads, stores, gathers, scatters, atomics and sequenced reductions (R236 to R256), SIGW (R244, R245), FENCE, PREF and CMAINT (R223 to R228), and the waves of deterministic mode for global atomics (R346). -/

namespace Sys2Proof.Machine

/-! ### Shared steps -/

/-- Who a thread's access is made by. -/
def State.who (s : State) (t : Tid) : Who :=
  match s.team? t.team with
  | some tm => { core := tm.core, ctx := tm.ctx, team := tm.key, thread := 64 * t.group + t.lane }
  | none => { core := 0, ctx := 0, team := t.team, thread := 0 }

/-- The kernel descriptor of a thread's team. -/
def State.descOfTid (s : State) (t : Tid) : KDesc := match s.team? t.team with | some tm => s.descOf tm | none => {}

/-- The effective address (R236). -/
def effAddr (vals : List (List Word)) (i : Nat) (off : BitVec 11) (w : Nat) : Nat :=
  (val2 vals i + off.signExtend 64 * BitVec.ofNat 64 w).toNat

/-- A lane's access has failed: MEM_UE of returned data is taken before the next word (R234), any other fault at the word. -/
def State.laneTrap (s : State) (t : Tid) (code addr : Nat) (data : Bool) : State :=
  match s.cur with
  | some c =>
    if data && decide (code = fcMemUe) then
      s.takeFault t { code := code, fpc := c.pc, rpc := c.pc + 8, addr := BitVec.ofNat 64 addr, word := c.word }
    else s.trap t code addr
  | none => s

/-- A fault that a thread will take at its next synchronising point, from an access of the current word (R61, R274). -/
def State.laterFault (s : State) (t : Tid) (code cause addr engine : Nat) (cmd : List Word) : State :=
  match s.cur with
  | some c =>
    let f := s.fresh
    f.2.asyncFault t { code := code, cause := cause, engine := engine, fpc := c.pc, rpc := c.pc, addr := BitVec.ofNat 64 addr,
                       word := c.word, cmd := cmd, age := f.1 }
  | none => s

/-- A twin copy's commit buffer is past its 64 KiB: both copies are killed, with a record (R351). -/
def State.checkCommit (s : State) (team : Nat) : State :=
  match s.team? team with
  | none => s
  | some tm =>
    if 65536 < commitSize tm.commit then (s.errorRecord tm fcTwinOverflow fcTwinOverflow 0 0 0).killTeam team fcTwinOverflow
    else s

/-- What an access of an order and scope acquires (R209, R215). -/
def acqOf (o : MOrd) (c : Sco) : Acq :=
  if o.acquires then (if 3 ≤ c.rank then .wide (decide (o = .sc)) else .narrow (decide (o = .sc))) else .none

/-- What an access of an order and scope does in memory order; an SC access releases too (R215). -/
def ordOf (o : MOrd) (c : Sco) (writes : Bool) (reads : Bool := true) : MemOrder :=
  { reads := reads, writes := writes, releases := o.releases, system := decide (c = .system) }

/-- An acquire or SC access of an issue number that may not have been performed: what follows comes after it (R215), and after every earlier access for an SC access at module or system scope, which acts as a FENCE.sc before and after itself and discards fetched words (R220, R17). A UN page's access is plain. -/
def State.ordered (s : State) (t : Tid) (o : MOrd) (c : Sco) (p : Place) (n : Nat) : State :=
  if !o.acquires || (!p.pool && match s.team? t.team with | some tm => (s.peek tm.ctx p.addr).any fun x => decide (leafOrd x.leaf = 2) | none => false) then s
  else
    let s := if o = .sc then s.updThread t fun th => { th with floor := max th.floor th.seen } else s
    if decide (o = .sc) && decide (5 ≤ c.rank) then
      (s.fencedBy t c.rank).fenced t { age := s.nextId, writes := false, reds := true, remote := decide (c = .system) }
    else s.fenced t { age := s.nextId, writes := false, reds := true, remote := false, own := some n }

/-- The thread's team runs as a twin copy (R350). -/
def State.twinTid (s : State) (t : Tid) : Bool := match s.team? t.team with | some tm => s.isTwin tm | none => false

/-- Bytes of n registers' words, cut to w bytes. -/
def dataBytes (ws : List Word) (w : Nat) : List Byte := (bytesOf ws).take w

/-! ### LD and ST (R238, R239) -/

/-- Give a waiting long result its values, counted from its first register. -/
def State.giveLong (s : State) (t : Tid) (id : Nat) (d : Reg) (vals : List Word) : State :=
  let base := match Reg.file? d 0 with | some (_, i) => i | none => 0
  s.updThread t fun th =>
    { th with longs := th.longs.map fun l =>
        if l.id = id then { l with ready := true, regs := l.regs.map fun x => { x with val := vals.getD (x.idx - base) 0 } } else l }

/-- A fault found when a word is applied or an access performed after its issue: its destination is not written, and the thread takes it before any later word. -/
def State.lateFault (s : State) (t : Tid) (pc word : DWord) (long code addr : Nat) : State :=
  let s := s.updThread t fun th => { th with longs := th.longs.filter fun l => decide (l.id ≠ long) }
  match s.thread? t with
  | none => s
  | some th =>
    let rpc := match th.pend with | some p => p.pc | none => th.pc
    s.takeFault t { code := code, fpc := pc, rpc := rpc, addr := BitVec.ofNat 64 addr, word := word }

/-! ### Accesses, at issue or after a wait (R225) -/

/-- A lane's access: its thread and word, and its issue number when it is performed after a wait, which is its long result's too. -/
structure Acc where
  tid : Tid
  pc : DWord
  word : DWord
  late : Option Nat := none

/-- The access that a lane of the current word makes. -/
def State.accOf (s : State) (t : Tid) : Acc :=
  match s.cur with
  | some c => { tid := t, pc := c.pc, word := c.word }
  | none => { tid := t, pc := 0, word := 0 }

/-- An access gives its result, a long one. -/
def State.accGive (s : State) (a : Acc) (d : Reg) (vals : List Word) : State :=
  match a.late with
  | none => (s.result a.tid true d vals).1
  | some n => s.giveLong a.tid n d vals

/-- An access fails; `data` for an uncorrectable error in the data that it returns. -/
def State.accFail (s : State) (a : Acc) (code addr : Nat) (data : Bool) : State :=
  match a.late with
  | none => s.laneTrap a.tid code addr data
  | some n => s.lateFault a.tid a.pc a.word n code addr

/-- A fault that an access leaves for its thread's next synchronising point (R61, R274). -/
def State.accLater (s : State) (a : Acc) (code cause addr : Nat) : State :=
  match a.late with
  | none => s.laterFault a.tid code cause addr 0 []
  | some n =>
    s.asyncFault a.tid { code := code, cause := cause, fpc := a.pc, rpc := a.pc, addr := BitVec.ofNat 64 addr, word := a.word, age := n }

/-- An access is performed at issue: what its order and scope put behind it (R215, R220). -/
def State.accDone (s : State) (a : Acc) (o : MOrd) (c : Sco) (p : Place) : State :=
  if a.late.isNone then s.ordered a.tid o c p s.nextId else s

/-- The long result that a lane's waiting word will give; a word that gives none leaves only its number. -/
def State.waitLong (s : State) (t : Tid) (regs : List LReg) (shared : Bool) : Nat × State :=
  if regs.isEmpty && !shared then let f := s.fresh; (f.1, f.2) else s.addLong t false regs shared

/-- The registers of a result that is not known yet. -/
def State.waitingRegs (s : State) (t : Tid) (d : Reg) (n : Nat) : List LReg :=
  let lead := s.leads t
  destRegs lead d 0 (List.replicate n 0)

/-- The current word's waiting word for a lane. -/
def State.waitingOp (s : State) (t : Tid) (n wave : Nat) (ord : MemOrder) (place : Place) (vals : List (List Word)) : WaveOp :=
  let a := s.accOf t
  { wave := wave, tid := t, long := n, pc := a.pc, word := a.word, vals := vals, age := n, place := some place, ord := ord,
    marks := s.marksOf t }

/-- What one lane's access is: its order and place, the destination and its registers if it gives a result, its own order and scope, and the operand values. -/
structure LaneAcc where
  mo : MemOrder
  place : Place
  dest : Option (Reg × Nat) := none
  ord : MOrd
  sco : Sco
  vals : List (List Word)

/-- An access waits in the load-store unit, and its thread goes on (R225). -/
def State.defer (s : State) (t : Tid) (x : LaneAcc) : State :=
  let r := match x.dest with
    | some (d, n) => s.waitLong t (s.waitingRegs t d n) d.isS
    | none => s.waitLong t [] false
  (r.2.updTeam t.team fun tm => { tm with lsu := tm.lsu ++ [r.2.waitingOp t r.1 0 x.mo x.place x.vals] }).ordered t x.ord x.sco x.place r.1

/-- One lane's access: performed at once, or, where it must follow others (R215, R225), checked at issue and left to the load-store unit. -/
def State.access (s : State) (t : Tid) (x : LaneAcc) (check : State → Option Nat × State) (act : Acc → State → State) : State :=
  if s.laneWaits x.mo t (some x.place) then
    match check s with
    | (some e, s) => s.laneTrap t e x.place.addr false
    | (none, s) => s.defer t x
  else act (s.accOf t) s

/-- The checks of a lane's global access, at issue. -/
def State.checkAt (t : Tid) (ea n : Nat) (p : Perm) (attr : Xlat → Bool := fun _ => false) (s : State) : Option Nat × State :=
  match s.checkLane (s.who t) ea n p true attr with
  | (.error e, s) => (some e, s)
  | (.ok _, s) => (none, s)

/-- Where a lane's global access lies. -/
def vaPlace (ea n : Nat) : Place := { pool := false, addr := ea, len := n }

/-- A load's latency as its pipe's monitors see it (R374): a free value of the load's own number (log 15, DESIGN CHOICE). -/
def State.loadEvent (s : State) (t : Tid) : State :=
  let f := s.fresh
  match s.team? t.team, s.group? t with
  | some tm, some g => f.2.event (dieOf tm.core) 0x20 (pipeInstance tm.core g.pipe) (Config.loadLatency f.1 % 2 ^ 32)
  | _, _ => f.2

/-- A load of a lane into a register. -/
def State.loadTo (s : State) (a : Acc) (d : Reg) (ea w : Nat) (o : MOrd) (c : Sco) (fill : Bool) : State :=
  match s.loadLane (s.who a.tid) ea w (acqOf o c) fill a.late.isNone with
  | (.ok bs, s) => ((s.loadEvent a.tid).accGive a d (wordsOf bs)).accDone a o c (vaPlace ea w)
  | (.trap e x, s) => s.accFail a e x false
  | (.ue x, s) => s.accFail a fcMemUe x true
  | (.later e k x, s) => s.accLater a e k x

/-- A store of a lane. -/
def State.storeFrom (s : State) (a : Acc) (ea : Nat) (bs : List Byte) (o : MOrd) (k : Sco) : State :=
  match s.storeLane (s.who a.tid) ea bs (acqOf o k) a.pc a.word a.tid a.late.isNone with
  | (.ok _, s) => (s.accDone a o k (vaPlace ea bs.length)).checkCommit a.tid.team
  | (.trap e x, s) => s.accFail a e x false
  | (.ue x, s) => s.accFail a fcMemUe x true
  | (.later e k x, s) => s.accLater a e k x

/-- The address of LD, ST, GATHER and SCATTER. -/
def MemF.ea (o : MemF) (vals : List (List Word)) : Nat := effAddr vals 1 o.off o.wid.bytes

/-- LD's access. -/
def State.ldAct (s : State) (o : MemF) (vals : List (List Word)) (a : Acc) : State :=
  s.loadTo a o.d (MemF.ea o vals) o.wid.bytes o.ord o.sco (decide (o.ch ≠ .bypassL1))
/-- ST's and SCATTER's access. -/
def State.stAct (s : State) (o : MemF) (vals : List (List Word)) (a : Acc) : State :=
  s.storeFrom a (MemF.ea o vals) (dataBytes (vals.getD 0 []) o.wid.bytes) o.ord o.sco

/-- What LD's access is. -/
def MemF.ldAcc (o : MemF) (vals : List (List Word)) : LaneAcc :=
  { mo := ordOf o.ord o.sco false, place := vaPlace (MemF.ea o vals) o.wid.bytes, dest := some (o.d, o.wid.regs), ord := o.ord, sco := o.sco, vals := vals }
/-- What ST's and SCATTER's access is. -/
def MemF.stAcc (o : MemF) (vals : List (List Word)) : LaneAcc :=
  { mo := ordOf o.ord o.sco true false, place := vaPlace (MemF.ea o vals) o.wid.bytes, ord := o.ord, sco := o.sco, vals := vals }

/-- LD. -/
def execLd (h : Hdr) (o : MemF) (s : State) : Answer :=
  .next (s.byLane h { ops := [Opd.dvs o.d o.wid.regs, Opd.vsk o.a 2], illOrder := decide (o.ord = .release) }
    fun t vals s => (s.access t (MemF.ldAcc o vals) (State.checkAt t (MemF.ea o vals) o.wid.bytes .load) fun a s => s.ldAct o vals a, none))

/-- One lane of ST or SCATTER. -/
def State.stLane (s : State) (t : Tid) (o : MemF) (vals : List (List Word)) : State :=
  s.access t (MemF.stAcc o vals) (State.checkAt t (MemF.ea o vals) o.wid.bytes .store) fun a s => s.stAct o vals a

/-- ST: lanes act in ascending order, so that the highest lane's value stands (R237). -/
def execSt (h : Hdr) (o : MemF) (s : State) : Answer :=
  .next (s.byLane h { ops := [Opd.vsk o.d o.wid.regs, Opd.vsk o.a 2], illOrder := decide (o.ord = .acquire) } (joint := true)
    fun t vals s => (s.stLane t o vals, none))

/-! ### GATHER and SCATTER (R240 to R243) -/

/-- A mask that a thread may not name: 12 to 15, and m10, m11 outside handler mode or the others within it (R67, R357). -/
def maskIllegal (m : BitVec 4) (s : State) (t : Tid) : Bool :=
  decide (12 ≤ m.toNat) || (s.threadIs t (fun th => th.handler) != decide (10 ≤ m.toNat))

/-- Enrol a lane in a mask of its group (R68). -/
def State.enrol (s : State) (t : Tid) (m : Nat) : State :=
  s.updGroup t fun g => let x := g.mask m; g.setMask m { x with e := x.e ||| laneBit t.lane }

/-- GATHER: a load that enrols each lane that takes no trap, MEM_UE among them, and always issues with a marker (R243). Its threads wait at the marker in any case, so that it is held at issue where it must follow other accesses. -/
def execGather (h : Hdr) (o : GatherF) (s : State) : Answer :=
  .next (s.byLane { h with marker := true }
    { ops := [Opd.dvs o.d o.wid.regs, Opd.vsk o.a 2], illReg := maskIllegal o.mask, illOrder := decide (o.ord = .release) }
    (fun t vals s =>
      let m := o.mask.toNat
      if val2 vals 1 = 0 then (((s.enrol t m).result t true o.d (List.replicate o.wid.regs 0)).1, none)
      else
        match s.loadLane (s.who t) (effAddr vals 1 o.off o.wid.bytes) o.wid.bytes (acqOf o.ord o.sco) true with
        | (.ok bs, s) =>
          (((((s.enrol t m).loadEvent t).result t true o.d (wordsOf bs)).1).accDone (s.accOf t) o.ord o.sco (vaPlace (effAddr vals 1 o.off o.wid.bytes) o.wid.bytes), none)
        | (.trap e a, s) => (s.laneTrap t e a false, none)
        | (.ue a, s) => (s.laneTrap t fcMemUe a true, none)
        | (.later e k a, s) => (s.laterFault t e k a 0 [], none))
    fun s act => act.any fun t =>
      s.laneWaits (ordOf o.ord o.sco false) t (some (vaPlace (effAddr [[], (s.readRegs t o.a 0 2).1] 1 o.off o.wid.bytes) o.wid.bytes)))

/-- SCATTER: a store that skips null lanes (R242). -/
def execScatter (h : Hdr) (o : MemF) (s : State) : Answer :=
  .next (s.byLane h { ops := [Opd.vsk o.d o.wid.regs, Opd.vsk o.a 2], illOrder := decide (o.ord = .acquire) } (joint := true)
    fun t vals s => (if val2 vals 1 = 0 then s else s.stLane t o vals, none))

/-! ### SIGW (R244, R245) -/

def SCond.holds (c : SCond) (x y : Nat) : Bool :=
  match c with
  | .ge => decide (y ≤ x)
  | .eq => decide (x = y)
  | .ne => decide (x ≠ y)

/-- One read of SIGW, at the home slice; RM pages raise PAGE_ATTR. -/
def State.sigwRead (s : State) (t : Tid) (ea n : Nat) (acq : Acq) : LaneOut (Nat × Nat) × State :=
  let w := s.who t
  match s.checkLane w ea n .load true (fun x => leafRm x.leaf) with
  | (.error e, s) => (.trap e ea, s)
  | (.ok x, s) =>
    if s.marked x.pa n then (.ue ea, s.mailUe w.ctx x.pa ea 0 (homeDie x.leaf x.pa))
    else
      let s := (((s.uncache x.leaf x.pa n).acquireAt w x.leaf acq).barL1 w.core t (x.pa / 32)).saw t s.nextId (ordersLater x.leaf acq)
      let own := match s.team? t.team with | some tm => tm.commit | none => []
      (.ok (x.pa, leNat (overlay own ea (s.readPhys x.pa n))), s)

/-- SIGW: parks each lane until the word satisfies the condition; a value asked for is written before the thread resumes. -/
def execSigw (h : Hdr) (o : SigwF) (s : State) : Answer :=
  let n := if o.w64 then 2 else 1
  let d := match o.res with | some r => [Opd.dvs r n] | none => []
  .next (s.byLane h { ops := [Opd.vsk o.a 2, Opd.vsk o.b n] ++ d }
    (hold := fun s act => act.any fun t => s.laneWaits { reads := true } t (some (vaPlace (effAddr [(s.readRegs t o.a 0 2).1] 0 0 1) (4 * n)))) fun t vals s =>
    match s.sigwRead t (effAddr vals 0 0 1) (4 * n) (acqOf .acquire o.sco) with
    | (.ok (pa, x), s) =>
      if SCond.holds o.cond x (opdNat vals 1) then
        (match o.res with
          | some r => s.result t false r (wordsN n x)
          | none => (s, none))
      else (s, some (.sector pa))
    | (.trap e a, s) => (s.laneTrap t e a false, none)
    | (.ue a, s) => (s.laneTrap t fcMemUe a true, none)
    | (.later e k a, s) => (s.laterFault t e k a 0 [], none))

/-- A write at the home slice lets a SIGW thread read its word again. -/
def execSigwRecheck (t : Tid) (s : State) : Answer :=
  .next (if s.threadIs t fun th => th.parks.any fun k => match k with | .sector _ => true | _ => false then
    let s := s.updThread t fun th => th.unpark s.clk.acycle fun k => match k with | .sector _ => true | _ => false
    if s.retries.contains t then s else { s with retries := s.retries ++ [t] }
  else s)

/-! ### Atomics (R246 to R248) -/

/-- The new value of a read-modify-write (R247). -/
def atomicNew (op : Aop) (ty : ATy) (old b : Nat) : Nat :=
  let w := 8 * ty.bytes
  let sg : Bool := match ty with | .s32 | .s64 => true | _ => false
  let less := if sg then decide (signedOf w b < signedOf w old) else decide (b < old)
  match op, ty with
  | .add, .f32 => Fmt.fp32.add old b
  | .add, .f64 => Fmt.fp64.add old b
  | .add, _ => (old + b) % 2 ^ w
  | .min, .f32 => Fmt.fp32.minmax false old b
  | .min, .f64 => Fmt.fp64.minmax false old b
  | .min, _ => if less then b else old
  | .max, .f32 => Fmt.fp32.minmax true old b
  | .max, .f64 => Fmt.fp64.minmax true old b
  | .max, _ => if less then old else b
  | .and, _ => old &&& b
  | .or, _ => old ||| b
  | .xor, _ => old ^^^ b
  | .exch, _ => b

/-- A read-modify-write on bytes. -/
def rmw (op : Aop) (ty : ATy) (b : Nat) (old : List Byte) : Option (List Byte) :=
  some (leBytes ty.bytes (atomicNew op ty (leNat old) b))

/-- Compare and swap on bytes: a failed compare writes nothing. -/
def casBytes (ty : ATy) (cmp nv : Nat) (old : List Byte) : Option (List Byte) :=
  if leNat old = cmp then some (leBytes ty.bytes nv) else none

/-- A word joins the thread's next wave (R346). -/
def State.joinWave (s : State) (t : Tid) (x : LaneAcc) : State :=
  match s.thread? t, x.dest with
  | some th, some (d, n) =>
    let r := s.waitLong t (s.waitingRegs t d n) d.isS
    let o := r.2.waitingOp t r.1 (th.wave + 1) x.mo x.place x.vals
    (((r.2.updThread t fun th => { th with wave := th.wave + 1 }).updTeam t.team fun tm =>
      { tm with waveOps := tm.waveOps ++ [o] }).ordered t x.ord x.sco x.place r.1)
  | _, _ => s

/-- The operands that ATOM and CAS share: destination, type, order, scope. -/
structure AtomOpd where
  d : Reg
  ty : ATy
  ord : MOrd
  sco : Sco

/-- What an atomic's access is. -/
def AtomOpd.acc (o : AtomOpd) (ea : Nat) (vals : List (List Word)) : LaneAcc :=
  { mo := ordOf o.ord o.sco true, place := vaPlace ea o.ty.bytes, dest := some (o.d, o.ty.regs), ord := o.ord, sco := o.sco, vals := vals }

/-- An atomic's access, with its result. -/
def State.atomDo (s : State) (o : AtomOpd) (ea : Nat) (act : AtomAct) (a : Acc) : State :=
  match s.atomicLane (s.who a.tid) ea o.ty.bytes a.late.isNone act (acqOf o.ord o.sco) with
  | (.ok old, s) => (s.accGive a o.d (wordsOf old)).accDone a o.ord o.sco (vaPlace ea o.ty.bytes)
  | (.trap e x, s) => s.accFail a e x false
  | (.ue x, s) => s.accFail a fcMemUe x true
  | (.later e k x, s) => s.accLater a e k x

/-- The checks of an atomic at issue: one that no remote end performs may not name a remote page. -/
def State.checkAtom (t : Tid) (ea n : Nat) (act : AtomAct) (s : State) : Option Nat × State :=
  State.checkAt t ea n .atomic (fun x => leafRm x.leaf && act.remote.isNone) s

/-- One lane of ATOM or CAS: in deterministic mode checked at issue and held for its wave, else performed. -/
def State.atomTo (s : State) (t : Tid) (o : AtomOpd) (ea : Nat) (act : AtomAct) (vals : List (List Word)) : State :=
  if (s.descOfTid t).det then
    match State.checkAtom t ea o.ty.bytes act s with
    | (some e, s) => s.laneTrap t e ea false
    | (none, s) => s.joinWave t (o.acc ea vals)
  else s.access t (o.acc ea vals) (State.checkAtom t ea o.ty.bytes act) fun a s => s.atomDo o ea act a

/-- ATOM or CAS may not be executed here: in a twin copy, or under DET with a scope wider than team (R256, R350). -/
def State.atomForbidden (s : State) (t : Tid) (sco : Sco) : Bool :=
  s.twinTid t || ((s.descOfTid t).det && decide (2 < sco.rank))

/-- ATOM's action; a 64-bit integer add can be performed at a remote end (R210). -/
def atomAct (op : Aop) (ty : ATy) (b : Nat) : AtomAct :=
  { f := rmw op ty b,
    remote := if op = .add ∧ (ty = .u64 ∨ ty = .s64) then some fun w va => .remoteAdd w.qp w.rkey va (BitVec.ofNat 64 b) else none }
/-- CAS's action: the compare value first, then the new value. -/
def casAct (ty : ATy) (ws : List Word) : AtomAct :=
  let n := ty.regs
  let cmp := leNat (bytesOf (ws.take n))
  let nv := leNat (bytesOf (ws.drop n))
  { f := casBytes ty cmp nv,
    remote := if n = 2 then some fun w va => .remoteCas w.qp w.rkey va (BitVec.ofNat 64 cmp) (BitVec.ofNat 64 nv) else none }

/-- ATOM's operands and action, from its values. -/
def AtF.opd (o : AtF) : AtomOpd := { d := o.d, ty := o.ty, ord := o.ord, sco := o.sco }
def AtF.act (o : AtF) (vals : List (List Word)) : AtomAct := atomAct o.aop o.ty (opdNat vals 2)
/-- CAS's operands and action, from its values. -/
def CasF.opd (o : CasF) : AtomOpd := { d := o.d, ty := o.ty, ord := o.ord, sco := o.sco }
def CasF.act (o : CasF) (vals : List (List Word)) : AtomAct := casAct o.ty (vals.getD 2 [])

/-- ATOM. -/
def execAtom (h : Hdr) (o : AtF) (s : State) : Answer :=
  let n := o.ty.regs
  .next (s.byLane h { ops := [Opd.dvs o.d n, Opd.vsk o.a 2, Opd.vsk o.b n] } (joint := true)
    fun t vals s =>
      (if s.atomForbidden t o.sco then s.trap t fcDetViolation else s.atomTo t (AtF.opd o) (effAddr vals 1 0 1) (AtF.act o vals) vals, none))

/-- CAS. -/
def execCas (h : Hdr) (o : CasF) (s : State) : Answer :=
  let n := o.ty.regs
  .next (s.byLane h { ops := [Opd.dvs o.d n, Opd.vsk o.a 2, Opd.vsk o.b (2 * n)] } (joint := true)
    fun t vals s =>
      (if s.atomForbidden t o.sco then s.trap t fcDetViolation else s.atomTo t (CasF.opd o) (effAddr vals 1 0 1) (CasF.act o vals) vals, none))

/-- RED under DET is limited to integer types without exch (R256). -/
def redForbidden (op : Aop) (ty : ATy) : Bool := decide (op = .exch) || decide (ty = .f32 ∨ ty = .f64)

/-- RED's action, from its values. -/
def RedF.act (o : RedF) (vals : List (List Word)) : AtomAct := atomAct o.aop o.ty (opdNat vals 1)

/-- What RED's access is. -/
def RedF.acc (o : RedF) (vals : List (List Word)) : LaneAcc :=
  { mo := ordOf o.ord o.sco true false, place := vaPlace (effAddr vals 0 0 1) o.ty.bytes, ord := o.ord, sco := o.sco, vals := vals }

/-- RED's access; a marked sector is reported later (R248). -/
def State.redDo (s : State) (o : RedF) (vals : List (List Word)) (a : Acc) : State :=
  match s.atomicLane (s.who a.tid) (effAddr vals 0 0 1) o.ty.bytes a.late.isNone (RedF.act o vals) (acqOf o.ord o.sco) with
  | (.ok _, s) => s.accDone a o.ord o.sco (RedF.acc o vals).place
  | (.trap e x, s) => s.accFail a e x false
  | (.ue x, s) => s.accLater a fcMemUe 0 x
  | (.later e k x, s) => s.accLater a e k x

/-- RED: an atomic without a result. -/
def execRed (h : Hdr) (o : RedF) (s : State) : Answer :=
  let n := o.ty.regs
  .next (s.byLane h { ops := [Opd.vsk o.a 2, Opd.vsk o.b n], illOrder := decide (o.ord = .acquire) } (joint := true)
    fun t vals s =>
      if s.twinTid t || ((s.descOfTid t).det && redForbidden o.aop o.ty) then (s.trap t fcDetViolation, none)
      else (s.access t (RedF.acc o vals) (State.checkAtom t (effAddr vals 0 0 1) o.ty.bytes (RedF.act o vals)) fun a s => s.redDo o vals a, none))

/-- REDSEQ's access: the contribution sets out, as old as its word; what is ordered after the word comes after it. -/
def State.redseqDo (s : State) (o : AtF) (vals : List (List Word)) (a : Acc) : State :=
  let ea := effAddr vals 1 0 1
  let w := s.who a.tid
  match s.checkLane w ea o.ty.bytes .atomic a.late.isNone with
  | (.error e, s) => s.accFail a e ea false
  | (.ok x, s) =>
    let s := s.acquireAt w x.leaf (acqOf o.ord o.sco)
    let f := s.fresh
    let n := a.late.getD f.1
    let p := vals.getD 0 []
    let k : Contrib :=
      { id := f.1, ctx := w.ctx, set := p.getD 0 0, idx := p.getD 1 0, va := BitVec.ofNat 64 ea, aop := o.aop, ty := o.ty,
        value := BitVec.ofNat 64 (opdNat vals 2), recips := [a.tid], pc := a.pc, word := a.word, age := n,
        launch := match s.team? a.tid.team with | some tm => tm.launch | none => 0 }
    let s : State := { f.2 with contribs := f.2.contribs ++ [k] }
    if a.late.isNone then s.ordered a.tid o.ord o.sco k.place n else s

/-- What REDSEQ's access is. -/
def AtF.redseqAcc (o : AtF) (vals : List (List Word)) : LaneAcc :=
  { mo := { ordOf o.ord o.sco true false with reduces := true }, place := vaPlace (effAddr vals 1 0 1) o.ty.bytes, ord := o.ord, sco := o.sco,
    vals := vals }

/-- REDSEQ (R249): each lane's contribution sets out for its set. -/
def execRedseq (h : Hdr) (o : AtF) (s : State) : Answer :=
  let n := o.ty.regs
  .next (s.byLane h { ops := [Opd.vsk o.d 2, Opd.vsk o.a 2, Opd.vsk o.b n], illOrder := decide (o.ord = .acquire) } (joint := true)
    fun t vals s =>
      if s.twinTid t then (s.trap t fcDetViolation, none)
      else (s.access t (AtF.redseqAcc o vals) (State.checkAt t (effAddr vals 1 0 1) o.ty.bytes .atomic) fun a s => s.redseqDo o vals a, none))

/-! ### FENCE, PREF and CMAINT (R223 to R228) -/

/-- FENCE: empties L1 when it acquires at cluster scope or wider, orders the thread's later reads behind its earlier ones, discards fetched words at any scope wider than thread, and keeps later accesses behind the earlier ones that are still to be performed. It never parks or holds its thread. -/
def execFence (h : Hdr) (o : FenceF) (s : State) : Answer :=
  .next (s.byLane h {} fun t _ s =>
    let s := if o.kind = .release then s
      else
        let s := s.updThread t fun th => { th with floor := max th.floor th.seen }
        if 3 ≤ o.sco.rank then s.invalL1 (s.who t).core else s
    let s := if 1 ≤ o.sco.rank then s.fencedBy t o.sco.rank else s
    (s.fenced t { age := s.nextId, writes := decide (o.kind = .release), reds := decide (o.kind ≠ .acquire), remote := decide (o.sco = .system) }, none))

/-- A line that PREF may fetch into L1: readable on a page that L1 may hold, in no locked range and unmarked (R226). -/
def State.prefLine (s : State) (w : Who) (va : Nat) : Option Xlat :=
  (s.peek w.ctx va).filter fun x => leafR x.leaf && l1Page x.leaf && !s.lockedVa w.core w.ctx va 256 true && !s.marked x.pa 256

/-- Fetch lines into a core's L1; a lane whose own address may not be fetched does nothing. (log 98, DEDUCED) -/
def State.prefetch (s : State) (w : Who) (va n : Nat) : State :=
  if (s.prefLine w va).isNone then s
  else (List.range n).foldl (fun s i =>
    match s.prefLine w (va + 256 * i) with
    | some x => s.fillLine w.core (x.pa / 256)
    | none => s) s

/-- PREF: it changes no value and never faults. -/
def execPref (h : Hdr) (o : PrefF) (s : State) : Answer :=
  .next (s.byLane h { ops := [Opd.vsk o.a 2] } fun t vals s =>
    let a := effAddr vals 0 o.off 256 / 256 * 256
    (if o.tgt = .l1 then s.prefetch (s.who t) a (o.nM1.toNat + 1) else s, none))

/-- Translate the pages of a range in ascending order, with R or W permission (R228). -/
def State.maintPages (s : State) (w : Who) (write : Bool) : List (Nat × Nat) → Except (Nat × Nat) (List (Nat × Nat)) × State
  | [] => (.ok [], s)
  | (va, n) :: ps =>
    match s.translate w.core w.ctx va (if write then .maint else .load) with
    | (.error e, s) => (.error (e, va), s)
    | (.ok x, s) =>
      match s.maintPages w write ps with
      | (.error e, s) => (.error e, s)
      | (.ok qs, s) => (.ok (if leafRm x.leaf then qs else (x.pa / 32, (x.pa + n - 1) / 32) :: qs), s)

/-- Discard the LLC copies of a range. A dirty sector is lost, unless it had been written back before, as a free value decides (log 8, DESIGN CHOICE). -/
def State.discardSectors (s : State) (core lo hi : Nat) : State :=
  let hit := s.dirty.filter fun e => decide (lo ≤ e.1 ∧ e.1 ≤ hi)
  let s := hit.foldl (fun s e =>
    if Mem.getN s.mem (32 * e.1) 32 = e.2 then s
    else
      let r := s.flip
      if r.1 then { (r.2.noteOld (32 * e.1) e.2 none) with mem := Mem.setN r.2.mem (32 * e.1) e.2 } else r.2) (s.cleanSectors lo hi)
  { s with l1 := s.l1.filter fun e => !(decide (e.core = core) && decide (lo ≤ e.sector ∧ e.sector ≤ hi)) }

/-- Cores whose cached translations a CMAINT.tinv reaches. -/
def State.maintCores (s : State) (w : Who) (sco : CSco) : List Nat :=
  match sco with
  | .die => (List.range 256).filter fun c => decide (dieOf c = dieOf w.core)
  | _ => s.partCores (s.dieParts.getD (dieOf w.core) 0)

/-- One lane of inv, clean or flush. (log 97, DESIGN CHOICE) -/
def State.maintain (s : State) (t : Tid) (va len : Nat) (sco : CSco) (clean inv : Bool) : State :=
  let w := s.who t
  if len = 0 then s
  else
    -- the 32-byte sectors that overlap the range
    let lo := va / 32 * 32
    let n := (va + len + 31) / 32 * 32 - lo
    match s.maintPages w (inv && !clean) (parts lo n) with
    | (.error e, s) => s.trap t e.1 e.2
    | (.ok qs, s) =>
      if inv && s.locks.any fun l => !l.pool && l.dst && decide (l.core = w.core ∧ l.ctx = w.ctx) && l.overlaps lo n then
        s.trap t fcRangeLock va
      else
        qs.foldl (fun s q =>
          let s := if clean then ((s.cleanSectors q.1 q.2).cleanedBy t sco.rank (32 * q.1) (32 * (q.2 - q.1 + 1))).dropInstr sco.rank w.core q.1 q.2 else s
          if inv then s.discardSectors w.core q.1 q.2 else s) s

/-- A CMAINT word, lane by lane. -/
def State.cmaint (s : State) (h : Hdr) (o : CmaintF) (f : State → Tid → Nat → Nat → State) : State :=
  s.byLane h { ops := [Opd.vsk o.a 2, Opd.vsk o.b] } (hold := fun s act => act.any fun t =>
      s.laneWaits { writes := true } t (some (vaPlace (wordPair (s.readRegs t o.a 0 2).1 0) ((s.readRegs t o.b 0 1).1.getD 0 0).toNat))) fun t vals s =>
    (f s t (val2 vals 0).toNat (val1 vals 1).toNat, none)

/-- CMAINT.inv. -/
def execCmaintInv (h : Hdr) (o : CmaintF) (s : State) : Answer := .next (s.cmaint h o fun s t a n => s.maintain t a n o.sco false true)
/-- CMAINT.clean. -/
def execCmaintClean (h : Hdr) (o : CmaintF) (s : State) : Answer := .next (s.cmaint h o fun s t a n => s.maintain t a n o.sco true false)
/-- CMAINT.flush: clean, then inv. -/
def execCmaintFlush (h : Hdr) (o : CmaintF) (s : State) : Answer := .next (s.cmaint h o fun s t a n => s.maintain t a n o.sco true true)
/-- CMAINT.tinv: drops the context's cached translations of the range; it translates nothing and never faults. -/
def execCmaintTinv (h : Hdr) (o : CmaintF) (s : State) : Answer :=
  .next (s.cmaint h o fun s t a n =>
    let w := s.who t
    let cores := s.maintCores w o.sco
    { s with tlb := s.tlb.filter fun e => !(decide (e.ctx = w.ctx) && cores.contains e.core && meets e.base e.size a n) })

end Sys2Proof.Machine
end

