-- ==== Sys2Proof/Machine/Scratch.lean ====
section
/-! DEFINITION. Class 4 on the pool: LDP, STP and PQRY (R91 to R94), LDS, STS, ATOMS and PRES (R147 to R151). -/

namespace Sys2Proof.Machine

/-- A pool address whose bytes a thread reaches: 32 bits, base plus offset (R92, R147). -/
def poolAddr (vals : List (List Word)) (i : Nat) (off : BitVec 11) (w : Nat) : Nat :=
  (val1 vals i + off.signExtend 32 * BitVec.ofNat 32 w).toNat

/-- What a lane's pool access meets, in the order of R92 and R147: range (LDS and STS look at every byte, LDP and STP at the address), alignment, locks, queue storage, hash region, a missing segment, an absent line, a marked word. (log 54, DEDUCED) -/
def State.poolMeet (s : State) (t : Tid) (pa w : Nat) (scratchOnly write : Bool) : Met :=
  match s.team? t.team with
  | none => .trap fcPoolRange pa
  | some tm =>
    let d := s.descOf tm
    if !poolIn d tm pa (if scratchOnly then w else 1) || (scratchOnly && decide (winRegion ≤ pa)) then .trap fcPoolRange pa
    else if pa % w ≠ 0 then .trap fcMisalign pa
    else if write && s.lockedPoolSrc t.team pa w then .trap fcRangeLock pa
    else if s.lockedPoolDst t.team pa w then .trap fcRangeLock pa
    else if inQueueStorage d pa w then .trap fcRangeLock pa
    else if write && inHashRegion tm pa w then .trap fcRangeLock pa
    else
      match missingSeg d tm pa w with
      | some i => .park (.segment i)
      | none =>
        if decide (pa < winRegion) && tm.anyAbsent pa w then
          (if write then .trap fcRangeLock pa else .park (.line (pa / 128)))
        else if !write && s.poolUe.any fun u => decide (u.1 = t.team) && meets pa w u.2 4 then .trap fcMemUe pa
        else .go

/-- The thread and register that own a word of the window region (R84). -/
def windowOwner (d : KDesc) (t : Team) (pa : Nat) : Option (Tid × Nat) :=
  t.groups.findSome? fun g =>
    let b := d.winBase t g.num
    if b ≤ pa ∧ pa < b + d.winBytes g then
      some ({ team := t.key, group := g.num, lane := (pa - b) % 256 / 4 }, (pa - b) / 256)
    else none

/-- A word of the pool as LDP reads it: a register with an outstanding long write gives the old or the new value (R60). -/
def State.poolWord (s : State) (t : Tid) (pa : Nat) : Word × State :=
  match s.team? t.team with
  | none => (0, s)
  | some tm =>
    let old := Mem.w32 tm.pool pa
    if pa < winRegion then (old, s)
    else
      match windowOwner (s.descOf tm) tm pa with
      | none => (old, s)
      | some (u, n) =>
        match s.thread? u with
        | none => (old, s)
        | some th =>
          match th.pendingVals .v n with
          | [] => (old, s)
          | vs => let c := s.pick (vs.length + 1); ((old :: vs).getD c.1 old, c.2)

/-- n words from a pool address up. -/
def State.poolWords (s : State) (t : Tid) (pa : Nat) : Nat → List Word × State
  | 0 => ([], s)
  | n + 1 => let x := s.poolWord t pa; let r := x.2.poolWords t (pa + 4) n; (x.1 :: r.1, r.2)

/-- A store by pool address, of an issue number: the later write of its own thread's outstanding long results there that are older (R93). -/
def State.poolStore (s : State) (t : Tid) (pa : Nat) (bs : List Byte) (n : Nat) : State :=
  let s := (List.range ((bs.length + 3) / 4)).foldl (fun s i =>
    match s.team? t.team with
    | some tm =>
      (match windowOwner (s.descOf tm) tm (pa + 4 * i) with
      | some (u, r) => if u = t then s.updThread t fun th => th.dropOlder .v r n else s
      | none => s)
    | none => s) s
  s.poolSet t.team pa bs

/-- Act on a pool access: trap, park or go on. -/
def State.poolDo (s : State) (t : Tid) (pa w : Nat) (scratchOnly write : Bool) (f : State → State × Option Park) : State × Option Park :=
  match s.poolMeet t pa w scratchOnly write with
  | .trap e a => (s.metTrap t e a, none)
  | .park why => (s, some why)
  | .go => f s

/-- A scope of a pool access: team at the widest (R34, R91). -/
def teamScope (c : Sco) : Sco := if 2 < c.rank then .team else c

/-- What a lane's pool access comes to: its fault, its wait, or its own effect. -/
def State.poolTry (s : State) (t : Tid) (x : LaneAcc) (scratchOnly write : Bool) (act : Acc → State → State) : State × Option Park :=
  s.poolDo t x.place.addr x.place.len scratchOnly write fun s => (s.access t x (fun s => (none, s)) act, none)

/-- What a pool access is, with its pool address and bytes. -/
def poolAcc (o : MOrd) (c : Sco) (pa w : Nat) (writes reads : Bool) (dest : Option (Reg × Nat)) (vals : List (List Word)) : LaneAcc :=
  { mo := ordOf o (teamScope c) writes reads, place := { pool := true, addr := pa, len := w }, dest := dest, ord := o, sco := teamScope c, vals := vals }

/-- The address of LDP, STP, LDS and STS. -/
def MemF.pa (o : MemF) (vals : List (List Word)) : Nat := poolAddr vals 1 o.off o.wid.bytes

/-- A pool load's access. An SC read is performed no earlier than its thread's earlier reads. -/
def State.poolGet (s : State) (o : MemF) (vals : List (List Word)) (a : Acc) : State :=
  let w := o.wid.bytes
  let pa := MemF.pa o vals
  let r := s.poolWords a.tid (pa / 4 * 4) o.wid.regs
  let s := r.2.saw a.tid r.2.nextId o.ord.acquires
  (s.accGive a o.d (if w < 4 then [BitVec.ofNat 32 ((r.1.getD 0 0).toNat / 2 ^ (8 * (pa % 4)) % 2 ^ (8 * w))] else r.1)).accDone a o.ord (teamScope o.sco) { pool := true, addr := pa, len := w }

/-- A pool store's access. -/
def State.poolPut (s : State) (o : MemF) (vals : List (List Word)) (a : Acc) : State :=
  (s.poolStore a.tid (MemF.pa o vals) (dataBytes (vals.getD 0 []) o.wid.bytes) (a.late.getD s.nextId)).accDone a o.ord (teamScope o.sco) { pool := true, addr := MemF.pa o vals, len := o.wid.bytes }

/-- A pool load. -/
def State.poolLoad (s : State) (h : Hdr) (o : MemF) (scratchOnly : Bool) : State :=
  s.byLane h { ops := [Opd.dv o.d o.wid.regs, Opd.vs o.a], illOrder := decide (o.ord = .release) } fun t vals s =>
    s.poolTry t (poolAcc o.ord o.sco (MemF.pa o vals) o.wid.bytes false true (some (o.d, o.wid.regs)) vals) scratchOnly false
      fun a s => s.poolGet o vals a

/-- A pool store: lanes act in ascending order (R92, R147). -/
def State.poolSave (s : State) (h : Hdr) (o : MemF) (scratchOnly : Bool) : State :=
  s.byLane h { ops := [Opd.vsk o.d o.wid.regs, Opd.vs o.a], illOrder := decide (o.ord = .acquire) } (joint := true) fun t vals s =>
    s.poolTry t (poolAcc o.ord o.sco (MemF.pa o vals) o.wid.bytes true false none vals) scratchOnly true fun a s => s.poolPut o vals a

/-- LDP (R92). -/
def execLdp (h : Hdr) (o : MemF) (s : State) : Answer := .next (s.poolLoad h o false)
/-- STP (R92). -/
def execStp (h : Hdr) (o : MemF) (s : State) : Answer := .next (s.poolSave h o false)
/-- LDS (R147). -/
def execLds (h : Hdr) (o : MemF) (s : State) : Answer := .next (s.poolLoad h o true)
/-- STS (R147). -/
def execSts (h : Hdr) (o : MemF) (s : State) : Answer := .next (s.poolSave h o true)

/-- PQRY's values (R94). -/
def State.pqry (s : State) (t : Tid) (sel : Nat) : Nat :=
  match s.team? t.team, s.group? t with
  | some tm, some g =>
    let d := s.descOf tm
    let budget := fun r => (match d.roles.getD r none with | some x => x.budget | none => 0)
    if 16 ≤ sel then (if (tm.group? (sel - 16)).isSome then d.winBase tm (sel - 16) else 0xFFFFFFFF)
    else match sel with
      | 0 => d.scratch
      | 1 => d.winBase tm g.num
      | 2 => d.winBytes g
      | 3 => d.winTotal tm
      | 4 => tm.segs.length
      | 5 => s.partWord tm.core
      | 6 => d.viewt + 65536 * d.viewa
      | 7 => budget 0 + 65536 * budget 1
      | 8 => budget 2 + 65536 * budget 3
      | _ => s.freeFrames tm.core tm.ctx
  | _, _ => 0

/-- PQRY, a short result. -/
def execPqry (h : Hdr) (o : SelD) (s : State) : Answer :=
  .next (s.byLane h { ops := [Opd.dvs o.d] } fun t _ s => s.result t false o.d [BitVec.ofNat 32 (s.pqry t o.sel.toNat)])

/-! ### ATOMS (R148, R149) -/

/-- The operation of the scratch atomic that is a plain one. -/
def sAop : SAop → Aop
  | .add => .add | .min => .min | .max => .max | .exch => .exch | .cas => .exch

/-- The new bytes of ATOMS, from its operand's registers; a failed compare keeps the old. -/
def atomsNew (op : SAop) (ty : ATy) (ws : List Word) (old : List Byte) : List Byte :=
  match op with
  | .cas => ((casAct ty ws).f old).getD old
  | _ => leBytes ty.bytes (atomicNew (sAop op) ty (leNat old) (leNat (bytesOf (ws.take ty.regs))))

/-- The read-modify-write on the pool; gives the old words. -/
def State.atomsDo (s : State) (t : Tid) (pa : Nat) (op : SAop) (ty : ATy) (ws : List Word) : List Word × State :=
  match s.team? t.team with
  | none => ([], s)
  | some tm =>
    let old := Mem.getN tm.pool pa ty.bytes
    (wordsOf old, s.poolSet t.team pa (atomsNew op ty ws old))

/-- A word of a pool range is marked. -/
def State.poolMarked (s : State) (team pa n : Nat) : Bool := s.poolUe.any fun u => decide (u.1 = team) && meets pa n u.2 4

/-- A pool access finds a marked word: its record names the core (R88, R379). -/
def State.poolFail (s : State) (a : Acc) (addr : Nat) : State :=
  match a.late, s.team? a.tid.team with
  | some n, some tm => (s.mailPool tm.core tm.ctx a.pc.toNat).lateFault a.tid a.pc a.word n fcMemUe addr
  | _, _ => s.metTrap a.tid fcMemUe addr

/-- What ATOMS' access is. -/
def AtomsF.acc (o : AtomsF) (vals : List (List Word)) : LaneAcc :=
  poolAcc o.ord .team (poolAddr vals 1 0 1) o.ty.bytes true true (some (o.d, o.ty.regs)) vals

/-- ATOMS' access. -/
def State.atomsAct (s : State) (o : AtomsF) (vals : List (List Word)) (a : Acc) : State :=
  let pa := poolAddr vals 1 0 1
  if s.poolMarked a.tid.team pa o.ty.bytes then s.poolFail a pa
  else
  let r := s.atomsDo a.tid pa o.aop o.ty (vals.getD 2 [])
  ((r.2.saw a.tid r.2.nextId o.ord.acquires).accGive a o.d r.1).accDone a o.ord .team (AtomsF.acc o vals).place

/-- ATOMS: in deterministic mode checked at issue and held for its wave, when a marked word is met too (R346). -/
def execAtoms (h : Hdr) (o : AtomsF) (s : State) : Answer :=
  let n := o.ty.regs
  .next (s.byLane h { ops := [Opd.dvs o.d n, Opd.vs o.a, Opd.vsk o.b (if o.aop = .cas then 2 * n else n)] } (joint := true) fun t vals s =>
    if (s.descOfTid t).det then s.poolDo t (AtomsF.acc o vals).place.addr o.ty.bytes true true fun s => (s.joinWave t (AtomsF.acc o vals), none)
    else s.poolTry t (AtomsF.acc o vals) true true fun a s => s.atomsAct o vals a)

/-! ### PRES (R150, R151) -/

/-- PRES's checks, then its act on the lines. -/
def State.presDo (s : State) (t : Tid) (pa n : Nat) (f : State → List Nat → State × Option Park) : State × Option Park :=
  let d := s.descOfTid t
  if pa % 128 ≠ 0 then (s.trap t fcMisalign pa, none)
  else if d.scratch < pa + 128 * n then (s.trap t fcPoolRange pa, none)
  else if inQueueStorage d pa (128 * n) then (s.trap t fcRangeLock pa, none)
  else f s (linesOf pa (128 * n))

/-- The presence bits of lines, the first at bit 0. -/
def Team.presence (t : Team) (lines : List Nat) : Nat :=
  (lines.zipIdx.map fun x => if t.lineAbsent x.1 then 0 else 2 ^ x.2).sum

/-- PRES.query, a short result. -/
def execPresQuery (h : Hdr) (o : PresQ) (s : State) : Answer :=
  .next (s.byLane h { ops := [Opd.dvs o.d, Opd.vs o.a] } fun t vals s =>
    s.presDo t (val1 vals 1).toNat (o.nM1.toNat + 1) fun s lines =>
      let v := match s.team? t.team with | some tm => tm.presence lines | none => 0
      s.result t false o.d [BitVec.ofNat 32 v])

/-- PRES.set: the lines are present, their readers wake, and counters fill them again. -/
def execPresSet (h : Hdr) (o : PresF) (s : State) : Answer :=
  .next (s.byLane h { ops := [Opd.vs o.a] } fun t vals s =>
    s.presDo t (val1 vals 0).toNat (o.nM1.toNat + 1) fun s lines =>
      (lines.foldl (fun s l => (s.updTeam t.team fun tm => { tm.setAbsent l false with unfilled := tm.unfilled.filter fun x => decide (x ≠ l) }).wakeTeam t.team fun k => decide (k = .line l)) s, none))

/-- PRES.clear: the lines are absent; their counters stay, and fill them only after a later command has cleared them (R151). -/
def execPresClear (h : Hdr) (o : PresF) (s : State) : Answer :=
  .next (s.byLane h { ops := [Opd.vs o.a] } fun t vals s =>
    s.presDo t (val1 vals 0).toNat (o.nM1.toNat + 1) fun s lines =>
      (s.updTeam t.team fun tm => lines.foldl (fun tm l => { tm.setAbsent l true with unfilled := l :: tm.unfilled.filter fun x => decide (x ≠ l) }) tm,
       none))

end Sys2Proof.Machine
end

