-- ==== Sys2Proof/Machine/Commands.lean ====
section
/-! DEFINITION. The life of a command of any engine or array: its entry with locks and presence clearings (R143, R229, R264), when it may start (R90, R145, R179, R230, R268, R275), its reads and its result, and its consumed and done points with locks, tokens and faults (R177, R180, R263, R264, R272). -/

namespace Sys2Proof.Machine

/-- A byte range of a command. -/
structure Rng where
  pool : Bool := false
  lo : Nat
  len : Nat
  dst : Bool := false
  /-- A tile's row stride and row bytes; 0 for a range without gaps. -/
  stride : Nat := 0
  row : Nat := 0
  deriving DecidableEq, Repr

/-- What an engine makes of a packet at acceptance. With a fault code it is rejected; else it registers its ranges and clears its lines. -/
structure Ruling where
  eng : Engine
  reject : Option (Nat × Nat × Nat) := none
  ranges : List Rng := []
  lines : List Nat := []
  /-- A parameter block read at acceptance. -/
  args : List Word := []
  /-- Translations made at acceptance and kept (R310). -/
  pages : List (Nat × Nat × Bool) := []
  deriving Repr

/-- Reject with ENGINE_CMD, a cause, and the address at fault, or zero. -/
def Ruling.no (eng : Engine) (cause : Nat) (addr : Nat := 0) : Ruling := { eng := eng, reject := some (fcEngineCmd, cause, addr) }

/-- What a command's run gives: the writes it owes, its status, its fault (code, cause, address) and a carry status word. -/
structure Ran where
  out : List CmdWrite := []
  status : Nat := 0
  fault : Option (Nat × Nat × Nat) := none
  csOut : Option (Nat × Word) := none
  deriving Repr

/-- The fault that a failed access of a running command gives (R272). -/
def runFault (e : Nat × Nat) : Nat × Nat × Nat := if e.1 = fcMemUe then (fcMemUe, 0, e.2) else (fcEngineFault, e.1, e.2)

/-- A run that stops at a failed access. -/
def Ran.failed (e : Nat × Nat) : Ran := { fault := some (runFault e) }
/-- A run that stops because a rule of the command is broken. -/
def Ran.broken (cause : Nat) : Ran := { fault := some (fcEngineCmd, cause, 0) }
/-- A run that stops at an address that breaks a rule. -/
def Ran.brokenAt (cause addr : Nat) : Ran := { fault := some (fcEngineCmd, cause, addr) }

/-! ### Queues and tokens -/

/-- The token queue of a command (R257, R154, R164, R180). A command that no base die or chip took posts by its own queue. -/
def Cmd.tokenQueue (c : Cmd) : Nat :=
  match c.eng with
  | .cpy _ | .rrot _ => 1 | .srt _ => 3 | .trv _ => 5 | .slv _ => 7 | .hash _ => 8 | .array _ _ => 9
  | .base _ | .xdie => 11 | .cap _ => 13 | .fabric => 15

/-- A token (R263). -/
def tokenWord (tag status code : Nat) : Word := BitVec.ofNat 32 (tag % 65536 * 65536 + status * 256 + code % 256)

/-- The next sequence number of a team's commands into an engine (R264). -/
def State.takeSeq (s : State) (team : Nat) (e : Engine) : Nat × State :=
  match s.team? team with
  | none => (0, s)
  | some t =>
    let n := assoc 0 t.seqs e.number
    (n, s.updTeam team fun t => { t with seqs := assocSet t.seqs e.number ((n + 1) % 2 ^ 32) })

/-- Post a token to a team, if its queue has room for 32; those who wait for one wake, and the Lull count restarts (R257, R269, R336). -/
def State.postToken (s : State) (team q : Nat) (w : Word) : Option State :=
  match s.team? team with
  | none => some s
  | some t =>
    if 32 ≤ t.queueLen q then none
    else some (((s.updTeam team fun t => { t with tokens := t.tokens ++ [(q, w)] }).sink t.ctx).wakeTeam team fun k => decide (k = .queue q))

/-- An older token of the same array is still owed: an array's tokens post in the order in which their points are reached (R180). -/
def State.tokenBehind (s : State) (c : Cmd) (due : Nat) : Bool :=
  c.eng.isArray && s.cmds.any fun e => decide (e.eng = c.eng ∧ e.id ≠ c.id) && e.owed.any fun x => decide (x.1 < due)

/-- Post what a command owes, in order, as far as there is room. -/
def State.postOwed (s : State) (c : Cmd) : List (Nat × Word) → List (Nat × Word) × State
  | [] => ([], s)
  | (due, w) :: ws =>
    if s.tokenBehind c due then ((due, w) :: ws, s)
    else
      match s.postToken c.team c.tokenQueue w with
      | some s => s.postOwed c ws
      | none => ((due, w) :: ws, s)

/-- A command posts what it owes; one that has then finished leaves its place in its queue. -/
def State.settleTokens (s : State) (id : Nat) : State :=
  match s.cmd? id with
  | none => s
  | some c =>
    let r := s.postOwed c c.owed
    let s := r.2.updCmd id fun c => { c with owed := r.1 }
    if c.stage = .done ∧ r.1 = [] then s.wakePushers c.eng else s

/-- A command's tokens come due now. -/
def State.oweTokens (s : State) (id : Nat) (ws : List Word) : State :=
  if ws.isEmpty then s else let f := s.fresh; f.2.updCmd id fun c => { c with owed := c.owed ++ ws.map fun w => (f.1, w) }

/-! ### Entry -/

/-- Room for n more entries in a core's range-lock table of 64 (R229). -/
def State.lockRoom (s : State) (core n : Nat) : Bool := decide ((s.locks.filter fun l => decide (l.core = core)).length + n ≤ 64)

/-- The ranges that take a lock entry. -/
def Ruling.locks (r : Ruling) : List Rng := r.ranges.filter fun x => decide (x.len ≠ 0)

/-- Enter a command: its id, age and sequence number, its locks, its presence clearings, made at once or held (R143, R229, R264). -/
def State.submit (s : State) (c : Cmd) (numbered : Bool) (ranges : List Rng) (lines : List Nat) : Nat × State :=
  let f := s.fresh
  let r := if numbered then let q := f.2.takeSeq c.team c.eng; (some q.1, q.2) else (none, f.2)
  let s := r.2
  let now := match s.team? c.team with | some t => t.canClear lines | none => true
  let away := match s.team? c.team with
    | some t => if c.eng.isArray then (ranges.flatMap fun x => if x.pool && !x.dst then linesOf x.lo x.len else []).filter t.lineAbsent else []
    | none => []
  let c := { c with id := f.1, age := f.1, seq := r.1, lines := lines, fillHeld := !now, awaits := away }
  let ls := (ranges.filter fun x => decide (x.len ≠ 0)).map fun x =>
    ({ cmd := f.1, core := c.core, ctx := c.ctx, team := c.team, pool := x.pool, lo := x.lo, len := x.len, dst := x.dst, stride := x.stride, row := x.row } : Lock)
  let s := { s with cmds := s.cmds ++ [c], locks := s.locks ++ ls }
  (f.1, if now then s.updTeam c.team fun t => t.clearLines lines else s)

/-- A command's fault as its recipients will see it (R273). -/
def Cmd.faultInfo (c : Cmd) (f : Nat × Nat × Nat) : FaultInfo :=
  { code := f.1, engine := c.eng.faultField, cause := f.2.1, async := true, fpc := c.pc, rpc := c.pc, addr := BitVec.ofNat 64 f.2.2,
    seq := BitVec.ofNat 32 (c.seq.getD 0), noseq := decide (c.eng = .xdie), tag := c.tag, word := c.word, cmd := c.words, age := c.age }

/-- Give a command's fault to its recipients. -/
def State.tellFault (s : State) (id : Nat) : State :=
  match s.cmd? id with
  | none => s
  | some c => match c.fault with
    | none => s
    | some f => c.recips.foldl (fun s t => s.asyncFault t f) s

/-- A command is past its done point: locks go, waiters wake, its fault and tokens go out. A matrix command that faults posts a FAULT token where it had asked for a token, and none otherwise. (log 83, DEDUCED) -/
def State.close (s : State) (id : Nat) : State :=
  match s.cmd? id with
  | none => s
  | some c =>
    let fault := c.fault.isSome
    let tok := if (fault && !c.eng.isArray) || !c.notok then [tokenWord c.tag (if fault then 2 else c.status) c.code] else []
    let s := (s.updCmd id fun c => { c with stage := .done, out := [] }).oweTokens id tok
    let s := ((s.releaseLocks id true).tellFault id).settleTokens id
    (s.wakeTeam c.team fun k => decide (k = .array)).unhold

/-- The rows of a tile's lock, or its range. -/
def Lock.spans (l : Lock) : List (Nat × Nat) :=
  if l.stride = 0 then [(l.lo, l.len)] else (List.range 128).map fun r => (l.lo + r * l.stride, l.row)

/-- Two locks have a byte in common, gaps of tiles apart (R187). -/
def Lock.shares (l m : Lock) : Bool := l.overlaps m.lo m.len && l.spans.any fun x => m.spans.any fun y => meets x.1 x.2 y.1 y.2

/-- An MCARRY may pass an earlier command of its array: no scan and no MCARRY, with no range that meets its own. Its turn comes when what its result and its carry block depend on is done (R166, R196, R400). (log 91, DEDUCED) -/
def State.carryPasses (s : State) (c e : Cmd) : Bool :=
  c.eng.isArray && decide (c.code = 0) && decide (e.code ≠ 0 ∧ e.code ≠ 0xE9) &&
  !(s.locks.any fun l => decide (l.cmd = e.id) && s.locks.any fun m => decide (m.cmd = c.id) && l.pool && m.pool && l.overlaps m.lo m.len)

/-- An earlier command that must finish first: of the same team in the engine, or any of the same array (R166, R264). -/
def State.behind (s : State) (c : Cmd) : Bool :=
  s.cmds.any fun e => decide (e.id < c.id) && decide (e.eng = c.eng) && (c.eng.isArray || decide (e.team = c.team)) &&
    e.unfinished && !e.handedOver && !s.carryPasses c e

/-- A packet's command, accepted or rejected (R43, R265). A rejected one registers nothing, and closes when the earlier ones of its team have (R264). (log 42, DEDUCED) -/
def State.acceptCmd (s : State) (c : Cmd) (r : Ruling) : State :=
  let c := { c with eng := r.eng, args := r.args, pages := r.pages }
  match r.reject with
  | none => (s.submit c (decide (r.eng ≠ .xdie)) r.ranges r.lines).2
  | some f =>
    let x := s.submit c (decide (r.eng ≠ .xdie)) [] []
    let s := x.2.updCmd x.1 fun c => { c with guard := none, stage := .consumed, idle := true, fault := some (c.faultInfo f) }
    match s.cmd? x.1 with
    | some c => if s.behind c then s else s.close x.1
    | none => s

/-! ### When a command may start -/

/-- The engine runs one command at a time (R275, R310). -/
def Engine.exclusive : Engine → Bool
  | .srt _ | .trv _ | .slv _ | .base _ => true
  | _ => false

/-- An MSTADD outside any set: two of them on different arrays whose tiles overlap are applied in the order of their locks (R186). -/
def Cmd.tileAdd (c : Cmd) : Bool := c.eng.isArray && decide (c.code = 0xE7) && !c.sequenced

/-- One of a command's ranges must wait for a lock: for a destination of another engine or array, or for the rows of a tile handed to a set, and, where the command writes the range, for a source of another array (R179, R187, R230). Of two overlapping unsequenced MSTADDs the one whose locks came first does not wait (R186). A line that the command has cleared does not wait for a source of a matrix command that awaits the line (R145). -/
def State.mustWait (s : State) (c : Cmd) (m l : Lock) : Bool :=
  decide (l.core = m.core ∧ l.ctx = m.ctx) && (l.pool == m.pool) && (!l.pool || decide (l.team = m.team)) &&
  l.overlaps m.lo m.len && decide (l.cmd ≠ c.id) &&
  (match s.cmd? l.cmd with
    | some e =>
      (l.dst || (m.dst && e.eng.isArray && !(c.lines.contains (m.lo / 128) && e.awaits.contains (m.lo / 128)))) &&
      (if e.handedOver then l.shares m else decide (e.eng ≠ c.eng)) &&
      !(l.dst && m.dst && e.tileAdd && c.tileAdd && decide (c.id < e.id))
    | none => false)

/-- A lock keeps the command at its queue's head. -/
def State.foreignLock (s : State) (c : Cmd) : Bool :=
  let mine := s.locks.filter fun l => decide (l.cmd = c.id)
  let lines := c.lines.map fun l =>
    ({ cmd := c.id, core := c.core, ctx := c.ctx, team := c.team, pool := true, lo := 128 * l, len := 128, dst := true } : Lock)
  (mine ++ lines).any fun m => s.locks.any (s.mustWait c m)

/-- A line among some of the command's ranges is absent (R145). A line that it alone has cleared does not hold it. (log 41, DEDUCED) -/
def State.lineWait (s : State) (c : Cmd) (dst : Bool) : Bool :=
  match s.team? c.team with
  | none => false
  | some t => s.locks.any fun l => decide (l.cmd = c.id) && l.pool && (l.dst == dst) &&
      (linesOf l.lo l.len).any fun x => t.lineAbsent x && !(c.lines.contains x && decide (t.fill x = 1))

/-- A segment that the command touches is missing on a team that is on its core (R90). -/
def State.segWait (s : State) (c : Cmd) : Bool :=
  (s.locks.any fun l => decide (l.cmd = c.id) && l.pool && s.poolMissing c.team l.lo l.len) ||
  c.lines.any fun l => s.poolMissing c.team (128 * l) 128

/-- The command's held clearings cannot be made yet (R143). -/
def State.fillWait (s : State) (c : Cmd) : Bool :=
  c.fillHeld && (match s.team? c.team with | some t => !t.canClear c.lines | none => false)

/-- A command stands at the head of its team's commands in its engine. -/
def State.teamHead (s : State) (c : Cmd) : Bool := decide (c.stage = .queued) && !s.behind c

/-- A command waits at its queue's head: no guard is pending on it, and nothing stands before it (R264, R268, R275). -/
def State.atHead (s : State) (c : Cmd) : Bool :=
  s.teamHead c && c.guard.isNone &&
  !(c.eng.exclusive && s.cmds.any fun e => decide (e.eng = c.eng ∧ e.id ≠ c.id) && !e.idle && (e.claimed || decide (e.stage ≠ .queued)) &&
    decide (e.stage ≠ .done))

/-- Make held presence clearings (R143). -/
def State.clearHeld (s : State) (c : Cmd) : State :=
  if c.fillHeld then (s.updTeam c.team fun t => t.clearLines c.lines).updCmd c.id fun c => { c with fillHeld := false } else s

/-- What a command does at the head: of its team's commands, it makes held clearings, whatever its guard; of its queue, it takes its place if no lock and no absent destination line keeps it. -/
def State.takeHead (s : State) (c : Cmd) : State :=
  if c.claimed || !s.teamHead c || s.fillWait c then s
  else
    let s := s.clearHeld c
    if !s.atHead c || s.foreignLock c || s.lineWait c true then s else s.updCmd c.id fun c => { c with claimed := true }

/-- Lines that a matrix command awaited and that are present now have been awaited. -/
def State.latchLines (s : State) : State :=
  { s with cmds := s.cmds.map fun c => match s.team? c.team with
      | some t => { c with awaits := c.awaits.filter t.lineAbsent }
      | none => { c with awaits := [] } }

/-- Every command that has come to its queue's head takes its place, in order of acceptance (log 32, DEDUCED). -/
def State.takeHeads (s : State) : State := let s := s.latchLines; s.cmds.foldl (fun s c => s.takeHead c) s

/-- A command may start: it has its place, nothing stands before it, the lines that it reads and writes are there, and no segment is missing (R90, R145, R178). -/
def State.startable (s : State) (c : Cmd) : Bool :=
  decide (c.stage = .queued) && c.claimed && !s.behind c && (if c.eng.isArray then c.awaits.isEmpty else !s.lineWait c false) && !s.lineWait c true && !s.segWait c

/-- Writes that a command still owes wait: for a line of their destination to be present, or for a missing segment (R90, R145). -/
def State.outWait (s : State) (c : Cmd) : Bool :=
  (!c.out.isEmpty && s.lineWait c true) || c.out.any fun w => w.pool && s.poolMissing c.team w.addr w.bytes.length

/-- A command runs: it reads its sources and computes what it will write. -/
def State.runNow (s : State) (c : Cmd) (f : State → Cmd → Ran × State) : State :=
  let r := f s c
  r.2.updCmd c.id fun c =>
    { c with stage := .running, out := r.1.out, status := r.1.status, csOut := r.1.csOut,
             fault := match r.1.fault with | some x => some (c.faultInfo x) | none => none }

/-- The row of a command code: it runs when the command may start. -/
def State.runCmd (s : State) (id code : Nat) (f : State → Cmd → Ran × State) : State :=
  match s.cmd? id with
  | none => s
  | some c => if c.code = code && !c.eng.isArray && s.startable c then s.runNow c f else s

/-! ### Reading and writing for a command -/

/-- Read for a command: team pool or virtual address; a twin copy's commands see its own buffered writes (R350). -/
def State.cmdRead (s : State) (c : Cmd) (pool : Bool) (a n : Nat) : Except (Nat × Nat) (List Byte) × State :=
  if n = 0 then (.ok [], s)
  else if pool then s.poolRead c.team a n
  else
    match s.readVa c.ctx a n with
    | (.error e, s) => (.error e, s)
    | (.ok bs, s) => (.ok (match s.team? c.team with | some t => overlay t.commit a bs | none => bs), s)

/-- Read several ranges in turn. -/
def State.cmdReads (s : State) (c : Cmd) : List (Bool × Nat × Nat) → Except (Nat × Nat) (List (List Byte)) × State
  | [] => (.ok [], s)
  | (p, a, n) :: rs =>
    match s.cmdRead c p a n with
    | (.error e, s) => (.error e, s)
    | (.ok bs, s) =>
      match s.cmdReads c rs with
      | (.error e, s) => (.error e, s)
      | (.ok bss, s) => (.ok (bs :: bss), s)

/-- The thread's team runs as a twin copy. -/
def State.cmdTwin (s : State) (c : Cmd) : Bool := match s.team? c.team with | some t => s.isTwin t | none => false

/-- The engine lies outside the LLCs: a base die or a buffer chip (R210). -/
def Engine.memorySide : Engine → Bool
  | .base _ | .cap _ => true
  | _ => false

/-- The physical address of a byte of a page that the command's engine translated at acceptance, for reading or for writing (R310). -/
def Cmd.kept (c : Cmd) (va : Nat) (write : Bool := false) : Option Nat :=
  (c.pages.find? fun p => decide (p.1 = va / 65536) && (p.2.2 || !write)).map fun p => p.2.1 + va % 65536

/-- A base die's and a buffer chip's destination bytes reach memory itself, and no LLC keeps them (R210). -/
def State.writeThrough (s : State) (c : Cmd) (a n : Nat) : State :=
  if c.eng.memorySide && s.locks.any (fun l => decide (l.cmd = c.id) && l.dst && decide (l.lo ≤ a ∧ a + n ≤ l.lo + l.len)) then
    match s.peek c.ctx a with
    | some x => s.cleanSectors (x.pa / 32) ((x.pa + n - 1) / 32)
    | none => s
  else s

/-- Who a command's writes are made for. -/
def Cmd.writer (c : Cmd) : Writer := { recips := c.recips, pc := c.pc, word := c.word }

/-- Write one page part, where the engine keeps a translation for writing by that one. Gives the address at which a marked sector has dropped some of it. -/
def State.writeKeptPart (s : State) (c : Cmd) (va : Nat) (bs : List Byte) : Except (Nat × Nat) (Option Nat) × State :=
  match c.kept va true with
  | none => let r := s.writePart c.ctx va bs c.writer; (r.1, match r.1 with | .ok _ => r.2.writeThrough c va bs.length | .error _ => r.2)
  | some pa =>
    match s.writeAround c.ctx false pa bs c.recips.head? with
    | (none, s) => (.ok none, s)
    | (some k, s) => (.ok (some (va + k)), s.mailDram c.ctx (pa + k) (va + k) 0 (bandHome pa))

/-- Write page parts; the first that fails stops it, and a part that a marked sector drops keeps no other part from being written (R235). -/
def State.writeKept (s : State) (c : Cmd) : List (Nat × Nat) → List Byte → Except (Nat × Nat) Unit × State
  | [], _ => (.ok (), s)
  | (va, n) :: ps, bs =>
    match s.writeKeptPart c va (bs.take n) with
    | (.error e, s) => (.error e, s)
    | (.ok none, s) => s.writeKept c ps (bs.drop n)
    | (.ok (some a), s) => (.error (fcMemUe, a), (s.writeKept c ps (bs.drop n)).2)

/-- Write for a command: to the pool, to a twin copy's commit buffer, or to memory. -/
def State.cmdWrite (s : State) (c : Cmd) (w : CmdWrite) : Except (Nat × Nat) Unit × State :=
  if w.bytes.isEmpty then (.ok (), s)
  else if w.pool then s.poolWrite c.team w.addr w.bytes
  else if s.cmdTwin c then
    match s.probeVa c.ctx w.addr w.bytes.length .store with
    | (.error e, s) => (.error e, s)
    | (.ok _, s) => (.ok (), (s.commitWrite c.team (1 + c.eng.number) (c.seq.getD 0) w.addr w.bytes).checkCommit c.team)
  else
    s.writeKept c (parts w.addr w.bytes.length) w.bytes

/-- Make a command's writes in order; it stops at the first that fails (R272). A failing MSTORE row that spans two pages leaves its first page's part written, and an accumulator that MSTORE or MDRAIN would zero at done, after its rows, stays as it was. (log 84, DEDUCED) -/
def State.cmdWrites (s : State) (c : Cmd) : List CmdWrite → Option (Nat × Nat) × State
  | [] => (none, s)
  | w :: ws =>
    match s.cmdWrite c w with
    | (.error e, s) => (some e, s)
    | (.ok _, s) => s.cmdWrites c ws

/-! ### Arrival, consumed and done -/

/-- The part of a write that lies in a pool range, if any. -/
def CmdWrite.within (w : CmdWrite) (lo len : Nat) : List CmdWrite :=
  let a := max w.addr lo
  let b := min (w.addr + w.bytes.length) (lo + len)
  if w.pool && decide (a < b) then [{ w with addr := a, bytes := (w.bytes.drop (a - w.addr)).take (b - a) }] else []

/-- The parts of a write that lie outside a pool range. -/
def CmdWrite.without (w : CmdWrite) (lo len : Nat) : List CmdWrite :=
  let e := w.addr + w.bytes.length
  if w.pool && decide (w.addr < lo + len ∧ lo < e) then
    (if w.addr < lo then [{ w with bytes := w.bytes.take (lo - w.addr) }] else []) ++
    (if lo + len < e then [{ w with addr := lo + len, bytes := w.bytes.drop (lo + len - w.addr) }] else [])
  else [w]

/-- A command's fault, and what it still owes to write is not written (R272). -/
def Cmd.stopAt (c : Cmd) (e : Option (Nat × Nat)) : Cmd :=
  match e with
  | some e => { c with fault := some (c.faultInfo (runFault e)), out := [] }
  | none => c

/-- LINE_ARRIVAL: the last byte that a command writes into a line is written, and the line's counter falls (R143). A write that fails stops the command there. -/
def execLineArrival (cmd line : Nat) (s : State) : Answer :=
  .next (match s.cmd? cmd with
    | none => s
    | some c =>
      if c.lines.contains line && decide (c.stage = .running ∨ c.stage = .consumed) && !s.poolMissing c.team (128 * line) 128 then
        let r := s.cmdWrites c (c.out.flatMap fun w => w.within (128 * line) 128)
        (r.2.updCmd cmd fun c =>
          ({ c with lines := c.lines.erase line, out := c.out.flatMap fun w => w.without (128 * line) 128 } : Cmd).stopAt r.1).arriveLine c.team line
      else s)

/-- The consumed point of a command that has run: its source locks go, a token asked for is owed, and MWAIT looks again (R177, R180). -/
def State.consume (s : State) (c : Cmd) : State :=
  let tok := if c.tokAtConsumed then [tokenWord c.tag (if c.fault.isSome then 2 else 0) 0xE2] else []
  let s := (s.updCmd c.id fun c => { c with stage := .consumed }).oweTokens c.id tok
  ((s.releaseLocks c.id false).settleTokens c.id).wakeTeam c.team fun k => decide (k = .array)

/-- Bytes that the command could not write fall to their lines with what they hold (R272). -/
def State.lowerLines (s : State) (c : Cmd) : State := (s.updCmd c.id fun c => { c with lines := [] }).arriveLines c.team c.lines

/-- Write a carry status word of the command's group (R195). -/
def State.putCs (s : State) (c : Cmd) : State :=
  match c.csOut with
  | none => s
  | some (n, w) => s.updGroup { team := c.team, group := c.group, lane := 0 } fun g => { g with cs := g.cs.set n w }

/-- The done point: the writes that remain, then everything that follows them. A command that faulted lowers the lines that it has not filled (R272). -/
def State.finish (s : State) (c : Cmd) : State :=
  let r := s.cmdWrites c c.out
  let c' := c.stopAt r.1
  let s := ((r.2.updCmd c.id fun x => { x with fault := c'.fault }).putCs c').lowerLines c
  s.close c.id

/-- A command may reach done: it has consumed, its lines and chunks have arrived unless it faulted, what it has yet to read or write is there, and earlier ones of its team are done (R90, R145, R264). -/
def State.finishable (s : State) (c : Cmd) : Bool :=
  decide (c.stage = .consumed) && ((c.lines.isEmpty && c.folds.isEmpty && c.chunks.isEmpty) || c.fault.isSome) && !s.behind c &&
  !c.handedOver && !s.outWait c && !(c.tileAdd && (s.segWait c || s.lineWait c true))

/-- A discarded command (R268): its lines come back, its locks go, it posts DISCARDED. -/
def State.discard (s : State) (c : Cmd) : State :=
  let s := if c.fillHeld then s.updCmd c.id fun c => { c with lines := [] } else s.lowerLines c
  (s.updCmd c.id fun c => { c with guard := none, status := 1, out := [], stage := .consumed, idle := true, fillHeld := false }).releaseLocks c.id true

end Sys2Proof.Machine
end

