-- ==== Sys2Proof/Machine/Copy.lean ====
section
/-! DEFINITION. The copy engine: COPY1D, COPY2D, COPY3D and FILL (R144, R270, R271). -/

namespace Sys2Proof.Machine

/-- A copy's shape, as COPY3D's words give it (R271). FILL has a pattern and no source. -/
structure CopyShape where
  src : Nat
  dst : Nat
  row : Nat
  rows : Nat
  srs : Nat
  drs : Nat
  planes : Nat
  sps : Nat
  dps : Nat
  pattern : Option Word := none
  deriving DecidableEq, Repr

/-- The word at an index, unsigned. -/
def wAt (ws : List Word) (i : Nat) : Nat := (ws.getD i 0).toNat

/-- Command word 0's flags (R262). -/
def cmdFlags (ws : List Word) : Nat := wAt ws 0 / 256 % 256
/-- Command word 0's flag bit. -/
def cmdFlag (ws : List Word) (b : Nat) : Bool := (ws.getD 0 0).getLsbD (8 + b)

/-- An address of a copy: a team pool address has one word (R270). -/
def copyAddr (ws : List Word) (i : Nat) (pool : Bool) : Nat := if pool then wAt ws i else wordPair ws i

/-- The shape that a copy command's words name (R270): one row, one plane, or all of it. -/
def copyShape (code : Nat) (ws : List Word) : CopyShape :=
  let sp := cmdFlag ws 0
  let dp := cmdFlag ws 1
  if code = 4 then
    { src := 0, dst := copyAddr ws 1 dp, row := wAt ws 3, rows := 1, srs := 0, drs := wAt ws 3, planes := 1, sps := 0, dps := wAt ws 3,
      pattern := some (ws.getD 4 0) }
  else if code = 1 then
    { src := copyAddr ws 1 sp, dst := copyAddr ws 3 dp, row := wAt ws 5, rows := 1, srs := wAt ws 5, drs := wAt ws 5, planes := 1,
      sps := wAt ws 5, dps := wAt ws 5 }
  else if code = 2 then
    { src := copyAddr ws 1 sp, dst := copyAddr ws 3 dp, row := wAt ws 5, rows := wAt ws 6, srs := wAt ws 7, drs := wAt ws 8, planes := 1,
      sps := 0, dps := wAt ws 6 * wAt ws 8 }
  else
    { src := copyAddr ws 1 sp, dst := copyAddr ws 3 dp, row := wAt ws 5, rows := wAt ws 6, srs := wAt ws 7, drs := wAt ws 8,
      planes := wAt ws 9, sps := wAt ws 10, dps := wAt ws 11 }

/-- Nothing is moved (R270). -/
def CopyShape.empty (k : CopyShape) : Bool := decide (k.row = 0 ∨ k.rows = 0 ∨ k.planes = 0)

/-- Bytes from the first to the last byte touched on a side with these strides. -/
def CopyShape.span (k : CopyShape) (rs ps : Nat) : Nat := if k.empty then 0 else (k.planes - 1) * ps + (k.rows - 1) * rs + k.row

/-- Row offsets on a side, rows ascending within ascending planes (R271). -/
def CopyShape.offsets (k : CopyShape) (rs ps : Nat) : List Nat :=
  if k.empty then [] else (List.range k.planes).flatMap fun p => (List.range k.rows).map fun r => p * ps + r * rs

/-- Word counts of the copy commands. -/
def copyCount (code : Nat) : Nat := if code = 1 then 6 else if code = 2 then 9 else if code = 3 then 12 else 5

/-- The pool ranges of rows that keep within R83 and clear of declared queues over the whole span. -/
def copyPoolOk (d : KDesc) (t : Team) (a n : Nat) : Bool := decide (n = 0) || (poolIn d t a n && !inQueueStorage d a n)

/-- The copy engine's checks and what a copy registers (R143, R144, R229, R270). -/
def State.ruleCopy (s : State) (team : Nat) (eng : Engine) (ws : List Word) : Ruling :=
  let code := wAt ws 0 % 256
  match s.team? team with
  | none => Ruling.no eng fcIllegalOp
  | some t =>
    let d := s.descOf t
    let k := copyShape code ws
    let sp := cmdFlag ws 0
    let dp := cmdFlag ws 1
    let aligned := [k.src, k.dst, k.row, k.srs, k.drs, k.sps, k.dps].all fun x => decide (x % 4 = 0)
    let sn := if k.pattern.isSome then 0 else k.span k.srs k.sps
    let dn := k.span k.drs k.dps
    if code = 0 ∨ 4 < code ∨ ws.length ≠ copyCount code ∨ 16 ≤ cmdFlags ws then Ruling.no eng fcIllegalOp
    else if code = 4 && sp then Ruling.no eng fcIllegalOp
    else if !aligned then Ruling.no eng fcMisalign (if k.src % 4 ≠ 0 then k.src else if k.dst % 4 ≠ 0 then k.dst else 0)
    else if (code = 2 ∨ code = 3) && decide (k.drs < k.row) then Ruling.no eng fcIllegalOp
    else if code = 3 && decide (k.dps < k.rows * k.drs) then Ruling.no eng fcIllegalOp
    else if sp && !copyPoolOk d t k.src sn then Ruling.no eng fcPoolRange k.src
    else if dp && !copyPoolOk d t k.dst dn then Ruling.no eng fcPoolRange k.dst
    else
      let pres := dp && cmdFlag ws 2 && decide (k.dst < winRegion)
      let src := if k.pattern.isSome then [] else [({ pool := sp, lo := k.src, len := sn } : Rng)]
      let dst := if pres then [] else [({ pool := dp, lo := k.dst, len := dn, dst := true } : Rng)]
      let lines := if pres then ((k.offsets k.drs k.dps).flatMap fun o => linesOf (k.dst + o) k.row).dedup else []
      { eng := eng, ranges := src ++ dst, lines := lines }

/-- Read the rows of a copy. The whole source is read before any destination byte is written, so that a copy whose source fails writes nothing (R271). (log 67, DEDUCED) -/
def State.copyRows (s : State) (c : Cmd) (k : CopyShape) (sp dp : Bool) : List (Nat × Nat) → Ran × State
  | [] => ({}, s)
  | (so, do_) :: os =>
    match s.cmdRead c sp (k.src + so) k.row with
    | (.error e, s) => (Ran.failed e, s)
    | (.ok bs, s) =>
      let r := s.copyRows c k sp dp os
      ({ r.1 with out := if r.1.fault.isSome then [] else { pool := dp, addr := k.dst + do_, bytes := bs } :: r.1.out }, r.2)

/-- The run of a copy or a fill (R271). -/
def State.runCopy (s : State) (c : Cmd) : Ran × State :=
  let k := copyShape c.code c.words
  let sp := cmdFlag c.words 0
  let dp := cmdFlag c.words 1
  match k.pattern with
  | some p => ({ out := if k.row = 0 then [] else [{ pool := dp, addr := k.dst, bytes := bytesOf (List.replicate (k.row / 4) p) }] }, s)
  | none => s.copyRows c k sp dp ((k.offsets k.srs k.sps).zip (k.offsets k.drs k.dps))

/-- COPY1D. -/
def execCopy1d (cmd : Nat) (s : State) : Answer := .next (s.runCmd cmd 0x01 fun s c => s.runCopy c)
/-- COPY2D. -/
def execCopy2d (cmd : Nat) (s : State) : Answer := .next (s.runCmd cmd 0x02 fun s c => s.runCopy c)
/-- COPY3D. -/
def execCopy3d (cmd : Nat) (s : State) : Answer := .next (s.runCmd cmd 0x03 fun s c => s.runCopy c)
/-- FILL. -/
def execFill (cmd : Nat) (s : State) : Answer := .next (s.runCmd cmd 0x04 fun s c => s.runCopy c)

end Sys2Proof.Machine
end

