-- ==== Sys2Proof/Machine/Physics.lean ====
section
/-! DEFINITION. The cluster engines (R275 to R291): the sort unit (SORT, SORTSEG), the traversal unit (TRVPAIR, TRVQ) and the solver (FACT, SOLVE, SOLVEBWD, LCP). -/

namespace Sys2Proof.Machine

/-! ### Acceptance (R276, R277) -/

/-- A span of a command: address, length, alignment, destination or source, locked or not. -/
structure Span where
  a : Nat
  n : Nat
  al : Nat
  dst : Bool := false
  lock : Bool := true
  deriving DecidableEq, Repr

/-- The span leaves the 57-bit space. -/
def Span.outside (x : Span) : Bool := decide (2 ^ 57 ≤ x.a ∨ 2 ^ 57 < x.a + x.n)

/-- The lock range of a span. -/
def Span.rng (x : Span) : Rng := { lo := x.a, len := x.n, dst := x.dst }

/-- Two spans meet otherwise than as `ok` allows. -/
def clash (ok : Span → Span → Bool) : List Span → Bool
  | [] => false
  | x :: xs => (xs.any fun y => meets x.a x.n y.a y.n && !ok x y) || clash ok xs

/-- Accept a command by its fields and spans: reserved flags, field rules, alignment, address range, overlaps. (log 99, DESIGN CHOICE) -/
def ruleSpans (eng : Engine) (ws : List Word) (count : Nat) (fields : Bool) (spans : List Span) (overlap : Bool) : Ruling :=
  if ws.length ≠ count || decide (cmdFlags ws / 16 ≠ 0) || decide (cmdFlags ws % 8 ≠ 0) || !fields then Ruling.no eng fcIllegalOp
  else
    match spans.find? fun x => decide (x.a % x.al ≠ 0) with
    | some x => Ruling.no eng fcMisalign x.a
    | none =>
      match spans.find? Span.outside with
      | some x => Ruling.no eng fcPageAbsent x.a
      | none =>
        if overlap then Ruling.no eng fcIllegalOp
        else { eng := eng, ranges := (spans.filter Span.lock).map Span.rng }

/-! ### The sort unit (R279 to R281) -/

/-- A sort's fields. -/
structure SortF where
  kin : Nat
  vin : Nat
  kout : Nat
  vout : Nat
  c : Nat
  kb : Nat
  vb : Nat
  rsv : Nat
  wsp : Nat
  seg : Option (Nat × Nat)
  deriving DecidableEq, Repr

def sortF (code : Nat) (ws : List Word) : SortF :=
  { kin := wordPair ws 1, vin := wordPair ws 3, kout := wordPair ws 5, vout := wordPair ws 7, c := wAt ws 9, kb := wAt ws 10 % 256 / 8,
    vb := wAt ws 10 / 256 % 256, rsv := wAt ws 10 / 65536, wsp := wordPair ws 11,
    seg := if code = 0x11 then some (wordPair ws 13, wAt ws 15) else none }

/-- SORT's and SORTSEG's rules. -/
def ruleSort (eng : Engine) (ws : List Word) : Ruling :=
  let code := wAt ws 0 % 256
  let f := sortF code ws
  let kbits := wAt ws 10 % 256
  let fields := (decide (kbits = 32 ∨ kbits = 64)) && decide (f.vb = 0 ∨ f.vb = 4 ∨ f.vb = 8) && decide (f.c ≤ 2 ^ 24) &&
    (decide (f.vb = 0) == decide (f.vin = 0)) && decide (f.rsv = 0) &&
    (match f.seg with | some (_, cs) => decide (1 ≤ cs ∧ cs ≤ 2 ^ 20) | none => true)
  let spans : List Span :=
    [{ a := f.kin, n := f.c * f.kb, al := f.kb }, { a := f.kout, n := f.c * f.kb, al := f.kb, dst := true },
     { a := f.wsp, n := f.c * (f.kb + f.vb), al := 8, dst := true }] ++
    (if f.vb = 0 then [] else [{ a := f.vin, n := f.c * f.vb, al := f.vb }, { a := f.vout, n := f.c * f.vb, al := f.vb, dst := true }]) ++
    (match f.seg with | some (o, cs) => [{ a := o, n := 4 * (cs + 1), al := 4 }] | none => [])
  let same := fun (x y : Span) =>
    (decide (x.a = f.kin ∧ y.a = f.kout) || decide (f.vb ≠ 0 ∧ x.a = f.vin ∧ y.a = f.vout)) && (!x.dst && y.dst) && decide (x.n = y.n ∧ x.a = y.a)
  ruleSpans eng ws (if code = 0x11 then 16 else 13) fields spans (clash same spans)

/-- Cut bytes into elements of n bytes. -/
def cut (n : Nat) : Nat → List Byte → List (List Byte)
  | 0, _ => []
  | k + 1, bs => bs.take n :: cut n k (bs.drop n)

/-- The segments that offsets name: start and end. -/
def segments : List Nat → List (Nat × Nat)
  | a :: b :: os => (a, b) :: segments (b :: os)
  | _ => []

/-- Sort the elements of each segment by a key, stably. -/
def sortSegs (key : List Byte × List Byte → Nat) (els : List (List Byte × List Byte)) (segs : List (Nat × Nat)) : List (List Byte × List Byte) :=
  segs.flatMap fun g => sortBy key ((els.drop g.1).take (g.2 - g.1))

/-- What the passes of a sort write, in order (R280): pass p leaves the elements of each segment stably ordered by key bits 8p + 7:0, in the workspace when p is even and in the outputs when it is odd. -/
def SortF.passes (f : SortF) (segs : List (Nat × Nat)) (els : List (List Byte × List Byte)) : List CmdWrite :=
  (List.range f.kb).flatMap fun p =>
    let xs := sortSegs (fun x => leNat x.1 % 2 ^ (8 * (p + 1))) els segs
    let put := fun (a : Nat) (bss : List (List Byte)) => ({ pool := false, addr := a, bytes := bss.flatten } : CmdWrite)
    let ks := xs.map fun x => x.1
    let vs := xs.map fun x => x.2
    if p % 2 = 0 then [put f.wsp ks, put (f.wsp + f.c * f.kb) vs] else [put f.kout ks, put f.vout vs]

/-- The segments of a sort: the whole array, or those that SORTSEG's offsets name, which are read and checked first (R281). -/
def State.sortSegments (s : State) (c : Cmd) (f : SortF) : Except Ran (List (Nat × Nat)) × State :=
  match f.seg with
  | none => (.ok [(0, f.c)], s)
  | some (o, cs) =>
    match s.cmdRead c false o (4 * (cs + 1)) with
    | (.error e, s) => (.error (Ran.failed e), s)
    | (.ok bs, s) =>
      let os := (wordsOf bs).map fun w => w.toNat
      if decide (os.getD 0 1 = 0) && decide (os.getLastD 0 = f.c) && (segments os).all fun g => decide (g.1 ≤ g.2) then (.ok (segments os), s)
      else (.error (Ran.broken fcIllegalOp), s)

/-- The run of a sort. (log 100, DEDUCED) -/
def State.runSort (s : State) (c : Cmd) : Ran × State :=
  let f := sortF c.code c.words
  if f.c = 0 then ({}, s)
  else
    match s.sortSegments c f with
    | (.error r, s) => (r, s)
    | (.ok segs, s) =>
      match s.cmdReads c [(false, f.kin, f.c * f.kb), (false, f.vin, f.c * f.vb)] with
      | (.error e, s) => (Ran.failed e, s)
      | (.ok r, s) => ({ out := f.passes segs ((cut f.kb f.c (r.getD 0 [])).zip (cut f.vb f.c (r.getD 1 []))) }, s)

/-- SORT. -/
def execSort (cmd : Nat) (s : State) : Answer := .next (s.runCmd cmd 0x10 fun s c => s.runSort c)
/-- SORTSEG. -/
def execSortseg (cmd : Nat) (s : State) : Answer := .next (s.runCmd cmd 0x11 fun s c => s.runSort c)

/-! ### The traversal unit (R282 to R284) -/

/-- TRVPAIR's and TRVQ's rules. (log 38, DEDUCED) -/
def ruleTrv (eng : Engine) (ws : List Word) : Ruling :=
  if wAt ws 0 % 256 = 0x21 then
    ruleSpans eng ws 10 true
      [{ a := wordPair ws 1, n := 8 * wAt ws 3, al := 4 }, { a := wordPair ws 4, n := 0, al := 4, lock := false },
       { a := wordPair ws 6, n := 8 * wAt ws 3, al := 4, dst := true }, { a := wordPair ws 8, n := 4, al := 4, dst := true }] false
  else
    ruleSpans eng ws 12 (!(ws.getD 3 0).getLsbD 31)
      [{ a := wordPair ws 1, n := 0, al := 64, lock := false }, { a := wordPair ws 4, n := 24 * wAt ws 6, al := 4 },
       { a := wordPair ws 7, n := 8 * wAt ws 9, al := 4, dst := true }, { a := wordPair ws 10, n := 4, al := 4, dst := true }] false

/-- The six bounds of a box. -/
def boxOf (f : Fmt) (n : Nat) (bs : List Byte) : List FVal := (cut n 6 bs).map fun b => f.val (leNat b)

/-- a ≤ b as numbers; false with a NaN. -/
def fLe (a b : FVal) : Bool := match fOrd a b with | some .lt | some .eq => true | _ => false

/-- Closed boxes overlap; a box that is empty on some axis overlaps nothing (R282). -/
def boxOverlap (a b : List FVal) : Bool :=
  (List.range 3).all fun k =>
    let g := fun (l : List FVal) (i : Nat) => l.getD i .nan
    fLe (g a k) (g b (k + 3)) && fLe (g b k) (g a (k + 3)) && fLe (g a k) (g a (k + 3)) && fLe (g b k) (g b (k + 3))

/-- Test pairs in order; stops at a failed read. -/
def State.trvPairs (s : State) (c : Cmd) (table : Nat) : List (List Byte) → List (List Byte) × Option (Nat × Nat) × State
  | [] => ([], none, s)
  | p :: ps =>
    let at_ := fun (o : Nat) => (false, (table + 24 * u32At p o) % 2 ^ 64, 24)
    match s.cmdReads c [at_ 0, at_ 4] with
    | (.error e, s) => ([], some e, s)
    | (.ok r, s) =>
      let q := s.trvPairs c table ps
      (if boxOverlap (boxOf .fp32 4 (r.getD 0 [])) (boxOf .fp32 4 (r.getD 1 [])) then p :: q.1 else q.1, q.2)

/-- TRVPAIR (R282): the count is written last. -/
def execTrvpair (cmd : Nat) (s : State) : Answer :=
  .next (s.runCmd cmd 0x21 fun s c =>
    let w := c.words
    match s.cmdRead c false (wordPair w 1) (8 * wAt w 3) with
    | (.error e, s) => (Ran.failed e, s)
    | (.ok bs, s) =>
      let r := s.trvPairs c (wordPair w 4) (cut 8 (wAt w 3) bs)
      let hits : CmdWrite := { pool := false, addr := wordPair w 6, bytes := r.1.flatten }
      match r.2.1 with
      | some e => ({ Ran.failed e with out := [hits] }, r.2.2)
      | none => ({ out := [hits, { pool := false, addr := wordPair w 8, bytes := leBytes 4 r.1.length }] }, r.2.2))

/-- What a traversal has found: the hits so far, newest first, their number, and a fault. -/
structure Trav where
  hits : List (Nat × Nat) := []
  n : Nat := 0
  fault : Option (Nat × Nat × Nat) := none

/-- Visit a node and its children in slot order; an empty slot's box is not read (R283, R284). -/
def State.visit (c : Cmd) (base cap j : Nat) (query : List FVal) : Nat → Nat → Trav × State → Trav × State
  | 0, _, (v, s) => ({ v with fault := some (fcEngineCmd, fcIllegalOp, 0) }, s)
  | fuel + 1, node, (v, s) =>
    let at_ := fun (o : Nat) => (base + 64 * node + o) % 2 ^ 64
    match s.cmdRead c false (at_ 48) 16 with
    | (.error e, s) => ({ v with fault := some (runFault e) }, s)
    | (.ok refs, s) =>
      (List.range 4).foldl (fun (acc : Trav × State) k =>
        let ref := u32At refs (4 * k)
        if acc.1.fault.isSome ∨ ref = 0xFFFFFFFF then acc
        else
          match acc.2.cmdRead c false (at_ (12 * k)) 12 with
          | (.error e, s) => ({ acc.1 with fault := some (runFault e) }, s)
          | (.ok box, s) =>
            if !boxOverlap query (boxOf .fp16 2 box) then (acc.1, s)
            else if 2 ^ 31 ≤ ref then
              ({ acc.1 with n := acc.1.n + 1, hits := if acc.1.n < cap then (j, ref - 2 ^ 31) :: acc.1.hits else acc.1.hits }, s)
            else State.visit c base cap j query fuel ref (acc.1, s)) (v, s)

/-- TRVQ (R284). -/
def execTrvq (cmd : Nat) (s : State) : Answer :=
  .next (s.runCmd cmd 0x20 fun s c =>
    let w := c.words
    match s.cmdRead c false (wordPair w 4) (24 * wAt w 6) with
    | (.error e, s) => (Ran.failed e, s)
    | (.ok bs, s) =>
      let r := ((cut 24 (wAt w 6) bs).zipIdx).foldl (fun (acc : Trav × State) q =>
        if acc.1.fault.isSome then acc
        else State.visit c (wordPair w 1) (wAt w 9) q.2 (boxOf .fp32 4 q.1) 64 (wAt w 3) acc) (({} : Trav), s)
      let out : CmdWrite :=
        { pool := false, addr := wordPair w 7, bytes := r.1.hits.reverse.flatMap fun h => leBytes 4 h.1 ++ leBytes 4 h.2 }
      match r.1.fault with
      | some f => ({ out := [out], fault := some f }, r.2)
      | none => ({ out := [out, { pool := false, addr := wordPair w 10, bytes := leBytes 4 r.1.n }] }, r.2))

/-! ### The solver (R285 to R290) -/

/-- The working precision (R285). -/
def slvFmt (fp64 : Bool) : Fmt := if fp64 then .fp64 else .fp32
/-- Element bytes. -/
def slvBytes (fp64 : Bool) : Nat := if fp64 then 8 else 4

/-- Round to nearest in a format. -/
def rneTo (f : Fmt) (e : FExact) : Nat := f.round .rne false false e
/-- −a × b + c in one rounding. -/
def nfma (f : Fmt) (a b c : Nat) : Nat := rneTo f (fFma .rne (f.val a).neg (f.val b) (f.val c))
/-- A correctly rounded quotient. -/
def fdivTo (f : Fmt) (a b : Nat) : Nat := rneTo f (fDiv (f.val a) (f.val b))
/-- A value converted to another format. -/
def fconv (f g : Fmt) (c : Nat) : Nat := rneTo g (f.val c).exact

/-- A factorisation in progress: D, original pivots, the mask of replaced ones, the columns of L and W. -/
structure Fact where
  d : List Nat := []
  orig : List Nat := []
  mask : Nat := 0
  l : List (List Nat) := []
  w : List (List Nat) := []
  deriving DecidableEq, Repr

/-- Row i of a column k. -/
def colAt (m : List (List Nat)) (k i : Nat) : Nat := (m.getD k []).getD i 0

/-- One pivot and its column (R286). -/
def factStep (f : Fmt) (n tau : Nat) (a : Nat → Nat → Nat) (x : Fact) (j : Nat) : Fact :=
  let sub := fun (i : Nat) => (List.range j).foldl (fun t k => nfma f (colAt x.w k i) (colAt x.l k j) t) (a i j)
  -- a NaN that no operation has produced becomes the canonical one (R97, R276)
  let s := if (f.val (sub j)).isNan then f.nanCode else sub j
  let low := match fOrd (f.val s) (f.val tau) with | some .lt => true | none => true | _ => false
  let dj := if low then tau else s
  let w := (List.range n).map fun i => if j < i then sub i else 0
  let l := (List.range n).map fun i => if j < i then fdivTo f (w.getD i 0) dj else if i = j then rneTo f (.fin false 1 0 false) else 0
  { d := x.d ++ [dj], orig := x.orig ++ [if low then s else 0], mask := if low then x.mask + 2 ^ j else x.mask,
    l := x.l ++ [l], w := x.w ++ [w] }

def factor (f : Fmt) (n tau : Nat) (a : Nat → Nat → Nat) : Fact := (List.range n).foldl (factStep f n tau a) {}

/-- The factor record (R287). -/
def factRecord (fp64 : Bool) (n tau : Nat) (x : Fact) : List Byte :=
  let slots := fun (l : List Nat) => (List.range 16).flatMap fun i => leBytes 8 (l.getD i 0)
  leBytes 4 n ++ leBytes 4 (if fp64 then 1 else 0) ++ leBytes 4 (popcount 16 x.mask) ++ leBytes 4 x.mask ++ leBytes 8 tau ++
    List.replicate 40 0 ++ slots x.d ++ slots x.orig ++
    (List.range 16).flatMap fun i => (List.range 16).flatMap fun j => leBytes 8 (if i < n then colAt x.l j i else 0)

/-- τ in the working precision. -/
def slvTau (fp64 : Bool) (bits : Nat) : Nat := if fp64 then bits else fconv .fp64 .fp32 bits

/-- A value is positive and finite. -/
def posFinite (f : Fmt) (c : Nat) : Bool := match f.val c with | .fin n m _ => !n && decide (m ≠ 0) | _ => false

/-- FACT's rules. -/
def ruleFact (eng : Engine) (ws : List Word) : Ruling :=
  let n := wAt ws 3 % 32
  let fp64 := (ws.getD 3 0).getLsbD 5
  let e := slvBytes fp64
  let fields := decide (1 ≤ n ∧ n ≤ 16 ∧ wAt ws 3 < 64) && posFinite .fp64 (wordPair ws 6) &&
    posFinite (slvFmt fp64) (slvTau fp64 (wordPair ws 6))
  let sp : List Span := [{ a := wordPair ws 1, n := e * n * n, al := e }, { a := wordPair ws 4, n := 0x940, al := 64, dst := true }]
  ruleSpans eng ws 8 fields sp false

/-- Elements of e bytes. -/
def elems (e : Nat) (bs : List Byte) : List Nat := (cut e (bs.length / e) bs).map leNat

/-- FACT (R286): the rows of the lower triangle alone are read. -/
def execFact (cmd : Nat) (s : State) : Answer :=
  .next (s.runCmd cmd 0x30 fun s c =>
    let w := c.words
    let n := wAt w 3 % 32
    let fp64 := (w.getD 3 0).getLsbD 5
    let tau := slvTau fp64 (wordPair w 6)
    let e := slvBytes fp64
    match s.cmdReads c ((List.range n).map fun i => (false, wordPair w 1 + e * n * i, e * (i + 1))) with
    | (.error e, s) => (Ran.failed e, s)
    | (.ok rows, s) =>
      let m := rows.map (elems e)
      let x := factor (slvFmt fp64) n tau fun i j => (m.getD i []).getD j 0
      ({ out := [{ pool := false, addr := wordPair w 4, bytes := factRecord fp64 n tau x }], status := if x.mask = 0 then 0 else 5 }, s))

/-- A factor record as read (R287). -/
structure FRec where
  n : Nat
  fp64 : Bool
  d : List Nat
  l : Nat → Nat → Nat

/-- Read a record's header and values, if its header is valid. -/
def frecOf (bs : List Byte) : Option FRec :=
  let n := u32At bs 0
  let fl := u32At bs 4
  if decide (1 ≤ n ∧ n ≤ 16 ∧ fl ≤ 1) && zeroAt bs 0x18 40 then
    let fp64 := decide (fl = 1)
    let get := fun (o : Nat) => if fp64 then u64At bs o else u32At bs o
    some { n := n, fp64 := fp64, d := (List.range n).map fun i => get (0x40 + 8 * i), l := fun i j => get (0x140 + 8 * (16 * i + j)) }
  else none

/-- Forward substitution, division and backward substitution (R288). -/
def FRec.solve (r : FRec) (b : List Nat) : List Nat :=
  let f := slvFmt r.fp64
  let y := (List.range r.n).foldl (fun (y : List Nat) i =>
    y ++ [(List.range i).foldl (fun t k => nfma f (r.l i k) (y.getD k 0) t) (b.getD i 0)]) []
  let z := (List.range r.n).map fun i => fdivTo f (y.getD i 0) (r.d.getD i 0)
  (List.range r.n).foldl (fun (x : List Nat) q =>
    let i := r.n - 1 - q
    -- x holds the elements above i
    ((List.range q).foldl (fun t p => nfma f (r.l (i + 1 + p) i) (x.getD p 0) t) (z.getD i 0)) :: x) []

/-- A command's locks, in the order in which it registered them, resized where a length is given. -/
def narrowLocks (id : Nat) : List (Option Nat) → List Lock → List Lock
  | _, [] => []
  | [], ls => ls
  | n :: ns, l :: ls => if l.cmd = id then (match n with | some k => { l with len := k } | none => l) :: narrowLocks id ns ls else l :: narrowLocks id (n :: ns) ls

/-- Narrow a starting command's locks (R288). -/
def State.narrow (s : State) (id : Nat) (ns : List (Option Nat)) : State := { s with locks := narrowLocks id ns s.locks }

/-- SOLVE's rules at acceptance. -/
def ruleSolve (eng : Engine) (ws : List Word) : Ruling :=
  let m := wAt ws 7
  ruleSpans eng ws 8 (decide (1 ≤ m ∧ m ≤ 64))
    [{ a := wordPair ws 1, n := 0x940, al := 64 }, { a := wordPair ws 3, n := 128 * m, al := 4 },
     { a := wordPair ws 5, n := 128 * m, al := 4, dst := true }] false

/-- Read the record of a solve, or what stops the command. -/
def State.readRecord (s : State) (c : Cmd) : Except Ran FRec × State :=
  match s.cmdRead c false (wordPair c.words 1) 0x940 with
  | (.error e, s) => (.error (Ran.failed e), s)
  | (.ok bs, s) => match frecOf bs with
    | none => (.error (Ran.broken fcIllegalOp), s)
    | some r => (.ok r, s)

/-- SOLVE (R288). -/
def execSolve (cmd : Nat) (s : State) : Answer :=
  .next (s.runCmd cmd 0x31 fun s c =>
    match s.readRecord c with
    | (.error r, s) => (r, s)
    | (.ok r, s) =>
      let w := c.words
      let b := wordPair w 3
      let x := wordPair w 5
      let e := slvBytes r.fp64
      let n := e * r.n * wAt w 7
      let s := s.narrow c.id [none, some n, some n]
      if b % e ≠ 0 ∨ x % e ≠ 0 then (Ran.brokenAt fcMisalign (if b % e ≠ 0 then b else x), s)
      else if meets b n x n && decide (b ≠ x) then (Ran.broken fcIllegalOp, s)
      else
        match s.cmdRead c false b n with
        | (.error e, s) => (Ran.failed e, s)
        | (.ok bs, s) =>
          let sol := (cut (e * r.n) (wAt w 7) bs).flatMap fun q => (r.solve (elems e q)).flatMap (leBytes e)
          ({ out := [{ pool := false, addr := x, bytes := sol }] }, s))

/-- SOLVEBWD's rules at acceptance. -/
def ruleSolveBwd (eng : Engine) (ws : List Word) : Ruling :=
  ruleSpans eng ws 12 (decide (wAt ws 11 < 2))
    [{ a := wordPair ws 1, n := 0x940, al := 64 }, { a := wordPair ws 3, n := 128, al := 4 }, { a := wordPair ws 5, n := 128, al := 4 },
     { a := wordPair ws 7, n := 128, al := 4, dst := true }, { a := wordPair ws 9, n := 2048, al := 4, dst := true }] false

/-- SOLVEBWD (R289): its spans are checked at start as SOLVE's are, for alignment and for any overlap of a destination other than exact equality. (log 87, DEDUCED) -/
def execSolvebwd (cmd : Nat) (s : State) : Answer :=
  .next (s.runCmd cmd 0x32 fun s c =>
    match s.readRecord c with
    | (.error r, s) => (r, s)
    | (.ok r, s) =>
      let w := c.words
      let at_ := wordPair w
      let e := slvBytes r.fp64
      let n := e * r.n
      let s := s.narrow c.id [none, some n, some n, some n, some (n * r.n)]
      let spans : List Span := [{ a := at_ 3, n := n, al := e }, { a := at_ 5, n := n, al := e }, { a := at_ 7, n := n, al := e, dst := true },
        { a := at_ 9, n := n * r.n, al := e, dst := true }]
      match spans.find? fun x => decide (x.a % e ≠ 0) with
      | some x => (Ran.brokenAt fcMisalign x.a, s)
      | none =>
      if clash (fun x y => (!x.dst && !y.dst) || decide (x.a = y.a ∧ x.n = y.n)) spans then (Ran.broken fcIllegalOp, s)
      else
        let adda := decide (wAt w 11 = 1)
        match s.cmdReads c [(false, at_ 3, n), (false, at_ 5, n), (false, at_ 9, if adda then n * r.n else 0)] with
        | (.error e, s) => (Ran.failed e, s)
        | (.ok bs, s) =>
          let f := slvFmt r.fp64
          let gb := r.solve (elems e (bs.getD 0 []))
          let x := elems e (bs.getD 1 [])
          let old := elems e (bs.getD 2 [])
          let da := (List.range r.n).flatMap fun i => (List.range r.n).map fun j =>
            if adda then nfma f (gb.getD i 0) (x.getD j 0) (old.getD (r.n * i + j) 0)
            else rneTo f (fMul (f.val (gb.getD i 0)).neg (f.val (x.getD j 0)))
          ({ out := [{ pool := false, addr := at_ 7, bytes := gb.flatMap (leBytes e) },
                     { pool := false, addr := at_ 9, bytes := da.flatMap (leBytes e) }] }, s))

/-- LCP's rules. -/
def ruleLcp (eng : Engine) (ws : List Word) : Ruling :=
  let n := wAt ws 11 % 32
  let e := slvBytes ((ws.getD 11 0).getLsbD 5)
  let tol := Fmt.fp64.val (wordPair ws 13)
  let fields := decide (1 ≤ n ∧ n ≤ 16 ∧ wAt ws 11 < 64 ∧ 1 ≤ wAt ws 12 ∧ wAt ws 12 ≤ 2 ^ 20) && fLe (.fin false 0 0) tol
  ruleSpans eng ws 17 fields
    [{ a := wordPair ws 1, n := e * n * n, al := e }, { a := wordPair ws 3, n := e * n, al := e }, { a := wordPair ws 5, n := e * n, al := e },
     { a := wordPair ws 7, n := e * n, al := e }, { a := wordPair ws 9, n := e * n, al := e, dst := true },
     { a := wordPair ws 15, n := 16, al := 64, dst := true }] false

/-- An LCP's data. -/
structure Lcp where
  f : Fmt
  n : Nat
  a : List Nat
  b : List Nat
  lo : List Nat
  hi : List Nat
  tol : Nat

/-- One row of a sweep: the new x[i] and δ, or none when either is a NaN. Its min and max are those of R122, which pass a NaN over. (log 39, DEDUCED) -/
def Lcp.row (p : Lcp) (x : List Nat) (i : Nat) : Option (Nat × Nat) :=
  let aAt := fun (j : Nat) => p.a.getD (p.n * i + j) 0
  let s := (List.range p.n).foldl (fun t j => if j = i then t else nfma p.f (aAt j) (x.getD j 0) t) (p.b.getD i 0)
  let q := fdivTo p.f s (aAt i)
  let t := p.f.minmax false (p.f.minmax true q (p.lo.getD i 0)) (p.hi.getD i 0)
  let dl := rneTo p.f (fAdd .rne (p.f.val t) (p.f.val (x.getD i 0)).neg)
  if (p.f.val t).isNan || (p.f.val dl).isNan then none
  else some (t, rneTo p.f (p.f.val dl).abs.exact)

/-- One sweep: x and Δ, or none. -/
def Lcp.sweep (p : Lcp) (x : List Nat) : Option (List Nat × Nat) :=
  (List.range p.n).foldl (fun (acc : Option (List Nat × Nat)) i =>
    match acc with
    | none => none
    | some (x, d) => (p.row x i).map fun r => (x.set i r.1, p.f.minmax true d r.2)) (some (x, 0))

/-- Sweeps up to the cap: x, sweeps used, status and Δ (none for NaN). -/
def Lcp.iterate (p : Lcp) : Nat → Nat → List Nat → Nat → List Nat × Nat × Nat × Option Nat
  | 0, it, x, d => (x, it, 3, some d)
  | k + 1, it, x, _ =>
    match p.sweep x with
    | none => (x, it + 1, 4, none)
    | some (x', d) => if fLe (p.f.val d) (p.f.val p.tol) then (x', it + 1, 0, some d) else p.iterate k (it + 1) x' d

/-- The problem is ill-posed before any sweep (R290). -/
def Lcp.bad (p : Lcp) (x : List Nat) : Bool :=
  let v := fun (l : List Nat) (i : Nat) => p.f.val (l.getD i 0)
  (List.range p.n).any (fun i => decide (fOrd (v p.lo i) (v p.hi i) = some .gt) ||
    !decide (fOrd (v p.a (p.n * i + i)) (.fin false 0 0) = some .gt)) ||
  (p.a ++ p.b ++ p.lo ++ p.hi ++ x).any fun c => (p.f.val c).isNan

/-- LCP (R290). -/
def execLcp (cmd : Nat) (s : State) : Answer :=
  .next (s.runCmd cmd 0x33 fun s c =>
    let w := c.words
    let n := wAt w 11 % 32
    let fp64 := (w.getD 11 0).getLsbD 5
    let e := slvBytes fp64
    let f := slvFmt fp64
    match s.cmdReads c [(false, wordPair w 1, e * n * n), (false, wordPair w 3, e * n), (false, wordPair w 5, e * n),
        (false, wordPair w 7, e * n), (false, wordPair w 9, e * n)] with
    | (.error e, s) => (Ran.failed e, s)
    | (.ok r, s) =>
      let g := fun (i : Nat) => elems e (r.getD i [])
      let p : Lcp := { f := f, n := n, a := g 0, b := g 1, lo := g 2, hi := g 3, tol := slvTau fp64 (wordPair w 13) }
      let z := if p.bad (g 4) then (g 4, 0, 4, none) else p.iterate (wAt w 12) 0 (g 4) 0
      let d64 := match z.2.2.2 with
        | none => Fmt.fp64.nanCode
        | some d => if fp64 then d else fconv .fp32 .fp64 d
      let st := leBytes 4 z.2.1 ++ leBytes 4 z.2.2.1 ++ leBytes 8 d64
      ({ out := [{ pool := false, addr := wordPair w 9, bytes := z.1.flatMap (leBytes e) },
                 { pool := false, addr := wordPair w 15, bytes := st }], status := z.2.2.1 }, s))

end Sys2Proof.Machine
end

