-- ==== Sys2Proof/Machine/BaseDie.lean ====
section
/-! DEFINITION. The base dies: acceptance with its stack (R310), ROWZ and ROWCP (R311, R312) and BRED (R313 to R315). -/

namespace Sys2Proof.Machine

/-! ### Pages of one stack -/

/-- How a span that its engine reads or writes is walked to. -/
def Span.perm (x : Span) : Perm := if x.dst then .store else .load

/-- What a page gives n bytes of a span, translated without changing anything: its physical address, none for a remote page, or a fault's code, cause and address. A page that must lie in a stack is a DA page of that stack (R310). -/
def State.pageFor (s : State) (ctx va n : Nat) (p : Perm) (stack : Option Nat) : Except (Nat × Nat × Nat) (Option Nat) :=
  match s.walk ctx va with
  | .error e => .error (runFault (e, va))
  | .ok x =>
    if !p.ok x.leaf then .error (runFault (fcPagePerm, va))
    else
      match stack with
      | none => if s.badRemote ctx n x then .error (runFault (fcPageAttr, va)) else .ok (if leafRm x.leaf then none else some (x.pa - va % 65536))
      | some k => if leafDa x.leaf && decide (x.pa / 2 ^ 36 % 16 = k) then .ok (some (x.pa - va % 65536)) else .error (fcEngineCmd, fcPageAttr, va)

/-- The pages of spans, with where they lie; the first that fails is the answer. -/
def State.pagesFor (s : State) (ctx : Nat) : List (Span × Option Nat) → Except (Nat × Nat × Nat) (List (Nat × Nat × Bool))
  | [] => .ok []
  | (x, k) :: xs =>
    let here := (parts x.a x.n).map fun p => (p.1, s.pageFor ctx p.1 p.2 x.perm k)
    match here.findSome? fun p => match p.2 with | .error f => some f | .ok _ => none with
    | some f => .error f
    | none =>
      match s.pagesFor ctx xs with
      | .error f => .error f
      | .ok ps => .ok ((here.filterMap fun p => match p.2 with | .ok (some pa) => some (p.1 / 65536, pa, x.dst) | _ => none) ++ ps)

/-- A rejection, with the mailbox record of a marked table entry that its walk met (R235). -/
def State.rejectPages (s : State) (ctx : Nat) (eng : Engine) (f : Nat × Nat × Nat) : Ruling × State :=
  ({ eng := eng, reject := some f }, s.mailWalk ctx f.2.2 f.1)

/-- Set A, and D of what is to be written, in the leaves of an accepted command's pages (R203). -/
def State.usePages (s : State) (ctx : Nat) (xs : List Span) : State :=
  xs.foldl (fun s x => (parts x.a x.n).foldl (fun s p => (s.translateWalk ctx p.1 x.perm).2) s) s

/-- The stack of a deciding address, or how the X-die rejects the command (R310). -/
def State.stackOf (s : State) (ctx va : Nat) (p : Perm) : Except (Nat × Nat × Nat) Nat × State :=
  match s.walk ctx va with
  | .error e => (.error (runFault (e, va)), s.mailWalk ctx va e)
  | .ok x =>
    if !p.ok x.leaf then (.error (runFault (fcPagePerm, va)), s)
    else if leafDa x.leaf then (.ok (x.pa / 2 ^ 36 % 16), s) else (.error (fcEngineCmd, fcPageAttr, va), s)

/-- Clean the dirty LLC sectors of source spans (R210, R310). -/
def State.cleanSpans (s : State) (ctx : Nat) (xs : List Span) : State :=
  (xs.flatMap fun x => if x.dst then [] else parts x.a x.n).foldl (fun s p =>
    match s.peek ctx p.1 with
    | some x => s.cleanSectors (x.pa / 32) ((x.pa + p.2 - 1) / 32)
    | none => s) s

/-- The first of some values that is no multiple of its unit. -/
def misaligned (xs : List (Nat × Nat)) : Option Nat := (xs.find? fun x => decide (x.1 % x.2 ≠ 0)).map fun x => x.1

/-- A base die's judgement of a command whose stack is found: its fields, values that are to be multiples, an overlap, spans in DA pages, a span that need not be one. It writes nothing for a command that it rejects, and keeps the translations of one that it accepts. -/
def State.ruleDa (s : State) (ctx stack : Nat) (fields : Bool) (bad : Option Nat) (overlap : Bool) (da other : List Span) : Ruling × State :=
  let eng := Engine.base stack
  if !fields then (Ruling.no eng fcIllegalOp, s)
  else
    match bad with
    | some a => (Ruling.no eng fcMisalign a, s)
    | none =>
      if overlap then (Ruling.no eng fcIllegalOp, s)
      else
        match s.pagesFor ctx (da.map (fun x => (x, some stack)) ++ other.map fun x => (x, none)) with
        | .error f => s.rejectPages ctx eng f
        | .ok ps => ({ eng := eng, ranges := (da ++ other).map Span.rng, pages := ps }, (s.usePages ctx (da ++ other)).cleanSpans ctx da)

/-! ### BRED's parameter block (R313) -/

/-- A reduction's source: address, chunk bytes, chunk stride. -/
structure BSrc where
  a : Nat
  cb : Nat
  stride : Nat
  deriving DecidableEq, Repr

structure BredF where
  op : Nat
  dtype : Nat
  scope : Nat
  flag : Nat
  value : Nat
  dst : Nat
  count : Nat
  zeros : Bool
  srcs : List BSrc
  deriving DecidableEq, Repr

def bredF (bs : List Byte) : BredF :=
  { op := u8At bs 0, dtype := u8At bs 1, scope := u8At bs 2, flag := u64At bs 8, value := u64At bs 16, dst := u64At bs 24,
    count := u32At bs 32, zeros := zeroAt bs 3 5 && zeroAt bs 36 4,
    srcs := (List.range 8).map fun i => { a := u64At bs (40 + 16 * i), cb := u32At bs (48 + 16 * i), stride := u32At bs (52 + 16 * i) } }

/-- Element format of a reduction. -/
def bredFmt (dtype : Nat) : Fmt := if dtype = 0 then .fp32 else if dtype = 1 then .bf16 else .fp64
/-- Element bytes. -/
def bredBytes (dtype : Nat) : Nat := if dtype = 0 then 4 else if dtype = 1 then 2 else 8

/-- The offset of byte o of a source (R314). -/
def BSrc.at (x : BSrc) (o : Nat) : Nat := if x.cb = 0 then o else o / x.cb * x.stride + o % x.cb

/-- A source's span for n bytes of elements. -/
def BSrc.span (x : BSrc) (n : Nat) : Span := { a := x.a, n := if n = 0 then 0 else x.at (n - 1) + 1, al := 1 }

/-- Field limits of the block. -/
def BredF.ok (f : BredF) : Bool :=
  decide (f.op < 3 ∧ f.dtype < 3 ∧ 4 ≤ f.scope ∧ f.scope ≤ 6 ∧ f.count ≤ 2 ^ 24) && f.zeros &&
  f.srcs.all fun x => decide (x.cb ≤ x.stride ∨ x.cb = 0)

/-- The first value of the block that is not the multiple it is to be: of 8 the flag address, of the element size the destination and every chunk and stride. -/
def BredF.bad (f : BredF) : Option Nat :=
  let e := bredBytes f.dtype
  misaligned ([(f.flag, 8), (f.dst, e)] ++ f.srcs.flatMap fun x => [(x.cb, e), (x.stride, e)])

/-! ### Acceptance (R310) -/

/-- Rejection by the X-die: no base die is reached and no sequence number is taken. -/
def Ruling.xdie (f : Nat × Nat × Nat) : Ruling := { eng := .xdie, reject := some f }

/-- The judgement of a q10 command. (log 44, DEDUCED) -/
def State.ruleBase (s : State) (ctx : Nat) (ws : List Word) : Ruling × State :=
  let code := wAt ws 0 % 256
  let count := if code = 0x41 then 4 else if code = 0x42 then 8 else 3
  if code < 0x40 ∨ 0x42 < code ∨ ws.length ≠ count ∨ cmdFlags ws / 16 ≠ 0 ∨ cmdFlags ws % 8 ≠ 0 then
    (Ruling.xdie (fcEngineCmd, fcIllegalOp, 0), s)
  else if code = 0x40 then
    match s.readVa ctx (wordPair ws 1) 168 with
    | (.error e, s) => (Ruling.xdie (runFault e), s)
    | (.ok bs, s) =>
      let f := bredF bs
      let e := bredBytes f.dtype
      let n := f.count * e
      match s.stackOf ctx (f.srcs.getD 0 { a := 0, cb := 0, stride := 0 }).a .load with
      | (.error x, s) => (Ruling.xdie x, s)
      | (.ok k, s) =>
        let d : Span := { a := f.dst, n := n, al := e, dst := true }
        let sp := f.srcs.map fun x => x.span n
        let r := s.ruleDa ctx k f.ok (misaligned [(wordPair ws 1, 64)] <|> f.bad)
          (sp.any fun x => meets x.a x.n d.a d.n) (sp ++ [d]) []
        ({ r.1 with args := wordsOf bs }, r.2)
  else if code = 0x41 then
    match s.stackOf ctx (wordPair ws 1) .store with
    | (.error x, s) => (Ruling.xdie x, s)
    | (.ok k, s) =>
      s.ruleDa ctx k true (misaligned [(wordPair ws 1, 65536), (wAt ws 3, 65536)]) false
        [{ a := wordPair ws 1, n := wAt ws 3, al := 1, dst := true }] []
  else
    match s.stackOf ctx (wordPair ws 1) .load with
    | (.error x, s) => (Ruling.xdie x, s)
    | (.ok k, s) =>
      let n := wAt ws 5
      let r := wordPair ws 6
      let sp : Span := { a := wordPair ws 1, n := n, al := 1 }
      let d : Span := { a := wordPair ws 3, n := n, al := 1, dst := true }
      let rec_ : List Span := if r = 0 then [] else [{ a := r, n := 8, al := 1, dst := true }]
      s.ruleDa ctx k true (misaligned [(sp.a, 65536), (d.a, 65536), (n, 65536), (r, 64)])
        (meets sp.a n d.a n || rec_.any fun x => meets sp.a n x.a 8 || meets d.a n x.a 8) [sp, d] rec_

/-! ### The runs -/

/-- BRED's pairwise tree over eight values (R314). -/
def bredTree (g : Nat → Nat → Nat) (v : List Nat) : Nat :=
  let a := fun (i : Nat) => v.getD i 0
  g (g (g (a 0) (a 1)) (g (a 2) (a 3))) (g (g (a 4) (a 5)) (g (a 6) (a 7)))

/-- BRED's ⊕. -/
def bredOp (op : Nat) (f : Fmt) (a b : Nat) : Nat := if op = 0 then f.add a b else f.minmax (decide (op = 2)) a b

/-- Read page parts in the DRAM of the command's stack. -/
def State.dieRead (s : State) (c : Cmd) : List (Nat × Nat) → Except (Nat × Nat) (List Byte) × State
  | [] => (.ok [], s)
  | (va, n) :: ps =>
    match c.kept va with
    | none => (.error (fcPageAbsent, va), s)
    | some pa =>
      if s.marked pa n then
        let k := s.markAt pa n
        (.error (fcMemUe, va + k), s.mailDram c.ctx (pa + k) (va + k) 0 (bandHome pa))
      else
        match s.dieRead c ps with
        | (.error e, s) => (.error e, s)
        | (.ok bs, s) => (.ok (s.readPhys pa n ++ bs), s)

/-- Read several ranges for a base die in turn. -/
def State.dieReads (s : State) (c : Cmd) : List (Nat × Nat) → Except (Nat × Nat) (List (List Byte)) × State
  | [] => (.ok [], s)
  | (a, n) :: rs =>
    match s.dieRead c (parts a n) with
    | (.error e, s) => (.error e, s)
    | (.ok bs, s) =>
      match s.dieReads c rs with
      | (.error e, s) => (.error e, s)
      | (.ok bss, s) => (.ok (bs :: bss), s)

/-- BRED's elements in ascending order, each read from its eight source elements and written before the next is read; those before a fault are written (R272, R314). -/
def State.bredElems (s : State) (c : Cmd) (f : BredF) : List Nat → Option (Nat × Nat × Nat) × State
  | [] => (none, s)
  | j :: js =>
    let e := bredBytes f.dtype
    match s.dieReads c (f.srcs.map fun x => (x.a + x.at (j * e), e)) with
    | (.error x, s) => (some (runFault x), s)
    | (.ok bss, s) =>
      match s.cmdWrite c { pool := false, addr := f.dst + j * e, bytes := leBytes e (bredTree (bredOp f.op (bredFmt f.dtype)) (bss.map leNat)) } with
      | (.error x, s) => (some (runFault x), s)
      | (.ok _, s) => s.bredElems c f js

/-- BRED: every element, then the flag, which a faulting BRED does not store (R314, R315). Its parameter block was read at acceptance; `args` holds it. -/
def execBred (cmd : Nat) (s : State) : Answer :=
  .next (s.runCmd cmd 0x40 fun s c =>
    let f := bredF (bytesOf c.args)
    let r := s.bredElems c f (List.range f.count)
    ({ out := if f.flag = 0 ∨ r.1.isSome then [] else [{ pool := false, addr := f.flag, bytes := leBytes 8 f.value }], fault := r.1 }, r.2))

/-- ROWZ: every row chunk becomes its subarray's zero row. -/
def execRowz (cmd : Nat) (s : State) : Answer :=
  .next (s.runCmd cmd 0x41 fun s c =>
    ({ out := [{ pool := false, addr := wordPair c.words 1, bytes := List.replicate (wAt c.words 3) 0 }] }, s))

/-- Two pages lie in one bank and subarray (R312). -/
def sameSubarray (a b : Nat) : Bool :=
  decide (a / 2 ^ 16 % 16 = b / 2 ^ 16 % 16 ∧ a / 2 ^ 20 % 2 ^ 16 / 512 = b / 2 ^ 20 % 2 ^ 16 / 512)

/-- What a failed read of a page leaves copied: the row chunks of 1 KiB before the one that holds the marked sector (R272, R312). -/
def State.copyHead (s : State) (c : Cmd) (src dst : Nat) (e : Nat × Nat) : State :=
  let n := if e.1 = fcMemUe then (e.2 - src) / 1024 * 1024 else 0
  match c.kept src with
  | some pa => (s.cmdWrite c { pool := false, addr := dst, bytes := s.readPhys pa n }).2
  | none => s

/-- Copy pages in ascending order, each written before the next is read (R312). -/
def State.copyPages (s : State) (c : Cmd) (src dst : Nat) : List Nat → Option (Nat × Nat × Nat) × State
  | [] => (none, s)
  | i :: is =>
    match s.dieRead c [(src + 65536 * i, 65536)] with
    | (.error x, s) => (some (runFault x), s.copyHead c (src + 65536 * i) (dst + 65536 * i) x)
    | (.ok bs, s) =>
      match s.cmdWrite c { pool := false, addr := dst + 65536 * i, bytes := bs } with
      | (.error x, s) => (some (runFault x), s)
      | (.ok _, s) => s.copyPages c src dst is

/-- ROWCP: page by page, with the counts of chunks copied in the DRAM and through the buffer. -/
def execRowcp (cmd : Nat) (s : State) : Answer :=
  .next (s.runCmd cmd 0x42 fun s c =>
    let w := c.words
    let src := wordPair w 1
    let dst := wordPair w 3
    let pages := List.range (wAt w 5 / 65536)
    let at_ := fun (a : Nat) => (c.kept a).getD 0
    let inDram := (pages.filter fun i => sameSubarray (at_ (src + 65536 * i)) (at_ (dst + 65536 * i))).length
    let r := wordPair w 6
    let rec_ := if r = 0 ∨ wAt w 5 = 0 then []
      else [({ pool := false, addr := r, bytes := leBytes 4 (64 * inDram) ++ leBytes 4 (64 * (pages.length - inDram)) } : CmdWrite)]
    let q := s.copyPages c src dst pages
    ({ out := if q.1.isSome then [] else rec_, fault := q.1 }, q.2))

end Sys2Proof.Machine
end

