-- ==== Sys2Proof/Machine/Embag.lean ====
section
/-! DEFINITION. The capacity engine and EMBAG (R316 to R318). -/

namespace Sys2Proof.Machine

/-- EMBAG's parameter block and table descriptor (R317). -/
structure EmbagF where
  desc : Nat
  offs : Nat
  idx : Nat
  wts : Nat
  out : Nat
  bags : Nat
  opitch : Nat
  mode : Nat
  ofmt : Nat
  zeros : Bool
  base : Nat
  slice : Nat
  rows : Nat
  dim : Nat
  fmt : Nat
  pitch : Nat
  deriving DecidableEq, Repr

def embagF (bs ds : List Byte) : EmbagF :=
  { desc := u64At bs 0, offs := u64At bs 8, idx := u64At bs 16, wts := u64At bs 24, out := u64At bs 32, bags := u32At bs 40,
    opitch := u32At bs 44, mode := u8At bs 48, ofmt := u8At bs 49, zeros := zeroAt bs 50 14 && zeroAt ds 23 1 && zeroAt ds 28 4,
    base := u64At ds 0, slice := u64At ds 8, rows := u32At ds 16, dim := u16At ds 20, fmt := u8At ds 22, pitch := u32At ds 24 }

/-- The formats of R95 that a table or an output may have. -/
def embFmt (c : Nat) : Fmt := if c = 0 then .fp32 else if c = 1 then .bf16 else .fp16
def embBytes (c : Nat) : Nat := if c = 0 then 4 else 2

/-- Field limits. -/
def EmbagF.ok (f : EmbagF) : Bool :=
  decide (1 ≤ f.bags ∧ f.bags ≤ 2 ^ 20 ∧ f.opitch % 16 = 0 ∧ f.dim * embBytes f.ofmt ≤ f.opitch ∧ f.mode < 3 ∧ f.ofmt < 3) && f.zeros &&
  decide (f.mode = 2 ∨ f.wts = 0) &&
  decide (f.slice % 65536 = 0 ∧ 1 ≤ f.dim ∧ f.dim ≤ 4096 ∧ f.fmt < 3 ∧ f.pitch % 64 = 0 ∧ f.dim * embBytes f.fmt ≤ f.pitch)

/-- The last offset as memory holds it at acceptance, for the spans that depend on it (log 16, DESIGN CHOICE). -/
def State.lastOffset (s : State) (ctx : Nat) (f : EmbagF) : Nat :=
  match (s.readVa ctx (f.offs + 4 * f.bags) 4).1 with
  | .ok bs => if leNat bs ≤ 2 ^ 24 then leNat bs else 0
  | .error _ => 0

/-- The judgement of a q12 command (R317). The capacity engine is one engine (log 16, DESIGN CHOICE). It cleans the dirty LLC sectors of what the command reads (R210). -/
def State.ruleEmbag (s : State) (ctx : Nat) (ws : List Word) : Ruling × State :=
  let no := fun (f : Nat × Nat × Nat) => ({ eng := .cap 0, reject := some f } : Ruling)
  if wAt ws 0 % 256 ≠ 0x50 ∨ ws.length ≠ 3 ∨ cmdFlags ws / 16 ≠ 0 ∨ cmdFlags ws % 8 ≠ 0 then (no (fcEngineCmd, fcIllegalOp, 0), s)
  else if wordPair ws 1 % 64 ≠ 0 then (no (fcEngineCmd, fcMisalign, wordPair ws 1), s)
  else
    match s.readVa ctx (wordPair ws 1) 64 with
    | (.error e, s) => (no (runFault e), s)
    | (.ok bs, s) =>
      let da := u64At bs 0
      if da % 32 ≠ 0 then (no (fcEngineCmd, fcMisalign, da), s)
      else
        match s.readVa ctx da 32 with
        | (.error e, s) => (no (runFault e), s)
        | (.ok ds, s) =>
          let f := embagF bs ds
          if !f.ok then (no (fcEngineCmd, fcIllegalOp, 0), s)
          else
            let n := s.lastOffset ctx f
            let src : List Span := [{ a := f.offs, n := 4 * (f.bags + 1), al := 1 }, { a := f.idx, n := 4 * n, al := 1 },
              { a := f.wts, n := if f.mode = 2 then 4 * n else 0, al := 1 }]
            ({ eng := .cap 0, args := wordsOf (bs ++ ds),
               ranges := src.map Span.rng ++ [{ lo := f.out, len := f.bags * f.opitch, dst := true }] },
             s.cleanSpans ctx (src ++ [{ a := f.base, n := 32 * f.slice, al := 1 }]))

/-- Every page of a slice maps to its chip and rank (R317). -/
def State.sliceOk (s : State) (ctx : Nat) (f : EmbagF) (i : Nat) : Option (Nat × Nat × Nat) :=
  (parts (f.base + i * f.slice) f.slice).findSome? fun p =>
    match s.walk ctx p.1 with
    | .error e => some (runFault (e, p.1))
    | .ok x => if !leafR x.leaf then some (fcEngineFault, fcPagePerm, p.1)
               else if leafRm x.leaf = false ∧ region x.pa = .capacity (i % 8) (i / 8) then none else some (fcEngineFault, fcPageAttr, p.1)

/-- Where an embedding row lies. -/
def EmbagF.rowVa (f : EmbagF) (r : Nat) : Nat := f.base + (8 * (r / 8 % 4) + r % 8) * f.slice + r / 32 * f.pitch

/-- Read the rows of a bag: index, weight and the row's elements widened to FP32. -/
def State.bagRows (s : State) (c : Cmd) (f : EmbagF) : List (Nat × Nat) → Except (Nat × Nat × Nat) (List (Nat × Nat × List Nat)) × State
  | [] => (.ok [], s)
  | (i, w) :: rest =>
    if f.rows ≤ i then (.error (fcEngineCmd, fcIllegalOp, 0), s)
    else
      match s.cmdRead c false (f.rowVa i) (f.dim * embBytes f.fmt) with
      | (.error e, s) => (.error (runFault e), s)
      | (.ok bs, s) =>
        match s.bagRows c f rest with
        | (.error e, s) => (.error e, s)
        | (.ok rs, s) => (.ok ((i, w, (elems (embBytes f.fmt) bs).map (fconv (embFmt f.fmt) .fp32)) :: rs), s)

/-- One element of a bag's output (R318). -/
def bagElem (f : EmbagF) (rows : List (Nat × Nat × List Nat)) (j : Nat) : Nat :=
  if rows.isEmpty then 0
  else
    let part := fun (ch : Nat) => rows.foldl (fun p r =>
      if r.1 % 8 = ch then
        (let x := r.2.2.getD j 0
         if f.mode = 2 then rneTo .fp32 (fFma .rne (Fmt.fp32.val r.2.1) (Fmt.fp32.val x) (Fmt.fp32.val p)) else Fmt.fp32.add p x)
      else p) 0x80000000
    let t := [1, 2, 3, 4, 5, 6, 7].foldl (fun t ch => Fmt.fp32.add t (part ch)) (part 0)
    let t := if f.mode = 1 then rneTo .fp32 (fDiv (Fmt.fp32.val t) (FVal.ofInt rows.length)) else t
    rneTo (embFmt f.ofmt) (Fmt.fp32.val t).exact

/-- The bags in ascending order, each with its own indices and weights, and written before the next is read; a bag that faults stops the command, and those before it stay written. Gives the fault. -/
def State.runBags (s : State) (c : Cmd) (f : EmbagF) : List ((Nat × Nat) × Nat) → Option (Nat × Nat × Nat) × State
  | [] => (none, s)
  | (g, b) :: rest =>
    let n := 4 * (g.2 - g.1)
    match s.cmdReads c [(false, f.idx + 4 * g.1, n), (false, f.wts + 4 * g.1, if f.mode = 2 then n else 0)] with
    | (.error e, s) => (some (runFault e), s)
    | (.ok r, s) =>
      let ws := elems 4 (r.getD 1 [])
      match s.bagRows c f ((elems 4 (r.getD 0 [])).zipIdx.map fun x => (x.1, ws.getD x.2 0)) with
      | (.error e, s) => (some e, s)
      | (.ok rows, s) =>
        let bytes := (List.range f.dim).flatMap fun j => leBytes (embBytes f.ofmt) (bagElem f rows j)
        match s.cmdWrite c { pool := false, addr := f.out + b * f.opitch, bytes := bytes } with
        | (.error e, s) => (some (runFault e), s)
        | (.ok _, s) => s.runBags c f rest

/-- EMBAG (R318). -/
def execEmbag (cmd : Nat) (s : State) : Answer :=
  .next (s.runCmd cmd 0x50 fun s c =>
    let bs := bytesOf c.args
    let f := embagF (bs.take 64) (bs.drop 64)
    match s.cmdRead c false f.offs (4 * (f.bags + 1)) with
    | (.error e, s) => (Ran.failed e, s)
    | (.ok ob, s) =>
      let os := elems 4 ob
      if !(decide (os.getD 0 1 = 0 ∧ os.getLastD 0 ≤ 2 ^ 24) && (segments os).all fun g => decide (g.1 ≤ g.2)) then (Ran.broken fcIllegalOp, s)
      else
        match (List.range 32).findSome? (s.sliceOk c.ctx f) with
        | some e => ({ fault := some e }, s)
        | none => let r := s.runBags c f (segments os).zipIdx; ({ fault := r.1 }, r.2))

end Sys2Proof.Machine
end

