-- ==== Sys2Proof/Machine/Coll.lean ====
section
/-! DEFINITION. The fabric engine and COLL (R371 to R373): the node table, SHA-256 of it, the fold of each chunk and its way through the tree. -/

namespace Sys2Proof.Machine

/-! ### SHA-256 -/

/-- The prime numbers below 312, which are the first 64. -/
def firstPrimes : List Nat := (List.range 312).filter fun n => decide (2 ≤ n) && (List.range n).all fun d => decide (d < 2) || decide (n % d ≠ 0)

/-- The greatest number below 2^36 whose k-th power is at most n, found from its highest bit down. -/
def rootFloor (k n : Nat) : Nat := (List.range 36).foldr (fun b r => if (r + 2 ^ b) ^ k ≤ n then r + 2 ^ b else r) 0

/-- The first 32 bits of the fractional part of a number's k-th root. -/
def rootFraction (k n : Nat) : Word := BitVec.ofNat 32 (rootFloor k (n * 2 ^ (32 * k)))

/-- SHA-256's round constants, from the cube roots of the first 64 primes. -/
def shaK : List Word := firstPrimes.map (rootFraction 3)

/-- SHA-256's initial hash value, from the square roots of the first eight primes. -/
def shaInit : List Word := (firstPrimes.take 8).map (rootFraction 2)

/-- The XOR of a word rotated right by some amounts. -/
def rotSum (x : Word) (rs : List Nat) : Word := rs.foldl (fun a r => a ^^^ x.rotateRight r) 0

/-- Add words to a message schedule, whose newest word stands first. -/
def shaExtend : Nat → List Word → List Word
  | 0, w => w
  | n + 1, w =>
    let two := w.getD 1 0
    let fifteen := w.getD 14 0
    shaExtend n ((w.getD 15 0 + w.getD 6 0 + (rotSum fifteen [7, 18] ^^^ fifteen >>> 3) + (rotSum two [17, 19] ^^^ two >>> 10)) :: w)

/-- The working variables a to h. -/
structure ShaVars where
  a : Word
  b : Word
  c : Word
  d : Word
  e : Word
  f : Word
  g : Word
  h : Word

/-- One round, with the sum of its constant and its schedule word. -/
def ShaVars.round (v : ShaVars) (kw : Word) : ShaVars :=
  let choice := v.g ^^^ (v.e &&& (v.f ^^^ v.g))
  let majority := (v.a &&& (v.b ||| v.c)) ||| (v.b &&& v.c)
  let t := v.h + rotSum v.e [6, 11, 25] + choice + kw
  { a := t + rotSum v.a [2, 13, 22] + majority, b := v.a, c := v.b, d := v.c, e := v.d + t, f := v.e, g := v.f, h := v.g }

/-- The working variables as eight words, and back. -/
def ShaVars.words (v : ShaVars) : List Word := [v.a, v.b, v.c, v.d, v.e, v.f, v.g, v.h]
def shaVars (h : List Word) : ShaVars :=
  { a := h.getD 0 0, b := h.getD 1 0, c := h.getD 2 0, d := h.getD 3 0, e := h.getD 4 0, f := h.getD 5 0, g := h.getD 6 0, h := h.getD 7 0 }

/-- One 64-byte block. -/
def shaBlock (ks h : List Word) (bs : List Byte) : List Word :=
  let w := (cut 4 16 bs).map fun q => BitVec.ofNat 32 (leNat q.reverse)
  let ws := (shaExtend 48 w.reverse).reverse
  List.zipWith (· + ·) h ((List.zipWith (· + ·) ks ws).foldl ShaVars.round (shaVars h)).words

/-- SHA-256 of a byte string. -/
def sha256 (bs : List Byte) : List Byte :=
  let n := bs.length
  let pad := bs ++ [0x80] ++ List.replicate ((119 - n % 64) % 64) 0 ++ (leBytes 8 (8 * n)).reverse
  ((cut 64 (pad.length / 64) pad).foldl (shaBlock shaK) shaInit).flatMap fun w => (leBytes 4 w.toNat).reverse

/-! ### The request block (R371) -/

/-- A node entry. -/
structure CNode where
  rank : Word
  parent : Word
  qp : Nat
  kids : List Word
  ownpos : Nat
  ok : Bool
  deriving DecidableEq, Repr

def cnodeOf (bs : List Byte) : CNode :=
  let c := u8At bs 12
  let all := (List.range 4).map fun i => BitVec.ofNat 32 (u32At bs (16 + 4 * i))
  { rank := BitVec.ofNat 32 (u32At bs 0), parent := BitVec.ofNat 32 (u32At bs 4), qp := u32At bs 8, kids := all.take c, ownpos := u8At bs 13,
    ok := decide (c ≤ 4 ∧ u8At bs 13 ≤ c) && zeroAt bs 14 2 && (all.drop c).all fun w => decide (w = 0) }

/-- A collective request block. -/
structure Crb where
  kind : Nat
  op : Nat
  dtype : Nat
  own : Word
  count : Nat
  chunk : Nat
  n : Nat
  send : Nat
  recv : Nat
  cid : DWord
  zeros : Bool
  deriving DecidableEq, Repr

def crbOf (bs : List Byte) : Crb :=
  { kind := u8At bs 0, op := u8At bs 1, dtype := u8At bs 2, own := BitVec.ofNat 32 (u32At bs 4), count := u64At bs 8, chunk := u32At bs 16,
    n := u32At bs 20, send := u64At bs 24, recv := u64At bs 32, cid := BitVec.ofNat 64 (u64At bs 40),
    zeros := zeroAt bs 3 1 && zeroAt bs 48 16 }

/-- Element bytes of a collective. -/
def Crb.eb (k : Crb) : Nat := if k.dtype = 0 then 4 else if k.dtype = 1 then 2 else 8
/-- Bytes of a buffer. -/
def Crb.bytes (k : Crb) : Nat := k.count * k.eb
/-- Chunks of a buffer. -/
def Crb.chunks (k : Crb) : Nat := if k.chunk = 0 then 0 else (k.bytes + k.chunk - 1) / k.chunk

/-- Field limits. -/
def Crb.ok (k : Crb) : Bool :=
  decide (k.kind < 3 ∧ k.op < 3 ∧ k.dtype < 4 ∧ k.count ≤ 2 ^ 32 ∧ 4096 ≤ k.chunk ∧ k.chunk ≤ 2 ^ 24 ∧ 1 ≤ k.n ∧ k.n ≤ 4096) &&
  decide (2 ^ Nat.log2 k.chunk = k.chunk) && k.zeros && decide (k.send % k.eb = 0 ∧ k.recv % k.eb = 0)

def nodeOf (ns : List CNode) (r : Word) : Option CNode := ns.find? fun x => decide (x.rank = r)

/-- The ranks reached from a set by one more level. -/
def reach (ns : List CNode) : Nat → List Word → List Word
  | 0, rs => rs
  | k + 1, rs => rs ++ reach ns k (rs.flatMap fun r => match nodeOf ns r with | some x => x.kids | none => [])

/-- The entries form one tree (R371). -/
def isTree (ns : List CNode) : Bool :=
  let rs := ns.map fun x => x.rank
  let roots := ns.filter fun x => decide (x.parent = 0xFFFFFFFF)
  decide rs.Nodup && decide (roots.length = 1) &&
  (ns.all fun x => x.kids.all fun k => match nodeOf ns k with | some y => decide (y.parent = x.rank) | none => false) &&
  decide ((ns.flatMap fun x => x.kids).length + 1 = ns.length) && decide ((ns.flatMap fun x => x.kids).Nodup) &&
  (let seen := reach ns ns.length (roots.map fun x => x.rank)
   rs.all seen.contains)

/-! ### Acceptance (R371, R373) -/

/-- The node entries' bytes. -/
def tableBytes (bs : List Byte) (k : Crb) : List Byte := (bs.drop 64).take (32 * k.n)
def tableNodes (bs : List Byte) (k : Crb) : List CNode := (cut 32 k.n (tableBytes bs k)).map cnodeOf

/-- The judgement of a q14 command; an accepted one takes a collective sequence number and posts its log packet. -/
def State.ruleColl (s : State) (ctx : Nat) (ws : List Word) : Ruling × State :=
  let no := fun (f : Nat × Nat × Nat) => ({ eng := .fabric, reject := some f } : Ruling)
  let bad : Nat × Nat × Nat := (fcEngineCmd, fcIllegalOp, 0)
  if wAt ws 0 % 256 ≠ 0x60 ∨ ws.length ≠ 3 ∨ cmdFlags ws / 16 ≠ 0 ∨ cmdFlags ws % 8 ≠ 0 ∨ wordPair ws 1 % 64 ≠ 0 then (no bad, s)
  else
    match s.readVa ctx (wordPair ws 1) 64 with
    | (.error e, s) => (no (runFault e), s)
    | (.ok hd, s) =>
      let k := crbOf hd
      if !k.ok then (no bad, s)
      else
        match s.readVa ctx (wordPair ws 1 + 64) (32 * k.n) with
        | (.error e, s) => (no (runFault e), s)
        | (.ok tb, s) =>
          let ns := (cut 32 k.n tb).map cnodeOf
          if !(ns.all CNode.ok) || !isTree ns || (nodeOf ns k.own).isNone then (no bad, s)
          else
            match s.ctx? ctx with
            | none => (no bad, s)
            | some c =>
              let words := taskHeader 3 0 0 0 ++ [k.cid.lo, k.cid.hi, c.nextColl, k.own] ++ wordsOf (sha256 tb) ++ [0, 0]
              let s := (s.updCtx ctx fun c => { c with nextColl := c.nextColl + 1 }).postPacket ctx c.clog 0 words
              ({ eng := .fabric, args := wordsOf (hd ++ tb),
                 ranges := [{ lo := k.send, len := k.bytes }, { lo := k.recv, len := k.bytes, dst := true }] }, s)

/-! ### The tree (R372) -/

/-- One element's ⊕. -/
def collOp (op dtype : Nat) (a b : Nat) : Nat :=
  if dtype = 3 then
    (let sa := signedOf 64 a
     let sb := signedOf 64 b
     if op = 0 then (a + b) % 2 ^ 64 else if op = 1 then (if sb < sa then b else a) else if sa < sb then b else a)
  else bredOp op (bredFmt dtype) a b

/-- Fold two chunks element by element. -/
def foldChunk (k : Crb) (a b : List Byte) : List Byte :=
  (List.zipWith (collOp k.op k.dtype) (elems k.eb a) (elems k.eb b)).flatMap (leBytes k.eb)

/-- Fold all inputs in their order. -/
def foldInputs (k : Crb) : List (List Byte) → List Byte
  | [] => []
  | x :: xs => xs.foldl (foldChunk k) x

/-- A command's view of its collective: request, table, its node, the hash's first 8 bytes and its send bytes. -/
structure CView where
  k : Crb
  ns : List CNode
  me : CNode
  thash : DWord
  data : List Byte

def Cmd.coll? (c : Cmd) : Option CView :=
  let bs := bytesOf c.args
  let k := crbOf bs
  let ns := tableNodes bs k
  (nodeOf ns k.own).map fun me =>
    { k := k, ns := ns, me := me, thash := BitVec.ofNat 64 (u64At (sha256 (tableBytes bs k)) 0), data := bs.drop (64 + 32 * k.n) }

/-- Own bytes of a chunk. -/
def CView.own (v : CView) (i : Nat) : List Byte := ((v.data.take v.k.bytes).drop (i * v.k.chunk)).take v.k.chunk

/-- Send a chunk to a rank: within the module, or over the fabric, when the Lull count restarts (R336, R369). -/
def State.sendChunk (s : State) (c : Cmd) (v : CView) (dest : Word) (down : Bool) (i : Nat) (bs : List Byte) : State :=
  match nodeOf v.ns dest with
  | none => s
  | some x =>
    if x.qp = 0 then
      { s with collChunks := s.collChunks ++
          [{ ctx := some c.ctx, cid := v.k.cid.lo, thash := v.thash, src := v.k.own, down := down, chunk := i, bytes := bs, dest := some dest }] }
    else
      (s.sink c.ctx).send (.evavo x.qp { ver := 1, type := if down then 2 else 1, cid := v.k.cid.lo, chunk := i, src := v.k.own, thash := v.thash, payload := bs })

/-- A chunk's final result is known to a rank: it is written, and passed on to the children (R372). -/
def State.chunkResult (s : State) (c : Cmd) (v : CView) (i : Nat) (bs : List Byte) : State :=
  let s := s.updCmd c.id fun c =>
    { c with chunks := c.chunks.filter (fun x => decide (x ≠ i)), folds := c.folds.filter (fun x => decide (x ≠ i)),
             out := c.out ++ [{ pool := false, addr := v.k.recv + i * v.k.chunk, bytes := bs }] }
  if v.k.kind = 1 then s else v.me.kids.foldl (fun s r => s.sendChunk c v r true i bs) s

/-- A message's identifier, context and rank, as far as they are known, are this command's. -/
def CollChunk.names (m : CollChunk) (c : Cmd) (v : CView) : Bool :=
  decide (m.cid = v.k.cid.lo) && (m.ctx.all fun x => decide (x = c.ctx)) && (m.dest.all fun r => decide (r = v.k.own))

/-- Its sender is the node's parent or one of its children. -/
def CollChunk.kin (m : CollChunk) (v : CView) : Bool := if m.down then decide (m.src = v.me.parent) else v.me.kids.contains m.src

/-- A message that this command can use now. -/
def CollChunk.isFor (m : CollChunk) (c : Cmd) (v : CView) : Bool :=
  m.names c v && m.kin v && decide (m.thash = v.thash) &&
  (if m.down then c.chunks.contains m.chunk && !c.folds.contains m.chunk else c.folds.contains m.chunk)

/-- A message of another table that this command receives (R373): its sender is kin, or no unfinished command of the identifier knows its sender or its hash. (log 74, DEDUCED) -/
def State.mismatched (s : State) (m : CollChunk) (c : Cmd) (v : CView) : Bool :=
  m.names c v && decide (m.thash ≠ v.thash) && (m.kin v || !(s.cmds.any fun d =>
    decide (d.code = 0x60) && d.unfinished && d.coll?.any fun w => m.names d w && (m.kin w || decide (m.thash = w.thash))))

/-- One thing that a running collective command can do: fail on a message with another table's hash, take a result, or fold a chunk. None when there is nothing. -/
def State.collStep (s : State) (c : Cmd) (v : CView) : Option State :=
  match s.collChunks.find? fun m => s.mismatched m c v with
  | some m =>
    some ({ s with collChunks := s.collChunks.erase m }.updCmd c.id fun c =>
      { c with fault := some (c.faultInfo (fcEngineCmd, fcIllegalOp, 0)) })
  | none =>
    match s.collChunks.find? fun m => m.down && m.isFor c v with
    | some m => some ({ s with collChunks := s.collChunks.erase m }.chunkResult c v m.chunk m.bytes)
    | none =>
      let have_ := fun (i : Nat) (r : Word) => s.collChunks.find? fun m => !m.down && m.isFor c v && decide (m.chunk = i ∧ m.src = r)
      match c.folds.find? fun i => v.me.kids.all fun r => (have_ i r).isSome with
      | none => none
      | some i =>
        let ms := v.me.kids.filterMap (have_ i)
        let ins := ms.map fun m => m.bytes
        let acc := foldInputs v.k (ins.take v.me.ownpos ++ [v.own i] ++ ins.drop v.me.ownpos)
        let s := { s with collChunks := ms.foldl (fun l m => l.erase m) s.collChunks }
        if v.me.parent = 0xFFFFFFFF then some (s.chunkResult c v i acc)
        else
          some ((s.updCmd c.id fun c => { c with folds := c.folds.filter fun x => decide (x ≠ i) }).sendChunk c v v.me.parent false i acc)

/-- Let the collective commands go on as far as they can, at most `fuel` steps. -/
def State.collRun : Nat → State → State
  | 0, s => s
  | fuel + 1, s =>
    match s.cmds.findSome? fun c =>
      if c.code = 0x60 && decide (c.stage = .running ∨ c.stage = .consumed) && c.fault.isNone then
        (match c.coll? with | some v => s.collStep c v | none => none)
      else none with
    | some s => State.collRun fuel s
    | none => s

/-- Steps that can follow: each command folds and gets each chunk once. -/
def State.collFuel (s : State) : Nat := (s.cmds.map fun c => c.folds.length + c.chunks.length + 1).sum

/-- A broadcast's root has its result at once. -/
def State.rootBroadcast (s : State) (cmd : Nat) : State :=
  match s.cmd? cmd with
  | none => s
  | some c => match c.coll? with
    | none => s
    | some v =>
      if decide (c.code = 0x60) && decide (c.stage = Stage.running) && decide (v.k.kind = 2 ∧ v.me.parent = 0xFFFFFFFF) && c.fault.isNone then
        c.chunks.foldl (fun (s : State) i => s.chunkResult c v i (v.own i)) s
      else s

/-- COLL starts: it reads its send buffer, and its chunks set out. -/
def execColl (cmd : Nat) (s : State) : Answer :=
  .next (let s := s.runCmd cmd 0x60 fun s c =>
      match c.coll? with
      | none => ({}, s)
      | some v =>
        match s.cmdRead c false v.k.send v.k.bytes with
        | (.error e, s) => (Ran.failed e, s)
        | (.ok bs, s) =>
          let all := List.range v.k.chunks
          let root := decide (v.me.parent = 0xFFFFFFFF)
          ({}, s.updCmd c.id fun c =>
            { c with args := c.args ++ wordsOf bs, folds := if v.k.kind = 2 then [] else all,
                     chunks := if v.k.kind = 1 && !root then [] else all })
    let s := s.rootBroadcast cmd
    s.collRun s.collFuel)

/-- A message from the fabric waits for its rank, and commands go on (R369, R372). -/
def State.takeChunk (s : State) (m : EvMsg) (down : Bool) : State :=
  if m.ver ≠ 1 then s
  else
    let s : State := { s with collChunks := s.collChunks ++
      [{ ctx := none, cid := m.cid, thash := m.thash, src := m.src, down := down, chunk := m.chunk, bytes := m.payload }] }
    s.collRun s.collFuel

end Sys2Proof.Machine
end

