-- ==== Sys2Proof/Machine/QueueInstr.lean ====
section
/-! DEFINITION. Queues and what lands on threads: QSUB, QPOP, QSTAT, QWAIT, GSET, GRES (R258 to R269), the acts of single lanes on queues (R259), long results, GAP, SLEEP and handler entry (R54 to R61, R355). -/

namespace Sys2Proof

/-- The queue a field names. -/
def Reg.queueNum (r : Reg) : Nat := match r with | .q i => i.val | _ => 64

end Sys2Proof

namespace Sys2Proof.Machine

/-! ### QSUB (R43, R265) -/

/-- The judgement of a packet by the engine behind a command queue (R42, R43). -/
def State.rule (s : State) (t : Team) (q : Nat) (ws : List Word) : Ruling × State :=
  let code := wAt ws 0 % 256
  let cl := clusterOf t.core
  match q with
  | 0 => (s.ruleCopy t.key (.cpy t.core) ws, s)
  | 2 => (if code = 0x10 ∨ code = 0x11 then ruleSort (.srt cl) ws else Ruling.no (.srt cl) fcIllegalOp, s)
  | 4 => (if code = 0x20 ∨ code = 0x21 then ruleTrv (.trv cl) ws else Ruling.no (.trv cl) fcIllegalOp, s)
  | 6 =>
    (match code with
      | 0x30 => ruleFact (.slv cl) ws
      | 0x31 => ruleSolve (.slv cl) ws
      | 0x32 => ruleSolveBwd (.slv cl) ws
      | 0x33 => ruleLcp (.slv cl) ws
      | _ => Ruling.no (.slv cl) fcIllegalOp, s)
  | 10 => s.ruleBase t.ctx ws
  | 12 => s.ruleEmbag t.ctx ws
  | _ => s.ruleColl t.ctx ws

/-- Push one packet on a command queue, or say why the lane parks (R229, R259). -/
def State.pushCmd (s : State) (t : Tid) (recips : List Tid) (q : Nat) (grd : Option (BitVec 4)) (ws : List Word) : State × Option Park :=
  match s.cur, s.team? t.team with
  | some c, some tm =>
    let r := s.rule tm q ws
    if s.queueFull r.1.eng then (s, some (.queue q))
    else if r.1.reject.isNone && !s.lockRoom tm.core r.1.locks.length then (s, some .locks)
    else
      let guard := match grd with
        | some g => if tm.guards.contains g.toNat then some g.toNat else none
        | none => none
      let cmd : Cmd :=
        { id := 0, eng := r.1.eng, team := tm.key, ctx := tm.ctx, core := tm.core, group := t.group, code := wAt ws 0 % 256, words := ws,
          pc := c.pc, word := c.word, age := 0, seq := none, tag := wAt ws 0 / 65536, notok := cmdFlag ws 3, recips := recips, guard := guard }
      (r.2.acceptCmd cmd r.1, none)
  | _, _ => (s, none)

/-- Push one packet of one lane. -/
def State.pushPacket (s : State) (t : Tid) (recips : List Tid) (q : Nat) (grd : Option (BitVec 4)) (ws : List Word) : State × Option Park :=
  if s.twinTid t && decide (q = 10 ∨ q = 12 ∨ q = 14) then (s.trapAll recips fcDetViolation, none)
  else if 32 ≤ q then
    match s.team? t.team with
    | none => (s, none)
    | some tm =>
      match (s.descOf tm).queue? q with
      | none => (s.trapAll recips fcQueueCfg, none)
      | some d =>
        if 2 ^ d.lslot ≠ 4 * ws.length ∨ grd.isSome then (s.trapAll recips fcQueueCfg, none)
        else match s.push t q ws with
          | some s => (s, none)
          | none => (s, some (.queue q))
  else s.pushCmd t recips q grd ws

/-- QSUB from s registers: one packet for the word, from its lowest active lane; when it must wait, its lanes wait together. (log 40, DEDUCED) -/
def State.qsubOnce (s : State) (o : QsubF) (act : List Tid) : State :=
  match act with
  | [] => s
  | t :: _ =>
    let r := s.readRegs t o.a 0 (o.cnt.toNat + 1)
    match r.2.pushPacket t act o.d.queueNum o.grd r.1 with
    | (s, none) => s
    | (s, some why) => s.parkWord act why

/-- What a push on a queue releases (R217, R222, R261): a command for the fabric reaches the system scope. -/
def pushOrd (q : Nat) : MemOrder := { writes := decide (q < 32), releases := true, system := decide (q = 14) }

/-- QSUB. -/
def execQsub (h : Hdr) (o : QsubF) (s : State) : Answer :=
  let n := o.cnt.toNat + 1
  let ops : List Opd :=
    [{ reg := o.d, use := .name, v := false, h := false, q := true }, { reg := o.a, n := n, s := true }]
  .next (s.word h { ops := ops, illReg := fun _ _ => match o.d with | .q i => decide (queueKind i.val = 1) | _ => true } fun act s =>
    if s.accessWaits (pushOrd o.d.queueNum) act && !s.retrying then none
    else some (if o.a.isS then s.qsubOnce o act
               else s.eachLane ops (fun t vals s => s.pushPacket t [t] o.d.queueNum o.grd (vals.getD 1 [])) act))

/-! ### Guards (R266 to R268) -/

/-- GSET: once for the team. -/
def execGset (h : Hdr) (g : BitVec 4) (s : State) : Answer :=
  .next (s.word h {} fun act s => some (match act with
    | [] => s
    | t :: _ => s.updTeam t.team fun tm => { tm with guards := if tm.guards.contains g.toNat then tm.guards else g.toNat :: tm.guards }))

/-- GRES: a pending guard resolves by the lowest active lane's predicate, and every command waiting on it goes on or is discarded. -/
def execGres (h : Hdr) (o : GresF) (s : State) : Answer :=
  .next (s.word h {} fun act s => some (match act with
    | [] => s
    | t :: _ =>
      let g := o.g.toNat
      let pending := match s.team? t.team with | some tm => tm.guards.contains g | none => false
      if !pending then s
      else
        let v := s.predOf t o.p != o.neg
        let s := s.updTeam t.team fun tm => { tm with guards := tm.guards.filter fun x => decide (x ≠ g) }
        let waiting := s.cmds.filter fun c => decide (c.team = t.team) && decide (c.guard = some g)
        if v then waiting.foldl (fun s c => s.updCmd c.id fun c => { c with guard := none }) s
        else waiting.foldl (fun s c => s.discard c) s))

/-! ### QPOP, QSTAT and QWAIT (R269) -/

/-- Words of a slot of the queue a field names, for the team of the current word. -/
def State.slotWords (s : State) (r : Reg) : Nat :=
  match s.cur with
  | none => 1
  | some c => match s.team? c.team with
    | none => 1
    | some tm => match (s.descOf tm).queue? r.queueNum with
      | some d => 2 ^ d.lslot / 4
      | none => 1

/-- The operand that names a queue without popping it by name. -/
def Opd.queue (r : Reg) : Opd := { reg := r, use := .name, v := false, h := false, q := true }

/-- The field names a queue of one of these kinds. -/
def queueOf (kinds : List Nat) (r : Reg) : Bool := match r with | .q i => kinds.contains (queueKind i.val) | _ => false

/-- QPOP: one slot a lane; what a lane already took stands first. -/
def execQpop (h : Hdr) (o : R2) (s : State) : Answer :=
  let n := s.slotWords o.a
  let q := o.a.queueNum
  .next (s.byLane h
    { ops := [{ reg := o.d, n := n, use := .wr, s := decide (n = 1) }, Opd.queue o.a], illReg := fun _ _ => !queueOf [1, 2] o.a }
    (point := decide (q < 32)) fun t _ s =>
      let had := s.had t
      if !had.isEmpty then s.result t true o.d had
      else match s.pop t q with
        | some (slot, s) => s.result t true o.d slot
        | none => (s, some (.queue q)))

/-- A recipient still holds a command's fault (R273). -/
def State.faultHeld (s : State) (c : Cmd) : Bool :=
  c.fault.isSome && c.recips.any fun t => s.threadIs t fun th => th.afaults.any fun f => decide (f.age = c.age)

/-- A command counts as unfinished while its fault is undelivered (R273). -/
def State.cmdOpen (s : State) (c : Cmd) : Bool := c.unfinished || s.faultHeld c

/-- A command queue's capacity in all (R269). -/
def queueCapacity (q : Nat) : Nat := if q = 10 then 1024 else if q = 12 then 512 else if q = 14 then 256 else 32

/-- QSTAT's value. -/
def State.qstat (s : State) (t : Tid) (q : Nat) : Nat :=
  match s.team? t.team with
  | none => 0
  | some tm =>
    if queueKind q = 0 then
      let mine := s.cmds.filter fun c => decide (c.team = t.team ∧ c.tokenQueue = q + 1) && (match c.eng with | .rrot _ => false | _ => true)
      (mine.filter s.cmdOpen).length % 65536 + 65536 * queueCapacity q
    else
      let cap := match (s.descOf tm).queue? q with | some d => 2 ^ d.ldepth | none => 32
      tm.queueLen q + 65536 * cap

/-- QSTAT, a short result. -/
def execQstat (h : Hdr) (o : R2) (s : State) : Answer :=
  .next (s.byLane h { ops := [Opd.dvs o.d, Opd.queue o.a], illReg := fun _ _ => !queueOf [0, 1, 2] o.a } fun t _ s =>
    s.result t false o.d [BitVec.ofNat 32 (s.qstat t o.a.queueNum)])

/-- Take the oldest token of a queue whose tag is given. -/
def Team.takeTag (t : Team) (q tag : Nat) : Option (Word × Team) :=
  match t.tokens.find? fun x => decide (x.1 = q ∧ x.2.toNat / 65536 = tag) with
  | none => none
  | some x => some (x.2, { t with tokens := t.tokens.erase x })

/-- QWAIT: each lane on its own; a lane without its token parks and the others go on. -/
def execQwait (h : Hdr) (o : R3) (s : State) : Answer :=
  let q := o.a.queueNum
  .next (s.byLane h { ops := [Opd.dvs o.d, Opd.queue o.a, Opd.vsk o.b], illReg := fun _ _ => !queueOf [1] o.a } (point := true) fun t vals s =>
    match s.team? t.team with
    | none => (s, none)
    | some tm =>
      match tm.takeTag q ((val1 vals 2).toNat % 65536) with
      | some (w, tm') => (((s.updTeam t.team fun _ => tm').invalL1 tm.core).unhold).result t true o.d [w]
      | none => (s.parkLane t (.queue q), none))

/-! ### Acts of single lanes (R259) -/

/-- A lane waits at a queue in the middle of a word, on its own. -/
def State.waitsAt (s : State) (t : Tid) (q : Nat) : Bool :=
  s.threadIs t fun th => (th.pend.any fun p => !p.joint) && th.parks.contains (Park.queue q)

/-- A lane's turn at a queue has come: it leaves the park, and acts again if its word goes on. -/
def State.leaveQueue (s : State) (t : Tid) (q : Nat) (f : Pend → Option Pend) : State :=
  let s := s.updThread t fun th =>
    { th.unpark s.clk.acycle (fun k => decide (k = .queue q)) with pend := th.pend.bind f }
  let goes := s.threadIs t fun th => th.pend.isSome
  { s with retries := if !goes then s.retries.filter (fun x => decide (x ≠ t)) else if s.retries.contains t then s.retries else s.retries ++ [t] }

/-- TEAM_QUEUE_PUSH: one lane's slot goes in when there is room; a lane that waited to push it has done its part of its word. (log 45, DESIGN CHOICE) -/
def execTeamQueuePush (t : Tid) (q : Nat) (slot : Word) (s : State) : Answer :=
  .next (match s.push t q [slot] with
    | none => s
    | some s' => if s.waitsAt t q then s'.leaveQueue t q fun _ => none else s')

/-- One lane's slot comes out: a lane that waited for it holds it for its word, which goes on. -/
def State.lanePop (s : State) (t : Tid) (q : Nat) : State :=
  match s.pop t q with
  | none => s
  | some (slot, s') => if s.waitsAt t q then s'.leaveQueue t q fun p => some { p with popped := p.popped ++ slot } else s'

/-- TEAM_QUEUE_POP. -/
def execTeamQueuePop (t : Tid) (q : Nat) (s : State) : Answer := .next (if 32 ≤ q then s.lanePop t q else s)
/-- TOKEN_POP: a fault pending for the thread is delivered before it (R274). -/
def execTokenPop (t : Tid) (q : Nat) (s : State) : Answer :=
  .next (if 32 ≤ q then s
    else
      let pc := match s.thread? t with | some th => (match th.pend with | some p => p.pc | none => th.pc) | none => 0
      let r := s.deliverAsync t pc
      if r.1 then r.2 else s.lanePop t q)

/-! ### Landing and expiry (R54 to R61) -/

/-- A thread that has nothing outstanding passes its marker, tries EXIT or TRET again, or enters its handler (R57, R75, R355). -/
def State.landed (s : State) (t : Tid) : State :=
  if s.threadIs t fun th => !th.longs.isEmpty then s
  else
    let s := s.passMarker t
    if s.threadIs t fun th => th.parks.contains .longs then
      let s := s.updThread t fun th => th.unpark s.clk.acycle fun k => decide (k = .longs)
      { s with retries := if s.retries.contains t then s.retries else s.retries ++ [t] }
    else s.tryEnter t

/-- LONG_RESULT_LANDS. -/
def execLongResultLands (t : Tid) (id : Nat) (s : State) : Answer := .next ((s.landLong t id).landed t)

/-- GAP_EXPIRY. -/
def execGapExpiry (t : Tid) (s : State) : Answer :=
  .next (s.updThread t fun th => if th.gapUntil < s.clk.acycle then { th with gapUntil := 0 } else th)

/-- SLEEP_EXPIRY: a marked SLEEP passes its marker then. -/
def execSleepExpiry (t : Tid) (s : State) : Answer :=
  .next ((s.updThread t fun th => th.unpark s.clk.acycle fun k => match k with
    | .sleep w => decide (w ≤ s.clk.cycle.toNat) | _ => false).passMarker t)

/-- HANDLER_ENTRY. -/
def execHandlerEntry (t : Tid) (s : State) : Answer := .next (s.tryEnter t)

end Sys2Proof.Machine
end

