-- ==== Sys2Proof/Machine/Hash.lean ====
section
/-! DEFINITION. The ring rotation RROT (R152 to R155) and the hash region: HCLAIM, HFREE, HINS, HPROBE, HDEL, HACC, HDRAIN and HSTAT in one hash order (R156 to R165), with the waves of deterministic mode that they join (R346), and the reload of missing segments (R90). -/

namespace Sys2Proof.Machine

/-! ### RROT -/

/-- RROT's checks at issue, after its decode (R152, R153). -/
def rrotTrap (d : KDesc) (off n : Nat) : Option Nat :=
  if !d.cluster then some fcIllegalOp
  else if off % 128 ≠ 0 then some fcMisalign
  else if n = 0 ∨ n % 4096 ≠ 0 ∨ 262144 < n ∨ d.scratch < off + n ∨ inQueueStorage d off n then some fcPoolRange
  else none

/-- RROT: one counted request for the team; its tile becomes absent. Held while a fill counter stands at 15 (R143), and while what a command issue releases is due (R217). -/
def execRrot (h : Hdr) (o : RrotF) (s : State) : Answer :=
  .next (s.word h { ops := [Opd.sk o.a, Opd.sk o.b] } fun act s =>
    match act, s.cur with
    | t :: _, some c =>
      (match s.team? t.team with
        | none => some s
        | some tm =>
          let off := ((s.readRegs t o.a 0 1).1.getD 0 0).toNat
          let n := ((s.readRegs t o.b 0 1).1.getD 0 0).toNat
          match rrotTrap (s.descOf tm) off n with
          | some code => some (s.trapAll act code off)
          | none =>
            let lines := linesOf off n
            if !tm.canClear lines || (s.accessWaits MemOrder.command act && !s.retrying) then none
            else
              let cmd : Cmd :=
                { id := 0, eng := .rrot (clusterOf tm.core), team := tm.key, ctx := tm.ctx, core := tm.core, group := t.group, code := 0xE1,
                  words := [BitVec.ofNat 32 off, BitVec.ofNat 32 n, if o.back then 1 else 0], pc := c.pc, word := c.word, age := 0, seq := none,
                  tag := o.tag.toNat, notok := false, recips := act }
              let r := s.submit cmd false [] lines
              some ({ (r.2.updTeam tm.key fun t => { t with rrots := t.rrots + 1 }) with
                rrots := r.2.rrots ++ [{ cmd := r.1, team := tm.key, k := tm.rrots, off := off, size := n, back := o.back }] }))
    | _, _ => some s)

/-- The requests matched with one: the k-th of the eight teams of its block, by position (R152, R154). (log 95, DEDUCED) -/
def State.rrotBlock (s : State) (q : RrotReq) : List (RrotReq × Team) :=
  match s.team? q.team with
  | none => []
  | some t =>
    (List.range 8).filterMap fun c =>
      s.rrots.findSome? fun r =>
        match s.team? r.team with
        | some u => if u.launch = t.launch ∧ u.copy = t.copy ∧ u.index = t.index / 8 * 8 + c ∧ r.k = q.k then some (r, u) else none
        | none => none

/-- Lines that a team's earlier commands have cleared have yet to arrive. -/
def State.linesDue (s : State) (team before : Nat) (lines : List Nat) : Bool :=
  s.cmds.any fun c => decide (c.team = team ∧ c.id < before ∧ c.stage ≠ .done) && !c.fillHeld && c.lines.any fun l => lines.contains l

/-- All eight requests are counted and every tile can be read whole: its segments are there, and what earlier commands bring into its lines has arrived (R90, R145, R154). (log 88, DEDUCED) -/
def State.rrotReady (s : State) (b : List (RrotReq × Team)) : Bool :=
  decide (b.length = 8) && b.all fun x =>
    !s.poolMissing x.2.key x.1.off x.1.size && !s.linesDue x.2.key x.1.cmd (linesOf x.1.off x.1.size)

/-- Disagreement (R155): the lines come back, FAULT posts and ENGINE_CMD is owed. -/
def State.rrotDisagree (s : State) (b : List (RrotReq × Team)) : State :=
  b.foldl (fun s x => match s.cmd? x.1.cmd with
    | none => s
    | some c => ((s.lowerLines c).updCmd c.id fun c => { c with fault := some (c.faultInfo (fcEngineCmd, 0, 0)) }).close c.id) s

/-- The tiles move: position c's goes to position c ± 1 at the same offset, where its lines then arrive. -/
def State.rrotMove (s : State) (b : List (RrotReq × Team)) : State :=
  let r := b.foldl (fun (acc : List (Except (Nat × Nat) (List Byte)) × State) x =>
    let q := acc.2.poolRead x.2.key x.1.off x.1.size
    (acc.1 ++ [q.1], q.2)) ([], s)
  b.zipIdx.foldl (fun s x =>
    let src := if x.1.1.back then (x.2 + 1) % 8 else (x.2 + 7) % 8
    match r.1.getD src (.ok []) with
    | .ok bs => s.updCmd x.1.1.cmd fun c => { c with stage := .consumed, out := [{ pool := true, addr := x.1.1.off, bytes := bs }] }
    | .error e => s.updCmd x.1.1.cmd fun c => { c with stage := .consumed, fault := some (c.faultInfo (runFault e)) }) r.2

/-- The exchange that a request takes part in, once it can happen. -/
def State.rrotExchange (s : State) (cmd : Nat) : State :=
  match s.rrots.find? fun q => decide (q.cmd = cmd) with
  | none => s
  | some q =>
    let b := s.rrotBlock q
    if !s.rrotReady b then s
    else
      let same := b.all fun x => decide (x.1.off = q.off ∧ x.1.size = q.size ∧ x.1.back = q.back)
      let gone := b.map fun x => x.1.cmd
      let s := { s with rrots := s.rrots.filter fun r => !gone.contains r.cmd }
      if same then s.rrotMove b else s.rrotDisagree b

/-! ### The hash unit (R157, R158) -/

def keyEmpty : Nat := 0xFFFFFFFFFFFFFFFF
def keyTomb : Nat := 0xFFFFFFFFFFFFFFFE

/-- log2 of the bucket count. -/
def HashR.b (h : HashR) : Nat := (h.word0.extractLsb' 24 4).toNat

/-- The home bucket of a key. -/
def homeBucket (b k : Nat) : Nat := k * 0x9E3779B97F4A7C15 % 2 ^ 64 / 2 ^ (64 - b)

/-- The slots of a key's probe sequence, as 4 × bucket + slot. -/
def probe (b k : Nat) : List Nat :=
  (List.range 8).flatMap fun i => (List.range 4).map fun j => 4 * ((homeBucket b k + i) % 2 ^ b) + j

/-- The scratch address of a slot. -/
def HashR.slot (h : HashR) (p : Nat) : Nat := h.off + 16 * p

/-- The unit may touch a slot: its line is present and its segment is in the pool (R145, R90). -/
def State.slotReady (s : State) (t : Team) (pa n : Nat) : Bool := !t.anyAbsent pa n && !s.poolMissing t.key pa n

/-- Write a slot. -/
def State.putSlot (s : State) (team pa k v : Nat) : State := (s.poolWrite team pa (leBytes 8 k ++ leBytes 8 v)).2

/-- Where a search ended in the buckets: the key's slot and value, the first free slot, a wait, or an error. -/
structure Found where
  hit : Option (Nat × Nat) := none
  free : Option (Nat × Bool) := none
  /-- The scratch address of a slot that is away. -/
  wait : Option Nat := none
  /-- An uncorrectable error in a slot that the search read: MEM_UE (R88; log 56, DEDUCED). -/
  err : Option (Nat × Nat) := none
  deriving DecidableEq, Repr

/-- Search the slots of a probe sequence, up to the first Empty one. -/
def State.searchSlots (s : State) (t : Team) (h : HashR) (k : Nat) : List Nat → Found → Found
  | [], f => f
  | p :: ps, f =>
    if !s.slotReady t (h.slot p) 16 then { f with wait := some (h.slot p) }
    else
      match (s.poolRead t.key (h.slot p) 16).1 with
      | .error e => { f with err := some e }
      | .ok bs =>
        let key := u64At bs 0
        let f := if (key = keyEmpty ∨ key = keyTomb) ∧ f.free.isNone then { f with free := some (p, decide (key = keyTomb)) } else f
        if key = k then { f with hit := some (p, u64At bs 8) }
        else if key = keyEmpty then f
        else s.searchSlots t h k ps f

/-- Read spill entries in ascending order until the key is found: its number and value. -/
def State.searchSpill (s : State) (t : Team) (h : HashR) (k : Nat) : Nat → Nat → Except (Nat × Nat) (Option (Nat × Nat)) × State
  | 0, _ => (.ok none, s)
  | fuel + 1, n =>
    match s.readVa t.ctx (h.base.toNat + 16 * n) 16 with
    | (.error e, s) => (.error e, s)
    | (.ok bs, s) =>
      let bs := overlay t.commit (h.base.toNat + 16 * n) bs
      if u64At bs 0 = k then (.ok (some (n, u64At bs 8)), s) else s.searchSpill t h k fuel (n + 1)

/-- Write a spill entry: a twin copy's goes to its commit buffer (R350). -/
def State.putSpill (s : State) (t : Team) (h : HashR) (n k v : Nat) : Except (Nat × Nat) Unit × State :=
  let va := h.base.toNat + 16 * n
  let bs := leBytes 8 k ++ leBytes 8 v
  if s.isTwin t then
    match s.probeVa t.ctx va 16 .store with
    | (.error e, s) => (.error e, s)
    | (.ok _, s) => (.ok (), (s.commitWrite t.key 7 0 va bs).checkCommit t.key)
  else s.writeVa t.ctx va bs

/-- Change the counts of a team's region. -/
def State.updHash (s : State) (team : Nat) (f : HashR → HashR) : State := s.updTeam team fun t => { t with hash := t.hash.map f }

/-! ### Per-lane operations (R159, R160) -/

/-- What a lane's hash word asks. -/
inductive HKind where
  | ins | probe | del
  | acc (ty : HTy)
  deriving DecidableEq, Repr

/-- HACC's sum. -/
def haccSum (ty : HTy) (a b : Nat) : Nat :=
  match ty with
  | .u64 => (a + b) % 2 ^ 64
  | .f32x2 => Fmt.fp32.add (a % 2 ^ 32) (b % 2 ^ 32) + 2 ^ 32 * Fmt.fp32.add (a / 2 ^ 32) (b / 2 ^ 32)
  | .f64 => Fmt.fp64.add a b

/-- A lane's answer: value, status, position, and a fault to deliver (R162). -/
structure HAns where
  ret : Nat
  status : Nat
  pos : Nat := 0xFFFFFFFF
  fault : Option (Nat × Nat) := none
  deriving DecidableEq, Repr

/-- A slot or a spill entry cannot be read or written: nothing changed. -/
def HAns.faulted (e : Nat × Nat) : HAns := { ret := 0, status := 8, fault := some e }

/-- Store a new entry: the first free slot, else the spill list, else FULL. -/
def State.hashPut (s : State) (t : Team) (h : HashR) (f : Found) (k x ret : Nat) : HAns × State :=
  match f.free with
  | some (p, tomb) =>
    ({ ret := ret, status := 0, pos := p },
     (s.putSlot t.key (h.slot p) k x).updHash t.key fun h => { h with live := h.live + 1, tomb := if tomb then h.tomb - 1 else h.tomb })
  | none =>
    if h.spill < h.cap.toNat then
      match s.putSpill t h h.spill k x with
      | (.error e, s) => (HAns.faulted e, s)
      | (.ok _, s) =>
        ({ ret := ret, status := 4 }, s.updHash t.key fun h => { h with spill := h.spill + 1, spilllive := h.spilllive + 1 })
    else ({ ret := 0, status := 7, fault := some (fcHashFull, 0) }, s)

/-- One lane at its place in the hash order. None while a line or a segment of its probe sequence is away. -/
def State.hashLane (s : State) (t : Team) (h : HashR) (kind : HKind) (k x : Nat) : Option (HAns × State) :=
  let f := s.searchSlots t h k (probe h.b k) {}
  if f.wait.isSome then none
  else
    match f.err, f.hit with
    | some e, _ => some (HAns.faulted e, s)
    | none, some (p, v) =>
      some (match kind with
        | .probe => ({ ret := v, status := 2, pos := p }, s)
        | .ins => ({ ret := v, status := 1, pos := p }, s)
        | .del => ({ ret := v, status := 5, pos := p },
            (s.putSlot t.key (h.slot p) keyTomb 0).updHash t.key fun h => { h with live := h.live - 1, tomb := h.tomb + 1 })
        | .acc ty => ({ ret := haccSum ty v x, status := 6, pos := p }, s.putSlot t.key (h.slot p) k (haccSum ty v x)))
    | none, none =>
      match (if h.spill = 0 then (.ok none, s) else s.searchSpill t h k h.spill 0) with
      | (.error e, s) => some (HAns.faulted e, s)
      | (.ok (some (n, v)), s) =>
        (match kind with
          | .probe => some ({ ret := v, status := 2 }, s)
          | .ins => some ({ ret := v, status := 1 }, s)
          | .del => (match s.putSpill t h n keyTomb 0 with
              | (.error e, s) => some (HAns.faulted e, s)
              | (.ok _, s) => some ({ ret := v, status := 5 }, s.updHash t.key fun h => { h with spilllive := h.spilllive - 1 }))
          | .acc ty => (match s.putSpill t h n k (haccSum ty v x) with
              | (.error e, s) => some (HAns.faulted e, s)
              | (.ok _, s) => some ({ ret := haccSum ty v x, status := 6 }, s)))
      | (.ok none, s) =>
        match kind with
        | .probe | .del => some ({ ret := 0, status := 3 }, s)
        | .ins => some (s.hashPut t h f k x 0)
        | .acc _ => some (s.hashPut t h f k x x)

/-! ### Results and faults of an applied word (R234, R346) -/

/-- A fault found when a word is applied: its destination is not written, and the thread takes it before any later word. -/
def State.waveFault (s : State) (o : WaveOp) (t : Tid) (long code addr : Nat) : State := s.lateFault t o.pc o.word long code addr

/-- Every lane of a word that is applied. -/
def WaveOp.all (o : WaveOp) : List (Tid × Nat) := (o.tid, o.long) :: o.peers

/-- Give a lane its hash word's answer, with its fault, as old as the word (R162, R274). -/
def State.hashAnswer (s : State) (o : WaveOp) (d : Reg) (r : HAns) : State :=
  let s := s.giveLong o.tid o.long d (natPair r.ret ++ [BitVec.ofNat 32 r.status, BitVec.ofNat 32 r.pos])
  match r.fault with
  | none => s
  | some (code, addr) =>
    s.asyncFault o.tid
      { code := code, engine := 6, fpc := o.pc, rpc := o.pc, addr := BitVec.ofNat 64 addr, word := o.word, age := o.age,
        cmd := natPair (wordPair (o.vals.getD 1 []) 0) ++ natPair (wordPair (o.vals.getD 2 []) 0) }

/-- One lane's hash word applied. -/
def State.applyLane (s : State) (o : WaveOp) (d : Reg) (kind : HKind) : Option State :=
  match s.team? o.tid.team with
  | none => some s
  | some t =>
    match t.hash with
    | none => some (s.waveFault o o.tid o.long fcIllegalOp 0)
    | some h =>
      (s.hashLane t h kind (wordPair (o.vals.getD 1 []) 0) (wordPair (o.vals.getD 2 []) 0)).map fun r => r.2.hashAnswer o d r.1

/-- HCLAIM's checks on its operands; `held` when the team holds a region at its place. -/
def claimTrap (d : KDesc) (held : Bool) (ws : List Word) : Option Nat :=
  let h : HashR := { word0 := ws.getD 0 0, cap := ws.getD 1 0, base := BitVec.ofNat 64 (wordPair ws 2) }
  if held || decide (h.b < 6 ∨ 14 < h.b ∨ h.word0.extractLsb' 28 4 ≠ 0 ∨ h.word0.extractLsb' 22 2 ≠ 0) then some fcIllegalOp
  else if h.off % 4096 ≠ 0 ∨ h.base.toNat % 16 ≠ 0 then some fcMisalign
  else if d.scratch < h.off + h.bytes ∨ inQueueStorage d h.off h.bytes then some fcPoolRange
  else none

/-- HCLAIM applied: the region is held, its lines are absent, and the unit fills them with Empty slots. -/
def State.applyClaim (s : State) (o : WaveOp) : Option State :=
  match s.team? o.tid.team with
  | none => some s
  | some t =>
    if t.hash.isSome then some (o.all.foldl (fun s x => s.waveFault o x.1 x.2 fcIllegalOp 0) s)
    else
      let ws := o.vals.getD 0 []
      let h : HashR := { word0 := ws.getD 0 0, cap := ws.getD 1 0, base := BitVec.ofNat 64 (wordPair ws 2) }
      let lines := linesOf h.off h.bytes
      if !t.canClear lines then none
      else
        let cmd : Cmd :=
          { id := 0, eng := .hash t.core, team := t.key, ctx := t.ctx, core := t.core, group := o.tid.group, code := 0, words := [], pc := o.pc,
            word := o.word, age := 0, seq := none, tag := 0, notok := true, recips := [], stage := .consumed,
            out := [{ pool := true, addr := h.off, bytes := (List.replicate (h.bytes / 16) (leBytes 8 keyEmpty ++ leBytes 8 0)).flatten }] }
        some ((s.updTeam t.key fun t => { t with hash := some h }).submit cmd false [] lines).2

/-- Live entries of a list of slots. -/
def liveEntries (bs : List Byte) : List (Nat × Nat) :=
  ((cut 16 (bs.length / 16) bs).map fun e => (u64At e 0, u64At e 8)).filter fun e => decide (e.1 ≠ keyEmpty ∧ e.1 ≠ keyTomb)

/-- The command that an HDRAIN becomes (R164). -/
def drainCmd (t : Team) (o : WaveOp) (tag : Nat) : Cmd :=
  { id := 0, eng := .hash t.core, team := t.key, ctx := t.ctx, core := t.core, group := o.tid.group, code := 0xE0, words := [], pc := o.pc,
    word := o.word, age := 0, seq := none, tag := tag, notok := false, recips := o.all.map fun x => x.1, stage := .consumed }

/-- A command that a word becomes at its place in the hash order is as old as the word (R274). -/
def State.submitDrain (s : State) (o : WaveOp) (c : Cmd) (ranges : List Rng) : Nat × State :=
  let x := s.submit c false ranges []
  (x.1, x.2.updCmd x.1 fun c => { c with age := o.age })

/-- An HDRAIN that ends in a fault before it changes anything. -/
def State.failDrain (s : State) (o : WaveOp) (c : Cmd) (e : Nat × Nat) : State :=
  let x := s.submitDrain o c []
  (x.2.updCmd x.1 fun c => { c with fault := some (c.faultInfo (runFault e)) }).close x.1

/-- HDRAIN applied (R164). -/
def State.applyDrain (s : State) (o : WaveOp) (tag : Nat) : Option State :=
  match s.team? o.tid.team with
  | none => some s
  | some t =>
    match t.hash with
    | none => some (o.all.foldl (fun s x => s.waveFault o x.1 x.2 fcIllegalOp 0) s)
    | some h =>
      if !s.slotReady t h.off h.bytes || !s.lockRoom t.core 1 then none
      else
        let dest := wordPair (o.vals.getD 0 []) 0
        let cmd := drainCmd t o tag
        some (match (s.poolRead t.key h.off h.bytes).1, (if h.spill = 0 then (.ok [], s) else s.readVa t.ctx h.base.toNat (16 * h.spill)) with
          | .error e, _ => s.failDrain o cmd e
          | .ok _, (.error e, s) => s.failDrain o cmd e
          | .ok slots, (.ok sp, s) =>
            let es := sortBy (fun e => e.1) (liveEntries slots ++ liveEntries (overlay t.commit h.base.toNat sp))
            let n := 16 + 16 * es.length
            match s.probeVa t.ctx dest n .store with
            | (.error e, s) => s.failDrain o cmd e
            | (.ok _, s) =>
              let s := (s.poolWrite t.key h.off (List.replicate (h.bytes / 16) (leBytes 8 keyEmpty ++ leBytes 8 0)).flatten).2
              let s := s.updHash t.key fun h => { h with live := 0, spill := 0, spilllive := 0, tomb := 0 }
              let bs := leBytes 8 es.length ++ leBytes 8 0 ++ es.flatMap fun e => leBytes 8 e.1 ++ leBytes 8 e.2
              (s.submitDrain o { cmd with out := [{ pool := false, addr := dest, bytes := bs }] } [{ lo := dest, len := n, dst := true }]).2)

/-- HSTAT's value. -/
def HashR.stat (h : HashR) (sel : Nat) : Word :=
  match sel with
  | 0 => BitVec.ofNat 32 h.live
  | 1 => BitVec.ofNat 32 h.spill
  | 2 => BitVec.ofNat 32 h.spilllive
  | 3 => BitVec.ofNat 32 h.tomb
  | 4 => h.word0
  | _ => h.cap

/-- A hash word at its place in the hash order. None while it must wait. -/
def State.hashApply (s : State) (o : WaveOp) : Option State :=
  match decode o.word with
  | .hins _ f => s.applyLane o f.d .ins
  | .hprobe _ f => s.applyLane o f.d .probe
  | .hdel _ f => s.applyLane o f.d .del
  | .hacc _ f => s.applyLane o f.d (.acc f.ty)
  | .hclaim _ _ => s.applyClaim o
  | .hdrain _ f => s.applyDrain o f.tag.toNat
  | .hfree _ =>
    some (match (s.team? o.tid.team).bind fun t => t.hash with
      | some _ => s.updTeam o.tid.team fun t => { t with hash := none }
      | none => o.all.foldl (fun s x => s.waveFault o x.1 x.2 fcIllegalOp 0) s)
  | .hstat _ f =>
    some (match (s.team? o.tid.team).bind fun t => t.hash with
      | some h => o.all.foldl (fun s x => s.giveLong x.1 x.2 f.d [h.stat f.sel.toNat]) s
      | none => o.all.foldl (fun s x => s.waveFault o x.1 x.2 fcIllegalOp 0) s)
  | _ => some s

/-! ### Issue (R161, R346) -/

/-- Every lane of a team operation and its long result, and in deterministic mode its next wave. -/
def State.joinAll (s : State) (d : Option Reg) (n : Nat) (det : Bool) : List Tid → List (Tid × Nat) × State
  | [] => ([], s)
  | t :: ts =>
    let r := match d with
      | some r => s.waitLong t (s.waitingRegs t r n) r.isS
      | none => (0, s)
    let s := if det then r.2.updThread t fun th => { th with wave := th.wave + 1 } else r.2
    let q := s.joinAll d n det ts
    ((t, r.1) :: q.1, q.2)

/-- A hash word takes its place in the hash order: its wave, or its turn, which comes at once when nothing waits before it. -/
def State.hashIssue (s : State) (act : List Tid) (d : Option Reg) (n : Nat) (vals : List (List Word)) : State :=
  match s.cur, act with
  | some c, t :: _ =>
    (match s.team? t.team with
      | none => s
      | some tm =>
        let det := (s.descOf tm).det
        let f := s.fresh
        let r := f.2.joinAll d n det act
        let wave := if det then (match r.2.thread? t with | some th => th.wave | none => 0) else 0
        let o : WaveOp :=
          { wave := wave, tid := t, long := (r.1.map fun x => x.2).getD 0 0, pc := c.pc, word := c.word, vals := vals, peers := r.1.drop 1,
            age := f.1 }
        let later := r.2.updTeam t.team fun tm => { tm with waveOps := tm.waveOps ++ [o] }
        if det || !tm.waveOps.isEmpty then later else match r.2.hashApply o with | some s => s | none => later)
  | _, _ => s

/-- The team holds a region once every word that waits has been applied: what a word issued now finds at its place, outside deterministic mode (R156, R163). -/
def Team.regionNext (t : Team) : Bool :=
  t.waveOps.foldl (fun held o => match decode o.word with
    | .hclaim _ _ => true
    | .hfree _ => false
    | _ => held) t.hash.isSome

/-- A word finds no region at its place in the hash order (R163). In deterministic mode its place is known only when its wave is applied. -/
def State.noRegion (s : State) (t : Tid) : Bool :=
  match s.team? t.team with
  | none => true
  | some tm => !(s.descOf tm).det && !tm.regionNext

/-- A per-lane hash word. Without a region a reserved key gives ILLEGAL_OP (R160, R163). (log 81, DESIGN CHOICE) -/
def State.hashWord (s : State) (h : Hdr) (d : Reg) (ops : List Opd) : State :=
  s.byLane h { ops := { Opd.dv d 4 with align := 4 } :: ops } (joint := true) fun t vals s =>
    if s.noRegion t then (s.trap t fcIllegalOp, none)
    else if keyTomb ≤ wordPair (vals.getD 1 []) 0 then (s.trap t fcHashKey, none)
    else (s.hashIssue [t] (some d) 4 vals, none)

/-- HINS. -/
def execHins (h : Hdr) (o : R3) (s : State) : Answer := .next (s.hashWord h o.d [Opd.vsk o.a 2, Opd.vsk o.b 2])
/-- HPROBE. -/
def execHprobe (h : Hdr) (o : R2) (s : State) : Answer := .next (s.hashWord h o.d [Opd.vsk o.a 2])
/-- HDEL. -/
def execHdel (h : Hdr) (o : R2) (s : State) : Answer := .next (s.hashWord h o.d [Opd.vsk o.a 2])
/-- HACC. -/
def execHacc (h : Hdr) (o : HaccF) (s : State) : Answer := .next (s.hashWord h o.d [Opd.vsk o.a 2, Opd.vsk o.b 2])

/-- A team operation of the hash unit: checks, then its place. It may be held at issue, or park its threads for a lock entry. -/
def State.hashTeam (s : State) (h : Hdr) (ops : List Opd) (d : Option Reg) (src : Option (Reg × Nat)) (region : Bool)
    (trap : State → Team → List Word → Option (Nat × Nat)) (hold : State → List Tid → Team → List Word → Bool := fun _ _ _ _ => false)
    (full : State → Team → Bool := fun _ _ => false) : State :=
  s.word h { ops := ops } fun act s =>
    match act with
    | [] => some s
    | t :: _ =>
      match s.team? t.team with
      | none => some s
      | some tm =>
        let ws := match src with | some (r, n) => (s.readRegs t r 0 n).1 | none => []
        if region && s.noRegion t then some (s.trapAll act fcIllegalOp)
        else match trap s tm ws with
          | some (code, addr) => some (s.trapAll act code addr)
          | none =>
            if hold s act tm ws then none
            else if full s tm then some (s.parkWord act .locks)
            else some (s.hashIssue act d 1 [ws])

/-- HCLAIM: held while a fill counter of its lines stands at 15 (R143). -/
def execHclaim (h : Hdr) (a : Reg) (s : State) : Answer :=
  .next (s.hashTeam h [Opd.sk a 4] none (some (a, 4)) false
    (fun s tm ws =>
      let d := s.descOf tm
      (claimTrap d (!d.det && tm.regionNext) ws).map fun c => (c, 0))
    fun _ _ tm ws =>
      let h : HashR := { word0 := ws.getD 0 0, cap := 0, base := 0 }
      !tm.canClear (linesOf h.off h.bytes))
/-- HFREE. -/
def execHfree (h : Hdr) (s : State) : Answer := .next (s.hashTeam h [] none none true fun _ _ _ => none)
/-- HDRAIN: a command issue (R217), which parks its threads while the lock table is full (R229). -/
def execHdrain (h : Hdr) (o : HdrainF) (s : State) : Answer :=
  .next (s.hashTeam h [Opd.sk o.a 2] none (some (o.a, 2)) true
    (fun _ _ ws => if wordPair ws 0 % 16 ≠ 0 then some (fcMisalign, wordPair ws 0) else none)
    (fun s act _ _ => s.accessWaits MemOrder.command act && !s.retrying) fun s tm => !s.lockRoom tm.core 1)
/-- HSTAT. -/
def execHstat (h : Hdr) (o : HstatF) (s : State) : Answer := .next (s.hashTeam h [Opd.dvs o.d] (some o.d) none true fun _ _ _ => none)

/-! ### Waves (R346) -/

/-- The least wave that waits; queued hash words outside deterministic mode stand at wave 0. -/
def Team.nextWave (t : Team) : Option Nat :=
  t.waveOps.foldl (fun m o => match m with | none => some o.wave | some w => some (min w o.wave)) none

/-- A wave can be applied: every live thread has issued its word of the wave or is closed. (log 50, DEDUCED) -/
def Team.waveReady (t : Team) (w : Nat) : Bool := t.allThreads.all fun th => th.closed || decide (w ≤ th.wave)

/-- The access of a waiting word. -/
def WaveOp.acc (o : WaveOp) : Acc := { tid := o.tid, pc := o.pc, word := o.word, late := some o.long }

/-- Perform a waiting access, if its word is one: what it does there. -/
def State.performAcc (s : State) (o : WaveOp) : Option State :=
  match decode o.word with
  | .ld _ f => some (s.ldAct f o.vals o.acc)
  | .st _ f | .scatter _ f => some (s.stAct f o.vals o.acc)
  | .atom _ f => some (s.atomDo (AtF.opd f) (effAddr o.vals 1 0 1) (AtF.act f o.vals) o.acc)
  | .cas _ f => some (s.atomDo (CasF.opd f) (effAddr o.vals 1 0 1) (CasF.act f o.vals) o.acc)
  | .red _ f => some (s.redDo f o.vals o.acc)
  | .redseq _ f => some (s.redseqDo f o.vals o.acc)
  | .ldp _ f | .lds _ f => some (s.poolGet f o.vals o.acc)
  | .stp _ f | .sts _ f => some (s.poolPut f o.vals o.acc)
  | .atoms _ f => some (s.atomsAct f o.vals o.acc)
  | _ => none

/-- A waiting access must still follow others. -/
def State.opFollows (s : State) (o : WaveOp) : Bool := o.place.isSome && s.mustFollow o.ord o.tid o.place o.age o.marks

/-- The slot of a waiting pool access is in its place: its segment is not away, and no line of it is absent. -/
def State.opInPlace (s : State) (o : WaveOp) : Bool :=
  match o.place, s.team? o.tid.team with
  | some p, some t => !p.pool || s.slotReady t p.addr p.len
  | _, _ => true

/-- Apply one waiting word. None while it must wait. -/
def State.applyOp (s : State) (o : WaveOp) : Option State :=
  if s.opFollows o || !s.opInPlace o then none
  else
    match s.performAcc o with
    | some s => some (s.performedFor o.tid o.age)
    | none => s.hashApply o

/-- Apply waiting words in order until one must wait. -/
def State.applyOps (s : State) (team : Nat) : List WaveOp → State
  | [] => s
  | o :: os =>
    match s.applyOp o with
    | none => s
    | some s => (s.updTeam team fun t => { t with waveOps := t.waveOps.erase o }).unhold.applyOps team os

/-- The words of a wave in their order: ascending group, then ascending lane; wave 0 keeps its own order. -/
def Team.waveList (t : Team) (w : Nat) : List WaveOp :=
  let ops := t.waveOps.filter fun o => decide (o.wave = w)
  if w = 0 then ops else sortBy (fun o => 64 * o.tid.group + o.tid.lane) ops

/-- The highest wave that is ready, or that was before. -/
def Team.waveTop (t : Team) : Nat := t.waveOps.foldl (fun m o => if t.waveReady o.wave then max m o.wave else m) t.waveDone

/-- Apply the next wave if it is ready. The words of a ready wave are fixed, so it counts as applied even while one of them waits for a line. -/
def State.applyWave (s : State) (team : Nat) : State :=
  match s.team? team with
  | none => s
  | some t =>
    match t.nextWave with
    | none => s
    | some w =>
      if !(w = 0 || t.waveReady w) then s
      else (s.applyOps team (t.waveList w)).updTeam team fun u => { u with waveDone := max u.waveDone t.waveTop }

/-- A pool access that comes after its wait meets what the thread met at issue: an error is its fault (R92, R147). -/
def State.lsuMet (s : State) (o : WaveOp) : Met :=
  match o.place, decode o.word with
  | some p, .ldp _ _ => s.poolMeet o.tid p.addr p.len false false
  | some p, .stp _ _ => s.poolMeet o.tid p.addr p.len false true
  | some p, .lds _ _ => s.poolMeet o.tid p.addr p.len true false
  | some p, .sts _ _ | some p, .atoms _ _ => s.poolMeet o.tid p.addr p.len true true
  | _, _ => .go

/-- An access that waits in the load-store unit can be performed. -/
def State.lsuReady (s : State) (o : WaveOp) : Bool :=
  !s.opFollows o && match s.lsuMet o with | .park _ => false | _ => true

/-- Perform an access of the load-store unit. A contribution that sets out is not performed yet. -/
def State.performLsu (s : State) (o : WaveOp) : State :=
  let s := s.updTeam o.tid.team fun t => { t with lsu := t.lsu.erase o }
  let s := match s.lsuMet o with
    | .trap e x => (if e = fcMemUe then (match s.team? o.tid.team with
        | some t => s.mailPool t.core t.ctx o.pc.toNat
        | none => s) else s).lateFault o.tid o.pc o.word o.long e x
    | _ => (s.performAcc o).getD s
  (if o.ord.reduces then s else s.performedFor o.tid o.age).unhold

/-- Perform the accesses of a team's load-store unit that wait for nothing any more, oldest first. -/
def State.drainLsu (s : State) : List WaveOp → State
  | [] => s
  | o :: os => (if s.lsuReady o then s.performLsu o else s).drainLsu os

/-- WAVE_APPLY: the next wave, and what the load-store units have waited to perform (R346, R225). -/
def execWaveApply (team : Nat) (s : State) : Answer :=
  let s := s.applyWave team
  .next (s.drainLsu (match s.team? team with | some t => t.lsu | none => []))

/-- Apply every wave that is ready, at most `fuel` of them: what a barrier's phase waits for (R346). -/
def State.applyWaves (team : Nat) : Nat → State → State
  | 0, s => s
  | n + 1, s =>
    let s' := s.applyWave team
    if s' = s then s else State.applyWaves team n s'

/-! ### Segment reload (R90) -/

/-- The first slot of a key's search that is away. -/
def State.keyTouch (s : State) (t : Team) (k : Nat) : Option (Nat × Nat) :=
  t.hash.bind fun h => (s.searchSlots t h k (probe h.b k) {}).wait.map fun pa => (pa, 16)

/-- The pool bytes that keep a waiting word from being applied. -/
def State.opTouch (s : State) (t : Team) (o : WaveOp) : Option (Nat × Nat) :=
  match decode o.word with
  | .atoms _ _ | .ldp _ _ | .stp _ _ | .lds _ _ | .sts _ _ => o.place.map fun p => (p.addr, p.len)
  | .hins _ _ | .hprobe _ _ | .hdel _ _ | .hacc _ _ => s.keyTouch t (wordPair (o.vals.getD 1 []) 0)
  | .hdrain _ _ => t.hash.map fun h => (h.off, h.bytes)
  | _ => none

/-- The waiting word of a team that is next to be applied. -/
def Team.nextOp (t : Team) : Option WaveOp := t.nextWave.bind fun w => if w = 0 || t.waveReady w then (t.waveList w).head? else none

/-- The missing segment that a waiting word touches. -/
def State.segTouch (s : State) (t : Team) (o : WaveOp) : Option (WaveOp × Nat) :=
  (s.opTouch t o).bind fun x => (missingSeg (s.descOf t) t x.1 x.2).map fun i => (o, i)

/-- The missing segments that a team's next waiting word and the accesses of its load-store unit touch. -/
def State.waveTouch (s : State) (t : Team) : List (WaveOp × Nat) :=
  (t.nextOp.bind (s.segTouch t)).toList ++ (t.lsu.filter fun o => !s.opFollows o).filterMap (s.segTouch t)

/-- A waiting word whose segment cannot come back: an atomic faults before any later word, and the hash unit's fault is delivered later. -/
def State.touchFault (s : State) (t : Team) (o : WaveOp) (e : Nat × Nat) : State :=
  let s := s.updTeam t.key fun t => { t with waveOps := t.waveOps.erase o, lsu := t.lsu.erase o }
  match decode o.word with
  | .hins _ f => s.hashAnswer o f.d (HAns.faulted e)
  | .hprobe _ f | .hdel _ f => s.hashAnswer o f.d (HAns.faulted e)
  | .hacc _ f => s.hashAnswer o f.d (HAns.faulted e)
  | .hdrain _ f => s.failDrain o (drainCmd t o f.tag.toNat) e
  | _ => s.waveFault o o.tid o.long e.1 e.2

/-- Where a thread that takes a fault before its next word goes on: that word, or the one that it stands in the middle of. -/
def Thread.resumePc (th : Thread) : DWord := match th.pend with | some p => p.pc | none => th.pc

/-- A thread takes a fault of the word that it stands in the middle of, or before its next word. -/
def State.faultAt (s : State) (t : Tid) (e : Nat × Nat) : State :=
  match s.thread? t with
  | none => s
  | some th =>
    s.takeFault t { code := e.1, fpc := th.resumePc, rpc := th.resumePc, addr := BitVec.ofNat 64 e.2,
                    word := match th.pend with | some p => p.word | none => 0 }

/-- Results that touch a segment that cannot come back are dropped, and their thread takes the fault before its next word. (log 55, DEDUCED) -/
def State.dropTouching (s : State) (t : Tid) (touch : Nat) (e : Nat × Nat) : State :=
  match s.thread? t with
  | none => s
  | some th =>
    let gone := (th.longs.filter fun l => decide (s.landTouch t l = some touch)).map fun l => l.id
    if gone.isEmpty then s
    else (s.updThread t fun th => { th with longs := th.longs.filter fun l => !gone.contains l.id }).faultAt t e

/-- A command's write or line lies in a segment. -/
def Cmd.touches (c : Cmd) (lo : Nat) : Bool :=
  (c.out.any fun w => w.pool && meets w.addr w.bytes.length lo 65536) || c.lines.any fun l => meets (128 * l) 128 lo 65536

/-- A command needs a segment now: one at its team's head for what it reads and writes, one that has run for what it still owes to write (R90). -/
def State.cmdNeeds (s : State) (c : Cmd) (lo : Nat) : Bool :=
  let locked := s.locks.any fun l => decide (l.cmd = c.id) && l.pool && l.overlaps lo 65536
  match c.stage with
  | .queued => s.teamHead c && c.guard.isNone && (c.touches lo || locked)
  | .running => c.touches lo
  | .consumed => c.touches lo || (c.tileAdd && locked)
  | .done => false

/-- A command that needs a segment that cannot come back fails (R90, R272). -/
def State.reloadCmd (s : State) (lo : Nat) (e : Nat × Nat) (c : Cmd) : State :=
  if !s.cmdNeeds c lo then s
  else if c.stage = .queued then
    { (s.updCmd c.id fun c => { c with stage := .consumed, fault := some (c.faultInfo (runFault e)), lines := if c.fillHeld then [] else c.lines, fillHeld := false }) with
      rrots := s.rrots.filter fun q => decide (q.cmd ≠ c.id) }
  else s.updCmd c.id fun c => c.stopAt (some e)

/-- A reload failed: the threads parked on the segment take the fault at their words, results that it was to take are dropped with a fault, and commands that wait for it fail (R90). -/
def State.reloadFault (s : State) (team : Nat) (why : Park) (touch : Nat) (lo : Option Nat) (e : Nat × Nat) : State :=
  let s := (s.teamTids team).foldl (fun s t =>
    (if s.threadIs t fun th => th.parks.contains why then s.faultAt t e else s).dropTouching t touch e) s
  match lo with
  | none => s
  | some lo => (s.cmds.filter fun c => decide (c.team = team ∧ c.stage ≠ .done)).foldl (fun s c => s.reloadCmd lo e c) s

/-- A handler's frame cannot come back: the threads that are to enter with it have no record to write, which loses the team as a double fault does (R359). (log 55, DEDUCED) -/
def State.entryFault (s : State) (tm : Team) (id : Nat) (e : Nat × Nat) : State :=
  tm.groups.foldl (fun s g => g.threads.foldl (fun s th =>
    match th.parks.findSome? fun k => match k with | .entry f => some f | _ => none with
    | some f =>
      if s.entryTouch tm g = some id then (s.errorRecord tm fcDoubleFault f.code e.1 f.fpc (BitVec.ofNat 64 e.2)).killTeam tm.key fcDoubleFault
      else s
    | none => s) s) s

/-- SEGMENT_RELOAD: a missing segment of a team on its core comes back whole; numbers from 64 name reserve segments. (log 55, DEDUCED) -/
def execSegmentReload (team seg : Nat) (s : State) : Answer :=
  .next (match s.team? team with
    | none => s
    | some tm =>
      if tm.place ≠ .resident then s
      else if seg < 64 then
        match (tm.seg? seg).bind fun g => g.saved with
        | none => s
        | some slot =>
          let base := segBase (s.descOf tm) tm seg
          (match s.readVa tm.ctx slot 65536 with
          | (.error e, s) =>
            let s := s.reloadFault team (.segment seg) seg (some base) e
            (s.waveTouch tm).foldl (fun s x => if x.2 = seg then s.touchFault tm x.1 e else s) s
          | (.ok bs, s) =>
            (s.updTeam team fun t => { (t.updSeg seg fun g => { g with saved := none }) with pool := Mem.setN t.pool base bs }).wakeTeam team
              fun k => decide (k = .segment seg))
      else
        match s.reserves.find? fun r => decide (r.id = seg - 64 ∧ r.core = tm.core ∧ r.ctx = tm.ctx) with
        | none => s
        | some r =>
          match r.saved with
          | none => s
          | some slot =>
            match s.readVa tm.ctx slot 65536 with
            | (.error e, s) => (s.reloadFault team (Park.reserve r.id) seg none e).entryFault tm r.id e
            | (.ok bs, s) =>
              let s := (s.framesIn r).foldl (fun s f =>
                s.updGroup { team := f.1, group := f.2.1, lane := 0 } fun g =>
                  { g with hregs := Mem.setN [] 0 ((bs.drop (8192 * f.2.2)).take 8192) }) s
              ({ s with reserves := updWhere (fun x => decide (x.id = r.id)) (fun x => { x with saved := none }) s.reserves }).wakeAll
                fun k => decide (k = Park.reserve r.id))

end Sys2Proof.Machine
end

