-- ==== Sys2Proof/Machine/Matrix.lean ====
section
/-! DEFINITION. The matrix arrays (R166 to R197): MLOOP, MZERO, MDRAIN, MSTORE, MSTADD, MLDF, MSCAN, MCARRY and MWAIT, what their commands compute, and the consumed and done points of every command (R177, R264). -/

namespace Sys2Proof.Machine

/-! ### The format word (R106, R107) -/

/-- A field of a format word or of another 32-bit word. -/
def fieldOf (w : Word) (lo n : Nat) : Nat := w.toNat / 2 ^ lo % 2 ^ n

/-- Bits of an element by its code (R95). -/
def fmtBits (code : Nat) : Nat := match code with | 0 => 32 | 1 | 2 => 16 | 4 => 4 | _ => 8

/-- The matrix width class of a code: its elements in a 64-byte row (R95, R171). None for an unassigned code. -/
def widthClass (code : Nat) : Option Nat :=
  if code = 7 ∨ 9 < code then none else some (512 / fmtBits code)

/-- Side A or B of a format word: code, precision, reading, unsigned, tile layout. -/
structure MSide where
  fmt : Nat
  prec : Nat
  read : Nat
  uns : Bool
  tile : Bool
  deriving DecidableEq, Repr

def sideA (f : Word) : MSide := { fmt := fieldOf f 0 4, prec := fieldOf f 12 3, read := fieldOf f 8 2, uns := f.getLsbD 18, tile := f.getLsbD 29 }
def sideB (f : Word) : MSide := { fmt := fieldOf f 4 4, prec := fieldOf f 15 3, read := fieldOf f 10 2, uns := f.getLsbD 19, tile := f.getLsbD 30 }

/-- The element format of a side. -/
def MSide.nf (x : MSide) : NFmt := nfmt x.fmt x.prec x.read x.uns

/-- A side may take scales of a stream (R107). -/
def MSide.mx (x : MSide) : Bool := decide (x.fmt = 3 ∨ x.fmt = 4 ∨ x.fmt = 8 ∨ x.fmt = 9)

/-- R107. -/
def formatValid (f : Word) : Bool :=
  let a := sideA f
  let b := sideB f
  let scm := fieldOf f 22 2
  (widthClass a.fmt).isSome && decide (widthClass a.fmt = widthClass b.fmt) &&
  formatFields a.fmt a.prec a.read a.uns && formatFields b.fmt b.prec b.read b.uns &&
  decide (fieldOf f 24 5 = 0 ∧ fieldOf f 20 2 = 0 ∧ scm ≠ 3) &&
  (decide (scm ≠ 1) || (a.mx && b.mx)) &&
  (decide (scm ≠ 2) || (decide (a.fmt ≠ 5 ∧ a.fmt ≠ 6) && decide (b.fmt ≠ 5 ∧ b.fmt ≠ 6)))

/-! ### Issue (R166 to R169) -/

/-- The accumulator block a field names starts at VIEW.A + 256 N (R169). -/
def State.blockStart (s : State) (t : Tid) (d : Reg) : Bool :=
  match d with
  | .v i => decide ((s.descOfTid t).viewa ≤ i.val ∧ (i.val - (s.descOfTid t).viewa) % 256 = 0)
  | _ => false

/-- Registers that a class 6 word names for its array; `reads` where the array reads them, which R58 governs (R60). -/
def Opd.block (r : Reg) (n align : Nat) (reads : Bool := false) : Opd :=
  { reg := r, n := n, align := align, use := .name, h := false, reads := reads }
/-- A group of s registers. -/
def Opd.sgroup (r : Reg) (n : Nat) : Opd := { reg := r, n := n, align := n, v := false, h := false, s := true }

/-- The V register number of a field. -/
def regNum (r : Reg) : Nat := match r with | .v i => i.val | _ => 0

/-- The team pool address of V register n of a thread's group (R84). -/
def State.regAddr (s : State) (t : Tid) (n : Nat) : Nat :=
  match s.team? t.team with
  | some tm => (s.descOf tm).winBase tm t.group + 256 * n
  | none => 0

/-- The values of an operand in one lane. -/
def State.opVals (s : State) (t : Tid) (r : Reg) (n : Nat) : List Word := (s.readRegs t r 0 n).1

/-- A class 6 command as its word issues it. -/
structure MCmd where
  code : Nat := 0
  tag : Nat := 0
  tok : Bool := false
  consumedTok : Bool := false
  vals : List Word := []
  ranges : List Rng := []
  args : List Word := []
  deriving Repr

/-- What issue makes of a class 6 word: a trap in every lane, or a command. -/
inductive MIssue where
  | trap (code addr : Nat)
  | go (c : MCmd)
  deriving Repr

/-- Enter a command in its array's queue; gives its id. -/
def State.enterArray (s : State) (c : Cur) (tm : Team) (group : Nat) (set : List Tid) (m : MCmd) : Nat × State :=
  let cmd : Cmd :=
    { id := 0, eng := .array c.core c.pipe, team := tm.key, ctx := tm.ctx, core := c.core, group := group, code := m.code,
      words := c.word.lo :: c.word.hi :: m.vals, args := m.args, pc := c.pc, word := c.word, age := 0, seq := none, tag := m.tag,
      notok := !m.tok, tokAtConsumed := m.consumedTok, recips := set }
  s.submit cmd false m.ranges []

/-- A class 6 word that issues one command for the group: held on a full queue (R166) or while what a command issue releases is due (R217), trapped in every lane, parked for lock entries, or entered. -/
def State.arrayOnce (s : State) (act : List Tid) (judge : State → Team → Tid → List Tid → MIssue)
    (after : Nat → List Tid → State → State := fun _ _ s => s) : Option State :=
  match s.cur, act with
  | some c, t :: _ =>
    if s.queueFull (.array c.core c.pipe) || (s.accessWaits MemOrder.command act && !s.retrying) then none
    else
      (match s.team? t.team with
        | none => some s
        | some tm =>
          match judge s tm t act with
          | .trap code addr => some (s.trapAll act code addr)
          | .go m =>
            if !s.lockRoom c.core (m.ranges.filter fun x => decide (x.len ≠ 0)).length then some (s.parkWord act .locks)
            else let r := s.enterArray c tm t.group act m; some (after r.1 act r.2))
  | _, _ => some s

/-- A class 6 word: its traps are taken by every active lane (R167). -/
def State.arrayWord (s : State) (h : Hdr) (ops : List Opd) (d : Option Reg) (judge : State → Team → Tid → List Tid → MIssue)
    (after : Nat → List Tid → State → State := fun _ _ s => s) : State :=
  s.word h { ops := ops, whole := true, illReg := fun s t => d.any fun r => !s.blockStart t r } fun act s => s.arrayOnce act judge after

/-- A tile of the team pool: within one region and clear of every declared queue (R83, R260). -/
def poolOk (d : KDesc) (tm : Team) (pa n : Nat) : Bool := poolIn d tm pa n && !inQueueStorage d pa n

/-- The range of a 64 KiB accumulator block. -/
def State.blockRng (s : State) (t : Tid) (d : Reg) (dst : Bool) : Rng := { pool := true, lo := s.regAddr t (regNum d), len := 65536, dst := dst }

/-! ### MLOOP (R170 to R176, R182) -/

/-- The operand addresses of steps 0 to n − 1. -/
def stepAddrs (base : Nat) (inc : Int) (n : Nat) : List Int := (List.range n).map fun (i : Nat) => (base : Int) + inc * (i : Int)

/-- The least and greatest of some addresses. -/
def spanOf (as : List Int) (n : Nat) : Rng :=
  let lo := as.foldl min (as.headD 0)
  let hi := as.foldl max (as.headD 0)
  { pool := true, lo := lo.toNat, len := (hi - lo).toNat + n }

/-- The 32-element blocks of a step (R176). -/
def scaleBlocks (f : Word) : Nat := (512 / fmtBits (fieldOf f 0 4)) / 32

/-- MLOOP's checks 1 to 5 of R171 and its command. A record's address is that of the first operand or stream, of A and then B, that breaks the rule. (log 86, DESIGN CHOICE) -/
def State.mloopIssue (s : State) (o : MloopF) (tm : Team) (t : Tid) (set : List Tid) : MIssue :=
  let d := s.descOf tm
  let g := s.opVals t o.a 8
  let n := o.stepsM1.toNat + 1
  let ctl := g.getD 4 0
  let f := (s.opVals t o.b 1).getD 0 0
  let inc := fun (i : Nat) => (g.getD i 0).toInt
  let as := stepAddrs (wAt g 0) (inc 2) n
  let bs := stepAddrs (wAt g 1) (inc 3) n
  let mx := decide (fieldOf f 22 2 = 1)
  let step := 128 * scaleBlocks f
  let ok := fun (n : Nat) (a : Int) => decide (0 ≤ a) && poolOk d tm a.toNat n
  let scales := fun (i : Nat) => (List.range n).map fun (k : Nat) => ((wAt g i + step * k : Nat) : Int)
  if fieldOf ctl 18 14 ≠ 0 then .trap fcIllegalOp 0
  else if set.any fun u => decide (s.opVals u o.b 1 ≠ [f]) then .trap fcFormatDiverge 0
  else if !formatValid f then .trap fcFormatInvalid 0
  else if wAt g 0 % 256 ≠ 0 ∨ wAt g 2 % 256 ≠ 0 then .trap fcMisalign (wAt g 0)
  else if wAt g 1 % 256 ≠ 0 ∨ wAt g 3 % 256 ≠ 0 then .trap fcMisalign (wAt g 1)
  else if mx && decide (wAt g 5 % 64 ≠ 0) then .trap fcMisalign (wAt g 5)
  else if mx && decide (wAt g 6 % 64 ≠ 0) then .trap fcMisalign (wAt g 6)
  else if !as.all (ok 8192) then .trap fcPoolRange (wAt g 0)
  else if !bs.all (ok 8192) then .trap fcPoolRange (wAt g 1)
  else if mx && !(scales 5).all (ok step) then .trap fcPoolRange (wAt g 5)
  else if mx && !(scales 6).all (ok step) then .trap fcPoolRange (wAt g 6)
  else
    .go { code := 0xE3, tag := fieldOf ctl 0 16, tok := ctl.getLsbD 17, consumedTok := ctl.getLsbD 16, vals := g, args := [f],
          ranges := [spanOf as 8192, spanOf bs 8192] ++
            (if mx then [{ pool := true, lo := wAt g 5, len := step * n }, { pool := true, lo := wAt g 6, len := step * n }] else []) ++
            [s.blockRng t o.d true] }

/-- The format word asks for the block's bytes (ACC of R106), in the lowest lane whose guard holds. -/
def State.asksAcc (s : State) (h : Hdr) (o : MloopF) : Bool :=
  match s.cur.bind fun c => c.lanes.find? fun t => s.threadIs t fun th => th.guard h.pg with
  | some t => (s.regVal t o.b 0).getLsbD 31
  | none => false

/-- MLOOP. -/
def execMloop (h : Hdr) (o : MloopF) (s : State) : Answer :=
  .next (s.arrayWord h [Opd.block o.d 256 1 (s.asksAcc h o), Opd.sgroup o.a 8, Opd.vsk o.b] (some o.d) fun s tm t set => s.mloopIssue o tm t set)

/-- The 64 bytes of row or column r of a step's operand, in its layout (R173, R174). -/
def operandRow (tile : Bool) (bs : List Byte) (r : Nat) : List Byte :=
  if tile then (bs.drop (64 * r)).take 64
  else (List.range 16).flatMap fun kw => (bs.drop (256 * (16 * (r / 64) + kw) + 4 * (r % 64))).take 4

/-- The element values of one row or column (R98). -/
def rowVals (x : MSide) (bs : List Byte) : List FVal :=
  let w := fmtBits x.fmt
  let v := leNat bs
  (List.range (512 / w)).map fun k => x.nf.val (elem w v k)

/-- The values of a step's operand, by row or column. -/
def operandVals (x : MSide) (bs : List Byte) : List (List FVal) := (List.range 128).map fun r => rowVals x (operandRow x.tile bs r)

/-- Which of the four sub-blocks of 32 rows or columns hold zero codes only (R182). -/
def zeroBlocks (rows : List (List FVal)) : List Bool :=
  (List.range 4).map fun i => ((rows.drop (32 * i)).take 32).all fun r => r.all FVal.isZero

/-- The value of an E8M0 scale (R101). -/
def e8m0 (b : Byte) : FVal := if b = 0xFF then .nan else .fin false 1 ((b.toNat : Int) - 127)

/-- The scales of row or column r of a step: one for each 32 elements (R176). -/
def rowScales (nb : Nat) (bs : List Byte) (r : Nat) : List FVal := ((bs.drop (nb * r)).take nb).map e8m0

/-- One row's scaled products with a column; `sig` scales element k. -/
def products (sig : Nat → List FVal) : Nat → List FVal → List FVal → List FVal
  | k, a :: as, b :: bs => (sig k).foldl fMulV (fMulV a b) :: products sig (k + 1) as bs
  | _, _, _ => []

/-- One matrix step (R108, R172): every element rounded once. -/
def matrixStep (rows cols : List (List FVal)) (sig : Nat → Nat → Nat → List FVal) (acc : List (List Nat)) : List (List Nat) :=
  let za := zeroBlocks rows
  let zb := zeroBlocks cols
  (acc.zip rows).zipIdx.map fun x =>
    (x.1.1.zip cols).zipIdx.map fun y =>
      let skip := za.getD (x.2 / 32) false || zb.getD (y.2 / 32) false
      Fmt.fp32.round .rne false false (stepSum (Fmt.fp32.val y.1.1 :: products (sig x.2 y.2) 0 x.1.2 y.1.2) skip)

/-- A block's bytes as rows of FP32 codes (R175). -/
def blockRows (bs : List Byte) : List (List Nat) := (cut 512 128 bs).map fun r => (wordsOf r).map fun w => w.toNat
/-- Rows of FP32 codes as bytes. -/
def rowsBytes (rows : List (List Nat)) : List Byte := rows.flatMap fun r => r.flatMap fun c => leBytes 4 c

/-- Run MLOOP's steps; the first source that cannot be read stops it. Each skipped sub-block is one event. -/
def State.mloopSteps (s : State) (c : Cmd) (f : Word) (ev : State → State) :
    List (Nat × Int × Int) → List (List Nat) → Except (Nat × Nat) (List (List Nat)) × State
  | [], acc => (.ok acc, s)
  | (k, a, b) :: ks, acc =>
    let nb := scaleBlocks f
    let mx := decide (fieldOf f 22 2 = 1)
    let g := c.words.drop 2
    match s.cmdReads c ([(true, a.toNat, 8192), (true, b.toNat, 8192)] ++
        (if mx then [(true, wAt g 5 + 128 * nb * k, 128 * nb), (true, wAt g 6 + 128 * nb * k, 128 * nb)] else [])) with
    | (.error e, s) => (.error e, s)
    | (.ok bss, s) =>
      let rows := operandVals (sideA f) (bss.getD 0 [])
      let cols := operandVals (sideB f) (bss.getD 1 [])
      let sa := (List.range 128).map fun r => rowScales nb (bss.getD 2 []) r
      let sb := (List.range 128).map fun r => rowScales nb (bss.getD 3 []) r
      let sig := fun (r col k : Nat) =>
        if mx then [((sa.getD r []).getD (k / 32) .nan), ((sb.getD col []).getD (k / 32) .nan)]
        else if fieldOf f 22 2 = 2 then [Fmt.fp32.val (wAt g 7)] else []
      let skipped := ((zeroBlocks rows ++ zeroBlocks cols).filter fun z => z).length
      let s := (List.range skipped).foldl (fun s _ => ev s) s
      s.mloopSteps c f ev ks (matrixStep rows cols sig acc)

/-- What MLOOP computes. (log 66, DEDUCED) -/
def State.mloopRun (s : State) (c : Cmd) (o : MloopF) : Ran × State :=
  let g := c.words.drop 2
  let f := c.args.getD 0 0
  let t : Tid := { team := c.team, group := c.group, lane := 0 }
  let block := s.regAddr t (regNum o.d)
  let n := o.stepsM1.toNat + 1
  let steps := (List.range n).map fun (k : Nat) => (k, (wAt g 0 : Int) + (g.getD 2 0).toInt * (k : Int), (wAt g 1 : Int) + (g.getD 3 0).toInt * (k : Int))
  let ev := fun (s : State) => match c.eng with | .array core pipe => s.event (dieOf core) 0x10 (pipeInstance core pipe) 1 | _ => s
  let start := if f.getLsbD 31 then s.cmdRead c true block 65536 else (.ok (List.replicate 65536 0), s)
  match start with
  | (.error e, s) => (Ran.failed e, s)
  | (.ok bs, s) =>
    match s.mloopSteps c f ev steps (blockRows bs) with
    | (.error e, s) => (Ran.failed e, s)
    | (.ok acc, s) => ({ out := [{ pool := true, addr := block, bytes := rowsBytes acc }] }, s)

/-! ### MZERO, MDRAIN and MSTORE (R183, R184, R189) -/

/-- MZERO. -/
def execMzero (h : Hdr) (o : MzeroF) (s : State) : Answer :=
  .next (s.arrayWord h [Opd.block o.d 256 1] (some o.d) fun s _ t _ => .go { code := 0xE4, tag := o.tag.toNat, tok := o.tok, ranges := [s.blockRng t o.d true] })

/-- Element bytes of a drain word's format. -/
def drainBytes (w : Word) : Nat := fmtBits (fieldOf w 0 4) / 8
/-- A drain word's row stride in bytes. -/
def drainStride (w : Word) : Nat := if fieldOf w 16 16 = 0 then 128 * drainBytes w else 16 * fieldOf w 16 16
/-- The rounding mode of its code (R102); the five legal ones. -/
def rmOf (n : Nat) : Rm := match n with | 0 => .rne | 1 => .rtz | 2 => .rup | 3 => .rdn | _ => .rna

/-- Checks 1 to 3 of R183. -/
def drainTrap (w : Word) : Option Nat :=
  let c := fieldOf w 0 4
  if fieldOf w 14 2 ≠ 0 ∨ 4 < fieldOf w 10 3 then some fcIllegalOp
  else if !(decide (c = 0 ∨ c = 1 ∨ c = 2 ∨ c = 3 ∨ c = 5 ∨ c = 6) && formatFields c (fieldOf w 4 3) (fieldOf w 7 2) (w.getLsbD 9)) then
    some fcFormatInvalid
  else if fieldOf w 16 16 ≠ 0 ∧ drainStride w < 128 * drainBytes w then some fcIllegalOp
  else none

/-- Bytes from the first to the last of a tile of 128 rows. (log 48, DEDUCED) -/
def tileSpan (stride row : Nat) : Nat := 127 * stride + row

/-- MDRAIN's and MSTORE's checks and command; `a` has the destination's register values. -/
def State.drainIssue (s : State) (o : MdrainF) (pool : Bool) (tm : Team) (t : Tid) : MIssue :=
  let a := s.opVals t o.a (if pool then 1 else 2)
  let w := (s.opVals t o.b 1).getD 0 0
  let base := if pool then wAt a 0 else wordPair a 0
  let n := tileSpan (drainStride w) (128 * drainBytes w)
  match drainTrap w with
  | some c => .trap c 0
  | none =>
    if base % 16 ≠ 0 then .trap fcMisalign base
    else if pool && !poolOk (s.descOf tm) tm base n then .trap fcPoolRange base
    else
      .go { code := if pool then 0xE5 else 0xE6, tag := o.tag.toNat, tok := o.tok, vals := a ++ [w],
            ranges := [s.blockRng t o.d o.zero, { pool := pool, lo := base, len := n, dst := true, stride := drainStride w, row := 128 * drainBytes w }] }

/-- MDRAIN. -/
def execMdrain (h : Hdr) (o : MdrainF) (s : State) : Answer :=
  .next (s.arrayWord h [Opd.block o.d 256 1 true, Opd.sk o.a, Opd.sk o.b] (some o.d) fun s tm t _ => s.drainIssue o true tm t)
/-- MSTORE. -/
def execMstore (h : Hdr) (o : MdrainF) (s : State) : Answer :=
  .next (s.arrayWord h [Opd.block o.d 256 1 true, Opd.sk o.a 2, Opd.sk o.b] (some o.d) fun s tm t _ => s.drainIssue o false tm t)

/-- A row of FP32 codes in a drain word's format. An FP32 destination keeps the exact value, a NaN is canonical (R97), and SAT holds for it too (R104, R184; log 43, DEDUCED). -/
def drainRow (w : Word) (row : List Nat) : List Byte :=
  let f := nfmt (fieldOf w 0 4) (fieldOf w 4 3) (fieldOf w 7 2) (w.getLsbD 9)
  row.flatMap fun c => leBytes (drainBytes w) (f.convert (rmOf (fieldOf w 10 3)) (w.getLsbD 13) (Fmt.fp32.val c))

/-- What MDRAIN and MSTORE will write: rows in ascending order, then the zeroes. -/
def State.drainRun (s : State) (c : Cmd) (o : MdrainF) (pool : Bool) : Ran × State :=
  let g := c.words.drop 2
  let base := if pool then wAt g 0 else wordPair g 0
  let w := g.getD (if pool then 1 else 2) 0
  let block := s.regAddr { team := c.team, group := c.group, lane := 0 } (regNum o.d)
  match s.cmdRead c true block 65536 with
  | (.error e, s) => (Ran.failed e, s)
  | (.ok bs, s) =>
    let rows := (blockRows bs).zipIdx.map fun x =>
      ({ pool := pool, addr := base + x.2 * drainStride w, bytes := drainRow w x.1 } : CmdWrite)
    ({ out := rows ++ if o.zero then [{ pool := true, addr := block, bytes := List.replicate 65536 0 }] else [] }, s)

/-! ### MSTADD (R185 to R187) -/

/-- MSTADD's checks, POOL_RANGE before DET_VIOLATION (log 85, DESIGN CHOICE), and its command: the stride, the set and the index follow the pair among its command words. -/
def State.mstaddIssue (s : State) (o : MstaddF) (tm : Team) (t : Tid) : MIssue :=
  let d := s.descOf tm
  let a := s.opVals t o.a 2
  let b := s.opVals t o.b 4
  let base := if o.pool then wAt a 0 else wordPair a 0
  let stride := wAt b 0
  let single := decide (b.getD 1 0 = 0xFFFFFFFF)
  let n := tileSpan stride 512
  if base % 4 ≠ 0 then .trap fcMisalign base
  else if stride < 512 ∨ stride % 4 ≠ 0 then .trap fcIllegalOp 0
  else if o.pool && !single then .trap fcIllegalOp 0
  else if o.pool && !poolOk d tm base n then .trap fcPoolRange base
  else if (d.det && single) || (s.isTwin tm && !o.pool) then .trap fcDetViolation base
  else
    .go { code := 0xE7, tag := o.tag.toNat, tok := o.tok, vals := a ++ b,
          ranges := [s.blockRng t o.d false, { pool := o.pool, lo := base, len := n, dst := true, stride := stride, row := 512 }] }

/-- MSTADD. -/
def execMstadd (h : Hdr) (o : MstaddF) (s : State) : Answer :=
  .next (s.arrayWord h [Opd.block o.d 256 1 true, Opd.sk o.a 2, Opd.sgroup o.b 4] (some o.d) fun s tm t _ => s.mstaddIssue o tm t)

/-- The sums of two rows of FP32 words. -/
def addRows : List Word → List Word → List Byte
  | x :: xs, y :: ys => leBytes 4 (Fmt.fp32.add x.toNat y.toNat) ++ addRows xs ys
  | _, _ => []

/-- The rows of a tile: address of each. -/
def tileRows (base stride : Nat) : List Nat := (List.range 128).map fun r => base + r * stride

/-- Check every page of a global tile for R and W and every sector for marks, writing nothing (R186). -/
def State.probeTile (s : State) (ctx : Nat) : List Nat → Except (Nat × Nat) Unit × State
  | [] => (.ok (), s)
  | a :: as =>
    match s.probeVa ctx a 512 .atomic with
    | (.error e, s) => (.error e, s)
    | (.ok _, s) =>
      let bad := (parts a 512).findSome? fun p =>
        match s.peek ctx p.1 with
        | none => none
        | some x => if leafRm x.leaf then some (fcPageAttr, p.1) else if s.marked x.pa p.2 then some (fcMemUe, p.1 + s.markAt x.pa p.2) else none
      match bad with
      | some e => (.error e, match s.peek ctx e.2 with
          | some x => if e.1 = fcMemUe then s.mailUe ctx x.pa e.2 0 else s
          | none => s)
      | none => s.probeTile ctx as

/-- The writes of an indivisible tile update, computed from what the destination holds (R186). -/
def State.tileSums (s : State) (c : Cmd) (pool : Bool) : List Nat → List (List Word) → Except (Nat × Nat) (List CmdWrite) × State
  | a :: as, r :: rs =>
    match s.cmdRead c pool a 512 with
    | (.error e, s) => (.error e, s)
    | (.ok bs, s) =>
      match s.tileSums c pool as rs with
      | (.error e, s) => (.error e, s)
      | (.ok ws, s) => (.ok ({ pool := pool, addr := a, bytes := addRows (wordsOf bs) r } :: ws), s)
  | _, _ => (.ok [], s)

/-- Rows of 128 words. -/
def rowsOf (n : Nat) : Nat → List Word → List (List Word)
  | 0, _ => []
  | k + 1, ws => ws.take n :: rowsOf n k (ws.drop n)

/-- A whole tile update: the writes, or the fault that leaves every element as it was. -/
def State.tileUpdate (s : State) (c : Cmd) (pool : Bool) (base stride : Nat) (vals : List Word) : Except (Nat × Nat) (List CmdWrite) × State :=
  let rows := tileRows base stride
  let r := if pool then (.ok (), s) else s.probeTile c.ctx rows
  match r with
  | (.error e, s) => (.error e, s)
  | (.ok _, s) => s.tileSums c pool rows (rowsOf 128 128 vals)

/-- What an MSTADD takes with it past its consumed point: the block's words. (log 47, DEDUCED) -/
def State.mstaddRun (s : State) (c : Cmd) (o : MstaddF) : Ran × State :=
  let block := s.regAddr { team := c.team, group := c.group, lane := 0 } (regNum o.d)
  match s.cmdRead c true block 65536 with
  | (.error e, s) => (Ran.failed e, s)
  | (.ok bs, s) => ({}, s.updCmd c.id fun c => { c with args := wordsOf bs })

/-- Hand a sequenced MSTADD's tile to its set (R187, R254). -/
def State.handOver (s : State) (c : Cmd) : State :=
  if c.handedOver then
    let g := c.words.drop 2
    { s with contribs := s.contribs ++
        [{ id := c.id, ctx := c.ctx, set := g.getD 3 0, idx := g.getD 4 0, va := BitVec.ofNat 64 (wordPair g 0), aop := .add, ty := .f32,
           value := 0, tile := some (wAt g 2, c.args), cmd := some c.id, recips := c.recips, pc := c.pc, word := c.word, age := c.age,
           launch := match s.team? c.team with | some tm => tm.launch | none => 0 }] }
  else s

/-- The tile update of an MSTADD outside any set, made at its done point. -/
def State.mstaddDone (s : State) (c : Cmd) (pool : Bool) : State :=
  if c.fault.isSome then s
  else
    let g := c.words.drop 2
    let base := if pool then wAt g 0 else wordPair g 0
    match s.tileUpdate c pool base (wAt g 2) c.args with
    | (.error e, s) => s.updCmd c.id fun c => { c with fault := some (c.faultInfo (runFault e)) }
    | (.ok ws, s) => s.updCmd c.id fun c => { c with out := ws }

/-! ### MLDF (R188) -/

/-- MLDF's checks and command. -/
def State.mldfIssue (s : State) (o : MldfF) (tm : Team) (t : Tid) : MIssue :=
  let a := s.opVals t o.a 1
  let n := o.nM1.toNat + 1
  if wAt a 0 % 256 ≠ 0 then .trap fcMisalign (wAt a 0)
  else if !poolOk (s.descOf tm) tm (wAt a 0) (8192 * n) then .trap fcPoolRange (wAt a 0)
  else
    .go { code := 0xE8, tag := o.tag.toNat, tok := o.tok, vals := a,
          ranges := [{ pool := true, lo := wAt a 0, len := 8192 * n }, { pool := true, lo := s.regAddr t (regNum o.d), len := 8192 * n, dst := true }] }

/-- MLDF. -/
def execMldf (h : Hdr) (o : MldfF) (s : State) : Answer :=
  .next (s.arrayWord h [Opd.block o.d (32 * (o.nM1.toNat + 1)) 32, Opd.sk o.a] none fun s tm t _ => s.mldfIssue o tm t)

/-- One 8 KiB step from tile layout to fragment layout (R173, R174). -/
def tileToFragment (bs : List Byte) : List Byte :=
  let rows := (cut 64 128 bs).map (cut 4 16)
  (List.range 32).flatMap fun j => (List.range 64).flatMap fun l => (rows.getD (l + 64 * (j / 16)) []).getD (j % 16) []

/-- What MLDF will write. -/
def State.mldfRun (s : State) (c : Cmd) (o : MldfF) : Ran × State :=
  let n := o.nM1.toNat + 1
  match s.cmdRead c true (wAt c.words 2) (8192 * n) with
  | (.error e, s) => (Ran.failed e, s)
  | (.ok bs, s) =>
    ({ out := [{ pool := true, addr := s.regAddr { team := c.team, group := c.group, lane := 0 } (regNum o.d),
                 bytes := (cut 8192 n bs).flatMap tileToFragment }] }, s)

/-! ### MSCAN and MCARRY (R192 to R196) -/

/-- MSCAN's checks and command. -/
def State.mscanIssue (s : State) (o : MscanF) (tm : Team) (t : Tid) : MIssue :=
  let d := s.descOf tm
  let g := s.opVals t o.a 4
  let ctl := g.getD 2 0
  let n := fieldOf ctl 0 7 + 1
  let inPlace := decide (g.getD 1 0 = 0xFFFFFFFF)
  if fieldOf ctl 8 8 < 126 ∨ 149 < fieldOf ctl 8 8 ∨ fieldOf ctl 7 1 ≠ 0 ∨ fieldOf ctl 25 7 ≠ 0 then .trap fcIllegalOp 0
  else if wAt g 0 % 256 ≠ 0 then .trap fcMisalign (wAt g 0)
  else if !inPlace && decide (wAt g 1 % 256 ≠ 0) then .trap fcMisalign (wAt g 1)
  else if !poolOk d tm (wAt g 0) (512 * n) then .trap fcPoolRange (wAt g 0)
  else if !inPlace && !poolOk d tm (wAt g 1) (512 * n) then .trap fcPoolRange (wAt g 1)
  else
    .go { code := 0xE9, tag := fieldOf ctl 16 8, tok := ctl.getLsbD 24, vals := g,
          ranges := [{ pool := true, lo := wAt g 0, len := 512 * n }, s.blockRng t o.d true,
                     { pool := true, lo := s.regAddr t (regNum o.b), len := 1024, dst := true }] ++
            if inPlace then [] else [{ pool := true, lo := wAt g 1, len := 512 * n, dst := true }] }

/-- MSCAN. -/
def execMscan (h : Hdr) (o : MscanF) (s : State) : Answer :=
  .next (s.arrayWord h [Opd.block o.d 256 1 true, Opd.sgroup o.a 4, Opd.block o.b 4 4 true] (some o.d) fun s tm t _ => s.mscanIssue o tm t)

/-- compose of R193 with the underflow rule of R194: the pair, and whether the rule acted. -/
def compose (tt : Nat) (x2 x1 : Nat × Nat) : (Nat × Nat) × Bool :=
  let g2 := Fmt.fp32.val x2.1
  let p := fMulV g2 (Fmt.fp32.val x1.1)
  let g := Fmt.fp32.round .rne false false p.exact
  let o := Fmt.fp32.round .rne false false (fFma .rne g2 (Fmt.fp32.val x1.2) (Fmt.fp32.val x2.2))
  let small := (match p with | .fin _ m _ => decide (m ≠ 0) | _ => false) &&
    decide (fOrd (Fmt.fp32.val g).abs (.fin false 1 (-(tt : Int))) = some .lt)
  ((if small then Fmt.fp32.code p.sign 0 else g, o), small)

/-- One level of the scan: row t from d on takes compose of itself and the row d before it. -/
def affineLevel (tt d : Nat) (xs : List (Nat × Nat)) : List (Nat × Nat) × Bool :=
  let ys := (xs.drop d).zip xs |>.map fun x => compose tt x.1 x.2
  (xs.take d ++ ys.map fun y => y.1, ys.any fun y => y.2)

/-- The scan of one channel: its outputs, its new carry, and UNDERG. -/
def scanChannel (tt : Nat) (xs : List (Nat × Nat)) (carry : Nat × Nat) : List (Nat × Nat) × Bool :=
  let r := [1, 2, 4, 8, 16, 32, 64].foldl (fun (acc : List (Nat × Nat) × Bool) d =>
    let q := affineLevel tt d acc.1
    (q.1, acc.2 || q.2)) (xs, false)
  let ys := r.1.map fun x => compose tt x carry
  (ys.map fun y => y.1, r.2 || ys.any fun y => y.2)

/-- The FP32 code at row t, channel c of rows of words. -/
def codeAt (rows : List (List Word)) (t c : Nat) : Nat := ((rows.getD t []).getD c 0).toNat

/-- What MSCAN will write. -/
def State.mscanRun (s : State) (c : Cmd) (o : MscanF) : Ran × State :=
  let g := c.words.drop 2
  let ctl := g.getD 2 0
  let n := fieldOf ctl 0 7 + 1
  let t : Tid := { team := c.team, group := c.group, lane := 0 }
  let block := s.regAddr t (regNum o.d)
  let carry := s.regAddr t (regNum o.b)
  match s.cmdReads c [(true, wAt g 0, 512 * n), (true, block, 512 * n), (true, carry, 1024)] with
  | (.error e, s) => (Ran.failed e, s)
  | (.ok bss, s) =>
    let gains := rowsOf 128 n (wordsOf (bss.getD 0 []))
    let offs := rowsOf 128 n (wordsOf (bss.getD 1 []))
    let cw := wordsOf (bss.getD 2 [])
    let chans := (List.range 128).map fun ch =>
      scanChannel (fieldOf ctl 8 8) ((List.range n).map fun t => (codeAt gains t ch, codeAt offs t ch)) (wAt cw ch, wAt cw (128 + ch))
    let out := (List.range n).flatMap fun t => chans.flatMap fun x => leBytes 4 ((x.1.getD t (0, 0)).2)
    let last := chans.map fun x => x.1.getD (n - 1) (0, 0)
    let cs := match s.group? t with | some g => g.cs.getD o.cs.toNat 0 | none => 0
    ({ out := [{ pool := true, addr := if g.getD 1 0 = 0xFFFFFFFF then block else wAt g 1, bytes := out },
               { pool := true, addr := carry, bytes := (last.flatMap fun x => leBytes 4 x.1) ++ last.flatMap fun x => leBytes 4 x.2 }],
       csOut := if chans.any (fun x => x.2) then some (o.cs.toNat, cs ||| 1) else none }, s)

/-- The identity carry: gains 1.0 and offsets +0. -/
def carryIdentity : List Byte := ((List.replicate 128 (leBytes 4 0x3F800000)).flatten) ++ List.replicate 512 0

/-- MCARRY: its long results wait for its turn in the array queue. -/
def execMcarry (h : Hdr) (o : McarryF) (s : State) : Answer :=
  .next (s.arrayWord h [Opd.dvs o.d, Opd.block o.b 4 4] none
    (fun s _ t _ => .go { ranges := if o.reset then [{ pool := true, lo := s.regAddr t (regNum o.b), len := 1024, dst := true }] else [] })
    fun id set s =>
      let r := s.joinAll (some o.d) 1 false set
      r.2.updCmd id fun c => { c with longs := r.1.map fun x => x.2 })

/-- MCARRY at its turn: the status word goes to the waiting results; CLEAR and RESET follow at done. -/
def State.mcarryRun (s : State) (c : Cmd) (o : McarryF) : Ran × State :=
  let t : Tid := { team := c.team, group := c.group, lane := 0 }
  let cs := match s.group? t with | some g => g.cs.getD o.cs.toNat 0 | none => 0
  let s := (c.recips.zip c.longs).foldl (fun s x => s.giveLong x.1 x.2 o.d [cs]) s
  ({ out := if o.reset then [{ pool := true, addr := s.regAddr t (regNum o.b), bytes := carryIdentity }] else [],
     csOut := if o.clear then some (o.cs.toNat, 0) else none }, s)

/-! ### MWAIT (R181) -/

/-- What an MWAIT waits for: a point of the block's last command, or done of every command. -/
inductive MKind where
  | consumed | done | all
  deriving DecidableEq, Repr

/-- The accumulator or offset block that a class 6 word names. -/
def namedBlock (w : DWord) : Option Reg :=
  match decode w with
  | .mloop _ o => some o.d
  | .mzero _ o => some o.d
  | .mdrain _ o => some o.d
  | .mstore _ o => some o.d
  | .mstadd _ o => some o.d
  | .mscan _ o => some o.d
  | _ => none

/-- The class 6 commands of a thread's group. -/
def State.groupCmds (s : State) (t : Tid) : List Cmd := s.cmds.filter fun c => c.eng.isArray && decide (c.team = t.team ∧ c.group = t.group)

/-- The last command an MWAIT waits for, with commands numbered from 1; 0 for none. -/
def State.mwaitTarget (s : State) (t : Tid) (d : Option Reg) : Nat :=
  ((s.groupCmds t).filter fun c => match d with | none => true | some r => decide (namedBlock c.word = some r)).foldl (fun m c => max m (c.id + 1)) 0

/-- The wait is over. -/
def State.mwaitOver (s : State) (t : Tid) (kind : MKind) (n : Nat) : Bool :=
  (s.groupCmds t).all fun c =>
    match kind with
    | .consumed => decide (c.id + 1 ≠ n) || decide (c.stage = .consumed ∨ c.stage = .done)
    | .done => decide (c.id + 1 ≠ n) || decide (c.stage = .done)
    | .all => decide (n < c.id + 1) || decide (c.stage = .done)

/-- MWAIT in each lane: pending faults first, then the wait; waking acquires at die scope. A full array queue does not hold it at issue. (log 82, DESIGN CHOICE) -/
def State.mwait (s : State) (h : Hdr) (ops : List Opd) (illReg : State → Tid → Bool) (kind : MKind) (d : Option Reg) : State :=
  s.word h { ops := ops, whole := true, illReg := illReg } (joint := false) fun act s =>
    match s.cur with
    | none => some s
    | some c =>
      let r := s.deliverPoint c.pc act
      some (r.1.foldl (fun s t =>
        let n := if c.retry then wordPair (c.had t) 0 else s.mwaitTarget t d
        if !s.mwaitOver t kind n then s.parkLane t .array (natPair n)
        else if c.retry then s.invalL1 c.core else s) r.2)

/-- MWAIT.consumed. -/
def execMwaitConsumed (h : Hdr) (d : Reg) (s : State) : Answer :=
  .next (s.mwait h [Opd.block d 256 1] (fun s t => !s.blockStart t d) .consumed (some d))
/-- MWAIT.done. -/
def execMwaitDone (h : Hdr) (d : Reg) (s : State) : Answer :=
  .next (s.mwait h [Opd.block d 256 1] (fun s t => !s.blockStart t d) .done (some d))
/-- MWAIT.all. -/
def execMwaitAll (h : Hdr) (s : State) : Answer := .next (s.mwait h [] (fun _ _ => false) .all none)

/-! ### Consumed and done points -/

/-- What an array's command computes. -/
def State.arrayRun (s : State) (c : Cmd) : Ran × State :=
  match decode c.word with
  | .mloop _ o => s.mloopRun c o
  | .mzero _ o => ({ out := [{ pool := true, addr := s.regAddr { team := c.team, group := c.group, lane := 0 } (regNum o.d), bytes := List.replicate 65536 0 }] }, s)
  | .mdrain _ o => s.drainRun c o true
  | .mstore _ o => s.drainRun c o false
  | .mstadd _ o => s.mstaddRun c o
  | .mldf _ o => s.mldfRun c o
  | .mscan _ o => s.mscanRun c o
  | .mcarry _ o => s.mcarryRun c o
  | _ => ({}, s)

/-- The command with an id consumes, and a sequenced tile goes to its set. -/
def State.consumeId (s : State) (id : Nat) : State :=
  match s.cmd? id with
  | none => s
  | some c =>
    let s := s.consume c
    match s.cmd? id with
    | none => s
    | some c => s.handOver c

/-- CONSUMED_POINT: a command has read its last source byte. An array's command runs here once it may start; a ring rotation happens here. A command past its consumed point posts the token that it still owes (R180). -/
def execConsumedPoint (cmd : Nat) (s : State) : Answer :=
  .next (match s.cmd? cmd with
    | none => s
    | some c =>
      if c.stage = .consumed then s.settleTokens cmd
      else match c.eng with
      | .array _ _ => if s.startable c then (s.runNow c fun s c => s.arrayRun c).consumeId cmd else s
      | .rrot _ => if c.stage = .queued then s.rrotExchange cmd else s
      | _ => if c.stage = .running then s.consumeId cmd else s)

/-- DONE_POINT: a command's last effect is applied, or a token it still owes is posted. -/
def execDonePoint (cmd : Nat) (s : State) : Answer :=
  .next (match s.cmd? cmd with
    | none => s
    | some c =>
      if c.stage = .done then s.settleTokens cmd
      else if s.finishable c then
        let s := match c.eng, decode c.word with
          | .array _ _, .mstadd _ o => s.mstaddDone c o.pool
          | _, _ => s
        match s.cmd? cmd with
        | none => s
        | some c => s.finish c
      else s)

end Sys2Proof.Machine
end

