-- ==== Sys2Proof/Machine/Rings.lean ====
section
/-! DEFINITION. Rings (R292 to R302): handles, descriptors and packets, RDEF, RPUSH, RPOP, RSTEAL and RENQ, and the arrival and delivery of RENQ packets. -/

namespace Sys2Proof.Machine

/-! ### Handles and entries (R293, R295) -/

/-- An entry's generation counter; it starts at 1 (log 13, DESIGN CHOICE). -/
def State.ringGen (s : State) (die index : Nat) : Nat := assoc 1 s.ringGens (8192 * die + index)

/-- The handle of an entry as it stands. -/
def State.ringHandle (s : State) (die index : Nat) : Word := BitVec.ofNat 32 (die * 2 ^ 29 + index * 2 ^ 16 + s.ringGen die index)

def handleDie (h : Word) : Nat := fieldOf h 29 3
def handleIndex (h : Word) : Nat := fieldOf h 16 13
def handleGen (h : Word) : Nat := fieldOf h 0 16

/-- The ring a handle names for a context; none when it is stale. (log 101, DEDUCED) -/
def State.ring? (s : State) (ctx : Nat) (h : Word) : Option Ring :=
  if s.ringGen (handleDie h) (handleIndex h) = handleGen h then
    s.rings.find? fun r => decide (r.die = handleDie h ∧ r.index = handleIndex h ∧ r.ctx = ctx)
  else none

/-- Change a ring's entry. -/
def State.updRing (s : State) (r : Ring) (f : Ring → Ring) : State :=
  { s with rings := updWhere (fun x => decide (x.die = r.die ∧ x.index = r.index)) f s.rings }

/-- Packets in a ring (R295). -/
def Ring.count (r : Ring) : Nat := (r.tail - r.head).toNat
/-- The ring is full. -/
def Ring.full (r : Ring) : Bool := decide (r.count = 2 ^ r.ldepth)
/-- The ring is empty. -/
def Ring.empty (r : Ring) : Bool := decide (r.tail = r.head)
/-- Bytes of a slot. -/
def Ring.slotBytes (r : Ring) : Nat := 2 ^ r.lslot
/-- The virtual address of index i's slot. -/
def Ring.slotVa (r : Ring) (i : Word) : Nat := r.base.toNat + r.slotBytes * (i.toNat % 2 ^ r.ldepth)
/-- The phase of index i. -/
def phaseOf (ldepth : Nat) (i : Word) : Bool := i.getLsbD ldepth

/-- The team owns the ring. -/
def State.owns (s : State) (t : Team) (r : Ring) : Bool :=
  decide (r.ownerTeam = BitVec.ofNat 32 t.index ∧ r.ownerLaunch = (s.launchOf t).seq)

/-! ### Packets (R296) -/

def pktBytes (h : Word) : Nat := 16 * (fieldOf h 0 4 + 1)
def pktType (h : Word) : Nat := fieldOf h 4 4
def pktSucc (h : Word) : Nat := fieldOf h 8 3

/-- Successor entry k of a packet: ring handle and the word above it. -/
def succEntry (ws : List Word) (k : Nat) : Word × Word :=
  let h := ws.getD 0 0
  let i := (pktBytes h - 8 * (pktSucc h - k)) / 4
  (ws.getD i 0, ws.getD (i + 1) 0)

/-- The successors of a packet: handle and tag. -/
def successors (ws : List Word) : List (Word × Nat) :=
  (List.range (pktSucc (ws.getD 0 0))).map fun k => let e := succEntry ws k; (e.1, fieldOf e.2 0 16)

/-- The header and the successor entries are well formed for a slot; only they are checked on device rings. -/
def pktOk (slot : Nat) (ws : List Word) : Bool :=
  let h := ws.getD 0 0
  decide (pktBytes h ≤ slot ∧ 8 + 8 * pktSucc h ≤ pktBytes h ∧ pktType h ≤ 3 ∧ fieldOf h 12 4 = 0) &&
  (List.range (pktSucc h)).all fun k => decide (fieldOf (succEntry ws k).2 16 16 = 0)

/-- A packet's bytes as they are stored at an index, with the index's phase. -/
def pktStored (r : Ring) (ws : List Word) : List Byte :=
  let h := ws.getD 0 0
  let h' := if phaseOf r.ldepth r.tail then h ||| 0x800 else h &&& ~~~(0x800 : Word)
  bytesOf ((h' :: ws.drop 1).take (pktBytes h / 4))

/-! ### RDEF (R298) -/

/-- A descriptor's 64 bytes obey R294. -/
def ringDescOk (bs : List Byte) : Bool :=
  decide (u64At bs 0 % 256 = 0 ∧ 1 ≤ u8At bs 8 ∧ u8At bs 8 ≤ 16 ∧ 5 ≤ u8At bs 9 ∧ u8At bs 9 ≤ 8) && zeroAt bs 10 6 && zeroAt bs 0x24 28

/-- The first index from a start that no ring of a die uses. -/
def freeIndex (used : List Nat) (start : Nat) : Nat → Option Nat
  | 0 => none
  | n + 1 => if used.contains (start % 8192) then freeIndex used (start + 1) n else some (start % 8192)

/-- A write that a thread's ring operation makes: held when its team is a twin copy (R350). -/
def State.ringWrite (s : State) (w : Who) (va : Nat) (bs : List Byte) : Except (Nat × Nat) Unit × State :=
  let twin := match s.team? w.team with | some tm => s.isTwin tm | none => false
  if twin then
    match s.probeVa w.ctx va bs.length .store with
    | (.error e, s) => (.error e, s)
    | (.ok _, s) => (.ok (), (s.commitWrite w.team 0 w.thread va bs).checkCommit w.team)
  else s.writeVa w.ctx va bs

/-- Another defined ring has its descriptor at this physical address. -/
def State.descUsed (s : State) (pa : Nat) : Bool :=
  s.rings.any fun r => match s.peek r.ctx r.desc.toNat with | some x => decide (x.pa = pa) | none => false

/-- RDEF define for one descriptor: the handle, or a trap. Which free entry is taken is a free value. (log 49, DEDUCED) -/
def State.defineRing (s : State) (t : Tid) (tm : Team) (va : Nat) : Except (Nat × Nat) Word × State :=
  let w := s.who t
  if va % 64 ≠ 0 then (.error (fcRingCfg, va), s)
  else
    match s.translate w.core w.ctx va .atomic with
    | (.error e, s) => (.error (e, va), s)
    | (.ok x, s) =>
      if leafOrd x.leaf ≠ 0 ∨ 8 ≤ homeDie x.leaf x.pa ∨ leafHome x.leaf = 8 ∨ s.descUsed x.pa then (.error (fcRingCfg, va), s)
      else
        let die := leafHome x.leaf
        match s.readVa w.ctx va 64 with
        | (.error e, s) => (.error e, s)
        | (.ok bs, s) =>
          let bs := overlay tm.commit va bs
          let c := s.pick 8192
          match ringDescOk bs, freeIndex ((s.rings.filter fun r => decide (r.die = die)).map fun r => r.index) c.1 8192 with
          | true, some i =>
            let s := c.2
            let h := s.ringHandle die i
            let owner : List Word := [BitVec.ofNat 32 tm.index, (s.launchOf tm).seq]
            (match s.ringWrite w (va + 0x18) (bytesOf (h :: owner)) with
              | (.error e, s) => (.error e, s)
              | (.ok _, s) =>
                let r : Ring :=
                  { die := die, index := i, ctx := w.ctx, desc := BitVec.ofNat 64 va, base := BitVec.ofNat 64 (u64At bs 0),
                    ldepth := u8At bs 8, lslot := u8At bs 9, head := BitVec.ofNat 32 (u32At bs 0x10), tail := BitVec.ofNat 32 (u32At bs 0x14),
                    ownerTeam := owner.getD 0 0, ownerLaunch := owner.getD 1 0 }
                (.ok h, { s with rings := s.rings ++ [r] }))
          | _, _ => (.error (fcRingCfg, va), s)

/-- A team operation on rings: once, with the lowest active lane's operands; a trap is taken in every lane. -/
def State.ringTeamOp (s : State) (h : Hdr) (ops : List Opd) (f : State → Tid → Team → List Tid → Option (Nat × Nat) × State) : State :=
  s.word h { ops := ops } fun act s =>
    match act with
    | [] => some s
    | t :: _ =>
      match s.team? t.team with
      | none => some s
      | some tm =>
        match f s t tm act with
        | (none, s) => some s
        | (some e, s) => some (s.trapAll act e.1 e.2)

/-- RDEF define. -/
def execRdefDefine (h : Hdr) (o : R2) (s : State) : Answer :=
  .next (s.ringTeamOp h [Opd.dvs o.d, Opd.sk o.a 2] fun s t tm act =>
    match s.defineRing t tm (wordPair (s.opVals t o.a 2) 0) with
    | (.error e, s) => (some e, s)
    | (.ok v, s) => (none, act.foldl (fun s u => (s.result u true o.d [v]).1) s))

/-- Write head and tail back to the descriptor (R295). -/
def State.writeBack (s : State) (r : Ring) (w : Option Who) : Except (Nat × Nat) Unit × State :=
  let bs := bytesOf [r.head, r.tail]
  match w with
  | some w => s.ringWrite w (r.desc.toNat + 0x10) bs
  | none => s.writeVa r.ctx (r.desc.toNat + 0x10) bs

/-- Take a ring's entry away: its generation moves on, past 0 (R293). -/
def State.dropRing (s : State) (r : Ring) : State :=
  let g := s.ringGen r.die r.index
  { s with
    rings := s.rings.filter fun x => !decide (x.die = r.die ∧ x.index = r.index),
    ringGens := assocSet s.ringGens (8192 * r.die + r.index) (if g = 65535 then 1 else g + 1) }

/-- RDEF.free. -/
def execRdefFree (h : Hdr) (a : Reg) (s : State) : Answer :=
  .next (s.ringTeamOp h [Opd.sk a] fun s t tm _ =>
    match s.ring? tm.ctx ((s.opVals t a 1).getD 0 0) with
    | none => (some (fcStaleHandle, 0), s)
    | some r =>
      match s.writeBack r (some (s.who t)) with
      | (.error e, s) => (some e, s)
      | (.ok _, s) => (none, s.dropRing r))

/-- RDEF.adopt. -/
def execRdefAdopt (h : Hdr) (a : Reg) (s : State) : Answer :=
  .next (s.ringTeamOp h [Opd.sk a] fun s t tm _ =>
    match s.ring? tm.ctx ((s.opVals t a 1).getD 0 0) with
    | none => (some (fcStaleHandle, 0), s)
    | some r =>
      let team := BitVec.ofNat 32 tm.index
      let launch := (s.launchOf tm).seq
      match s.ringWrite (s.who t) (r.desc.toNat + 0x1C) (bytesOf [team, launch]) with
      | (.error e, s) => (some e, s)
      | (.ok _, s) => (none, s.updRing r fun r => { r with ownerTeam := team, ownerLaunch := launch }))

/-! ### RPUSH, RPOP and RSTEAL (R299) -/

/-- Registers of a group by its W field. -/
def groupRegs (w : BitVec 2) : Nat := 8 * 2 ^ w.toNat

/-- A packet operand: a group of V or s registers, from any register of its file. -/
def Opd.packet (r : Reg) (n : Nat) : Opd := { reg := r, n := n, s := true }

/-- RPUSH: a release, held while what it releases is due (R215, R299). -/
def execRpush (h : Hdr) (o : RpushF) (s : State) : Answer :=
  let n := groupRegs o.w
  .next (s.byLane h { ops := [Opd.vsk o.a, Opd.packet o.b n] } (hold := fun s act => s.accessWaits MemOrder.barrier act) fun t vals s =>
    match s.team? t.team with
    | none => (s, none)
    | some tm =>
      let ws := vals.getD 1 []
      if !pktOk (4 * n) ws then (s.trap t fcRingCfg, none)
      else
        match s.ring? tm.ctx (val1 vals 0) with
        | none => (s.trap t fcStaleHandle, none)
        | some r =>
          if !s.owns tm r || !pktOk r.slotBytes ws then (s.trap t fcRingCfg, none)
          else if r.full then (s.putPred t o.p false, none)
          else
            match s.ringWrite (s.who t) (r.slotVa r.tail) (pktStored r ws) with
            | (.error e, s) => (s.trap t e.1 e.2, none)
            | (.ok _, s) => ((s.updRing r fun r => { r with tail := r.tail + 1 }).putPred t o.p true, none))

/-- The words a pop or steal writes: the packet's own, and zeroes after them. -/
def popWords (n : Nat) (bs : List Byte) : List Word :=
  let ws := wordsOf bs
  let k := min (pktBytes (ws.getD 0 0) / 4) n
  (List.range n).map fun i => if i < k then ws.getD i 0 else 0

/-- RPOP and RSTEAL of one lane: the packet at the tail or the head, or the word that says why there is none. -/
def State.ringTake (s : State) (t : Tid) (d : Reg) (n : Nat) (h : Word) (steal : Bool) : State :=
  match s.team? t.team with
  | none => s
  | some tm =>
    let say := fun (s : State) (v : Word) => (s.result t true d [v]).1
    match s.ring? tm.ctx h with
    | none => say s 0xFFFFFFFE
    | some r =>
      if !steal && !s.owns tm r then say s 0xFFFFFFFD
      else if r.empty then say s 0xFFFFFFFF
      else
        let i := if steal then r.head else r.tail - 1
        match s.readVa tm.ctx (r.slotVa i) r.slotBytes with
        | (.error e, s) => s.laneTrap t e.1 e.2 (s.peek tm.ctx e.2).isSome
        | (.ok bs, s) =>
          let bs := overlay tm.commit (r.slotVa i) bs
          let s := s.updRing r fun r => if steal then { r with head := r.head + 1 } else { r with tail := r.tail - 1 }
          ((s.invalL1 tm.core).result t true d (popWords n bs)).1

/-- A pop or steal word: forbidden under DET (R301). -/
def State.ringTakes (s : State) (h : Hdr) (o : RpopF) (steal : Bool) : State :=
  let n := groupRegs o.w
  s.byLane h { ops := [Opd.vsk o.a, { reg := o.d, n := n, use := .wr }] } fun t vals s =>
    (if (s.descOfTid t).det then s.trap t fcDetViolation else s.ringTake t o.d n (val1 vals 0) steal, none)

/-- RPOP. -/
def execRpop (h : Hdr) (o : RpopF) (s : State) : Answer := .next (s.ringTakes h o false)
/-- RSTEAL. -/
def execRsteal (h : Hdr) (o : RpopF) (s : State) : Answer := .next (s.ringTakes h o true)

/-! ### RENQ (R300) -/

/-- The sender of a RENQ, for the order of its packets; 0 is hardware. -/
def senderOf (t : Tid) : Nat := 1 + 1024 * t.team + 64 * t.group + t.lane

/-- RENQ: the packet sets out for the target's home. Its append releases (R300), so the word waits for what is due. -/
def execRenq (h : Hdr) (o : RenqF) (s : State) : Answer :=
  let n := groupRegs o.w
  .next (s.byLane h { ops := [Opd.vsk o.d, Opd.vsk o.a, Opd.packet o.b n] } (hold := fun s act => s.accessWaits MemOrder.barrier act) fun t vals s =>
    match s.team? t.team with
    | none => (s, none)
    | some tm =>
      let ws := vals.getD 2 []
      let slot := match s.ring? tm.ctx (val1 vals 1) with | some r => r.slotBytes | none => 256
      if !(pktOk (4 * n) ws && pktOk slot ws) then (s.trap t fcRingCfg, none)
      else
        let f := s.fresh
        let p : RenqPkt := { id := f.1, ctx := tm.ctx, sender := senderOf t, target := val1 vals 1, ret := val1 vals 0,
                             words := ws.take (pktBytes (ws.getD 0 0) / 4) }
        ({ f.2 with renqs := f.2.renqs ++ [p] }, none))

/-- A packet is dropped, with its record (R300, R379). -/
def State.dropPacket (s : State) (p : RenqPkt) (code : Nat) : State :=
  s.mail 6 code p.ctx (2 + handleDie p.target) 0 0 0
    (bytesOf [p.target, p.ret] ++ (bytesOf p.words ++ List.replicate 24 0).take 24)

/-- The twin copy that sent a packet, if one did. -/
def State.twinSender (s : State) (p : RenqPkt) : Option Team :=
  if p.sender = 0 then none else (s.team? ((p.sender - 1) / 1024)).filter s.isTwin

/-- Write bytes that a packet causes: those of a twin copy go to its commit buffer (R350). -/
def State.pktWrite (s : State) (p : RenqPkt) (va : Nat) (bs : List Byte) : Except (Nat × Nat) Unit × State :=
  match s.twinSender p with
  | none => s.writeVa p.ctx va bs
  | some tm => s.ringWrite { core := tm.core, ctx := p.ctx, team := tm.key, thread := (p.sender - 1) % 1024 } va bs

/-- Append a packet at a ring's tail. The error is the code that says why it cannot be. -/
def State.appendPkt (s : State) (r : Ring) (p : RenqPkt) : Except Nat Unit × State :=
  if r.full || !pktOk r.slotBytes p.words then (.error fcRingCfg, s)
  else
    match s.pktWrite p (r.slotVa r.tail) (pktStored r p.words) with
    | (.error e, s) => (.error e.1, s)
    | (.ok _, s) => (.ok (), s.updRing r fun r => { r with tail := r.tail + 1 })

/-- Packets of a context in a die's overflow area (R321). -/
def State.heldCount (s : State) (die ctx : Nat) : Nat := (s.held.filter fun h => decide (h.1 = die ∧ h.2.ctx = ctx)).length

/-- The least number that is not in use. -/
def leastFree (used : List Nat) : Nat := ((List.range (used.length + 1)).find? fun k => !used.contains k).getD 0

/-- The virtual address of a place in a die's overflow area (R321). -/
def State.overflowVa (s : State) (ctx die k : Nat) : Nat :=
  match s.ctx? ctx with
  | some c => c.ovfl.toNat + die * 1048576 + 256 * k
  | none => 0

/-- Put a packet in a die's overflow area, if one of its 4,096 places is free (R300, R321). It takes the lowest, as its bytes; a packet whose place cannot be written is held without it. (log 89, DESIGN CHOICE) -/
def State.holdPkt (s : State) (die : Nat) (p : RenqPkt) : Option State :=
  if 4096 ≤ s.heldCount die p.ctx then none
  else
    let k := leastFree ((s.held.filter fun h => decide (h.1 = die ∧ h.2.ctx = p.ctx)).filterMap fun h => h.2.slot)
    let r := s.pktWrite p (s.overflowVa p.ctx die k) (bytesOf p.words)
    some { r.2 with held := r.2.held ++ [(die, { p with slot := match r.1 with | .ok _ => some k | .error _ => none })] }

/-- A packet as it leaves the overflow area: the bytes that its place holds. -/
def State.unheld (s : State) (die : Nat) (p : RenqPkt) : RenqPkt × State :=
  match p.slot with
  | none => (p, s)
  | some k =>
    match s.readVa p.ctx (s.overflowVa p.ctx die k) (4 * p.words.length) with
    | (.ok bs, s) =>
      let bs := match s.twinSender p with | some tm => overlay tm.commit (s.overflowVa p.ctx die k) bs | none => bs
      ({ p with words := wordsOf bs, slot := none }, s)
    | (.error _, s) => ({ p with slot := none }, s)

/-- An earlier packet of the same sender to the same ring is still on its way or held. -/
def State.renqBehind (s : State) (p : RenqPkt) : Bool :=
  s.renqs.any fun q => decide (q.sender = p.sender ∧ q.target = p.target ∧ q.ctx = p.ctx ∧ q.id < p.id)

/-- An earlier packet of the same sender to the same ring is held. -/
def State.heldBehind (s : State) (p : RenqPkt) : Bool :=
  s.held.any fun q => decide (q.2.sender = p.sender ∧ q.2.target = p.target ∧ q.2.ctx = p.ctx ∧ q.2.id < p.id)

/-- A packet on its way to its return ring, with STALE_HANDLE as its ARG. -/
def RenqPkt.back (p : RenqPkt) : RenqPkt := { p with words := p.words.set 1 (BitVec.ofNat 32 fcStaleHandle), target := p.ret, ret := 0, slot := none }

/-- A packet whose target is stale goes to its return ring. It is dropped when that is stale or full, and held when that is swapped or an earlier packet of its sender is held for it (R300). None while the overflow area is full. -/
def State.returnPkt (s : State) (p : RenqPkt) : Option State :=
  let q := p.back
  match s.ring? p.ctx p.ret with
  | none => some (s.dropPacket p fcStaleHandle)
  | some r =>
    if r.swapped || (!r.full && s.heldBehind q) then s.holdPkt r.die q
    else
      match s.appendPkt r q with
      | (.ok _, s) => some s
      | (.error e, s) => some (s.dropPacket p e)

/-- A packet at its target's home: appended, held, or returned. None while it must wait for room in the overflow area. -/
def State.takePkt (s : State) (p : RenqPkt) : Option State :=
  match s.ring? p.ctx p.target with
  | none => s.returnPkt p
  | some r =>
    if r.swapped || r.full || s.heldBehind p then s.holdPkt r.die p
    else
      match s.appendPkt r p with
      | (.ok _, s) => some s
      | (.error e, s) => some (s.dropPacket p e)

/-- RENQ_ARRIVAL: a packet reaches its target's home, or waits. -/
def execRenqArrival (id : Nat) (s : State) : Answer :=
  .next (match s.renqs.find? fun p => decide (p.id = id) with
    | none => s
    | some p =>
      if s.renqBehind p then s
      else (({ s with renqs := s.renqs.filter fun q => decide (q.id ≠ id) } : State).takePkt p).getD s)

/-- OVERFLOW_DELIVERY: a held packet whose ring has room again is appended, the oldest of its sender first; one whose ring is gone returns. -/
def execOverflowDelivery (id : Nat) (s : State) : Answer :=
  .next (match s.held.find? fun h => decide (h.2.id = id) with
    | none => s
    | some h =>
      if s.heldBehind h.2 || ((s.ring? h.2.ctx h.2.target).any fun r => r.swapped || r.full) then s
      else
        let u := s.unheld h.1 h.2
        (({ u.2 with held := u.2.held.filter fun x => decide (x.2.id ≠ id) } : State).takePkt u.1).getD s)

end Sys2Proof.Machine
end

