-- ==== Sys2Proof/Machine/Sets.lean ====
section
/-! DEFINITION. Reduction sets (R249 to R254): a contribution's arrival at its set, the application of the next position, and the end of a round. -/

namespace Sys2Proof.Machine

/-- The virtual address of a set's descriptor (R250). -/
def State.setVa (s : State) (ctx set : Nat) : Nat :=
  match s.ctx? ctx with
  | some c => c.rsbase.toNat + 64 * set
  | none => 64 * set

/-- A fault for a contribution's issuers (R249, R251, R253). A tile's goes through its command, which then closes. -/
def State.contribFault (s : State) (k : Contrib) (f : Nat × Nat × Nat) : State :=
  match k.cmd with
  | some id =>
    (match s.cmd? id with
      | some c => (s.updCmd id fun x => { x with fault := some (c.faultInfo f) }).close id
      | none => s)
  | none =>
    k.recips.foldl (fun s t => s.asyncFault t
      { code := f.1, engine := 7, cause := f.2.1, fpc := k.pc, rpc := k.pc, addr := BitVec.ofNat 64 f.2.2, word := k.word, age := k.age,
        cmd := [k.set, k.idx, k.va.lo, k.va.hi, k.value.lo, k.value.hi].take (if k.ty.regs = 2 then 6 else 5) }) s

/-- A rejected contribution is neither applied nor counted (R253). -/
def State.rejectContrib (s : State) (k : Contrib) : State := s.contribFault k (fcEngineCmd, 0, 0)

/-- The entry of a set. -/
def State.set? (s : State) (ctx set : Nat) : Option SetEntry := s.sets.find? fun e => decide (e.ctx = ctx ∧ e.set = set)
/-- Change an entry. -/
def State.updSet (s : State) (ctx set : Nat) (f : SetEntry → SetEntry) : State :=
  { s with sets := updWhere (fun e => decide (e.ctx = ctx ∧ e.set = set)) f s.sets }

/-- A descriptor that R253 accepts. -/
def setDescOk (bs : List Byte) : Bool :=
  decide (1 ≤ u32At bs 4 ∧ u32At bs 4 ≤ 2 ^ 24) && decide (u8At bs 0x28 = 4 ∨ u8At bs 0x28 = 5 ∨ u8At bs 0x28 = 6) && zeroAt bs 0x29 23

/-- What a contribution meets when it looks for its set: an entry, a wait for a table entry, a rejection, or a fault. -/
inductive SetMet where
  | entry (e : SetEntry)
  | wait
  | reject
  | fault (f : Nat × Nat × Nat)
  deriving Repr

/-- Find a set's entry, reading its descriptor when there is none (R251). -/
def State.enterSet (s : State) (ctx set : Nat) : SetMet × State :=
  match s.set? ctx set with
  | some e => (.entry e, s)
  | none =>
    let va := s.setVa ctx set
    match s.translateWalk ctx va .load with
    | (.error e, s) => (.fault (runFault (e, va)), s)
    | (.ok x, s) =>
      let die := homeDie x.leaf x.pa
      if 256 ≤ (s.sets.filter fun e => decide (e.die = die)).length then (.wait, s)
      else
        match s.readVa ctx va 64 with
        | (.error e, s) => (.fault (runFault e), s)
        | (.ok bs, s) =>
          if !setDescOk bs then (.reject, s)
          else
            let e : SetEntry :=
              { die := die, ctx := ctx, set := set, base := BitVec.ofNat 32 (u32At bs 0), count := u32At bs 4, start := u64At bs 8,
                length := u64At bs 0x10, flagAddr := BitVec.ofNat 64 (u64At bs 0x18), flagVal := BitVec.ofNat 64 (u64At bs 0x20),
                scope := u8At bs 0x28 }
            (.entry e, { s with sets := s.sets ++ [e] })

/-- A contribution's position in the round (R250). -/
def SetEntry.pos (e : SetEntry) (idx : Word) : Nat := (idx - e.base).toNat

/-- Bytes of a contribution's destination: a word, or a whole tile (R254). -/
def Contrib.span (k : Contrib) : Nat := match k.tile with | some (stride, _) => tileSpan stride 512 | none => k.ty.bytes

/-- The page of a virtual address is a remote window. -/
def State.onRemote (s : State) (ctx va : Nat) : Bool := match s.peek ctx va with | some x => leafRm x.leaf | none => false

/-- Part of a contribution's destination lies on a remote window. -/
def State.contribRemote (s : State) (k : Contrib) : Bool :=
  match k.tile with
  | none => s.onRemote k.ctx k.va.toNat
  | some (stride, _) => (tileRows k.va.toNat stride).any fun a => (parts a 512).any fun p => s.onRemote k.ctx p.1

/-- The cases of R253 that depend on the entry and the destination. -/
def State.contribBad (s : State) (e : SetEntry) (k : Contrib) : Bool :=
  let j := e.pos k.idx
  let a := k.va.toNat
  decide (e.count ≤ j) || decide (j < e.applied) || e.held.any (fun h => decide (h.idx = k.idx)) ||
  !decide (e.start ≤ a ∧ a + k.span ≤ e.start + e.length) ||
  (s.contribRemote k && !(k.tile.isNone && decide (k.aop = .add) && decide (k.ty = .u64 ∨ k.ty = .s64)))

/-- The slice that is home to a set. -/
def State.setSlice (s : State) (e : SetEntry) : Nat := match s.peek e.ctx (s.setVa e.ctx e.set) with | some x => slice x.pa | none => 0

/-- Contributions in the reorder buffer of a die's slice (R251). -/
def State.sliceHeld (s : State) (die sl : Nat) : Nat :=
  (s.sets.map fun e => if e.die = die ∧ s.setSlice e = sl then (e.held.filter fun k => k.spill.isNone).length else 0).sum

/-- Places in use in a context's spill area of a die (R251, R321). -/
def State.spills (s : State) (ctx die : Nat) : List Nat :=
  (s.sets.filter fun e => decide (e.ctx = ctx ∧ e.die = die)).flatMap fun e => e.held.filterMap fun k => k.spill

/-- One that must wait for a lower index finds the slice's reorder buffer full (R251). -/
def State.mustSpill (s : State) (e : SetEntry) (k : Contrib) : Bool :=
  decide (e.pos k.idx ≠ e.applied) && decide (512 ≤ s.sliceHeld e.die (s.setSlice e))

/-- No buffer has room for one that must wait for a lower index (R251). -/
def State.buffersFull (s : State) (e : SetEntry) (k : Contrib) : Bool := s.mustSpill e k && decide (65536 ≤ (s.spills e.ctx e.die).length)

/-- Hold a contribution for its position. One past the reorder buffer takes the lowest free 16-byte place of its context's spill area, whose bytes the spec does not give. (log 89, DESIGN CHOICE) -/
def State.holdContrib (s : State) (e : SetEntry) (k : Contrib) : State :=
  if s.mustSpill e k then
    let n := leastFree (s.spills e.ctx e.die)
    let b := s.askBytes 16
    let va := match s.ctx? e.ctx with | some c => c.rsspill.toNat + e.die * 1048576 + 16 * n | none => 0
    (b.2.writeVa e.ctx va b.1).2.updSet e.ctx e.set fun e => { e with held := e.held ++ [{ k with spill := some n }] }
  else s.updSet e.ctx e.set fun e => { e with held := e.held ++ [k] }

/-- A contribution on its way can arrive: it has not been turned away yet, or its die's table and its slice's buffers have room for it. -/
def State.contribReady (s : State) (k : Contrib) : Bool :=
  !k.waits || decide (65535 < k.set.toNat) ||
  match (s.enterSet k.ctx k.set.toNat).1 with
  | .wait => false
  | .entry e => s.contribBad e k || !s.buffersFull e k
  | _ => true

/-- CONTRIBUTION_ARRIVAL: a contribution reaches its set: held for its position, rejected, or faulted; it waits while the table or the buffers are full. -/
def execContributionArrival (id : Nat) (s : State) : Answer :=
  .next (match s.contribs.find? fun k => decide (k.id = id) with
    | none => s
    | some k =>
      let gone := fun (s : State) =>
        ({ s with contribs := s.contribs.filter fun x => decide (x.id ≠ id) } : State).unhold
      let stay := fun (s : State) => ({ s with contribs := updWhere (fun x => decide (x.id = id)) (fun x => { x with waits := true }) s.contribs } : State)
      if 65535 < k.set.toNat then (gone s).rejectContrib k
      else
        match s.enterSet k.ctx k.set.toNat with
        | (.wait, s) => stay s
        | (.reject, s) => (gone s).rejectContrib k
        | (.fault f, s) => (gone s).contribFault k f
        | (.entry e, s) =>
          if s.contribBad e k then (gone s).rejectContrib k
          else if s.buffersFull e k then stay s
          else (gone s).holdContrib e k)

/-- The copies of the issuing cores take what a contribution has made of its destination, as a store's does (R209). -/
def State.storeL1All (s : State) (ts : List Tid) (pa : Nat) (bs : List Byte) : State :=
  ts.foldl (fun s t => match s.coreOf t with | some c => s.storeL1 c pa bs | none => s) s

/-- Apply a word's contribution at its destination (R249, R251): what it meets there makes its issuer's fault, and the round goes on. -/
def State.applyWord (s : State) (k : Contrib) : State :=
  let va := k.va.toNat
  match s.translateWalk k.ctx va .atomic with
  | (.error e, s) => s.contribFault k (fcEngineFault, e, va)
  | (.ok x, s) =>
    if leafRm x.leaf then
      match s.remote? k.ctx x k.ty.bytes with
      | none => s.contribFault k (fcEngineFault, fcPageAttr, va)
      | some (win, ra) =>
        let s := s.send (.remoteAdd win.qp win.rkey ra k.value)
        let r := s.flip
        if r.1 then r.2.contribFault k (fcEngineFault, fcPagePerm, va) else r.2.sink k.ctx
    else if s.marked x.pa k.ty.bytes then (s.mailUe k.ctx x.pa va 0).contribFault k (fcMemUe, 0, va)
    else
      match rmw k.aop k.ty k.value.toNat (s.readPhys x.pa k.ty.bytes) with
      | some bs => (s.storeL1All k.recips x.pa bs).writePhys k.ctx (decide (leafCp x.leaf ≠ 2)) x.pa bs
      | none => s.sink k.ctx

/-- Apply a tile: its command then reaches its done point (R187, R254). -/
def State.applyTile (s : State) (k : Contrib) (stride : Nat) (vals : List Word) : State :=
  match k.cmd.bind s.cmd? with
  | none => s
  | some c =>
    match s.tileUpdate c false k.va.toNat stride vals with
    | (.error e, s) => s.contribFault k (runFault e)
    | (.ok ws, s) => s.finish { c with out := ws }

/-- A write that ends a round has failed: a KIND 9 record (R252). -/
def State.setRecord (s : State) (e : SetEntry) (what : Nat) (f : Nat × Nat) : State :=
  s.mail 9 f.1 e.ctx (2 + e.die) 0 f.2 0 (leBytes 4 what ++ leBytes 4 e.set)

/-- The end of a round (R252): the new base, then the flag, then the entry goes. -/
def State.completeRound (s : State) (e : SetEntry) : State :=
  let va := s.setVa e.ctx e.set
  let s := match s.writeVa e.ctx va (leBytes 4 (e.base.toNat + e.count)) with
    | (.ok _, s) => s
    | (.error f, s) => s.setRecord e 1 f
  let s := if e.flagAddr = 0 then s else
    match s.writeVa e.ctx e.flagAddr.toNat (leBytes 8 e.flagVal.toNat) with
    | (.ok _, s) => s
    | (.error f, s) => s.setRecord e 2 f
  { s with sets := s.sets.filter fun x => !decide (x.ctx = e.ctx ∧ x.set = e.set) }

/-- CONTRIBUTION_APPLY: the next position of a set's round; sets are named 65,536 × context + number. -/
def execContributionApply (set : Nat) (s : State) : Answer :=
  let ctx := set / 65536
  let n := set % 65536
  .next (match s.set? ctx n with
    | none => s
    | some e =>
      match e.held.find? fun k => decide (e.pos k.idx = e.applied) with
      | none => s
      | some k =>
        let s := (s.updSet ctx n fun e => { e with applied := e.applied + 1, held := e.held.filter fun x => decide (x.id ≠ k.id) }).unhold
        let s := match k.tile with
          | none => k.recips.foldl (fun s t => s.performedFor t k.age) (s.applyWord k)
          | some (stride, vals) => s.applyTile k stride vals
        if e.applied + 1 = e.count then s.completeRound e else s)

end Sys2Proof.Machine
end

