-- ==== Sys2Proof/Machine/Control.lean ====
section
/-! DEFINITION. Class 7 control: branches (R63 to R66), rejoin masks (R67 to R70), barriers (R71 to R73), NOP, EXIT, SLEEP and SVR (R74 to R77). -/

namespace Sys2Proof.Machine

/-- NOP (R74). -/
def execNop (h : Hdr) (s : State) : Answer := .next (s.word h {} fun _ s => some s)

/-! ### Branches (R64 to R66) -/

/-- The lanes of the current word. -/
def State.curLanes (s : State) : List Tid := match s.cur with | some c => c.lanes | none => []

/-- The address of the current word. -/
def State.curPc (s : State) : DWord := match s.cur with | some c => c.pc | none => 0

/-- The preferred path of a branch (R65): `first` and `last` are the targets of the lowest and the highest active lane. -/
def preferredPc (hint : Hint) (direct : Bool) (fall first last : DWord) : DWord :=
  match hint with
  | .likely => first
  | .unlikely => if direct then fall else last
  | _ => if direct then fall else first

/-- A split set: threads off the preferred path take the stamp of the branch's issue plus one (R65). -/
def State.split (s : State) (lanes : List Tid) (pref : DWord) : State :=
  let live := lanes.filterMap fun t => (s.thread? t).map fun th => (t, th.pc)
  match live with
  | [] => s
  | x :: xs =>
    if xs.all fun y => decide (y.2 = x.2) then s
    else live.foldl (fun s y => if y.2 = pref then s else s.updThread y.1 fun th => { th with stamp := s.clk.acycle + 1 }) s

/-- A branch of lanes whose targets are known: the hint's check, then each lane's own move; a misaligned target is the branch's fault (R16, R64, R66). -/
def State.branch (s : State) (targets : List (Tid × DWord)) (hint : Hint) (direct : Bool) (link : Option Reg) : State :=
  match s.cur, targets with
  | some c, (t0, pc0) :: rest =>
    let uniform := rest.all fun x => decide (x.2 = pc0)
    if (s.descOfTid t0).hintchk && decide (hint = .uniform) && !uniform then s.trapAll (targets.map fun x => x.1) fcBranchHint
    else
      let s' := targets.foldl (fun s x =>
        if x.2.extractLsb' 0 3 ≠ 0 then s.trap x.1 fcMisalign x.2.toNat
        else
          let s := match link with
            | some r => (s.result x.1 false r [(c.pc + 8).lo, (c.pc + 8).hi]).1
            | none => s
          s.updThread x.1 fun th => { th with pc := x.2 }) s
      s'.split c.lanes (preferredPc hint direct (c.pc + 8) pc0 ((rest.getLast?.map fun x => x.2).getD pc0))
  | _, _ => s

/-- The target of BRA and CALL. -/
def BrF.target (o : BrF) (pc : DWord) : DWord := pc + (o.off.signExtend 64) * 8

/-- The pair CALL links into: h0:h1 in handler mode (R64, R356). -/
def State.linkReg (s : State) : Reg :=
  match s.curLanes with
  | t :: _ => if s.threadIs t (fun th => th.handler) then .h 0 else .v 0
  | [] => .v 0

/-- BRA. -/
def execBra (h : Hdr) (o : BrF) (s : State) : Answer :=
  .next (s.word h {} fun act s => some (s.branch (act.map fun t => (t, BrF.target o s.curPc)) o.hint true none))

/-- CALL. -/
def execCall (h : Hdr) (o : BrF) (s : State) : Answer :=
  let r := s.linkReg
  .next (s.word h { ops := [Opd.dv r 2] } fun act s =>
    some (s.branch (act.map fun t => (t, BrF.target o s.curPc)) o.hint true (some r)))

/-- Read every lane's target pair. -/
def State.targetsOf (s : State) (a : Reg) : List Tid → List (Tid × DWord) × State
  | [] => ([], s)
  | t :: ts =>
    let r := s.readRegs t a 0 2
    let q := r.2.targetsOf a ts
    ((t, pairOf (r.1.getD 0 0) (r.1.getD 1 0)) :: q.1, q.2)

/-- BRX and RET. -/
def State.indirect (s : State) (h : Hdr) (o : BrxF) : State :=
  s.word h { ops := [Opd.vsk o.a 2] } fun act s => let r := s.targetsOf o.a act; some (r.2.branch r.1 o.hint false none)

/-- BRX. -/
def execBrx (h : Hdr) (o : BrxF) (s : State) : Answer := .next (s.indirect h o)
/-- RET. -/
def execRet (h : Hdr) (o : BrxF) (s : State) : Answer := .next (s.indirect h o)

/-- CALLX: targets are read before any link is written. -/
def execCallx (h : Hdr) (o : CallxF) (s : State) : Answer :=
  .next (s.word h { ops := [Opd.dv o.d 2, Opd.vsk o.a 2] } fun act s =>
    let r := s.targetsOf o.a act
    some (r.2.branch r.1 o.hint false (some o.d)))

/-! ### Rejoin masks (R67 to R70) -/

/-- Check a mask of every group with an active lane. -/
def State.checkGroups (s : State) (act : List Tid) (m : Nat) : State := act.foldl (fun s t => s.checkMasks t [m]) s

/-- A mask word: an effect in each lane, then the release rule. -/
def State.maskWord (s : State) (h : Hdr) (m : BitVec 4) (f : State → Tid → Nat → State) : State :=
  s.word h { illReg := maskIllegal m } (joint := false) fun act s => some ((act.foldl (fun s t => f s t m.toNat) s).checkGroups act m.toNat)

/-- JOIN. -/
def execJoin (h : Hdr) (m : BitVec 4) (s : State) : Answer := .next (s.maskWord h m fun s t m => s.enrol t m)
/-- LEAVE. -/
def execLeave (h : Hdr) (m : BitVec 4) (s : State) : Answer :=
  .next (s.maskWord h m fun s t m => s.updGroup t fun g => let x := g.mask m; g.setMask m { x with e := x.e &&& ~~~laneBit t.lane })

/-- WAITM: a pending fault comes before the arrival. -/
def execWaitm (h : Hdr) (m : BitVec 4) (s : State) : Answer :=
  .next (s.word h { illReg := maskIllegal m } fun act s =>
    let r := s.deliverIf true act
    let n := m.toNat
    let s := r.1.foldl (fun s t =>
      (s.updGroup t fun g => let x := g.mask n; g.setMask n { x with w := x.w ||| laneBit t.lane }).updThread t fun th =>
        { th with parks := Park.waitm n :: th.parks }) r.2
    some (s.checkGroups r.1 n))

/-- MCLR: parked threads resume and the mask is empty. -/
def execMclr (h : Hdr) (m : BitVec 4) (s : State) : Answer := .next (s.maskWord h m fun s t m => s.releaseMask t m)

/-- MGET, a short result. -/
def execMget (h : Hdr) (o : MgetF) (s : State) : Answer :=
  .next (s.byLane h { ops := [{ reg := o.d, n := 2, align := 2, use := .wr, v := false, h := false, s := true }], illReg := maskIllegal o.m }
    fun t _ s =>
      let x := match s.group? t with | some g => g.mask o.m.toNat | none => {}
      let v : DWord := if o.arr then x.w else x.e
      s.result t false o.d [v.lo, v.hi])

/-! ### Barriers (R71, R72) -/

/-- The thread is in handler mode, where barriers are illegal (R357). -/
def inHandler (s : State) (t : Tid) : Bool := s.threadIs t fun th => th.handler

/-- A team's barrier. -/
def State.barrierOf (s : State) (t : Tid) (b : Nat) : Barrier := match s.team? t.team with | some tm => tm.barrier b | none => { n := 1 }

/-- In a deterministic team every wave that is ready is applied before a barrier's phase can complete, so that those who wake count it (R346). -/
def State.settleWaves (s : State) (t : Tid) : State :=
  if (s.descOfTid t).det then State.applyWaves t.team (match s.team? t.team with | some tm => tm.waveOps.length + 1 | none => 0) s
  else s

/-- A thread closes in a deterministic team (R346). -/
def State.closeThread (s : State) (t : Tid) : State :=
  (if (s.descOfTid t).det then s.updThread t fun th => { th with closed := true } else s).settleWaves t

/-- A thread that did not wait at its barrier is open again. -/
def State.openThread (s : State) (t : Tid) : State :=
  let w := match s.team? t.team with | some tm => tm.waveDone | none => 0
  s.updThread t fun th => if th.closed then { th with closed := false, wave := w } else th

/-- BARI. -/
def execBari (h : Hdr) (o : BariF) (s : State) : Answer :=
  let ops := match o.n with | .reg r => [Opd.sk r] | .imm _ => []
  let b := o.bar.toNat
  .next (s.byLane h { ops := ops, illOp := inHandler } fun t vals s =>
    let n := match o.n with | .reg _ => (val1 vals 0).toNat | .imm i => i.toNat
    if n < 1 ∨ 1024 < n then (s.trap t fcIllegalOp, none)
    else
      let s := (s.settleWaves t).updTeam t.team fun tm => let x := tm.barrier b; tm.setBarrier b { x with n := n }
      let c := (s.barrierOf t b).c
      (if 0 < c ∧ n ≤ c then s.completePhase t.team b else s, none))

/-- BARA: its result is short in an s register and long in a V register. -/
def execBara (h : Hdr) (o : BarRF) (s : State) : Answer :=
  let b := o.bar.toNat
  .next (s.byLane h { ops := [Opd.dvs o.r], illOp := inHandler } (point := true)
    (hold := fun s act => s.accessWaits MemOrder.barrier act) fun t _ s =>
    let ph := (s.barrierOf t b).p
    ((s.settleWaves t).arrive t.team b).result t (!o.r.isS) o.r [ph.setWidth 32])

/-- Park a lane on a barrier's phase. -/
def State.awaitPhase (s : State) (t : Tid) (b : Nat) (ph : BitVec 16) : State :=
  s.updThread t fun th => { th with parks := Park.barrier b ph :: th.parks }

/-- BARW. -/
def execBarw (h : Hdr) (o : BarRF) (s : State) : Answer :=
  let b := o.bar.toNat
  .next (s.byLane h { ops := [Opd.vsk o.r], illOp := inHandler } (point := true) fun t vals s =>
    let ph := (val1 vals 0).setWidth 16
    (if (s.barrierOf t b).p = ph then (s.awaitPhase t b ph).closeThread t else s, none))

/-- BARS: arrive, and wait for the phase of the arrival. -/
def execBars (h : Hdr) (bar : BitVec 4) (s : State) : Answer :=
  let b := bar.toNat
  .next (s.byLane h { illOp := inHandler } (point := true) (hold := fun s act => s.accessWaits MemOrder.barrier act) fun t _ s =>
    let s := s.closeThread t
    let ph := (s.barrierOf t b).p
    let s := s.arrive t.team b
    (if (s.barrierOf t b).p = ph then s.awaitPhase t b ph else s.openThread t, none))

/-! ### EXIT, SLEEP and SVR (R75 to R77) -/

/-- EXIT: results first, then a pending fault, then the end. -/
def execExit (h : Hdr) (s : State) : Answer :=
  .next (s.word h {} (joint := false) fun act s => some (act.foldl (fun s t =>
    if s.threadIs t fun th => decide (th.longs ≠ []) then s.parkLane t .longs
    else
      let r := s.deliverAsync t s.curPc
      if r.1 then r.2 else r.2.endThread t) s))

/-- SLEEP: n cycles of the module cycle counter; 0 gives way instead. -/
def execSleep (h : Hdr) (n : CntOpd) (s : State) : Answer :=
  let ops := match n with | .reg r => [Opd.vsk r] | .imm _ => []
  .next (s.byLane h { ops := ops } fun t vals s =>
    let k := match n with | .reg _ => (val1 vals 0).toNat | .imm i => i.toNat
    (s.updThread t fun th =>
      if k = 0 then { th with giveWay := true } else { th with parks := Park.sleep (s.clk.cycle.toNat + k) :: th.parks }, none))

/-- Groups of each role, a byte each (R77). -/
def roleGroups (t : Team) : Nat := ((List.range 4).map fun r => (t.groups.filter fun g => decide (g.role = r)).length * 256 ^ r).sum

/-- The smallest THAW exponent among the launches of a context with teams resident on a core (R329). -/
def State.thawInForce (s : State) (core ctx : Nat) : Nat :=
  (s.teams.filter fun t => decide (t.core = core ∧ t.ctx = ctx ∧ t.place = .resident)).foldl (fun m t => min m (s.descOf t).thawExp) 30

/-- A system register (R77). -/
def State.svr (s : State) (t : Tid) (sel : Nat) : Option Nat :=
  match s.team? t.team, s.group? t with
  | some tm, some g =>
    let d := s.descOf tm
    let part := s.dieParts.getD (dieOf tm.core) 0
    (match sel with
      | 0 => some s.curPc.toNat
      | 1 => some (s.curPc.toNat / 2 ^ 32)
      | 2 => some (s.launchOf tm).seq.toNat
      | 3 => some tm.index
      | 4 => some tm.groups.length
      | 5 => some (roleGroups tm)
      | 6 => some (d.budget g)
      | 7 => some (if d.det then d.lcores else 0)
      | 8 => some part
      | 9 => some (s.partDies part)
      | 10 => some d.prio
      | 11 => some (s.thawInForce tm.core tm.ctx)
      | 12 => some (if s.threadIs t fun th => th.handler then 1 else 0)
      | _ => none)
  | _, _ => none

/-- SVR, a long result. -/
def execSvr (h : Hdr) (o : SelD) (s : State) : Answer :=
  .next (s.byLane h { ops := [Opd.dvs o.d], illOp := fun _ _ => decide (12 < o.sel.toNat) } fun t _ s =>
    s.result t true o.d [BitVec.ofNat 32 ((s.svr t o.sel.toNat).getD 0)])

end Sys2Proof.Machine
end

