-- ==== Sys2Proof/Machine/Traps.lean ====
section
/-! DEFINITION. Traps and the handler: TRAP, BKPT, TRET, TKILL and TINFO (R361 to R365), ILLEGAL_OP (R40, R41), and the pair-form word (R35 to R38). -/

namespace Sys2Proof.Machine

/-! ### TRAP and BKPT (R362) -/

/-- A fault with an immediate in each active lane; `past` when it resumes at the next word. -/
def State.softFault (s : State) (h : Hdr) (code : Nat) (imm : BitVec 12) (past : Bool) : State :=
  s.word h {} fun act s =>
    match s.cur with
    | none => some s
    | some c => some (act.foldl (fun s t => s.takeFault t
        { code := code, fpc := c.pc, rpc := if past then c.pc + 8 else c.pc, imm := imm, word := c.word }) s)

/-- TRAP. -/
def execTrap (h : Hdr) (imm : BitVec 12) (s : State) : Answer := .next (s.softFault h fcSoftTrap imm true)
/-- BKPT. -/
def execBkpt (h : Hdr) (imm : BitVec 12) (s : State) : Answer := .next (s.softFault h fcBreakpoint imm false)

/-! ### TRET (R363) -/

/-- A word that is legal in handler mode alone. -/
def outsideHandler (s : State) (t : Tid) : Bool := !inHandler s t

/-- TRET of one lane: it waits for its long results, then leaves for the target that `target` gives. -/
def State.tretLane (s : State) (t : Tid) (keepp : Bool) (target : FaultRec → State → DWord × State) : State :=
  match s.thread? t with
  | none => s
  | some th =>
    if th.longs ≠ [] then s.parkLane t .longs
    else
      match th.frec with
      | none => s
      | some r =>
        let x := target r s
        if x.1.extractLsb' 0 3 ≠ 0 then x.2.trap t fcMisalign x.1.toNat else x.2.leaveHandler t x.1 keepp

/-- TRET. -/
def State.tret (s : State) (h : Hdr) (ops : List Opd) (keepp : Bool) (target : Tid → FaultRec → State → DWord × State) : State :=
  s.word h { ops := ops, illOp := outsideHandler, longs := true } (joint := false) fun act s => some (act.foldl (fun s t => s.tretLane t keepp (target t)) s)

/-- TRET.resume. -/
def execTretResume (h : Hdr) (keepp : Bool) (s : State) : Answer := .next (s.tret h [] keepp fun _ r s => (r.target false, s))
/-- TRET.skip. -/
def execTretSkip (h : Hdr) (keepp : Bool) (s : State) : Answer := .next (s.tret h [] keepp fun _ r s => (r.target true, s))
/-- TRET.to. -/
def execTretRedirect (h : Hdr) (o : TretToF) (s : State) : Answer :=
  .next (s.tret h [Opd.vsk o.a 2] o.keepp fun t _ s => let r := s.readRegs t o.a 0 2; (pairOf (r.1.getD 0 0) (r.1.getD 1 0), r.2))

/-! ### TKILL (R364) -/

/-- TKILL.thread. -/
def execTkillThread (h : Hdr) (_code : BitVec 8) (s : State) : Answer :=
  .next (s.word h {} fun act s => some (act.foldl (fun s t => s.endThread t) s))

/-- TKILL.group: every thread of each group with an active lane. -/
def execTkillGroup (h : Hdr) (_code : BitVec 8) (s : State) : Answer :=
  .next (s.word h {} fun act s =>
    some (act.foldl (fun s t => match s.group? t with
      | some g => (g.tids t.team).foldl (fun s u => s.endThread u) s
      | none => s) s))

/-- The code a team or grid kill reports. -/
def State.killCode (s : State) (code : BitVec 8) (t : Tid) : Nat :=
  if code ≠ 0 then code.toNat
  else match (s.thread? t).bind fun th => th.frec with | some r => r.info.code | none => 0

/-- CODE 0 outside handler mode is illegal for a team or a grid. -/
def noCode (code : BitVec 8) (s : State) (t : Tid) : Bool := decide (code = 0) && !inHandler s t

/-- TKILL.team. -/
def execTkillTeam (h : Hdr) (code : BitVec 8) (s : State) : Answer :=
  .next (s.word h { illOp := noCode code } fun act s => some (match act with
    | t :: _ => s.killTeam t.team (s.killCode code t)
    | [] => s))

/-- TKILL.grid. -/
def execTkillGrid (h : Hdr) (code : BitVec 8) (s : State) : Answer :=
  .next (s.word h { illOp := noCode code } fun act s => some (match act with
    | t :: _ => (match s.team? t.team with
        | some tm => s.killGrid tm.launch 3 (s.killCode code t)
        | none => s)
    | [] => s))

/-! ### TINFO (R360, R365) -/

/-- A word of a fault record. -/
def FaultRec.word (r : FaultRec) (sel : Nat) : Option Nat :=
  let f := r.info
  match sel with
  | 0 => some (f.code + 256 * f.cause + (if f.async then 2 ^ 16 else 0) + 2 ^ 17 * f.engine)
  | 1 => some r.preds.toNat
  | 2 => some f.fpc.toNat
  | 3 => some (f.fpc.toNat / 2 ^ 32)
  | 4 => some f.rpc.toNat
  | 5 => some (f.rpc.toNat / 2 ^ 32)
  | 6 => some f.addr.toNat
  | 7 => some (f.addr.toNat / 2 ^ 32)
  | 8 => some f.seq.toNat
  | 9 => some (f.tag % 65536 + 2 ^ 16 * (min f.cmd.length 32) + if f.noseq then 2 ^ 22 else 0)
  | 10 => some f.imm.toNat
  | 11 => some f.word.toNat
  | 12 => some (f.word.toNat / 2 ^ 32)
  | 13 => some r.pending
  | n => if 16 ≤ n ∧ n < 48 then some (f.cmd.getD (n - 16) 0).toNat else none

/-- A selector of R360. -/
def infoSel (n : Nat) : Bool := decide (n ≤ 13) || decide (16 ≤ n ∧ n < 48)

/-- TINFO, a long result. -/
def execTinfo (h : Hdr) (o : SelD) (s : State) : Answer :=
  .next (s.byLane h { ops := [Opd.dvs o.d], illOp := fun s t => outsideHandler s t || !infoSel o.sel.toNat } fun t _ s =>
    let v := match s.thread? t with
      | some th => (match th.frec with | some r => (r.word o.sel.toNat).getD 0 | none => 0)
      | none => 0
    s.result t true o.d [BitVec.ofNat 32 v])

/-! ### ILLEGAL_OP (R40, R41) -/

/-- The guard of a pair-form word (R37). -/
def pairGuard (ps : Bool) (th : Thread) : Bool := !ps || th.preds.getLsbD 1

/-- A word that decodes to nothing traps in every thread whose guard holds; its header still acts in the others. -/
def execIllegalOp (w : DWord) (s : State) : Answer :=
  let k : Checks := { illOp := fun _ _ => true }
  .next (if w.getLsbD 63 then s.course (w.getLsbD 62) (w.getLsbD 61) 0 (pairGuard (w.getLsbD 60)) k false fun _ s => some s
    else s.word (unpack w).hdr k fun _ s => some s)

/-! ### The pair form (R35 to R38) -/

/-- A slot that does something. -/
def Slot.live (x : Slot) : Bool := decide (x.op ≠ .noop)

/-- The value a slot computes (R36). -/
def slotValue (op : SlotOp) (d s : Nat) : Nat :=
  match op with
  | .iadd => (d + s) % 2 ^ 32
  | .isub => (d + (2 ^ 32 - s)) % 2 ^ 32
  | .imul => d * s % 2 ^ 32
  | .imin => if signedOf 32 s < signedOf 32 d then s else d
  | .imax => if signedOf 32 d < signedOf 32 s then s else d
  | .iand => d &&& s
  | .ior => d ||| s
  | .ixor => d ^^^ s
  | .shl => shlBits 32 d s
  | .shr => shrBits 32 d s
  | .sar => sarBits 32 d s
  | .mov => s
  | .fadd => Fmt.fp32.add d s
  | .fsub => Fmt.fp32.round .rne false false (fAdd .rne (Fmt.fp32.val d) (Fmt.fp32.val s).neg)
  | .fmul => Fmt.fp32.round .rne false false (fMul (Fmt.fp32.val d) (Fmt.fp32.val s))
  | .fmin => Fmt.fp32.minmax false d s
  | .fmax => Fmt.fp32.minmax true d s
  | .noop => d

/-- The banks a live slot reads (R38). -/
def slotBanks (x : Slot) : List Nat :=
  if Slot.live x then
    (match x.d with | .v i => [i.val % 8] | _ => []) ++ (match x.s with | .v i => [i.val % 8] | _ => [])
  else []

/-- A slot's fields name the files R38 allows. -/
def slotFiles (x : Slot) : Bool :=
  !Slot.live x || ((match x.d with | .v _ => true | _ => false) && (match x.s with | .v _ | .s _ | .k _ => true | _ => false))

/-- The pairing rules of R38. -/
def pairLegal (o : PairF) : Bool :=
  slotFiles o.a && slotFiles o.b &&
  !(Slot.live o.a && Slot.live o.b && decide ((slotBanks o.a).head? = (slotBanks o.b).head?)) &&
  (List.range 8).all fun b => decide (((slotBanks o.a ++ slotBanks o.b).filter fun x => decide (x = b)).length ≤ 2)

/-- The operands of a slot. -/
def slotOps (x : Slot) : List Opd := if Slot.live x then [{ Opd.upd x.d with s := false, h := false }, { Opd.vsk x.s with h := false }] else []

/-- PAIR_WORD: both slots read before either writes. -/
def execPairWord (o : PairF) (s : State) : Answer :=
  let ops := slotOps o.a ++ slotOps o.b
  .next (s.course o.marker o.gw 0 (pairGuard o.ps) { illPair := !pairLegal o, ops := ops } false fun act s =>
    some (s.eachLane ops (fun t vals s =>
      let k := if Slot.live o.a then 2 else 0
      let put := fun (s : State) (x : Slot) (i : Nat) =>
        if Slot.live x then (s.result t false x.d [BitVec.ofNat 32 (slotValue x.op (val1 vals i).toNat (val1 vals (i + 1)).toNat)]).1 else s
      (put (put s o.a 0) o.b k, none)) act))

end Sys2Proof.Machine
end

