-- ==== Sys2Proof/Machine/Launch.lean ====
section
/-! DEFINITION. The launch unit (R319 to R324, R334 to R336, R342, R343): acceptance, dependencies, completion, LAUNCH, and the Lull watchdog. -/

namespace Sys2Proof.Machine

/-! ### The kernel descriptor (R319) -/

/-- A role as a descriptor's bytes give it; absent when its entry offset is all ones. -/
def roleOf (bs : List Byte) (r : Nat) : Option RoleD :=
  let e := u32At bs (8 + 4 * r)
  if e = 0xFFFFFFFF then none
  else some { entry := e, gmin := u8At bs (0x18 + r), gmax := u8At bs (0x1C + r), budget := u16At bs (0x20 + 2 * r) }

/-- The used team-queue declarations. -/
def qdeclsOf (bs : List Byte) : List QDecl :=
  (List.range 8).filterMap fun k =>
    let o := 0xA0 + 8 * k
    if u8At bs o = 0 then none
    else some { num := u8At bs o, lslot := u8At bs (o + 1), ldepth := u8At bs (o + 2), prod := u8At bs (o + 3),
                cons := u8At bs (o + 4), off := 256 * u16At bs (o + 6) }

/-- A kernel descriptor's fields. -/
def kdescOf (bs : List Byte) : KDesc :=
  { code := u64At bs 0, roles := (List.range 4).map (roleOf bs), gx := u32At bs 0x28, gy := u32At bs 0x2C, gz := u32At bs 0x30,
    scratch := u32At bs 0x34, flags := BitVec.ofNat 32 (u32At bs 0x38), lcores := u16At bs 0x3C, tmod := u8At bs 0x3E, tres := u8At bs 0x3F,
    caddr := u64At bs 0x48, cval := BitVec.ofNat 64 (u64At bs 0x50), csco := u8At bs 0x58,
    deps := (List.range 4).map fun k => (u64At bs (0x60 + 16 * k), u64At bs (0x68 + 16 * k)),
    queues := qdeclsOf bs, stream := u64At bs 0xE0, scount := u32At bs 0xE8, drawlim := u32At bs 0xEC,
    viewt := u16At bs 0xF0, viewa := u16At bs 0xF2, thaw := u32At bs 0xF4 % 32, rsvx := u32At bs 0xF4 / 256 % 4,
    dseed := BitVec.ofNat 64 (u64At bs 0xF8) }

/-- The constant block's address. -/
def constOf (bs : List Byte) : Nat := u64At bs 0x40

/-! ### The checks of acceptance (R320) -/

/-- A role's group range and budget, or its absence, are in order. -/
def roleOk (bs : List Byte) (r : Nat) : Bool :=
  match roleOf bs r with
  | some x => decide (1 ≤ x.gmin ∧ x.gmin ≤ x.gmax ∧ x.gmax ≤ 16 ∧ x.budget % 16 = 0 ∧ 16 ≤ x.budget ∧ x.budget ≤ 1536)
  | none => decide (u8At bs (0x18 + r) = 0 ∧ u8At bs (0x1C + r) = 0 ∧ u16At bs (0x20 + 2 * r) = 0)

/-- Segments of a team with given group counts (R79). -/
def KDesc.segsFor (d : KDesc) (counts : List Nat) : Nat :=
  segCount ((List.range 4).map fun r => counts.getD r 0 * ((d.role r).budget * 256)).sum + segCount d.scratch

def KDesc.gmins (d : KDesc) : List Nat := (List.range 4).map fun r => (d.role r).gmin
def KDesc.gmaxs (d : KDesc) : List Nat := (List.range 4).map fun r => (d.role r).gmax

/-- A declaration's storage: offset and bytes (R260). -/
def QDecl.bytes (q : QDecl) : Nat := 2 ^ (q.lslot + q.ldepth)

/-- A used declaration names a queue, lists present roles and has its storage within S (R260, R320). -/
def KDesc.qdeclOk (d : KDesc) (q : QDecl) : Bool :=
  decide (32 ≤ q.num ∧ q.num ≤ 63 ∧ 2 ≤ q.lslot ∧ q.lslot ≤ 7 ∧ 1 ≤ q.ldepth ∧ q.ldepth ≤ 10) &&
  (d.roles.getD q.prod none).isSome && (d.roles.getD q.cons none).isSome && decide (q.off + q.bytes ≤ d.scratch)

/-- Declarations name distinct queues and do not overlap. -/
def qdeclsApart : List QDecl → Bool
  | [] => true
  | q :: qs => qs.all (fun p => decide (p.num ≠ q.num) && !meets p.off p.bytes q.off q.bytes) && qdeclsApart qs

/-- A view base (R85). -/
def viewOk (v : Nat) : Bool := decide (v % 16 = 0 ∧ v < 1536)

/-- The checks of R320 after reading, in order, each with its code. -/
def descChecks (va : Nat) (bs : List Byte) : List (Bool × Nat) :=
  let d := kdescOf bs
  let sched := u32At bs 0xF4
  [ (decide (va % 256 = 0 ∧ d.code % 8 = 0 ∧ constOf bs % 256 = 0 ∧ d.caddr % 16 = 0) &&
      d.roles.all (fun r => match r with | some x => decide (x.entry % 8 = 0) | none => true), fcMisalign),
    (zeroAt bs 0x59 7 && decide (sched / 32 % 8 = 0 ∧ sched / 1024 = 0 ∧ d.flags.toNat / 1024 = 0) &&
      (List.range 8).all (fun k => decide (u8At bs (0xA5 + 8 * k) = 0)), fcIllegalOp),
    ((d.roles.getD 0 none).isSome && (List.range 4).all (roleOk bs), fcIllegalOp),
    (decide (d.gmins.sum ≤ 16), fcIllegalOp),
    (decide (d.teams < 2 ^ 32), fcIllegalOp),
    (decide (d.scratch % 4096 = 0 ∧ d.scratch ≤ 3584 * 1024), fcPoolRange),
    (decide (d.segsFor d.gmins + d.rsvx ≤ 63), fcPoolRange),
    (!d.det || decide (d.gmaxs.sum ≤ 16), fcIllegalOp),
    (!d.det || decide (d.segsFor d.gmaxs + d.rsvx ≤ 63), fcPoolRange),
    (decide ((d.thaw = 0 ∨ 12 ≤ d.thaw ∧ d.thaw ≤ 30) ∧ 4 ≤ d.csco ∧ d.csco ≤ 6), fcIllegalOp),
    (viewOk d.viewt && viewOk d.viewa, fcIllegalReg),
    (d.queues.all d.qdeclOk && qdeclsApart d.queues, fcQueueCfg),
    (!d.cluster || decide (d.teams % 8 = 0), fcIllegalOp),
    (!d.det || decide (1 ≤ d.lcores ∧ d.lcores ≤ 256), fcIllegalOp),
    (!d.twin || decide (1 ≤ d.tmod ∧ d.tres < d.tmod), fcIllegalOp),
    (decide (d.stream + d.scount ≤ 2 ^ 64) && (decide (d.scount ≠ 0) || decide (d.stream = 0 ∧ d.drawlim = 0)), fcIllegalOp) ]

/-- The first check that fails. -/
def firstFailure : List (Bool × Nat) → Option Nat
  | [] => none
  | (ok, code) :: rest => if ok then firstFailure rest else some code

/-! ### Completion (R334) -/

/-- The launch unit writes eight bytes of a completion record; a failed write is recorded and lost. -/
def State.writeRecord (s : State) (ctx va v what : Nat) (seq : Word) : State :=
  match s.writeVa ctx va (leBytes 8 v) with
  | (.ok _, s) => s
  | (.error e, s) => s.mail 9 e.1 ctx 0 0 e.2 0 (leBytes 4 what ++ leBytes 4 seq.toNat)

/-- The completion record: the status word, then the completion value with its release. -/
def State.writeCompletion (s : State) (ctx caddr : Nat) (cval : DWord) (first : Option Nat) (cause code : Nat) (seq : Word) : State :=
  if caddr = 0 then s
  else
    let word := (match first with | some i => i | none => 0xFFFFFFFF) * 2 ^ 32 + cause * 256 + code
    (s.writeRecord ctx (caddr + 8) word 3 seq).writeRecord ctx caddr cval.toNat 4 seq

/-- Successor notices of a host packet (R303), in order, as though by RENQ with the event ring as the return ring. -/
def State.notices (s : State) (ctx ring : Nat) (index : Word) (succs : List (Word × Nat)) (status : Nat) : State :=
  let ev := match s.ctx? ctx with | some c => c.evring | none => 0
  (succs.foldl (fun s e => s.postPacket ctx e.1 ev (taskHeader 0 0 e.2 (BitVec.ofNat 32 status) ++ [BitVec.ofNat 32 ring, index])) s).sink ctx

def State.originNotices (s : State) (ctx : Nat) (h : Option HostOrigin) (status : Nat) : State :=
  match h with
  | some h => s.notices ctx h.ring h.index h.succs status
  | none => s

/-- A launch's cause and code as the status word gives them. -/
def Launch.status (l : Launch) : Nat := if l.cause = 0 ∨ l.cause = 5 then 0 else l.code

/-- Every team of the launch has been placed, the second copies of twins among them (R345, R349). -/
def Launch.allPlaced (l : Launch) : Bool :=
  l.next.all (fun n => decide (l.d.teams ≤ n)) &&
  (!l.d.twin || decide ((l.d.teams + l.d.tmod - 1 - l.d.tres) / l.d.tmod ≤ l.second.length))

/-- Writes of a launch's threads that are not yet performed (R334): sequenced contributions, and remote stores where the completion's scope is the system. -/
def State.writesDue (s : State) (l : Launch) : Bool :=
  (s.contribs.any fun k => decide (k.launch = l.key)) || (s.sets.any fun e => e.held.any fun k => decide (k.launch = l.key)) ||
  (decide (l.d.csco = 6) && s.remoteOps.any fun o => o.recips.any fun t => decide (t.team / 2 ^ 33 = l.key))

/-- A launch is complete: its dependencies met or its teams dropped, every team placed has retired, and its writes are performed. (log 24, DEDUCED) -/
def State.launchDone (s : State) (l : Launch) : Bool :=
  (l.dropped || (l.met.all id && l.allPlaced)) && !(s.teams.any fun t => decide (t.launch = l.key)) && !s.writesDue l

/-- A launch slot is reclaimed: signals of its ring stop waiting for it. -/
def State.dropLaunch (s : State) (key : Nat) : State :=
  { s with
    launches := s.launches.filter fun l => decide (l.key ≠ key),
    hostSignals := s.hostSignals.map fun g => { g with after := g.after.filter fun k => decide (k ≠ key) } }

/-- A reservation joins the last 64 of completed launches (R343). -/
def Ctx.remember (c : Ctx) (r : Reservation) : Ctx :=
  { c with history := (c.history ++ [r]).drop (c.history.length + 1 - 64) }

/-- A launch completes. -/
def State.completeLaunch (s : State) (l : Launch) : State :=
  let s := s.writeCompletion l.ctx l.d.caddr l.d.cval l.first l.cause l.status l.seq
  let s := s.originNotices l.ctx l.host l.status
  (s.dropLaunch l.key).updCtx l.ctx fun c => c.remember { seq := l.seq, seed := l.seed, stream := l.d.stream, count := l.d.scount }

/-- Complete every launch that is done, in order of acceptance. -/
def State.completeDone (s : State) : State := s.launches.foldl (fun s l => if s.launchDone l then s.completeLaunch l else s) s

/-! ### Acceptance (R322, R323, R340, R343) -/

/-- Launch slots of a partition in use. -/
def State.slotsUsed (s : State) (part : Nat) : Nat :=
  (s.launches.filter fun l => match s.ctx? l.ctx with | some c => decide (c.part = part) | none => false).length

/-- A partition has a launch slot free for a context. -/
def State.launchRoom (s : State) (ctx : Nat) : Bool :=
  match s.ctx? ctx with
  | some c => decide (s.slotsUsed c.part < 1024)
  | none => true

/-- The reservations that overlap a new one, in ascending sequence number below it. -/
def overlaps (n : Reservation) (rs : List Reservation) : List Reservation :=
  sortBy (fun r => (r.seq - n.seq).toNat) (rs.filter fun r =>
    decide (r.count ≠ 0) && decide (r.seed = n.seed) && meets r.stream r.count n.stream n.count)

/-- An RNG_OVERLAP record. -/
def State.overlapRecord (s : State) (ctx : Nat) (n r : Reservation) : State :=
  match s.ctx? ctx with
  | none => s
  | some c => s.postPacket ctx c.evring 0 (taskHeader 1 0 0 0x200 ++ [n.seq, r.seq] ++ natPair (max n.stream r.stream) ++ [0, 0])

/-- Report the overlaps of a new launch's reservation. -/
def State.reportOverlaps (s : State) (c : Ctx) (n : Reservation) : State :=
  if n.count = 0 then s
  else
    let live := (s.launches.filter fun l => decide (l.ctx = c.id)).map fun l =>
      ({ seq := l.seq, seed := l.seed, stream := l.d.stream, count := l.d.scount } : Reservation)
    (overlaps n (c.history ++ live)).foldl (fun s r => s.overlapRecord c.id n r) s

/-- Read the dependencies: which are met, or the fault that refuses the launch (R323). -/
def State.readDeps (s : State) (ctx : Nat) : List (Nat × Nat) → Except Nat (List Bool) × State
  | [] => (.ok [], s)
  | (a, v) :: rest =>
    if a = 0 then
      match s.readDeps ctx rest with
      | (.ok ms, s) => (.ok (true :: ms), s)
      | (.error e, s) => (.error e, s)
    else
      match s.readVaNat ctx a 8 with
      | (.error e, s) => (.error e.1, s)
      | (.ok x, s) =>
        match s.readDeps ctx rest with
        | (.ok ms, s) => (.ok (decide (v ≤ x) :: ms), s)
        | (.error e, s) => (.error e, s)

/-- A launch that is refused completes at once with CAUSE 1; where its descriptor was read, the completion record is written. (log 23, DEDUCED) -/
def State.refuseLaunch (s : State) (ctx : Nat) (seq : Word) (d : KDesc) (code : Nat) (host : Option HostOrigin) : State :=
  (s.writeCompletion ctx d.caddr d.cval none 1 code seq).originNotices ctx host code

/-- Read the descriptor and the constant block, and check them: the descriptor's bytes as far as they were read, and the code that refuses it or the constants. -/
def State.readLaunch (s : State) (ctx va : Nat) : (List Byte × Except Nat (List Byte)) × State :=
  match s.readVa ctx va 256 with
  | (.error e, s) => (([], .error e.1), s)
  | (.ok bs, s) =>
    match s.readVa ctx (constOf bs) 256 with
    | (.error e, s) => ((bs, .error e.1), s)
    | (.ok ks, s) =>
      match firstFailure (descChecks va bs) with
      | some code => ((bs, .error code), s)
      | none => ((bs, .ok ks), s)

/-- A launch enters its slot. -/
def State.enterLaunch (s : State) (c : Ctx) (seq : Word) (bs ks : List Byte) (met : List Bool) (host : Option HostOrigin) : State :=
  let d := kdescOf bs
  let seed := if d.seedsel then d.dseed else c.seed
  let s := s.reportOverlaps c { seq := seq, seed := seed, stream := d.stream, count := d.scount }
  let s := if s.launches.any fun l => decide (l.ctx = c.id) then s else s.sink c.id
  let f := s.fresh
  let l : Launch :=
    { key := f.1, ctx := c.id, seq := seq, d := d, consts := Mem.setN [] 0 ks, seed := seed, image := bs, met := met,
      next := if d.det then List.range d.lcores else [0], since := f.2.nextId, host := host }
  ({ f.2 with launches := f.2.launches ++ [l] }).completeDone

/-- Acceptance of a launch: its sequence number, and 0 or the code that refuses it. -/
def State.acceptLaunch (s : State) (ctx va : Nat) (host : Option HostOrigin) : (Word × Nat) × State :=
  match s.ctx? ctx with
  | none => ((0, fcIllegalOp), s)
  | some c =>
    let seq := c.nextLaunch
    let s := s.updCtx ctx fun c => { c with nextLaunch := c.nextLaunch + 1 }
    match s.readLaunch ctx va with
    | ((bs, .error code), s) => ((seq, code), s.refuseLaunch ctx seq (kdescOf bs) code host)
    | ((bs, .ok ks), s) =>
      match s.readDeps ctx (kdescOf bs).deps with
      | (.error code, s) => ((seq, code), s.refuseLaunch ctx seq (kdescOf bs) code host)
      | (.ok met, s) => ((seq, 0), s.enterLaunch c seq bs ks met host)

/-! ### LAUNCH (R324) -/

/-- The result of an acceptance: the sequence number, and 0 or 0x100 with the code. -/
def launchWords (r : Word × Nat) : List Word := [r.1, if r.2 = 0 then 0 else BitVec.ofNat 32 (0x100 + r.2)]

/-- Give a waiting result its two words, by place. -/
def State.fillLong (s : State) (t : Tid) (id : Nat) (vals : List Word) : State :=
  s.updThread t fun th =>
    { th with longs := th.longs.map fun l =>
        if l.id = id then { l with ready := true, regs := l.regs.zipIdx.map fun x => { x.1 with val := vals.getD x.2 0 } } else l }

/-- Accept one waiting LAUNCH. -/
def State.acceptReq (s : State) (q : LaunchReq) : State :=
  let r := s.acceptLaunch q.ctx q.va none
  q.results.foldl (fun s x => s.fillLong x.1 x.2 (launchWords r.1)) r.2

/-- Accept the LAUNCHes that wait, in order, as slots allow. -/
def State.drainReqs : List LaunchReq → State → State
  | [], s => s
  | q :: qs, s => if s.launchRoom q.ctx then State.drainReqs qs (s.acceptReq q) else State.drainReqs qs { s with launchWaits := s.launchWaits ++ [q] }

/-- After slots may have gone free: waiting LAUNCHes are accepted, and words held for them are tried again. -/
def State.drainLaunches (s : State) : State :=
  if s.launchWaits.isEmpty then s else (State.drainReqs s.launchWaits { s with launchWaits := [] }).unhold

/-- Send a descriptor's address to the launch unit for some threads, whose results land when it has answered. (log 22, DEDUCED) -/
def State.sendLaunch (s : State) (ts : List Tid) (d : Reg) (va : Nat) : State :=
  match ts with
  | [] => s
  | t :: _ =>
    let ctx := (s.who t).ctx
    let r := ts.foldl (fun (acc : List (Tid × Nat) × State) u =>
      let x := acc.2.addLong u false (acc.2.waitingRegs u d 2) d.isS
      (acc.1 ++ [(u, x.1)], x.2)) (([] : List (Tid × Nat)), s)
    let s : State := { r.2 with launchWaits := r.2.launchWaits ++ [{ ctx := ctx, va := va, results := r.1 }] }
    s.drainLaunches

/-- LAUNCH: one launch for the word from an s or k pair, else one for each active lane. It releases, so it waits for what is due (R215, R324). -/
def execLaunch (h : Hdr) (o : R2) (s : State) : Answer :=
  let ops := [Opd.dvs o.d 2, Opd.vsk o.a 2]
  let once := match o.a with | .s _ | .k _ => true | _ => false
  .next (if once then
      s.word h { ops := ops } fun act s =>
        match act with
        | [] => some s
        | t :: _ =>
          if s.accessWaits MemOrder.barrier act && !s.retrying then none else some (s.sendLaunch act o.d (wordPair (s.opVals t o.a 2) 0))
    else s.byLane h { ops := ops } (hold := fun s act => s.accessWaits MemOrder.barrier act)
      fun t vals s => (s.sendLaunch [t] o.d (wordPair (vals.getD 1 []) 0), none))

/-! ### Dependencies and the watchdog (R323, R336) -/

/-- DEPENDENCY_MET: the launch unit reads a dependency's signal again. A signal that cannot be read refuses the launch. -/
def execDependencyMet (launch k : Nat) (s : State) : Answer :=
  .next (match s.launch? launch with
    | none => s
    | some l =>
      if l.dropped || l.met.getD k true then s
      else
        let dep := l.d.deps.getD k (0, 0)
        match s.readVaNat l.ctx dep.1 8 with
        | (.error e, s) =>
          (((s.updLaunch launch fun l => { l with dropped := true, cause := 1, code := e.1 }).completeDone).drainLaunches)
        | (.ok x, s) =>
          if dep.2 ≤ x then
            let f := s.fresh
            ((f.2.updLaunch launch fun l => { l with met := l.met.set k true, since := f.2.nextId }).completeDone).drainLaunches
          else s)

/-- The watchdog's count stands: nothing of the context is resident and no command runs, because the context is pre-empted or its teams are off their cores (R336). (log 18, DEDUCED) -/
def State.lullStands (s : State) (ctx : Nat) : Bool :=
  ((s.ctx? ctx).any (fun c => c.preempted) || s.teams.any fun t => decide (t.ctx = ctx ∧ t.place = .swapped)) &&
  !(s.teams.any fun t => decide (t.ctx = ctx ∧ t.place = .resident)) &&
  !(s.cmds.any fun c => decide (c.ctx = ctx) && decide (c.stage = .running ∨ c.stage = .consumed))

/-- The watchdog's count has reached 2^W. -/
def State.lullDue (s : State) (c : Ctx) : Bool :=
  (s.launches.any fun l => decide (l.ctx = c.id)) && decide (2 ^ c.lullW ≤ s.clk.cycle.toNat - c.lullStart) && !s.lullStands c.id

/-- LULL_WATCHDOG: the records, the kill where KILL is set, and the count again from zero. -/
def execLullWatchdog (ctx : Nat) (s : State) : Answer :=
  .next (match s.ctx? ctx with
    | none => s
    | some c =>
      if !s.lullDue c then s
      else
        let kill := if c.lullKill then 1 else 0
        let words := taskHeader 1 0 0 0x1C ++ [BitVec.ofNat 32 (0x1C + 256 * kill + 65536 * c.lullW), 0xFFFFFFFF, 0, 0, 0, 0]
        let s := (s.postPacket ctx c.erring 0 words).mail 2 fcWatchdog ctx 0 0 0 0 (leBytes 4 c.lullW ++ leBytes 4 kill)
        let s := if c.lullKill then
            (((s.launches.filter fun l => decide (l.ctx = ctx)).foldl (fun s l => s.killGrid l.key 4 fcWatchdog) s).completeDone).drainLaunches
          else s
        s.sink ctx)

end Sys2Proof.Machine
end

