-- ==== Sys2Proof/Machine/Placement.lean ====
section
/-! DEFINITION. The scheduler (R325 to R332, R345, R349, R351, R152): waiting teams and where they may go, placement, the Thaw swap, pre-emption, and retirement. -/

namespace Sys2Proof.Machine

/-! ### Waiting teams (R325, R328, R345, R349) -/

/-- A waiting team: its launch, index and copy, and whether it returns from SWAPPED. -/
structure Cand where
  launch : Nat
  index : Nat
  copy : Nat
  back : Bool
  deriving DecidableEq, Repr

/-- The key a team has in the state: its launch, copy and index. (log 25, DESIGN CHOICE) -/
def teamKey (launch index copy : Nat) : Nat := 2 ^ 33 * launch + 2 ^ 32 * copy + index
def Cand.key (c : Cand) : Nat := teamKey c.launch c.index c.copy

/-- The launch's teams may be on cores: its dependencies are met, and neither it nor its context is stopped. -/
def State.placing (s : State) (l : Launch) : Bool :=
  l.met.all id && !l.dropped && (match s.ctx? l.ctx with | some c => !c.preempted | none => false)

/-- A checkpoint order stops new teams, but for a launch that is begun and must run to its end (R352). -/
def State.opening (s : State) (l : Launch) : Bool :=
  match s.ctx? l.ctx with
  | some c => c.ckpt.isNone || (!l.d.det && decide (0 < l.next.getD 0 0))
  | none => false

/-- A block of eight may come next in deterministic mode: each of its logical cores has placed every lower team (R345). -/
def Launch.blockNext (l : Launch) (n : Nat) : Bool :=
  (List.range (min 8 l.d.lcores)).all fun i => decide (l.next.getD ((n + i) % l.d.lcores) 0 = n + i)

/-- The indices of teams that may be placed next: in deterministic mode one for each logical core; one block of eight for CLUSTER. -/
def Launch.nextTeams (l : Launch) : List Nat :=
  (l.next.filter fun n => decide (n < l.d.teams)).filter fun n => !l.d.cluster || (decide (n % 8 = 0) && (!l.d.det || l.blockNext n))

/-- A launch's candidates are teams, or under CLUSTER blocks named by their first index (R325). -/
def Launch.unit (l : Launch) (index : Nat) : Nat := if l.d.cluster then index / 8 * 8 else index

/-- Twinned teams whose second copy is still to be placed. -/
def State.seconds (s : State) (l : Launch) : List Nat :=
  (s.teams.filter fun t => decide (t.launch = l.key ∧ t.copy = 0) && !t.killed && l.d.twinned t.index && !l.second.contains t.index).map
    fun t => t.index

/-- The units of second copies still to be placed: under CLUSTER they go a block at a time, as the first ones do (R349). -/
def State.secondsDue (s : State) (l : Launch) : List Nat := ((s.seconds l).map l.unit).dedup

/-- The core of a team's first copy. -/
def State.firstCore (s : State) (l : Launch) (index : Nat) : Option Nat := (s.team? (teamKey l.key index 0)).map fun t => t.core

/-- The launch's teams in state WAITING that come first. -/
def State.waiting (s : State) (l : Launch) : List Cand :=
  if !s.placing l then []
  else
    (if s.opening l then l.nextTeams.map fun n => ({ launch := l.key, index := n, copy := 0, back := false } : Cand) else []) ++
    (s.secondsDue l).map fun n => ({ launch := l.key, index := n, copy := 1, back := false } : Cand)

/-- The launch's SWAPPED teams on a core that may return. -/
def State.returning (s : State) (l : Launch) (core : Nat) : List Team :=
  if !s.placing l then []
  else s.teams.filter fun t => decide (t.launch = l.key ∧ t.core = core ∧ t.place = .swapped) && !t.killed && !t.orderHeld

/-- The core that runs a logical core (R345). -/
def State.detCore (s : State) (part lcore : Nat) : Nat :=
  let cs := s.partCores part
  cs.getD (lcore % cs.length) 0

/-- The core after a core within its partition, modulo P (R349). -/
def State.coreAfter (s : State) (core : Nat) : Nat :=
  let cs := s.partCores (s.dieParts.getD (dieOf core) 0)
  cs.getD ((s.coreIndex core + 1) % cs.length) 0

/-- The teams that a candidate places when it goes to a core, each with its core: itself, or those of its block on the cluster (R152, R345, R349). (log 94, DEDUCED) -/
def State.places (s : State) (l : Launch) (c : Cand) (core : Nat) : List (Nat × Nat) :=
  let part := match s.ctx? l.ctx with | some x => x.part | none => 0
  let due := s.seconds l
  let mine := (if l.d.cluster then (List.range 8).map fun i => c.index + i else [c.index]).filter fun n => c.copy = 0 || due.contains n
  mine.map fun n =>
    (n, if l.d.det then
          (if c.copy = 0 then s.detCore part (n % l.d.lcores) else (match s.firstCore l n with | some f => s.coreAfter f | none => 256))
        else if l.d.cluster then 8 * clusterOf core + n % 8
        else core)

/-- A core may take a team of a launch: it is in the partition, on no die that is being removed (R333). -/
def State.coreOpen (s : State) (l : Launch) (core : Nat) : Bool :=
  match s.ctx? l.ctx with
  | none => false
  | some x => decide (core < 256 ∧ s.dieParts.getD (dieOf core) 0 = x.part) && !s.removing.contains (dieOf core)

/-- A waiting team, or one of a waiting block, may be placed on a core of its partition: where R345, R349 and R152 put it. A second copy goes to another core, and a block of second copies to another cluster. -/
def State.mayGo (s : State) (l : Launch) (c : Cand) (core : Nat) : Bool :=
  let ps := s.places l c core
  (ps.any fun p => decide (p.2 = core)) && (ps.all fun p => s.coreOpen l p.2) &&
  (l.d.det || decide (c.copy = 0) || ps.all fun p => match s.firstCore l p.1 with
    | some f => decide (p.2 ≠ f) && (!l.d.cluster || decide (clusterOf p.2 ≠ clusterOf f))
    | none => false)

/-! ### Room (R79, R80, R326) -/

/-- Free group slots of a pipe (R13). -/
def State.freePipe (s : State) (core pipe : Nat) : Nat :=
  16 - ((s.teams.filter fun t => decide (t.core = core ∧ t.place = .resident)).map fun t =>
    (t.groups.filter fun g => decide (g.pipe = pipe)).length).sum

def State.freePipes (s : State) (core : Nat) : List Nat := (List.range 4).map (s.freePipe core)

/-- Reserve segments that a placement claims beside any that it reinstates: the context's first when it holds none on the core, and the shortfall of RSVX (R80, R319, R327). (log 28, DEDUCED) -/
def State.reserveNeed (s : State) (core ctx rsvx : Nat) : Nat × Nat :=
  let held := s.reservesOf core ctx
  (if held.isEmpty then 1 else 0, rsvx - (held.filter fun r => decide (r.kind = 1)).length)

/-- A new team with given group counts fits on a core (R80). -/
def State.fitsWith (s : State) (d : KDesc) (ctx core : Nat) (counts : List Nat) : Bool :=
  let r := s.reserveNeed core ctx d.rsvx
  decide (counts.sum ≤ 16) && decide (counts.sum ≤ (s.freePipes core).sum) && s.roomFor ctx core (d.segsFor counts + r.1 + r.2)

/-- One role of a round of R326 gives up a group if it is above its minimum. -/
def dropGroup (gmins counts : List Nat) (r : Nat) : Option (List Nat) :=
  if gmins.getD r 0 < counts.getD r 0 then some (counts.set r (counts.getD r 0 - 1)) else none

/-- The group counts that the rounds of R326 try after the first, in order. -/
def countRounds (gmins : List Nat) : Nat → List Nat → List (List Nat)
  | 0, _ => []
  | n + 1, counts =>
    let step := fun (acc : List (List Nat) × List Nat) (r : Nat) =>
      match dropGroup gmins acc.2 r with
      | some c => (acc.1 ++ [c], c)
      | none => acc
    let r := [3, 2, 1, 0].foldl step (([] : List (List Nat)), counts)
    if r.1.isEmpty then [] else r.1 ++ countRounds gmins n r.2

/-- The group counts a role set may take, in the order they are tried (R326). -/
def KDesc.tries (d : KDesc) : List (List Nat) := if d.det then [d.gmaxs] else d.gmaxs :: countRounds d.gmins 16 d.gmaxs

/-- The group counts that a team may take: a twin's second copy takes the first one's, so that both see the same system values (R349). -/
def Launch.triesFor (l : Launch) (index copy : Nat) : List (List Nat) :=
  match (if copy = 1 then l.counts.find? fun x => decide (x.1 = index) else none) with
  | some x => [x.2]
  | none => l.d.tries

/-- The group counts with which a new team fits on a core. -/
def State.fitCounts (s : State) (l : Launch) (index copy core : Nat) : Option (List Nat) := (l.triesFor index copy).find? (s.fitsWith l.d l.ctx core)

/-! ### A new team (R49, R71, R326, R327) -/

/-- A group's threads as they start: their reads do not precede the launch's acceptance or its dependencies (R217, R323). -/
def newThreads (pc : DWord) (now since : Nat) : List Thread := (List.range 64).map fun l => { lane := l, pc := pc, stamp := now, floor := since }

/-- The pipe with the most free group slots, the lower on a tie (R326). -/
def bestPipe (free : List Nat) : Nat :=
  (List.range 4).foldl (fun b p => if free.getD b 0 < free.getD p 0 then p else b) 0

/-- The pipes that groups take, one after another. -/
def choosePipes : Nat → List Nat → List Nat
  | 0, _ => []
  | n + 1, free => let p := bestPipe free; p :: choosePipes n (free.set p (free.getD p 0 - 1))

/-- The roles of groups 0, 1, … (R49). -/
def rolesOf (counts : List Nat) : List Nat := (List.range 4).flatMap fun r => List.replicate (counts.getD r 0) r

/-- The groups of a new team. -/
def newGroups (d : KDesc) (counts pipes : List Nat) (now since : Nat) : List Group :=
  ((rolesOf counts).zip pipes).zipIdx.map fun x =>
    { num := x.2, role := x.1.1, pipe := x.1.2, masks := List.replicate 12 {}, cs := List.replicate 4 0,
      threads := newThreads (BitVec.ofNat 64 (d.code + (d.role x.1.1).entry)) now since }

/-- A new team on its core: windows and s registers zero, barriers expecting every thread. -/
def newTeam (l : Launch) (c : Cand) (core lcore : Nat) (counts pipes phys : List Nat) (cycle now : Nat) : Team :=
  { key := c.key, ctx := l.ctx, launch := l.key, index := c.index, copy := c.copy, core := core, lcore := lcore, place := .resident,
    placedAt := now, parkedSince := cycle, groups := newGroups l.d counts pipes now l.since,
    segs := phys.zipIdx.map fun x => { index := x.2, phys := x.1 },
    barriers := List.replicate 16 { n := 64 * counts.sum } }

/-- Add reserve segments of one kind. -/
def State.addReserves (s : State) (core ctx kind : Nat) (phys : List Nat) : State :=
  phys.foldl (fun s p =>
    let f := s.fresh
    { f.2 with reserves := f.2.reserves ++ [{ id := f.1, core := core, ctx := ctx, phys := p, kind := kind }] }) s

/-- The Thaw mark is set when a context becomes resident on a core (R329). -/
def State.markThaw (s : State) (core ctx : Nat) : State :=
  { s with thaw := (core, ctx, s.clk.cycle.toNat) :: s.thaw.filter fun x => !decide (x.1 = core ∧ x.2.1 = ctx) }

/-- Some team of a context is resident on a core. -/
def State.residentOn (s : State) (core ctx : Nat) : Bool :=
  s.teams.any fun t => decide (t.core = core ∧ t.ctx = ctx ∧ t.place = .resident)

/-- Teams that the Thaw swap had taken off a core may come back to it. -/
def State.unskip (s : State) (core : Nat) : State :=
  { s with teams := updWhere (fun t => decide (t.core = core)) (fun t => { t with skip := false }) s.teams }

/-- The launch's record of what it has placed, with a twin's group counts until its second copy has taken them. -/
def Launch.placed (l : Launch) (c : Cand) (counts : List Nat) : Launch :=
  if c.copy = 1 then { l with second := l.second ++ [c.index], counts := l.counts.filter fun x => decide (x.1 ≠ c.index) }
  else
    { l with
      next := if l.d.det then l.next.set (c.index % l.d.lcores) (c.index + l.d.lcores) else [c.index + 1],
      counts := if l.d.twinned c.index then l.counts ++ [(c.index, counts)] else l.counts }

/-- sv.lcore of a new team (R50): its core's index, and for both copies of a twin the first one's (R349). -/
def State.lcoreFor (s : State) (c : Cand) (core : Nat) : Nat :=
  match (if c.copy = 1 then s.team? (teamKey c.launch c.index 0) else none) with
  | some t => t.lcore
  | none => s.coreIndex core

/-- Place a new team on a core, once; none when its segments could not be had, with what the claim has left behind. -/
def State.placeNew (s : State) (dry : Bool) (l : Launch) (c : Cand) (core : Nat) : Bool × State :=
  match (if (s.team? c.key).isSome then none else s.fitCounts l c.index c.copy core) with
  | none => (false, s)
  | some counts =>
    let n := l.d.segsFor counts
    let r := s.reserveNeed core l.ctx l.d.rsvx
    match s.claim l.ctx core (n + r.1 + r.2) dry with
    | (none, s) => (false, s)
    | (some phys, s) =>
      let s := if s.residentOn core l.ctx then s else s.markThaw core l.ctx
      let s := (s.addReserves core l.ctx 0 ((phys.drop n).take r.1)).addReserves core l.ctx 1 (phys.drop (n + r.1))
      let f := s.fresh
      let t := newTeam l c core (f.2.lcoreFor c core) counts (choosePipes counts.sum (f.2.freePipes core)) (phys.take n) s.clk.cycle.toNat s.clk.acycle
      let s := ({ f.2 with teams := f.2.teams ++ [{ t with placedAt := f.1 }] }).updLaunch l.key fun l => l.placed c counts
      (true, s.unskip core)

/-! ### A team that returns (R48, R82, R90, R328) -/

/-- The reserve segments that hold a team's frames. -/
def Team.frameHomes (t : Team) : List Nat := t.groups.filterMap fun g => g.frame.map fun f => f.1

/-- The state with a team back on its core, but for its evicted segments, which have no place there yet, and the evicted reserve segments of its frames. What is evicted keeps its save slots (R89). -/
def State.halfBack (s : State) (t : Team) : State :=
  let homes := t.frameHomes
  { (s.updTeam t.key fun t => { t with place := .resident, segs := t.segs.map fun g => if g.saved.isSome then { g with phys := 64 } else g }) with
    reserves := s.reserves.map fun r =>
      if homes.contains r.id && !(r.tagged && r.saved.isSome) then { r with tagged := false, stuck := false } else r }

/-- Evicted reserve segments that a team's return reinstates. -/
def State.reinstates (s : State) (t : Team) : List RSeg :=
  s.reserves.filter fun r => t.frameHomes.contains r.id && r.tagged && r.saved.isSome

/-- Segments a return claims: the team's evicted ones, reinstated reserve segments, the context's first, and the shortfall of RSVX. -/
def State.backNeed (s : State) (t : Team) : Nat × Nat × Nat × Nat :=
  let back := (s.reinstates t).length
  let r := (s.halfBack t).reserveNeed t.core t.ctx (s.descOf t).rsvx
  ((t.segs.filter fun g => g.saved.isSome).length, back, r.1, r.2)

/-- A SWAPPED team fits on its core again, on the pipes it had. -/
def State.fitsBack (s : State) (t : Team) : Bool :=
  let n := s.backNeed t
  (List.range 4).all (fun p => decide ((t.groups.filter fun g => decide (g.pipe = p)).length ≤ s.freePipe t.core p)) &&
  (s.halfBack t).roomFor t.ctx t.core (n.1 + n.2.1 + n.2.2.1 + n.2.2.2)

/-- Give new physical segments to the evicted ones. -/
def rehome : List Seg → List Nat → List Seg
  | [], _ => []
  | g :: gs, ps =>
    if g.saved.isSome then { g with phys := ps.headD 0, stuck := false } :: rehome gs ps.tail
    else { g with stuck := false } :: rehome gs ps

/-- A reserve segment that a return reinstates, in its new place. It stays missing until it is touched; beside a new first one it is an extra one (R82). -/
def RSeg.reinstated (r : RSeg) (phys : Nat) (extra : Bool) : RSeg :=
  { r with phys := phys, tagged := false, stuck := false, kind := if extra && decide (r.kind = 0) then 2 else r.kind }

/-- Re-place a SWAPPED team: its evicted segments are missing until they are touched, and SIGW reads its word again (R245). -/
def State.placeBack (s : State) (t : Team) : Bool × State :=
  if !s.fitsBack t then (false, s)
  else
    let n := s.backNeed t
    let gone := (s.reinstates t).map fun r => r.id
    match (s.halfBack t).claim t.ctx t.core (n.1 + n.2.1 + n.2.2.1 + n.2.2.2) with
    | (none, u) =>
      -- what the claim has left behind stays; the team does not move
      let homes := t.frameHomes
      (false, { (u.updTeam t.key fun x => { x with place := .swapped, segs := t.segs }) with
        reserves := u.reserves.map fun r =>
          match s.reserves.find? fun q => decide (q.id = r.id) with
          | some q => if homes.contains r.id then { r with tagged := q.tagged, stuck := q.stuck } else r
          | none => r })
    | (some phys, u) =>
      let u := if s.residentOn t.core t.ctx then u else u.markThaw t.core t.ctx
      let u := u.updTeam t.key fun x => { x with segs := rehome t.segs phys, skip := false, parkedSince := u.clk.cycle.toNat }
      let rest := phys.drop n.1
      let u : State := { u with reserves := u.reserves.map fun r =>
        match (gone.zip rest).find? fun x => decide (x.1 = r.id) with
        | some x => r.reinstated x.2 (decide (0 < n.2.2.1))
        | none => r }
      let rest := rest.drop n.2.1
      let u := (u.addReserves t.core t.ctx 0 (rest.take n.2.2.1)).addReserves t.core t.ctx 1 (rest.drop n.2.2.1)
      let f := u.fresh
      let u := (f.2.updTeam t.key fun x => { x with placedAt := f.1 }).wakeTeam t.key fun k => match k with | .sector _ => true | _ => false
      (true, u.unskip t.core)

/-! ### Leaving a core (R82, R332) -/

/-- The latest time at which an owner of a reserve segment left the core (R82). -/
def State.ownersLeft (s : State) (r : RSeg) : Nat :=
  ((s.framesIn r).map fun f => match s.team? f.1 with | some t => t.swappedAt | none => 0).foldl max 0

/-- When a context's last resident team has left a core, reserve segments with frames become owner-tagged and the others go free (R78, R82). -/
def State.settleReserves (s : State) (core ctx : Nat) : State :=
  if s.residentOn core ctx then
    { s with reserves := s.reserves.filter fun r => !(decide (r.core = core ∧ r.ctx = ctx) && r.tagged && (s.framesIn r).isEmpty) }
  else
    { s with reserves := (s.reserves.filter fun r =>
        !(decide (r.core = core ∧ r.ctx = ctx) && (s.framesIn r).isEmpty)).map fun r =>
          if r.core = core ∧ r.ctx = ctx ∧ r.tagged = false then { r with tagged := true, taggedAt := s.ownersLeft r } else r }

/-- A long result waits for the wave of its word, which is not ready and cannot become so while the threads stand still (R346). -/
def Team.waveLong (t : Team) (id : Nat) : Bool :=
  t.waveOps.any fun o => (decide (o.long = id) || o.peers.any fun p => decide (p.2 = id)) && !t.waveReady o.wave

/-- A long result belongs to an access that comes after such a wave's words (R225). -/
def Team.lsuLong (t : Team) (id : Nat) : Bool := (t.lsu.any fun o => decide (o.long = id)) && t.waveOps.any fun o => !t.waveReady o.wave

/-- A scan of the team runs, and its whole tile completes first (R197, R400). -/
def State.scanning (s : State) (t : Team) : Bool :=
  s.cmds.any fun c => decide (c.team = t.key ∧ c.code = 0xE9) && (decide (c.stage = .running) || decide (c.stage = .consumed))

/-- No scan of a team runs, and every long result of its threads can land now, but for those that wait for a wave that their standing threads keep back: pre-emption may take the team off (R332). (log 29, DEDUCED) -/
def State.canLeave (s : State) (t : Team) : Bool :=
  !s.scanning t && t.groups.all fun g => g.threads.all fun th => th.longs.all fun l =>
    t.waveLong l.id || t.lsuLong l.id ||
      (l.ready && (s.landTouch { team := t.key, group := g.num, lane := th.lane } l).isNone &&
        !s.landLocked { team := t.key, group := g.num, lane := th.lane } l)

/-- Land every long result of a team that can land (R332). -/
def State.landTeam (s : State) (t : Team) : State :=
  t.groups.foldl (fun s g => g.threads.foldl (fun s th =>
    let id : Tid := { team := t.key, group := g.num, lane := th.lane }
    (th.longs.filter fun l => l.ready).foldl (fun s l => (s.landLong id l.id).landed id) s) s) s

/-- Take a team off its core. -/
def State.takeOff (s : State) (key : Nat) : State :=
  match s.team? key with
  | none => s
  | some t =>
    if t.place ≠ .resident then s
    else
      let s := s.landTeam t
      let f := s.fresh
      (f.2.updTeam key fun t => { t with place := .swapped, swappedAt := f.1 }).settleReserves t.core t.ctx

/-! ### The choice of a core (R325) -/

/-- Place the new teams of a candidate, one after another; the first that cannot be placed stops it. -/
def State.placeEach (s : State) (dry : Bool) (l : Launch) (c : Cand) (core : Nat) : Bool × State :=
  (s.places l c core).foldl (fun acc p =>
    if !acc.1 then acc else acc.2.placeNew dry ((acc.2.launch? l.key).getD l) { c with index := p.1 } p.2) (true, s)

/-- Take back what a block has placed when one of its teams could not be: what its claims have evicted, and what could not be saved, stays (R89 step 5). -/
def State.retract (r s : State) : State :=
  { r with
    teams := (r.teams.filter fun t => (s.team? t.key).isSome).map fun t =>
      match s.team? t.key with | some u => { t with skip := u.skip } | none => t
    reserves := r.reserves.filter fun x => s.reserves.any fun y => decide (y.id = x.id), launches := s.launches, thaw := s.thaw }

/-- Place a candidate: one that returns, or each of the teams that it stands for. A block fits when each of its cores takes its team. -/
def State.placeCand (s : State) (l : Launch) (c : Cand) (core : Nat) : Bool × State :=
  if c.back then
    match s.team? c.key with
    | some t => s.placeBack t
    | none => (false, s)
  else
    let r := s.placeEach false l c core
    if r.1 then r else (false, r.2.retract s)

/-- A team of a candidate fits on its core. -/
def State.fitsAt (s : State) (l : Launch) (c : Cand) (p : Nat × Nat) : Bool := (s.fitCounts l p.1 c.copy p.2).isSome

/-- A candidate fits on a core, as it stands. The teams of a block are tried one after another, which may share a core (R345). -/
def State.fitsCand (s : State) (l : Launch) (c : Cand) (core : Nat) : Bool :=
  if c.back then (match s.team? c.key with | some t => s.fitsBack t | none => false)
  else if l.d.cluster then (s.placeEach true l c core).1
  else s.fitsAt l c (c.index, core)

/-- The candidate of a launch that comes first on a core, by index and copy. A team that the Thaw swap took off gives way to teams of its context not yet placed. -/
def State.headOn (s : State) (l : Launch) (core : Nat) : Option Cand :=
  let fresh := (s.waiting l).filter fun c => s.mayGo l c core
  let behind := s.launches.any fun m => decide (m.ctx = l.ctx) && (s.waiting m).any fun c => s.mayGo m c core
  let back := ((s.returning l core).filter fun t => !(t.skip && behind)).map fun t =>
    ({ launch := l.key, index := t.index, copy := t.copy, back := true } : Cand)
  (sortBy (fun (c : Cand) => 2 * c.index + c.copy) (fresh ++ back)).head?

/-- Launches in the order of the waiting list: by priority, highest first, then by sequence number. -/
def State.launchOrder (s : State) : List Launch :=
  sortBy (fun (l : Launch) => (7 - l.d.prio) * 2 ^ 32 + l.seq.toNat) s.launches

/-- A waiting team fits on no core on which it may be placed. -/
def State.stuck (s : State) (l : Launch) (c : Cand) (core : Nat) : Bool :=
  if c.back then !s.fitsCand l c core
  else !((List.range 256).any fun k => s.mayGo l c k && s.fitsCand l c k)

/-- Resident teams of other contexts with a lower priority on a core, in the order pre-emption takes them (R331). -/
def State.preemptable (s : State) (l : Launch) (core : Nat) : List Team :=
  let mine := s.teams.filter fun t => decide (t.core = core ∧ t.place = .resident ∧ t.ctx ≠ l.ctx) && !t.killed &&
    decide ((s.descOf t).prio < l.d.prio)
  sortBy (fun t => (s.descOf t).prio) (sortBy (fun t => s.nextId - t.placedAt) mine)

/-- Take off teams of a core one after another until a candidate's team fits there; none when all of them would not make room, or when one of them cannot leave yet. -/
def State.preemptFor (s : State) (l : Launch) (c : Cand) (p : Nat × Nat) : List Team → Option State
  | [] => none
  | t :: ts =>
    if !s.canLeave t then none
    else
      let s := s.takeOff t.key
      if s.fitsAt l c p then some s else s.preemptFor l c p ts

/-- Make room for a candidate on each core of its teams. -/
def State.preemptAll (l : Launch) (c : Cand) : List (Nat × Nat) → State → Option State
  | [], s => some s
  | p :: ps, s =>
    if s.fitsAt l c p then State.preemptAll l c ps s
    else (s.preemptFor l c p (s.preemptable l p.2)).bind (State.preemptAll l c ps)

/-- The state in which a core places a waiting team, after pre-emption where that is needed (R331). -/
def State.roomMade (s : State) (l : Launch) (c : Cand) (core : Nat) : Option State :=
  if s.fitsCand l c core then some s
  else if c.back then none
  else (State.preemptAll l c (s.places l c core) s).filter fun s => s.fitsCand l c core

/-- The first waiting team of the list that a core can take; one that fits nowhere keeps back launches of a lower priority. -/
def State.chooseFrom (s : State) (core : Nat) : List Launch → Option Nat → Option Cand
  | [], _ => none
  | l :: ls, bar =>
    if (match bar with | some p => decide (l.d.prio < p) | none => false) then s.chooseFrom core ls bar
    else
      match s.headOn l core with
      | none => s.chooseFrom core ls bar
      | some c =>
        if (s.roomMade l c core).isSome then some c
        else s.chooseFrom core ls (if s.stuck l c core then some (match bar with | some p => max p l.d.prio | none => l.d.prio) else bar)

/-- The team that a core places next. (log 26, DEDUCED) -/
def State.choose (s : State) (core : Nat) : Option Cand := s.chooseFrom core s.launchOrder none

/-- TEAM_PLACEMENT: a core places the first waiting team that fits, pre-empting where R331 lets it. (log 69, DEDUCED) -/
def execTeamPlacement (team core : Nat) (s : State) : Answer :=
  .next (match s.choose core with
    | none => s
    | some c =>
      if c.key ≠ team then s
      else
        match s.launch? c.launch with
        | none => s
        | some l =>
          match s.roomMade l c core with
          | none => s
          | some r => (r.placeCand l c core).2)

/-! ### The Thaw swap (R329) -/

/-- A team is PARKED: it is resident, it has live threads, and each of them is parked. -/
def Team.parked (t : Team) : Bool :=
  decide (t.place = .resident) && !t.allThreads.isEmpty && t.allThreads.all fun th => (th.waking || !th.parks.isEmpty) && !th.held

/-- 2^THAW cycles have passed since the context's Thaw mark on a core. -/
def State.thawDue (s : State) (core ctx : Nat) : Bool :=
  s.residentOn core ctx &&
  match s.thaw.find? fun x => decide (x.1 = core ∧ x.2.1 = ctx) with
  | some x => decide (2 ^ s.thawInForce core ctx ≤ s.clk.cycle.toNat - x.2.2)
  | none => false

/-- The first WAITING team of a context for a core. (log 27, DEDUCED) -/
def State.thawHead (s : State) (core ctx : Nat) : Option (Launch × Cand) :=
  (s.launchOrder.filter fun l => decide (l.ctx = ctx)).findSome? fun l =>
    ((sortBy (fun (c : Cand) => 2 * c.index + c.copy) ((s.waiting l).filter fun c => s.mayGo l c core)).head?).map fun c => (l, c)

/-- The PARKED team of a context that has been PARKED longest; ties go to the higher sequence number, then to the higher index. -/
def State.thawVictim (s : State) (core ctx : Nat) : Option Team :=
  let mine := s.teams.filter fun t => decide (t.core = core ∧ t.ctx = ctx) && t.parked && !t.killed
  (sortBy (fun t => t.parkedSince)
    (sortBy (fun t => 2 ^ 32 - (s.launchOf t).seq.toNat) (sortBy (fun t => 2 ^ 33 - t.index) mine))).head?

/-- A candidate's team for a core does not fit on it. -/
def State.lacksRoom (s : State) (l : Launch) (c : Cand) (core : Nat) : Bool :=
  (s.places l c core).any fun p => decide (p.2 = core) && !s.fitsAt l c p

/-- The Thaw swap can act. Under CLUSTER each core of a waiting block's cluster looks at its own team (R329, R330). -/
def State.thawReady (s : State) (core ctx : Nat) : Bool :=
  s.thawDue core ctx && (s.thawVictim core ctx).isSome &&
  (match s.thawHead core ctx with | some x => s.lacksRoom x.1 x.2 core | none => false)

/-- THAW_SWAP. -/
def execThawSwap (core ctx : Nat) (s : State) : Answer :=
  .next (match s.thawReady core ctx, s.thawHead core ctx, s.thawVictim core ctx with
    | true, some (l, c), some v =>
      let s := (s.takeOff v.key).updTeam v.key fun t => { t with skip := true }
      (if s.fitsCand l c core then (s.placeCand l c core).2 else s).markThaw core ctx
    | _, _, _ => s)

/-! ### Retirement (R328, R335, R351) -/

/-- Packets of a twin copy have not reached their rings: the writes they cause belong to its commit buffer (R350). -/
def State.packetsDue (s : State) (t : Team) : Bool :=
  s.isTwin t && !t.killed &&
  ((s.renqs.any fun p => (s.twinSender p).any fun u => decide (u.key = t.key)) || s.held.any fun h => (s.twinSender h.2).any fun u => decide (u.key = t.key))

/-- Every thread of a team has ended and every command of it is finished, with its token posted (R75, R264). -/
def State.spent (s : State) (t : Team) : Bool :=
  !s.packetsDue t && t.allThreads.isEmpty && t.waveOps.isEmpty && t.lsu.isEmpty && !(s.cmds.any fun c => decide (c.team = t.key) && c.unfinished)

/-- Free what a team holds on its core; its commands' records go. -/
def State.freeTeam (s : State) (t : Team) : State :=
  let s : State := { s with
    cmds := s.cmds.filter fun c => decide (c.team ≠ t.key),
    rrots := s.rrots.filter fun r => decide (r.team ≠ t.key),
    poolUe := s.poolUe.filter fun u => decide (u.1 ≠ t.key),
    locks := s.locks.filter fun l => decide (l.team ≠ t.key) }
  (s.settleReserves t.core t.ctx).unskip t.core

/-- A twin copy that has retired stays until its fellow has, with its commit buffer alone. -/
def Team.shell (t : Team) : Team :=
  { t with place := .retired, groups := [], pool := [], segs := [], absent := [], fills := [], guards := [], queues := [], tokens := [],
           hash := none, waveOps := [], lsu := [] }

/-- The order of Isobar's stream (R351). -/
def commitOrder (es : List CommitEntry) : List CommitEntry := sortBy (fun e => e.agent * 2 ^ 40 + e.order) es

/-- The bytes of an ordered stream of (address, width, data) that Isobar hashes. -/
def commitStream (es : List CommitEntry) : List Byte :=
  (commitOrder es).flatMap fun e => leBytes 8 e.addr ++ leBytes 4 e.bytes.length ++ e.bytes

/-- Isobar: both copies have retired. Equal streams are performed once; unequal ones are discarded, and the team counts as killed. (log 68, DEDUCED) -/
def State.isobar (s : State) (a b : Team) : State :=
  let gone := fun (s : State) => ({ s with teams := s.teams.filter fun t => decide (t.key ≠ a.key ∧ t.key ≠ b.key) } : State)
  if a.killed || b.killed then gone s
  else if sha256 (commitStream a.commit) = sha256 (commitStream b.commit) then
    (commitOrder a.commit).foldl (fun s e => (s.writeVa a.ctx e.addr e.bytes).2) (gone s)
  else gone ((s.errorRecord a fcTwinMismatch fcTwinMismatch 0 0 0).killTeam a.key fcTwinMismatch)

/-- TEAM_RETIRE. -/
def execTeamRetire (team : Nat) (s : State) : Answer :=
  .next (match s.team? team with
    | none => s
    | some t =>
      if t.place = .retired || !s.spent t then s
      else
        let twin := s.isTwin t
        let s := s.updTeam team Team.shell
        let s := s.freeTeam t
        let fellow := s.teams.find? fun u => decide (u.launch = t.launch ∧ u.index = t.index ∧ u.copy ≠ t.copy)
        let s := if !twin then ({ s with teams := s.teams.filter fun u => decide (u.key ≠ team) } : State)
          else match fellow with
            | some u => if u.place = .retired then (if t.copy = 0 then s.isobar t u else s.isobar u t) else s
            | none =>
              -- a killed copy whose fellow was never placed
              if t.killed then
                ({ s with teams := s.teams.filter fun u => decide (u.key ≠ team) } : State).updLaunch t.launch fun l =>
                  { l with second := l.second ++ [t.index] }
              else s
        s.completeDone.drainLaunches)

end Sys2Proof.Machine
end

