-- ==== Sys2Proof/Machine/HostRings.lean ====
section
/-! DEFINITION. Host work rings (R303): the tail write that the host ring monitor sees, the packets the launch unit takes, and SIGNAL stores. -/

namespace Sys2Proof.Machine

/-- The virtual address of a host work ring's descriptor (R321). -/
def State.hostDesc (s : State) (r : HostRing) : Nat :=
  match s.ctx? r.ctx with | some c => c.hrtab.toNat + 64 * r.ring | none => 0

def State.updHostRing (s : State) (ring : Nat) (f : HostRing → HostRing) : State :=
  { s with hostRings := updWhere (fun r => decide (r.ring = ring)) f s.hostRings }

/-- The host ring monitor sees a write to a ring's tail (R15, R303): the unit takes up the tail, and at first the head. (log 57, DEDUCED) -/
def State.seeTail (s : State) (r : HostRing) : State :=
  match s.readVa r.ctx (s.hostDesc r) 64 with
  | (.error _, s) => s
  | (.ok bs, s) =>
    s.updHostRing r.ring fun r =>
      { r with live := true, waits := false, tail := BitVec.ofNat 32 (u32At bs 0x14), head := if r.live then r.head else BitVec.ofNat 32 (u32At bs 0x10) }

/-- The rings whose tail field a write of a context covers in part. -/
def State.tailsWritten (s : State) (ctx va n : Nat) : List HostRing :=
  s.hostRings.filter fun r => decide (r.ctx = ctx) && meets va n (s.hostDesc r + 0x14) 4

/-- What the launch unit does with a packet. -/
inductive HostKind where
  | nop | launch | signal | skip
  deriving DecidableEq, Repr

/-- The kind of a packet in a slot, judged by all of R296, its payload with it. -/
def hostKind (slot : Nat) (ws : List Word) : HostKind :=
  let h := ws.getD 0 0
  let room := pktBytes h - 8 * pktSucc h
  if !pktOk slot ws then .skip
  else match pktType h with
    | 0 => .nop
    | 1 => if 16 ≤ room then .launch else .skip
    | 2 => if 25 ≤ room ∧ 4 ≤ fieldOf (ws.getD 6 0) 0 8 ∧ fieldOf (ws.getD 6 0) 0 8 ≤ 6 then .signal else .skip
    | _ => .skip

/-- What the unit finds at a ring's head: nothing to read, a read that fails, or a slot with its bytes, its words, and whether the packet there is written. -/
inductive HostSlot where
  | nothing
  | failed
  | slot (bytes : Nat) (words : List Word) (written : Bool)
  deriving DecidableEq, Repr

/-- The slot at a ring's head (R303). -/
def State.hostSlot (s : State) (r : HostRing) : HostSlot × State :=
  if !r.live || r.waits || decide (r.head = r.tail) then (.nothing, s)
  else
    match s.readVa r.ctx (s.hostDesc r) 64 with
    | (.error _, s) => (.failed, s)
    | (.ok bs, s) =>
      if !ringDescOk bs then (.nothing, s)
      else
        let d := u8At bs 8
        let slot := 2 ^ u8At bs 9
        match s.readVa r.ctx (u64At bs 0 + slot * (r.head.toNat % 2 ^ d)) slot with
        | (.error _, s) => (.failed, s)
        | (.ok ps, s) =>
          let ws := wordsOf ps
          (.slot slot ws (decide ((ws.getD 0 0).getLsbD 11 = phaseOf d r.head)), s)

/-- The packet at a ring's head, once it is written: the ring, its kind and its words. -/
def State.hostPacket (s : State) (ring : Nat) : Option (HostRing × HostKind × List Word) × State :=
  match s.hostRings.find? fun r => decide (r.ring = ring) with
  | none => (none, s)
  | some r =>
    match s.hostSlot r with
    | (.slot slot ws true, s) => (some (r, hostKind slot ws, ws), s)
    | (_, s) => (none, s)

/-- The unit reads the slot at a ring's head, or has not read it yet, as a free value decides: one that it finds not yet written makes the ring wait for the next tail write (R303). So does one that cannot be read, whose record stays (R15, R235). (log 57, DEDUCED) -/
def State.lookAt (s : State) (r : HostRing) : State :=
  match s.hostSlot r with
  | (.slot _ _ false, _) => let f := s.flip; if f.1 then f.2.updHostRing r.ring fun r => { r with waits := true } else f.2
  | (.failed, s) => s.updHostRing r.ring fun r => { r with waits := true }
  | _ => s

/-- The unit looks at every host work ring. -/
def State.lookAtRings (s : State) : State := s.hostRings.foldl (fun s r => s.lookAt r) s

/-- The unit has taken a packet: it writes the new head, with release. -/
def State.hostAdvance (s : State) (r : HostRing) : State :=
  let s := s.updHostRing r.ring fun r => { r with head := r.head + 1 }
  (s.writeVa r.ctx (s.hostDesc r + 0x10) (leBytes 4 (r.head + 1).toNat)).2

/-- HOST_NOP. -/
def execHostNop (ring : Nat) (s : State) : Answer :=
  .next (match s.hostPacket ring with
    | (some (r, .nop, _), s) => s.hostAdvance r
    | (_, s) => s)

/-- HOST_LAUNCH: accepted or refused, in ring order; it waits for a launch slot (R322). -/
def execHostLaunch (ring : Nat) (s : State) : Answer :=
  .next (match s.hostPacket ring with
    | (some (r, .launch, ws), u) =>
      if !s.launchRoom r.ctx then s
      else
        let h : HostOrigin := { ring := ring, index := r.head, succs := successors ws }
        (u.acceptLaunch r.ctx (wordPair ws 2) (some h)).2.hostAdvance r
    | (_, s) => s)

/-- HOST_SIGNAL: the store waits for the earlier launches of the ring. -/
def execHostSignal (ring : Nat) (s : State) : Answer :=
  .next (match s.hostPacket ring with
    | (some (r, .signal, ws), s) =>
      let f := s.fresh
      let g : HostSignal :=
        { id := f.1, ring := ring, ctx := r.ctx, index := r.head, addr := BitVec.ofNat 64 (wordPair ws 2), val := BitVec.ofNat 64 (wordPair ws 4),
          scope := fieldOf (ws.getD 6 0) 0 8,
          after := (s.launches.filter fun l => decide (l.host.map (fun h => h.ring) = some ring)).map fun l => l.key,
          succs := successors ws }
      ({ f.2 with hostSignals := f.2.hostSignals ++ [g] } : State).hostAdvance r
    | (_, s) => s)

/-- SIGNAL_STORE: the value is stored with its release, and the notices go out. -/
def execSignalStore (id : Nat) (s : State) : Answer :=
  .next (match s.hostSignals.find? fun g => decide (g.id = id) with
    | none => s
    | some g =>
      if !g.after.isEmpty then s
      else
        let s : State := { s with hostSignals := s.hostSignals.filter fun x => decide (x.id ≠ id) }
        match s.writeVa g.ctx g.addr.toNat (leBytes 8 g.val.toNat) with
        | (.ok _, s) => s.notices g.ctx g.ring g.index g.succs 0
        | (.error _, s) => s)

/-- HOST_PACKET_SKIPPED: RING_CFG to the context's event ring, with the ring number and the index. -/
def execHostPacketSkipped (ring : Nat) (s : State) : Answer :=
  .next (match s.hostPacket ring with
    | (some (r, .skip, _), s) =>
      let ev := match s.ctx? r.ctx with | some c => c.evring | none => 0
      (s.postPacket r.ctx ev 0 (taskHeader 0 0 0 (BitVec.ofNat 32 fcRingCfg) ++ [BitVec.ofNat 32 ring, r.head])).hostAdvance r
    | (_, s) => s)

end Sys2Proof.Machine
end

