-- ==== Sys2Proof/Machine/System.lean ====
section
/-! DEFINITION. SEEDW (R341) and PMON (R375), with the monitors they reach (R374). -/

namespace Sys2Proof.Machine

/-! ### SEEDW -/

/-- SEEDW: one write for the word, in the context's acceptance order; held while a launch of the context waits to be accepted before it. -/
def execSeedw (h : Hdr) (a : Reg) (s : State) : Answer :=
  .next (s.word h { ops := [Opd.vsk a 2], illOp := fun s t => !(s.descOfTid t).seedcap } fun act s =>
    match act with
    | [] => some s
    | t :: _ =>
      let ctx := (s.who t).ctx
      if s.launchWaits.any fun q => decide (q.ctx = ctx) then none
      else some (s.updCtx ctx fun c => { c with seed := BitVec.ofNat 64 (wordPair (s.opVals t a 2) 0) }))

/-! ### Monitors -/

/-- A monitor as it is armed (R374). -/
def Monitor.arm (m : Monitor) : Monitor :=
  { m with state := 1, count := 0, sum := 0, min := 0xFFFFFFFF, max := 0, bins := List.replicate 16 0 }

/-- A monitor as it is frozen. -/
def Monitor.freeze (m : Monitor) : Monitor := { m with state := 2 }

/-- The monitor that a number names for a thread: 0 to 63 on its own die, 64 to 71 on the X-die (log 14, DESIGN CHOICE). -/
def State.monitorOf (s : State) (t : Tid) (n : Nat) : Nat := if n < 64 then 64 * dieOf (s.who t).core + n else 448 + n

/-- A field of a monitor by selector. -/
def Monitor.field (m : Monitor) (sel : Nat) : Word :=
  match sel with
  | 0 => BitVec.ofNat 32 m.count
  | 1 => BitVec.ofNat 32 (m.count / 2 ^ 32)
  | 2 => BitVec.ofNat 32 m.sum
  | 3 => BitVec.ofNat 32 (m.sum / 2 ^ 32)
  | 4 => m.min
  | 5 => m.max
  | 6 => m.src
  | 7 => BitVec.ofNat 32 m.state
  | n => BitVec.ofNat 32 (m.bins.getD (n - 16) 0)

/-- A PMON word: one operation with the lowest active lane's operands; a number above 71 raises ILLEGAL_OP. -/
def State.pmon (s : State) (h : Hdr) (k : Checks) (a : Reg) (f : State → List Tid → Tid → Nat → State) : State :=
  s.word h k fun act s =>
    match act with
    | [] => some s
    | t :: _ =>
      let n := ((s.opVals t a 1).getD 0 0).toNat
      if 71 < n then some (s.trapAll act fcIllegalOp) else some (f s act t (s.monitorOf t n))

/-- A monitor is assigned to a thread's context. -/
def State.ownsMonitor (s : State) (t : Tid) (n : Nat) : Bool := decide ((s.monitor n).owner = some (s.who t).ctx)

/-- PMON.read: 0 from a monitor of another owner. -/
def execPmonRead (h : Hdr) (o : PmonF) (s : State) : Answer :=
  .next (s.pmon h { ops := [Opd.dvs o.d, Opd.sk o.a], illOp := fun _ _ => decide (8 ≤ o.sel.toNat ∧ o.sel.toNat < 16) } o.a
    fun s act t n =>
      let v := if s.ownsMonitor t n then (s.monitor n).field o.sel.toNat else 0
      act.foldl (fun s u => (s.result u true o.d [v]).1) s)

/-- PMON.arm. -/
def execPmonArm (h : Hdr) (a : Reg) (s : State) : Answer :=
  .next (s.pmon h { ops := [Opd.sk a] } a fun s _ t n => if s.ownsMonitor t n then s.setMonitor (s.monitor n).arm else s)

/-- PMON.freeze. -/
def execPmonFreeze (h : Hdr) (a : Reg) (s : State) : Answer :=
  .next (s.pmon h { ops := [Opd.sk a] } a fun s _ t n => if s.ownsMonitor t n then s.setMonitor (s.monitor n).freeze else s)

end Sys2Proof.Machine
end

