-- ==== Sys2Proof/Machine/Orders.lean ====
section
/-! DEFINITION. The orders of the command path (R380): contexts (R321), pre-emption (R332), kills (R335), checkpoints and restores (R352 to R354), partition changes (R333), assignments, and the mailbox. -/

namespace Sys2Proof

/-- Operand fields of an order, by offset from 0x08. -/
def OrderRec.u8 (o : OrderRec) (i : Nat) : Nat := Machine.u8At o.opnds i
def OrderRec.u16 (o : OrderRec) (i : Nat) : Nat := Machine.u16At o.opnds i
def OrderRec.u32 (o : OrderRec) (i : Nat) : Nat := Machine.u32At o.opnds i
def OrderRec.u64 (o : OrderRec) (i : Nat) : Nat := Machine.u64At o.opnds i

end Sys2Proof

namespace Sys2Proof.Machine

/-! ### The course of an order -/

/-- A performed order: its result and its KIND 8 record. -/
def State.performed (s : State) (path : OrderPath) (ctx : Nat) (seq : Word) (value : Nat) : State :=
  (s.send (.orderResult path seq 0 (BitVec.ofNat 64 value))).mail 8 0 ctx 0 0 0 0 (leBytes 4 seq.toNat ++ leBytes 4 0 ++ leBytes 8 value)

/-- A refused order: its result and its KIND 5 record. -/
def State.refusedOrder (s : State) (path : OrderPath) (ctx : Nat) (seq : Word) (code : Nat) : State :=
  (s.send (.orderResult path seq code 0)).mail 5 code ctx 0 0 0 0 (leBytes 4 seq.toNat ++ leBytes 4 code)

/-- Whether an order names no context, names one, or needs one that is registered. -/
inductive Names where
  | none | slot | registered
  deriving DecidableEq, Repr

/-- What an order's body answers: performed with a value, which further messages may follow, refused with a code, or performed later. -/
inductive Done where
  | value (v : Nat)
  | reply (v : Nat) (more : List OutMsg)
  | refuse (code : Nat)
  | later
  deriving DecidableEq, Repr

/-- The context of an order's records: 255 when it names none. (log 59, DEDUCED) -/
def ctxByteOf (o : OrderRec) (n : Names) : Nat := if n = .none ∨ 64 ≤ o.ctx.toNat then 255 else o.ctx.toNat

/-- The form of an order record: its code, its zero fields, and its context. -/
def State.orderForm (s : State) (o : OrderRec) (code used : Nat) (n : Names) : Bool :=
  decide (o.code.toNat = code ∧ o.rsv = 0) && (o.opnds.drop used).all (· == 0) &&
  (match n with
    | .none => decide (o.ctx = 0)
    | .slot => decide (o.ctx.toNat < 64)
    | .registered => (s.ctx? o.ctx.toNat).any fun c => c.releasing.isNone)

/-- The way by which an order comes: the management port, unless start step 4 was skipped, or a data port (R376, R380). -/
def Boot.pathOpen (b : Boot) : OrderPath → Bool
  | .management => !b.absentSteps.contains 4
  | .host => b.portsUp

/-- Perform an order: a record that breaks its form is refused with ILLEGAL_OP. No order comes by a port that is absent. -/
def State.order (s : State) (o : OrderRec) (code used : Nat) (n : Names) (f : State → Done × State) : State :=
  let ctx := ctxByteOf o n
  if !s.boot.pathOpen o.path then s
  else if !s.orderForm o code used n then s.refusedOrder o.path ctx o.seq fcIllegalOp
  else
    match f s with
    | (.value v, s) => s.performed o.path ctx o.seq v
    | (.reply v ms, s) => ms.foldl State.send (s.performed o.path ctx o.seq v)
    | (.refuse c, s) => s.refusedOrder o.path ctx o.seq c
    | (.later, s) => s

/-! ### Contexts (R321) -/

/-- What a context descriptor breaks, if anything. -/
def ctxDescBad (bs : List Byte) : Option Nat :=
  let lull := u32At bs 0x40
  if u64At bs 0 % 131072 ≠ 0 ∨ u64At bs 8 % 65536 ≠ 0 then some fcMisalign
  else if !(decide (16 ≤ lull % 64 ∧ lull % 64 ≤ 40 ∧ lull / 64 % 4 = 0 ∧ lull / 512 = 0 ∧ u8At bs 0x50 ≤ 7) && zeroAt bs 0x51 175) then some fcIllegalOp
  else none

/-- A context as its descriptor gives it, over what it was. -/
def Ctx.describe (c : Ctx) (bs : List Byte) : Ctx :=
  let d := fun (o : Nat) => BitVec.ofNat 64 (u64At bs o)
  let w := fun (o : Nat) => BitVec.ofNat 32 (u32At bs o)
  { c with
    root := u64At bs 0, save := u64At bs 8, hentry := d 0x10, rsbase := d 0x18, rsspill := d 0x20, ovfl := d 0x28, hrtab := d 0x30,
    evring := w 0x38, erring := w 0x3C, lullW := u32At bs 0x40 % 64, lullKill := decide (u32At bs 0x40 / 256 % 2 = 1), clog := w 0x44,
    seed0 := d 0x48, seed := d 0x48, part := u8At bs 0x50 }

/-- A context that has never been registered, with its Lull count at the present cycle. (log 70, DEDUCED) -/
def State.newCtx (s : State) (id : Nat) : Ctx :=
  { id := id, root := 0, save := 0, hentry := 0, rsbase := 0, rsspill := 0, ovfl := 0, hrtab := 0, evring := 0, erring := 0, lullW := 16,
    lullKill := false, clog := 0, seed0 := 0, part := 0, seed := 0, lullStart := s.clk.cycle.toNat }

/-- Segments of a context that a failed save had kept may be claimed again (R89). -/
def State.unstick (s : State) (ctx : Nat) : State :=
  { s with
    teams := updWhere (fun t => decide (t.ctx = ctx)) (fun t => { t with segs := t.segs.map fun g => { g with stuck := false } }) s.teams,
    reserves := updWhere (fun r => decide (r.ctx = ctx)) (fun r => { r with stuck := false }) s.reserves }

/-- REGISTER_CONTEXT: a descriptor that cannot be read or breaks a limit leaves the context as it was. (log 92, DESIGN CHOICE) -/
def execRegisterContext (o : OrderRec) (s : State) : Answer :=
  .next (s.order o 0x01 8 .slot fun s =>
    let pa := o.u64 0
    let id := o.ctx.toNat
    if (s.ctx? id).any (fun c => c.releasing.isSome) then (.refuse fcIllegalOp, s)
    else if !(populated s.boot pa && populated s.boot (pa + 255)) then (.refuse fcMemUe, s)
    else if s.marked pa 256 then (.refuse fcMemUe, s.mailUe id (pa + s.markAt pa 256) 0 0)
    else
      let bs := s.readPhys pa 256
      match ctxDescBad bs with
      | some code => (.refuse code, s)
      | none =>
        let s := match s.ctx? id with
          | some _ => (s.updCtx id fun c => c.describe bs).unstick id
          | none => { s with contexts := s.contexts ++ [(s.newCtx id).describe bs] }
        (.value 0, s))

/-- Kill every incomplete launch that a test picks, with CAUSE 5: how many there were. -/
def State.killLaunches (s : State) (p : Launch → Bool) : Nat × State :=
  let ls := s.launches.filter p
  (ls.length, ((ls.foldl (fun s l => s.killGrid l.key 5 0) s).completeDone).drainLaunches)

/-- A context under release goes once its last launch has completed: its rings, host work rings and queue pairs are freed. (log 102, DEDUCED) -/
def State.finishRelease (s : State) (c : Ctx) : State :=
  match c.releasing with
  | none => s
  | some (path, seq) =>
    if s.launches.any (fun l => decide (l.ctx = c.id)) || s.teams.any (fun t => decide (t.ctx = c.id)) then s
    else
      let s := (s.rings.filter fun r => decide (r.ctx = c.id)).foldl (fun s r => s.dropRing r) s
      let s : State := { s with
        contexts := s.contexts.filter fun x => decide (x.id ≠ c.id),
        qps := s.qps.filter fun q => decide (q.ctx ≠ c.id),
        thaw := s.thaw.filter fun x => decide (x.2.1 ≠ c.id) }
      s.performed path c.id seq 0

/-- Finish every release that can be. -/
def State.finishReleases (s : State) : State := s.contexts.foldl (fun s c => s.finishRelease c) s

/-- RELEASE_CONTEXT: its launches are killed, and the rest follows when they have completed. -/
def execReleaseContext (o : OrderRec) (s : State) : Answer :=
  .next (s.order o 0x02 0 .registered fun s =>
    let id := o.ctx.toNat
    let s : State := { s with
      launchWaits := s.launchWaits.filter fun q => decide (q.ctx ≠ id),
      hostRings := s.hostRings.filter fun r => decide (r.ctx ≠ id),
      hostSignals := s.hostSignals.filter fun g => decide (g.ctx ≠ id) }
    let s := (s.killLaunches fun l => decide (l.ctx = id)).2
    (.later, (s.updCtx id fun c => { c with releasing := some (o.path, o.seq), preempted := false, ckpt := none }).finishReleases))

/-! ### Pre-emption (R332, R302) -/

/-- Take a team off its core and hold it there (R328). -/
def State.holdTeam (s : State) (key : Nat) : State := (s.takeOff key).updTeam key fun t => { t with orderHeld := true }

/-- The teams of a context that a pre-emption order takes off their cores. -/
def State.contextTeams (s : State) (ctx : Nat) : List Team :=
  s.teams.filter fun t => decide (t.ctx = ctx) && !t.killed && decide (t.place ≠ .retired)

/-- The launch of a context with a sequence number that has not completed. -/
def State.launchSeq (s : State) (ctx seq : Nat) : Option Launch :=
  s.launches.find? fun l => decide (l.ctx = ctx ∧ l.seq.toNat = seq)

/-- The team that an order 0x05 names: both copies of a twinned team. -/
def State.teamNamed (s : State) (o : OrderRec) : List Team :=
  match s.launchSeq o.ctx.toNat (o.u32 0) with
  | none => []
  | some l => s.teams.filter fun t => decide (t.launch = l.key ∧ t.index = o.u32 4) && !t.killed && decide (t.place ≠ .retired)

/-- Every team of some that is on a core can leave it: its outstanding long results have landed or can land now (R332). -/
def State.allLeave (s : State) (ts : List Team) : Bool := ts.all fun t => decide (t.place ≠ .resident) || s.canLeave t

/-- A pre-emption order of good form whose teams have long results outstanding: it goes on when they can land (R332). -/
def State.orderWaits (s : State) : Instr → Bool
  | .preemptContext o => s.orderForm o 0x03 0 .registered && !s.allLeave (s.contextTeams o.ctx.toNat)
  | .preemptTeam o => s.orderForm o 0x05 8 .registered && !s.allLeave (s.teamNamed o)
  | _ => false

/-- PREEMPT_CONTEXT: every team leaves its core, and the rings are written back and swapped. -/
def execPreemptContext (o : OrderRec) (s : State) : Answer :=
  .next (if s.orderWaits (.preemptContext o) then s
    else s.order o 0x03 0 .registered fun s =>
      let id := o.ctx.toNat
      let s := (s.contextTeams id).foldl (fun s t => s.holdTeam t.key) s
      let s := (s.rings.filter fun r => decide (r.ctx = id) && !r.swapped).foldl (fun s r => (s.writeBack r none).2) s
      let s : State := { s with rings := updWhere (fun r => decide (r.ctx = id)) (fun r => { r with swapped := true }) s.rings }
      (.value 0, s.updCtx id fun c => { c with preempted := true }))

/-- RESUME_CONTEXT. -/
def execResumeContext (o : OrderRec) (s : State) : Answer :=
  .next (s.order o 0x04 0 .registered fun s =>
    let id := o.ctx.toNat
    let s : State := { s with
      teams := updWhere (fun t => decide (t.ctx = id)) (fun t => { t with orderHeld := false }) s.teams,
      rings := updWhere (fun r => decide (r.ctx = id)) (fun r => { r with swapped := false }) s.rings }
    (.value 0, s.updCtx id fun c => { c with preempted := false }))

/-- PREEMPT_TEAM: both copies of a twinned team. A team that is on no core is refused. (log 58, DEDUCED) -/
def execPreemptTeam (o : OrderRec) (s : State) : Answer :=
  .next (if s.orderWaits (.preemptTeam o) then s
    else s.order o 0x05 8 .registered fun s =>
      match s.teamNamed o with
      | [] => (.refuse fcIllegalOp, s)
      | ts => (.value 0, ts.foldl (fun s t => s.holdTeam t.key) s))

/-- KILL. -/
def execKill (o : OrderRec) (s : State) : Answer :=
  .next (s.order o 0x06 4 .registered fun s =>
    let r := s.killLaunches fun l => decide (l.ctx = o.ctx.toNat) && (decide (o.u32 0 = 0xFFFFFFFF) || decide (l.seq.toNat = o.u32 0))
    (.value r.1, r.2))

/-- SET_SEED. -/
def execSetSeed (o : OrderRec) (s : State) : Answer :=
  .next (s.order o 0x07 8 .registered fun s => (.value 0, s.updCtx o.ctx.toNat fun c => { c with seed := BitVec.ofNat 64 (o.u64 0) }))

/-! ### Checkpoints (R352 to R354) -/

/-- CHECKPOINT: placement stops until the boundary. -/
def execCheckpoint (o : OrderRec) (s : State) : Answer :=
  .next (s.order o 0x08 8 .registered fun s =>
    if (s.ctx? o.ctx.toNat).any fun c => c.ckpt.isSome then (.refuse fcIllegalOp, s)
    else (.later, s.updCtx o.ctx.toNat fun c => { c with ckpt := some (BitVec.ofNat 64 (o.u64 0), o.path, o.seq) }))

/-- The boundary of R352: no team of the context is unretired, and no launch that is begun and not deterministic has teams left to place. -/
def State.atBoundary (s : State) (ctx : Nat) : Bool :=
  !(s.teams.any fun t => decide (t.ctx = ctx)) &&
  (s.launches.all fun l => decide (l.ctx ≠ ctx) || l.d.det || l.dropped || decide (l.next = [0]) || l.next.all fun n => decide (l.d.teams ≤ n))

/-- The valid leaves under a table: virtual address, size and leaf (R199 to R201). -/
def State.leavesUnder (s : State) : List (Nat × Nat) → Nat → Nat → List (Nat × Nat × DWord)
  | [], _, _ => []
  | (sh, w) :: rest, table, va =>
    (List.range (2 ^ w)).flatMap fun i =>
      let e := s.entry (table + 8 * i)
      if !leafV e then []
      else if leafT e then s.leavesUnder rest ((e.extractLsb' 8 40).toNat * 256) (va + i * 2 ^ sh)
      else [(va + i * 2 ^ sh, 2 ^ sh, e)]

/-- A leaf without PA and HOME. -/
def leafLogical (l : DWord) : DWord := l &&& ~~~(0x0000FFFFFFFF0000 ||| 0x1E00)

/-- The mapped pages of a context, with their bytes that are not 0; pages of remote windows have none. -/
def State.ckptPages (s : State) (c : Ctx) : List CkptPage :=
  (s.leavesUnder walkLevels c.root 0).map fun x =>
    { va := x.1, size := x.2.1, leaf := leafLogical x.2.2,
      cells := if leafRm x.2.2 then [] else (Mem.slice s.mem (leafPa x.2.2) x.2.1) }

/-- A contribution as an image holds it: it names no thread, command or place. -/
def Contrib.logical (k : Contrib) : Contrib := { k with recips := [], cmd := none, waits := false, spill := none }

/-- The image of a context (R353). -/
def State.image (s : State) (c : Ctx) (addr : DWord) : CkptImage :=
  { addr := addr, ctx := { c with root := 0, part := 0, ckpt := none }, pages := s.ckptPages c,
    launches := s.launches.filter fun l => decide (l.ctx = c.id),
    rings := (s.rings.filter fun r => decide (r.ctx = c.id)).map fun r => (s.ringHandle r.die r.index, { r with die := 0, index := 0 }),
    held := (s.held.filter fun h => decide (h.2.ctx = c.id)).map fun h => { h.2 with slot := none },
    renqs := s.renqs.filter fun p => decide (p.ctx = c.id),
    contribs := (s.contribs.filter fun k => decide (k.ctx = c.id)).map Contrib.logical,
    hostRings := s.hostRings.filter fun r => decide (r.ctx = c.id),
    sets := (s.sets.filter fun e => decide (e.ctx = c.id)).map fun e => { e with die := 0, held := e.held.map Contrib.logical } }

/-- CHECKPOINT_TAKEN: at the boundary the image is taken, the order is answered with its length, and placement goes on. -/
def execCheckpointTaken (ctx : Nat) (s : State) : Answer :=
  .next (match s.ctx? ctx with
    | none => s
    | some c =>
      match c.ckpt with
      | none => s
      | some (addr, path, seq) =>
        if !s.atBoundary ctx then s
        else
          let n := s.ask
          let s := ({ n.2 with ckpts := s.image c addr :: n.2.ckpts.filter fun i => decide (i.addr ≠ addr) } : State).updCtx ctx
            fun c => { c with ckpt := none }
          s.performed path ctx seq (n.1 % 2 ^ 64))

/-- Write a part of an image's page where the context now maps it, whatever the sizes of the fresh pages. -/
def State.restorePage (s : State) (ctx : Nat) : Nat → Nat → Nat → Mem → Except Nat State
  | 0, _, _, _ => .ok s
  | fuel + 1, va, n, cells =>
    if n = 0 then .ok s
    else
      match s.walk ctx va with
      | .error e => .error e
      | .ok x =>
        if leafRm x.leaf then .error fcPageAttr
        else
          let k := min n (x.base + x.size - va)
          ({ s with mem := Mem.paste (Mem.zero s.mem x.pa k) x.pa (cells.filter fun c => decide (c.1 < k)) } : State).restorePage ctx fuel (va + k)
            (n - k) ((cells.filter fun c => decide (k ≤ c.1)).map fun c => (c.1 - k, c.2))

/-- Write an image's pages where the context now maps them; the first page that it does not map is the fault. -/
def State.restorePages (s : State) (ctx : Nat) : List CkptPage → Except Nat Unit × State
  | [] => (.ok (), s)
  | p :: ps =>
    if leafRm p.leaf then s.restorePages ctx ps
    else
      match s.restorePage ctx (p.size / 65536 + 1) p.va p.size p.cells with
      | .error e => (.error e, s)
      | .ok s => s.restorePages ctx ps

/-- Reissue a ring's handle on the die that now homes its descriptor: the old handle and the new one. -/
def State.reissue (s : State) (ctx : Nat) (old : Word) (r : Ring) : Option ((Word × Word) × State) :=
  match s.peek ctx r.desc.toNat with
  | none => none
  | some x =>
    let die := leafHome x.leaf
    let c := s.pick 8192
    match freeIndex ((s.rings.filter fun q => decide (q.die = die)).map fun q => q.index) c.1 8192 with
    | none => none
    | some i =>
      let h := c.2.ringHandle die i
      let s : State := { c.2 with rings := c.2.rings ++ [{ r with die := die, index := i, ctx := ctx }] }
      some ((old, h), (s.writeVa ctx (r.desc.toNat + 0x18) (leBytes 4 h.toNat)).2)

/-- Reissue every ring of an image. -/
def State.reissueAll (s : State) (ctx : Nat) : List (Word × Ring) → Option (List (Word × Word) × State)
  | [] => some ([], s)
  | (old, r) :: rest =>
    match s.reissue ctx old r with
    | none => none
    | some (m, s) => (s.reissueAll ctx rest).map fun x => (m :: x.1, x.2)

/-- A handle of the image as it is now. -/
def renamed (ms : List (Word × Word)) (h : Word) : Word := assoc h ms h

/-- A packet's words with its successors' handles as they are now. -/
def renamedWords (ms : List (Word × Word)) (ws : List Word) : List Word :=
  let h := ws.getD 0 0
  (List.range (pktSucc h)).foldl (fun ws k =>
    let i := (pktBytes h - 8 * (pktSucc h - k)) / 4
    ws.set i (renamed ms (ws.getD i 0))) ws

/-- The launches of an image enter new slots, with their recorded next teams and captured seeds, and with the handles of their host packets' successors as they are now: their keys in the image and here. -/
def State.restoreLaunches (s : State) (ctx : Nat) (ms : List (Word × Word)) : List Launch → List (Nat × Nat) × State
  | [] => ([], s)
  | l :: ls =>
    let f := s.fresh
    let l' : Launch :=
      { l with key := f.1, ctx := ctx, since := f.2.nextId, host := l.host.map fun h => { h with succs := h.succs.map fun e => (renamed ms e.1, e.2) } }
    let r := ({ f.2 with launches := f.2.launches ++ [l'] } : State).restoreLaunches ctx ms ls
    ((l.key, f.1) :: r.1, r.2)

/-- The packets of an image, with the handles as they are now: those held go into the overflow areas of their rings' homes, the others are on their way. -/
def State.restorePkts (s : State) (ctx : Nat) (ms : List (Word × Word)) (hold : Bool) : List RenqPkt → State
  | [] => s
  | p :: ps =>
    let f := s.fresh
    let q : RenqPkt := { p with id := f.1, ctx := ctx, target := renamed ms p.target, ret := renamed ms p.ret,
                                words := renamedWords ms p.words }
    let s : State := { f.2 with renqs := f.2.renqs ++ [q] }
    (if hold then (f.2.holdPkt (handleDie q.target) q).getD s else s).restorePkts ctx ms hold ps

/-- A contribution of an image under its new names: its launch is the one restored. -/
def Contrib.restored (k : Contrib) (id ctx : Nat) (ls : List (Nat × Nat)) : Contrib := { k with id := id, ctx := ctx, launch := assoc 0 ls k.launch }

/-- The contributions of an image are on their way again. -/
def State.restoreContribs (s : State) (ctx : Nat) (ls : List (Nat × Nat)) : List Contrib → State
  | [] => s
  | k :: ks =>
    let f := s.fresh
    ({ f.2 with contribs := f.2.contribs ++ [k.restored f.1 ctx ls] } : State).restoreContribs ctx ls ks

/-- A set table entry of an image enters the table of the die that is now its home, with what its reorder buffer held. None when that table's 256 entries are taken (R13). -/
def State.restoreSet (s : State) (ctx : Nat) (ls : List (Nat × Nat)) (e : SetEntry) : Option State :=
  let die := match s.peek ctx (s.setVa ctx e.set) with | some x => homeDie x.leaf x.pa | none => 0
  if 256 ≤ (s.sets.filter fun x => decide (x.die = die)).length then none
  else
    let e' : SetEntry := { e with ctx := ctx, die := die, held := [] }
    some (e.held.foldl (fun s k => let f := s.fresh; f.2.holdContrib e' (k.restored f.1 ctx ls)) { s with sets := s.sets ++ [e'] })

/-- Every set table entry of an image enters its table. -/
def State.restoreSets (ctx : Nat) (ls : List (Nat × Nat)) : List SetEntry → State → Option State
  | [], s => some s
  | e :: es, s => (s.restoreSet ctx ls e).bind (State.restoreSets ctx ls es)

/-- The context that an image makes of a registered one: the image's fields but ROOT and PART, its handle words as they are now (R354). -/
def CkptImage.ctxOn (img : CkptImage) (c : Ctx) (ms : List (Word × Word)) (now : Nat) : Ctx :=
  let i := img.ctx
  { i with id := c.id, root := c.root, part := c.part, evring := renamed ms i.evring, erring := renamed ms i.erring, clog := renamed ms i.clog,
           lullStart := now, preempted := false, ckpt := none, releasing := none }

/-- Host work rings of an image that no other context has. -/
def State.restoreHostRings (s : State) (ctx : Nat) (rs : List HostRing) : State :=
  let mine := rs.filter fun r => !(s.hostRings.any fun q => decide (q.ring = r.ring ∧ q.ctx ≠ ctx))
  { s with hostRings := (s.hostRings.filter fun q => !(mine.any fun r => decide (r.ring = q.ring))) ++ mine.map fun r => { r with ctx := ctx } }

/-- Put an image into a registered context that holds nothing: its pages, its fields but ROOT and PART, its launches, rings, packets, indices and sets. -/
def State.restoreImage (s : State) (c : Ctx) (img : CkptImage) : Done × State :=
  match s.restorePages c.id img.pages with
  | (.error e, _) => (.refuse e, s)
  | (.ok _, u) =>
    match u.reissueAll c.id img.rings with
    | none => (.refuse fcRingCfg, s)
    | some (ms, u) =>
      let u := u.updCtx c.id fun _ => img.ctxOn c ms u.clk.cycle.toNat
      let r := ((u.restorePkts c.id ms true img.held).restorePkts c.id ms false img.renqs).restoreLaunches c.id ms img.launches
      match State.restoreSets c.id r.1 img.sets r.2 with
      | none => (.refuse fcIllegalOp, s)
      | some u => (.value 0, (u.restoreContribs c.id r.1 img.contribs).restoreHostRings c.id img.hostRings)

/-- The image that stands at an address at which this module has taken none: one of another module, if there is any; nothing constrains it (R354). (log 21, DESIGN CHOICE) -/
opaque Config.foreignImage : Nat → DWord → Option CkptImage

/-- The image at an address: this module's, or one that another module has left there. -/
def State.imageAt (s : State) (addr : DWord) : Option CkptImage × State :=
  match s.ckpts.find? fun i => decide (i.addr = addr) with
  | some i => (some i, s)
  | none => (Config.foreignImage s.freeCtr addr, { s with freeCtr := s.freeCtr + 1 })

/-- RESTORE: from an image of this module or of another one, into a registered context without launches. -/
def execRestore (o : OrderRec) (s : State) : Answer :=
  .next (s.order o 0x09 8 .registered fun s =>
    match s.ctx? o.ctx.toNat with
    | none => (.refuse fcIllegalOp, s)
    | some c =>
      if s.launches.any (fun l => decide (l.ctx = c.id)) || s.rings.any (fun r => decide (r.ctx = c.id)) then (.refuse fcIllegalOp, s)
      else
        match s.imageAt (BitVec.ofNat 64 (o.u64 0)) with
        | (some img, s) => s.restoreImage c img
        | (none, s) => (.refuse fcIllegalOp, s))

/-! ### Partition changes (R333) -/

/-- The context runs in a partition. -/
def State.inPart (s : State) (ctx part : Nat) : Bool := (s.ctx? ctx).any fun c => decide (c.part = part)

/-- Kill one team by order: the status word's cause is 5 (R333, R334). -/
def State.killByOrder (s : State) (t : Team) : State :=
  let s := s.updLaunch t.launch fun l =>
    { l with first := if l.first.isNone then some t.index else l.first, code := if l.first.isNone then 0 else l.code,
             cause := if l.cause = 0 ∨ l.cause = 2 then 5 else l.cause }
  s.killTeam t.key 0

/-- The partition's unretired teams on a die. -/
def State.dieTeams (s : State) (die part : Nat) : List Team :=
  s.teams.filter fun t => decide (dieOf t.core = die ∧ t.place ≠ .retired) && s.inPart t.ctx part

/-- PARTITION_CHANGE: the mask names the partition's dies from now on; added dies join at once, removed ones are drained or have their teams killed. -/
def execPartitionChange (o : OrderRec) (s : State) : Answer :=
  .next (s.order o 0x0A 3 .none fun s =>
    let part := o.u8 0
    let mask := o.u8 1
    let has := fun (d : Nat) => decide (mask / 2 ^ d % 2 = 1)
    let owner := fun (d : Nat) => s.dieParts.getD d 8
    let added := (List.range 8).filter fun d => has d && decide (owner d ≠ part)
    let gone := (List.range 8).filter fun d => !has d && decide (owner d = part)
    if 7 < part ∨ 1 < o.u8 2 ∨ added.any (fun d => decide (owner d ≠ 8)) then (.refuse fcIllegalOp, s)
    else if s.rings.any fun r => gone.contains r.die && s.inPart r.ctx part then (.refuse fcRingCfg, s)
    else
      let s : State := { s with
        dieParts := s.dieParts.zipIdx.map fun x => if added.contains x.2 then part else x.1,
        removing := (s.removing.filter fun d => !(has d && decide (owner d = part))) ++ gone.filter fun d => !s.removing.contains d }
      let s := if o.u8 2 = 1 then gone.foldl (fun s d => (s.dieTeams d part).foldl (fun s t => s.killByOrder t) s) s else s
      (.value 0, s))

/-- A removal can complete: the die holds no team of the partition, and no command of one is unfinished. -/
def State.removalDone (s : State) (die : Nat) : Bool :=
  s.removing.contains die && (s.dieTeams die (s.dieParts.getD die 8)).isEmpty

/-- PARTITION_CHANGE_COMPLETE. -/
def execPartitionChangeComplete (die : Nat) (s : State) : Answer :=
  .next (if !s.removalDone die then s
    else { s with dieParts := s.dieParts.set die 8, removing := s.removing.filter fun d => decide (d ≠ die) })

/-! ### Assignments -/

/-- ASSIGN_HOST_WORK_RINGS. -/
def execAssignHostWorkRings (o : OrderRec) (s : State) : Answer :=
  .next (s.order o 0x0B 4 .registered fun s =>
    let first := o.u16 0
    let n := o.u16 2
    let id := o.ctx.toNat
    let rs := (List.range n).map fun i => first + i
    if 4096 < first + n ∨ s.hostRings.any (fun r => decide (r.ctx ≠ id) && rs.contains r.ring) then (.refuse fcIllegalOp, s)
    else
      let new := rs.filter fun x => !(s.hostRings.any fun r => decide (r.ring = x))
      (.value 0, { s with hostRings := s.hostRings ++ new.map fun x => { ring := x, ctx := id } }))

/-- ASSIGN_QUEUE_PAIRS. -/
def execAssignQueuePairs (o : OrderRec) (s : State) : Answer :=
  .next (s.order o 0x0C 8 .registered fun s =>
    let first := o.u32 0
    let n := o.u32 4
    let id := o.ctx.toNat
    if 65536 < first + n ∨ s.qps.any (fun q => decide (q.ctx ≠ id ∧ first ≤ q.num ∧ q.num < first + n)) ∨
        s.boot.controlQp.any (fun q => decide (first ≤ q ∧ q < first + n)) then (.refuse fcIllegalOp, s)
    else
      let new := ((List.range n).map fun i => first + i).filter fun x => !(s.qps.any fun q => decide (q.num = x))
      (.value 0, { s with qps := s.qps ++ new.map fun x => { num := x, ctx := id } }))

/-- WRITE_WINDOW_ENTRY: the index, then the fields of R370 in their order, each at its own alignment. -/
def execWriteWindowEntry (o : OrderRec) (s : State) : Answer :=
  .next (s.order o 0x0D 32 .registered fun s =>
    let i := o.u16 0
    if 4096 ≤ i ∨ 65536 ≤ o.u32 4 ∨ o.u64 24 % 65536 ≠ 0 ∨ o.u16 2 ≠ 0 ∨ o.u32 12 ≠ 0 then (.refuse fcIllegalOp, s)
    else
      let w : Window := { index := i, qp := o.u32 4, rkey := BitVec.ofNat 32 (o.u32 8), base := BitVec.ofNat 64 (o.u64 16),
                          len := BitVec.ofNat 64 (o.u64 24), ctx := o.ctx.toNat }
      (.value 0, { s with windows := w :: s.windows.filter fun x => decide (x.index ≠ i) }))

/-- ASSIGN_MONITOR: to the context named, or to the management plane. -/
def execAssignMonitor (o : OrderRec) (s : State) : Answer :=
  let mgmt := decide (o.u8 2 = 1)
  .next (s.order o 0x0E 3 (if mgmt then .none else .registered) fun s =>
    if 520 ≤ o.u16 0 ∨ 1 < o.u8 2 then (.refuse fcIllegalOp, s)
    else (.value 0, s.setMonitor { s.monitor (o.u16 0) with owner := some (if mgmt then 64 else o.ctx.toNat) }))

/-- READ_MAILBOX: the records from the first asked for, or from the oldest held. -/
def execReadMailbox (o : OrderRec) (s : State) : Answer :=
  .next (s.order o 0x0F 8 .none fun s =>
    let n := o.u32 4
    if n < 1 ∨ 64 < n then (.refuse fcIllegalOp, s)
    else
      let old := s.mailbox.next - BitVec.ofNat 32 s.mailbox.records.length
      let back := (s.mailbox.next - BitVec.ofNat 32 (o.u32 0)).toNat
      let first : Word := if s.mailbox.records.length < back ∧ back < 2 ^ 31 then old else BitVec.ofNat 32 (o.u32 0)
      (.reply first.toNat ((s.mailbox.records.filter fun r => decide ((r.1 - first).toNat < n)).map fun r => OutMsg.mailRecord o.path r.2), s))

end Sys2Proof.Machine
end

