-- ==== Sys2Proof/Machine/Mgmt.lean ====
section
/-! DEFINITION. The management plane: the start (R376), firmware (R377), SPDM (R378), power and the arithmetic clock (R12, R379), and the monitors' samples and commands (R374). -/

namespace Sys2Proof.Machine

/-! ### Firmware (R377) -/

/-- An image verifies: its signature under the fused key, and its version against the fused counter. -/
def Boot.verified (b : Boot) (i : FwImage) : Bool := Config.lmsOk i && decide (b.rollback ≤ i.version)

/-- The image in a slot of the flash, newest first; none stands for the image the module left the factory with, which verifies (log 11, DESIGN CHOICE). -/
def Boot.slot (b : Boot) (which n : Nat) : Option FwImage := (b.flash.filter fun i => decide (i.which = which))[n]?

/-- The image in a slot may run. -/
def Boot.slotOk (b : Boot) (which n : Nat) : Bool := match b.slot which n with | some i => b.verified i | none => true

/-- The image that a slot holds runs from now on. -/
def Boot.run (b : Boot) (which n : Nat) : Boot :=
  let rest := b.running.filter fun i => decide (i.which ≠ which)
  { b with running := match b.slot which n with | some i => i :: rest | none => rest }

/-- FIRMWARE_UPDATE: the image is staged in the first of its two slots and runs from the next start. -/
def execFirmwareUpdate (img : FwImage) (s : State) : Answer :=
  let mine := s.boot.flash.filter fun i => decide (i.which = img.which)
  let rest := s.boot.flash.filter fun i => decide (i.which ≠ img.which)
  .next { s with boot := { s.boot with flash := img :: mine.take 1 ++ rest } }

/-! ### The start (R376) -/

/-- Steps that have an alternate path. -/
def hasAlternate (step : Nat) : Bool := decide (3 ≤ step ∧ step ≤ 10)
/-- Steps that are optional. -/
def optionalStep (step : Nat) : Bool := decide (step = 4 ∨ step = 8 ∨ step = 10)
/-- The firmware image that a step verifies before it runs (R377): the management firmware, the C-dies', and at the training of their memories the base dies' and the buffer chips'. (log 60, DEDUCED) -/
def stepImage (step : Nat) : Option Nat := match step with | 3 => some 0 | 6 => some 1 | 7 => some 2 | 8 => some 3 | _ => none

/-- A step on one path succeeds: the physics reports success, its image verifies, and at step 11 the boundaries obey R306. -/
def Boot.pathOk (b : Boot) (rep : StartReport) (step path : Nat) : Bool :=
  match rep.steps[step - 1]? with
  | none => false
  | some r =>
    (if path = 0 then r.mainOk else r.altOk) && (match stepImage step with | some w => b.slotOk w path | none => true) &&
    (decide (step ≠ 11) || decide (rep.dabound % 512 = 0 ∧ rep.mibound % 512 = 0 ∧ rep.dabound ≤ rep.mibound ∧ rep.mibound ≤ 49152))

/-- The outcome code that a step's journal entry holds: 0 for success, but the control queue pair's number at step 12; the report's code, or 1, for failure (log 11, DESIGN CHOICE). -/
def outcomeOf (rep : StartReport) (step : Nat) (ok : Bool) : Nat :=
  let code := match rep.steps[step - 1]? with | some r => r.code | none => 0
  if ok then (if step = 12 then code else 0) else if code = 0 then 1 else code

/-- The last recorded outcome of a step was a failure. -/
def failedLast (es : List JournalEntry) (step : Nat) : Bool :=
  match (es.filter fun e => decide (e.step = step)).getLast? with
  | some e => decide (e.outcome ≠ 0)
  | none => false

/-- What a successful step leaves behind. -/
def Boot.succeed (b : Boot) (rep : StartReport) (step path : Nat) : Boot :=
  let b := match stepImage step with | some w => b.run w path | none => b
  if step = 10 then { b with portsDown := if path = 1 then rep.failedPorts else [], lossless := (rep.lossless.filter fun p => decide (p < 8)).take 2 }
  else if step = 11 then { b with dabound := rep.dabound, mibound := rep.mibound }
  else if step = 12 then { b with controlQp := some (outcomeOf rep 12 true), started := true }
  else b

/-- Record an attempt in the journal and in the mailbox. -/
def State.recordStep (s : State) (e : JournalEntry) : State :=
  ({ s with boot := { s.boot with journal := s.boot.journal ++ [e] } } : State).mail 4 0 255 1 0 0 0
    (leBytes 1 e.step ++ leBytes 1 e.attempt ++ leBytes 1 e.path ++ leBytes 1 e.outcome)

/-- One attempt at a step. -/
def State.attempt (s : State) (rep : StartReport) (step n path : Nat) : Bool × State :=
  let ok := s.boot.pathOk rep step path
  let s := s.recordStep { step := step, attempt := n, path := path, outcome := outcomeOf rep step ok }
  (ok, if ok then { s with boot := s.boot.succeed rep step path } else s)

/-- One step: on its main path and then on its alternate one, or on the alternate one alone when its last recorded outcome was a failure. (log 60, DEDUCED) -/
def State.startStep (s : State) (rep : StartReport) (step : Nat) : Bool × State :=
  if hasAlternate step then
    if failedLast s.boot.previous step then s.attempt rep step 1 1
    else
      match s.attempt rep step 1 0 with
      | (true, s) => (true, s)
      | (false, s) => s.attempt rep step 2 1
  else s.attempt rep step 1 0

/-- The steps in order: an optional one that fails is skipped and its resource is absent; another halts the module. -/
def State.startSteps (s : State) (rep : StartReport) : List Nat → State
  | [] => s
  | step :: rest =>
    -- a start that reaches step 12 clears the failure history
    let s := if step = 12 then { s with boot := { s.boot with previous := [] } } else s
    match s.startStep rep step with
    | (true, s) => s.startSteps rep rest
    | (false, s) =>
      if optionalStep step then
        (({ s with boot := { s.boot with absentSteps := s.boot.absentSteps ++ [step] } } : State).mail 7 0 255 1 0 0 0
          (leBytes 1 step ++ leBytes 1 0 ++ leBytes 2 0)).startSteps rep rest
      else
        let last := (s.boot.journal.getLast?).getD { step := step, attempt := 1, path := 0, outcome := 1 }
        ({ s with boot := { s.boot with halted := some step } } : State).mail 4 0 255 1 0 0 0
          (leBytes 1 step ++ leBytes 1 last.attempt ++ leBytes 1 last.path ++ leBytes 1 last.outcome ++ leBytes 1 255)

/-- What a reset or a loss of supply leaves: the flash, the start history and the fuses; the model's own counters go on. -/
def State.cleared (s : State) : State :=
  { State.reset with
    boot := { plan := s.boot.plan, previous := s.boot.previous, flash := s.boot.flash, rollback := s.boot.rollback },
    outbox := s.outbox, inputs := s.inputs, nextId := s.nextId, freeCtr := s.freeCtr }

/-- START_SEQUENCE: power-on or reset. -/
def execStartSequence (rep : StartReport) (s : State) : Answer :=
  let s := s.cleared.startSteps rep (List.range' 1 12)
  .next (if s.boot.started then s
    else { s with boot := { s.boot with previous := s.boot.previous ++ s.boot.journal } })

/-- POWER_OFF: everything that is not in flash or fuses is lost. (log 61, DEDUCED) -/
def execPowerOff (s : State) : Answer := .next { s.cleared with boot := { s.cleared.boot with powered := false } }

/-! ### SPDM (R378) -/

/-- The journal's bytes: step, attempt, path and outcome of each entry. -/
def journalBytes (es : List JournalEntry) : List Byte :=
  es.flatMap fun e => leBytes 1 e.step ++ leBytes 1 e.attempt ++ leBytes 1 e.path ++ leBytes 1 e.outcome

/-- The bytes of a running image; none for the one the module left the factory with. -/
def Boot.image (b : Boot) (which : Nat) : List Byte :=
  match b.running.find? fun i => decide (i.which = which) with | some i => i.bytes | none => []

/-- The six measurement blocks. -/
def Boot.measurements (b : Boot) : List (List Byte) :=
  ((List.range 4).map b.image ++ [Config.fuses ++ leBytes 4 b.rollback, journalBytes b.journal]).map Config.sha384

/-- The management port answers a request, unless step 4 was skipped. -/
def State.spdmAnswer (s : State) (req : List Byte) (blocks : List (List Byte)) : State :=
  if s.boot.absentSteps.contains 4 then s else s.send (.spdm (Config.spdmAnswer req blocks))

/-- GET_VERSION. -/
def execGetVersion (req : List Byte) (s : State) : Answer := .next (s.spdmAnswer req [])
/-- GET_CAPABILITIES. -/
def execGetCapabilities (req : List Byte) (s : State) : Answer := .next (s.spdmAnswer req [])
/-- NEGOTIATE_ALGORITHMS. -/
def execNegotiateAlgorithms (req : List Byte) (s : State) : Answer := .next (s.spdmAnswer req [])
/-- GET_DIGESTS. -/
def execGetDigests (req : List Byte) (s : State) : Answer := .next (s.spdmAnswer req [])
/-- GET_CERTIFICATE. -/
def execGetCertificate (req : List Byte) (s : State) : Answer := .next (s.spdmAnswer req [])
/-- CHALLENGE: the answer covers the measurements. -/
def execChallenge (req : List Byte) (s : State) : Answer := .next (s.spdmAnswer req s.boot.measurements)
/-- GET_MEASUREMENTS. -/
def execGetMeasurements (req : List Byte) (s : State) : Answer := .next (s.spdmAnswer req s.boot.measurements)

/-! ### The arithmetic clock (R12) -/

/-- The arithmetic clock at another frequency: the part of a module cycle that has passed stays what it was, rounded down (R3). -/
def Clocks.atMhz (c : Clocks) (mhz : Nat) : Clocks := { c with mhz := mhz, frac := c.frac * mhz / c.mhz }

/-- POWER_CLOCK_LOWER: the clock goes down, never to a stop, and a monitor event gives the new clock. (log 72, DEDUCED) -/
def execPowerClockLower (mhz : Nat) (s : State) : Answer :=
  .next (if mhz = 0 ∨ s.clk.mhz ≤ mhz then s
    else ({ s with clk := s.clk.atMhz mhz } : State).event 8 0x12 0 mhz)

/-- ARITHMETIC_CLOCK_RESTORED: the clock goes up, to 1,200 MHz at most. -/
def execArithmeticClockRestored (mhz : Nat) (s : State) : Answer :=
  .next (if mhz ≤ s.clk.mhz ∨ 1200 < mhz then s else { s with clk := s.clk.atMhz mhz })

/-! ### Monitors (R374) -/

/-- Distinct PCs at which eligible threads of a pipe stand, at most 64 (R52). -/
def State.eddyEntries (s : State) (core pipe : Nat) : Nat :=
  let pcs := (s.teams.filter fun t => decide (t.core = core ∧ t.place = .resident)).flatMap fun t =>
    (t.groups.filter fun g => decide (g.pipe = pipe)).flatMap fun g =>
      (g.threads.filter fun th => th.parks.isEmpty && !th.held && decide (th.gapUntil = 0 ∨ th.gapUntil < s.clk.acycle)).map fun th => th.pc
  min 64 pcs.dedup.length

/-- Some events of value 1. -/
def Monitor.addTimes (m : Monitor) : Nat → Monitor
  | 0 => m
  | n + 1 => (m.add 1).addTimes n

/-- A monitor takes one sample of its level source, if it has one: Eddy entries of a pipe, or a stack's bytes per sample, which no rule counts. Soft errors corrected since the last sample are counted with it, as many as a free value says (R235; log 15, DESIGN CHOICE). -/
def State.sample (s : State) (m : Monitor) : State :=
  let die := m.num / 64
  let inst := (m.src.extractLsb' 8 8).toNat
  if m.watches die 0x02 inst true then s.setMonitor (m.add (s.eddyEntries (32 * die + inst / 4) (inst % 4)))
  else if m.watches die 0x21 inst true then let v := s.ask; v.2.setMonitor (m.add (v.1 % 2 ^ 32))
  else if m.watches die 0x13 inst false then let v := s.ask; v.2.setMonitor (m.addTimes (v.1 % 1024))
  else s

/-- Every monitor takes its sample, some number of times. -/
def State.samples (s : State) : Nat → State
  | 0 => s
  | n + 1 => (s.monitors.foldl (fun s m => s.sample m) s).samples n

/-- MONITOR_SAMPLE. -/
def execMonitorSample (s : State) : Answer := .next (s.samples 1)

/-- MANAGEMENT_MONITOR_COMMAND: the management plane arms or freezes a monitor; the later command stands. (log 73, DEDUCED) -/
def execManagementMonitorCommand (mon : Nat) (freeze : Bool) (s : State) : Answer :=
  .next (if 520 ≤ mon then s else s.setMonitor (if freeze then (s.monitor mon).freeze else (s.monitor mon).arm))

end Sys2Proof.Machine
end

