-- ==== Sys2Proof/Machine/Fabric.lean ====
section
/-! DEFINITION. What arrives over the fabric (R222, R367 to R373): RDMA of a host or a peer, SENDs with orders and Evavo messages, pause and congestion frames, and the answers of remote ends. -/

namespace Sys2Proof.Machine

/-- The context that a queue pair is assigned to (R368, R380). -/
def State.qpCtx (s : State) (qp : Nat) : Option Nat := (s.qps.find? fun q => decide (q.num = qp)).map fun q => q.ctx

/-- What comes over the fabric needs a data port: without one nothing arrives (R376). -/
def State.arriving (s : State) (f : State → State) : State := if s.boot.portsUp then f s else s

/-- A RoCE v2 frame for a queue pair that exists: one with a congestion mark is answered with a congestion notification packet (R367). -/
def State.frame (s : State) (x : RoceFrame) (f : State → State) : State :=
  s.arriving fun s => if x.ecn && ((s.qpCtx x.qp).isSome || decide (s.boot.controlQp = some x.qp)) then (f s).send (.cnp x.qp) else f s

/-- An answer leaves on a queue pair of a context: a fabric egress message (R336). -/
def State.reply (s : State) (ctx : Nat) (m : OutMsg) : State := (s.send m).sink ctx

/-- RDMA_WRITE: performed at the home slices, a release at system scope; the host ring monitor sees a write to a ring's tail. -/
def execRdmaWrite (f : RoceFrame) (va : DWord) (data : List Byte) (s : State) : Answer :=
  .next (s.frame f fun s => match s.qpCtx f.qp with
    | none => s
    | some ctx =>
      match s.writeVa ctx va.toNat data with
      | (.error _, s) => s.reply ctx (.rdmaError f.qp)
      | (.ok _, s) => (s.tailsWritten ctx va.toNat data.length).foldl (fun s r => s.seeTail r) s)

/-- RDMA_READ. -/
def execRdmaRead (f : RoceFrame) (va : DWord) (len : Nat) (s : State) : Answer :=
  .next (s.frame f fun s => match s.qpCtx f.qp with
    | none => s
    | some ctx =>
      match s.readVa ctx va.toNat len with
      | (.error _, s) => s.reply ctx (.rdmaError f.qp)
      | (.ok bs, s) => s.reply ctx (.rdmaData f.qp bs))

/-- A 64-bit atomic of a host or a peer: the old value is the answer. -/
def State.hostAtomic (s : State) (qp : Nat) (va : Nat) (f : Nat → Option Nat) : State :=
  match s.qpCtx qp with
  | none => s
  | some ctx =>
    if va % 8 ≠ 0 then s.reply ctx (.rdmaError qp)
    else
      match s.translateWalk ctx va .atomic with
      | (.error _, s) => s.reply ctx (.rdmaError qp)
      | (.ok x, s) =>
        if leafRm x.leaf then s.reply ctx (.rdmaError qp)
        else if s.marked x.pa 8 then (s.mailUe ctx x.pa va 0 (homeDie x.leaf x.pa)).reply ctx (.rdmaError qp)
        else
          let old := s.readPhys x.pa 8
          let s := s.reply ctx (.rdmaData qp old)
          match f (leNat old) with
          | some v => s.writePhys ctx (decide (leafCp x.leaf ≠ 2)) x.pa (leBytes 8 v)
          | none => s.uncache x.leaf x.pa 8

/-- FETCH_AND_ADD. -/
def execFetchAndAdd (f : RoceFrame) (va : DWord) (val : DWord) (s : State) : Answer :=
  .next (s.frame f fun s => s.hostAtomic f.qp va.toNat fun old => some ((old + val.toNat) % 2 ^ 64))

/-- COMPARE_AND_SWAP. -/
def execCompareAndSwap (f : RoceFrame) (va : DWord) (cmp : DWord) (swap : DWord) (s : State) : Answer :=
  .next (s.frame f fun s => s.hostAtomic f.qp va.toNat fun old => if old = cmp.toNat then some swap.toNat else none)

/-! ### Evavo messages (R369) -/

/-- A discarded frame is counted at its port (R374). -/
def State.discarded (s : State) (port : Nat) : State := s.event 8 0x31 port 1

/-- An Evavo message in a SEND's payload. -/
def evavoOf (bs : List Byte) : Option EvMsg :=
  if bs.length < 32 ∨ u16At bs 0 ≠ 0x5E7A then none
  else some { ver := u8At bs 2, type := u8At bs 3, cid := BitVec.ofNat 32 (u32At bs 4), chunk := u32At bs 8, src := BitVec.ofNat 32 (u32At bs 12),
              thash := BitVec.ofNat 64 (u64At bs 16), payload := (bs.drop 32).take (u32At bs 24) }

/-- A collective chunk or result; one of another version is discarded and counted. -/
def State.takeEvavo (s : State) (m : EvMsg) (down : Bool) : State := if m.ver ≠ 1 then s.discarded 0 else s.takeChunk m down

/-- COLLECTIVE_CHUNK. -/
def execCollectiveChunk (m : EvMsg) (s : State) : Answer := .next (s.arriving fun s => s.takeEvavo m false)

/-- COLLECTIVE_RESULT. -/
def execCollectiveResult (m : EvMsg) (s : State) : Answer := .next (s.arriving fun s => s.takeEvavo m true)

/-- A RENQ packet of a peer sets out for its ring's home. Its payload is the target handle, the return handle and the packet. -/
def State.takeRenq (s : State) (m : EvMsg) : State :=
  if m.ver ≠ 1 then s.discarded 0
  else
    let ws := wordsOf m.payload
    let h := ws.getD 0 0
    let ctx := match s.rings.find? fun r => decide (r.die = handleDie h ∧ r.index = handleIndex h) with | some r => r.ctx | none => 255
    let f := s.fresh
    { f.2 with renqs := f.2.renqs ++
        [{ id := f.1, ctx := ctx, sender := 2 ^ 64 + m.src.toNat, target := h, ret := ws.getD 1 0, words := ws.drop 2 }] }

/-- RENQ_PACKET. -/
def execRenqPacket (m : EvMsg) (s : State) : Answer := .next (s.arriving fun s => s.takeRenq m)

/-- The order that a record holds, by its code. -/
def orderStep (o : OrderRec) : Option Instr :=
  match o.code.toNat with
  | 0x01 => some (.registerContext o) | 0x02 => some (.releaseContext o) | 0x03 => some (.preemptContext o)
  | 0x04 => some (.resumeContext o) | 0x05 => some (.preemptTeam o) | 0x06 => some (.kill o) | 0x07 => some (.setSeed o)
  | 0x08 => some (.checkpoint o) | 0x09 => some (.restore o) | 0x0A => some (.partitionChange o)
  | 0x0B => some (.assignHostWorkRings o) | 0x0C => some (.assignQueuePairs o) | 0x0D => some (.writeWindowEntry o)
  | 0x0E => some (.assignMonitor o) | 0x0F => some (.readMailbox o)
  | _ => none

/-- An order record as it travels (R380). -/
def orderOf (path : OrderPath) (bs : List Byte) : OrderRec :=
  { path := path, code := bs.getD 0 0, ctx := bs.getD 1 0, rsv := BitVec.ofNat 16 (u16At bs 2), seq := BitVec.ofNat 32 (u32At bs 4),
    opnds := (bs.drop 8).take 56 }

/-- An order arrives at the launch unit and waits its turn; one whose code is not listed is refused then, as any record is that breaks its form. -/
def State.takeOrder (s : State) (o : OrderRec) : State :=
  { s with inputs := s.inputs ++ [(orderStep o).getD (.registerContext o)] }

/-- SEND: an order over the control queue pair, or an Evavo message; any other payload has no meaning to the module. (log 62, DESIGN CHOICE) -/
def execSend (f : RoceFrame) (data : List Byte) (s : State) : Answer :=
  .next (s.frame f fun s => if s.boot.controlQp = some f.qp then (if data.length = 64 then s.takeOrder (orderOf .host data) else s)
    else
      match evavoOf data with
      | none => s
      | some m =>
        match m.type with
        | 1 => s.takeEvavo m false
        | 2 => s.takeEvavo m true
        | 3 => s.takeRenq m
        | _ => s.discarded 0)

/-! ### Ports (R367, R368) -/

/-- CONGESTION_NOTIFICATION: the sending rate of that queue pair alone goes down, of a context's or of the control queue pair. -/
def execCongestionNotification (qp : Nat) (s : State) : Answer :=
  .next (s.arriving fun s =>
    { s with
      boot := if s.boot.controlQp = some qp then { s.boot with controlLowered := s.boot.controlLowered + 1 } else s.boot,
      qps := updWhere (fun q => decide (q.num = qp)) (fun q => { q with lowered := q.lowered + 1 }) s.qps })

/-- A data port that is up (R7, R367, R376). -/
def Boot.portUp (b : Boot) (port : Nat) : Bool := decide (port < 12) && b.portsUp && !b.portsDown.contains port

/-- PAUSE_FRAME: one of the 8 priorities of one of the 12 ports is paused for some quanta, or released. There are no others (R7, R367). (log 51, DESIGN CHOICE) -/
def execPauseFrame (port prio quanta : Nat) (s : State) : Answer :=
  let rest := s.pauses.filter fun p => !decide (p.1 = port ∧ p.2.1 = prio)
  .next (if !s.boot.portUp port ∨ 8 ≤ prio then s
    else ({ s with pauses := if quanta = 0 then rest else (port, prio, quanta) :: rest } : State).event 8 0x30 port 1)

/-- DISCARDED_FRAME, at one of the 12 ports (R7). -/
def execDiscardedFrame (port : Nat) (s : State) : Answer := .next (if s.boot.portUp port then s.discarded port else s)

/-! ### Remote ends (R222, R370, R373) -/

/-- REMOTE_ACCESS_ERROR: a store's fault goes to its thread, with the store's PC. -/
def execRemoteAccessError (op : Nat) (s : State) : Answer :=
  .next (s.arriving fun s => match s.remoteOps.find? fun o => decide (o.id = op) with
    | none => s
    | some o =>
      let f : FaultInfo := { code := fcEngineFault, engine := 7, cause := fcPagePerm, fpc := o.pc, rpc := o.pc, addr := o.va, noseq := true,
                             word := o.word, age := o.age }
      let s : State := { s with remoteOps := s.remoteOps.filter fun x => decide (x.id ≠ op) }
      (o.recips.foldl (fun s t => s.asyncFault t f) s).unhold.completeDone.drainLaunches)

/-- REMOTE_WRITE_ACKNOWLEDGED: words held for the acknowledgement are tried again. -/
def execRemoteWriteAcknowledged (op : Nat) (s : State) : Answer :=
  .next (s.arriving fun s => ({ s with remoteOps := s.remoteOps.filter fun x => decide (x.id ≠ op) } : State).unhold.completeDone.drainLaunches)

/-- A collective command exchanges chunks over a queue pair; a rank of queue pair 0 is one of this module (R371). -/
def Cmd.usesQp (c : Cmd) (qp : Nat) : Bool :=
  decide (c.code = 0x60) && match c.coll? with
  | some v => (v.me.parent :: v.me.kids).any fun r => match nodeOf v.ns r with | some x => decide (x.qp = qp ∧ qp ≠ 0) | none => false
  | none => false

/-- A command's ranges reach a remote window through a queue pair (R370). -/
def State.rangesUse (s : State) (c : Cmd) (qp : Nat) : Bool :=
  s.locks.any fun l => decide (l.cmd = c.id) && !l.pool && (parts l.lo l.len).any fun p =>
    match s.peek c.ctx p.1 with
    | some x => leafRm x.leaf && (s.remote? c.ctx x p.2).any fun w => decide (w.1.qp = qp)
    | none => false

/-- RETRY_EXHAUSTED: every command that uses the queue pair fails. (log 74, DEDUCED) -/
def execRetryExhausted (qp : Nat) (s : State) : Answer :=
  .next ((s.cmds.filter fun c => decide (c.stage ≠ .done) && (c.usesQp qp || s.rangesUse c qp)).foldl (fun s c => s.updCmd c.id fun c =>
    let c : Cmd := { c with fault := c.fault.orElse fun _ => some (c.faultInfo (fcEngineFault, 0, qp)) }
    if c.stage = .queued then { c with guard := none, stage := .consumed, idle := true } else c) s)

end Sys2Proof.Machine
end

