-- ==== Sys2Proof/Machine/Dispatch.lean ====
section
/-! DEFINITION. One arm per instruction or step: each calls its own meaning. -/

namespace Sys2Proof.Machine

/-- The effect of one instruction or step. -/
def exec (i : Instr) (s : State) : Host.Outcome State Fault Refusal :=
  match i with
  | .iadd h o => Sys2Proof.Machine.execIadd h o s
  | .isub h o => Sys2Proof.Machine.execIsub h o s
  | .imul h o => Sys2Proof.Machine.execImul h o s
  | .imulh h o => Sys2Proof.Machine.execImulh h o s
  | .imad h o => Sys2Proof.Machine.execImad h o s
  | .imin h o => Sys2Proof.Machine.execImin h o s
  | .imax h o => Sys2Proof.Machine.execImax h o s
  | .iabs h o => Sys2Proof.Machine.execIabs h o s
  | .iand h o => Sys2Proof.Machine.execIand h o s
  | .ior h o => Sys2Proof.Machine.execIor h o s
  | .ixor h o => Sys2Proof.Machine.execIxor h o s
  | .iandn h o => Sys2Proof.Machine.execIandn h o s
  | .shl h o => Sys2Proof.Machine.execShl h o s
  | .shr h o => Sys2Proof.Machine.execShr h o s
  | .sar h o => Sys2Proof.Machine.execSar h o s
  | .rotl h o => Sys2Proof.Machine.execRotl h o s
  | .popc h o => Sys2Proof.Machine.execPopc h o s
  | .clz h o => Sys2Proof.Machine.execClz h o s
  | .brev h o => Sys2Proof.Machine.execBrev h o s
  | .bfe h o => Sys2Proof.Machine.execBfe h o s
  | .bfi h o => Sys2Proof.Machine.execBfi h o s
  | .icmp h o => Sys2Proof.Machine.execIcmp h o s
  | .sel h o => Sys2Proof.Machine.execSel h o s
  | .plop h o => Sys2Proof.Machine.execPlop h o s
  | .mov h o => Sys2Proof.Machine.execMov h o s
  | .movi h o => Sys2Proof.Machine.execMovi h o s
  | .movhi h o => Sys2Proof.Machine.execMovhi h o s
  | .aadd h o => Sys2Proof.Machine.execAadd h o s
  | .imulw h o => Sys2Proof.Machine.execImulw h o s
  | .idiv h o => Sys2Proof.Machine.execIdiv h o s
  | .irem h o => Sys2Proof.Machine.execIrem h o s
  | .fadd h o => Sys2Proof.Machine.execFadd h o s
  | .fsub h o => Sys2Proof.Machine.execFsub h o s
  | .fmul h o => Sys2Proof.Machine.execFmul h o s
  | .ffma h o => Sys2Proof.Machine.execFfma h o s
  | .fmin h o => Sys2Proof.Machine.execFmin h o s
  | .fmax h o => Sys2Proof.Machine.execFmax h o s
  | .fcmp h o => Sys2Proof.Machine.execFcmp h o s
  | .fdot2 h o => Sys2Proof.Machine.execFdot2 h o s
  | .frcp h o => Sys2Proof.Machine.execFrcp h o s
  | .frsq h o => Sys2Proof.Machine.execFrsq h o s
  | .fsqrt h o => Sys2Proof.Machine.execFsqrt h o s
  | .fdiv h o => Sys2Proof.Machine.execFdiv h o s
  | .fexp2 h o => Sys2Proof.Machine.execFexp2 h o s
  | .flog2 h o => Sys2Proof.Machine.execFlog2 h o s
  | .fsinpi h o => Sys2Proof.Machine.execFsinpi h o s
  | .fcospi h o => Sys2Proof.Machine.execFcospi h o s
  | .frint h o => Sys2Proof.Machine.execFrint h o s
  | .fclass h o => Sys2Proof.Machine.execFclass h o s
  | .dadd h o => Sys2Proof.Machine.execDadd h o s
  | .dsub h o => Sys2Proof.Machine.execDsub h o s
  | .dmul h o => Sys2Proof.Machine.execDmul h o s
  | .dfma h o => Sys2Proof.Machine.execDfma h o s
  | .dmin h o => Sys2Proof.Machine.execDmin h o s
  | .dmax h o => Sys2Proof.Machine.execDmax h o s
  | .dcmp h o => Sys2Proof.Machine.execDcmp h o s
  | .ddiv h o => Sys2Proof.Machine.execDdiv h o s
  | .dsqrt h o => Sys2Proof.Machine.execDsqrt h o s
  | .cvt h o => Sys2Proof.Machine.execCvt h o s
  | .cvtq h o => Sys2Proof.Machine.execCvtq h o s
  | .cvtd h o => Sys2Proof.Machine.execCvtd h o s
  | .mxq h o => Sys2Proof.Machine.execMxq h o s
  | .shfl h o => Sys2Proof.Machine.execShfl h o s
  | .voteAll h o => Sys2Proof.Machine.execVoteAll h o s
  | .voteAny h o => Sys2Proof.Machine.execVoteAny h o s
  | .voteBal h o => Sys2Proof.Machine.execVoteBal h o s
  | .voteEq h o => Sys2Proof.Machine.execVoteEq h o s
  | .gred h o => Sys2Proof.Machine.execGred h o s
  | .gscan h o => Sys2Proof.Machine.execGscan h o s
  | .topk h o => Sys2Proof.Machine.execTopk h o s
  | .matchLanes h o => Sys2Proof.Machine.execMatchLanes h o s
  | .rnd h o => Sys2Proof.Machine.execRnd h o s
  | .rndu h o => Sys2Proof.Machine.execRndu h o s
  | .seedr h d => Sys2Proof.Machine.execSeedr h d s
  | .ld h o => Sys2Proof.Machine.execLd h o s
  | .st h o => Sys2Proof.Machine.execSt h o s
  | .gather h o => Sys2Proof.Machine.execGather h o s
  | .scatter h o => Sys2Proof.Machine.execScatter h o s
  | .atom h o => Sys2Proof.Machine.execAtom h o s
  | .cas h o => Sys2Proof.Machine.execCas h o s
  | .red h o => Sys2Proof.Machine.execRed h o s
  | .redseq h o => Sys2Proof.Machine.execRedseq h o s
  | .fence h o => Sys2Proof.Machine.execFence h o s
  | .pref h o => Sys2Proof.Machine.execPref h o s
  | .cmaintInv h o => Sys2Proof.Machine.execCmaintInv h o s
  | .cmaintClean h o => Sys2Proof.Machine.execCmaintClean h o s
  | .cmaintFlush h o => Sys2Proof.Machine.execCmaintFlush h o s
  | .cmaintTinv h o => Sys2Proof.Machine.execCmaintTinv h o s
  | .ldp h o => Sys2Proof.Machine.execLdp h o s
  | .stp h o => Sys2Proof.Machine.execStp h o s
  | .pqry h o => Sys2Proof.Machine.execPqry h o s
  | .lds h o => Sys2Proof.Machine.execLds h o s
  | .sts h o => Sys2Proof.Machine.execSts h o s
  | .atoms h o => Sys2Proof.Machine.execAtoms h o s
  | .presQuery h o => Sys2Proof.Machine.execPresQuery h o s
  | .presSet h o => Sys2Proof.Machine.execPresSet h o s
  | .presClear h o => Sys2Proof.Machine.execPresClear h o s
  | .rrot h o => Sys2Proof.Machine.execRrot h o s
  | .hclaim h a => Sys2Proof.Machine.execHclaim h a s
  | .hfree h => Sys2Proof.Machine.execHfree h s
  | .hins h o => Sys2Proof.Machine.execHins h o s
  | .hprobe h o => Sys2Proof.Machine.execHprobe h o s
  | .hdel h o => Sys2Proof.Machine.execHdel h o s
  | .hacc h o => Sys2Proof.Machine.execHacc h o s
  | .hdrain h o => Sys2Proof.Machine.execHdrain h o s
  | .hstat h o => Sys2Proof.Machine.execHstat h o s
  | .rdefDefine h o => Sys2Proof.Machine.execRdefDefine h o s
  | .rdefFree h a => Sys2Proof.Machine.execRdefFree h a s
  | .rdefAdopt h a => Sys2Proof.Machine.execRdefAdopt h a s
  | .rpush h o => Sys2Proof.Machine.execRpush h o s
  | .rpop h o => Sys2Proof.Machine.execRpop h o s
  | .rsteal h o => Sys2Proof.Machine.execRsteal h o s
  | .renq h o => Sys2Proof.Machine.execRenq h o s
  | .gset h g => Sys2Proof.Machine.execGset h g s
  | .gres h o => Sys2Proof.Machine.execGres h o s
  | .qsub h o => Sys2Proof.Machine.execQsub h o s
  | .qpop h o => Sys2Proof.Machine.execQpop h o s
  | .qstat h o => Sys2Proof.Machine.execQstat h o s
  | .qwait h o => Sys2Proof.Machine.execQwait h o s
  | .mloop h o => Sys2Proof.Machine.execMloop h o s
  | .mwaitConsumed h d => Sys2Proof.Machine.execMwaitConsumed h d s
  | .mwaitDone h d => Sys2Proof.Machine.execMwaitDone h d s
  | .mwaitAll h => Sys2Proof.Machine.execMwaitAll h s
  | .mzero h o => Sys2Proof.Machine.execMzero h o s
  | .mdrain h o => Sys2Proof.Machine.execMdrain h o s
  | .mstore h o => Sys2Proof.Machine.execMstore h o s
  | .mstadd h o => Sys2Proof.Machine.execMstadd h o s
  | .mldf h o => Sys2Proof.Machine.execMldf h o s
  | .mscan h o => Sys2Proof.Machine.execMscan h o s
  | .mcarry h o => Sys2Proof.Machine.execMcarry h o s
  | .nop h => Sys2Proof.Machine.execNop h s
  | .bra h o => Sys2Proof.Machine.execBra h o s
  | .brx h o => Sys2Proof.Machine.execBrx h o s
  | .call h o => Sys2Proof.Machine.execCall h o s
  | .callx h o => Sys2Proof.Machine.execCallx h o s
  | .ret h o => Sys2Proof.Machine.execRet h o s
  | .exit h => Sys2Proof.Machine.execExit h s
  | .join h m => Sys2Proof.Machine.execJoin h m s
  | .leave h m => Sys2Proof.Machine.execLeave h m s
  | .waitm h m => Sys2Proof.Machine.execWaitm h m s
  | .mclr h m => Sys2Proof.Machine.execMclr h m s
  | .mget h o => Sys2Proof.Machine.execMget h o s
  | .bari h o => Sys2Proof.Machine.execBari h o s
  | .bara h o => Sys2Proof.Machine.execBara h o s
  | .barw h o => Sys2Proof.Machine.execBarw h o s
  | .bars h bar => Sys2Proof.Machine.execBars h bar s
  | .sleep h n => Sys2Proof.Machine.execSleep h n s
  | .sigw h o => Sys2Proof.Machine.execSigw h o s
  | .trap h imm => Sys2Proof.Machine.execTrap h imm s
  | .tretResume h keepp => Sys2Proof.Machine.execTretResume h keepp s
  | .tretSkip h keepp => Sys2Proof.Machine.execTretSkip h keepp s
  | .tretRedirect h o => Sys2Proof.Machine.execTretRedirect h o s
  | .tkillThread h code => Sys2Proof.Machine.execTkillThread h code s
  | .tkillGroup h code => Sys2Proof.Machine.execTkillGroup h code s
  | .tkillTeam h code => Sys2Proof.Machine.execTkillTeam h code s
  | .tkillGrid h code => Sys2Proof.Machine.execTkillGrid h code s
  | .tinfo h o => Sys2Proof.Machine.execTinfo h o s
  | .bkpt h imm => Sys2Proof.Machine.execBkpt h imm s
  | .launch h o => Sys2Proof.Machine.execLaunch h o s
  | .seedw h a => Sys2Proof.Machine.execSeedw h a s
  | .svr h o => Sys2Proof.Machine.execSvr h o s
  | .pmonRead h o => Sys2Proof.Machine.execPmonRead h o s
  | .pmonArm h a => Sys2Proof.Machine.execPmonArm h a s
  | .pmonFreeze h a => Sys2Proof.Machine.execPmonFreeze h a s
  | .illegalOp w => Sys2Proof.Machine.execIllegalOp w s
  | .pairWord o => Sys2Proof.Machine.execPairWord o s
  | .teamQueuePush t q slot => Sys2Proof.Machine.execTeamQueuePush t q slot s
  | .teamQueuePop t q => Sys2Proof.Machine.execTeamQueuePop t q s
  | .tokenPop t q => Sys2Proof.Machine.execTokenPop t q s
  | .longResultLands t id => Sys2Proof.Machine.execLongResultLands t id s
  | .gapExpiry t => Sys2Proof.Machine.execGapExpiry t s
  | .sleepExpiry t => Sys2Proof.Machine.execSleepExpiry t s
  | .handlerEntry t => Sys2Proof.Machine.execHandlerEntry t s
  | .segmentReload team seg => Sys2Proof.Machine.execSegmentReload team seg s
  | .lineArrival cmd line => Sys2Proof.Machine.execLineArrival cmd line s
  | .consumedPoint cmd => Sys2Proof.Machine.execConsumedPoint cmd s
  | .donePoint cmd => Sys2Proof.Machine.execDonePoint cmd s
  | .copy1d cmd => Sys2Proof.Machine.execCopy1d cmd s
  | .copy2d cmd => Sys2Proof.Machine.execCopy2d cmd s
  | .copy3d cmd => Sys2Proof.Machine.execCopy3d cmd s
  | .fill cmd => Sys2Proof.Machine.execFill cmd s
  | .sort cmd => Sys2Proof.Machine.execSort cmd s
  | .sortseg cmd => Sys2Proof.Machine.execSortseg cmd s
  | .trvq cmd => Sys2Proof.Machine.execTrvq cmd s
  | .trvpair cmd => Sys2Proof.Machine.execTrvpair cmd s
  | .fact cmd => Sys2Proof.Machine.execFact cmd s
  | .solve cmd => Sys2Proof.Machine.execSolve cmd s
  | .solvebwd cmd => Sys2Proof.Machine.execSolvebwd cmd s
  | .lcp cmd => Sys2Proof.Machine.execLcp cmd s
  | .bred cmd => Sys2Proof.Machine.execBred cmd s
  | .rowz cmd => Sys2Proof.Machine.execRowz cmd s
  | .rowcp cmd => Sys2Proof.Machine.execRowcp cmd s
  | .embag cmd => Sys2Proof.Machine.execEmbag cmd s
  | .coll cmd => Sys2Proof.Machine.execColl cmd s
  | .waveApply team => Sys2Proof.Machine.execWaveApply team s
  | .sigwRecheck t => Sys2Proof.Machine.execSigwRecheck t s
  | .contributionArrival id => Sys2Proof.Machine.execContributionArrival id s
  | .contributionApply set => Sys2Proof.Machine.execContributionApply set s
  | .renqArrival id => Sys2Proof.Machine.execRenqArrival id s
  | .overflowDelivery id => Sys2Proof.Machine.execOverflowDelivery id s
  | .hostNop ring => Sys2Proof.Machine.execHostNop ring s
  | .hostLaunch ring => Sys2Proof.Machine.execHostLaunch ring s
  | .hostSignal ring => Sys2Proof.Machine.execHostSignal ring s
  | .signalStore id => Sys2Proof.Machine.execSignalStore id s
  | .hostPacketSkipped ring => Sys2Proof.Machine.execHostPacketSkipped ring s
  | .dependencyMet launch k => Sys2Proof.Machine.execDependencyMet launch k s
  | .teamPlacement team core => Sys2Proof.Machine.execTeamPlacement team core s
  | .thawSwap core ctx => Sys2Proof.Machine.execThawSwap core ctx s
  | .teamRetire team => Sys2Proof.Machine.execTeamRetire team s
  | .lullWatchdog ctx => Sys2Proof.Machine.execLullWatchdog ctx s
  | .registerContext o => Sys2Proof.Machine.execRegisterContext o s
  | .releaseContext o => Sys2Proof.Machine.execReleaseContext o s
  | .preemptContext o => Sys2Proof.Machine.execPreemptContext o s
  | .resumeContext o => Sys2Proof.Machine.execResumeContext o s
  | .preemptTeam o => Sys2Proof.Machine.execPreemptTeam o s
  | .kill o => Sys2Proof.Machine.execKill o s
  | .setSeed o => Sys2Proof.Machine.execSetSeed o s
  | .checkpoint o => Sys2Proof.Machine.execCheckpoint o s
  | .checkpointTaken ctx => Sys2Proof.Machine.execCheckpointTaken ctx s
  | .restore o => Sys2Proof.Machine.execRestore o s
  | .partitionChange o => Sys2Proof.Machine.execPartitionChange o s
  | .partitionChangeComplete die => Sys2Proof.Machine.execPartitionChangeComplete die s
  | .assignHostWorkRings o => Sys2Proof.Machine.execAssignHostWorkRings o s
  | .assignQueuePairs o => Sys2Proof.Machine.execAssignQueuePairs o s
  | .writeWindowEntry o => Sys2Proof.Machine.execWriteWindowEntry o s
  | .assignMonitor o => Sys2Proof.Machine.execAssignMonitor o s
  | .readMailbox o => Sys2Proof.Machine.execReadMailbox o s
  | .startSequence rep => Sys2Proof.Machine.execStartSequence rep s
  | .getVersion req => Sys2Proof.Machine.execGetVersion req s
  | .getCapabilities req => Sys2Proof.Machine.execGetCapabilities req s
  | .negotiateAlgorithms req => Sys2Proof.Machine.execNegotiateAlgorithms req s
  | .getDigests req => Sys2Proof.Machine.execGetDigests req s
  | .getCertificate req => Sys2Proof.Machine.execGetCertificate req s
  | .challenge req => Sys2Proof.Machine.execChallenge req s
  | .getMeasurements req => Sys2Proof.Machine.execGetMeasurements req s
  | .powerClockLower mhz => Sys2Proof.Machine.execPowerClockLower mhz s
  | .monitorSample => Sys2Proof.Machine.execMonitorSample s
  | .rdmaWrite f va data => Sys2Proof.Machine.execRdmaWrite f va data s
  | .rdmaRead f va len => Sys2Proof.Machine.execRdmaRead f va len s
  | .send f data => Sys2Proof.Machine.execSend f data s
  | .fetchAndAdd f va val => Sys2Proof.Machine.execFetchAndAdd f va val s
  | .compareAndSwap f va cmp swap => Sys2Proof.Machine.execCompareAndSwap f va cmp swap s
  | .congestionNotification qp => Sys2Proof.Machine.execCongestionNotification qp s
  | .pauseFrame port prio quanta => Sys2Proof.Machine.execPauseFrame port prio quanta s
  | .discardedFrame port => Sys2Proof.Machine.execDiscardedFrame port s
  | .collectiveChunk m => Sys2Proof.Machine.execCollectiveChunk m s
  | .collectiveResult m => Sys2Proof.Machine.execCollectiveResult m s
  | .renqPacket m => Sys2Proof.Machine.execRenqPacket m s
  | .remoteAccessError op => Sys2Proof.Machine.execRemoteAccessError op s
  | .retryExhausted qp => Sys2Proof.Machine.execRetryExhausted qp s
  | .remoteWriteAcknowledged op => Sys2Proof.Machine.execRemoteWriteAcknowledged op s
  | .powerOff => Sys2Proof.Machine.execPowerOff s
  | .arithmeticClockRestored mhz => Sys2Proof.Machine.execArithmeticClockRestored mhz s
  | .firmwareUpdate img => Sys2Proof.Machine.execFirmwareUpdate img s
  | .managementMonitorCommand mon freeze => Sys2Proof.Machine.execManagementMonitorCommand mon freeze s

end Sys2Proof.Machine
end

