-- ==== Sys2Proof/Machine/Schedule.lean ====
section
/-! DEFINITION. What a step does next (log 3, DESIGN CHOICE): the order of retries, due events, enabled events and issue; arbitration and the issue set (R51 to R55, R135); fetch (R16, R17); the clocks (R3, R12, R50); and what follows every effect. -/

namespace Sys2Proof.Machine

/-! ### Fetch (R16, R17) -/

/-- The word that eight bytes hold. -/
def wordFrom (bs : List Byte) : DWord := BitVec.ofNat 64 (leNat bs)

/-- The words that threads may fetch at a physical address: the present one, and those before it that R17 does not rule out for any of them. (log 7, DESIGN CHOICE) -/
def State.fetchable (s : State) (ts : List Tid) (pa : Nat) : List DWord :=
  let now := s.readPhys pa 8
  (now :: oldWords (fun e => ts.any (s.fetchCertain e)) pa s.icache now).map wordFrom

/-- Fetch at a PC of a context, for some threads. The error is the fault code. A page of a remote window is read at its remote end, as a load of eight bytes would be. (log 71, DESIGN CHOICE) -/
def State.fetch (s : State) (core ctx pc : Nat) (ts : List Tid) : Except Nat DWord × State :=
  if pc % 8 ≠ 0 then (.error fcMisalign, s)
  else
    match s.translate core ctx pc .fetch (fun x => leafRm x.leaf && (s.remote? ctx x 8).isNone) with
    | (.error e, s) => (.error e, s)
    | (.ok x, s) =>
      if leafRm x.leaf then
        match s.remote? ctx x 8 with
        | none => (.error fcPageAttr, s)
        | some (win, ra) =>
          match s.remoteRead ctx 8 (.remoteRead win.qp win.rkey ra 8) with
          | (none, s) => (.error fcPagePerm, s)
          | (some bs, s) => (.ok (wordFrom bs), s)
      else if s.marked x.pa 8 then (.error fcMemUe, s.mailUe ctx x.pa pc pc (homeDie x.leaf x.pa))
      else if s.icUe.contains (core, x.pa / 32) then (.error fcMemUe, s.mailCopy core ctx x.pa pc pc)
      else
        let ws := s.fetchable ts x.pa
        let k := s.pick ws.length
        (.ok (ws.getD k.1 0), k.2)

/-! ### Arbitration (R51 to R55) -/

/-- A thread that may issue, with what arbitration looks at. -/
structure Ready where
  tid : Tid
  role : Nat
  pc : DWord
  handler : Bool
  stamp : Nat
  gw : Bool
  deriving DecidableEq, Repr

/-- Eligible: not parked, not held, not in the middle of a word, and not held by GAP (R53, R54). (log 64, DEDUCED) -/
def Thread.eligible (th : Thread) (now : Nat) : Bool :=
  th.parks.isEmpty && th.pend.isNone && !th.held && decide (th.gapUntil = 0 ∨ th.gapUntil < now)

/-- The eligible threads of a pipe. -/
def State.readyOn (s : State) (core pipe : Nat) : List Ready :=
  (s.teams.filter fun t => decide (t.core = core ∧ t.place = .resident)).flatMap fun t =>
    (t.groups.filter fun g => decide (g.pipe = pipe)).flatMap fun g =>
      (g.threads.filter fun th => th.eligible s.clk.acycle).map fun th =>
        { tid := { team := t.key, group := g.num, lane := th.lane }, role := g.role, pc := th.pc, handler := th.handler, stamp := th.stamp,
          gw := th.giveWay }

/-- Two threads may stand in one issue set (R51). -/
def Ready.same (a b : Ready) : Bool := decide (a.tid.team = b.tid.team ∧ a.handler = b.handler ∧ a.pc = b.pc)

/-- A comes before b in the age order: stamp, then group, then lane. -/
def Ready.before (a b : Ready) : Bool :=
  decide (a.stamp < b.stamp) ||
  (decide (a.stamp = b.stamp) && (decide (a.tid.group < b.tid.group) || (decide (a.tid.group = b.tid.group) && decide (a.tid.lane < b.tid.lane))))

/-- The thread that gives a PC its rank: the oldest that stands with one. -/
def rankOf (rs : List Ready) (a : Ready) : Ready := rs.foldl (fun m b => if b.same a && b.before m then b else m) a

/-- A role of a team gives way for its share of a queue (R55). -/
def State.roleGivesWay (s : State) (team role : Nat) : Bool :=
  match s.team? team with
  | none => false
  | some t => (s.descOf t).queues.any fun q =>
      let n := t.queueLen q.num
      let d := 2 ^ q.ldepth
      (decide (q.prod = role) && decide (3 * d ≤ 4 * n)) || (decide (q.cons = role) && decide (4 * n ≤ d))

/-- The set at a thread's PC gives way. -/
def State.setGivesWay (s : State) (rs : List Ready) (rank : Ready) : Bool :=
  (rs.any fun b => b.same rank && b.gw) || s.roleGivesWay rank.tid.team rank.role

/-- The ranks of a pipe's PCs with their classes: those not under give-way first. -/
def State.ranks (s : State) (rs : List Ready) : List (Bool × Ready) :=
  ((rs.filter fun a => decide (rankOf rs a = a)).map fun a => (s.setGivesWay rs a, a))

/-- One rank stands before another. -/
def rankBefore (a b : Bool × Ready) : Bool := (!a.1 && b.1) || ((a.1 == b.1) && a.2.before b.2)

/-- The ranks that no other stands before: one, or several of different teams, of which any may issue. -/
def firstRanks (ks : List (Bool × Ready)) : List Ready := (ks.filter fun a => ks.all fun b => !rankBefore b a).map fun a => a.2

/-- For each lane, the oldest thread of some. -/
def laneOldest (rs : List Ready) : List Tid :=
  (List.range 64).filterMap fun l =>
    match rs.filter fun a => decide (a.tid.lane = l) with
    | [] => none
    | a :: as => some (as.foldl (fun m b => if b.before m then b else m) a).tid

/-- A word whose set is drawn from one group: classes 3 and 6 (R135, R166). -/
def oneGroup (w : DWord) : Bool :=
  !w.getLsbD 63 && decide ((w.extractLsb' 52 3).toNat = 3 ∨ (w.extractLsb' 52 3).toNat = 6)

/-- The threads of the set at a rank's PC, once its word is known. -/
def setAt (rs : List Ready) (rank : Ready) (w : DWord) : List Tid :=
  laneOldest (rs.filter fun b => b.same rank && (!oneGroup w || decide (b.tid.group = rank.tid.group)))

/-- GW has had its arbitration (R54). -/
def State.clearGw (s : State) (rs : List Ready) : State :=
  (rs.filter fun a => a.gw).foldl (fun s a => s.updThread a.tid fun th => { th with giveWay := false }) s

/-- The place of a pipe in a cycle's order of issue. -/
def pipeIndex (core pipe : Nat) : Nat := 4 * core + pipe

/-- The first pipe, not before the turn, that has an eligible thread. -/
def State.nextPipe (s : State) : Option (Nat × Nat) :=
  (s.teams.filter fun t => decide (t.place = .resident)).foldl (fun m t =>
    t.groups.foldl (fun m g =>
      let i := pipeIndex t.core g.pipe
      if decide (i < s.turn) || !(g.threads.any fun th => th.eligible s.clk.acycle) then m
      else match m with
        | some (c, p) => if i < pipeIndex c p then some (t.core, g.pipe) else m
        | none => some (t.core, g.pipe)) m) none

/-- What a step is about to do. -/
inductive Act where
  /-- The machine cannot go on. -/
  | stop (f : Fault)
  /-- An effect, at a state that has been made ready for it. -/
  | run (i : Instr) (s : State)
  /-- A step without an effect of its own. -/
  | quiet (s : State)

/-- A fetch that fails: every thread of the set takes the fault, with the fetched address as its PC (R16). (log 65, DEDUCED) -/
def State.fetchFault (s : State) (ts : List Tid) (pc : DWord) (code : Nat) : State :=
  ts.foldl (fun s t => s.takeFault t { code := code, fpc := pc, rpc := pc, addr := pc }) s

/-- A pipe issues: the set of the rank that comes first takes its word. -/
def State.issueOn (s : State) (core pipe : Nat) : Act :=
  let rs := s.readyOn core pipe
  let firsts := firstRanks (s.ranks rs)
  let k := s.pick firsts.length
  match firsts[k.1]? with
  | none => .quiet { s with turn := pipeIndex core pipe + 1 }
  | some rank =>
    let ctx := match s.team? rank.tid.team with | some t => t.ctx | none => 0
    let s : State := { k.2.clearGw rs with turn := pipeIndex core pipe + 1 }
    let ts := laneOldest (rs.filter fun b => b.same rank)
    match s.fetch core ctx rank.pc.toNat ts with
    | (.error e, s) => .quiet (s.fetchFault ts rank.pc e)
    | (.ok w, s) =>
      let f := (s.markThaw core ctx).fresh
      .run (decode w)
        { f.2 with
          cur := some { core := core, pipe := pipe, team := rank.tid.team, lanes := setAt rs rank w, pc := rank.pc, word := w, issue := f.1 } }

/-! ### Retries (R61, R259) -/

/-- The word that a lane stands in the middle of. -/
def State.pendOf (s : State) (t : Tid) : Option Pend := (s.thread? t).bind fun th => th.pend

/-- A lane stands in the middle of the word of an issue number. -/
def State.pendsOn (s : State) (n : Nat) (t : Tid) : Bool := (s.pendOf t).any fun p => decide (p.issue = n)

/-- The lanes of a word that act again together, in ascending order: those whose waits have ended. A word that acts as a whole waits for all of its lanes that have not finished it (R167, R259). -/
def State.retrySet (s : State) (p : Pend) : List Tid :=
  let mine := p.set.filter (s.pendsOn p.issue)
  if p.joint && mine.any (fun t => !s.retries.contains t) then [] else mine.filter fun t => s.retries.contains t

/-- Lanes act again in the middle of their word. (log 96, DESIGN CHOICE) -/
def State.retryOn (s : State) (tm : Team) (g : Group) (p : Pend) (ts : List Tid) : Act :=
  let had := ts.map fun t => (t, match s.pendOf t with | some p => p.popped | none => [])
  let s : State := { s with retries := s.retries.filter fun x => !ts.contains x }
  .run (decode p.word)
    { (ts.foldl (fun s t => s.updThread t fun th => { th with pend := none, waking := false }) s) with
      cur := some { core := tm.core, pipe := g.pipe, team := tm.key, lanes := ts, pc := p.pc, word := p.word, retry := true,
                    set := p.set, popped := had, issue := p.issue, map := p.map } }

/-- What a lane whose wait has ended does, with the others of its word; a team off its core waits for its return. -/
def State.retryLane (s : State) (t : Tid) : Option Act :=
  match s.team? t.team, s.group? t, s.pendOf t with
  | some tm, some g, some p =>
    if tm.place = .swapped then none
    else match s.retrySet p with | [] => none | ts => some (s.retryOn tm g p ts)
  | _, _, _ => none

/-- Lanes whose waits have ended act again before any later word. One that has left its word in the meantime is forgotten. -/
def State.retryNow (s : State) : Option Act :=
  let live := s.retries.filter fun t => (s.pendOf t).isSome
  if live.length < s.retries.length then some (.quiet { s with retries := live }) else live.findSome? s.retryLane

/-! ### Events that are due -/

/-- The cycle at which a sleeping thread wakes. -/
def Thread.wakeCycle (th : Thread) : Option Nat := th.parks.findSome? fun k => match k with | .sleep w => some w | _ => none

/-- A thread waits to enter its handler, and can: there is a frame for it or room for one more reserve segment, or no handler any more (R82, R89, R355). -/
def State.canEnter (s : State) (tm : Team) (g : Group) (th : Thread) : Bool :=
  (th.parks.any fun k => match k with | .entry _ => true | _ => false) && th.longs.isEmpty && (s.entryTouch tm g).isNone &&
  ((s.ctx? tm.ctx).any (fun c => decide (c.hentry = 0)) || g.frame.isSome || (s.freeFrame tm.core tm.ctx false).isSome || s.roomFor tm.ctx tm.core 1)

/-- The due event of one thread: GAP is over, a sleep is 16 cycles over, the handler can be entered. -/
def State.threadDue (s : State) (tm : Team) (g : Group) (th : Thread) : Option Instr :=
  let t : Tid := { team := tm.key, group := g.num, lane := th.lane }
  if th.gapUntil ≠ 0 ∧ th.gapUntil < s.clk.acycle then some (.gapExpiry t)
  else if th.wakeCycle.any fun w => decide (w + 16 ≤ s.clk.cycle.toNat) then some (.sleepExpiry t)
  else if s.canEnter tm g th then some (.handlerEntry t)
  else none

/-- The first event that is due: of a thread, a retirement, a Thaw swap, a watchdog, a removal, a checkpoint. -/
def State.due (s : State) : Option Instr :=
  (s.teams.findSome? fun tm => if tm.place ≠ .resident then none else
    tm.groups.findSome? fun g => g.threads.findSome? fun th => s.threadDue tm g th) <|>
  (s.teams.findSome? fun tm => if tm.place ≠ .retired && s.spent tm then some (.teamRetire tm.key) else none) <|>
  (s.thaw.findSome? fun x => if s.thawReady x.1 x.2.1 then some (.thawSwap x.1 x.2.1) else none) <|>
  (s.contexts.findSome? fun c => if s.lullDue c then some (.lullWatchdog c.id) else none) <|>
  (s.removing.findSome? fun d => if s.removalDone d then some (.partitionChangeComplete d) else none) <|>
  (s.contexts.findSome? fun c => if c.ckpt.isSome && s.atBoundary c.id then some (.checkpointTaken c.id) else none)

/-! ### Events that may happen -/

/-- The step that runs a command, by its code. -/
def cmdStep (c : Cmd) : Instr :=
  match c.code with
  | 0x01 => .copy1d c.id | 0x02 => .copy2d c.id | 0x03 => .copy3d c.id | 0x04 => .fill c.id
  | 0x10 => .sort c.id | 0x11 => .sortseg c.id | 0x20 => .trvq c.id | 0x21 => .trvpair c.id
  | 0x30 => .fact c.id | 0x31 => .solve c.id | 0x32 => .solvebwd c.id | 0x33 => .lcp c.id
  | 0x40 => .bred c.id | 0x41 => .rowz c.id | 0x42 => .rowcp c.id | 0x50 => .embag c.id | 0x60 => .coll c.id
  | _ => .consumedPoint c.id

/-- A command waits to start, or to be exchanged. -/
def State.canStart (s : State) (c : Cmd) : Bool :=
  match c.eng with
  | .rrot _ => match s.rrots.find? fun q => decide (q.cmd = c.id) with
    | some q => decide (c.stage = .queued) && s.rrotReady (s.rrotBlock q)
    | none => false
  | _ => s.startable c

/-- The oldest startable command of an engine alone starts next. -/
def State.startsNext (s : State) (c : Cmd) : Bool :=
  s.canStart c && !(s.cmds.any fun e => decide (e.eng = c.eng ∧ e.id < c.id) && s.canStart e)

/-- A token that is owed can be posted. -/
def State.canPost (s : State) (c : Cmd) : Bool :=
  match c.owed with
  | [] => false
  | (due, _) :: _ => !s.tokenBehind c due && match s.team? c.team with | some t => decide (t.queueLen c.tokenQueue < 32) | none => true

/-- What may happen to a command. -/
def State.cmdEvents (s : State) (c : Cmd) : List Instr :=
  (if s.startsNext c then [cmdStep c] else []) ++
  (if c.stage = .running && (match c.eng with | .rrot _ | .array _ _ => false | _ => true) || decide (c.stage = .consumed) && s.canPost c
    then [.consumedPoint c.id] else []) ++
  (if c.stage = .running ∨ c.stage = .consumed then c.lines.map fun l => Instr.lineArrival c.id l else []) ++
  (if s.finishable c || (decide (c.stage = .done) && s.canPost c) then [.donePoint c.id] else [])

/-- What may happen to a thread: its long results land, its sleep ends. -/
def State.threadEvents (s : State) (t : Tid) (th : Thread) : List Instr :=
  ((th.longs.filter (s.landable t)).map fun l => Instr.longResultLands t l.id) ++
  (if th.wakeCycle.any fun w => decide (w ≤ s.clk.cycle.toNat) then [.sleepExpiry t] else [])

/-- Missing segments that a thread touches, reserve segments from 64: where it is parked, where its results land, and for its handler. -/
def State.threadTouches (s : State) (tm : Team) (g : Group) (th : Thread) : List Nat :=
  (th.parks.filterMap fun k => match k with
    | .segment n => some n
    | .reserve id => some (64 + id)
    | .entry _ => (s.entryTouch tm g).map fun id => 64 + id
    | _ => none) ++
  (th.longs.filter fun l => l.ready).filterMap fun l => s.landTouch { team := tm.key, group := g.num, lane := th.lane } l

/-- Missing segments of a resident team that something touches: its next waiting word, its threads, its commands (R90). -/
def State.touched (s : State) (tm : Team) : List Nat :=
  (((s.waveTouch tm).map fun x => x.2) ++ (tm.groups.flatMap fun g => g.threads.flatMap (s.threadTouches tm g)) ++
    ((tm.segs.filter fun g => g.saved.isSome).map fun g => g.index).filter fun i =>
      s.cmds.any fun c => decide (c.team = tm.key) && s.cmdNeeds c (segBase (s.descOf tm) tm i)).dedup

/-- The next wave of a team has a word that can be applied, or its load-store unit an access that can be performed. -/
def State.waveCan (s : State) (tm : Team) : Bool :=
  (tm.lsu.any s.lsuReady) ||
  match tm.nextWave with
  | none => false
  | some w => (decide (w = 0) || tm.waveReady w) && match tm.waveList w with | o :: _ => (s.applyOp o).isSome | [] => false

/-- What may happen to a team. -/
def State.teamEvents (s : State) (tm : Team) : List Instr :=
  (tm.groups.flatMap fun g => g.threads.flatMap fun th => s.threadEvents { team := tm.key, group := g.num, lane := th.lane } th) ++
  (if tm.place = .resident then (s.touched tm).map fun n => Instr.segmentReload tm.key n else []) ++
  (if s.waveCan tm then [.waveApply tm.key] else [])

/-- A packet on its way may arrive. -/
def State.canArrive (s : State) (p : RenqPkt) : Bool := !s.renqBehind p && (s.takePkt p).isSome

/-- A held packet may be delivered. -/
def State.canDeliver (s : State) (p : RenqPkt) : Bool :=
  !s.heldBehind p && (match s.ring? p.ctx p.target with | some r => !(r.swapped || r.full) | none => true) && (s.takePkt p).isSome

/-- What may happen to a host work ring. -/
def State.hostEvents (s : State) (r : HostRing) : List Instr :=
  match (s.hostPacket r.ring).1 with
  | some (_, .nop, _) => [.hostNop r.ring]
  | some (_, .launch, _) => if s.launchRoom r.ctx then [.hostLaunch r.ring] else []
  | some (_, .signal, _) => [.hostSignal r.ring]
  | some (_, .skip, _) => [.hostPacketSkipped r.ring]
  | none => []

/-- Dependencies of a launch whose signal now meets them or cannot be read. -/
def State.depEvents (s : State) (l : Launch) : List Instr :=
  (List.range 4).filterMap fun k =>
    if l.dropped || l.met.getD k true then none
    else
      let dep := l.d.deps.getD k (0, 0)
      match (s.readVaNat l.ctx dep.1 8).1 with
      | .ok x => if dep.2 ≤ x then some (.dependencyMet l.key k) else none
      | .error _ => some (.dependencyMet l.key k)

/-- Placements that may happen: each core's next waiting team. -/
def State.placements (s : State) : List Instr :=
  if s.launches.all (fun l => (s.waiting l).isEmpty) && s.teams.all (fun t => decide (t.place ≠ .swapped)) then []
  else (List.range 256).filterMap fun k => (s.choose k).map fun c => Instr.teamPlacement c.key k

/-- Steps from outside the module. -/
def external : Instr → Bool
  | .registerContext _ | .releaseContext _ | .preemptContext _ | .resumeContext _ | .preemptTeam _ | .kill _ | .setSeed _ | .checkpoint _
  | .restore _ | .partitionChange _ | .assignHostWorkRings _ | .assignQueuePairs _ | .writeWindowEntry _ | .assignMonitor _ | .readMailbox _
  | .startSequence _ | .getVersion _ | .getCapabilities _ | .negotiateAlgorithms _ | .getDigests _ | .getCertificate _ | .challenge _
  | .getMeasurements _ | .powerClockLower _ | .rdmaWrite _ _ _ | .rdmaRead _ _ _ | .send _ _ | .fetchAndAdd _ _ _ | .compareAndSwap _ _ _ _
  | .congestionNotification _ | .pauseFrame _ _ _ | .discardedFrame _ | .collectiveChunk _ | .collectiveResult _ | .renqPacket _
  | .remoteAccessError _ | .retryExhausted _ | .remoteWriteAcknowledged _ | .powerOff | .arithmeticClockRestored _ | .firmwareUpdate _
  | .managementMonitorCommand _ _ => true
  | _ => false

/-- An order of the command path; orders are performed one at a time, so they wait while a release goes on (R380). -/
def isOrder : Instr → Bool
  | .registerContext _ | .releaseContext _ | .preemptContext _ | .resumeContext _ | .preemptTeam _ | .kill _ | .setSeed _ | .checkpoint _
  | .restore _ | .partitionChange _ | .assignHostWorkRings _ | .assignQueuePairs _ | .writeWindowEntry _ | .assignMonitor _ | .readMailbox _ => true
  | _ => false

/-- Orders wait: a release or a checkpoint goes on, or the first of them is a pre-emption that cannot be made yet (R332, R352, R380). -/
def State.ordersWait (s : State) : Bool :=
  (s.contexts.any fun c => c.releasing.isSome || c.ckpt.isSome) || (s.inputs.find? isOrder).any s.orderWaits

/-- The step from outside that may happen next: the first that is not an order held back. (log 19, DESIGN CHOICE) -/
def State.nextInput (s : State) : Option Instr := s.inputs.find? fun i => external i && !(isOrder i && s.ordersWait)

/-- Everything that may happen at this moment, beside the issue of words. (log 17, DESIGN CHOICE) -/
def State.events (s : State) : List Instr :=
  (s.teams.flatMap s.teamEvents) ++ (s.cmds.flatMap s.cmdEvents) ++
  ((s.contribs.filter s.contribReady).map fun k => Instr.contributionArrival k.id) ++
  ((s.sets.filter fun e => e.held.any fun k => decide (e.pos k.idx = e.applied)).map fun e => Instr.contributionApply (65536 * e.ctx + e.set)) ++
  ((s.renqs.filter s.canArrive).map fun p => Instr.renqArrival p.id) ++
  ((s.held.filter fun h => s.canDeliver h.2).map fun h => Instr.overflowDelivery h.2.id) ++
  (s.hostRings.flatMap s.hostEvents) ++
  ((s.hostSignals.filter fun g => g.after.isEmpty).map fun g => Instr.signalStore g.id) ++
  (s.launches.flatMap s.depEvents) ++ s.placements ++ s.nextInput.toList

/-- Take a step from outside off the list when it happens. -/
def State.taken (s : State) (i : Instr) : State := if external i then { s with inputs := s.inputs.erase i } else s

/-! ### Time -/

/-- One arithmetic cycle passes: the module cycle counter follows at 1,200 MHz, and the Lull counts that stand move with it (R3, R50, R336). -/
def State.tick (s : State) : State :=
  let f := s.clk.frac + 1200
  let d := f / s.clk.mhz
  { s with
    clk := { s.clk with acycle := s.clk.acycle + 1, frac := f % s.clk.mhz, cycle := s.clk.cycle + BitVec.ofNat 64 d }, turn := 0,
    contexts := s.contexts.map fun c => if s.lullStands c.id then { c with lullStart := c.lullStart + d } else c }

/-- The cycle ends; monitors are sampled at every 1,024th module cycle that it passes (R374). -/
def State.endCycle (s : State) : Act :=
  let n := s.tick
  match n.clk.cycle.toNat / 1024 - s.clk.cycle.toNat / 1024 with
  | 0 => .quiet n
  | k + 1 => .run .monitorSample (n.samples k)

/-! ### The next act -/

/-- Issue, or the end of the cycle. -/
def State.issueOrTick (s : State) : Act :=
  match s.nextPipe with
  | some (core, pipe) => s.issueOn core pipe
  | none => s.endCycle

/-- One of the events that may happen, or none of them, as a free value decides. -/
def State.eventOrIssue (s : State) : Act :=
  let es := s.events
  let k := s.pick (es.length + 1)
  match es[k.1]? with
  | some i => .run i (k.2.taken i)
  | none => k.2.issueOrTick

/-- What an unstarted machine does: a module without supply or halted waits for power-on or reset; otherwise the start runs. -/
def State.beforeStart (s : State) : Option Act :=
  let reset := s.inputs.find? fun i => match i with | .startSequence _ => true | _ => false
  if !s.boot.powered ∨ s.boot.halted.isSome then
    match reset with
    | some i => some (.run i (s.taken i))
    | none => some (.stop (if s.boot.powered then .moduleHalted else .poweredOff))
  else if !s.boot.started then some (.run (.startSequence s.boot.plan) s)
  else none

/-- What happens next. -/
def State.nextAct (s : State) : Act :=
  match s.beforeStart with
  | some a => a
  | none =>
    match s.retryNow with
    | some a => a
    | none =>
      match s.due with
      | some i => .run i s
      | none => s.eventOrIssue

/-! ### After every effect -/

/-- A team that has just become PARKED counts from now (R329). -/
def State.markParked (s old : State) : State :=
  { s with teams := s.teams.map fun t =>
      if t.parked && !((old.team? t.key).any Team.parked) then { t with parkedSince := s.clk.cycle.toNat } else t }

/-- A matrix command that is done is still the last that MWAIT looks for while an older one of its group is not (R181). -/
def State.lastNamed (s : State) (c : Cmd) : Bool :=
  c.eng.isArray && s.cmds.any fun e => e.eng.isArray && decide (e.team = c.team ∧ e.group = c.group ∧ e.id < c.id) && e.unfinished

/-- Commands that nothing refers to any more leave the list (R273, R264). -/
def State.dropDone (s : State) : State :=
  { s with cmds := s.cmds.filter fun c => decide (c.stage ≠ .done) || !c.owed.isEmpty || s.faultHeld c || s.lastNamed c }

/-- What follows an effect: the issue set is past, commands come to their queues' heads, launches that are done complete, releases finish, the launch unit looks at its host work rings. -/
def State.settle (s old : State) : State :=
  ({ s with cur := none }.markParked old).takeHeads.dropDone.completeDone.drainLaunches.finishReleases.lookAtRings

end Sys2Proof.Machine
end

