-- ==== Sys2Proof/Machine/Loaded.lean ====
section
/-! DEFINITION. A small started machine with one thread about to fetch a given word (log 9, DESIGN CHOICE): context 0 with one mapped gibibyte, one launch, one team, one group, one live lane. -/

namespace Sys2Proof.Machine

/-- The virtual address at which the word lies. -/
def probePc : Nat := 0x1000
/-- The physical address that virtual address 0 maps to: the start of die 0's die band. -/
def probeBase : Nat := 0x100000000000
/-- The L0 and L1 tables, within the mapped gibibyte. -/
def probeRoot : Nat := 0x100020000000
def probeL1 : Nat := 0x100020040000

/-- The leaf of the gibibyte: valid, readable, writable, executable, RC, home die 0, A and D set (R201). -/
def probeLeaf : Nat := 2 ^ 63 + 2 ^ 62 + probeBase + 0x1D

/-- Memory with the two table entries and the word's eight bytes. -/
def probeMem (w : DWord) : Mem :=
  Mem.setNat (Mem.setNat (Mem.setNat [] probeL1 8 probeLeaf) probeRoot 8 (probeL1 + 3)) (probeBase + probePc) 8 w.toNat

/-- The context: no handler, no rings. -/
def probeCtx (s : State) : Ctx := { s.newCtx 0 with root := probeRoot, save := 0x10000000, lullW := 40 }

/-- The launch: one team with one group of role 0 and the largest register budget. -/
def probeDesc : KDesc :=
  { code := probePc, roles := [some { entry := 0, gmin := 1, gmax := 1, budget := 1536 }, none, none, none], gx := 1, gy := 1, gz := 1,
    scratch := 65536, csco := 4, deps := [(0, 0), (0, 0), (0, 0), (0, 0)] }

def probeLaunch : Launch :=
  { key := 0, ctx := 0, seq := 0, d := probeDesc, seed := 0, met := [true, true, true, true], next := [1] }

/-- The team: lane 0 of its group is the one live thread. -/
def probeTeam (s : State) : Team :=
  { key := 0, ctx := 0, launch := 0, index := 0, copy := 0, core := 0, place := .resident, parkedSince := s.clk.cycle.toNat,
    groups := [{ num := 0, role := 0, pipe := 0, masks := List.replicate 12 {}, cs := List.replicate 4 0,
                 threads := [{ lane := 0, pc := BitVec.ofNat 64 probePc, stamp := s.clk.acycle }] }],
    segs := (List.range 7).map fun i => { index := i, phys := i },
    barriers := List.replicate 16 { n := 64 } }

/-- The machine started, with nothing under way but that thread. -/
def State.loaded (s : State) (w : DWord) : State :=
  { State.reset with
    clk := s.clk, boot := { s.boot with powered := true, started := true, halted := none, dabound := 0, mibound := 49152 },
    mem := probeMem w, contexts := [probeCtx s], launches := [probeLaunch], teams := [probeTeam s],
    outbox := s.outbox, monitors := s.monitors, mailbox := s.mailbox, nextId := s.nextId + 1, freeCtr := s.freeCtr }

end Sys2Proof.Machine
end

