-- ==== Sys2Proof/Machine/Step.lean ====
section
/-! DEFINITION. One step of the machine: what is about to happen (Schedule), its effect (Dispatch), and what follows it. -/

namespace Sys2Proof.Machine

/-- What follows an effect of a step that began in `old`. -/
def settleOutcome (old : State) : Host.Outcome State Fault Refusal → Host.Outcome State Fault Refusal
  | .next s => .next (s.settle old)
  | .fault f => .fault f
  | .refused r => .refused r

/-- One step. -/
def step (s : State) : Host.Outcome State Fault Refusal :=
  match s.nextAct with
  | .stop f => .fault f
  | .run i t => settleOutcome s (exec i t)
  | .quiet t => .next (t.settle s)

/-- The machine with an instruction's word where its next step fetches it: a started machine whose one thread stands at the word (log 9, DESIGN CHOICE). -/
def State.withFetchWord (s : State) (nbits w : Nat) : State := s.loaded (BitVec.ofNat 64 (w % 2 ^ nbits))

end Sys2Proof.Machine
end

