-- ==== Sys2Proof/Safety.lean ====
section
/-! DEFINITION. The terms in which claims are stated: a run that goes on, stores in canonical form, an issue set as R51 draws it, a word that every active lane may execute, the operand values its lanes read, and what a word that only writes registers or predicates leaves alone. -/

namespace Sys2Proof.Machine

/-! ### Safe runs -/

/-- The machine goes on from a state: its next step is neither a fault nor a refusal. -/
def State.safe (s : State) : Prop := ∃ t, step s = .next t

/-- Global memory is in canonical form. -/
def State.memOk (s : State) : Bool := s.mem.wf

/-! ### A word and its set -/

/-- An issue set of R51: threads of one team, each lane at most once. -/
def Cur.ok (c : Cur) : Bool :=
  (c.lanes.all fun t => decide (t.team = c.team ∧ t.lane < 64)) && decide ((c.lanes.map fun t => t.lane).Nodup)

/-- The active lanes of a word: those whose guard holds (R20). -/
def State.actives (s : State) (c : Cur) (h : Hdr) : List Tid :=
  (s.issue c (gapCycles h.gap) h.gw).active c fun th => th.guard h.pg

/-- The set with its active lanes known. -/
def State.curIn (s : State) (c : Cur) (h : Hdr) : Cur := c.withSet (s.actives c h)

/-- The state once the word has issued: its threads have advanced by 8 (R16, R53, R54). -/
def State.begun (s : State) (c : Cur) (h : Hdr) : State :=
  (s.issue c (gapCycles h.gap) h.gw).setCur (s.curIn c h)

/-- The state in which the lanes act: uniform registers that a monitor watches have been counted (R88, R374). -/
def State.entered (s : State) (c : Cur) (h : Hdr) (ops : List Opd) : State :=
  (s.begun c h).countUniform (s.curIn c h) ops (s.actives c h)

/-- No decode trap of R41 in a lane. -/
def State.untrapped (s : State) (k : Checks) (t : Tid) : Bool :=
  match s.thread? t, s.team? t.team, s.group? t with
  | some th, some tm, some g => decide (k.decodeTrap s t th.handler ((s.descOf tm).budget g) = none)
  | _, _, _ => false

/-- A word with this header and these checks is being executed for the first time, its guard field is legal, and no active lane stands in the middle of a word, traps or waits before the word's own effect. -/
def State.clear (s : State) (c : Cur) (h : Hdr) (k : Checks) : Bool :=
  decide (s.cur = some c) && !c.retry && c.popped.isEmpty && c.ok && decide (h.pg ≠ 8) && !(s.entered c h k.ops).someParked (s.actives c h) &&
  (s.actives c h).all fun t =>
    (s.begun c h).untrapped k t && decide ((s.entered c h k.ops).meet t k.ops = .go) &&
      !(k.longs && (s.entered c h k.ops).threadIs t fun th => !th.longs.isEmpty)

/-- The end of a word: MK parks the threads of its set that still wait for results (R57). -/
def State.wordEnd (s : State) (h : Hdr) (c : Cur) : State := if h.marker then s.marker c else s

/-! ### Operands -/

/-- The operands are no q registers, and no long result is outstanding for a register that they read. -/
def State.plain (s : State) (act : List Tid) (ops : List Opd) : Bool :=
  ops.all fun o =>
    (match o.reg with | .q _ => false | _ => true) &&
    (decide (o.use = .wr ∨ o.use = .name) || act.all fun t => (List.range o.n).all fun j =>
      match Reg.file? o.reg j with
      | some (f, i) => (s.pendings t f i).isEmpty
      | none => true)

/-- What a lane reads: the values of its source operands, none for the others. -/
def State.opdVals (s : State) (t : Tid) (ops : List Opd) : List (List Word) :=
  ops.map fun o => if o.use = .wr ∨ o.use = .name then [] else (List.range o.n).map fun j => s.regVal t o.reg j

/-- A lane's result lands in this destination: an s register takes the lowest active lane's alone (R23). -/
def Cur.takes (c : Cur) (t : Tid) (d : Reg) : Bool :=
  match d with
  | .s _ => c.lead t
  | _ => true

/-! ### What a word leaves alone -/

/-- A thread without what its own issue, its results and its accesses change: PC, stamp, GAP, give-way, predicates, outstanding results, the moments of its reads and its fences. -/
def Thread.still (th : Thread) : Thread :=
  { th with pc := 0, stamp := 0, gapUntil := 0, giveWay := false, preds := 0, longs := [], parks := [], seen := 0, floor := 0, fences := [] }

/-- A group without its registers and what its threads' own words change. -/
def Group.still (g : Group) : Group := { g with sregs := [], hregs := [], threads := g.threads.map Thread.still }

/-- The bytes of a pool below the register windows: the scratchpad (R83). -/
def scratchBytes (m : Mem) : Mem := m.filter fun c => decide (c.1 < winRegion)

/-- A team without its registers and what its threads' own words change; its scratchpad stays. -/
def Team.still (t : Team) : Team := { t with pool := scratchBytes t.pool, groups := t.groups.map Group.still }

/-- Every team's scratchpad is the same in two states. -/
def State.scratchKept (s t : State) : Prop :=
  (t.teams.map fun x => (x.key, scratchBytes x.pool)) = s.teams.map fun x => (x.key, scratchBytes x.pool)

/-- Two states differ at most in the registers, predicates, outstanding results and progress of threads, in the event counts of monitors, and in the model's own counters: all of memory, the scratchpads, every queue, mask, barrier, special register and table is the same. -/
def State.sameBeyond (s t : State) : Prop :=
  t.teams.map Team.still = s.teams.map Team.still ∧
  { t with teams := s.teams, poolUe := s.poolUe, frameUe := s.frameUe, monitors := s.monitors, cur := s.cur, nextId := s.nextId } = s

/-- Two states differ at most in the bytes of teams' pools, in outstanding results and progress of threads, and in the model's own counters. -/
def State.sameButPools (s t : State) : Prop :=
  (t.teams.map fun x => { x.still with pool := [] }) = (s.teams.map fun x => { x.still with pool := [] }) ∧
  { t with teams := s.teams, poolUe := s.poolUe, frameUe := s.frameUe, monitors := s.monitors, cur := s.cur, nextId := s.nextId } = s

/-- A register lane of a thread's own: of its window as far as its role's budget, of its group, or of its handler frame. -/
def State.ownReg (s : State) (t : Tid) (r : Reg) (j : Nat) : Bool :=
  match s.team? t.team, s.group? t, r with
  | some tm, some g, .v i => decide (t.lane < 64 ∧ i.val + j < (s.descOf tm).budget g)
  | _, _, .h _ => decide (t.lane < 64)
  | _, _, .s _ => true
  | _, _, _ => false

/-- The register lane (u, r, j) is one of the n registers of destination d in lane t. -/
def isDest (t : Tid) (d : Reg) (n : Nat) (u : Tid) (r : Reg) (j : Nat) : Bool :=
  match d, r with
  | .v a, .v b => decide (t = u ∧ a.val ≤ b.val + j ∧ b.val + j < a.val + n)
  | .h a, .h b => decide (t = u ∧ a.val ≤ b.val + j ∧ b.val + j < a.val + n)
  | .s a, .s b => decide (t.team = u.team ∧ t.group = u.group ∧ a.val ≤ b.val + j ∧ b.val + j < a.val + n)
  | _, _ => false

/-! ### The forms of a word's result -/

/-- A thread of a set when its word issues (R16, R53, R54). -/
def Thread.advance (th : Thread) (pc : DWord) (now gap : Nat) (gw : Bool) : Thread :=
  { th with pc := pc + 8, stamp := now, gapUntil := if gap = 0 then 0 else now + gap, giveWay := gw }

/-- A thread's record once the word has issued: a thread of the set has advanced. -/
def State.issuedThread (s : State) (c : Cur) (h : Hdr) (u : Tid) : Option Thread :=
  if u ∈ c.lanes then (s.thread? u).map fun th => th.advance c.pc s.clk.acycle (gapCycles h.gap) h.gw else s.thread? u

/-- The issue number under which the lanes of a word share its result: that of the word, if it names an s register among its destinations (R57). -/
def Cur.shares (c : Cur) (ds : List Reg) : Option Nat := if ds.any Reg.isS then some c.issue else none

/-- From a thread's record to a later one: one long result more, with these registers, ready to land, and shared under an issue number or not (R56, R57). -/
def gainsLong (a b : Option Thread) (regs : List LReg) (issue : Option Nat) : Prop :=
  ∃ id, b = a.map fun th => { th with longs := th.longs ++ [{ id := id, ready := true, regs := regs, issue := issue }] }

/-- The same of a word that reads memory: the moments of the thread's reads may move on too, and fences that hold nothing back any more may go (R214, R219, R225). -/
def gainsRead (a b : Option Thread) (regs : List LReg) (issue : Option Nat) : Prop :=
  ∃ id seen floor fences, b = a.map fun th =>
    { th with longs := th.longs ++ [{ id := id, ready := true, regs := regs, issue := issue }], seen := seen, floor := floor, fences := fences }

/-- From a thread's record to a later one: only outstanding results differ. -/
def sameButLongs (a b : Option Thread) : Prop := ∃ ls : Thread → List LongRes, b = a.map fun th => { th with longs := ls th }

/-- A thread has no long result on its way to an s register. -/
def State.noSResult (s : State) (u : Tid) : Prop := ∀ th, s.thread? u = some th → ∀ l ∈ th.longs, ∀ x ∈ l.regs, x.file ≠ .s

/-- Registers that are read-only to a thread, or its own. -/
def State.readable (s : State) (u : Tid) (r : Reg) (j : Nat) : Prop := s.ownReg u r j = true ∨ Reg.file? r j = none

/-- A word whose result is short (R56): in every clear state it answers a next state in which each active lane's destination holds `f` of the values it read, an s destination the lowest active lane's (R23), every other register lane is unchanged, the set's threads have advanced and their predicates are unchanged, every other thread is unchanged, and so is everything else. -/
def ShortWord (i : Instr) (h : Hdr) (d : Opd) (ops : List Opd) (f : State → Tid → List (List Word) → List Word) : Prop :=
  ∀ (s : State) (c : Cur), s.clear c h { ops := ops } = true → s.plain (s.actives c h) ops = true →
    ∃ t, exec i s = .next (t.wordEnd h c) ∧ s.sameBeyond t ∧ (∀ u, sameButLongs (s.issuedThread c h u) (t.thread? u)) ∧
      (∀ u, u ∉ c.lanes → d.reg.isS = false ∨ s.noSResult u → t.thread? u = s.thread? u) ∧
      (∀ u ∈ s.actives c h, (s.curIn c h).takes u d.reg = true → ∀ j, j < (f s u (s.opdVals u ops)).length →
        t.regVal u d.reg j = (f s u (s.opdVals u ops)).getD j 0) ∧
      (∀ u r j, s.readable u r j → (∀ a ∈ s.actives c h, isDest a d.reg d.n u r j = false) → t.regVal u r j = s.regVal u r j)

/-- A word whose result is long (R56): in every clear state it answers a next state in which each active lane has one long result more, of its destination registers with `f` of the values it read; every register lane still reads as before, the set's threads have advanced, every other thread is unchanged, and so is everything else. -/
def LongWord (i : Instr) (h : Hdr) (d : Opd) (ops : List Opd) (f : State → Tid → List (List Word) → List Word) : Prop :=
  ∀ (s : State) (c : Cur), s.clear c h { ops := ops } = true → s.plain (s.actives c h) ops = true →
    ∃ t, exec i s = .next (t.wordEnd h c) ∧ s.sameBeyond t ∧ (∀ u, u ∉ s.actives c h → t.thread? u = s.issuedThread c h u) ∧
      (∀ u ∈ s.actives c h, gainsLong (s.issuedThread c h u) (t.thread? u)
        (destRegs ((s.curIn c h).lead u) d.reg 0 (f s u (s.opdVals u ops))) (c.shares [d.reg])) ∧
      (∀ u r j, t.regVal u r j = s.regVal u r j)

/-- A word that writes one predicate (R114): in every clear state it answers a next state in which each active lane's predicate p holds `f` of the values it read, and nothing else has changed but the set's progress. -/
def PredWord (i : Instr) (h : Hdr) (p : BitVec 3) (ops : List Opd) (f : State → Tid → List (List Word) → Bool) : Prop :=
  ∀ (s : State) (c : Cur), s.clear c h { ops := ops } = true → s.plain (s.actives c h) ops = true →
    ∃ t, exec i s = .next (t.wordEnd h c) ∧ s.sameBeyond t ∧ (∀ u, u ∉ s.actives c h → t.thread? u = s.issuedThread c h u) ∧
      (∀ u ∈ s.actives c h, t.thread? u = (s.issuedThread c h u).map fun th => th.setPred p (f s u (s.opdVals u ops))) ∧
      (∀ u r j, t.regVal u r j = s.regVal u r j)

/-- What a word that combines its lanes knows: each active lane with the values it reads (R136). -/
def State.laneVals (s : State) (c : Cur) (h : Hdr) (ops : List Opd) : List (Tid × List (List Word)) :=
  (s.actives c h).map fun t => (t, s.opdVals t ops)

/-- A class 3 word (R136): each active lane has one long result more, which `f` computes from what all active lanes read before any was written; nothing else has changed but the set's progress. -/
def CrossWord (i : Instr) (h : Hdr) (ops : List Opd) (f : State → List (Tid × List (List Word)) → Tid → List (List Word) → List (Reg × List Word)) : Prop :=
  ∀ (s : State) (c : Cur), s.clear c h { ops := ops } = true → s.plain (s.actives c h) ops = true →
    ∃ t, exec i s = .next (t.wordEnd h c) ∧ s.sameBeyond t ∧ (∀ u, u ∉ s.actives c h → t.thread? u = s.issuedThread c h u) ∧
      (∀ u ∈ s.actives c h, gainsLong (s.issuedThread c h u) (t.thread? u)
        ((f s (s.laneVals c h ops) u (s.opdVals u ops)).flatMap fun r => destRegs ((s.curIn c h).lead u) r.1 0 r.2)
        (c.shares ((f s (s.laneVals c h ops) u (s.opdVals u ops)).map fun r => r.1))) ∧
      (∀ u r j, t.regVal u r j = s.regVal u r j)

/-- A class 3 word whose result is a predicate, the same in every active lane (R138). -/
def CrossPred (i : Instr) (h : Hdr) (p : BitVec 3) (ops : List Opd) (f : State → List (Tid × List (List Word)) → Bool) : Prop :=
  ∀ (s : State) (c : Cur), s.clear c h { ops := ops } = true → s.plain (s.actives c h) ops = true →
    ∃ t, exec i s = .next (t.wordEnd h c) ∧ s.sameBeyond t ∧ (∀ u, u ∉ s.actives c h → t.thread? u = s.issuedThread c h u) ∧
      (∀ u ∈ s.actives c h, t.thread? u = (s.issuedThread c h u).map fun th => th.setPred p (f s (s.laneVals c h ops))) ∧
      (∀ u r j, t.regVal u r j = s.regVal u r j)

/-! ### Words that act in one lane alone, or once -/

/-- A clear word whose operands are plain and whose one active lane is t. -/
def State.alone (s : State) (c : Cur) (h : Hdr) (k : Checks) (t : Tid) : Bool :=
  s.clear c h k && s.plain [t] k.ops && decide (s.actives c h = [t])

/-- A clear word whose lowest active lane is t, with plain operands in it. -/
def State.once (s : State) (c : Cur) (h : Hdr) (k : Checks) (t : Tid) : Bool :=
  s.clear c h k && s.plain [t] k.ops && decide ((s.actives c h).head? = some t)

/-- A lane's access in ordinary conditions: it is aligned and passes its checks (R232) through a translation that sets no A or D bit, on a page of this module and no marked sector, by a team that is no twin copy and holds back no writes. -/
def State.reaches (s : State) (t : Tid) (va n : Nat) (p : Perm) (x : Xlat) : Prop :=
  s.checkLane (s.who t) va n p true = (.ok x, s) ∧ leafRm x.leaf = false ∧ s.marked x.pa n = false ∧ x.pa % n = 0 ∧
  ∃ tm, s.team? t.team = some tm ∧ tm.commit = [] ∧ s.isTwin tm = false

/-- A core's L1 holds no copy of the sector of an address that differs from its home slice or has an uncorrectable error. -/
def State.l1Current (s : State) (core pa : Nat) : Prop :=
  ∀ e ∈ s.l1, e.core = core → e.sector = pa / 32 → e.bytes = s.readPhys (32 * (pa / 32)) 32 ∧ e.bad = false

/-- What a lane's long result adds to its thread's record and nothing else: every other thread as it issued, every register and scratchpad as before. -/
def State.loadsOnly (s : State) (c : Cur) (h : Hdr) (t : Tid) (d : Reg) (regs : List LReg) (u : State) : Prop :=
  gainsRead (s.issuedThread c h t) (u.thread? t) regs (c.shares [d]) ∧ (∀ v, v ≠ t → u.thread? v = s.issuedThread c h v) ∧ s.scratchKept u ∧
  ∀ v r j, u.regVal v r j = s.regVal v r j

/-- From a thread's record to a later one: its outstanding results are one more, with these registers and ready to land. -/
def longsGain (a b : Option Thread) (regs : List LReg) (issue : Option Nat) : Prop :=
  ∃ id, b.map (fun th => th.longs) = a.map fun th => th.longs ++ [LongRes.mk id true regs issue]

/-- The header with which a full-form word acts (R18), GATHER always with a marker (R243); none for the pair form, ILLEGAL_OP and the rows that are no words. -/
def hdrOf : Instr → Option Hdr
  | .iadd h _ | .isub h _ | .imul h _ | .imulh h _ | .imad h _ | .imin h _ | .imax h _ | .iabs h _ | .iand h _ | .ior h _ | .ixor h _
  | .iandn h _ | .shl h _ | .shr h _ | .sar h _ | .rotl h _ | .popc h _ | .clz h _ | .brev h _ | .bfe h _ | .bfi h _ | .icmp h _
  | .sel h _ | .plop h _ | .mov h _ | .movi h _ | .movhi h _ | .aadd h _ | .imulw h _ | .idiv h _ | .irem h _ | .fadd h _ | .fsub h _
  | .fmul h _ | .ffma h _ | .fmin h _ | .fmax h _ | .fcmp h _ | .fdot2 h _ | .frcp h _ | .frsq h _ | .fsqrt h _ | .fdiv h _
  | .fexp2 h _ | .flog2 h _ | .fsinpi h _ | .fcospi h _ | .frint h _ | .fclass h _ | .dadd h _ | .dsub h _ | .dmul h _ | .dfma h _
  | .dmin h _ | .dmax h _ | .dcmp h _ | .ddiv h _ | .dsqrt h _ | .cvt h _ | .cvtq h _ | .cvtd h _ | .mxq h _ | .shfl h _
  | .voteAll h _ | .voteAny h _ | .voteBal h _ | .voteEq h _ | .gred h _ | .gscan h _ | .topk h _ | .matchLanes h _ | .rnd h _
  | .rndu h _ | .seedr h _ | .ld h _ | .st h _ | .scatter h _ | .atom h _ | .cas h _ | .red h _ | .redseq h _
  | .fence h _ | .pref h _ | .cmaintInv h _ | .cmaintClean h _ | .cmaintFlush h _ | .cmaintTinv h _ | .ldp h _ | .stp h _ | .pqry h _
  | .lds h _ | .sts h _ | .atoms h _ | .presQuery h _ | .presSet h _ | .presClear h _ | .rrot h _ | .hclaim h _ | .hfree h
  | .hins h _ | .hprobe h _ | .hdel h _ | .hacc h _ | .hdrain h _ | .hstat h _ | .rdefDefine h _ | .rdefFree h _ | .rdefAdopt h _
  | .rpush h _ | .rpop h _ | .rsteal h _ | .renq h _ | .gset h _ | .gres h _ | .qsub h _ | .qpop h _ | .qstat h _ | .qwait h _
  | .mloop h _ | .mwaitConsumed h _ | .mwaitDone h _ | .mwaitAll h | .mzero h _ | .mdrain h _ | .mstore h _ | .mstadd h _ | .mldf h _
  | .mscan h _ | .mcarry h _ | .nop h | .bra h _ | .brx h _ | .call h _ | .callx h _ | .ret h _ | .exit h | .join h _ | .leave h _
  | .waitm h _ | .mclr h _ | .mget h _ | .bari h _ | .bara h _ | .barw h _ | .bars h _ | .sleep h _ | .sigw h _ | .trap h _
  | .tretResume h _ | .tretSkip h _ | .tretRedirect h _ | .tkillThread h _ | .tkillGroup h _ | .tkillTeam h _ | .tkillGrid h _
  | .tinfo h _ | .bkpt h _ | .launch h _ | .seedw h _ | .svr h _ | .pmonRead h _ | .pmonArm h _ | .pmonFreeze h _ => some h
  | .gather h _ => some { h with marker := true }
  | .illegalOp _ | .pairWord _ | .teamQueuePush _ _ _ | .teamQueuePop _ _ | .tokenPop _ _ | .longResultLands _ _ | .gapExpiry _
  | .sleepExpiry _ | .handlerEntry _ | .segmentReload _ _ | .lineArrival _ _ | .consumedPoint _ | .donePoint _ | .copy1d _
  | .copy2d _ | .copy3d _ | .fill _ | .sort _ | .sortseg _ | .trvq _ | .trvpair _ | .fact _ | .solve _ | .solvebwd _ | .lcp _
  | .bred _ | .rowz _ | .rowcp _ | .embag _ | .coll _ | .waveApply _ | .sigwRecheck _ | .contributionArrival _ | .contributionApply _
  | .renqArrival _ | .overflowDelivery _ | .hostNop _ | .hostLaunch _ | .hostSignal _ | .signalStore _ | .hostPacketSkipped _
  | .dependencyMet _ _ | .teamPlacement _ _ | .thawSwap _ _ | .teamRetire _ | .lullWatchdog _ | .registerContext _
  | .releaseContext _ | .preemptContext _ | .resumeContext _ | .preemptTeam _ | .kill _ | .setSeed _ | .checkpoint _
  | .checkpointTaken _ | .restore _ | .partitionChange _ | .partitionChangeComplete _ | .assignHostWorkRings _ | .assignQueuePairs _
  | .writeWindowEntry _ | .assignMonitor _ | .readMailbox _ | .startSequence _ | .getVersion _ | .getCapabilities _
  | .negotiateAlgorithms _ | .getDigests _ | .getCertificate _ | .challenge _ | .getMeasurements _ | .powerClockLower _
  | .monitorSample | .rdmaWrite _ _ _ | .rdmaRead _ _ _ | .send _ _ | .fetchAndAdd _ _ _ | .compareAndSwap _ _ _ _
  | .congestionNotification _ | .pauseFrame _ _ _ | .discardedFrame _ | .collectiveChunk _ | .collectiveResult _ | .renqPacket _
  | .remoteAccessError _ | .retryExhausted _ | .remoteWriteAcknowledged _ | .powerOff | .arithmeticClockRestored _
  | .firmwareUpdate _ | .managementMonitorCommand _ _ => none

end Sys2Proof.Machine
end

