-- ==== Sys2Proof/Certificates/Slice0/Obligations.lean ====
section
/-! DEFINITION. The statements about this machine, one definition each. Each follows rules of the spec, named in its docstring; the forms of words (ShortWord and the like) stand in Safety. -/

open Sys2Proof Sys2Proof.Machine

/-! ### Encoding and stepping -/

/-- Every well-formed instruction word decodes from its encoding (R18 to R40), with every operand as it was. -/
def Obligations.DecodeOfEncode : Prop :=
  ∀ (i : Instr) (w : DWord), i.wf = true → (∀ v, i ≠ .illegalOp v) → encode i = some w → decode w = i

/-- The headers of the examples below: unguarded, and FFMA's with a marker, GAP 2 and the guard !p3. -/
def Sys2Proof.Machine.exampleHdr : Hdr := { marker := false, gap := 0, gw := false, pg := 0 }
def Sys2Proof.Machine.exampleHdrFfma : Hdr := { marker := true, gap := 2, gw := false, pg := 0xB }

/-- Words that the spec writes out in hexadecimal with their assembly, one for most chapters, decode as it says. -/
def Obligations.WordsOfTheSpec : Prop :=
  decode 0x659060500A816000 = .ffma exampleHdrFfma { d := .v 20, a := .v 21, b := .reg (.v 22) FMod.plain } ∧
  decode 0x8000040121008012 = .pairWord { marker := false, gw := false, ps := false, a := { op := .iadd, d := .v 1, s := .v 2 }, b := { op := .fmul, d := .v 8, s := .v 9 } } ∧
  decode 0x0071800000100012 = .bari exampleHdr { n := .imm 256, bar := 2 } ∧
  decode 0x0072200001604050 = .sigw exampleHdr { res := none, a := .v 2, b := .s 4, cond := .ge, w64 := false, sco := .module } ∧
  decode 0x0040A0200100A1D0 = .cas exampleHdr { d := .v 8, a := .v 2, b := .v 10, ord := .sc, sco := .module, ty := .u32 } ∧
  decode 0x0054590304164000 = .qsub exampleHdr { d := .q 0, a := .s 8, cnt := 5, grd := some 2 } ∧
  decode 0x003080500AE04038 = .topk exampleHdr { d := .v 20, a := .v 21, b := .s 4, k := 3, nz := true, ty := .f32 } ∧
  decode 0x0060040304014003 = .mloop exampleHdr { d := .v 256, a := .s 8, b := .v 20, stepsM1 := 3 } ∧
  decode 0x007400330A000000 = .launch exampleHdr { d := .v 12, a := .s 20 } ∧
  decode 0x0078000000000000 = .illegalOp 0x0078000000000000

/-- The opcodes that R39 lists. -/
def Sys2Proof.Machine.listedOpcode (n : Nat) : Bool :=
  decide (n ≤ 0x1E) || decide (0x80 ≤ n ∧ n ≤ 0x91) || decide (0x100 ≤ n ∧ n ≤ 0x108) || decide (0x110 ≤ n ∧ n ≤ 0x113) ||
  decide (0x180 ≤ n ∧ n ≤ 0x188) || decide (0x200 ≤ n ∧ n ≤ 0x20A) || decide (0x210 ≤ n ∧ n ≤ 0x212) || decide (0x218 ≤ n ∧ n ≤ 0x21C) ||
  decide (0x280 ≤ n ∧ n ≤ 0x287) || decide (0x290 ≤ n ∧ n ≤ 0x294) || decide (0x2A0 ≤ n ∧ n ≤ 0x2A5) || decide (0x300 ≤ n ∧ n ≤ 0x308) ||
  decide (0x380 ≤ n ∧ n ≤ 0x391) || decide (0x398 ≤ n ∧ n ≤ 0x39C) || decide (0x3A0 ≤ n ∧ n ≤ 0x3A3)

/-- A full-form opcode that R39 does not list is ILLEGAL_OP whatever else the word holds (R40). -/
def Sys2Proof.Machine.UnlistedOpcodes : Prop :=
  ∀ w : DWord, w.getLsbD 63 = false → listedOpcode (w.extractLsb' 45 10).toNat = false → decode w = .illegalOp w

/-- Every 64-bit word is the encoding of what it decodes to, so no two words mean the same instruction and no bit is ignored; and a full-form word of an opcode that R39 does not list is ILLEGAL_OP (R40). -/
def Obligations.EncodeOfDecode : Prop := (∀ w : DWord, encode (decode w) = some w) ∧ UnlistedOpcodes

/-- When nothing else is about to happen and a pipe has one rank that comes first, the step fetches the word at its PC, and is exec of the decoded instruction at the state in which the issue set is drawn (R16, R51, R53), followed by what settles after every effect. -/
def Sys2Proof.Machine.StepOfDecodedWord : Prop :=
  ∀ (s u : State) (core pipe : Nat) (rank : Ready) (tm : Team) (w : DWord),
    s.beforeStart = none → s.retryNow = none → s.due = none → s.events = [] → s.nextPipe = some (core, pipe) →
    firstRanks (s.ranks (s.readyOn core pipe)) = [rank] → s.team? rank.tid.team = some tm →
    State.fetch { s.clearGw (s.readyOn core pipe) with turn := pipeIndex core pipe + 1 } core tm.ctx rank.pc.toNat
      (laneOldest ((s.readyOn core pipe).filter fun b => b.same rank)) = ((.ok w : Except Nat DWord), u) →
    step s = settleOutcome s (exec (decode w)
      { (u.markThaw core tm.ctx).fresh.2 with
        cur := some { core := core, pipe := pipe, team := rank.tid.team, lanes := setAt (s.readyOn core pipe) rank w, pc := rank.pc, word := w,
                      issue := (u.markThaw core tm.ctx).fresh.1 } })

/-- A fetch by some threads gives the word at the home slice (R16), where every replaced byte of the word is one that R17 keeps from one of them; memory and all else stay as they are. The page is translated without setting A, no sector of the word is marked, and the core's instruction cache holds no copy of it with an uncorrectable error. -/
def Sys2Proof.Machine.FetchReadsMemory : Prop :=
  ∀ (s : State) (core ctx pc : Nat) (ts : List Tid) (x : Xlat), pc % 8 = 0 →
    s.translate core ctx pc .fetch (fun y => leafRm y.leaf && (s.remote? ctx y 8).isNone) = (.ok x, s) → leafRm x.leaf = false →
    s.marked x.pa 8 = false → s.icUe.contains (core, x.pa / 32) = false →
    (∀ e ∈ s.icache, meets e.pa e.old.length x.pa 8 = true → ∃ t ∈ ts, s.fetchCertain e t = true) →
    s.fetch core ctx pc ts = (.ok (BitVec.ofNat 64 (leNat (s.readPhys x.pa 8))), s)

/-- Once the storing thread has cleaned a word at a scope that holds another thread, and after that each of the two has issued a FENCE of such a scope, wider than thread, the other fetches the new word for certain (R17). -/
def Sys2Proof.Machine.FencedWordIsCertain : Prop :=
  ∀ (s : State) (e : ICopy) (u t : Tid) (c f g : Nat), e.storer = some u → e.cleaned = some c → s.scopeHolds c u e.core t = true →
    (u, f) ∈ e.fences → 1 ≤ f → s.scopeHolds f u e.core t = true → (t, g) ∈ e.fences → 1 ≤ g → s.scopeHolds g u e.core t = true → s.fetchCertain e t = true

/-- A step runs the decoded word, which its fetch reads from memory (R16, R39); a word stored, cleaned and fenced as R17 says is fetched new. -/
def Obligations.StepRunsDecodedWord : Prop := StepOfDecodedWord ∧ FetchReadsMemory ∧ FencedWordIsCertain

/-- After every step that goes on, no issue set is drawn: the next step draws it afresh (R51), and lanes that have parked in the middle of a word stand in their threads (Thread.pend) and in State.retries (log 3, DESIGN CHOICE); and a context under release still has a launch or a team, since its release finishes with the last of them (R380; log 58, DEDUCED). -/
def Obligations.StepSettles : Prop :=
  ∀ s t : State, step s = .next t → t.cur = none ∧
    ∀ c ∈ t.contexts, c.releasing ≠ none → (∃ l ∈ t.launches, l.ctx = c.id) ∨ ∃ y ∈ t.teams, y.ctx = c.id

/-- What every step keeps: global memory in canonical form; every team under a key of its own; no token queue beyond its 32 entries (R259); and no barrier's count at or above the number it waits for (R71, R72). -/
def Sys2Proof.Machine.Kept (s : State) : Prop :=
  s.memOk = true ∧ (s.teams.map fun t => t.key).Nodup ∧
  ∀ t ∈ s.teams, (∀ q, (t.tokens.filter fun x => decide (x.1 = q)).length ≤ 32) ∧ ∀ b ∈ t.barriers, 1 ≤ b.n → b.c < b.n

/-- Memory stays canonical, team keys stay distinct, token queues stay within their capacity, and barrier counts below their size, in every step from every state in which they do. -/
def Obligations.StepInvariants : Prop := ∀ s t : State, Kept s → step s = .next t → Kept t

/-- Reset leaves memory canonical and with nothing listed, what every step keeps, the module cycle counter at 0 (R50), the arithmetic clock at 1,200 MHz, no context, launch or team, no word in execution, the next mailbox sequence number 0, and the start of R376 still to run. That empty memory reads as 0, and the start state, are the model's choices (logs 1, 11). -/
def Obligations.ResetState : Prop :=
  State.reset.memOk = true ∧ State.reset.mem = [] ∧ State.reset.clk.cycle = 0 ∧ State.reset.clk.mhz = 1200 ∧ State.reset.contexts = [] ∧
  State.reset.launches = [] ∧ State.reset.teams = [] ∧ Kept State.reset ∧ State.reset.cur = none ∧ State.reset.boot.started = false ∧ State.reset.mailbox.next = 0

/-! ### Guards, issue and the marker -/

/-- The guards that PG names (R19): always, pN, and not pN. -/
def Sys2Proof.Machine.GuardValues : Prop :=
  ∀ (th : Thread), th.guard 0 = true ∧
    (∀ pg : BitVec 4, 1 ≤ pg.toNat → pg.toNat ≤ 7 → th.guard pg = th.pred (pg.extractLsb' 0 3)) ∧
    ∀ pg : BitVec 4, 9 ≤ pg.toNat → th.guard pg = !th.pred (pg.extractLsb' 0 3)

/-- A thread whose guard fails does nothing but advance (R20): where no thread of the set is active, every full-form word leaves the state of its issue alone, and its header still acts. -/
def Sys2Proof.Machine.GuardedOff : Prop :=
  ∀ (i : Instr) (h : Hdr) (s : State) (c : Cur), hdrOf i = some h → s.cur = some c → c.retry = false → h.pg ≠ 8 → s.actives c h = [] →
    exec i s = .next ((s.begun c h).wordEnd h c)

/-- PG 0b1000 raises ILLEGAL_OP in every thread of the set, whatever the word (R19). -/
def Sys2Proof.Machine.ReservedGuard : Prop :=
  ∀ (i : Instr) (h : Hdr) (s : State) (c : Cur), hdrOf i = some h → s.cur = some c → c.retry = false → h.pg = 8 →
    let e := (s.issue c (gapCycles h.gap) h.gw).setCur (c.withSet ((s.issue c (gapCycles h.gap) h.gw).active c fun _ => true))
    exec i s = .next ((e.decodeTraps { illOp := fun _ _ => true } ((s.issue c (gapCycles h.gap) h.gw).active c fun _ => true)).2.wordEnd h c)

/-- PG (R19, R20): a word whose guard holds in no lane of its set only issues, and PG 0b1000 raises ILLEGAL_OP in every thread of the set, whatever the word. -/
def Obligations.GuardField : Prop := GuardValues ∧ GuardedOff ∧ ReservedGuard

/-- Issue advances every thread of the set by 8, stamps it, holds it for GAP and sets its give-way mark (R16, R53, R54, R74), and changes no other thread, no register and no memory. -/
def Sys2Proof.Machine.IssueAdvances : Prop :=
  ∀ (s : State) (c : Cur) (h : Hdr), c.ok = true →
    (∀ t ∈ c.lanes, (s.begun c h).thread? t = (s.thread? t).map fun th => th.advance c.pc s.clk.acycle (gapCycles h.gap) h.gw) ∧
    (∀ t, t ∉ c.lanes → (s.begun c h).thread? t = s.thread? t) ∧ (∀ t r j, Reg.file? r j ≠ none → (s.begun c h).regVal t r j = s.regVal t r j) ∧
    (s.begun c h).mem = s.mem

/-- MK parks each thread of the set until its outstanding long results have landed; a thread with nothing outstanding and no fault pending does not park (R57). -/
def Sys2Proof.Machine.MarkerParks : Prop :=
  ∀ (s : State) (c : Cur) (t : Tid) (th : Thread), c.lanes = [t] → s.thread? t = some th → th.pend = none → th.held = false → th.parks = [] →
    (th.longs ≠ [] → (s.marker c).thread? t = some { th with parks := [.marker] }) ∧
    (th.longs = [] → th.afaults = [] → (s.marker c).thread? t = some th)

/-- NOP and every word of no effect of its own: its threads have advanced, and its marker acts (R74). -/
def Sys2Proof.Machine.NopAdvances : Prop :=
  ∀ (h : Hdr) (s : State) (c : Cur), s.clear c h {} = true → exec (.nop h) s = .next ((s.entered c h []).wordEnd h c) ∧ s.sameBeyond (s.entered c h [])

/-- Issue and MK (R16, R53, R54, R57, R74): every thread of the set advances by 8, obeys GAP and GW, MK parks it until its long results have landed, and NOP does nothing else. -/
def Obligations.IssueAndMarkers : Prop := IssueAdvances ∧ MarkerParks ∧ NopAdvances

/-! ### Class 0 (R110 to R119) -/

/-- The result form of a class 0 word of two sources: nd destination registers hold f of old d (when the word reads it), a and b. -/
def Sys2Proof.Machine.IntWord (i : Instr) (h : Hdr) (o : I3) (reads : Bool) (nd nb : Nat) (f : Nat → Nat → Nat → Nat) : Prop :=
  ShortWord i h (if reads then Opd.upd o.d nd else Opd.dst o.d nd)
    ((if reads then Opd.upd o.d nd else Opd.dst o.d nd) :: Opd.src o.a o.ty.regs :: o.b.opds nb) fun _ _ v => wordsN nd (f (opdNat v 0) (opdNat v 1) (o.b.value v))

/-- The same, element by element: the exact integer f of old d, a and b, reduced to the element (R110). -/
def Sys2Proof.Machine.IntElems (i : Instr) (h : Hdr) (o : I3) (reads : Bool) (f : Int → Int → Int → Int) : Prop :=
  IntWord i h o reads o.ty.regs o.ty.regs fun d a b => o.ty.map fun k =>
    reduce o.ty.signed o.sat o.ty.width (f (o.ty.int (elem o.ty.width d k)) (o.ty.int (elem o.ty.width a k)) (o.ty.int (elem o.ty.width b k)))

/-- A class 0 word of one source. -/
def Sys2Proof.Machine.IntUnary (i : Instr) (h : Hdr) (o : I2) (nd : Nat) (f : Nat → Nat) : Prop :=
  ShortWord i h (Opd.dst o.d nd) [Opd.dst o.d nd, Opd.src o.a o.ty.regs] fun _ _ v => wordsN nd (f (opdNat v 1))

/-- IADD, ISUB, IMUL, IMULH, IMAD, IMIN, IMAX, IABS and IMULW complete, with the exact values of R111 in their destinations and nothing else changed. -/
def Sys2Proof.Machine.IntegerArithmetic : Prop :=
  ∀ (h : Hdr) (o : I3) (u : I2),
    IntElems (.iadd h o) h o false (fun _ a b => a + b) ∧ IntElems (.isub h o) h o false (fun _ a b => a - b) ∧
    IntElems (.imul h o) h o false (fun _ a b => a * b) ∧ IntElems (.imulh h o) h o false (fun _ a b => a * b / 2 ^ o.ty.width) ∧
    IntElems (.imad h o) h o true (fun d a b => a * b + d) ∧ IntElems (.imin h o) h o false (fun _ a b => min a b) ∧
    IntElems (.imax h o) h o false (fun _ a b => max a b) ∧
    IntUnary (.iabs h u) h u u.ty.regs (fun a => u.ty.map fun k => reduce u.ty.signed u.sat u.ty.width |u.ty.int (elem u.ty.width a k)|) ∧
    IntWord (.imulw h o) h o false 2 1 (fun _ a b => reduce o.ty.signed false 64 (o.ty.int a * o.ty.int b))

/-- AND, OR, XOR, ANDN, SHL, SHR, SAR, ROTL, POPC, CLZ and BREV complete with the values of R111; a shift amount of 64-bit types is one register, and POPC and CLZ write one register. -/
def Sys2Proof.Machine.LogicAndShifts : Prop :=
  ∀ (h : Hdr) (o : I3) (u : I2),
    let n := o.ty.regs
    let shift := fun (i : Instr) (f : Nat → Nat → Nat → Nat) => IntWord i h o false n 1 fun _ a b => o.ty.map fun k =>
      f o.ty.width (elem o.ty.width a k) (if o.ty.is64 then b else elem o.ty.width b k)
    IntWord (.iand h o) h o false n n (fun _ a b => a &&& b) ∧ IntWord (.ior h o) h o false n n (fun _ a b => a ||| b) ∧
    IntWord (.ixor h o) h o false n n (fun _ a b => a ^^^ b) ∧ IntWord (.iandn h o) h o false n n (fun _ a b => a &&& (b ^^^ (2 ^ (32 * n) - 1))) ∧
    shift (.shl h o) (fun w a k => if w ≤ k then 0 else a * 2 ^ k % 2 ^ w) ∧ shift (.shr h o) (fun w a k => if w ≤ k then 0 else a / 2 ^ k) ∧
    shift (.sar h o) (fun w a k => reduce true false w (signedOf w a / 2 ^ (min k w))) ∧
    shift (.rotl h o) (fun w a k => a * 2 ^ (k % w) % 2 ^ w + a / 2 ^ (w - k % w)) ∧
    IntUnary (.popc h u) h u 1 (popcount u.ty.width) ∧ IntUnary (.clz h u) h u 1 (leadingZeros u.ty.width) ∧
    IntUnary (.brev h u) h u u.ty.regs (bitReverse u.ty.width)

/-- The integer words (R98, R110, R111): sums, products, extremes, logic, shifts and counts. -/
def Obligations.IntegerWords : Prop := IntegerArithmetic ∧ LogicAndShifts

/-- BFE, BFI, SEL, MOV, MOVI, MOVHI and AADD complete with the values of R113, R116, R118 and R119. -/
def Obligations.FieldsAndMoves : Prop :=
  ∀ (h : Hdr) (f : BField) (l : SelF) (m : I2) (i : ImmF) (a : AaddF),
    ShortWord (.bfe h f) h (Opd.dst f.d f.ty.regs) [Opd.dst f.d f.ty.regs, Opd.src f.a f.ty.regs, Opd.vsk f.b]
      (fun _ _ v => wordsN f.ty.regs (bfeValue f.ty (f.lenM1.toNat + 1) ((val1 v 2).toNat % 256) (opdNat v 1))) ∧
    ShortWord (.bfi h f) h (Opd.upd f.d f.ty.regs) [Opd.upd f.d f.ty.regs, Opd.src f.a f.ty.regs, Opd.vsk f.b]
      (fun _ _ v => wordsN f.ty.regs (bfiValue f.ty.width (f.lenM1.toNat + 1) ((val1 v 2).toNat % 256) (opdNat v 0) (opdNat v 1))) ∧
    ShortWord (.sel h l) h (Opd.dst l.d l.ty.regs) [Opd.dst l.d l.ty.regs, Opd.src l.a l.ty.regs, Opd.src l.b l.ty.regs]
      (fun s t v => if s.predOf t l.p != l.neg then v.getD 1 [] else v.getD 2 []) ∧
    IntUnary (.mov h m) h m m.ty.regs (fun x => x) ∧
    ShortWord (.movi h i) h (Opd.dst i.d) [Opd.dst i.d] (fun _ _ _ => [i.imm.signExtend 32]) ∧
    ShortWord (.movhi h i) h (Opd.upd i.d) [Opd.upd i.d] (fun _ _ v => [BitVec.ofNat 32 (i.imm.toNat * 1024 + (val1 v 0).toNat % 1024)]) ∧
    ShortWord (.aadd h a) h (Opd.dst a.d 2) (Opd.dst a.d 2 :: Opd.src a.a 2 :: a.b.opds 1)
      (fun _ _ v =>
        let b : Word := BitVec.ofNat 32 (a.b.value v)
        let r := val2 v 1 + ((if a.signed then b.signExtend 64 else b.zeroExtend 64) <<< a.sh.toNat)
        [r.lo, r.hi])

/-- IDIV and IREM complete with long results, whatever their operands. -/
def Sys2Proof.Machine.DivisionLong : Prop :=
  ∀ (h : Hdr) (o : I3),
    let n := o.ty.regs
    let long := fun (i : Instr) (f : Nat → Nat → Nat) => LongWord i h (Opd.dst o.d n) (Opd.dst o.d n :: Opd.src o.a n :: o.b.opds n)
      fun _ _ v => wordsN n (f (opdNat v 1) (o.b.value v))
    long (.idiv h o) (idivValue o.ty o.sat) ∧ long (.irem h o) (iremValue o.ty)

/-- The values of R112, for a and b below 2^w of each type that the words accept: truncation with a = q × b + rem, all ones and a on division by zero, and the signed overflow. -/
def Sys2Proof.Machine.DivisionValues : Prop :=
  ∀ (ty : Ty) (sat : Bool) (a b : Nat), ty.wide = true → a < 2 ^ ty.width → b < 2 ^ ty.width →
    (b = 0 → idivValue ty sat a b = 2 ^ ty.width - 1 ∧ iremValue ty a b = a) ∧
    (b ≠ 0 → ¬(ty.signed = true ∧ a = 2 ^ (ty.width - 1) ∧ b = 2 ^ ty.width - 1) →
      ty.int (idivValue ty sat a b) = (ty.int a).tdiv (ty.int b) ∧ ty.int (iremValue ty a b) = (ty.int a).tmod (ty.int b) ∧
      ty.int a = ty.int (idivValue ty sat a b) * ty.int b + ty.int (iremValue ty a b)) ∧
    (ty.signed = true → a = 2 ^ (ty.width - 1) → b = 2 ^ ty.width - 1 →
      idivValue ty sat a b = (if sat then 2 ^ (ty.width - 1) - 1 else a) ∧ iremValue ty a b = 0)

/-- The forms that division has: packed types are ILLEGAL_OP to both, and SAT to IREM. -/
def Sys2Proof.Machine.DivisionForms : Prop :=
  ∀ (w : DWord), w.getLsbD 63 = false → w.getLsbD 11 = false →
    let opc := (w.extractLsb' 45 10).toNat
    (opc = 0x1D ∨ opc = 0x1E → w.getLsbD 2 = true → decode w = .illegalOp w) ∧ (opc = 0x1E → w.getLsbD 3 = true → decode w = .illegalOp w) ∧
    (∀ (h : Hdr) (o : I3), decode w = .idiv h o → o.ty.wide = true) ∧ ∀ (h : Hdr) (o : I3), decode w = .irem h o → o.ty.wide = true ∧ o.sat = false

/-- IDIV and IREM (R112): a quotient truncated toward zero and a remainder with a = q × b + rem, the values on division by zero and on signed overflow, the forms they have, and long results; no division traps. -/
def Obligations.Division : Prop := DivisionLong ∧ DivisionValues ∧ DivisionForms

/-- Reducing an exact value to w bits (R110): modulo 2^w with SAT clear, and clamped to the type's range with SAT set. -/
def Obligations.ElementReduction : Prop :=
  ∀ (signed sat : Bool) (w : Nat) (v : Int), 1 ≤ w →
    reduce signed sat w v < 2 ^ w ∧
    (sat = false → (reduce signed sat w v : Int) = v % 2 ^ w) ∧
    (sat = true →
      let r := if signed then signedOf w (reduce signed sat w v) else (reduce signed sat w v : Int)
      let g : Int × Int := if signed then (-2 ^ (w - 1), 2 ^ (w - 1) - 1) else (0, 2 ^ w - 1)
      (v < g.1 → r = g.1) ∧ (g.2 < v → r = g.2) ∧ (g.1 ≤ v → v ≤ g.2 → r = v))

/-- ICMP, PLOP, FCMP and DCMP write one predicate a lane and no register (R114, R115, R117, R123, R129). -/
def Sys2Proof.Machine.PredicateWords : Prop :=
  ∀ (h : Hdr) (o : ICmp) (p : PlopF) (f : FCmpF),
    PredWord (.icmp h o) h o.p [Opd.src o.a o.ty.regs, Opd.src o.b o.ty.regs] (fun _ _ v =>
      let a := o.ty.int (opdNat v 0)
      let b := o.ty.int (opdNat v 1)
      match o.cond with
      | .eq => decide (a = b) | .ne => decide (a ≠ b) | .lt => decide (a < b) | .le => decide (a ≤ b) | .gt => decide (b < a) | .ge => decide (b ≤ a)) ∧
    PredWord (.plop h p) h p.pd [] (fun s t _ => p.tt.getLsbD (4 * (s.predOf t p.pa).toNat + 2 * (s.predOf t p.pb).toNat + (s.predOf t p.pc).toNat)) ∧
    PredWord (.fcmp h f) h f.p [Opd.src f.a, Opd.src f.b] (fun _ _ v =>
      f.cond.holds (prep .fp32 f.ftz false false (opdNat v 0)) (prep .fp32 f.ftz false false (opdNat v 1))) ∧
    PredWord (.dcmp h f) h f.p [Opd.src f.a 2, Opd.src f.b 2] (fun _ _ v =>
      f.cond.holds (prep .fp64 f.ftz false false (opdNat v 0)) (prep .fp64 f.ftz false false (opdNat v 1)))

/-- Predicates of a thread (R62): p0 reads as true and a write to it is ignored; another predicate reads what was written, and the rest are as they were. -/
def Sys2Proof.Machine.PredicateFile : Prop :=
  ∀ (th : Thread) (p q : BitVec 3) (b : Bool),
    th.pred 0 = true ∧ th.setPred 0 b = th ∧ (p ≠ 0 → (th.setPred p b).pred p = b) ∧ (q ≠ p → (th.setPred p b).pred q = th.pred q)

/-- Words that write predicates (R114, R123) and the predicate file, where pt stays true (R62). -/
def Obligations.Predicates : Prop := PredicateWords ∧ PredicateFile

/-- A finite number in units of 2^k, for k no greater than its exponent. -/
def Sys2Proof.Machine.unitsOf (neg : Bool) (m : Nat) (e k : Int) : Int := (if neg then -1 else 1) * (m : Int) * 2 ^ (e - k).toNat

/-- FCMP's conditions (R123): −0 equals +0, every condition but ne and uno is false when an operand is a NaN, ord and uno say whether one is, and otherwise the exact values decide: eq and lt hold of two finite numbers as of their integer multiples of any common unit 2^k, each infinity equals itself alone, −∞ lies below and +∞ above every other number, and the other conditions follow from these two. -/
def Obligations.FloatConditions : Prop :=
  ∀ (c : FCond) (a b : FVal),
    ((a.isNan || b.isNan) = true → c.holds a b = decide (c = .ne ∨ c = .uno)) ∧
    ((a.isNan || b.isNan) = false → FCond.holds .ord a b = true ∧ FCond.holds .uno a b = false ∧ FCond.holds .ne a b = !FCond.holds .eq a b ∧
      FCond.holds .le a b = (FCond.holds .lt a b || FCond.holds .eq a b) ∧ FCond.holds .gt a b = FCond.holds .lt b a ∧
      FCond.holds .ge a b = FCond.holds .le b a) ∧
    FCond.holds .eq (.fin true 0 0) (.fin false 0 0) = true ∧
    (∀ (n m : Bool) (x y : Nat) (e g k : Int), k ≤ e → k ≤ g →
      FCond.holds .eq (.fin n x e) (.fin m y g) = decide (unitsOf n x e k = unitsOf m y g k) ∧
      FCond.holds .lt (.fin n x e) (.fin m y g) = decide (unitsOf n x e k < unitsOf m y g k)) ∧
    ∀ (n m : Bool) (x : Nat) (e : Int),
      FCond.holds .eq (.inf n) (.inf m) = decide (n = m) ∧ FCond.holds .lt (.inf n) (.inf m) = (n && !m) ∧
      FCond.holds .eq (.inf n) (.fin m x e) = false ∧ FCond.holds .eq (.fin m x e) (.inf n) = false ∧
      FCond.holds .lt (.inf n) (.fin m x e) = n ∧ FCond.holds .lt (.fin m x e) (.inf n) = !n

/-! ### Classes 1 and 2 (R120 to R134) -/

/-- The destination values of a word of two floating sources, element by element (R120): operands prepared, the exact result rounded and delivered. -/
def Sys2Proof.Machine.fpValue (o : F3) (fmt : Fmt) (n regs : Nat) (g : FMod → FVal → FVal → FVal → FExact) (v : List (List Word)) : List Word :=
  let x := fmodOf o.b
  wordsN regs (packElems fmt.w n fun i =>
    deliver fmt x (g x (prep fmt x.ftz false false (elem fmt.w (opdNat v 0) i))
      (prep fmt x.ftz x.absa x.nega (elem fmt.w (opdNat v 1) i)) (prep fmt x.ftz x.absb x.negb (elem fmt.w (fopdVal o.b v) i))))

/-- The operands of such a word, the destination first. -/
def Sys2Proof.Machine.fpOpds (o : F3) (regs : Nat) (reads : Bool) : List Opd :=
  (if reads then Opd.upd o.d regs else Opd.dst o.d regs) :: Opd.src o.a regs :: fopds o.b regs

/-- A class 1 word of two sources with a short result. -/
def Sys2Proof.Machine.Fp1Word (i : Instr) (h : Hdr) (o : F3) (reads : Bool) (g : FMod → FVal → FVal → FVal → FExact) : Prop :=
  ShortWord i h (if reads then Opd.upd o.d 1 else Opd.dst o.d 1) (fpOpds o 1 reads) fun _ _ v =>
    fpValue o (pkFmt (fmodOf o.b).pk) (pkCount (fmodOf o.b).pk) 1 g v

/-- FADD, FSUB, FMUL, FFMA, FMIN and FMAX complete on FP32, BF16 and FP16 elements (R120 to R122). -/
def Sys2Proof.Machine.FloatArithmetic : Prop :=
  ∀ (h : Hdr) (o : F3),
    Fp1Word (.fadd h o) h o false (fun x _ a b => fAdd x.rm a b) ∧ Fp1Word (.fsub h o) h o false (fun x _ a b => fAdd x.rm a b.neg) ∧
    Fp1Word (.fmul h o) h o false (fun _ _ a b => fMul a b) ∧ Fp1Word (.ffma h o) h o true (fun x d a b => fFma x.rm a b d) ∧
    Fp1Word (.fmin h o) h o false (fun _ _ a b => (fMin false a b).exact) ∧ Fp1Word (.fmax h o) h o false (fun _ _ a b => (fMin true a b).exact)

/-- A word of one floating source by a function of its prepared value. -/
def Sys2Proof.Machine.fpUnaryValue (o : F2) (fmt : Fmt) (n regs : Nat) (g : FVal → Nat) (v : List (List Word)) : List Word :=
  wordsN regs (packElems fmt.w n fun i => g (prep fmt o.x.ftz o.x.absa o.x.nega (elem fmt.w (opdNat v 1) i)))

/-- FDOT2, FRINT and FCLASS complete with short results (R124, R127). FDOT2's zero sign is the model's choice (log 30). -/
def Sys2Proof.Machine.DotRoundClass : Prop :=
  ∀ (h : Hdr) (d : FDotF) (u : F2) (r : R2),
    ShortWord (.fdot2 h d) h (Opd.upd d.d) [Opd.upd d.d, Opd.src d.a, Opd.src d.b] (fun _ _ v =>
      let f : Fmt := if d.f16 then .fp16 else .bf16
      let el := fun k i => prep f d.ftz false false (elem 16 (opdNat v k) i)
      wordsN 1 (Fmt.fp32.round d.rm false d.ftz
        (fdot2Exact d.rm [fMulV (el 1 0) (el 2 0), fMulV (el 1 1) (el 2 1), prep .fp32 d.ftz false false (opdNat v 0)]))) ∧
    ShortWord (.frint h u) h (Opd.dst u.d 1) [Opd.dst u.d 1, Opd.src u.a 1]
      (fun _ _ v => fpUnaryValue u (pkFmt u.x.pk) (pkCount u.x.pk) 1 (fun a => deliver (pkFmt u.x.pk) u.x (fRint u.x.rm a)) v) ∧
    ShortWord (.fclass h r) h (Opd.dst r.d) [Opd.dst r.d, Opd.src r.a] (fun _ _ v => wordsN 1 (fClass .fp32 (Fmt.fp32.val (opdNat v 1))))

/-- FP32 and packed arithmetic, FDOT2, FRINT and FCLASS (R120 to R124, R127). -/
def Obligations.FloatWords : Prop := FloatArithmetic ∧ DotRoundClass

/-- FDIV, FRCP, FRSQ, FSQRT, FEXP2, FLOG2, FSINPI and FCOSPI complete with long results (R121, R125, R126, R56). -/
def Obligations.ElementaryFunctions : Prop :=
  ∀ (h : Hdr) (o : F3) (u : F2),
    let un := fun (i : Instr) (g : FVal → Nat) => LongWord i h (Opd.dst u.d 1) [Opd.dst u.d 1, Opd.src u.a 1] fun _ _ v => fpUnaryValue u .fp32 1 1 g v
    LongWord (.fdiv h o) h (Opd.dst o.d 1) (fpOpds o 1 false)
      (fun _ _ v => fpValue o (pkFmt (fmodOf o.b).pk) (pkCount (fmodOf o.b).pk) 1 (fun _ _ a b => fDiv a b) v) ∧
    un (.frcp h u) (fun a => satIf u.x (frcpCode u.x.ftz a)) ∧ un (.frsq h u) (fun a => satIf u.x (frsqCode u.x.ftz a)) ∧
    un (.fsqrt h u) (fun a => deliver .fp32 u.x (fSqrt a)) ∧ un (.fexp2 h u) (fun a => deliver .fp32 u.x (fExp2 a)) ∧
    un (.flog2 h u) (fun a => deliver .fp32 u.x (fLog2 a)) ∧ un (.fsinpi h u) (fun a => deliver .fp32 u.x (fSinPi a)) ∧
    un (.fcospi h u) (fun a => deliver .fp32 u.x (fCosPi a))

/-- A class 2 word of two FP64 pairs: a long result. -/
def Sys2Proof.Machine.Fp2Word (i : Instr) (h : Hdr) (o : F3) (reads : Bool) (g : FMod → FVal → FVal → FVal → FExact) : Prop :=
  LongWord i h (if reads then Opd.upd o.d 2 else Opd.dst o.d 2) (fpOpds o 2 reads) fun _ _ v => fpValue o .fp64 1 2 g v

/-- DADD, DSUB, DMUL, DFMA, DMIN, DMAX, DDIV and DSQRT compute on FP64 pairs as the FP32 words do, with long results (R128). -/
def Obligations.DoubleArithmetic : Prop :=
  ∀ (h : Hdr) (o : F3) (u : F2),
    Fp2Word (.dadd h o) h o false (fun x _ a b => fAdd x.rm a b) ∧ Fp2Word (.dsub h o) h o false (fun x _ a b => fAdd x.rm a b.neg) ∧
    Fp2Word (.dmul h o) h o false (fun _ _ a b => fMul a b) ∧ Fp2Word (.dfma h o) h o true (fun x d a b => fFma x.rm a b d) ∧
    Fp2Word (.dmin h o) h o false (fun _ _ a b => (fMin false a b).exact) ∧ Fp2Word (.dmax h o) h o false (fun _ _ a b => (fMin true a b).exact) ∧
    Fp2Word (.ddiv h o) h o false (fun _ _ a b => fDiv a b) ∧
    LongWord (.dsqrt h u) h (Opd.dst u.d 2) [Opd.dst u.d 2, Opd.src u.a 2]
      (fun _ _ v => fpUnaryValue u .fp64 1 2 (fun a => deliver .fp64 u.x (fSqrt a)) v)

/-- CVT and CVTD complete with the converted value as a long result (R130, R131). -/
def Sys2Proof.Machine.Conversions : Prop :=
  ∀ (h : Hdr) (o : CvtF),
    let long := fun (i : Instr) => LongWord i h (Opd.dst o.d (cvtRegs o.dst)) [Opd.dst o.d (cvtRegs o.dst), Opd.src o.a (cvtRegs o.src)]
      fun _ _ v => wordsN (cvtRegs o.dst) (cvtResult o.dst o.src o.sat o.rm (opdNat v 1))
    long (.cvt h o) ∧ long (.cvtd h o)

/-- CVTQ and MXQ with valid format fields complete with long results: elements widened or narrowed one by one (R132, R133), and each lane's element code with the shared scale of its block of 32 lanes (R134). Invalid fields raise FORMAT_INVALID in every active lane. -/
def Sys2Proof.Machine.NarrowConversions : Prop :=
  ∀ (h : Hdr) (o : QFmtF) (s : State) (c : Cur),
    let n := if o.fmt = 4 then 8 else 4
    let ops : List Opd := if o.widen then [{ Opd.dst o.d with n := n }, Opd.src o.a] else [Opd.dst o.d, { Opd.src o.a with n := n }]
    (s.clear c h { ops := ops } = true → s.plain (s.actives c h) ops = true → QFmtF.valid o false = true →
      ∃ t, exec (.cvtq h o) s = .next (t.wordEnd h c) ∧ s.sameBeyond t ∧ (∀ u, u ∉ s.actives c h → t.thread? u = s.issuedThread c h u) ∧
        ∀ u ∈ s.actives c h, gainsLong (s.issuedThread c h u) (t.thread? u) (destRegs ((s.curIn c h).lead u) o.d 0
          (let v := s.opdVals u ops
          if o.widen then (List.range n).map fun i =>
              BitVec.ofNat 32 (Fmt.fp32.round .rne false false ((QFmtF.nf o).val (elem (32 / n) (val1 v 1).toNat i)).exact)
           else [BitVec.ofNat 32 (packElems (32 / n) n fun i =>
              (QFmtF.nf o).convert o.rm o.sat (Fmt.fp32.val ((v.getD 1 []).getD i 0).toNat))])) (c.shares [o.d])) ∧
    (s.clear c h { ops := [Opd.dst o.d, Opd.src o.a] } = true → s.plain (s.actives c h) [Opd.dst o.d, Opd.src o.a] = true → QFmtF.valid o true = true →
      let f : Fmt := match QFmtF.nf o with | .fp f => f | .int8 _ => .e2m1
      let val := fun (u : Tid) => Fmt.fp32.val (val1 (s.opdVals u [Opd.dst o.d, Opd.src o.a]) 1).toNat
      let word := fun (u : Tid) =>
        mxWord f o.rm (mxScale f (((s.actives c h).filter fun w => decide (w.group = u.group ∧ w.lane / 32 = u.lane / 32)).map val)) (val u)
      ∃ t : State, exec (.mxq h o) s = .next (t.wordEnd h c) ∧ (∀ u, u ∉ s.actives c h → t.thread? u = s.issuedThread c h u) ∧
        ∀ u ∈ s.actives c h, gainsLong (s.issuedThread c h u) (t.thread? u) (destRegs ((s.curIn c h).lead u) o.d 0 [word u]) (c.shares [o.d])) ∧
    (s.clear c h { ops := ops } = true → QFmtF.valid o false = false →
      exec (.cvtq h o) s = .next (((s.entered c h ops).trapAll (s.actives c h) fcFormatInvalid).wordEnd h c)) ∧
    (s.clear c h { ops := [Opd.dst o.d, Opd.src o.a] } = true → QFmtF.valid o true = false →
      exec (.mxq h o) s = .next (((s.entered c h [Opd.dst o.d, Opd.src o.a]).trapAll (s.actives c h) fcFormatInvalid).wordEnd h c))

/-- CVT, CVTD, CVTQ and MXQ (R130 to R134). -/
def Obligations.ConversionWords : Prop := Conversions ∧ NarrowConversions

/-- The canonical NaN of each format (R97): every NaN that rounding delivers is it. -/
def Obligations.CanonicalNan : Prop :=
  (∀ (f : Fmt) (rm : Rm) (sat ftz : Bool), f.round rm sat ftz .nan = f.nanCode) ∧
  Fmt.nanCode .fp64 = 0x7FF8000000000000 ∧ Fmt.nanCode .fp32 = 0x7FC00000 ∧ Fmt.nanCode .fp16 = 0x7E00 ∧ Fmt.nanCode .bf16 = 0x7FC0 ∧
  ∀ p r : Nat, 1 ≤ p → p ≤ 7 → r = 0 ∨ r = 2 → Fmt.nanCode (.binary8 p r false) = 0x80 ∧ Fmt.nanCode (.binary8 p r true) = 0xFF

/-- A word whose source is a q register pops one slot a lane and has a long result; where the queue is empty the lane parks with what it has popped (R56, R259). -/
def Sys2Proof.Machine.PoppingWords : Prop :=
  ∀ (s s' : State) (c : Cur) (h : Hdr) (t : Tid) (long : Bool) (d : Opd) (srcs : List Opd) (f : List (List Word) → List Word) (taken : List Word),
    s.clear c h { ops := d :: srcs } = true → s.actives c h = [t] → srcs.any Opd.pops = true → (d :: srcs).any Opd.popsToken = false →
    (∀ q, d.reg ≠ .q q) → srcs.any Opd.pushes = false →
    (∀ vals, (s.entered c h (d :: srcs)).readOps t (d :: srcs) [] [] = ((some vals, taken, 0), s') →
      s.compute h long d srcs f = ((s'.addLong t true (destRegs (s'.leads t) d.reg 0 (f vals)) d.reg.isS).2).wordEnd h c) ∧
    (∀ q, (s.entered c h (d :: srcs)).readOps t (d :: srcs) [] [] = ((none, taken, q), s') →
      s.compute h long d srcs f = (s'.parkLane t (.queue q) taken).wordEnd h c)

/-- A word whose destination is a q register pushes its result as one slot, parks the lane where the queue is full, and is held at issue while an access that the push releases waits (R23, R215, R259, R261): MOV of one register is such a word, and computes it as every other class 0 to 2 word does. -/
def Sys2Proof.Machine.PushingWords : Prop :=
  ∀ (h : Hdr) (o : I2) (s : State) (c : Cur) (t : Tid) (q : Fin 64),
    let ops := [Opd.dst (.q q) 1, Opd.src o.a 1]
    let e := s.entered c h ops
    o.d = .q q → o.ty.regs = 1 → s.clear c h { ops := ops } = true → s.actives c h = [t] → s.plain [t] [Opd.src o.a 1] = true →
    exec (.mov h o) s = .next (if e.accessWaits { releases := true } [t] then s.holdWord (s.curIn c h)
      else (match e.push t q.val [s.regVal t o.a 0] with
        | some u => u
        | none => e.parkLane t (.queue q.val)).wordEnd h c)

/-- A word whose source is a team queue that holds a slot completes: MOV of one register from it takes the oldest slot off the queue, and its long result is that slot's word (R56, R259, R261). -/
def Sys2Proof.Machine.PoppingCompletes : Prop :=
  ∀ (h : Hdr) (o : I2) (s : State) (c : Cur) (t : Tid) (q : Fin 64) (tm : Team) (w : Word) (rest : List (List Word)),
    let ops := [Opd.dst o.d 1, Opd.src o.a 1]
    o.a = .q q → 32 ≤ q.val → (∀ p, o.d ≠ .q p) → o.ty.regs = 1 → s.clear c h { ops := ops } = true → s.actives c h = [t] →
    s.team? t.team = some tm → assoc [] tm.queues q.val = [w] :: rest →
    ∃ u : State, exec (.mov h o) s = .next (u.wordEnd h c) ∧ u.mem = s.mem ∧
      longsGain (s.issuedThread c h t) (u.thread? t) (destRegs true o.d 0 [w]) (c.shares [o.d]) ∧
      (u.team? t.team).map (fun y => assoc [] y.queues q.val) = some rest

/-- Queue registers as sources and destinations of a computing word (R56, R259, R261). -/
def Obligations.QueueOperands : Prop := PoppingWords ∧ PoppingCompletes ∧ PushingWords

/-! ### Class 3 (R135 to R141, R338) -/

/-- SHFL, VOTE.bal, MATCH, GRED, GSCAN, TOPK, RNDU and SEEDR complete: each active lane's long result is computed from what all active lanes read (R136 to R141, R338). -/
def Sys2Proof.Machine.CrossLaneWords : Prop :=
  ∀ (h : Hdr) (o : ShflF) (b : BalF) (m : MatchF) (g : GredF) (k : TopkF) (r : R2) (d : Reg),
    CrossWord (.shfl h o) h (Opd.dv o.d (if o.wide then 2 else 1) :: Opd.vsk o.a (if o.wide then 2 else 1) :: (match o.b with | .reg r => [Opd.vsk r] | .imm _ => []))
      (fun _ vs t v =>
        let n := match o.b with | .reg _ => (val1 v 2).toNat % 64 | .imm i => i.toNat
        [(o.d, match shflLane o.mode (2 ^ o.lw.val) t.lane n with
          | some l => (laneVal vs l 1).getD (v.getD 1 [])
          | none => v.getD 1 [])]) ∧
    CrossWord (.voteBal h b) h [Opd.dvs b.d 2] (fun s vs _ _ =>
      let x := laneMapOf vs fun t _ => s.predOf t b.ps != b.neg
      [(b.d, [x.lo, x.hi])]) ∧
    CrossWord (.matchLanes h m) h [Opd.dv m.d 2, Opd.vsk m.a (if m.wide then 2 else 1)] (fun _ vs _ v =>
      let x := laneMapOf vs fun _ w => decide (w.getD 1 [] = v.getD 1 [])
      [(m.d, [x.lo, x.hi])]) ∧
    CrossWord (.gred h g) h [Opd.dvs g.d (gopRegs g.op), Opd.vsk g.a (gopRegs g.op)] (fun _ vs _ _ =>
      [(g.d, wordsN (gopRegs g.op) (treeRoot (gop g.op) 6 (entering g.op vs)))]) ∧
    CrossWord (.gscan h g) h [Opd.dv g.d (gopRegs g.op), Opd.vsk g.a (gopRegs g.op)] (fun _ vs t _ =>
      [(g.d, wordsN (gopRegs g.op) (([1, 2, 4, 8, 16, 32].foldl (scanLevel (gop g.op)) (entering g.op vs)).getD t.lane 0))]) ∧
    CrossWord (.topk h k) h [Opd.dv k.d, { reg := k.a }, { reg := k.b, use := .wr, v := false, h := false, s := true }] (fun _ vs t _ =>
      let cand := topkCand k vs
      let n := min k.k.toNat cand.length
      let d := match cand.find? fun x => decide (x.1 = t.lane) with
        | some x => if topkRank k.ty cand x < n then topkRank k.ty cand x else 0xFFFFFFFF
        | none => 0xFFFFFFFF
      [(k.d, [BitVec.ofNat 32 d]), (k.b, [BitVec.ofNat 32 n])]) ∧
    CrossWord (.rndu h r) h [Opd.dvs r.d, Opd.vsk r.a] (fun _ _ _ v => [(r.d, [BitVec.ofNat 32 (rnduValue (val1 v 1).toNat)])]) ∧
    CrossWord (.seedr h d) h [Opd.dvs d 2] (fun s _ t _ => [(d, [(s.seedOf t).lo, (s.seedOf t).hi])])

/-- VOTE.all, VOTE.any and VOTE.eq write one predicate, the same in every active lane (R138). -/
def Sys2Proof.Machine.VoteWords : Prop :=
  ∀ (h : Hdr) (o : VoteF) (e : VEqF),
    CrossPred (.voteAll h o) h o.p [] (fun s vs => vs.all fun x => s.predOf x.1 o.ps != o.neg) ∧
    CrossPred (.voteAny h o) h o.p [] (fun s vs => vs.any fun x => s.predOf x.1 o.ps != o.neg) ∧
    CrossPred (.voteEq h e) h e.p [Opd.vsk e.a (if e.wide then 2 else 1)] (fun _ vs => vs.all fun x => vs.all fun y => decide (x.2.getD 0 [] = y.2.getD 0 []))

/-- Class 3 words (R136 to R141): what they compute from all active lanes. -/
def Obligations.LaneWords : Prop := CrossLaneWords ∧ VoteWords

/-- RND completes: each active lane's four registers receive Philox4x32-10 of the launch's seed, the index and the stream it names (R337, R338), whatever the launch has reserved (R344). -/
def Obligations.RandomWords : Prop :=
  ∀ (h : Hdr) (o : R3),
    CrossWord (.rnd h o) h [Opd.dv o.d 4, Opd.vsk o.a 2, Opd.vsk o.b 2] fun s _ t v =>
      [(o.d, philox (s.seedOf t).toNat (val2 v 1).toNat (val2 v 2).toNat)]

/-! ### Global memory (R236 to R256, R223 to R232) -/

/-- LD, and GATHER of a lane whose address is not zero, complete in ordinary conditions: the lane's long result holds the bytes of memory at the address, zero-extended, and no byte of memory, no register and no scratchpad changes (R238, R240, R242, R243). GATHER also enrols the lane in its mask. -/
def Obligations.LoadsReadMemory : Prop :=
  ∀ (h : Hdr) (o : MemF) (g : GatherF) (s : State) (c : Cur) (t : Tid) (x : Xlat),
    (let ops := [Opd.dvs o.d o.wid.regs, Opd.vsk o.a 2]
     let e := s.entered c h ops
     s.alone c h { ops := ops, illOrder := decide (o.ord = .release) } t = true → e.laneWaits (ordOf o.ord o.sco false) t (some (vaPlace (effAddr (s.opdVals t ops) 1 o.off o.wid.bytes) o.wid.bytes)) = false →
     e.reaches t (effAddr (s.opdVals t ops) 1 o.off o.wid.bytes) o.wid.bytes .load x → e.l1Current (e.who t).core x.pa →
     ∃ u : State, exec (.ld h o) s = .next (u.wordEnd h c) ∧ s.loadsOnly c h t o.d (destRegs true o.d 0 (wordsOf (s.readPhys x.pa o.wid.bytes))) u ∧
       s.sameBeyond { u with l1 := s.l1, dirty := s.dirty, icache := s.icache } ∧ ∀ a, Mem.get u.mem a = Mem.get s.mem a) ∧
    (let ops := [Opd.dvs g.d g.wid.regs, Opd.vsk g.a 2]
     let hm : Hdr := { h with marker := true }
     let e := s.entered c hm ops
     s.alone c hm { ops := ops, illReg := maskIllegal g.mask, illOrder := decide (g.ord = .release) } t = true →
     e.laneWaits (ordOf g.ord g.sco false) t (some (vaPlace (effAddr (s.opdVals t ops) 1 g.off g.wid.bytes) g.wid.bytes)) = false → (∀ y, s.group? t = some y → y.masks.length = 12) →
     (val2 (s.opdVals t ops) 1 ≠ 0 → e.reaches t (effAddr (s.opdVals t ops) 1 g.off g.wid.bytes) g.wid.bytes .load x ∧ e.l1Current (e.who t).core x.pa) →
     ∃ u : State, exec (.gather h g) s = .next (u.wordEnd hm c) ∧
       s.loadsOnly c hm t g.d (destRegs true g.d 0
         (if val2 (s.opdVals t ops) 1 = 0 then List.replicate g.wid.regs 0 else wordsOf (s.readPhys x.pa g.wid.bytes))) u ∧
       (u.group? t).map (fun y => y.mask g.mask.toNat) =
         (s.group? t).map (fun y => { y.mask g.mask.toNat with e := (y.mask g.mask.toNat).e ||| laneBit t.lane }) ∧
       ∀ a, Mem.get u.mem a = Mem.get s.mem a)

/-- What a store of some bytes at a physical address leaves: the bytes, but for a zero row (R306), every other byte of memory, every register, every predicate and every team's scratchpad as they were. -/
def Sys2Proof.Machine.storesOnly (s : State) (pa : Nat) (bs : List Byte) (u : State) : Prop :=
  (zeroRow pa = false → ∀ i, i < bs.length → Mem.get u.mem (pa + i) = bs.getD i 0) ∧ (zeroRow pa = true → u.mem = s.mem) ∧
  (∀ a, a < pa ∨ pa + bs.length ≤ a → Mem.get u.mem a = Mem.get s.mem a) ∧
  (∀ v r j, Reg.file? r j ≠ none → u.regVal v r j = s.regVal v r j) ∧
  s.scratchKept u ∧ ∀ v, (u.thread? v).map (fun th => th.preds) = (s.thread? v).map fun th => th.preds

/-- ST, and SCATTER of a lane whose address is not zero, complete in ordinary conditions: the register's low bytes stand at the address, and no other byte of memory, no register, no predicate and no scratchpad changes (R239, R241). A null lane of SCATTER writes nothing (R242). -/
def Obligations.StoresWriteMemory : Prop :=
  ∀ (h : Hdr) (o : MemF) (s : State) (c : Cur) (t : Tid) (x : Xlat),
    let ops := [Opd.vsk o.d o.wid.regs, Opd.vsk o.a 2]
    let e := s.entered c h ops
    let v := s.opdVals t ops
    let bs := dataBytes (v.getD 0 []) o.wid.bytes
    s.alone c h { ops := ops, illOrder := decide (o.ord = .acquire) } t = true →
    e.laneWaits (ordOf o.ord o.sco true false) t (some (vaPlace (effAddr v 1 o.off o.wid.bytes) o.wid.bytes)) = false →
    (e.reaches t (effAddr v 1 o.off o.wid.bytes) o.wid.bytes .store x →
      (∃ u : State, exec (.st h o) s = .next (u.wordEnd h c) ∧ storesOnly s x.pa bs u) ∧
      (val2 v 1 ≠ 0 → ∃ u : State, exec (.scatter h o) s = .next (u.wordEnd h c) ∧ storesOnly s x.pa bs u)) ∧
    (val2 v 1 = 0 → exec (.scatter h o) s = .next (e.wordEnd h c))

/-- ATOM and CAS outside deterministic mode, and RED in either, complete in ordinary conditions: the new value stands at the address when the operation writes one, ATOM and CAS give the old value as a long result, and no other byte of memory changes (R246, R247); RED is performed at once in deterministic mode too, where it is limited to integer operations other than exch (R256). -/
def Sys2Proof.Machine.AtomicsReadModifyWrite : Prop :=
  ∀ (h : Hdr) (o : AtF) (q : CasF) (r : RedF) (s : State) (c : Cur) (t : Tid) (x : Xlat),
    (let ops := [Opd.dvs o.d o.ty.regs, Opd.vsk o.a 2, Opd.vsk o.b o.ty.regs]
     let e := s.entered c h ops
     let old := s.readPhys x.pa o.ty.bytes
     s.alone c h { ops := ops } t = true → (e.descOfTid t).det = false →
     e.laneWaits (ordOf o.ord o.sco true) t (some (vaPlace (effAddr (s.opdVals t ops) 1 0 1) o.ty.bytes)) = false →
     e.reaches t (effAddr (s.opdVals t ops) 1 0 1) o.ty.bytes .atomic x →
     ∃ u : State, exec (.atom h o) s = .next (u.wordEnd h c) ∧
       storesOnly s x.pa (leBytes o.ty.bytes (atomicNew o.aop o.ty (leNat old) (opdNat (s.opdVals t ops) 2))) u ∧
       longsGain (s.issuedThread c h t) (u.thread? t) (destRegs true o.d 0 (wordsOf old)) (c.shares [o.d])) ∧
    (let ops := [Opd.dvs q.d q.ty.regs, Opd.vsk q.a 2, Opd.vsk q.b (2 * q.ty.regs)]
     let e := s.entered c h ops
     let v := (s.opdVals t ops).getD 2 []
     let old := s.readPhys x.pa q.ty.bytes
     s.alone c h { ops := ops } t = true → (e.descOfTid t).det = false →
     e.laneWaits (ordOf q.ord q.sco true) t (some (vaPlace (effAddr (s.opdVals t ops) 1 0 1) q.ty.bytes)) = false →
     e.reaches t (effAddr (s.opdVals t ops) 1 0 1) q.ty.bytes .atomic x →
     ∃ u : State, exec (.cas h q) s = .next (u.wordEnd h c) ∧ longsGain (s.issuedThread c h t) (u.thread? t) (destRegs true q.d 0 (wordsOf old)) (c.shares [q.d]) ∧
       (leNat old = leNat (bytesOf (v.take q.ty.regs)) →
         storesOnly s x.pa (leBytes q.ty.bytes (leNat (bytesOf (v.drop q.ty.regs)))) u) ∧
       (leNat old ≠ leNat (bytesOf (v.take q.ty.regs)) → u.mem = s.mem)) ∧
    (let ops := [Opd.vsk r.a 2, Opd.vsk r.b r.ty.regs]
     let e := s.entered c h ops
     s.alone c h { ops := ops, illOrder := decide (r.ord = .acquire) } t = true →
     e.laneWaits (ordOf r.ord r.sco true false) t (some (vaPlace (effAddr (s.opdVals t ops) 0 0 1) r.ty.bytes)) = false →
     ((e.descOfTid t).det = true → redForbidden r.aop r.ty = false) → e.reaches t (effAddr (s.opdVals t ops) 0 0 1) r.ty.bytes .atomic x →
     ∃ u : State, exec (.red h r) s = .next (u.wordEnd h c) ∧
       storesOnly s x.pa (leBytes r.ty.bytes (atomicNew r.aop r.ty (leNat (s.readPhys x.pa r.ty.bytes)) (opdNat (s.opdVals t ops) 1))) u)

/-- In deterministic mode ATOM and CAS of scope team or narrower are checked at issue and wait for their wave: memory does not change yet (R256, R346). Of a wider scope they raise DET_VIOLATION, as RED does with exch or a floating type (R256, R347). -/
def Sys2Proof.Machine.DeterministicAtomics : Prop :=
  ∀ (h : Hdr) (o : AtF) (q : CasF) (r : RedF) (s : State) (c : Cur) (t : Tid) (x : Xlat),
    (let ops := [Opd.dvs o.d o.ty.regs, Opd.vsk o.a 2, Opd.vsk o.b o.ty.regs]
     let e := s.entered c h ops
     let v := s.opdVals t ops
     s.alone c h { ops := ops } t = true → (e.descOfTid t).det = true →
     (o.sco.rank ≤ 2 → e.reaches t (effAddr v 1 0 1) o.ty.bytes .atomic x →
       ∃ u : State, exec (.atom h o) s = .next (u.wordEnd h c) ∧ u = e.joinWave t ((AtF.opd o).acc (effAddr v 1 0 1) v) ∧ u.mem = s.mem) ∧
     (2 < o.sco.rank → exec (.atom h o) s = .next ((e.trap t fcDetViolation).wordEnd h c))) ∧
    (let ops := [Opd.dvs q.d q.ty.regs, Opd.vsk q.a 2, Opd.vsk q.b (2 * q.ty.regs)]
     let e := s.entered c h ops
     let v := s.opdVals t ops
     s.alone c h { ops := ops } t = true → (e.descOfTid t).det = true →
     (q.sco.rank ≤ 2 → e.reaches t (effAddr v 1 0 1) q.ty.bytes .atomic x →
       ∃ u : State, exec (.cas h q) s = .next (u.wordEnd h c) ∧ u = e.joinWave t ((CasF.opd q).acc (effAddr v 1 0 1) v) ∧ u.mem = s.mem) ∧
     (2 < q.sco.rank → exec (.cas h q) s = .next ((e.trap t fcDetViolation).wordEnd h c))) ∧
    (let ops := [Opd.vsk r.a 2, Opd.vsk r.b r.ty.regs]
     let e := s.entered c h ops
     s.alone c h { ops := ops, illOrder := decide (r.ord = .acquire) } t = true → (e.descOfTid t).det = true →
     r.aop = .exch ∨ r.ty = .f32 ∨ r.ty = .f64 → exec (.red h r) s = .next ((e.trap t fcDetViolation).wordEnd h c))

/-- ATOM, CAS and RED: performed at the home slice; in deterministic mode ATOM and CAS are held for the wave, and those of a wider scope, or RED of other operations than its own there, raise DET_VIOLATION (R246, R247, R256, R346, R347). -/
def Obligations.Atomics : Prop := AtomicsReadModifyWrite ∧ DeterministicAtomics

/-- REDSEQ completes: the lane's contribution, with its set, index, address and value, sets out for its set; memory does not change yet (R249, R251). -/
def Obligations.ContributionsSetOut : Prop :=
  ∀ (h : Hdr) (o : AtF) (s : State) (c : Cur) (t : Tid) (x : Xlat),
    let ops := [Opd.vsk o.d 2, Opd.vsk o.a 2, Opd.vsk o.b o.ty.regs]
    let e := s.entered c h ops
    let v := s.opdVals t ops
    s.alone c h { ops := ops, illOrder := decide (o.ord = .acquire) } t = true →
    e.laneWaits { ordOf o.ord o.sco true false with reduces := true } t (some (vaPlace (effAddr v 1 0 1) o.ty.bytes)) = false →
    e.reaches t (effAddr v 1 0 1) o.ty.bytes .atomic x →
    ∃ (u : State) (k : Contrib), exec (.redseq h o) s = .next (u.wordEnd h c) ∧ u.contribs = s.contribs ++ [k] ∧ u.mem = s.mem ∧ k.set = (v.getD 0 []).getD 0 0 ∧
      k.idx = (v.getD 0 []).getD 1 0 ∧ k.va = BitVec.ofNat 64 (effAddr v 1 0 1) ∧ k.aop = o.aop ∧ k.ty = o.ty ∧ k.value = BitVec.ofNat 64 (opdNat v 2) ∧
      k.recips = [t] ∧ k.pc = c.pc ∧ s.scratchKept u ∧ ∀ w r j, Reg.file? r j ≠ none → u.regVal w r j = s.regVal w r j

/-- SIGW completes in a lane whose word satisfies the condition, giving the word when it is asked for; otherwise the lane parks on the word's sector, and no memory changes (R244, R245). -/
def Obligations.SignalWaits : Prop :=
  ∀ (h : Hdr) (o : SigwF) (s : State) (c : Cur) (t : Tid) (x : Xlat),
    let n := if o.w64 then 2 else 1
    let ops := [Opd.vsk o.a 2, Opd.vsk o.b n] ++ (match o.res with | some r => [Opd.dvs r n] | none => [])
    let e := s.entered c h ops
    let a := effAddr (s.opdVals t ops) 0 0 1
    let v := leNat (s.readPhys x.pa (4 * n))
    s.alone c h { ops := ops } t = true → e.laneWaits { reads := true } t (some (vaPlace a (4 * n))) = false → e.reaches t a (4 * n) .load x →
    (SCond.holds o.cond v (opdNat (s.opdVals t ops) 1) = true →
      ∃ u : State, exec (.sigw h o) s = .next (u.wordEnd h c) ∧ u.mem = s.mem ∧
        ∀ r, o.res = some r → ∀ j, j < n → u.regVal t r j = (wordsN n v).getD j 0) ∧
    (SCond.holds o.cond v (opdNat (s.opdVals t ops) 1) = false →
      ∃ u : State, exec (.sigw h o) s = .next ((u.parkLane t (.sector x.pa)).wordEnd h c) ∧ s.sameBeyond { u with l1 := s.l1, dirty := s.dirty })

/-- FENCE and PREF complete and change no value: FENCE empties its core's L1 when it acquires at cluster scope or wider and, wider than thread, counts for every replaced instruction word that has been cleaned (R17, R223, R225); after one that is no acquire, the thread's writes wait for its earlier accesses that have yet to be performed, after one that is no release every access waits for those of them that read, and at system scope its writes wait for its unacknowledged remote stores (R222, R225). PREF may fill L1 and never faults (R226). -/
def Obligations.FencesAndPrefetches : Prop :=
  ∀ (h : Hdr) (f : FenceF) (p : PrefF) (s : State) (c : Cur),
    (s.clear c h {} = true →
      ∃ u : State, exec (.fence h f) s = .next (u.wordEnd h c) ∧ s.sameBeyond { u with l1 := s.l1, icache := s.icache } ∧
        (f.kind ≠ .release → 3 ≤ f.sco.rank → ∀ t ∈ s.actives c h, ∀ k ∈ u.l1, k.core ≠ (s.who t).core) ∧
        (1 ≤ f.sco.rank → ∀ t ∈ s.actives c h, ∀ k ∈ u.icache, k.cleaned.isSome = true → (t, f.sco.rank) ∈ k.fences) ∧
        (f.kind ≠ .acquire → ∀ t ∈ s.actives c h, s.accessDue t s.nextId = true → u.laneWaits { writes := true } t = true) ∧
        (f.kind ≠ .release → ∀ t ∈ s.actives c h, (s.dues t s.nextId).any (fun d => d.reads) = true → u.laneWaits {} t = true) ∧
        (f.sco = .system → ∀ t ∈ s.actives c h, s.remoteDue t s.nextId = true → u.laneWaits { writes := true } t = true)) ∧
    (s.clear c h { ops := [Opd.vsk p.a 2] } = true → s.plain (s.actives c h) [Opd.vsk p.a 2] = true →
      ∃ u : State, exec (.pref h p) s = .next (u.wordEnd h c) ∧ s.sameBeyond { u with l1 := s.l1 })

/-- CMAINT completes over a range whose pages a lane may touch, all of them of this module: clean and flush leave no sector of it dirty, clean reaches the lane's own replaced instruction words there (R17), inv and flush drop its core's L1 copies, only inv may change memory, within the range's sectors; tinv drops the context's cached translations of the range on every core of its scope, and never faults (R227, R228, R205). A length of 0 does nothing, whatever the address (R228). -/
def Obligations.CacheMaintenance : Prop :=
  ∀ (h : Hdr) (o : CmaintF) (s : State) (c : Cur) (t : Tid) (qs : List (Nat × Nat)),
    let ops := [Opd.vsk o.a 2, Opd.vsk o.b]
    let e := s.entered c h ops
    let va := (val2 (s.opdVals t ops) 0).toNat
    let len := (val1 (s.opdVals t ops) 1).toNat
    let lo := va / 32 * 32
    let n := (va + len + 31) / 32 * 32 - lo
    let locked := e.locks.any fun l => !l.pool && l.dst && decide (l.core = (e.who t).core ∧ l.ctx = (e.who t).ctx) && l.overlaps lo n
    s.alone c h { ops := ops } t = true → e.laneWaits { writes := true } t (some (vaPlace va len)) = false →
    (len = 0 → exec (.cmaintInv h o) s = .next (e.wordEnd h c) ∧ exec (.cmaintClean h o) s = .next (e.wordEnd h c) ∧
      exec (.cmaintFlush h o) s = .next (e.wordEnd h c) ∧ exec (.cmaintTinv h o) s = .next (e.wordEnd h c)) ∧
    (0 < len → e.maintPages (e.who t) false (parts lo n) = (.ok qs, e) →
      (∃ u : State, exec (.cmaintClean h o) s = .next (u.wordEnd h c) ∧ u.mem = s.mem ∧
        ∀ q ∈ qs, (∀ d ∈ u.dirty, ¬(q.1 ≤ d.1 ∧ d.1 ≤ q.2)) ∧
          ∀ k ∈ u.icache, k.storer = none ∨ k.storer = some t → meets k.pa k.old.length (32 * q.1) (32 * (q.2 - q.1 + 1)) = true →
            ∃ r, k.cleaned = some r ∧ o.sco.rank ≤ r) ∧
      (locked = false →
        ∃ u : State, exec (.cmaintFlush h o) s = .next (u.wordEnd h c) ∧
          (∀ q ∈ qs, (∀ d ∈ u.dirty, ¬(q.1 ≤ d.1 ∧ d.1 ≤ q.2)) ∧ ∀ k ∈ u.l1, k.core = (e.who t).core → ¬(q.1 ≤ k.sector ∧ k.sector ≤ q.2)) ∧ u.mem = s.mem)) ∧
    (0 < len → e.maintPages (e.who t) true (parts lo n) = (.ok qs, e) → locked = false → (∀ d ∈ e.dirty, d.2.length = 32) →
      ∃ u : State, exec (.cmaintInv h o) s = .next (u.wordEnd h c) ∧
        (∀ q ∈ qs, (∀ d ∈ u.dirty, ¬(q.1 ≤ d.1 ∧ d.1 ≤ q.2)) ∧ ∀ k ∈ u.l1, k.core = (e.who t).core → ¬(q.1 ≤ k.sector ∧ k.sector ≤ q.2)) ∧
        ∀ a, (∀ q ∈ qs, ¬(q.1 ≤ a / 32 ∧ a / 32 ≤ q.2)) → Mem.get u.mem a = Mem.get s.mem a) ∧
    ∃ u : State, exec (.cmaintTinv h o) s = .next (u.wordEnd h c) ∧ s.sameBeyond { u with tlb := s.tlb } ∧
      ∀ k ∈ u.tlb, k.ctx = (e.who t).ctx → k.core < 256 → (e.who t).core < 256 →
        dieOf k.core = dieOf (e.who t).core ∨
          (o.sco ≠ .die ∧ s.dieParts.getD (dieOf k.core) 0 = s.dieParts.getD (dieOf (e.who t).core) 0) →
        meets k.base k.size va len = false

/-- The checks of a lane's access, in the order of R232: MISALIGN first, then the walk's PAGE_ABSENT, PAGE_ATTR of the page's attributes before PAGE_PERM, then RANGE_LOCK; an access that passes them with its data on a marked sector is MEM_UE. -/
def Sys2Proof.Machine.AccessChecks : Prop :=
  ∀ (s : State) (w : Who) (va n : Nat) (p : Perm) (attr : Xlat → Bool) (acq : Acq) (fill : Bool),
    let bad := fun x => s.badRemote w.ctx n x || attr x
    (va % n ≠ 0 → s.checkLane w va n p true attr = (.error fcMisalign, s)) ∧
    (∀ e u, va % n = 0 → s.translate w.core w.ctx va p bad = (.error e, u) → s.checkLane w va n p true attr = (.error e, u)) ∧
    (∀ x core ctx, attr x = true → s.permit core ctx x p attr = (.error fcPageAttr, s)) ∧
    (∀ x core ctx, attr x = false → p.ok x.leaf = false → s.permit core ctx x p attr = (.error fcPagePerm, s)) ∧
    (∀ x u, va % n = 0 → s.translate w.core w.ctx va p bad = (.ok x, u) → u.lockedVa w.core w.ctx va n p.writes = true →
      s.checkLane w va n p true attr = (.error fcRangeLock, u)) ∧
    (∀ x u, s.checkLane w va n .load true = (.ok x, u) → leafRm x.leaf = false → u.marked x.pa n = true →
      ∃ r, s.loadLane w va n acq fill = (.ue va, r) ∧ r.mem = u.mem)

/-- A misaligned or untranslatable access is a precise fault of its lane at the word, whether it could be performed at once or not: LD, ST and ATOM make no access and trap with the code of the check, MEM_UE of a table entry among them, and the address (R206, R232, R234, R236). -/
def Sys2Proof.Machine.AccessesTrapPrecisely : Prop :=
  ∀ (h : Hdr) (o : MemF) (q : AtF) (s u : State) (c : Cur) (t : Tid) (code : Nat),
    (let ops := [Opd.dvs o.d o.wid.regs, Opd.vsk o.a 2]
     let e := s.entered c h ops
     let a := effAddr (s.opdVals t ops) 1 o.off o.wid.bytes
     s.alone c h { ops := ops, illOrder := decide (o.ord = .release) } t = true →
     e.checkLane (e.who t) a o.wid.bytes .load true = (.error code, u) → u.cur = e.cur →
     exec (.ld h o) s = .next ((u.trap t code a).wordEnd h c)) ∧
    (let ops := [Opd.vsk o.d o.wid.regs, Opd.vsk o.a 2]
     let e := s.entered c h ops
     let a := effAddr (s.opdVals t ops) 1 o.off o.wid.bytes
     s.alone c h { ops := ops, illOrder := decide (o.ord = .acquire) } t = true →
     e.checkLane (e.who t) a o.wid.bytes .store true = (.error code, u) → u.cur = e.cur →
     exec (.st h o) s = .next ((u.trap t code a).wordEnd h c)) ∧
    (let ops := [Opd.dvs q.d q.ty.regs, Opd.vsk q.a 2, Opd.vsk q.b q.ty.regs]
     let e := s.entered c h ops
     let a := effAddr (s.opdVals t ops) 1 0 1
     s.alone c h { ops := ops } t = true → e.atomForbidden t q.sco = false →
     e.checkLane (e.who t) a q.ty.bytes .atomic true
         (fun x => leafRm x.leaf && (atomAct q.aop q.ty (opdNat (s.opdVals t ops) 2)).remote.isNone) = (.error code, u) → u.cur = e.cur →
     exec (.atom h q) s = .next ((u.trap t code a).wordEnd h c))

/-- The checks of an access in the order of R232, and the precise faults they make (R236, R206). -/
def Obligations.AccessFaults : Prop := AccessChecks ∧ AccessesTrapPrecisely

/-- A DA page (R307): 64 KiB at its stack, row and bank, one row chunk in each pseudo-channel, populated below DABOUND, homed on the die that its stack stands at. -/
def Sys2Proof.Machine.DaPages : Prop :=
  (∀ (b : Boot) (stack row bank o : Nat), stack < 16 → row < 2 ^ 16 → bank < 16 → o < 2 ^ 16 →
    let pa := stack * 2 ^ 36 + row * 2 ^ 20 + bank * 2 ^ 16 + o
    dramLoc b pa = some { stack := stack, pc := o / 2 ^ 10, bank := bank, row := row, byte := o % 2 ^ 10 } ∧
    populated b pa = decide (row < b.dabound)) ∧
  ∀ (s : State) (part : Nat) (l : DWord) (size pa : Nat), leafRm l = false → leafDa l = true → leafRules s part l size pa = true →
    size = 65536 ∧ homeDie l pa = leafPa l / 2 ^ 36 / 2

/-- The place of a band offset (R308), with the band's first row. -/
def Sys2Proof.Machine.bandPlace (die bound o : Nat) : DramLoc :=
  let n : BitVec 64 := BitVec.ofNat 64 (o / 2 ^ 8)
  let bit := fun (i : Nat) => (n.getLsbD i).toNat
  let q : BitVec 64 := n >>> 1
  let rr := (q >>> 12).toNat
  { stack := 2 * die + (bit 0 ^^^ bit 8 ^^^ bit 16 ^^^ bit 24), pc := ((q.extractLsb' 0 6) ^^^ (q.extractLsb' 6 6)).toNat,
    bank := (q.extractLsb' 8 4).toNat, row := bound + rr + rr / 511, byte := 256 * (q.extractLsb' 6 2).toNat + o % 256 }

/-- The die that the interleave hash gives to a line (R309). -/
def Sys2Proof.Machine.hashDie (n : BitVec 64) : Nat := (n.extractLsb' 0 3 ^^^ n.extractLsb' 8 3 ^^^ n.extractLsb' 16 3 ^^^ n.extractLsb' 24 3).toNat

/-- The bands (R308, R309): a die's from DABOUND, populated below MIBOUND; the module's from MIBOUND, populated below 49,152, on the die of the interleave hash. A leaf with HOME = interleave maps into the module band. -/
def Sys2Proof.Machine.Bands : Prop :=
  (∀ (b : Boot) (c o : Nat), c < 8 → o < 2 ^ 37 →
    dramLoc b (0x100000000000 + c * 2 ^ 37 + o) = some (bandPlace c b.dabound o) ∧
    populated b (0x100000000000 + c * 2 ^ 37 + o) = decide ((bandPlace c b.dabound o).row < b.mibound)) ∧
  (∀ (b : Boot) (o : Nat), o < 2 ^ 40 →
    let at_ := bandPlace (hashDie (BitVec.ofNat 64 (o / 2 ^ 8))) b.mibound (o / 2 ^ 8 / 2 ^ 3 * 2 ^ 8 + o % 2 ^ 8)
    dramLoc b (0x200000000000 + o) = some at_ ∧ populated b (0x200000000000 + o) = decide (at_.row < 49152)) ∧
  ∀ (s : State) (part : Nat) (l : DWord) (size pa : Nat), leafRm l = false → leafHome l = 8 → leafRules s part l size pa = true → region (leafPa l) = .module

/-- A line's home die and slice (R207): the die that HOME names, the die of the interleave hash, or the X-die (8) for a remote page. -/
def Sys2Proof.Machine.HomesOfLines : Prop :=
  (∀ pa : Nat, pa < 2 ^ 48 →
    let p : BitVec 64 := BitVec.ofNat 64 pa
    slice pa = (p.extractLsb' 8 4 ^^^ p.extractLsb' 12 4 ^^^ p.extractLsb' 16 4 ^^^ p.extractLsb' 20 4).toNat) ∧
  (∀ (l : DWord) (pa : Nat), leafRm l = true → homeDie l pa = 8) ∧
  (∀ (l : DWord) (pa : Nat), leafRm l = false → leafHome l ≠ 8 → homeDie l pa = leafHome l) ∧
  ∀ (l : DWord) (o : Nat), leafRm l = false → leafHome l = 8 → o < 2 ^ 40 → homeDie l (0x200000000000 + o) = hashDie (BitVec.ofNat 64 (o / 2 ^ 8))

/-- Where physical addresses lie: DA pages (R307), the bands (R308, R309), and a line's home die and slice (R207). -/
def Obligations.PhysicalMap : Prop := DaPages ∧ Bands ∧ HomesOfLines

/-! ### The pool (R91 to R94, R147 to R151) -/

/-- LDS and LDP complete where the access meets nothing (R92, R147): the long result holds the pool's bytes, zero-extended; LDP of a register on which a long write is outstanding is left out here (R60). Nothing else changes. -/
def Sys2Proof.Machine.PoolLoads : Prop :=
  ∀ (h : Hdr) (o : MemF) (s : State) (c : Cur) (t : Tid) (tm : Team),
    let ops := [Opd.dv o.d o.wid.regs, Opd.vs o.a]
    let e := s.entered c h ops
    let w := o.wid.bytes
    let pa := poolAddr (s.opdVals t ops) 1 o.off w
    let words := (List.range o.wid.regs).map fun j => Mem.w32 tm.pool (pa / 4 * 4 + 4 * j)
    let res := destRegs true o.d 0 (if w < 4 then [BitVec.ofNat 32 ((words.getD 0 0).toNat / 2 ^ (8 * (pa % 4)) % 2 ^ (8 * w))] else words)
    s.alone c h { ops := ops, illOrder := decide (o.ord = .release) } t = true →
    e.laneWaits (ordOf o.ord (teamScope o.sco) false) t (some { pool := true, addr := pa, len := w }) = false →
    s.team? t.team = some tm →
    (e.poolMeet t pa w true false = .go → ∃ u : State, exec (.lds h o) s = .next (u.wordEnd h c) ∧ s.loadsOnly c h t o.d res u ∧ s.sameBeyond u) ∧
    (e.poolMeet t pa w false false = .go → e.poolWords t (pa / 4 * 4) o.wid.regs = (words, e) →
      ∃ u : State, exec (.ldp h o) s = .next (u.wordEnd h c) ∧ s.loadsOnly c h t o.d res u ∧ s.sameBeyond u)

/-- STS and STP complete where the access meets nothing: the register's low bytes stand at the pool address, and the rest of the team's pool, every other team's pool, global memory and all else are as they were (R92, R147). -/
def Sys2Proof.Machine.PoolStores : Prop :=
  ∀ (h : Hdr) (o : MemF) (s : State) (c : Cur) (t : Tid) (tm : Team),
    let ops := [Opd.vsk o.d o.wid.regs, Opd.vs o.a]
    let e := s.entered c h ops
    let w := o.wid.bytes
    let v := s.opdVals t ops
    let pa := poolAddr v 1 o.off w
    let done := fun (u : State) =>
      (u.team? t.team).map (fun y => y.pool) = some (Mem.setN tm.pool pa (dataBytes (v.getD 0 []) w)) ∧
      (∀ k, k ≠ t.team → (u.team? k).map (fun y => y.pool) = (s.team? k).map fun y => y.pool) ∧ s.sameButPools u
    s.alone c h { ops := ops, illOrder := decide (o.ord = .acquire) } t = true →
    e.laneWaits (ordOf o.ord (teamScope o.sco) true false) t (some { pool := true, addr := pa, len := w }) = false →
    s.team? t.team = some tm →
    (e.poolMeet t pa w true true = .go → ∃ u : State, exec (.sts h o) s = .next (u.wordEnd h c) ∧ done u) ∧
    (e.poolMeet t pa w false true = .go → ∃ u : State, exec (.stp h o) s = .next (u.wordEnd h c) ∧ done u)

/-- What pool accesses are turned away or wait for (R92, R142, R147, R161, R230, R260): an address outside the team's pool, or for LDS and STS any byte outside its scratchpad, is POOL_RANGE; then a misaligned one is MISALIGN; then, in the scratchpad, a destination lock or a queue's storage is RANGE_LOCK, and for a store a source lock or the hash region too; at last a load of an absent line parks until it is present, and a store to one is RANGE_LOCK. -/
def Sys2Proof.Machine.PoolTraps : Prop :=
  ∀ (h : Hdr) (o : MemF) (s : State) (c : Cur) (t : Tid) (tm : Team),
    let d := s.descOf tm
    let w := o.wid.bytes
    let meetsAt := fun (ops : List Opd) (inside beside : Instr) (write : Bool) =>
      let e := s.entered c h ops
      let pa := poolAddr (s.opdVals t ops) 1 o.off w
      let both := fun (f : State) => exec inside s = .next (f.wordEnd h c) ∧ exec beside s = .next (f.wordEnd h c)
      let barred := e.lockedPoolDst t.team pa w || inQueueStorage d pa w || (write && (e.lockedPoolSrc t.team pa w || inHashRegion tm pa w))
      (d.scratch < pa + w ∨ 0x400000 ≤ pa → exec inside s = .next ((e.trap t fcPoolRange pa).wordEnd h c)) ∧
      ((pa < 0x400000 → d.scratch ≤ pa) → (0x400000 ≤ pa → 0x800000 ≤ pa ∨ d.winTotal tm ≤ pa - 0x400000) →
        exec beside s = .next ((e.trap t fcPoolRange pa).wordEnd h c)) ∧
      (pa + w ≤ d.scratch → pa < 0x400000 →
        (pa % w ≠ 0 → both (e.trap t fcMisalign pa)) ∧ (pa % w = 0 → barred = true → both (e.trap t fcRangeLock pa)) ∧
        (pa % w = 0 → barred = false → missingSeg d tm pa w = none → tm.lineAbsent (pa / 128) = true →
          both (if write then e.trap t fcRangeLock pa else e.parkLane t (.line (pa / 128)))))
    s.team? t.team = some tm →
    (let ops := [Opd.dv o.d o.wid.regs, Opd.vs o.a]
     s.alone c h { ops := ops, illOrder := decide (o.ord = .release) } t = true → meetsAt ops (.lds h o) (.ldp h o) false) ∧
    (let ops := [Opd.vsk o.d o.wid.regs, Opd.vs o.a]
     s.alone c h { ops := ops, illOrder := decide (o.ord = .acquire) } t = true → meetsAt ops (.sts h o) (.stp h o) true)

/-- LDS, LDP, STS and STP: their results, their traps and their waits (R92, R147). -/
def Obligations.PoolAccesses : Prop := PoolLoads ∧ PoolStores ∧ PoolTraps

/-- ATOMS completes where the access meets nothing: outside deterministic mode the old words are its long result and the new bytes stand in the scratchpad (R148, R149); in it the word waits for its wave (R346). -/
def Obligations.ScratchAtomics : Prop :=
  ∀ (h : Hdr) (o : AtomsF) (s : State) (c : Cur) (t : Tid) (tm : Team),
    let n := o.ty.regs
    let ops := [Opd.dvs o.d n, Opd.vs o.a, Opd.vsk o.b (if o.aop = .cas then 2 * n else n)]
    let e := s.entered c h ops
    let v := s.opdVals t ops
    let pa := poolAddr v 1 0 1
    let old := Mem.getN tm.pool pa o.ty.bytes
    s.alone c h { ops := ops } t = true →
    s.team? t.team = some tm → e.poolMeet t pa o.ty.bytes true true = .go →
    ((e.descOfTid t).det = false → e.laneWaits (ordOf o.ord .team true) t (some { pool := true, addr := pa, len := o.ty.bytes }) = false →
      (e.poolUe.any fun u => decide (u.1 = t.team) && meets pa o.ty.bytes u.2 4) = false → ∃ u : State, exec (.atoms h o) s = .next (u.wordEnd h c) ∧
      longsGain (s.issuedThread c h t) (u.thread? t) (destRegs true o.d 0 (wordsOf old)) (c.shares [o.d]) ∧
      (u.team? t.team).map (fun y => y.pool) = some (Mem.setN tm.pool pa (atomsNew o.aop o.ty (v.getD 2 []) old)) ∧
      (∀ k, k ≠ t.team → (u.team? k).map (fun y => y.pool) = (s.team? k).map fun y => y.pool) ∧ s.sameButPools u) ∧
    ((e.descOfTid t).det = true → exec (.atoms h o) s = .next ((e.joinWave t (AtomsF.acc o v)).wordEnd h c))

/-- PRES completes on lines of the scratchpad clear of queue storage: query gives their presence bits, set makes them present, clear makes them absent; PQRY completes with the value it selects (R94, R150, R151). -/
def Sys2Proof.Machine.PresenceOps : Prop :=
  ∀ (h : Hdr) (q : PresQ) (p : PresF) (d : SelD) (s : State) (c : Cur) (t : Tid) (tm : Team),
    (let ops := [Opd.dvs q.d, Opd.vs q.a]
     let pa := (val1 (s.opdVals t ops) 1).toNat
     let n := q.nM1.toNat + 1
     s.alone c h { ops := ops } t = true → s.team? t.team = some tm → pa % 128 = 0 → pa + 128 * n ≤ (s.descOf tm).scratch →
     inQueueStorage (s.descOf tm) pa (128 * n) = false →
     ∃ u : State, exec (.presQuery h q) s = .next (u.wordEnd h c) ∧ s.sameBeyond u ∧
       u.regVal t q.d 0 = BitVec.ofNat 32 (((List.range n).map fun i => if tm.lineAbsent (pa / 128 + i) then 0 else 2 ^ i).sum)) ∧
    (let ops := [Opd.vs p.a]
     let pa := (val1 (s.opdVals t ops) 0).toNat
     let n := p.nM1.toNat + 1
     s.alone c h { ops := ops } t = true → s.team? t.team = some tm → pa % 128 = 0 → pa + 128 * n ≤ (s.descOf tm).scratch →
     inQueueStorage (s.descOf tm) pa (128 * n) = false →
     (∃ (u : State) (y : Team), exec (.presSet h p) s = .next (u.wordEnd h c) ∧ u.team? t.team = some y ∧
       ∀ l, y.lineAbsent l = (tm.lineAbsent l && !decide (pa / 128 ≤ l ∧ l < pa / 128 + n))) ∧
     (∃ (u : State) (y : Team), exec (.presClear h p) s = .next (u.wordEnd h c) ∧ u.team? t.team = some y ∧ y.fills = tm.fills ∧
       ∀ l, y.lineAbsent l = (tm.lineAbsent l || decide (pa / 128 ≤ l ∧ l < pa / 128 + n)))) ∧
    ShortWord (.pqry h d) h (Opd.dvs d.d) [Opd.dvs d.d] (fun s t _ => [BitVec.ofNat 32 (s.pqry t d.sel.toNat)])

/-- The selectors of PQRY (R94): the scratchpad's bytes, the group's window, the team's windows, segments, the partition word, the views, the roles' budgets and free handler frames, and the window base of each group. -/
def Sys2Proof.Machine.PoolSelectors : Prop :=
  ∀ (s : State) (t : Tid) (tm : Team) (g : Group),
    s.team? t.team = some tm → s.group? t = some g →
    let d := s.descOf tm
    let below := fun (n : Nat) => 0x400000 + 256 * ((tm.groups.filter fun x => decide (x.num < n)).map fun x => d.budget x).sum
    let budget := fun (r : Nat) => match d.roles.getD r none with | some x => x.budget | none => 0
    [(0, d.scratch), (1, below g.num), (2, 256 * d.budget g), (3, 256 * (tm.groups.map fun x => d.budget x).sum), (4, tm.segs.length),
      (5, s.partWord tm.core), (6, d.viewt + 65536 * d.viewa), (7, budget 0 + 65536 * budget 1), (8, budget 2 + 65536 * budget 3),
      (9, s.freeFrames tm.core tm.ctx)].all (fun x => decide (s.pqry t x.1 = x.2)) = true ∧
    ∀ n < 16, s.pqry t (16 + n) = if tm.groups.any (fun x => decide (x.num = n)) then below n else 0xFFFFFFFF

/-- PRES and PQRY (R94, R150, R151). -/
def Obligations.PresenceWords : Prop := PresenceOps ∧ PoolSelectors

/-- RROT of a CLUSTER team completes with one counted request for the team, whose tile is absent from then on (R152 to R154). -/
def Obligations.RotationRequests : Prop :=
  ∀ (h : Hdr) (o : RrotF) (s : State) (c : Cur) (t : Tid) (tm : Team),
    let ops := [Opd.sk o.a, Opd.sk o.b]
    let off := (s.regVal t o.a 0).toNat
    let n := (s.regVal t o.b 0).toNat
    s.once c h { ops := ops } t = true → s.team? t.team = some tm → rrotTrap (s.descOf tm) off n = none → tm.canClear (linesOf off n) = true →
    (s.entered c h ops).accessWaits Machine.MemOrder.command (s.actives c h) = false →
    ∃ (u : State) (y : Team) (q : RrotReq), exec (.rrot h o) s = .next (u.wordEnd h c) ∧ u.team? t.team = some y ∧ y.rrots = tm.rrots + 1 ∧ u.rrots = s.rrots ++ [q] ∧
      q.team = tm.key ∧ q.k = tm.rrots ∧ q.off = off ∧ q.size = n ∧ q.back = o.back ∧ u.mem = s.mem ∧ ∀ l ∈ linesOf off n, y.lineAbsent l = true

/-! ### The hash region (R156 to R165) -/

/-- A thread holds a long result that is ready to land, of these registers. -/
def Sys2Proof.Machine.HoldsLong (s : State) (t : Tid) (regs : List LReg) : Prop :=
  ∃ th, s.thread? t = some th ∧ ∃ l ∈ th.longs, l.ready = true ∧ l.regs = regs

/-- A per-lane hash word of a team that keeps no deterministic order, at its place in the hash order (R158 to R161): no spill entries, a legal key, every slot of its search at hand. Where `f` gives the answer (value, status, position), the slot written and the region's new counts, the word completes with just that. -/
def Sys2Proof.Machine.HashLane (i : Instr) (h : Hdr) (d : Reg) (srcs : List Opd)
    (f : HashR → Found → Nat → Nat → Option ((Nat × Nat × Nat) × Option (Nat × Nat × Nat) × HashR)) : Prop :=
  ∀ (s : State) (c : Cur) (t : Tid) (tm : Team) (hr : HashR) (a : Nat × Nat × Nat) (w : Option (Nat × Nat × Nat)) (hr' : HashR),
    let ops := { Opd.dv d 4 with align := 4 } :: srcs
    let k := wordPair ((s.opdVals t ops).getD 1 []) 0
    let x := wordPair ((s.opdVals t ops).getD 2 []) 0
    let r := s.searchSlots tm hr k (probe hr.b k) {}
    decode c.word = i → s.alone c h { ops := ops } t = true → s.team? t.team = some tm → tm.place = .resident →
    (s.descOf tm).det = false → tm.waveOps = [] → tm.hash = some hr → hr.spill = 0 → k < keyTomb → r.wait = none → r.err = none →
    f hr r k x = some (a, w, hr') →
    ∃ (u : State) (y : Team), exec i s = .next (u.wordEnd h c) ∧
      HoldsLong u t (destRegs true d 0 (natPair a.1 ++ [BitVec.ofNat 32 a.2.1, BitVec.ofNat 32 a.2.2])) ∧
      u.team? t.team = some y ∧ y.hash = some hr' ∧ u.mem = s.mem ∧
      y.pool = match w with
        | none => tm.pool
        | some (p, k, v) => Mem.setN tm.pool (hr.slot p) (leBytes 8 k ++ leBytes 8 v)

/-- The same where the search leaves the buckets without the key and without a free slot and goes on over the spill list (R158, R160, R162). Where `f` gives the answer (value, status), the spill entry written and the region's new counts, the word completes with just that; status FULL (7) is HASH_FULL besides, pending for the thread. -/
def Sys2Proof.Machine.HashSpill (i : Instr) (h : Hdr) (d : Reg) (srcs : List Opd)
    (f : HashR → Option (Nat × Nat) → Nat → Nat → (Nat × Nat) × Option (Nat × Nat × Nat) × HashR) : Prop :=
  ∀ (s z v : State) (c : Cur) (t : Tid) (tm tm' : Team) (hr : HashR) (hit : Option (Nat × Nat)),
    let ops := { Opd.dv d 4 with align := 4 } :: srcs
    let k := wordPair ((s.opdVals t ops).getD 1 []) 0
    let x := wordPair ((s.opdVals t ops).getD 2 []) 0
    let r := s.searchSlots tm hr k (probe hr.b k) {}
    let e := ((s.entered c h ops).fresh.2.joinAll (some d) 4 false [t]).2
    let a := f hr hit k x
    decode c.word = i → s.alone c h { ops := ops } t = true → s.team? t.team = some tm → tm.place = .resident →
    (s.descOf tm).det = false → tm.waveOps = [] → tm.hash = some hr → k < keyTomb → r.wait = none → r.err = none → r.hit = none → r.free = none →
    e.team? t.team = some tm' → (if hr.spill = 0 then (.ok none, e) else e.searchSpill tm' hr k hr.spill 0) = (.ok hit, z) → z.isTwin tm' = false →
    (match a.2.1 with
      | none => v = z
      | some (n, k', x') => z.writeVa tm.ctx (hr.base.toNat + 16 * n) (leBytes 8 k' ++ leBytes 8 x') = (.ok (), v)) →
    ∃ (u : State) (y : Team) (th : Thread), exec i s = .next (u.wordEnd h c) ∧
      HoldsLong u t (destRegs true d 0 (natPair a.1.1 ++ [BitVec.ofNat 32 a.1.2, 0xFFFFFFFF])) ∧
      u.team? t.team = some y ∧ y.hash = some a.2.2 ∧ y.pool = tm.pool ∧ u.mem = v.mem ∧
      u.thread? t = some th ∧ (a.1.2 = 7 → ∃ q ∈ th.afaults, q.code = fcHashFull)

/-- HINS, HPROBE, HDEL and HACC (R159, R160): a key found gives its value with EXISTS (1), FOUND (2), DELETED (5) or UPDATED (6), HDEL makes its slot a tombstone, HACC stores the sum; a key not found is ABSENT (3) to HPROBE and HDEL, and HINS and HACC store it in the first free slot with INSERTED (0), else behind the spill list with SPILLED (4), else nowhere with FULL (7) and HASH_FULL; a key found in the spill list is answered alike at no position, and HDEL's tombstone there leaves the spill count. -/
def Obligations.HashWords : Prop :=
  ∀ (h : Hdr) (o : R3) (q : R2) (x : HaccF),
    let store := fun (hr : HashR) (r : Found) (k v ret : Nat) => r.free.map fun p =>
      ((ret, 0, p.1), some (p.1, k, v), { hr with live := hr.live + 1, tomb := if p.2 then hr.tomb - 1 else hr.tomb })
    HashLane (.hins h o) h o.d [Opd.vsk o.a 2, Opd.vsk o.b 2] (fun hr r k v =>
      match r.hit with | some (p, old) => some ((old, 1, p), none, hr) | none => store hr r k v 0) ∧
    HashLane (.hprobe h q) h q.d [Opd.vsk q.a 2] (fun hr r _ _ =>
      match r.hit with | some (p, old) => some ((old, 2, p), none, hr) | none => some ((0, 3, 0xFFFFFFFF), none, hr)) ∧
    HashLane (.hdel h q) h q.d [Opd.vsk q.a 2] (fun hr r _ _ =>
      match r.hit with
      | some (p, old) => some ((old, 5, p), some (p, keyTomb, 0), { hr with live := hr.live - 1, tomb := hr.tomb + 1 })
      | none => some ((0, 3, 0xFFFFFFFF), none, hr)) ∧
    HashLane (.hacc h x) h x.d [Opd.vsk x.a 2, Opd.vsk x.b 2] (fun hr r k v =>
      match r.hit with
      | some (p, old) => some ((haccSum x.ty old v, 6, p), some (p, k, haccSum x.ty old v), hr)
      | none => store hr r k v v) ∧
    (let append := fun (hr : HashR) (k v ret : Nat) =>
      if hr.spill < hr.cap.toNat then ((ret, 4), some (hr.spill, k, v), { hr with spill := hr.spill + 1, spilllive := hr.spilllive + 1 })
      else ((0, 7), none, hr)
     HashSpill (.hins h o) h o.d [Opd.vsk o.a 2, Opd.vsk o.b 2] (fun hr hit k v =>
      match hit with | some (_, old) => ((old, 1), none, hr) | none => append hr k v 0) ∧
     HashSpill (.hprobe h q) h q.d [Opd.vsk q.a 2] (fun hr hit _ _ =>
      match hit with | some (_, old) => ((old, 2), none, hr) | none => ((0, 3), none, hr)) ∧
     HashSpill (.hdel h q) h q.d [Opd.vsk q.a 2] (fun hr hit _ _ =>
      match hit with
      | some (n, old) => ((old, 5), some (n, keyTomb, 0), { hr with spilllive := hr.spilllive - 1 })
      | none => ((0, 3), none, hr)) ∧
     HashSpill (.hacc h x) h x.d [Opd.vsk x.a 2, Opd.vsk x.b 2] (fun hr hit k v =>
      match hit with
      | some (n, old) => ((haccSum x.ty old v, 6), some (n, k, haccSum x.ty old v), hr)
      | none => append hr k v v))

/-- HCLAIM, HFREE, HSTAT and HDRAIN of a team that keeps no deterministic order complete, once for the team: HCLAIM holds the region with its lines absent, HFREE gives it up and changes nothing else, HSTAT's long result is the count it selects, and HDRAIN empties the region and its counts and sets out its entries, sorted by key, behind their number (R156, R163 to R165). -/
def Obligations.HashTeamWords : Prop :=
  ∀ (h : Hdr) (a : Reg) (o : HdrainF) (q : HstatF) (s : State) (c : Cur) (t : Tid) (tm : Team) (hr : HashR),
    s.team? t.team = some tm → tm.place = .resident → (s.descOf tm).det = false → tm.waveOps = [] →
    (let ws := (s.opdVals t [Opd.sk a 4]).getD 0 []
     let new : HashR := { word0 := ws.getD 0 0, cap := ws.getD 1 0, base := BitVec.ofNat 64 (wordPair ws 2) }
     decode c.word = .hclaim h a → s.once c h { ops := [Opd.sk a 4] } t = true →
     claimTrap (s.descOf tm) tm.hash.isSome ws = none → tm.canClear (linesOf new.off new.bytes) = true →
     ∃ (u : State) (y : Team), exec (.hclaim h a) s = .next (u.wordEnd h c) ∧ u.team? t.team = some y ∧ y.hash = some new ∧ y.pool = tm.pool ∧
       u.mem = s.mem ∧ ∀ l ∈ linesOf new.off new.bytes, y.lineAbsent l = true) ∧
    (decode c.word = .hfree h → s.once c h {} t = true → tm.hash = some hr →
     exec (.hfree h) s = .next ((({ s.entered c h [] with nextId := s.nextId + 1 } : State).updTeam t.team fun y => { y with hash := none }).wordEnd h c)) ∧
    (decode c.word = .hstat h q → s.once c h { ops := [Opd.dvs q.d] } t = true → tm.hash = some hr →
     ∃ u : State, exec (.hstat h q) s = .next (u.wordEnd h c) ∧ u.mem = s.mem ∧ (∀ v r j, u.regVal v r j = s.regVal v r j) ∧
       ∀ v ∈ s.actives c h, (s.curIn c h).takes v q.d = true →
         HoldsLong u v (destRegs true q.d 0 [match q.sel.toNat with
           | 0 => BitVec.ofNat 32 hr.live | 1 => BitVec.ofNat 32 hr.spill | 2 => BitVec.ofNat 32 hr.spilllive
           | 3 => BitVec.ofNat 32 hr.tomb | 4 => hr.word0 | _ => hr.cap])) ∧
    (let ops := [Opd.sk o.a 2]
     let e := s.entered c h ops
     let dest := wordPair ((s.opdVals t ops).getD 0 []) 0
     let es := sortBy (fun x => x.1) (liveEntries (Mem.getN tm.pool hr.off hr.bytes))
     decode c.word = .hdrain h o → s.once c h { ops := ops } t = true → tm.hash = some hr → hr.spill = 0 → dest % 16 = 0 →
     tm.anyAbsent hr.off hr.bytes = false → missingSeg (s.descOf tm) tm hr.off hr.bytes = none →
     (s.poolUe.any fun m => decide (m.1 = t.team) && meets hr.off hr.bytes m.2 4) = false → e.lockRoom tm.core 1 = true →
     e.accessWaits Machine.MemOrder.command (s.actives c h) = false → e.probeVa tm.ctx dest (16 + 16 * es.length) .store = (.ok (), e) →
     ∃ (u : State) (y : Team), exec (.hdrain h o) s = .next (u.wordEnd h c) ∧ u.team? t.team = some y ∧ u.mem = s.mem ∧
       y.hash = some { hr with live := 0, spill := 0, spilllive := 0, tomb := 0 } ∧
       y.pool = Mem.setN tm.pool hr.off (List.replicate (hr.bytes / 16) (leBytes 8 keyEmpty ++ leBytes 8 0)).flatten ∧
       ∃ k ∈ u.cmds, k.team = tm.key ∧ k.code = 0xE0 ∧ k.tag = o.tag.toNat ∧
         k.out = [{ pool := false, addr := dest,
                    bytes := leBytes 8 es.length ++ leBytes 8 0 ++ es.flatMap fun x => leBytes 8 x.1 ++ leBytes 8 x.2 }])

/-! ### Rings (R292 to R302) -/

/-- RDEF define gives a descriptor that obeys R294, in an atomic page of a home die with a free entry, an entry of that die that no ring had: the active lanes' long result is its handle, the executing team owns it, and its geometry, head and tail are the descriptor's; a misaligned descriptor, one that breaks R294, one on another page or already defined, and a die with no free entry raise RING_CFG in every active lane. RDEF.free writes head and tail back and its handle is stale from then on; RDEF.adopt makes the executing team the owner (R293, R294, R298). -/
def Obligations.RingEntries : Prop :=
  ∀ (h : Hdr) (o : R2) (a : Reg) (s : State) (c : Cur) (t : Tid) (tm : Team) (r : Ring) (z : State),
    s.team? t.team = some tm →
    (let ops := [Opd.dvs o.d, Opd.sk o.a 2]
     let e := s.entered c h ops
     let va := wordPair ((s.opdVals t ops).getD 1 []) 0
     ∀ (x : Xlat) (bs : List Byte),
     s.once c h { ops := ops } t = true → tm.commit = [] → s.isTwin tm = false → va % 64 = 0 →
     e.translate tm.core tm.ctx va .atomic = (.ok x, e) → leafOrd x.leaf = 0 → homeDie x.leaf x.pa < 8 → leafHome x.leaf ≠ 8 → e.descUsed x.pa = false →
     e.readVa tm.ctx va 64 = (.ok bs, e) → ringDescOk bs = true → (∃ i < 8192, ∀ y ∈ s.rings, y.die = leafHome x.leaf → y.index ≠ i) →
     (∀ w : List Word, w.length = 3 → ∃ v, (e.pick 8192).2.writeVa tm.ctx (va + 0x18) (bytesOf w) = (.ok (), v)) →
     ∃ (u : State) (y : Ring), exec (.rdefDefine h o) s = .next (u.wordEnd h c) ∧ u.rings = s.rings ++ [y] ∧
       (∀ y' ∈ s.rings, ¬(y'.die = y.die ∧ y'.index = y.index)) ∧ y.die = leafHome x.leaf ∧ y.ctx = tm.ctx ∧ y.desc = BitVec.ofNat 64 va ∧
       y.base = BitVec.ofNat 64 (u64At bs 0) ∧ y.ldepth = u8At bs 8 ∧ y.lslot = u8At bs 9 ∧ y.head = BitVec.ofNat 32 (u32At bs 0x10) ∧
       y.tail = BitVec.ofNat 32 (u32At bs 0x14) ∧ s.owns tm y = true ∧
       ∀ v ∈ s.actives c h, HoldsLong u v (destRegs ((s.curIn c h).takes v o.d) o.d 0 [s.ringHandle y.die y.index])) ∧
    (let ops := [Opd.dvs o.d, Opd.sk o.a 2]
     let e := s.entered c h ops
     let va := wordPair ((s.opdVals t ops).getD 1 []) 0
     let refused := exec (.rdefDefine h o) s = .next ((e.trapAll (s.actives c h) fcRingCfg va).wordEnd h c)
     s.once c h { ops := ops } t = true →
     (va % 64 ≠ 0 → refused) ∧
     ∀ x : Xlat, va % 64 = 0 → e.translate tm.core tm.ctx va .atomic = (.ok x, e) →
       (leafOrd x.leaf ≠ 0 ∨ leafRm x.leaf = true ∨ leafHome x.leaf = 8 ∨ e.descUsed x.pa = true → refused) ∧
       ∀ bs : List Byte, leafOrd x.leaf = 0 → homeDie x.leaf x.pa < 8 → leafHome x.leaf ≠ 8 → e.descUsed x.pa = false → tm.commit = [] →
         e.readVa tm.ctx va 64 = (.ok bs, e) →
         ringDescOk bs = false ∨ (∀ i < 8192, ∃ y ∈ s.rings, y.die = leafHome x.leaf ∧ y.index = i) → refused) ∧
    (let e := s.entered c h [Opd.sk a]
     let hd := val1 (s.opdVals t [Opd.sk a]) 0
     s.once c h { ops := [Opd.sk a] } t = true →
     (s.ring? tm.ctx hd = none →
       exec (.rdefFree h a) s = .next ((e.trapAll (s.actives c h) fcStaleHandle).wordEnd h c) ∧
       exec (.rdefAdopt h a) s = .next ((e.trapAll (s.actives c h) fcStaleHandle).wordEnd h c)) ∧
     (s.ring? tm.ctx hd = some r → e.ringWrite (e.who t) (r.desc.toNat + 0x10) (bytesOf [r.head, r.tail]) = (.ok (), z) →
       exec (.rdefFree h a) s = .next ((z.dropRing r).wordEnd h c) ∧ (z.dropRing r).ring? tm.ctx hd = none) ∧
     (s.ring? tm.ctx hd = some r →
       e.ringWrite (e.who t) (r.desc.toNat + 0x1C) (bytesOf [BitVec.ofNat 32 tm.index, (s.launchOf tm).seq]) = (.ok (), z) →
       exec (.rdefAdopt h a) s = .next ((z.updRing r fun y =>
         { y with ownerTeam := BitVec.ofNat 32 tm.index, ownerLaunch := (s.launchOf tm).seq }).wordEnd h c)))

/-- RPUSH to a ring of the team stores the packet with the tail's phase, moves the tail and sets the predicate, or clears it on a full ring; a packet that breaks R296 or outgrows its registers and a team that is not the owner raise RING_CFG, a stale handle STALE_HANDLE; RPOP and RSTEAL take the packet at tail − 1 and at head, zeroes behind it, or say 0xFFFFFFFE (stale), 0xFFFFFFFD (not the owner, RPOP alone) or 0xFFFFFFFF (empty); RENQ sends the packet on its way (R295, R299, R300). -/
def Obligations.RingPackets : Prop :=
  ∀ (h : Hdr) (o : RpushF) (q : RpopF) (n : RenqF) (s : State) (c : Cur) (t : Tid) (tm : Team) (r : Ring) (z : State),
    s.team? t.team = some tm →
    (let ops := [Opd.vsk o.a, Opd.packet o.b (groupRegs o.w)]
     let e := s.entered c h ops
     let ws := (s.opdVals t ops).getD 1 []
     s.alone c h { ops := ops } t = true → e.accessWaits Machine.MemOrder.barrier [t] = false →
     pktOk (4 * groupRegs o.w) ws = true → s.ring? tm.ctx (val1 (s.opdVals t ops) 0) = some r →
     s.owns tm r = true → pktOk r.slotBytes ws = true →
     (r.tail - r.head = BitVec.ofNat 32 (2 ^ r.ldepth) → r.ldepth ≤ 16 → exec (.rpush h o) s = .next ((e.putPred t o.p false).wordEnd h c)) ∧
     ((r.tail - r.head).toNat < 2 ^ r.ldepth →
       e.ringWrite (e.who t) (r.base.toNat + 2 ^ r.lslot * (r.tail.toNat % 2 ^ r.ldepth)) (pktStored r ws) = (.ok (), z) →
       exec (.rpush h o) s = .next (((z.updRing r fun y => { y with tail := y.tail + 1 }).putPred t o.p true).wordEnd h c))) ∧
    (let ops := [Opd.vsk o.a, Opd.packet o.b (groupRegs o.w)]
     let e := s.entered c h ops
     let v := s.opdVals t ops
     let traps := fun (code : Nat) => exec (.rpush h o) s = .next ((e.trap t code).wordEnd h c)
     s.alone c h { ops := ops } t = true → e.accessWaits Machine.MemOrder.barrier [t] = false →
     (pktOk (4 * groupRegs o.w) (v.getD 1 []) = false → traps fcRingCfg) ∧
     (pktOk (4 * groupRegs o.w) (v.getD 1 []) = true →
       (s.ring? tm.ctx (val1 v 0) = none → traps fcStaleHandle) ∧
       (s.ring? tm.ctx (val1 v 0) = some r → s.owns tm r = false ∨ pktOk r.slotBytes (v.getD 1 []) = false → traps fcRingCfg))) ∧
    (let ops := [Opd.vsk q.a, { reg := q.d, n := groupRegs q.w, use := .wr }]
     let e := s.entered c h ops
     let hd := val1 (s.opdVals t ops) 0
     let say := fun (w : Word) => Host.Outcome.next (((e.addLong t true (destRegs true q.d 0 [w]) q.d.isS).2).wordEnd h c)
     s.alone c h { ops := ops } t = true → (s.descOf tm).det = false →
     (s.ring? tm.ctx hd = none → exec (.rpop h q) s = say 0xFFFFFFFE ∧ exec (.rsteal h q) s = say 0xFFFFFFFE) ∧
     (s.ring? tm.ctx hd = some r →
       (s.owns tm r = false → exec (.rpop h q) s = say 0xFFFFFFFD) ∧
       (s.owns tm r = true → r.tail = r.head → exec (.rpop h q) s = say 0xFFFFFFFF) ∧
       (r.tail = r.head → exec (.rsteal h q) s = say 0xFFFFFFFF) ∧
       (∀ bs, s.owns tm r = true → r.tail ≠ r.head → tm.commit = [] →
         e.readVa tm.ctx (r.base.toNat + 2 ^ r.lslot * ((r.tail - 1).toNat % 2 ^ r.ldepth)) (2 ^ r.lslot) = (.ok bs, z) →
         ∃ u : State, exec (.rpop h q) s = .next (u.wordEnd h c) ∧ HoldsLong u t (destRegs true q.d 0 (popWords (groupRegs q.w) bs)) ∧
           u.rings = (z.updRing r fun y => { y with tail := y.tail - 1 }).rings ∧ u.mem = z.mem) ∧
       (∀ bs, r.tail ≠ r.head → tm.commit = [] →
         e.readVa tm.ctx (r.base.toNat + 2 ^ r.lslot * (r.head.toNat % 2 ^ r.ldepth)) (2 ^ r.lslot) = (.ok bs, z) →
         ∃ u : State, exec (.rsteal h q) s = .next (u.wordEnd h c) ∧ HoldsLong u t (destRegs true q.d 0 (popWords (groupRegs q.w) bs)) ∧
           u.rings = (z.updRing r fun y => { y with head := y.head + 1 }).rings ∧ u.mem = z.mem))) ∧
    (let ops := [Opd.vsk n.d, Opd.vsk n.a, Opd.packet n.b (groupRegs n.w)]
     let e := s.entered c h ops
     let v := s.opdVals t ops
     let ws := v.getD 2 []
     s.alone c h { ops := ops } t = true → e.accessWaits Machine.MemOrder.barrier [t] = false → pktOk (4 * groupRegs n.w) ws = true →
     (∀ y, s.ring? tm.ctx (val1 v 1) = some y → pktOk y.slotBytes ws = true) → pktOk 256 ws = true →
     ∃ p : RenqPkt, p.ctx = tm.ctx ∧ p.sender = senderOf t ∧ p.target = val1 v 1 ∧ p.ret = val1 v 0 ∧
       p.words = ws.take (4 * (fieldOf (ws.getD 0 0) 0 4 + 1)) ∧
       exec (.renq h n) s = .next (({ e with nextId := e.nextId + 1, renqs := s.renqs ++ [p] } : State).wordEnd h c))

/-! ### Queues and guards (R258 to R269) -/

/-- QSUB puts one packet of the lowest active lane's registers (log 40, DEDUCED, where an s register's lanes span groups) on a team queue that has room, or hands it to the engine behind a command queue, which accepts it; QPOP's long result is the oldest slot, which leaves the queue; QSTAT gives a count and a capacity, of a command queue the team's unfinished commands behind it; QWAIT's long result is the oldest token with its tag, and without one the lane parks (R259 to R265, R269). -/
def Sys2Proof.Machine.QueueWords : Prop :=
  ∀ (h : Hdr) (o : QsubF) (p : R2) (w : R3) (s z : State) (c : Cur) (t : Tid) (tm : Team) (d : QDecl) (slot : List Word),
    (let src : Opd := { reg := o.a, n := o.cnt.toNat + 1, s := true }
     let ops := [{ reg := o.d, use := .name, v := false, h := false, q := true }, src]
     let e := s.entered c h ops
     let ws := (s.opdVals t ops).getD 1 []
     s.clear c h { ops := ops, illReg := fun _ _ => match o.d with | .q i => decide (queueKind i.val = 1) | _ => true } = true →
     (o.a.isS = true ∧ (s.actives c h).head? = some t ∨ s.actives c h = [t]) → s.plain [t] [src] = true → e.team? t.team = some tm → e.twinTid t = false →
     e.accessWaits (pushOrd o.d.queueNum) (s.actives c h) = false →
     (32 ≤ o.d.queueNum → (s.descOf tm).queue? o.d.queueNum = some d → 2 ^ d.lslot = 4 * ws.length → o.grd = none → e.push t o.d.queueNum ws = some z →
       exec (.qsub h o) s = .next (z.wordEnd h c)) ∧
     (o.d.queueNum < 32 → (e.rule tm o.d.queueNum ws).1.reject = none → e.queueFull (e.rule tm o.d.queueNum ws).1.eng = false →
       e.lockRoom tm.core (e.rule tm o.d.queueNum ws).1.locks.length = true →
       ∃ (u : State) (k : Cmd), exec (.qsub h o) s = .next (u.wordEnd h c) ∧ k ∈ u.cmds ∧ k.words = ws ∧ k.team = tm.key ∧ k.pc = c.pc ∧
         k.eng = (e.rule tm o.d.queueNum ws).1.eng ∧ k.tag = wAt ws 0 / 65536 ∧ k.recips = s.actives c h ∧ k.stage = .queued ∧ u.mem = (e.rule tm o.d.queueNum ws).2.mem)) ∧
    (let q := p.a.queueNum
     let ops := [{ reg := p.d, n := s.slotWords p.a, use := .wr, s := decide (s.slotWords p.a = 1) }, Opd.queue p.a]
     let e := s.entered c h ops
     s.clear c h { ops := ops, illReg := fun _ _ => !queueOf [1, 2] p.a } = true → s.actives c h = [t] → (q < 32 → e.accessWaits {} [t] = false ∧ e.deliverAsync t c.pc = (false, e)) →
     (e.pop t q = some (slot, z) →
       exec (.qpop h p) s = .next (((z.addLong t true (destRegs true p.d 0 slot) p.d.isS).2).wordEnd h c)) ∧
     (e.pop t q = none → exec (.qpop h p) s = .next ((e.parkLane t (.queue q)).wordEnd h c))) ∧
    (let ops := [Opd.dvs p.d, Opd.queue p.a]
     s.clear c h { ops := ops, illReg := fun _ _ => !queueOf [0, 1, 2] p.a } = true → s.actives c h = [t] → s.team? t.team = some tm →
     ∃ u : State, exec (.qstat h p) s = .next (u.wordEnd h c) ∧ u.mem = s.mem ∧
       (queueKind p.a.queueNum = 1 → (s.descOf tm).queue? p.a.queueNum = none → (tm.tokens.filter fun x => decide (x.1 = p.a.queueNum)).length < 65536 →
         (u.regVal t p.d 0).toNat = (tm.tokens.filter fun x => decide (x.1 = p.a.queueNum)).length + 65536 * 32) ∧
       (32 ≤ p.a.queueNum → (s.descOf tm).queue? p.a.queueNum = some d → d.ldepth ≤ 15 → (assoc [] tm.queues p.a.queueNum).length < 65536 →
         (u.regVal t p.d 0).toNat = (assoc [] tm.queues p.a.queueNum).length + 65536 * 2 ^ d.ldepth) ∧
       (let behind := (s.cmds.filter fun k => decide (k.team = t.team ∧ k.tokenQueue = p.a.queueNum + 1) &&
          (match k.eng with | .rrot _ => false | _ => true) && s.cmdOpen k).length
        queueKind p.a.queueNum = 0 → behind < 65536 → (u.regVal t p.d 0).toNat = behind + 65536 *
          (match p.a.queueNum with | 10 => 1024 | 12 => 512 | 14 => 256 | _ => 32))) ∧
    (let q := w.a.queueNum
     let ops := [Opd.dvs w.d, Opd.queue w.a, Opd.vsk w.b]
     let e := s.entered c h ops
     let tag := (val1 (s.opdVals t ops) 2).toNat % 65536
     s.clear c h { ops := ops, illReg := fun _ _ => !queueOf [1] w.a } = true → s.actives c h = [t] → s.plain [t] [Opd.vsk w.b] = true →
     e.accessWaits {} [t] = false → e.deliverAsync t c.pc = (false, e) → e.team? t.team = some tm →
     (∀ x, tm.tokens.find? (fun x => decide (x.1 = q ∧ x.2.toNat / 65536 = tag)) = some x →
       ∃ (u : State) (y : Team), exec (.qwait h w) s = .next (u.wordEnd h c) ∧ HoldsLong u t (destRegs true w.d 0 [x.2]) ∧
         u.team? t.team = some y ∧ y.tokens = tm.tokens.erase x ∧ u.mem = s.mem ∧ ∀ k ∈ u.l1, k.core ≠ tm.core) ∧
     (tm.tokens.find? (fun x => decide (x.1 = q ∧ x.2.toNat / 65536 = tag)) = none →
       exec (.qwait h w) s = .next ((e.parkLane t (.queue q)).wordEnd h c)))

/-- GSET makes a guard pending; GRES of a pending guard resolves it: no command of the team waits on it any more, and where the predicate is false each that waited is discarded, with status 1; of a guard that is not pending it changes nothing (R266 to R268). -/
def Sys2Proof.Machine.GuardWords : Prop :=
  ∀ (h : Hdr) (g : BitVec 4) (o : GresF) (s : State) (c : Cur) (t : Tid) (tm : Team),
    s.once c h {} t = true → s.team? t.team = some tm →
    (∃ (u : State) (y : Team), exec (.gset h g) s = .next (u.wordEnd h c) ∧ u.team? t.team = some y ∧ g.toNat ∈ y.guards ∧
      (∀ k, k ≠ g.toNat → (k ∈ y.guards ↔ k ∈ tm.guards)) ∧ u.mem = s.mem ∧ u.cmds = s.cmds) ∧
    (o.g.toNat ∉ tm.guards → exec (.gres h o) s = .next ((s.entered c h []).wordEnd h c)) ∧
    (o.g.toNat ∈ tm.guards →
      ∃ (u : State) (y : Team), exec (.gres h o) s = .next (u.wordEnd h c) ∧ u.team? t.team = some y ∧ o.g.toNat ∉ y.guards ∧ u.mem = s.mem ∧
        (∀ k ∈ u.cmds, k.team = t.team → k.guard ≠ some o.g.toNat) ∧
        ((s.predOf t o.p != o.neg) = false → ∀ k ∈ s.cmds, k.team = t.team → k.guard = some o.g.toNat →
          ∃ k' ∈ u.cmds, k'.id = k.id ∧ k'.stage = .consumed ∧ k'.status = 1 ∧ k'.guard = none))

/-- QSUB, QPOP, QSTAT, QWAIT, GSET and GRES (R258 to R269). -/
def Obligations.QueuesAndGuards : Prop := QueueWords ∧ GuardWords

/-! ### Matrix arrays (R166 to R196) -/

/-- A class 6 word that its queue and the locks have room for, and behind which no access that a command issue releases waits, enters one command for its group, for all active lanes; where its checks fail, every active lane traps; on a full queue it is held at issue, its threads as they stood before it. Registers and memory stand. -/
def Sys2Proof.Machine.EntersArray (i : Instr) (h : Hdr) (k : State → Checks) (judge : State → Team → Tid → List Tid → MIssue) : Prop :=
  ∀ (s : State) (c : Cur) (t : Tid) (tm : Team),
    let e := s.entered c h (k s).ops
    s.clear c h (k s) = true → (s.actives c h).head? = some t → e.team? t.team = some tm →
    (e.queueFull (.array c.core c.pipe) = true → exec i s = .next (s.holdWord (s.curIn c h))) ∧
    (e.queueFull (.array c.core c.pipe) = false → e.accessWaits Machine.MemOrder.command (s.actives c h) = false →
      (∀ code a, judge e tm t (s.actives c h) = .trap code a → exec i s = .next ((e.trapAll (s.actives c h) code a).wordEnd h c)) ∧
      (∀ m, judge e tm t (s.actives c h) = .go m → e.lockRoom c.core (m.ranges.filter fun x => decide (x.len ≠ 0)).length = true →
        ∃ (u : State) (k : Cmd), exec i s = .next (u.wordEnd h c) ∧ k ∈ u.cmds ∧ k.eng = .array c.core c.pipe ∧ k.stage = .queued ∧ k.team = tm.key ∧
          k.group = t.group ∧ k.code = m.code ∧ k.words = c.word.lo :: c.word.hi :: m.vals ∧ k.args = m.args ∧ k.tag = m.tag ∧
          k.recips = s.actives c h ∧ u.mem = s.mem ∧ ∀ v r j, u.regVal v r j = s.regVal v r j))

/-- The eight matrix words enter their commands: MLOOP, MZERO, MDRAIN, MSTORE, MSTADD, MLDF, MSCAN and MCARRY, each with the checks and the ranges of its own rules (R166 to R171, R183, R185, R188, R189, R192, R196), MSTADD's and MLOOP's as logs 85 and 86 (DEDUCED) read them. -/
def Sys2Proof.Machine.MatrixWordsEnter : Prop :=
  ∀ (h : Hdr) (l : MloopF) (z : MzeroF) (d : MdrainF) (a : MstaddF) (f : MldfF) (n : MscanF) (y : McarryF),
    let at_ := fun (ops : List Opd) (r : Reg) (_ : State) => ({ ops := ops, whole := true, illReg := fun s t => !s.blockStart t r } : Checks)
    EntersArray (.mloop h l) h (fun s => at_ [Opd.block l.d 256 1 (s.asksAcc h l), Opd.sgroup l.a 8, Opd.vsk l.b] l.d s) (fun s tm t set => s.mloopIssue l tm t set) ∧
    EntersArray (.mzero h z) h (at_ [Opd.block z.d 256 1] z.d)
      (fun s _ t _ => .go { code := 0xE4, tag := z.tag.toNat, tok := z.tok, ranges := [{ pool := true, lo := s.regAddr t (regNum z.d), len := 65536, dst := true }] }) ∧
    EntersArray (.mdrain h d) h (at_ [Opd.block d.d 256 1 true, Opd.sk d.a, Opd.sk d.b] d.d) (fun s tm t _ => s.drainIssue d true tm t) ∧
    EntersArray (.mstore h d) h (at_ [Opd.block d.d 256 1 true, Opd.sk d.a 2, Opd.sk d.b] d.d) (fun s tm t _ => s.drainIssue d false tm t) ∧
    EntersArray (.mstadd h a) h (at_ [Opd.block a.d 256 1 true, Opd.sk a.a 2, Opd.sgroup a.b 4] a.d) (fun s tm t _ => s.mstaddIssue a tm t) ∧
    EntersArray (.mldf h f) h (fun _ => { ops := [Opd.block f.d (32 * (f.nM1.toNat + 1)) 32, Opd.sk f.a], whole := true }) (fun s tm t _ => s.mldfIssue f tm t) ∧
    EntersArray (.mscan h n) h (at_ [Opd.block n.d 256 1 true, Opd.sgroup n.a 4, Opd.block n.b 4 4 true] n.d) (fun s tm t _ => s.mscanIssue n tm t) ∧
    EntersArray (.mcarry h y) h (fun _ => { ops := [Opd.dvs y.d, Opd.block y.b 4 4], whole := true })
      (fun s _ t _ => .go { ranges := if y.reset then [{ pool := true, lo := s.regAddr t (regNum y.b), len := 1024, dst := true }] else [] })

/-- MWAIT, on a full array queue too (log 82, DESIGN CHOICE), is over where no command of the group that it waits for is short of its point: the last that names the block at its consumed or done point, or every command at done; otherwise a lane parks (R181). -/
def Sys2Proof.Machine.MatrixWaits : Prop :=
  ∀ (h : Hdr) (d : Reg) (s : State) (c : Cur),
    let name := fun (o : Option Reg) (t : Tid) (k : Cmd) => k.eng.isArray && decide (k.team = t.team ∧ k.group = t.group) &&
      match o with | none => true | some r => decide (namedBlock k.word = some r)
    let last := fun (t : Tid) (k : Cmd) => name (some d) t k = true ∧ ∀ k' ∈ s.cmds, name (some d) t k' = true → k'.id ≤ k.id
    let block : Checks := { ops := [Opd.block d 256 1], whole := true, illReg := fun s t => !s.blockStart t d }
    (s.clear c h block = true → (s.entered c h block.ops).deliverPoint c.pc (s.actives c h) = (s.actives c h, s.entered c h block.ops) →
      ((∀ t ∈ s.actives c h, ∀ k ∈ s.cmds, last t k → k.stage = .consumed ∨ k.stage = .done) → (s.cmds.map fun k => k.id).Nodup →
        exec (.mwaitConsumed h d) s = .next ((s.entered c h block.ops).wordEnd h c)) ∧
      ((∀ t ∈ s.actives c h, ∀ k ∈ s.cmds, last t k → k.stage = .done) → (s.cmds.map fun k => k.id).Nodup →
        exec (.mwaitDone h d) s = .next ((s.entered c h block.ops).wordEnd h c)) ∧
      (∀ t k, s.actives c h = [t] → k ∈ s.cmds → last t k → k.stage = .queued →
        exec (.mwaitConsumed h d) s = .next (((s.entered c h block.ops).parkLane t .array (natPair (k.id + 1))).wordEnd h c) ∧
        exec (.mwaitDone h d) s = .next (((s.entered c h block.ops).parkLane t .array (natPair (k.id + 1))).wordEnd h c))) ∧
    (s.clear c h { whole := true } = true → (s.entered c h []).deliverPoint c.pc (s.actives c h) = (s.actives c h, s.entered c h []) →
      (∀ t ∈ s.actives c h, ∀ k ∈ s.cmds, name none t k = true → k.stage = .done) →
      exec (.mwaitAll h) s = .next ((s.entered c h []).wordEnd h c))

/-- The class 6 words: commands enter their array's queue, and MWAIT waits for their points (R166 to R196). -/
def Obligations.MatrixWords : Prop := MatrixWordsEnter ∧ MatrixWaits

/-! ### Control (R63 to R77) -/

/-- A branch word completes where no active lane's target is misaligned and no UNIFORM hint is checked and false: every active lane is at its target, every other lane of the set at the next word, and the link, if any, is the next word's address. Where the set's threads are then at two PCs or more, those off the preferred path take the stamp of the issue plus one (R65). No other thread, no other register, no predicate, no scratchpad, no memory and nothing else of the state changes. -/
def Sys2Proof.Machine.GoesTo (i : Instr) (h : Hdr) (ops : List Opd) (hint : Hint) (direct : Bool) (target : State → Cur → Tid → DWord) (link : Option Reg) (mode : State → Cur → Prop) : Prop :=
  ∀ (s : State) (c : Cur),
    let act := s.actives c h
    let next := fun (a : Tid) => if a ∈ act then target s c a else c.pc + 8
    let lowest := (act.head?.map (target s c)).getD (c.pc + 8)
    let highest := (act.getLast?.map (target s c)).getD (c.pc + 8)
    let preferred := match hint with
      | .likely => lowest
      | .unlikely => if direct then c.pc + 8 else highest
      | _ => if direct then c.pc + 8 else lowest
    let splits := c.lanes.any fun a => c.lanes.any fun b => decide (next a ≠ next b)
    mode s c →
    s.clear c h { ops := ops } = true → s.plain act ops = true → (∀ a ∈ act, (target s c a).toNat % 8 = 0) →
    (∀ a ∈ act, (s.descOfTid a).hintchk = true → hint = .uniform → ∀ b ∈ act, target s c b = target s c a) →
    ∃ u : State, exec i s = .next (u.wordEnd h c) ∧ u.mem = s.mem ∧ (∀ a, a ∉ c.lanes → u.thread? a = s.thread? a) ∧
      (∀ a ∈ act, (u.thread? a).map (fun th => th.pc) = some (target s c a)) ∧
      (∀ a ∈ c.lanes, a ∉ act → (u.thread? a).map (fun th => th.pc) = (s.thread? a).map fun _ => c.pc + 8) ∧
      ((∀ a ∈ c.lanes, (s.thread? a).isSome = true) → ∀ a ∈ c.lanes,
        (u.thread? a).map (fun th => th.stamp) = some (if splits && decide (next a ≠ preferred) then s.clk.acycle + 1 else s.clk.acycle)) ∧
      s.sameBeyond u ∧ (∀ v, (u.thread? v).map (fun th => th.preds) = (s.thread? v).map fun th => th.preds) ∧
      (∀ r, link = some r → ∀ a ∈ act, u.regVal a r 0 = (c.pc + 8).lo ∧ u.regVal a r 1 = (c.pc + 8).hi) ∧
      ∀ v r j, s.readable v r j → (∀ r', link = some r' → ∀ a ∈ act, isDest a r' 2 v r j = false) → u.regVal v r j = s.regVal v r j

/-- BRA and CALL go to PC + 8 × OFF, BRX, RET and CALLX to the pair they read, which CALLX reads before it writes its link; CALL links in v0:v1, or in h0:h1 in handler mode; a set that splits prefers the path of its hint (R64 to R66). -/
def Obligations.Branches : Prop :=
  ∀ (h : Hdr) (o : BrF) (x : BrxF) (y : CallxF),
    let near := fun (_ : State) (c : Cur) (_ : Tid) => c.pc + (o.off.signExtend 64) * 8
    let mode := fun (b : Bool) (s : State) (c : Cur) => c.lanes ≠ [] ∧ ∀ a ∈ c.lanes, s.threadIs a (fun th => th.handler) = b
    GoesTo (.bra h o) h [] o.hint true near none (fun _ _ => True) ∧
    GoesTo (.call h o) h [Opd.dv (.v 0) 2] o.hint true near (some (.v 0)) (mode false) ∧
    GoesTo (.call h o) h [Opd.dv (.h 0) 2] o.hint true near (some (.h 0)) (mode true) ∧
    GoesTo (.brx h x) h [Opd.vsk x.a 2] x.hint false (fun s _ a => val2 (s.opdVals a [Opd.vsk x.a 2]) 0) none (fun _ _ => True) ∧
    GoesTo (.ret h x) h [Opd.vsk x.a 2] x.hint false (fun s _ a => val2 (s.opdVals a [Opd.vsk x.a 2]) 0) none (fun _ _ => True) ∧
    GoesTo (.callx h y) h [Opd.dv y.d 2, Opd.vsk y.a 2] y.hint false (fun s _ a => val2 (s.opdVals a [Opd.dv y.d 2, Opd.vsk y.a 2]) 1) (some y.d) (fun _ _ => True)

/-! ### Masks and barriers (R67 to R72) -/

/-- A mask word of one lane leaves `f` of its group's mask; where that makes E a part of a W that is not empty, the mask is released: it is empty, and no thread of the group waits at it. Memory stands. No thread that waits at a marker has a fault to take there. -/
def Sys2Proof.Machine.LeavesMask (i : Instr) (h : Hdr) (m : BitVec 4) (parks : Bool) (f : Mask → BitVec 64 → Mask) : Prop :=
  ∀ (s : State) (c : Cur) (t : Tid) (g : Group),
    s.clear c h { illReg := maskIllegal m } = true → s.actives c h = [t] → s.group? t = some g → g.masks.length = 12 →
    (∀ th ∈ g.threads, Park.marker ∈ th.parks → th.afaults = []) →
    (parks = true → (s.entered c h []).deliverAsync t c.pc = (false, s.entered c h [])) →
    let x := f (g.mask m.toNat) (1 <<< t.lane)
    let free := decide (x.e &&& ~~~x.w = 0) && decide (x.w ≠ 0)
    ∃ (u : State) (y : Group), exec i s = .next (u.wordEnd h c) ∧ u.mem = s.mem ∧ u.group? t = some y ∧
      y.mask m.toNat = (if free then {} else x) ∧ (∀ n, n ≠ m.toNat → y.mask n = g.mask n) ∧
      (free = true → ∀ th ∈ y.threads, Park.waitm m.toNat ∉ th.parks) ∧
      (free = false → parks = true → u.threadIs t (fun th => th.parks.contains (Park.waitm m.toNat)) = true) ∧
      (∀ v r j, u.regVal v r j = s.regVal v r j)

/-- JOIN enrols the lane in E, LEAVE takes it out, WAITM parks it and puts it into W, each with the release rule; MCLR releases the mask; MGET gives E or W (R67, R68, R70). -/
def Sys2Proof.Machine.MaskWords : Prop :=
  ∀ (h : Hdr) (m : BitVec 4) (o : MgetF),
    LeavesMask (.join h m) h m false (fun x b => { x with e := x.e ||| b }) ∧
    LeavesMask (.leave h m) h m false (fun x b => { x with e := x.e &&& ~~~b }) ∧
    LeavesMask (.waitm h m) h m true (fun x b => { x with w := x.w ||| b }) ∧
    (∀ (s : State) (c : Cur) (t : Tid) (g : Group),
      s.clear c h { illReg := maskIllegal m } = true → s.actives c h = [t] → s.group? t = some g → g.masks.length = 12 →
      (∀ th ∈ g.threads, Park.marker ∈ th.parks → th.afaults = []) →
      ∃ (u : State) (y : Group), exec (.mclr h m) s = .next (u.wordEnd h c) ∧ u.mem = s.mem ∧ u.group? t = some y ∧ y.mask m.toNat = {} ∧
        (∀ n, n ≠ m.toNat → y.mask n = g.mask n) ∧ ∀ th ∈ y.threads, Park.waitm m.toNat ∉ th.parks) ∧
    (∀ (s : State) (c : Cur) (t : Tid) (g : Group),
      let d : Opd := { reg := o.d, n := 2, align := 2, use := .wr, v := false, h := false, s := true }
      s.clear c h { ops := [d], illReg := maskIllegal o.m } = true → s.actives c h = [t] → s.group? t = some g →
      ∃ u : State, exec (.mget h o) s = .next (u.wordEnd h c) ∧ u.mem = s.mem ∧
        pairOf (u.regVal t o.d 0) (u.regVal t o.d 1) = if o.arr then (g.mask o.m.toNat).w else (g.mask o.m.toNat).e)

/-- Barriers of a team outside handler mode: BARI with 1 ≤ N ≤ 1,024 sets the count, and completes the phase where N or more have arrived, whether a fault is pending or not (log 34, DEDUCED); BARA arrives, its result the phase before; BARW waits while the phase is the one it names; BARS arrives and waits, or goes on where it completes the phase; a phase that completes leaves no thread of the team waiting for it (R71, R72). A team that keeps no deterministic order, lanes with no pending fault and no access that their arrival releases, and no thread at a marker with a fault to take. -/
def Sys2Proof.Machine.BarrierWords : Prop :=
  ∀ (h : Hdr) (o : BariF) (q : BarRF) (b : BitVec 4) (s : State) (c : Cur) (t : Tid) (tm : Team),
    let quiet := fun (ops : List Opd) => (s.entered c h ops).deliverAsync t c.pc = (false, s.entered c h ops)
    let arrived := fun (x : Barrier) => if x.c + 1 = x.n then { x with c := 0, p := x.p + 1 } else { x with c := x.c + 1 }
    s.actives c h = [t] → s.team? t.team = some tm → tm.barriers.length = 16 → (s.descOf tm).det = false →
    (∀ th ∈ tm.allThreads, Park.marker ∈ th.parks → th.afaults = []) →
    (let ops := match o.n with | .reg r => [Opd.sk r] | .imm _ => []
     let n := match o.n with | .reg _ => (val1 (s.opdVals t ops) 0).toNat | .imm i => i.toNat
     let x := tm.barrier o.bar.toNat
     s.clear c h { ops := ops, illOp := inHandler } = true → s.plain [t] ops = true →
     (1 ≤ n → n ≤ 1024 → ∃ (u : State) (y : Team), exec (.bari h o) s = .next (u.wordEnd h c) ∧ u.mem = s.mem ∧ u.team? t.team = some y ∧
       (y.barrier o.bar.toNat = if 0 < x.c ∧ n ≤ x.c then { n := n, c := 0, p := x.p + 1 } else { x with n := n }) ∧
       (0 < x.c → n ≤ x.c → ∀ th ∈ y.allThreads, Park.barrier o.bar.toNat x.p ∉ th.parks)) ∧
     (n < 1 ∨ 1024 < n → exec (.bari h o) s = .next (((s.entered c h ops).trap t fcIllegalOp).wordEnd h c))) ∧
    (let ops := [Opd.dvs q.r]
     let x := tm.barrier q.bar.toNat
     s.clear c h { ops := ops, illOp := inHandler } = true → quiet ops → (s.entered c h ops).accessWaits Machine.MemOrder.barrier [t] = false →
     ∃ (u : State) (y : Team), exec (.bara h q) s = .next (u.wordEnd h c) ∧ u.mem = s.mem ∧ u.team? t.team = some y ∧
       y.barrier q.bar.toNat = arrived x ∧ (x.c + 1 = x.n → ∀ th ∈ y.allThreads, Park.barrier q.bar.toNat x.p ∉ th.parks) ∧
       (q.r.isS = true → u.regVal t q.r 0 = x.p.setWidth 32) ∧ (q.r.isS = false → HoldsLong u t (destRegs true q.r 0 [x.p.setWidth 32]))) ∧
    (let ops := [Opd.vsk q.r]
     let x := tm.barrier q.bar.toNat
     s.clear c h { ops := ops, illOp := inHandler } = true → s.plain [t] ops = true → quiet ops → (s.entered c h ops).accessWaits {} [t] = false →
     let ph := (val1 (s.opdVals t ops) 0).setWidth 16
     (x.p ≠ ph → exec (.barw h q) s = .next ((s.entered c h ops).wordEnd h c)) ∧
     (x.p = ph → exec (.barw h q) s =
       .next (((s.entered c h ops).updThread t fun th => { th with parks := Park.barrier q.bar.toNat ph :: th.parks }).wordEnd h c))) ∧
    (let x := tm.barrier b.toNat
     s.clear c h { illOp := inHandler } = true → quiet [] → (s.entered c h []).accessWaits Machine.MemOrder.barrier [t] = false → s.threadIs t (fun th => th.closed) = false →
     ∃ (u : State) (y : Team), exec (.bars h b) s = .next (u.wordEnd h c) ∧ u.mem = s.mem ∧ u.team? t.team = some y ∧
       y.barrier b.toNat = arrived x ∧
       (x.c + 1 ≠ x.n → u.threadIs t (fun th => th.parks.contains (Park.barrier b.toNat x.p)) = true) ∧
       (x.c + 1 = x.n → (∀ th ∈ y.allThreads, Park.barrier b.toNat x.p ∉ th.parks) ∧
         (s.threadIs t (fun th => th.parks.isEmpty) = true → u.threadIs t (fun th => th.parks.isEmpty) = true)))

/-- JOIN, LEAVE, WAITM, MCLR and MGET on rejoin masks; BARI, BARA, BARW and BARS on barriers (R67 to R72). -/
def Obligations.MasksAndBarriers : Prop := MaskWords ∧ BarrierWords

/-! ### Faults and the handler (R354 to R365) -/

/-- A thread has entered its handler with this fault: at its context's entry, in handler mode, the fault recorded with its predicates and the count of its faults still pending, its frame's registers zero (R355, R360). -/
def Sys2Proof.Machine.EntersHandler (s : State) (t : Tid) (th : Thread) (entry : DWord) (f : FaultInfo) (u : State) : Prop :=
  u.mem = s.mem ∧ (∀ n, u.regVal t (.h n) 0 = 0) ∧
  ∃ y, u.thread? t = some y ∧ y.handler = true ∧ y.pc = entry ∧ y.parks = [] ∧ y.preds = th.preds ∧
    y.frec = some { info := f, preds := th.preds ||| 1, pending := th.afaults.length }

/-- TRAP, BKPT and a word that decodes to nothing take their fault in a thread outside handler mode with nothing outstanding, where its context has a handler and a frame that is in its place can be had: SOFT_TRAP resumes past the word, BREAKPOINT and ILLEGAL_OP at it (R40, R41, R355, R362). -/
def Sys2Proof.Machine.FaultEntry : Prop :=
  ∀ (h : Hdr) (imm : BitVec 12) (w : DWord) (s : State) (c : Cur) (t : Tid) (th : Thread) (tm : Team) (g : Group) (cx : Ctx),
    s.thread? t = some th → s.team? t.team = some tm → s.group? t = some g → s.ctx? tm.ctx = some cx → cx.hentry ≠ 0 →
    th.handler = false → th.longs = [] → 
    (match g.frame with | some f => s.reserveMissing f.1 = false | none => (s.freeFrame tm.core tm.ctx false).isSome = true) →
    (s.clear c h {} = true → s.actives c h = [t] →
      (∃ u : State, exec (.trap h imm) s = .next (u.wordEnd h c) ∧
        EntersHandler s t th cx.hentry { code := 0x19, fpc := c.pc, rpc := c.pc + 8, imm := imm, word := c.word } u) ∧
      (∃ u : State, exec (.bkpt h imm) s = .next (u.wordEnd h c) ∧
        EntersHandler s t th cx.hentry { code := 0x1A, fpc := c.pc, rpc := c.pc, imm := imm, word := c.word } u)) ∧
    (s.cur = some c → c.retry = false → c.ok = true → w.getLsbD 63 = false → (unpack w).hdr.pg ≠ 8 → s.actives c (unpack w).hdr = [t] →
      ∃ u : State, exec (.illegalOp w) s = .next (u.wordEnd (unpack w).hdr c) ∧
        EntersHandler s t th cx.hentry { code := 0x01, fpc := c.pc, rpc := c.pc, word := c.word } u)

/-- Where a fault cannot be handled (R355, R359): a context without a handler loses the team, and a fault in handler mode is a double fault, with its record, that kills the team. -/
def Sys2Proof.Machine.FaultsThatKill : Prop :=
  ∀ (h : Hdr) (imm : BitVec 12) (s : State) (c : Cur) (t : Tid) (th : Thread) (tm : Team) (cx : Ctx),
    s.clear c h {} = true → s.actives c h = [t] → s.thread? t = some th → s.team? t.team = some tm → s.ctx? tm.ctx = some cx →
    (th.handler = false → cx.hentry = 0 →
      ∃ (u : State) (y : Team), exec (.trap h imm) s = .next (u.wordEnd h c) ∧ u.team? t.team = some y ∧ y.killed = true ∧ y.allThreads = []) ∧
    (∀ r, th.handler = true → th.frec = some r →
      ∃ (u : State) (y : Team) (p : RenqPkt), exec (.trap h imm) s = .next (u.wordEnd h c) ∧ u.team? t.team = some y ∧ y.killed = true ∧ y.allThreads = [] ∧
        p ∈ u.renqs ∧ p.target = cx.erring ∧ p.words.getD 1 0 = BitVec.ofNat 32 0x1B ∧ p.words.getD 2 0 = BitVec.ofNat 32 (r.info.code + 256 * 0x19))

/-- Taking a fault (R41, R355, R359, R362): the handler is entered, or the team is lost. -/
def Obligations.Faults : Prop := FaultEntry ∧ FaultsThatKill

/-- TRET of a thread in handler mode with no result and no fault outstanding leaves for its target, aligned: the record's resume PC, or the word after a precise fault that would resume at itself, or the pair it reads; the predicates saved at entry come back unless KEEPP; TINFO's long result is a word of the record (R360, R363, R365). No thread at a marker has a fault to take when m10 and m11 are struck. -/
def Sys2Proof.Machine.ReturnWords : Prop :=
  ∀ (h : Hdr) (keepp : Bool) (o : TretToF) (q : SelD) (s : State) (c : Cur) (t : Tid) (th : Thread) (r : FaultRec),
    let leaves := fun (i : Instr) (pc : DWord) (kp : Bool) => pc.toNat % 8 = 0 →
      ∃ (u : State) (y : Thread), exec i s = .next (u.wordEnd h c) ∧ u.mem = s.mem ∧ u.thread? t = some y ∧ y.handler = false ∧ y.pc = pc ∧
        y.frec = none ∧ y.preds = if kp then th.preds else r.preds
    s.actives c h = [t] → s.thread? t = some th → th.frec = some r →
    (∀ tm, s.team? t.team = some tm → ∀ y ∈ tm.allThreads, Park.marker ∈ y.parks → y.afaults = []) →
    (th.longs = [] → th.afaults = [] →
      (s.clear c h { illOp := outsideHandler } = true →
        leaves (.tretResume h keepp) r.info.rpc keepp ∧
        leaves (.tretSkip h keepp) (if r.info.async = false ∧ r.info.rpc = r.info.fpc then r.info.fpc + 8 else r.info.rpc) keepp) ∧
      (s.clear c h { ops := [Opd.vsk o.a 2], illOp := outsideHandler } = true → s.plain [t] [Opd.vsk o.a 2] = true →
        leaves (.tretRedirect h o) (val2 (s.opdVals t [Opd.vsk o.a 2]) 0) o.keepp)) ∧
    (∀ v, s.clear c h { ops := [Opd.dvs q.d], illOp := fun s t => outsideHandler s t || !infoSel q.sel.toNat } = true →
      r.word q.sel.toNat = some v →
      ∃ u : State, exec (.tinfo h q) s = .next (u.wordEnd h c) ∧ u.mem = s.mem ∧ HoldsLong u t (destRegs true q.d 0 [BitVec.ofNat 32 v]))

/-- The words of a fault record (R360). -/
def Sys2Proof.Machine.RecordSelectors : Prop :=
  ∀ (r : FaultRec),
    let f := r.info
    [(0, f.code + 256 * f.cause + (if f.async then 2 ^ 16 else 0) + 2 ^ 17 * f.engine), (1, r.preds.toNat), (2, f.fpc.toNat), (3, f.fpc.toNat / 2 ^ 32),
      (4, f.rpc.toNat), (5, f.rpc.toNat / 2 ^ 32), (6, f.addr.toNat), (7, f.addr.toNat / 2 ^ 32), (8, f.seq.toNat),
      (9, f.tag % 65536 + 2 ^ 16 * (min f.cmd.length 32) + if f.noseq then 2 ^ 22 else 0), (10, f.imm.toNat), (11, f.word.toNat),
      (12, f.word.toNat / 2 ^ 32), (13, r.pending)].all (fun x => decide (r.word x.1 = some x.2)) = true ∧
    (∀ n < 32, r.word (16 + n) = some (f.cmd.getD n 0).toNat) ∧ ∀ n, n = 14 ∨ n = 15 ∨ 48 ≤ n → r.word n = none

/-- TRET and TINFO (R360, R363, R365). -/
def Obligations.HandlerReturn : Prop := ReturnWords ∧ RecordSelectors

/-! ### Ends and kills (R75, R334, R335, R364) -/

/-- EXIT of a thread with nothing outstanding and TKILL.thread end it, TKILL.group ends every thread of its group, TKILL.team every thread of its team, TKILL.grid every team of its launch, whose CAUSE is then 3; EXIT waits for long results. Memory stands where threads alone end. No thread at a marker has a fault to take when the masks are struck. -/
def Obligations.EndsAndKills : Prop :=
  ∀ (h : Hdr) (code : BitVec 8) (s : State) (c : Cur) (t : Tid) (th : Thread) (tm : Team) (l : Launch),
    s.actives c h = [t] → s.thread? t = some th → s.team? t.team = some tm → s.launch? tm.launch = some l →
    (∀ y ∈ tm.allThreads, Park.marker ∈ y.parks → y.afaults = []) →
    (s.clear c h {} = true →
      (th.longs ≠ [] → exec (.exit h) s = .next (((s.entered c h []).parkLane t .longs).wordEnd h c)) ∧
      (th.longs = [] → (th.afaults = [] ∨ th.handler = true) →
        ∃ u : State, exec (.exit h) s = .next (u.wordEnd h c) ∧ u.thread? t = none ∧ u.mem = s.mem ∧
          ∀ v, v ≠ t → (u.thread? v).isSome = (s.thread? v).isSome) ∧
      (∃ u : State, exec (.tkillThread h code) s = .next (u.wordEnd h c) ∧ u.thread? t = none ∧ u.mem = s.mem ∧
        ∀ v, v ≠ t → (u.thread? v).isSome = (s.thread? v).isSome) ∧
      (∃ (u : State), exec (.tkillGroup h code) s = .next (u.wordEnd h c) ∧ u.mem = s.mem ∧
        (∀ v, v.team = t.team → v.group = t.group → u.thread? v = none) ∧
        ∀ v, v.team ≠ t.team ∨ v.group ≠ t.group → (u.thread? v).isSome = (s.thread? v).isSome)) ∧
    (s.clear c h { illOp := noCode code } = true →
      (∃ (u : State) (y : Team), exec (.tkillTeam h code) s = .next (u.wordEnd h c) ∧ u.team? t.team = some y ∧ y.killed = true ∧ y.allThreads = []) ∧
      (l.dropped = false → ∃ (u : State) (l' : Launch), exec (.tkillGrid h code) s = .next (u.wordEnd h c) ∧ u.launch? tm.launch = some l' ∧
        l'.dropped = true ∧ l'.cause = 3 ∧ ∀ y ∈ u.teams, y.launch = tm.launch → y.killed = true))

/-! ### Launches, seeds, sleep, system registers and monitors -/

/-- LAUNCH into a partition with a free slot, no other launch waiting: the long result is the context's next launch number with 0 or 0x100 plus the code that refuses it, and the number moves on; that code is the fault of the descriptor's read, else that of the constant block's, else that of the first check of R320 that fails, else the fault of a dependency's read; one whose descriptor passes every check enters its slot. SEEDW of a context with no launch waiting writes its seed; SLEEP parks until its cycle, or gives way for 0; SVR's long result is the system register it selects (R76, R77, R320, R324, R341). -/
def Sys2Proof.Machine.LaunchAndSystem : Prop :=
  ∀ (h : Hdr) (o : R2) (a : Reg) (n : CntOpd) (v : SelD) (s : State) (c : Cur) (t : Tid) (tm : Team) (cx : Ctx),
    s.team? t.team = some tm → s.ctx? tm.ctx = some cx →
    (let ops := [Opd.dvs o.d 2, Opd.vsk o.a 2]
     let va := (val2 (s.opdVals t ops) 1).toNat
     let desc := s.readVa tm.ctx va 256
     s.alone c h { ops := ops } t = true → (s.entered c h ops).accessWaits Machine.MemOrder.barrier [t] = false →
     s.launchWaits = [] → s.launchRoom tm.ctx = true →
     ∃ (u : State) (code : Nat) (cx' : Ctx), exec (.launch h o) s = .next (u.wordEnd h c) ∧
       HoldsLong u t (destRegs true o.d 0 [cx.nextLaunch, if code = 0 then 0 else BitVec.ofNat 32 (0x100 + code)]) ∧
       u.ctx? tm.ctx = some cx' ∧ cx'.nextLaunch = cx.nextLaunch + 1 ∧
       (∀ f, desc.1 = .error f → code = f.1) ∧
       ∀ bs, desc.1 = .ok bs →
         let consts := desc.2.readVa tm.ctx (constOf bs) 256
         let deps := consts.2.readDeps tm.ctx (kdescOf bs).deps
         (∀ f, consts.1 = .error f → code = f.1) ∧
         ∀ ks, consts.1 = .ok ks → match firstFailure (descChecks va bs) with
           | some n => code = n
           | none => (∀ n, deps.1 = .error n → code = n) ∧ ∀ ms, deps.1 = .ok ms → code = 0) ∧
    (∀ bs ks, let ops := [Opd.dvs o.d 2, Opd.vsk o.a 2]
     let va := (val2 (s.opdVals t ops) 1).toNat
     s.alone c h { ops := ops } t = true → (s.entered c h ops).accessWaits Machine.MemOrder.barrier [t] = false →
     s.launchWaits = [] → s.launchRoom tm.ctx = true → (∀ x ∈ s.launches, x.key < s.nextId) →
     s.readVa tm.ctx va 256 = (.ok bs, s) → s.readVa tm.ctx (constOf bs) 256 = (.ok ks, s) → firstFailure (descChecks va bs) = none →
     (∀ d ∈ (kdescOf bs).deps, d.1 = 0) → 0 < (kdescOf bs).teams →
     ∃ (u : State) (l : Launch), exec (.launch h o) s = .next (u.wordEnd h c) ∧ HoldsLong u t (destRegs true o.d 0 [cx.nextLaunch, 0]) ∧
       l ∈ u.launches ∧ l.ctx = tm.ctx ∧ l.seq = cx.nextLaunch ∧ l.d = kdescOf bs ∧ l.met = List.replicate 4 true ∧
       l.seed = if (kdescOf bs).seedsel then (kdescOf bs).dseed else cx.seed) ∧
    (let k : Checks := { ops := [Opd.vsk a 2], illOp := fun s t => !(s.descOfTid t).seedcap }
     s.once c h k t = true → (∀ q ∈ s.launchWaits, q.ctx ≠ tm.ctx) →
     exec (.seedw h a) s = .next (((s.entered c h k.ops).updCtx tm.ctx fun x =>
       { x with seed := val2 (s.opdVals t k.ops) 0 }).wordEnd h c)) ∧
    (let ops := match n with | .reg r => [Opd.vsk r] | .imm _ => []
     let k := match n with | .reg _ => (val1 (s.opdVals t ops) 0).toNat | .imm i => i.toNat
     s.alone c h { ops := ops } t = true →
     exec (.sleep h n) s = .next (((s.entered c h ops).updThread t fun th =>
       if k = 0 then { th with giveWay := true } else { th with parks := Park.sleep (s.clk.cycle.toNat + k) :: th.parks }).wordEnd h c)) ∧
    (v.sel.toNat ≤ 12 → LongWord (.svr h v) h (Opd.dvs v.d) [Opd.dvs v.d] (fun s t _ => [BitVec.ofNat 32 ((s.svr t v.sel.toNat).getD 0)]))

/-- The system registers of SVR (R77), at a word's own thread. -/
def Sys2Proof.Machine.SystemSelectors : Prop :=
  ∀ (s : State) (c : Cur) (t : Tid) (tm : Team) (g : Group) (th : Thread),
    s.cur = some c → s.team? t.team = some tm → s.group? t = some g → s.thread? t = some th →
    let d := s.descOf tm
    let part := s.dieParts.getD (dieOf tm.core) 0
    [(0, c.pc.toNat), (1, c.pc.toNat / 2 ^ 32), (2, (s.launchOf tm).seq.toNat), (3, tm.index), (4, tm.groups.length),
      (5, ((List.range 4).map fun r => 256 ^ r * (tm.groups.filter fun x => decide (x.role = r)).length).sum), (6, d.budget g),
      (7, if d.det then d.lcores else 0), (8, part), (9, ((List.range 8).map fun i => if s.dieParts.getD i 0 = part then 2 ^ i else 0).sum),
      (10, d.prio), (11, s.thawInForce tm.core tm.ctx), (12, if th.handler then 1 else 0)].all (fun x => decide (s.svr t x.1 = some x.2)) = true

/-- LAUNCH, SEEDW, SLEEP and SVR (R76, R77, R320, R324, R341). -/
def Obligations.SystemWords : Prop := LaunchAndSystem ∧ SystemSelectors

/-- PMON on a monitor that its context owns: read gives the field it selects, arm starts it from zero, freeze stops it; on another's, read gives 0 and the others do nothing; a number above 71 is ILLEGAL_OP (R374, R375). -/
def Sys2Proof.Machine.MonitorOps : Prop :=
  ∀ (h : Hdr) (o : PmonF) (a : Reg) (s : State) (c : Cur) (t : Tid),
    (let k : Checks := { ops := [Opd.dvs o.d, Opd.sk o.a], illOp := fun _ _ => decide (8 ≤ o.sel.toNat ∧ o.sel.toNat < 16) }
     let e := s.entered c h k.ops
     let n := (val1 (s.opdVals t k.ops) 1).toNat
     s.once c h k t = true → n ≤ 71 →
     ∃ u : State, exec (.pmonRead h o) s = .next (u.wordEnd h c) ∧ u.mem = s.mem ∧
       ∀ b ∈ s.actives c h, (s.curIn c h).takes b o.d = true →
         HoldsLong u b (destRegs true o.d 0 [if e.ownsMonitor t (e.monitorOf t n) then (e.monitor (e.monitorOf t n)).field o.sel.toNat else 0])) ∧
    (let e := s.entered c h [Opd.sk a]
     let n := (val1 (s.opdVals t [Opd.sk a]) 0).toNat
     let m := e.monitor (e.monitorOf t n)
     s.once c h { ops := [Opd.sk a] } t = true →
     (71 < n → exec (.pmonArm h a) s = .next ((e.trapAll (s.actives c h) fcIllegalOp).wordEnd h c)) ∧
     (n ≤ 71 → e.ownsMonitor t (e.monitorOf t n) = false →
       exec (.pmonArm h a) s = .next (e.wordEnd h c) ∧ exec (.pmonFreeze h a) s = .next (e.wordEnd h c)) ∧
     (n ≤ 71 → e.ownsMonitor t (e.monitorOf t n) = true →
       exec (.pmonArm h a) s = .next ((e.setMonitor
         { m with state := 1, count := 0, sum := 0, min := 0xFFFFFFFF, max := 0, bins := List.replicate 16 0 }).wordEnd h c) ∧
       exec (.pmonFreeze h a) s = .next ((e.setMonitor { m with state := 2 }).wordEnd h c)))

/-- The fields of a monitor that PMON.read selects (R374, R375). -/
def Sys2Proof.Machine.MonitorSelectors : Prop :=
  ∀ (m : Monitor),
    [(0, BitVec.ofNat 32 m.count), (1, BitVec.ofNat 32 (m.count / 2 ^ 32)), (2, BitVec.ofNat 32 m.sum), (3, BitVec.ofNat 32 (m.sum / 2 ^ 32)),
      (4, m.min), (5, m.max), (6, m.src), (7, BitVec.ofNat 32 m.state)].all (fun x => decide (m.field x.1 = x.2)) = true ∧
    ∀ n < 16, m.field (16 + n) = BitVec.ofNat 32 (m.bins.getD n 0)

/-- PMON.read, PMON.arm and PMON.freeze (R374, R375). -/
def Obligations.MonitorWords : Prop := MonitorOps ∧ MonitorSelectors

/-! ### The pair form (R35 to R38) -/

/-- A legal pair-form word of one lane, outside every trap: each slot that is not NOOP leaves its operation of what both read before either wrote, and no other register, no predicate, no scratchpad, no memory and nothing else of the state changes but the progress of its set. -/
def Obligations.PairWords : Prop :=
  ∀ (o : PairF) (s : State) (c : Cur) (t : Tid),
    let ops := slotOps o.a ++ slotOps o.b
    let e := (s.issue c 0 o.gw).setCur (c.withSet [t])
    let value := fun (x : Slot) => BitVec.ofNat 32 (slotValue x.op (s.regVal t x.d 0).toNat (s.regVal t x.s 0).toNat)
    s.cur = some c → c.retry = false → c.popped = [] → c.ok = true → (s.issue c 0 o.gw).active c (pairGuard o.ps) = [t] →
    e.untrapped { illPair := !pairLegal o, ops := ops } t = true → (e.countUniform (c.withSet [t]) ops [t]).meet t ops = .go → s.plain [t] ops = true →
    ∃ u : State, exec (.pairWord o) s = .next (if o.marker then u.marker c else u) ∧ u.mem = s.mem ∧ s.sameBeyond u ∧
      (∀ v, (u.thread? v).map (fun th => th.preds) = (s.thread? v).map fun th => th.preds) ∧
      (o.a.op ≠ .noop → u.regVal t o.a.d 0 = value o.a) ∧ (o.b.op ≠ .noop → u.regVal t o.b.d 0 = value o.b) ∧
      (∀ v r j, s.readable v r j → (o.a.op ≠ .noop → isDest t o.a.d 1 v r j = false) → (o.b.op ≠ .noop → isDest t o.b.d 1 v r j = false) →
        u.regVal v r j = s.regVal v r j)

/-! ### Engines (R165, R177, R264 to R314) -/

/-- A command that has its place at its queue's head, behind no unfinished command of its team in its engine nor any of its array, with every line of its pool ranges present and no segment of them missing, may start (R90, R145, R166, R264). -/
def Sys2Proof.Machine.MayStart (s : State) (k : Cmd) : Prop :=
  k.stage = .queued ∧ k.claimed = true ∧
  (∀ e ∈ s.cmds, e.id < k.id → e.eng = k.eng → k.eng.isArray = true ∨ e.team = k.team → e.stage = .done ∧ e.owed = []) ∧ (∀ x ∈ k.lines, s.poolMissing k.team (128 * x) 128 = false) ∧
  ∀ l ∈ s.locks, l.cmd = k.id → l.pool = true → s.poolMissing k.team l.lo l.len = false ∧
    ∀ tm, s.team? k.team = some tm → ∀ x ∈ linesOf l.lo l.len, tm.lineAbsent x = false

/-- A command that has passed its consumed point, whose lines and chunks have arrived unless it faulted, behind no unfinished command of its team in its engine, may end, where the lines and segments that it has yet to write are there (R90, R145, R264). -/
def Sys2Proof.Machine.MayEnd (s : State) (k : Cmd) : Prop :=
  k.stage = .consumed ∧ (k.fault.isSome = true ∨ k.lines = [] ∧ k.folds = [] ∧ k.chunks = []) ∧
  (∀ e ∈ s.cmds, e.id < k.id → e.eng = k.eng → e.team = k.team → e.stage = .done ∧ e.owed = []) ∧
  (∀ w ∈ k.out, w.pool = true → s.poolMissing k.team w.addr w.bytes.length = false) ∧
  ∀ l ∈ s.locks, l.cmd = k.id → l.pool = true → l.dst = true → ∀ tm, s.team? k.team = some tm → ∀ x ∈ linesOf l.lo l.len, tm.lineAbsent x = false

/-- A command that may start runs at its engine's row: COPY1D, COPY2D, COPY3D, FILL, SORT, SORTSEG, TRVQ, TRVPAIR, FACT, SOLVE, SOLVEBWD, LCP, BRED, ROWZ, ROWCP and EMBAG read their sources and stand RUNNING with what they will write, ROWZ zeroes; BRED, ROWCP and EMBAG, which write as they read, are said of commands of no twin copy, whose commit buffer may end its team; COLL runs and its chunks set out (R264, R275 to R314, R351, R371). -/
def Sys2Proof.Machine.EngineCommands : Prop :=
  ∀ (s : State) (id : Nat) (k : Cmd),
    let runs := fun (code : Nat) (i : Instr) => k.code = code →
      ∃ (u : State) (k' : Cmd), exec i s = .next u ∧ u.cmd? id = some k' ∧ k'.stage = .running ∧ k'.words = k.words ∧ k'.team = k.team
    s.cmd? id = some k → k.eng.isArray = false → MayStart s k →
    runs 0x01 (.copy1d id) ∧ runs 0x02 (.copy2d id) ∧ runs 0x03 (.copy3d id) ∧ runs 0x04 (.fill id) ∧ runs 0x10 (.sort id) ∧
    runs 0x11 (.sortseg id) ∧ runs 0x20 (.trvq id) ∧ runs 0x21 (.trvpair id) ∧ runs 0x30 (.fact id) ∧ runs 0x31 (.solve id) ∧
    runs 0x32 (.solvebwd id) ∧ runs 0x33 (.lcp id) ∧ (s.cmdTwin k = false → runs 0x40 (.bred id) ∧ runs 0x42 (.rowcp id) ∧ runs 0x50 (.embag id)) ∧
    (k.code = 0x41 → ∃ (u : State) (k' : Cmd), exec (.rowz id) s = .next u ∧ u.cmd? id = some k' ∧ k'.stage = .running ∧ u.mem = s.mem ∧
      k'.out = [{ pool := false, addr := wordPair k.words 1, bytes := List.replicate (wAt k.words 3) 0 }]) ∧
    (k.code = 0x60 → ∃ (u : State) (k' : Cmd), exec (.coll id) s = .next u ∧ u.cmd? id = some k' ∧ k'.stage = .running)

/-- A command has run and holds what it will write. -/
def Sys2Proof.Machine.State.ran (s : State) (id st : Nat) (o : List CmdWrite) : State :=
  s.updCmd id fun c => { c with stage := .running, out := o, status := st, csOut := none, fault := none }

/-- A team without what a wake changes in its threads. -/
def Sys2Proof.Machine.Team.awake (t : Team) : Team :=
  { t with groups := t.groups.map fun g => { g with threads := g.threads.map fun th => { th with parks := [], stamp := 0, waking := false } } }

/-- What the reads of a command leave alone: commands, contexts, launches, rings, and teams but for threads that an A bit set in a table entry wakes from SIGW (R203, R245). -/
def Sys2Proof.Machine.ReadFrame (s z : State) : Prop :=
  z.cmds = s.cmds ∧ z.teams.map Team.awake = s.teams.map Team.awake ∧ z.contexts = s.contexts ∧ z.launches = s.launches ∧ z.rings = s.rings

/-- Elements of a sort in ascending order of their keys' values modulo m, those of one such value as they stood (R279, R280). -/
def Sys2Proof.Machine.SortedBy (m : Nat) (xs ys : List (List Byte × List Byte)) : Prop :=
  ys.Pairwise (fun a b => leNat a.1 % m ≤ leNat b.1 % m) ∧
  ∀ v : Nat, ys.filter (fun e => decide (leNat e.1 % m = v)) = xs.filter fun e => decide (leNat e.1 % m = v)

/-- What the copy engine, the sort unit and the base dies will write, where their reads succeed: COPY1D, COPY2D and COPY3D the rows they read, FILL its pattern, SORT and SORTSEG pass by pass the elements in stable order of the key bits below each pass's digit and at last of their keys, over all or in each segment. BRED and ROWCP write while they read: each element's tree over its eight sources is written before the next is read (R314), each page before the next (R312); what they hold for their end is BRED's flag and ROWCP's record of its counts (R270, R271, R279 to R281, R312 to R315). -/
def Sys2Proof.Machine.MoveResults : Prop :=
  ∀ (s y z : State) (id : Nat) (k : Cmd) (bs : List Byte) (bss : List (List Byte)),
    let w := k.words
    let gives := fun (i : Instr) (p : List CmdWrite → Prop) => ReadFrame s z ∧ ∃ o : List CmdWrite, p o ∧ exec i s = .next (z.ran id 0 o)
    let put := fun (a : Nat) (b : List Byte) => ({ pool := false, addr := a, bytes := b } : CmdWrite)
    let src := copyAddr w 1 (cmdFlag w 0)
    let dst := copyAddr w 3 (cmdFlag w 1)
    let kb := wAt w 10 % 256 / 8
    let vb := wAt w 10 / 256 % 256
    let els := fun (a b : List Byte) => (cut kb (wAt w 9) a).zip (cut vb (wAt w 9) b)
    let passes := fun (o : List CmdWrite) (is : Nat → List (List Byte × List Byte) → Prop) => o.length = 2 * kb ∧ ∀ p < kb, ∃ ys, is (2 ^ (8 * (p + 1))) ys ∧
      let at_ := if p % 2 = 0 then (wordPair w 11, wordPair w 11 + wAt w 9 * kb) else (wordPair w 5, wordPair w 7)
      (o.drop (2 * p)).take 2 = [put at_.1 (ys.map fun x => x.1).flatten, put at_.2 (ys.map fun x => x.2).flatten]
    let f := bredF (bytesOf k.args)
    let e := bredBytes f.dtype
    s.cmd? id = some k → k.eng.isArray = false → MayStart s k →
    (k.code = 0x01 → wAt w 5 ≠ 0 → s.cmdRead k (cmdFlag w 0) src (wAt w 5) = (.ok bs, z) →
      gives (.copy1d id) fun o => o = [{ pool := cmdFlag w 1, addr := dst, bytes := bs }]) ∧
    (k.code = 0x02 → wAt w 5 ≠ 0 → s.cmdReads k ((List.range (wAt w 6)).map fun r => (cmdFlag w 0, src + r * wAt w 7, wAt w 5)) = (.ok bss, z) →
      gives (.copy2d id) fun o => o = List.zipWith (fun r b => { pool := cmdFlag w 1, addr := dst + r * wAt w 8, bytes := b }) (List.range (wAt w 6)) bss) ∧
    (let at_ := fun (rs ps : Nat) => (List.range (wAt w 9)).flatMap fun p => (List.range (wAt w 6)).map fun r => p * wAt w ps + r * wAt w rs
     k.code = 0x03 → wAt w 5 ≠ 0 → s.cmdReads k ((at_ 7 10).map fun o => (cmdFlag w 0, src + o, wAt w 5)) = (.ok bss, z) →
      gives (.copy3d id) fun o => o = List.zipWith (fun a b => { pool := cmdFlag w 1, addr := dst + a, bytes := b }) (at_ 8 11) bss) ∧
    (k.code = 0x04 → wAt w 3 ≠ 0 → z = s → gives (.fill id) fun o =>
      o = [{ pool := cmdFlag w 1, addr := copyAddr w 1 (cmdFlag w 1), bytes := bytesOf (List.replicate (wAt w 3 / 4) (w.getD 4 0)) }]) ∧
    (∀ a b, k.code = 0x10 → wAt w 9 ≠ 0 → s.cmdReads k [(false, wordPair w 1, wAt w 9 * kb), (false, wordPair w 3, wAt w 9 * vb)] = (.ok [a, b], z) →
      gives (.sort id) fun o => passes o fun m ys => SortedBy m (els a b) ys) ∧
    (∀ os a b, k.code = 0x11 → wAt w 9 ≠ 0 →
      s.cmdReads k [(false, wordPair w 13, 4 * (wAt w 15 + 1)), (false, wordPair w 1, wAt w 9 * kb), (false, wordPair w 3, wAt w 9 * vb)] = (.ok [os, a, b], z) →
      let segs := segments ((wordsOf os).map fun x => x.toNat)
      ((wordsOf os).map fun x => x.toNat).getD 0 1 = 0 → ((wordsOf os).map fun x => x.toNat).getLastD 0 = wAt w 9 → (∀ g ∈ segs, g.1 ≤ g.2) →
      gives (.sortseg id) fun o => passes o fun m ys => ys.length = wAt w 9 ∧
        ∀ g ∈ segs, SortedBy m (((els a b).drop g.1).take (g.2 - g.1)) ((ys.drop g.1).take (g.2 - g.1))) ∧
    (k.code = 0x40 → s.bredElems k f (List.range f.count) = (none, z) →
      exec (.bred id) s = .next (z.ran id 0 (if f.flag = 0 then [] else [put f.flag (leBytes 8 f.value)]))) ∧
    (∀ j js, s.dieReads k (f.srcs.map fun x => (x.a + x.at (j * e), e)) = (.ok bss, y) →
      y.cmdWrite k (put (f.dst + j * e) (leBytes e (bredTree (bredOp f.op (bredFmt f.dtype)) (bss.map leNat)))) = (.ok (), z) →
      s.bredElems k f (j :: js) = z.bredElems k f js) ∧
    (∀ j js x, s.dieReads k (f.srcs.map fun x => (x.a + x.at (j * e), e)) = (.error x, z) → s.bredElems k f (j :: js) = (some (runFault x), z)) ∧
    (let n := wAt w 5 / 65536
     let from_ := fun (i : Nat) => wordPair w 1 + 65536 * i
     let to_ := fun (i : Nat) => wordPair w 3 + 65536 * i
     let at_ := fun (a : Nat) => (k.kept a).getD 0
     let near := ((List.range n).filter fun i => sameSubarray (at_ (from_ i)) (at_ (to_ i))).length
     (k.code = 0x42 → s.copyPages k (wordPair w 1) (wordPair w 3) (List.range n) = (none, z) →
      exec (.rowcp id) s = .next (z.ran id 0 (if wordPair w 6 = 0 ∨ wAt w 5 = 0 then []
        else [put (wordPair w 6) (leBytes 4 (64 * near) ++ leBytes 4 (64 * (n - near)))]))) ∧
     ∀ i is, s.dieRead k [(from_ i, 65536)] = (.ok bs, y) → y.cmdWrite k (put (to_ i) bs) = (.ok (), z) →
      s.copyPages k (wordPair w 1) (wordPair w 3) (i :: is) = z.copyPages k (wordPair w 1) (wordPair w 3) is)

/-- What the traversal unit, the solver and the capacity engine will write, where their reads succeed: TRVPAIR the pairs whose boxes overlap and their count, TRVQ, for one query, its hits and their count, FACT the record of its factorisation, with status 5 where a pivot was replaced, SOLVE the solutions, SOLVEBWD both gradients, LCP the last iterate and its status, which is 4 where a quotient is no number (log 39). EMBAG writes its bags as it reads them, each before the next bag is read, and holds nothing for its end (R282 to R290, R318). -/
def Sys2Proof.Machine.SolveResults : Prop :=
  ∀ (s y z : State) (id : Nat) (k : Cmd) (bs : List Byte) (bss : List (List Byte)) (r : FRec),
    let w := k.words
    let gives := fun (z : State) (i : Instr) (st : Nat) (o : List CmdWrite) => ReadFrame s z ∧ exec i s = .next (z.ran id st o)
    let put := fun (a : Nat) (b : List Byte) => ({ pool := false, addr := a, bytes := b } : CmdWrite)
    let e := slvBytes r.fp64
    let n := e * r.n
    s.cmd? id = some k → k.eng.isArray = false → MayStart s k →
    (∀ hits, k.code = 0x21 → s.cmdRead k false (wordPair w 1) (8 * wAt w 3) = (.ok bs, y) →
      y.trvPairs k (wordPair w 4) (cut 8 (wAt w 3) bs) = (hits, none, z) →
      gives z (.trvpair id) 0 [put (wordPair w 6) hits.flatten, put (wordPair w 8) (leBytes 4 hits.length)]) ∧
    (∀ v : Trav, k.code = 0x20 → wAt w 6 = 1 → s.cmdRead k false (wordPair w 4) 24 = (.ok bs, y) →
      State.visit k (wordPair w 1) (wAt w 9) 0 (boxOf .fp32 4 (bs.take 24)) 64 (wAt w 3) ({}, y) = (v, z) → v.fault = none →
      gives z (.trvq id) 0 [put (wordPair w 7) (v.hits.reverse.flatMap fun h => leBytes 4 h.1 ++ leBytes 4 h.2), put (wordPair w 10) (leBytes 4 v.n)]) ∧
    (let fp64 := (w.getD 3 0).getLsbD 5
     let m := wAt w 3 % 32
     let e := slvBytes fp64
     k.code = 0x30 → s.cmdReads k ((List.range m).map fun i => (false, wordPair w 1 + e * m * i, e * (i + 1))) = (.ok bss, z) →
      let x := factor (slvFmt fp64) m (slvTau fp64 (wordPair w 6)) fun i j => (elems e (bss.getD i [])).getD j 0
      gives z (.fact id) (if x.mask = 0 then 0 else 5) [put (wordPair w 4) (factRecord fp64 m (slvTau fp64 (wordPair w 6)) x)]) ∧
    (k.code = 0x31 → s.readRecord k = (.ok r, y) → wordPair w 3 % e = 0 → wordPair w 5 % e = 0 →
      (wordPair w 3 = wordPair w 5 ∨ meets (wordPair w 3) (n * wAt w 7) (wordPair w 5) (n * wAt w 7) = false) →
      (y.narrow k.id [none, some (n * wAt w 7), some (n * wAt w 7)]).cmdRead k false (wordPair w 3) (n * wAt w 7) = (.ok bs, z) →
      gives z (.solve id) 0 [put (wordPair w 5) ((cut n (wAt w 7) bs).flatMap fun q => (r.solve (elems e q)).flatMap (leBytes e))]) ∧
    (∀ a b old, k.code = 0x32 → s.readRecord k = (.ok r, y) → (∀ i ∈ [3, 5, 7, 9], wordPair w i % e = 0) →
      (let at_ := wordPair w
       ∀ p ∈ [((3, n), (7, n)), ((3, n), (9, n * r.n)), ((5, n), (7, n)), ((5, n), (9, n * r.n)), ((7, n), (9, n * r.n))],
        at_ p.1.1 = at_ p.2.1 ∧ p.1.2 = p.2.2 ∨ meets (at_ p.1.1) p.1.2 (at_ p.2.1) p.2.2 = false) →
      (y.narrow k.id [none, some n, some n, some n, some (n * r.n)]).cmdReads k
        [(false, wordPair w 3, n), (false, wordPair w 5, n), (false, wordPair w 9, if wAt w 11 = 1 then n * r.n else 0)] = (.ok [a, b, old], z) →
      let gb := r.solve (elems e a)
      ∃ da : List Nat, da.length = r.n * r.n ∧ gives z (.solvebwd id) 0 [put (wordPair w 7) (gb.flatMap (leBytes e)), put (wordPair w 9) (da.flatMap (leBytes e))] ∧
        ∀ i < r.n, ∀ j < r.n, da.getD (r.n * i + j) 0 =
          if wAt w 11 = 1 then nfma (slvFmt r.fp64) (gb.getD i 0) ((elems e b).getD j 0) ((elems e old).getD (r.n * i + j) 0)
          else rneTo (slvFmt r.fp64) (fMul ((slvFmt r.fp64).val (gb.getD i 0)).neg ((slvFmt r.fp64).val ((elems e b).getD j 0)))) ∧
    (∀ a b lo hi x x' it st d, k.code = 0x33 →
      let fp64 := (w.getD 11 0).getLsbD 5
      let m := wAt w 11 % 32
      let e := slvBytes fp64
      let p : Lcp := { f := slvFmt fp64, n := m, a := elems e a, b := elems e b, lo := elems e lo, hi := elems e hi, tol := slvTau fp64 (wordPair w 13) }
      s.cmdReads k [(false, wordPair w 1, e * m * m), (false, wordPair w 3, e * m), (false, wordPair w 5, e * m), (false, wordPair w 7, e * m),
        (false, wordPair w 9, e * m)] = (.ok [a, b, lo, hi, x], z) →
      p.bad (elems e x) = false → p.iterate (wAt w 12) 0 (elems e x) 0 = (x', it, st, some d) →
      gives z (.lcp id) st [put (wordPair w 9) (x'.flatMap (leBytes e)),
        put (wordPair w 15) (leBytes 4 it ++ leBytes 4 st ++ leBytes 8 (if fp64 then d else fconv .fp32 .fp64 d))]) ∧
    (let f := embagF ((bytesOf k.args).take 64) ((bytesOf k.args).drop 64)
     ∀ os, k.code = 0x50 → s.cmdRead k false f.offs (4 * (f.bags + 1)) = (.ok bs, y) → elems 4 bs = os → os.getD 0 1 = 0 → os.getLastD 0 ≤ 2 ^ 24 →
      (∀ g ∈ segments os, g.1 ≤ g.2) → (∀ i < 32, y.sliceOk k.ctx f i = none) →
      y.runBags k f (segments os).zipIdx = (none, z) → exec (.embag id) s = .next (z.ran id 0 [])) ∧
    (∀ (f : EmbagF) g b rest a q p v rows, s.cmdReads k [(false, f.idx + 4 * g.1, 4 * (g.2 - g.1)), (false, f.wts + 4 * g.1, if f.mode = 2 then 4 * (g.2 - g.1) else 0)] = (.ok [a, q], y) →
      y.bagRows k f ((elems 4 a).zipIdx.map fun x => (x.1, (elems 4 q).getD x.2 0)) = (.ok rows, p) →
      p.cmdWrite k (put (f.out + b * f.opitch) ((List.range f.dim).flatMap fun j => leBytes (embBytes f.ofmt) (bagElem f rows j))) = (.ok (), v) →
      s.runBags k f ((g, b) :: rest) = v.runBags k f rest)

/-- LINE_ARRIVAL lowers its line's counter, and at zero the line is present, unless PRES.clear has cleared it since the counting commands were accepted; CONSUMED_POINT of a command that has run releases its source locks, and runs an array's MZERO, whose writes are its block's zeroes; DONE_POINT of a command that may end leaves it DONE with no lock (R143, R151, R177, R189, R229, R264). -/
def Sys2Proof.Machine.CommandPoints : Prop :=
  ∀ (s : State) (id line : Nat) (k : Cmd) (tm : Team) (h : Hdr) (o : MzeroF),
    s.cmd? id = some k → s.team? k.team = some tm →
    (line ∈ k.lines → k.stage = .running ∨ k.stage = .consumed → s.poolMissing k.team (128 * line) 128 = false →
      ∃ (u : State) (y : Team) (k' : Cmd), exec (.lineArrival id line) s = .next u ∧ u.cmd? id = some k' ∧ k'.lines = k.lines.erase line ∧
        u.team? k.team = some y ∧ y.fill line = tm.fill line - 1 ∧
        (tm.fill line = 1 → tm.unfilled.contains line = false → y.lineAbsent line = false) ∧ (tm.unfilled.contains line = true → y.lineAbsent line = tm.lineAbsent line)) ∧
    (k.eng.isArray = false → (∀ n, k.eng ≠ .rrot n) → k.stage = .running →
      ∃ (u : State) (k' : Cmd), exec (.consumedPoint id) s = .next u ∧ u.cmd? id = some k' ∧ k'.stage = .consumed ∧
        (∀ l ∈ u.locks, l.cmd = id → l.dst = true) ∧ (∀ l ∈ s.locks, l.cmd ≠ id ∨ l.dst = true → l ∈ u.locks)) ∧
    (∀ c p, k.eng = .array c p → k.code = 0xE4 → decode k.word = .mzero h o → MayStart s k → k.awaits = [] →
      ∃ (u : State) (k' : Cmd), exec (.consumedPoint id) s = .next u ∧ u.cmd? id = some k' ∧ k'.stage = .consumed ∧ u.mem = s.mem ∧
        k'.out = [{ pool := true, addr := s.regAddr { team := k.team, group := k.group, lane := 0 } (regNum o.d), bytes := List.replicate 65536 0 }]) ∧
    (k.eng.isArray = false → MayEnd s k →
      ∃ (u : State) (k' : Cmd), exec (.donePoint id) s = .next u ∧ u.cmd? id = some k' ∧ k'.stage = .done ∧ ∀ l ∈ u.locks, l.cmd ≠ id)

/-- Engine commands run when they may start, and pass their points (R143, R177, R189, R229, R264). -/
def Obligations.Engines : Prop := EngineCommands ∧ CommandPoints

/-- What engine commands will write, of the copy engine, the sort unit, the base dies, the traversal unit, the solver and the capacity engine (R270 to R290, R312 to R318). -/
def Obligations.EngineResults : Prop := MoveResults ∧ SolveResults

/-! ### What befalls a thread (R54 to R61, R245, R259, R261, R274, R355) -/

/-- TEAM_QUEUE_PUSH appends one slot where there is room; TEAM_QUEUE_POP and TOKEN_POP take the oldest slot or token away; LONG_RESULT_LANDS removes the result and writes its registers; GAP_EXPIRY and SLEEP_EXPIRY let the thread go on after its cycle; SIGW_RECHECK has the word tried again; HANDLER_ENTRY enters once nothing is outstanding, or ends a team whose context has no handler any more. That each row is one lane's act, of a slot of one word, a token or a result, is log 45. -/
def Obligations.ThreadEvents : Prop :=
  ∀ (s : State) (t : Tid) (q id : Nat) (slot : Word) (th : Thread) (tm : Team) (g : Group) (cx : Ctx),
    s.thread? t = some th → s.team? t.team = some tm → s.group? t = some g →
    (∀ d, (s.descOf tm).queue? q = some d → d.lslot = 2 → tm.queueLen q < 2 ^ d.ldepth →
      ∃ (u : State) (y : Team), exec (.teamQueuePush t q slot) s = .next u ∧ u.team? t.team = some y ∧ u.mem = s.mem ∧
        assoc [] y.queues q = assoc [] tm.queues q ++ [[slot]] ∧ ∀ p, p ≠ q → assoc [] y.queues p = assoc [] tm.queues p) ∧
    (∀ x xs, 32 ≤ q → assoc [] tm.queues q = x :: xs →
      ∃ (u : State) (y : Team), exec (.teamQueuePop t q) s = .next u ∧ u.team? t.team = some y ∧ u.mem = s.mem ∧ assoc [] y.queues q = xs) ∧
    (∀ x, q < 32 → tm.tokens.find? (fun x => decide (x.1 = q)) = some x → th.afaults = [] ∨ th.handler = true →
      ∃ (u : State) (y : Team), exec (.tokenPop t q) s = .next u ∧ u.team? t.team = some y ∧ u.mem = s.mem ∧
        y.tokens = tm.tokens.eraseP fun y => decide (y.1 = q)) ∧
    (∀ v x, th.longs = [x] → x.id = id → x.ready = true → x.regs = [{ file := .s, idx := q, val := v }] → s.awaitsLead t x = false → q < 64 → th.parks = [] →
      ∃ (u : State) (y : Thread), exec (.longResultLands t id) s = .next u ∧ u.thread? t = some y ∧ y.longs = [] ∧ u.mem = s.mem ∧
        ∀ n : Fin 64, n.val = q → u.regVal t (.s n) 0 = v) ∧
    (∃ (u : State) (y : Thread), exec (.gapExpiry t) s = .next u ∧ u.thread? t = some y ∧
      y = if th.gapUntil < s.clk.acycle then { th with gapUntil := 0 } else th) ∧
    ((Park.marker ∈ th.parks → th.afaults = []) → ∃ (u : State) (y : Thread), exec (.sleepExpiry t) s = .next u ∧ u.thread? t = some y ∧
      ∀ w, Park.sleep w ∈ y.parks ↔ Park.sleep w ∈ th.parks ∧ s.clk.cycle.toNat < w) ∧
    (∀ pa, Park.sector pa ∈ th.parks →
      ∃ (u : State) (y : Thread), exec (.sigwRecheck t) s = .next u ∧ u.thread? t = some y ∧ (∀ pa, Park.sector pa ∉ y.parks) ∧ t ∈ u.retries) ∧
    (∀ f, th.parks = [.entry f] → th.longs = [] → s.ctx? tm.ctx = some cx → s.entryTouch tm g = none → g.frame.isSome = true ∨ 0 < s.freeFrames tm.core tm.ctx →
      (cx.hentry ≠ 0 → ∃ u : State, exec (.handlerEntry t) s = .next u ∧ EntersHandler s t th cx.hentry f u) ∧
      (cx.hentry = 0 → ∃ (u : State) (y : Team), exec (.handlerEntry t) s = .next u ∧ u.team? t.team = some y ∧ y.killed = true ∧ y.allThreads = []))

/-! ### Packets and contributions (R249 to R253, R300, R321) -/

/-- RENQ_ARRIVAL appends a packet at its ring's tail where nothing of its sender is before it, and holds it in the overflow area where the ring is full; OVERFLOW_DELIVERY appends a held one once there is room; CONTRIBUTION_ARRIVAL holds a contribution for its position; CONTRIBUTION_APPLY applies the next position, and the round's last one moves the base on and frees the entry. Which place of the overflow area or of the spill area a packet or a contribution takes, the lowest free one, and what stands in it is log 89, the model's choice. Said of packets that no twin copy has sent; those go to its commit buffer (R350). -/
def Obligations.PacketEvents : Prop :=
  ∀ (s z : State) (id set : Nat) (p : RenqPkt) (r : Ring) (k : Contrib) (e : SetEntry),
    (s.renqs.find? (fun q => decide (q.id = id)) = some p → s.renqBehind p = false → s.heldBehind p = false → s.ring? p.ctx p.target = some r → r.swapped = false →
      s.twinSender p = none →
      let gone : State := { s with renqs := s.renqs.filter fun q => decide (q.id ≠ id) }
      let place := leastFree ((s.held.filter fun h => decide (h.1 = r.die ∧ h.2.ctx = p.ctx)).filterMap fun h => h.2.slot)
      (r.full = false → pktOk r.slotBytes p.words = true →
        gone.writeVa r.ctx (r.base.toNat + 2 ^ r.lslot * (r.tail.toNat % 2 ^ r.ldepth)) (pktStored r p.words) = (.ok (), z) →
        exec (.renqArrival id) s = .next (z.updRing r fun y => { y with tail := y.tail + 1 })) ∧
      (r.full = true → s.heldCount r.die p.ctx < 4096 → gone.writeVa p.ctx (s.overflowVa p.ctx r.die place) (bytesOf p.words) = (.ok (), z) →
        exec (.renqArrival id) s = .next { z with held := s.held ++ [(r.die, { p with slot := some place })] }) ∧
      (r.full = true → 4096 ≤ s.heldCount r.die p.ctx → exec (.renqArrival id) s = .next s)) ∧
    (∀ pl bs y, s.held.find? (fun h => decide (h.2.id = id)) = some (r.die, p) → s.heldBehind p = false → s.ring? p.ctx p.target = some r → r.swapped = false →
      s.twinSender p = none →
      (r.full = true → exec (.overflowDelivery id) s = .next s) ∧
      (r.full = false → p.slot = some pl → s.readVa p.ctx (s.overflowVa p.ctx r.die pl) (4 * p.words.length) = (.ok bs, y) → pktOk r.slotBytes (wordsOf bs) = true →
        ({ y with held := s.held.filter fun h => decide (h.2.id ≠ id) } : State).writeVa r.ctx (r.base.toNat + 2 ^ r.lslot * (r.tail.toNat % 2 ^ r.ldepth))
          (pktStored r (wordsOf bs)) = (.ok (), z) →
        exec (.overflowDelivery id) s = .next (z.updRing r fun y => { y with tail := y.tail + 1 }))) ∧
    (s.contribs.find? (fun x => decide (x.id = id)) = some k → k.set.toNat ≤ 65535 → s.set? k.ctx k.set.toNat = some e →
      s.contribBad e k = false →
      let gone := ({ s with contribs := s.contribs.filter fun x => decide (x.id ≠ id) } : State).unhold
      (s.mustSpill e k = false → exec (.contributionArrival id) s = .next (gone.updSet k.ctx k.set.toNat fun y => { y with held := y.held ++ [k] })) ∧
      (s.mustSpill e k = true → (s.spills e.ctx e.die).length < 65536 →
        ∃ (u : State) (y : SetEntry), exec (.contributionArrival id) s = .next u ∧ u.contribs = gone.contribs ∧ u.set? k.ctx k.set.toNat = some y ∧
          y.held = e.held ++ [{ k with spill := some (leastFree (s.spills e.ctx e.die)) }]) ∧
      (s.mustSpill e k = true → 65536 ≤ (s.spills e.ctx e.die).length → ∃ u : State, exec (.contributionArrival id) s = .next u ∧ u.sets = s.sets ∧
        ∃ x ∈ u.contribs, x.id = id ∧ x.waits = true)) ∧
    (s.set? (set / 65536) (set % 65536) = some e → e.held.find? (fun x => decide (e.pos x.idx = e.applied)) = some k → k.tile = none →
      (e.applied + 1 ≠ e.count → exec (.contributionApply set) s = .next (k.recips.foldl (fun s t => s.performedFor t k.age)
        (((s.updSet (set / 65536) (set % 65536) fun y =>
          { y with applied := y.applied + 1, held := y.held.filter fun x => decide (x.id ≠ k.id) }).unhold).applyWord k))) ∧
      (e.applied + 1 = e.count → ∃ u : State, exec (.contributionApply set) s = .next u ∧ u.set? (set / 65536) (set % 65536) = none))

/-! ### Host work rings (R303, R323) -/

/-- The packet at the head of a host work ring, taken by its kind: NOP, a LAUNCH that finds a slot, and enters it where its descriptor passes every check, a SIGNAL whose store then waits for the ring's earlier launches, and one that is skipped with RING_CFG to the event ring; each moves the head on by one. SIGNAL_STORE stores its value once nothing is before it; DEPENDENCY_MET marks a dependency whose signal has reached its value. The layout of a RING_CFG packet's payload is log 57. -/
def Obligations.HostRingEvents : Prop :=
  ∀ (s z : State) (ring id key : Nat) (r : HostRing) (ws : List Word) (g : HostSignal) (l : Launch),
    let moved := fun (u : State) => ∀ y ∈ u.hostRings, y.ring = ring → y.head = r.head + 1
    r ∈ s.hostRings → r.ring = ring → (∀ y ∈ s.hostRings, y.ring = ring → y = r) →
    (s.hostPacket ring = (some (r, .nop, ws), z) → ∃ u : State, exec (.hostNop ring) s = .next u ∧ moved u ∧ u.launches = s.launches) ∧
    (s.hostPacket ring = (some (r, .launch, ws), z) → s.launchRoom r.ctx = true → ∃ u : State, exec (.hostLaunch ring) s = .next u ∧ moved u) ∧
    (∀ bs ks cx, s.hostPacket ring = (some (r, .launch, ws), z) → s.launchRoom r.ctx = true → (∀ x ∈ z.launches, x.key < z.nextId) → z.ctx? r.ctx = some cx →
      z.readVa r.ctx (wordPair ws 2) 256 = (.ok bs, z) → z.readVa r.ctx (constOf bs) 256 = (.ok ks, z) → firstFailure (descChecks (wordPair ws 2) bs) = none →
      (∀ d ∈ (kdescOf bs).deps, d.1 = 0) → 0 < (kdescOf bs).teams →
      ∃ (u : State) (l : Launch), exec (.hostLaunch ring) s = .next u ∧ moved u ∧ l ∈ u.launches ∧ l.ctx = r.ctx ∧ l.seq = cx.nextLaunch ∧ l.d = kdescOf bs ∧
        l.host = some { ring := ring, index := r.head, succs := successors ws }) ∧
    (s.hostPacket ring = (some (r, .signal, ws), z) →
      ∃ (u : State) (y : HostSignal), exec (.hostSignal ring) s = .next u ∧ moved u ∧ u.hostSignals = s.hostSignals ++ [y] ∧ y.ring = ring ∧ y.index = r.head ∧
        y.addr = BitVec.ofNat 64 (wordPair ws 2) ∧ y.val = BitVec.ofNat 64 (wordPair ws 4) ∧
        ∀ x ∈ s.launches, x.host.map (fun h => h.ring) = some ring → x.key ∈ y.after) ∧
    (s.hostPacket ring = (some (r, .skip, ws), z) →
      ∃ (u : State) (p : RenqPkt), exec (.hostPacketSkipped ring) s = .next u ∧ moved u ∧ u.renqs = s.renqs ++ [p] ∧ p.ctx = r.ctx ∧
        p.words.getD 1 0 = BitVec.ofNat 32 fcRingCfg ∧ p.words.getD 2 0 = BitVec.ofNat 32 ring ∧ p.words.getD 3 0 = r.head) ∧
    (s.hostSignals.find? (fun x => decide (x.id = id)) = some g → g.after = [] →
      ({ s with hostSignals := s.hostSignals.filter fun x => decide (x.id ≠ id) } : State).writeVa g.ctx g.addr.toNat (leBytes 8 g.val.toNat) = (.ok (), z) →
      ∃ u : State, exec (.signalStore id) s = .next u ∧ u.mem = z.mem ∧ ∀ x ∈ u.hostSignals, x.id ≠ id) ∧
    (∀ a v x, s.launch? key = some l → (∀ y ∈ s.launches, y.key = key → y = l) → s.launchWaits = [] → l.dropped = false → l.met = [false, true] → l.d.deps.getD 0 (0, 0) = (a, v) → s.readVaNat l.ctx a 8 = (.ok x, z) →
      (x < v → exec (.dependencyMet key 0) s = .next z) ∧
      (v ≤ x → l.allPlaced = false → ∃ (u : State) (l' : Launch), exec (.dependencyMet key 0) s = .next u ∧ u.launch? key = some l' ∧ l'.met = [true, true]))

/-! ### Placement (R90, R325 to R336, R346) -/

/-- TEAM_PLACEMENT of a new team puts it on its core, every thread at its role's entry, its pool zero; THAW_SWAP takes its victim off; TEAM_RETIRE of a spent team frees it and what it held; LULL_WATCHDOG posts its record and counts again; SEGMENT_RELOAD brings a segment back; WAVE_APPLY applies the next wave once it is ready, and then what the load-store units have waited to perform. That a ready wave counts as applied at once is log 50. -/
def Obligations.PlacementEvents : Prop :=
  ∀ (s r z : State) (team core ctx n : Nat) (c : Cand) (l : Launch) (t : Team) (cx : Ctx),
    (s.choose core = some c → c.key = team → c.back = false → l.d.cluster = false → s.launch? c.launch = some l → s.roomMade l c core = some r →
      r.places l c core = [(c.index, core)] → r.launch? l.key = some l → (r.placeCand l c core).1 = true →
      ∃ (u : State) (y : Team), exec (.teamPlacement team core) s = .next u ∧ y ∈ u.teams ∧ y.key = team ∧ y.place = .resident ∧ y.core = core ∧
        y.index = c.index ∧ y.copy = c.copy ∧ y.pool = [] ∧
        ∀ g ∈ y.groups, ∀ th ∈ g.threads, th.pc = BitVec.ofNat 64 (l.d.code + (l.d.role g.role).entry) ∧ th.longs = [] ∧ th.parks = []) ∧
    (∀ counts, s.choose core = some c → c.key = team → c.back = false → l.d.cluster = false → s.launch? c.launch = some l → s.team? team = none →
      s.places l c core = [(c.index, core)] → s.fitCounts l c.index c.copy core = some counts →
      (let need := s.reserveNeed core l.ctx l.d.rsvx
       l.d.segsFor counts + need.1 + need.2 ≤ (s.freeFor l.ctx core).length) →
      ∃ (u : State) (y : Team), exec (.teamPlacement team core) s = .next u ∧ y ∈ u.teams ∧ y.key = team ∧ y.place = .resident ∧ y.core = core ∧
        y.index = c.index ∧ y.copy = c.copy ∧ y.pool = [] ∧ y.groups.length = counts.sum) ∧
    (∀ x, s.thawReady core ctx = true → s.thawHead core ctx = some x → s.thawVictim core ctx = some t → s.team? t.key = some t →
      ∃ (u : State) (y : Team), exec (.thawSwap core ctx) s = .next u ∧ u.team? t.key = some y ∧ y.place = .swapped) ∧
    (s.team? team = some t → t.place ≠ .retired → s.spent t = true → s.isTwin t = false →
      ∃ u : State, exec (.teamRetire team) s = .next u ∧ (∀ y ∈ u.teams, y.key ≠ team) ∧ (∀ k ∈ u.cmds, k.team ≠ team) ∧ ∀ k ∈ u.locks, k.team ≠ team) ∧
    (s.ctx? ctx = some cx → s.lullDue cx = true → cx.lullKill = false →
      ∃ (u : State) (p : RenqPkt) (y : Ctx), exec (.lullWatchdog ctx) s = .next u ∧ u.renqs = s.renqs ++ [p] ∧ p.target = cx.erring ∧
        p.words.getD 1 0 = 0x1C ∧ u.ctx? ctx = some y ∧ y.lullStart = s.clk.cycle.toNat ∧ u.teams = s.teams ∧ u.mem = s.mem) ∧
    (∀ g slot bs, s.team? team = some t → t.place = .resident → n < 64 → t.seg? n = some g → g.saved = some slot →
      s.readVa t.ctx slot 65536 = (.ok bs, z) →
      ∃ (u : State) (y : Team) (g' : Seg), exec (.segmentReload team n) s = .next u ∧ u.team? team = some y ∧ y.seg? n = some g' ∧ g'.saved = none ∧
        y.pool = Mem.setN t.pool (segBase (s.descOf t) t n) bs) ∧
    (∀ w, s.team? team = some t → t.nextWave = some w → w = 0 ∨ t.waveReady w = true →
      let y := (s.applyOps team (t.waveList w)).updTeam team fun y => { y with waveDone := max y.waveDone t.waveTop }
      exec (.waveApply team) s = .next (y.drainLsu (match y.team? team with | some t => t.lsu | none => [])))

/-! ### Orders (R321, R332, R333, R335, R352, R353, R370, R374, R379, R380) -/

/-- The orders, with the code, the operand bytes and the context that each needs. -/
def Sys2Proof.Machine.OrderForms (o : OrderRec) : List (Instr × Nat × Nat × Names) :=
  [(.registerContext o, 0x01, 8, .slot), (.releaseContext o, 0x02, 0, .registered), (.preemptContext o, 0x03, 0, .registered),
   (.resumeContext o, 0x04, 0, .registered), (.preemptTeam o, 0x05, 8, .registered), (.kill o, 0x06, 4, .registered),
   (.setSeed o, 0x07, 8, .registered), (.checkpoint o, 0x08, 8, .registered), (.restore o, 0x09, 8, .registered),
   (.partitionChange o, 0x0A, 3, .none), (.assignHostWorkRings o, 0x0B, 4, .registered), (.assignQueuePairs o, 0x0C, 8, .registered),
   (.writeWindowEntry o, 0x0D, 32, .registered), (.assignMonitor o, 0x0E, 3, if o.u8 2 = 1 then .none else .registered),
   (.readMailbox o, 0x0F, 8, .none)]

/-- An order has been answered as performed, with a value. -/
def Sys2Proof.Machine.Answered (o : OrderRec) (v : Nat) (u : State) : Prop := OutMsg.orderResult o.path o.seq 0 (BitVec.ofNat 64 v) ∈ u.outbox

/-- An order record of another code, with bits set that are reserved, or with a context it may not name, is refused with ILLEGAL_OP and its KIND 5 record; by a port that the start has left absent none comes (R376, R380). The context byte of the record is log 59, the operand bytes of order 0x0D log 58. -/
def Obligations.OrdersRefused : Prop :=
  ∀ (o : OrderRec) (s : State) (x : Instr × Nat × Nat × Names), x ∈ OrderForms o →
    (s.boot.pathOpen o.path = false → exec x.1 s = .next s) ∧
    (s.boot.pathOpen o.path = true → s.orderForm o x.2.1 x.2.2.1 x.2.2.2 = false → exec x.1 s = .next (((s.send (.orderResult o.path o.seq 0x01 0)).mail 5 0x01 (ctxByteOf o x.2.2.2) 0 0 0 0 (leBytes 4 o.seq.toNat ++ leBytes 4 0x01))))

/-- Each order of legal form, where its own conditions hold, has its effect and is answered: the contexts, teams, launches, seeds, checkpoints, dies, host work rings, queue pairs, windows, monitors and mailbox records that it names. A checkpoint image as structured data is log 21, a window entry's operands, the partition mask and what a restore asks for log 58, the numbers of the monitors log 14. -/
def Obligations.OrderEffects : Prop :=
  ∀ (o : OrderRec) (s : State) (l : Launch) (cx : Ctx),
    let id := o.ctx.toNat
    let n := o.u16 2
    let form := fun (code used : Nat) (c : Names) => s.boot.pathOpen o.path = true ∧ s.orderForm o code used c = true
    (form 0x01 8 .slot → s.ctx? id = none → populated s.boot (o.u64 0) = true → populated s.boot (o.u64 0 + 255) = true →
      s.marked (o.u64 0) 256 = false → ctxDescBad (s.readPhys (o.u64 0) 256) = none →
      ∃ (u : State) (y : Ctx), exec (.registerContext o) s = .next u ∧ Answered o 0 u ∧ u.ctx? id = some y ∧
        y.root = u64At (s.readPhys (o.u64 0) 256) 0 ∧ y.hentry = BitVec.ofNat 64 (u64At (s.readPhys (o.u64 0) 256) 0x10) ∧
        y.seed = BitVec.ofNat 64 (u64At (s.readPhys (o.u64 0) 256) 0x48) ∧ y.part = u8At (s.readPhys (o.u64 0) 256) 0x50) ∧
    (form 0x02 0 .registered → (∀ x ∈ s.launches, x.ctx ≠ id) → (∀ t ∈ s.teams, t.ctx ≠ id) →
      ∃ u : State, exec (.releaseContext o) s = .next u ∧ Answered o 0 u ∧ u.ctx? id = none ∧ (∀ x ∈ u.rings, x.ctx ≠ id) ∧ ∀ x ∈ u.qps, x.ctx ≠ id) ∧
    (form 0x03 0 .registered → s.allLeave (s.contextTeams id) = true → (s.teams.map fun t => t.key).Nodup →
      ∃ u : State, exec (.preemptContext o) s = .next u ∧ Answered o 0 u ∧ (∀ x ∈ u.rings, x.ctx = id → x.swapped = true) ∧
        (∀ t ∈ u.teams, t.ctx = id → t.killed = true ∨ t.place = .retired ∨ t.place = .swapped ∧ t.orderHeld = true) ∧ ∀ x ∈ u.contexts, x.id = id → x.preempted = true) ∧
    (form 0x04 0 .registered →
      ∃ u : State, exec (.resumeContext o) s = .next u ∧ Answered o 0 u ∧ (∀ x ∈ u.rings, x.ctx = id → x.swapped = false) ∧
        (∀ t ∈ u.teams, t.ctx = id → t.orderHeld = false) ∧ ∀ x ∈ u.contexts, x.id = id → x.preempted = false) ∧
    (∀ t ∈ s.teams, form 0x05 8 .registered → s.launchSeq id (o.u32 0) = some l → t.launch = l.key → t.index = o.u32 4 → t.killed = false → s.allLeave (s.teamNamed o) = true →
      t.place ≠ .retired → (s.teams.map fun t => t.key).Nodup →
      ∃ (u : State), exec (.preemptTeam o) s = .next u ∧ Answered o 0 u ∧
        ∀ y ∈ u.teams, y.key = t.key → y.place = .swapped ∧ y.orderHeld = true) ∧
    (form 0x06 4 .registered →
      let p := fun (x : Launch) => decide (x.ctx = id) && (decide (o.u32 0 = 0xFFFFFFFF) || decide (x.seq.toNat = o.u32 0))
      ∃ u : State, exec (.kill o) s = .next u ∧ Answered o (s.launches.filter p).length u ∧
        ∀ t ∈ u.teams, ∀ x ∈ s.launches, p x = true → t.launch = x.key → t.killed = true) ∧
    (form 0x07 8 .registered →
      exec (.setSeed o) s = .next ((s.updCtx id fun c => { c with seed := BitVec.ofNat 64 (o.u64 0) }).performed o.path (ctxByteOf o .registered) o.seq 0)) ∧
    (form 0x08 8 .registered → s.ctx? id = some cx → cx.ckpt = none →
      exec (.checkpoint o) s = .next (s.updCtx id fun c => { c with ckpt := some (BitVec.ofNat 64 (o.u64 0), o.path, o.seq) })) ∧
    (∀ a, s.ctx? id = some cx → cx.ckpt = some (a, o.path, o.seq) → s.atBoundary id = true →
      ∃ (u : State) (i : CkptImage) (v : Nat) (y : Ctx), exec (.checkpointTaken id) s = .next u ∧ Answered o v u ∧ i ∈ u.ckpts ∧ i.addr = a ∧
        i.launches = s.launches.filter (fun x => decide (x.ctx = id)) ∧ i.rings = (s.rings.filter fun x => decide (x.ctx = id)).map (fun x => (s.ringHandle x.die x.index, { x with die := 0, index := 0 })) ∧
        u.ctx? id = some y ∧ y.ckpt = none) ∧
    (∀ i z, form 0x09 8 .registered → s.ctx? id = some cx → s.ckpts.find? (fun i => decide (i.addr = BitVec.ofNat 64 (o.u64 0))) = some i →
      (∀ x ∈ s.launches, x.ctx ≠ id) → (∀ x ∈ s.rings, x.ctx ≠ id) → s.restoreImage cx i = (.value 0, z) →
      exec (.restore o) s = .next (z.performed o.path (ctxByteOf o .registered) o.seq 0)) ∧
    (∀ i, form 0x09 8 .registered → s.ctx? id = some cx → s.ckpts.find? (fun i => decide (i.addr = BitVec.ofNat 64 (o.u64 0))) = some i →
      (∀ x ∈ s.launches, x.ctx ≠ id) → (∀ x ∈ s.rings, x.ctx ≠ id) → (s.restoreImage cx i).1 = .value 0 →
      ∃ u : State, exec (.restore o) s = .next u ∧ Answered o 0 u ∧
        ∀ l ∈ i.launches, ∃ k ∈ u.launches, k.ctx = id ∧ k.seq = l.seq ∧ k.d = l.d ∧ k.next = l.next ∧ k.seed = l.seed) ∧
    (form 0x0A 3 .none → o.u8 0 ≤ 7 → o.u8 2 ≤ 1 → s.dieParts.length = 8 → s.rings = [] →
      (∀ d < 8, o.u8 1 / 2 ^ d % 2 = 1 → s.dieParts.getD d 8 = o.u8 0 ∨ s.dieParts.getD d 8 = 8) →
      ∃ u : State, exec (.partitionChange o) s = .next u ∧ Answered o 0 u ∧
        (∀ d < 8, o.u8 1 / 2 ^ d % 2 = 1 → u.dieParts.getD d 8 = o.u8 0 ∧ (s.dieParts.getD d 8 = o.u8 0 → d ∉ u.removing)) ∧
        ∀ d < 8, o.u8 1 / 2 ^ d % 2 = 0 → s.dieParts.getD d 8 = o.u8 0 → d ∈ u.removing) ∧
    (∀ d, s.removalDone d = true → exec (.partitionChangeComplete d) s = .next { s with
      dieParts := s.dieParts.set d 8, removing := s.removing.filter fun x => decide (x ≠ d) }) ∧
    (form 0x0B 4 .registered → o.u16 0 + n ≤ 4096 → (∀ x ∈ s.hostRings, x.ctx = id ∨ x.ring < o.u16 0 ∨ o.u16 0 + n ≤ x.ring) →
      ∃ u : State, exec (.assignHostWorkRings o) s = .next u ∧ Answered o 0 u ∧ ∀ i < n, ∃ x ∈ u.hostRings, x.ring = o.u16 0 + i ∧ x.ctx = id) ∧
    (form 0x0C 8 .registered → o.u32 0 + o.u32 4 ≤ 65536 → (∀ x ∈ s.qps, x.ctx = id ∨ x.num < o.u32 0 ∨ o.u32 0 + o.u32 4 ≤ x.num) →
      s.boot.controlQp = none →
      ∃ u : State, exec (.assignQueuePairs o) s = .next u ∧ Answered o 0 u ∧ ∀ i < o.u32 4, ∃ x ∈ u.qps, x.num = o.u32 0 + i ∧ x.ctx = id) ∧
    (form 0x0D 32 .registered → o.u16 0 < 4096 → o.u16 2 = 0 → o.u32 4 < 65536 → o.u32 12 = 0 → o.u64 24 % 65536 = 0 →
      ∃ u : State, exec (.writeWindowEntry o) s = .next u ∧ Answered o 0 u ∧
        u.windows = { index := o.u16 0, qp := o.u32 4, rkey := BitVec.ofNat 32 (o.u32 8), base := BitVec.ofNat 64 (o.u64 16),
                      len := BitVec.ofNat 64 (o.u64 24), ctx := id } :: s.windows.filter fun x => decide (x.index ≠ o.u16 0)) ∧
    (form 0x0E 3 .registered → o.u8 2 = 0 → o.u16 0 < 520 →
      ∃ u : State, exec (.assignMonitor o) s = .next u ∧ Answered o 0 u ∧ u.monitor (o.u16 0) = { s.monitor (o.u16 0) with owner := some id }) ∧
    (form 0x0F 8 .none → 1 ≤ o.u32 4 → o.u32 4 ≤ 64 →
      ∃ (u : State) (first : Word), exec (.readMailbox o) s = .next u ∧
        (first = BitVec.ofNat 32 (o.u32 0) ∨ first = s.mailbox.next - BitVec.ofNat 32 s.mailbox.records.length) ∧
        u.outbox = s.outbox ++ OutMsg.orderResult o.path o.seq 0 (BitVec.ofNat 64 first.toNat) ::
          (s.mailbox.records.filter fun r => decide ((r.1 - first).toNat < o.u32 4)).map fun r => OutMsg.mailRecord o.path r.2)

/-! ### The management plane (R12, R374, R376 to R378) -/

/-- A start whose steps all succeed on their main paths runs the module and keeps the boundaries; one whose first step fails halts there. A firmware image stands in the first of its slots; SPDM requests are answered over the measurements, unless step 4 was skipped; the arithmetic clock goes down and up within 1,200 MHz; POWER_OFF loses all but flash, history and fuses; MONITOR_SAMPLE and the management plane reach the monitors. The numbers and places of monitors and pipes are logs 14 and 15, the steps that run each image and what halts log 60, what a loss of supply leaves log 61, the part of a cycle kept at a change of clock log 72, the management plane's commands on any monitor log 73. -/
def Obligations.ManagementSteps : Prop :=
  ∀ (s : State) (rep : StartReport) (img : FwImage) (req : List Byte) (mhz mon : Nat) (m : Monitor),
    (rep.steps.length = 12 → (∀ x ∈ rep.steps, x.mainOk = true) → (∀ n, failedLast s.boot.previous n = false) → (∀ w, s.boot.slotOk w 0 = true) →
      rep.dabound % 512 = 0 → rep.mibound % 512 = 0 → rep.dabound ≤ rep.mibound → rep.mibound ≤ 49152 →
      ∃ u : State, exec (.startSequence rep) s = .next u ∧ u.boot.started = true ∧ u.boot.halted = none ∧ u.boot.dabound = rep.dabound ∧
        u.boot.mibound = rep.mibound ∧ u.boot.journal.length = 12 ∧ u.boot.portsDown = [] ∧ u.boot.lossless = (rep.lossless.filter fun p => decide (p < 8)).take 2 ∧ u.teams = [] ∧ u.mem = []) ∧
    (∀ w < 3, s.boot.slotOk w 0 = false → s.boot.slotOk w 1 = false → ∃ u : State, exec (.startSequence rep) s = .next u ∧ u.boot.started = false) ∧
    (∀ x xs, rep.steps = x :: xs → x.mainOk = false →
      ∃ u : State, exec (.startSequence rep) s = .next u ∧ u.boot.started = false ∧ u.boot.halted = some 1) ∧
    (∃ u : State, exec .powerOff s = .next u ∧ u.boot.powered = false ∧ u.boot.flash = s.boot.flash ∧ u.boot.previous = s.boot.previous ∧
      u.boot.rollback = s.boot.rollback ∧ u.mem = [] ∧ u.teams = [] ∧ u.contexts = []) ∧
    (∃ u : State, exec (.firmwareUpdate img) s = .next u ∧ u.boot.slot img.which 0 = some img ∧ u.boot.slot img.which 1 = s.boot.slot img.which 0 ∧
      ∀ w, w ≠ img.which → ∀ n, u.boot.slot w n = s.boot.slot w n) ∧
    (4 ∉ s.boot.absentSteps →
      (∀ i ∈ [Instr.getVersion req, .getCapabilities req, .negotiateAlgorithms req, .getDigests req, .getCertificate req],
        exec i s = .next { s with outbox := s.outbox ++ [.spdm (Config.spdmAnswer req [])] }) ∧
      ∀ i ∈ [Instr.challenge req, .getMeasurements req],
        exec i s = .next { s with outbox := s.outbox ++ [.spdm (Config.spdmAnswer req s.boot.measurements)] }) ∧
    (4 ∈ s.boot.absentSteps → ∀ i ∈ [Instr.getVersion req, .getCapabilities req, .negotiateAlgorithms req, .getDigests req, .getCertificate req,
      .challenge req, .getMeasurements req], exec i s = .next s) ∧
    (0 < mhz → mhz < s.clk.mhz → ∃ u : State, exec (.powerClockLower mhz) s = .next u ∧ u.clk = { s.clk with mhz := mhz, frac := s.clk.frac * mhz / s.clk.mhz } ∧ u.teams = s.teams) ∧
    (s.clk.mhz < mhz → mhz ≤ 1200 → exec (.arithmeticClockRestored mhz) s = .next { s with clk := { s.clk with mhz := mhz, frac := s.clk.frac * mhz / s.clk.mhz } }) ∧
    (mon < 520 → ∃ u : State, exec (.managementMonitorCommand mon false) s = .next u ∧ (u.monitor mon).state = 1 ∧ (u.monitor mon).count = 0) ∧
    (mon < 520 → ∃ u : State, exec (.managementMonitorCommand mon true) s = .next u ∧ u.monitor mon = { s.monitor mon with state := 2 }) ∧
    (s.monitors = [m] → m.watches (m.num / 64) 0x02 (m.src.extractLsb' 8 8).toNat true = true →
      exec .monitorSample s = .next (s.setMonitor (m.add
        (s.eddyEntries (32 * (m.num / 64) + (m.src.extractLsb' 8 8).toNat / 4) ((m.src.extractLsb' 8 8).toNat % 4)))))

/-! ### The fabric (R222, R367 to R373) -/

/-- RDMA of a queue pair's context writes, reads and updates global memory and is answered; a SEND is an order over the control queue pair or an Evavo message; frames are counted, a paused priority is kept, one queue pair's rate alone goes down; chunks and packets join what waits for them; the answers of remote ends end their operations, with a fault for an error. A frame with a congestion mark is answered besides with a congestion notification (R367); without a data port nothing arrives (R376). What a SEND that is neither order nor Evavo message does, and a RENQ packet's payload, are log 62, ports from 12 on log 51, chunks before their command log 74. -/
def Obligations.FabricSteps : Prop :=
  ∀ (s z : State) (qp ctx n : Nat) (va v w : DWord) (bs : List Byte) (m : EvMsg) (x : Xlat) (p : RemoteOp) (k : Cmd), s.boot.portsUp = true →
    (s.qpCtx qp = some ctx →
      (s.writeVa ctx va.toNat bs = (.ok (), z) → z.hostRings = [] → exec (.rdmaWrite ⟨qp, false⟩ va bs) s = .next z) ∧
      (∀ e, s.writeVa ctx va.toNat bs = (.error e, z) → exec (.rdmaWrite ⟨qp, false⟩ va bs) s = .next (z.reply ctx (.rdmaError qp))) ∧
      (s.readVa ctx va.toNat n = (.ok bs, z) → exec (.rdmaRead ⟨qp, false⟩ va n) s = .next (z.reply ctx (.rdmaData qp bs))) ∧
      (va.toNat % 8 = 0 → s.translateWalk ctx va.toNat .atomic = (.ok x, z) → leafRm x.leaf = false → zeroRow x.pa = false → z.marked x.pa 8 = false →
        (∃ u : State, exec (.fetchAndAdd ⟨qp, false⟩ va v) s = .next u ∧ u.outbox = z.outbox ++ [.rdmaData qp (z.readPhys x.pa 8)] ∧
          u.mem = Mem.setN z.mem x.pa (leBytes 8 ((leNat (z.readPhys x.pa 8) + v.toNat) % 2 ^ 64))) ∧
        (leNat (z.readPhys x.pa 8) = v.toNat → ∃ u : State, exec (.compareAndSwap ⟨qp, false⟩ va v w) s = .next u ∧
          u.outbox = z.outbox ++ [.rdmaData qp (z.readPhys x.pa 8)] ∧ u.mem = Mem.setN z.mem x.pa (leBytes 8 w.toNat)) ∧
        (leNat (z.readPhys x.pa 8) ≠ v.toNat → ∃ u : State, exec (.compareAndSwap ⟨qp, false⟩ va v w) s = .next u ∧
          u.outbox = z.outbox ++ [.rdmaData qp (z.readPhys x.pa 8)] ∧ u.mem = z.mem)) ∧
      ∀ i ∈ [fun f => Instr.rdmaWrite f va bs, fun f => .rdmaRead f va n, fun f => .fetchAndAdd f va v, fun f => .compareAndSwap f va v w, fun f => .send f bs],
        ∀ u, exec (i ⟨qp, false⟩) s = .next u → exec (i ⟨qp, true⟩) s = .next (u.send (.cnp qp))) ∧
    (∀ y : State, y = { s with boot := { s.boot with absentSteps := [10] } } →
      ∀ e, ∀ i ∈ [Instr.rdmaWrite ⟨qp, e⟩ va bs, .rdmaRead ⟨qp, e⟩ va n, .fetchAndAdd ⟨qp, e⟩ va v, .compareAndSwap ⟨qp, e⟩ va v w, .send ⟨qp, e⟩ bs, .collectiveChunk m, .collectiveResult m,
        .renqPacket m, .congestionNotification qp, .pauseFrame n n n, .discardedFrame n, .remoteAccessError n, .remoteWriteAcknowledged n], exec i y = .next y) ∧
    (∀ i, s.boot.controlQp = some qp → bs.length = 64 → orderStep (orderOf .host bs) = some i →
      exec (.send ⟨qp, false⟩ bs) s = .next { s with inputs := s.inputs ++ [i] }) ∧
    (s.boot.controlQp ≠ some qp → evavoOf bs = none → exec (.send ⟨qp, false⟩ bs) s = .next s) ∧
    (s.boot.controlQp ≠ some qp → evavoOf bs = some m →
      (m.type = 1 → exec (.send ⟨qp, false⟩ bs) s = exec (.collectiveChunk m) s) ∧ (m.type = 2 → exec (.send ⟨qp, false⟩ bs) s = exec (.collectiveResult m) s) ∧
      (m.type = 3 → exec (.send ⟨qp, false⟩ bs) s = exec (.renqPacket m) s)) ∧
    (∃ u : State, exec (.congestionNotification qp) s = .next u ∧ u.mem = s.mem ∧
      u.boot.controlLowered = s.boot.controlLowered + (if s.boot.controlQp = some qp then 1 else 0) ∧
      u.qps = s.qps.map fun q => if q.num = qp then { q with lowered := q.lowered + 1 } else q) ∧
    (∀ port prio, s.boot.portUp port = true → prio < 8 → ∃ u : State, exec (.pauseFrame port prio n) s = .next u ∧ u.teams = s.teams ∧ u.mem = s.mem ∧
      ((port, prio, n) ∈ u.pauses ↔ n ≠ 0) ∧ ∀ y, (port, prio, y) ∈ u.pauses → y = n) ∧
    (∀ port, s.boot.portUp port = false → exec (.discardedFrame port) s = .next s ∧ ∀ prio, exec (.pauseFrame port prio n) s = .next s) ∧
    (∀ port, s.boot.portUp port = true → exec (.discardedFrame port) s = .next (s.event 8 0x31 port 1)) ∧
    (m.ver = 1 → (∀ y ∈ s.cmds, y.code ≠ 0x60) → ∀ down : Bool,
      exec (if down then .collectiveResult m else .collectiveChunk m) s = .next { s with collChunks := s.collChunks ++
        [{ ctx := none, cid := m.cid, thash := m.thash, src := m.src, down := down, chunk := m.chunk, bytes := m.payload }] }) ∧
    (m.ver = 1 → ∃ (u : State) (y : RenqPkt), exec (.renqPacket m) s = .next u ∧ u.renqs = s.renqs ++ [y] ∧ y.target = (wordsOf m.payload).getD 0 0 ∧
      y.ret = (wordsOf m.payload).getD 1 0 ∧ y.words = (wordsOf m.payload).drop 2 ∧ u.mem = s.mem) ∧
    (m.ver ≠ 1 → ∀ i ∈ [Instr.collectiveChunk m, .collectiveResult m, .renqPacket m], exec i s = .next (s.event 8 0x31 0 1)) ∧
    (s.remoteOps.find? (fun o => decide (o.id = n)) = some p →
      (∃ u : State, exec (.remoteWriteAcknowledged n) s = .next u ∧ ∀ o ∈ u.remoteOps, o.id ≠ n) ∧
      ∃ u : State, exec (.remoteAccessError n) s = .next u ∧ (∀ o ∈ u.remoteOps, o.id ≠ n) ∧
        ∀ t ∈ p.recips, ∀ th, s.thread? t = some th → ∃ th', u.thread? t = some th' ∧
          ∃ f ∈ th'.afaults, f.code = fcEngineFault ∧ f.cause = fcPagePerm ∧ f.fpc = p.pc ∧ f.addr = p.va ∧ f.async = true) ∧
    (k ∈ s.cmds → k.stage ≠ .done → k.usesQp qp = true ∨ s.rangesUse k qp = true →
      ∃ (u : State) (k' : Cmd), exec (.retryExhausted qp) s = .next u ∧ k' ∈ u.cmds ∧ k'.id = k.id ∧ k'.fault.isSome = true ∧ k'.stage ≠ .queued)
end

