-- ==== Sys2Proof/Laws/Mem.lean ====
section
/-! SUPPORT. Byte stores: a read after a write, a write leaves other bytes alone, and every operation keeps the canonical form. -/

namespace Sys2Proof.Machine

/-! ### Read after write -/

@[simp] theorem Mem.get_nil (a : Nat) : Mem.get [] a = 0 := rfl

theorem Mem.get_put (m : Mem) (a b : Nat) (v : Byte) : Mem.get (Mem.put m a v) b = if b = a then v else Mem.get m b := by
  induction m with
  | nil => simp only [Mem.put, Mem.get]
  | cons c m ih =>
    obtain ⟨k, x⟩ := c
    simp only [Mem.put]
    split
    · subst_vars; simp only [Mem.get]; split <;> rfl
    · split
      · simp only [Mem.get]
      · simp only [Mem.get, ih]
        split
        · subst_vars; split
          · omega
          · rfl
        · rfl

theorem Mem.get_filter (m : Mem) (p : Nat → Bool) (b : Nat) :
    Mem.get (m.filter fun c => p c.1) b = if p b then Mem.get m b else 0 := by
  induction m with
  | nil => simp
  | cons c m ih =>
    obtain ⟨k, x⟩ := c
    rw [List.filter_cons]
    simp only [Mem.get]
    by_cases hb : b = k
    · subst hb
      by_cases hp : p b <;> simp_all [Mem.get]
    · by_cases hp : p k <;> simp_all [Mem.get]

theorem Mem.get_set (m : Mem) (a b : Nat) (v : Byte) : Mem.get (Mem.set m a v) b = if b = a then v else Mem.get m b := by
  unfold Mem.set
  split
  · subst_vars
    rw [Mem.get_filter m (fun k => decide (k ≠ a))]
    by_cases h : b = a <;> simp [h]
  · exact Mem.get_put m a b v

theorem Mem.get_setN (bs : List Byte) (m : Mem) (a b : Nat) :
    Mem.get (Mem.setN m a bs) b = if a ≤ b ∧ b < a + bs.length then bs.getD (b - a) 0 else Mem.get m b := by
  induction bs generalizing m a with
  | nil => simp [Mem.setN]
  | cons x xs ih =>
    simp only [Mem.setN, ih, Mem.get_set, List.length_cons]
    by_cases h : b = a
    · subst h
      rw [if_neg (by omega), if_pos rfl, if_pos (by omega)]
      simp
    · by_cases h2 : a + 1 ≤ b ∧ b < a + 1 + xs.length
      · rw [if_pos h2, if_pos (by omega)]
        have : b - a = (b - (a + 1)) + 1 := by omega
        rw [this, List.getD_cons_succ]
      · rw [if_neg h2, if_neg h, if_neg (by omega)]

theorem Mem.get_zero (m : Mem) (lo len b : Nat) :
    Mem.get (Mem.zero m lo len) b = if lo ≤ b ∧ b < lo + len then 0 else Mem.get m b := by
  unfold Mem.zero
  rw [Mem.get_filter m (fun k => !decide (lo ≤ k ∧ k < lo + len))]
  by_cases h : lo ≤ b ∧ b < lo + len <;> simp [h]

theorem Mem.getN_congr (m m' : Mem) (n a : Nat) (h : ∀ b, a ≤ b → b < a + n → Mem.get m b = Mem.get m' b) :
    Mem.getN m a n = Mem.getN m' a n := by
  induction n generalizing a with
  | zero => rfl
  | succ n ih =>
    simp only [Mem.getN]
    rw [h a (by omega) (by omega), ih (a + 1) fun b h1 h2 => h b (by omega) (by omega)]

theorem Mem.getN_length (m : Mem) (n a : Nat) : (Mem.getN m a n).length = n := by
  induction n generalizing a with
  | zero => rfl
  | succ n ih => simp [Mem.getN, ih]

/-- Bytes just written read back. -/
theorem Mem.getN_setN_same (bs : List Byte) (m : Mem) (a : Nat) : Mem.getN (Mem.setN m a bs) a bs.length = bs := by
  induction bs generalizing m a with
  | nil => rfl
  | cons x xs ih =>
    simp only [List.length_cons, Mem.getN, Mem.setN]
    rw [ih]
    congr 1
    rw [Mem.get_setN, if_neg (by omega), Mem.get_set, if_pos rfl]

/-- A write leaves every range that it does not meet. -/
theorem Mem.getN_setN_other (bs : List Byte) (m : Mem) (a b n : Nat) (h : b + n ≤ a ∨ a + bs.length ≤ b) :
    Mem.getN (Mem.setN m a bs) b n = Mem.getN m b n :=
  Mem.getN_congr _ _ n b fun c h1 h2 => by rw [Mem.get_setN, if_neg (by omega)]

/-! ### Little-endian values -/

@[simp] theorem leBytes_length (n v : Nat) : (leBytes n v).length = n := by
  induction n generalizing v with
  | zero => rfl
  | succ n ih => simp [leBytes, ih]

theorem leNat_leBytes (n v : Nat) : leNat (leBytes n v) = v % 256 ^ n := by
  induction n generalizing v with
  | zero => simp [leBytes, leNat, Nat.mod_one]
  | succ n ih =>
    simp only [leBytes, leNat, ih, BitVec.toNat_ofNat]
    have h : 256 ^ (n + 1) = 256 * 256 ^ n := by ring
    rw [h, Nat.mod_mul]

/-- A value written in n bytes reads back, modulo 256^n. -/
theorem Mem.nat_setNat_same (m : Mem) (a n v : Nat) : Mem.nat (Mem.setNat m a n v) a n = v % 256 ^ n := by
  have h := Mem.getN_setN_same (leBytes n v) m a
  rw [leBytes_length] at h
  unfold Mem.nat Mem.setNat
  rw [h, leNat_leBytes]

theorem Mem.nat_setNat_other (m : Mem) (a n v b k : Nat) (h : b + k ≤ a ∨ a + n ≤ b) :
    Mem.nat (Mem.setNat m a n v) b k = Mem.nat m b k := by
  unfold Mem.nat Mem.setNat
  rw [Mem.getN_setN_other _ _ _ _ _ (by rwa [leBytes_length])]

@[simp] theorem Mem.w32_setW32_same (m : Mem) (a : Nat) (w : Word) : Mem.w32 (Mem.setW32 m a w) a = w := by
  unfold Mem.w32 Mem.setW32
  rw [Mem.nat_setNat_same]
  apply BitVec.eq_of_toNat_eq
  rw [BitVec.toNat_ofNat, Nat.mod_eq_of_lt (a := w.toNat) (by have := w.isLt; norm_num; omega)]
  exact Nat.mod_eq_of_lt w.isLt

theorem Mem.w32_setW32_other (m : Mem) (a b : Nat) (w : Word) (h : b + 4 ≤ a ∨ a + 4 ≤ b) :
    Mem.w32 (Mem.setW32 m a w) b = Mem.w32 m b := by
  unfold Mem.w32 Mem.setW32
  rw [Mem.nat_setNat_other _ _ _ _ _ _ h]

/-! ### The canonical form -/

theorem Mem.wfFrom_mono {lo lo' : Nat} {m : Mem} (h : lo ≤ lo') (hw : Mem.wfFrom lo' m = true) : Mem.wfFrom lo m = true := by
  cases m with
  | nil => rfl
  | cons c m =>
    obtain ⟨k, b⟩ := c
    simp only [Mem.wfFrom, Bool.and_eq_true, decide_eq_true_eq] at *
    exact ⟨⟨by omega, hw.1.2⟩, hw.2⟩

theorem Mem.wfFrom_put {lo a : Nat} {v : Byte} {m : Mem} (ha : lo ≤ a) (hv : v ≠ 0) (hw : Mem.wfFrom lo m = true) :
    Mem.wfFrom lo (Mem.put m a v) = true := by
  induction m generalizing lo with
  | nil => simpa [Mem.put, Mem.wfFrom, ha] using hv
  | cons c m ih =>
    obtain ⟨k, b⟩ := c
    simp only [Mem.wfFrom, Bool.and_eq_true, decide_eq_true_eq] at hw
    simp only [Mem.put]
    split
    · subst_vars; simp only [Mem.wfFrom, Bool.and_eq_true, decide_eq_true_eq]; exact ⟨⟨ha, hv⟩, hw.2⟩
    · split
      · simp only [Mem.wfFrom, Bool.and_eq_true, decide_eq_true_eq]
        exact ⟨⟨ha, hv⟩, ⟨by omega, hw.1.2⟩, hw.2⟩
      · simp only [Mem.wfFrom, Bool.and_eq_true, decide_eq_true_eq]
        exact ⟨hw.1, ih (by omega) hw.2⟩

theorem Mem.wfFrom_filter {lo : Nat} {m : Mem} (p : Host.Cell → Bool) (hw : Mem.wfFrom lo m = true) :
    Mem.wfFrom lo (m.filter p) = true := by
  induction m generalizing lo with
  | nil => rfl
  | cons c m ih =>
    obtain ⟨k, b⟩ := c
    simp only [Mem.wfFrom, Bool.and_eq_true, decide_eq_true_eq] at hw
    rw [List.filter_cons]
    split
    · simp only [Mem.wfFrom, Bool.and_eq_true, decide_eq_true_eq]
      exact ⟨hw.1, ih hw.2⟩
    · exact Mem.wfFrom_mono (by omega) (ih hw.2)

@[simp] theorem Mem.wf_nil : Mem.wf [] = true := rfl

theorem Mem.wf_set {m : Mem} (a : Nat) (v : Byte) (h : m.wf = true) : (Mem.set m a v).wf = true := by
  unfold Mem.set Mem.wf
  split
  · exact Mem.wfFrom_filter _ h
  · exact Mem.wfFrom_put (Nat.zero_le a) ‹_› h

theorem Mem.wf_setN (bs : List Byte) {m : Mem} (a : Nat) (h : m.wf = true) : (Mem.setN m a bs).wf = true := by
  induction bs generalizing m a with
  | nil => exact h
  | cons x xs ih => exact ih _ (Mem.wf_set a x h)

theorem Mem.wf_setNat {m : Mem} (a n v : Nat) (h : m.wf = true) : (Mem.setNat m a n v).wf = true := Mem.wf_setN _ a h

theorem Mem.wf_setW32 {m : Mem} (a : Nat) (w : Word) (h : m.wf = true) : (Mem.setW32 m a w).wf = true := Mem.wf_setNat _ _ _ h

theorem Mem.wf_zero {m : Mem} (lo len : Nat) (h : m.wf = true) : (Mem.zero m lo len).wf = true := Mem.wfFrom_filter _ h

theorem Mem.wf_paste (cells : List (Nat × Byte)) {m : Mem} (lo : Nat) (h : m.wf = true) : (Mem.paste m lo cells).wf = true := by
  unfold Mem.paste
  induction cells generalizing m with
  | nil => exact h
  | cons c cs ih => exact ih (Mem.wf_set _ _ h)

/-- Two canonical stores that read alike are the same store. -/
theorem Mem.ext {m m' : Mem} (h : m.wf = true) (h' : m'.wf = true) (hg : ∀ a, Mem.get m a = Mem.get m' a) : m = m' := by
  have below : ∀ {lo : Nat} {m : Mem}, Mem.wfFrom lo m = true → ∀ a, a < lo → Mem.get m a = 0 := by
    intro lo m
    induction m generalizing lo with
    | nil => intros; rfl
    | cons c m ih =>
      obtain ⟨k, b⟩ := c
      intro hw a ha
      simp only [Mem.wfFrom, Bool.and_eq_true, decide_eq_true_eq] at hw
      simp only [Mem.get]
      rw [if_neg (by omega)]
      exact ih hw.2 a (by omega)
  have go : ∀ {lo : Nat} {m m' : Mem}, Mem.wfFrom lo m = true → Mem.wfFrom lo m' = true → (∀ a, Mem.get m a = Mem.get m' a) → m = m' := by
    intro lo m
    induction m generalizing lo with
    | nil =>
      intro m' _ hw' hg
      cases m' with
      | nil => rfl
      | cons c m' =>
        obtain ⟨k, b⟩ := c
        have := hg k
        simp only [Mem.wfFrom, Bool.and_eq_true, decide_eq_true_eq] at hw'
        simp [Mem.get] at this
        exact absurd this.symm hw'.1.2
    | cons c m ih =>
      obtain ⟨k, b⟩ := c
      intro m' hw hw' hg
      simp only [Mem.wfFrom, Bool.and_eq_true, decide_eq_true_eq] at hw
      cases m' with
      | nil =>
        have := hg k
        simp [Mem.get] at this
        exact absurd this hw.1.2
      | cons c' m' =>
        obtain ⟨k', b'⟩ := c'
        simp only [Mem.wfFrom, Bool.and_eq_true, decide_eq_true_eq] at hw'
        have hk : k = k' := by
          rcases Nat.lt_trichotomy k k' with hlt | heq | hgt
          · have := hg k
            simp only [Mem.get, if_true] at this
            rw [if_neg (show ¬k = k' by omega), below hw'.2 k (by omega)] at this
            exact absurd this hw.1.2
          · exact heq
          · have := hg k'
            simp only [Mem.get, if_true] at this
            rw [if_neg (show ¬k' = k by omega), below hw.2 k' (by omega)] at this
            exact absurd this.symm hw'.1.2
        subst hk
        have hb : b = b' := by have := hg k; simpa [Mem.get] using this
        subst hb
        rw [ih hw.2 hw'.2 fun a => ?_]
        rcases Nat.lt_or_ge a (k + 1) with hlt | hge
        · rw [below hw.2 a hlt, below hw'.2 a hlt]
        · have := hg a
          simp only [Mem.get] at this
          rwa [if_neg (by omega), if_neg (by omega)] at this
  exact go h h' hg

end Sys2Proof.Machine
end

