-- ==== Sys2Proof/Laws/State.lean ====
section
/-! SUPPORT. What each update of the state leaves alone, field by field, and how the records of teams, groups and threads read after one. -/

namespace Sys2Proof.Machine

/-! ### Lookups after updates -/

theorem find_updWhere_same {α : Type} (p : α → Bool) (f : α → α) (l : List α) (h : ∀ x, p (f x) = p x) :
    (updWhere p f l).find? p = (l.find? p).map f := by
  induction l with
  | nil => rfl
  | cons x l ih =>
    unfold updWhere at *
    by_cases hx : p x = true <;> simp_all

theorem find_updWhere_other {α : Type} (p q : α → Bool) (f : α → α) (l : List α) (h : ∀ x, q (f x) = q x)
    (hd : ∀ x, p x = true → q x = false) : (updWhere p f l).find? q = l.find? q := by
  induction l with
  | nil => rfl
  | cons x l ih =>
    unfold updWhere at *
    by_cases hx : p x = true
    · have := hd x hx; simp_all
    · by_cases hq : q x = true <;> simp_all

theorem State.team?_updTeam_same (s : State) (k : Nat) (f : Team → Team) (hf : ∀ t, (f t).key = t.key) :
    (s.updTeam k f).team? k = (s.team? k).map f :=
  find_updWhere_same _ f s.teams fun x => by rw [hf]

theorem State.team?_updTeam_other (s : State) (k j : Nat) (f : Team → Team) (hf : ∀ t, (f t).key = t.key) (h : j ≠ k) :
    (s.updTeam k f).team? j = s.team? j :=
  find_updWhere_other _ _ f s.teams (fun x => by rw [hf]) fun x hx => by simp_all; omega

theorem Team.group?_updGroup_same (t : Team) (g : Nat) (f : Group → Group) (hf : ∀ x, (f x).num = x.num) :
    (t.updGroup g f).group? g = (t.group? g).map f :=
  find_updWhere_same _ f t.groups fun x => by rw [hf]

theorem Team.group?_updGroup_other (t : Team) (g j : Nat) (f : Group → Group) (hf : ∀ x, (f x).num = x.num) (h : j ≠ g) :
    (t.updGroup g f).group? j = t.group? j :=
  find_updWhere_other _ _ f t.groups (fun x => by rw [hf]) fun x hx => by simp_all; omega

theorem Group.thread?_updThread_same (g : Group) (l : Nat) (f : Thread → Thread) (hf : ∀ x, (f x).lane = x.lane) :
    (g.updThread l f).thread? l = (g.thread? l).map f :=
  find_updWhere_same _ f g.threads fun x => by rw [hf]

theorem Group.thread?_updThread_other (g : Group) (l j : Nat) (f : Thread → Thread) (hf : ∀ x, (f x).lane = x.lane) (h : j ≠ l) :
    (g.updThread l f).thread? j = g.thread? j :=
  find_updWhere_other _ _ f g.threads (fun x => by rw [hf]) fun x hx => by simp_all; omega

@[simp] theorem Team.updGroup_key (t : Team) (g : Nat) (f : Group → Group) : (t.updGroup g f).key = t.key := rfl
@[simp] theorem Group.updThread_num (g : Group) (l : Nat) (f : Thread → Thread) : (g.updThread l f).num = g.num := rfl

/-- A group after an update of its own. -/
theorem State.group?_updGroup_same (s : State) (t u : Tid) (f : Group → Group) (hf : ∀ x, (f x).num = x.num)
    (h : u.team = t.team) (hg : u.group = t.group) : (s.updGroup t f).group? u = (s.group? u).map f := by
  unfold State.group? State.updGroup
  rw [h, hg, State.team?_updTeam_same s t.team (fun tm => tm.updGroup t.group f) fun _ => rfl]
  cases s.team? t.team with
  | none => rfl
  | some tm => exact Team.group?_updGroup_same tm t.group f hf

/-- A group after an update of another. -/
theorem State.group?_updGroup_other (s : State) (t u : Tid) (f : Group → Group) (hf : ∀ x, (f x).num = x.num)
    (h : ¬(u.team = t.team ∧ u.group = t.group)) : (s.updGroup t f).group? u = s.group? u := by
  unfold State.group? State.updGroup
  by_cases ht : u.team = t.team
  · rw [ht, State.team?_updTeam_same s t.team (fun tm => tm.updGroup t.group f) fun _ => rfl]
    cases s.team? t.team with
    | none => rfl
    | some tm => exact Team.group?_updGroup_other tm t.group u.group f hf fun hg => h ⟨ht, hg⟩
  · rw [State.team?_updTeam_other s t.team u.team (fun tm => tm.updGroup t.group f) (fun _ => rfl) ht]

/-- A thread after an update of its own. -/
theorem State.thread?_updThread_same (s : State) (t : Tid) (f : Thread → Thread) (hf : ∀ x, (f x).lane = x.lane) :
    (s.updThread t f).thread? t = (s.thread? t).map f := by
  unfold State.thread? State.updThread
  rw [State.group?_updGroup_same s t t (fun g => g.updThread t.lane f) (fun _ => rfl) rfl rfl]
  cases s.group? t with
  | none => rfl
  | some g => exact Group.thread?_updThread_same g t.lane f hf

/-- A thread after an update of another. -/
theorem State.thread?_updThread_other (s : State) (t u : Tid) (f : Thread → Thread) (hf : ∀ x, (f x).lane = x.lane) (h : u ≠ t) :
    (s.updThread t f).thread? u = s.thread? u := by
  unfold State.thread? State.updThread
  by_cases hg : u.team = t.team ∧ u.group = t.group
  · rw [State.group?_updGroup_same s t u (fun g => g.updThread t.lane f) (fun _ => rfl) hg.1 hg.2]
    cases s.group? u with
    | none => rfl
    | some g =>
      refine Group.thread?_updThread_other g t.lane u.lane f hf fun hl => h ?_
      obtain ⟨a, b, c⟩ := u
      obtain ⟨a', b', c'⟩ := t
      simp_all
  · rw [State.group?_updGroup_other s t u (fun g => g.updThread t.lane f) (fun _ => rfl) hg]

/-! ### What each update leaves alone -/

@[simp] theorem State.updTeam_clk (s : State) (k : Nat) (f : Team → Team) : (s.updTeam k f).clk = s.clk := rfl
@[simp] theorem State.updTeam_boot (s : State) (k : Nat) (f : Team → Team) : (s.updTeam k f).boot = s.boot := rfl
@[simp] theorem State.updTeam_dieParts (s : State) (k : Nat) (f : Team → Team) : (s.updTeam k f).dieParts = s.dieParts := rfl
@[simp] theorem State.updTeam_removing (s : State) (k : Nat) (f : Team → Team) : (s.updTeam k f).removing = s.removing := rfl
@[simp] theorem State.updTeam_mem (s : State) (k : Nat) (f : Team → Team) : (s.updTeam k f).mem = s.mem := rfl
@[simp] theorem State.updTeam_dirty (s : State) (k : Nat) (f : Team → Team) : (s.updTeam k f).dirty = s.dirty := rfl
@[simp] theorem State.updTeam_l1 (s : State) (k : Nat) (f : Team → Team) : (s.updTeam k f).l1 = s.l1 := rfl
@[simp] theorem State.updTeam_icache (s : State) (k : Nat) (f : Team → Team) : (s.updTeam k f).icache = s.icache := rfl
@[simp] theorem State.updTeam_tlb (s : State) (k : Nat) (f : Team → Team) : (s.updTeam k f).tlb = s.tlb := rfl
@[simp] theorem State.updTeam_ue (s : State) (k : Nat) (f : Team → Team) : (s.updTeam k f).ue = s.ue := rfl
@[simp] theorem State.updTeam_ueHome (s : State) (k : Nat) (f : Team → Team) : (s.updTeam k f).ueHome = s.ueHome := rfl
@[simp] theorem State.updTeam_icUe (s : State) (k : Nat) (f : Team → Team) : (s.updTeam k f).icUe = s.icUe := rfl
@[simp] theorem State.updTeam_poolUe (s : State) (k : Nat) (f : Team → Team) : (s.updTeam k f).poolUe = s.poolUe := rfl
@[simp] theorem State.updTeam_frameUe (s : State) (k : Nat) (f : Team → Team) : (s.updTeam k f).frameUe = s.frameUe := rfl
@[simp] theorem State.updTeam_locks (s : State) (k : Nat) (f : Team → Team) : (s.updTeam k f).locks = s.locks := rfl
@[simp] theorem State.updTeam_contexts (s : State) (k : Nat) (f : Team → Team) : (s.updTeam k f).contexts = s.contexts := rfl
@[simp] theorem State.updTeam_launches (s : State) (k : Nat) (f : Team → Team) : (s.updTeam k f).launches = s.launches := rfl
@[simp] theorem State.updTeam_launchWaits (s : State) (k : Nat) (f : Team → Team) : (s.updTeam k f).launchWaits = s.launchWaits := rfl
@[simp] theorem State.updTeam_reserves (s : State) (k : Nat) (f : Team → Team) : (s.updTeam k f).reserves = s.reserves := rfl
@[simp] theorem State.updTeam_thaw (s : State) (k : Nat) (f : Team → Team) : (s.updTeam k f).thaw = s.thaw := rfl
@[simp] theorem State.updTeam_cmds (s : State) (k : Nat) (f : Team → Team) : (s.updTeam k f).cmds = s.cmds := rfl
@[simp] theorem State.updTeam_rrots (s : State) (k : Nat) (f : Team → Team) : (s.updTeam k f).rrots = s.rrots := rfl
@[simp] theorem State.updTeam_rings (s : State) (k : Nat) (f : Team → Team) : (s.updTeam k f).rings = s.rings := rfl
@[simp] theorem State.updTeam_ringGens (s : State) (k : Nat) (f : Team → Team) : (s.updTeam k f).ringGens = s.ringGens := rfl
@[simp] theorem State.updTeam_renqs (s : State) (k : Nat) (f : Team → Team) : (s.updTeam k f).renqs = s.renqs := rfl
@[simp] theorem State.updTeam_held (s : State) (k : Nat) (f : Team → Team) : (s.updTeam k f).held = s.held := rfl
@[simp] theorem State.updTeam_hostRings (s : State) (k : Nat) (f : Team → Team) : (s.updTeam k f).hostRings = s.hostRings := rfl
@[simp] theorem State.updTeam_hostSignals (s : State) (k : Nat) (f : Team → Team) : (s.updTeam k f).hostSignals = s.hostSignals := rfl
@[simp] theorem State.updTeam_sets (s : State) (k : Nat) (f : Team → Team) : (s.updTeam k f).sets = s.sets := rfl
@[simp] theorem State.updTeam_contribs (s : State) (k : Nat) (f : Team → Team) : (s.updTeam k f).contribs = s.contribs := rfl
@[simp] theorem State.updTeam_monitors (s : State) (k : Nat) (f : Team → Team) : (s.updTeam k f).monitors = s.monitors := rfl
@[simp] theorem State.updTeam_mailbox (s : State) (k : Nat) (f : Team → Team) : (s.updTeam k f).mailbox = s.mailbox := rfl
@[simp] theorem State.updTeam_qps (s : State) (k : Nat) (f : Team → Team) : (s.updTeam k f).qps = s.qps := rfl
@[simp] theorem State.updTeam_windows (s : State) (k : Nat) (f : Team → Team) : (s.updTeam k f).windows = s.windows := rfl
@[simp] theorem State.updTeam_remoteOps (s : State) (k : Nat) (f : Team → Team) : (s.updTeam k f).remoteOps = s.remoteOps := rfl
@[simp] theorem State.updTeam_pauses (s : State) (k : Nat) (f : Team → Team) : (s.updTeam k f).pauses = s.pauses := rfl
@[simp] theorem State.updTeam_collChunks (s : State) (k : Nat) (f : Team → Team) : (s.updTeam k f).collChunks = s.collChunks := rfl
@[simp] theorem State.updTeam_ckpts (s : State) (k : Nat) (f : Team → Team) : (s.updTeam k f).ckpts = s.ckpts := rfl
@[simp] theorem State.updTeam_outbox (s : State) (k : Nat) (f : Team → Team) : (s.updTeam k f).outbox = s.outbox := rfl
@[simp] theorem State.updTeam_inputs (s : State) (k : Nat) (f : Team → Team) : (s.updTeam k f).inputs = s.inputs := rfl
@[simp] theorem State.updTeam_cur (s : State) (k : Nat) (f : Team → Team) : (s.updTeam k f).cur = s.cur := rfl
@[simp] theorem State.updTeam_retries (s : State) (k : Nat) (f : Team → Team) : (s.updTeam k f).retries = s.retries := rfl
@[simp] theorem State.updTeam_turn (s : State) (k : Nat) (f : Team → Team) : (s.updTeam k f).turn = s.turn := rfl
@[simp] theorem State.updTeam_nextId (s : State) (k : Nat) (f : Team → Team) : (s.updTeam k f).nextId = s.nextId := rfl
@[simp] theorem State.updTeam_freeCtr (s : State) (k : Nat) (f : Team → Team) : (s.updTeam k f).freeCtr = s.freeCtr := rfl

@[simp] theorem State.updGroup_clk (s : State) (t : Tid) (f : Group → Group) : (s.updGroup t f).clk = s.clk := rfl
@[simp] theorem State.updGroup_boot (s : State) (t : Tid) (f : Group → Group) : (s.updGroup t f).boot = s.boot := rfl
@[simp] theorem State.updGroup_dieParts (s : State) (t : Tid) (f : Group → Group) : (s.updGroup t f).dieParts = s.dieParts := rfl
@[simp] theorem State.updGroup_removing (s : State) (t : Tid) (f : Group → Group) : (s.updGroup t f).removing = s.removing := rfl
@[simp] theorem State.updGroup_mem (s : State) (t : Tid) (f : Group → Group) : (s.updGroup t f).mem = s.mem := rfl
@[simp] theorem State.updGroup_dirty (s : State) (t : Tid) (f : Group → Group) : (s.updGroup t f).dirty = s.dirty := rfl
@[simp] theorem State.updGroup_l1 (s : State) (t : Tid) (f : Group → Group) : (s.updGroup t f).l1 = s.l1 := rfl
@[simp] theorem State.updGroup_icache (s : State) (t : Tid) (f : Group → Group) : (s.updGroup t f).icache = s.icache := rfl
@[simp] theorem State.updGroup_tlb (s : State) (t : Tid) (f : Group → Group) : (s.updGroup t f).tlb = s.tlb := rfl
@[simp] theorem State.updGroup_ue (s : State) (t : Tid) (f : Group → Group) : (s.updGroup t f).ue = s.ue := rfl
@[simp] theorem State.updGroup_ueHome (s : State) (t : Tid) (f : Group → Group) : (s.updGroup t f).ueHome = s.ueHome := rfl
@[simp] theorem State.updGroup_icUe (s : State) (t : Tid) (f : Group → Group) : (s.updGroup t f).icUe = s.icUe := rfl
@[simp] theorem State.updGroup_poolUe (s : State) (t : Tid) (f : Group → Group) : (s.updGroup t f).poolUe = s.poolUe := rfl
@[simp] theorem State.updGroup_frameUe (s : State) (t : Tid) (f : Group → Group) : (s.updGroup t f).frameUe = s.frameUe := rfl
@[simp] theorem State.updGroup_locks (s : State) (t : Tid) (f : Group → Group) : (s.updGroup t f).locks = s.locks := rfl
@[simp] theorem State.updGroup_contexts (s : State) (t : Tid) (f : Group → Group) : (s.updGroup t f).contexts = s.contexts := rfl
@[simp] theorem State.updGroup_launches (s : State) (t : Tid) (f : Group → Group) : (s.updGroup t f).launches = s.launches := rfl
@[simp] theorem State.updGroup_launchWaits (s : State) (t : Tid) (f : Group → Group) : (s.updGroup t f).launchWaits = s.launchWaits := rfl
@[simp] theorem State.updGroup_reserves (s : State) (t : Tid) (f : Group → Group) : (s.updGroup t f).reserves = s.reserves := rfl
@[simp] theorem State.updGroup_thaw (s : State) (t : Tid) (f : Group → Group) : (s.updGroup t f).thaw = s.thaw := rfl
@[simp] theorem State.updGroup_cmds (s : State) (t : Tid) (f : Group → Group) : (s.updGroup t f).cmds = s.cmds := rfl
@[simp] theorem State.updGroup_rrots (s : State) (t : Tid) (f : Group → Group) : (s.updGroup t f).rrots = s.rrots := rfl
@[simp] theorem State.updGroup_rings (s : State) (t : Tid) (f : Group → Group) : (s.updGroup t f).rings = s.rings := rfl
@[simp] theorem State.updGroup_ringGens (s : State) (t : Tid) (f : Group → Group) : (s.updGroup t f).ringGens = s.ringGens := rfl
@[simp] theorem State.updGroup_renqs (s : State) (t : Tid) (f : Group → Group) : (s.updGroup t f).renqs = s.renqs := rfl
@[simp] theorem State.updGroup_held (s : State) (t : Tid) (f : Group → Group) : (s.updGroup t f).held = s.held := rfl
@[simp] theorem State.updGroup_hostRings (s : State) (t : Tid) (f : Group → Group) : (s.updGroup t f).hostRings = s.hostRings := rfl
@[simp] theorem State.updGroup_hostSignals (s : State) (t : Tid) (f : Group → Group) : (s.updGroup t f).hostSignals = s.hostSignals := rfl
@[simp] theorem State.updGroup_sets (s : State) (t : Tid) (f : Group → Group) : (s.updGroup t f).sets = s.sets := rfl
@[simp] theorem State.updGroup_contribs (s : State) (t : Tid) (f : Group → Group) : (s.updGroup t f).contribs = s.contribs := rfl
@[simp] theorem State.updGroup_monitors (s : State) (t : Tid) (f : Group → Group) : (s.updGroup t f).monitors = s.monitors := rfl
@[simp] theorem State.updGroup_mailbox (s : State) (t : Tid) (f : Group → Group) : (s.updGroup t f).mailbox = s.mailbox := rfl
@[simp] theorem State.updGroup_qps (s : State) (t : Tid) (f : Group → Group) : (s.updGroup t f).qps = s.qps := rfl
@[simp] theorem State.updGroup_windows (s : State) (t : Tid) (f : Group → Group) : (s.updGroup t f).windows = s.windows := rfl
@[simp] theorem State.updGroup_remoteOps (s : State) (t : Tid) (f : Group → Group) : (s.updGroup t f).remoteOps = s.remoteOps := rfl
@[simp] theorem State.updGroup_pauses (s : State) (t : Tid) (f : Group → Group) : (s.updGroup t f).pauses = s.pauses := rfl
@[simp] theorem State.updGroup_collChunks (s : State) (t : Tid) (f : Group → Group) : (s.updGroup t f).collChunks = s.collChunks := rfl
@[simp] theorem State.updGroup_ckpts (s : State) (t : Tid) (f : Group → Group) : (s.updGroup t f).ckpts = s.ckpts := rfl
@[simp] theorem State.updGroup_outbox (s : State) (t : Tid) (f : Group → Group) : (s.updGroup t f).outbox = s.outbox := rfl
@[simp] theorem State.updGroup_inputs (s : State) (t : Tid) (f : Group → Group) : (s.updGroup t f).inputs = s.inputs := rfl
@[simp] theorem State.updGroup_cur (s : State) (t : Tid) (f : Group → Group) : (s.updGroup t f).cur = s.cur := rfl
@[simp] theorem State.updGroup_retries (s : State) (t : Tid) (f : Group → Group) : (s.updGroup t f).retries = s.retries := rfl
@[simp] theorem State.updGroup_turn (s : State) (t : Tid) (f : Group → Group) : (s.updGroup t f).turn = s.turn := rfl
@[simp] theorem State.updGroup_nextId (s : State) (t : Tid) (f : Group → Group) : (s.updGroup t f).nextId = s.nextId := rfl
@[simp] theorem State.updGroup_freeCtr (s : State) (t : Tid) (f : Group → Group) : (s.updGroup t f).freeCtr = s.freeCtr := rfl

@[simp] theorem State.updThread_clk (s : State) (t : Tid) (f : Thread → Thread) : (s.updThread t f).clk = s.clk := rfl
@[simp] theorem State.updThread_boot (s : State) (t : Tid) (f : Thread → Thread) : (s.updThread t f).boot = s.boot := rfl
@[simp] theorem State.updThread_dieParts (s : State) (t : Tid) (f : Thread → Thread) : (s.updThread t f).dieParts = s.dieParts := rfl
@[simp] theorem State.updThread_removing (s : State) (t : Tid) (f : Thread → Thread) : (s.updThread t f).removing = s.removing := rfl
@[simp] theorem State.updThread_mem (s : State) (t : Tid) (f : Thread → Thread) : (s.updThread t f).mem = s.mem := rfl
@[simp] theorem State.updThread_dirty (s : State) (t : Tid) (f : Thread → Thread) : (s.updThread t f).dirty = s.dirty := rfl
@[simp] theorem State.updThread_l1 (s : State) (t : Tid) (f : Thread → Thread) : (s.updThread t f).l1 = s.l1 := rfl
@[simp] theorem State.updThread_icache (s : State) (t : Tid) (f : Thread → Thread) : (s.updThread t f).icache = s.icache := rfl
@[simp] theorem State.updThread_tlb (s : State) (t : Tid) (f : Thread → Thread) : (s.updThread t f).tlb = s.tlb := rfl
@[simp] theorem State.updThread_ue (s : State) (t : Tid) (f : Thread → Thread) : (s.updThread t f).ue = s.ue := rfl
@[simp] theorem State.updThread_ueHome (s : State) (t : Tid) (f : Thread → Thread) : (s.updThread t f).ueHome = s.ueHome := rfl
@[simp] theorem State.updThread_icUe (s : State) (t : Tid) (f : Thread → Thread) : (s.updThread t f).icUe = s.icUe := rfl
@[simp] theorem State.updThread_poolUe (s : State) (t : Tid) (f : Thread → Thread) : (s.updThread t f).poolUe = s.poolUe := rfl
@[simp] theorem State.updThread_frameUe (s : State) (t : Tid) (f : Thread → Thread) : (s.updThread t f).frameUe = s.frameUe := rfl
@[simp] theorem State.updThread_locks (s : State) (t : Tid) (f : Thread → Thread) : (s.updThread t f).locks = s.locks := rfl
@[simp] theorem State.updThread_contexts (s : State) (t : Tid) (f : Thread → Thread) : (s.updThread t f).contexts = s.contexts := rfl
@[simp] theorem State.updThread_launches (s : State) (t : Tid) (f : Thread → Thread) : (s.updThread t f).launches = s.launches := rfl
@[simp] theorem State.updThread_launchWaits (s : State) (t : Tid) (f : Thread → Thread) : (s.updThread t f).launchWaits = s.launchWaits := rfl
@[simp] theorem State.updThread_reserves (s : State) (t : Tid) (f : Thread → Thread) : (s.updThread t f).reserves = s.reserves := rfl
@[simp] theorem State.updThread_thaw (s : State) (t : Tid) (f : Thread → Thread) : (s.updThread t f).thaw = s.thaw := rfl
@[simp] theorem State.updThread_cmds (s : State) (t : Tid) (f : Thread → Thread) : (s.updThread t f).cmds = s.cmds := rfl
@[simp] theorem State.updThread_rrots (s : State) (t : Tid) (f : Thread → Thread) : (s.updThread t f).rrots = s.rrots := rfl
@[simp] theorem State.updThread_rings (s : State) (t : Tid) (f : Thread → Thread) : (s.updThread t f).rings = s.rings := rfl
@[simp] theorem State.updThread_ringGens (s : State) (t : Tid) (f : Thread → Thread) : (s.updThread t f).ringGens = s.ringGens := rfl
@[simp] theorem State.updThread_renqs (s : State) (t : Tid) (f : Thread → Thread) : (s.updThread t f).renqs = s.renqs := rfl
@[simp] theorem State.updThread_held (s : State) (t : Tid) (f : Thread → Thread) : (s.updThread t f).held = s.held := rfl
@[simp] theorem State.updThread_hostRings (s : State) (t : Tid) (f : Thread → Thread) : (s.updThread t f).hostRings = s.hostRings := rfl
@[simp] theorem State.updThread_hostSignals (s : State) (t : Tid) (f : Thread → Thread) : (s.updThread t f).hostSignals = s.hostSignals := rfl
@[simp] theorem State.updThread_sets (s : State) (t : Tid) (f : Thread → Thread) : (s.updThread t f).sets = s.sets := rfl
@[simp] theorem State.updThread_contribs (s : State) (t : Tid) (f : Thread → Thread) : (s.updThread t f).contribs = s.contribs := rfl
@[simp] theorem State.updThread_monitors (s : State) (t : Tid) (f : Thread → Thread) : (s.updThread t f).monitors = s.monitors := rfl
@[simp] theorem State.updThread_mailbox (s : State) (t : Tid) (f : Thread → Thread) : (s.updThread t f).mailbox = s.mailbox := rfl
@[simp] theorem State.updThread_qps (s : State) (t : Tid) (f : Thread → Thread) : (s.updThread t f).qps = s.qps := rfl
@[simp] theorem State.updThread_windows (s : State) (t : Tid) (f : Thread → Thread) : (s.updThread t f).windows = s.windows := rfl
@[simp] theorem State.updThread_remoteOps (s : State) (t : Tid) (f : Thread → Thread) : (s.updThread t f).remoteOps = s.remoteOps := rfl
@[simp] theorem State.updThread_pauses (s : State) (t : Tid) (f : Thread → Thread) : (s.updThread t f).pauses = s.pauses := rfl
@[simp] theorem State.updThread_collChunks (s : State) (t : Tid) (f : Thread → Thread) : (s.updThread t f).collChunks = s.collChunks := rfl
@[simp] theorem State.updThread_ckpts (s : State) (t : Tid) (f : Thread → Thread) : (s.updThread t f).ckpts = s.ckpts := rfl
@[simp] theorem State.updThread_outbox (s : State) (t : Tid) (f : Thread → Thread) : (s.updThread t f).outbox = s.outbox := rfl
@[simp] theorem State.updThread_inputs (s : State) (t : Tid) (f : Thread → Thread) : (s.updThread t f).inputs = s.inputs := rfl
@[simp] theorem State.updThread_cur (s : State) (t : Tid) (f : Thread → Thread) : (s.updThread t f).cur = s.cur := rfl
@[simp] theorem State.updThread_retries (s : State) (t : Tid) (f : Thread → Thread) : (s.updThread t f).retries = s.retries := rfl
@[simp] theorem State.updThread_turn (s : State) (t : Tid) (f : Thread → Thread) : (s.updThread t f).turn = s.turn := rfl
@[simp] theorem State.updThread_nextId (s : State) (t : Tid) (f : Thread → Thread) : (s.updThread t f).nextId = s.nextId := rfl
@[simp] theorem State.updThread_freeCtr (s : State) (t : Tid) (f : Thread → Thread) : (s.updThread t f).freeCtr = s.freeCtr := rfl

@[simp] theorem State.updLaunch_clk (s : State) (k : Nat) (f : Launch → Launch) : (s.updLaunch k f).clk = s.clk := rfl
@[simp] theorem State.updLaunch_boot (s : State) (k : Nat) (f : Launch → Launch) : (s.updLaunch k f).boot = s.boot := rfl
@[simp] theorem State.updLaunch_dieParts (s : State) (k : Nat) (f : Launch → Launch) : (s.updLaunch k f).dieParts = s.dieParts := rfl
@[simp] theorem State.updLaunch_removing (s : State) (k : Nat) (f : Launch → Launch) : (s.updLaunch k f).removing = s.removing := rfl
@[simp] theorem State.updLaunch_mem (s : State) (k : Nat) (f : Launch → Launch) : (s.updLaunch k f).mem = s.mem := rfl
@[simp] theorem State.updLaunch_dirty (s : State) (k : Nat) (f : Launch → Launch) : (s.updLaunch k f).dirty = s.dirty := rfl
@[simp] theorem State.updLaunch_l1 (s : State) (k : Nat) (f : Launch → Launch) : (s.updLaunch k f).l1 = s.l1 := rfl
@[simp] theorem State.updLaunch_icache (s : State) (k : Nat) (f : Launch → Launch) : (s.updLaunch k f).icache = s.icache := rfl
@[simp] theorem State.updLaunch_tlb (s : State) (k : Nat) (f : Launch → Launch) : (s.updLaunch k f).tlb = s.tlb := rfl
@[simp] theorem State.updLaunch_ue (s : State) (k : Nat) (f : Launch → Launch) : (s.updLaunch k f).ue = s.ue := rfl
@[simp] theorem State.updLaunch_ueHome (s : State) (k : Nat) (f : Launch → Launch) : (s.updLaunch k f).ueHome = s.ueHome := rfl
@[simp] theorem State.updLaunch_icUe (s : State) (k : Nat) (f : Launch → Launch) : (s.updLaunch k f).icUe = s.icUe := rfl
@[simp] theorem State.updLaunch_poolUe (s : State) (k : Nat) (f : Launch → Launch) : (s.updLaunch k f).poolUe = s.poolUe := rfl
@[simp] theorem State.updLaunch_frameUe (s : State) (k : Nat) (f : Launch → Launch) : (s.updLaunch k f).frameUe = s.frameUe := rfl
@[simp] theorem State.updLaunch_locks (s : State) (k : Nat) (f : Launch → Launch) : (s.updLaunch k f).locks = s.locks := rfl
@[simp] theorem State.updLaunch_contexts (s : State) (k : Nat) (f : Launch → Launch) : (s.updLaunch k f).contexts = s.contexts := rfl
@[simp] theorem State.updLaunch_launchWaits (s : State) (k : Nat) (f : Launch → Launch) : (s.updLaunch k f).launchWaits = s.launchWaits := rfl
@[simp] theorem State.updLaunch_teams (s : State) (k : Nat) (f : Launch → Launch) : (s.updLaunch k f).teams = s.teams := rfl
@[simp] theorem State.updLaunch_reserves (s : State) (k : Nat) (f : Launch → Launch) : (s.updLaunch k f).reserves = s.reserves := rfl
@[simp] theorem State.updLaunch_thaw (s : State) (k : Nat) (f : Launch → Launch) : (s.updLaunch k f).thaw = s.thaw := rfl
@[simp] theorem State.updLaunch_cmds (s : State) (k : Nat) (f : Launch → Launch) : (s.updLaunch k f).cmds = s.cmds := rfl
@[simp] theorem State.updLaunch_rrots (s : State) (k : Nat) (f : Launch → Launch) : (s.updLaunch k f).rrots = s.rrots := rfl
@[simp] theorem State.updLaunch_rings (s : State) (k : Nat) (f : Launch → Launch) : (s.updLaunch k f).rings = s.rings := rfl
@[simp] theorem State.updLaunch_ringGens (s : State) (k : Nat) (f : Launch → Launch) : (s.updLaunch k f).ringGens = s.ringGens := rfl
@[simp] theorem State.updLaunch_renqs (s : State) (k : Nat) (f : Launch → Launch) : (s.updLaunch k f).renqs = s.renqs := rfl
@[simp] theorem State.updLaunch_held (s : State) (k : Nat) (f : Launch → Launch) : (s.updLaunch k f).held = s.held := rfl
@[simp] theorem State.updLaunch_hostRings (s : State) (k : Nat) (f : Launch → Launch) : (s.updLaunch k f).hostRings = s.hostRings := rfl
@[simp] theorem State.updLaunch_hostSignals (s : State) (k : Nat) (f : Launch → Launch) : (s.updLaunch k f).hostSignals = s.hostSignals := rfl
@[simp] theorem State.updLaunch_sets (s : State) (k : Nat) (f : Launch → Launch) : (s.updLaunch k f).sets = s.sets := rfl
@[simp] theorem State.updLaunch_contribs (s : State) (k : Nat) (f : Launch → Launch) : (s.updLaunch k f).contribs = s.contribs := rfl
@[simp] theorem State.updLaunch_monitors (s : State) (k : Nat) (f : Launch → Launch) : (s.updLaunch k f).monitors = s.monitors := rfl
@[simp] theorem State.updLaunch_mailbox (s : State) (k : Nat) (f : Launch → Launch) : (s.updLaunch k f).mailbox = s.mailbox := rfl
@[simp] theorem State.updLaunch_qps (s : State) (k : Nat) (f : Launch → Launch) : (s.updLaunch k f).qps = s.qps := rfl
@[simp] theorem State.updLaunch_windows (s : State) (k : Nat) (f : Launch → Launch) : (s.updLaunch k f).windows = s.windows := rfl
@[simp] theorem State.updLaunch_remoteOps (s : State) (k : Nat) (f : Launch → Launch) : (s.updLaunch k f).remoteOps = s.remoteOps := rfl
@[simp] theorem State.updLaunch_pauses (s : State) (k : Nat) (f : Launch → Launch) : (s.updLaunch k f).pauses = s.pauses := rfl
@[simp] theorem State.updLaunch_collChunks (s : State) (k : Nat) (f : Launch → Launch) : (s.updLaunch k f).collChunks = s.collChunks := rfl
@[simp] theorem State.updLaunch_ckpts (s : State) (k : Nat) (f : Launch → Launch) : (s.updLaunch k f).ckpts = s.ckpts := rfl
@[simp] theorem State.updLaunch_outbox (s : State) (k : Nat) (f : Launch → Launch) : (s.updLaunch k f).outbox = s.outbox := rfl
@[simp] theorem State.updLaunch_inputs (s : State) (k : Nat) (f : Launch → Launch) : (s.updLaunch k f).inputs = s.inputs := rfl
@[simp] theorem State.updLaunch_cur (s : State) (k : Nat) (f : Launch → Launch) : (s.updLaunch k f).cur = s.cur := rfl
@[simp] theorem State.updLaunch_retries (s : State) (k : Nat) (f : Launch → Launch) : (s.updLaunch k f).retries = s.retries := rfl
@[simp] theorem State.updLaunch_turn (s : State) (k : Nat) (f : Launch → Launch) : (s.updLaunch k f).turn = s.turn := rfl
@[simp] theorem State.updLaunch_nextId (s : State) (k : Nat) (f : Launch → Launch) : (s.updLaunch k f).nextId = s.nextId := rfl
@[simp] theorem State.updLaunch_freeCtr (s : State) (k : Nat) (f : Launch → Launch) : (s.updLaunch k f).freeCtr = s.freeCtr := rfl

@[simp] theorem State.updCtx_clk (s : State) (k : Nat) (f : Ctx → Ctx) : (s.updCtx k f).clk = s.clk := rfl
@[simp] theorem State.updCtx_boot (s : State) (k : Nat) (f : Ctx → Ctx) : (s.updCtx k f).boot = s.boot := rfl
@[simp] theorem State.updCtx_dieParts (s : State) (k : Nat) (f : Ctx → Ctx) : (s.updCtx k f).dieParts = s.dieParts := rfl
@[simp] theorem State.updCtx_removing (s : State) (k : Nat) (f : Ctx → Ctx) : (s.updCtx k f).removing = s.removing := rfl
@[simp] theorem State.updCtx_mem (s : State) (k : Nat) (f : Ctx → Ctx) : (s.updCtx k f).mem = s.mem := rfl
@[simp] theorem State.updCtx_dirty (s : State) (k : Nat) (f : Ctx → Ctx) : (s.updCtx k f).dirty = s.dirty := rfl
@[simp] theorem State.updCtx_l1 (s : State) (k : Nat) (f : Ctx → Ctx) : (s.updCtx k f).l1 = s.l1 := rfl
@[simp] theorem State.updCtx_icache (s : State) (k : Nat) (f : Ctx → Ctx) : (s.updCtx k f).icache = s.icache := rfl
@[simp] theorem State.updCtx_tlb (s : State) (k : Nat) (f : Ctx → Ctx) : (s.updCtx k f).tlb = s.tlb := rfl
@[simp] theorem State.updCtx_ue (s : State) (k : Nat) (f : Ctx → Ctx) : (s.updCtx k f).ue = s.ue := rfl
@[simp] theorem State.updCtx_ueHome (s : State) (k : Nat) (f : Ctx → Ctx) : (s.updCtx k f).ueHome = s.ueHome := rfl
@[simp] theorem State.updCtx_icUe (s : State) (k : Nat) (f : Ctx → Ctx) : (s.updCtx k f).icUe = s.icUe := rfl
@[simp] theorem State.updCtx_poolUe (s : State) (k : Nat) (f : Ctx → Ctx) : (s.updCtx k f).poolUe = s.poolUe := rfl
@[simp] theorem State.updCtx_frameUe (s : State) (k : Nat) (f : Ctx → Ctx) : (s.updCtx k f).frameUe = s.frameUe := rfl
@[simp] theorem State.updCtx_locks (s : State) (k : Nat) (f : Ctx → Ctx) : (s.updCtx k f).locks = s.locks := rfl
@[simp] theorem State.updCtx_launches (s : State) (k : Nat) (f : Ctx → Ctx) : (s.updCtx k f).launches = s.launches := rfl
@[simp] theorem State.updCtx_launchWaits (s : State) (k : Nat) (f : Ctx → Ctx) : (s.updCtx k f).launchWaits = s.launchWaits := rfl
@[simp] theorem State.updCtx_teams (s : State) (k : Nat) (f : Ctx → Ctx) : (s.updCtx k f).teams = s.teams := rfl
@[simp] theorem State.updCtx_reserves (s : State) (k : Nat) (f : Ctx → Ctx) : (s.updCtx k f).reserves = s.reserves := rfl
@[simp] theorem State.updCtx_thaw (s : State) (k : Nat) (f : Ctx → Ctx) : (s.updCtx k f).thaw = s.thaw := rfl
@[simp] theorem State.updCtx_cmds (s : State) (k : Nat) (f : Ctx → Ctx) : (s.updCtx k f).cmds = s.cmds := rfl
@[simp] theorem State.updCtx_rrots (s : State) (k : Nat) (f : Ctx → Ctx) : (s.updCtx k f).rrots = s.rrots := rfl
@[simp] theorem State.updCtx_rings (s : State) (k : Nat) (f : Ctx → Ctx) : (s.updCtx k f).rings = s.rings := rfl
@[simp] theorem State.updCtx_ringGens (s : State) (k : Nat) (f : Ctx → Ctx) : (s.updCtx k f).ringGens = s.ringGens := rfl
@[simp] theorem State.updCtx_renqs (s : State) (k : Nat) (f : Ctx → Ctx) : (s.updCtx k f).renqs = s.renqs := rfl
@[simp] theorem State.updCtx_held (s : State) (k : Nat) (f : Ctx → Ctx) : (s.updCtx k f).held = s.held := rfl
@[simp] theorem State.updCtx_hostRings (s : State) (k : Nat) (f : Ctx → Ctx) : (s.updCtx k f).hostRings = s.hostRings := rfl
@[simp] theorem State.updCtx_hostSignals (s : State) (k : Nat) (f : Ctx → Ctx) : (s.updCtx k f).hostSignals = s.hostSignals := rfl
@[simp] theorem State.updCtx_sets (s : State) (k : Nat) (f : Ctx → Ctx) : (s.updCtx k f).sets = s.sets := rfl
@[simp] theorem State.updCtx_contribs (s : State) (k : Nat) (f : Ctx → Ctx) : (s.updCtx k f).contribs = s.contribs := rfl
@[simp] theorem State.updCtx_monitors (s : State) (k : Nat) (f : Ctx → Ctx) : (s.updCtx k f).monitors = s.monitors := rfl
@[simp] theorem State.updCtx_mailbox (s : State) (k : Nat) (f : Ctx → Ctx) : (s.updCtx k f).mailbox = s.mailbox := rfl
@[simp] theorem State.updCtx_qps (s : State) (k : Nat) (f : Ctx → Ctx) : (s.updCtx k f).qps = s.qps := rfl
@[simp] theorem State.updCtx_windows (s : State) (k : Nat) (f : Ctx → Ctx) : (s.updCtx k f).windows = s.windows := rfl
@[simp] theorem State.updCtx_remoteOps (s : State) (k : Nat) (f : Ctx → Ctx) : (s.updCtx k f).remoteOps = s.remoteOps := rfl
@[simp] theorem State.updCtx_pauses (s : State) (k : Nat) (f : Ctx → Ctx) : (s.updCtx k f).pauses = s.pauses := rfl
@[simp] theorem State.updCtx_collChunks (s : State) (k : Nat) (f : Ctx → Ctx) : (s.updCtx k f).collChunks = s.collChunks := rfl
@[simp] theorem State.updCtx_ckpts (s : State) (k : Nat) (f : Ctx → Ctx) : (s.updCtx k f).ckpts = s.ckpts := rfl
@[simp] theorem State.updCtx_outbox (s : State) (k : Nat) (f : Ctx → Ctx) : (s.updCtx k f).outbox = s.outbox := rfl
@[simp] theorem State.updCtx_inputs (s : State) (k : Nat) (f : Ctx → Ctx) : (s.updCtx k f).inputs = s.inputs := rfl
@[simp] theorem State.updCtx_cur (s : State) (k : Nat) (f : Ctx → Ctx) : (s.updCtx k f).cur = s.cur := rfl
@[simp] theorem State.updCtx_retries (s : State) (k : Nat) (f : Ctx → Ctx) : (s.updCtx k f).retries = s.retries := rfl
@[simp] theorem State.updCtx_turn (s : State) (k : Nat) (f : Ctx → Ctx) : (s.updCtx k f).turn = s.turn := rfl
@[simp] theorem State.updCtx_nextId (s : State) (k : Nat) (f : Ctx → Ctx) : (s.updCtx k f).nextId = s.nextId := rfl
@[simp] theorem State.updCtx_freeCtr (s : State) (k : Nat) (f : Ctx → Ctx) : (s.updCtx k f).freeCtr = s.freeCtr := rfl

@[simp] theorem State.updCmd_clk (s : State) (k : Nat) (f : Cmd → Cmd) : (s.updCmd k f).clk = s.clk := rfl
@[simp] theorem State.updCmd_boot (s : State) (k : Nat) (f : Cmd → Cmd) : (s.updCmd k f).boot = s.boot := rfl
@[simp] theorem State.updCmd_dieParts (s : State) (k : Nat) (f : Cmd → Cmd) : (s.updCmd k f).dieParts = s.dieParts := rfl
@[simp] theorem State.updCmd_removing (s : State) (k : Nat) (f : Cmd → Cmd) : (s.updCmd k f).removing = s.removing := rfl
@[simp] theorem State.updCmd_mem (s : State) (k : Nat) (f : Cmd → Cmd) : (s.updCmd k f).mem = s.mem := rfl
@[simp] theorem State.updCmd_dirty (s : State) (k : Nat) (f : Cmd → Cmd) : (s.updCmd k f).dirty = s.dirty := rfl
@[simp] theorem State.updCmd_l1 (s : State) (k : Nat) (f : Cmd → Cmd) : (s.updCmd k f).l1 = s.l1 := rfl
@[simp] theorem State.updCmd_icache (s : State) (k : Nat) (f : Cmd → Cmd) : (s.updCmd k f).icache = s.icache := rfl
@[simp] theorem State.updCmd_tlb (s : State) (k : Nat) (f : Cmd → Cmd) : (s.updCmd k f).tlb = s.tlb := rfl
@[simp] theorem State.updCmd_ue (s : State) (k : Nat) (f : Cmd → Cmd) : (s.updCmd k f).ue = s.ue := rfl
@[simp] theorem State.updCmd_ueHome (s : State) (k : Nat) (f : Cmd → Cmd) : (s.updCmd k f).ueHome = s.ueHome := rfl
@[simp] theorem State.updCmd_icUe (s : State) (k : Nat) (f : Cmd → Cmd) : (s.updCmd k f).icUe = s.icUe := rfl
@[simp] theorem State.updCmd_poolUe (s : State) (k : Nat) (f : Cmd → Cmd) : (s.updCmd k f).poolUe = s.poolUe := rfl
@[simp] theorem State.updCmd_frameUe (s : State) (k : Nat) (f : Cmd → Cmd) : (s.updCmd k f).frameUe = s.frameUe := rfl
@[simp] theorem State.updCmd_locks (s : State) (k : Nat) (f : Cmd → Cmd) : (s.updCmd k f).locks = s.locks := rfl
@[simp] theorem State.updCmd_contexts (s : State) (k : Nat) (f : Cmd → Cmd) : (s.updCmd k f).contexts = s.contexts := rfl
@[simp] theorem State.updCmd_launches (s : State) (k : Nat) (f : Cmd → Cmd) : (s.updCmd k f).launches = s.launches := rfl
@[simp] theorem State.updCmd_launchWaits (s : State) (k : Nat) (f : Cmd → Cmd) : (s.updCmd k f).launchWaits = s.launchWaits := rfl
@[simp] theorem State.updCmd_teams (s : State) (k : Nat) (f : Cmd → Cmd) : (s.updCmd k f).teams = s.teams := rfl
@[simp] theorem State.updCmd_reserves (s : State) (k : Nat) (f : Cmd → Cmd) : (s.updCmd k f).reserves = s.reserves := rfl
@[simp] theorem State.updCmd_thaw (s : State) (k : Nat) (f : Cmd → Cmd) : (s.updCmd k f).thaw = s.thaw := rfl
@[simp] theorem State.updCmd_rrots (s : State) (k : Nat) (f : Cmd → Cmd) : (s.updCmd k f).rrots = s.rrots := rfl
@[simp] theorem State.updCmd_rings (s : State) (k : Nat) (f : Cmd → Cmd) : (s.updCmd k f).rings = s.rings := rfl
@[simp] theorem State.updCmd_ringGens (s : State) (k : Nat) (f : Cmd → Cmd) : (s.updCmd k f).ringGens = s.ringGens := rfl
@[simp] theorem State.updCmd_renqs (s : State) (k : Nat) (f : Cmd → Cmd) : (s.updCmd k f).renqs = s.renqs := rfl
@[simp] theorem State.updCmd_held (s : State) (k : Nat) (f : Cmd → Cmd) : (s.updCmd k f).held = s.held := rfl
@[simp] theorem State.updCmd_hostRings (s : State) (k : Nat) (f : Cmd → Cmd) : (s.updCmd k f).hostRings = s.hostRings := rfl
@[simp] theorem State.updCmd_hostSignals (s : State) (k : Nat) (f : Cmd → Cmd) : (s.updCmd k f).hostSignals = s.hostSignals := rfl
@[simp] theorem State.updCmd_sets (s : State) (k : Nat) (f : Cmd → Cmd) : (s.updCmd k f).sets = s.sets := rfl
@[simp] theorem State.updCmd_contribs (s : State) (k : Nat) (f : Cmd → Cmd) : (s.updCmd k f).contribs = s.contribs := rfl
@[simp] theorem State.updCmd_monitors (s : State) (k : Nat) (f : Cmd → Cmd) : (s.updCmd k f).monitors = s.monitors := rfl
@[simp] theorem State.updCmd_mailbox (s : State) (k : Nat) (f : Cmd → Cmd) : (s.updCmd k f).mailbox = s.mailbox := rfl
@[simp] theorem State.updCmd_qps (s : State) (k : Nat) (f : Cmd → Cmd) : (s.updCmd k f).qps = s.qps := rfl
@[simp] theorem State.updCmd_windows (s : State) (k : Nat) (f : Cmd → Cmd) : (s.updCmd k f).windows = s.windows := rfl
@[simp] theorem State.updCmd_remoteOps (s : State) (k : Nat) (f : Cmd → Cmd) : (s.updCmd k f).remoteOps = s.remoteOps := rfl
@[simp] theorem State.updCmd_pauses (s : State) (k : Nat) (f : Cmd → Cmd) : (s.updCmd k f).pauses = s.pauses := rfl
@[simp] theorem State.updCmd_collChunks (s : State) (k : Nat) (f : Cmd → Cmd) : (s.updCmd k f).collChunks = s.collChunks := rfl
@[simp] theorem State.updCmd_ckpts (s : State) (k : Nat) (f : Cmd → Cmd) : (s.updCmd k f).ckpts = s.ckpts := rfl
@[simp] theorem State.updCmd_outbox (s : State) (k : Nat) (f : Cmd → Cmd) : (s.updCmd k f).outbox = s.outbox := rfl
@[simp] theorem State.updCmd_inputs (s : State) (k : Nat) (f : Cmd → Cmd) : (s.updCmd k f).inputs = s.inputs := rfl
@[simp] theorem State.updCmd_cur (s : State) (k : Nat) (f : Cmd → Cmd) : (s.updCmd k f).cur = s.cur := rfl
@[simp] theorem State.updCmd_retries (s : State) (k : Nat) (f : Cmd → Cmd) : (s.updCmd k f).retries = s.retries := rfl
@[simp] theorem State.updCmd_turn (s : State) (k : Nat) (f : Cmd → Cmd) : (s.updCmd k f).turn = s.turn := rfl
@[simp] theorem State.updCmd_nextId (s : State) (k : Nat) (f : Cmd → Cmd) : (s.updCmd k f).nextId = s.nextId := rfl
@[simp] theorem State.updCmd_freeCtr (s : State) (k : Nat) (f : Cmd → Cmd) : (s.updCmd k f).freeCtr = s.freeCtr := rfl

@[simp] theorem State.send_clk (s : State) (m : OutMsg) : (s.send m).clk = s.clk := rfl
@[simp] theorem State.send_boot (s : State) (m : OutMsg) : (s.send m).boot = s.boot := rfl
@[simp] theorem State.send_dieParts (s : State) (m : OutMsg) : (s.send m).dieParts = s.dieParts := rfl
@[simp] theorem State.send_removing (s : State) (m : OutMsg) : (s.send m).removing = s.removing := rfl
@[simp] theorem State.send_mem (s : State) (m : OutMsg) : (s.send m).mem = s.mem := rfl
@[simp] theorem State.send_dirty (s : State) (m : OutMsg) : (s.send m).dirty = s.dirty := rfl
@[simp] theorem State.send_l1 (s : State) (m : OutMsg) : (s.send m).l1 = s.l1 := rfl
@[simp] theorem State.send_icache (s : State) (m : OutMsg) : (s.send m).icache = s.icache := rfl
@[simp] theorem State.send_tlb (s : State) (m : OutMsg) : (s.send m).tlb = s.tlb := rfl
@[simp] theorem State.send_ue (s : State) (m : OutMsg) : (s.send m).ue = s.ue := rfl
@[simp] theorem State.send_ueHome (s : State) (m : OutMsg) : (s.send m).ueHome = s.ueHome := rfl
@[simp] theorem State.send_icUe (s : State) (m : OutMsg) : (s.send m).icUe = s.icUe := rfl
@[simp] theorem State.send_poolUe (s : State) (m : OutMsg) : (s.send m).poolUe = s.poolUe := rfl
@[simp] theorem State.send_frameUe (s : State) (m : OutMsg) : (s.send m).frameUe = s.frameUe := rfl
@[simp] theorem State.send_locks (s : State) (m : OutMsg) : (s.send m).locks = s.locks := rfl
@[simp] theorem State.send_contexts (s : State) (m : OutMsg) : (s.send m).contexts = s.contexts := rfl
@[simp] theorem State.send_launches (s : State) (m : OutMsg) : (s.send m).launches = s.launches := rfl
@[simp] theorem State.send_launchWaits (s : State) (m : OutMsg) : (s.send m).launchWaits = s.launchWaits := rfl
@[simp] theorem State.send_teams (s : State) (m : OutMsg) : (s.send m).teams = s.teams := rfl
@[simp] theorem State.send_reserves (s : State) (m : OutMsg) : (s.send m).reserves = s.reserves := rfl
@[simp] theorem State.send_thaw (s : State) (m : OutMsg) : (s.send m).thaw = s.thaw := rfl
@[simp] theorem State.send_cmds (s : State) (m : OutMsg) : (s.send m).cmds = s.cmds := rfl
@[simp] theorem State.send_rrots (s : State) (m : OutMsg) : (s.send m).rrots = s.rrots := rfl
@[simp] theorem State.send_rings (s : State) (m : OutMsg) : (s.send m).rings = s.rings := rfl
@[simp] theorem State.send_ringGens (s : State) (m : OutMsg) : (s.send m).ringGens = s.ringGens := rfl
@[simp] theorem State.send_renqs (s : State) (m : OutMsg) : (s.send m).renqs = s.renqs := rfl
@[simp] theorem State.send_held (s : State) (m : OutMsg) : (s.send m).held = s.held := rfl
@[simp] theorem State.send_hostRings (s : State) (m : OutMsg) : (s.send m).hostRings = s.hostRings := rfl
@[simp] theorem State.send_hostSignals (s : State) (m : OutMsg) : (s.send m).hostSignals = s.hostSignals := rfl
@[simp] theorem State.send_sets (s : State) (m : OutMsg) : (s.send m).sets = s.sets := rfl
@[simp] theorem State.send_contribs (s : State) (m : OutMsg) : (s.send m).contribs = s.contribs := rfl
@[simp] theorem State.send_monitors (s : State) (m : OutMsg) : (s.send m).monitors = s.monitors := rfl
@[simp] theorem State.send_mailbox (s : State) (m : OutMsg) : (s.send m).mailbox = s.mailbox := rfl
@[simp] theorem State.send_qps (s : State) (m : OutMsg) : (s.send m).qps = s.qps := rfl
@[simp] theorem State.send_windows (s : State) (m : OutMsg) : (s.send m).windows = s.windows := rfl
@[simp] theorem State.send_remoteOps (s : State) (m : OutMsg) : (s.send m).remoteOps = s.remoteOps := rfl
@[simp] theorem State.send_pauses (s : State) (m : OutMsg) : (s.send m).pauses = s.pauses := rfl
@[simp] theorem State.send_collChunks (s : State) (m : OutMsg) : (s.send m).collChunks = s.collChunks := rfl
@[simp] theorem State.send_ckpts (s : State) (m : OutMsg) : (s.send m).ckpts = s.ckpts := rfl
@[simp] theorem State.send_inputs (s : State) (m : OutMsg) : (s.send m).inputs = s.inputs := rfl
@[simp] theorem State.send_cur (s : State) (m : OutMsg) : (s.send m).cur = s.cur := rfl
@[simp] theorem State.send_retries (s : State) (m : OutMsg) : (s.send m).retries = s.retries := rfl
@[simp] theorem State.send_turn (s : State) (m : OutMsg) : (s.send m).turn = s.turn := rfl
@[simp] theorem State.send_nextId (s : State) (m : OutMsg) : (s.send m).nextId = s.nextId := rfl
@[simp] theorem State.send_freeCtr (s : State) (m : OutMsg) : (s.send m).freeCtr = s.freeCtr := rfl

@[simp] theorem State.mail_clk (s : State) (kind code ctx src pa va pc : Nat) (detail : List Byte) : (s.mail kind code ctx src pa va pc detail).clk = s.clk := rfl
@[simp] theorem State.mail_boot (s : State) (kind code ctx src pa va pc : Nat) (detail : List Byte) : (s.mail kind code ctx src pa va pc detail).boot = s.boot := rfl
@[simp] theorem State.mail_dieParts (s : State) (kind code ctx src pa va pc : Nat) (detail : List Byte) : (s.mail kind code ctx src pa va pc detail).dieParts = s.dieParts := rfl
@[simp] theorem State.mail_removing (s : State) (kind code ctx src pa va pc : Nat) (detail : List Byte) : (s.mail kind code ctx src pa va pc detail).removing = s.removing := rfl
@[simp] theorem State.mail_mem (s : State) (kind code ctx src pa va pc : Nat) (detail : List Byte) : (s.mail kind code ctx src pa va pc detail).mem = s.mem := rfl
@[simp] theorem State.mail_dirty (s : State) (kind code ctx src pa va pc : Nat) (detail : List Byte) : (s.mail kind code ctx src pa va pc detail).dirty = s.dirty := rfl
@[simp] theorem State.mail_l1 (s : State) (kind code ctx src pa va pc : Nat) (detail : List Byte) : (s.mail kind code ctx src pa va pc detail).l1 = s.l1 := rfl
@[simp] theorem State.mail_icache (s : State) (kind code ctx src pa va pc : Nat) (detail : List Byte) : (s.mail kind code ctx src pa va pc detail).icache = s.icache := rfl
@[simp] theorem State.mail_tlb (s : State) (kind code ctx src pa va pc : Nat) (detail : List Byte) : (s.mail kind code ctx src pa va pc detail).tlb = s.tlb := rfl
@[simp] theorem State.mail_ue (s : State) (kind code ctx src pa va pc : Nat) (detail : List Byte) : (s.mail kind code ctx src pa va pc detail).ue = s.ue := rfl
@[simp] theorem State.mail_ueHome (s : State) (kind code ctx src pa va pc : Nat) (detail : List Byte) : (s.mail kind code ctx src pa va pc detail).ueHome = s.ueHome := rfl
@[simp] theorem State.mail_icUe (s : State) (kind code ctx src pa va pc : Nat) (detail : List Byte) : (s.mail kind code ctx src pa va pc detail).icUe = s.icUe := rfl
@[simp] theorem State.mail_poolUe (s : State) (kind code ctx src pa va pc : Nat) (detail : List Byte) : (s.mail kind code ctx src pa va pc detail).poolUe = s.poolUe := rfl
@[simp] theorem State.mail_frameUe (s : State) (kind code ctx src pa va pc : Nat) (detail : List Byte) : (s.mail kind code ctx src pa va pc detail).frameUe = s.frameUe := rfl
@[simp] theorem State.mail_locks (s : State) (kind code ctx src pa va pc : Nat) (detail : List Byte) : (s.mail kind code ctx src pa va pc detail).locks = s.locks := rfl
@[simp] theorem State.mail_contexts (s : State) (kind code ctx src pa va pc : Nat) (detail : List Byte) : (s.mail kind code ctx src pa va pc detail).contexts = s.contexts := rfl
@[simp] theorem State.mail_launches (s : State) (kind code ctx src pa va pc : Nat) (detail : List Byte) : (s.mail kind code ctx src pa va pc detail).launches = s.launches := rfl
@[simp] theorem State.mail_launchWaits (s : State) (kind code ctx src pa va pc : Nat) (detail : List Byte) : (s.mail kind code ctx src pa va pc detail).launchWaits = s.launchWaits := rfl
@[simp] theorem State.mail_teams (s : State) (kind code ctx src pa va pc : Nat) (detail : List Byte) : (s.mail kind code ctx src pa va pc detail).teams = s.teams := rfl
@[simp] theorem State.mail_reserves (s : State) (kind code ctx src pa va pc : Nat) (detail : List Byte) : (s.mail kind code ctx src pa va pc detail).reserves = s.reserves := rfl
@[simp] theorem State.mail_thaw (s : State) (kind code ctx src pa va pc : Nat) (detail : List Byte) : (s.mail kind code ctx src pa va pc detail).thaw = s.thaw := rfl
@[simp] theorem State.mail_cmds (s : State) (kind code ctx src pa va pc : Nat) (detail : List Byte) : (s.mail kind code ctx src pa va pc detail).cmds = s.cmds := rfl
@[simp] theorem State.mail_rrots (s : State) (kind code ctx src pa va pc : Nat) (detail : List Byte) : (s.mail kind code ctx src pa va pc detail).rrots = s.rrots := rfl
@[simp] theorem State.mail_rings (s : State) (kind code ctx src pa va pc : Nat) (detail : List Byte) : (s.mail kind code ctx src pa va pc detail).rings = s.rings := rfl
@[simp] theorem State.mail_ringGens (s : State) (kind code ctx src pa va pc : Nat) (detail : List Byte) : (s.mail kind code ctx src pa va pc detail).ringGens = s.ringGens := rfl
@[simp] theorem State.mail_renqs (s : State) (kind code ctx src pa va pc : Nat) (detail : List Byte) : (s.mail kind code ctx src pa va pc detail).renqs = s.renqs := rfl
@[simp] theorem State.mail_held (s : State) (kind code ctx src pa va pc : Nat) (detail : List Byte) : (s.mail kind code ctx src pa va pc detail).held = s.held := rfl
@[simp] theorem State.mail_hostRings (s : State) (kind code ctx src pa va pc : Nat) (detail : List Byte) : (s.mail kind code ctx src pa va pc detail).hostRings = s.hostRings := rfl
@[simp] theorem State.mail_hostSignals (s : State) (kind code ctx src pa va pc : Nat) (detail : List Byte) : (s.mail kind code ctx src pa va pc detail).hostSignals = s.hostSignals := rfl
@[simp] theorem State.mail_sets (s : State) (kind code ctx src pa va pc : Nat) (detail : List Byte) : (s.mail kind code ctx src pa va pc detail).sets = s.sets := rfl
@[simp] theorem State.mail_contribs (s : State) (kind code ctx src pa va pc : Nat) (detail : List Byte) : (s.mail kind code ctx src pa va pc detail).contribs = s.contribs := rfl
@[simp] theorem State.mail_monitors (s : State) (kind code ctx src pa va pc : Nat) (detail : List Byte) : (s.mail kind code ctx src pa va pc detail).monitors = s.monitors := rfl
@[simp] theorem State.mail_qps (s : State) (kind code ctx src pa va pc : Nat) (detail : List Byte) : (s.mail kind code ctx src pa va pc detail).qps = s.qps := rfl
@[simp] theorem State.mail_windows (s : State) (kind code ctx src pa va pc : Nat) (detail : List Byte) : (s.mail kind code ctx src pa va pc detail).windows = s.windows := rfl
@[simp] theorem State.mail_remoteOps (s : State) (kind code ctx src pa va pc : Nat) (detail : List Byte) : (s.mail kind code ctx src pa va pc detail).remoteOps = s.remoteOps := rfl
@[simp] theorem State.mail_pauses (s : State) (kind code ctx src pa va pc : Nat) (detail : List Byte) : (s.mail kind code ctx src pa va pc detail).pauses = s.pauses := rfl
@[simp] theorem State.mail_collChunks (s : State) (kind code ctx src pa va pc : Nat) (detail : List Byte) : (s.mail kind code ctx src pa va pc detail).collChunks = s.collChunks := rfl
@[simp] theorem State.mail_ckpts (s : State) (kind code ctx src pa va pc : Nat) (detail : List Byte) : (s.mail kind code ctx src pa va pc detail).ckpts = s.ckpts := rfl
@[simp] theorem State.mail_outbox (s : State) (kind code ctx src pa va pc : Nat) (detail : List Byte) : (s.mail kind code ctx src pa va pc detail).outbox = s.outbox := rfl
@[simp] theorem State.mail_inputs (s : State) (kind code ctx src pa va pc : Nat) (detail : List Byte) : (s.mail kind code ctx src pa va pc detail).inputs = s.inputs := rfl
@[simp] theorem State.mail_cur (s : State) (kind code ctx src pa va pc : Nat) (detail : List Byte) : (s.mail kind code ctx src pa va pc detail).cur = s.cur := rfl
@[simp] theorem State.mail_retries (s : State) (kind code ctx src pa va pc : Nat) (detail : List Byte) : (s.mail kind code ctx src pa va pc detail).retries = s.retries := rfl
@[simp] theorem State.mail_turn (s : State) (kind code ctx src pa va pc : Nat) (detail : List Byte) : (s.mail kind code ctx src pa va pc detail).turn = s.turn := rfl
@[simp] theorem State.mail_nextId (s : State) (kind code ctx src pa va pc : Nat) (detail : List Byte) : (s.mail kind code ctx src pa va pc detail).nextId = s.nextId := rfl
@[simp] theorem State.mail_freeCtr (s : State) (kind code ctx src pa va pc : Nat) (detail : List Byte) : (s.mail kind code ctx src pa va pc detail).freeCtr = s.freeCtr := rfl

@[simp] theorem State.event_clk (s : State) (die src inst v : Nat) : (s.event die src inst v).clk = s.clk := rfl
@[simp] theorem State.event_boot (s : State) (die src inst v : Nat) : (s.event die src inst v).boot = s.boot := rfl
@[simp] theorem State.event_dieParts (s : State) (die src inst v : Nat) : (s.event die src inst v).dieParts = s.dieParts := rfl
@[simp] theorem State.event_removing (s : State) (die src inst v : Nat) : (s.event die src inst v).removing = s.removing := rfl
@[simp] theorem State.event_mem (s : State) (die src inst v : Nat) : (s.event die src inst v).mem = s.mem := rfl
@[simp] theorem State.event_dirty (s : State) (die src inst v : Nat) : (s.event die src inst v).dirty = s.dirty := rfl
@[simp] theorem State.event_l1 (s : State) (die src inst v : Nat) : (s.event die src inst v).l1 = s.l1 := rfl
@[simp] theorem State.event_icache (s : State) (die src inst v : Nat) : (s.event die src inst v).icache = s.icache := rfl
@[simp] theorem State.event_tlb (s : State) (die src inst v : Nat) : (s.event die src inst v).tlb = s.tlb := rfl
@[simp] theorem State.event_ue (s : State) (die src inst v : Nat) : (s.event die src inst v).ue = s.ue := rfl
@[simp] theorem State.event_ueHome (s : State) (die src inst v : Nat) : (s.event die src inst v).ueHome = s.ueHome := rfl
@[simp] theorem State.event_icUe (s : State) (die src inst v : Nat) : (s.event die src inst v).icUe = s.icUe := rfl
@[simp] theorem State.event_poolUe (s : State) (die src inst v : Nat) : (s.event die src inst v).poolUe = s.poolUe := rfl
@[simp] theorem State.event_frameUe (s : State) (die src inst v : Nat) : (s.event die src inst v).frameUe = s.frameUe := rfl
@[simp] theorem State.event_locks (s : State) (die src inst v : Nat) : (s.event die src inst v).locks = s.locks := rfl
@[simp] theorem State.event_contexts (s : State) (die src inst v : Nat) : (s.event die src inst v).contexts = s.contexts := rfl
@[simp] theorem State.event_launches (s : State) (die src inst v : Nat) : (s.event die src inst v).launches = s.launches := rfl
@[simp] theorem State.event_launchWaits (s : State) (die src inst v : Nat) : (s.event die src inst v).launchWaits = s.launchWaits := rfl
@[simp] theorem State.event_teams (s : State) (die src inst v : Nat) : (s.event die src inst v).teams = s.teams := rfl
@[simp] theorem State.event_reserves (s : State) (die src inst v : Nat) : (s.event die src inst v).reserves = s.reserves := rfl
@[simp] theorem State.event_thaw (s : State) (die src inst v : Nat) : (s.event die src inst v).thaw = s.thaw := rfl
@[simp] theorem State.event_cmds (s : State) (die src inst v : Nat) : (s.event die src inst v).cmds = s.cmds := rfl
@[simp] theorem State.event_rrots (s : State) (die src inst v : Nat) : (s.event die src inst v).rrots = s.rrots := rfl
@[simp] theorem State.event_rings (s : State) (die src inst v : Nat) : (s.event die src inst v).rings = s.rings := rfl
@[simp] theorem State.event_ringGens (s : State) (die src inst v : Nat) : (s.event die src inst v).ringGens = s.ringGens := rfl
@[simp] theorem State.event_renqs (s : State) (die src inst v : Nat) : (s.event die src inst v).renqs = s.renqs := rfl
@[simp] theorem State.event_held (s : State) (die src inst v : Nat) : (s.event die src inst v).held = s.held := rfl
@[simp] theorem State.event_hostRings (s : State) (die src inst v : Nat) : (s.event die src inst v).hostRings = s.hostRings := rfl
@[simp] theorem State.event_hostSignals (s : State) (die src inst v : Nat) : (s.event die src inst v).hostSignals = s.hostSignals := rfl
@[simp] theorem State.event_sets (s : State) (die src inst v : Nat) : (s.event die src inst v).sets = s.sets := rfl
@[simp] theorem State.event_contribs (s : State) (die src inst v : Nat) : (s.event die src inst v).contribs = s.contribs := rfl
@[simp] theorem State.event_mailbox (s : State) (die src inst v : Nat) : (s.event die src inst v).mailbox = s.mailbox := rfl
@[simp] theorem State.event_qps (s : State) (die src inst v : Nat) : (s.event die src inst v).qps = s.qps := rfl
@[simp] theorem State.event_windows (s : State) (die src inst v : Nat) : (s.event die src inst v).windows = s.windows := rfl
@[simp] theorem State.event_remoteOps (s : State) (die src inst v : Nat) : (s.event die src inst v).remoteOps = s.remoteOps := rfl
@[simp] theorem State.event_pauses (s : State) (die src inst v : Nat) : (s.event die src inst v).pauses = s.pauses := rfl
@[simp] theorem State.event_collChunks (s : State) (die src inst v : Nat) : (s.event die src inst v).collChunks = s.collChunks := rfl
@[simp] theorem State.event_ckpts (s : State) (die src inst v : Nat) : (s.event die src inst v).ckpts = s.ckpts := rfl
@[simp] theorem State.event_outbox (s : State) (die src inst v : Nat) : (s.event die src inst v).outbox = s.outbox := rfl
@[simp] theorem State.event_inputs (s : State) (die src inst v : Nat) : (s.event die src inst v).inputs = s.inputs := rfl
@[simp] theorem State.event_cur (s : State) (die src inst v : Nat) : (s.event die src inst v).cur = s.cur := rfl
@[simp] theorem State.event_retries (s : State) (die src inst v : Nat) : (s.event die src inst v).retries = s.retries := rfl
@[simp] theorem State.event_turn (s : State) (die src inst v : Nat) : (s.event die src inst v).turn = s.turn := rfl
@[simp] theorem State.event_nextId (s : State) (die src inst v : Nat) : (s.event die src inst v).nextId = s.nextId := rfl
@[simp] theorem State.event_freeCtr (s : State) (die src inst v : Nat) : (s.event die src inst v).freeCtr = s.freeCtr := rfl

@[simp] theorem State.setMonitor_clk (s : State) (m : Monitor) : (s.setMonitor m).clk = s.clk := rfl
@[simp] theorem State.setMonitor_boot (s : State) (m : Monitor) : (s.setMonitor m).boot = s.boot := rfl
@[simp] theorem State.setMonitor_dieParts (s : State) (m : Monitor) : (s.setMonitor m).dieParts = s.dieParts := rfl
@[simp] theorem State.setMonitor_removing (s : State) (m : Monitor) : (s.setMonitor m).removing = s.removing := rfl
@[simp] theorem State.setMonitor_mem (s : State) (m : Monitor) : (s.setMonitor m).mem = s.mem := rfl
@[simp] theorem State.setMonitor_dirty (s : State) (m : Monitor) : (s.setMonitor m).dirty = s.dirty := rfl
@[simp] theorem State.setMonitor_l1 (s : State) (m : Monitor) : (s.setMonitor m).l1 = s.l1 := rfl
@[simp] theorem State.setMonitor_icache (s : State) (m : Monitor) : (s.setMonitor m).icache = s.icache := rfl
@[simp] theorem State.setMonitor_tlb (s : State) (m : Monitor) : (s.setMonitor m).tlb = s.tlb := rfl
@[simp] theorem State.setMonitor_ue (s : State) (m : Monitor) : (s.setMonitor m).ue = s.ue := rfl
@[simp] theorem State.setMonitor_ueHome (s : State) (m : Monitor) : (s.setMonitor m).ueHome = s.ueHome := rfl
@[simp] theorem State.setMonitor_icUe (s : State) (m : Monitor) : (s.setMonitor m).icUe = s.icUe := rfl
@[simp] theorem State.setMonitor_poolUe (s : State) (m : Monitor) : (s.setMonitor m).poolUe = s.poolUe := rfl
@[simp] theorem State.setMonitor_frameUe (s : State) (m : Monitor) : (s.setMonitor m).frameUe = s.frameUe := rfl
@[simp] theorem State.setMonitor_locks (s : State) (m : Monitor) : (s.setMonitor m).locks = s.locks := rfl
@[simp] theorem State.setMonitor_contexts (s : State) (m : Monitor) : (s.setMonitor m).contexts = s.contexts := rfl
@[simp] theorem State.setMonitor_launches (s : State) (m : Monitor) : (s.setMonitor m).launches = s.launches := rfl
@[simp] theorem State.setMonitor_launchWaits (s : State) (m : Monitor) : (s.setMonitor m).launchWaits = s.launchWaits := rfl
@[simp] theorem State.setMonitor_teams (s : State) (m : Monitor) : (s.setMonitor m).teams = s.teams := rfl
@[simp] theorem State.setMonitor_reserves (s : State) (m : Monitor) : (s.setMonitor m).reserves = s.reserves := rfl
@[simp] theorem State.setMonitor_thaw (s : State) (m : Monitor) : (s.setMonitor m).thaw = s.thaw := rfl
@[simp] theorem State.setMonitor_cmds (s : State) (m : Monitor) : (s.setMonitor m).cmds = s.cmds := rfl
@[simp] theorem State.setMonitor_rrots (s : State) (m : Monitor) : (s.setMonitor m).rrots = s.rrots := rfl
@[simp] theorem State.setMonitor_rings (s : State) (m : Monitor) : (s.setMonitor m).rings = s.rings := rfl
@[simp] theorem State.setMonitor_ringGens (s : State) (m : Monitor) : (s.setMonitor m).ringGens = s.ringGens := rfl
@[simp] theorem State.setMonitor_renqs (s : State) (m : Monitor) : (s.setMonitor m).renqs = s.renqs := rfl
@[simp] theorem State.setMonitor_held (s : State) (m : Monitor) : (s.setMonitor m).held = s.held := rfl
@[simp] theorem State.setMonitor_hostRings (s : State) (m : Monitor) : (s.setMonitor m).hostRings = s.hostRings := rfl
@[simp] theorem State.setMonitor_hostSignals (s : State) (m : Monitor) : (s.setMonitor m).hostSignals = s.hostSignals := rfl
@[simp] theorem State.setMonitor_sets (s : State) (m : Monitor) : (s.setMonitor m).sets = s.sets := rfl
@[simp] theorem State.setMonitor_contribs (s : State) (m : Monitor) : (s.setMonitor m).contribs = s.contribs := rfl
@[simp] theorem State.setMonitor_mailbox (s : State) (m : Monitor) : (s.setMonitor m).mailbox = s.mailbox := rfl
@[simp] theorem State.setMonitor_qps (s : State) (m : Monitor) : (s.setMonitor m).qps = s.qps := rfl
@[simp] theorem State.setMonitor_windows (s : State) (m : Monitor) : (s.setMonitor m).windows = s.windows := rfl
@[simp] theorem State.setMonitor_remoteOps (s : State) (m : Monitor) : (s.setMonitor m).remoteOps = s.remoteOps := rfl
@[simp] theorem State.setMonitor_pauses (s : State) (m : Monitor) : (s.setMonitor m).pauses = s.pauses := rfl
@[simp] theorem State.setMonitor_collChunks (s : State) (m : Monitor) : (s.setMonitor m).collChunks = s.collChunks := rfl
@[simp] theorem State.setMonitor_ckpts (s : State) (m : Monitor) : (s.setMonitor m).ckpts = s.ckpts := rfl
@[simp] theorem State.setMonitor_outbox (s : State) (m : Monitor) : (s.setMonitor m).outbox = s.outbox := rfl
@[simp] theorem State.setMonitor_inputs (s : State) (m : Monitor) : (s.setMonitor m).inputs = s.inputs := rfl
@[simp] theorem State.setMonitor_cur (s : State) (m : Monitor) : (s.setMonitor m).cur = s.cur := rfl
@[simp] theorem State.setMonitor_retries (s : State) (m : Monitor) : (s.setMonitor m).retries = s.retries := rfl
@[simp] theorem State.setMonitor_turn (s : State) (m : Monitor) : (s.setMonitor m).turn = s.turn := rfl
@[simp] theorem State.setMonitor_nextId (s : State) (m : Monitor) : (s.setMonitor m).nextId = s.nextId := rfl
@[simp] theorem State.setMonitor_freeCtr (s : State) (m : Monitor) : (s.setMonitor m).freeCtr = s.freeCtr := rfl

@[simp] theorem State.unhold_clk (s : State) : s.unhold.clk = s.clk := rfl
@[simp] theorem State.unhold_boot (s : State) : s.unhold.boot = s.boot := rfl
@[simp] theorem State.unhold_dieParts (s : State) : s.unhold.dieParts = s.dieParts := rfl
@[simp] theorem State.unhold_removing (s : State) : s.unhold.removing = s.removing := rfl
@[simp] theorem State.unhold_mem (s : State) : s.unhold.mem = s.mem := rfl
@[simp] theorem State.unhold_dirty (s : State) : s.unhold.dirty = s.dirty := rfl
@[simp] theorem State.unhold_l1 (s : State) : s.unhold.l1 = s.l1 := rfl
@[simp] theorem State.unhold_icache (s : State) : s.unhold.icache = s.icache := rfl
@[simp] theorem State.unhold_tlb (s : State) : s.unhold.tlb = s.tlb := rfl
@[simp] theorem State.unhold_ue (s : State) : s.unhold.ue = s.ue := rfl
@[simp] theorem State.unhold_ueHome (s : State) : s.unhold.ueHome = s.ueHome := rfl
@[simp] theorem State.unhold_icUe (s : State) : s.unhold.icUe = s.icUe := rfl
@[simp] theorem State.unhold_poolUe (s : State) : s.unhold.poolUe = s.poolUe := rfl
@[simp] theorem State.unhold_frameUe (s : State) : s.unhold.frameUe = s.frameUe := rfl
@[simp] theorem State.unhold_locks (s : State) : s.unhold.locks = s.locks := rfl
@[simp] theorem State.unhold_contexts (s : State) : s.unhold.contexts = s.contexts := rfl
@[simp] theorem State.unhold_launches (s : State) : s.unhold.launches = s.launches := rfl
@[simp] theorem State.unhold_launchWaits (s : State) : s.unhold.launchWaits = s.launchWaits := rfl
@[simp] theorem State.unhold_reserves (s : State) : s.unhold.reserves = s.reserves := rfl
@[simp] theorem State.unhold_thaw (s : State) : s.unhold.thaw = s.thaw := rfl
@[simp] theorem State.unhold_cmds (s : State) : s.unhold.cmds = s.cmds := rfl
@[simp] theorem State.unhold_rrots (s : State) : s.unhold.rrots = s.rrots := rfl
@[simp] theorem State.unhold_rings (s : State) : s.unhold.rings = s.rings := rfl
@[simp] theorem State.unhold_ringGens (s : State) : s.unhold.ringGens = s.ringGens := rfl
@[simp] theorem State.unhold_renqs (s : State) : s.unhold.renqs = s.renqs := rfl
@[simp] theorem State.unhold_held (s : State) : s.unhold.held = s.held := rfl
@[simp] theorem State.unhold_hostRings (s : State) : s.unhold.hostRings = s.hostRings := rfl
@[simp] theorem State.unhold_hostSignals (s : State) : s.unhold.hostSignals = s.hostSignals := rfl
@[simp] theorem State.unhold_sets (s : State) : s.unhold.sets = s.sets := rfl
@[simp] theorem State.unhold_contribs (s : State) : s.unhold.contribs = s.contribs := rfl
@[simp] theorem State.unhold_monitors (s : State) : s.unhold.monitors = s.monitors := rfl
@[simp] theorem State.unhold_mailbox (s : State) : s.unhold.mailbox = s.mailbox := rfl
@[simp] theorem State.unhold_qps (s : State) : s.unhold.qps = s.qps := rfl
@[simp] theorem State.unhold_windows (s : State) : s.unhold.windows = s.windows := rfl
@[simp] theorem State.unhold_remoteOps (s : State) : s.unhold.remoteOps = s.remoteOps := rfl
@[simp] theorem State.unhold_pauses (s : State) : s.unhold.pauses = s.pauses := rfl
@[simp] theorem State.unhold_collChunks (s : State) : s.unhold.collChunks = s.collChunks := rfl
@[simp] theorem State.unhold_ckpts (s : State) : s.unhold.ckpts = s.ckpts := rfl
@[simp] theorem State.unhold_outbox (s : State) : s.unhold.outbox = s.outbox := rfl
@[simp] theorem State.unhold_inputs (s : State) : s.unhold.inputs = s.inputs := rfl
@[simp] theorem State.unhold_cur (s : State) : s.unhold.cur = s.cur := rfl
@[simp] theorem State.unhold_retries (s : State) : s.unhold.retries = s.retries := rfl
@[simp] theorem State.unhold_turn (s : State) : s.unhold.turn = s.turn := rfl
@[simp] theorem State.unhold_nextId (s : State) : s.unhold.nextId = s.nextId := rfl
@[simp] theorem State.unhold_freeCtr (s : State) : s.unhold.freeCtr = s.freeCtr := rfl

@[simp] theorem State.ask_clk (s : State) : s.ask.2.clk = s.clk := rfl
@[simp] theorem State.ask_boot (s : State) : s.ask.2.boot = s.boot := rfl
@[simp] theorem State.ask_dieParts (s : State) : s.ask.2.dieParts = s.dieParts := rfl
@[simp] theorem State.ask_removing (s : State) : s.ask.2.removing = s.removing := rfl
@[simp] theorem State.ask_mem (s : State) : s.ask.2.mem = s.mem := rfl
@[simp] theorem State.ask_dirty (s : State) : s.ask.2.dirty = s.dirty := rfl
@[simp] theorem State.ask_l1 (s : State) : s.ask.2.l1 = s.l1 := rfl
@[simp] theorem State.ask_icache (s : State) : s.ask.2.icache = s.icache := rfl
@[simp] theorem State.ask_tlb (s : State) : s.ask.2.tlb = s.tlb := rfl
@[simp] theorem State.ask_ue (s : State) : s.ask.2.ue = s.ue := rfl
@[simp] theorem State.ask_ueHome (s : State) : s.ask.2.ueHome = s.ueHome := rfl
@[simp] theorem State.ask_icUe (s : State) : s.ask.2.icUe = s.icUe := rfl
@[simp] theorem State.ask_poolUe (s : State) : s.ask.2.poolUe = s.poolUe := rfl
@[simp] theorem State.ask_frameUe (s : State) : s.ask.2.frameUe = s.frameUe := rfl
@[simp] theorem State.ask_locks (s : State) : s.ask.2.locks = s.locks := rfl
@[simp] theorem State.ask_contexts (s : State) : s.ask.2.contexts = s.contexts := rfl
@[simp] theorem State.ask_launches (s : State) : s.ask.2.launches = s.launches := rfl
@[simp] theorem State.ask_launchWaits (s : State) : s.ask.2.launchWaits = s.launchWaits := rfl
@[simp] theorem State.ask_teams (s : State) : s.ask.2.teams = s.teams := rfl
@[simp] theorem State.ask_reserves (s : State) : s.ask.2.reserves = s.reserves := rfl
@[simp] theorem State.ask_thaw (s : State) : s.ask.2.thaw = s.thaw := rfl
@[simp] theorem State.ask_cmds (s : State) : s.ask.2.cmds = s.cmds := rfl
@[simp] theorem State.ask_rrots (s : State) : s.ask.2.rrots = s.rrots := rfl
@[simp] theorem State.ask_rings (s : State) : s.ask.2.rings = s.rings := rfl
@[simp] theorem State.ask_ringGens (s : State) : s.ask.2.ringGens = s.ringGens := rfl
@[simp] theorem State.ask_renqs (s : State) : s.ask.2.renqs = s.renqs := rfl
@[simp] theorem State.ask_held (s : State) : s.ask.2.held = s.held := rfl
@[simp] theorem State.ask_hostRings (s : State) : s.ask.2.hostRings = s.hostRings := rfl
@[simp] theorem State.ask_hostSignals (s : State) : s.ask.2.hostSignals = s.hostSignals := rfl
@[simp] theorem State.ask_sets (s : State) : s.ask.2.sets = s.sets := rfl
@[simp] theorem State.ask_contribs (s : State) : s.ask.2.contribs = s.contribs := rfl
@[simp] theorem State.ask_monitors (s : State) : s.ask.2.monitors = s.monitors := rfl
@[simp] theorem State.ask_mailbox (s : State) : s.ask.2.mailbox = s.mailbox := rfl
@[simp] theorem State.ask_qps (s : State) : s.ask.2.qps = s.qps := rfl
@[simp] theorem State.ask_windows (s : State) : s.ask.2.windows = s.windows := rfl
@[simp] theorem State.ask_remoteOps (s : State) : s.ask.2.remoteOps = s.remoteOps := rfl
@[simp] theorem State.ask_pauses (s : State) : s.ask.2.pauses = s.pauses := rfl
@[simp] theorem State.ask_collChunks (s : State) : s.ask.2.collChunks = s.collChunks := rfl
@[simp] theorem State.ask_ckpts (s : State) : s.ask.2.ckpts = s.ckpts := rfl
@[simp] theorem State.ask_outbox (s : State) : s.ask.2.outbox = s.outbox := rfl
@[simp] theorem State.ask_inputs (s : State) : s.ask.2.inputs = s.inputs := rfl
@[simp] theorem State.ask_cur (s : State) : s.ask.2.cur = s.cur := rfl
@[simp] theorem State.ask_retries (s : State) : s.ask.2.retries = s.retries := rfl
@[simp] theorem State.ask_turn (s : State) : s.ask.2.turn = s.turn := rfl
@[simp] theorem State.ask_nextId (s : State) : s.ask.2.nextId = s.nextId := rfl

@[simp] theorem State.fresh_clk (s : State) : s.fresh.2.clk = s.clk := rfl
@[simp] theorem State.fresh_boot (s : State) : s.fresh.2.boot = s.boot := rfl
@[simp] theorem State.fresh_dieParts (s : State) : s.fresh.2.dieParts = s.dieParts := rfl
@[simp] theorem State.fresh_removing (s : State) : s.fresh.2.removing = s.removing := rfl
@[simp] theorem State.fresh_mem (s : State) : s.fresh.2.mem = s.mem := rfl
@[simp] theorem State.fresh_dirty (s : State) : s.fresh.2.dirty = s.dirty := rfl
@[simp] theorem State.fresh_l1 (s : State) : s.fresh.2.l1 = s.l1 := rfl
@[simp] theorem State.fresh_icache (s : State) : s.fresh.2.icache = s.icache := rfl
@[simp] theorem State.fresh_tlb (s : State) : s.fresh.2.tlb = s.tlb := rfl
@[simp] theorem State.fresh_ue (s : State) : s.fresh.2.ue = s.ue := rfl
@[simp] theorem State.fresh_ueHome (s : State) : s.fresh.2.ueHome = s.ueHome := rfl
@[simp] theorem State.fresh_icUe (s : State) : s.fresh.2.icUe = s.icUe := rfl
@[simp] theorem State.fresh_poolUe (s : State) : s.fresh.2.poolUe = s.poolUe := rfl
@[simp] theorem State.fresh_frameUe (s : State) : s.fresh.2.frameUe = s.frameUe := rfl
@[simp] theorem State.fresh_locks (s : State) : s.fresh.2.locks = s.locks := rfl
@[simp] theorem State.fresh_contexts (s : State) : s.fresh.2.contexts = s.contexts := rfl
@[simp] theorem State.fresh_launches (s : State) : s.fresh.2.launches = s.launches := rfl
@[simp] theorem State.fresh_launchWaits (s : State) : s.fresh.2.launchWaits = s.launchWaits := rfl
@[simp] theorem State.fresh_teams (s : State) : s.fresh.2.teams = s.teams := rfl
@[simp] theorem State.fresh_reserves (s : State) : s.fresh.2.reserves = s.reserves := rfl
@[simp] theorem State.fresh_thaw (s : State) : s.fresh.2.thaw = s.thaw := rfl
@[simp] theorem State.fresh_cmds (s : State) : s.fresh.2.cmds = s.cmds := rfl
@[simp] theorem State.fresh_rrots (s : State) : s.fresh.2.rrots = s.rrots := rfl
@[simp] theorem State.fresh_rings (s : State) : s.fresh.2.rings = s.rings := rfl
@[simp] theorem State.fresh_ringGens (s : State) : s.fresh.2.ringGens = s.ringGens := rfl
@[simp] theorem State.fresh_renqs (s : State) : s.fresh.2.renqs = s.renqs := rfl
@[simp] theorem State.fresh_held (s : State) : s.fresh.2.held = s.held := rfl
@[simp] theorem State.fresh_hostRings (s : State) : s.fresh.2.hostRings = s.hostRings := rfl
@[simp] theorem State.fresh_hostSignals (s : State) : s.fresh.2.hostSignals = s.hostSignals := rfl
@[simp] theorem State.fresh_sets (s : State) : s.fresh.2.sets = s.sets := rfl
@[simp] theorem State.fresh_contribs (s : State) : s.fresh.2.contribs = s.contribs := rfl
@[simp] theorem State.fresh_monitors (s : State) : s.fresh.2.monitors = s.monitors := rfl
@[simp] theorem State.fresh_mailbox (s : State) : s.fresh.2.mailbox = s.mailbox := rfl
@[simp] theorem State.fresh_qps (s : State) : s.fresh.2.qps = s.qps := rfl
@[simp] theorem State.fresh_windows (s : State) : s.fresh.2.windows = s.windows := rfl
@[simp] theorem State.fresh_remoteOps (s : State) : s.fresh.2.remoteOps = s.remoteOps := rfl
@[simp] theorem State.fresh_pauses (s : State) : s.fresh.2.pauses = s.pauses := rfl
@[simp] theorem State.fresh_collChunks (s : State) : s.fresh.2.collChunks = s.collChunks := rfl
@[simp] theorem State.fresh_ckpts (s : State) : s.fresh.2.ckpts = s.ckpts := rfl
@[simp] theorem State.fresh_outbox (s : State) : s.fresh.2.outbox = s.outbox := rfl
@[simp] theorem State.fresh_inputs (s : State) : s.fresh.2.inputs = s.inputs := rfl
@[simp] theorem State.fresh_cur (s : State) : s.fresh.2.cur = s.cur := rfl
@[simp] theorem State.fresh_retries (s : State) : s.fresh.2.retries = s.retries := rfl
@[simp] theorem State.fresh_turn (s : State) : s.fresh.2.turn = s.turn := rfl
@[simp] theorem State.fresh_freeCtr (s : State) : s.fresh.2.freeCtr = s.freeCtr := rfl

@[simp] theorem State.setCur_clk (s : State) (c : Cur) : (s.setCur c).clk = s.clk := rfl
@[simp] theorem State.setCur_boot (s : State) (c : Cur) : (s.setCur c).boot = s.boot := rfl
@[simp] theorem State.setCur_dieParts (s : State) (c : Cur) : (s.setCur c).dieParts = s.dieParts := rfl
@[simp] theorem State.setCur_removing (s : State) (c : Cur) : (s.setCur c).removing = s.removing := rfl
@[simp] theorem State.setCur_mem (s : State) (c : Cur) : (s.setCur c).mem = s.mem := rfl
@[simp] theorem State.setCur_dirty (s : State) (c : Cur) : (s.setCur c).dirty = s.dirty := rfl
@[simp] theorem State.setCur_l1 (s : State) (c : Cur) : (s.setCur c).l1 = s.l1 := rfl
@[simp] theorem State.setCur_icache (s : State) (c : Cur) : (s.setCur c).icache = s.icache := rfl
@[simp] theorem State.setCur_tlb (s : State) (c : Cur) : (s.setCur c).tlb = s.tlb := rfl
@[simp] theorem State.setCur_ue (s : State) (c : Cur) : (s.setCur c).ue = s.ue := rfl
@[simp] theorem State.setCur_ueHome (s : State) (c : Cur) : (s.setCur c).ueHome = s.ueHome := rfl
@[simp] theorem State.setCur_icUe (s : State) (c : Cur) : (s.setCur c).icUe = s.icUe := rfl
@[simp] theorem State.setCur_poolUe (s : State) (c : Cur) : (s.setCur c).poolUe = s.poolUe := rfl
@[simp] theorem State.setCur_frameUe (s : State) (c : Cur) : (s.setCur c).frameUe = s.frameUe := rfl
@[simp] theorem State.setCur_locks (s : State) (c : Cur) : (s.setCur c).locks = s.locks := rfl
@[simp] theorem State.setCur_contexts (s : State) (c : Cur) : (s.setCur c).contexts = s.contexts := rfl
@[simp] theorem State.setCur_launches (s : State) (c : Cur) : (s.setCur c).launches = s.launches := rfl
@[simp] theorem State.setCur_launchWaits (s : State) (c : Cur) : (s.setCur c).launchWaits = s.launchWaits := rfl
@[simp] theorem State.setCur_teams (s : State) (c : Cur) : (s.setCur c).teams = s.teams := rfl
@[simp] theorem State.setCur_reserves (s : State) (c : Cur) : (s.setCur c).reserves = s.reserves := rfl
@[simp] theorem State.setCur_thaw (s : State) (c : Cur) : (s.setCur c).thaw = s.thaw := rfl
@[simp] theorem State.setCur_cmds (s : State) (c : Cur) : (s.setCur c).cmds = s.cmds := rfl
@[simp] theorem State.setCur_rrots (s : State) (c : Cur) : (s.setCur c).rrots = s.rrots := rfl
@[simp] theorem State.setCur_rings (s : State) (c : Cur) : (s.setCur c).rings = s.rings := rfl
@[simp] theorem State.setCur_ringGens (s : State) (c : Cur) : (s.setCur c).ringGens = s.ringGens := rfl
@[simp] theorem State.setCur_renqs (s : State) (c : Cur) : (s.setCur c).renqs = s.renqs := rfl
@[simp] theorem State.setCur_held (s : State) (c : Cur) : (s.setCur c).held = s.held := rfl
@[simp] theorem State.setCur_hostRings (s : State) (c : Cur) : (s.setCur c).hostRings = s.hostRings := rfl
@[simp] theorem State.setCur_hostSignals (s : State) (c : Cur) : (s.setCur c).hostSignals = s.hostSignals := rfl
@[simp] theorem State.setCur_sets (s : State) (c : Cur) : (s.setCur c).sets = s.sets := rfl
@[simp] theorem State.setCur_contribs (s : State) (c : Cur) : (s.setCur c).contribs = s.contribs := rfl
@[simp] theorem State.setCur_monitors (s : State) (c : Cur) : (s.setCur c).monitors = s.monitors := rfl
@[simp] theorem State.setCur_mailbox (s : State) (c : Cur) : (s.setCur c).mailbox = s.mailbox := rfl
@[simp] theorem State.setCur_qps (s : State) (c : Cur) : (s.setCur c).qps = s.qps := rfl
@[simp] theorem State.setCur_windows (s : State) (c : Cur) : (s.setCur c).windows = s.windows := rfl
@[simp] theorem State.setCur_remoteOps (s : State) (c : Cur) : (s.setCur c).remoteOps = s.remoteOps := rfl
@[simp] theorem State.setCur_pauses (s : State) (c : Cur) : (s.setCur c).pauses = s.pauses := rfl
@[simp] theorem State.setCur_collChunks (s : State) (c : Cur) : (s.setCur c).collChunks = s.collChunks := rfl
@[simp] theorem State.setCur_ckpts (s : State) (c : Cur) : (s.setCur c).ckpts = s.ckpts := rfl
@[simp] theorem State.setCur_outbox (s : State) (c : Cur) : (s.setCur c).outbox = s.outbox := rfl
@[simp] theorem State.setCur_inputs (s : State) (c : Cur) : (s.setCur c).inputs = s.inputs := rfl
@[simp] theorem State.setCur_retries (s : State) (c : Cur) : (s.setCur c).retries = s.retries := rfl
@[simp] theorem State.setCur_turn (s : State) (c : Cur) : (s.setCur c).turn = s.turn := rfl
@[simp] theorem State.setCur_nextId (s : State) (c : Cur) : (s.setCur c).nextId = s.nextId := rfl
@[simp] theorem State.setCur_freeCtr (s : State) (c : Cur) : (s.setCur c).freeCtr = s.freeCtr := rfl

@[simp] theorem State.unmarkFrame_clk (s : State) (x : Option (Nat × Nat)) : (s.unmarkFrame x).clk = s.clk := rfl
@[simp] theorem State.unmarkFrame_boot (s : State) (x : Option (Nat × Nat)) : (s.unmarkFrame x).boot = s.boot := rfl
@[simp] theorem State.unmarkFrame_dieParts (s : State) (x : Option (Nat × Nat)) : (s.unmarkFrame x).dieParts = s.dieParts := rfl
@[simp] theorem State.unmarkFrame_removing (s : State) (x : Option (Nat × Nat)) : (s.unmarkFrame x).removing = s.removing := rfl
@[simp] theorem State.unmarkFrame_mem (s : State) (x : Option (Nat × Nat)) : (s.unmarkFrame x).mem = s.mem := rfl
@[simp] theorem State.unmarkFrame_dirty (s : State) (x : Option (Nat × Nat)) : (s.unmarkFrame x).dirty = s.dirty := rfl
@[simp] theorem State.unmarkFrame_l1 (s : State) (x : Option (Nat × Nat)) : (s.unmarkFrame x).l1 = s.l1 := rfl
@[simp] theorem State.unmarkFrame_icache (s : State) (x : Option (Nat × Nat)) : (s.unmarkFrame x).icache = s.icache := rfl
@[simp] theorem State.unmarkFrame_tlb (s : State) (x : Option (Nat × Nat)) : (s.unmarkFrame x).tlb = s.tlb := rfl
@[simp] theorem State.unmarkFrame_ue (s : State) (x : Option (Nat × Nat)) : (s.unmarkFrame x).ue = s.ue := rfl
@[simp] theorem State.unmarkFrame_ueHome (s : State) (x : Option (Nat × Nat)) : (s.unmarkFrame x).ueHome = s.ueHome := rfl
@[simp] theorem State.unmarkFrame_icUe (s : State) (x : Option (Nat × Nat)) : (s.unmarkFrame x).icUe = s.icUe := rfl
@[simp] theorem State.unmarkFrame_poolUe (s : State) (x : Option (Nat × Nat)) : (s.unmarkFrame x).poolUe = s.poolUe := rfl
@[simp] theorem State.unmarkFrame_locks (s : State) (x : Option (Nat × Nat)) : (s.unmarkFrame x).locks = s.locks := rfl
@[simp] theorem State.unmarkFrame_contexts (s : State) (x : Option (Nat × Nat)) : (s.unmarkFrame x).contexts = s.contexts := rfl
@[simp] theorem State.unmarkFrame_launches (s : State) (x : Option (Nat × Nat)) : (s.unmarkFrame x).launches = s.launches := rfl
@[simp] theorem State.unmarkFrame_launchWaits (s : State) (x : Option (Nat × Nat)) : (s.unmarkFrame x).launchWaits = s.launchWaits := rfl
@[simp] theorem State.unmarkFrame_teams (s : State) (x : Option (Nat × Nat)) : (s.unmarkFrame x).teams = s.teams := rfl
@[simp] theorem State.unmarkFrame_reserves (s : State) (x : Option (Nat × Nat)) : (s.unmarkFrame x).reserves = s.reserves := rfl
@[simp] theorem State.unmarkFrame_thaw (s : State) (x : Option (Nat × Nat)) : (s.unmarkFrame x).thaw = s.thaw := rfl
@[simp] theorem State.unmarkFrame_cmds (s : State) (x : Option (Nat × Nat)) : (s.unmarkFrame x).cmds = s.cmds := rfl
@[simp] theorem State.unmarkFrame_rrots (s : State) (x : Option (Nat × Nat)) : (s.unmarkFrame x).rrots = s.rrots := rfl
@[simp] theorem State.unmarkFrame_rings (s : State) (x : Option (Nat × Nat)) : (s.unmarkFrame x).rings = s.rings := rfl
@[simp] theorem State.unmarkFrame_ringGens (s : State) (x : Option (Nat × Nat)) : (s.unmarkFrame x).ringGens = s.ringGens := rfl
@[simp] theorem State.unmarkFrame_renqs (s : State) (x : Option (Nat × Nat)) : (s.unmarkFrame x).renqs = s.renqs := rfl
@[simp] theorem State.unmarkFrame_held (s : State) (x : Option (Nat × Nat)) : (s.unmarkFrame x).held = s.held := rfl
@[simp] theorem State.unmarkFrame_hostRings (s : State) (x : Option (Nat × Nat)) : (s.unmarkFrame x).hostRings = s.hostRings := rfl
@[simp] theorem State.unmarkFrame_hostSignals (s : State) (x : Option (Nat × Nat)) : (s.unmarkFrame x).hostSignals = s.hostSignals := rfl
@[simp] theorem State.unmarkFrame_sets (s : State) (x : Option (Nat × Nat)) : (s.unmarkFrame x).sets = s.sets := rfl
@[simp] theorem State.unmarkFrame_contribs (s : State) (x : Option (Nat × Nat)) : (s.unmarkFrame x).contribs = s.contribs := rfl
@[simp] theorem State.unmarkFrame_monitors (s : State) (x : Option (Nat × Nat)) : (s.unmarkFrame x).monitors = s.monitors := rfl
@[simp] theorem State.unmarkFrame_mailbox (s : State) (x : Option (Nat × Nat)) : (s.unmarkFrame x).mailbox = s.mailbox := rfl
@[simp] theorem State.unmarkFrame_qps (s : State) (x : Option (Nat × Nat)) : (s.unmarkFrame x).qps = s.qps := rfl
@[simp] theorem State.unmarkFrame_windows (s : State) (x : Option (Nat × Nat)) : (s.unmarkFrame x).windows = s.windows := rfl
@[simp] theorem State.unmarkFrame_remoteOps (s : State) (x : Option (Nat × Nat)) : (s.unmarkFrame x).remoteOps = s.remoteOps := rfl
@[simp] theorem State.unmarkFrame_pauses (s : State) (x : Option (Nat × Nat)) : (s.unmarkFrame x).pauses = s.pauses := rfl
@[simp] theorem State.unmarkFrame_collChunks (s : State) (x : Option (Nat × Nat)) : (s.unmarkFrame x).collChunks = s.collChunks := rfl
@[simp] theorem State.unmarkFrame_ckpts (s : State) (x : Option (Nat × Nat)) : (s.unmarkFrame x).ckpts = s.ckpts := rfl
@[simp] theorem State.unmarkFrame_outbox (s : State) (x : Option (Nat × Nat)) : (s.unmarkFrame x).outbox = s.outbox := rfl
@[simp] theorem State.unmarkFrame_inputs (s : State) (x : Option (Nat × Nat)) : (s.unmarkFrame x).inputs = s.inputs := rfl
@[simp] theorem State.unmarkFrame_cur (s : State) (x : Option (Nat × Nat)) : (s.unmarkFrame x).cur = s.cur := rfl
@[simp] theorem State.unmarkFrame_retries (s : State) (x : Option (Nat × Nat)) : (s.unmarkFrame x).retries = s.retries := rfl
@[simp] theorem State.unmarkFrame_turn (s : State) (x : Option (Nat × Nat)) : (s.unmarkFrame x).turn = s.turn := rfl
@[simp] theorem State.unmarkFrame_nextId (s : State) (x : Option (Nat × Nat)) : (s.unmarkFrame x).nextId = s.nextId := rfl
@[simp] theorem State.unmarkFrame_freeCtr (s : State) (x : Option (Nat × Nat)) : (s.unmarkFrame x).freeCtr = s.freeCtr := rfl

@[simp] theorem State.putPred_clk (s : State) (t : Tid) (p : BitVec 3) (b : Bool) : (s.putPred t p b).clk = s.clk := rfl
@[simp] theorem State.putPred_boot (s : State) (t : Tid) (p : BitVec 3) (b : Bool) : (s.putPred t p b).boot = s.boot := rfl
@[simp] theorem State.putPred_dieParts (s : State) (t : Tid) (p : BitVec 3) (b : Bool) : (s.putPred t p b).dieParts = s.dieParts := rfl
@[simp] theorem State.putPred_removing (s : State) (t : Tid) (p : BitVec 3) (b : Bool) : (s.putPred t p b).removing = s.removing := rfl
@[simp] theorem State.putPred_mem (s : State) (t : Tid) (p : BitVec 3) (b : Bool) : (s.putPred t p b).mem = s.mem := rfl
@[simp] theorem State.putPred_dirty (s : State) (t : Tid) (p : BitVec 3) (b : Bool) : (s.putPred t p b).dirty = s.dirty := rfl
@[simp] theorem State.putPred_l1 (s : State) (t : Tid) (p : BitVec 3) (b : Bool) : (s.putPred t p b).l1 = s.l1 := rfl
@[simp] theorem State.putPred_icache (s : State) (t : Tid) (p : BitVec 3) (b : Bool) : (s.putPred t p b).icache = s.icache := rfl
@[simp] theorem State.putPred_tlb (s : State) (t : Tid) (p : BitVec 3) (b : Bool) : (s.putPred t p b).tlb = s.tlb := rfl
@[simp] theorem State.putPred_ue (s : State) (t : Tid) (p : BitVec 3) (b : Bool) : (s.putPred t p b).ue = s.ue := rfl
@[simp] theorem State.putPred_ueHome (s : State) (t : Tid) (p : BitVec 3) (b : Bool) : (s.putPred t p b).ueHome = s.ueHome := rfl
@[simp] theorem State.putPred_icUe (s : State) (t : Tid) (p : BitVec 3) (b : Bool) : (s.putPred t p b).icUe = s.icUe := rfl
@[simp] theorem State.putPred_poolUe (s : State) (t : Tid) (p : BitVec 3) (b : Bool) : (s.putPred t p b).poolUe = s.poolUe := rfl
@[simp] theorem State.putPred_frameUe (s : State) (t : Tid) (p : BitVec 3) (b : Bool) : (s.putPred t p b).frameUe = s.frameUe := rfl
@[simp] theorem State.putPred_locks (s : State) (t : Tid) (p : BitVec 3) (b : Bool) : (s.putPred t p b).locks = s.locks := rfl
@[simp] theorem State.putPred_contexts (s : State) (t : Tid) (p : BitVec 3) (b : Bool) : (s.putPred t p b).contexts = s.contexts := rfl
@[simp] theorem State.putPred_launches (s : State) (t : Tid) (p : BitVec 3) (b : Bool) : (s.putPred t p b).launches = s.launches := rfl
@[simp] theorem State.putPred_launchWaits (s : State) (t : Tid) (p : BitVec 3) (b : Bool) : (s.putPred t p b).launchWaits = s.launchWaits := rfl
@[simp] theorem State.putPred_reserves (s : State) (t : Tid) (p : BitVec 3) (b : Bool) : (s.putPred t p b).reserves = s.reserves := rfl
@[simp] theorem State.putPred_thaw (s : State) (t : Tid) (p : BitVec 3) (b : Bool) : (s.putPred t p b).thaw = s.thaw := rfl
@[simp] theorem State.putPred_cmds (s : State) (t : Tid) (p : BitVec 3) (b : Bool) : (s.putPred t p b).cmds = s.cmds := rfl
@[simp] theorem State.putPred_rrots (s : State) (t : Tid) (p : BitVec 3) (b : Bool) : (s.putPred t p b).rrots = s.rrots := rfl
@[simp] theorem State.putPred_rings (s : State) (t : Tid) (p : BitVec 3) (b : Bool) : (s.putPred t p b).rings = s.rings := rfl
@[simp] theorem State.putPred_ringGens (s : State) (t : Tid) (p : BitVec 3) (b : Bool) : (s.putPred t p b).ringGens = s.ringGens := rfl
@[simp] theorem State.putPred_renqs (s : State) (t : Tid) (p : BitVec 3) (b : Bool) : (s.putPred t p b).renqs = s.renqs := rfl
@[simp] theorem State.putPred_held (s : State) (t : Tid) (p : BitVec 3) (b : Bool) : (s.putPred t p b).held = s.held := rfl
@[simp] theorem State.putPred_hostRings (s : State) (t : Tid) (p : BitVec 3) (b : Bool) : (s.putPred t p b).hostRings = s.hostRings := rfl
@[simp] theorem State.putPred_hostSignals (s : State) (t : Tid) (p : BitVec 3) (b : Bool) : (s.putPred t p b).hostSignals = s.hostSignals := rfl
@[simp] theorem State.putPred_sets (s : State) (t : Tid) (p : BitVec 3) (b : Bool) : (s.putPred t p b).sets = s.sets := rfl
@[simp] theorem State.putPred_contribs (s : State) (t : Tid) (p : BitVec 3) (b : Bool) : (s.putPred t p b).contribs = s.contribs := rfl
@[simp] theorem State.putPred_monitors (s : State) (t : Tid) (p : BitVec 3) (b : Bool) : (s.putPred t p b).monitors = s.monitors := rfl
@[simp] theorem State.putPred_mailbox (s : State) (t : Tid) (p : BitVec 3) (b : Bool) : (s.putPred t p b).mailbox = s.mailbox := rfl
@[simp] theorem State.putPred_qps (s : State) (t : Tid) (p : BitVec 3) (b : Bool) : (s.putPred t p b).qps = s.qps := rfl
@[simp] theorem State.putPred_windows (s : State) (t : Tid) (p : BitVec 3) (b : Bool) : (s.putPred t p b).windows = s.windows := rfl
@[simp] theorem State.putPred_remoteOps (s : State) (t : Tid) (p : BitVec 3) (b : Bool) : (s.putPred t p b).remoteOps = s.remoteOps := rfl
@[simp] theorem State.putPred_pauses (s : State) (t : Tid) (p : BitVec 3) (b : Bool) : (s.putPred t p b).pauses = s.pauses := rfl
@[simp] theorem State.putPred_collChunks (s : State) (t : Tid) (p : BitVec 3) (b : Bool) : (s.putPred t p b).collChunks = s.collChunks := rfl
@[simp] theorem State.putPred_ckpts (s : State) (t : Tid) (p : BitVec 3) (b : Bool) : (s.putPred t p b).ckpts = s.ckpts := rfl
@[simp] theorem State.putPred_outbox (s : State) (t : Tid) (p : BitVec 3) (b : Bool) : (s.putPred t p b).outbox = s.outbox := rfl
@[simp] theorem State.putPred_inputs (s : State) (t : Tid) (p : BitVec 3) (b : Bool) : (s.putPred t p b).inputs = s.inputs := rfl
@[simp] theorem State.putPred_cur (s : State) (t : Tid) (p : BitVec 3) (b : Bool) : (s.putPred t p b).cur = s.cur := rfl
@[simp] theorem State.putPred_retries (s : State) (t : Tid) (p : BitVec 3) (b : Bool) : (s.putPred t p b).retries = s.retries := rfl
@[simp] theorem State.putPred_turn (s : State) (t : Tid) (p : BitVec 3) (b : Bool) : (s.putPred t p b).turn = s.turn := rfl
@[simp] theorem State.putPred_nextId (s : State) (t : Tid) (p : BitVec 3) (b : Bool) : (s.putPred t p b).nextId = s.nextId := rfl
@[simp] theorem State.putPred_freeCtr (s : State) (t : Tid) (p : BitVec 3) (b : Bool) : (s.putPred t p b).freeCtr = s.freeCtr := rfl

end Sys2Proof.Machine
end

