-- ==== Sys2Proof/Laws/Word.lean ====
section
/-! SUPPORT. The course of a word that no lane traps or waits in: what issue leaves alone, and the word's effect on its active lanes. -/

namespace Sys2Proof.Machine

/-- Decode traps that no lane takes leave every lane and the state. -/
theorem State.decodeTraps_none (k : Checks) (s : State) (ts : List Tid) (h : ∀ t ∈ ts, s.untrapped k t = true) :
    s.decodeTraps k ts = (ts, s) := by
  induction ts with
  | nil => rfl
  | cons t ts ih =>
    have ht := h t (List.mem_cons_self ..)
    have ih := ih fun u hu => h u (List.mem_cons_of_mem _ hu)
    unfold State.untrapped at ht
    unfold State.decodeTraps
    split at ht
    · rename_i th tm g h1 h2 h3
      simp only [h1, h2, h3]
      rw [of_decide_eq_true ht, ih]
    · cases ht

/-- Operand conditions that every lane meets leave every lane and the state. -/
theorem State.letIn_go (s : State) (ops : List Opd) (joint : Bool) (ts : List Tid) (h : ∀ t ∈ ts, s.meet t ops = .go) :
    s.letIn ops joint ts = (ts, s) := by
  induction ts with
  | nil => rfl
  | cons t ts ih =>
    unfold State.letIn
    rw [h t (List.mem_cons_self ..), ih fun u hu => h u (List.mem_cons_of_mem _ hu)]

/-- Lanes without long results wait for none. -/
theorem State.afterLongs_none (s : State) (ts : List Tid) (h : ∀ t ∈ ts, s.threadIs t (fun th => !th.longs.isEmpty) = false) :
    s.afterLongs ts = (ts, s) := by
  induction ts with
  | nil => rfl
  | cons t ts ih =>
    unfold State.afterLongs
    rw [h t (List.mem_cons_self ..), ih fun u hu => h u (List.mem_cons_of_mem _ hu)]
    rfl

/-- So they do for a word that traps as a whole, or waits for long results that there are not. -/
theorem State.letAll_go (s : State) (k : Checks) (joint : Bool) (ts : List Tid) (h : ∀ t ∈ ts, s.meet t k.ops = .go)
    (hl : k.longs = true → ∀ t ∈ ts, s.threadIs t (fun th => !th.longs.isEmpty) = false) :
    s.letAll k joint ts = (ts, s) := by
  have hf : (if k.whole = true then s.firstTrap k.ops ts else none) = none := by
    split
    · unfold State.firstTrap
      rw [List.findSome?_eq_none_iff]
      intro t ht
      rw [h t ht]
    · rfl
  unfold State.letAll
  rw [hf]
  by_cases hk : k.longs = true
  · simp only [hk, if_true, s.afterLongs_none ts (hl hk)]
    exact s.letIn_go k.ops joint ts h
  · simp only [hk]
    exact s.letIn_go k.ops joint ts h

/-- What `clear` says. -/
theorem State.clear_iff (s : State) (c : Cur) (h : Hdr) (k : Checks) :
    s.clear c h k = true ↔
      s.cur = some c ∧ c.retry = false ∧ c.popped = [] ∧ c.ok = true ∧ h.pg ≠ 8 ∧ (s.entered c h k.ops).someParked (s.actives c h) = false ∧
      ∀ t ∈ s.actives c h, (s.begun c h).untrapped k t = true ∧ (s.entered c h k.ops).meet t k.ops = .go ∧
        (k.longs && (s.entered c h k.ops).threadIs t fun th => !th.longs.isEmpty) = false := by
  simp only [State.clear, Bool.and_eq_true, decide_eq_true_eq, List.all_eq_true, Bool.not_eq_true', List.isEmpty_iff, and_assoc]

@[simp] theorem Cur.withSet_retry (c : Cur) (a : List Tid) : (c.withSet a).retry = c.retry := rfl
@[simp] theorem Cur.withSet_popped (c : Cur) (a : List Tid) : (c.withSet a).popped = c.popped := rfl
@[simp] theorem Cur.withSet_lanes (c : Cur) (a : List Tid) : (c.withSet a).lanes = c.lanes := rfl
@[simp] theorem Cur.withSet_set (c : Cur) (a : List Tid) : (c.withSet a).set = a := rfl

/-- The course of a word that is clear: its effect acts on the active lanes at the entered state. -/
theorem State.word_clear {s : State} {c : Cur} {h : Hdr} {k : Checks} (hc : s.clear c h k = true)
    (effect : List Tid → State → Option State) (joint : Bool := true) :
    s.word h k effect joint = match effect (s.actives c h) (s.entered c h k.ops) with
      | some t => t.wordEnd h c
      | none => s.holdWord (s.curIn c h) := by
  obtain ⟨hcur, hr, -, -, hpg, hpend, hall⟩ := (State.clear_iff s c h k).1 hc
  unfold State.word State.course
  rw [if_neg hpg, hcur]
  simp only [hr, Cur.withSet_retry, Bool.false_eq_true, if_false]
  have h1 := State.decodeTraps_none k _ _ fun t ht => (hall t ht).1
  have h2 := State.letAll_go (s.entered c h k.ops) k joint (s.actives c h) (fun t ht => (hall t ht).2.1)
    fun hk t ht => by have := (hall t ht).2.2; rwa [hk, Bool.true_and] at this
  unfold State.entered State.begun State.curIn at *
  unfold State.actives at *
  rw [h1]
  simp only []
  rw [h2]
  simp only [hpend, Bool.and_false, Bool.false_eq_true, if_false]
  rfl

/-- A word that is no delivery point delivers nothing. -/
theorem State.deliverIf_false (s : State) (act : List Tid) : s.deliverIf false act = (act, s) := by
  unfold State.deliverIf
  split <;> simp

/-- A word that reaches no queue has no turn to wait for. -/
theorem State.queueWaits_false (s : State) (ops : List Opd) (act : List Tid) (h : ops.any Opd.pushes = false) : s.queueWaits false ops act = false := by
  unfold State.queueWaits
  rw [h]
  rfl

/-- A lane-by-lane word that is clear and is not held. -/
theorem State.byLane_clear {s : State} {c : Cur} {h : Hdr} {k : Checks} (hc : s.clear c h k = true)
    (f : Tid → List (List Word) → State → State × Option Park) (hp : k.ops.any Opd.popsToken = false) (hq : k.ops.any Opd.pushes = false)
    (hold : State → List Tid → Bool := fun _ _ => false) (hh : hold (s.entered c h k.ops) (s.actives c h) = false := by rfl)
    (joint : Bool := false) : s.byLane h k f hold (joint := joint) = ((s.entered c h k.ops).eachLane k.ops f (s.actives c h)).wordEnd h c := by
  unfold State.byLane
  rw [State.word_clear hc _ (joint || k.ops.any Opd.isQ)]
  simp only [hp, hh, Bool.false_and, State.queueWaits_false _ _ _ hq, Bool.or_self, Bool.false_eq_true, if_false,
    State.deliverIf_false]

end Sys2Proof.Machine
end

