-- ==== Sys2Proof/Laws/Regs.lean ====
section
/-! SUPPORT. How a register lane reads after an update of a thread, a group or the pool: a write reads back, and every other register lane is unchanged. -/

namespace Sys2Proof.Machine

/-! ### Lookups after one update -/

theorem State.team?_updTeam (s : State) (k j : Nat) (f : Team → Team) (hf : ∀ t, (f t).key = t.key) :
    (s.updTeam k f).team? j = if j = k then (s.team? j).map f else s.team? j := by
  split
  · rename_i h; rw [h]; exact State.team?_updTeam_same s k f hf
  · rename_i h; exact State.team?_updTeam_other s k j f hf h

theorem State.group?_updGroup (s : State) (t u : Tid) (f : Group → Group) (hf : ∀ g, (f g).num = g.num) :
    (s.updGroup t f).group? u = if u.team = t.team ∧ u.group = t.group then (s.group? u).map f else s.group? u := by
  split
  · rename_i h; exact State.group?_updGroup_same s t u f hf h.1 h.2
  · rename_i h; exact State.group?_updGroup_other s t u f hf h

theorem State.team?_updGroup (s : State) (t : Tid) (j : Nat) (f : Group → Group) :
    (s.updGroup t f).team? j = if j = t.team then (s.team? j).map (fun tm => tm.updGroup t.group f) else s.team? j :=
  State.team?_updTeam s t.team j _ fun _ => rfl

theorem State.thread?_updThread (s : State) (t u : Tid) (f : Thread → Thread) (hf : ∀ x, (f x).lane = x.lane) :
    (s.updThread t f).thread? u = if u = t then (s.thread? u).map f else s.thread? u := by
  split
  · rename_i h; rw [h]; exact State.thread?_updThread_same s t f hf
  · rename_i h; exact State.thread?_updThread_other s t u f hf h

/-! ### Windows -/

theorem KDesc.winBase_updGroup (d : KDesc) (t : Team) (k n : Nat) (f : Group → Group) (hn : ∀ g, (f g).num = g.num)
    (hr : ∀ g, (f g).role = g.role) : d.winBase (t.updGroup k f) n = d.winBase t n := by
  unfold KDesc.winBase Team.updGroup updWhere
  congr 2
  generalize t.groups = l
  induction l with
  | nil => rfl
  | cons g l ih =>
    have e : ∀ x : Group, (if decide (x.num = k) then f x else x).num = x.num := by intro x; split <;> simp [hn]
    have e2 : d.winBytes (if decide (g.num = k) then f g else g) = d.winBytes g := by
      unfold KDesc.winBytes KDesc.budget; split <;> simp [hr]
    simp only [List.map_cons, List.filter_cons, e]
    split <;> simp_all

/-- A window starts at a multiple of 256. -/
theorem KDesc.winBase_mod (d : KDesc) (t : Team) (g : Nat) : d.winBase t g % 256 = 0 := by
  unfold KDesc.winBase
  have h : ∀ l : List Group, (l.map d.winBytes).sum % 256 = 0 := by
    intro l
    induction l with
    | nil => rfl
    | cons x l ih =>
      simp only [List.map_cons, List.sum_cons]
      unfold KDesc.winBytes at *
      omega
  have := h (t.groups.filter fun x => decide (x.num < g))
  unfold winRegion
  omega

/-- A window lies below those of later groups. -/
theorem KDesc.winBase_le (d : KDesc) (t : Team) (g : Group) (n : Nat) (hg : g ∈ t.groups) (h : g.num < n) :
    d.winBase t g.num + d.winBytes g ≤ d.winBase t n := by
  have key : ∀ l : List Group, g ∈ l → ((l.filter fun x => decide (x.num < g.num)).map d.winBytes).sum + d.winBytes g ≤
      ((l.filter fun x => decide (x.num < n)).map d.winBytes).sum := by
    intro l hl
    have mono : ∀ l : List Group, ((l.filter fun x => decide (x.num < g.num)).map d.winBytes).sum ≤
        ((l.filter fun x => decide (x.num < n)).map d.winBytes).sum := by
      intro l
      induction l with
      | nil => simp
      | cons x l ih =>
        simp only [List.filter_cons]
        by_cases h1 : x.num < g.num
        · rw [if_pos (by simpa using h1), if_pos (by simp; omega)]; simpa using ih
        · rw [if_neg (by simpa using h1)]
          split
          · simp only [List.map_cons, List.sum_cons]; omega
          · exact ih
    induction l with
    | nil => cases hl
    | cons x l ih =>
      simp only [List.filter_cons]
      rcases List.mem_cons.1 hl with heq | hin
      · subst heq
        rw [if_neg (by simp), if_pos (by simpa using h)]
        have := mono l
        simp only [List.map_cons, List.sum_cons]
        omega
      · have := ih hin
        by_cases h1 : x.num < g.num
        · rw [if_pos (by simpa using h1), if_pos (by simp; omega)]
          simp only [List.map_cons, List.sum_cons]; omega
        · rw [if_neg (by simpa using h1)]
          split
          · simp only [List.map_cons, List.sum_cons]; omega
          · exact this
  have := key t.groups hg
  unfold KDesc.winBase
  omega

/-- Register lanes of two threads, or of two registers, within their windows do not overlap. -/
theorem KDesc.laneAddr_apart (d : KDesc) (tm : Team) (t u : Tid) (g g' : Group) (i j : Nat) (hg : tm.group? t.group = some g)
    (hg' : tm.group? u.group = some g') (hi : i < d.budget g) (hj : j < d.budget g') (ht : t.lane < 64) (hu : u.lane < 64)
    (h : ¬(t.group = u.group ∧ t.lane = u.lane ∧ i = j)) :
    d.laneAddr tm t i + 4 ≤ d.laneAddr tm u j ∨ d.laneAddr tm u j + 4 ≤ d.laneAddr tm t i := by
  have mem : ∀ (n : Nat) (x : Group), tm.group? n = some x → x ∈ tm.groups ∧ x.num = n := by
    intro n x hx
    exact ⟨List.mem_of_find?_eq_some hx, by simpa using List.find?_some hx⟩
  unfold KDesc.laneAddr
  obtain ⟨m1, n1⟩ := mem _ _ hg
  obtain ⟨m2, n2⟩ := mem _ _ hg'
  rcases Nat.lt_trichotomy t.group u.group with hlt | heq | hgt
  · have hb := KDesc.winBase_le d tm g u.group m1 (by omega)
    rw [n1] at hb
    unfold KDesc.winBytes at hb
    left
    omega
  · have hb : d.winBase tm t.group = d.winBase tm u.group := by rw [heq]
    have hne : ¬(t.lane = u.lane ∧ i = j) := fun hx => h ⟨heq, hx⟩
    omega
  · have hb := KDesc.winBase_le d tm g' t.group m2 (by omega)
    rw [n2] at hb
    unfold KDesc.winBytes at hb
    right
    omega

/-! ### Registers after a group update that keeps the team's shape -/

theorem State.regOf_updGroup (s s' : State) (u : Tid) (tm : Team) (g : Group) (k : Nat) (f : Group → Group) (r : Reg) (j : Nat)
    (hf : ∀ g, (f g).num = g.num ∧ (f g).role = g.role)
    (hs : s'.launches = s.launches ∧ s'.clk = s.clk ∧ s'.cur = s.cur ∧ s'.dieParts = s.dieParts) :
    s'.regOf u (tm.updGroup k f) g r j = s.regOf u tm g r j := by
  obtain ⟨a1, a2, a3, a4⟩ := hs
  have hl : s'.launchOf (tm.updGroup k f) = s.launchOf tm := by
    unfold State.launchOf State.launch?; rw [a1]; rfl
  have hd : s'.descOf (tm.updGroup k f) = s.descOf tm := by unfold State.descOf; rw [hl]
  have hw : ∀ d n, KDesc.winBase d (tm.updGroup k f) n = d.winBase tm n := fun d n =>
    KDesc.winBase_updGroup d tm k n f (fun g => (hf g).1) fun g => (hf g).2
  have hlen : (tm.updGroup k f).groups.length = tm.groups.length := by simp [Team.updGroup, updWhere]
  have hc : s'.coreIndex tm.core = s.coreIndex tm.core := by unfold State.coreIndex State.partCores; rw [a4]
  unfold State.regOf
  cases r with
  | v i => simp only [hd, KDesc.laneAddr, hw]; rfl
  | k i => simp only [hl]
  | sv i =>
    simp only [a3, hd]
    cases s.cur with
    | none => rfl
    | some c =>
      unfold sysOf
      simp only [hlen, a2, show (tm.updGroup k f).core = tm.core from rfl]
      rfl
  | _ => rfl

/-- A register lane after a group update that keeps every group's number and role. -/
theorem State.regVal_updGroup (s : State) (t u : Tid) (f : Group → Group) (r : Reg) (j : Nat)
    (hf : ∀ g, (f g).num = g.num ∧ (f g).role = g.role) :
    (s.updGroup t f).regVal u r j = match s.team? u.team, s.group? u with
      | some tm, some g => s.regOf u tm (if u.team = t.team ∧ u.group = t.group then f g else g) r j
      | _, _ => 0 := by
  unfold State.regVal
  rw [State.group?_updGroup s t u f fun g => (hf g).1, State.team?_updGroup]
  by_cases h1 : u.team = t.team
  · rw [if_pos h1]
    cases h2 : s.team? u.team with
    | none => simp
    | some tm =>
      cases h3 : s.group? u with
      | none => simp
      | some g =>
        by_cases h4 : u.group = t.group
        · simp only [h1, h4, and_self, if_true, Option.map_some]
          exact State.regOf_updGroup _ _ _ _ _ _ _ _ _ hf ⟨rfl, rfl, rfl, rfl⟩
        · simp only [h4, and_false, if_false, Option.map_some]
          exact State.regOf_updGroup _ _ _ _ _ _ _ _ _ hf ⟨rfl, rfl, rfl, rfl⟩
  · simp only [h1, false_and, if_false]
    rfl

/-- A register lane after a group update that keeps the group's number, role, pipe and registers. -/
theorem State.regVal_updGroup_keep (s : State) (t u : Tid) (f : Group → Group) (r : Reg) (j : Nat)
    (hf : ∀ g, (f g).num = g.num ∧ (f g).role = g.role ∧ (f g).pipe = g.pipe ∧ (f g).sregs = g.sregs ∧ (f g).hregs = g.hregs) :
    (s.updGroup t f).regVal u r j = s.regVal u r j := by
  rw [State.regVal_updGroup s t u f r j fun g => ⟨(hf g).1, (hf g).2.1⟩]
  unfold State.regVal
  cases s.team? u.team with
  | none => rfl
  | some tm =>
    cases s.group? u with
    | none => rfl
    | some g =>
      simp only []
      split
      · obtain ⟨-, hr, hp, h1, h2⟩ := hf g
        cases r <;> simp only [State.regOf, h1, h2]
        cases s.cur with
        | none => rfl
        | some c => unfold sysOf; simp only [hr, hp]
      · rfl

/-- No register lane changes when a thread's record does. -/
@[simp] theorem State.regVal_updThread (s : State) (t u : Tid) (f : Thread → Thread) (r : Reg) (j : Nat) :
    (s.updThread t f).regVal u r j = s.regVal u r j :=
  State.regVal_updGroup_keep s t u _ r j fun _ => ⟨rfl, rfl, rfl, rfl, rfl⟩

/-! ### Registers after a register write -/

theorem Tid.eq_iff (t u : Tid) : t = u ↔ t.team = u.team ∧ t.group = u.group ∧ t.lane = u.lane := by
  cases t; cases u; simp

theorem State.group?_team {s : State} {t : Tid} {g : Group} (h : s.group? t = some g) :
    ∃ tm, s.team? t.team = some tm ∧ tm.group? t.group = some g := by
  unfold State.group? at h
  cases ht : s.team? t.team with
  | none => simp [ht] at h
  | some tm => exact ⟨tm, rfl, by simpa [ht] using h⟩

/-- Marks of a frame change no register lane. -/
theorem State.regVal_unmarkFrame (s : State) (x : Option (Nat × Nat)) (u : Tid) (r : Reg) (j : Nat) :
    (s.unmarkFrame x).regVal u r j = s.regVal u r j := rfl

theorem State.poolSet_team (s : State) (k j pa : Nat) (bs : List Byte) :
    (s.poolSet k pa bs).team? j = if j = k then (s.team? j).map (fun t => { t with pool := Mem.setN t.pool pa bs }) else s.team? j :=
  State.team?_updTeam s k j (fun t => { t with pool := Mem.setN t.pool pa bs }) fun _ => rfl

theorem State.poolSet_group (s : State) (k pa : Nat) (bs : List Byte) (u : Tid) : (s.poolSet k pa bs).group? u = s.group? u := by
  unfold State.group?
  rw [State.poolSet_team]
  split
  · cases s.team? u.team <;> rfl
  · rfl

theorem State.poolSet_thread (s : State) (k pa : Nat) (bs : List Byte) (u : Tid) : (s.poolSet k pa bs).thread? u = s.thread? u := by
  unfold State.thread?
  rw [State.poolSet_group]

/-- A register lane after a write of pool bytes. -/
theorem State.regVal_poolSet (s : State) (k pa : Nat) (bs : List Byte) (u : Tid) (r : Reg) (j : Nat) :
    (s.poolSet k pa bs).regVal u r j =
      match s.team? u.team, s.group? u, r with
      | some tm, some _, .v i =>
        if u.team = k then Mem.w32 (Mem.setN tm.pool pa bs) ((s.descOf tm).laneAddr tm u (i.val + j)) else s.regVal u r j
      | _, _, _ => s.regVal u r j := by
  unfold State.regVal
  rw [State.poolSet_group, State.poolSet_team]
  cases h2 : s.team? u.team with
  | none => simp
  | some tm =>
    cases h3 : s.group? u with
    | none => by_cases h1 : u.team = k <;> simp [h1]
    | some g =>
      by_cases h1 : u.team = k
      · simp only [h1, if_true, Option.map_some]
        cases r <;> rfl
      · simp only [h1, if_false]
        cases r <;> rfl

/-- The group whose registers a thread reads has this budget. -/
theorem State.ownReg_v {s : State} {u : Tid} {i : Fin 1536} {j : Nat} (h : s.ownReg u (.v i) j = true) :
    ∃ tm g, s.team? u.team = some tm ∧ s.group? u = some g ∧ tm.group? u.group = some g ∧ u.lane < 64 ∧
      i.val + j < (s.descOf tm).budget g := by
  unfold State.ownReg at h
  split at h
  · rename_i tm g i' h1 h2 heq
    cases heq
    obtain ⟨tm', h3, h4⟩ := State.group?_team h2
    rw [h1] at h3; cases h3
    have := of_decide_eq_true h
    exact ⟨tm, g, h1, h2, h4, this.1, this.2⟩
  · cases ‹Reg.v i = Reg.h _›
  · cases ‹Reg.v i = Reg.s _›
  · cases h

/-- A write reads back in its own lane. -/
theorem State.regVal_putReg_self (s : State) (t : Tid) (f : RFile) (i : Nat) (v : Word) (r : Reg) (j : Nat)
    (hr : Reg.file? r j = some (f, i)) (ht : (s.group? t).isSome = true) : (s.putReg t f i v).regVal t r j = v := by
  obtain ⟨g, hg⟩ := Option.isSome_iff_exists.1 ht
  obtain ⟨tm, htm, -⟩ := State.group?_team hg
  cases r <;> simp only [Reg.file?, Option.some.injEq, Prod.mk.injEq, reduceCtorEq] at hr
  · obtain ⟨rfl, rfl⟩ := hr
    unfold State.putReg
    simp only [State.regVal_poolSet, htm, hg, if_true, State.vAddr]
    exact Mem.w32_setW32_same _ _ _
  · obtain ⟨rfl, rfl⟩ := hr
    unfold State.putReg
    simp only []
    rw [State.regVal_updGroup s t t (fun g => { g with sregs := Mem.setW32 g.sregs _ v }) _ _ fun _ => ⟨rfl, rfl⟩, htm, hg]
    simp only [and_self, if_true, State.regOf]
    exact Mem.w32_setW32_same _ _ _
  · obtain ⟨rfl, rfl⟩ := hr
    unfold State.putReg
    simp only [State.regVal_unmarkFrame]
    rw [State.regVal_updGroup s t t (fun g => { g with hregs := Mem.setW32 g.hregs _ v }) _ _ fun _ => ⟨rfl, rfl⟩, htm, hg]
    simp only [and_self, if_true, State.regOf]
    exact Mem.w32_setW32_same _ _ _

/-- A write leaves every other register lane. -/
theorem State.regVal_putReg_other (s : State) (t : Tid) (f : RFile) (i : Nat) (v : Word) (u : Tid) (r : Reg) (j : Nat)
    (hlane : t.lane < 64) (hown : f = .v ∨ f = .h → s.ownReg u r j = true ∨ ∀ n, Reg.file? r j ≠ some (f, n))
    (hbud : f = .v → ∃ tm g, s.team? t.team = some tm ∧ s.group? t = some g ∧ i < (s.descOf tm).budget g)
    (hne : ∀ n, Reg.file? r j = some (f, n) → ¬(n = i ∧ t.team = u.team ∧ t.group = u.group ∧ (f ≠ .s → t.lane = u.lane))) :
    (s.putReg t f i v).regVal u r j = s.regVal u r j := by
  cases f with
  | v =>
    obtain ⟨tm, g, h1, h2, h3⟩ := hbud rfl
    unfold State.putReg
    simp only [State.regVal_poolSet]
    cases r with
    | v n =>
      obtain ⟨tm', g', e1, e2, e3, e4, e5⟩ := State.ownReg_v ((hown (.inl rfl)).resolve_right fun h => h _ rfl)
      simp only [e1, e2]
      by_cases hteam : u.team = t.team
      · rw [if_pos hteam]
        rw [hteam, h1] at e1
        cases e1
        obtain ⟨tm'', h4, h5⟩ := State.group?_team h2
        rw [h1] at h4; cases h4
        have hx := hne (n.val + j) rfl
        have := KDesc.laneAddr_apart (s.descOf tm) tm t u g g' i (n.val + j) h5 e3 h3 e5 hlane e4 (by
          rintro ⟨a, b, c⟩
          exact hx ⟨c.symm, hteam.symm, a, fun _ => b⟩)
        unfold State.regVal State.regOf
        simp only [hteam, h1, e2, State.vAddr]
        exact Mem.w32_setW32_other _ _ _ _ (by omega)
      · rw [if_neg hteam]
    | _ => cases s.team? u.team <;> cases s.group? u <;> rfl
  | s =>
    unfold State.putReg
    simp only []
    rw [State.regVal_updGroup s t u (fun g => { g with sregs := Mem.setW32 g.sregs _ v }) _ _ fun _ => ⟨rfl, rfl⟩]
    unfold State.regVal
    cases s.team? u.team with
    | none => rfl
    | some tm =>
      cases s.group? u with
      | none => rfl
      | some g =>
        simp only []
        split
        · rename_i h4
          cases r with
          | s n =>
            have hx := hne (n.val + j) rfl
            exact Mem.w32_setW32_other _ _ _ _ (by
              have : n.val + j ≠ i := fun e => hx ⟨e, h4.1.symm, h4.2.symm, fun x => absurd rfl x⟩
              omega)
          | _ => rfl
        · rfl
  | h =>
    unfold State.putReg
    simp only [State.regVal_unmarkFrame]
    rw [State.regVal_updGroup s t u (fun g => { g with hregs := Mem.setW32 g.hregs _ v }) _ _ fun _ => ⟨rfl, rfl⟩]
    unfold State.regVal
    cases s.team? u.team with
    | none => rfl
    | some tm =>
      cases s.group? u with
      | none => rfl
      | some g =>
        simp only []
        split
        · rename_i h4
          cases r with
          | h n =>
            have hx := hne (n.val + j) rfl
            have ho := (hown (.inr rfl)).resolve_right fun h => h _ rfl
            have hl : u.lane < 64 := by
              unfold State.ownReg at ho
              split at ho
              · cases ‹Reg.h n = Reg.v _›
              · exact of_decide_eq_true ho
              · cases ‹Reg.h n = Reg.s _›
              · cases ho
            exact Mem.w32_setW32_other _ _ _ _ (by
              have : ¬(n.val + j = i ∧ t.lane = u.lane) := fun e => hx ⟨e.1, h4.1.symm, h4.2.symm, fun _ => e.2⟩
              omega)
          | _ => rfl
        · rfl

end Sys2Proof.Machine
end

