-- ==== Sys2Proof/Laws/Enter.lean ====
section
/-! SUPPORT. The state in which a word's lanes act: only the set's threads have advanced, and monitors may have counted. -/

namespace Sys2Proof.Machine

/-! ### States that agree beyond registers and threads -/

theorem State.sameBeyond_refl (s : State) : s.sameBeyond s := ⟨rfl, rfl⟩

theorem State.sameBeyond_trans {s t u : State} (h : s.sameBeyond t) (k : t.sameBeyond u) : s.sameBeyond u := by
  refine ⟨k.1.trans h.1, ?_⟩
  have e : ({ u with teams := s.teams, poolUe := s.poolUe, frameUe := s.frameUe, monitors := s.monitors, cur := s.cur, nextId := s.nextId } : State) =
      { ({ u with teams := t.teams, poolUe := t.poolUe, frameUe := t.frameUe, monitors := t.monitors, cur := t.cur, nextId := t.nextId } : State) with
        teams := s.teams, poolUe := s.poolUe, frameUe := s.frameUe, monitors := s.monitors, cur := s.cur, nextId := s.nextId } := rfl
  rw [e, k.2]
  exact h.2

theorem State.still_updTeam (s : State) (k : Nat) (f : Team → Team) (hf : ∀ t, (f t).still = t.still) :
    (s.updTeam k f).teams.map Team.still = s.teams.map Team.still := by
  unfold State.updTeam updWhere
  simp only [List.map_map]
  apply List.map_congr_left
  intro t _
  simp only [Function.comp]
  split
  · exact hf t
  · rfl

/-- Nothing changes where there is no such team. -/
theorem State.still_updTeam_none (s : State) (k : Nat) (f : Team → Team) (h : s.team? k = none) :
    (s.updTeam k f).teams.map Team.still = s.teams.map Team.still := by
  have e : s.updTeam k f = s := by
    unfold State.updTeam updWhere
    have : (s.teams.map fun t => if decide (t.key = k) = true then f t else t) = s.teams := by
      conv_rhs => rw [← List.map_id s.teams]
      apply List.map_congr_left
      intro t ht
      have := List.find?_eq_none.1 h t ht
      simp only [id]
      rw [if_neg this]
    rw [this]
  rw [e]

theorem Team.still_updGroup (t : Team) (k : Nat) (f : Group → Group) (hf : ∀ g, (f g).still = g.still) :
    (t.updGroup k f).still = t.still := by
  unfold Team.still Team.updGroup updWhere
  simp only [List.map_map]
  congr 1
  apply List.map_congr_left
  intro g _
  simp only [Function.comp]
  split
  · exact hf g
  · rfl

theorem Group.still_updThread (g : Group) (l : Nat) (f : Thread → Thread) (hf : ∀ t, (f t).still = t.still) :
    (g.updThread l f).still = g.still := by
  unfold Group.still Group.updThread updWhere
  simp only [List.map_map]
  congr 1
  apply List.map_congr_left
  intro t _
  simp only [Function.comp]
  split
  · exact hf t
  · rfl

theorem State.sameBeyond_updGroup (s : State) (t : Tid) (f : Group → Group) (hf : ∀ g, (f g).still = g.still) :
    s.sameBeyond (s.updGroup t f) :=
  ⟨State.still_updTeam s _ _ fun tm => Team.still_updGroup tm _ f hf, rfl⟩

theorem State.sameBeyond_updThread (s : State) (t : Tid) (f : Thread → Thread) (hf : ∀ t, (f t).still = t.still) :
    s.sameBeyond (s.updThread t f) :=
  State.sameBeyond_updGroup s t _ fun g => Group.still_updThread g _ f hf

theorem scratchBytes_put (m : Mem) (a : Nat) (v : Byte) (h : winRegion ≤ a) : scratchBytes (Mem.put m a v) = scratchBytes m := by
  have ha : decide (a < winRegion) = false := by simp; exact h
  unfold scratchBytes
  induction m with
  | nil => simp [Mem.put, ha]
  | cons c m ih =>
    unfold Mem.put
    split
    · rename_i e; subst e; simp [ha]
    · split
      · simp [ha]
      · simp only [List.filter_cons, ih]

theorem scratchBytes_set (m : Mem) (a : Nat) (v : Byte) (h : winRegion ≤ a) : scratchBytes (Mem.set m a v) = scratchBytes m := by
  unfold Mem.set
  split
  · unfold scratchBytes
    rw [List.filter_filter]
    apply List.filter_congr
    intro c _
    by_cases hc : c.1 < winRegion
    · have : c.1 ≠ a := by omega
      simp [hc, this]
    · simp [hc]
  · exact scratchBytes_put m a v h

/-- A write above the scratchpad leaves it alone. -/
theorem scratchBytes_setN (bs : List Byte) : ∀ (m : Mem) (a : Nat), winRegion ≤ a → scratchBytes (Mem.setN m a bs) = scratchBytes m := by
  induction bs with
  | nil => intro m a _; rfl
  | cons b bs ih =>
    intro m a h
    rw [Mem.setN, ih _ _ (by omega), scratchBytes_set m a b h]

theorem State.sameBeyond_putReg (s : State) (t : Tid) (f : RFile) (i : Nat) (v : Word) : s.sameBeyond (s.putReg t f i v) := by
  unfold State.putReg
  cases f with
  | v =>
    refine ⟨?_, rfl⟩
    cases ht : s.team? t.team with
    | none => exact State.still_updTeam_none s _ _ ht
    | some tm =>
      refine State.still_updTeam s _ _ fun x => ?_
      have h : winRegion ≤ s.vAddr t i := by
        unfold State.vAddr
        rw [ht]
        simp only [KDesc.laneAddr, KDesc.winBase]
        omega
      unfold Team.still
      simp only [scratchBytes_setN _ _ _ h]
  | s => exact State.sameBeyond_updGroup s t _ fun _ => rfl
  | h => exact State.sameBeyond_trans (State.sameBeyond_updGroup s t (fun g => { g with hregs := Mem.setW32 g.hregs _ v }) fun _ => rfl) ⟨rfl, rfl⟩

theorem State.sameBeyond_foldl {α : Type} (f : State → α → State) (hf : ∀ (s : State) a, s.sameBeyond (f s a)) (l : List α) (s : State) :
    s.sameBeyond (l.foldl f s) := by
  induction l generalizing s with
  | nil => exact s.sameBeyond_refl
  | cons a l ih => exact State.sameBeyond_trans (hf s a) (ih _)

/-! ### Outstanding results -/

/-- A long result counts at a register for a word of an issue number: it is not the word's own, and it would write there. -/
def LongRes.meets (l : LongRes) (f : RFile) (i : Nat) (own : Option Nat) : Prop :=
  (l.issue.isNone || decide (l.issue ≠ own)) = true ∧ l.valsAt f i ≠ []

theorem State.pendings_nil (s : State) (u : Tid) (f : RFile) (i : Nat) :
    s.pendings u f i = [] ↔ ∀ g, s.group? u = some g → ∀ th ∈ g.writers u.lane f, ∀ l ∈ th.longs, ¬l.meets f i s.issueNo := by
  unfold State.pendings
  cases s.group? u with
  | none => simp
  | some g =>
    simp only [List.flatMap_eq_nil_iff, Group.longsAt, List.mem_flatMap, List.mem_filter, Option.some.injEq, forall_eq', LongRes.meets]
    constructor
    · rintro h th hth l hl ⟨h1, h2⟩
      exact h2 (h l ⟨th, hth, hl, h1⟩)
    · rintro h l ⟨th, hth, hl, h1⟩
      exact Classical.byContradiction fun h2 => h th hth l hl ⟨h1, h2⟩

/-- From one state to another, no register lane of a thread comes to have outstanding writes. -/
def State.quieter (s s' : State) (u : Tid) : Prop := ∀ f i, s.pendings u f i = [] → s'.pendings u f i = []

theorem State.quieter_trans {a b c : State} {u : Tid} (h : a.quieter b u) (k : b.quieter c u) : a.quieter c u := fun f i e => k f i (h f i e)

theorem State.quieter_same {s s' : State} (h1 : s'.teams = s.teams) (h2 : s'.issueNo = s.issueNo) (u : Tid) : s.quieter s' u := by
  intro f i e
  unfold State.pendings State.group? State.team? at *
  rw [h1, h2]
  exact e

/-- An update of a group's threads, one by one, that brings a thread no more outstanding writes than one of its group had. -/
theorem State.quieter_threads (s : State) (t u : Tid) (F : Thread → Thread) (hlane : ∀ th, (F th).lane = th.lane)
    (h : ∀ f i th, (u.team = t.team ∧ u.group = t.group) → f = .s ∨ th.lane = u.lane →
      ∀ l ∈ (F th).longs, l.meets f i s.issueNo → ∃ k ∈ th.longs, k.meets f i s.issueNo) :
    s.quieter (s.updGroup t fun g => { g with threads := g.threads.map F }) u := by
  intro f i e
  rw [State.pendings_nil] at e ⊢
  rw [State.group?_updGroup s t u (fun g => { g with threads := g.threads.map F }) fun _ => rfl]
  intro g' hg'
  split at hg'
  · rename_i hu
    cases hg : s.group? u with
    | none => rw [hg] at hg'; cases hg'
    | some g =>
      rw [hg] at hg'
      simp only [Option.map_some, Option.some.injEq] at hg'
      subst hg'
      have e' := e g hg
      intro th' hth' l hl hm
      unfold Group.writers at hth' e'
      by_cases hf : f = .s
      · rw [if_pos hf] at hth' e'
        obtain ⟨th, hth, rfl⟩ := List.mem_map.1 hth'
        obtain ⟨k, hk, hkm⟩ := h f i th hu (.inl hf) l hl hm
        exact e' th hth k hk hkm
      · rw [if_neg hf] at hth' e'
        obtain ⟨hin, hl'⟩ := List.mem_filter.1 hth'
        obtain ⟨th, hth, rfl⟩ := List.mem_map.1 hin
        rw [hlane] at hl'
        obtain ⟨k, hk, hkm⟩ := h f i th hu (.inr (of_decide_eq_true hl')) l hl hm
        exact e' th (List.mem_filter.2 ⟨hth, hl'⟩) k hk hkm
  · exact e g' hg'

theorem Group.updThread_eq (g : Group) (l : Nat) (f : Thread → Thread) :
    g.updThread l f = { g with threads := g.threads.map fun th => if decide (th.lane = l) = true then f th else th } := rfl

/-- An update of one thread that brings no other thread a result, and itself none but the word's own. -/
theorem State.quieter_updThread (s : State) (t u : Tid) (f : Thread → Thread) (hlane : ∀ th, (f th).lane = th.lane)
    (h : ∀ x i th, (u = t ∨ x = .s) → ∀ l ∈ (f th).longs, l.meets x i s.issueNo → ∃ k ∈ th.longs, k.meets x i s.issueNo) :
    s.quieter (s.updThread t f) u := by
  refine State.quieter_threads s t u (fun th => if decide (th.lane = t.lane) = true then f th else th) (fun th => ?_) ?_
  · by_cases hx : th.lane = t.lane <;> simp [hx, hlane]
  · intro x i th hu hx l hl hm
    by_cases hl' : th.lane = t.lane
    · simp only [hl', decide_true, if_true] at hl
      refine h x i th ?_ l hl hm
      rcases hx with hx | hx
      · exact .inr hx
      · exact .inl ((Tid.eq_iff u t).2 ⟨hu.1, hu.2, by omega⟩)
    · simp only [hl', decide_false, Bool.false_eq_true, if_false] at hl
      exact ⟨l, hl, hm⟩

/-- An update of a thread that keeps its outstanding results. -/
theorem State.quieter_keep (s : State) (t u : Tid) (f : Thread → Thread) (hlane : ∀ th, (f th).lane = th.lane)
    (hl : ∀ th, (f th).longs = th.longs) : s.quieter (s.updThread t f) u :=
  State.quieter_updThread s t u f hlane fun _ _ th _ l hin hm => ⟨l, hl th ▸ hin, hm⟩

/-! ### Issue -/

/-- Only monitors differ. -/
def State.onlyMonitors (s t : State) : Prop := ∃ ms, t = { s with monitors := ms }

theorem State.onlyMonitors_foldl {α : Type} (f : State → α → State) (hf : ∀ (s : State) a, s.onlyMonitors (f s a)) (l : List α) (s : State) :
    s.onlyMonitors (l.foldl f s) := by
  induction l generalizing s with
  | nil => exact ⟨s.monitors, rfl⟩
  | cons a l ih =>
    obtain ⟨m, hm⟩ := hf s a
    obtain ⟨n, hn⟩ := ih (f s a)
    exact ⟨n, by rw [List.foldl_cons, hn, hm]⟩

theorem State.onlyMonitors_pipeEvent (s : State) (c : Cur) (src v : Nat) : s.onlyMonitors (s.pipeEvent c src v) := ⟨_, rfl⟩

theorem State.onlyMonitors_countUniform (s : State) (c : Cur) (ops : List Opd) (act : List Tid) :
    s.onlyMonitors (s.countUniform c ops act) := by
  have self : ∀ s : State, s.onlyMonitors s := fun s => ⟨s.monitors, rfl⟩
  unfold State.countUniform
  split
  · apply State.onlyMonitors_foldl
    intro s x
    split
    · exact self s
    · apply State.onlyMonitors_foldl
      intro s o
      split
      · split
        · exact self s
        · apply State.onlyMonitors_foldl
          intro s j
          split
          · exact s.onlyMonitors_pipeEvent c 3 1
          · exact self s
      · exact self s
  · exact self s

/-- The set's threads advance, one update each. -/
theorem State.issue_eq (s : State) (c : Cur) (gap : Nat) (gw : Bool) :
    ∃ ms, s.issue c gap gw = { c.lanes.foldl (fun s t => s.updThread t fun th => th.advance c.pc s.clk.acycle gap gw) s with monitors := ms } := by
  have key : ∀ (ls : List Tid) (s : State) (ms : List Monitor),
      ls.foldl (fun s t => s.updThread t fun th =>
        { th with pc := c.pc + 8, stamp := s.clk.acycle, gapUntil := if gap = 0 then 0 else s.clk.acycle + gap, giveWay := gw })
        ({ s with monitors := ms } : State) =
      { ls.foldl (fun s t => s.updThread t fun th => th.advance c.pc s.clk.acycle gap gw) s with monitors := ms } := by
    intro ls
    induction ls with
    | nil => intros; rfl
    | cons t ls ih =>
      intro s ms
      simp only [List.foldl_cons]
      exact ih (s.updThread t fun th => th.advance c.pc s.clk.acycle gap gw) ms
  exact ⟨(s.pipeEvent c 0x01 1).monitors, key c.lanes s _⟩

/-- The threads of a list of names advance. -/
def State.advanceAll (s : State) (c : Cur) (gap : Nat) (gw : Bool) : State :=
  c.lanes.foldl (fun s t => s.updThread t fun th => th.advance c.pc s.clk.acycle gap gw) s

theorem State.regVal_monitors (s : State) (ms : List Monitor) (u : Tid) (r : Reg) (j : Nat) :
    ({ s with monitors := ms } : State).regVal u r j = s.regVal u r j := rfl

theorem State.advanceAll_regVal (s : State) (c : Cur) (gap : Nat) (gw : Bool) (u : Tid) (r : Reg) (j : Nat) :
    (s.advanceAll c gap gw).regVal u r j = s.regVal u r j := by
  unfold State.advanceAll
  generalize c.lanes = ls
  induction ls generalizing s with
  | nil => rfl
  | cons t ls ih => rw [List.foldl_cons, ih, State.regVal_updThread]

theorem State.advanceAll_clk (s : State) (c : Cur) (gap : Nat) (gw : Bool) : (s.advanceAll c gap gw).clk = s.clk := by
  unfold State.advanceAll
  generalize c.lanes = ls
  induction ls generalizing s with
  | nil => rfl
  | cons t ls ih => rw [List.foldl_cons, ih]; rfl

theorem State.advanceAll_thread (s : State) (c : Cur) (gap : Nat) (gw : Bool) (u : Tid) :
    (s.advanceAll c gap gw).thread? u =
      if u ∈ c.lanes then (s.thread? u).map (fun th => th.advance c.pc s.clk.acycle gap gw) else s.thread? u := by
  unfold State.advanceAll
  generalize c.lanes = ls
  induction ls generalizing s with
  | nil => simp
  | cons t ls ih =>
    rw [List.foldl_cons, ih, State.thread?_updThread s t u (fun th => th.advance c.pc s.clk.acycle gap gw) fun _ => rfl]
    simp only [List.mem_cons, State.updThread_clk]
    by_cases h1 : u = t
    · subst h1
      simp only [if_true, true_or]
      cases s.thread? u with
      | none => simp
      | some th => by_cases h2 : u ∈ ls <;> simp [h2, Thread.advance]
    · simp only [h1, if_false, false_or]

theorem State.advanceAll_same (s : State) (c : Cur) (gap : Nat) (gw : Bool) : s.sameBeyond (s.advanceAll c gap gw) :=
  State.sameBeyond_foldl _ (fun s t => State.sameBeyond_updThread s t (fun th => th.advance c.pc s.clk.acycle gap gw) fun _ => rfl) _ s

theorem State.advanceAll_quieter (s : State) (c : Cur) (gap : Nat) (gw : Bool) (u : Tid) : s.quieter (s.advanceAll c gap gw) u := by
  unfold State.advanceAll
  generalize c.lanes = ls
  induction ls generalizing s with
  | nil => exact fun _ _ e => e
  | cons t ls ih =>
    rw [List.foldl_cons]
    exact State.quieter_trans (State.quieter_keep s t u (fun th => th.advance c.pc s.clk.acycle gap gw) (fun _ => rfl) fun _ => rfl) (ih _)

/-- The entered state is the advanced one, its set known and its monitors counted. -/
theorem State.entered_eq (s : State) (c : Cur) (h : Hdr) (ops : List Opd) :
    ∃ ms, s.entered c h ops = { s.advanceAll c (gapCycles h.gap) h.gw with monitors := ms, cur := some (s.curIn c h) } := by
  obtain ⟨m1, h1⟩ := s.issue_eq c (gapCycles h.gap) h.gw
  obtain ⟨m2, h2⟩ := (s.begun c h).onlyMonitors_countUniform (s.curIn c h) ops (s.actives c h)
  refine ⟨m2, ?_⟩
  unfold State.entered
  rw [h2]
  unfold State.begun
  rw [h1]
  rfl

theorem State.entered_cur (s : State) (c : Cur) (h : Hdr) (ops : List Opd) : (s.entered c h ops).cur = some (s.curIn c h) := by
  obtain ⟨ms, e⟩ := s.entered_eq c h ops
  rw [e]

theorem State.entered_clk (s : State) (c : Cur) (h : Hdr) (ops : List Opd) : (s.entered c h ops).clk = s.clk := by
  obtain ⟨ms, e⟩ := s.entered_eq c h ops
  rw [e]
  exact s.advanceAll_clk _ _ _

theorem State.entered_thread (s : State) (c : Cur) (h : Hdr) (ops : List Opd) (u : Tid) :
    (s.entered c h ops).thread? u =
      if u ∈ c.lanes then (s.thread? u).map (fun th => th.advance c.pc s.clk.acycle (gapCycles h.gap) h.gw) else s.thread? u := by
  obtain ⟨ms, e⟩ := s.entered_eq c h ops
  rw [e]
  exact s.advanceAll_thread c _ _ u

theorem State.entered_issued (s : State) (c : Cur) (h : Hdr) (ops : List Opd) (u : Tid) :
    (s.entered c h ops).thread? u = s.issuedThread c h u := State.entered_thread s c h ops u

theorem State.entered_same (s : State) (c : Cur) (h : Hdr) (ops : List Opd) : s.sameBeyond (s.entered c h ops) := by
  obtain ⟨ms, e⟩ := s.entered_eq c h ops
  have := s.advanceAll_same c (gapCycles h.gap) h.gw
  rw [e]
  exact ⟨this.1, this.2⟩

theorem State.advanceAll_cur (s : State) (c : Cur) (gap : Nat) (gw : Bool) : (s.advanceAll c gap gw).cur = s.cur := by
  unfold State.advanceAll
  generalize c.lanes = ls
  induction ls generalizing s with
  | nil => rfl
  | cons t ls ih => rw [List.foldl_cons, ih]; rfl

/-- No register lane has more outstanding writes at the entered state. -/
theorem State.entered_quieter {s : State} {c : Cur} (hc : s.cur = some c) (h : Hdr) (ops : List Opd) (u : Tid) : s.quieter (s.entered c h ops) u := by
  obtain ⟨ms, e⟩ := s.entered_eq c h ops
  rw [e]
  refine State.quieter_trans (s.advanceAll_quieter c (gapCycles h.gap) h.gw u) (State.quieter_same (s := s.advanceAll c (gapCycles h.gap) h.gw)
    (s' := { s.advanceAll c (gapCycles h.gap) h.gw with monitors := ms, cur := some (s.curIn c h) }) rfl ?_ u)
  unfold State.issueNo
  rw [State.advanceAll_cur, hc]
  rfl

/-- Every register lane reads at the entered state as it did before the word. -/
theorem State.entered_regVal {s : State} {c : Cur} (hc : s.cur = some c) (h : Hdr) (ops : List Opd) (u : Tid) (r : Reg) (j : Nat) :
    (s.entered c h ops).regVal u r j = s.regVal u r j := by
  obtain ⟨ms, e⟩ := s.entered_eq c h ops
  rw [e, ← s.advanceAll_regVal c (gapCycles h.gap) h.gw]
  have hcur : (s.advanceAll c (gapCycles h.gap) h.gw).cur = some c := by rw [State.advanceAll_cur, hc]
  generalize s.advanceAll c (gapCycles h.gap) h.gw = x at hcur
  unfold State.regVal
  change (match x.team? u.team, x.group? u with | some tm, some g => _ | _, _ => _) = _
  cases x.team? u.team with
  | none => rfl
  | some tm =>
    cases x.group? u with
    | none => rfl
    | some g =>
      cases r with
      | sv i => simp only [State.regOf, hcur]; rfl
      | _ => rfl

end Sys2Proof.Machine
end

