-- ==== Sys2Proof/Laws/Writes.lean ====
section
/-! SUPPORT. What a lane reads, and what writing its results to a destination does: the registers named hold the values, and every other register lane is unchanged. -/

namespace Sys2Proof.Machine

/-! ### Reading operands -/

theorem State.readRegs_quiet (s : State) (t : Tid) (r : Reg) (n j : Nat)
    (h : ∀ k, j ≤ k → k < j + n → ∀ f i, Reg.file? r k = some (f, i) → s.pendings t f i = []) :
    s.readRegs t r j n = ((List.range n).map fun k => s.regVal t r (j + k), s) := by
  induction n generalizing j with
  | zero => rfl
  | succ n ih =>
    have hj : s.readReg t r j = (s.regVal t r j, s) := by
      unfold State.readReg
      cases h2 : Reg.file? r j with
      | none => rfl
      | some x =>
        obtain ⟨f, i⟩ := x
        simp only [h j (by omega) (by omega) f i h2]
    unfold State.readRegs
    rw [hj]
    simp only []
    rw [ih (j + 1) fun k h1 h2 => h k (by omega) (by omega)]
    simp only [List.range_succ_eq_map, List.map_cons, List.map_map, Nat.add_zero, Prod.mk.injEq, and_true, List.cons.injEq, true_and]
    apply List.map_congr_left
    intro k _
    simp only [Function.comp]
    congr 1
    omega

/-- What `plain` says of one lane. -/
def State.plainAt (s : State) (t : Tid) (ops : List Opd) : Prop :=
  ∀ o ∈ ops, (∀ i, o.reg ≠ .q i) ∧ (¬(o.use = .wr ∨ o.use = .name) →
    ∀ k, k < o.n → ∀ f i, Reg.file? o.reg k = some (f, i) → s.pendings t f i = [])

theorem State.plainAt_quieter {s s' : State} {t : Tid} {ops : List Opd} (h : s.plainAt t ops) (q : s.quieter s' t) : s'.plainAt t ops :=
  fun o ho => ⟨(h o ho).1, fun hu k hk f i e => q f i ((h o ho).2 hu k hk f i e)⟩

theorem State.plain_at {s : State} {act : List Tid} {ops : List Opd} (h : s.plain act ops = true) {t : Tid} (ht : t ∈ act) :
    s.plainAt t ops := by
  intro o ho
  have := List.all_eq_true.1 h o ho
  simp only [Bool.and_eq_true, Bool.or_eq_true, decide_eq_true_eq, List.all_eq_true, List.mem_range] at this
  obtain ⟨h1, h2⟩ := this
  refine ⟨fun i hi => by (rw [hi] at h1; cases h1), fun hu k hk f i e => ?_⟩
  have := (h2.resolve_left hu) t ht k hk
  rw [e] at this
  exact List.isEmpty_iff.1 this

theorem State.readOps_plain (s : State) (t : Tid) (ops : List Opd) (h : s.plainAt t ops) :
    s.readOps t ops [] [] = ((some (s.opdVals t ops), [], 0), s) := by
  induction ops with
  | nil => rfl
  | cons o os ih =>
    have ih := ih fun x hx => h x (List.mem_cons_of_mem _ hx)
    obtain ⟨hq, hp⟩ := h o (List.mem_cons_self ..)
    unfold State.readOps
    by_cases hu : o.use = .wr ∨ o.use = .name
    · rw [if_pos hu]
      simp only [ih, Option.map_some, State.opdVals, List.map_cons, if_pos hu]
    · rw [if_neg hu]
      have hr := State.readRegs_quiet s t o.reg o.n 0 fun k _ h2 => hp hu k (by omega)
      simp only [Nat.zero_add] at hr
      split
      · rename_i i heq; exact absurd heq (hq i)
      · simp only [hr, ih, Option.map_some, State.opdVals, List.map_cons, if_neg hu]

/-! ### States that agree beyond registers and threads -/

theorem State.sameBeyond_launches {s t : State} (h : s.sameBeyond t) : t.launches = s.launches := by
  have := congrArg State.launches h.2
  exact this

theorem State.sameBeyond_team {s t : State} (h : s.sameBeyond t) (k : Nat) :
    (t.team? k).map Team.still = (s.team? k).map Team.still := by
  have key : ∀ l : List Team, (l.find? fun x => decide (x.key = k)).map Team.still = (l.map Team.still).find? fun x => decide (x.key = k) := by
    intro l
    induction l with
    | nil => rfl
    | cons x l ih =>
      simp only [List.map_cons, List.find?_cons]
      have : x.still.key = x.key := rfl
      rw [this]
      split
      · rfl
      · exact ih
  unfold State.team?
  rw [key, key, h.1]

theorem Team.still_group (t : Team) (k : Nat) : t.still.group? k = (t.group? k).map Group.still := by
  unfold Team.group?
  have key : ∀ l : List Group, (l.map Group.still).find? (fun x => decide (x.num = k)) = (l.find? fun x => decide (x.num = k)).map Group.still := by
    intro l
    induction l with
    | nil => rfl
    | cons x l ih =>
      simp only [List.map_cons, List.find?_cons]
      have : x.still.num = x.num := rfl
      rw [this]
      split
      · rfl
      · exact ih
  exact key t.groups

theorem State.sameBeyond_group {s t : State} (h : s.sameBeyond t) (u : Tid) :
    (t.group? u).map Group.still = (s.group? u).map Group.still := by
  have e := State.sameBeyond_team h u.team
  unfold State.group?
  cases h1 : s.team? u.team with
  | none => rw [h1] at e; simp at e; simp [e]
  | some tm =>
    cases h2 : t.team? u.team with
    | none => rw [h1, h2] at e; simp at e
    | some tm' =>
      rw [h1, h2] at e
      simp only [Option.map_some, Option.some.injEq] at e
      simp only [Option.bind_some]
      rw [← Team.still_group, ← Team.still_group, e]

theorem State.sameBeyond_budget {s t : State} (h : s.sameBeyond t) {u : Tid} {tm : Team} {g : Group}
    (h1 : s.team? u.team = some tm) (h2 : s.group? u = some g) :
    ∃ tm' g', t.team? u.team = some tm' ∧ t.group? u = some g' ∧ (t.descOf tm').budget g' = (s.descOf tm).budget g := by
  have e1 := State.sameBeyond_team h u.team
  have e2 := State.sameBeyond_group h u
  rw [h1] at e1
  rw [h2] at e2
  cases h3 : t.team? u.team with
  | none => simp [h3] at e1
  | some tm' =>
    cases h4 : t.group? u with
    | none => simp [h4] at e2
    | some g' =>
      refine ⟨tm', g', rfl, rfl, ?_⟩
      rw [h3] at e1
      rw [h4] at e2
      simp only [Option.map_some, Option.some.injEq] at e1 e2
      have hl : tm'.launch = tm.launch := by have := congrArg Team.launch e1; exact this
      have hr : g'.role = g.role := by have := congrArg Group.role e2; exact this
      unfold KDesc.budget State.descOf State.launchOf State.launch?
      rw [hl, hr, State.sameBeyond_launches h]

theorem State.sameBeyond_ownReg {s t : State} (h : s.sameBeyond t) (u : Tid) (r : Reg) (j : Nat) : t.ownReg u r j = s.ownReg u r j := by
  have e1 := State.sameBeyond_team h u.team
  have e2 := State.sameBeyond_group h u
  unfold State.ownReg
  cases h1 : s.team? u.team with
  | none =>
    rw [h1] at e1
    simp only [Option.map_none, Option.map_eq_none_iff] at e1
    rw [e1]
    cases r <;> cases t.group? u <;> cases s.group? u <;> rfl
  | some tm =>
    cases h2 : s.group? u with
    | none =>
      rw [h2] at e2
      simp only [Option.map_none, Option.map_eq_none_iff] at e2
      rw [e2]
      cases r <;> cases t.team? u.team <;> rfl
    | some g =>
      obtain ⟨tm', g', h3, h4, h5⟩ := State.sameBeyond_budget h h1 h2
      rw [h3, h4]
      cases r <;> simp only [h5]

theorem State.sameBeyond_groupSome {s t : State} (h : s.sameBeyond t) (u : Tid) : (t.group? u).isSome = (s.group? u).isSome := by
  have e2 := State.sameBeyond_group h u
  cases h1 : s.group? u <;> cases h2 : t.group? u <;> simp_all

/-! ### Writing results -/

theorem State.putReg_thread (s : State) (t : Tid) (f : RFile) (i : Nat) (v : Word) (u : Tid) :
    (s.putReg t f i v).thread? u = s.thread? u := by
  unfold State.putReg
  cases f with
  | v => exact State.poolSet_thread _ _ _ _ _
  | s =>
    unfold State.thread?
    rw [State.group?_updGroup s t u (fun g => { g with sregs := Mem.setW32 g.sregs _ v }) fun _ => rfl]
    split
    · cases s.group? u <;> rfl
    · rfl
  | h =>
    simp only []
    change (s.updGroup t fun g => { g with hregs := Mem.setW32 g.hregs (256 * i + 4 * t.lane) v }).thread? u = _
    unfold State.thread?
    rw [State.group?_updGroup s t u (fun g => { g with hregs := Mem.setW32 g.hregs _ v }) fun _ => rfl]
    split
    · cases s.group? u <;> rfl
    · rfl

theorem State.putReg_cur (s : State) (t : Tid) (f : RFile) (i : Nat) (v : Word) : (s.putReg t f i v).cur = s.cur := by
  cases f <;> rfl

theorem State.putReg_nextId (s : State) (t : Tid) (f : RFile) (i : Nat) (v : Word) : (s.putReg t f i v).nextId = s.nextId := by
  cases f <;> rfl

/-- A thread's record but for its outstanding results is unchanged. -/
def State.onlyLongs (s s' : State) (u : Tid) : Prop := ∃ ls : Thread → List LongRes, s'.thread? u = (s.thread? u).map fun th => { th with longs := ls th }

/-- The dropped results of a thread's registers. -/
theorem State.dropLongs_eq (s : State) (t : Tid) (f : RFile) (i : Nat) :
    ∃ F : Thread → Thread, s.dropLongs t f i = s.updGroup t (fun g => { g with threads := g.threads.map F }) ∧
      (∀ th, F th = th ∨ F th = th.dropLong f i) ∧ (f ≠ .s → ∀ th, th.lane ≠ t.lane → F th = th) := by
  unfold State.dropLongs
  by_cases hf : f = .s
  · rw [if_pos hf]
    exact ⟨fun th => th.dropLong f i, rfl, fun _ => .inr rfl, fun h => absurd hf h⟩
  · rw [if_neg hf]
    refine ⟨fun th => if decide (th.lane = t.lane) = true then th.dropLong f i else th, rfl, fun th => ?_, fun _ th hl => ?_⟩
    · by_cases hl : th.lane = t.lane <;> simp [hl]
    · simp [hl]

theorem Group.thread?_map (g : Group) (F : Thread → Thread) (hF : ∀ th, (F th).lane = th.lane) (l : Nat) :
    ({ g with threads := g.threads.map F } : Group).thread? l = (g.thread? l).map F := by
  unfold Group.thread?
  simp only [List.find?_map]
  congr 2
  funext th
  simp [hF]

/-- A thread after an update of its group's threads, one by one. -/
theorem State.thread?_threads (s : State) (t u : Tid) (F : Thread → Thread) (hF : ∀ th, (F th).lane = th.lane) :
    (s.updGroup t fun g => { g with threads := g.threads.map F }).thread? u =
      if u.team = t.team ∧ u.group = t.group then (s.thread? u).map F else s.thread? u := by
  unfold State.thread?
  rw [State.group?_updGroup s t u (fun g => { g with threads := g.threads.map F }) fun _ => rfl]
  split
  · cases s.group? u with
    | none => rfl
    | some g => exact Group.thread?_map g F hF u.lane
  · rfl

theorem Thread.dropLong_eq (th : Thread) (f : RFile) (i : Nat) (h : ∀ l ∈ th.longs, ∀ x ∈ l.regs, x.file ≠ f) : th.dropLong f i = th := by
  unfold Thread.dropLong
  have : (th.longs.map fun l => { l with regs := l.regs.filter fun x => !decide (x.file = f ∧ x.idx = i) }) = th.longs := by
    conv => rhs; rw [← List.map_id th.longs]
    apply List.map_congr_left
    intro l hl
    have e : (l.regs.filter fun x => !decide (x.file = f ∧ x.idx = i)) = l.regs := by
      rw [List.filter_eq_self]
      intro x hx
      simp [h l hl x hx]
    rw [e]
    rfl
  rw [this]

/-- Results that are dropped change outstanding results alone. -/
theorem State.dropLongs_thread (s : State) (t : Tid) (f : RFile) (i : Nat) (u : Tid) :
    s.onlyLongs (s.dropLongs t f i) u ∧ (u ≠ t → f ≠ .s ∨ s.noSResult u → (s.dropLongs t f i).thread? u = s.thread? u) := by
  obtain ⟨F, e, hF, hother⟩ := s.dropLongs_eq t f i
  have hlane : ∀ th, (F th).lane = th.lane := fun th => by rcases hF th with h | h <;> rw [h]; rfl
  have hlongs : ∀ th, F th = { th with longs := (F th).longs } := fun th => by rcases hF th with h | h <;> rw [h]; rfl
  rw [e, State.onlyLongs, State.thread?_threads s t u F hlane]
  constructor
  · split
    · exact ⟨fun th => (F th).longs, by congr 1; funext th; exact hlongs th⟩
    · exact ⟨fun th => th.longs, by cases s.thread? u <;> rfl⟩
  · intro hne hs
    split
    · rename_i hg
      cases hth : s.thread? u with
      | none => rfl
      | some th =>
        have hl : th.lane = u.lane := by
          unfold State.thread? at hth
          cases hgr : s.group? u with
          | none => rw [hgr] at hth; cases hth
          | some g =>
            rw [hgr] at hth
            simpa using List.find?_some (by simpa [Group.thread?] using hth : (g.threads.find? fun x => decide (x.lane = u.lane)) = some th)
        have : F th = th := by
          rcases hs with hs | hs
          · refine hother hs th fun hx => hne ((Tid.eq_iff u t).2 ⟨hg.1, hg.2, by omega⟩)
          · rcases hF th with h | h
            · exact h
            · by_cases hf : f = .s
              · rw [h]; exact Thread.dropLong_eq th f i fun l hl x hx => hf ▸ hs th hth l hl x hx
              · exact hother hf th fun hx => hne ((Tid.eq_iff u t).2 ⟨hg.1, hg.2, by omega⟩)
        simp [this]
    · rfl

theorem State.dropLongs_same (s : State) (t : Tid) (f : RFile) (i : Nat) : s.sameBeyond (s.dropLongs t f i) := by
  obtain ⟨F, e, hF, -⟩ := s.dropLongs_eq t f i
  rw [e]
  refine State.sameBeyond_updGroup s t _ fun g => ?_
  unfold Group.still
  simp only [List.map_map]
  congr 1
  apply List.map_congr_left
  intro th _
  simp only [Function.comp]
  rcases hF th with h | h <;> rw [h]
  rfl

theorem State.dropLongs_quieter (s : State) (t : Tid) (f : RFile) (i : Nat) (u : Tid) : s.quieter (s.dropLongs t f i) u := by
  obtain ⟨F, e, hF, -⟩ := s.dropLongs_eq t f i
  rw [e]
  refine State.quieter_threads s t u F (fun th => by rcases hF th with h | h <;> rw [h]; rfl) ?_
  intro x n th _ _ l hl hm
  rcases hF th with h | h
  · exact ⟨l, h ▸ hl, hm⟩
  · rw [h] at hl
    obtain ⟨k, hk, rfl⟩ := List.mem_map.1 hl
    refine ⟨k, hk, hm.1, fun hv => hm.2 ?_⟩
    unfold LongRes.valsAt at hv ⊢
    by_cases hr : k.ready = true
    · simp only [hr, if_true, List.map_eq_nil_iff, List.filter_eq_nil_iff, List.mem_filter] at hv ⊢
      exact fun y hy => hv y hy.1
    · simp [hr]

theorem State.dropLongs_regVal (s : State) (t : Tid) (f : RFile) (i : Nat) (u : Tid) (r : Reg) (j : Nat) :
    (s.dropLongs t f i).regVal u r j = s.regVal u r j := by
  obtain ⟨F, e, -, -⟩ := s.dropLongs_eq t f i
  rw [e]
  exact State.regVal_updGroup_keep s t u _ r j fun _ => ⟨rfl, rfl, rfl, rfl, rfl⟩

theorem State.dropLongs_cur (s : State) (t : Tid) (f : RFile) (i : Nat) : (s.dropLongs t f i).cur = s.cur := by
  obtain ⟨F, e, -, -⟩ := s.dropLongs_eq t f i
  rw [e]
  rfl

theorem State.putReg_quieter (s : State) (t : Tid) (f : RFile) (i : Nat) (v : Word) (u : Tid) : s.quieter (s.putReg t f i v) u := by
  have keep : ∀ (F : Group → Group), (∀ g, (F g).num = g.num) → (∀ g, (F g).threads = g.threads) → s.quieter (s.updGroup t F) u := by
    intro F hn ht x n e
    rw [State.pendings_nil] at e ⊢
    rw [State.group?_updGroup s t u F hn]
    intro g' hg'
    split at hg'
    · cases hg : s.group? u with
      | none => rw [hg] at hg'; cases hg'
      | some g =>
        rw [hg] at hg'
        simp only [Option.map_some, Option.some.injEq] at hg'
        subst hg'
        have := e g hg
        unfold Group.writers at this ⊢
        rw [ht]
        exact this
    · exact e g' hg'
  cases f with
  | v =>
    intro x n e
    rw [State.pendings_nil] at e ⊢
    unfold State.putReg
    simp only [State.poolSet_group]
    exact e
  | s => exact keep (fun g => { g with sregs := Mem.setW32 g.sregs (4 * i) v }) (fun _ => rfl) fun _ => rfl
  | h =>
    refine State.quieter_trans (keep (fun g => { g with hregs := Mem.setW32 g.hregs (256 * i + 4 * t.lane) v }) (fun _ => rfl) fun _ => rfl) ?_
    exact State.quieter_same rfl rfl u

theorem State.writeShort_thread (s : State) (t : Tid) (f : RFile) (i : Nat) (v : Word) (u : Tid) :
    s.onlyLongs (s.writeShort t f i v) u ∧ (u ≠ t → f ≠ .s ∨ s.noSResult u → (s.writeShort t f i v).thread? u = s.thread? u) := by
  unfold State.writeShort State.onlyLongs
  rw [State.putReg_thread]
  exact s.dropLongs_thread t f i u

theorem State.writeShort_same (s : State) (t : Tid) (f : RFile) (i : Nat) (v : Word) : s.sameBeyond (s.writeShort t f i v) :=
  State.sameBeyond_trans (s.dropLongs_same t f i) (State.sameBeyond_putReg _ t f i v)

theorem State.writeRegs_same (s : State) (t : Tid) (rs : List LReg) : s.sameBeyond (s.writeRegs t rs) := by
  induction rs generalizing s with
  | nil => exact s.sameBeyond_refl
  | cons x xs ih => exact State.sameBeyond_trans (s.writeShort_same t _ _ _) (ih _)

theorem State.writeRegs_quieter (s : State) (t : Tid) (rs : List LReg) (u : Tid) : s.quieter (s.writeRegs t rs) u := by
  induction rs generalizing s with
  | nil => exact fun _ _ e => e
  | cons x xs ih =>
    exact State.quieter_trans (State.quieter_trans (s.dropLongs_quieter t x.file x.idx u) (State.putReg_quieter _ t _ _ _ u)) (ih _)

theorem onlyLongs_trans {a b c : State} {u : Tid} (h : a.onlyLongs b u) (k : b.onlyLongs c u) : a.onlyLongs c u := by
  obtain ⟨f, hf⟩ := h
  obtain ⟨g, hg⟩ := k
  refine ⟨fun th => g { th with longs := f th }, ?_⟩
  rw [hg, hf]
  cases a.thread? u <;> rfl

theorem State.onlyLongs_of_eq {a b : State} {u : Tid} (h : b.thread? u = a.thread? u) : a.onlyLongs b u :=
  ⟨fun th => th.longs, by rw [h]; cases a.thread? u <;> rfl⟩

theorem State.writeRegs_onlyLongs (s : State) (t : Tid) (rs : List LReg) (u : Tid) : s.onlyLongs (s.writeRegs t rs) u := by
  induction rs generalizing s with
  | nil => exact State.onlyLongs_of_eq rfl
  | cons x xs ih => exact onlyLongs_trans (s.writeShort_thread t x.file x.idx x.val u).1 (ih _)

theorem State.noSResult_of_eq {a b : State} {u : Tid} (h : b.thread? u = a.thread? u) (k : a.noSResult u) : b.noSResult u := by
  unfold State.noSResult at *
  rw [h]
  exact k

theorem State.writeRegs_thread_other (s : State) (t : Tid) (rs : List LReg) (u : Tid) (h : u ≠ t)
    (hs : (∀ x ∈ rs, x.file ≠ .s) ∨ s.noSResult u) : (s.writeRegs t rs).thread? u = s.thread? u := by
  induction rs generalizing s with
  | nil => rfl
  | cons x xs ih =>
    have hx := (s.writeShort_thread t x.file x.idx x.val u).2 h (hs.imp (fun e => e x (List.mem_cons_self ..)) id)
    unfold State.writeRegs
    rw [ih _ (hs.imp (fun e y hy => e y (List.mem_cons_of_mem _ hy)) (State.noSResult_of_eq hx)), hx]

theorem State.writeRegs_cur (s : State) (t : Tid) (rs : List LReg) : (s.writeRegs t rs).cur = s.cur := by
  induction rs generalizing s with
  | nil => rfl
  | cons x xs ih =>
    unfold State.writeRegs
    rw [ih]
    unfold State.writeShort
    rw [State.putReg_cur, State.dropLongs_cur]

theorem State.regVal_writeShort_self (s : State) (t : Tid) (f : RFile) (i : Nat) (v : Word) (r : Reg) (j : Nat)
    (hr : Reg.file? r j = some (f, i)) (ht : (s.group? t).isSome = true) : (s.writeShort t f i v).regVal t r j = v := by
  unfold State.writeShort
  refine State.regVal_putReg_self _ t f i v r j hr ?_
  rw [State.sameBeyond_groupSome (s.dropLongs_same t f i)]
  exact ht

theorem State.regVal_writeShort_other (s : State) (t : Tid) (f : RFile) (i : Nat) (v : Word) (u : Tid) (r : Reg) (j : Nat)
    (hlane : t.lane < 64) (hown : f = .v ∨ f = .h → s.ownReg u r j = true ∨ ∀ n, Reg.file? r j ≠ some (f, n))
    (hbud : f = .v → ∃ tm g, s.team? t.team = some tm ∧ s.group? t = some g ∧ i < (s.descOf tm).budget g)
    (hne : ∀ n, Reg.file? r j = some (f, n) → ¬(n = i ∧ t.team = u.team ∧ t.group = u.group ∧ (f ≠ .s → t.lane = u.lane))) :
    (s.writeShort t f i v).regVal u r j = s.regVal u r j := by
  unfold State.writeShort
  have hs := s.dropLongs_same t f i
  rw [State.regVal_putReg_other _ t f i v u r j hlane (fun hf => ?_) (fun hf => ?_) hne, State.dropLongs_regVal]
  · rw [State.sameBeyond_ownReg hs]; exact hown hf
  · obtain ⟨tm, g, h1, h2, h3⟩ := hbud hf
    obtain ⟨tm', g', e1, e2, e3⟩ := State.sameBeyond_budget hs h1 h2
    exact ⟨tm', g', e1, e2, by rw [e3]; exact h3⟩

/-- A destination that results can be written to: a V register within the window's budget, an s register, or an h register. -/
def State.destOk (s : State) (t : Tid) (d : Reg) (n : Nat) : Prop :=
  t.lane < 64 ∧ (s.group? t).isSome = true ∧
  match d with
  | .v i => ∃ tm g, s.team? t.team = some tm ∧ s.group? t = some g ∧ i.val + n ≤ (s.descOf tm).budget g
  | .s _ | .h _ => True
  | _ => False

theorem State.destOk_same {s s' : State} (h : s.sameBeyond s') {t : Tid} {d : Reg} {n : Nat} (hd : s.destOk t d n) : s'.destOk t d n := by
  obtain ⟨h1, h2, h3⟩ := hd
  refine ⟨h1, by rw [State.sameBeyond_groupSome h]; exact h2, ?_⟩
  cases d with
  | v i =>
    obtain ⟨tm, g, a, b, e⟩ := h3
    obtain ⟨tm', g', a', b', e'⟩ := State.sameBeyond_budget h a b
    exact ⟨tm', g', a', b', by rw [e']; exact e⟩
  | _ => exact h3

/-- A destination's own register lanes are register lanes of the thread. -/
theorem State.destOk_own {s : State} {t : Tid} {d : Reg} {n : Nat} (hd : s.destOk t d n) (j : Nat) (hj : j < n) : s.ownReg t d j = true := by
  obtain ⟨h1, h2, h3⟩ := hd
  cases d with
  | v i =>
    obtain ⟨tm, g, a, b, e⟩ := h3
    unfold State.ownReg
    rw [a, b]
    simp only [decide_eq_true_eq]
    omega
  | s i => unfold State.ownReg; cases s.team? t.team <;> cases s.group? t <;> rfl
  | h i => unfold State.ownReg; cases s.team? t.team <;> cases s.group? t <;> simp [h1]
  | _ => exact h3.elim

/-- Writing consecutive results, from the j-th register of a destination on. -/
theorem State.writeDest (s : State) (t : Tid) (d : Reg) (j : Nat) (vals : List Word) (hd : s.destOk t d (j + vals.length)) :
    (∀ k, k < vals.length → (s.writeRegs t (destRegs true d j vals)).regVal t d (j + k) = vals.getD k 0) ∧
    (∀ u r k, s.ownReg u r k = true ∨ Reg.file? r k = none → isDest t d (j + vals.length) u r k = false →
      (s.writeRegs t (destRegs true d j vals)).regVal u r k = s.regVal u r k) ∧
    (∀ k, k < j → (s.writeRegs t (destRegs true d j vals)).regVal t d k = s.regVal t d k) := by
  induction vals generalizing s j with
  | nil =>
    refine ⟨fun k hk => by simp at hk, fun u r k _ _ => rfl, fun k _ => rfl⟩
  | cons v vs ih =>
    have hfile : ∃ f i, Reg.file? d j = some (f, i) ∧ destRegs true d j (v :: vs) = { file := f, idx := i, val := v } :: destRegs true d (j + 1) vs := by
      cases d with
      | v i => exact ⟨.v, _, rfl, rfl⟩
      | s i => exact ⟨.s, _, rfl, rfl⟩
      | h i => exact ⟨.h, _, rfl, rfl⟩
      | _ => exact hd.2.2.elim
    obtain ⟨f, i, hf, he⟩ := hfile
    rw [he]
    have hs := s.writeShort_same t f i v
    have hlen : j + (v :: vs).length = j + 1 + vs.length := by simp; omega
    rw [hlen] at hd ⊢
    obtain ⟨a, b, e⟩ := ih (s.writeShort t f i v) (j + 1) (State.destOk_same hs hd)
    have hbud : f = .v → ∃ tm g, s.team? t.team = some tm ∧ s.group? t = some g ∧ i < (s.descOf tm).budget g := by
      intro hv
      cases d with
      | v x =>
        obtain ⟨tm, g, h1, h2, h3⟩ := hd.2.2
        simp only [Reg.file?, Option.some.injEq, Prod.mk.injEq] at hf
        exact ⟨tm, g, h1, h2, by omega⟩
      | s x => simp only [Reg.file?, Option.some.injEq, Prod.mk.injEq] at hf; rw [← hf.1] at hv; cases hv
      | h x => simp only [Reg.file?, Option.some.injEq, Prod.mk.injEq] at hf; rw [← hf.1] at hv; cases hv
      | _ => exact hd.2.2.elim
    unfold State.writeRegs
    simp only []
    refine ⟨fun k hk => ?_, fun u r k hown hdis => ?_, fun k hk => ?_⟩
    · cases k with
      | zero =>
        rw [show j + 0 = j from rfl, e j (by omega)]
        exact State.regVal_writeShort_self s t f i v d j hf hd.2.1
      | succ k =>
        have := a k (by simpa using hk)
        rw [show j + (k + 1) = j + 1 + k by omega, this]
        rfl
    · rw [b u r k (by rw [State.sameBeyond_ownReg hs]; exact hown) hdis]
      have hown' : s.ownReg u r k = true ∨ ∀ n, Reg.file? r k ≠ some (f, n) := hown.imp id fun e n => by rw [e]; exact nofun
      refine State.regVal_writeShort_other s t f i v u r k hd.1 (fun _ => hown') hbud ?_
      rintro n hn ⟨rfl, h1, h2, h3⟩
      revert hdis
      cases d with
      | v x =>
        simp only [Reg.file?, Option.some.injEq, Prod.mk.injEq] at hf
        obtain ⟨rfl, rfl⟩ := hf
        cases r <;> simp only [Reg.file?, Option.some.injEq, Prod.mk.injEq, reduceCtorEq, false_and, true_and] at hn
        simp only [isDest, decide_eq_false_iff_not, (Tid.eq_iff t u).2 ⟨h1, h2, h3 (by decide)⟩]
        intro hx; exact hx ⟨trivial, by omega, by omega⟩
      | s x =>
        simp only [Reg.file?, Option.some.injEq, Prod.mk.injEq] at hf
        obtain ⟨rfl, rfl⟩ := hf
        cases r <;> simp only [Reg.file?, Option.some.injEq, Prod.mk.injEq, reduceCtorEq, false_and, true_and] at hn
        simp only [isDest, decide_eq_false_iff_not]
        intro hx; exact hx ⟨h1, h2, by omega, by omega⟩
      | h x =>
        simp only [Reg.file?, Option.some.injEq, Prod.mk.injEq] at hf
        obtain ⟨rfl, rfl⟩ := hf
        cases r <;> simp only [Reg.file?, Option.some.injEq, Prod.mk.injEq, reduceCtorEq, false_and, true_and] at hn
        simp only [isDest, decide_eq_false_iff_not, (Tid.eq_iff t u).2 ⟨h1, h2, h3 (by decide)⟩]
        intro hx; exact hx ⟨trivial, by omega, by omega⟩
      | _ => exact hd.2.2.elim
    · rw [e k (by omega)]
      refine State.regVal_writeShort_other s t f i v t d k hd.1 (fun _ => .inl (State.destOk_own hd k (by omega))) hbud ?_
      rintro n hn ⟨rfl, -⟩
      cases d <;> simp only [Reg.file?, Option.some.injEq, Prod.mk.injEq, reduceCtorEq] at hf hn <;> omega

end Sys2Proof.Machine
end

