-- ==== Sys2Proof/Laws/Lanes.lean ====
section
/-! SUPPORT. Words that act lane by lane: each active lane's destination holds its result, at once or as a long result on its way, and everything else is left alone. -/

namespace Sys2Proof.Machine

/-- Lane by lane, with an invariant of the lanes that remain. -/
theorem State.eachLane_inv (ops : List Opd) (f : Tid → List (List Word) → State → State × Option Park) (I : List Tid → State → Prop)
    (hI : ∀ t ts s, I (t :: ts) s → (s.thread? t).isSome = true ∧ (∃ c, s.cur = some c ∧ c.popped = []) ∧ s.plainAt t ops ∧
      ∃ s', f t (s.opdVals t ops) s = (s', none) ∧ I ts s') (ts : List Tid) (s : State) (h : I ts s) :
    I [] (s.eachLane ops f ts) := by
  induction ts generalizing s with
  | nil => exact h
  | cons t ts ih =>
    obtain ⟨h1, ⟨c, h2, h3⟩, h4, s', h5, h6⟩ := hI t ts s h
    unfold State.eachLane
    rw [if_neg (by cases hx : s.thread? t <;> simp_all)]
    have hh : s.had t = [] := by unfold State.had Cur.had; rw [h2]; simp only [h3]; rfl
    simp only [hh, State.readOps_plain s t ops h4, h5]
    exact ih s' h6

/-! ### What `clear` says of operands -/

theorem State.begun_same (s : State) (c : Cur) (h : Hdr) : s.sameBeyond (s.begun c h) := by
  obtain ⟨m1, h1⟩ := s.issue_eq c (gapCycles h.gap) h.gw
  have := s.advanceAll_same c (gapCycles h.gap) h.gw
  unfold State.begun
  rw [h1]
  exact ⟨this.1, this.2⟩

theorem State.begun_entered (s : State) (c : Cur) (h : Hdr) (ops : List Opd) : (s.begun c h).sameBeyond (s.entered c h ops) := by
  obtain ⟨m2, h2⟩ := (s.begun c h).onlyMonitors_countUniform (s.curIn c h) ops (s.actives c h)
  unfold State.entered
  rw [h2]
  exact ⟨rfl, rfl⟩

theorem State.actives_mem {s : State} {c : Cur} {h : Hdr} {t : Tid} (ht : t ∈ s.actives c h) : t ∈ c.lanes :=
  (List.mem_filter.1 ht).1

theorem Cur.ok_lane {c : Cur} (hc : c.ok = true) {t : Tid} (ht : t ∈ c.lanes) : t.team = c.team ∧ t.lane < 64 := by
  unfold Cur.ok at hc
  simp only [Bool.and_eq_true, List.all_eq_true, decide_eq_true_eq] at hc
  exact hc.1 t ht

theorem Cur.ok_nodup {c : Cur} (hc : c.ok = true) : c.lanes.Nodup := by
  unfold Cur.ok at hc
  simp only [Bool.and_eq_true, decide_eq_true_eq] at hc
  exact List.Nodup.of_map _ hc.2

/-- An active lane's operands are legal and within its budget. -/
theorem State.clear_opd {s : State} {c : Cur} {h : Hdr} {k : Checks} (hc : s.clear c h k = true) {t : Tid} (ht : t ∈ s.actives c h)
    {o : Opd} (ho : o ∈ k.ops) :
    ∃ th tm g, (s.begun c h).thread? t = some th ∧ (s.begun c h).team? t.team = some tm ∧ (s.begun c h).group? t = some g ∧
      o.illegal th.handler = false ∧ o.overBudget (((s.begun c h).descOf tm).budget g) = false := by
  obtain ⟨-, -, -, -, -, -, hall⟩ := (State.clear_iff s c h k).1 hc
  have hu := (hall t ht).1
  unfold State.untrapped at hu
  split at hu
  · rename_i th tm g h1 h2 h3
    refine ⟨th, tm, g, h1, h2, h3, ?_⟩
    have hd := of_decide_eq_true hu
    unfold Checks.decodeTrap at hd
    split at hd
    · cases hd
    · split at hd
      · cases hd
      · split at hd
        · cases hd
        · rename_i hreg
          split at hd
          · cases hd
          · rename_i hbud
            simp only [Bool.or_eq_true, not_or, List.any_eq_true, not_exists, not_and] at hreg hbud
            exact ⟨by simpa using hreg.2 o ho, by simpa using hbud o ho⟩
  · cases hu

/-- An active lane's operand registers are its own. -/
theorem State.clear_own {s : State} {c : Cur} {h : Hdr} {k : Checks} (hc : s.clear c h k = true) {t : Tid} (ht : t ∈ s.actives c h)
    {o : Opd} (ho : o ∈ k.ops) {j : Nat} (hj : j < o.n) :
    (s.entered c h k.ops).ownReg t o.reg j = true ∨ Reg.file? o.reg j = none := by
  obtain ⟨th, tm, g, h1, h2, h3, -, h5⟩ := State.clear_opd hc ht ho
  obtain ⟨-, -, -, hok, -⟩ := (State.clear_iff s c h k).1 hc
  have hl := (Cur.ok_lane hok (State.actives_mem ht)).2
  rw [State.sameBeyond_ownReg (s.begun_entered c h k.ops)]
  cases hr : o.reg with
  | v i =>
    left
    unfold State.ownReg
    rw [h2, h3]
    unfold Opd.overBudget at h5
    rw [hr] at h5
    simp only [decide_eq_false_iff_not, decide_eq_true_eq] at h5 ⊢
    omega
  | s i => left; unfold State.ownReg; rw [h2, h3]
  | h i => left; unfold State.ownReg; rw [h2, h3]; simp [hl]
  | _ => right; rfl

/-- An active lane's destination can be written. -/
theorem State.clear_dest {s : State} {c : Cur} {h : Hdr} {k : Checks} (hc : s.clear c h k = true) {t : Tid} (ht : t ∈ s.actives c h)
    {o : Opd} (ho : o ∈ k.ops) (hu : o.use = .wr ∨ o.use = .rw) (hq : ∀ i, o.reg ≠ .q i) {n : Nat} (hn : n ≤ o.n) :
    (s.entered c h k.ops).destOk t o.reg n := by
  obtain ⟨th, tm, g, h1, h2, h3, h4, h5⟩ := State.clear_opd hc ht ho
  obtain ⟨-, -, -, hok, -⟩ := (State.clear_iff s c h k).1 hc
  refine State.destOk_same (s.begun_entered c h k.ops) ⟨(Cur.ok_lane hok (State.actives_mem ht)).2, by rw [h3]; rfl, ?_⟩
  have hrd : o.use ≠ .rd := by rcases hu with e | e <;> rw [e] <;> decide
  cases hr : o.reg with
  | v i =>
    refine ⟨tm, g, h2, h3, ?_⟩
    unfold Opd.overBudget at h5
    rw [hr] at h5
    simp only [decide_eq_false_iff_not] at h5
    omega
  | s i => trivial
  | h i => trivial
  | q i => exact absurd hr (hq i)
  | k i => unfold Opd.illegal at h4; rw [hr] at h4; simp [hrd] at h4
  | sv i => unfold Opd.illegal at h4; rw [hr] at h4; simp [hrd] at h4
  | rsv i => unfold Opd.illegal at h4; rw [hr] at h4; simp at h4

theorem isDest_mono {t : Tid} {d : Reg} {n m : Nat} {u : Tid} {r : Reg} {j : Nat} (h : isDest t d m u r j = false) (hn : n ≤ m) :
    isDest t d n u r j = false := by
  revert h
  cases d <;> cases r <;> simp only [isDest, decide_eq_false_iff_not] <;> first | (intro h hx; exact h (by omega)) | (intro h hx; exact h ⟨hx.1, by omega⟩) | exact fun _ => trivial

/-! ### Invariant of a set's lanes -/

/-- The lanes done so far, and the others to come; `keep` names those whose outstanding results no lane changes. -/
structure Progress (e : State) (keep : Tid → Prop) (act done ts : List Tid) (s : State) : Prop where
  split : act = done ++ ts
  same : e.sameBeyond s
  cur : s.cur = e.cur
  longs : ∀ u, e.onlyLongs s u
  quiet : ∀ u, u ∉ done → e.quieter s u
  rest : ∀ u, u ∉ done → keep u → s.thread? u = e.thread? u

/-- The next lane has not been done. -/
theorem Progress.fresh {e s : State} {keep : Tid → Prop} {act done ts : List Tid} {t : Tid} (p : Progress e keep act done (t :: ts) s) (hn : act.Nodup) : t ∉ done := by
  intro hd
  rw [p.split] at hn
  exact (List.nodup_append.1 hn).2.2 t hd t (List.mem_cons_self ..) rfl

/-- One lane more is done. -/
theorem Progress.next {e s s' : State} {keep : Tid → Prop} {act done ts : List Tid} {t : Tid} (p : Progress e keep act done (t :: ts) s)
    (h1 : s.sameBeyond s') (h2 : s'.cur = s.cur) (h3 : ∀ u, s.onlyLongs s' u) (h4 : ∀ u, u ≠ t → s.quieter s' u)
    (h5 : ∀ u, u ≠ t → u ∉ done → keep u → s'.thread? u = s.thread? u) : Progress e keep act (done ++ [t]) ts s' where
  split := by rw [p.split]; simp
  same := State.sameBeyond_trans p.same h1
  cur := by rw [h2, p.cur]
  longs u := onlyLongs_trans (p.longs u) (h3 u)
  quiet u hu := by
    simp only [List.mem_append, List.mem_singleton, not_or] at hu
    exact State.quieter_trans (p.quiet u hu.1) (h4 u hu.2)
  rest u hu hk := by
    simp only [List.mem_append, List.mem_singleton, not_or] at hu
    rw [h5 u hu.2 hu.1 hk, p.rest u hu.1 hk]

/-! ### Words that compute one result a lane -/

/-- No lane done before one that a destination takes writes a register that it reads. -/
theorem Progress.unread {s : State} {c : Cur} {h : Hdr} {done ts : List Tid} {t : Tid} {d : Reg} {n : Nat} {r : Reg} {j : Nat}
    (hsplit : s.actives c h = done ++ t :: ts) (htd : t ∉ done) (htake : (s.curIn c h).takes t d = true)
    {a : Tid} (ha : a ∈ done) : isDest a d n t r j = false := by
  have hne : a ≠ t := fun e => htd (e ▸ ha)
  cases d with
  | v i => cases r <;> simp [isDest, hne]
  | h i => cases r <;> simp [isDest, hne]
  | s i =>
    cases r with
    | s k =>
      simp only [isDest, decide_eq_false_iff_not]
      rintro ⟨-, hg, -, -⟩
      unfold Cur.takes Cur.lead State.curIn at htake
      simp only [Cur.withSet_set, hsplit] at htake
      rw [List.find?_append] at htake
      cases hf : done.find? fun x => decide (x.group = t.group) with
      | none =>
        have := List.find?_eq_none.1 hf a ha
        simp [hg] at this
      | some x =>
        rw [hf] at htake
        simp only [Option.some_or, decide_eq_true_eq] at htake
        exact htd (htake ▸ List.mem_of_find?_eq_some hf)
    | _ => rfl
  | _ => rfl

/-- What a lane reads when its turn comes is what it would have read at first, if its destination takes its result. -/
theorem State.opdVals_congr {s e : State} {t : Tid} {ops : List Opd} (h : ∀ o ∈ ops, ∀ j, j < o.n → s.regVal t o.reg j = e.regVal t o.reg j) :
    s.opdVals t ops = e.opdVals t ops := by
  unfold State.opdVals
  apply List.map_congr_left
  intro o ho
  split
  · rfl
  · apply List.map_congr_left
    intro j hj
    exact h o ho j (List.mem_range.1 hj)

theorem State.entered_opdVals {s : State} {c : Cur} (hc : s.cur = some c) (h : Hdr) (ops ops' : List Opd) (t : Tid) :
    (s.entered c h ops').opdVals t ops = s.opdVals t ops :=
  State.opdVals_congr fun _ _ _ _ => State.entered_regVal hc h ops' t _ _

theorem destRegs_lead {d : Reg} {lead : Bool} (h : (match d with | .s _ => lead | _ => true) = true) (j : Nat) (vals : List Word) :
    destRegs lead d j vals = destRegs true d j vals := by
  induction vals generalizing j with
  | nil => rfl
  | cons v vs ih =>
    unfold destRegs
    rw [ih]
    cases d <;> simp_all [Reg.file?]

theorem destRegs_not_lead (i : Fin 64) (j : Nat) (vals : List Word) : destRegs false (.s i) j vals = [] := by
  induction vals generalizing j with
  | nil => rfl
  | cons v vs ih => unfold destRegs; simp [Reg.file?, ih]

/-- The result registers of a lane, as `result` computes them. -/
theorem State.result_plain {s : State} {c : Cur} (hc : s.cur = some c) (t : Tid) (long : Bool) (d : Reg) (vals : List Word) (hq : ∀ i, d ≠ .q i) :
    s.result t long d vals =
      (if long then (s.addLong t true (destRegs (c.lead t) d 0 vals) d.isS).2 else s.writeRegs t (destRegs (c.lead t) d 0 vals), none) := by
  have hl : s.leads t = c.lead t := by unfold State.leads; rw [hc]
  unfold State.result
  rw [hl]
  cases d with
  | q i => exact absurd rfl (hq i)
  | _ => simp only []; split <;> rfl

theorem State.entered_plainAt {s : State} {c : Cur} (hc : s.cur = some c) {h : Hdr} {ops ops' : List Opd} (hp : s.plain (s.actives c h) ops = true)
    {t : Tid} (ht : t ∈ s.actives c h) : (s.entered c h ops').plainAt t ops :=
  State.plainAt_quieter (State.plain_at hp ht) (State.entered_quieter hc h ops' t)

theorem destRegs_noS {d : Reg} (hd : d.isS = false) (lead : Bool) (j : Nat) (vals : List Word) : ∀ x ∈ destRegs lead d j vals, x.file ≠ .s := by
  induction vals generalizing j with
  | nil => intro x hx; cases hx
  | cons v vs ih =>
    intro x hx
    unfold destRegs at hx
    cases d with
    | s i => cases hd
    | v i => rcases List.mem_cons.1 hx with rfl | hx
             · exact nofun
             · exact ih _ x hx
    | h i => rcases List.mem_cons.1 hx with rfl | hx
             · exact nofun
             · exact ih _ x hx
    | _ => exact ih _ x hx

/-- A short word: each active lane's destination holds its result, other registers are unchanged, and so is everything else. -/
theorem State.shortLanes {s : State} {c : Cur} {h : Hdr} {k : Checks} (hc : s.clear c h k = true) {ops : List Opd} {d : Opd} {f : State → Tid → List (List Word) → List Word}
    (hops : k.ops = ops) (hp : s.plain (s.actives c h) ops = true) (hmem : d ∈ ops) (hu : d.use = .wr ∨ d.use = .rw) (hlen : ∀ s t v, (f s t v).length ≤ d.n)
    (hf : ∀ s' t, t ∈ s.actives c h → (s.entered c h ops).onlyLongs s' t → f s' t = f (s.entered c h ops) t) :
    ∃ t, (s.entered c h ops).eachLane ops (fun t vals s => s.result t false d.reg (f s t vals)) (s.actives c h) = t ∧
      s.sameBeyond t ∧ (∀ u, (s.entered c h ops).onlyLongs t u) ∧ (∀ u, u ∉ c.lanes → d.reg.isS = false ∨ s.noSResult u → t.thread? u = s.thread? u) ∧
      (∀ u ∈ s.actives c h, (s.curIn c h).takes u d.reg = true → ∀ j, j < (f (s.entered c h ops) u (s.opdVals u ops)).length →
        t.regVal u d.reg j = (f (s.entered c h ops) u (s.opdVals u ops)).getD j 0) ∧
      (∀ u r j, s.ownReg u r j = true ∨ Reg.file? r j = none → (∀ a ∈ s.actives c h, isDest a d.reg d.n u r j = false) →
        t.regVal u r j = s.regVal u r j) := by
  subst hops
  obtain ⟨hcur, hr, hpop, hok, -⟩ := (State.clear_iff s c h k).1 hc
  have hnd : (s.actives c h).Nodup := (Cur.ok_nodup hok).filter _
  set e := s.entered c h k.ops with he
  have hecur : e.cur = some (s.curIn c h) := State.entered_cur s c h k.ops
  have hq : ∀ i, d.reg ≠ .q i := by
    intro i hi
    have := List.all_eq_true.1 hp d hmem
    rw [hi] at this
    simp at this
  refine ⟨_, rfl, ?_⟩
  let I : List Tid → State → Prop := fun ts s' => ∃ done, Progress e (fun u => d.reg.isS = false ∨ e.noSResult u) (s.actives c h) done ts s' ∧
    (∀ u ∈ done, (s.curIn c h).takes u d.reg = true → ∀ j, j < (f e u (e.opdVals u k.ops)).length →
      s'.regVal u d.reg j = (f e u (e.opdVals u k.ops)).getD j 0) ∧
    (∀ u r j, e.ownReg u r j = true ∨ Reg.file? r j = none → (∀ a ∈ done, isDest a d.reg d.n u r j = false) →
      s'.regVal u r j = e.regVal u r j)
  have hI0 : I (s.actives c h) e :=
    ⟨[], ⟨rfl, e.sameBeyond_refl, rfl, fun u => State.onlyLongs_of_eq rfl, fun _ _ _ _ e => e, fun _ _ _ => rfl⟩, fun u hu => by simp at hu, fun _ _ _ _ _ => rfl⟩
  have hfin := State.eachLane_inv k.ops (fun t vals s => s.result t false d.reg (f s t vals)) I (by
    rintro t ts s' ⟨done, p, hres, hoth⟩
    have hfresh := p.fresh hnd
    have hmemt : t ∈ s.actives c h := by rw [p.split]; simp
    have hth : (s'.thread? t).isSome = (e.thread? t).isSome := by
      obtain ⟨ls, hls⟩ := p.longs t
      rw [hls, Option.isSome_map]
    have hsome : (e.thread? t).isSome = true := by
      obtain ⟨th, tm, g, h1, -⟩ := State.clear_opd hc hmemt hmem
      obtain ⟨m2, h2⟩ := (s.begun c h).onlyMonitors_countUniform (s.curIn c h) k.ops (s.actives c h)
      have : e.thread? t = (s.begun c h).thread? t := by rw [he]; unfold State.entered; rw [h2]; rfl
      rw [this, h1]; rfl
    have hcur' : s'.cur = some (s.curIn c h) := by rw [p.cur, hecur]
    refine ⟨by rw [hth]; exact hsome, ⟨s.curIn c h, hcur', by simp [State.curIn, hpop]⟩, ?_, ?_⟩
    · exact State.plainAt_quieter (State.entered_plainAt hcur hp hmemt) (p.quiet t hfresh)
    · have hdest : s'.destOk t d.reg d.n := State.destOk_same p.same (State.clear_dest hc hmemt hmem hu hq (Nat.le_refl _))
      have hfs : f s' t = f e t := hf s' t hmemt (p.longs t)
      rw [hfs]
      refine ⟨_, State.result_plain hcur' t false d.reg _ hq, ?_⟩
      simp only [Bool.false_eq_true, if_false]
      by_cases htake : (s.curIn c h).takes t d.reg = true
      · have hvals : s'.opdVals t k.ops = e.opdVals t k.ops := State.opdVals_congr fun o ho j hj =>
          hoth t o.reg j (State.clear_own hc hmemt ho hj) fun a ha => Progress.unread p.split hfresh htake ha
        rw [destRegs_lead (by cases hd : d.reg <;> simp_all [Cur.takes]), hvals]
        generalize hv : f e t (e.opdVals t k.ops) = vals
        have hle : vals.length ≤ d.n := hv ▸ hlen e t _
        have hdest' : s'.destOk t d.reg (0 + vals.length) := by
          obtain ⟨a, b, x⟩ := hdest
          refine ⟨a, b, ?_⟩
          cases hd : d.reg with
          | v i => rw [hd] at x; obtain ⟨tm, g, x1, x2, x3⟩ := x; exact ⟨tm, g, x1, x2, by omega⟩
          | _ => rw [hd] at x; exact x
        obtain ⟨w1, w2, -⟩ := State.writeDest s' t d.reg 0 vals hdest'
        refine ⟨done ++ [t], p.next (s'.writeRegs_same t _) (s'.writeRegs_cur t _) (s'.writeRegs_onlyLongs t _) (fun u _ => s'.writeRegs_quieter t _ u)
          (fun u hu hd2 hk => s'.writeRegs_thread_other t _ u hu ?_), ?_, ?_⟩
        · exact hk.imp (fun hd => destRegs_noS hd _ _ _) fun hn => State.noSResult_of_eq (p.rest u hd2 hk) hn
        · intro u hu2 htk j hj
          rcases List.mem_append.1 hu2 with hd1 | hd1
          · have hut : u ≠ t := fun x => hfresh (x ▸ hd1)
            have hmu : u ∈ s.actives c h := by rw [p.split]; simp [hd1]
            rw [w2 u d.reg j ?_ ?_]
            · exact hres u hd1 htk j hj
            · rw [State.sameBeyond_ownReg p.same]
              exact .inl (State.destOk_own (State.clear_dest hc hmu hmem hu hq (Nat.le_refl _)) j (Nat.lt_of_lt_of_le hj (hlen _ _ _)))
            · have hx : t.group = u.group → ∀ i, d.reg = .s i → False := by
                intro hg i hi
                have h1 : (s.curIn c h).lead t = true := by rw [hi] at htake; exact htake
                have h2 : (s.curIn c h).lead u = true := by rw [hi] at htk; exact htk
                unfold Cur.lead at h1 h2
                rw [hg] at h1
                cases hfd : (s.curIn c h).set.find? fun x => decide (x.group = u.group) with
                | none =>
                  have := List.find?_eq_none.1 hfd u (by simp [State.curIn, hmu])
                  simp at this
                | some x =>
                  rw [hfd] at h1 h2
                  simp only [decide_eq_true_eq] at h1 h2
                  exact hut (h2.symm.trans h1)
              cases hd : d.reg with
              | v i => simp [isDest, Ne.symm hut]
              | h i => simp [isDest, Ne.symm hut]
              | s i =>
                simp only [isDest, decide_eq_false_iff_not]
                rintro ⟨-, hg, -⟩
                exact hx hg i hd
              | _ => rfl
          · simp only [List.mem_singleton] at hd1
            subst hd1
            rw [hv] at hj ⊢
            have := w1 j hj
            rwa [Nat.zero_add] at this
        · intro u r j hown hdis
          rw [w2 u r j ?_ ?_]
          · exact hoth u r j hown fun a ha => hdis a (by simp [ha])
          · rw [State.sameBeyond_ownReg p.same]; exact hown
          · exact isDest_mono (hdis t (by simp)) (by omega)
      · have hs : ∃ i, d.reg = .s i := by
          cases hd : d.reg with
          | s i => exact ⟨i, rfl⟩
          | _ => rw [hd] at htake; exact absurd rfl htake
        obtain ⟨i, hi⟩ := hs
        have hl : (s.curIn c h).lead t = false := by
          rw [hi] at htake
          exact Bool.eq_false_iff.2 htake
        rw [hi, hl, destRegs_not_lead]
        refine ⟨done ++ [t], p.next s'.sameBeyond_refl rfl (fun _ => State.onlyLongs_of_eq rfl) (fun _ _ _ _ e => e) (fun _ _ _ _ => rfl), ?_, ?_⟩
        · intro u hu2 htk j hj
          rcases List.mem_append.1 hu2 with hd1 | hd1
          · exact hres u hd1 htk j hj
          · simp only [List.mem_singleton] at hd1
            subst hd1
            exact absurd htk htake
        · intro u r j hown hdis
          exact hoth u r j hown fun a ha => hdis a (by simp [ha])) (s.actives c h) e hI0
  obtain ⟨done, p, hres, hoth⟩ := hfin
  have hdone : done = s.actives c h := by have := p.split; simpa using this.symm
  subst hdone
  refine ⟨State.sameBeyond_trans (s.entered_same c h k.ops) p.same, p.longs, ?_, ?_, ?_⟩
  · intro u hu2 hk
    have heq : e.thread? u = s.thread? u := by rw [he, State.entered_thread, if_neg hu2]
    rw [p.rest u (fun hx => hu2 (State.actives_mem hx)) (hk.imp id (State.noSResult_of_eq heq)), heq]
  · intro u hu2 htk j hj
    have hv := State.entered_opdVals hcur h k.ops k.ops u
    rw [← hv] at hj ⊢
    exact hres u hu2 htk j hj
  · intro u r j hown hdis
    rw [hoth u r j ?_ hdis]
    · exact State.entered_regVal hcur h k.ops u r j
    · rw [State.sameBeyond_ownReg (s.entered_same c h k.ops)]; exact hown

/-! ### Long results -/

theorem State.addLong_thread (s : State) (t : Tid) (ready : Bool) (regs : List LReg) (sh : Bool) (u : Tid) :
    (s.addLong t ready regs sh).2.thread? u =
      if u = t then (s.thread? u).map fun th =>
        { th with longs := th.longs ++ [{ id := s.nextId, ready := ready, regs := regs, issue := if sh then s.issueNo else none }] }
      else s.thread? u :=
  State.thread?_updThread s.fresh.2 t u
    (fun th => { th with longs := th.longs ++ [{ id := s.nextId, ready := ready, regs := regs, issue := if sh then s.issueNo else none }] }) fun _ => rfl

theorem State.addLong_regVal (s : State) (t : Tid) (ready : Bool) (regs : List LReg) (sh : Bool) (u : Tid) (r : Reg) (j : Nat) :
    (s.addLong t ready regs sh).2.regVal u r j = s.regVal u r j := by
  unfold State.addLong
  rw [State.regVal_updThread]
  rfl

theorem State.addLong_same (s : State) (t : Tid) (ready : Bool) (regs : List LReg) (sh : Bool) : s.sameBeyond (s.addLong t ready regs sh).2 :=
  State.sameBeyond_trans (t := s.fresh.2) ⟨rfl, rfl⟩ (State.sameBeyond_updThread s.fresh.2 t _ fun _ => rfl)

/-- A long result of a word brings no other thread an outstanding write that another word could meet. -/
theorem State.addLong_quieter (s : State) (t : Tid) (ready : Bool) (regs : List LReg) (sh : Bool) (u : Tid) (hu : u ≠ t)
    (hc : s.cur.isSome = true) (hs : sh = true ∨ ∀ x ∈ regs, x.file ≠ .s) : s.quieter (s.addLong t ready regs sh).2 u := by
  refine State.quieter_trans (State.quieter_same (s' := s.fresh.2) rfl rfl u) (State.quieter_updThread s.fresh.2 t u
    (fun th => { th with longs := th.longs ++ [{ id := s.nextId, ready := ready, regs := regs, issue := if sh then s.issueNo else none }] })
    (fun _ => rfl) ?_)
  intro x i th hx l hl hm
  rcases List.mem_append.1 hl with hl | hl
  · exact ⟨l, hl, hm⟩
  · exfalso
    have hx : x = .s := hx.resolve_left hu
    simp only [List.mem_singleton] at hl
    subst hl
    obtain ⟨c, hc⟩ := Option.isSome_iff_exists.1 hc
    have hi : s.issueNo = some c.issue := by unfold State.issueNo; rw [hc]; rfl
    have hi' : s.fresh.2.issueNo = some c.issue := hi
    obtain ⟨h1, h2⟩ := hm
    rw [hi'] at h1
    by_cases h : sh = true
    · simp [h, hi] at h1
    · refine h2 ?_
      have hs := hs.resolve_left h
      unfold LongRes.valsAt
      simp only [ite_eq_right_iff, List.map_eq_nil_iff, List.filter_eq_nil_iff, decide_eq_true_eq, not_and]
      intro _ y hy hf
      exact absurd (hf.trans hx) (hs y hy)

theorem State.addLong_cur (s : State) (t : Tid) (ready : Bool) (regs : List LReg) (sh : Bool) : (s.addLong t ready regs sh).2.cur = s.cur := rfl

/-- A long word: each active lane gains one long result with its destination registers and values, and everything else is left alone. -/
theorem State.longLanes {s : State} {c : Cur} {h : Hdr} {k : Checks} (hc : s.clear c h k = true) {ops : List Opd} {d : Opd}
    {f : State → Tid → List (List Word) → List Word}
    (hops : k.ops = ops) (hp : s.plain (s.actives c h) ops = true) (hmem : d ∈ ops)
    (hf : ∀ s' t v, t ∈ s.actives c h → (s.entered c h ops).sameBeyond s' → s'.cur = (s.entered c h ops).cur →
      s'.thread? t = (s.entered c h ops).thread? t → f s' t v = f (s.entered c h ops) t v) :
    ∃ t, (s.entered c h ops).eachLane ops (fun t vals s => s.result t true d.reg (f s t vals)) (s.actives c h) = t ∧
      s.sameBeyond t ∧ (∀ u, (s.entered c h ops).onlyLongs t u) ∧ (∀ u, u ∉ s.actives c h → t.thread? u = s.issuedThread c h u) ∧
      (∀ u ∈ s.actives c h, gainsLong ((s.entered c h ops).thread? u) (t.thread? u)
        (destRegs ((s.curIn c h).lead u) d.reg 0 (f (s.entered c h ops) u (s.opdVals u ops))) (c.shares [d.reg])) ∧
      (∀ u r j, t.regVal u r j = s.regVal u r j) := by
  subst hops
  obtain ⟨hcur, hr, hpop, hok, -⟩ := (State.clear_iff s c h k).1 hc
  have hnd : (s.actives c h).Nodup := (Cur.ok_nodup hok).filter _
  set e := s.entered c h k.ops with he
  have hecur : e.cur = some (s.curIn c h) := State.entered_cur s c h k.ops
  have hq : ∀ i, d.reg ≠ .q i := by
    intro i hi
    have := List.all_eq_true.1 hp d hmem
    rw [hi] at this
    simp at this
  refine ⟨_, rfl, ?_⟩
  let I : List Tid → State → Prop := fun ts s' => ∃ done, Progress e (fun _ => True) (s.actives c h) done ts s' ∧
    (∀ u ∈ done, gainsLong (e.thread? u) (s'.thread? u) (destRegs ((s.curIn c h).lead u) d.reg 0 (f e u (e.opdVals u k.ops)))
      (c.shares [d.reg])) ∧
    (∀ u r j, s'.regVal u r j = e.regVal u r j)
  have hI0 : I (s.actives c h) e :=
    ⟨[], ⟨rfl, e.sameBeyond_refl, rfl, fun u => State.onlyLongs_of_eq rfl, fun _ _ _ _ e => e, fun _ _ _ => rfl⟩, fun u hu => by simp at hu, fun _ _ _ => rfl⟩
  have hfin := State.eachLane_inv k.ops (fun t vals s => s.result t true d.reg (f s t vals)) I (by
    rintro t ts s' ⟨done, p, hres, hoth⟩
    have hfresh := p.fresh hnd
    have hmemt : t ∈ s.actives c h := by rw [p.split]; simp
    have hth : s'.thread? t = e.thread? t := p.rest t hfresh trivial
    have hsome : (e.thread? t).isSome = true := by
      obtain ⟨th, tm, g, h1, -⟩ := State.clear_opd hc hmemt hmem
      obtain ⟨m2, h2⟩ := (s.begun c h).onlyMonitors_countUniform (s.curIn c h) k.ops (s.actives c h)
      have : e.thread? t = (s.begun c h).thread? t := by rw [he]; unfold State.entered; rw [h2]; rfl
      rw [this, h1]; rfl
    have hcur' : s'.cur = some (s.curIn c h) := by rw [p.cur, hecur]
    refine ⟨by rw [hth]; exact hsome, ⟨s.curIn c h, hcur', by simp [State.curIn, hpop]⟩, ?_, ?_⟩
    · exact State.plainAt_quieter (State.entered_plainAt hcur hp hmemt) (p.quiet t hfresh)
    · have hvals : s'.opdVals t k.ops = e.opdVals t k.ops := State.opdVals_congr fun o ho j hj => hoth t o.reg j
      have hfs := hf s' t (e.opdVals t k.ops) hmemt p.same p.cur hth
      refine ⟨_, State.result_plain hcur' t true d.reg _ hq, ?_⟩
      simp only [if_true]
      rw [hvals, hfs]
      have hno : d.reg.isS = true ∨ ∀ x ∈ destRegs ((s.curIn c h).lead t) d.reg 0 (f e t (e.opdVals t k.ops)), x.file ≠ .s := by
        cases hd : d.reg.isS with
        | true => exact .inl rfl
        | false => exact .inr (destRegs_noS hd _ _ _)
      have hsh : (if d.reg.isS then s'.issueNo else none) = c.shares [d.reg] := by
        unfold State.issueNo Cur.shares
        rw [hcur']
        simp only [List.any_cons, List.any_nil, Bool.or_false]
        rfl
      generalize hv : destRegs ((s.curIn c h).lead t) d.reg 0 (f e t (e.opdVals t k.ops)) = regs at hno
      refine ⟨done ++ [t], p.next (s'.addLong_same t true regs _) rfl (fun u => ?_)
        (fun u hu => s'.addLong_quieter t true regs _ u hu (by rw [hcur']; rfl) hno) (fun u hu _ _ => by rw [s'.addLong_thread, if_neg hu]), ?_, ?_⟩
      · by_cases hu : u = t
        · exact ⟨_, by rw [s'.addLong_thread, if_pos hu]⟩
        · exact State.onlyLongs_of_eq (by rw [s'.addLong_thread, if_neg hu])
      · intro u hu2
        rcases List.mem_append.1 hu2 with hd1 | hd1
        · have hut : u ≠ t := fun x => hfresh (x ▸ hd1)
          obtain ⟨id, hid⟩ := hres u hd1
          exact ⟨id, by rw [s'.addLong_thread, if_neg hut, hid]⟩
        · simp only [List.mem_singleton] at hd1
          subst hd1
          refine ⟨s'.nextId, ?_⟩
          rw [s'.addLong_thread, if_pos rfl, hth, hv, hsh]
      · intro u r j
        rw [s'.addLong_regVal]
        exact hoth u r j) (s.actives c h) e hI0
  obtain ⟨done, p, hres, hoth⟩ := hfin
  have hdone : done = s.actives c h := by have := p.split; simpa using this.symm
  subst hdone
  refine ⟨State.sameBeyond_trans (s.entered_same c h k.ops) p.same, p.longs, ?_, ?_, ?_⟩
  · intro u hu2
    rw [p.rest u hu2 trivial, he, State.entered_issued]
  · intro u hu2
    have hv := State.entered_opdVals hcur h k.ops k.ops u
    rw [← hv]
    exact hres u hu2
  · intro u r j
    rw [hoth u r j]
    exact State.entered_regVal hcur h k.ops u r j

/-! ### Words that change each lane's own thread -/

/-- An active lane's thread is there. -/
theorem State.clear_thread {s : State} {c : Cur} {h : Hdr} {k : Checks} (hc : s.clear c h k = true) {t : Tid} (ht : t ∈ s.actives c h) :
    ((s.entered c h k.ops).thread? t).isSome = true := by
  obtain ⟨-, -, -, -, -, -, hall⟩ := (State.clear_iff s c h k).1 hc
  have hu := (hall t ht).1
  unfold State.untrapped at hu
  obtain ⟨m2, h2⟩ := (s.begun c h).onlyMonitors_countUniform (s.curIn c h) k.ops (s.actives c h)
  have : (s.entered c h k.ops).thread? t = (s.begun c h).thread? t := by unfold State.entered; rw [h2]; rfl
  rw [this]
  split at hu
  · rename_i h1 _ _; rw [h1]; rfl
  · cases hu

/-- A word that changes each active lane's thread record alone. -/
theorem State.threadLanes {s : State} {c : Cur} {h : Hdr} {k : Checks} (hc : s.clear c h k = true) {ops : List Opd}
    {f : Tid → List (List Word) → State → State × Option Park} {F : State → Tid → List (List Word) → Thread → Thread}
    (hops : k.ops = ops) (hp : s.plain (s.actives c h) ops = true)
    (hstill : ∀ s t v th, (F s t v th).still = th.still) (hlane : ∀ s t v th, (F s t v th).lane = th.lane)
    (hlongs : ∀ s t v th, (F s t v th).longs = th.longs)
    (hf : ∀ t v s', t ∈ s.actives c h → (s.entered c h ops).sameBeyond s' → s'.cur = (s.entered c h ops).cur →
      s'.thread? t = (s.entered c h ops).thread? t → f t v s' = (s'.updThread t (F (s.entered c h ops) t v), none)) :
    ∃ t, (s.entered c h ops).eachLane ops f (s.actives c h) = t ∧
      s.sameBeyond t ∧ (∀ u, u ∉ s.actives c h → t.thread? u = s.issuedThread c h u) ∧
      (∀ u ∈ s.actives c h, t.thread? u = ((s.entered c h ops).thread? u).map (F (s.entered c h ops) u (s.opdVals u ops))) ∧
      (∀ u r j, t.regVal u r j = s.regVal u r j) := by
  subst hops
  obtain ⟨hcur, hr, hpop, hok, -⟩ := (State.clear_iff s c h k).1 hc
  have hnd : (s.actives c h).Nodup := (Cur.ok_nodup hok).filter _
  set e := s.entered c h k.ops with he
  have hecur : e.cur = some (s.curIn c h) := State.entered_cur s c h k.ops
  refine ⟨_, rfl, ?_⟩
  let I : List Tid → State → Prop := fun ts s' => ∃ done, s.actives c h = done ++ ts ∧ e.sameBeyond s' ∧ s'.cur = e.cur ∧ (∀ u, e.quieter s' u) ∧
    (∀ u, u ∉ done → s'.thread? u = e.thread? u) ∧
    (∀ u ∈ done, s'.thread? u = (e.thread? u).map (F e u (e.opdVals u k.ops))) ∧
    (∀ u r j, s'.regVal u r j = e.regVal u r j)
  have hI0 : I (s.actives c h) e := ⟨[], rfl, e.sameBeyond_refl, rfl, fun _ _ _ e => e, fun _ _ => rfl, fun u hu => by simp at hu, fun _ _ _ => rfl⟩
  have hfin := State.eachLane_inv k.ops f I (by
    rintro t ts s' ⟨done, hsp, hsame, hcu, hqui, hrest, hres, hoth⟩
    have hfresh : t ∉ done := by
      intro hd
      rw [hsp] at hnd
      exact (List.nodup_append.1 hnd).2.2 t hd t (List.mem_cons_self ..) rfl
    have hmemt : t ∈ s.actives c h := by rw [hsp]; simp
    have hth : s'.thread? t = e.thread? t := hrest t hfresh
    have hcur' : s'.cur = some (s.curIn c h) := by rw [hcu, hecur]
    refine ⟨by rw [hth]; exact State.clear_thread hc hmemt, ⟨s.curIn c h, hcur', by simp [State.curIn, hpop]⟩, ?_, ?_⟩
    · exact State.plainAt_quieter (State.entered_plainAt hcur hp hmemt) (hqui t)
    · have hvals : s'.opdVals t k.ops = e.opdVals t k.ops := State.opdVals_congr fun o ho j hj => hoth t o.reg j
      refine ⟨_, hf t _ s' hmemt hsame hcu hth, ?_⟩
      rw [hvals]
      refine ⟨done ++ [t], by rw [hsp]; simp, State.sameBeyond_trans hsame (State.sameBeyond_updThread s' t _ (hstill e t _)), hcu,
        fun u => State.quieter_trans (hqui u) (State.quieter_keep s' t u _ (hlane e t _) (hlongs e t _)), ?_, ?_, ?_⟩
      · intro u hu
        simp only [List.mem_append, List.mem_singleton, not_or] at hu
        rw [State.thread?_updThread s' t u _ (hlane e t _), if_neg hu.2, hrest u hu.1]
      · intro u hu2
        rw [State.thread?_updThread s' t u _ (hlane e t _)]
        rcases List.mem_append.1 hu2 with hd1 | hd1
        · rw [if_neg (fun x : u = t => hfresh (x ▸ hd1)), hres u hd1]
        · simp only [List.mem_singleton] at hd1
          subst hd1
          rw [if_pos rfl, hth]
      · intro u r j
        rw [State.regVal_updThread]
        exact hoth u r j) (s.actives c h) e hI0
  obtain ⟨done, hsp, hsame, hcu, hqui, hrest, hres, hoth⟩ := hfin
  have hdone : done = s.actives c h := by simpa using hsp.symm
  subst hdone
  refine ⟨State.sameBeyond_trans (s.entered_same c h k.ops) hsame, ?_, ?_, ?_⟩
  · intro u hu2
    rw [hrest u hu2, he, State.entered_issued]
  · intro u hu2
    have hv := State.entered_opdVals hcur h k.ops k.ops u
    rw [← hv]
    exact hres u hu2
  · intro u r j
    rw [hoth u r j]
    exact State.entered_regVal hcur h k.ops u r j

/-! ### Words that combine their lanes (R136) -/

/-- Reading every lane's operands leaves the state alone. -/
theorem State.gather_plain (s : State) (ops : List Opd) (ts : List Tid) (h : ∀ t ∈ ts, s.plainAt t ops) :
    s.gather ops ts = (ts.map fun t => (t, s.opdVals t ops), s) := by
  induction ts with
  | nil => rfl
  | cons t ts ih =>
    unfold State.gather
    rw [State.readOps_plain s t ops (h t (List.mem_cons_self ..))]
    simp only [ih fun u hu => h u (List.mem_cons_of_mem _ hu), List.map_cons]

/-- Each of a list of threads changes once. -/
theorem State.foldThreads {α : Type} (e : State) (key : α → Tid) (step : State → α → State) (F : α → State → Thread → Thread)
    (hstep : ∀ s a, ∃ n, step s a = { (s.updThread (key a) (F a s)) with nextId := n })
    (hstill : ∀ a s th, (F a s th).still = th.still) (hlane : ∀ a s th, (F a s th).lane = th.lane) (l : List α) (hnd : (l.map key).Nodup) :
    e.sameBeyond (l.foldl step e) ∧ (l.foldl step e).cur = e.cur ∧ (∀ u, u ∉ l.map key → (l.foldl step e).thread? u = e.thread? u) ∧
      (∀ a ∈ l, ∃ s', (l.foldl step e).thread? (key a) = (e.thread? (key a)).map (F a s')) ∧
      (∀ u r j, (l.foldl step e).regVal u r j = e.regVal u r j) := by
  induction l generalizing e with
  | nil => exact ⟨e.sameBeyond_refl, rfl, fun _ _ => rfl, fun a ha => by simp at ha, fun _ _ _ => rfl⟩
  | cons a l ih =>
    obtain ⟨n, hn⟩ := hstep e a
    have hnd' : (l.map key).Nodup ∧ key a ∉ l.map key := by
      rw [List.map_cons, List.nodup_cons] at hnd
      exact ⟨hnd.2, hnd.1⟩
    obtain ⟨i1, i2, i3, i4, i5⟩ := ih (step e a) hnd'.1
    have hs : e.sameBeyond (step e a) := by
      rw [hn]
      exact State.sameBeyond_trans (State.sameBeyond_updThread e (key a) (F a e) (hstill a e)) ⟨rfl, rfl⟩
    have hth : ∀ u, (step e a).thread? u = if u = key a then (e.thread? u).map (F a e) else e.thread? u := by
      intro u
      rw [hn]
      exact State.thread?_updThread e (key a) u (F a e) (hlane a e)
    have hreg : ∀ u r j, (step e a).regVal u r j = e.regVal u r j := by
      intro u r j
      rw [hn]
      exact State.regVal_updThread e (key a) u (F a e) r j
    refine ⟨State.sameBeyond_trans hs i1, by rw [List.foldl_cons, i2, hn]; rfl, ?_, ?_, ?_⟩
    · intro u hu
      simp only [List.map_cons, List.mem_cons, not_or] at hu
      rw [List.foldl_cons, i3 u hu.2, hth, if_neg hu.1]
    · intro b hb
      rcases List.mem_cons.1 hb with rfl | hb
      · exact ⟨e, by rw [List.foldl_cons, i3 _ hnd'.2, hth, if_pos rfl]⟩
      · obtain ⟨s', hs'⟩ := i4 b hb
        refine ⟨s', ?_⟩
        rw [List.foldl_cons, hs', hth, if_neg]
        intro hx
        exact hnd'.2 (hx ▸ List.mem_map_of_mem hb)
    · intro u r j
      rw [List.foldl_cons, i5, hreg]

theorem State.entered_gather {s : State} {c : Cur} {h : Hdr} {k : Checks} (hc : s.clear c h k = true) (ops : List Opd)
    (hp : s.plain (s.actives c h) ops = true) :
    (s.entered c h k.ops).gather ops (s.actives c h) = (s.laneVals c h ops, s.entered c h k.ops) := by
  obtain ⟨hcur, -⟩ := (State.clear_iff s c h k).1 hc
  rw [State.gather_plain _ _ _ fun t ht => State.entered_plainAt hcur hp ht]
  congr 1
  apply List.map_congr_left
  intro t _
  rw [State.entered_opdVals hcur]

theorem State.laneVals_keys {s : State} {c : Cur} (hok : c.ok = true) (h : Hdr) (ops : List Opd) :
    ((s.laneVals c h ops).map fun x => x.1).Nodup := by
  have : (s.laneVals c h ops).map (fun x => x.1) = s.actives c h := by
    unfold State.laneVals
    rw [List.map_map]
    simp [Function.comp_def]
  rw [this]
  exact (Cur.ok_nodup hok).filter _

/-- A class 3 word: each active lane gains the long result that the values of all of them give it. -/
theorem State.crossLanes {s : State} {c : Cur} {h : Hdr} {ops : List Opd} (hc : s.clear c h { ops := ops } = true)
    (hp : s.plain (s.actives c h) ops = true)
    (f : State → List (Tid × List (List Word)) → Tid → List (List Word) → List (Reg × List Word)) :
    ∃ t, s.cross h ops f = t.wordEnd h c ∧ s.sameBeyond t ∧ (∀ u, u ∉ s.actives c h → t.thread? u = s.issuedThread c h u) ∧
      (∀ u ∈ s.actives c h, gainsLong ((s.entered c h ops).thread? u) (t.thread? u)
        ((f (s.entered c h ops) (s.laneVals c h ops) u (s.opdVals u ops)).flatMap fun r => destRegs ((s.curIn c h).lead u) r.1 0 r.2)
        (c.shares ((f (s.entered c h ops) (s.laneVals c h ops) u (s.opdVals u ops)).map fun r => r.1))) ∧
      (∀ u r j, t.regVal u r j = s.regVal u r j) := by
  obtain ⟨hcur, -, -, hok, -⟩ := (State.clear_iff s c h _).1 hc
  unfold State.cross
  rw [State.word_clear hc]
  simp only []
  rw [State.entered_gather hc ops hp]
  simp only []
  set e := s.entered c h ops with he
  have hecur : e.cur = some (s.curIn c h) := State.entered_cur s c h ops
  let regs : Tid × List (List Word) → List LReg := fun x =>
    (f e (s.laneVals c h ops) x.1 x.2).flatMap fun r => destRegs ((s.curIn c h).lead x.1) r.1 0 r.2
  let sh : Tid × List (List Word) → Option Nat := fun x => c.shares ((f e (s.laneVals c h ops) x.1 x.2).map fun r => r.1)
  let step : State → Tid × List (List Word) → State := fun s' x =>
    { (s'.updThread x.1 fun th => { th with longs := th.longs ++ [{ id := s'.nextId, ready := true, regs := regs x, issue := sh x }] }) with
      nextId := s'.nextId + 1 }
  have key : ∀ (l : List (Tid × List (List Word))) (a : State), a.cur = some (s.curIn c h) →
      l.foldl (fun s' x => (s'.addLong x.1 true ((f e (s.laneVals c h ops) x.1 x.2).flatMap fun r => destRegs (s'.leads x.1) r.1 0 r.2)
        ((f e (s.laneVals c h ops) x.1 x.2).any fun r => r.1.isS)).2) a = l.foldl step a := by
    intro l
    induction l with
    | nil => intro a _; rw [List.foldl_nil, List.foldl_nil]
    | cons x l ih =>
      intro a ha
      have hl : a.leads x.1 = (s.curIn c h).lead x.1 := by unfold State.leads; rw [ha]
      have hi : (if ((f e (s.laneVals c h ops) x.1 x.2).any fun r => r.1.isS) = true then a.issueNo else none) = sh x := by
        unfold State.issueNo
        rw [ha]
        simp only [sh, Cur.shares, List.any_map]
        rfl
      have hs : (a.addLong x.1 true ((f e (s.laneVals c h ops) x.1 x.2).flatMap fun r => destRegs (a.leads x.1) r.1 0 r.2)
          ((f e (s.laneVals c h ops) x.1 x.2).any fun r => r.1.isS)).2 = step a x := by
        unfold State.addLong
        rw [hi, hl]
        rfl
      rw [List.foldl_cons, List.foldl_cons, hs]
      exact ih _ ha
  rw [key _ e hecur]
  refine ⟨_, rfl, ?_⟩
  obtain ⟨r1, r2, r3, r4, r5⟩ := State.foldThreads e (fun x : Tid × List (List Word) => x.1) step
    (fun x s' th => { th with longs := th.longs ++ [{ id := s'.nextId, ready := true, regs := regs x, issue := sh x }] })
    (fun s' x => ⟨s'.nextId + 1, rfl⟩) (fun _ _ _ => rfl) (fun _ _ _ => rfl) (s.laneVals c h ops) (State.laneVals_keys hok h ops)
  have hk : (s.laneVals c h ops).map (fun x => x.1) = s.actives c h := by
    unfold State.laneVals
    rw [List.map_map]
    simp [Function.comp_def]
  refine ⟨State.sameBeyond_trans (s.entered_same c h ops) r1, ?_, ?_, ?_⟩
  · intro u hu
    rw [r3 u (by rw [hk]; exact hu), he, State.entered_issued]
  · intro u hu
    obtain ⟨s', hs'⟩ := r4 (u, s.opdVals u ops) (List.mem_map.2 ⟨u, hu, rfl⟩)
    exact ⟨s'.nextId, hs'⟩
  · intro u r j
    rw [r5]
    exact State.entered_regVal hcur h ops u r j

/-- A class 3 word whose result is a predicate: each active lane's predicate takes it. -/
theorem State.crossPredLanes {s : State} {c : Cur} {h : Hdr} {ops : List Opd} (hc : s.clear c h { ops := ops } = true)
    (hp : s.plain (s.actives c h) ops = true) (p : BitVec 3) (f : State → List (Tid × List (List Word)) → Bool) :
    ∃ t, s.crossPred h ops p f = t.wordEnd h c ∧ s.sameBeyond t ∧ (∀ u, u ∉ s.actives c h → t.thread? u = s.issuedThread c h u) ∧
      (∀ u ∈ s.actives c h, t.thread? u = ((s.entered c h ops).thread? u).map fun th =>
        th.setPred p (f (s.entered c h ops) (s.laneVals c h ops))) ∧
      (∀ u r j, t.regVal u r j = s.regVal u r j) := by
  obtain ⟨hcur, -, -, hok, -⟩ := (State.clear_iff s c h _).1 hc
  unfold State.crossPred
  rw [State.word_clear hc]
  simp only []
  rw [State.entered_gather hc ops hp]
  simp only []
  set e := s.entered c h ops with he
  refine ⟨_, rfl, ?_⟩
  have hset : ∀ (th : Thread) (b : Bool), (th.setPred p b).still = th.still ∧ (th.setPred p b).lane = th.lane := by
    intro th b
    unfold Thread.setPred
    split
    · exact ⟨rfl, rfl⟩
    · exact ⟨rfl, rfl⟩
  obtain ⟨r1, r2, r3, r4, r5⟩ := State.foldThreads e (fun x : Tid × List (List Word) => x.1)
    (fun s' x => s'.putPred x.1 p (f e (s.laneVals c h ops)))
    (fun _ _ th => th.setPred p (f e (s.laneVals c h ops)))
    (fun s' x => ⟨s'.nextId, rfl⟩) (fun _ _ th => (hset th _).1) (fun _ _ th => (hset th _).2) (s.laneVals c h ops) (State.laneVals_keys hok h ops)
  have hk : (s.laneVals c h ops).map (fun x => x.1) = s.actives c h := by
    unfold State.laneVals
    rw [List.map_map]
    simp [Function.comp_def]
  refine ⟨State.sameBeyond_trans (s.entered_same c h ops) r1, ?_, ?_, ?_⟩
  · intro u hu
    rw [r3 u (by rw [hk]; exact hu), he, State.entered_issued]
  · intro u hu
    obtain ⟨s', hs'⟩ := r4 (u, s.opdVals u ops) (List.mem_map.2 ⟨u, hu, rfl⟩)
    exact hs'
  · intro u r j
    rw [r5]
    exact State.entered_regVal hcur h ops u r j

end Sys2Proof.Machine
end

