-- ==== Sys2Proof/Laws/Forms.lean ====
section
/-! SUPPORT. From the shape of a meaning to the form of its result: which shared operation a word is, and so what it does. -/

namespace Sys2Proof.Machine

theorem Opd.pops_plain {s : State} {act : List Tid} {ops : List Opd} (h : s.plain act ops = true) : ops.any Opd.pops = false := by
  rw [List.any_eq_false]
  intro o ho
  have := List.all_eq_true.1 h o ho
  unfold Opd.pops
  cases hr : o.reg <;> simp_all

theorem Opd.pushes_plain {s : State} {act : List Tid} {ops : List Opd} (h : s.plain act ops = true) : ops.any Opd.pushes = false := by
  rw [List.any_eq_false]
  intro o ho
  have := List.all_eq_true.1 h o ho
  unfold Opd.pushes Opd.isQ
  cases hr : o.reg <;> simp_all

theorem Opd.popsToken_plain {s : State} {act : List Tid} {ops : List Opd} (h : s.plain act ops = true) : ops.any Opd.popsToken = false := by
  rw [List.any_eq_false]
  intro o ho
  have := List.all_eq_true.1 h o ho
  unfold Opd.popsToken
  cases hr : o.reg <;> simp_all

theorem any_cons_false {α : Type} {p : α → Bool} {x : α} {l : List α} (h : (x :: l).any p = false) : l.any p = false := by
  simp_all

/-- A lane-by-lane word with a short result. -/
theorem shortWord_byLane {i : Instr} {h : Hdr} {d : Opd} {ops : List Opd} {f : State → Tid → List (List Word) → List Word} {b : Bool}
    (hex : ∀ s, exec i s = .next (s.byLane h { ops := ops } fun t vals s => s.result t b d.reg (f s t vals)))
    (hb : ops.any Opd.pops = false → b = false) (hmem : d ∈ ops) (hu : d.use = .wr ∨ d.use = .rw) (hlen : ∀ s t v, (f s t v).length ≤ d.n)
    (hf : ∀ (s s' : State) t, s.onlyLongs s' t → f s' t = f s t)
    (hf' : ∀ (s : State) c h, s.cur = some c → f (s.entered c h ops) = f s) : ShortWord i h d ops f := by
  intro s c hc hp
  obtain ⟨hcur, -⟩ := (State.clear_iff s c h _).1 hc
  have hbf := hb (Opd.pops_plain hp)
  subst hbf
  obtain ⟨t, ht, r1, r2, r3, r4, r5⟩ := State.shortLanes hc (f := f) rfl hp hmem hu hlen fun s' t _ e => hf _ _ t e
  refine ⟨t, ?_, r1, ?_, r3, ?_, r5⟩
  · rw [hex, State.byLane_clear hc _ (Opd.popsToken_plain hp) (Opd.pushes_plain hp)]
    simp only [ht]
  · intro u
    obtain ⟨ls, hls⟩ := r2 u
    exact ⟨ls, by rw [hls, State.entered_issued]⟩
  · rw [hf' s c h hcur] at r4
    exact r4

/-- A word that computes a short result from its sources. -/
theorem shortWord_compute {i : Instr} {h : Hdr} {d : Opd} {srcs : List Opd} {g : List (List Word) → List Word}
    (hex : ∀ s, exec i s = .next (s.compute h false d srcs g)) (hu : d.use = .wr ∨ d.use = .rw) (hlen : ∀ v, (g v).length ≤ d.n) :
    ShortWord i h d (d :: srcs) fun _ _ v => g v :=
  shortWord_byLane (b := false || srcs.any Opd.pops) hex (fun hx => by rw [any_cons_false hx]; rfl) (List.mem_cons_self ..) hu
    (fun _ _ v => hlen v) (fun _ _ _ _ => rfl) fun _ _ _ _ => rfl

/-- A lane-by-lane word with a long result. -/
theorem longWord_byLane {i : Instr} {h : Hdr} {d : Opd} {ops : List Opd} {f : State → Tid → List (List Word) → List Word} {b : Bool}
    (hex : ∀ s, exec i s = .next (s.byLane h { ops := ops } fun t vals s => s.result t b d.reg (f s t vals)))
    (hb : b = true) (hmem : d ∈ ops)
    (hf : ∀ (s s' : State) t, s.sameBeyond s' → s'.cur = s.cur → s'.thread? t = s.thread? t → f s' t = f s t)
    (hf' : ∀ (s : State) c h, s.cur = some c → f (s.entered c h ops) = f s) : LongWord i h d ops f := by
  intro s c hc hp
  subst hb
  obtain ⟨hcur, -⟩ := (State.clear_iff s c h _).1 hc
  obtain ⟨t, ht, r1, r2, r3, r4, r5⟩ := State.longLanes hc (f := f) rfl hp hmem fun s' t v _ h1 h2 h3 => by rw [hf _ _ t h1 h2 h3]
  refine ⟨t, ?_, r1, r3, ?_, r5⟩
  · rw [hex, State.byLane_clear hc _ (Opd.popsToken_plain hp) (Opd.pushes_plain hp)]
    simp only [ht]
  · intro u hu
    have := r4 u hu
    rw [hf' s c h hcur, State.entered_issued] at this
    exact this

/-- A word that computes a long result from its sources. -/
theorem longWord_compute {i : Instr} {h : Hdr} {d : Opd} {srcs : List Opd} {g : List (List Word) → List Word}
    (hex : ∀ s, exec i s = .next (s.compute h true d srcs g)) : LongWord i h d (d :: srcs) fun _ _ v => g v :=
  longWord_byLane (b := true || srcs.any Opd.pops) hex rfl (List.mem_cons_self ..) (fun _ _ _ _ _ _ => rfl) fun _ _ _ _ => rfl

/-- A lane-by-lane word that writes a predicate. -/
theorem predWord_byLane {i : Instr} {h : Hdr} {p : BitVec 3} {ops : List Opd} {f : State → Tid → List (List Word) → Bool}
    (hex : ∀ s, exec i s = .next (s.byLane h { ops := ops } fun t vals s => (s.putPred t p (f s t vals), none)))
    (hf : ∀ (s s' : State) t, s'.thread? t = s.thread? t → f s' t = f s t)
    (hf' : ∀ (s : State) c h, s.cur = some c → f (s.entered c h ops) = f s) : PredWord i h p ops f := by
  intro s c hc hp
  obtain ⟨hcur, -⟩ := (State.clear_iff s c h _).1 hc
  have hset : ∀ (th : Thread) (b : Bool), (th.setPred p b).still = th.still ∧ (th.setPred p b).lane = th.lane ∧ (th.setPred p b).longs = th.longs := by
    intro th b
    unfold Thread.setPred
    split
    · exact ⟨rfl, rfl, rfl⟩
    · exact ⟨rfl, rfl, rfl⟩
  obtain ⟨t, ht, r1, r2, r3, r4⟩ := State.threadLanes hc (f := fun t vals s => (s.putPred t p (f s t vals), none))
    (F := fun e t v th => th.setPred p (f e t v)) rfl hp (fun _ _ _ th => (hset th _).1) (fun _ _ _ th => (hset th _).2.1) (fun _ _ _ th => (hset th _).2.2)
    fun t v s' _ _ _ e => by rw [hf _ _ t e]; rfl
  refine ⟨t, ?_, r1, r2, ?_, r4⟩
  · rw [hex, State.byLane_clear hc _ (Opd.popsToken_plain hp) (Opd.pushes_plain hp)]
    simp only [ht]
  · intro u hu
    have := r3 u hu
    rw [hf' s c h hcur, State.entered_issued] at this
    exact this

theorem predWord_comparing {i : Instr} {h : Hdr} {p : BitVec 3} {ops : List Opd} {g : List (List Word) → Bool}
    (hex : ∀ s, exec i s = .next (s.comparing h p ops g)) : PredWord i h p ops fun _ _ v => g v :=
  predWord_byLane hex (fun _ _ _ _ => rfl) fun _ _ _ _ => rfl

/-- A class 3 word. -/
theorem crossWord_of {i : Instr} {h : Hdr} {ops : List Opd} {f : State → LaneVals → Tid → List (List Word) → List (Reg × List Word)}
    (hex : ∀ s, exec i s = .next (s.cross h ops f))
    (hf : ∀ (s : State) c h, s.cur = some c → ∀ t ∈ s.actives c h, ∀ v,
      f (s.entered c h ops) (s.laneVals c h ops) t v = f s (s.laneVals c h ops) t v) : CrossWord i h ops f := by
  intro s c hc hp
  obtain ⟨hcur, -⟩ := (State.clear_iff s c h _).1 hc
  obtain ⟨t, ht, r1, r2, r3, r4⟩ := State.crossLanes hc hp f
  refine ⟨t, by rw [hex, ht], r1, r2, fun u hu => ?_, r4⟩
  have := r3 u hu
  rw [hf s c h hcur u hu, State.entered_issued] at this
  exact this

theorem crossPred_of {i : Instr} {h : Hdr} {p : BitVec 3} {ops : List Opd} {f : State → LaneVals → Bool}
    (hex : ∀ s, exec i s = .next (s.crossPred h ops p f))
    (hf : ∀ (s : State) c h, s.cur = some c → f (s.entered c h ops) (s.laneVals c h ops) = f s (s.laneVals c h ops)) : CrossPred i h p ops f := by
  intro s c hc hp
  obtain ⟨hcur, -⟩ := (State.clear_iff s c h _).1 hc
  obtain ⟨t, ht, r1, r2, r3, r4⟩ := State.crossPredLanes hc hp p f
  refine ⟨t, by rw [hex, ht], r1, r2, fun u hu => ?_, r4⟩
  have := r3 u hu
  rw [hf s c h hcur, State.entered_issued] at this
  exact this

/-- A thread's predicate reads the same after issue. -/
theorem State.entered_predOf (s : State) (c : Cur) (h : Hdr) (ops : List Opd) (u : Tid) (p : BitVec 3) :
    (s.entered c h ops).predOf u p = s.predOf u p := by
  unfold State.predOf State.threadIs
  rw [State.entered_thread]
  by_cases hu : u ∈ c.lanes
  · rw [if_pos hu]
    cases s.thread? u <;> rfl
  · rw [if_neg hu]

theorem State.predOf_thread {s s' : State} {u : Tid} (h : s'.thread? u = s.thread? u) (p : BitVec 3) : s'.predOf u p = s.predOf u p := by
  unfold State.predOf State.threadIs
  rw [h]

theorem State.seedOf_same {s s' : State} (h : s.sameBeyond s') (t : Tid) : s'.seedOf t = s.seedOf t := by
  have e := State.sameBeyond_team h t.team
  unfold State.seedOf
  cases h1 : s.team? t.team with
  | none => rw [h1] at e; simp only [Option.map_none, Option.map_eq_none_iff] at e; rw [e]
  | some tm =>
    cases h2 : s'.team? t.team with
    | none => rw [h1, h2] at e; simp at e
    | some tm' =>
      rw [h1, h2] at e
      simp only [Option.map_some, Option.some.injEq] at e
      have hl : tm'.launch = tm.launch := by have := congrArg Team.launch e; exact this
      simp only [State.launchOf, State.launch?, hl, State.sameBeyond_launches h]

end Sys2Proof.Machine
end

