-- ==== Sys2Proof/Tests/Slice0.lean ====
section
/-! SUPPORT. Tests: ill-formed terms, words and values that the spec works out, and for each obligation with hypotheses a concrete state that meets them. -/

open Sys2Proof Sys2Proof.Machine

set_option Elab.async false

namespace Sys2Proof.Tests

/-! ### Well-formedness: one ill-formed term for each check -/

/-- An unguarded header. -/
def h0 : Hdr := { marker := false, gap := 0, gw := false, pg := 0 }
/-- A register code inside the file ranges, which is no reserved one (R21). -/
def badReg : Reg := .rsv 5

theorem test_wf_registers_and_types :
    ([.iadd h0 { d := badReg, a := .v 1, b := .reg (.v 2), ty := .s32, sat := false },
      .iadd h0 { d := .v 0, a := badReg, b := .reg (.v 2), ty := .s32, sat := false },
      .iadd h0 { d := .v 0, a := .v 1, b := .reg badReg, ty := .s32, sat := false },
      .iadd h0 { d := .v 0, a := .v 1, b := .imm 3, ty := .u32, sat := false },
      .iadd h0 { d := .v 0, a := .v 1, b := .imm 3, ty := .s32, sat := true },
      .imulh h0 { d := .v 0, a := .v 1, b := .reg (.v 2), ty := .s16x2, sat := false },
      .iand h0 { d := .v 0, a := .v 1, b := .reg (.v 2), ty := .u32, sat := true },
      .shl h0 { d := .v 0, a := .v 1, b := .reg (.v 2), ty := .u32, sat := true },
      .popc h0 { d := .v 0, a := .v 1, ty := .s16x2, sat := false },
      .bfe h0 { d := .v 0, a := .v 1, b := .v 2, lenM1 := 0, ty := .s16x2 },
      .icmp h0 { p := 1, a := .v 1, b := .v 2, cond := .lt, ty := .s16x2 },
      .sel h0 { d := .v 0, a := .v 1, b := .v 2, p := 1, neg := false, ty := .s16x2 },
      .aadd h0 { d := .v 0, a := .v 2, b := .imm 1, signed := false, sh := 0 },
      .aadd h0 { d := .v 0, a := .v 2, b := .imm 1, signed := true, sh := 1 },
      .imulw h0 { d := .v 0, a := .v 1, b := .reg (.v 2), ty := .u64, sat := false },
      .idiv h0 { d := .v 0, a := .v 1, b := .reg (.v 2), ty := .s16x2, sat := false },
      .irem h0 { d := .v 0, a := .v 1, b := .reg (.v 2), ty := .u32, sat := true }] : List Instr).all (fun i => !i.wf) = true := by decide

theorem test_wf_float_modifiers :
    ([.fmin h0 { d := .v 0, a := .v 1, b := .reg (.v 2) { FMod.plain with rm := .rtz } },
      .fdiv h0 { d := .v 0, a := .v 1, b := .reg (.v 2) { FMod.plain with pk := .bf16x2 } },
      .frcp h0 { d := .v 0, a := .v 1, x := { FMod.plain with rm := .rtz } },
      .frcp h0 { d := .v 0, a := .v 1, x := { FMod.plain with absb := true } },
      .frcp h0 { d := .v 0, a := .v 1, x := { FMod.plain with negb := true } },
      .fsqrt h0 { d := .v 0, a := .v 1, x := { FMod.plain with pk := .bf16x2 } },
      .dadd h0 { d := .v 0, a := .v 2, b := .imm 1 },
      .dadd h0 { d := .v 0, a := .v 2, b := .reg (.v 4) { FMod.plain with satf := true } },
      .dmin h0 { d := .v 0, a := .v 2, b := .reg (.v 4) { FMod.plain with rm := .rtz } },
      .cvt h0 { d := .v 0, a := .v 2, dst := .f64, src := .f32, sat := false, rm := .rne },
      .cvtd h0 { d := .v 0, a := .v 2, dst := .s32, src := .f32, sat := false, rm := .rne },
      .cvtq h0 { d := .v 0, a := .v 2, fmt := 3, prec := 3, read := 0, uns := false, widen := true, sat := true, rm := .rne },
      .cvtq h0 { d := .v 0, a := .v 2, fmt := 3, prec := 3, read := 0, uns := false, widen := true, sat := false, rm := .rtz },
      .mxq h0 { d := .v 0, a := .v 2, fmt := 3, prec := 3, read := 0, uns := false, widen := true, sat := false, rm := .rne }] : List Instr).all
      (fun i => !i.wf) = true := by decide

theorem test_wf_own_fields :
    ([.topk h0 { d := .v 0, a := .v 1, b := .s 4, k := 0, nz := false, ty := .f32 },
      .gather h0 { d := .v 0, a := .v 2, off := 0, wid := .w128, ord := .plain, sco := .thread, mask := 0 },
      .atom h0 { d := .v 0, a := .v 2, b := .v 4, aop := .and, ord := .plain, sco := .die, ty := .f32 },
      .red h0 { a := .v 2, b := .v 4, aop := .xor, ord := .plain, sco := .die, ty := .f64 },
      .redseq h0 { d := .v 0, a := .v 2, b := .v 4, aop := .exch, ord := .plain, sco := .die, ty := .u32 },
      .ldp h0 { d := .v 0, a := .v 2, off := 0, wid := .w8, ord := .plain, sco := .thread, ch := .dflt },
      .lds h0 { d := .v 0, a := .v 2, off := 0, wid := .w32, ord := .plain, sco := .thread, ch := .keep },
      .atoms h0 { d := .v 0, a := .v 2, b := .v 4, aop := .add, ord := .plain, ty := .f64 },
      .pqry h0 { d := .v 0, sel := 10 }, .pqry h0 { d := .v 0, sel := 32 }, .hstat h0 { d := .v 0, sel := 6 },
      .svr h0 { d := .v 0, sel := 13 }, .tinfo h0 { d := .v 0, sel := 14 }, .tinfo h0 { d := .v 0, sel := 48 },
      .pmonRead h0 { d := .v 0, a := .s 0, sel := 8 }, .bari h0 { n := .imm 0, bar := 0 }, .bari h0 { n := .imm 1025, bar := 0 },
      .pairWord { marker := false, gw := false, ps := false, a := { op := .noop, d := .v 1, s := .v 0 }, b := { op := .iadd, d := .v 1, s := .v 2 } }]
      : List Instr).all (fun i => !i.wf) = true := by decide

/-! ### Decoding: words that the spec writes out in hexadecimal (the worked words of its chapters) -/

theorem test_decode_memory :
    decode 0x404200A003003400 = .ldp { h0 with marker := true } { d := .v 40, a := .v 6, off := 3, wid := .w32, ord := .plain, sco := .thread, ch := .dflt } ∧
    decode 0x0040403003000404 = .gather h0 { d := .v 12, a := .v 6, off := 0, wid := .w32, ord := .plain, sco := .thread, mask := 4 } ∧
    decode 0x0041400002006051 = .cmaintClean h0 { a := .v 4, b := .v 6, sco := .module } := by decide

theorem test_decode_atomics :
    decode 0x0040E02001006158 = .redseq h0 { d := .v 8, a := .v 2, b := .v 6, aop := .add, ord := .release, sco := .module, ty := .f32 } ∧
    decode 0x00410000000001D0 = .fence h0 { kind := .sc, sco := .module } := by decide

theorem test_decode_class5 :
    decode 0x0054000000000002 = .gset h0 2 ∧ decode 0x0054200000000032 = .gres h0 { neg := false, p := 3, g := 2 } ∧
    decode 0x005040A001004000 = .hins h0 { d := .v 40, a := .v 2, b := .v 4 } ∧
    decode 0x005240A302000001 = .rpop h0 { d := .v 40, a := .s 4, w := 1 } ∧ decode 0x005260A302000001 = .rsteal h0 { d := .v 40, a := .s 4, w := 1 } := by decide

theorem test_decode_class0 :
    decode 0x0002A00C03808021 = .icmp h0 { p := 3, a := .v 7, b := .v 8, cond := .lt, ty := .s32 } ∧
    decode 0x0002C024038080B1 = .sel h0 { d := .v 9, a := .v 7, b := .v 8, p := 3, neg := true, ty := .s32 } := by decide

theorem test_decode_random_and_matrix :
    decode 0x0030C0A001004000 = .rnd h0 { d := .v 40, a := .v 2, b := .v 4 } ∧ decode 0x0030E0B014000000 = .rndu h0 { d := .v 44, a := .v 40 } ∧
    decode 0x0061180400014004 = .mcarry h0 { d := .s 1, b := .v 20, clear := false, reset := true, cs := 0 } := by decide

theorem test_decode_control :
    decode 0x4071200000000003 = .waitm { h0 with marker := true } 3 ∧ decode 0x0071781000000003 = .mget h0 { d := .s 4, arr := false, m := 3 } ∧
    decode 0x0073200000000001 = .tretSkip h0 false ∧ decode 0x0074200303000000 = .seedw h0 (.s 6) ∧
    decode 0x0074605302000000 = .pmonRead h0 { d := .v 20, a := .s 4, sel := 0 } := by decide

/-! ### Values that the spec works out in its examples -/

/-- The hash order's example (07): home buckets of keys 1, 2 and 3 with b = 6, and the sum that lane order gives. -/
theorem test_hash_example : homeBucket 6 1 = 39 ∧ homeBucket 6 2 = 15 ∧ homeBucket 6 3 = 54 ∧ 4 * homeBucket 6 1 = 156 ∧
    haccSum .f32x2 (haccSum .f32x2 (haccSum .f32x2 0x4B800000 0x3F800000) 0x3F800000) 0xCB800000 = 0 := by decide +kernel

/-- Philox4x32-10 of zeroes, the known answer of 16, and RNDU of its first word. -/
theorem test_philox_example : philox 0 0 0 = [0x6627E8D5, 0xE169C58D, 0xBC57AC4C, 0x9B00DBD8] ∧ rnduValue 0x6627E8D5 = 0x3ECC4FD0 := by decide +kernel

/-- FRCP of 3.0 and FDIV of 1.0 by 3.0 (06). -/
theorem test_reciprocal_example : frcpCode false (Fmt.fp32.val 0x40400000) = 0x3EAAAAAA ∧
    Fmt.fp32.round .rne false false (fDiv (Fmt.fp32.val 0x3F800000) (Fmt.fp32.val 0x40400000)) = 0x3EAAAAAB := by decide +kernel

/-- pD := pA and not pB has the table 0x30 (06). -/
theorem test_plop_example : (List.range 8).all (fun i => plopValue 0x30 (decide (4 ≤ i)) (decide (i / 2 % 2 = 1)) (decide (i % 2 = 1)) ==
    (decide (4 ≤ i) && !decide (i / 2 % 2 = 1))) = true := by decide +kernel

/-- The tree of GRED (05): 2^24, 1, 1 and −2^24 in lanes 0 to 3 give 1.0. -/
theorem test_gred_example : treeRoot (gop .fadd) 6 ([0x4B800000, 0x3F800000, 0x3F800000, 0xCB800000] ++ List.replicate 60 0x80000000) = 0x3F800000 := by
  decide +kernel

/-- TOPK's example (06): the ranks of lanes 0 to 7 among the lanes that are not zero. -/
theorem test_topk_example :
    let c : List (Nat × Nat) := [(0, 0), (1, 0x40400000), (2, 0), (3, 0x40A00000), (4, 0x40400000), (5, 0xBF800000), (6, 0), (7, 0x80000000)]
    let k := c.filter fun x => !topkZero .f32 x.2
    k.map (fun x => (x.1, topkRank .f32 k x)) = [(1, 1), (3, 0), (4, 2), (5, 3)] := by decide +kernel

/-- MXQ.e2m1's example (06): 20.0, −1.25 and 0.3 share the scale 0x81. -/
theorem test_mxq_example :
    let vs : List FVal := [Fmt.fp32.val 0x41A00000, Fmt.fp32.val 0xBFA00000, Fmt.fp32.val 0x3E99999A]
    vs.map (mxWord .e2m1 .rne (mxScale .e2m1 vs)) = [0x8106, 0x8109, 0x8100] := by decide +kernel

/-- MSCAN's example (08): four rows of (0.5, 1.0), the identity carry, and a second tile's first row. -/
theorem test_mscan_example :
    let rows : List (Nat × Nat) := List.replicate 4 (0x3F000000, 0x3F800000)
    let r := scanChannel 149 rows (0x3F800000, 0)
    r = ([(0x3F000000, 0x3F800000), (0x3E800000, 0x3FC00000), (0x3E000000, 0x3FE00000), (0x3D800000, 0x3FF00000)], false) ∧
    (scanChannel 149 rows (0x3D800000, 0x3FF00000)).1.getD 0 (0, 0) = (0x3D000000, 0x3FF80000) := by decide +kernel

/-- A product of 2^−130 is kept at T = 149 and becomes +0 with UNDERG at T = 126 (08). -/
theorem test_mscan_underflow : (scanChannel 149 [(0x3A800000, 0)] (0x03800000, 0)) = ([(0x00080000, 0)], false) ∧
    (scanChannel 126 [(0x3A800000, 0)] (0x03800000, 0)) = ([(0, 0)], true) := by decide +kernel

/-- The regularised factorisation of 12: A = [[4, 2], [2, 1]] in FP64, τ = 2^−20, then A x = (6, 3). -/
theorem test_fact_example :
    let a := fun (i j : Nat) => ([[0x4010000000000000, 0x4000000000000000], [0x4000000000000000, 0x3FF0000000000000]].getD i []).getD j 0
    let x := factor .fp64 2 0x3EB0000000000000 a
    x.d = [0x4010000000000000, 0x3EB0000000000000] ∧ x.mask = 2 ∧ x.orig = [0, 0] ∧ colAt x.l 0 1 = 0x3FE0000000000000 ∧
    (factRecord true 2 0x3EB0000000000000 x).length = 0x940 ∧
    (frecOf (factRecord true 2 0x3EB0000000000000 x)).map (fun r => r.solve [0x4018000000000000, 0x4008000000000000]) =
      some [0x3FF8000000000000, 0] := by decide +kernel

/-- The fold of three ranks (18): the own contribution first, and last. -/
theorem test_coll_example :
    let k : Crb := { kind := 0, op := 0, dtype := 0, own := 0, count := 1, chunk := 4096, n := 3, send := 0, recv := 0, cid := 0, zeros := true }
    foldInputs k [leBytes 4 0x4B800000, leBytes 4 0x3F800000, leBytes 4 0x3F800000] = leBytes 4 0x4B800000 ∧
    foldInputs k [leBytes 4 0x3F800000, leBytes 4 0x3F800000, leBytes 4 0x4B800000] = leBytes 4 0x4B800001 := by decide +kernel

/-- BRED's tree (14): 2^24, 1, 1, 1, −2^24, 1, 0 and 0. -/
theorem test_bred_example : bredTree (bredOp 0 .fp32) [0x4B800000, 0x3F800000, 0x3F800000, 0x3F800000, 0xCB800000, 0x3F800000, 0, 0] = 0x40400000 := by
  decide +kernel

/-- The DA page of 14: stack 3, bank 5, row 1000, and byte 0x2C00 in pseudo-channel 11. -/
theorem test_da_example : dramLoc State.reset.boot 0x00303E850000 = some { stack := 3, pc := 0, bank := 5, row := 1000, byte := 0 } ∧
    dramLoc State.reset.boot 0x00303E852C00 = some { stack := 3, pc := 11, bank := 5, row := 1000, byte := 0 } := by decide +kernel

/-- SHA-256 of "abc", as the standard that R371 names gives it. -/
theorem test_sha256 : sha256 [0x61, 0x62, 0x63] =
    [0xBA, 0x78, 0x16, 0xBF, 0x8F, 0x01, 0xCF, 0xEA, 0x41, 0x41, 0x40, 0xDE, 0x5D, 0xAE, 0x22, 0x23,
     0xB0, 0x03, 0x61, 0xA3, 0x96, 0x17, 0x7A, 0x9C, 0xB4, 0x10, 0xFF, 0x61, 0xF2, 0x00, 0x15, 0xAD] := by decide +kernel

/-- Corners of R112: division by zero, and the signed overflow with and without SAT. -/
theorem test_division_corners : idivValue .s32 false 7 0 = 0xFFFFFFFF ∧ iremValue .s32 7 0 = 7 ∧
    idivValue .s32 false 0x80000000 0xFFFFFFFF = 0x80000000 ∧ idivValue .s32 true 0x80000000 0xFFFFFFFF = 0x7FFFFFFF ∧
    idivValue .s32 false 0xFFFFFFF9 2 = 0xFFFFFFFD ∧ iremValue .s32 0xFFFFFFF9 2 = 0xFFFFFFFF := by decide +kernel

/-- Conversion to signed binary8p4 (05): 247.0, 248.0, 0.75 and −0.0 in the finite-only, the NaN-only and the IEEE-like reading. -/
theorem test_binary8_example : [1, 2, 0].map (fun r => [0x43770000, 0x43780000, 0x3F400000, 0x80000000].map fun c =>
      (Fmt.binary8 4 r false).round .rne false false (Fmt.fp32.val c).exact) =
    [[0x7F, 0x7F, 0x3C, 0], [0x7F, 0x80, 0x3C, 0], [0x7F, 0x7F, 0x3C, 0]] := by decide +kernel

/-! ### A small state for the witnesses -/

/-- The one thread of the loaded machine. -/
def t0 : Tid := { team := 0, group := 0, lane := 0 }
/-- Its issue set, at a word. -/
def cur0 (w : DWord) : Cur := { core := 0, pipe := 0, team := 0, lanes := [t0], pc := 0x1000, word := w }
/-- The loaded machine while it executes a word. -/
def at0 (w : DWord) : State := { State.reset.loaded w with cur := some (cur0 w) }
/-- The same with registers of the thread set. -/
def withRegs (rs : List (RFile × Nat × Word)) (s : State) : State := rs.foldl (fun s r => s.putReg t0 r.1 r.2.1 r.2.2) s
/-- The same with the team, the thread, the descriptor or the context changed. -/
def withTeam (f : Team → Team) (s : State) : State := s.updTeam 0 f
def withThread (f : Thread → Thread) (s : State) : State := s.updThread t0 f
def withDesc (f : KDesc → KDesc) (s : State) : State := s.updLaunch 0 fun l => { l with d := f l.d }
def withCtx (f : Ctx → Ctx) (s : State) : State := s.updCtx 0 f
/-- Its context with a handler, and a reserve segment for the handler's frames. -/
def withHandler (s : State) : State :=
  { s.updCtx 0 fun c => { c with hentry := 0x3000 } with reserves := [{ id := 900, core := 0, ctx := 0, phys := 9, kind := 0 }] }

/-- The hypotheses of the register forms (ShortWord, LongWord, PredWord, CrossWord) hold of the loaded machine and these operands, with one active lane. -/
def readyOps (ops : List Opd) : Bool :=
  (at0 0).clear (cur0 0) h0 { ops := ops } && (at0 0).plain ((at0 0).actives (cur0 0) h0) ops && decide ((at0 0).actives (cur0 0) h0 = [t0])

/-! ### Witnesses: encoding, stepping, guards and markers -/

theorem witness_decode_of_encode : ∃ (i : Instr) (w : DWord), i.wf = true ∧ (∀ v, i ≠ .illegalOp v) ∧ encode i = some w :=
  ⟨.iadd h0 { d := .v 1535, a := .s 63, b := .imm 0xFFF, ty := .s32, sat := false }, _, by decide, by simp, rfl⟩

theorem witness_unlisted_opcodes : (0x007FE00000000000 : DWord).getLsbD 63 = false ∧
    listedOpcode ((0x007FE00000000000 : DWord).extractLsb' 45 10).toNat = false ∧ listedOpcode 0x1E = true ∧ listedOpcode 0x1F = false := by decide

theorem witness_step_of_decoded_word :
    let s := State.reset.loaded 0x0020000004001000
    s.beforeStart = none ∧ s.retryNow = none ∧ s.due = none ∧ s.events = [] ∧ s.nextPipe = some (0, 0) ∧
      (firstRanks (s.ranks (s.readyOn 0 0))).length = 1 ∧ s.team? 0 = some (probeTeam State.reset) ∧
      ((State.fetch { s.clearGw (s.readyOn 0 0) with turn := pipeIndex 0 0 + 1 } 0 0 0x1000 [t0]).1.toOption) = some 0x0020000004001000 ∧
      (s.readyOn 0 0).map (fun r => laneOldest ((s.readyOn 0 0).filter fun b => b.same r)) = [[t0]] := by decide +kernel

theorem witness_fetch_reads_memory :
    let s := { State.reset.loaded 0x123 with tlb := [{ core := 0, ctx := 0, base := 0, size := 2 ^ 30, leaf := BitVec.ofNat 64 probeLeaf, leafAddr := 0 }] }
    (match s.translate 0 0 0x1000 .fetch (fun y => leafRm y.leaf && (s.remote? 0 y 8).isNone) with
      | (.ok x, u) => decide (u = s) && !leafRm x.leaf && !s.marked x.pa 8 && !s.icUe.contains (0, x.pa / 32) && decide (s.icache = []) &&
        decide (BitVec.ofNat 64 (leNat (s.readPhys x.pa 8)) = (0x123 : DWord))
      | _ => false) = true := by decide +kernel

/-- A replaced word of thread t0's team, cleaned at team scope, with both fences. -/
def fencedCopy : ICopy :=
  { pa := probeBase + 0x1000, old := List.replicate 8 0, storer := some { t0 with lane := 63 }, core := some 0, stamp := 0, cleaned := some 2,
    fences := [({ t0 with lane := 63 }, 2), (t0, 5)] }

theorem witness_fenced_word : let s := { State.reset.loaded 0 with icache := [fencedCopy] }
    s.scopeHolds 2 { t0 with lane := 63 } fencedCopy.core t0 = true ∧ s.scopeHolds 5 { t0 with lane := 63 } fencedCopy.core t0 = true ∧
    fencedCopy.fences.any (fun f => decide (f.1 = { t0 with lane := 63 } ∧ 1 ≤ f.2)) = true ∧ fencedCopy.fences.any (fun f => decide (f.1 = t0 ∧ 1 ≤ f.2)) = true := by
  decide +kernel

theorem witness_step_settles : ∃ t, step (State.reset.loaded 0) = .next t := ⟨_, rfl⟩

/-- `Kept` as a check. -/
def keptOk (s : State) : Bool :=
  s.memOk && decide ((s.teams.map fun t => t.key).Nodup) &&
  s.teams.all fun t => t.tokens.all (fun y => decide ((t.tokens.filter fun x => decide (x.1 = y.1)).length ≤ 32)) && t.barriers.all fun b => decide (b.n < 1 ∨ b.c < b.n)

/-- A state with a team, a token and an arrived barrier, from which a step goes on. -/
theorem witness_step_invariants :
    let s := (State.reset.loaded 0).updTeam 0 fun t => { t with tokens := [(31, 5)], barriers := t.barriers.set 15 { n := 64, c := 63 } }
    keptOk s = true ∧ s.teams.length = 1 ∧ ∃ t, step s = .next t := ⟨by decide +kernel, by decide +kernel, _, rfl⟩

theorem witness_guard_off : hdrOf (.nop { h0 with pg := 1 }) = some { h0 with pg := 1 } ∧ (at0 0).cur = some (cur0 0) ∧
    (cur0 0).retry = false ∧ (at0 0).actives (cur0 0) { h0 with pg := 1 } = [] := by decide +kernel

theorem witness_guard_reserved : hdrOf (.exit { h0 with pg := 8 }) = some { h0 with pg := 8 } ∧ (at0 0).cur = some (cur0 0) := by decide +kernel

/-- A thread with nothing pending, held or parked, with this many long results. -/
def idle (s : State) (n : Nat) : Bool := s.threadIs t0 fun th => th.pend.isNone && !th.held && decide (th.parks = [] ∧ th.longs.length = n ∧ th.afaults = [] ∧ th.stamp = s.clk.acycle)

theorem witness_issue_and_markers : (cur0 0).ok = true ∧ (at0 0).clear (cur0 0) h0 {} = true ∧ idle (at0 0) 0 = true ∧
    idle ((at0 0).addLong t0 true []).2 1 = true := by decide +kernel

/-! ### Witnesses: classes 0 to 3, operands at the ends of their ranges -/

theorem witness_class0 : ([
    [Opd.dst (.v 0) 1, Opd.src (.v 1535) 1, Opd.src (.v 1) 1], [Opd.dst (.s 63) 1, Opd.src (.k 0) 1], [Opd.dst (.v 1534) 2, Opd.src (.k 254) 2, Opd.src (.s 62) 2],
    [Opd.upd (.v 3) 1, Opd.src (.v 3) 1, Opd.src (.k 255) 1], [Opd.upd (.v 2) 2, Opd.src (.s 0) 2, Opd.src (.s 4) 1], [Opd.dst (.v 4) 1, Opd.src (.sv 0) 1],
    [Opd.dst (.v 0), Opd.src (.v 1), Opd.vsk (.v 2)], [Opd.upd (.v 0), Opd.src (.v 1), Opd.vsk (.k 2)], [Opd.upd (.v 9)], [Opd.dst (.v 9)],
    [Opd.dst (.v 8) 2, Opd.src (.s 6) 2, Opd.src (.v 9) 1], [Opd.src (.v 7), Opd.src (.v 8)], [Opd.src (.v 6) 2, Opd.src (.s 8) 2], []] : List (List Opd)).all readyOps = true := by
  decide +kernel

theorem witness_division_values : Ty.wide .s32 = true ∧ Ty.wide .u64 = true ∧ Ty.width .s32 = 32 ∧
    (Ty.signed .s32 = true ∧ 2 ^ 31 < 2 ^ Ty.width .s32) := by decide

theorem witness_class1_and_2 : ([
    [Opd.upd (.v 20) 1, Opd.src (.v 21) 1, Opd.src (.v 22) 1], [Opd.upd (.v 20) 2, Opd.src (.v 22) 2, Opd.src (.v 24) 2], [Opd.dst (.s 2) 2, Opd.src (.k 4) 2, Opd.src (.s 4) 2],
    [Opd.dst (.v 1) 1, Opd.src (.v 2) 1], [Opd.dst (.v 2) 2, Opd.src (.v 4) 2], [Opd.dst (.v 2) 2, Opd.src (.v 4) 1],
    [{ Opd.dst (.v 8) with n := 8 }, Opd.src (.v 2)], [Opd.dst (.v 2), { Opd.src (.v 8) with n := 4 }]] : List (List Opd)).all readyOps = true := by decide +kernel

theorem witness_narrow_formats :
    (List.range 16).any (fun f => QFmtF.valid { d := .v 0, a := .v 2, fmt := BitVec.ofNat 4 f, prec := 3, read := 0, uns := false, widen := true, sat := false, rm := .rne } false) = true ∧
    (List.range 16).any (fun f => QFmtF.valid { d := .v 0, a := .v 2, fmt := BitVec.ofNat 4 f, prec := 0, read := 0, uns := false, widen := true, sat := false, rm := .rne } true) = true ∧
    QFmtF.valid { d := .v 0, a := .v 2, fmt := 3, prec := 0, read := 3, uns := false, widen := true, sat := false, rm := .rne } false = false := by decide

theorem witness_class3 : ([
    [Opd.dv (.v 1) 1, Opd.vsk (.v 2) 1, Opd.vsk (.k 3)], [Opd.dv (.v 2) 2, Opd.vsk (.v 4) 2], [Opd.dvs (.s 2) 2], [Opd.dv (.v 2) 2, Opd.vsk (.v 4) 1],
    [Opd.dvs (.s 2) 1, Opd.vsk (.v 4) 1], [Opd.dvs (.v 2) 2, Opd.vsk (.v 4) 2],
    [Opd.dv (.v 20), { reg := .v 21 }, { reg := .s 4, use := .wr, v := false, h := false, s := true }], [Opd.dv (.v 40) 4, Opd.vsk (.v 2) 2, Opd.vsk (.v 4) 2],
    [Opd.vsk (.v 2) 2], [Opd.vsk (.v 2) 1]] : List (List Opd)).all readyOps = true := by decide +kernel

/-! ### Witnesses: queues as operands -/

/-- A team queue of one-word slots, two deep. -/
def oneQueue (n : Nat) : QDecl := { num := n, lslot := 2, ldepth := 1, prod := 0, cons := 0, off := 0 }
/-- The machine with team queue q32, holding these slots. -/
def withQueue (xs : List (List Word)) : State :=
  at0 0 |> withDesc (fun d => { d with queues := [oneQueue 32] }) |> withTeam fun t => { t with queues := [(32, xs)] }

theorem witness_popping_words :
    let ops := [Opd.dst (.v 4) 1, Opd.src (.q 32) 1]
    ([[[5]], []] : List (List (List Word))).all (fun xs =>
      let s := withQueue xs
      s.clear (cur0 0) h0 { ops := ops } && decide (s.actives (cur0 0) h0 = [t0]) && ops.tail.any Opd.pops && !ops.any Opd.popsToken && !ops.tail.any Opd.pushes &&
      (match (s.entered (cur0 0) h0 ops).readOps t0 ops [] [] with
        | ((some v, taken, _), _) => decide (xs = [[5]] ∧ taken = [5] ∧ v.getD 1 [] = [5])
        | ((none, taken, q), _) => decide (xs = [] ∧ taken = [] ∧ q = 32))) = true := by decide +kernel

theorem witness_pushing_words :
    let ops := [Opd.dst (.q 32) 1, Opd.src (.v 1) 1]
    ([([], true), ([[1]], true), ([[1], [2]], false)] : List (List (List Word) × Bool)).all (fun x =>
      let s := withQueue x.1
      s.clear (cur0 0) h0 { ops := ops } && decide (s.actives (cur0 0) h0 = [t0]) && s.plain [t0] [Opd.src (.v 1) 1] &&
      !(s.entered (cur0 0) h0 ops).accessWaits { releases := true } [t0] &&
      ((s.entered (cur0 0) h0 ops).push t0 32 [7]).isSome == x.2) = true := by decide +kernel

theorem witness_popping_completes :
    let s := withQueue [[5], [6]]
    let ops := [Opd.dst (.v 4) 1, Opd.src (.q 32) 1]
    s.clear (cur0 0) h0 { ops := ops } = true ∧ s.actives (cur0 0) h0 = [t0] ∧ (s.team? 0).map (fun t => assoc [] t.queues 32) = some [[5], [6]] ∧ Ty.regs .u32 = 1 := by
  decide +kernel

/-! ### Witnesses: global memory -/

/-- The one translation of the loaded machine, cached. -/
def probeTlb : TlbEntry := { core := 0, ctx := 0, base := 0, size := 2 ^ 30, leaf := BitVec.ofNat 64 probeLeaf, leafAddr := probeL1 }
/-- The machine with lane 0's pair v2:v3 holding an address and v4 to v7 data, v8 a second address. -/
def memAt (va : Nat) : State :=
  { withRegs [(.v, 2, BitVec.ofNat 32 va), (.v, 3, 0), (.v, 4, 0x11), (.v, 5, 0x22), (.v, 6, 0x33), (.v, 7, 0x44), (.s, 4, 0x55), (.s, 5, 1), (.v, 8, 9), (.v, 9, 3)] (at0 0) with
    tlb := [probeTlb] }

/-- The conditions of `reaches`, as a check. -/
def reachesOk (s : State) (va n : Nat) (p : Perm) : Bool :=
  match s.checkLane (s.who t0) va n p true, s.team? 0 with
  | (.ok x, u), some tm => decide (u = s) && !leafRm x.leaf && !s.marked x.pa n && decide (x.pa % n = 0) && decide (tm.commit = []) && !s.isTwin tm
  | _, _ => false

theorem reaches_of_ok (s : State) (va n : Nat) (p : Perm) (h : reachesOk s va n p = true) : ∃ x, s.reaches t0 va n p x := by
  unfold reachesOk at h
  split at h
  · rename_i x u tm h1 h2
    simp only [Bool.and_eq_true, decide_eq_true_eq, Bool.not_eq_true'] at h
    obtain ⟨⟨⟨⟨⟨rfl, h3⟩, h4⟩, h5⟩, h6⟩, h7⟩ := h
    exact ⟨x, h1, h3, h4, h5, tm, h2, h6, h7⟩
  · cases h

/-- Nothing that the lane has issued keeps an access of it waiting, whatever the access is. -/
def waitless (e : State) : Bool :=
  [false, true].all fun a => [false, true].all fun b => [false, true].all fun c => !e.accessWaits { writes := a, releases := b, system := c } [t0]

/-- A lane that is alone with these operands, reaches the address, and waits for nothing. -/
def accessReady (s : State) (ops : List Opd) (va n : Nat) (p : Perm) (o : Machine.MemOrder) : Bool :=
  s.alone (cur0 0) h0 { ops := ops } t0 && !(s.entered (cur0 0) h0 ops).laneWaits o t0 (some (vaPlace va n)) && reachesOk (s.entered (cur0 0) h0 ops) va n p

theorem witness_loads :
    ([(0x2000, .w32, .plain, .thread), (0x3FFFFFFF, .w8, .acquire, .system), (0x3FFFFFF0, .w128, .acquire, .module), (0x7FFE, .w16, .plain, .die)] : List (Nat × Wid × MOrd × Sco)).all (fun x =>
      let s := memAt x.1
      let ops := [Opd.dvs (.v 40) x.2.1.regs, Opd.vsk (.v 2) 2]
      accessReady s ops (effAddr (s.opdVals t0 ops) 1 0 x.2.1.bytes) x.2.1.bytes .load (ordOf x.2.2.1 x.2.2.2 false) && decide (s.l1 = [])) = true := by decide +kernel

theorem witness_gather :
    ([0, 0x2000] : List Nat).all (fun va =>
      let s := memAt va
      let ops := [Opd.dvs (.v 40) 1, Opd.vsk (.v 2) 2]
      let hm : Hdr := { h0 with marker := true }
      s.alone (cur0 0) hm { ops := ops, illReg := maskIllegal 9, illOrder := false } t0 &&
      !(s.entered (cur0 0) hm ops).laneWaits (ordOf .plain .thread false) t0 (some (vaPlace (effAddr (s.opdVals t0 ops) 1 0 4) 4)) && decide (s.l1 = []) &&
      ((s.group? t0).all fun y => decide (y.masks.length = 12)) &&
      reachesOk (s.entered (cur0 0) hm ops) (effAddr (s.opdVals t0 ops) 1 0 4) 4 .load) = true := by decide +kernel

theorem witness_stores :
    ([(0x2000, .w32, .plain, .thread), (0, .w64, .release, .module), (0x3FFFFFF0, .w128, .plain, .thread)] : List (Nat × Wid × MOrd × Sco)).all (fun x =>
      let s := memAt x.1
      let ops := [Opd.vsk (.v 4) x.2.1.regs, Opd.vsk (.v 2) 2]
      accessReady s ops (effAddr (s.opdVals t0 ops) 1 0 x.2.1.bytes) x.2.1.bytes .store (ordOf x.2.2.1 x.2.2.2 true false)) = true ∧
    (memAt 0).alone (cur0 0) h0 { ops := [Opd.vsk (.v 4) 1, Opd.vsk (.v 2) 2] } t0 = true ∧ val2 ((memAt 0).opdVals t0 [Opd.vsk (.v 4) 1, Opd.vsk (.v 2) 2]) 1 = 0 := by decide +kernel

/-- The loaded machine in deterministic mode. -/
def inDet (s : State) : State := withDesc (fun d => { d with flags := d.flags ||| 1 }) s

theorem witness_atomics :
    ([(.u32, .plain), (.u64, .sc)] : List (ATy × MOrd)).all (fun x =>
      let s := memAt 0x2000
      let a := [Opd.dvs (.v 40) x.1.regs, Opd.vsk (.v 2) 2, Opd.vsk (.v 4) x.1.regs]
      let b := [Opd.dvs (.v 40) x.1.regs, Opd.vsk (.v 2) 2, Opd.vsk (.v 4) (2 * x.1.regs)]
      let r := [Opd.vsk (.v 2) 2, Opd.vsk (.v 4) x.1.regs]
      !(((at0 0).descOfTid t0).det) && accessReady s a 0x2000 x.1.bytes .atomic (ordOf x.2 .die true) && accessReady s b 0x2000 x.1.bytes .atomic (ordOf x.2 .die true) &&
      accessReady s r (effAddr (s.opdVals t0 r) 0 0 1) x.1.bytes .atomic (ordOf .release .module true false) && accessReady (inDet s) r 0x2000 x.1.bytes .atomic (ordOf .plain .die true false) && !redForbidden .add x.1) = true := by decide +kernel

theorem witness_wave_atomics :
    let s := inDet (memAt 0x2000)
    (s.descOfTid t0).det = true ∧ Sco.rank .team ≤ 2 ∧ 2 < Sco.rank .cluster ∧
    s.alone (cur0 0) h0 { ops := [Opd.vsk (.v 2) 2, Opd.vsk (.v 4) 1] } t0 = true ∧
    accessReady s [Opd.dvs (.v 40) 1, Opd.vsk (.v 2) 2, Opd.vsk (.v 4) 1] 0x2000 4 .atomic (ordOf .plain .team true) = true ∧
    accessReady s [Opd.dvs (.v 40) 2, Opd.vsk (.v 2) 2, Opd.vsk (.v 4) 4] 0x2000 8 .atomic (ordOf .plain .thread true) = true := by decide +kernel

theorem witness_contributions :
    accessReady (memAt 0x2000) [Opd.vsk (.v 8) 2, Opd.vsk (.v 2) 2, Opd.vsk (.v 4) 1] 0x2000 4 .atomic { ordOf .plain .module true false with reduces := true } = true := by decide +kernel

theorem witness_signal_waits :
    ([(false, 0x11), (true, 0)] : List (Bool × Nat)).all (fun x =>
      let n := if x.1 then 2 else 1
      let s := { memAt 0x2000 with mem := Mem.setN (memAt 0x2000).mem (probeBase + 0x2000) (leBytes 8 x.2) }
      let ops := [Opd.vsk (.v 2) 2, Opd.vsk (.v 4) n, Opd.dvs (.s 6) n]
      accessReady s ops 0x2000 (4 * n) .load { reads := true } &&
      (SCond.holds .ge (leNat (s.readPhys (probeBase + 0x2000) (4 * n))) (opdNat (s.opdVals t0 ops) 1) == !x.1)) = true := by decide +kernel

/-- A contribution and a remote store of the thread, under way. -/
def owed : Contrib :=
  { id := 3, ctx := 0, set := 9, idx := 0, va := 0x2000, aop := .add, ty := .f32, value := 0, recips := [t0], pc := 0x800, word := 0, age := 0 }
def remoteStore : RemoteOp := { id := 2, ctx := 0, qp := 3, recips := [t0], va := 0x2000, pc := 0x800, word := 0, age := 0 }

/-- An atomic of the thread that waits for its wave. -/
def waiting : WaveOp := { wave := 1, tid := t0, long := 9, pc := 0x800, word := 0, vals := [], place := some (vaPlace 0x2000 4), ord := { reads := true, writes := true } }

theorem witness_fences_and_prefetches : (at0 0).clear (cur0 0) h0 {} = true ∧
    (let s : State := { at0 0 with icache := [{ fencedCopy with fences := [] }], contribs := [owed], remoteOps := [remoteStore] }
     s.clear (cur0 0) h0 {} = true ∧ s.accessDue t0 s.nextId = true ∧ s.remoteDue t0 s.nextId = true) ∧
    (let s := withTeam (fun t => { t with waveOps := [waiting] }) { at0 0 with nextId := 50 }
     s.clear (cur0 0) h0 {} = true ∧ (s.dues t0 s.nextId).any (fun d => d.reads) = true) ∧
    (at0 0).clear (cur0 0) h0 { ops := [Opd.vsk (.v 2) 2] } = true ∧ (at0 0).plain [t0] [Opd.vsk (.v 2) 2] = true := by decide +kernel

theorem witness_cache_maintenance :
    let s := { memAt 0x2004 with dirty := [((probeBase + 0x2000) / 32, List.replicate 32 1)], l1 := [{ core := 0, sector := (probeBase + 0x2000) / 32, bytes := List.replicate 32 0 }] }
    let ops := [Opd.vsk (.v 2) 2, Opd.vsk (.v 4)]
    let e := s.entered (cur0 0) h0 ops
    s.alone (cur0 0) h0 { ops := ops } t0 = true ∧ e.laneWaits { writes := true } t0 (some (vaPlace 0x2004 17)) = false ∧ (e.who t0).core < 256 ∧ e.locks = [] ∧
      (∀ d ∈ e.dirty, d.2.length = 32) ∧
      [false, true].all (fun b => match e.maintPages (e.who t0) b (parts 0x2000 32) with | (.ok qs, u) => decide (u = e ∧ qs ≠ []) | _ => false) = true ∧
      (let z := withRegs [(.v, 4, 0)] s
       z.alone (cur0 0) h0 { ops := ops } t0 = true ∧ (z.entered (cur0 0) h0 ops).laneWaits { writes := true } t0 (some (vaPlace 0x2004 0)) = false ∧ (val1 (z.opdVals t0 ops) 1).toNat = 0) := by decide +kernel

/-- An access that is turned away in ordinary conditions, with the code. -/
def turnedAway (s : State) (ops : List Opd) (va n : Nat) (p : Perm) (code : Nat) : Bool :=
  s.alone (cur0 0) h0 { ops := ops } t0 && !(s.entered (cur0 0) h0 ops).accessWaits { writes := true } [t0] && !(s.entered (cur0 0) h0 ops).accessWaits {} [t0] &&
  (match (s.entered (cur0 0) h0 ops).checkLane ((s.entered (cur0 0) h0 ops).who t0) va n p true with
    | (.error e, u) => decide (e = code ∧ u.cur = (s.entered (cur0 0) h0 ops).cur)
    | _ => false)

theorem witness_access_faults :
    turnedAway (memAt 0x2001) [Opd.dvs (.v 40) 1, Opd.vsk (.v 2) 2] 0x2001 4 .load fcMisalign = true ∧
    turnedAway (memAt 0x40000000) [Opd.dvs (.v 40) 1, Opd.vsk (.v 2) 2] 0x40000000 4 .load fcPageAbsent = true ∧
    turnedAway (memAt 0x2002) [Opd.vsk (.v 4) 1, Opd.vsk (.v 2) 2] 0x2002 4 .store fcMisalign = true ∧
    turnedAway (memAt 0x2004) [Opd.dvs (.v 40) 2, Opd.vsk (.v 2) 2, Opd.vsk (.v 4) 2] 0x2004 8 .atomic fcMisalign = true ∧
    turnedAway { memAt 0x2000 with locks := [{ cmd := 1, core := 0, ctx := 0, team := 0, pool := false, lo := 0x2000, len := 1, dst := true }] }
      [Opd.dvs (.v 40) 1, Opd.vsk (.v 2) 2] 0x2000 4 .load fcRangeLock = true ∧
    ((memAt 0x2000).entered (cur0 0) h0 [Opd.dvs (.v 40) 2, Opd.vsk (.v 2) 2, Opd.vsk (.v 4) 2]).atomForbidden t0 .die = false := by decide +kernel

theorem witness_marked_sector :
    let s := { memAt 0x2000 with ue := [(probeBase + 0x2000) / 32] }
    (match s.checkLane (s.who t0) 0x2000 4 .load true with | (.ok x, u) => !leafRm x.leaf && u.marked x.pa 4 | _ => false) = true := by decide +kernel

theorem witness_physical_map : (15 : Nat) < 16 ∧ 2 ^ 16 - 1 < 2 ^ 16 ∧ (7 : Nat) < 8 ∧ 2 ^ 37 - 1 < 2 ^ 37 ∧
    (dramLoc State.reset.boot (0x100000000000 + 7 * 2 ^ 37 + (2 ^ 37 - 1))).isSome = true := by decide +kernel

/-! ### Witnesses: the pool -/

/-- Lane 0 with v2 a pool address. -/
def poolAt (pa : Nat) : State := withRegs [(.v, 2, BitVec.ofNat 32 pa), (.v, 4, 0x11), (.v, 5, 0x22)] (at0 0)

theorem witness_pool_accesses :
    ([(0, .w32), (65535, .w8), (65528, .w64)] : List (Nat × Wid)).all (fun x =>
      let s := poolAt x.1
      let l := [Opd.dv (.v 40) x.2.regs, Opd.vs (.v 2)]
      let st := [Opd.vsk (.v 4) x.2.regs, Opd.vs (.v 2)]
      let e := s.entered (cur0 0) h0 l
      let f := s.entered (cur0 0) h0 st
      let at_ := some { pool := true, addr := x.1, len := x.2.bytes : Place }
      s.alone (cur0 0) h0 { ops := l } t0 && s.alone (cur0 0) h0 { ops := st } t0 &&
      [Sco.thread, .system].all (fun c => !e.laneWaits (ordOf .acquire (teamScope c) false) t0 at_ && !f.laneWaits (ordOf .release (teamScope c) true false) t0 at_) &&
      decide (e.poolMeet t0 x.1 x.2.bytes true false = .go ∧ e.poolMeet t0 x.1 x.2.bytes false false = .go ∧
        f.poolMeet t0 x.1 x.2.bytes true true = .go ∧ f.poolMeet t0 x.1 x.2.bytes false true = .go) &&
      decide (e.poolWords t0 (x.1 / 4 * 4) x.2.regs = ((List.range x.2.regs).map fun j => Mem.w32 ((e.team? 0).map (fun t => t.pool)).get! (x.1 / 4 * 4 + 4 * j), e))) = true := by
  decide +kernel

/-- What a load or a store of lane 0 comes to at a pool address. -/
def poolMeets (s : State) (store : Bool) (scratchOnly : Bool) (pa : Nat) : Met := s.poolMeet t0 pa 4 scratchOnly store
/-- A team queue with its storage at 0x800. -/
def storedQueue : QDecl := { oneQueue 32 with off := 0x800 }

/-- Each clause of PoolTraps has its case: an address outside the scratchpad (beside it, at its last byte but three, and in the window region), one outside the pool, a misaligned one, a destination lock, a source lock, queue storage, the hash region, an absent line. -/
theorem witness_pool_traps :
    let lock := fun (b : Bool) => { poolAt 0x8000 with locks := [{ cmd := 5, core := 0, ctx := 0, team := 0, pool := true, lo := 0x8000, len := 256, dst := b }] }
    let queue := withDesc (fun d => { d with queues := [storedQueue] }) (poolAt 0x804)
    let hash := withTeam (fun t => { t with hash := some { word0 := BitVec.ofNat 32 (0x8000 + 2 ^ 24), cap := 0, base := 0x10000000 } }) (poolAt 0x8000)
    let absent := withTeam (fun t => t.clearLines [256]) (poolAt 0x8000)
    ([poolAt 0x10000, poolAt 65533, poolAt 0x400000, poolAt 0x7FFFFF00, poolAt 0x101, lock true, lock false, queue, hash, absent].all fun s =>
      s.alone (cur0 0) h0 { ops := [Opd.dv (.v 40) 1, Opd.vs (.v 2)] } t0 && s.alone (cur0 0) h0 { ops := [Opd.vsk (.v 4) 1, Opd.vs (.v 2)] } t0) = true ∧
    (probeDesc.scratch = 65536 ∧ ((poolAt 0).team? 0).map (fun t => decide ((poolAt 0).descOf t |>.winTotal t |> (· ≤ 0x7FBFFF00))) = some true) ∧
    ((lock true).lockedPoolDst 0 0x8000 4 ∧ (lock false).lockedPoolSrc 0 0x8000 4 ∧ !(lock false).lockedPoolDst 0 0x8000 4) ∧
    (queue.team? 0).all (fun t => inQueueStorage (queue.descOf t) 0x804 4) = true ∧ (hash.team? 0).all (fun t => inHashRegion t 0x8000 4) = true ∧
    (absent.team? 0).all (fun t => t.lineAbsent 256 && decide (missingSeg (absent.descOf t) t 0x8000 4 = none) && !inQueueStorage (absent.descOf t) 0x8000 4 && !inHashRegion t 0x8000 4) = true := by
  decide +kernel

theorem witness_scratch_atomics :
    ([poolAt 0x100, inDet (poolAt 0x100)] : List State).all (fun s =>
      let ops := [Opd.dvs (.v 40) 1, Opd.vs (.v 2), Opd.vsk (.v 4) 1]
      let cas := [Opd.dvs (.v 40) 1, Opd.vs (.v 2), Opd.vsk (.v 4) 2]
      let e := s.entered (cur0 0) h0 ops
      s.alone (cur0 0) h0 { ops := ops } t0 && s.alone (cur0 0) h0 { ops := cas } t0 && !e.laneWaits (ordOf .sc .team true) t0 (some { pool := true, addr := 0x100, len := 4 }) && decide (e.poolMeet t0 0x100 4 true true = .go ∧ s.poolUe = [])) = true ∧
    ((poolAt 0).descOfTid t0).det = false ∧ ((inDet (poolAt 0)).descOfTid t0).det = true := by decide +kernel

theorem witness_presence :
    let s := poolAt (65536 - 4096)
    s.alone (cur0 0) h0 { ops := [Opd.dvs (.s 6), Opd.vs (.v 2)] } t0 = true ∧ s.alone (cur0 0) h0 { ops := [Opd.vs (.v 2)] } t0 = true ∧
    65536 - 4096 + 128 * 32 ≤ probeDesc.scratch ∧ inQueueStorage probeDesc (65536 - 4096) 4096 = false ∧
    (s.team? 0).map (fun t => (s.descOf t).scratch) = some 65536 ∧ (s.group? t0).isSome = true := by decide +kernel

/-- A CLUSTER launch. -/
def inCluster (s : State) : State := withDesc (fun d => { d with flags := d.flags ||| 4 }) s

theorem witness_rotation :
    let s := inCluster (withRegs [(.s, 4, 0x1000), (.s, 5, 4096)] (at0 0))
    s.once (cur0 0) h0 { ops := [Opd.sk (.s 4), Opd.sk (.s 5)] } t0 = true ∧ (s.regVal t0 (.s 4) 0).toNat = 0x1000 ∧
    waitless (s.entered (cur0 0) h0 [Opd.sk (.s 4), Opd.sk (.s 5)]) = true ∧ (s.team? 0).all (fun t => decide (rrotTrap (s.descOf t) 0x1000 4096 = none) && t.canClear (linesOf 0x1000 4096)) = true := by decide +kernel

/-! ### Witnesses: hash regions -/

/-- A region of two buckets at scratch 0x8000, small enough to write out. -/
def probeHash : HashR := { word0 := BitVec.ofNat 32 (0x8000 + 2 ^ 24), cap := 0, base := 0x10000000 }
/-- The thread about to execute the word of an instruction, v2:v3 holding a key and v4:v5 a value, in a team with a hash region of empty slots. -/
def hashAt (i : Instr) (key : Nat) : State :=
  let w := (encode i).getD 0
  { withTeam (fun t => { t with hash := some probeHash, pool := Mem.setN t.pool 0x8000 (List.replicate 8 (leBytes 8 keyEmpty ++ leBytes 8 0)).flatten })
      (withRegs [(.v, 2, BitVec.ofNat 32 key), (.v, 4, 10)] (at0 w)) with cur := some (cur0 w) }

/-- The conditions of HashLane. -/
def hashReady (i : Instr) (s : State) (srcs : List Opd) (hit : Bool) : Bool :=
  let w := (encode i).getD 0
  let ops := { Opd.dv (.v 40) 4 with align := 4 } :: srcs
  decide (decode w = i) && s.alone (cur0 w) h0 { ops := ops } t0 &&
  (match s.team? 0 with
    | some tm => (match tm.hash with
      | some hr =>
        let k := wordPair ((s.opdVals t0 ops).getD 1 []) 0
        let r := s.searchSlots tm hr k (probe hr.b k) {}
        decide (tm.place = .resident ∧ tm.waveOps = [] ∧ hr.spill = 0 ∧ k < keyTomb ∧ r.wait = none ∧ r.err = none) && !(s.descOf tm).det && (r.hit.isSome == hit) && (hit || r.free.isSome)
      | none => false)
    | none => false)

def hinsI : Instr := .hins h0 { d := .v 40, a := .v 2, b := .v 4 }
def hprobeI : Instr := .hprobe h0 { d := .v 40, a := .v 2 }

theorem witness_hash_words :
    hashReady hinsI (hashAt hinsI 0) [Opd.vsk (.v 2) 2, Opd.vsk (.v 4) 2] false = true ∧
    hashReady hprobeI (hashAt hprobeI 0xFFFFFFFF) [Opd.vsk (.v 2) 2] false = true ∧
    hashReady hprobeI (withTeam (fun t => { t with pool := Mem.setN t.pool (probeHash.slot (4 * homeBucket 1 5)) (leBytes 8 5 ++ leBytes 8 9) }) (hashAt hprobeI 5))
      [Opd.vsk (.v 2) 2] true = true := by decide +kernel

/-- The region full of other keys, with room for cap spill entries of which the first n are used, entry 0 of them with the key 5. -/
def hashFull (i : Instr) (cap n : Nat) : State :=
  let s := withTeam (fun t =>
    { t with
      hash := some { probeHash with cap := BitVec.ofNat 32 cap, spill := n, spilllive := n },
      pool := Mem.setN t.pool 0x8000 ((List.range 8).flatMap fun j => leBytes 8 (100 + j) ++ leBytes 8 0) }) (hashAt i 5)
  { (s.writeVa 0 0x10000000 (leBytes 8 5 ++ leBytes 8 9)).2 with tlb := [probeTlb] }

/-- The conditions of HashSpill: whether the key is found in the spill list, and the entry that is then written. -/
def spillReady (i : Instr) (s : State) (srcs : List Opd) (hit : Bool) (entry : Option Nat) : Bool :=
  let w := (encode i).getD 0
  let ops := { Opd.dv (.v 40) 4 with align := 4 } :: srcs
  let e := ((s.entered (cur0 w) h0 ops).fresh.2.joinAll (some (.v 40)) 4 false [t0]).2
  decide (decode w = i) && s.alone (cur0 w) h0 { ops := ops } t0 &&
  (match s.team? 0, e.team? 0 with
    | some tm, some tm' => (match tm.hash with
      | some hr =>
        let k := wordPair ((s.opdVals t0 ops).getD 1 []) 0
        let r := s.searchSlots tm hr k (probe hr.b k) {}
        decide (tm.place = .resident ∧ tm.waveOps = [] ∧ k < keyTomb ∧ r.wait = none ∧ r.err = none ∧ r.hit = none ∧ r.free = none) && !(s.descOf tm).det &&
        (match (if hr.spill = 0 then (.ok none, e) else e.searchSpill tm' hr k hr.spill 0 : Except (Nat × Nat) (Option (Nat × Nat)) × State) with
          | (.ok x, z) => (x.isSome == hit) && !z.isTwin tm' &&
            (match entry with | some n => (z.writeVa 0 (hr.base.toNat + 16 * n) (leBytes 8 k ++ leBytes 8 0)).1.toBool | none => true)
          | _ => false)
      | none => false)
    | _, _ => false)

def hdelI : Instr := .hdel h0 { d := .v 40, a := .v 2 }
def haccI : Instr := .hacc h0 { d := .v 40, a := .v 2, b := .v 4, ty := .f32x2 }

theorem witness_hash_spill :
    spillReady hinsI (hashFull hinsI 0 0) [Opd.vsk (.v 2) 2, Opd.vsk (.v 4) 2] false none = true ∧
    spillReady hinsI (hashFull hinsI 1 0) [Opd.vsk (.v 2) 2, Opd.vsk (.v 4) 2] false (some 0) = true ∧
    spillReady hprobeI (hashFull hprobeI 2 1) [Opd.vsk (.v 2) 2] true none = true ∧
    spillReady hdelI (hashFull hdelI 2 1) [Opd.vsk (.v 2) 2] true (some 0) = true ∧
    spillReady haccI (hashFull haccI 2 1) [Opd.vsk (.v 2) 2, Opd.vsk (.v 4) 2] true (some 0) = true := by decide +kernel

def hclaimI : Instr := .hclaim h0 (.s 4)
def hfreeI : Instr := .hfree h0
def hstatI : Instr := .hstat h0 { d := .s 6, sel := 0 }
def hdrainI : Instr := .hdrain h0 { a := .s 4, tag := 7 }

theorem witness_hash_team_words :
    let claim := withRegs [(.s, 4, BitVec.ofNat 32 (0x8000 + 6 * 2 ^ 24)), (.s, 5, 0), (.s, 6, 0x10000000), (.s, 7, 0)] (at0 ((encode hclaimI).getD 0))
    let w := fun i => (encode i).getD 0
    (decode (w hclaimI) = hclaimI ∧ claim.once (cur0 (w hclaimI)) h0 { ops := [Opd.sk (.s 4) 4] } t0 = true ∧
      (claim.team? 0).all (fun t => decide (claimTrap (claim.descOf t) t.hash.isSome ((claim.opdVals t0 [Opd.sk (.s 4) 4]).getD 0 []) = none ∧ t.place = .resident ∧ t.waveOps = []) &&
        t.canClear (linesOf 0x8000 4096) && !(claim.descOf t).det) = true) ∧
    (decode (w hfreeI) = hfreeI ∧ (hashAt hfreeI 0).once (cur0 (w hfreeI)) h0 {} t0 = true) ∧
    (decode (w hstatI) = hstatI ∧ (hashAt hstatI 0).once (cur0 (w hstatI)) h0 { ops := [Opd.dvs (.s 6)] } t0 = true) := by decide +kernel

theorem witness_hash_drain :
    let w := (encode hdrainI).getD 0
    let s := { withRegs [(.s, 4, 0x4000), (.s, 5, 0)] (hashAt hdrainI 0) with tlb := [probeTlb] }
    let e := s.entered (cur0 w) h0 [Opd.sk (.s 4) 2]
    decode w = hdrainI ∧ s.once (cur0 w) h0 { ops := [Opd.sk (.s 4) 2] } t0 = true ∧ wordPair ((s.opdVals t0 [Opd.sk (.s 4) 2]).getD 0 []) 0 = 0x4000 ∧
      (s.team? 0).all (fun t => !t.anyAbsent probeHash.off probeHash.bytes && decide (missingSeg (s.descOf t) t probeHash.off probeHash.bytes = none) &&
        e.lockRoom t.core 1 && waitless e && decide (liveEntries (Mem.getN t.pool probeHash.off probeHash.bytes) = [])) = true ∧ s.poolUe = [] ∧
      (e.probeVa 0 0x4000 16 .store = (.ok (), e)) := by decide +kernel

/-! ### Witnesses: rings -/

/-- A ring of two 64-byte slots at virtual address 0x8000, its descriptor at 0x9000. -/
def probeRing (head tail : Word) : Ring :=
  { die := 0, index := 5, ctx := 0, desc := 0x9000, base := 0x8000, ldepth := 1, lslot := 6, head := head, tail := tail, ownerTeam := 0, ownerLaunch := 0 }
/-- A packet of one group, no successor. -/
def pkt : List (RFile × Nat × Word) := [(.v, 8, 0x10), (.v, 9, 0x77), (.v, 10, 1), (.v, 11, 2)]
/-- The thread with the ring's handle in v2 and in s4, and a packet in v8. -/
def ringAt (rs : List Ring) : State :=
  { withRegs (pkt ++ [(.v, 2, State.reset.ringHandle 0 5), (.s, 4, State.reset.ringHandle 0 5), (.v, 3, 0xFFFFFFFF)]) (at0 0) with rings := rs, tlb := [probeTlb] }

theorem witness_ring_define :
    let s := { withRegs [(.s, 4, 0x9000), (.s, 5, 0)] (at0 0) with
      mem := Mem.setN (at0 0).mem (probeBase + 0x9000) (leBytes 8 0x8000 ++ leBytes 1 1 ++ leBytes 1 6 ++ List.replicate 54 0) }
    let ops := [Opd.dvs (.s 6), Opd.sk (.s 4) 2]
    let e := s.entered (cur0 0) h0 ops
    s.once (cur0 0) h0 { ops := ops } t0 = true ∧
    (match e.translate 0 0 0x9000 .atomic with
      | (.ok x, u) => decide (u.tlb.length = 1 ∧ leafOrd x.leaf = 0 ∧ homeDie x.leaf x.pa < 8 ∧ leafHome x.leaf ≠ 8) && !u.descUsed x.pa
      | _ => false) = true ∧
    (match { e with tlb := [probeTlb] }.readVa 0 0x9000 64 with | (.ok bs, u) => ringDescOk bs && decide (u.tlb = [probeTlb]) | _ => false) = true ∧
    (match (e.pick 8192).2.writeVa 0 (0x9000 + 0x18) (bytesOf [0, 0, 0]) with | (.ok (), _) => true | _ => false) = true := by decide +kernel

/-- The machine with a descriptor's address in s4:s5, on pages of this order attribute. -/
def describing (va ord : Nat) : State :=
  let s := withRegs [(.s, 4, BitVec.ofNat 32 va), (.s, 5, 0)] (at0 0)
  { s with tlb := [{ probeTlb with leaf := BitVec.ofNat 64 (probeLeaf + 32 * ord) }], mem := Mem.setN s.mem probeL1 (leBytes 8 (probeLeaf + 32 * ord)) }

/-- RDEF define turned away: a misaligned descriptor, one on a page that is not ordered for atomics, one already defined, and one that breaks R294. -/
theorem witness_ring_refused :
    let ops := [Opd.dvs (.s 6), Opd.sk (.s 4) 2]
    let used := { describing 0x9000 0 with rings := [{ die := 0, index := 5, ctx := 0, desc := 0x9000, base := 0x8000, ldepth := 1, lslot := 6, head := 0, tail := 0, ownerTeam := 0, ownerLaunch := 0 }] }
    ([describing 0x9020 0, describing 0x9000 2, used, describing 0x9000 0].all fun s => s.once (cur0 0) h0 { ops := ops } t0) = true ∧
    ([(describing 0x9000 2, true, false), (used, false, true), (describing 0x9000 0, false, false)].all fun x =>
      let e := x.1.entered (cur0 0) h0 ops
      match e.translate 0 0 0x9000 .atomic with
      | (.ok y, u) => decide (u = e) && (decide (leafOrd y.leaf ≠ 0) == x.2.1) && (e.descUsed y.pa == x.2.2) && decide (leafHome y.leaf ≠ 8 ∧ homeDie y.leaf y.pa < 8)
      | _ => false) = true ∧
    (match ((describing 0x9000 0).entered (cur0 0) h0 ops).readVa 0 0x9000 64 with | (.ok bs, u) => decide (u = (describing 0x9000 0).entered (cur0 0) h0 ops) && !ringDescOk bs | _ => false) = true := by
  decide +kernel

theorem witness_ring_free_and_adopt :
    (ringAt []).once (cur0 0) h0 { ops := [Opd.sk (.s 4)] } t0 = true ∧ (ringAt []).ring? 0 (State.reset.ringHandle 0 5) = none ∧
    (let s := ringAt [probeRing 0 0]
     let e := s.entered (cur0 0) h0 [Opd.sk (.s 4)]
     s.once (cur0 0) h0 { ops := [Opd.sk (.s 4)] } t0 = true ∧ s.ring? 0 (val1 (s.opdVals t0 [Opd.sk (.s 4)]) 0) = some (probeRing 0 0) ∧
     (e.ringWrite (e.who t0) 0x9010 (bytesOf [0, 0])).1.toBool = true ∧ (e.ringWrite (e.who t0) 0x901C (bytesOf [0, 0])).1.toBool = true) := by decide +kernel

/-- RPUSH turned away: reserved header bits, a stale handle, a ring of another team, and a packet of 32 bytes beside the ring's 64, of which 16 are its own. -/
theorem witness_push_refused :
    let push := [Opd.vsk (.v 2), Opd.packet (.v 8) 8]
    let bad := withRegs [(.v, 8, 0x1010)] (ringAt [probeRing 0 0])
    let other := ringAt [{ probeRing 0 0 with ownerTeam := 1 }]
    ([bad, ringAt [], other].all fun s => s.alone (cur0 0) h0 { ops := push } t0 && !(s.entered (cur0 0) h0 push).accessWaits Machine.MemOrder.barrier [t0]) = true ∧
    pktOk 32 ((bad.opdVals t0 push).getD 1 []) = false ∧ pktOk 32 (((ringAt []).opdVals t0 push).getD 1 []) = true ∧
    (ringAt []).ring? 0 (val1 ((ringAt []).opdVals t0 push) 0) = none ∧
    other.ring? 0 (val1 (other.opdVals t0 push) 0) = some { probeRing 0 0 with ownerTeam := 1 } ∧ (other.team? 0).all (fun t => !other.owns t { probeRing 0 0 with ownerTeam := 1 }) = true := by
  decide +kernel

theorem witness_ring_packets :
    let push := [Opd.vsk (.v 2), Opd.packet (.v 8) 8]
    let pop := [Opd.vsk (.s 4), { reg := .v 40, n := 8, use := .wr }]
    let renq := [Opd.vsk (.v 3), Opd.vsk (.v 2), Opd.packet (.v 8) 8]
    ([(0, 0), (0, 1), (0xFFFFFFFF, 1)] : List (Word × Word)).all (fun x =>
      let r := probeRing x.1 x.2
      let s := ringAt [r]
      let e := s.entered (cur0 0) h0 push
      s.alone (cur0 0) h0 { ops := push } t0 && s.alone (cur0 0) h0 { ops := pop } t0 && s.alone (cur0 0) h0 { ops := renq } t0 &&
      waitless e && waitless (s.entered (cur0 0) h0 renq) && pktOk 32 ((s.opdVals t0 push).getD 1 []) && decide (s.ring? 0 (val1 (s.opdVals t0 push) 0) = some r) && pktOk r.slotBytes ((s.opdVals t0 push).getD 1 []) &&
      pktOk 256 ((s.opdVals t0 renq).getD 2 []) && (s.team? 0).all (fun t => s.owns t r && decide (t.commit = []) && !(s.descOf t).det) &&
      (e.ringWrite (e.who t0) (0x8000 + 64 * (r.tail.toNat % 2)) (pktStored r ((s.opdVals t0 push).getD 1 []))).1.toBool &&
      (e.readVa 0 (0x8000 + 64 * ((r.tail - 1).toNat % 2)) 64).1.toBool && (e.readVa 0 (0x8000 + 64 * (r.head.toNat % 2)) 64).1.toBool) = true ∧
    (probeRing 0xFFFFFFFF 1).tail - (probeRing 0xFFFFFFFF 1).head = BitVec.ofNat 32 (2 ^ 1) ∧ (ringAt []).ring? 0 (State.reset.ringHandle 0 5) = none ∧
    ((ringAt []).team? 0).all (fun t => !(ringAt []).owns t { probeRing 0 0 with ownerTeam := 1 }) = true := by decide +kernel

/-! ### Witnesses: queues, guards and matrix arrays -/

/-- The words of a FILL of 64 bytes at 0x4000 with tag 7, in s8 to s12. -/
def fillWords : List (RFile × Nat × Word) := [(.s, 8, 0x00070004), (.s, 9, 0x4000), (.s, 10, 0), (.s, 11, 64), (.s, 12, 0xABCD)]

theorem witness_queue_submit :
    let team := [{ reg := .q 32, use := .name, v := false, h := false, q := true }, ({ reg := .s 4, n := 1, s := true } : Opd)]
    let cmd := [{ reg := .q 0, use := .name, v := false, h := false, q := true }, ({ reg := .s 8, n := 5, s := true } : Opd)]
    let s := withQueue []
    let f := withRegs fillWords (at0 0)
    let e := f.entered (cur0 0) h0 cmd
    (s.clear (cur0 0) h0 { ops := team } = true ∧ s.plain [t0] team.tail = true ∧ ((s.entered (cur0 0) h0 team).push t0 32 [0]).isSome = true ∧ s.twinTid t0 = false ∧ waitless (s.entered (cur0 0) h0 team) = true) ∧
    (f.clear (cur0 0) h0 { ops := cmd } = true ∧ f.plain [t0] cmd.tail = true ∧ waitless e = true ∧
      (e.team? 0).all (fun t => decide ((e.rule t 0 ((f.opdVals t0 cmd).getD 1 [])).1.reject = none) && !e.queueFull (e.rule t 0 ((f.opdVals t0 cmd).getD 1 [])).1.eng &&
        e.lockRoom t.core (e.rule t 0 ((f.opdVals t0 cmd).getD 1 [])).1.locks.length) = true) := by decide +kernel

/-- The machine with tokens on q1: tag 7, then tag 9. -/
def withTokens : State := withTeam (fun t => { t with tokens := [(1, 0x00070000), (1, 0x00090000)] }) (withRegs [(.v, 2, 9), (.v, 3, 8)] (at0 0))

theorem witness_queue_pops :
    let team := [({ reg := .v 40, n := 1, use := .wr, s := true } : Opd), Opd.queue (.q 32)]
    let tok := [({ reg := .v 40, n := 1, use := .wr, s := true } : Opd), Opd.queue (.q 1)]
    (withQueue [[5]]).clear (cur0 0) h0 { ops := team } = true ∧ ((withQueue [[5]]).entered (cur0 0) h0 team).pop t0 32 ≠ none ∧
    (withQueue []).clear (cur0 0) h0 { ops := team } = true ∧ ((withQueue []).entered (cur0 0) h0 team).pop t0 32 = none ∧
    withTokens.clear (cur0 0) h0 { ops := tok } = true ∧ withTokens.slotWords (.q 1) = 1 ∧ (withQueue []).slotWords (.q 32) = 1 ∧
    waitless (withTokens.entered (cur0 0) h0 tok) = true ∧ (withTokens.entered (cur0 0) h0 tok).deliverAsync t0 0x1000 = (false, withTokens.entered (cur0 0) h0 tok) ∧
    queueKind 1 = 1 ∧ probeDesc.queue? 1 = none := by decide +kernel

/-- QSTAT of each kind of queue, with a copy command unfinished behind q0. -/
theorem witness_queue_counts :
    let ops := fun (q : Fin 64) => [Opd.dvs (.s 6), Opd.queue (.q q)]
    let s := { withQueue [[5]] with
      cmds := [{ id := 0, eng := .cpy 0, team := 0, ctx := 0, core := 0, group := 0, code := 4, words := [], pc := 0, word := 0, age := 0, seq := some 0, tag := 0, notok := true, recips := [t0] }] }
    ([0, 1, 32].all fun q => s.clear (cur0 0) h0 { ops := ops q, illReg := fun _ _ => !queueOf [0, 1, 2] (.q q) }) = true ∧ s.actives (cur0 0) h0 = [t0] ∧
    queueKind 0 = 0 ∧ queueKind 1 = 1 ∧
    (s.cmds.filter fun k => decide (k.team = 0 ∧ k.tokenQueue = 0 + 1) && (match k.eng with | .rrot _ => false | _ => true) && s.cmdOpen k).length = 1 ∧
    (s.team? 0).all (fun t => decide ((s.descOf t).queue? 32 = some (oneQueue 32) ∧ (oneQueue 32).ldepth ≤ 15 ∧ (assoc [] t.queues 32).length = 1)) = true := by decide +kernel

theorem witness_queue_waits :
    ([(.v 2, 9, true), (.v 3, 8, false)] : List (Reg × Nat × Bool)).all (fun x =>
      let ops := [Opd.dvs (.v 40), Opd.queue (.q 1), Opd.vsk x.1]
      withTokens.clear (cur0 0) h0 { ops := ops } && withTokens.plain [t0] [Opd.vsk x.1] && waitless (withTokens.entered (cur0 0) h0 ops) &&
      decide ((withTokens.entered (cur0 0) h0 ops).deliverAsync t0 0x1000 = (false, withTokens.entered (cur0 0) h0 ops)) &&
      decide ((val1 (withTokens.opdVals t0 ops) 2).toNat = x.2.1) &&
      (withTokens.team? 0).all fun t => (t.tokens.find? (fun y => decide (y.1 = 1 ∧ y.2.toNat / 65536 = x.2.1))).isSome == x.2.2) = true := by decide +kernel

theorem witness_guards :
    let s := { withTeam (fun t => { t with guards := [15] }) (at0 0) with
      cmds := [{ id := 0, eng := .cpy 0, team := 0, ctx := 0, core := 0, group := 0, code := 4, words := [], pc := 0, word := 0, age := 0, seq := some 0, tag := 0,
                 notok := true, recips := [t0], guard := some 15 }] }
    s.once (cur0 0) h0 {} t0 = true ∧ (15 : BitVec 4).toNat ∈ [15] ∧ s.predOf t0 1 = false ∧ (at0 0).once (cur0 0) h0 {} t0 = true := by decide +kernel

/-- Operand groups: eight words for MLOOP in s8, an address in s16, strides and words from s20, a format in v20. -/
def matrixRegs : List (RFile × Nat × Word) :=
  [(.s, 8, 0), (.s, 9, 0x2000), (.s, 16, 0), (.s, 17, 0), (.s, 18, 0), (.s, 20, 512), (.s, 21, 0xFFFFFFFF), (.s, 24, 0), (.s, 25, 0xFFFFFFFF), (.s, 26, BitVec.ofNat 32 (149 * 256)), (.v, 20, 17)]

/-- The conditions of EntersArray for a command. -/
def entersReady (s : State) (k : Checks) (judge : State → Team → Tid → List Tid → MIssue) : Bool :=
  let e := s.entered (cur0 0) h0 k.ops
  s.clear (cur0 0) h0 k && !e.queueFull (.array 0 0) && waitless e && (e.team? 0).all fun tm =>
    match judge e tm t0 [t0] with
    | .go m => e.lockRoom 0 (m.ranges.filter fun x => decide (x.len ≠ 0)).length
    | _ => false

theorem witness_matrix_words :
    let s := withRegs matrixRegs (at0 0)
    entersReady s { whole := true, ops := [Opd.block (.v 256) 256 1 (s.asksAcc h0 { d := .v 256, a := .s 8, b := .v 20, stepsM1 := 3 }), Opd.sgroup (.s 8) 8, Opd.vsk (.v 20)], illReg := fun s t => !s.blockStart t (.v 256) }
      (fun s tm t set => s.mloopIssue { d := .v 256, a := .s 8, b := .v 20, stepsM1 := 3 } tm t set) = true ∧
    entersReady s { whole := true, ops := [Opd.block (.v 0) 256 1], illReg := fun s t => !s.blockStart t (.v 0) }
      (fun s _ t _ => .go { code := 0xE4, tag := 0, tok := true, ranges := [{ pool := true, lo := s.regAddr t 0, len := 65536, dst := true }] }) = true ∧
    entersReady s { whole := true, ops := [Opd.block (.v 1280) 256 1 true, Opd.sk (.s 16), Opd.sk (.s 18)], illReg := fun s t => !s.blockStart t (.v 1280) }
      (fun s tm t _ => s.drainIssue { d := .v 1280, a := .s 16, b := .s 18, zero := false, tok := true, tag := 255 } true tm t) = true ∧
    entersReady s { whole := true, ops := [Opd.block (.v 256) 256 1 true, Opd.sk (.s 16) 2, Opd.sk (.s 18)], illReg := fun s t => !s.blockStart t (.v 256) }
      (fun s tm t _ => s.drainIssue { d := .v 256, a := .s 16, b := .s 18, zero := true, tok := false, tag := 0 } false tm t) = true ∧
    entersReady s { whole := true, ops := [Opd.block (.v 256) 256 1 true, Opd.sk (.s 16) 2, Opd.sgroup (.s 20) 4], illReg := fun s t => !s.blockStart t (.v 256) }
      (fun s tm t _ => s.mstaddIssue { d := .v 256, a := .s 16, b := .s 20, pool := false, tok := false, tag := 0 } tm t) = true ∧
    entersReady s { whole := true, ops := [Opd.block (.v 256) 256 32, Opd.sk (.s 16)] }
      (fun s tm t _ => s.mldfIssue { d := .v 256, a := .s 16, nM1 := 7, tok := false, tag := 0 } tm t) = true ∧
    entersReady s { whole := true, ops := [Opd.block (.v 256) 256 1 true, Opd.sgroup (.s 24) 4, Opd.block (.v 20) 4 4 true], illReg := fun s t => !s.blockStart t (.v 256) }
      (fun s tm t _ => s.mscanIssue { d := .v 256, a := .s 24, b := .v 20, cs := 0 } tm t) = true ∧
    entersReady s { whole := true, ops := [Opd.dvs (.s 1), Opd.block (.v 20) 4 4] }
      (fun s _ t _ => .go { ranges := [{ pool := true, lo := s.regAddr t 20, len := 1024, dst := true }] }) = true := by decide +kernel

/-- A command queued for pipe 0's array. -/
def arrayCmd : Cmd :=
  { id := 5, eng := .array 0 0, team := 0, ctx := 0, core := 0, group := 0, code := 0xE4, words := [], pc := 0, word := 0, age := 0, seq := none, tag := 0, notok := true,
    recips := [t0], stage := .queued }

theorem witness_matrix_queue_full :
    let s := { withRegs matrixRegs (at0 0) with cmds := List.replicate 8 arrayCmd }
    let k : Checks := { whole := true, ops := [Opd.block (.v 0) 256 1], illReg := fun s t => !s.blockStart t (.v 0) }
    s.clear (cur0 0) h0 k = true ∧ (s.entered (cur0 0) h0 k.ops).queueFull (.array 0 0) = true := by decide +kernel

theorem witness_matrix_trap :
    let s := withRegs [(.s, 16, 4)] (at0 0)
    let k : Checks := { whole := true, ops := [Opd.block (.v 256) 256 32, Opd.sk (.s 16)] }
    s.clear (cur0 0) h0 k = true ∧ ((s.entered (cur0 0) h0 k.ops).team? 0).all (fun tm =>
      match (s.entered (cur0 0) h0 k.ops).mldfIssue { d := .v 256, a := .s 16, nM1 := 7, tok := false, tag := 0 } tm t0 with | .trap c a => decide (c = fcMisalign ∧ a = 4) | _ => false) = true := by
  decide +kernel

/-- The machine with an MZERO of block v256 in pipe 0's array, at a stage. -/
def withArray (st : Stage) : State :=
  { at0 0 with cmds := [{ id := 5, eng := .array 0 0, team := 0, ctx := 0, core := 0, group := 0, code := 0xE4, words := [], pc := 0,
                          word := (encode (.mzero h0 { d := .v 256, tok := false, tag := 0 })).getD 0, age := 0, seq := none, tag := 0, notok := true, recips := [t0], stage := st }] }

theorem witness_matrix_waits :
    ([.queued, .consumed, .done] : List Stage).all (fun st =>
      let s := withArray st
      let k : Checks := { whole := true, ops := [Opd.block (.v 256) 256 1], illReg := fun s t => !s.blockStart t (.v 256) }
      s.clear (cur0 0) h0 k && s.clear (cur0 0) h0 { whole := true } && decide ((s.entered (cur0 0) h0 k.ops).deliverPoint 0x1000 [t0] = ([t0], s.entered (cur0 0) h0 k.ops)) &&
      decide ((s.entered (cur0 0) h0 []).deliverPoint 0x1000 [t0] = ([t0], s.entered (cur0 0) h0 [])) &&
      s.cmds.all fun c => c.eng.isArray && decide (namedBlock c.word = some (.v 256))) = true := by decide +kernel

/-! ### Witnesses: control -/

theorem witness_branches :
    let s := withRegs [(.v, 2, 0x2000), (.v, 3, 0)] (at0 0)
    let hm := withThread (fun th => { th with handler := true }) (at0 0)
    readyOps [] = true ∧ readyOps [Opd.dv (.v 0) 2] = true ∧ readyOps [Opd.vsk (.v 2) 2] = true ∧ readyOps [Opd.dv (.v 0) 2, Opd.vsk (.v 2) 2] = true ∧
    (val2 (s.opdVals t0 [Opd.vsk (.v 2) 2]) 0).toNat % 8 = 0 ∧ s.clear (cur0 0) h0 { ops := [Opd.vsk (.v 2) 2] } = true ∧
    hm.clear (cur0 0) h0 { ops := [Opd.dv (.h 0) 2] } = true ∧ hm.actives (cur0 0) h0 = [t0] ∧ ((0x1000 : DWord) + ((0x7FFFFF : BitVec 24).signExtend 64) * 8).toNat % 8 = 0 ∧
    hm.threadIs t0 (fun th => th.handler) = true ∧ ((at0 0).thread? t0).isSome = true ∧ (cur0 0).lanes = [t0] := by decide +kernel

/-- A second thread of the group, and a set of both of which only the first is active: a branch splits it. -/
def t1 : Tid := { team := 0, group := 0, lane := 1 }
theorem witness_branch_splits :
    let c := { cur0 0 with lanes := [t0, t1] }
    let s := { withTeam (fun t => { t with groups := t.groups.map fun g => { g with threads := g.threads.flatMap fun th => [{ th with preds := 3 }, { th with lane := 1 }] } }) (at0 0) with cur := some c }
    let h := { h0 with pg := 1 }
    s.clear c h {} = true ∧ s.actives c h = [t0] ∧ c.lanes.all (fun a => (s.thread? a).isSome) = true ∧ (s.descOfTid t0).hintchk = false := by decide +kernel

/-- No thread of the team stands at a marker with a fault to take. -/
def unmarked (s : State) : Bool := (s.team? 0).all fun tm => tm.allThreads.all fun th => !th.parks.contains .marker || th.afaults.isEmpty

theorem witness_masks :
    (at0 0).clear (cur0 0) h0 { illReg := maskIllegal 9 } = true ∧ (at0 0).actives (cur0 0) h0 = [t0] ∧ (((at0 0).group? t0).all fun g => decide (g.masks.length = 12)) = true ∧
    ((at0 0).entered (cur0 0) h0 []).deliverAsync t0 0x1000 = (false, (at0 0).entered (cur0 0) h0 []) ∧ unmarked (at0 0) = true ∧
    (at0 0).clear (cur0 0) h0 { ops := [{ reg := .s 4, n := 2, align := 2, use := .wr, v := false, h := false, s := true }], illReg := maskIllegal 0 } = true := by decide +kernel

theorem witness_barriers :
    let s := withRegs [(.s, 4, 1), (.s, 5, 1024), (.s, 6, 0), (.v, 2, 0), (.v, 3, 7)] (at0 0)
    unmarked s = true ∧ ((s.team? 0).all fun t => decide (t.barriers.length = 16 ∧ (t.barrier 15).p = 0) && !(s.descOf t).det) = true ∧
    [[Opd.sk (.s 4)], [Opd.sk (.s 5)], [Opd.sk (.s 6)], [], [Opd.dvs (.s 7)], [Opd.dvs (.v 7)], [Opd.vsk (.v 2)], [Opd.vsk (.v 3)]].all (fun ops =>
      s.clear (cur0 0) h0 { ops := ops, illOp := inHandler } && s.plain [t0] ops && waitless (s.entered (cur0 0) h0 ops) && decide ((s.entered (cur0 0) h0 ops).deliverAsync t0 0x1000 = (false, s.entered (cur0 0) h0 ops))) = true ∧
    s.threadIs t0 (fun th => th.closed) = false ∧ s.threadIs t0 (fun th => th.parks.isEmpty) = true ∧
    (let z := withTeam (fun t => { t with barriers := t.barriers.set 15 { n := 64, c := 63 } }) s
     unmarked z = true ∧ (z.team? 0).all (fun t => decide (t.barriers.length = 16 ∧ (t.barrier 15).c + 1 = (t.barrier 15).n ∧ 0 < (t.barrier 15).c ∧ 1 ≤ (t.barrier 15).c)) = true ∧
     [[], [Opd.dvs (.v 7)], [Opd.sk (.s 4)]].all (fun ops =>
      z.clear (cur0 0) h0 { ops := ops, illOp := inHandler } && z.plain [t0] ops && waitless (z.entered (cur0 0) h0 ops) && decide ((z.entered (cur0 0) h0 ops).deliverAsync t0 0x1000 = (false, z.entered (cur0 0) h0 ops))) = true) := by decide +kernel

/-- What FaultEntry asks of the thread and its context. -/
def canEnter (s : State) : Bool :=
  s.threadIs t0 (fun th => !th.handler && decide (th.longs = [])) && (s.ctx? 0).all (fun c => decide (c.hentry ≠ 0)) &&
  (s.group? t0).all fun g => match g.frame with | some f => !s.reserveMissing f.1 | none => (s.freeFrame 0 0 false).isSome

theorem witness_fault_entry :
    let s := withHandler (at0 0x0078000000000000)
    let w : DWord := 0x0078000000000000
    canEnter s = true ∧ (s.team? 0).isSome = true ∧ (s.group? t0).isSome = true ∧ (withHandler (at0 0)).clear (cur0 0) h0 {} = true ∧ s.cur = some (cur0 w) ∧ w.getLsbD 63 = false ∧ (unpack w).hdr.pg ≠ 8 ∧
    s.actives (cur0 w) (unpack w).hdr = [t0] := by decide +kernel

theorem witness_faults_that_kill :
    let r : FaultRec := { info := { code := 0x19, fpc := 0x800, rpc := 0x808 }, preds := 1 }
    let s := withThread (fun th => { th with handler := true, frec := some r }) (withHandler (at0 0))
    (at0 0).clear (cur0 0) h0 {} = true ∧ (((at0 0).ctx? 0).all fun c => decide (c.hentry = 0)) = true ∧
    s.clear (cur0 0) h0 {} = true ∧ s.actives (cur0 0) h0 = [t0] ∧ s.threadIs t0 (fun th => th.handler && decide (th.frec = some r)) = true := by decide +kernel

/-- The thread in handler mode with this fault record. -/
def handling (r : FaultRec) : State := withThread (fun th => { th with handler := true, frec := some r }) (withRegs [(.v, 2, 0x2000), (.v, 3, 0)] (withHandler (at0 0)))

theorem witness_handler_return :
    ([{ info := { code := 0x1A, fpc := 0x800, rpc := 0x800 }, preds := 3 }, { info := { code := 0x19, fpc := 0x800, rpc := 0x808 }, preds := 1 }] : List FaultRec).all (fun r =>
      let s := handling r
      unmarked s && s.clear (cur0 0) h0 { illOp := outsideHandler } && s.clear (cur0 0) h0 { ops := [Opd.vsk (.v 2) 2], illOp := outsideHandler } && decide (s.actives (cur0 0) h0 = [t0]) &&
      s.plain [t0] [Opd.vsk (.v 2) 2] && decide (r.info.rpc.toNat % 8 = 0) &&
      s.clear (cur0 0) h0 { ops := [Opd.dvs (.s 4)], illOp := fun s t => outsideHandler s t || !infoSel 0 } && (r.word 0).isSome) = true := by decide +kernel

theorem witness_ends_and_kills :
    let s := at0 0
    unmarked s = true ∧ s.clear (cur0 0) h0 {} = true ∧ s.clear (cur0 0) h0 { illOp := noCode 255 } = true ∧ s.clear (cur0 0) h0 { illOp := noCode 0x80 } = true ∧
    ((s.addLong t0 true []).2).clear (cur0 0) h0 {} = true ∧ ((s.launch? 0).all fun l => !l.dropped) = true ∧ s.threadIs t0 (fun th => decide (th.longs = [] ∧ th.afaults = [])) = true := by decide +kernel

theorem witness_system_words :
    let s := withDesc (fun d => { d with flags := d.flags ||| 0x200 }) (withRegs [(.v, 2, 0), (.v, 3, 1), (.v, 4, 0x9000), (.v, 5, 0)] (at0 0))
    s.alone (cur0 0) h0 { ops := [Opd.dvs (.v 6) 2, Opd.vsk (.v 4) 2] } t0 = true ∧
    waitless (s.entered (cur0 0) h0 [Opd.dvs (.v 6) 2, Opd.vsk (.v 4) 2]) = true ∧ s.launchWaits = [] ∧ s.launchRoom 0 = true ∧
    s.once (cur0 0) h0 { ops := [Opd.vsk (.v 4) 2], illOp := fun s t => !(s.descOfTid t).seedcap } t0 = true ∧
    s.alone (cur0 0) h0 { ops := [Opd.vsk (.v 2)] } t0 = true ∧ s.alone (cur0 0) h0 { ops := [Opd.vsk (.v 3)] } t0 = true ∧ s.alone (cur0 0) h0 { ops := [] } t0 = true ∧
    readyOps [Opd.dvs (.s 8)] = true := by decide +kernel

/-- What the selectors are read of: a word in execution by a thread of a team and a group. -/
theorem witness_selectors : let s := at0 0x123
    s.cur = some (cur0 0x123) ∧ (s.team? 0).isSome = true ∧ (s.group? t0).isSome = true ∧ (s.thread? t0).isSome = true ∧ s.svr t0 4 = some 1 := by decide +kernel

/-- LAUNCH refused: a descriptor that cannot be read, and one whose checks fail. -/
theorem witness_launch_refused :
    let ops := [Opd.dvs (.v 6) 2, Opd.vsk (.v 4) 2]
    let absent := withRegs [(.v, 4, 0x40000000), (.v, 5, 0)] (at0 0)
    let empty := withRegs [(.v, 4, 0x9000), (.v, 5, 0)] (at0 0)
    ([absent, empty].all fun s => s.alone (cur0 0) h0 { ops := ops } t0 && !(s.entered (cur0 0) h0 ops).accessWaits Machine.MemOrder.barrier [t0] && decide (s.launchWaits = []) && s.launchRoom 0) = true ∧
    (match (absent.readVa 0 0x40000000 256).1 with | .error f => decide (f.1 = fcPageAbsent) | _ => false) = true ∧
    (match empty.readVa 0 0x9000 256 with
      | (.ok bs, u) => (firstFailure (descChecks 0x9000 bs)).isSome && (u.readVa 0 (constOf bs) 256).1.toBool
      | _ => false) = true := by decide +kernel

theorem witness_monitor_words :
    let own := withRegs [(.s, 4, 71), (.s, 5, 72), (.s, 6, 0)] { at0 0 with monitors := [{ Monitor.reset 0 with owner := some 0 }] }
    let e := own.entered (cur0 0) h0 []
    [[Opd.dvs (.v 20), Opd.sk (.s 4)], [Opd.sk (.s 5)], [Opd.sk (.s 6)]].all (fun ops => own.once (cur0 0) h0 { ops := ops } t0) = true ∧
    e.ownsMonitor t0 (e.monitorOf t0 0) = true ∧ e.ownsMonitor t0 (e.monitorOf t0 71) = false := by decide +kernel

theorem witness_pair_words :
    let o : PairF := { marker := true, gw := false, ps := false, a := { op := .iadd, d := .v 1, s := .v 2 }, b := { op := .fmul, d := .v 8, s := .v 9 } }
    let s := at0 0
    let ops := slotOps o.a ++ slotOps o.b
    let e := (s.issue (cur0 0) 0 o.gw).setCur ((cur0 0).withSet [t0])
    pairLegal o = true ∧ (cur0 0).popped = [] ∧ (s.issue (cur0 0) 0 o.gw).active (cur0 0) (pairGuard o.ps) = [t0] ∧ e.untrapped { illPair := !pairLegal o, ops := ops } t0 = true ∧
    (e.countUniform ((cur0 0).withSet [t0]) ops [t0]).meet t0 ops = .go ∧ s.plain [t0] ops = true := by decide +kernel

/-! ### Witnesses: engines and events -/

/-- A command of the team at the head of its engine's queue. -/
def cmdOf (eng : Engine) (code : Nat) (words : List Word) (st : Stage) : Cmd :=
  { id := 5, eng := eng, team := 0, ctx := 0, core := 0, group := 0, code := code, words := words, pc := 0x800, word := 0, age := 0, seq := some 0, tag := 7, notok := false,
    recips := [t0], claimed := true, stage := st }
/-- The loaded machine with a command, between words. -/
def withCmd (k : Cmd) : State := { State.reset.loaded 0 with cmds := [k] }

/-- The conditions of MayStart and of MayEnd, as checks. -/
def linesThere (s : State) (k : Cmd) (l : Lock) : Bool := (s.team? k.team).all fun tm => (linesOf l.lo l.len).all fun x => !tm.lineAbsent x
def mayStart (s : State) (k : Cmd) : Bool :=
  decide (k.stage = .queued) && k.claimed &&
  s.cmds.all (fun e => !decide (e.id < k.id ∧ e.eng = k.eng ∧ (k.eng.isArray = true ∨ e.team = k.team)) || decide (e.stage = .done ∧ e.owed = [])) &&
  k.lines.all (fun x => !s.poolMissing k.team (128 * x) 128) &&
  s.locks.all fun l => !decide (l.cmd = k.id) || !l.pool || (!s.poolMissing k.team l.lo l.len && linesThere s k l)
def mayEnd (s : State) (k : Cmd) : Bool :=
  decide (k.stage = .consumed) && (k.fault.isSome || decide (k.lines = [] ∧ k.folds = [] ∧ k.chunks = [])) &&
  s.cmds.all (fun e => !decide (e.id < k.id ∧ e.eng = k.eng ∧ e.team = k.team) || decide (e.stage = .done ∧ e.owed = [])) &&
  k.out.all (fun w => !w.pool || !s.poolMissing k.team w.addr w.bytes.length) &&
  s.locks.all fun l => !decide (l.cmd = k.id) || !l.pool || !l.dst || linesThere s k l

theorem mayStart_of_ok {s : State} {k : Cmd} (h : mayStart s k = true) : MayStart s k := by
  simp only [mayStart, linesThere, Bool.and_eq_true, Bool.or_eq_true, decide_eq_true_eq, List.all_eq_true, Bool.not_eq_true', Option.all_eq_true,
    decide_eq_false_iff_not] at h
  refine ⟨h.1.1.1.1, h.1.1.1.2, fun e he h1 h2 h3 => ?_, h.1.2, fun l hl h1 h2 => ?_⟩
  · have := h.1.1.2 e he
    simpa only [h1, h2, h3, and_self, not_true_eq_false, false_or] using this
  have := h.2 l hl
  simp only [h1, h2, not_true_eq_false, Bool.true_eq_false, false_or] at this
  exact this

theorem mayEnd_of_ok {s : State} {k : Cmd} (h : mayEnd s k = true) : MayEnd s k := by
  simp only [mayEnd, linesThere, Bool.and_eq_true, Bool.or_eq_true, decide_eq_true_eq, List.all_eq_true, Bool.not_eq_true', Option.all_eq_true,
    decide_eq_false_iff_not] at h
  refine ⟨h.1.1.1.1, h.1.1.1.2, fun e he h1 h2 h3 => ?_, fun w hw h1 => ?_, fun l hl h1 h2 h3 tm htm x hx => ?_⟩
  · have := h.1.1.2 e he
    simpa only [h1, h2, h3, and_self, not_true_eq_false, false_or] using this
  · have := h.1.2 w hw
    simpa only [h1, Bool.true_eq_false, false_or] using this
  · have := h.2 l hl
    simp only [h1, h2, h3, not_true_eq_false, Bool.true_eq_false, false_or] at this
    exact this tm htm x hx

/-- A lock of the command on 256 bytes of the pool. -/
def poolLock : Lock := { cmd := 5, core := 0, ctx := 0, team := 0, pool := true, lo := 0x8000, len := 256, dst := true }

theorem witness_engine_commands :
    ([(.cpy 0, 0x01), (.cpy 0, 0x02), (.cpy 0, 0x03), (.cpy 0, 0x04), (.srt 0, 0x10), (.srt 0, 0x11), (.trv 0, 0x20), (.trv 0, 0x21), (.slv 0, 0x30), (.slv 0, 0x31),
      (.slv 0, 0x32), (.slv 0, 0x33), (.base 15, 0x40), (.base 0, 0x41), (.base 3, 0x42), (.cap 7, 0x50), (.fabric, 0x60)] : List (Engine × Nat)).all (fun x =>
      let k := cmdOf x.1 x.2 [BitVec.ofNat 32 (0x70000 + x.2)] .queued
      decide ((withCmd k).cmd? 5 = some k) && !k.eng.isArray && mayStart { withCmd k with locks := [poolLock] } k) = true := by decide +kernel

theorem witness_command_points :
    let run := { cmdOf (.cpy 0) 1 [] .running with lines := [3] }
    let done := cmdOf (.cpy 0) 1 [] .consumed
    let zero := { cmdOf (.array 0 0) 0xE4 [] .queued with word := (encode (.mzero h0 { d := .v 256, tok := false, tag := 0 })).getD 0 }
    (withCmd run).cmd? 5 = some run ∧ run.eng.isArray = false ∧ (withCmd run).poolMissing 0 (128 * 3) 128 = false ∧
    mayEnd { withCmd done with locks := [poolLock] } done = true ∧
    decode zero.word = .mzero h0 { d := .v 256, tok := false, tag := 0 } ∧ mayStart { withCmd zero with locks := [poolLock] } zero = true ∧ zero.awaits = [] ∧
    ((withTeam (fun t => t.clearLines [3]) (withCmd run)).team? 0).all (fun t => decide (t.fill 3 = 1 ∧ t.unfilled = []) && t.lineAbsent 3) = true ∧
    ((withTeam (fun t => { t.clearLines [3] with unfilled := [3] }) (withCmd run)).team? 0).all (fun t => t.unfilled.contains 3) = true := by decide +kernel

/-- The machine between words with the thread, the team and its queues as given. -/
def idleWith (f : Thread → Thread) (g : Team → Team) : State :=
  withThread f (withTeam g (withDesc (fun d => { d with queues := [oneQueue 32, oneQueue 63] }) (withHandler (State.reset.loaded 0))))

theorem witness_thread_events :
    let fault : FaultInfo := { code := 0x19, fpc := 0x800, rpc := 0x808 }
    let s := idleWith (fun th => { th with longs := [{ id := 3, ready := true, regs := [{ file := .s, idx := 63, val := 9 }] }], gapUntil := 4 })
      (fun t => { t with queues := [(32, [[1], [2]])], tokens := [(31, 5)] })
    (s.thread? t0).isSome = true ∧ (s.group? t0).isSome = true ∧
    (s.team? 0).all (fun t => decide (((s.descOf t).queue? 63) = some (oneQueue 63) ∧ (oneQueue 63).lslot = 2 ∧ t.queueLen 63 < 2 ^ 1 ∧ t.queueLen 32 = 2) && (t.tokens.find? (fun x => decide (x.1 = 31))).isSome) = true ∧
    s.threadIs t0 (fun th => decide (th.longs = [{ id := 3, ready := true, regs := [{ file := .s, idx := 63, val := 9 }] }] ∧ th.parks = [] ∧ th.afaults = []) &&
      th.longs.all fun x => !s.awaitsLead t0 x) = true ∧
    (idleWith (fun th => { th with parks := [.sleep 0, .marker] }) id).threadIs t0 (fun th => decide (th.afaults = [])) = true ∧
    (idleWith (fun th => { th with parks := [.sector 64] }) id).threadIs t0 (fun th => decide (Park.sector 64 ∈ th.parks)) = true ∧
    (idleWith (fun th => { th with parks := [.entry fault] }) id).threadIs t0 (fun th => decide (th.parks = [.entry fault] ∧ th.longs = [])) = true ∧
    0 < (idleWith id id).freeFrames 0 0 ∧
    (let u := idleWith (fun th => { th with parks := [.entry fault] }) id
     let z := withCtx (fun c => { c with hentry := 0 }) u
     [(u, false), (z, true)].all fun x => match x.1.team? 0, x.1.group? t0 with
       | some tm, some g => decide (x.1.entryTouch tm g = none ∧ 0 < x.1.freeFrames 0 0) && (x.1.ctx? tm.ctx).any (fun c => decide (c.hentry = 0) == x.2) && x.1.threadIs t0 (fun th => decide (th.parks = [.entry fault] ∧ th.longs = []))
       | _, _ => false) = true := by decide +kernel

/-- A packet under way to the ring of ringAt, and the machine between words with that ring. -/
def packet : RenqPkt := { id := 3, ctx := 0, sender := 0, target := State.reset.ringHandle 0 5, ret := 0xFFFFFFFF, words := [0x10, 0x77, 1, 2] }
def ringWith (r : Ring) (f : State → State) : State := f { State.reset.loaded 0 with rings := [r], tlb := [probeTlb] }

theorem witness_packet_arrivals :
    ([(probeRing 0 0, false), (probeRing 0xFFFFFFFF 1, true)] : List (Ring × Bool)).all (fun x =>
      let s := ringWith x.1 fun s => { s with renqs := [packet] }
      let gone := ringWith x.1 id
      decide (s.renqs.find? (fun q => decide (q.id = 3)) = some packet ∧ s.ring? 0 packet.target = some x.1 ∧ s.twinSender packet = none ∧ s.heldCount 0 0 < 4096) &&
      !s.renqBehind packet && !s.heldBehind packet && !x.1.swapped && (x.1.full == x.2) && pktOk x.1.slotBytes packet.words &&
      (gone.writeVa 0 (0x8000 + 64 * (x.1.tail.toNat % 2)) (pktStored x.1 packet.words)).1.toBool && (gone.writeVa 0 (s.overflowVa 0 0 0) (bytesOf packet.words)).1.toBool) = true := by
  decide +kernel

/-- The overflow area of the context at 0x100000, with the packet at place 0. -/
def overflowing (r : Ring) : State :=
  let s := withCtx (fun c => { c with ovfl := 0x100000 }) (ringWith r id)
  { (s.writeVa 0 0x100000 (bytesOf packet.words)).2 with held := [(0, { packet with slot := some 0 })] }

theorem witness_packet_delivery :
    ([(probeRing 0 0, false), (probeRing 0xFFFFFFFF 1, true)] : List (Ring × Bool)).all (fun x =>
      let u := overflowing x.1
      let p := { packet with slot := some 0 }
      decide (u.held.find? (fun h => decide (h.2.id = 3)) = some (x.1.die, p) ∧ u.ring? 0 p.target = some x.1 ∧ u.twinSender p = none) && !u.heldBehind p && (x.1.full == x.2) &&
      (match u.readVa 0 (u.overflowVa 0 0 0) 16 with
        | (.ok bs, y) => pktOk x.1.slotBytes (wordsOf bs) &&
          (({ y with held := [] } : State).writeVa 0 (0x8000 + 64 * (x.1.tail.toNat % 2)) (pktStored x.1 (wordsOf bs))).1.toBool
        | _ => false)) = true := by decide +kernel

theorem witness_full_overflow_area (s : State) (n : Nat) : ({ s with held := List.replicate n (0, packet) } : State).heldCount 0 0 = n := by
  simp [State.heldCount, packet]

/-- A contribution to position idx of set 9, and a set of two from base 40. -/
def contrib (idx : Word) : Contrib :=
  { id := 3, ctx := 0, set := 9, idx := idx, va := 0x2000, aop := .add, ty := .f32, value := 0x3F800000, recips := [t0], pc := 0x800, word := 0, age := 0 }
def setWith (count : Nat) (held : List Contrib) : SetEntry :=
  { die := 0, ctx := 0, set := 9, base := 40, count := count, start := 0x2000, length := 64, flagAddr := 0, flagVal := 0, scope := 5, held := held }

theorem witness_contribution_events :
    let s := { State.reset.loaded 0 with contribs := [contrib 41], sets := [setWith 2 []] }
    let u := { State.reset.loaded 0 with sets := [setWith 2 [contrib 40]] }
    let v := { State.reset.loaded 0 with sets := [setWith 1 [contrib 40]] }
    s.contribs.find? (fun x => decide (x.id = 3)) = some (contrib 41) ∧ s.set? 0 9 = some (setWith 2 []) ∧ s.contribBad (setWith 2 []) (contrib 41) = false ∧
    (contrib 41).set.toNat ≤ 65535 ∧ s.mustSpill (setWith 2 []) (contrib 41) = false ∧ u.set? (9 / 65536) (9 % 65536) = some (setWith 2 [contrib 40]) ∧ v.set? 0 9 = some (setWith 1 [contrib 40]) ∧
    (setWith 2 [contrib 40]).held.find? (fun x => decide ((setWith 2 [contrib 40]).pos x.idx = (setWith 2 [contrib 40]).applied)) = some (contrib 40) := by decide +kernel

/-- Contribution 41 with m others in the slice's reorder buffer and n more spilled. -/
def fullBuffers (m n : Nat) : State × SetEntry :=
  let e := setWith 2 (List.replicate m (contrib 40) ++ List.replicate n { contrib 40 with spill := some 0 })
  ({ State.reset.loaded 0 with contribs := [contrib 41], sets := [e] }, e)

theorem walkFrom_sets (s : State) (x : List SetEntry) (part va : Nat) (l : List (Nat × Nat)) : ∀ t y,
    walkFrom { s with sets := x } part va l t y = walkFrom s part va l t y := by
  induction l with
  | nil => intro t y; rfl
  | cons a l ih => intro t y; simp only [walkFrom, ih]; rfl

theorem onRemote_sets (s : State) (x : List SetEntry) (ctx va : Nat) : ({ s with sets := x } : State).onRemote ctx va = s.onRemote ctx va := by
  simp only [State.onRemote, State.peek, State.walk, walkFrom_sets, State.ctx?]

theorem witness_full_buffers (m n : Nat) (hm : 512 ≤ m) : let x := fullBuffers m n
    x.1.contribs.find? (fun x => decide (x.id = 3)) = some (contrib 41) ∧ x.1.set? 0 9 = some x.2 ∧ x.1.contribBad x.2 (contrib 41) = false ∧
    x.1.mustSpill x.2 (contrib 41) = true ∧ (x.1.spills 0 0).length = n := by
  have h1 : (fullBuffers m n).1.contribRemote (contrib 41) = false := by
    have h2 : (State.reset.loaded 0).onRemote 0 0x2000 = false := by decide +kernel
    exact (onRemote_sets { State.reset.loaded 0 with contribs := [contrib 41] } _ 0 0x2000).trans h2
  have h3 : ∀ sl, (fullBuffers m n).1.setSlice (fullBuffers m n).2 = sl → (fullBuffers m n).1.sliceHeld 0 sl = m := by
    intro sl h
    simp only [State.sliceHeld]
    change (List.map (fun e => if e.die = 0 ∧ (fullBuffers m n).1.setSlice e = sl then (e.held.filter fun k => k.spill.isNone).length else 0) [(fullBuffers m n).2]).sum = m
    simp only [List.map_cons, List.map_nil, h, List.sum_cons, List.sum_nil]
    simp [fullBuffers, setWith, contrib, List.filter_append]
  refine ⟨rfl, rfl, ?_, ?_, ?_⟩
  · simp only [State.contribBad, h1]
    simp [fullBuffers, setWith, contrib, SetEntry.pos, Contrib.span]; decide
  · simp only [State.mustSpill]
    rw [show (fullBuffers m n).2.die = 0 from rfl, h3 _ rfl]
    simp [hm, fullBuffers, setWith, contrib, SetEntry.pos]
  · simp [fullBuffers, State.spills, setWith, contrib]

/-- A host work ring 2 of 32-byte slots at 0x8000, its descriptor at 0x80 in a table, whose first packet has these words. -/
def hostRing : HostRing := { ring := 2, ctx := 0, live := true, head := 0, tail := 1 }
def hostAt (tab : Nat) (ws : List Word) : State :=
  let s := withCtx (fun c => { c with hrtab := BitVec.ofNat 64 tab }) (State.reset.loaded 0)
  { s with
    hostRings := [hostRing],
    mem := Mem.setN (Mem.setN s.mem (probeBase + tab + 0x80) (leBytes 8 0x8000 ++ leBytes 1 4 ++ leBytes 1 6 ++ List.replicate 54 0)) (probeBase + 0x8000) (bytesOf ws) }

theorem witness_host_rings :
    ([([0], .nop), ([0x10, 0, 0x9000, 0], .launch), ([0x21, 0, 0x2000, 0, 7, 0, 5, 0], .signal), ([0x30], .skip)] : List (List Word × HostKind)).all (fun x =>
      match (hostAt 0x9000 x.1).hostPacket 2 with
      | (some (r, k, _), _) => decide (r = hostRing ∧ k = x.2)
      | _ => false) = true ∧
    (State.reset.loaded 0).launchRoom 0 = true := by decide +kernel

theorem witness_signals_and_dependencies :
    let g : HostSignal := { id := 3, ring := 2, ctx := 0, index := 0, addr := 0x2000, val := 7, scope := 5, after := [], succs := [] }
    let s := { State.reset.loaded 0 with hostSignals := [g] }
    let d := withDesc (fun d => { d with deps := [(0x2000, 1), (0, 0)], gx := 2 }) (State.reset.loaded 0)
    let u := d.updLaunch 0 fun l => { l with met := [false, true] }
    s.hostSignals.find? (fun x => decide (x.id = 3)) = some g ∧ (({ s with hostSignals := [] } : State).writeVa 0 0x2000 (leBytes 8 7)).1.toBool = true ∧
    (u.launch? 0).all (fun l => decide (l.met = [false, true] ∧ l.d.deps.getD 0 (0, 0) = (0x2000, 1)) && !l.dropped && !l.allPlaced) = true ∧ u.launchWaits = [] ∧
    (u.readVaNat 0 0x2000 8).1.toBool = true := by decide +kernel

/-- The launch with a second team of 32 KiB of windows to place. -/
def twoTeams (role : RoleD) : State := { withDesc (fun d => { d with gx := 2, roles := [some role, none, none, none] }) (State.reset.loaded 0) with thaw := [(0, 0, 0)] }

theorem witness_team_placement :
    let s := twoTeams { entry := 0, gmin := 1, gmax := 1, budget := 32 }
    let c : Cand := { launch := 0, index := 1, copy := 0, back := false }
    s.choose 1 = some c ∧ c.key = 1 ∧ (s.launch? 0).all (fun l => !l.d.cluster && (match s.roomMade l c 1 with | some r => (r.placeCand l c 1).1 && decide (r.places l c 1 = [(1, 1)] ∧ r.launch? l.key = some l ∧ s.team? 1 = none) | none => false) &&
      (match s.fitCounts l 1 0 1 with
        | some counts => decide (s.places l c 1 = [(1, 1)] ∧ l.d.segsFor counts + (s.reserveNeed 1 l.ctx l.d.rsvx).1 + (s.reserveNeed 1 l.ctx l.d.rsvx).2 ≤ (s.freeFor l.ctx 1).length)
        | none => false)) = true := by decide +kernel

theorem witness_thaw_swap :
    let s := withThread (fun th => { th with parks := [.sleep 99] }) { twoTeams { entry := 0, gmin := 16, gmax := 16, budget := 1536 } with clk := { cycle := 0x100000000 } }
    s.thawReady 0 0 = true ∧ (s.thawHead 0 0).isSome = true ∧ (s.thawVictim 0 0).map (fun t => t.key) = some 0 := by decide +kernel

theorem witness_retire_and_lull :
    let s := withTeam (fun t => { t with groups := [] }) (State.reset.loaded 0)
    let u := { State.reset.loaded 0 with clk := { cycle := 0x20000000000 } }
    (s.team? 0).all (fun t => decide (t.place ≠ .retired) && s.spent t && !s.isTwin t) = true ∧
    (u.ctx? 0).all (fun c => u.lullDue c && !c.lullKill) = true := by decide +kernel

theorem witness_segments_and_waves :
    let s := withTeam (fun t => { t with segs := [{ index := 6, phys := 6, saved := some 0x200000 }] }) (State.reset.loaded 0)
    let o : WaveOp := { wave := 1, tid := t0, long := 0, pc := 0x800, word := 0, vals := [] }
    let u := withTeam (fun t => { t with waveOps := [o] }) (withThread (fun th => { th with wave := 1 }) (State.reset.loaded 0))
    (s.team? 0).all (fun t => (t.seg? 6).any (fun g => decide (g.saved = some 0x200000)) && decide (t.place = .resident)) = true ∧
    (match s.readVa 0 0x200000 65536 with | (.ok _, _) => true | _ => false) = true ∧ (u.team? 0).all (fun t => decide (t.nextWave = some 1) && t.waveReady 1) = true := by decide +kernel

/-! ### Witnesses: orders, management and the fabric -/

/-- An order record of a path for context 0, with these operand bytes. -/
def orderFor (code : Nat) (opnds : List Byte) : OrderRec :=
  { path := .host, code := BitVec.ofNat 8 code, ctx := 0, rsv := 0, seq := 7, opnds := opnds ++ List.replicate (56 - opnds.length) 0 }

theorem witness_orders_refused :
    let o := { orderFor 0x07 [] with rsv := 1 }
    (Instr.setSeed o, 0x07, 8, Names.registered) ∈ OrderForms o ∧ (State.reset.loaded 0).boot.pathOpen .host = true ∧ (State.reset.loaded 0).boot.pathOpen .management = true ∧
    ({ State.reset.boot with absentSteps := [10] } : Boot).pathOpen .host = false ∧ ({ State.reset.boot with absentSteps := [4] } : Boot).pathOpen .management = false ∧ (State.reset.loaded 0).orderForm o 0x07 8 .registered = false ∧
    (State.reset.loaded 0).orderForm (orderFor 0x07 (List.replicate 9 1)) 0x07 8 .registered = false ∧ State.reset.orderForm (orderFor 0x07 []) 0x07 8 .registered = false := by
  refine ⟨by simp [OrderForms], ?_, ?_, ?_, ?_, ?_, ?_, ?_⟩ <;> decide +kernel

/-- A context descriptor at physical address probeBase + 0x10000. -/
def descBytes : List Byte := leBytes 8 probeRoot ++ leBytes 8 0x10000000 ++ List.replicate 48 0 ++ leBytes 4 16 ++ leBytes 4 0 ++ leBytes 8 5 ++ List.replicate 176 0

theorem witness_register :
    let o := orderFor 0x01 (leBytes 8 (probeBase + 0x10000))
    let s := { State.reset with mem := Mem.setN [] (probeBase + 0x10000) descBytes }
    s.orderForm o 0x01 8 .slot = true ∧ s.ctx? 0 = none ∧ populated s.boot (o.u64 0) = true ∧ populated s.boot (o.u64 0 + 255) = true ∧ s.marked (o.u64 0) 256 = false ∧
    ctxDescBad (s.readPhys (o.u64 0) 256) = none := by decide +kernel

theorem witness_context_orders :
    let s := State.reset.loaded 0
    let e := { s with launches := [], teams := [] }
    ([(0x02, []), (0x03, []), (0x04, []), (0x06, List.replicate 4 0xFF), (0x07, leBytes 8 5), (0x08, leBytes 8 64), (0x0B, [0, 0, 2, 0]), (0x0C, [1, 0, 0, 0, 2]), (0x0E, [7, 2, 0])] : List (Nat × List Byte)).all
      (fun x => s.orderForm (orderFor x.1 x.2) x.1 x.2.length .registered) = true ∧
    (∀ x ∈ e.launches, x.ctx ≠ 0) ∧ (∀ t ∈ e.teams, t.ctx ≠ 0) ∧ e.orderForm (orderFor 0x02 []) 0x02 0 .registered = true ∧ (s.teams.map fun t => t.key).Nodup ∧ s.allLeave (s.contextTeams 0) = true ∧
    (s.ctx? 0).all (fun c => decide (c.ckpt = none)) = true ∧ s.boot.controlQp = none ∧ s.hostRings = [] ∧ s.qps = [] ∧
    (OrderRec.u16 (orderFor 0x0B [0, 0, 2, 0]) 0 + OrderRec.u16 (orderFor 0x0B [0, 0, 2, 0]) 2 ≤ 4096) ∧ OrderRec.u16 (orderFor 0x0E [7, 2, 0]) 0 = 519 := by decide +kernel

theorem witness_preempt_team :
    let s := State.reset.loaded 0
    let o := orderFor 0x05 (List.replicate 8 0)
    s.orderForm o 0x05 8 .registered = true ∧ s.allLeave (s.teamNamed o) = true ∧ (s.teams.map fun t => t.key).Nodup ∧ (s.launchSeq 0 (o.u32 0)).map (fun l => l.key) = some 0 ∧
    (s.teams.any fun t => decide (t.launch = 0 ∧ t.index = o.u32 4 ∧ t.killed = false ∧ t.place ≠ .retired)) = true := by decide +kernel

/-- An image of a context with nothing in it. -/
def emptyImage : CkptImage :=
  { addr := 64, ctx := probeCtx State.reset, pages := [], launches := [], rings := [], held := [], renqs := [], contribs := [], hostRings := [], sets := [] }

theorem witness_checkpoints :
    let e := { State.reset.loaded 0 with launches := [], teams := [] }
    let s := withCtx (fun c => { c with ckpt := some (64, .host, 7) }) e
    let r := { e with ckpts := [emptyImage] }
    let o := orderFor 0x09 (leBytes 8 64)
    (s.ctx? 0).all (fun c => decide (c.ckpt = some (64, .host, 7))) = true ∧ s.atBoundary 0 = true ∧ r.orderForm o 0x09 8 .registered = true ∧
    r.ckpts.find? (fun i => decide (i.addr = BitVec.ofNat 64 (o.u64 0))) = some emptyImage ∧
    (r.ctx? 0).all (fun c => match r.restoreImage c emptyImage with | (.value 0, _) => true | _ => false) = true ∧
    (match r.restorePages 0 emptyImage.pages with | (.ok (), y) => (y.reissueAll 0 emptyImage.rings).isSome | _ => false) = true := by decide +kernel

theorem witness_module_orders :
    let s := State.reset
    let p := orderFor 0x0A [0, 0x0F, 0]
    let d := { s with removing := [7] }
    s.orderForm p 0x0A 3 .none = true ∧ p.u8 0 ≤ 7 ∧ p.u8 2 ≤ 1 ∧ s.dieParts.length = 8 ∧ (∀ d < 8, p.u8 1 / 2 ^ d % 2 = 1 → s.dieParts.getD d 8 = p.u8 0 ∨ s.dieParts.getD d 8 = 8) ∧
    d.removalDone 7 = true ∧ s.orderForm (orderFor 0x0F [0, 0, 0, 0, 64]) 0x0F 8 .none = true ∧ OrderRec.u32 (orderFor 0x0F [0, 0, 0, 0, 64]) 4 = 64 := by decide +kernel

theorem witness_window :
    let o := orderFor 0x0D (leBytes 2 4095 ++ leBytes 2 0 ++ leBytes 4 65535 ++ leBytes 4 9 ++ leBytes 4 0 ++ leBytes 8 0x1000 ++ leBytes 8 0x10000)
    (State.reset.loaded 0).orderForm o 0x0D 32 .registered = true ∧ o.u16 0 = 4095 ∧ o.u16 2 = 0 ∧ o.u32 4 = 65535 ∧ o.u32 12 = 0 ∧ o.u64 24 % 65536 = 0 := by decide +kernel

theorem witness_start :
    let r := StartReport.plain
    r.steps.length = 12 ∧ (∀ x ∈ r.steps, x.mainOk = true) ∧ (∀ n, failedLast State.reset.boot.previous n = false) ∧ (State.reset.boot.slotOk 0 0 = true ∧ State.reset.boot.slotOk 1 0 = true) ∧
    r.dabound % 512 = 0 ∧ r.mibound = 49152 := by
  refine ⟨by decide, by decide, fun n => by simp [failedLast, State.reset], by decide +kernel, by decide, by decide⟩

theorem witness_start_fails : ∃ x xs, (x :: xs : List StepReport) = [{ mainOk := false, altOk := false, code := 3 }] ∧ x.mainOk = false := ⟨_, _, rfl, rfl⟩

theorem witness_management : 4 ∉ State.reset.boot.absentSteps ∧ 0 < 600 ∧ 600 < State.reset.clk.mhz ∧
    (519 : Nat) < 520 ∧ ({ Monitor.reset 0 with state := 1, src := 0x10002 } : Monitor).watches 0 0x02 0 true = true := by decide +kernel

/-- The loaded machine with queue pair 3 of its context and control queue pair 4. -/
def withQp : State :=
  let s := State.reset.loaded 0
  { s with qps := [{ num := 3, ctx := 0 }], tlb := [probeTlb], boot := { s.boot with controlQp := some 4 } }

theorem witness_rdma :
    let s := withQp
    s.qpCtx 3 = some 0 ∧ (s.writeVa 0 0x2000 [1, 2]).1.toBool = true ∧ (s.writeVa 0 0x40000000 [1]).1.toBool = false ∧ (s.readVa 0 0x2000 16).1.toBool = true ∧
    (match s.translateWalk 0 0x2000 .atomic with | (.ok x, u) => !leafRm x.leaf && !zeroRow x.pa && !u.marked x.pa 8 | _ => false) = true := by decide +kernel

theorem witness_sends :
    let o : List Byte := [0x07, 0, 0, 0, 1, 0, 0, 0] ++ leBytes 8 5 ++ List.replicate 48 0
    let m := leBytes 2 0x5E7A ++ [1, 3] ++ List.replicate 28 0
    withQp.boot.controlQp = some 4 ∧ o.length = 64 ∧ (orderStep (orderOf .host o)).isSome = true ∧ evavoOf o = none ∧ (evavoOf m).map (fun m => (m.ver, m.type)) = some (1, 3) := by
  decide +kernel

theorem witness_remote_operations :
    let p : RemoteOp := { id := 2, ctx := 0, qp := 3, recips := [t0], va := 0x2000, pc := 0x800, word := 0, age := 0 }
    let s := { withQp with remoteOps := [p] }
    s.remoteOps.find? (fun o => decide (o.id = 2)) = some p ∧ (s.thread? t0).isSome = true := by decide +kernel

theorem witness_start_images : (∀ w, State.reset.boot.slotOk w 0 = true) ∧ State.reset.boot.previous = [] := ⟨fun w => by simp [Boot.slotOk, Boot.slot, State.reset], rfl⟩

/-- Two images of one kind that the rollback counter bars: neither slot verifies. -/
theorem witness_start_unverified :
    let i : FwImage := { which := 0, version := 4, bytes := [], sig := [] }
    let b := { State.reset.boot with flash := [i, i], rollback := 5 }
    b.slotOk 0 0 = false ∧ b.slotOk 0 1 = false := by
  exact ⟨by simp [Boot.slotOk, Boot.slot, Boot.verified], by simp [Boot.slotOk, Boot.slot, Boot.verified]⟩

theorem witness_ports : State.reset.boot.portsUp = true ∧ State.reset.boot.portUp 11 = true ∧ State.reset.boot.portUp 12 = false ∧
    ({ State.reset.boot with portsDown := [3] } : Boot).portUp 3 = false ∧ (7 : Nat) < 8 := by decide +kernel

/-- A COLL command of two ranks, of which rank 1 is reached over queue pair 9. -/
def collCmd : Cmd :=
  { cmdOf .fabric 0x60 [] .queued with
    args := wordsOf (List.replicate 8 0 ++ leBytes 8 1 ++ leBytes 4 4096 ++ leBytes 4 2 ++ List.replicate 40 0 ++
      leBytes 4 0 ++ leBytes 4 0xFFFFFFFF ++ leBytes 4 0 ++ [1, 0, 0, 0] ++ leBytes 4 1 ++ List.replicate 12 0 ++
      leBytes 4 1 ++ leBytes 4 0 ++ leBytes 4 9 ++ List.replicate 20 0) }

theorem witness_retry_exhausted : collCmd ∈ (withCmd collCmd).cmds ∧ collCmd.stage ≠ .done ∧ collCmd.usesQp 9 = true := by
  refine ⟨List.mem_singleton.mpr rfl, by decide, by decide +kernel⟩

/-- A copy command with a lock on a remote page, whose window goes through queue pair 9. -/
def remoteCopy : State :=
  let leaf := probeLeaf + 2 ^ 14 + 2 ^ 8
  let s := withCmd (cmdOf (.cpy 0) 1 [0x01, 0x2000, 0, 0x3000, 0, 16] .running)
  { s with mem := Mem.setN s.mem probeL1 (leBytes 8 leaf), windows := [{ index := 256, qp := 9, rkey := 1, base := 0, len := 0x100000, ctx := 0 }],
           locks := [{ cmd := 5, core := 0, ctx := 0, team := 0, pool := false, lo := 0x3000, len := 16, dst := true }] }

theorem witness_retry_exhausted_window : remoteCopy.cmds.all (fun k => decide (k.stage ≠ .done) && remoteCopy.rangesUse k 9 && !k.usesQp 9) = true ∧ remoteCopy.cmds.length = 1 := by
  decide +kernel

/-! ### Witnesses: what engine commands read -/

/-- A started state's command with data in memory at virtual addresses. -/
def cmdOn (k : Cmd) (xs : List (Nat × List Word)) : State := xs.foldl (fun s x => (s.writeVa 0 x.1 (bytesOf x.2)).2) (withCmd k)
def readOk (s : State) (k : Cmd) (rs : List (Bool × Nat × Nat)) : Bool := match s.cmdReads k rs with | (.ok _, _) => true | _ => false

def dieOk (s : State) (k : Cmd) (rs : List (Nat × Nat)) : Bool := match s.dieReads k rs with | (.ok _, _) => true | _ => false

theorem witness_copies_read :
    let k1 := cmdOf (.cpy 0) 1 [0x01, 0x10000, 0, 0x20000, 0, 12] .queued
    let k2 := cmdOf (.cpy 0) 2 [0x02, 0x10000, 0, 0x20000, 0, 4, 3, 8, 12] .queued
    let k3 := cmdOf (.cpy 0) 3 [0x03, 0x10000, 0, 0x20000, 0, 4, 2, 8, 4, 2, 32, 8] .queued
    mayStart (withCmd k1) k1 = true ∧ readOk (withCmd k1) k1 [(cmdFlag k1.words 0, copyAddr k1.words 1 false, wAt k1.words 5)] = true ∧
    readOk (withCmd k2) k2 ((List.range 3).map fun r => (false, 0x10000 + r * 8, 4)) = true ∧
    readOk (withCmd k3) k3 ([0, 8, 32, 40].map fun o => (false, 0x10000 + o, 4)) = true := by decide +kernel

theorem witness_sorts_read :
    let k := cmdOf (.srt 0) 0x11 [0x11, 0x10000, 0, 0x11000, 0, 0x20000, 0, 0x21000, 0, 4, 0x0420, 0x30000, 0, 0x12000, 0, 2] .queued
    let s := cmdOn k [(0x12000, [0, 2, 4])]
    mayStart s k = true ∧ readOk s k [(false, 0x12000, 12), (false, 0x10000, 16), (false, 0x11000, 16)] = true ∧
    (match s.cmdRead k false 0x12000 12 with | (.ok os, _) => decide ((wordsOf os).map (fun x => x.toNat) = [0, 2, 4]) | _ => false) = true := by decide +kernel

/-- The parameter block of a reduction of one FP32 element from the first of eight equal sources. -/
def bredBlock : List Word := [0x00040000, 0, 0x8000, 0, 7, 0, 0x9000, 0, 1, 0] ++ (List.range 8).flatMap fun i => [BitVec.ofNat 32 (0xA000 + 4 * i), 0, 0, 0]

/-- A ROWCP of one page, between pages of one stack. -/
def rowcp : Cmd := { cmdOf (.base 0) 0x42 [0x42, 0x10000, 0, 0x20000, 0, 0x10000, 0, 0] .queued with pages := [(1, 0x30000, false), (2, 0x50000, true)] }

theorem witness_base_die_commands_read :
    let k := { cmdOf (.base 0) 0x40 [0x40, 0x7000, 0] .queued with args := bredBlock, pages := [(0, 0x30000, true)] }
    let f := bredF (bytesOf k.args)
    mayStart (withCmd k) k = true ∧ mayStart (withCmd rowcp) rowcp = true ∧ f.count = 1 ∧ f.srcs.length = 8 ∧ f.flag = 0x8000 ∧ (withCmd k).cmdTwin k = false ∧
    ((withCmd k).bredElems k f (List.range f.count)).1 = none ∧
    (match (withCmd k).dieReads k (f.srcs.map fun x => (x.a + x.at 0, 4)) with
      | (.ok bss, y) => (y.cmdWrite k { pool := false, addr := f.dst, bytes := leBytes 4 (bredTree (bredOp f.op (bredFmt f.dtype)) (bss.map leNat)) }).1.toBool
      | _ => false) = true ∧
    (match (withCmd k).dieReads { k with pages := [] } (f.srcs.map fun x => (x.a + x.at 0, 4)) with | (.error _, _) => true | _ => false) = true ∧
    wAt rowcp.words 5 / 65536 = 1 ∧ rowcp.kept 0x10000 = some 0x30000 ∧ rowcp.kept 0x20000 true = some 0x50000 ∧
    ((withCmd { rowcp with words := [] }).copyPages { rowcp with words := [] } 0 0 (List.range (wAt [] 5 / 65536))).1 = none := by decide +kernel

theorem writeKept_page (s : State) (c : Cmd) (va pa n : Nat) (bs : List Byte) (h : c.kept va true = some pa) (hue : s.ue = []) (hn : bs.length = n) :
    (s.writeKept c [(va, n)] bs).1 = .ok () := by
  subst hn
  simp only [State.writeKept, State.writeKeptPart, h, State.writeAround, State.dropped, State.halfMarked, hue]
  simp

/-- The page is read, and each of its bytes may be written. -/
theorem witness_page_copied :
    (withCmd rowcp).dieRead rowcp [(0x10000, 65536)] = (.ok (Mem.getN (withCmd rowcp).mem 0x30000 65536), withCmd rowcp) ∧
    ((withCmd rowcp).cmdWrite rowcp { pool := false, addr := 0x20000, bytes := Mem.getN (withCmd rowcp).mem 0x30000 65536 }).1 = .ok () := by
  have hk : rowcp.kept 0x10000 = some 0x30000 := by decide +kernel
  have hw : rowcp.kept 0x20000 true = some 0x50000 := by decide +kernel
  have hz : zeroRow 0x30000 = false := by decide +kernel
  have hue : (withCmd rowcp).ue = [] := rfl
  have ht : (withCmd rowcp).cmdTwin rowcp = false := by decide +kernel
  refine ⟨?_, ?_⟩
  · simp only [State.dieRead, hk, State.marked, hue, List.any_nil, State.readPhys, hz]
    simp
  · have hl : (Mem.getN (withCmd rowcp).mem 0x30000 65536).length = 65536 := Mem.getN_length _ _ _
    have he : (Mem.getN (withCmd rowcp).mem 0x30000 65536).isEmpty = false := by
      rw [List.isEmpty_eq_false_iff_exists_mem, ← List.length_pos_iff_exists_mem]; rw [hl]; decide
    have hp : parts 0x20000 65536 = [(0x20000, 65536)] := by decide +kernel
    simp only [State.cmdWrite, he, ht, hl, hp, Bool.false_eq_true, if_false]
    exact writeKept_page _ _ _ _ _ _ hw hue hl

theorem witness_traversals_read :
    let k := cmdOf (.trv 0) 0x21 [0x21, 0x10000, 0, 1, 0x11000, 0, 0x12000, 0, 0x13000, 0] .queued
    let q := cmdOf (.trv 0) 0x20 [0x20, 0x10000, 0, 0, 0x11000, 0, 1, 0x12000, 0, 8, 0x13000, 0] .queued
    (match (withCmd k).cmdRead k false 0x10000 8 with
      | (.ok bs, y) => (match y.trvPairs k 0x11000 (cut 8 1 bs) with | (h, none, _) => decide (h.length = 1) | _ => false)
      | _ => false) = true ∧
    (match (cmdOn q [(0x10030, [0x80000005, 0xFFFFFFFF, 0xFFFFFFFF, 0xFFFFFFFF])]).cmdRead q false 0x11000 24 with
      | (.ok bs, y) => (let v := (State.visit q 0x10000 8 0 (boxOf .fp32 4 (bs.take 24)) 64 0 ({}, y)).1; v.fault.isNone && decide (v.n = 1 ∧ v.hits = [(0, 5)]))
      | _ => false) = true := by decide +kernel

theorem witness_fact_reads :
    let k := cmdOf (.slv 0) 0x30 [0x30, 0x10000, 0, 0x22, 0x11000, 0, 0, 0x3EB00000] .queued
    mayStart (withCmd k) k = true ∧ wAt k.words 3 % 32 = 2 ∧ readOk (withCmd k) k ((List.range 2).map fun i => (false, 0x10000 + 16 * i, 8 * (i + 1))) = true := by decide +kernel

theorem witness_solves_read :
    let k := cmdOf (.slv 0) 0x31 [0x31, 0x10000, 0, 0x12000, 0, 0x13000, 0, 1] .queued
    let b := cmdOf (.slv 0) 0x32 [0x32, 0x10000, 0, 0x12000, 0, 0x13000, 0, 0x14000, 0, 0x15000, 0, 1] .queued
    ([(k, [none, some 4, some 4], [(false, 0x12000, 4)]), (b, [none, some 4, some 4, some 4, some 4], [(false, 0x12000, 4), (false, 0x13000, 4), (false, 0x15000, 4)])] :
        List (Cmd × List (Option Nat) × List (Bool × Nat × Nat))).all (fun x => match (cmdOn x.1 [(0x10000, [1])]).readRecord x.1 with
      | (.ok r, y) => mayStart (cmdOn x.1 [(0x10000, [1])]) x.1 && decide (r.n = 1 ∧ r.fp64 = false) && readOk (y.narrow 5 x.2.1) x.1 x.2.2
      | _ => false) = true ∧
    meets 0x12000 4 0x13000 4 = false ∧ meets 0x12000 4 0x14000 4 = false ∧ meets 0x14000 4 0x15000 4 = false := by decide +kernel

theorem witness_lcp_reads :
    let k := cmdOf (.slv 0) 0x33 [0x33, 0x10000, 0, 0x11000, 0, 0x12000, 0, 0x13000, 0, 0x14000, 0, 1, 2, 0, 0, 0x15000, 0] .queued
    let s := cmdOn k [(0x10000, [0x3F800000]), (0x11000, [0x40000000]), (0x13000, [0x40400000])]
    (match s.cmdReads k [(false, 0x10000, 4), (false, 0x11000, 4), (false, 0x12000, 4), (false, 0x13000, 4), (false, 0x14000, 4)] with
      | (.ok [a, b, lo, hi, x], _) =>
        (let p : Lcp := { f := .fp32, n := 1, a := elems 4 a, b := elems 4 b, lo := elems 4 lo, hi := elems 4 hi, tol := slvTau false 0 }
         !p.bad (elems 4 x) && decide (p.iterate 2 0 (elems 4 x) 0 = ([0x40000000], 2, 0, some 0)))
      | _ => false) = true := by decide +kernel

/-- A parameter block and a table descriptor: two bags of one FP32 element, the table's slices empty. -/
def embagBlock : List Word := [0x7000, 0, 0x10000, 0, 0x11000, 0, 0, 0, 0x12000, 0, 2, 16, 0, 0, 0, 0, 0x20000, 0, 0, 0, 8, 1, 64, 0]

theorem witness_embag_reads :
    let k := { cmdOf (.cap 0) 0x50 [0x50, 0x6000, 0] .queued with args := embagBlock }
    let s := cmdOn k [(0x10000, [0, 0, 1]), (0x20000, [0x3F800000])]
    let f := embagF ((bytesOf k.args).take 64) ((bytesOf k.args).drop 64)
    f.bags = 2 ∧ f.dim = 1 ∧ (List.range 32).all (fun i => decide (s.sliceOk 0 f i = none)) = true ∧
    (match s.cmdRead k false f.offs 12 with | (.ok bs, _) => decide (elems 4 bs = [0, 0, 1]) | _ => false) = true ∧
    (s.runBags k f (segments [0, 0, 1]).zipIdx).1 = none ∧
    (match s.cmdReads k [(false, f.idx, 4), (false, f.wts, 0)] with
      | (.ok [a, q], y) => (match y.bagRows k f ((elems 4 a).zipIdx.map fun x => (x.1, (elems 4 q).getD x.2 0)) with
        | (.ok rows, p) => decide (bagElem f rows 0 = 0x3F800000) && (p.cmdWrite k { pool := false, addr := f.out + f.opitch, bytes := leBytes 4 (bagElem f rows 0) }).1.toBool
        | _ => false)
      | _ => false) = true := by decide +kernel

/-! ### Witnesses: launches accepted -/

/-- A kernel descriptor's bytes: one role of one group, one team, constants at 0x2000. -/
def descWords : List Word :=
  [0x1000, 0, 0, 0xFFFFFFFF, 0xFFFFFFFF, 0xFFFFFFFF, 1, 1, 16, 0, 1, 1, 1, 0, 0, 0, 0x2000, 0, 0, 0, 0, 0, 4]
def withDescriptor (s : State) : State := (s.writeVa 0 0x9000 (bytesOf descWords)).2

/-- The descriptor at an address can be read and passes every check of acceptance. -/
def accepted (s : State) (va : Nat) : Bool :=
  match s.readVa 0 va 256 with
  | (.ok bs, u) => (match s.readVa 0 (constOf bs) 256 with
    | (.ok _, v) => decide (u = s ∧ v = s ∧ firstFailure (descChecks va bs) = none ∧ 0 < (kdescOf bs).teams) && (kdescOf bs).deps.all (fun d => decide (d.1 = 0)) &&
        s.launches.all fun x => decide (x.key < s.nextId)
    | _ => false)
  | _ => false

theorem witness_launch_accepted :
    let s := withDescriptor (withRegs [(.v, 4, 0x9000), (.v, 5, 0)] (at0 0))
    s.alone (cur0 0) h0 { ops := [Opd.dvs (.v 6) 2, Opd.vsk (.v 4) 2] } t0 = true ∧ s.launchWaits = [] ∧ s.launchRoom 0 = true ∧
    accepted s (val2 (s.opdVals t0 [Opd.dvs (.v 6) 2, Opd.vsk (.v 4) 2]) 1).toNat = true := by decide +kernel
theorem witness_host_launch_accepted :
    (match (withDescriptor (hostAt 0xA000 [0x10, 0, 0x9000, 0])).hostPacket 2 with
      | (some (r, .launch, ws), z) => decide (r = hostRing ∧ wordPair ws 2 = 0x9000) && accepted z 0x9000
      | _ => false) = true := by decide +kernel

end Sys2Proof.Tests
end

namespace Sys2Proof

/-! ### Cutting and joining bit fields -/

theorem extractLsb'_append_low {v w s l : Nat} (x : BitVec v) (y : BitVec w) (h : s + l ≤ w) :
    BitVec.extractLsb' s l (no_index (x ++ y)) = y.extractLsb' s l := BitVec.extractLsb'_append_eq_of_add_le h

theorem extractLsb'_append_high {v w s l : Nat} (x : BitVec v) (y : BitVec w) (h : w ≤ s) :
    BitVec.extractLsb' s l (no_index (x ++ y)) = x.extractLsb' (s - w) l := BitVec.extractLsb'_append_eq_of_le h

theorem getLsbD_append_eq_ite {v w i : Nat} (x : BitVec v) (y : BitVec w) :
    BitVec.getLsbD (no_index (x ++ y)) i = if i < w then y.getLsbD i else x.getLsbD (i - w) := BitVec.getLsbD_append

theorem extractLsb'_extractLsb' {n s l s' l' : Nat} (x : BitVec n) (h : s' + l' ≤ l) :
    (x.extractLsb' s l).extractLsb' s' l' = x.extractLsb' (s + s') l' := by
  ext i hi
  simp only [BitVec.getElem_extractLsb', BitVec.getLsbD_extractLsb', Nat.add_assoc, show s' + i < l by omega, decide_true, Bool.true_and]

theorem append_eq_iff {v w : Nat} (z : BitVec (v + w)) (x : BitVec v) (y : BitVec w) :
    @Eq (BitVec (no_index (v + w))) (@HAppend.hAppend (BitVec v) (BitVec w) (BitVec (no_index (v + w))) _ x y) z ↔ x = z.extractLsb' w v ∧ y = z.extractLsb' 0 w := by
  constructor
  · rintro rfl
    exact ⟨BitVec.extractLsb'_append_eq_left.symm, BitVec.extractLsb'_append_eq_right.symm⟩
  · rintro ⟨rfl, rfl⟩
    rw [BitVec.extractLsb'_append_extractLsb']

theorem bit1_getLsbD {n : Nat} (x : BitVec n) (i : Nat) : bit1 (x.getLsbD i) = x.extractLsb' i 1 := by
  rw [bit1, BitVec.getLsbD_eq_extractLsb']
  generalize x.extractLsb' i 1 = y
  revert y
  decide

theorem unpack_pack (f : Fields) : unpack (pack f) = f := by
  obtain ⟨mk, gap, gw, pg, opc, d, a, b, x⟩ := f
  simp [unpack, pack, bit1, getLsbD_append_eq_ite, extractLsb'_append_low, extractLsb'_append_high, -BitVec.getLsbD_eq_getElem]

theorem pack_form (f : Fields) : (pack f).getLsbD 63 = false := by
  simp [pack, bit1, getLsbD_append_eq_ite, -BitVec.getLsbD_eq_getElem]

theorem extractLsb'_one_eq {n : Nat} (x : BitVec n) (i : Nat) (b : Bool) : x.extractLsb' i 1 = bit1 b ↔ x.getLsbD i = b := by
  rw [← bit1_getLsbD]
  generalize x.getLsbD i = c
  revert b c
  decide

theorem pack_unpack (w : DWord) (h : w.getLsbD 63 = false) : pack (unpack w) = w := by
  have h0 : w.extractLsb' 63 1 = 0#1 := (extractLsb'_one_eq w 63 false).2 h
  simp [pack, unpack, bit1_getLsbD, append_eq_iff, extractLsb'_extractLsb', h0, -BitVec.getLsbD_eq_getElem]

/-! ### The codes -/

theorem extractLsb'_eq_zero_join {n s l m : Nat} {x : BitVec n} (h : x.extractLsb' s l = 0) (h' : x.extractLsb' (s + l) m = 0) :
    x.extractLsb' s (m + l) = 0 := by
  rw [← BitVec.extractLsb'_append_extractLsb'_eq_extractLsb' (x := x) (start₂ := s + l) rfl, h, h']
  simp

theorem bits_of_ofBits {n : Nat} {α : Type} {ofBits : BitVec n → Option α} {bits : α → BitVec n}
    (H : ∀ b, (ofBits b).all (fun r => decide (bits r = b)) = true) {b : BitVec n} {r : α} (h : ofBits b = some r) : bits r = b := by
  have := H b
  rw [h] at this
  exact of_decide_eq_true this

theorem Rm.bits_of_ofBits {b : BitVec 3} {r : Rm} (h : Rm.ofBits b = some r) : r.bits = b := Sys2Proof.bits_of_ofBits (by decide) h
theorem Pk.bits_of_ofBits {b : BitVec 2} {r : Pk} (h : Pk.ofBits b = some r) : r.bits = b := Sys2Proof.bits_of_ofBits (by decide) h
theorem ICond.bits_of_ofBits {b : BitVec 4} {r : ICond} (h : ICond.ofBits b = some r) : r.bits = b := Sys2Proof.bits_of_ofBits (by decide) h
theorem FCond.bits_of_ofBits {b : BitVec 4} {r : FCond} (h : FCond.ofBits b = some r) : r.bits = b := Sys2Proof.bits_of_ofBits (by decide) h
theorem Wid.bits_of_ofBits {b : BitVec 3} {r : Wid} (h : Wid.ofBits b = some r) : r.bits = b := Sys2Proof.bits_of_ofBits (by decide) h
@[simp] theorem MOrd.bits_ofBits (b : BitVec 2) : (MOrd.ofBits b).bits = b := by revert b; decide
theorem Sco.bits_of_ofBits {b : BitVec 3} {r : Sco} (h : Sco.ofBits b = some r) : r.bits = b := Sys2Proof.bits_of_ofBits (by decide) h
@[simp] theorem Ch.bits_ofBits (b : BitVec 2) : (Ch.ofBits b).bits = b := by revert b; decide
theorem Aop.bits_of_ofBits {b : BitVec 3} {r : Aop} (h : Aop.ofBits b = some r) : r.bits = b := Sys2Proof.bits_of_ofBits (by decide) h
theorem SAop.bits_of_ofBits {b : BitVec 3} {r : SAop} (h : SAop.ofBits b = some r) : r.bits = b := Sys2Proof.bits_of_ofBits (by decide) h
theorem ATy.bits_of_ofBits {b : BitVec 3} {r : ATy} (h : ATy.ofBits b = some r) : r.bits = b := Sys2Proof.bits_of_ofBits (by decide) h
@[simp] theorem Hint.bits_ofBits (b : BitVec 2) : (Hint.ofBits b).bits = b := by revert b; decide
theorem Cvt.bits_of_ofBits {b : BitVec 4} {r : Cvt} (h : Cvt.ofBits b = some r) : r.bits = b := Sys2Proof.bits_of_ofBits (by decide) h
theorem GOp.bits_of_ofBits {b : BitVec 4} {r : GOp} (h : GOp.ofBits b = some r) : r.bits = b := Sys2Proof.bits_of_ofBits (by decide) h
@[simp] theorem ShMode.bits_ofBits (b : BitVec 2) : (ShMode.ofBits b).bits = b := by revert b; decide
theorem TkTy.bits_of_ofBits {b : BitVec 3} {r : TkTy} (h : TkTy.ofBits b = some r) : r.bits = b := Sys2Proof.bits_of_ofBits (by decide) h
theorem HTy.bits_of_ofBits {b : BitVec 2} {r : HTy} (h : HTy.ofBits b = some r) : r.bits = b := Sys2Proof.bits_of_ofBits (by decide) h
@[simp] theorem FKind.bits_ofBits (b : BitVec 2) : (FKind.ofBits b).bits = b := by revert b; decide
theorem PTgt.bits_of_ofBits {b : BitVec 2} {r : PTgt} (h : PTgt.ofBits b = some r) : r.bits = b := Sys2Proof.bits_of_ofBits (by decide) h
theorem CSco.bits_of_ofBits {b : BitVec 3} {r : CSco} (h : CSco.ofBits b = some r) : r.bits = b := Sys2Proof.bits_of_ofBits (by decide) h
theorem SCond.bits_of_ofBits {b : BitVec 2} {r : SCond} (h : SCond.ofBits b = some r) : r.bits = b := Sys2Proof.bits_of_ofBits (by decide) h
theorem SlotOp.bits_of_ofBits {b : BitVec 7} {r : SlotOp} (h : SlotOp.ofBits b = some r) : r.bits = b := Sys2Proof.bits_of_ofBits (by decide) h
@[simp] theorem Ty.bits_ofBits (b : BitVec 3) : (Ty.ofBits b).bits = b := by revert b; decide
@[simp] theorem Rm.ofBits_bits (r : Rm) : Rm.ofBits r.bits = some r := by cases r <;> rfl
@[simp] theorem Pk.ofBits_bits (r : Pk) : Pk.ofBits r.bits = some r := by cases r <;> rfl
@[simp] theorem ICond.ofBits_bits (r : ICond) : ICond.ofBits r.bits = some r := by cases r <;> rfl
@[simp] theorem FCond.ofBits_bits (r : FCond) : FCond.ofBits r.bits = some r := by cases r <;> rfl
@[simp] theorem Wid.ofBits_bits (r : Wid) : Wid.ofBits r.bits = some r := by cases r <;> rfl
@[simp] theorem MOrd.ofBits_bits (r : MOrd) : MOrd.ofBits r.bits = r := by cases r <;> rfl
@[simp] theorem Sco.ofBits_bits (r : Sco) : Sco.ofBits r.bits = some r := by cases r <;> rfl
@[simp] theorem Ch.ofBits_bits (r : Ch) : Ch.ofBits r.bits = r := by cases r <;> rfl
@[simp] theorem Aop.ofBits_bits (r : Aop) : Aop.ofBits r.bits = some r := by cases r <;> rfl
@[simp] theorem SAop.ofBits_bits (r : SAop) : SAop.ofBits r.bits = some r := by cases r <;> rfl
@[simp] theorem ATy.ofBits_bits (r : ATy) : ATy.ofBits r.bits = some r := by cases r <;> rfl
@[simp] theorem Hint.ofBits_bits (r : Hint) : Hint.ofBits r.bits = r := by cases r <;> rfl
@[simp] theorem Cvt.ofBits_bits (r : Cvt) : Cvt.ofBits r.bits = some r := by cases r <;> rfl
@[simp] theorem GOp.ofBits_bits (r : GOp) : GOp.ofBits r.bits = some r := by cases r <;> rfl
@[simp] theorem ShMode.ofBits_bits (r : ShMode) : ShMode.ofBits r.bits = r := by cases r <;> rfl
@[simp] theorem TkTy.ofBits_bits (r : TkTy) : TkTy.ofBits r.bits = some r := by cases r <;> rfl
@[simp] theorem HTy.ofBits_bits (r : HTy) : HTy.ofBits r.bits = some r := by cases r <;> rfl
@[simp] theorem FKind.ofBits_bits (r : FKind) : FKind.ofBits r.bits = r := by cases r <;> rfl
@[simp] theorem PTgt.ofBits_bits (r : PTgt) : PTgt.ofBits r.bits = some r := by cases r <;> rfl
@[simp] theorem CSco.ofBits_bits (r : CSco) : CSco.ofBits r.bits = some r := by cases r <;> rfl
@[simp] theorem SCond.ofBits_bits (r : SCond) : SCond.ofBits r.bits = some r := by cases r <;> rfl
@[simp] theorem SlotOp.ofBits_bits (r : SlotOp) : SlotOp.ofBits r.bits = some r := by cases r <;> rfl
@[simp] theorem Ty.ofBits_bits (r : Ty) : Ty.ofBits r.bits = r := by cases r <;> rfl

theorem Reg.code_ofCode (c : BitVec 11) : (Reg.ofCode c).code = c := by
  apply BitVec.eq_of_toNat_eq
  have hc := c.isLt
  unfold Reg.ofCode
  split_ifs <;> simp only [Reg.code, BitVec.toNat_ofNat] <;> omega

theorem Reg.ofCode_ofNat {c : Nat} (hc : c < 2048) : Reg.ofCode (BitVec.ofNat 11 c) =
    if h : c < 1536 then .v ⟨c, h⟩ else if h : c - 1536 < 64 then .s ⟨c - 1536, h⟩ else if h : c - 1600 < 64 then .q ⟨c - 1600, h⟩
    else if h : c - 1664 < 64 then .k ⟨c - 1664, h⟩ else if h : c - 1728 < 20 then .sv ⟨c - 1728, h⟩
    else if h : 1760 ≤ c ∧ c - 1760 < 32 then .h ⟨c - 1760, h.2⟩ else .rsv (BitVec.ofNat 11 c) := by
  have hn : (BitVec.ofNat 11 c).toNat = c := by simp; omega
  unfold Reg.ofCode
  simp only [hn]

theorem Reg.ofCode_code {r : Reg} (h : r.wf = true) : Reg.ofCode r.code = r := by
  cases r with
  | v n | s n => rw [Reg.code, Reg.ofCode_ofNat (by omega)]; simp
  | q n | k n | sv n | h n => rw [Reg.code, Reg.ofCode_ofNat (by omega)]; grind
  | rsv c =>
    simp only [Reg.wf, Bool.or_eq_true, decide_eq_true_eq] at h
    rw [Reg.code, Reg.ofCode, dif_neg (by omega), dif_neg (by omega), dif_neg (by omega), dif_neg (by omega), dif_neg (by omega), dif_neg (by omega)]

end Sys2Proof

namespace Sys2Proof

/-! ### A word of the encoder is the word that was read -/

/-- What the fields of a word must be for it to be written back. -/
theorem mkF_eq_some_pack_iff (f : Fields) (h : Hdr) (opc : BitVec 10) (d a b : BitVec 11) (x : BitVec 12) :
    mkF h opc d a b x = some (pack f) ↔ h = f.hdr ∧ f.opc.toNat = opc.toNat ∧ d = f.d ∧ a = f.a ∧ b = f.b ∧ x = f.x := by
  obtain ⟨mk, gap, gw, pg, opc', d', a', b', x'⟩ := f
  obtain ⟨mk₁, gap₁, gw₁, pg₁⟩ := h
  constructor
  · intro e
    have e := congrArg unpack (Option.some.inj e)
    simp only [unpack_pack, Fields.mk.injEq] at e
    obtain ⟨rfl, rfl, rfl, rfl, rfl, rfl, rfl, rfl, rfl⟩ := e
    simp [Fields.hdr]
  · simp only [Fields.hdr, Hdr.mk.injEq]
    rintro ⟨⟨rfl, rfl, rfl, rfl⟩, ho, rfl, rfl, rfl, rfl⟩
    rw [BitVec.eq_of_toNat_eq ho.symm, mkF]

@[simp] theorem req_eq_some_iff {α : Type} (c : Bool) (r : Option α) (x : α) : req c r = some x ↔ c = true ∧ r = some x := by
  cases c <;> simp [req]

@[simp] theorem Fields.dr_code (f : Fields) : f.dr.code = f.d := Reg.code_ofCode f.d
@[simp] theorem Fields.ar_code (f : Fields) : f.ar.code = f.a := Reg.code_ofCode f.a
@[simp] theorem Fields.br_code (f : Fields) : f.br.code = f.b := Reg.code_ofCode f.b
@[simp] theorem Fields.xf_eq (f : Fields) (lo len : Nat) : f.xf lo len = f.x.extractLsb' lo len := rfl
@[simp] theorem Fields.bit1_xb (f : Fields) (i : Nat) : bit1 (f.xb i) = f.x.extractLsb' i 1 := bit1_getLsbD f.x i
@[simp] theorem Fields.xb_true (f : Fields) (i : Nat) : f.xb i = true ↔ f.x.extractLsb' i 1 = 1#1 := (extractLsb'_one_eq f.x i true).symm
@[simp] theorem Fields.xb_false (f : Fields) (i : Nat) : f.xb i = false ↔ f.x.extractLsb' i 1 = 0#1 := (extractLsb'_one_eq f.x i false).symm

/-- What a reading yields is written back as the word that was read. -/
def WritesBack (f : Fields) (r : Option Instr) : Prop := ∀ i, r = some i → encode i = some (pack f)

theorem writesBack_map {α : Type} {f : Fields} {r : Option α} {mk : α → Instr} (h : ∀ o, r = some o → encode (mk o) = some (pack f)) :
    WritesBack f (r.map mk) := by
  rintro i e
  obtain ⟨o, ho, rfl⟩ := Option.map_eq_some_iff.1 e
  exact h o ho

theorem writesBack_bind {α : Type} {f : Fields} {r : Option α} {g : α → Option Instr} (h : ∀ o, r = some o → WritesBack f (g o)) :
    WritesBack f (r.bind g) := by
  rintro i e
  obtain ⟨o, ho, e⟩ := Option.bind_eq_some_iff.1 e
  exact h o ho i e

theorem writesBack_req {f : Fields} {c : Bool} {r : Option Instr} : WritesBack f (req c r) ↔ (c = true → WritesBack f r) := by
  cases c <;> simp [req, WritesBack]

theorem writesBack_some {f : Fields} {i : Instr} : WritesBack f (some i) ↔ encode i = some (pack f) := by
  simp [WritesBack]

theorem writesBack_none {f : Fields} : WritesBack f none := by
  simp [WritesBack]

theorem encI3_of_i3 {f : Fields} {o : I3} {n : BitVec 10} (hn : f.opc.toNat = n.toNat) (e : f.i3 = some o) : encI3 f.hdr n o = some (pack f) := by
  unfold Fields.i3 at e
  split at e
  next hx =>
    obtain rfl := Option.some.inj e
    rw [Fields.xb_true] at hx
    simp [encI3, mkF_eq_some_pack_iff, Fields.imm22, append_eq_iff, extractLsb'_append_low, extractLsb'_append_high, hx, hn]
  next hx =>
    simp only [req_eq_some_iff, beq_iff_eq, Option.some.injEq, Bool.not_eq_true, Fields.xb_false, Fields.xf_eq] at e hx
    obtain ⟨h, rfl⟩ := e
    simp [encI3, mkF_eq_some_pack_iff, append_eq_iff, extractLsb'_extractLsb', hn, extractLsb'_eq_zero_join h hx]

theorem encI2_of_i2 {f : Fields} {o : I2} {n : BitVec 10} (hn : f.opc.toNat = n.toNat) (e : f.i2 = some o) : encI2 f.hdr n o = some (pack f) := by
  simp only [Fields.i2, req_eq_some_iff, Bool.and_eq_true, beq_iff_eq, Option.some.injEq, Fields.xf_eq] at e
  obtain ⟨⟨hb, hx⟩, rfl⟩ := e
  simp [encI2, mkF_eq_some_pack_iff, append_eq_iff, extractLsb'_extractLsb', hn, hb, hx]

theorem FMod.bits_of_fmod {f : Fields} {m : FMod} (e : f.fmod = some m) (hx : f.x.extractLsb' 11 1 = 0#1) : m.bits = f.x := by
  unfold Fields.fmod at e
  split at e
  next pk rm hpk hrm =>
    obtain rfl := Option.some.inj e
    simp [FMod.bits, append_eq_iff, extractLsb'_extractLsb', Pk.bits_of_ofBits hpk, Rm.bits_of_ofBits hrm, hx]
  next => cases e

theorem encF3_of_f3 {f : Fields} {o : F3} {n : BitVec 10} (hn : f.opc.toNat = n.toNat) (e : f.f3 = some o) : encF3 f.hdr n o = some (pack f) := by
  unfold Fields.f3 at e
  split at e
  next hx =>
    obtain rfl := Option.some.inj e
    rw [Fields.xb_true] at hx
    simp [encF3, mkF_eq_some_pack_iff, Fields.imm22, append_eq_iff, extractLsb'_append_low, extractLsb'_append_high, hx, hn]
  next hx =>
    rw [Bool.not_eq_true, Fields.xb_false] at hx
    obtain ⟨m, hm, rfl⟩ := Option.map_eq_some_iff.1 e
    simp [encF3, mkF_eq_some_pack_iff, hn, FMod.bits_of_fmod hm hx]

theorem encF2_of_f2 {f : Fields} {o : F2} {n : BitVec 10} (hn : f.opc.toNat = n.toNat) (e : f.f2 = some o) : encF2 f.hdr n o = some (pack f) := by
  simp only [Fields.f2, req_eq_some_iff, Bool.and_eq_true, beq_iff_eq, Bool.not_eq_true', Fields.xb_false] at e
  obtain ⟨⟨hb, hx⟩, e⟩ := e
  obtain ⟨m, hm, rfl⟩ := Option.map_eq_some_iff.1 e
  simp [encF2, mkF_eq_some_pack_iff, hn, hb, FMod.bits_of_fmod hm hx]

theorem encFCmp_of_fcmpF {f : Fields} {o : FCmpF} {n : BitVec 10} (hn : f.opc.toNat = n.toNat) (e : f.fcmpF = some o) :
    encFCmp f.hdr n o = some (pack f) := by
  unfold Fields.fcmpF at e
  split at e
  next c hc =>
    simp only [req_eq_some_iff, Bool.and_eq_true, beq_iff_eq, Option.some.injEq, Fields.xf_eq] at e
    obtain ⟨⟨⟨⟨hd, h10⟩, h4⟩, h0⟩, rfl⟩ := e
    simp [encFCmp, mkF_eq_some_pack_iff, append_eq_iff, extractLsb'_extractLsb', FCond.bits_of_ofBits hc, hn, hd, h10, h4, h0]
  next => cases e

theorem encR2_of_r2 {f : Fields} {o : R2} {n : BitVec 10} (hn : f.opc.toNat = n.toNat) (e : f.r2 = some o) : encR2 f.hdr n o = some (pack f) := by
  simp only [Fields.r2, req_eq_some_iff, Bool.and_eq_true, beq_iff_eq, Option.some.injEq] at e
  obtain ⟨⟨hb, hx⟩, rfl⟩ := e
  simp [encR2, mkF_eq_some_pack_iff, hn, hb, hx]

theorem encR3_of_r3 {f : Fields} {o : R3} {n : BitVec 10} (hn : f.opc.toNat = n.toNat) (e : f.r3 = some o) : encR3 f.hdr n o = some (pack f) := by
  simp only [Fields.r3, req_eq_some_iff, beq_iff_eq, Option.some.injEq] at e
  obtain ⟨hx, rfl⟩ := e
  simp [encR3, mkF_eq_some_pack_iff, hn, hx]

theorem mkF_of_r1a {f : Fields} {a : Reg} {n : BitVec 10} (hn : f.opc.toNat = n.toNat) (e : f.r1a = some a) :
    mkF f.hdr n 0 a.code 0 0 = some (pack f) := by
  simp only [Fields.r1a, req_eq_some_iff, Bool.and_eq_true, beq_iff_eq, Option.some.injEq] at e
  obtain ⟨⟨⟨hd, hb⟩, hx⟩, rfl⟩ := e
  simp [mkF_eq_some_pack_iff, hn, hd, hb, hx]

theorem mkF_of_none0 {f : Fields} {n : BitVec 10} (hn : f.opc.toNat = n.toNat) (e : f.none0 = true) : mkF f.hdr n 0 0 0 0 = some (pack f) := by
  simp only [Fields.none0, Bool.and_eq_true, beq_iff_eq] at e
  obtain ⟨⟨⟨hd, ha⟩, hb⟩, hx⟩ := e
  simp [mkF_eq_some_pack_iff, hn, hd, ha, hb, hx]

theorem encX4_of_x4 {f : Fields} {m : BitVec 4} {n : BitVec 10} (hn : f.opc.toNat = n.toNat) (e : f.x4 = some m) :
    encX4 f.hdr n m = some (pack f) := by
  simp only [Fields.x4, req_eq_some_iff, Bool.and_eq_true, beq_iff_eq, Option.some.injEq, Fields.xf_eq] at e
  obtain ⟨⟨⟨⟨hd, ha⟩, hb⟩, hx⟩, rfl⟩ := e
  simp [encX4, mkF_eq_some_pack_iff, append_eq_iff, hn, hd, ha, hb, hx]

theorem encBr_of_brF {f : Fields} {o : BrF} {n : BitVec 10} (hn : f.opc.toNat = n.toNat) (e : f.brF = some o) :
    encBr f.hdr n o = some (pack f) := by
  simp only [Fields.brF, req_eq_some_iff, beq_iff_eq, Option.some.injEq, Fields.xf_eq] at e
  obtain ⟨hx, rfl⟩ := e
  simp [encBr, mkF_eq_some_pack_iff, append_eq_iff, extractLsb'_append_low, extractLsb'_append_high, extractLsb'_extractLsb', hn, hx]

theorem encTk_of_tk {f : Fields} {c : BitVec 8} (hn : f.opc.toNat = 0x39A) (e : f.tk = some c) {sc : BitVec 2} (hsc : f.xf 0 2 = sc) :
    encTk f.hdr sc c = some (pack f) := by
  simp only [Fields.tk, req_eq_some_iff, Bool.and_eq_true, beq_iff_eq, Option.some.injEq, Fields.xf_eq] at e hsc
  obtain ⟨⟨⟨⟨hd, ha⟩, hb⟩, hx⟩, rfl⟩ := e
  simp [encTk, mkF_eq_some_pack_iff, append_eq_iff, extractLsb'_extractLsb', hn, hd, ha, hb, hx, hsc]

theorem mkF_of_immw {f : Fields} {o : ImmF} {n : BitVec 10} (hn : f.opc.toNat = n.toNat) (e : f.immw = some o) :
    mkF f.hdr n o.d.code 0 (o.imm.extractLsb' 11 11) (0#1 ++ o.imm.extractLsb' 0 11) = some (pack f) := by
  simp only [Fields.immw, req_eq_some_iff, Bool.and_eq_true, beq_iff_eq, Bool.not_eq_true', Option.some.injEq, Fields.xb_false] at e
  obtain ⟨⟨ha, hx⟩, rfl⟩ := e
  simp [mkF_eq_some_pack_iff, Fields.imm22, append_eq_iff, extractLsb'_append_low, extractLsb'_append_high, hn, ha, hx]

theorem encMdr_of_mdr {f : Fields} {o : MdrainF} {n : BitVec 10} (hn : f.opc.toNat = n.toNat) (e : f.mdr = some o) :
    encMdr f.hdr n o.d o.a o.b o.zero o.tok o.tag = some (pack f) := by
  simp only [Fields.mdr, req_eq_some_iff, beq_iff_eq, Option.some.injEq, Fields.xf_eq] at e
  obtain ⟨hx, rfl⟩ := e
  simp [encMdr, mkF_eq_some_pack_iff, append_eq_iff, extractLsb'_extractLsb', hn, hx]

theorem encQ_of_qfmt {f : Fields} {o : QFmtF} {n : BitVec 10} (hn : f.opc.toNat = n.toNat) (e : f.qfmt = some o) :
    encQ f.hdr n o = some (pack f) := by
  unfold Fields.qfmt at e
  split at e
  next rm hrm =>
    simp only [req_eq_some_iff, Bool.and_eq_true, beq_iff_eq, Bool.not_eq_true', Option.some.injEq, Fields.xf_eq] at e
    obtain ⟨⟨hb, hx⟩, rfl⟩ := e
    have hb : f.b.extractLsb' 0 1 = 0#1 := (extractLsb'_one_eq f.b 0 false).2 hb
    simp [encQ, mkF_eq_some_pack_iff, append_eq_iff, extractLsb'_extractLsb', bit1_getLsbD, Rm.bits_of_ofBits hrm, hn, hb, hx, -BitVec.getLsbD_eq_getElem]
  next => cases e

theorem encMem_of_mem {f : Fields} {o : MemF} {n : BitVec 10} (hn : f.opc.toNat = n.toNat) (e : f.mem = some o) :
    encMem f.hdr n o = some (pack f) := by
  unfold Fields.mem at e
  split at e
  next w sc hw hs =>
    simp only [req_eq_some_iff, beq_iff_eq, Option.some.injEq, Fields.xf_eq] at e
    obtain ⟨hx, rfl⟩ := e
    simp [encMem, mkF_eq_some_pack_iff, append_eq_iff, extractLsb'_extractLsb', Wid.bits_of_ofBits hw, Sco.bits_of_ofBits hs, hn, hx]
  next => cases e

theorem encAt_of_atF {f : Fields} {o : AtF} {n : BitVec 10} (hn : f.opc.toNat = n.toNat) (e : f.atF = some o) :
    encAt f.hdr n o.d.code o.a o.b o.aop o.ord o.sco o.ty = some (pack f) := by
  unfold Fields.atF at e
  split at e
  next op sc ty hop hsc hty =>
    simp only [req_eq_some_iff, Bool.not_eq_true', Option.some.injEq, Fields.xb_false] at e
    obtain ⟨hx, rfl⟩ := e
    simp [encAt, mkF_eq_some_pack_iff, append_eq_iff, extractLsb'_extractLsb', Aop.bits_of_ofBits hop, Sco.bits_of_ofBits hsc,
      ATy.bits_of_ofBits hty, hn, hx]
  next => cases e

theorem Fields.code_of_atF {f : Fields} {o : AtF} (e : f.atF = some o) : o.d.code = f.d := by
  unfold Fields.atF at e
  split at e
  next => obtain ⟨-, e⟩ := (req_eq_some_iff _ _ _).1 e; obtain rfl := Option.some.inj e; exact f.dr_code
  next => cases e

theorem encCmaint_of_cmaint {f : Fields} {o : CmaintF} (hn : f.opc.toNat = 0x20A) (e : f.cmaint = some o) {op : BitVec 2} (hop : f.xf 0 2 = op) :
    encCmaint f.hdr op o = some (pack f) := by
  unfold Fields.cmaint at e
  split at e
  next sc hsc =>
    simp only [req_eq_some_iff, Bool.and_eq_true, beq_iff_eq, Option.some.injEq, Fields.xf_eq] at e hop
    obtain ⟨⟨⟨hd, h7⟩, h2⟩, rfl⟩ := e
    simp [encCmaint, mkF_eq_some_pack_iff, append_eq_iff, extractLsb'_extractLsb', CSco.bits_of_ofBits hsc, hn, hd, h7, h2, hop]
  next => cases e

theorem encCvt_of_cvtF {f : Fields} {o : CvtF} {n : BitVec 10} (hn : f.opc.toNat = n.toNat) (e : f.cvtF = some o) :
    encCvt f.hdr n o = some (pack f) := by
  unfold Fields.cvtF at e
  split at e
  next dst src rm hd hs hr =>
    simp only [req_eq_some_iff, beq_iff_eq, Option.some.injEq] at e
    obtain ⟨hb, rfl⟩ := e
    simp [encCvt, mkF_eq_some_pack_iff, append_eq_iff, extractLsb'_extractLsb', Cvt.bits_of_ofBits hd, Cvt.bits_of_ofBits hs,
      Rm.bits_of_ofBits hr, hn, hb]
  next => cases e

theorem encGred_of_gredF {f : Fields} {o : GredF} {n : BitVec 10} (hn : f.opc.toNat = n.toNat) (e : f.gredF = some o) :
    encGred f.hdr n o = some (pack f) := by
  unfold Fields.gredF at e
  split at e
  next op hop =>
    simp only [req_eq_some_iff, Bool.and_eq_true, beq_iff_eq, Option.some.injEq, Fields.xf_eq] at e
    obtain ⟨⟨hb, hx⟩, rfl⟩ := e
    simp [encGred, mkF_eq_some_pack_iff, append_eq_iff, GOp.bits_of_ofBits hop, hn, hb, hx]
  next => cases e

end Sys2Proof

namespace Sys2Proof

/-! ### Every opcode's reading is written back, class by class (R39) -/

theorem eq_three_of_toNat_ne {b : BitVec 2} (h0 : b.toNat ≠ 0) (h1 : b.toNat ≠ 1) (h2 : b.toNat ≠ 2) : b = 3#2 := by
  revert b
  decide

theorem decClass0_writesBack (f : Fields) : WritesBack f (decClass0 f f.hdr) := by
  unfold decClass0
  split
  case h_1 hn | h_2 hn | h_3 hn | h_4 hn | h_5 hn | h_6 hn | h_7 hn | h_9 hn | h_10 hn | h_11 hn | h_12 hn | h_13 hn | h_14 hn | h_15 hn | h_16 hn | h_29 hn | h_30 hn | h_31 hn => exact writesBack_map fun _ ho => encI3_of_i3 hn ho
  case h_8 hn | h_17 hn | h_18 hn | h_19 hn | h_25 hn => exact writesBack_map fun _ ho => encI2_of_i2 hn ho
  case h_26 hn | h_27 hn => exact writesBack_map fun _ ho => mkF_of_immw hn ho
  case h_20 hn | h_21 hn => simp +contextual [writesBack_req, writesBack_some, encode, mkF_eq_some_pack_iff, append_eq_iff, extractLsb'_extractLsb', hn]
  case h_22 hn =>
    split
    next c hc => simp +contextual [writesBack_req, writesBack_some, encode, mkF_eq_some_pack_iff, append_eq_iff, extractLsb'_extractLsb', hn, ICond.bits_of_ofBits hc, Fields.pd, Fields.pdOk]
    next => exact writesBack_none
  case h_23 hn => simp +contextual [writesBack_req, writesBack_some, encode, mkF_eq_some_pack_iff, append_eq_iff, extractLsb'_extractLsb', hn]
  case h_24 hn => simp +contextual [writesBack_req, writesBack_some, encode, mkF_eq_some_pack_iff, append_eq_iff, extractLsb'_extractLsb', hn, Fields.pd, Fields.pdOk]
  case h_28 hn =>
    split
    next hx =>
      rw [Fields.xb_true] at hx
      simp [writesBack_some, encode, mkF_eq_some_pack_iff, Fields.imm22, append_eq_iff, extractLsb'_append_low, extractLsb'_append_high, hn, hx]
    next hx =>
      rw [Bool.not_eq_true, Fields.xb_false] at hx
      have hz : f.x.extractLsb' 7 4 = 0#4 → f.x.extractLsb' 7 5 = 0#5 := fun h => extractLsb'_eq_zero_join h hx
      simp +contextual [writesBack_req, writesBack_some, encode, mkF_eq_some_pack_iff, append_eq_iff, extractLsb'_extractLsb', hn, hz]
  case h_32 => exact writesBack_none

theorem decClass1_writesBack (f : Fields) : WritesBack f (decClass1 f f.hdr) := by
  unfold decClass1
  split
  case h_1 hn | h_2 hn | h_3 hn | h_4 hn | h_5 hn | h_6 hn | h_12 hn => exact writesBack_map fun _ ho => encF3_of_f3 hn ho
  case h_7 hn => exact writesBack_map fun _ ho => encFCmp_of_fcmpF hn ho
  case h_9 hn | h_10 hn | h_11 hn | h_13 hn | h_14 hn | h_15 hn | h_16 hn | h_17 hn => exact writesBack_map fun _ ho => encF2_of_f2 hn ho
  case h_18 hn => exact writesBack_map fun _ ho => encR2_of_r2 hn ho
  case h_8 hn =>
    split
    next rm hr =>
      simp only [writesBack_req, writesBack_some, Bool.and_eq_true, Bool.or_eq_true, beq_iff_eq]
      rintro ⟨hx, h1 | h2⟩
      · simp_all [encode, mkF_eq_some_pack_iff, append_eq_iff, extractLsb'_extractLsb', Rm.bits_of_ofBits hr, -BitVec.reduceAppend]
      · simp_all [encode, mkF_eq_some_pack_iff, append_eq_iff, extractLsb'_extractLsb', Rm.bits_of_ofBits hr, -BitVec.reduceAppend]
    next => exact writesBack_none
  case h_19 => exact writesBack_none

theorem decClass2_writesBack (f : Fields) : WritesBack f (decClass2 f f.hdr) := by
  unfold decClass2
  split
  case h_1 hn | h_2 hn | h_3 hn | h_4 hn | h_5 hn | h_6 hn | h_8 hn => exact writesBack_map fun _ ho => encF3_of_f3 hn ho
  case h_7 hn => exact writesBack_map fun _ ho => encFCmp_of_fcmpF hn ho
  case h_9 hn => exact writesBack_map fun _ ho => encF2_of_f2 hn ho
  case h_10 hn | h_12 hn => exact writesBack_map fun _ ho => encCvt_of_cvtF hn ho
  case h_11 hn | h_13 hn => exact writesBack_map fun _ ho => encQ_of_qfmt hn ho
  case h_14 => exact writesBack_none

theorem decClass3_writesBack (f : Fields) : WritesBack f (decClass3 f f.hdr) := by
  unfold decClass3
  split
  case h_3 hn | h_4 hn => exact writesBack_map fun _ ho => encGred_of_gredF hn ho
  case h_7 hn => exact writesBack_map fun _ ho => encR3_of_r3 hn ho
  case h_8 hn => exact writesBack_map fun _ ho => encR2_of_r2 hn ho
  case h_1 hn =>
    split
    next hl =>
      cases hx : f.xb 2
      · rw [Fields.xb_false] at hx
        simp +contextual [writesBack_req, writesBack_some, encode, mkF_eq_some_pack_iff, append_eq_iff, extractLsb'_extractLsb', hn, hx, -BitVec.extractLsb'_toNat]
      · have hx' := (Fields.xb_true f 2).1 hx
        simp only [writesBack_req, writesBack_some, if_true, Bool.not_true, Bool.false_or, Bool.and_eq_true, beq_iff_eq]
        simp +contextual [encode, mkF_eq_some_pack_iff, append_eq_iff, extractLsb'_extractLsb', hn, hx', -BitVec.extractLsb'_toNat]
    next => exact writesBack_none
  case h_2 hn =>
    rw [writesBack_req, Bool.and_eq_true, beq_iff_eq, beq_iff_eq]
    rintro ⟨hb, hx⟩
    have hz : f.x.extractLsb' 6 1 = 0#1 → f.x.extractLsb' 6 6 = 0#6 := fun h => extractLsb'_eq_zero_join h hx
    split
    next h0 =>
      have hm : f.x.extractLsb' 0 2 = 0#2 := BitVec.eq_of_toNat_eq h0
      simp +contextual [writesBack_req, writesBack_some, encode, mkF_eq_some_pack_iff, append_eq_iff, extractLsb'_extractLsb', hn, encVote, Fields.pd, Fields.pdOk, hb, hm, hz]
    next h1 =>
      have hm : f.x.extractLsb' 0 2 = 1#2 := BitVec.eq_of_toNat_eq h1
      simp +contextual [writesBack_req, writesBack_some, encode, mkF_eq_some_pack_iff, append_eq_iff, extractLsb'_extractLsb', hn, encVote, Fields.pd, Fields.pdOk, hb, hm, hz]
    next h2 =>
      have hm : f.x.extractLsb' 0 2 = 2#2 := BitVec.eq_of_toNat_eq h2
      simp +contextual [writesBack_req, writesBack_some, encode, mkF_eq_some_pack_iff, append_eq_iff, extractLsb'_extractLsb', hn, hb, hm, hz]
    next h0 h1 h2 =>
      have hm : f.x.extractLsb' 0 2 = 3#2 := eq_three_of_toNat_ne h0 h1 h2
      rw [Fields.xf_eq] at hx
      simp +contextual [writesBack_req, writesBack_some, encode, mkF_eq_some_pack_iff, append_eq_iff, extractLsb'_extractLsb', hn, Fields.pd, Fields.pdOk, hb, hm, hx]
  case h_5 hn =>
    split
    next ty ht => simp +contextual [writesBack_req, writesBack_some, encode, mkF_eq_some_pack_iff, append_eq_iff, extractLsb'_extractLsb', hn, TkTy.bits_of_ofBits ht]
    next => exact writesBack_none
  case h_6 hn | h_9 hn => simp +contextual [writesBack_req, writesBack_some, encode, mkF_eq_some_pack_iff, append_eq_iff, hn]
  case h_10 => exact writesBack_none

theorem decClass4_writesBack (f : Fields) : WritesBack f (decClass4 f f.hdr) := by
  unfold decClass4
  split
  case h_1 hn | h_2 hn | h_4 hn | h_12 hn | h_13 hn | h_15 hn | h_16 hn => exact writesBack_map fun _ ho => encMem_of_mem hn ho
  case h_5 hn | h_8 hn =>
    exact writesBack_map fun _ ho => encAt_of_atF hn ho
  case h_3 hn =>
    split
    next w sc hw hs => simp +contextual [writesBack_some, encode, mkF_eq_some_pack_iff, append_eq_iff, extractLsb'_extractLsb', hn, Wid.bits_of_ofBits hw, Sco.bits_of_ofBits hs]
    next => exact writesBack_none
  case h_6 hn =>
    refine writesBack_bind fun o ho => writesBack_req.2 fun hd => writesBack_some.2 ?_
    have e := encAt_of_atF (n := 0x205) hn ho
    rwa [of_decide_eq_true hd] at e
  case h_7 hn =>
    refine writesBack_bind fun o ho => writesBack_req.2 fun hd => writesBack_some.2 ?_
    have e := encAt_of_atF (n := 0x206) hn ho
    rwa [Fields.code_of_atF ho, beq_iff_eq.1 hd] at e
  case h_9 hn =>
    split
    next sc hs => simp +contextual [writesBack_req, writesBack_some, encode, mkF_eq_some_pack_iff, append_eq_iff, extractLsb'_extractLsb', hn, Sco.bits_of_ofBits hs]
    next => exact writesBack_none
  case h_10 hn =>
    split
    next t ht => simp +contextual [writesBack_req, writesBack_some, encode, mkF_eq_some_pack_iff, append_eq_iff, extractLsb'_extractLsb', hn, PTgt.bits_of_ofBits ht]
    next => exact writesBack_none
  case h_11 hn =>
    refine writesBack_bind fun o ho => ?_
    split
    next h => exact writesBack_some.2 (encCmaint_of_cmaint hn ho (BitVec.eq_of_toNat_eq h))
    next h => exact writesBack_some.2 (encCmaint_of_cmaint hn ho (BitVec.eq_of_toNat_eq h))
    next h => exact writesBack_some.2 (encCmaint_of_cmaint hn ho (BitVec.eq_of_toNat_eq h))
    next h0 h1 h2 => exact writesBack_some.2 (encCmaint_of_cmaint hn ho (eq_three_of_toNat_ne h0 h1 h2))
  case h_14 hn | h_19 hn => simp +contextual [writesBack_req, writesBack_some, encode, mkF_eq_some_pack_iff, append_eq_iff, extractLsb'_extractLsb', hn]
  case h_17 hn =>
    split
    next op ty ho ht => simp +contextual [writesBack_req, writesBack_some, encode, mkF_eq_some_pack_iff, append_eq_iff, extractLsb'_extractLsb', hn, SAop.bits_of_ofBits ho, ATy.bits_of_ofBits ht]
    next => exact writesBack_none
  case h_18 hn =>
    rw [writesBack_req, Bool.and_eq_true, beq_iff_eq, beq_iff_eq, Fields.xf_eq]
    rintro ⟨hb, hx⟩
    split
    next h0 =>
      have hm : f.x.extractLsb' 0 2 = 0#2 := BitVec.eq_of_toNat_eq h0
      simp +contextual [writesBack_req, writesBack_some, encode, mkF_eq_some_pack_iff, append_eq_iff, extractLsb'_extractLsb', hn, hb, hm, hx, -BitVec.reduceAppend]
    next h1 =>
      have hm : f.x.extractLsb' 0 2 = 1#2 := BitVec.eq_of_toNat_eq h1
      simp +contextual [writesBack_req, writesBack_some, encode, mkF_eq_some_pack_iff, append_eq_iff, extractLsb'_extractLsb', hn, hb, hm, hx]
    next h2 =>
      have hm : f.x.extractLsb' 0 2 = 2#2 := BitVec.eq_of_toNat_eq h2
      simp +contextual [writesBack_req, writesBack_some, encode, mkF_eq_some_pack_iff, append_eq_iff, extractLsb'_extractLsb', hn, hb, hm, hx]
    next => exact writesBack_none
  case h_20 => exact writesBack_none

theorem decClass5_writesBack (f : Fields) : WritesBack f (decClass5 f f.hdr) := by
  unfold decClass5
  split
  case h_1 hn => exact writesBack_map fun _ ho => mkF_of_r1a hn ho
  case h_3 hn | h_19 hn => exact writesBack_map fun _ ho => encR3_of_r3 hn ho
  case h_4 hn | h_5 hn | h_17 hn | h_18 hn => exact writesBack_map fun _ ho => encR2_of_r2 hn ho
  case h_14 hn => exact writesBack_map fun _ ho => encX4_of_x4 hn ho
  case h_2 hn => exact writesBack_req.2 fun h => writesBack_some.2 (mkF_of_none0 hn h)
  case h_6 hn =>
    split
    next ty ht => simp +contextual [writesBack_req, writesBack_some, encode, mkF_eq_some_pack_iff, append_eq_iff, hn, HTy.bits_of_ofBits ht]
    next => exact writesBack_none
  case h_7 hn | h_8 hn | h_15 hn => simp +contextual [writesBack_req, writesBack_some, encode, mkF_eq_some_pack_iff, append_eq_iff, extractLsb'_extractLsb', hn]
  case h_9 hn =>
    rw [writesBack_req, Bool.and_eq_true, beq_iff_eq, beq_iff_eq, Fields.xf_eq]
    rintro ⟨hb, hx⟩
    split
    next h0 =>
      have hm : f.x.extractLsb' 0 2 = 0#2 := BitVec.eq_of_toNat_eq h0
      simp +contextual [writesBack_some, encode, mkF_eq_some_pack_iff, append_eq_iff, hn, encRing, hb, hm, hx, -BitVec.reduceAppend]
    next h1 =>
      have hm : f.x.extractLsb' 0 2 = 1#2 := BitVec.eq_of_toNat_eq h1
      simp +contextual [writesBack_req, writesBack_some, encode, mkF_eq_some_pack_iff, append_eq_iff, hn, encRing, hb, hm, hx, -BitVec.reduceAppend]
    next h2 =>
      have hm : f.x.extractLsb' 0 2 = 2#2 := BitVec.eq_of_toNat_eq h2
      simp +contextual [writesBack_req, writesBack_some, encode, mkF_eq_some_pack_iff, append_eq_iff, hn, encRing, hb, hm, hx, -BitVec.reduceAppend]
    next => exact writesBack_none
  case h_10 hn | h_11 hn | h_12 hn | h_13 hn => simp +contextual [writesBack_req, writesBack_some, encode, mkF_eq_some_pack_iff, append_eq_iff, hn, encRing, Fields.pd, Fields.pdOk]
  case h_16 hn =>
    rw [writesBack_req, Bool.and_eq_true, Bool.not_eq_true', beq_iff_eq]
    rintro ⟨hb, hx⟩
    have hb : f.b.extractLsb' 0 1 = 0#1 := (extractLsb'_one_eq f.b 0 false).2 hb
    split
    next hg =>
      rw [beq_iff_eq] at hg
      simp +contextual [writesBack_some, encode, mkF_eq_some_pack_iff, append_eq_iff, extractLsb'_extractLsb', hn, hb, hx, hg]
    next =>
      rw [writesBack_req, writesBack_some]
      intro hg
      have hg : f.b.extractLsb' 5 1 = 1#1 := (extractLsb'_one_eq f.b 5 true).2 hg
      simp +contextual [encode, mkF_eq_some_pack_iff, append_eq_iff, extractLsb'_extractLsb', hn, hb, hx, hg]
  case h_20 => exact writesBack_none

theorem decClass6_writesBack (f : Fields) : WritesBack f (decClass6 f f.hdr) := by
  unfold decClass6
  split
  case h_1 hn | h_3 hn | h_7 hn | h_8 hn | h_9 hn => simp +contextual [writesBack_req, writesBack_some, encode, mkF_eq_some_pack_iff, append_eq_iff, extractLsb'_extractLsb', hn, encRing]
  case h_2 hn =>
    rw [writesBack_req, Bool.and_eq_true, Bool.and_eq_true, beq_iff_eq, beq_iff_eq, beq_iff_eq, Fields.xf_eq]
    rintro ⟨⟨ha, hb⟩, hx⟩
    have hj : ∀ m : BitVec 2, f.x.extractLsb' 0 2 = m → 0#10 ++ m = f.x := fun m hm => (append_eq_iff f.x 0#10 m).2 ⟨hx.symm, hm.symm⟩
    split
    next h0 =>
      have hm := hj 0#2 (BitVec.eq_of_toNat_eq h0)
      simp [writesBack_some, encode, mkF_eq_some_pack_iff, hn, ha, hb, ← hm]
    next h1 =>
      have hm := hj 1#2 (BitVec.eq_of_toNat_eq h1)
      simp [writesBack_some, encode, mkF_eq_some_pack_iff, hn, ha, hb, ← hm]
    next h2 =>
      have hm := hj 2#2 (BitVec.eq_of_toNat_eq h2)
      simp +contextual [writesBack_req, writesBack_some, encode, mkF_eq_some_pack_iff, hn, ha, hb, ← hm]
    next => exact writesBack_none
  case h_4 hn | h_5 hn => exact writesBack_map fun _ ho => encMdr_of_mdr hn ho
  case h_6 hn => exact writesBack_map fun _ ho => encMdr_of_mdr hn ho
  case h_10 => exact writesBack_none

theorem decClass7_writesBack (f : Fields) : WritesBack f (decClass7 f f.hdr) := by
  unfold decClass7
  split
  case h_1 hn | h_7 hn => exact writesBack_req.2 fun h => writesBack_some.2 (mkF_of_none0 hn h)
  case h_2 hn | h_4 hn => exact writesBack_map fun _ ho => encBr_of_brF hn ho
  case h_8 hn | h_9 hn | h_10 hn | h_11 hn | h_16 hn => exact writesBack_map fun _ ho => encX4_of_x4 hn ho
  case h_24 hn => exact writesBack_map fun _ ho => encR2_of_r2 hn ho
  case h_25 hn => exact writesBack_map fun _ ho => mkF_of_r1a hn ho
  case h_3 hn | h_5 hn | h_6 hn | h_12 hn | h_14 hn | h_15 hn | h_19 hn | h_22 hn | h_23 hn | h_26 hn => simp +contextual [writesBack_req, writesBack_some, encode, mkF_eq_some_pack_iff, append_eq_iff, extractLsb'_extractLsb', hn]
  case h_13 hn =>
    rw [writesBack_req, Bool.and_eq_true, beq_iff_eq, beq_iff_eq, Fields.xf_eq]
    rintro ⟨hd, hx⟩
    unfold Fields.cnt
    split
    next h4 =>
      rw [Fields.xb_true] at h4
      refine writesBack_map fun o ho => ?_
      obtain ⟨ha, ho⟩ := (req_eq_some_iff _ _ _).1 ho
      obtain rfl := Option.some.inj ho
      simp [encode, mkF_eq_some_pack_iff, append_eq_iff, extractLsb'_extractLsb', hn, hd, hx, h4, beq_iff_eq.1 ha, -BitVec.reduceAppend]
    next h4 =>
      rw [Bool.not_eq_true, Fields.xb_false] at h4
      refine writesBack_map fun o ho => ?_
      obtain ⟨hb, ho⟩ := (req_eq_some_iff _ _ _).1 ho
      obtain rfl := Option.some.inj ho
      simp [encode, mkF_eq_some_pack_iff, append_eq_iff, extractLsb'_extractLsb', hn, hd, hx, h4, beq_iff_eq.1 hb, -BitVec.reduceAppend]
  case h_17 hn =>
    rw [writesBack_req, Bool.and_eq_true, Bool.and_eq_true, beq_iff_eq, beq_iff_eq, beq_iff_eq, Fields.xf_eq, Fields.xf_eq]
    rintro ⟨⟨hd, h0⟩, h5⟩
    unfold Fields.cnt
    split
    next h4 =>
      rw [Fields.xb_true] at h4
      refine writesBack_map fun o ho => ?_
      obtain ⟨ha, ho⟩ := (req_eq_some_iff _ _ _).1 ho
      obtain rfl := Option.some.inj ho
      have hx : 0#7 ++ 1#1 ++ 0#4 = f.x := by simp [append_eq_iff, extractLsb'_extractLsb', h0, h4, h5, -BitVec.reduceAppend]
      simp [encode, mkF_eq_some_pack_iff, ← hx, hn, hd, beq_iff_eq.1 ha]
    next h4 =>
      rw [Bool.not_eq_true, Fields.xb_false] at h4
      refine writesBack_map fun o ho => ?_
      obtain ⟨hb, ho⟩ := (req_eq_some_iff _ _ _).1 ho
      obtain rfl := Option.some.inj ho
      have hx : 0#7 ++ 0#1 ++ 0#4 = f.x := by simp [append_eq_iff, extractLsb'_extractLsb', h0, h4, h5, -BitVec.reduceAppend]
      simp [encode, mkF_eq_some_pack_iff, ← hx, hn, hd, beq_iff_eq.1 hb]
  case h_18 hn =>
    split
    next c sc hc hs =>
      cases h8 : f.xb 8
      · have h8' := (Fields.xb_false f 8).1 h8
        simp +contextual [writesBack_req, writesBack_some, encode, mkF_eq_some_pack_iff, append_eq_iff, extractLsb'_extractLsb', hn, SCond.bits_of_ofBits hc, Sco.bits_of_ofBits hs, h8']
      · have h8' := (Fields.xb_true f 8).1 h8
        simp +contextual [writesBack_req, writesBack_some, encode, mkF_eq_some_pack_iff, append_eq_iff, extractLsb'_extractLsb', hn, SCond.bits_of_ofBits hc, Sco.bits_of_ofBits hs, h8']
    next => exact writesBack_none
  case h_20 hn =>
    rw [writesBack_req, Bool.and_eq_true, Bool.and_eq_true, beq_iff_eq, beq_iff_eq, beq_iff_eq, Fields.xf_eq]
    rintro ⟨⟨hd, hb⟩, hx⟩
    split
    next h0 =>
      have hm : f.x.extractLsb' 0 2 = 0#2 := BitVec.eq_of_toNat_eq h0
      simp +contextual [writesBack_req, writesBack_some, encode, mkF_eq_some_pack_iff, append_eq_iff, extractLsb'_extractLsb', hn, hd, hb, hm, hx]
    next h1 =>
      have hm : f.x.extractLsb' 0 2 = 1#2 := BitVec.eq_of_toNat_eq h1
      simp +contextual [writesBack_req, writesBack_some, encode, mkF_eq_some_pack_iff, append_eq_iff, extractLsb'_extractLsb', hn, hd, hb, hm, hx]
    next h2 =>
      have hm : f.x.extractLsb' 0 2 = 2#2 := BitVec.eq_of_toNat_eq h2
      simp +contextual [writesBack_some, encode, mkF_eq_some_pack_iff, append_eq_iff, extractLsb'_extractLsb', hn, hd, hb, hm, hx]
    next => exact writesBack_none
  case h_21 hn =>
    refine writesBack_bind fun c hc => ?_
    split
    next h => exact writesBack_some.2 (encTk_of_tk hn hc (BitVec.eq_of_toNat_eq h))
    next h => exact writesBack_some.2 (encTk_of_tk hn hc (BitVec.eq_of_toNat_eq h))
    next h => exact writesBack_some.2 (encTk_of_tk hn hc (BitVec.eq_of_toNat_eq h))
    next h0 h1 h2 => exact writesBack_some.2 (encTk_of_tk hn hc (eq_three_of_toNat_ne h0 h1 h2))
  case h_27 hn =>
    rw [writesBack_req, Bool.and_eq_true, beq_iff_eq, beq_iff_eq, Fields.xf_eq]
    rintro ⟨hb, hx⟩
    split
    next h0 =>
      have hm : f.x.extractLsb' 5 2 = 0#2 := BitVec.eq_of_toNat_eq h0
      simp +contextual [writesBack_some, encode, mkF_eq_some_pack_iff, append_eq_iff, extractLsb'_extractLsb', hn, hb, hm, hx, -BitVec.reduceAppend]
    next h1 =>
      have hm : f.x.extractLsb' 5 2 = 1#2 := BitVec.eq_of_toNat_eq h1
      simp +contextual [writesBack_req, writesBack_some, encode, mkF_eq_some_pack_iff, append_eq_iff, extractLsb'_extractLsb', hn, hb, hm, hx, -BitVec.reduceAppend]
    next h2 =>
      have hm : f.x.extractLsb' 5 2 = 2#2 := BitVec.eq_of_toNat_eq h2
      simp +contextual [writesBack_req, writesBack_some, encode, mkF_eq_some_pack_iff, append_eq_iff, extractLsb'_extractLsb', hn, hb, hm, hx, -BitVec.reduceAppend]
    next => exact writesBack_none
  case h_28 => exact writesBack_none

end Sys2Proof

namespace Sys2Proof
open Machine

/-! ### Decoding a full-form word -/

/-- The instruction that the opcode map gives for a full-form word, before the limits of WellFormed (R39). -/
def Fields.instr? (f : Fields) : Option Instr :=
  match (f.opc.extractLsb' 7 3).toNat with
  | 0 => decClass0 f f.hdr
  | 1 => decClass1 f f.hdr
  | 2 => decClass2 f f.hdr
  | 3 => decClass3 f f.hdr
  | 4 => decClass4 f f.hdr
  | 5 => decClass5 f f.hdr
  | 6 => decClass6 f f.hdr
  | _ => decClass7 f f.hdr

theorem decodeFields_eq_some_iff (f : Fields) (i : Instr) : decodeFields f = some i ↔ f.instr? = some i ∧ i.wf = true := by
  change (match f.instr? with | some j => if j.wf then some j else none | none => none) = some i ↔ _
  cases f.instr? with
  | none => simp
  | some j =>
    simp only [Option.ite_none_right_eq_some, Option.some.injEq]
    constructor
    · rintro ⟨h, rfl⟩
      exact ⟨rfl, h⟩
    · rintro ⟨rfl, h⟩
      exact ⟨h, rfl⟩

theorem instr?_writesBack (f : Fields) : WritesBack f f.instr? := by
  unfold Fields.instr?
  split
  · exact decClass0_writesBack f
  · exact decClass1_writesBack f
  · exact decClass2_writesBack f
  · exact decClass3_writesBack f
  · exact decClass4_writesBack f
  · exact decClass5_writesBack f
  · exact decClass6_writesBack f
  · exact decClass7_writesBack f

theorem decode_of_instr? {f : Fields} {i : Instr} (h : f.instr? = some i) (hw : i.wf = true) : decode (pack f) = i := by
  unfold decode
  rw [pack_form, unpack_pack, if_neg Bool.false_ne_true, (decodeFields_eq_some_iff f i).2 ⟨h, hw⟩]

/-! ### The pair form (R35) -/

theorem Slot.bits_of_decodeSlot {s : BitVec 30} {r : Slot} (e : decodeSlot s = some r) : r.bits = s := by
  unfold decodeSlot at e
  split at e
  next op hop =>
    simp only [req_eq_some_iff, Bool.and_eq_true, Bool.not_eq_true', Option.some.injEq] at e
    obtain ⟨⟨h0, -⟩, rfl⟩ := e
    have h0 : s.extractLsb' 0 1 = 0#1 := (extractLsb'_one_eq s 0 false).2 h0
    simp [Slot.bits, append_eq_iff, extractLsb'_extractLsb', SlotOp.bits_of_ofBits hop, Reg.code_ofCode, h0]
  next => cases e

theorem decodeSlot_bits {r : Slot} (hw : r.wf = true) : decodeSlot r.bits = some r := by
  have hr := hw
  simp only [Slot.wf, Bool.and_eq_true] at hr
  obtain ⟨⟨hd, hs⟩, -⟩ := hr
  simp [decodeSlot, Slot.bits, extractLsb'_append_low, extractLsb'_append_high, getLsbD_append_eq_ite, Reg.ofCode_code hd, Reg.ofCode_code hs, hw,
    -BitVec.getLsbD_eq_getElem]

theorem encode_of_decodePair {w : DWord} {i : Instr} (hf : w.getLsbD 63 = true) (e : decodePair w = some i) : encode i = some w := by
  unfold decodePair at e
  split at e
  next a b ha hb =>
    obtain rfl := Option.some.inj e
    have hf : w.extractLsb' 63 1 = 1#1 := (extractLsb'_one_eq w 63 true).2 hf
    simp [encode, Slot.bits_of_decodeSlot ha, Slot.bits_of_decodeSlot hb, bit1_getLsbD, append_eq_iff, extractLsb'_extractLsb', hf,
      -BitVec.getLsbD_eq_getElem]
  next => cases e

theorem decode_of_pairWord {o : PairF} {w : DWord} (hw : o.a.wf = true ∧ o.b.wf = true) (e : encode (.pairWord o) = some w) :
    decode w = .pairWord o := by
  obtain rfl := Option.some.inj e
  obtain ⟨mk, gw, ps, a, b⟩ := o
  simp [decode, decodePair, bit1, extractLsb'_append_low, extractLsb'_append_high, getLsbD_append_eq_ite, decodeSlot_bits hw.1, decodeSlot_bits hw.2,
    -BitVec.getLsbD_eq_getElem]

/-- A word is the encoding of what it decodes to. -/
theorem encode_decode (w : DWord) : encode (decode w) = some w := by
  unfold decode
  split
  next i hi =>
    split at hi
    next hf => exact encode_of_decodePair hf hi
    next hf =>
      obtain ⟨h, -⟩ := (decodeFields_eq_some_iff _ _).1 hi
      rw [instr?_writesBack _ i h, pack_unpack w (by simpa using hf)]
  next => rfl

/-! ### The opcodes listed -/

/-- Each branch of the opcode map fixes the opcode, and R39 lists it. -/
theorem listedOpcode_of_instr? {f : Fields} {i : Instr} (e : f.instr? = some i) : listedOpcode f.opc.toNat = true := by
  unfold Fields.instr? at e
  split at e
  all_goals
    simp only [decClass0, decClass1, decClass2, decClass3, decClass4, decClass5, decClass6, decClass7] at e
    split at e
    any_goals cases e
    all_goals simp only [*]; decide

theorem decode_unlisted {w : DWord} (hf : w.getLsbD 63 = false) (hl : listedOpcode (w.extractLsb' 45 10).toNat = false) : decode w = .illegalOp w := by
  have hn : decodeFields (unpack w) = none := by
    rw [Option.eq_none_iff_forall_not_mem]
    intro i hi
    have h := listedOpcode_of_instr? ((decodeFields_eq_some_iff _ _).1 hi).1
    rw [show (unpack w).opc = w.extractLsb' 45 10 from rfl, hl] at h
    cases h
  unfold decode
  rw [hf, if_neg Bool.false_ne_true, hn]

/-- Settles O2: each opcode's reading is written back bit for bit, and the opcode map lists no opcode but those of R39. -/
theorem encodeOfDecode : Obligations.EncodeOfDecode :=
  ⟨encode_decode, fun _ hf hl => decode_unlisted hf hl⟩

end Sys2Proof

namespace Sys2Proof
open Machine

/-! ### A written word is read as the instruction it was written for -/

/-- The fields of a full-form word with this header and opcode. -/
def fieldsOf (h : Hdr) (opc : BitVec 10) (d a b : BitVec 11) (x : BitVec 12) : Fields :=
  { marker := h.marker, gap := h.gap, gw := h.gw, pg := h.pg, opc := opc, d := d, a := a, b := b, x := x }

section
variable (h : Hdr) (opc : BitVec 10) (d a b : BitVec 11) (x : BitVec 12)

@[simp] theorem fieldsOf_hdr : (fieldsOf h opc d a b x).hdr = h := rfl
@[simp] theorem fieldsOf_opc : (fieldsOf h opc d a b x).opc = opc := rfl
@[simp] theorem fieldsOf_d : (fieldsOf h opc d a b x).d = d := rfl
@[simp] theorem fieldsOf_a : (fieldsOf h opc d a b x).a = a := rfl
@[simp] theorem fieldsOf_b : (fieldsOf h opc d a b x).b = b := rfl
@[simp] theorem fieldsOf_x : (fieldsOf h opc d a b x).x = x := rfl
@[simp] theorem fieldsOf_dr : (fieldsOf h opc d a b x).dr = Reg.ofCode d := rfl
@[simp] theorem fieldsOf_ar : (fieldsOf h opc d a b x).ar = Reg.ofCode a := rfl
@[simp] theorem fieldsOf_br : (fieldsOf h opc d a b x).br = Reg.ofCode b := rfl
@[simp] theorem fieldsOf_xb (i : Nat) : (fieldsOf h opc d a b x).xb i = x.getLsbD i := rfl

end

theorem decode_of_mkF {h : Hdr} {opc : BitVec 10} {d a b : BitVec 11} {x : BitVec 12} {w : DWord} {i : Instr} (e : mkF h opc d a b x = some w)
    (hr : (fieldsOf h opc d a b x).instr? = some i) (hw : i.wf = true) : decode w = i := by
  obtain rfl := Option.some.inj e
  exact decode_of_instr? hr hw

@[simp] theorem bit1_getLsbD_zero (b : Bool) : (bit1 b).getLsbD 0 = b := by revert b; decide

/-- A word is a full-form word of a header and an opcode, and a layout reads its operands as `o`. -/
def ReadsAs {α : Type} (w : DWord) (h : Hdr) (opc : BitVec 10) (read : Fields → Option α) (o : α) : Prop :=
  ∃ d a b x, w = pack (fieldsOf h opc d a b x) ∧ read (fieldsOf h opc d a b x) = some o

theorem readsAs_of_mkF {α : Type} {w : DWord} {h : Hdr} {opc : BitVec 10} {d a b : BitVec 11} {x : BitVec 12} {read : Fields → Option α} {o : α}
    (e : mkF h opc d a b x = some w) (hr : read (fieldsOf h opc d a b x) = some o) : ReadsAs w h opc read o :=
  ⟨d, a, b, x, (Option.some.inj e).symm, hr⟩

/-- An opcode whose instruction is a layout's reading decodes to what the layout reads. -/
theorem ReadsAs.decode {α : Type} {w : DWord} {h : Hdr} {opc : BitVec 10} {read : Fields → Option α} {o : α} {mk : α → Instr}
    (r : ReadsAs w h opc read o) (hm : ∀ d a b x, (fieldsOf h opc d a b x).instr? = (read (fieldsOf h opc d a b x)).map mk)
    (hw : (mk o).wf = true) : Sys2Proof.decode w = mk o := by
  obtain ⟨d, a, b, x, rfl, hr⟩ := r
  exact decode_of_instr? (by rw [hm, hr]; rfl) hw

section
variable {w : DWord} {h : Hdr} {opc : BitVec 10}

theorem fmod_bits (m : FMod) (d a b : BitVec 11) : (fieldsOf h opc d a b m.bits).fmod = some m := by
  simp [Fields.fmod, FMod.bits, extractLsb'_append_low, extractLsb'_append_high, getLsbD_append_eq_ite, -BitVec.getLsbD_eq_getElem]

theorem FMod.bits_imm (m : FMod) : m.bits.getLsbD 11 = false := by
  simp [FMod.bits, getLsbD_append_eq_ite, -BitVec.getLsbD_eq_getElem]

theorem readsAs_i3 {o : I3} {tyOk : Ty → Bool} {satOk : Bool} (ho : o.wf tyOk satOk = true) (e : encI3 h opc o = some w) :
    ReadsAs w h opc Fields.i3 o := by
  obtain ⟨d, a, b, ty, sat⟩ := o
  simp only [I3.wf, Bool.and_eq_true] at ho
  obtain ⟨⟨⟨⟨hd, ha⟩, hb⟩, -⟩, -⟩ := ho
  cases b with
  | reg r =>
    have hr : r.wf = true := hb
    refine readsAs_of_mkF e ?_
    simp [Fields.i3, req, extractLsb'_append_low, extractLsb'_append_high, getLsbD_append_eq_ite, Reg.ofCode_code, hd, ha, hr, -BitVec.getLsbD_eq_getElem]
  | imm i =>
    simp only [IOpd.wf, Bool.and_eq_true, decide_eq_true_eq, Bool.not_eq_true'] at hb
    obtain ⟨rfl, rfl⟩ := hb
    refine readsAs_of_mkF e ?_
    simp [Fields.i3, Fields.imm22, append_eq_iff, extractLsb'_append_low, getLsbD_append_eq_ite, Reg.ofCode_code, hd, ha, -BitVec.getLsbD_eq_getElem]

theorem readsAs_i2 {o : I2} {tyOk : Ty → Bool} {satOk : Bool} (ho : o.wf tyOk satOk = true) (e : encI2 h opc o = some w) :
    ReadsAs w h opc Fields.i2 o := by
  simp only [I2.wf, Bool.and_eq_true] at ho
  obtain ⟨⟨⟨hd, ha⟩, -⟩, -⟩ := ho
  refine readsAs_of_mkF e ?_
  simp [Fields.i2, req, extractLsb'_append_low, extractLsb'_append_high, getLsbD_append_eq_ite, Reg.ofCode_code, hd, ha, -BitVec.getLsbD_eq_getElem]

theorem readsAs_f3 {o : F3} {immOk : Bool} {modOk : FMod → Bool} (ho : o.wf immOk modOk = true) (e : encF3 h opc o = some w) :
    ReadsAs w h opc Fields.f3 o := by
  obtain ⟨d, a, b⟩ := o
  simp only [F3.wf, Bool.and_eq_true] at ho
  obtain ⟨⟨hd, ha⟩, hb⟩ := ho
  cases b with
  | reg r m =>
    simp only [FOpd.wf, Bool.and_eq_true] at hb
    obtain ⟨hr, -⟩ := hb
    refine readsAs_of_mkF e ?_
    simp [Fields.f3, fmod_bits, FMod.bits_imm, Reg.ofCode_code, hd, ha, hr, -BitVec.getLsbD_eq_getElem]
  | imm i =>
    refine readsAs_of_mkF e ?_
    simp [Fields.f3, Fields.imm22, append_eq_iff, extractLsb'_append_low, getLsbD_append_eq_ite, Reg.ofCode_code, hd, ha, -BitVec.getLsbD_eq_getElem]

theorem readsAs_f2 {o : F2} {modOk : FMod → Bool} (ho : o.wf modOk = true) (e : encF2 h opc o = some w) : ReadsAs w h opc Fields.f2 o := by
  simp only [F2.wf, Bool.and_eq_true] at ho
  obtain ⟨⟨⟨⟨hd, ha⟩, -⟩, -⟩, -⟩ := ho
  refine readsAs_of_mkF e ?_
  simp [Fields.f2, req, fmod_bits, FMod.bits_imm, Reg.ofCode_code, hd, ha, -BitVec.getLsbD_eq_getElem]

theorem readsAs_fcmpF {o : FCmpF} (ha : o.a.wf = true) (hb : o.b.wf = true) (e : encFCmp h opc o = some w) : ReadsAs w h opc Fields.fcmpF o := by
  refine readsAs_of_mkF e ?_
  simp [Fields.fcmpF, req, extractLsb'_append_low, extractLsb'_append_high, getLsbD_append_eq_ite, Reg.ofCode_code, ha, hb, -BitVec.getLsbD_eq_getElem]

theorem readsAs_r2 {o : R2} (ho : o.wf = true) (e : encR2 h opc o = some w) : ReadsAs w h opc Fields.r2 o := by
  simp only [R2.wf, Bool.and_eq_true] at ho
  refine readsAs_of_mkF e ?_
  simp [Fields.r2, req, Reg.ofCode_code, ho]

theorem readsAs_r3 {o : R3} (ho : o.wf = true) (e : encR3 h opc o = some w) : ReadsAs w h opc Fields.r3 o := by
  simp only [R3.wf, Bool.and_eq_true] at ho
  refine readsAs_of_mkF e ?_
  simp [Fields.r3, req, Reg.ofCode_code, ho]

theorem readsAs_r1a {a : Reg} (ha : a.wf = true) (e : mkF h opc 0 a.code 0 0 = some w) : ReadsAs w h opc Fields.r1a a := by
  refine readsAs_of_mkF e ?_
  simp [Fields.r1a, req, Reg.ofCode_code, ha]

theorem readsAs_x4 {m : BitVec 4} (e : encX4 h opc m = some w) : ReadsAs w h opc Fields.x4 m := by
  refine readsAs_of_mkF e ?_
  simp [Fields.x4, req, extractLsb'_append_low, extractLsb'_append_high]

theorem readsAs_immw {o : ImmF} (hd : o.d.wf = true)
    (e : mkF h opc o.d.code 0 (o.imm.extractLsb' 11 11) (0#1 ++ o.imm.extractLsb' 0 11) = some w) : ReadsAs w h opc Fields.immw o := by
  obtain ⟨d, imm⟩ := o
  refine readsAs_of_mkF e ?_
  simp [Fields.immw, Fields.imm22, req, append_eq_iff, extractLsb'_append_low, getLsbD_append_eq_ite, Reg.ofCode_code, hd, -BitVec.getLsbD_eq_getElem]

theorem readsAs_brF {o : BrF} (e : encBr h opc o = some w) : ReadsAs w h opc Fields.brF o := by
  obtain ⟨off, hint⟩ := o
  have hh : hint.bits.extractLsb' 1 1 ++ hint.bits.extractLsb' 0 1 = hint.bits := by simp [append_eq_iff]
  refine readsAs_of_mkF e ?_
  simp [Fields.brF, req, append_eq_iff, extractLsb'_append_low, extractLsb'_append_high, extractLsb'_extractLsb', hh]

theorem readsAs_mdr {o : MdrainF} (hd : o.d.wf = true) (ha : o.a.wf = true) (hb : o.b.wf = true)
    (e : encMdr h opc o.d o.a o.b o.zero o.tok o.tag = some w) : ReadsAs w h opc Fields.mdr o := by
  refine readsAs_of_mkF e ?_
  simp [Fields.mdr, req, extractLsb'_append_low, extractLsb'_append_high, getLsbD_append_eq_ite, Reg.ofCode_code, hd, ha, hb, -BitVec.getLsbD_eq_getElem]

theorem readsAs_cvtF {o : CvtF} {dbl : Bool} (ho : o.wf dbl = true) (e : encCvt h opc o = some w) : ReadsAs w h opc Fields.cvtF o := by
  simp only [CvtF.wf, Bool.and_eq_true] at ho
  obtain ⟨⟨hd, ha⟩, -⟩ := ho
  refine readsAs_of_mkF e ?_
  simp [Fields.cvtF, req, extractLsb'_append_low, extractLsb'_append_high, getLsbD_append_eq_ite, Reg.ofCode_code, hd, ha, -BitVec.getLsbD_eq_getElem]

theorem readsAs_qfmt {o : QFmtF} {mx : Bool} (ho : o.wf mx = true) (e : encQ h opc o = some w) : ReadsAs w h opc Fields.qfmt o := by
  simp only [QFmtF.wf, Bool.and_eq_true] at ho
  obtain ⟨⟨hd, ha⟩, -⟩ := ho
  refine readsAs_of_mkF e ?_
  simp [Fields.qfmt, req, extractLsb'_append_low, extractLsb'_append_high, getLsbD_append_eq_ite, Reg.ofCode_code, hd, ha, -BitVec.getLsbD_eq_getElem]

theorem readsAs_gredF {o : GredF} (hd : o.d.wf = true) (ha : o.a.wf = true) (e : encGred h opc o = some w) : ReadsAs w h opc Fields.gredF o := by
  refine readsAs_of_mkF e ?_
  simp [Fields.gredF, req, extractLsb'_append_low, extractLsb'_append_high, Reg.ofCode_code, hd, ha]

theorem readsAs_mem {o : MemF} {widOk : Wid → Bool} {chOk : Bool} (ho : o.wf widOk chOk = true) (e : encMem h opc o = some w) :
    ReadsAs w h opc Fields.mem o := by
  simp only [MemF.wf, Bool.and_eq_true] at ho
  obtain ⟨⟨⟨hd, ha⟩, -⟩, -⟩ := ho
  refine readsAs_of_mkF e ?_
  simp [Fields.mem, req, extractLsb'_append_low, extractLsb'_append_high, Reg.ofCode_code, hd, ha]

theorem readsAs_atF {o : AtF} (hd : o.d.wf = true) (ha : o.a.wf = true) (hb : o.b.wf = true)
    (e : encAt h opc o.d.code o.a o.b o.aop o.ord o.sco o.ty = some w) : ReadsAs w h opc Fields.atF o := by
  refine readsAs_of_mkF e ?_
  simp [Fields.atF, req, extractLsb'_append_low, extractLsb'_append_high, getLsbD_append_eq_ite, Reg.ofCode_code, hd, ha, hb, -BitVec.getLsbD_eq_getElem]

end

end Sys2Proof

namespace Sys2Proof
open Machine

section
variable {w : DWord} {h : Hdr}

theorem decode_aadd {o : AaddF} (hw : (Instr.aadd h o).wf = true) (e : encode (.aadd h o) = some w) : decode w = .aadd h o := by
  obtain ⟨d, a, b, sg, sh⟩ := o
  cases b with
  | reg r =>
    refine decode_of_mkF e ?_ hw
    simp only [Instr.wf, Bool.and_eq_true] at hw
    simp [Fields.instr?, decClass0, req, extractLsb'_append_low, extractLsb'_append_high, getLsbD_append_eq_ite, Reg.ofCode_code, hw, -BitVec.getLsbD_eq_getElem]
  | imm i =>
    refine decode_of_mkF e ?_ hw
    simp only [Instr.wf, Bool.and_eq_true, decide_eq_true_eq] at hw
    simp [Fields.instr?, decClass0, extractLsb'_append_low, getLsbD_append_eq_ite, Reg.ofCode_code, Fields.imm22, append_eq_iff, hw, -BitVec.getLsbD_eq_getElem]

theorem decode_shfl {o : ShflF} (hw : (Instr.shfl h o).wf = true) (e : encode (.shfl h o) = some w) : decode w = .shfl h o := by
  obtain ⟨d, a, b, wd, lw, mode⟩ := o
  have hl : (BitVec.ofNat 3 lw.val).toNat = lw.val := by simp; omega
  cases b with
  | reg r =>
    refine decode_of_mkF e ?_ hw
    simp only [Instr.wf, Bool.and_eq_true] at hw
    simp [Fields.instr?, decClass3, req, extractLsb'_append_low, extractLsb'_append_high, getLsbD_append_eq_ite, Reg.ofCode_code, hl, hw, -BitVec.getLsbD_eq_getElem, -BitVec.toNat_ofNat, -BitVec.extractLsb'_toNat]
  | imm i =>
    refine decode_of_mkF e ?_ hw
    simp only [Instr.wf, Bool.and_eq_true] at hw
    simp [Fields.instr?, decClass3, req, extractLsb'_append_low, extractLsb'_append_high, getLsbD_append_eq_ite, Reg.ofCode_code, hl, hw, -BitVec.getLsbD_eq_getElem, -BitVec.toNat_ofNat, -BitVec.extractLsb'_toNat]

theorem decode_qsub {o : QsubF} (hw : (Instr.qsub h o).wf = true) (e : encode (.qsub h o) = some w) : decode w = .qsub h o := by
  obtain ⟨d, a, cnt, grd⟩ := o
  cases grd with
  | none =>
    refine decode_of_mkF e ?_ hw
    simp only [Instr.wf, Bool.and_eq_true] at hw
    simp [Fields.instr?, decClass5, req, extractLsb'_append_low, extractLsb'_append_high, getLsbD_append_eq_ite, Reg.ofCode_code, hw, -BitVec.getLsbD_eq_getElem]
  | some g =>
    have hg : (cnt ++ 1#1 ++ g).extractLsb' 0 5 ≠ 0#5 := fun h => by
      simpa [getLsbD_append_eq_ite, -BitVec.getLsbD_eq_getElem] using congrArg (fun x => x.getLsbD 4) h
    refine decode_of_mkF e ?_ hw
    simp only [Instr.wf, Bool.and_eq_true] at hw
    simp [Fields.instr?, decClass5, req, extractLsb'_append_low, extractLsb'_append_high, getLsbD_append_eq_ite, Reg.ofCode_code, hw, hg, -BitVec.getLsbD_eq_getElem]

theorem decode_bari {o : BariF} (hw : (Instr.bari h o).wf = true) (e : encode (.bari h o) = some w) : decode w = .bari h o := by
  obtain ⟨n, bar⟩ := o
  cases n with
  | reg r =>
    refine decode_of_mkF e ?_ hw
    simp only [Instr.wf] at hw
    simp [Fields.instr?, decClass7, req, extractLsb'_append_low, extractLsb'_append_high, getLsbD_append_eq_ite, Reg.ofCode_code, Fields.cnt, hw, -BitVec.getLsbD_eq_getElem]
  | imm i =>
    refine decode_of_mkF e ?_ hw
    simp [Fields.instr?, decClass7, req, extractLsb'_append_low, extractLsb'_append_high, getLsbD_append_eq_ite, Fields.cnt, -BitVec.getLsbD_eq_getElem]

theorem decode_sleep {o : CntOpd} (hw : (Instr.sleep h o).wf = true) (e : encode (.sleep h o) = some w) : decode w = .sleep h o := by
  cases o with
  | reg r =>
    refine decode_of_mkF e ?_ hw
    simp only [Instr.wf, CntOpd.regWf] at hw
    simp [Fields.instr?, decClass7, req, Reg.ofCode_code, Fields.cnt, hw, -BitVec.getLsbD_eq_getElem]
  | imm i =>
    refine decode_of_mkF e ?_ hw
    simp [Fields.instr?, decClass7, req, Fields.cnt, -BitVec.getLsbD_eq_getElem]

theorem decode_sigw {o : SigwF} (hw : (Instr.sigw h o).wf = true) (e : encode (.sigw h o) = some w) : decode w = .sigw h o := by
  obtain ⟨res, a, b, c, w64, sco⟩ := o
  cases res with
  | none =>
    refine decode_of_mkF e ?_ hw
    simp only [Instr.wf, Bool.and_eq_true] at hw
    simp [Fields.instr?, decClass7, req, extractLsb'_append_low, extractLsb'_append_high, getLsbD_append_eq_ite, Reg.ofCode_code, hw, -BitVec.getLsbD_eq_getElem]
  | some r =>
    refine decode_of_mkF e ?_ hw
    simp only [Instr.wf, Bool.and_eq_true] at hw
    simp [Fields.instr?, decClass7, req, extractLsb'_append_low, extractLsb'_append_high, getLsbD_append_eq_ite, Reg.ofCode_code, hw, -BitVec.getLsbD_eq_getElem]

/-- Every well-formed instruction word is read back from its encoding, constructor by constructor. -/
theorem decode_of_encode {i : Instr} (hw : i.wf = true) (hi : ∀ v, i ≠ .illegalOp v) (e : encode i = some w) : decode w = i := by
  cases i with
  | iadd h o | isub h o | imul h o | imulh h o | imad h o | imin h o | imax h o | iand h o | ior h o | ixor h o | iandn h o | shl h o
  | shr h o | sar h o | rotl h o | idiv h o | irem h o =>
    exact (readsAs_i3 hw e).decode (fun _ _ _ _ => by simp [Fields.instr?, decClass0]) hw
  | imulw h o =>
    have ho : o.wf (fun t => decide (t = .u32) || decide (t = .s32)) false = true := hw
    exact (readsAs_i3 ho e).decode (fun _ _ _ _ => by simp [Fields.instr?, decClass0]) hw
  | iabs h o | popc h o | clz h o | brev h o | mov h o =>
    exact (readsAs_i2 hw e).decode (fun _ _ _ _ => by simp [Fields.instr?, decClass0]) hw
  | movi h o | movhi h o =>
    exact (readsAs_immw hw e).decode (fun _ _ _ _ => by simp [Fields.instr?, decClass0]) hw
  | fadd h o | fsub h o | fmul h o | ffma h o | fmin h o | fmax h o | fdiv h o =>
    exact (readsAs_f3 hw e).decode (fun _ _ _ _ => by simp [Fields.instr?, decClass1]) hw
  | frcp h o | frsq h o | fsqrt h o | fexp2 h o | flog2 h o | fsinpi h o | fcospi h o | frint h o =>
    exact (readsAs_f2 hw e).decode (fun _ _ _ _ => by simp [Fields.instr?, decClass1]) hw
  | fcmp h o =>
    obtain ⟨ha, hb⟩ := by simpa only [Instr.wf, Bool.and_eq_true] using hw
    exact (readsAs_fcmpF ha hb e).decode (fun _ _ _ _ => by simp [Fields.instr?, decClass1]) hw
  | fclass h o =>
    exact (readsAs_r2 hw e).decode (fun _ _ _ _ => by simp [Fields.instr?, decClass1]) hw
  | dadd h o | dsub h o | dmul h o | dfma h o | dmin h o | dmax h o | ddiv h o =>
    exact (readsAs_f3 hw e).decode (fun _ _ _ _ => by simp [Fields.instr?, decClass2]) hw
  | dsqrt h o =>
    exact (readsAs_f2 hw e).decode (fun _ _ _ _ => by simp [Fields.instr?, decClass2]) hw
  | dcmp h o =>
    obtain ⟨ha, hb⟩ := by simpa only [Instr.wf, Bool.and_eq_true] using hw
    exact (readsAs_fcmpF ha hb e).decode (fun _ _ _ _ => by simp [Fields.instr?, decClass2]) hw
  | cvt h o | cvtd h o =>
    exact (readsAs_cvtF hw e).decode (fun _ _ _ _ => by simp [Fields.instr?, decClass2]) hw
  | cvtq h o | mxq h o =>
    exact (readsAs_qfmt hw e).decode (fun _ _ _ _ => by simp [Fields.instr?, decClass2]) hw
  | gred h o | gscan h o =>
    obtain ⟨hd, ha⟩ := by simpa only [Instr.wf, Bool.and_eq_true] using hw
    exact (readsAs_gredF hd ha e).decode (fun _ _ _ _ => by simp [Fields.instr?, decClass3]) hw
  | rnd h o =>
    exact (readsAs_r3 hw e).decode (fun _ _ _ _ => by simp [Fields.instr?, decClass3]) hw
  | rndu h o =>
    exact (readsAs_r2 hw e).decode (fun _ _ _ _ => by simp [Fields.instr?, decClass3]) hw
  | ld h o | st h o | scatter h o | ldp h o | stp h o | lds h o | sts h o =>
    exact (readsAs_mem hw e).decode (fun _ _ _ _ => by simp [Fields.instr?, decClass4]) hw
  | atom h o | redseq h o =>
    obtain ⟨⟨⟨hd, ha⟩, hb⟩, -⟩ := by simpa only [Instr.wf, Bool.and_eq_true] using hw
    exact (readsAs_atF hd ha hb e).decode (fun _ _ _ _ => by simp [Fields.instr?, decClass4]) hw
  | hclaim h a =>
    exact (readsAs_r1a hw e).decode (fun _ _ _ _ => by simp [Fields.instr?, decClass5]) hw
  | hins h o | qwait h o =>
    exact (readsAs_r3 hw e).decode (fun _ _ _ _ => by simp [Fields.instr?, decClass5]) hw
  | hprobe h o | hdel h o | qpop h o | qstat h o =>
    exact (readsAs_r2 hw e).decode (fun _ _ _ _ => by simp [Fields.instr?, decClass5]) hw
  | gset h m =>
    exact (readsAs_x4 e).decode (fun _ _ _ _ => by simp [Fields.instr?, decClass5]) hw
  | mdrain h o | mstore h o =>
    obtain ⟨⟨hd, ha⟩, hb⟩ := by simpa only [Instr.wf, Bool.and_eq_true] using hw
    exact (readsAs_mdr hd ha hb e).decode (fun _ _ _ _ => by simp [Fields.instr?, decClass6]) hw
  | bra h o | call h o =>
    exact (readsAs_brF e).decode (fun _ _ _ _ => by simp [Fields.instr?, decClass7]) hw
  | join h m | leave h m | waitm h m | mclr h m | bars h m =>
    exact (readsAs_x4 e).decode (fun _ _ _ _ => by simp [Fields.instr?, decClass7]) hw
  | launch h o =>
    exact (readsAs_r2 hw e).decode (fun _ _ _ _ => by simp [Fields.instr?, decClass7]) hw
  | seedw h a =>
    exact (readsAs_r1a hw e).decode (fun _ _ _ _ => by simp [Fields.instr?, decClass7]) hw
  | aadd h o => exact decode_aadd hw e
  | shfl h o => exact decode_shfl hw e
  | qsub h o => exact decode_qsub hw e
  | bari h o => exact decode_bari hw e
  | sleep h o => exact decode_sleep hw e
  | sigw h o => exact decode_sigw hw e
  | bfe h o | bfi h o | icmp h o | sel h o =>
    refine decode_of_mkF e ?_ hw
    simp only [Instr.wf, Bool.and_eq_true] at hw
    simp [Fields.instr?, decClass0, req, extractLsb'_append_low, extractLsb'_append_high, getLsbD_append_eq_ite, Reg.ofCode_code, Fields.pd, Fields.pdOk, hw, -BitVec.getLsbD_eq_getElem]
  | plop h o =>
    refine decode_of_mkF e ?_ hw
    simp [Fields.instr?, decClass0, req, extractLsb'_append_low, extractLsb'_append_high, Fields.pd, Fields.pdOk, -BitVec.getLsbD_eq_getElem]
  | fdot2 h o =>
    obtain ⟨d, a, b, f16, ftz, rm⟩ := o
    refine decode_of_mkF e ?_ hw
    simp only [Instr.wf, Bool.and_eq_true] at hw
    cases f16 <;> simp [Fields.instr?, decClass1, req, extractLsb'_append_low, extractLsb'_append_high, getLsbD_append_eq_ite, Reg.ofCode_code, hw, -BitVec.getLsbD_eq_getElem]
  | voteAll h o | voteAny h o =>
    refine decode_of_mkF e ?_ hw
    simp [Fields.instr?, decClass3, req, extractLsb'_append_low, extractLsb'_append_high, getLsbD_append_eq_ite, Fields.pd, Fields.pdOk, -BitVec.getLsbD_eq_getElem]
  | voteBal h o | voteEq h o | topk h o | matchLanes h o =>
    refine decode_of_mkF e ?_ hw
    simp only [Instr.wf, Bool.and_eq_true, decide_eq_true_eq] at hw
    simp [Fields.instr?, decClass3, req, extractLsb'_append_low, extractLsb'_append_high, getLsbD_append_eq_ite, Reg.ofCode_code, Fields.pd, Fields.pdOk, hw, -BitVec.getLsbD_eq_getElem]
  | seedr h o =>
    refine decode_of_mkF e ?_ hw
    simp only [Instr.wf] at hw
    simp [Fields.instr?, decClass3, req, Reg.ofCode_code, hw, -BitVec.getLsbD_eq_getElem]
  | gather h o | cas h o | red h o | pref h o | cmaintInv h o | cmaintClean h o | cmaintFlush h o | cmaintTinv h o | pqry h o | atoms h o
  | presQuery h o | presSet h o | presClear h o | rrot h o =>
    refine decode_of_mkF e ?_ hw
    simp only [Instr.wf, Bool.and_eq_true, decide_eq_true_eq] at hw
    simp [Fields.instr?, decClass4, req, extractLsb'_append_low, extractLsb'_append_high, getLsbD_append_eq_ite, Reg.ofCode_code, Fields.atF, Fields.cmaint, hw, -BitVec.getLsbD_eq_getElem]
  | fence h o =>
    refine decode_of_mkF e ?_ hw
    simp [Fields.instr?, decClass4, req, extractLsb'_append_low, extractLsb'_append_high, -BitVec.getLsbD_eq_getElem]
  | hfree h =>
    refine decode_of_mkF e ?_ hw
    simp [Fields.instr?, decClass5, req, Fields.none0, -BitVec.getLsbD_eq_getElem]
  | hacc h o | hdrain h o | hstat h o | rpush h o | rpop h o | rsteal h o | renq h o =>
    refine decode_of_mkF e ?_ hw
    simp only [Instr.wf, Bool.and_eq_true, decide_eq_true_eq] at hw
    simp [Fields.instr?, decClass5, req, extractLsb'_append_low, extractLsb'_append_high, Reg.ofCode_code, Fields.pd, Fields.pdOk, hw, -BitVec.getLsbD_eq_getElem]
  | rdefFree h o | rdefAdopt h o =>
    refine decode_of_mkF e ?_ hw
    simp only [Instr.wf] at hw
    simp [Fields.instr?, decClass5, req, Reg.ofCode_code, hw, -BitVec.getLsbD_eq_getElem]
  | rdefDefine h o =>
    refine decode_of_mkF e ?_ hw
    simp only [Instr.wf, R2.wf, Bool.and_eq_true] at hw
    simp [Fields.instr?, decClass5, req, extractLsb'_append_low, extractLsb'_append_high, Reg.ofCode_code, hw, -BitVec.reduceAppend]
  | gres h o =>
    refine decode_of_mkF e ?_ hw
    simp [Fields.instr?, decClass5, req, extractLsb'_append_low, extractLsb'_append_high, getLsbD_append_eq_ite, -BitVec.getLsbD_eq_getElem]
  | mloop h o | mzero h o | mstadd h o | mldf h o | mscan h o | mcarry h o =>
    refine decode_of_mkF e ?_ hw
    simp only [Instr.wf, Bool.and_eq_true] at hw
    simp [Fields.instr?, decClass6, req, extractLsb'_append_low, extractLsb'_append_high, getLsbD_append_eq_ite, Reg.ofCode_code, Fields.mdr, hw, -BitVec.getLsbD_eq_getElem]
  | mwaitConsumed h o | mwaitDone h o =>
    refine decode_of_mkF e ?_ hw
    simp only [Instr.wf] at hw
    simp [Fields.instr?, decClass6, req, Reg.ofCode_code, hw, -BitVec.getLsbD_eq_getElem]
  | mwaitAll h =>
    refine decode_of_mkF e ?_ hw
    simp [Fields.instr?, decClass6, req, -BitVec.getLsbD_eq_getElem]
  | nop h | exit h =>
    refine decode_of_mkF e ?_ hw
    simp [Fields.instr?, decClass7, req, Fields.none0, -BitVec.getLsbD_eq_getElem]
  | brx h o | callx h o | ret h o | mget h o | bara h o | barw h o | tinfo h o | svr h o | pmonRead h o | tretRedirect h o =>
    refine decode_of_mkF e ?_ hw
    simp only [Instr.wf, Bool.and_eq_true] at hw
    simp [Fields.instr?, decClass7, req, extractLsb'_append_low, extractLsb'_append_high, getLsbD_append_eq_ite, Reg.ofCode_code, hw, -BitVec.getLsbD_eq_getElem]
  | pmonArm h o | pmonFreeze h o =>
    refine decode_of_mkF e ?_ hw
    simp only [Instr.wf] at hw
    simp [Fields.instr?, decClass7, req, Reg.ofCode_code, hw, -BitVec.getLsbD_eq_getElem]
  | trap h o | tretResume h o | tretSkip h o | tkillThread h o | tkillGroup h o | tkillTeam h o | tkillGrid h o | bkpt h o =>
    refine decode_of_mkF e ?_ hw
    simp [Fields.instr?, decClass7, req, extractLsb'_append_low, extractLsb'_append_high, getLsbD_append_eq_ite, Fields.tk, -BitVec.getLsbD_eq_getElem]
  | pairWord o => exact decode_of_pairWord ((Bool.and_eq_true ..).mp hw) e
  | illegalOp v => exact absurd rfl (hi v)
  | _ => cases e

end

/-- Settles O1: every layout reads back what the encoder laid in it, register fields and codes included. -/
theorem decodeOfEncode : Obligations.DecodeOfEncode :=
  fun _ _ hw hi e => decode_of_encode hw hi e

end Sys2Proof

/-! ### Words of the spec, fetch and step -/

namespace Sys2Proof

open Machine

/-- Settles O3: nine words are encodings of what the spec says they mean, and the last has an opcode that R39 does not list. -/
theorem wordsOfTheSpec : Obligations.WordsOfTheSpec := by
  refine ⟨?_, ?_, ?_, ?_, ?_, ?_, ?_, ?_, ?_, decode_unlisted (by decide) (by decide)⟩
  all_goals exact decode_of_encode (by decide) nofun (by decide)

end Sys2Proof

namespace Sys2Proof.Machine

/-- No choice is made among fewer than two. -/
theorem State.pick_le_one {s : State} {n : Nat} (hn : n ≤ 1) : s.pick n = (0, s) := if_pos hn

/-- With no event to happen, the machine issues or ends its cycle. -/
theorem State.eventOrIssue_of_events {s : State} (he : s.events = []) : s.eventOrIssue = s.issueOrTick := by
  simp [State.eventOrIssue, he, State.pick_le_one]

/-- With nothing before it, no retry and nothing due, the next act is an event or issue. -/
theorem State.nextAct_eq {s : State} (hb : s.beforeStart = none) (hr : s.retryNow = none) (hd : s.due = none) :
    s.nextAct = s.eventOrIssue := by
  simp [State.nextAct, hb, hr, hd]

/-- A pipe whose one first rank's fetch gives a word runs that word, at the state in which its issue set is drawn. -/
theorem State.issueOn_fetched {s u : State} {core pipe : Nat} {rank : Ready} {tm : Team} {w : DWord}
    (hf : firstRanks (s.ranks (s.readyOn core pipe)) = [rank]) (ht : s.team? rank.tid.team = some tm)
    (hw : State.fetch { s.clearGw (s.readyOn core pipe) with turn := pipeIndex core pipe + 1 } core tm.ctx rank.pc.toNat
      (laneOldest ((s.readyOn core pipe).filter fun b => b.same rank)) = ((.ok w : Except Nat DWord), u)) :
    s.issueOn core pipe = .run (decode w)
      { (u.markThaw core tm.ctx).fresh.2 with
        cur := some { core := core, pipe := pipe, team := rank.tid.team, lanes := setAt (s.readyOn core pipe) rank w, pc := rank.pc, word := w,
                      issue := (u.markThaw core tm.ctx).fresh.1 } } := by
  simp [State.issueOn, hf, ht, hw, State.pick_le_one]

theorem stepOfDecodedWord : StepOfDecodedWord := by
  intro s u core pipe rank tm w hb hr hd he hn hf ht hw
  have issues : s.issueOrTick = s.issueOn core pipe := by simp [State.issueOrTick, hn]
  rw [step, s.nextAct_eq hb hr hd, State.eventOrIssue_of_events he, issues, State.issueOn_fetched hf ht hw]

/-- Where every replaced byte of a word is certain to be seen no more, no older content of it can be fetched. -/
theorem oldWords_eq_nil {certain : ICopy → Bool} {pa : Nat} {es : List ICopy} (now : List Byte)
    (h : ∀ e ∈ es, meets e.pa e.old.length pa 8 = true → certain e = true) : oldWords certain pa es now = [] := by
  induction es with
  | nil => rfl
  | cons e es ih =>
    have rest := ih fun x hx => h x (List.mem_cons_of_mem e hx)
    by_cases hm : meets e.pa e.old.length pa 8 = true
    · simp [oldWords, hm, h e List.mem_cons_self hm]
    · simp [oldWords, hm, rest]

theorem fetchReadsMemory : FetchReadsMemory := by
  intro s core ctx pc ts x hpc hx hrm hue hic hold
  have present : s.fetchable ts x.pa = [BitVec.ofNat 64 (leNat (s.readPhys x.pa 8))] := by
    have older := oldWords_eq_nil (certain := fun e => ts.any (s.fetchCertain e)) (s.readPhys x.pa 8)
      fun e he hm => List.any_eq_true.2 (hold e he hm)
    simp [State.fetchable, older, wordFrom]
  simp only [State.fetch, hpc, hx, hrm, hue, hic, present]
  simp [State.pick_le_one]

theorem fencedWordIsCertain : FencedWordIsCertain := by
  intro s e u t c f g hu hc hcs hf hf1 hfs hg hg1 hgs
  have storing : (e.fences.any fun x => decide (x.1 = u ∧ 1 ≤ x.2) && s.scopeHolds x.2 u e.core t) = true :=
    List.any_eq_true.2 ⟨_, hf, by simp [hf1, hfs]⟩
  have fetching : (e.fences.any fun x => decide (x.1 = t ∧ 1 ≤ x.2) && s.scopeHolds x.2 u e.core t) = true :=
    List.any_eq_true.2 ⟨_, hg, by simp [hg1, hgs]⟩
  simp only [State.fetchCertain, hu, hc, hcs, storing, fetching, Bool.and_self]

end Sys2Proof.Machine

namespace Sys2Proof

open Machine

/-- Settles O5: with no event and one first rank no choice is open, and where every old byte of the word is certain to be gone a fetch has one content to give. -/
theorem stepRunsDecodedWord : Obligations.StepRunsDecodedWord :=
  ⟨stepOfDecodedWord, fetchReadsMemory, fencedWordIsCertain⟩

end Sys2Proof

/-! ### Issue and the marker -/

namespace Sys2Proof.Machine

/-- The state once a word has issued: its threads have advanced, its set is known, and monitors may have counted. -/
theorem State.begun_eq (s : State) (c : Cur) (h : Hdr) :
    ∃ ms, s.begun c h = { s.advanceAll c (gapCycles h.gap) h.gw with monitors := ms, cur := some (s.curIn c h) } := by
  obtain ⟨ms, e⟩ := s.issue_eq c (gapCycles h.gap) h.gw
  exact ⟨ms, by rw [State.begun, e]; rfl⟩

theorem State.begun_thread (s : State) (c : Cur) (h : Hdr) (u : Tid) : (s.begun c h).thread? u = s.issuedThread c h u := by
  obtain ⟨ms, e⟩ := s.begun_eq c h
  rw [e]
  exact s.advanceAll_thread c _ _ u

/-- A register that results can be written to does not read the current word. -/
theorem State.regVal_setCur (s : State) (c : Cur) (u : Tid) {r : Reg} {j : Nat} (hr : Reg.file? r j ≠ none) :
    (s.setCur c).regVal u r j = s.regVal u r j := by
  cases r with
  | sv i => exact absurd rfl hr
  | _ => rfl

theorem State.begun_regVal (s : State) (c : Cur) (h : Hdr) (u : Tid) {r : Reg} {j : Nat} (hr : Reg.file? r j ≠ none) :
    (s.begun c h).regVal u r j = s.regVal u r j := by
  obtain ⟨ms, e⟩ := s.issue_eq c (gapCycles h.gap) h.gw
  rw [State.begun, State.regVal_setCur _ _ _ hr, e]
  exact s.advanceAll_regVal c _ _ u r j

theorem State.sameBeyond_mem {s t : State} (h : s.sameBeyond t) : t.mem = s.mem := by
  have := congrArg State.mem h.2
  exact this

theorem issueAdvances : IssueAdvances := by
  intro s c h _
  refine ⟨fun t ht => ?_, fun t ht => ?_, fun t r j hr => s.begun_regVal c h t hr, State.sameBeyond_mem (s.begun_same c h)⟩
  · rw [s.begun_thread, State.issuedThread, if_pos ht]
  · rw [s.begun_thread, State.issuedThread, if_neg ht]

/-- A test of a thread that lives. -/
theorem State.threadIs_some {s : State} {t : Tid} {th : Thread} (ht : s.thread? t = some th) (p : Thread → Bool) : s.threadIs t p = p th := by
  rw [State.threadIs, ht]

/-- A thread with no fault pending takes none. -/
theorem State.deliverAsync_none {s : State} {t : Tid} {th : Thread} (ht : s.thread? t = some th) (ha : th.afaults = []) (rpc : DWord) :
    s.deliverAsync t rpc = (false, s) := by
  rw [State.deliverAsync, ht]
  simp [ha, oldestFault]

/-- A thread with long results outstanding does not pass its marker. -/
theorem State.passMarker_longs {s : State} {t : Tid} {th : Thread} (ht : s.thread? t = some th) (hl : th.longs ≠ []) : s.passMarker t = s := by
  rw [State.passMarker, State.threadIs_some ht]
  simp [hl]

theorem markerParks : MarkerParks := by
  intro s c t th hc ht hpend hheld hparks
  refine ⟨fun hl => ?_, fun hl ha => ?_⟩
  · have parked : (s.updThread t fun th => { th with parks := th.parks ++ [.marker] }).thread? t = some { th with parks := [.marker] } := by
      have updated := State.thread?_updThread_same s t (fun th => { th with parks := th.parks ++ [.marker] }) fun _ => rfl
      rw [updated, ht, Option.map_some, hparks, List.nil_append]
    have hm : s.marker c = s.updThread t fun th => { th with parks := th.parks ++ [.marker] } := by
      simp only [State.marker, hc, List.foldl_cons, List.foldl_nil, State.threadIs_some ht, State.passMarker_longs parked hl]
      simp [hpend, hheld, hparks, hl]
    rw [hm, parked]
  · have hm : s.marker c = s := by
      simp only [State.marker, hc, List.foldl_cons, List.foldl_nil, State.threadIs_some ht, State.deliverAsync_none ht ha]
      simp [hpend, hheld, hparks, hl]
    rw [hm, ht]

theorem nopAdvances : NopAdvances := by
  intro h s c hc
  refine ⟨?_, s.entered_same c h []⟩
  show Host.Outcome.next (s.word h {} fun _ s => some s) = _
  rw [State.word_clear hc]

end Sys2Proof.Machine

namespace Sys2Proof

open Machine

/-- Settles O9: issue is one update of each thread of the set, and the marker one of each that still waits. -/
theorem issueAndMarkers : Obligations.IssueAndMarkers := ⟨issueAdvances, markerParks, nopAdvances⟩

end Sys2Proof

/-! ### Guards -/

namespace Sys2Proof.Machine

/-! #### A word with no lane to act in -/

theorem State.countUniform_nil (s : State) (c : Cur) (ops : List Opd) : s.countUniform c ops [] = s := by
  unfold State.countUniform
  split <;> rfl

theorem State.letAll_nil (s : State) (k : Checks) (joint : Bool) : s.letAll k joint [] = ([], s) :=
  State.letAll_go s k joint [] nofun fun _ => nofun

theorem State.deliverIf_nil (s : State) (point : Bool) : s.deliverIf point [] = ([], s) := by
  unfold State.deliverIf
  split
  · cases point <;> rfl
  · rfl

theorem State.queueWaits_nil (s : State) (point : Bool) (ops : List Opd) : s.queueWaits point ops [] = false := by
  simp [State.queueWaits, State.accessWaits]

/-- A word whose lanes have all left it at the decode traps, and whose effect on no lane is nothing, has done no more than those traps. -/
theorem State.course_no_lane_left {s : State} {c : Cur} (hcur : s.cur = some c) (hr : c.retry = false) {mk gw : Bool} {gap : Nat}
    {ok : Thread → Bool} {k : Checks} {joint : Bool} {effect : List Tid → State → Option State} (he : ∀ u, effect [] u = some u)
    {r : List Tid × State} (hd : ((s.issue c gap gw).setCur (c.withSet ((s.issue c gap gw).active c ok))).decodeTraps k ((s.issue c gap gw).active c ok) = r)
    (hout : r.1 = []) :
    s.course mk gw gap ok k joint effect = if mk then r.2.marker c else r.2 := by
  obtain ⟨left, u⟩ := r
  subst hout
  simp only [State.course, hcur, hr, Cur.withSet_retry, Bool.false_eq_true, if_false, hd, State.countUniform_nil, State.letAll_nil, he]
  simp only [State.someParked, List.any_nil, Bool.and_false, Bool.false_eq_true, if_false]
  rfl

/-- Where ILLEGAL_OP is every lane's, no lane is left. -/
theorem State.decodeTraps_illOp (s : State) (ts : List Tid) : (s.decodeTraps { illOp := fun _ _ => true } ts).1 = [] := by
  induction ts generalizing s with
  | nil => rfl
  | cons t ts ih =>
    unfold State.decodeTraps
    split
    · exact ih _
    · exact ih s

/-! #### Full-form words -/

/-- A state is what a word with a header makes of another, with some checks and an effect that is nothing where no lane acts. -/
def State.wordOf (s : State) (h : Hdr) (t : State) : Prop :=
  ∃ k joint effect, (∀ u, effect [] u = some u) ∧ t = s.word h k effect joint

/-- With its guard off in every lane, a word only issues. -/
theorem State.wordOf_guarded_off {s t : State} {c : Cur} {h : Hdr} (hw : s.wordOf h t) (hcur : s.cur = some c) (hr : c.retry = false)
    (hpg : h.pg ≠ 8) (hact : s.actives c h = []) : t = (s.begun c h).wordEnd h c := by
  obtain ⟨k, joint, effect, he, rfl⟩ := hw
  have untouched : ((s.issue c (gapCycles h.gap) h.gw).setCur (c.withSet (s.actives c h))).decodeTraps k (s.actives c h) = ([], s.begun c h) := by
    rw [State.begun, State.curIn, hact]
    rfl
  rw [State.word, if_neg hpg, State.course_no_lane_left hcur hr he untouched rfl]
  rfl

/-- Under the reserved guard, a word is ILLEGAL_OP in every thread of its set. -/
theorem State.wordOf_reserved {s t : State} {c : Cur} {h : Hdr} (hw : s.wordOf h t) (hcur : s.cur = some c) (hr : c.retry = false) (hpg : h.pg = 8) :
    t = ((((s.issue c (gapCycles h.gap) h.gw).setCur (c.withSet ((s.issue c (gapCycles h.gap) h.gw).active c fun _ => true))).decodeTraps
      { illOp := fun _ _ => true } ((s.issue c (gapCycles h.gap) h.gw).active c fun _ => true)).2).wordEnd h c := by
  obtain ⟨k, joint, effect, he, rfl⟩ := hw
  rw [State.word, if_pos hpg, State.course_no_lane_left hcur hr (fun _ => rfl) rfl (State.decodeTraps_illOp _ _)]
  rfl

/-- A lane-by-lane word does nothing where no lane acts, unless it is held without one. -/
theorem State.byLane_wordOf {s : State} {h : Hdr} {k : Checks} {f : Tid → List (List Word) → State → State × Option Park}
    {hold : State → List Tid → Bool} {point joint : Bool} (hh : ∀ u, hold u [] = false) : s.wordOf h (s.byLane h k f hold point joint) := by
  refine ⟨k, joint || k.ops.any Opd.isQ, _, fun u => ?_, rfl⟩
  simp only [hh, State.queueWaits_nil, State.deliverIf_nil]
  rfl

/-- A word whose effect on no lane is nothing by definition. -/
theorem State.word_wordOf {s : State} {h : Hdr} {k : Checks} {effect : List Tid → State → Option State} {joint : Bool}
    (he : ∀ u, effect [] u = some u) : s.wordOf h (s.word h k effect joint) := ⟨k, joint, effect, he, rfl⟩

theorem State.branch_nil (s : State) (hint : Hint) (direct : Bool) (link : Option Reg) : s.branch [] hint direct link = s := by
  unfold State.branch
  split
  · contradiction
  · rfl

theorem State.arrayOnce_nil (s : State) (judge : State → Team → Tid → List Tid → MIssue) (after : Nat → List Tid → State → State) :
    s.arrayOnce [] judge after = some s := by
  unfold State.arrayOnce
  split
  · contradiction
  · rfl

theorem State.together_nil (s : State) (ops : List Opd) (d : Reg) {f : List (Tid × List (List Word)) → List (Tid × Word)} (hf : f [] = []) :
    s.together ops d [] f = s := by
  simp [State.together, State.readAll, hf, State.putAll]

/-- LAUNCH acts once for its set, or lane by lane. -/
theorem State.launch_wordOf (s : State) (h : Hdr) (o : R2) : ∃ t, execLaunch h o s = .next t ∧ s.wordOf h t := by
  obtain ⟨d, a⟩ := o
  cases a with
  | s _ | k _ => exact ⟨_, rfl, State.word_wordOf fun _ => rfl⟩
  | _ => exact ⟨_, rfl, State.byLane_wordOf fun _ => rfl⟩

theorem State.cvtq_wordOf (s : State) (h : Hdr) (o : QFmtF) : ∃ t, execCvtq h o s = .next t ∧ s.wordOf h t := by
  refine ⟨_, rfl, State.word_wordOf fun u => ?_⟩
  split
  · rfl
  · simp only [State.queueWaits_nil, State.deliverIf_nil]
    rfl

theorem State.mxq_wordOf (s : State) (h : Hdr) (o : QFmtF) : ∃ t, execMxq h o s = .next t ∧ s.wordOf h t := by
  refine ⟨_, rfl, State.word_wordOf fun u => ?_⟩
  split
  · rfl
  · simp only [State.queueWaits_nil, State.deliverIf_nil]
    rw [State.together_nil _ _ _ rfl]
    rfl

theorem State.qsub_wordOf (s : State) (h : Hdr) (o : QsubF) : ∃ t, execQsub h o s = .next t ∧ s.wordOf h t := by
  refine ⟨_, rfl, State.word_wordOf fun u => ?_⟩
  by_cases ha : o.a.isS
  · simp only [ha, if_true]; rfl
  · simp only [ha]; rfl

theorem State.mwait_wordOf {s : State} {h : Hdr} {ops : List Opd} {illReg : State → Tid → Bool} {kind : MKind} {d : Option Reg} :
    s.wordOf h (s.mwait h ops illReg kind d) := by
  refine State.word_wordOf fun u => ?_
  split <;> rfl

theorem State.softFault_wordOf {s : State} {h : Hdr} {code : Nat} {imm : BitVec 12} {past : Bool} :
    s.wordOf h (s.softFault h code imm past) := by
  refine State.word_wordOf fun u => ?_
  split <;> rfl

theorem State.waitm_wordOf (s : State) (h : Hdr) (m : BitVec 4) : ∃ t, execWaitm h m s = .next t ∧ s.wordOf h t := by
  refine ⟨_, rfl, State.word_wordOf fun u => ?_⟩
  simp only [State.deliverIf_nil]
  rfl

/-- Every full-form word is a word with its header. -/
theorem exec_wordOf {i : Instr} {h : Hdr} (hi : hdrOf i = some h) (s : State) : ∃ t, exec i s = .next t ∧ s.wordOf h t := by
  cases i with
  | iadd g o | isub g o | imul g o | imulh g o | imad g o | imin g o | imax g o | imulw g o | idiv g o | irem g o
  | iand g o | ior g o | ixor g o | iandn g o | shl g o | shr g o | sar g o | rotl g o
  | iabs g o | popc g o | clz g o | brev g o | mov g o
  | bfe g o | bfi g o | icmp g o | sel g o | plop g o | movi g o | movhi g o | aadd g o
  | fadd g o | fsub g o | fmul g o | ffma g o | fmin g o | fmax g o | fdiv g o | fcmp g o | fdot2 g o
  | frcp g o | frsq g o | fsqrt g o | fexp2 g o | flog2 g o | fsinpi g o | fcospi g o | frint g o | fclass g o
  | dadd g o | dsub g o | dmul g o | dfma g o | dmin g o | dmax g o | dcmp g o | ddiv g o | dsqrt g o | cvt g o | cvtd g o
  | ld g o | st g o | gather g o | scatter g o | sigw g o | atom g o | cas g o | red g o | redseq g o | fence g o | pref g o
  | cmaintInv g o | cmaintClean g o | cmaintFlush g o | cmaintTinv g o | ldp g o | stp g o | lds g o | sts g o | pqry g o | atoms g o
  | presQuery g o | presSet g o | presClear g o | qpop g o | qstat g o | qwait g o
  | hins g o | hprobe g o | hdel g o | hacc g o | rpush g o | rpop g o | rsteal g o | renq g o
  | mget g o | bari g o | bara g o | barw g o | bars g o | sleep g o | svr g o | tinfo g o =>
    obtain rfl := Option.some.inj hi
    exact ⟨_, rfl, State.byLane_wordOf fun _ => rfl⟩
  | shfl g o | voteAll g o | voteAny g o | voteBal g o | voteEq g o | gred g o | gscan g o | topk g o | matchLanes g o
  | rnd g o | rndu g o | seedr g o
  | rrot g o | hclaim g o | hfree g | hdrain g o | hstat g o | rdefDefine g o | rdefFree g o | rdefAdopt g o | gset g o | gres g o
  | nop g | exit g | join g o | leave g o | mclr g o
  | tretResume g o | tretSkip g o | tretRedirect g o | tkillThread g o | tkillGroup g o | tkillTeam g o | tkillGrid g o
  | seedw g o | pmonRead g o | pmonArm g o | pmonFreeze g o =>
    obtain rfl := Option.some.inj hi
    exact ⟨_, rfl, State.word_wordOf fun _ => rfl⟩
  | mloop g o | mzero g o | mdrain g o | mstore g o | mstadd g o | mldf g o | mscan g o | mcarry g o =>
    obtain rfl := Option.some.inj hi
    exact ⟨_, rfl, State.word_wordOf fun u => u.arrayOnce_nil _ _⟩
  | bra g o | brx g o | call g o | callx g o | ret g o =>
    obtain rfl := Option.some.inj hi
    exact ⟨_, rfl, State.word_wordOf fun u => congrArg some (u.branch_nil _ _ _)⟩
  | mwaitConsumed g o | mwaitDone g o | mwaitAll g =>
    obtain rfl := Option.some.inj hi
    exact ⟨_, rfl, State.mwait_wordOf⟩
  | trap g o | bkpt g o =>
    obtain rfl := Option.some.inj hi
    exact ⟨_, rfl, State.softFault_wordOf⟩
  | launch g o => obtain rfl := Option.some.inj hi; exact s.launch_wordOf g o
  | cvtq g o => obtain rfl := Option.some.inj hi; exact s.cvtq_wordOf g o
  | mxq g o => obtain rfl := Option.some.inj hi; exact s.mxq_wordOf g o
  | qsub g o => obtain rfl := Option.some.inj hi; exact s.qsub_wordOf g o
  | waitm g o => obtain rfl := Option.some.inj hi; exact s.waitm_wordOf g o
  | _ => cases hi

theorem guardValues : GuardValues := by
  refine fun th => ⟨rfl, fun pg h1 h7 => ?_, fun pg h9 => ?_⟩
  · have low : pg.getLsbD 3 = false := by
      rw [BitVec.getLsbD, Nat.testBit_eq_decide_div_mod_eq]
      simp only [decide_eq_false_iff_not]
      omega
    rw [Thread.guard, low, if_neg Bool.false_ne_true]
  · have high : pg.getLsbD 3 = true := by
      rw [BitVec.getLsbD, Nat.testBit_eq_decide_div_mod_eq]
      simp only [decide_eq_true_eq]
      have := pg.isLt
      omega
    rw [Thread.guard, high, if_pos rfl]

theorem guardedOff : GuardedOff := by
  intro i h s c hi hcur hr hpg hact
  obtain ⟨t, ht, hw⟩ := exec_wordOf hi s
  rw [ht, State.wordOf_guarded_off hw hcur hr hpg hact]

theorem reservedGuard : ReservedGuard := by
  intro i h s c hi hcur hr hpg
  obtain ⟨t, ht, hw⟩ := exec_wordOf hi s
  rw [ht, State.wordOf_reserved hw hcur hr hpg]

end Sys2Proof.Machine

namespace Sys2Proof

open Machine

/-- Settles O8: every full-form word takes the course of one word, whose effect on no lane is nothing; the reserved guard's decode traps leave no lane. -/
theorem guardField : Obligations.GuardField := ⟨guardValues, guardedOff, reservedGuard⟩

end Sys2Proof

/-! ### The pair form -/

namespace Sys2Proof.Machine

/-- The header of a full-form word that issues as a pair-form word does: no GAP, and unguarded or under p1 (R35). -/
def pairHdr (o : PairF) : Hdr := { marker := o.marker, gap := 0, gw := o.gw, pg := if o.ps then 1 else 0 }

theorem pairGuard_eq (o : PairF) : pairGuard o.ps = fun th => th.guard (pairHdr o).pg := by
  funext th
  cases hps : o.ps <;> simp [pairGuard, pairHdr, hps, Thread.guard, Thread.pred]

/-! #### A word whose lanes meet nothing -/

theorem ite_some_eq_none_iff {p : Prop} [Decidable p] {a : Nat} {e : Option Nat} : (if p then some a else e) = none ↔ ¬p ∧ e = none := by
  split_ifs with hp <;> simp [hp]

theorem Checks.decodeTrap_eq_none_iff {k : Checks} {s : State} {t : Tid} {handler : Bool} {budget : Nat} :
    k.decodeTrap s t handler budget = none ↔
      k.illOp s t = false ∧ k.illPair = false ∧ k.illReg s t = false ∧ k.ops.any (fun o => o.illegal handler) = false ∧
        k.ops.any (fun o => o.overBudget budget) = false ∧ k.illOrder = false := by
  simp only [Checks.decodeTrap, ite_some_eq_none_iff, Bool.not_eq_true, Bool.or_eq_false_iff, and_assoc, and_true]

/-- A lane without a decode trap has its records, no illegal pairing, and operands that are legal and within its budget. -/
theorem State.untrapped_ops {s : State} {k : Checks} {t : Tid} (hu : s.untrapped k t = true) :
    ∃ th tm g, s.thread? t = some th ∧ s.team? t.team = some tm ∧ s.group? t = some g ∧ k.illPair = false ∧
      ∀ o ∈ k.ops, o.illegal th.handler = false ∧ o.overBudget ((s.descOf tm).budget g) = false := by
  unfold State.untrapped at hu
  split at hu
  case h_2 => cases hu
  case h_1 th tm g h1 h2 h3 =>
    obtain ⟨-, hpair, -, hreg, hbudget, -⟩ := Checks.decodeTrap_eq_none_iff.1 (of_decide_eq_true hu)
    exact ⟨th, tm, g, h1, h2, h3, hpair, fun o ho => ⟨by simpa using List.any_eq_false.1 hreg o ho, by simpa using List.any_eq_false.1 hbudget o ho⟩⟩

/-- The course of a word that acts lane by lane, and whose lanes meet no trap and no wait. -/
theorem State.course_entered {s : State} {c : Cur} {h : Hdr} {ops : List Opd} {illPair : Bool} {effect : List Tid → State → Option State}
    (hcur : s.cur = some c) (hr : c.retry = false) (hu : ∀ t ∈ s.actives c h, (s.begun c h).untrapped { illPair := illPair, ops := ops } t = true)
    (hm : ∀ t ∈ s.actives c h, (s.entered c h ops).meet t ops = .go) :
    s.course h.marker h.gw (gapCycles h.gap) (fun th => th.guard h.pg) { illPair := illPair, ops := ops } false effect =
      match effect (s.actives c h) (s.entered c h ops) with
      | some t => t.wordEnd h c
      | none => s.holdWord (s.curIn c h) := by
  have traps := State.decodeTraps_none { illPair := illPair, ops := ops } _ _ hu
  have waits := State.letAll_go (s.entered c h ops) { illPair := illPair, ops := ops } false (s.actives c h) hm nofun
  unfold State.entered State.begun State.curIn State.actives at *
  simp only [State.course, hcur, hr, Cur.withSet_retry, Bool.false_eq_true, if_false, traps, waits, Bool.false_and]
  rfl

/-! #### The slots -/

/-- A slot's write: its value to its destination, unless it is NOOP. -/
def State.writeSlot (s : State) (t : Tid) (x : Slot) (v : Word) : State := if Slot.live x then (s.result t false x.d [v]).1 else s

theorem State.writeSlot_noop {s : State} {t : Tid} {x : Slot} {v : Word} (hx : Slot.live x = false) : s.writeSlot t x v = s := by
  rw [State.writeSlot, hx, if_neg Bool.false_ne_true]

/-- A live slot that names a V register writes it. -/
theorem State.writeSlot_live {s : State} {t : Tid} {x : Slot} {v : Word} {i : Fin 1536} (hx : Slot.live x = true) (hd : x.d = .v i) :
    s.writeSlot t x v = s.writeRegs t (destRegs true x.d 0 [v]) := by
  rw [State.writeSlot, hx, if_pos rfl, hd]
  rfl

/-- A slot that may be written: NOOP, or one whose destination is a V register in the lane's window. -/
def State.slotOk (s : State) (t : Tid) (x : Slot) : Prop := Slot.live x = true → (∃ i, x.d = .v i) ∧ s.destOk t x.d 1

theorem State.slotOk_same {s s' : State} {t : Tid} {x : Slot} (h : s.sameBeyond s') (hx : s.slotOk t x) : s'.slotOk t x :=
  fun hl => ⟨(hx hl).1, State.destOk_same h (hx hl).2⟩

theorem State.writeSlot_same {s : State} {t : Tid} {x : Slot} (v : Word) (hx : s.slotOk t x) : s.sameBeyond (s.writeSlot t x v) := by
  cases hl : Slot.live x with
  | false => rw [State.writeSlot_noop hl]; exact s.sameBeyond_refl
  | true =>
    obtain ⟨⟨i, hd⟩, -⟩ := hx hl
    rw [State.writeSlot_live hl hd]
    exact s.writeRegs_same t _

theorem State.writeSlot_onlyLongs {s : State} {t : Tid} {x : Slot} (v : Word) (hx : s.slotOk t x) (u : Tid) : s.onlyLongs (s.writeSlot t x v) u := by
  cases hl : Slot.live x with
  | false => rw [State.writeSlot_noop hl]; exact State.onlyLongs_of_eq rfl
  | true =>
    obtain ⟨⟨i, hd⟩, -⟩ := hx hl
    rw [State.writeSlot_live hl hd]
    exact s.writeRegs_onlyLongs t _ u

/-- A live slot's destination holds its value. -/
theorem State.writeSlot_self {s : State} {t : Tid} {x : Slot} {v : Word} (hx : s.slotOk t x) (hl : Slot.live x = true) :
    (s.writeSlot t x v).regVal t x.d 0 = v := by
  obtain ⟨⟨i, hd⟩, hok⟩ := hx hl
  rw [State.writeSlot_live hl hd]
  exact (s.writeDest t x.d 0 [v] hok).1 0 Nat.one_pos

/-- A slot leaves every register alone that is not its destination. -/
theorem State.writeSlot_other {s : State} {t : Tid} {x : Slot} {v : Word} (hx : s.slotOk t x) {u : Tid} {r : Reg} {j : Nat} (hr : s.readable u r j)
    (hd : Slot.live x = true → isDest t x.d 1 u r j = false) : (s.writeSlot t x v).regVal u r j = s.regVal u r j := by
  cases hl : Slot.live x with
  | false => rw [State.writeSlot_noop hl]
  | true =>
    obtain ⟨⟨i, hxd⟩, hok⟩ := hx hl
    rw [State.writeSlot_live hl hxd]
    exact (s.writeDest t x.d 0 [v] hok).2.1 u r j hr (hd hl)

/-- The banks of a live slot begin with its destination's. -/
theorem slotBanks_head {x : Slot} {i : Fin 1536} (hl : Slot.live x = true) (hd : x.d = .v i) : (slotBanks x).head? = some (i.val % 8) := by
  rw [slotBanks, hl, hd]
  rfl

/-- A legal slot that is not NOOP writes a V register. -/
theorem slotFiles_v {x : Slot} (hf : slotFiles x = true) (hl : Slot.live x = true) : ∃ i, x.d = .v i := by
  rw [slotFiles, hl] at hf
  cases hd : x.d with
  | v i => exact ⟨i, rfl⟩
  | _ => rw [hd] at hf; exact absurd hf Bool.false_ne_true

/-- Two live slots of a legal pair write registers in different banks (R38), so neither writes the other's. -/
theorem pairLegal_apart {o : PairF} (ho : pairLegal o = true) (ha : Slot.live o.a = true) (hb : Slot.live o.b = true) (t : Tid) :
    isDest t o.b.d 1 t o.a.d 0 = false := by
  simp only [pairLegal, ha, hb, Bool.and_eq_true, Bool.true_and, Bool.not_eq_true', decide_eq_false_iff_not] at ho
  obtain ⟨⟨⟨hfa, hfb⟩, hbank⟩, -⟩ := ho
  obtain ⟨i, hi⟩ := slotFiles_v hfa ha
  obtain ⟨j, hj⟩ := slotFiles_v hfb hb
  rw [slotBanks_head ha hi, slotBanks_head hb hj] at hbank
  rw [hi, hj]
  simp only [isDest, decide_eq_false_iff_not]
  rintro ⟨-, h1, h2⟩
  exact hbank (by rw [show i.val = j.val by omega])

/-! #### The word -/

/-- What a slot computes of the values at a state. -/
def State.slotResult (s : State) (t : Tid) (x : Slot) : Word :=
  BitVec.ofNat 32 (slotValue x.op (s.regVal t x.d 0).toNat (s.regVal t x.s 0).toNat)

/-- What a pair-form word does to one lane: both results are of the state before either is written. -/
def State.writePair (s : State) (t : Tid) (o : PairF) : State := (s.writeSlot t o.a (s.slotResult t o.a)).writeSlot t o.b (s.slotResult t o.b)

/-- What a lane reads of a live slot's operands. -/
theorem State.opdVals_slotOps (s : State) (t : Tid) {x : Slot} (hl : Slot.live x = true) :
    s.opdVals t (slotOps x) = [[s.regVal t x.d 0], [s.regVal t x.s 0]] := by
  rw [slotOps, hl]
  rfl

theorem slotOps_noop {x : Slot} (hl : Slot.live x = false) : slotOps x = [] := by
  rw [slotOps, hl, if_neg Bool.false_ne_true]

/-- The effect of a pair-form word in one lane, on the values that it reads. -/
def pairLane (o : PairF) (t : Tid) (vals : List (List Word)) (s : State) : State × Option Park :=
  let k := if Slot.live o.a then 2 else 0
  ((s.writeSlot t o.a (BitVec.ofNat 32 (slotValue o.a.op (val1 vals 0).toNat (val1 vals 1).toNat))).writeSlot t o.b
    (BitVec.ofNat 32 (slotValue o.b.op (val1 vals k).toNat (val1 vals (k + 1)).toNat)), none)

theorem exec_pairWord (o : PairF) (s : State) :
    exec (.pairWord o) s = .next (s.course (pairHdr o).marker (pairHdr o).gw (gapCycles (pairHdr o).gap) (fun th => th.guard (pairHdr o).pg)
      { illPair := !pairLegal o, ops := slotOps o.a ++ slotOps o.b } false fun act s =>
        some (s.eachLane (slotOps o.a ++ slotOps o.b) (pairLane o) act)) := by
  rw [← pairGuard_eq]
  rfl

/-- One lane of a pair-form word whose operands are plain. -/
theorem State.eachLane_pair {s : State} {c : Cur} {t : Tid} {o : PairF} (hcur : s.cur = some c) (hpop : c.popped = [])
    (ht : (s.thread? t).isSome = true) (hp : s.plainAt t (slotOps o.a ++ slotOps o.b)) :
    s.eachLane (slotOps o.a ++ slotOps o.b) (pairLane o) [t] = s.writePair t o := by
  have hh : s.had t = [] := by rw [State.had, hcur]; simp only [Cur.had, hpop]; rfl
  have live : ¬(s.thread? t).isNone = true := by rw [Option.isNone_iff_eq_none]; intro e; rw [e] at ht; cases ht
  have vals : s.opdVals t (slotOps o.a ++ slotOps o.b) = s.opdVals t (slotOps o.a) ++ s.opdVals t (slotOps o.b) := List.map_append
  simp only [State.eachLane, if_neg live, hh, s.readOps_plain t _ hp, vals, State.writePair, pairLane]
  cases ha : Slot.live o.a <;> cases hb : Slot.live o.b
  · simp only [State.writeSlot_noop ha, State.writeSlot_noop hb]
  · simp only [State.writeSlot_noop ha, slotOps_noop ha, State.opdVals_slotOps s t hb]
    rfl
  · simp only [State.writeSlot_noop hb, State.opdVals_slotOps s t ha]
    rfl
  · simp only [State.opdVals_slotOps s t ha, State.opdVals_slotOps s t hb]
    rfl

/-- A slot of a legal pair may be written in a lane without a decode trap. -/
theorem State.slotOk_of_untrapped {s : State} {k : Checks} {t : Tid} {x : Slot} (hu : s.untrapped k t = true) (hlane : t.lane < 64)
    (hf : slotFiles x = true) (hops : ∀ o ∈ slotOps x, o ∈ k.ops) : s.slotOk t x := by
  intro hl
  obtain ⟨i, hd⟩ := slotFiles_v hf hl
  obtain ⟨th, tm, g, -, htm, hg, -, hall⟩ := State.untrapped_ops hu
  obtain ⟨-, hbudget⟩ := hall { Opd.upd x.d with s := false, h := false } (hops _ (by rw [slotOps, hl]; exact List.mem_cons_self))
  refine ⟨⟨i, hd⟩, hlane, by rw [hg]; rfl, ?_⟩
  rw [hd]
  refine ⟨tm, g, htm, hg, ?_⟩
  simp only [Opd.overBudget, Opd.upd, hd, decide_eq_false_iff_not] at hbudget
  omega

/-- What the two slots write, and what they leave alone. -/
theorem State.writePair_spec {s : State} {t : Tid} {o : PairF} (ho : pairLegal o = true) (ha : s.slotOk t o.a) (hb : s.slotOk t o.b) :
    s.sameBeyond (s.writePair t o) ∧ (∀ u, s.onlyLongs (s.writePair t o) u) ∧
      (Slot.live o.a = true → (s.writePair t o).regVal t o.a.d 0 = s.slotResult t o.a) ∧
      (Slot.live o.b = true → (s.writePair t o).regVal t o.b.d 0 = s.slotResult t o.b) ∧
      (∀ u r j, s.readable u r j → (Slot.live o.a = true → isDest t o.a.d 1 u r j = false) →
        (Slot.live o.b = true → isDest t o.b.d 1 u r j = false) → (s.writePair t o).regVal u r j = s.regVal u r j) := by
  have same := State.writeSlot_same (s.slotResult t o.a) ha
  have hb' := State.slotOk_same same hb
  have readable : ∀ {u r j}, s.readable u r j → (s.writeSlot t o.a (s.slotResult t o.a)).readable u r j := fun hr =>
    hr.imp (fun e => by rw [State.sameBeyond_ownReg same]; exact e) id
  refine ⟨State.sameBeyond_trans same (State.writeSlot_same _ hb'), fun u => onlyLongs_trans (State.writeSlot_onlyLongs _ ha u) (State.writeSlot_onlyLongs _ hb' u),
    fun hl => ?_, fun hl => State.writeSlot_self hb' hl, fun u r j hr hda hdb => ?_⟩
  · have own : s.readable t o.a.d 0 := .inl (State.destOk_own (ha hl).2 0 Nat.one_pos)
    rw [State.writePair, State.writeSlot_other hb' (readable own) fun hlb => pairLegal_apart ho hl hlb t, State.writeSlot_self ha hl]
  · rw [State.writePair, State.writeSlot_other hb' (readable hr) hdb, State.writeSlot_other ha hr hda]

/-- An update of outstanding results keeps predicates. -/
theorem State.onlyLongs_preds {s u : State} {v : Tid} (h : s.onlyLongs u v) :
    ((u.thread? v).map fun th => th.preds) = (s.thread? v).map fun th => th.preds := by
  obtain ⟨ls, e⟩ := h
  rw [e, Option.map_map]
  rfl

/-- Issue keeps predicates. -/
theorem State.entered_preds (s : State) (c : Cur) (h : Hdr) (ops : List Opd) (v : Tid) :
    (((s.entered c h ops).thread? v).map fun th => th.preds) = (s.thread? v).map fun th => th.preds := by
  rw [State.entered_thread]
  split
  · rw [Option.map_map]
    rfl
  · rfl

end Sys2Proof.Machine

namespace Sys2Proof

open Machine

/-- Settles O50: a pair-form word takes the course of a full-form word without GAP; in its one lane it reads both slots' operands at the state that it enters, and the two slots write registers in different banks. -/
theorem pairWords : Obligations.PairWords := by
  intro o s c t ops e value hcur hr hpop hok hact hu hm hp
  have acts : s.actives c (pairHdr o) = [t] := by rw [State.actives, ← pairGuard_eq]; exact hact
  have begun : s.begun c (pairHdr o) = e := by rw [State.begun, State.curIn, acts]; rfl
  have entered : s.entered c (pairHdr o) ops = e.countUniform (c.withSet [t]) ops [t] := by rw [State.entered, begun, State.curIn, acts]
  have same := s.entered_same c (pairHdr o) ops
  have from_begun := s.begun_entered c (pairHdr o) ops
  obtain ⟨th, tm, g, hth, -, -, hlegal, -⟩ := State.untrapped_ops hu
  have legal : pairLegal o = true := by simpa using hlegal
  have lane : t.lane < 64 := (Cur.ok_lane hok (State.actives_mem (acts ▸ List.mem_singleton_self t))).2
  have files : slotFiles o.a = true ∧ slotFiles o.b = true := by
    simp only [pairLegal, Bool.and_eq_true] at legal
    exact legal.1.1
  have ha := State.slotOk_same from_begun (begun ▸ State.slotOk_of_untrapped hu lane files.1 fun x hx => List.mem_append_left _ hx)
  have hb := State.slotOk_same from_begun (begun ▸ State.slotOk_of_untrapped hu lane files.2 fun x hx => List.mem_append_right _ hx)
  have results : ∀ x, (s.entered c (pairHdr o) ops).slotResult t x = value x := fun x => by
    rw [State.slotResult, State.entered_regVal hcur, State.entered_regVal hcur]
  have live : ∀ {x : Slot}, x.op ≠ .noop ↔ Slot.live x = true := decide_eq_true_iff.symm
  obtain ⟨hsame, hlongs, hva, hvb, hrest⟩ := State.writePair_spec legal ha hb
  refine ⟨(s.entered c (pairHdr o) ops).writePair t o, ?_, State.sameBeyond_mem (State.sameBeyond_trans same hsame), State.sameBeyond_trans same hsame,
    fun v => (State.onlyLongs_preds (hlongs v)).trans (s.entered_preds c _ ops v), fun hl => (hva (live.1 hl)).trans (results _),
    fun hl => (hvb (live.1 hl)).trans (results _), fun v r j hr hda hdb => ?_⟩
  · have thread : (s.entered c (pairHdr o) ops).thread? t = some th := by rw [State.entered_issued, ← State.begun_thread, begun, hth]
    have plain := State.entered_plainAt hcur (ops' := ops) (acts ▸ hp) (acts ▸ List.mem_singleton_self t)
    have untrapped : ∀ u ∈ s.actives c (pairHdr o), (s.begun c (pairHdr o)).untrapped { illPair := !pairLegal o, ops := ops } u = true := by
      rw [acts, begun]; exact List.forall_mem_singleton.2 hu
    have meets : ∀ u ∈ s.actives c (pairHdr o), (s.entered c (pairHdr o) ops).meet u ops = .go := by
      rw [acts, entered]; exact List.forall_mem_singleton.2 hm
    rw [exec_pairWord, State.course_entered hcur hr untrapped meets, acts]
    simp only [State.eachLane_pair (s.entered_cur c (pairHdr o) ops) hpop (by rw [thread]; rfl) plain]
    rfl
  · rw [hrest v r j (hr.imp (fun e => by rw [State.sameBeyond_ownReg same]; exact e) id) (fun hl => hda (live.2 hl)) fun hl => hdb (live.2 hl),
      State.entered_regVal hcur]

end Sys2Proof

/-! ### Entering the handler -/

namespace Sys2Proof.Machine

/-! #### What no word of a thread changes in a team: its place and its groups' frames -/

/-- A group without its registers and its threads. -/
def Group.bare (g : Group) : Group := { g with sregs := [], hregs := [], threads := [] }

/-- A team without its pool, its registers and its threads. -/
def Team.bare (t : Team) : Team := { t with pool := [], groups := t.groups.map Group.bare }

/-- Two states whose teams differ in pools, registers and threads alone, with the same memory, contexts and reserve segments. -/
def State.sameBare (s t : State) : Prop :=
  t.teams.map Team.bare = s.teams.map Team.bare ∧ t.mem = s.mem ∧ t.contexts = s.contexts ∧ t.reserves = s.reserves

theorem Team.bare_still (t : Team) : t.still.bare = t.bare := by
  simp only [Team.bare, Team.still, List.map_map]
  rfl

theorem State.sameBare_of_sameBeyond {s t : State} (h : s.sameBeyond t) : s.sameBare t := by
  obtain ⟨teams, rest⟩ := h
  have bare : ∀ ts : List Team, ts.map Team.bare = (ts.map Team.still).map Team.bare := fun ts => by
    rw [List.map_map]; exact List.map_congr_left fun x _ => (Team.bare_still x).symm
  have mem := congrArg State.mem rest
  have contexts := congrArg State.contexts rest
  have reserves := congrArg State.reserves rest
  exact ⟨by rw [bare, bare s.teams, teams], mem, contexts, reserves⟩

theorem State.sameBare_updThread (s : State) (t : Tid) (f : Thread → Thread) : s.sameBare (s.updThread t f) := by
  refine ⟨?_, rfl, rfl, rfl⟩
  have groups : ∀ g : Group, (g.updThread t.lane f).bare = g.bare := fun _ => rfl
  have team : ∀ x : Team, (x.updGroup t.group fun g => g.updThread t.lane f).bare = x.bare := fun x => by
    simp only [Team.bare, Team.updGroup, updWhere, List.map_map]
    congr 1
    refine List.map_congr_left fun g _ => ?_
    simp only [Function.comp]
    split
    · exact groups g
    · rfl
  simp only [State.updThread, State.updGroup, State.updTeam, updWhere, List.map_map]
  refine List.map_congr_left fun x _ => ?_
  simp only [Function.comp]
  split
  · exact team x
  · rfl

theorem State.sameBare_team {s t : State} (h : s.sameBare t) {k : Nat} {x : Team} (hx : s.team? k = some x) :
    ∃ y, t.team? k = some y ∧ y.bare = x.bare := by
  have find : ∀ u : State, (u.team? k).map Team.bare = (u.teams.map Team.bare).find? fun x => decide (x.key = k) := fun u => by
    rw [List.find?_map]; rfl
  have e : (t.team? k).map Team.bare = some x.bare := by rw [find, h.1, ← find, hx]; rfl
  exact Option.map_eq_some_iff.1 e

theorem State.sameBare_group {s t : State} (h : s.sameBare t) {u : Tid} {x : Group} (hx : s.group? u = some x) :
    ∃ y, t.group? u = some y ∧ y.bare = x.bare := by
  have find : ∀ tm : Team, (tm.group? u.group).map Group.bare = (tm.groups.map Group.bare).find? fun g => decide (g.num = u.group) := fun tm => by
    rw [List.find?_map]; rfl
  obtain ⟨tm, htm, hg⟩ := Option.bind_eq_some_iff.1 hx
  obtain ⟨tm', htm', e⟩ := State.sameBare_team h htm
  have groups : tm'.groups.map Group.bare = tm.groups.map Group.bare := congrArg Team.groups e
  have : (tm'.group? u.group).map Group.bare = some x.bare := by rw [find, groups, ← find, hg]; rfl
  obtain ⟨g', hg', eg⟩ := Option.map_eq_some_iff.1 this
  exact ⟨g', by rw [State.group?, htm']; exact hg', eg⟩

/-- The frames that a segment holds stand in what is left of a team. -/
theorem State.framesIn_bare (s : State) (r : RSeg) :
    s.framesIn r = (s.teams.map Team.bare).flatMap fun t => t.groups.filterMap fun g =>
      match g.frame with
      | some (id, slot) => if id = r.id then some (t.key, g.num, slot) else none
      | none => none := by
  rw [List.flatMap_map]
  refine List.flatMap_congr fun t _ => ?_
  show _ = (t.groups.map Group.bare).filterMap _
  rw [List.filterMap_map]
  rfl

theorem State.sameBare_freeFrame {s t : State} (h : s.sameBare t) (core ctx : Nat) (missing : Bool) :
    t.freeFrame core ctx missing = s.freeFrame core ctx missing := by
  have frames : t.framesIn = s.framesIn := funext fun r => by rw [t.framesIn_bare, s.framesIn_bare, h.1]
  have slots : t.freeSlots = s.freeSlots := funext fun r => by rw [State.freeSlots, frames]; rfl
  rw [State.freeFrame, State.freeFrame, slots, State.reservesOf, State.reservesOf, h.2.2.2]

theorem State.sameBare_reserveMissing {s t : State} (h : s.sameBare t) (id : Nat) : t.reserveMissing id = s.reserveMissing id := by
  rw [State.reserveMissing, State.reserveMissing, h.2.2.2]

/-- A frame that is in its place can be had for a group: its own, or a free one. -/
def State.frameReady (s : State) (tm : Team) (g : Group) : Prop :=
  match g.frame with
  | some f => s.reserveMissing f.1 = false
  | none => (s.freeFrame tm.core tm.ctx false).isSome = true

theorem State.sameBare_frameReady {s t : State} (h : s.sameBare t) {x y : Team} {g k : Group} (hx : y.bare = x.bare) (hg : k.bare = g.bare)
    (hf : s.frameReady x g) : t.frameReady y k := by
  have frame : k.frame = g.frame := (congrArg Group.frame hg :)
  have core : y.core = x.core := (congrArg Team.core hx :)
  have ctx : y.ctx = x.ctx := (congrArg Team.ctx hx :)
  unfold State.frameReady at *
  rw [frame, core, ctx, State.sameBare_freeFrame h]
  split at hf
  · rename_i f e
    rw [State.sameBare_reserveMissing h]
    exact hf
  · exact hf

/-- Where a frame is ready, no entry waits for a missing segment. -/
theorem State.entryTouch_ready {s : State} {tm : Team} {g : Group} (hf : s.frameReady tm g) : s.entryTouch tm g = none := by
  unfold State.frameReady at hf
  unfold State.entryTouch
  split at hf <;> simp_all

/-! #### The handler's registers -/

theorem Mem.w32_clearLane (m : Mem) (lane : Nat) {i : Nat} (hi : i < 32) : Mem.w32 (clearLane m lane) (256 * i + 4 * lane) = 0 := by
  have zeroed : ∀ (is : List Nat) (m : Mem), i ∈ is ∨ Mem.w32 m (256 * i + 4 * lane) = 0 →
      Mem.w32 (is.foldl (fun m j => Mem.setW32 m (256 * j + 4 * lane) 0) m) (256 * i + 4 * lane) = 0 := by
    intro is
    induction is with
    | nil => exact fun m h => h.resolve_left (List.not_mem_nil)
    | cons j is ih =>
      intro m h
      refine ih _ ?_
      by_cases hij : i = j
      · exact .inr (by rw [hij, Mem.w32_setW32_same])
      · exact h.imp (fun e => (List.mem_cons.1 e).resolve_left hij) fun e => by rw [Mem.w32_setW32_other _ _ _ _ (by omega), e]
  exact zeroed _ m (.inl (List.mem_range.2 hi))

/-- Unmarking a lane's words changes the marks alone. -/
theorem State.unmarkLane_eq (s : State) (g : Option Group) (lane : Nat) : ∃ fs, s.unmarkLane g lane = { s with frameUe := fs } := by
  have key : ∀ (is : List Nat) (fs : List (Nat × Nat)), ∃ fs',
      is.foldl (fun s i => s.unmarkFrame (g.bind fun g => g.frameAt lane i)) ({ s with frameUe := fs } : State) = { s with frameUe := fs' } := by
    intro is
    induction is with
    | nil => exact fun fs => ⟨fs, rfl⟩
    | cons i is ih => exact fun fs => ih _
  exact key _ s.frameUe

/-! #### Entry -/

/-- A lane whose handler registers have been cleared reads 0 from each. -/
theorem State.regVal_clearLane {s : State} {t : Tid} (hg : (s.group? t).isSome = true) (n : Fin 32) :
    (s.updGroup t fun g => { g with hregs := clearLane g.hregs t.lane }).regVal t (.h n) 0 = 0 := by
  obtain ⟨g, hg⟩ := Option.isSome_iff_exists.1 hg
  obtain ⟨tm, htm, -⟩ := Option.bind_eq_some_iff.1 hg
  have group := State.group?_updGroup_same s t t (fun g => { g with hregs := clearLane g.hregs t.lane }) (fun _ => rfl) rfl rfl
  have team := State.team?_updGroup s t t.team fun g => { g with hregs := clearLane g.hregs t.lane }
  rw [hg, Option.map_some] at group
  rw [htm, if_pos rfl, Option.map_some] at team
  simp only [State.regVal, group, team, State.regOf, Nat.add_zero]
  exact Mem.w32_clearLane g.hregs t.lane n.isLt

/-- An update of a group that keeps its threads. -/
theorem State.thread?_updGroup_keep {s : State} {t : Tid} (f : Group → Group) (hn : ∀ g, (f g).num = g.num) (hf : ∀ g, (f g).threads = g.threads) :
    (s.updGroup t f).thread? t = s.thread? t := by
  rw [State.thread?, State.thread?, State.group?_updGroup_same s t t f hn rfl rfl]
  cases s.group? t with
  | none => rfl
  | some g => simp only [Option.map_some, Option.bind_some, Group.thread?, hf]

/-- A thread's record once it has entered its handler (R355). -/
def Thread.inHandler (th : Thread) (f : FaultInfo) (entry : DWord) (now : Nat) : Thread :=
  { th with frec := some { info := f, preds := th.preds ||| 1, pending := th.afaults.length }, handler := true, pc := entry,
            parks := [], pend := none, waking := false, held := false, stamp := now }

/-- Of the state and the record before entry, memory, the predicates and the faults still pending are said alone. -/
theorem EntersHandler.of {s s' : State} {t : Tid} {th th' : Thread} {entry : DWord} {f : FaultInfo} {u : State} (h : EntersHandler s' t th' entry f u)
    (hm : s'.mem = s.mem) (hp : th'.preds = th.preds) (ha : th'.afaults = th.afaults) : EntersHandler s t th entry f u := by
  obtain ⟨mem, regs, y, hy, mode, pc, parks, preds, frec⟩ := h
  exact ⟨mem.trans hm, regs, y, hy, mode, pc, parks, preds.trans hp, by rw [frec, hp, ha]⟩

/-- With a frame in hand, a thread is in its handler. -/
theorem State.enterWith_enters {s : State} {t : Tid} {th : Thread} (ht : s.thread? t = some th) (f : FaultInfo) (entry : DWord) :
    EntersHandler s t th entry f (s.enterWith t f entry) := by
  obtain ⟨g, hg, -⟩ := Option.bind_eq_some_iff.1 ht
  obtain ⟨fs, e⟩ := s.unmarkLane_eq (s.group? t) t.lane
  rw [State.enterWith, e]
  have group : (({ s with frameUe := fs } : State).group? t).isSome = true := Option.isSome_iff_exists.2 ⟨g, hg⟩
  have cleared := State.regVal_clearLane group
  have thread := (State.thread?_updGroup_keep (s := { s with frameUe := fs }) (t := t) (fun g => { g with hregs := clearLane g.hregs t.lane })
    (fun _ => rfl) fun _ => rfl).trans ht
  refine ⟨rfl, fun n => (State.regVal_updThread _ _ _ _ _ _).trans (cleared n), th.inHandler f entry s.clk.acycle, ?_, rfl, rfl, rfl, rfl, rfl⟩
  exact (State.thread?_updThread_same _ t (fun th => th.inHandler f entry s.clk.acycle) fun _ => rfl).trans (congrArg (Option.map _) thread)

theorem State.takeFrame_free {s : State} {core ctx : Nat} {fr : Nat × Nat} (h : s.freeFrame core ctx false = some fr) :
    s.takeFrame core ctx = (some fr, s) := by
  rw [State.takeFrame, h]

/-- A thread that waits for nothing but its entry, with a frame ready, enters. -/
theorem State.tryEnter_enters {s : State} {t : Tid} {th : Thread} {tm : Team} {g : Group} {cx : Ctx} {f : FaultInfo} (ht : s.thread? t = some th)
    (htm : s.team? t.team = some tm) (hg : s.group? t = some g) (hcx : s.ctx? tm.ctx = some cx) (hentry : cx.hentry ≠ 0)
    (hparks : th.parks = [.entry f]) (hlongs : th.longs = []) (hf : s.frameReady tm g) : EntersHandler s t th cx.hentry f (s.tryEnter t) := by
  simp only [State.tryEnter, ht, htm, hg, hparks, List.findSome?_cons, hlongs, State.entryTouch_ready hf, hcx, hentry, ne_eq, not_true_eq_false,
    Option.isSome_none, Bool.false_eq_true, or_self, if_false]
  unfold State.frameReady at hf
  cases hfr : g.frame with
  | some fr => exact State.enterWith_enters ht f cx.hentry
  | none =>
    rw [hfr] at hf
    obtain ⟨fr, hfree⟩ := Option.isSome_iff_exists.1 hf
    simp only [State.takeFrame_free hfree, Option.isSome_none, Bool.false_eq_true, if_false]
    have thread := (State.thread?_updGroup_keep (s := s.unmarkSlot fr) (t := t) (fun g => { g with frame := some fr, hregs := [] })
      (fun _ => rfl) fun _ => rfl).trans ht
    exact (State.enterWith_enters thread f cx.hentry).of rfl rfl rfl

/-- A fault of a thread outside handler mode with nothing outstanding, in a context with a handler and a frame ready, enters the handler. -/
theorem State.takeFault_enters {s : State} {t : Tid} {th : Thread} {tm : Team} {g : Group} {cx : Ctx} (f : FaultInfo) (ht : s.thread? t = some th)
    (htm : s.team? t.team = some tm) (hg : s.group? t = some g) (hcx : s.ctx? tm.ctx = some cx) (hentry : cx.hentry ≠ 0)
    (hmode : th.handler = false) (hlongs : th.longs = []) (hf : s.frameReady tm g) : EntersHandler s t th cx.hentry f (s.takeFault t f) := by
  have bare := s.sameBare_updThread t fun th => { th with pc := f.rpc, parks := [.entry f], pend := none, waking := false, held := false }
  obtain ⟨tm', htm', etm⟩ := State.sameBare_team bare htm
  obtain ⟨g', hg', eg⟩ := State.sameBare_group bare hg
  have thread := State.thread?_updThread_same s t (fun th => { th with pc := f.rpc, parks := [.entry f], pend := none, waking := false, held := false })
    fun _ => rfl
  rw [ht, Option.map_some] at thread
  have ctx : tm'.ctx = tm.ctx := (congrArg Team.ctx etm :)
  simp only [State.takeFault, ht, htm, hcx, hmode, hentry, Bool.false_eq_true, if_false]
  exact (State.tryEnter_enters thread htm' hg' (by rw [ctx]; exact hcx) hentry rfl hlongs (State.sameBare_frameReady bare etm eg hf)).of rfl rfl rfl

/-! #### The words -/

/-- What the start of a word leaves of the conditions of an entry. -/
theorem State.takeFault_enters_later {s e : State} {t : Tid} {th th' : Thread} {tm : Team} {g : Group} {cx : Ctx} (f : FaultInfo)
    (same : s.sameBeyond e) (hth : e.thread? t = some th') (htm : s.team? t.team = some tm) (hg : s.group? t = some g)
    (hcx : s.ctx? tm.ctx = some cx) (hentry : cx.hentry ≠ 0) (hmode : th'.handler = false) (hlongs : th'.longs = []) (hf : s.frameReady tm g)
    (hpreds : th'.preds = th.preds) (hpending : th'.afaults = th.afaults) : EntersHandler s t th cx.hentry f (e.takeFault t f) := by
  have bare := State.sameBare_of_sameBeyond same
  obtain ⟨tm', htm', etm⟩ := State.sameBare_team bare htm
  obtain ⟨g', hg', eg⟩ := State.sameBare_group bare hg
  have ctx : tm'.ctx = tm.ctx := (congrArg Team.ctx etm :)
  have hcx' : e.ctx? tm'.ctx = some cx := by rw [State.ctx?, bare.2.2.1, ctx]; exact hcx
  exact (State.takeFault_enters f hth htm' hg' hcx' hentry hmode hlongs (State.sameBare_frameReady bare etm eg hf)).of bare.2.1 hpreds hpending

/-- A thread of the set has advanced. -/
theorem State.issuedThread_mem {s : State} {c : Cur} {h : Hdr} {t : Tid} {th : Thread} (ht : t ∈ c.lanes) (hth : s.thread? t = some th) :
    s.issuedThread c h t = some (th.advance c.pc s.clk.acycle (gapCycles h.gap) h.gw) := by
  rw [State.issuedThread, if_pos ht, hth, Option.map_some]

/-- A soft fault of one lane. -/
theorem State.softFault_one {s : State} {c : Cur} {h : Hdr} {t : Tid} (hc : s.clear c h {} = true) (hact : s.actives c h = [t]) (code : Nat)
    (imm : BitVec 12) (past : Bool) :
    s.softFault h code imm past = ((s.entered c h []).takeFault t
      { code := code, fpc := c.pc, rpc := if past then c.pc + 8 else c.pc, imm := imm, word := c.word }).wordEnd h c := by
  rw [State.softFault, State.word_clear hc, hact]
  simp only [s.entered_cur c h []]
  rfl

/-- ILLEGAL_OP of one lane. -/
theorem exec_illegalOp_one {s : State} {c : Cur} {t : Tid} {w : DWord} {th : Thread} {tm : Team} {g : Group} (hcur : s.cur = some c)
    (hr : c.retry = false) (hform : w.getLsbD 63 = false) (hpg : (unpack w).hdr.pg ≠ 8) (hact : s.actives c (unpack w).hdr = [t])
    (hth : s.thread? t = some th) (htm : s.team? t.team = some tm) (hg : s.group? t = some g) :
    exec (.illegalOp w) s = .next (((s.begun c (unpack w).hdr).takeFault t
      { code := 0x01, fpc := c.pc, rpc := c.pc, word := c.word }).wordEnd (unpack w).hdr c) := by
  have same := s.begun_same c (unpack w).hdr
  obtain ⟨tm', htm', -⟩ := State.sameBare_team (State.sameBare_of_sameBeyond same) htm
  obtain ⟨g', hg', -⟩ := State.sameBare_group (State.sameBare_of_sameBeyond same) hg
  have thread := (s.begun_thread c (unpack w).hdr t).trans
    (State.issuedThread_mem (State.actives_mem (hact ▸ List.mem_singleton_self t)) hth)
  have traps : (s.begun c (unpack w).hdr).decodeTraps { illOp := fun _ _ => true } (s.actives c (unpack w).hdr) =
      ([], (s.begun c (unpack w).hdr).trap t fcIllegalOp) := by
    rw [hact]
    simp only [State.decodeTraps, thread, htm', hg']
    rfl
  show Host.Outcome.next (if w.getLsbD 63 then _ else s.word (unpack w).hdr { illOp := fun _ _ => true } fun _ s => some s) = _
  rw [hform, if_neg Bool.false_ne_true, State.word, if_neg hpg, State.course_no_lane_left hcur hr (fun _ => rfl) traps rfl]
  rfl

theorem faultEntry : FaultEntry := by
  intro h imm w s c t th tm g cx hth htm hg hcx hentry hmode hlongs hf
  refine ⟨fun hc hact => ?_, fun hcur hr _ hform hpg hact => ?_⟩
  · have thread := (s.entered_issued c h [] t).trans (State.issuedThread_mem (State.actives_mem (hact ▸ List.mem_singleton_self t)) hth)
    have enters := fun f => State.takeFault_enters_later (th := th) f (s.entered_same c h []) thread htm hg hcx hentry hmode hlongs hf rfl rfl
    exact ⟨⟨_, congrArg _ (State.softFault_one hc hact _ imm true), enters _⟩, ⟨_, congrArg _ (State.softFault_one hc hact _ imm false), enters _⟩⟩
  · have thread := (s.begun_thread c (unpack w).hdr t).trans (State.issuedThread_mem (State.actives_mem (hact ▸ List.mem_singleton_self t)) hth)
    exact ⟨_, exec_illegalOp_one hcur hr hform hpg hact hth htm hg,
      State.takeFault_enters_later _ (s.begun_same c _) thread htm hg hcx hentry hmode hlongs hf rfl rfl⟩

end Sys2Proof.Machine

/-! ### Losing a team -/

namespace Sys2Proof.Machine

/-! #### What a kill does to teams -/

/-- From one state to another, every team stands on, killed if it was and without threads if it had none, and no packet is posted or lost. -/
def State.culls (s s' : State) : Prop :=
  s'.renqs = s.renqs ∧ ∃ F : Team → Team, s'.teams = s.teams.map F ∧
    ∀ x, (F x).key = x.key ∧ (x.killed = true → (F x).killed = true) ∧ (x.allThreads = [] → (F x).allThreads = [])

theorem State.culls_refl (s : State) : s.culls s := ⟨rfl, id, (List.map_id _).symm, fun _ => ⟨rfl, id, id⟩⟩

theorem State.culls_trans {a b c : State} (h : a.culls b) (k : b.culls c) : a.culls c := by
  obtain ⟨h1, F, h2, h3⟩ := h
  obtain ⟨k1, G, k2, k3⟩ := k
  refine ⟨k1.trans h1, G ∘ F, by rw [k2, h2, List.map_map], fun x => ?_⟩
  obtain ⟨f1, f2, f3⟩ := h3 x
  obtain ⟨g1, g2, g3⟩ := k3 (F x)
  exact ⟨g1.trans f1, g2 ∘ f2, g3 ∘ f3⟩

theorem State.culls_foldl {α : Type} (f : State → α → State) (hf : ∀ s a, State.culls s (f s a)) (l : List α) (s : State) : s.culls (l.foldl f s) := by
  induction l generalizing s with
  | nil => exact s.culls_refl
  | cons a l ih => exact State.culls_trans (hf s a) (ih _)

/-- A change of neither teams nor packets. -/
theorem State.culls_of_eq {a s s' : State} (h : a.culls s) (ht : s'.teams = s.teams) (hr : s'.renqs = s.renqs) : a.culls s' :=
  State.culls_trans h ⟨hr, id, by rw [ht, List.map_id], fun _ => ⟨rfl, id, id⟩⟩

theorem State.culls_updTeam {a s : State} (h : a.culls s) {k : Nat} {f : Team → Team}
    (hf : ∀ x, (f x).key = x.key ∧ (x.killed = true → (f x).killed = true) ∧ (x.allThreads = [] → (f x).allThreads = [])) : a.culls (s.updTeam k f) := by
  refine State.culls_trans h ⟨rfl, fun x => if decide (x.key = k) then f x else x, rfl, fun x => ?_⟩
  by_cases hx : x.key = k
  · simp only [hx, decide_true, if_true]
    exact hx ▸ hf x
  · simp only [hx, decide_false, Bool.false_eq_true, if_false]
    exact ⟨trivial, id, id⟩

/-- Changing a team's threads group by group gives no thread to a team without one. -/
theorem Team.allThreads_map {x : Team} (T : List Thread → List Thread) (hT : T [] = []) (h : x.allThreads = []) :
    ({ x with groups := x.groups.map fun g => { g with threads := T g.threads } } : Team).allThreads = [] := by
  simp only [Team.allThreads, List.flatMap_eq_nil_iff, List.mem_map, forall_exists_index, and_imp, forall_apply_eq_imp_iff₂] at h ⊢
  exact fun g hg => by rw [h g hg, hT]

theorem State.culls_unhold {a s : State} (h : a.culls s) : a.culls s.unhold :=
  State.culls_trans h
    ⟨rfl, _, rfl, fun _ => ⟨rfl, id, Team.allThreads_map (fun ths => updWhere (fun th => th.held) (fun th => { th with held := false }) ths) rfl⟩⟩

theorem State.culls_wakeTeam {a s : State} (h : a.culls s) (k : Nat) (p : Park → Bool) : a.culls (s.wakeTeam k p) := by
  unfold State.wakeTeam
  split
  · exact h
  · refine State.culls_of_eq (State.culls_updTeam h ?_) rfl rfl
    exact fun _ => ⟨rfl, id, Team.allThreads_map (fun ths => ths.map fun th => th.unpark s.clk.acycle p) rfl⟩

theorem State.culls_wakeAll {a s : State} (h : a.culls s) (p : Park → Bool) : a.culls (s.wakeAll p) :=
  State.culls_trans h (State.culls_foldl (fun s (t : Team) => s.wakeTeam t.key p) (fun s t => State.culls_wakeTeam s.culls_refl t.key p) s.teams s)

theorem State.culls_arriveLine (s : State) (k l : Nat) : s.culls (s.arriveLine k l) := by
  unfold State.arriveLine
  split
  · exact s.culls_refl
  · dsimp only
    split
    · refine State.culls_unhold (State.culls_wakeTeam (State.culls_updTeam s.culls_refl fun _ => ?_) k _)
      exact ⟨rfl, id, id⟩
    · refine State.culls_unhold (State.culls_updTeam s.culls_refl fun _ => ?_)
      exact ⟨rfl, id, id⟩

theorem State.culls_arriveLines {a s : State} (h : a.culls s) (k : Nat) (lines : List Nat) : a.culls (s.arriveLines k lines) :=
  State.culls_trans h (State.culls_foldl _ (fun s l => s.culls_arriveLine k l) lines s)

theorem State.culls_wakePushers {a s : State} (h : a.culls s) (e : Engine) : a.culls (s.wakePushers e) := by
  unfold State.wakePushers
  split
  · exact h
  · refine State.culls_trans h (State.culls_foldl _ (fun s t => ?_) _ s)
    split
    · exact State.culls_wakeTeam s.culls_refl _ _
    · exact s.culls_refl

theorem State.culls_releaseLocks {a s : State} (h : a.culls s) (cmd : Nat) (all : Bool) : a.culls (s.releaseLocks cmd all) := by
  refine State.culls_unhold (State.culls_wakeAll ?_ _)
  exact State.culls_of_eq h rfl rfl

theorem State.culls_dropCmd (s : State) (c : Cmd) : s.culls (s.dropCmd c) := by
  refine State.culls_unhold (State.culls_wakePushers (State.culls_arriveLines (State.culls_releaseLocks ?_ c.id true) _ _) _)
  exact State.culls_of_eq s.culls_refl rfl rfl

/-! #### A team that is lost -/

/-- A team has been killed and has no thread left. -/
def State.lost (s : State) (k : Nat) : Prop := ∃ y, s.team? k = some y ∧ y.killed = true ∧ y.allThreads = []

theorem State.culls_team {s s' : State} (h : s.culls s') {k : Nat} {x : Team} (hx : s.team? k = some x) :
    ∃ y, s'.team? k = some y ∧ (x.killed = true → y.killed = true) ∧ (x.allThreads = [] → y.allThreads = []) := by
  obtain ⟨-, F, hF, hk⟩ := h
  refine ⟨F x, ?_, (hk x).2⟩
  have keys : (fun t : Team => decide (t.key = k)) ∘ F = fun t => decide (t.key = k) := funext fun t => by simp only [Function.comp, (hk t).1]
  rw [State.team?, hF, List.find?_map, keys, show s.teams.find? _ = some x from hx, Option.map_some]

theorem State.culls_lost {s s' : State} (h : s.culls s') {k : Nat} (hl : s.lost k) : s'.lost k := by
  obtain ⟨x, hx, killed, none⟩ := hl
  obtain ⟨y, hy, hk, ht⟩ := State.culls_team h hx
  exact ⟨y, hy, hk killed, ht none⟩

/-- A team's record once it is killed (R335). -/
def Team.dropped (t : Team) : Team :=
  { t with killed := true, waveOps := [], lsu := [], tokens := [],
           groups := t.groups.map fun g => { g with threads := [], masks := List.replicate 12 {}, frame := none, hregs := [] } }

theorem Team.dropped_threads (t : Team) : t.dropped.allThreads = [] := by
  simp [Team.allThreads, Team.dropped]

/-- Dropping a team's commands, then its threads. -/
theorem State.dropTeam_some {s : State} {k : Nat} {x : Team} (hx : s.team? k = some x) :
    ∃ u, s.culls u ∧ (u.updTeam k Team.dropped).culls (s.dropTeam k) := by
  refine ⟨(s.cmds.filter fun c => decide (c.team = k ∧ c.stage = .queued)).foldl (fun s c => s.dropCmd c) s,
    State.culls_foldl _ State.culls_dropCmd _ s, ?_⟩
  unfold State.dropTeam
  rw [hx]
  exact State.culls_of_eq (State.culls_refl _) rfl rfl

theorem State.culls_dropTeam (s : State) (k : Nat) : s.culls (s.dropTeam k) := by
  cases hx : s.team? k with
  | none => rw [State.dropTeam, hx]; exact s.culls_refl
  | some x =>
    obtain ⟨u, hu, hd⟩ := State.dropTeam_some hx
    exact State.culls_trans (State.culls_updTeam (f := Team.dropped) hu fun y => ⟨rfl, fun _ => rfl, fun _ => y.dropped_threads⟩) hd

theorem State.dropTeam_lost {s : State} {k : Nat} {x : Team} (hx : s.team? k = some x) : (s.dropTeam k).lost k := by
  obtain ⟨u, hu, hd⟩ := State.dropTeam_some hx
  obtain ⟨y, hy, -⟩ := State.culls_team hu hx
  refine State.culls_lost hd ⟨y.dropped, ?_, rfl, y.dropped_threads⟩
  rw [State.team?_updTeam_same u k Team.dropped fun _ => rfl, hy, Option.map_some]

/-- Of the teams that are dropped one after another, each is lost. -/
theorem State.dropTeams_lost {k : Nat} (l : List Team) {s : State} {x : Team} (hx : s.team? k = some x) (hk : ∃ t ∈ l, t.key = k) :
    (l.foldl (fun s x => s.dropTeam x.key) s).lost k := by
  induction l generalizing s x with
  | nil => obtain ⟨t, ht, -⟩ := hk; cases ht
  | cons t l ih =>
    rw [List.foldl_cons]
    by_cases ht : t.key = k
    · exact State.culls_lost (State.culls_foldl _ (fun s (x : Team) => s.culls_dropTeam x.key) l _) (ht ▸ State.dropTeam_lost (ht ▸ hx))
    · obtain ⟨y, hy, -⟩ := State.culls_team (s.culls_dropTeam t.key) hx
      obtain ⟨u, hu, hku⟩ := hk
      exact ih hy ⟨u, (List.mem_cons.1 hu).resolve_left fun e => ht (e ▸ hku), hku⟩

theorem State.culls_killTeam (s : State) (k code : Nat) : s.culls (s.killTeam k code) := by
  unfold State.killTeam
  split
  · exact s.culls_refl
  · exact State.culls_trans (State.culls_of_eq s.culls_refl rfl rfl) (State.culls_foldl _ (fun s (x : Team) => s.culls_dropTeam x.key) _ _)

theorem State.killTeam_lost {s : State} {k : Nat} {x : Team} (hx : s.team? k = some x) (code : Nat) : (s.killTeam k code).lost k := by
  have key : x.key = k := by simpa using List.find?_some hx
  have mem : x ∈ s.teams := List.mem_of_find?_eq_some hx
  unfold State.killTeam
  rw [hx]
  exact State.dropTeams_lost _ (x := x) hx ⟨x, List.mem_filter.2 ⟨mem, by simp⟩, key⟩

/-! #### Faults that cannot be handled -/

/-- A context without a handler loses the team (R355). -/
theorem State.takeFault_kills {s : State} {t : Tid} {th : Thread} {tm : Team} {cx : Ctx} (f : FaultInfo) (ht : s.thread? t = some th)
    (htm : s.team? t.team = some tm) (hcx : s.ctx? tm.ctx = some cx) (hmode : th.handler = false) (hentry : cx.hentry = 0) :
    s.takeFault t f = s.killTeam t.team f.code := by
  simp only [State.takeFault, ht, htm, hcx, hmode, hentry, Bool.false_eq_true, if_false, if_true]

/-- A fault in handler mode is a double fault (R359). -/
theorem State.takeFault_double {s : State} {t : Tid} {th : Thread} {tm : Team} {r : FaultRec} (f : FaultInfo) (ht : s.thread? t = some th)
    (htm : s.team? t.team = some tm) (hmode : th.handler = true) (hrec : th.frec = some r) :
    s.takeFault t f = (s.errorRecord tm fcDoubleFault r.info.code f.code f.fpc f.addr).killTeam t.team fcDoubleFault := by
  simp only [State.takeFault, ht, htm, hmode, hrec, if_true]

/-- The context error record of a kill: one packet to the error ring. -/
theorem State.errorRecord_posts {s : State} {tm : Team} {cx : Ctx} (hcx : s.ctx? tm.ctx = some cx) (kill first second : Nat) (pc addr : DWord) :
    (s.errorRecord tm kill first second pc addr).teams = s.teams ∧
    ∃ p ∈ (s.errorRecord tm kill first second pc addr).renqs, p.target = cx.erring ∧ p.words.getD 1 0 = BitVec.ofNat 32 kill ∧
      p.words.getD 2 0 = BitVec.ofNat 32 (first + 256 * second) := by
  rw [State.errorRecord, hcx]
  exact ⟨rfl, _, List.mem_append_right _ (List.mem_singleton_self _), rfl, rfl, rfl⟩

theorem faultsThatKill : FaultsThatKill := by
  intro h imm s c t th tm cx hc hact hth htm hcx
  have bare := State.sameBare_of_sameBeyond (s.entered_same c h [])
  obtain ⟨tm', htm', etm⟩ := State.sameBare_team bare htm
  have ctx : tm'.ctx = tm.ctx := (congrArg Team.ctx etm :)
  have hcx' : (s.entered c h []).ctx? tm'.ctx = some cx := by rw [State.ctx?, bare.2.2.1, ctx]; exact hcx
  have thread := (s.entered_issued c h [] t).trans (State.issuedThread_mem (State.actives_mem (hact ▸ List.mem_singleton_self t)) hth)
  have run := State.softFault_one hc hact fcSoftTrap imm true
  refine ⟨fun hmode hentry => ?_, fun r hmode hrec => ?_⟩
  · rw [State.takeFault_kills _ thread htm' hcx' hmode hentry] at run
    obtain ⟨y, hy, killed, none⟩ := State.killTeam_lost htm' fcSoftTrap
    exact ⟨_, y, congrArg _ run, hy, killed, none⟩
  · rw [State.takeFault_double _ thread htm' hmode hrec] at run
    obtain ⟨teams, p, hp, target, code, pair⟩ := State.errorRecord_posts hcx' fcDoubleFault r.info.code fcSoftTrap c.pc 0
    obtain ⟨y, hy, killed, none⟩ := State.killTeam_lost (by rw [State.team?, teams]; exact htm') fcDoubleFault
    exact ⟨_, y, p, congrArg _ run, hy, killed, none, by rw [(State.culls_killTeam _ _ _).1]; exact hp, target, code, pair⟩

end Sys2Proof.Machine

namespace Sys2Proof

open Machine

/-- Settles O45: a fault with a frame ready enters the handler at once; any other that is said here kills the team, and what a kill does to commands and waits brings no thread back. -/
theorem faults : Obligations.Faults := ⟨faultEntry, faultsThatKill⟩

end Sys2Proof

/-! ### What follows every effect -/

namespace Sys2Proof.Machine

/-! #### Reads and writes of memory keep launches, teams and releases -/

/-- From one state to another the issue set, the launches, the contexts and launches of teams, and the names and releases of contexts stand. -/
structure State.steady (s t : State) : Prop where
  cur : t.cur = s.cur
  launches : t.launches = s.launches
  teams : (t.teams.map fun x => (x.ctx, x.launch)) = s.teams.map fun x => (x.ctx, x.launch)
  contexts : (t.contexts.map fun c => (c.id, c.releasing)) = s.contexts.map fun c => (c.id, c.releasing)

theorem State.steady_refl (s : State) : s.steady s := ⟨rfl, rfl, rfl, rfl⟩

theorem State.steady_trans {a b c : State} (h : a.steady b) (k : b.steady c) : a.steady c :=
  ⟨k.cur.trans h.cur, k.launches.trans h.launches, k.teams.trans h.teams, k.contexts.trans h.contexts⟩

/-- What is steady from a state is so from one with the same issue set, launches, teams and contexts. -/
theorem State.steady.from_eq {s a t : State} (h : a.steady t) (cur : a.cur = s.cur) (launches : a.launches = s.launches) (teams : a.teams = s.teams)
    (contexts : a.contexts = s.contexts) : s.steady t :=
  ⟨h.cur.trans cur, h.launches.trans launches, h.teams.trans (congrArg _ teams), h.contexts.trans (congrArg _ contexts)⟩

theorem State.steady.to_eq {s a t : State} (h : s.steady a) (cur : t.cur = a.cur) (launches : t.launches = a.launches) (teams : t.teams = a.teams)
    (contexts : t.contexts = a.contexts) : s.steady t :=
  ⟨cur.trans h.cur, launches.trans h.launches, (congrArg _ teams).trans h.teams, (congrArg _ contexts).trans h.contexts⟩

/-- The state of a pair that is known to be steady. -/
theorem State.steady_of_eq {α : Type} {r : α × State} {a : α} {s t : State} (h : r = (a, t)) (hr : s.steady r.2) : s.steady t := by
  rw [h] at hr
  exact hr

theorem State.steady_foldl {α : Type} {f : State → α → State} (hf : ∀ s a, State.steady s (f s a)) (l : List α) (s : State) : s.steady (l.foldl f s) := by
  induction l generalizing s with
  | nil => exact s.steady_refl
  | cons a l ih => exact State.steady_trans (hf s a) (ih _)

theorem State.updTeam_steady (s : State) (k : Nat) {f : Team → Team} (hf : ∀ t, (f t).ctx = t.ctx ∧ (f t).launch = t.launch) :
    s.steady (s.updTeam k f) := by
  refine ⟨rfl, rfl, ?_, rfl⟩
  simp only [State.updTeam, updWhere, List.map_map]
  refine List.map_congr_left fun t _ => ?_
  simp only [Function.comp]
  split
  · exact Prod.ext (hf t).1 (hf t).2
  · rfl

theorem State.updCtx_steady (s : State) (k : Nat) {f : Ctx → Ctx} (hf : ∀ c, (f c).id = c.id ∧ (f c).releasing = c.releasing) :
    s.steady (s.updCtx k f) := by
  refine ⟨rfl, rfl, rfl, ?_⟩
  simp only [State.updCtx, updWhere, List.map_map]
  refine List.map_congr_left fun c _ => ?_
  simp only [Function.comp]
  split
  · rw [(hf c).1, (hf c).2]
  · rfl

theorem State.sink_steady (s : State) (ctx : Nat) : s.steady (s.sink ctx) := s.updCtx_steady ctx fun _ => ⟨rfl, rfl⟩

theorem State.wakeTeam_steady (s : State) (k : Nat) (p : Park → Bool) : s.steady (s.wakeTeam k p) := by
  unfold State.wakeTeam
  split
  · exact s.steady_refl
  · refine (s.updTeam_steady k ?_).to_eq rfl rfl rfl rfl
    exact fun _ => ⟨rfl, rfl⟩

theorem State.wakeAll_steady (s : State) (p : Park → Bool) : s.steady (s.wakeAll p) :=
  State.steady_foldl (fun s (t : Team) => s.wakeTeam_steady t.key p) s.teams s

theorem State.wakeSectors_steady (s : State) (pa n : Nat) : s.steady (s.wakeSectors pa n) := s.wakeAll_steady _

theorem State.orEntry_steady (s : State) (a b : Nat) : s.steady (s.orEntry a b) :=
  (State.wakeSectors_steady _ a 8).from_eq rfl rfl rfl rfl

theorem State.mailDram_steady (s : State) (ctx pa va pc home : Nat) : s.steady (s.mailDram ctx pa va pc home) := by
  unfold State.mailDram
  split <;> exact ⟨rfl, rfl, rfl, rfl⟩

theorem State.mailUe_steady (s : State) (ctx pa va pc home : Nat) : s.steady (s.mailUe ctx pa va pc home) := by
  unfold State.mailUe
  split
  · exact ⟨rfl, rfl, rfl, rfl⟩
  · exact (State.mailDram_steady _ ctx pa va pc home).from_eq rfl rfl rfl rfl

theorem State.mailWalk_steady (s : State) (ctx va e : Nat) : s.steady (s.mailWalk ctx va e) := by
  unfold State.mailWalk
  split
  · exact s.steady_refl
  · split
    · exact s.mailUe_steady ctx _ va 0 _
    · exact s.steady_refl

theorem State.walked_steady (s : State) (ctx va : Nat) (p : Perm) (attr : Xlat → Bool) : s.steady (s.walked ctx va p attr).2 := by
  unfold State.walked
  split
  · exact s.mailWalk_steady ctx va _
  · split
    · exact s.steady_refl
    · split
      · exact s.orEntry_steady _ 62
      · exact s.steady_refl

theorem State.setDirty_steady (s : State) (core : Option Nat) (ctx : Nat) (x : Xlat) (p : Perm) : s.steady (s.setDirty core ctx x p).2 := by
  simp only [State.setDirty]
  split
  · split
    · exact s.steady_refl
    · split
      · exact s.steady_refl
      · exact (s.orEntry_steady _ 63).to_eq rfl rfl rfl rfl
  · exact s.steady_refl

theorem State.translateWalk_steady (s : State) (ctx va : Nat) (p : Perm) (attr : Xlat → Bool) :
    s.steady (s.translateWalk ctx va p attr).2 := by
  unfold State.translateWalk
  split
  case h_1 e => exact State.steady_of_eq e (s.walked_steady ctx va p attr)
  case h_2 e => exact State.steady_trans (State.steady_of_eq e (s.walked_steady ctx va p attr)) (State.setDirty_steady _ none ctx _ p)

theorem State.remoteRead_steady (s : State) (ctx n : Nat) (m : OutMsg) : s.steady (s.remoteRead ctx n m).2 := by
  have sent : s.steady ((s.send m).sink ctx) := (State.sink_steady _ ctx).from_eq rfl rfl rfl rfl
  simp only [State.remoteRead]
  split <;> exact sent.to_eq rfl rfl rfl rfl

theorem State.uncache_steady (s : State) (leaf : DWord) (pa n : Nat) : s.steady (s.uncache leaf pa n) := by
  unfold State.uncache
  split <;> exact ⟨rfl, rfl, rfl, rfl⟩

theorem State.readPart_steady (s : State) (ctx va n : Nat) : s.steady (s.readPart ctx va n).2 := by
  have walks := s.translateWalk_steady ctx va .load (s.badRemote ctx n)
  unfold State.readPart
  split
  case h_1 e => exact State.steady_of_eq e walks
  case h_2 x u e =>
    refine State.steady_trans (State.steady_of_eq e walks) ?_
    split
    · split
      · exact u.steady_refl
      · split
        case h_1 e => exact State.steady_of_eq e (u.remoteRead_steady ctx n _)
        case h_2 e => exact State.steady_of_eq e (u.remoteRead_steady ctx n _)
    · split
      · exact u.mailUe_steady ctx _ _ 0 _
      · exact u.uncache_steady x.leaf x.pa n

theorem State.readParts_steady (s : State) (ctx : Nat) (ps : List (Nat × Nat)) : s.steady (s.readParts ctx ps).2 := by
  induction ps generalizing s with
  | nil => exact s.steady_refl
  | cons p ps ih =>
    unfold State.readParts
    split
    case h_1 e => exact State.steady_of_eq e (s.readPart_steady ctx p.1 p.2)
    case h_2 u e =>
      refine State.steady_trans (State.steady_of_eq e (s.readPart_steady ctx p.1 p.2)) ?_
      split
      case h_1 e => exact State.steady_of_eq e (ih u)
      case h_2 e => exact State.steady_of_eq e (ih u)

theorem State.readVa_steady (s : State) (ctx va n : Nat) : s.steady (s.readVa ctx va n).2 := s.readParts_steady ctx _

theorem State.readVaNat_steady (s : State) (ctx va n : Nat) : s.steady (s.readVaNat ctx va n).2 := by
  unfold State.readVaNat
  split
  case h_1 e => exact State.steady_of_eq e (s.readVa_steady ctx va n)
  case h_2 e => exact State.steady_of_eq e (s.readVa_steady ctx va n)

theorem State.noteOld_steady (s : State) (pa : Nat) (bs : List Byte) (storer : Option Tid) : s.steady (s.noteOld pa bs storer) := by
  simp only [State.noteOld]
  split <;> exact ⟨rfl, rfl, rfl, rfl⟩

theorem State.writePhys_steady (s : State) (ctx : Nat) (keep : Bool) (pa : Nat) (bs : List Byte) (storer : Option Tid) :
    s.steady (s.writePhys ctx keep pa bs storer) := by
  simp only [State.writePhys]
  split
  · exact s.steady_refl
  · refine State.steady_trans (s.sink_steady ctx) ?_
    split
    · exact State.steady_refl _
    · refine State.steady_trans ?_ (State.wakeSectors_steady _ pa bs.length)
      refine State.steady_trans (b := if keep then (s.sink ctx).noteDirty pa bs.length else (s.sink ctx).cleanSectors (pa / 32) ((pa + bs.length - 1) / 32)) ?_
        ((State.noteOld_steady _ pa bs storer).to_eq rfl rfl rfl rfl)
      split <;> exact ⟨rfl, rfl, rfl, rfl⟩

theorem State.remoteStore_steady (s : State) (ctx : Nat) (win : Window) (ra : DWord) (va : Nat) (bs : List Byte) (by_ : Writer) :
    s.steady (s.remoteStore ctx win ra va bs by_) := by
  have sunk : s.steady ((s.fresh.2.send (.remote win.qp win.rkey ra bs)).sink ctx) := (State.sink_steady _ ctx).from_eq rfl rfl rfl rfl
  exact sunk.to_eq rfl rfl rfl rfl

theorem State.writeAround_steady (s : State) (ctx : Nat) (keep : Bool) (pa : Nat) (bs : List Byte) (storer : Option Tid) :
    s.steady (s.writeAround ctx keep pa bs storer).2 := s.writePhys_steady ctx keep _ _ storer

theorem State.writePart_steady (s : State) (ctx va : Nat) (bs : List Byte) (by_ : Writer) : s.steady (s.writePart ctx va bs by_).2 := by
  have walks := s.translateWalk_steady ctx va .store (s.badRemote ctx bs.length)
  unfold State.writePart
  split
  case h_1 e => exact State.steady_of_eq e walks
  case h_2 x u e =>
    refine State.steady_trans (State.steady_of_eq e walks) ?_
    split
    · split
      · exact u.steady_refl
      · exact u.remoteStore_steady ctx _ _ va bs by_
    · have writes := u.writeAround_steady ctx (decide (leafCp x.leaf ≠ 2)) x.pa bs by_.recips.head?
      split
      case h_1 e => exact State.steady_of_eq e writes
      case h_2 e => exact State.steady_trans (State.steady_of_eq e writes) (State.mailUe_steady _ ctx _ _ 0 _)

theorem State.writeParts_steady (s : State) (ctx : Nat) (by_ : Writer) (ps : List (Nat × Nat)) (bs : List Byte) :
    s.steady (s.writeParts ctx by_ ps bs).2 := by
  induction ps generalizing s bs with
  | nil => exact s.steady_refl
  | cons p ps ih =>
    have writes := s.writePart_steady ctx p.1 (bs.take p.2) by_
    unfold State.writeParts
    split
    case h_1 e => exact State.steady_of_eq e writes
    case h_2 e => exact State.steady_trans (State.steady_of_eq e writes) (ih _ _)
    case h_3 e => exact State.steady_trans (State.steady_of_eq e writes) (ih _ _)

theorem State.writeVa_steady (s : State) (ctx va : Nat) (bs : List Byte) (by_ : Writer) : s.steady (s.writeVa ctx va bs by_).2 :=
  s.writeParts_steady ctx by_ _ bs

/-! #### Completion and acceptance keep the issue set -/

/-- The state of a pair that is known to have an issue set. -/
theorem cur_of_eq {α : Type} {r : α × State} {a : α} {s : State} {x : Option Cur} (h : r = (a, s)) (hr : r.2.cur = x) : s.cur = x := by
  rw [h] at hr
  exact hr

theorem State.foldl_cur {α : Type} {f : State → α → State} (hf : ∀ s a, (f s a).cur = s.cur) (l : List α) (s : State) :
    (l.foldl f s).cur = s.cur := by
  induction l generalizing s with
  | nil => rfl
  | cons a l ih => rw [List.foldl_cons, ih, hf]

@[simp] theorem State.writeRecord_cur (s : State) (ctx va v what : Nat) (seq : Word) : (s.writeRecord ctx va v what seq).cur = s.cur := by
  have writes := (s.writeVa_steady ctx va (leBytes 8 v) {}).cur
  unfold State.writeRecord
  split
  case h_1 e => exact cur_of_eq e writes
  case h_2 e => exact (State.mail_cur ..).trans (cur_of_eq e writes)

@[simp] theorem State.writeCompletion_cur (s : State) (ctx caddr : Nat) (cval : DWord) (first : Option Nat) (cause code : Nat) (seq : Word) :
    (s.writeCompletion ctx caddr cval first cause code seq).cur = s.cur := by
  simp only [State.writeCompletion]
  split
  · rfl
  · rw [State.writeRecord_cur, State.writeRecord_cur]

@[simp] theorem State.notices_cur (s : State) (ctx ring : Nat) (index : Word) (succs : List (Word × Nat)) (status : Nat) :
    (s.notices ctx ring index succs status).cur = s.cur := by
  unfold State.notices
  rw [(State.sink_steady _ ctx).cur]
  exact State.foldl_cur (fun _ _ => by rfl) succs s

@[simp] theorem State.originNotices_cur (s : State) (ctx : Nat) (o : Option HostOrigin) (status : Nat) : (s.originNotices ctx o status).cur = s.cur := by
  cases o with
  | none => rfl
  | some o => exact s.notices_cur ctx o.ring o.index o.succs status

@[simp] theorem State.completeLaunch_cur (s : State) (l : Launch) : (s.completeLaunch l).cur = s.cur :=
  (State.originNotices_cur _ l.ctx l.host l.status).trans (s.writeCompletion_cur ..)

@[simp] theorem State.completeDone_cur (s : State) : s.completeDone.cur = s.cur :=
  State.foldl_cur (fun s l => by split <;> simp) s.launches s

@[simp] theorem State.overlapRecord_cur (s : State) (ctx : Nat) (n r : Reservation) : (s.overlapRecord ctx n r).cur = s.cur := by
  unfold State.overlapRecord
  split <;> rfl

@[simp] theorem State.reportOverlaps_cur (s : State) (c : Ctx) (n : Reservation) : (s.reportOverlaps c n).cur = s.cur := by
  simp only [State.reportOverlaps]
  split
  · rfl
  · exact State.foldl_cur (fun s r => s.overlapRecord_cur c.id n r) _ s

@[simp] theorem State.enterLaunch_cur (s : State) (c : Ctx) (seq : Word) (bs ks : List Byte) (met : List Bool) (host : Option HostOrigin) :
    (s.enterLaunch c seq bs ks met host).cur = s.cur := by
  unfold State.enterLaunch
  rw [State.completeDone_cur]
  have sunk : ∀ u : State, (if u.launches.any fun l => decide (l.ctx = c.id) then u else u.sink c.id).cur = u.cur := fun u => by
    split <;> rfl
  exact (sunk _).trans (s.reportOverlaps_cur c _)

@[simp] theorem State.readLaunch_cur (s : State) (ctx va : Nat) : (s.readLaunch ctx va).2.cur = s.cur := by
  unfold State.readLaunch
  split
  case h_1 e => exact cur_of_eq e (s.readVa_steady ctx va 256).cur
  case h_2 bs u e =>
    have consts := (u.readVa_steady ctx (constOf bs) 256).cur.trans (cur_of_eq e (s.readVa_steady ctx va 256).cur)
    split
    case h_1 e => exact cur_of_eq e consts
    case h_2 e => split <;> exact cur_of_eq e consts

@[simp] theorem State.readDeps_cur (s : State) (ctx : Nat) (ds : List (Nat × Nat)) : (s.readDeps ctx ds).2.cur = s.cur := by
  induction ds generalizing s with
  | nil => rfl
  | cons d ds ih =>
    unfold State.readDeps
    split
    · split
      case h_1 e => exact cur_of_eq e (ih s)
      case h_2 e => exact cur_of_eq e (ih s)
    · split
      case h_1 e => exact cur_of_eq e (s.readVaNat_steady ctx d.1 8).cur
      case h_2 u e =>
        have rest := (ih u).trans (cur_of_eq e (s.readVaNat_steady ctx d.1 8).cur)
        split
        case h_1 e => exact cur_of_eq e rest
        case h_2 e => exact cur_of_eq e rest

@[simp] theorem State.refuseLaunch_cur (s : State) (ctx : Nat) (seq : Word) (d : KDesc) (code : Nat) (host : Option HostOrigin) :
    (s.refuseLaunch ctx seq d code host).cur = s.cur :=
  (State.originNotices_cur _ ctx host code).trans (s.writeCompletion_cur ..)

@[simp] theorem State.acceptLaunch_cur (s : State) (ctx va : Nat) (host : Option HostOrigin) : (s.acceptLaunch ctx va host).2.cur = s.cur := by
  simp only [State.acceptLaunch]
  split
  · rfl
  · have reads := State.readLaunch_cur (s.updCtx ctx fun c => { c with nextLaunch := c.nextLaunch + 1 }) ctx va
    split
    case h_1 e => exact (State.refuseLaunch_cur ..).trans (cur_of_eq e reads)
    case h_2 bs ks u e =>
      have deps := (u.readDeps_cur ctx (kdescOf bs).deps).trans (cur_of_eq e reads)
      split
      case h_1 e => exact (State.refuseLaunch_cur ..).trans (cur_of_eq e deps)
      case h_2 e => exact (State.enterLaunch_cur ..).trans (cur_of_eq e deps)

@[simp] theorem State.acceptReq_cur (s : State) (q : LaunchReq) : (s.acceptReq q).cur = s.cur := by
  unfold State.acceptReq
  rw [State.foldl_cur fun _ _ => by rfl]
  exact s.acceptLaunch_cur q.ctx q.va none

@[simp] theorem State.drainReqs_cur (qs : List LaunchReq) (s : State) : (State.drainReqs qs s).cur = s.cur := by
  induction qs generalizing s with
  | nil => rfl
  | cons q qs ih =>
    unfold State.drainReqs
    split
    · rw [ih, State.acceptReq_cur]
    · rw [ih]

@[simp] theorem State.drainLaunches_cur (s : State) : s.drainLaunches.cur = s.cur := by
  unfold State.drainLaunches
  split
  · rfl
  · exact State.drainReqs_cur s.launchWaits _

@[simp] theorem State.clearHeld_cur (s : State) (c : Cmd) : (s.clearHeld c).cur = s.cur := by
  unfold State.clearHeld
  split <;> rfl

@[simp] theorem State.takeHead_cur (s : State) (c : Cmd) : (s.takeHead c).cur = s.cur := by
  simp only [State.takeHead]
  split
  · rfl
  · split <;> simp

@[simp] theorem State.takeHeads_cur (s : State) : s.takeHeads.cur = s.cur := State.foldl_cur State.takeHead_cur _ s.latchLines

@[simp] theorem State.finishRelease_cur (s : State) (c : Ctx) : (s.finishRelease c).cur = s.cur := by
  unfold State.finishRelease
  split
  · rfl
  · split
    · rfl
    · exact State.foldl_cur (f := fun s r => s.dropRing r) (fun _ _ => rfl) _ s

@[simp] theorem State.finishReleases_cur (s : State) : s.finishReleases.cur = s.cur := State.foldl_cur State.finishRelease_cur s.contexts s

/-! #### The launch unit looks at its host work rings -/

theorem State.hostSlot_steady (s : State) (r : HostRing) : s.steady (s.hostSlot r).2 := by
  simp only [State.hostSlot]
  split
  · exact s.steady_refl
  · have desc := s.readVa_steady r.ctx (s.hostDesc r) 64
    split
    case h_1 e => exact State.steady_of_eq e desc
    case h_2 u e =>
      have desc := State.steady_of_eq e desc
      split
      · exact desc
      · split
        case h_1 e => exact State.steady_trans desc (State.steady_of_eq e (u.readVa_steady ..))
        case h_2 e => exact State.steady_trans desc (State.steady_of_eq e (u.readVa_steady ..))

theorem State.lookAt_steady (s : State) (r : HostRing) : s.steady (s.lookAt r) := by
  simp only [State.lookAt]
  split
  · split <;> exact ⟨rfl, rfl, rfl, rfl⟩
  case h_2 e => exact (State.steady_of_eq e (s.hostSlot_steady r)).to_eq rfl rfl rfl rfl
  · exact s.steady_refl

theorem State.lookAtRings_steady (s : State) : s.steady s.lookAtRings := State.steady_foldl State.lookAt_steady s.hostRings s

/-! #### Releases -/

/-- A context has a launch or a team. -/
def State.occupied (s : State) (ctx : Nat) : Prop := (∃ l ∈ s.launches, l.ctx = ctx) ∨ ∃ t ∈ s.teams, t.ctx = ctx

/-- Freeing rings leaves launches, teams and contexts. -/
theorem State.dropRings_keep (s : State) (rs : List Ring) :
    (rs.foldl (fun s r => s.dropRing r) s).launches = s.launches ∧ (rs.foldl (fun s r => s.dropRing r) s).teams = s.teams ∧
      (rs.foldl (fun s r => s.dropRing r) s).contexts = s.contexts := by
  induction rs generalizing s with
  | nil => exact ⟨rfl, rfl, rfl⟩
  | cons r rs ih => exact ih (s.dropRing r)

/-- A release that is asked for finishes where the context is not occupied, and the context is gone; nothing else is done to contexts, launches and teams. -/
theorem State.finishRelease_cases (s : State) (c : Ctx) :
    (s.finishRelease c).launches = s.launches ∧ (s.finishRelease c).teams = s.teams ∧
      ((c.releasing ≠ none → s.occupied c.id) ∧ (s.finishRelease c).contexts = s.contexts ∨
        (s.finishRelease c).contexts = s.contexts.filter fun x => decide (x.id ≠ c.id)) := by
  unfold State.finishRelease
  split
  case h_1 e => exact ⟨rfl, rfl, .inl ⟨fun h => absurd e h, rfl⟩⟩
  case h_2 =>
    split
    case isTrue h =>
      refine ⟨rfl, rfl, .inl ⟨fun _ => ?_, rfl⟩⟩
      simpa [State.occupied] using h
    case isFalse =>
      obtain ⟨launches, teams, contexts⟩ := s.dropRings_keep (s.rings.filter fun r => decide (r.ctx = c.id))
      exact ⟨launches, teams, .inr (congrArg _ contexts)⟩

/-- Once the releases of some contexts have been tried, those among them that are still under release are occupied. -/
theorem State.finishReleases_of (l : List Ctx) (s : State) :
    (l.foldl (fun s c => s.finishRelease c) s).launches = s.launches ∧ (l.foldl (fun s c => s.finishRelease c) s).teams = s.teams ∧
      ∀ c ∈ (l.foldl (fun s c => s.finishRelease c) s).contexts, c ∈ s.contexts ∧ (c ∈ l → c.releasing ≠ none → s.occupied c.id) := by
  induction l generalizing s with
  | nil => exact ⟨rfl, rfl, fun c hc => ⟨hc, nofun⟩⟩
  | cons a l ih =>
    obtain ⟨launches, teams, left⟩ := ih (s.finishRelease a)
    obtain ⟨launches', teams', cases⟩ := s.finishRelease_cases a
    refine ⟨launches.trans launches', teams.trans teams', fun c hc => ?_⟩
    obtain ⟨mem, later⟩ := left c hc
    rw [State.occupied, launches', teams'] at later
    rcases cases with ⟨now, contexts⟩ | contexts <;> rw [contexts] at mem
    · exact ⟨mem, fun h => (List.mem_cons.1 h).elim (fun e => e ▸ now) later⟩
    · obtain ⟨mem, apart⟩ := List.mem_filter.1 mem
      exact ⟨mem, fun h => (List.mem_cons.1 h).elim (fun e => absurd (congrArg Ctx.id e) (of_decide_eq_true apart)) later⟩

/-- Every context under release is occupied. -/
def State.releasesWait (s : State) : Prop := ∀ c ∈ s.contexts, c.releasing ≠ none → s.occupied c.id

theorem State.finishReleases_wait (s : State) : s.finishReleases.releasesWait := by
  obtain ⟨launches, teams, left⟩ := State.finishReleases_of s.contexts s
  intro c hc hr
  obtain ⟨mem, occupied⟩ := left c hc
  rw [State.occupied, State.finishReleases, launches, teams]
  exact occupied mem hr

theorem State.steady_occupied {s t : State} (h : s.steady t) {k : Nat} (ho : s.occupied k) : t.occupied k := by
  have contexts : t.teams.map Team.ctx = s.teams.map Team.ctx := by
    have pairs := congrArg (List.map Prod.fst) h.teams
    rwa [List.map_map, List.map_map] at pairs
  have teams : (∃ x ∈ t.teams, x.ctx = k) ↔ ∃ x ∈ s.teams, x.ctx = k := by
    rw [← List.mem_map, ← List.mem_map, contexts]
  rw [State.occupied, h.launches, teams]
  exact ho

theorem State.steady_releasesWait {s t : State} (h : s.steady t) (hw : s.releasesWait) : t.releasesWait := by
  intro c hc hr
  have mem : (c.id, c.releasing) ∈ s.contexts.map fun c => (c.id, c.releasing) := h.contexts ▸ List.mem_map_of_mem hc
  obtain ⟨d, hd, e⟩ := List.mem_map.1 mem
  obtain ⟨id, releasing⟩ := Prod.mk.inj e
  exact State.steady_occupied h (id ▸ hw d hd (releasing ▸ hr))

/-! #### A step -/

/-- A step that goes on ends in what follows an effect. -/
theorem step_settles {s t : State} (h : step s = .next t) : ∃ u : State, t = u.settle s := by
  unfold step at h
  split at h
  case h_1 => cases h
  case h_2 i u _ =>
    cases hx : exec i u with
    | next v => rw [hx] at h; cases h; exact ⟨v, rfl⟩
    | fault f => rw [hx] at h; cases h
    | refused r => rw [hx] at h; cases h
  case h_3 u _ => cases h; exact ⟨u, rfl⟩

theorem State.settle_cur (s old : State) : (s.settle old).cur = none := by
  rw [State.settle, (State.lookAtRings_steady _).cur]
  simp [State.dropDone, State.markParked]

theorem State.settle_releasesWait (s old : State) : (s.settle old).releasesWait :=
  State.steady_releasesWait (State.lookAtRings_steady _) (State.finishReleases_wait _)

end Sys2Proof.Machine

namespace Sys2Proof

open Machine

/-- Settles O6: none of what follows an effect draws an issue set, and the releases that it tries last leave no unoccupied context under release. -/
theorem stepSettles : Obligations.StepSettles := by
  intro s t h
  obtain ⟨u, rfl⟩ := step_settles h
  exact ⟨u.settle_cur s, u.settle_releasesWait s⟩

end Sys2Proof

/-! ### The state after reset -/

namespace Sys2Proof

open Machine

/-- Settles O7: every store, table and list that it speaks of is empty at reset. -/
theorem resetState : Obligations.ResetState :=
  ⟨rfl, rfl, rfl, rfl, rfl, rfl, rfl, ⟨rfl, List.nodup_nil, nofun⟩, rfl, rfl, rfl⟩

end Sys2Proof

/-! ### Predicates -/

namespace Sys2Proof.Machine

theorem predicateWords : PredicateWords := by
  intro h o p f
  refine ⟨predWord_comparing fun _ => rfl, ?_, predWord_comparing fun _ => rfl, predWord_comparing fun _ => rfl⟩
  exact predWord_byLane (fun _ => rfl) (fun s s' t e => by simp only [State.predOf_thread e]) fun s c h' _ => by simp only [State.entered_predOf]

/-- The one bit of a predicate among the eight. -/
theorem predBit_getLsbD (p q : BitVec 3) : ((1 : BitVec 8) <<< p.toNat).getLsbD q.toNat = decide (q = p) := by
  revert p q
  decide

theorem Thread.setPred_preds {p : BitVec 3} (hp : p ≠ 0) (th : Thread) (b : Bool) (q : BitVec 3) :
    (th.setPred p b).preds.getLsbD q.toNat = if q = p then b else th.preds.getLsbD q.toNat := by
  have inside : q.toNat < 8 := q.isLt
  rw [Thread.setPred, if_neg hp]
  cases b with
  | false =>
    simp only [Bool.false_eq_true, if_false, BitVec.getLsbD_and, BitVec.getLsbD_not, predBit_getLsbD, inside, decide_true, Bool.true_and]
    by_cases hq : q = p <;> simp [hq]
  | true =>
    simp only [if_true, BitVec.getLsbD_or, predBit_getLsbD]
    by_cases hq : q = p <;> simp [hq]

theorem predicateFile : PredicateFile := by
  intro th p q b
  refine ⟨rfl, rfl, fun hp => ?_, fun hq => ?_⟩
  · rw [Thread.pred, Thread.setPred_preds hp, if_pos rfl, decide_eq_false hp, Bool.false_or]
  · by_cases hp : p = 0
    · rw [Thread.setPred, if_pos hp]
    · rw [Thread.pred, Thread.setPred_preds hp, if_neg hq, Thread.pred]

end Sys2Proof.Machine

namespace Sys2Proof

open Machine

/-- Settles O14: the four words write one predicate a lane, and a write to the predicate file changes one bit. -/
theorem predicates : Obligations.Predicates := ⟨predicateWords, predicateFile⟩

end Sys2Proof

/-! ### Branches -/

namespace Sys2Proof.Machine

/-! #### A set that splits (R65) -/

/-- The live lanes of a set, with their PCs. -/
def State.livePcs (s : State) (lanes : List Tid) : List (Tid × DWord) := lanes.filterMap fun t => (s.thread? t).map fun th => (t, th.pc)

theorem State.mem_livePcs {s : State} {lanes : List Tid} {y : Tid × DWord} :
    y ∈ s.livePcs lanes ↔ y.1 ∈ lanes ∧ (s.thread? y.1).map (fun th => th.pc) = some y.2 := by
  obtain ⟨t, pc⟩ := y
  simp only [State.livePcs, List.mem_filterMap, Option.map_eq_some_iff, Prod.mk.injEq]
  constructor
  · rintro ⟨_, ht, th, hth, rfl, rfl⟩
    exact ⟨ht, th, hth, rfl⟩
  · rintro ⟨ht, th, hth, rfl⟩
    exact ⟨t, ht, th, hth, rfl, rfl⟩

/-- A thread off the preferred path takes the stamp of the branch's issue plus one. -/
def Thread.offPath (th : Thread) (pref : DWord) (now : Nat) : Thread := if th.pc = pref then th else { th with stamp := now + 1 }

/-- A lane off the preferred path is stamped. -/
def State.stampOff (pref : DWord) (s : State) (y : Tid × DWord) : State :=
  if y.2 = pref then s else s.updThread y.1 fun th => { th with stamp := s.clk.acycle + 1 }

theorem State.stampOff_same (pref : DWord) (s : State) (y : Tid × DWord) : s.sameBeyond (State.stampOff pref s y) := by
  unfold State.stampOff
  split
  · exact s.sameBeyond_refl
  · exact s.sameBeyond_updThread y.1 _ fun _ => rfl

theorem State.stampOff_regVal (pref : DWord) (s : State) (y : Tid × DWord) (u : Tid) (r : Reg) (j : Nat) :
    (State.stampOff pref s y).regVal u r j = s.regVal u r j := by
  unfold State.stampOff
  split
  · rfl
  · exact s.regVal_updThread y.1 u _ r j

theorem State.stampOff_clk (pref : DWord) (s : State) (y : Tid × DWord) : (State.stampOff pref s y).clk = s.clk := by
  unfold State.stampOff
  split <;> rfl

@[simp] theorem Thread.offPath_pc (th : Thread) (pref : DWord) (now : Nat) : (th.offPath pref now).pc = th.pc := by
  unfold Thread.offPath
  split <;> rfl

@[simp] theorem Thread.offPath_preds (th : Thread) (pref : DWord) (now : Nat) : (th.offPath pref now).preds = th.preds := by
  unfold Thread.offPath
  split <;> rfl

/-- Stamping by a lane's own PC. -/
theorem State.stampOff_thread {pref : DWord} {s : State} {y : Tid × DWord} (hy : (s.thread? y.1).map (fun th => th.pc) = some y.2) (u : Tid) :
    (State.stampOff pref s y).thread? u = if u = y.1 then (s.thread? u).map fun th => th.offPath pref s.clk.acycle else s.thread? u := by
  obtain ⟨th, hth, hpc⟩ := Option.map_eq_some_iff.1 hy
  unfold State.stampOff
  split
  case isTrue h =>
    split
    · rename_i hu
      rw [hu, hth, Option.map_some, Thread.offPath, if_pos (hpc.trans h)]
    · rfl
  case isFalse h =>
    rw [State.thread?_updThread s y.1 u (fun th => { th with stamp := s.clk.acycle + 1 }) fun _ => rfl]
    split
    · rename_i hu
      rw [hu, hth, Option.map_some, Option.map_some, Thread.offPath, if_neg fun e => h (hpc.symm.trans e)]
    · rfl

theorem State.stampOffs_thread {pref : DWord} (l : List (Tid × DWord)) {s : State} (hl : ∀ y ∈ l, (s.thread? y.1).map (fun th => th.pc) = some y.2)
    (u : Tid) : (l.foldl (State.stampOff pref) s).thread? u =
      if u ∈ l.map Prod.fst then (s.thread? u).map fun th => th.offPath pref s.clk.acycle else s.thread? u := by
  induction l generalizing s with
  | nil => rfl
  | cons y l ih =>
    have own := State.stampOff_thread (pref := pref) (hl y List.mem_cons_self)
    have later : ∀ z ∈ l, ((State.stampOff pref s y).thread? z.1).map (fun th => th.pc) = some z.2 := fun z hz => by
      rw [own, ← hl z (List.mem_cons_of_mem _ hz)]
      split
      · simp only [Option.map_map, Function.comp_def, Thread.offPath_pc]
      · rfl
    have twice : ∀ th : Thread, (th.offPath pref s.clk.acycle).offPath pref s.clk.acycle = th.offPath pref s.clk.acycle := fun th => by
      unfold Thread.offPath
      by_cases h : th.pc = pref <;> simp [h]
    rw [List.foldl_cons, ih later, own, State.stampOff_clk, List.map_cons]
    by_cases hu : u = y.1 <;> by_cases hm : u ∈ l.map Prod.fst <;> simp [hu, hm, Option.map_map, Function.comp_def, twice]

/-- A set is at two PCs or more. -/
def State.forked (s : State) (lanes : List Tid) : Bool := (s.livePcs lanes).any fun y => (s.livePcs lanes).any fun z => decide (y.2 ≠ z.2)

/-- A set that has not split is left alone; in one that has, the lanes off the preferred path are stamped. -/
theorem State.split_eq (s : State) (lanes : List Tid) (pref : DWord) :
    s.forked lanes = false ∧ s.split lanes pref = s ∨ s.forked lanes = true ∧ s.split lanes pref = (s.livePcs lanes).foldl (State.stampOff pref) s := by
  have unfolded : s.split lanes pref = match s.livePcs lanes with
      | [] => s
      | x :: xs => if xs.all fun y => decide (y.2 = x.2) then s else (s.livePcs lanes).foldl (State.stampOff pref) s := by
    unfold State.split State.livePcs
    rfl
  rw [unfolded, State.forked]
  cases hl : s.livePcs lanes with
  | nil => exact .inl ⟨by simp, rfl⟩
  | cons x xs =>
    by_cases hall : (xs.all fun y => decide (y.2 = x.2)) = true
    · refine .inl ⟨?_, if_pos hall⟩
      have same : ∀ y ∈ x :: xs, y.2 = x.2 := List.forall_mem_cons.2 ⟨rfl, by simpa using hall⟩
      exact List.any_eq_false.2 fun y hy => by simpa using fun z hz => (same y hy).trans (same z hz).symm
    · refine .inr ⟨?_, if_neg hall⟩
      obtain ⟨y, hy, h⟩ : ∃ y ∈ xs, y.2 ≠ x.2 := by simpa using hall
      exact List.any_eq_true.2 ⟨y, List.mem_cons_of_mem _ hy, List.any_eq_true.2 ⟨x, List.mem_cons_self, decide_eq_true h⟩⟩

theorem State.split_same (s : State) (lanes : List Tid) (pref : DWord) : s.sameBeyond (s.split lanes pref) := by
  rcases s.split_eq lanes pref with ⟨-, e⟩ | ⟨-, e⟩ <;> rw [e]
  · exact s.sameBeyond_refl
  · exact State.sameBeyond_foldl _ (State.stampOff_same pref) _ s

theorem State.split_regVal (s : State) (lanes : List Tid) (pref : DWord) (u : Tid) (r : Reg) (j : Nat) :
    (s.split lanes pref).regVal u r j = s.regVal u r j := by
  rcases s.split_eq lanes pref with ⟨-, e⟩ | ⟨-, e⟩ <;> rw [e]
  generalize s.livePcs lanes = l at *
  clear e
  induction l generalizing s with
  | nil => rfl
  | cons y l ih => rw [List.foldl_cons, ih, State.stampOff_regVal]

theorem State.split_thread (s : State) (lanes : List Tid) (pref : DWord) (u : Tid) :
    (s.split lanes pref).thread? u = (s.thread? u).map fun th => if u ∈ lanes ∧ s.forked lanes = true then th.offPath pref s.clk.acycle else th := by
  rcases s.split_eq lanes pref with ⟨h, e⟩ | ⟨h, e⟩ <;> rw [e]
  · simp only [h, Bool.false_eq_true, and_false, if_false, Option.map_id']
  · rw [State.stampOffs_thread _ fun y hy => (State.mem_livePcs.1 hy).2]
    cases hu : s.thread? u with
    | none => simp
    | some th =>
      have mem : u ∈ (s.livePcs lanes).map Prod.fst ↔ u ∈ lanes := by
        constructor
        · intro hm
          obtain ⟨y, hy, rfl⟩ := List.mem_map.1 hm
          exact (State.mem_livePcs.1 hy).1
        · exact fun hm => List.mem_map.2 ⟨(u, th.pc), State.mem_livePcs.2 ⟨hm, by rw [hu]; rfl⟩, rfl⟩
      simp only [mem, h, and_true]
      split <;> rfl

/-- Splitting keeps what a stamp does not show. -/
theorem State.split_map {α : Type} {g : Thread → α} (hg : ∀ th pref now, g (Thread.offPath th pref now) = g th) (s : State) (lanes : List Tid)
    (pref : DWord) (u : Tid) : ((s.split lanes pref).thread? u).map g = (s.thread? u).map g := by
  rw [State.split_thread, Option.map_map]
  refine congrArg (Option.map · _) (funext fun th => ?_)
  simp only [Function.comp]
  split
  · exact hg th _ _
  · rfl

/-! #### One lane goes -/

/-- What a branch does in one lane whose target is aligned: it writes the link, if any, and goes (R64). -/
def State.go (link : Option Reg) (ret : DWord) (s : State) (x : Tid × DWord) : State :=
  (match link with
    | some r => s.writeRegs x.1 (destRegs true r 0 [ret.lo, ret.hi])
    | none => s).updThread x.1 fun th => { th with pc := x.2 }

/-- A link that lanes may write: a pair of V or h registers. -/
def State.linkOk (s : State) (link : Option Reg) (t : Tid) : Prop := ∀ r, link = some r → s.destOk t r 2 ∧ r.isS = false

theorem State.linkOk_same {s s' : State} (h : s.sameBeyond s') {link : Option Reg} {t : Tid} (hl : s.linkOk link t) : s'.linkOk link t :=
  fun r hr => ⟨State.destOk_same h (hl r hr).1, (hl r hr).2⟩

/-- What branches that some lanes have made leave: each of those at its target, with its link; every other thread and register as before. -/
structure State.gone (e : State) (link : Option Reg) (ret : DWord) (l : List (Tid × DWord)) (s : State) : Prop where
  same : e.sameBeyond s
  rest : ∀ u, u ∉ l.map Prod.fst → s.thread? u = e.thread? u
  moved : ∀ x ∈ l, ∃ ls : Thread → List LongRes, s.thread? x.1 = (e.thread? x.1).map fun th => { th with pc := x.2, longs := ls th }
  links : ∀ r, link = some r → ∀ x ∈ l, s.regVal x.1 r 0 = ret.lo ∧ s.regVal x.1 r 1 = ret.hi
  regs : ∀ u r j, e.readable u r j → (∀ r', link = some r' → ∀ x ∈ l, isDest x.1 r' 2 u r j = false) → s.regVal u r j = e.regVal u r j

theorem State.readable_same {s s' : State} (h : s.sameBeyond s') {u : Tid} {r : Reg} {j : Nat} (hr : s.readable u r j) : s'.readable u r j :=
  hr.imp (fun own => (State.sameBeyond_ownReg h u r j).trans own) id

theorem State.go_gone {s : State} {link : Option Reg} (ret : DWord) {x : Tid × DWord} (hl : s.linkOk link x.1) : s.gone link ret [x] (s.go link ret x) := by
  have moves := fun (u : State) (v : Tid) => State.thread?_updThread u x.1 v (fun th => { th with pc := x.2 }) fun _ => rfl
  have goes : ∀ u : State, u.sameBeyond (u.updThread x.1 fun th => { th with pc := x.2 }) := fun u => u.sameBeyond_updThread x.1 _ fun _ => rfl
  cases link with
  | none =>
    refine ⟨goes s, fun u hu => ?_, fun y hy => ⟨fun th => th.longs, ?_⟩, nofun, fun u r j _ _ => s.regVal_updThread x.1 u _ r j⟩
    · rw [State.go, moves, if_neg (by simpa using hu)]
    · obtain rfl := List.mem_singleton.1 hy
      rw [State.go, moves, if_pos rfl]
  | some r =>
    obtain ⟨dest, noS⟩ := hl r rfl
    obtain ⟨written, others, -⟩ := s.writeDest x.1 r 0 [ret.lo, ret.hi] dest
    refine ⟨State.sameBeyond_trans (s.writeRegs_same x.1 _) (goes _), fun u hu => ?_, fun y hy => ?_, fun r' hr y hy => ?_, fun u r' j hr hd => ?_⟩
    · have apart : u ≠ x.1 := by simpa using hu
      rw [State.go, moves, if_neg apart, s.writeRegs_thread_other x.1 _ u apart (.inl (destRegs_noS noS _ _ _))]
    · obtain rfl := List.mem_singleton.1 hy
      obtain ⟨ls, e⟩ := s.writeRegs_onlyLongs y.1 (destRegs true r 0 [ret.lo, ret.hi]) y.1
      exact ⟨ls, by rw [State.go, moves, if_pos rfl, e, Option.map_map]; rfl⟩
    · obtain rfl := Option.some.inj hr
      obtain rfl := List.mem_singleton.1 hy
      simp only [State.go, State.regVal_updThread]
      exact ⟨written 0 Nat.zero_lt_two, written 1 Nat.one_lt_two⟩
    · rw [State.go, State.regVal_updThread]
      exact others u r' j hr (hd r rfl x List.mem_cons_self)

/-- A register of one lane's file is no destination of another lane, if it is no uniform register. -/
theorem isDest_other {t u : Tid} (h : t ≠ u) {d : Reg} (hd : d.isS = false) (n : Nat) (r : Reg) (j : Nat) : isDest t d n u r j = false := by
  cases d with
  | s i => cases hd
  | v i | h i => cases r <;> simp [isDest, h]
  | _ => rfl

theorem State.gos_gone {link : Option Reg} (ret : DWord) (l : List (Tid × DWord)) {e : State} (hl : ∀ x ∈ l, e.linkOk link x.1)
    (hnd : (l.map Prod.fst).Nodup) : e.gone link ret l (l.foldl (State.go link ret) e) := by
  induction l generalizing e with
  | nil => exact ⟨e.sameBeyond_refl, fun _ _ => rfl, nofun, fun _ _ => nofun, fun _ _ _ _ _ => rfl⟩
  | cons x l ih =>
    obtain ⟨fresh, hnd⟩ := List.nodup_cons.1 hnd
    have one := State.go_gone ret (hl x List.mem_cons_self)
    have more := ih (fun y hy => State.linkOk_same one.same (hl y (List.mem_cons_of_mem _ hy))) hnd
    have apart : ∀ y ∈ l, y.1 ≠ x.1 := fun y hy h => fresh (List.mem_map.2 ⟨y, hy, h⟩)
    rw [List.foldl_cons]
    refine ⟨State.sameBeyond_trans one.same more.same, fun u hu => ?_, fun y hy => ?_, fun r hr y hy => ?_, fun u r j hr hd => ?_⟩
    · obtain ⟨h1, h2⟩ := not_or.1 fun h => hu (List.mem_cons.2 h)
      rw [more.rest u h2, one.rest u (by simpa using h1)]
    · rcases List.mem_cons.1 hy with rfl | hy
      · rw [more.rest _ fresh]
        exact one.moved y List.mem_cons_self
      · obtain ⟨ls, e⟩ := more.moved y hy
        exact ⟨ls, by rw [e, one.rest y.1 (by simpa using apart y hy)]⟩
    · rcases List.mem_cons.1 hy with rfl | hy
      · obtain ⟨dest, noS⟩ := hl y List.mem_cons_self r hr
        have kept : ∀ j, j < 2 → _ := fun j hj => more.regs y.1 r j (.inl (State.destOk_own (State.destOk_same one.same dest) j hj)) fun r' hr' z hz => by
          obtain rfl := Option.some.inj (hr.symm.trans hr')
          exact isDest_other (apart z hz) noS 2 r j
        rw [kept 0 (by decide), kept 1 (by decide)]
        exact one.links r hr y List.mem_cons_self
      · exact more.links r hr y hy
    · rw [more.regs u r j (State.readable_same one.same hr) fun r' hr' y hy => hd r' hr' y (List.mem_cons_of_mem _ hy)]
      exact one.regs u r j hr fun r' hr' y hy => hd r' hr' y (List.mem_singleton.1 hy ▸ List.mem_cons_self)

/-! #### A branch of lanes -/

/-- An aligned address has no low bits. -/
theorem extractLsb'_low_eq_zero {x : DWord} (h : x.toNat % 8 = 0) : x.extractLsb' 0 3 = 0 := by
  apply BitVec.eq_of_toNat_eq
  simpa [BitVec.extractLsb'_toNat] using h

/-- Short results are written at once, to an s register by the lead lane. -/
theorem State.result_written {s : State} {t : Tid} {r : Reg} {n : Nat} (hd : s.destOk t r n) (hl : r.isS = true → s.leads t = true) (vals : List Word) :
    s.result t false r vals = (s.writeRegs t (destRegs true r 0 vals), none) := by
  cases r with
  | v i | h i => rw [← destRegs_lead (lead := s.leads t) rfl]; rfl
  | s i => rw [← hl rfl]; rfl
  | _ => exact hd.2.2.elim

/-- A branch whose targets are aligned and pass the check of its hint: each lane goes, then the set may split. -/
theorem State.branch_goes {s : State} {c : Cur} (hcur : s.cur = some c) {t0 : Tid} {pc0 : DWord} {rest : List (Tid × DWord)} {hint : Hint} (direct : Bool)
    {link : Option Reg} (hal : ∀ x ∈ (t0, pc0) :: rest, x.2.toNat % 8 = 0)
    (hhint : (s.descOfTid t0).hintchk = true → hint = .uniform → ∀ x ∈ rest, x.2 = pc0) (hl : ∀ x ∈ (t0, pc0) :: rest, s.linkOk link x.1) :
    s.branch ((t0, pc0) :: rest) hint direct link =
      (((t0, pc0) :: rest).foldl (State.go link (c.pc + 8)) s).split c.lanes
        (preferredPc hint direct (c.pc + 8) pc0 ((rest.getLast?.map fun x => x.2).getD pc0)) := by
  have passes : ¬((s.descOfTid t0).hintchk && decide (hint = .uniform) && !rest.all fun x => decide (x.2 = pc0)) = true := by
    simp only [Bool.and_eq_true, decide_eq_true_eq, Bool.not_eq_true', List.all_eq_false, not_and, not_exists]
    rintro ⟨h1, h2⟩ x hx
    simpa using hhint h1 h2 x hx
  have goes : ∀ (l : List (Tid × DWord)) (u : State), s.sameBeyond u → (∀ x ∈ l, x.2.toNat % 8 = 0) → (∀ x ∈ l, s.linkOk link x.1) →
      l.foldl (fun s x =>
        if x.2.extractLsb' 0 3 ≠ 0 then s.trap x.1 fcMisalign x.2.toNat
        else (match link with
            | some r => (s.result x.1 false r [(c.pc + 8).lo, (c.pc + 8).hi]).1
            | none => s).updThread x.1 fun th => { th with pc := x.2 }) u = l.foldl (State.go link (c.pc + 8)) u := by
    intro l
    induction l with
    | nil => exact fun _ _ _ _ => rfl
    | cons x l ih =>
      intro u hu hal hl
      have ok := State.linkOk_same hu (hl x List.mem_cons_self)
      have step : (match link with
            | some r => (u.result x.1 false r [(c.pc + 8).lo, (c.pc + 8).hi]).1
            | none => u).updThread x.1 (fun th => { th with pc := x.2 }) = u.go link (c.pc + 8) x := by
        cases link with
        | none => rfl
        | some r =>
          obtain ⟨dest, noS⟩ := ok r rfl
          simp only [State.go, State.result_written dest fun hs => absurd (hs.symm.trans noS) nofun]
      rw [List.foldl_cons, List.foldl_cons, if_neg (not_not.2 (extractLsb'_low_eq_zero (hal x List.mem_cons_self))), step]
      exact ih _ (State.sameBeyond_trans hu (State.go_gone _ ok).same) (fun y hy => hal y (List.mem_cons_of_mem _ hy))
        fun y hy => hl y (List.mem_cons_of_mem _ hy)
  rw [← goes _ s s.sameBeyond_refl hal hl]
  simp only [State.branch, hcur, if_neg passes] <;> rfl

theorem State.sameBeyond_descOfTid {s t : State} (h : s.sameBeyond t) (u : Tid) : t.descOfTid u = s.descOfTid u := by
  have team := State.sameBeyond_team h u.team
  unfold State.descOfTid
  cases h1 : s.team? u.team with
  | none => rw [h1, Option.map_none, Option.map_eq_none_iff] at team; rw [team]
  | some x =>
    rw [h1, Option.map_some] at team
    obtain ⟨y, hy, e⟩ := Option.map_eq_some_iff.1 team
    have launch : y.launch = x.launch := (congrArg Team.launch e :)
    simp only [hy, State.descOf, State.launchOf, State.launch?, launch, State.sameBeyond_launches h]

/-- A set at the next word throughout has not split. -/
theorem State.forked_entered (s : State) (c : Cur) (h : Hdr) (ops : List Opd) : (s.entered c h ops).forked c.lanes = false := by
  have next : ∀ y ∈ (s.entered c h ops).livePcs c.lanes, y.2 = c.pc + 8 := fun y hy => by
    obtain ⟨hl, hpc⟩ := State.mem_livePcs.1 hy
    rw [State.entered_thread, if_pos hl, Option.map_map] at hpc
    obtain ⟨th, -, e⟩ := Option.map_eq_some_iff.1 hpc
    exact e.symm
  exact List.any_eq_false.2 fun y hy => by simpa using fun t pc hz => (next y hy).trans (next (t, pc) hz).symm

theorem State.split_of_not_forked {s : State} {lanes : List Tid} (h : s.forked lanes = false) (pref : DWord) : s.split lanes pref = s := by
  rcases s.split_eq lanes pref with ⟨-, e⟩ | ⟨h', -⟩
  · exact e
  · rw [h] at h'; cases h'

/-- The active lanes of a word may write the pair that it links into. -/
theorem State.clear_linkOk {s : State} {c : Cur} {h : Hdr} {ops : List Opd} (hc : s.clear c h { ops := ops } = true) {link : Option Reg}
    (hlink : ∀ r, link = some r → Opd.dv r 2 ∈ ops) {t : Tid} (ht : t ∈ s.actives c h) : (s.entered c h ops).linkOk link t := by
  intro r hr
  obtain ⟨th, tm, g, -, -, -, legal, -⟩ := State.clear_opd hc ht (hlink r hr)
  refine ⟨State.clear_dest hc ht (hlink r hr) (.inl rfl) (fun i hi => ?_) (Nat.le_refl 2), ?_⟩
  · have hi : r = .q i := hi
    rw [hi] at legal
    cases legal
  · cases r with
    | s i => cases legal
    | _ => rfl

/-- The word of a branch in the state that it enters: its lanes go, then the set may split. -/
theorem State.branch_entered {s : State} {c : Cur} {h : Hdr} {ops : List Opd} {hint : Hint} (direct : Bool) {target : Tid → DWord} {link : Option Reg}
    (hal : ∀ a ∈ s.actives c h, (target a).toNat % 8 = 0)
    (hhint : ∀ a ∈ s.actives c h, (s.descOfTid a).hintchk = true → hint = .uniform → ∀ b ∈ s.actives c h, target b = target a)
    (hl : ∀ a ∈ s.actives c h, (s.entered c h ops).linkOk link a) :
    (s.entered c h ops).branch ((s.actives c h).map fun t => (t, target t)) hint direct link =
      (((s.actives c h).map fun t => (t, target t)).foldl (State.go link (c.pc + 8)) (s.entered c h ops)).split c.lanes
        (preferredPc hint direct (c.pc + 8) (((s.actives c h).head?.map target).getD (c.pc + 8))
          (((s.actives c h).getLast?.map target).getD (c.pc + 8))) := by
  generalize hact : s.actives c h = act at *
  cases act with
  | nil =>
    rw [List.map_nil, State.branch_nil, List.foldl_nil, State.split_of_not_forked (s.forked_entered c h ops)]
  | cons t act =>
    rw [List.map_cons, State.branch_goes (s.entered_cur c h ops) direct (by simpa using hal)
      (fun h1 h2 x hx => ?_) (by simpa using hl)]
    · have last : ((List.map (fun t => (t, target t)) act).getLast?.map fun x => x.2).getD (target t) =
          ((t :: act).getLast?.map target).getD (c.pc + 8) := by
        rw [List.getLast?_map, List.getLast?_cons]
        cases act.getLast? <;> rfl
      rw [last]
      rfl
    · rw [State.sameBeyond_descOfTid (s.entered_same c h ops)] at h1
      obtain ⟨b, hb, rfl⟩ := List.mem_map.1 hx
      exact hhint t List.mem_cons_self h1 h2 b (List.mem_cons_of_mem _ hb)

/-- Where an active lane of a branch goes, and where every other lane of the set stands: at the next word. -/
def nextPc (c : Cur) (act : List Tid) (target : Tid → DWord) (a : Tid) : DWord := if a ∈ act then target a else c.pc + 8

/-- Once the lanes of a word have gone, each thread of its set has advanced but for its PC, and its outstanding results may be fewer. -/
theorem State.gone_lanes {s f : State} {c : Cur} {h : Hdr} {ops : List Opd} {act : List Tid} {target : Tid → DWord} {link : Option Reg} {ret : DWord}
    (gone : (s.entered c h ops).gone link ret (act.map fun t => (t, target t)) f) {a : Tid} (ha : a ∈ c.lanes) :
    ∃ ls : Thread → List LongRes, f.thread? a = (s.thread? a).map fun th =>
      { th.advance c.pc s.clk.acycle (gapCycles h.gap) h.gw with pc := nextPc c act target a, longs := ls th } := by
  by_cases hact : a ∈ act
  · obtain ⟨ls, e⟩ := gone.moved (a, target a) (List.mem_map.2 ⟨a, hact, rfl⟩)
    refine ⟨fun th => ls (th.advance c.pc s.clk.acycle (gapCycles h.gap) h.gw), ?_⟩
    rw [e, State.entered_thread, if_pos ha, Option.map_map, nextPc, if_pos hact]
    rfl
  · refine ⟨fun th => th.longs, ?_⟩
    rw [gone.rest a (by simpa using hact), State.entered_thread, if_pos ha, nextPc, if_neg hact]
    rfl

/-- A set has split where two of its threads are to be at different PCs. -/
theorem State.forked_eq {s : State} {lanes : List Tid} {pc : Tid → DWord} (h : ∀ a ∈ lanes, (s.thread? a).map (fun th => th.pc) = some (pc a)) :
    s.forked lanes = lanes.any fun a => lanes.any fun b => decide (pc a ≠ pc b) := by
  have live : s.livePcs lanes = lanes.map fun a => (a, pc a) := by
    unfold State.livePcs
    rw [← List.filterMap_eq_map]
    refine List.filterMap_congr fun a ha => ?_
    obtain ⟨th, hth, hpc⟩ := Option.map_eq_some_iff.1 (h a ha)
    rw [hth]
    exact congrArg (fun x => some (a, x)) hpc
  simp only [State.forked, live, List.any_map, Function.comp_def]

/-- A word that is the branch of its active lanes to their targets goes there. -/
theorem goesTo_of {i : Instr} {h : Hdr} {ops : List Opd} {hint : Hint} {direct : Bool} {target : State → Cur → Tid → DWord} {link : Option Reg}
    {mode : State → Cur → Prop}
    (hex : ∀ s c, mode s c → s.clear c h { ops := ops } = true → s.plain (s.actives c h) ops = true →
      exec i s = .next (((s.entered c h ops).branch ((s.actives c h).map fun t => (t, target s c t)) hint direct link).wordEnd h c))
    (hlink : ∀ r, link = some r → Opd.dv r 2 ∈ ops) : GoesTo i h ops hint direct target link mode := by
  intro s c act next lowest highest preferred splits hmode hc hp hal hhint
  obtain ⟨hcur, -, -, hok, -⟩ := (State.clear_iff s c h _).1 hc
  have keys : (act.map fun t => (t, target s c t)).map Prod.fst = act := by simp [Function.comp_def]
  have linkOk : ∀ a ∈ act, (s.entered c h ops).linkOk link a := fun a ha => State.clear_linkOk hc hlink ha
  have gone := State.gos_gone (c.pc + 8) (act.map fun t => (t, target s c t)) (by simpa using linkOk) (by rw [keys]; exact (Cur.ok_nodup hok).filter _)
  have run := State.branch_entered direct hal hhint linkOk
  generalize List.foldl (State.go link (c.pc + 8)) _ (act.map _) = f at run gone
  have before := State.sameBeyond_trans (s.entered_same c h ops) gone.same
  have same := State.sameBeyond_trans before (f.split_same c.lanes preferred)
  have clk : f.clk = s.clk := by
    have := congrArg State.clk before.2
    exact this
  have pcs : ∀ a ∈ c.lanes, ((f.split c.lanes preferred).thread? a).map (fun th => th.pc) = (s.thread? a).map fun _ => next a := fun a ha => by
    obtain ⟨ls, e⟩ := State.gone_lanes gone ha
    rw [State.split_map Thread.offPath_pc, e, Option.map_map]
    rfl
  refine ⟨f.split c.lanes preferred, ?_, State.sameBeyond_mem same, fun a ha => ?_, fun a ha => ?_, fun a ha hact => ?_, fun live a ha => ?_,
    same, fun v => ?_, fun r hr a ha => ?_, fun v r j hr hd => ?_⟩
  · rw [hex s c hmode hc hp, run]
    cases hint <;> rfl
  · rw [State.split_thread, gone.rest a (by rw [keys]; exact fun h => ha (State.actives_mem h)), State.entered_thread, if_neg ha]
    simp only [ha, false_and, if_false, Option.map_id']
  · obtain ⟨th, hth⟩ := Option.isSome_iff_exists.1 (State.clear_thread hc ha)
    rw [pcs a (State.actives_mem ha), show next a = target s c a from if_pos ha]
    rw [State.entered_thread, if_pos (State.actives_mem ha)] at hth
    obtain ⟨th', hth', -⟩ := Option.map_eq_some_iff.1 hth
    rw [hth', Option.map_some]
  · rw [pcs a ha, show next a = c.pc + 8 from if_neg hact]
  · have at_ : ∀ a ∈ c.lanes, (f.thread? a).map (fun th => th.pc) = some (next a) := fun a ha => by
      obtain ⟨ls, e⟩ := State.gone_lanes gone ha
      obtain ⟨th, hth⟩ := Option.isSome_iff_exists.1 (live a ha)
      rw [e, hth]
      rfl
    obtain ⟨ls, e⟩ := State.gone_lanes gone ha
    obtain ⟨th, hth⟩ := Option.isSome_iff_exists.1 (live a ha)
    have forks : f.forked c.lanes = splits := State.forked_eq at_
    have here : nextPc c act (target s c) a = next a := rfl
    rw [State.split_thread, e, hth, forks, clk, here]
    clear_value splits next preferred
    by_cases hs : splits = true <;> by_cases hn : next a = preferred <;> simp [ha, hs, hn, Thread.offPath, Thread.advance]
  · rw [State.split_map Thread.offPath_preds]
    by_cases hv : v ∈ c.lanes
    · obtain ⟨ls, e⟩ := State.gone_lanes gone hv
      rw [e, Option.map_map]
      rfl
    · rw [gone.rest v (by rw [keys]; exact fun h => hv (State.actives_mem h)), State.entered_thread, if_neg hv]
  · rw [State.split_regVal, State.split_regVal]
    exact gone.links r hr (a, target s c a) (List.mem_map.2 ⟨a, ha, rfl⟩)
  · rw [State.split_regVal, gone.regs v r j (State.readable_same (s.entered_same c h ops) hr) fun r' hr' x hx => ?_, State.entered_regVal hcur]
    obtain ⟨a, ha, rfl⟩ := List.mem_map.1 hx
    exact hd r' hr' a ha

/-! #### The words -/

/-- A clear word whose effect is a branch. -/
theorem State.word_branch {s : State} {c : Cur} {h : Hdr} {ops : List Opd} (hc : s.clear c h { ops := ops } = true)
    {effect : List Tid → State → Option State} {hint : Hint} {direct : Bool} {target : Tid → DWord} {link : Option Reg}
    (he : effect (s.actives c h) (s.entered c h ops) =
      some ((s.entered c h ops).branch ((s.actives c h).map fun t => (t, target t)) hint direct link)) :
    (.next (s.word h { ops := ops } effect) : Answer) =
      .next (((s.entered c h ops).branch ((s.actives c h).map fun t => (t, target t)) hint direct link).wordEnd h c) := by
  rw [State.word_clear hc, he]

theorem State.entered_curPc (s : State) (c : Cur) (h : Hdr) (ops : List Opd) : (s.entered c h ops).curPc = c.pc := by
  rw [State.curPc, s.entered_cur c h ops]
  rfl

/-- Lanes whose target pair has no write outstanding read it and change nothing. -/
theorem State.targetsOf_quiet {s : State} {a : Reg} {ts : List Tid}
    (h : ∀ t ∈ ts, ∀ k, k < 2 → ∀ f i, Reg.file? a k = some (f, i) → s.pendings t f i = []) :
    s.targetsOf a ts = (ts.map fun t => (t, pairOf (s.regVal t a 0) (s.regVal t a 1)), s) := by
  induction ts with
  | nil => rfl
  | cons t ts ih =>
    have reads := s.readRegs_quiet t a 2 0 fun k _ hk => h t List.mem_cons_self k (by omega)
    simp only [State.targetsOf, reads, ih fun u hu => h u (List.mem_cons_of_mem _ hu)]
    rfl

/-- The targets that the lanes of a word read. -/
theorem State.targetsOf_entered {s : State} {c : Cur} {h : Hdr} {ops : List Opd} (hc : s.clear c h { ops := ops } = true)
    (hp : s.plain (s.actives c h) ops = true) {a : Reg} (ha : Opd.vsk a 2 ∈ ops) :
    (s.entered c h ops).targetsOf a (s.actives c h) =
      ((s.actives c h).map fun t => (t, pairOf (s.regVal t a 0) (s.regVal t a 1)), s.entered c h ops) := by
  obtain ⟨hcur, -⟩ := (State.clear_iff s c h _).1 hc
  have quiet := State.targetsOf_quiet (a := a) (s := s.entered c h ops) fun t ht => (State.entered_plainAt hcur hp ht _ ha).2 (by simp [Opd.vsk])
  rw [quiet]
  simp only [State.entered_regVal hcur]

/-- In a set whose threads are all in one mode, CALL links as that mode does. -/
theorem State.linkReg_of {s : State} {c : Cur} (hcur : s.cur = some c) {b : Bool} (hne : c.lanes ≠ [])
    (hmode : ∀ a ∈ c.lanes, s.threadIs a (fun th => th.handler) = b) : s.linkReg = if b then .h 0 else .v 0 := by
  have lanes : s.curLanes = c.lanes := by rw [State.curLanes, hcur]
  cases hl : c.lanes with
  | nil => exact absurd hl hne
  | cons t ts =>
    have mode := hmode t (hl ▸ List.mem_cons_self)
    simp only [State.linkReg, lanes, hl, mode]

theorem goesTo_call (h : Hdr) (o : BrF) (b : Bool) :
    GoesTo (.call h o) h [Opd.dv (if b then .h 0 else .v 0) 2] o.hint true (fun _ c _ => c.pc + (o.off.signExtend 64) * 8)
      (some (if b then .h 0 else .v 0)) fun s c => c.lanes ≠ [] ∧ ∀ a ∈ c.lanes, s.threadIs a (fun th => th.handler) = b := by
  refine goesTo_of (fun s c ⟨hne, hmode⟩ hc hp => ?_) fun r hr => Option.some.inj hr ▸ List.mem_singleton_self _
  have link := State.linkReg_of ((State.clear_iff s c h _).1 hc).1 hne hmode
  show (.next (s.word h { ops := [Opd.dv s.linkReg 2] } fun act u =>
    some (u.branch (act.map fun t => (t, BrF.target o u.curPc)) o.hint true (some s.linkReg))) : Answer) = _
  rw [link]
  exact State.word_branch hc (by rw [State.entered_curPc]; rfl)

theorem goesTo_indirect {i : Instr} {h : Hdr} {o : BrxF} (hex : ∀ s, exec i s = .next (s.indirect h o)) :
    GoesTo i h [Opd.vsk o.a 2] o.hint false (fun s _ a => val2 (s.opdVals a [Opd.vsk o.a 2]) 0) none fun _ _ => True := by
  refine goesTo_of (fun s c _ hc hp => ?_) nofun
  rw [hex]
  exact State.word_branch hc (by rw [State.targetsOf_entered hc hp (List.mem_singleton_self _)]; rfl)

theorem goesTo_callx (h : Hdr) (y : CallxF) :
    GoesTo (.callx h y) h [Opd.dv y.d 2, Opd.vsk y.a 2] y.hint false (fun s _ a => val2 (s.opdVals a [Opd.dv y.d 2, Opd.vsk y.a 2]) 1) (some y.d)
      fun _ _ => True := by
  refine goesTo_of (fun s c _ hc hp => ?_) fun r hr => Option.some.inj hr ▸ List.mem_cons_self
  exact State.word_branch hc (by rw [State.targetsOf_entered hc hp (List.mem_cons_of_mem _ (List.mem_singleton_self _))]; rfl)

end Sys2Proof.Machine

namespace Sys2Proof

open Machine

/-- Settles O43: each of the five words is the branch of its active lanes, which goes lane by lane and then splits its set. -/
theorem branches : Obligations.Branches := by
  intro h o x y
  refine ⟨?_, goesTo_call h o false, goesTo_call h o true, goesTo_indirect fun _ => rfl, goesTo_indirect fun _ => rfl, goesTo_callx h y⟩
  exact goesTo_of (fun s c _ hc _ => State.word_branch hc (by rw [State.entered_curPc]; rfl)) nofun

end Sys2Proof

/-! ### Words of one lane, and what waking leaves -/

namespace Sys2Proof.Machine

/-! #### A word of one lane -/

/-- The only active lane leads. -/
theorem State.entered_leads {s : State} {c : Cur} {h : Hdr} {t : Tid} (hact : s.actives c h = [t]) (ops : List Opd) : (s.entered c h ops).leads t = true := by
  simp [State.leads, s.entered_cur c h ops, State.curIn, Cur.withSet, Cur.lead, hact]

/-- A lane with no fault to take goes on from a delivery point. -/
theorem State.deliverIf_quiet {s : State} {c : Cur} {h : Hdr} {ops : List Opd} {t : Tid} (hpop : c.popped = [])
    (quiet : (s.entered c h ops).deliverAsync t c.pc = (false, s.entered c h ops)) :
    (s.entered c h ops).deliverIf true [t] = ([t], s.entered c h ops) := by
  have had : (s.curIn c h).had t = [] := by simp only [State.curIn, Cur.withSet, Cur.had, hpop]; rfl
  have pc : (s.curIn c h).pc = c.pc := rfl
  simp [State.deliverIf, s.entered_cur c h ops, had, pc, State.deliverPoint, quiet]

/-- A lane that need not wait to arrive at a barrier need not wait to go on. -/
theorem State.accessWaits_of_barrier {s : State} {act : List Tid} (h : s.accessWaits MemOrder.barrier act = false) : s.accessWaits {} act = false := by
  refine List.any_eq_false.2 fun t ht => ?_
  have waits := List.any_eq_false.1 h t ht
  simp only [State.laneWaits, State.mustFollow, MemOrder.barrier, Bool.or_eq_true, not_or] at waits ⊢
  obtain ⟨⟨⟨contribs, -⟩, -⟩, marks⟩ := waits
  exact ⟨⟨⟨contribs, by simp⟩, by simp [State.passes]⟩, marks⟩

/-- A word that acts in its one lane, which waits for nothing and parks for nothing. -/
theorem State.byLane_one {s u : State} {c : Cur} {h : Hdr} {k : Checks} {t : Tid} {f : Tid → List (List Word) → State → State × Option Park}
    {hold : State → List Tid → Bool} {point : Bool} (hc : s.clear c h k = true) (hact : s.actives c h = [t])
    (hp : (s.entered c h k.ops).plainAt t k.ops) (hhold : hold (s.entered c h k.ops) [t] = false)
    (hpoint : point = true → (s.entered c h k.ops).accessWaits {} [t] = false ∧
      (s.entered c h k.ops).deliverAsync t c.pc = (false, s.entered c h k.ops))
    (hf : f t (s.opdVals t k.ops) (s.entered c h k.ops) = (u, none)) : s.byLane h k f hold point = u.wordEnd h c := by
  obtain ⟨hcur, -, hpop, -⟩ := (State.clear_iff s c h k).1 hc
  have noPush : k.ops.any Opd.pushes = false := List.any_eq_false.2 fun o ho => by
    have := (hp o ho).1
    cases hr : o.reg <;> simp_all [Opd.pushes, Opd.isQ]
  have noPop : k.ops.any Opd.popsToken = false := List.any_eq_false.2 fun o ho => by
    have := (hp o ho).1
    cases hr : o.reg <;> simp_all [Opd.popsToken]
  have turn : (s.entered c h k.ops).queueWaits point k.ops [t] = false := by
    cases point with
    | false => exact State.queueWaits_false _ _ _ noPush
    | true => simp [State.queueWaits, noPush, (hpoint rfl).1]
  have lanes : (s.entered c h k.ops).deliverIf point [t] = ([t], s.entered c h k.ops) := by
    cases point with
    | false => exact State.deliverIf_false _ _
    | true => exact State.deliverIf_quiet hpop (hpoint rfl).2
  have live := State.clear_thread hc (hact ▸ List.mem_singleton_self t)
  have had : (s.entered c h k.ops).had t = [] := by
    simp only [State.had, s.entered_cur c h k.ops, State.curIn, Cur.withSet, Cur.had, hpop]; rfl
  have acts : (s.entered c h k.ops).eachLane k.ops f [t] = u := by
    have there : ((s.entered c h k.ops).thread? t).isNone ≠ true := by rw [Option.isSome_iff_ne_none] at live; simpa using live
    simp only [State.eachLane, if_neg there, had, State.readOps_plain _ t k.ops hp, State.entered_opdVals hcur, hf]
  rw [State.byLane, State.word_clear hc _ (false || k.ops.any Opd.isQ), hact]
  simp only [noPop, Bool.or_false, hhold, Bool.false_and, turn, Bool.or_self, Bool.false_eq_true, if_false, lanes, acts]

/-- An active lane passes the checks of its word that are not of its operands. -/
theorem State.clear_checks {s : State} {c : Cur} {h : Hdr} {k : Checks} (hc : s.clear c h k = true) {t : Tid} (ht : t ∈ s.actives c h) :
    k.illOp (s.begun c h) t = false ∧ k.illReg (s.begun c h) t = false := by
  obtain ⟨-, -, -, -, -, -, hall⟩ := (State.clear_iff s c h k).1 hc
  have hu := (hall t ht).1
  unfold State.untrapped at hu
  split at hu
  case h_2 => cases hu
  case h_1 =>
    obtain ⟨hop, -, hreg, -⟩ := Checks.decodeTrap_eq_none_iff.1 (of_decide_eq_true hu)
    exact ⟨hop, hreg⟩

/-! #### Threads that wake -/

/-- A thread that waits for no more than another, at its lane, with the same faults pending. -/
structure Thread.wakes (th th' : Thread) : Prop where
  lane : th'.lane = th.lane
  parks : th'.parks ⊆ th.parks
  afaults : th'.afaults = th.afaults

theorem Thread.wakes_refl (th : Thread) : th.wakes th := ⟨rfl, List.Subset.refl _, rfl⟩

theorem Thread.wakes_trans {a b c : Thread} (h : a.wakes b) (k : b.wakes c) : a.wakes c :=
  ⟨k.lane.trans h.lane, List.Subset.trans k.parks h.parks, k.afaults.trans h.afaults⟩

theorem Thread.wakes_unpark (th : Thread) (now : Nat) (p : Park → Bool) : th.wakes (th.unpark now p) := by
  unfold Thread.unpark
  split
  · exact ⟨rfl, List.filter_subset_self _, rfl⟩
  · exact th.wakes_refl

theorem Thread.unpark_parks (th : Thread) (now : Nat) (p : Park → Bool) : (th.unpark now p).parks = th.parks.filter fun k => !p k := by
  unfold Thread.unpark
  split
  case isTrue => rfl
  case isFalse h => exact (List.filter_eq_self.2 (by simpa using h)).symm

theorem Thread.wakes_passBarrier (th : Thread) (now b : Nat) (p : BitVec 16) (wave : Nat) : th.wakes (th.passBarrier now b p wave) := by
  unfold Thread.passBarrier
  split
  · obtain ⟨lane, parks, afaults⟩ := th.wakes_unpark now fun k => decide (k = .barrier b p)
    exact ⟨lane, parks, afaults⟩
  · exact th.wakes_refl

theorem Thread.passBarrier_parks (th : Thread) (now b : Nat) (p : BitVec 16) (wave : Nat) :
    Park.barrier b p ∉ (th.passBarrier now b p wave).parks := by
  unfold Thread.passBarrier
  split
  case isTrue =>
    show _ ∉ (th.unpark now _).parks
    rw [Thread.unpark_parks]
    simp
  case isFalse h => simpa using h

/-- Change every thread of a team, by its group's number. -/
def Team.remap (t : Team) (F : Nat → Thread → Thread) : Team :=
  { t with groups := t.groups.map fun g => { g with threads := g.threads.map (F g.num) } }

/-- Change every thread, by its team and its group's number. -/
def State.remap (s : State) (F : Nat → Nat → Thread → Thread) : State := { s with teams := s.teams.map fun t => t.remap (F t.key) }

theorem Team.remap_remap (t : Team) (F G : Nat → Thread → Thread) : (t.remap F).remap G = t.remap fun n th => G n (F n th) := by
  simp only [Team.remap, List.map_map, Function.comp_def]

theorem Team.remap_id (t : Team) : (t.remap fun _ th => th) = t := by
  simp only [Team.remap, List.map_id']

/-- Looking up by a key that a change keeps. -/
theorem find?_map_of_key {α : Type} {p : α → Bool} {G G' : α → α} (l : List α) (hp : ∀ x, p (G x) = p x) (hG : ∀ x, p x = true → G x = G' x) :
    (l.map G).find? p = (l.find? p).map G' := by
  rw [List.find?_map, show p ∘ G = p from funext hp]
  cases hx : l.find? p with
  | none => rfl
  | some x => rw [Option.map_some, Option.map_some, hG x (List.find?_some hx)]

theorem State.team?_remap (s : State) (F : Nat → Nat → Thread → Thread) (k : Nat) : (s.remap F).team? k = (s.team? k).map fun t => t.remap (F k) :=
  find?_map_of_key s.teams (fun _ => rfl) fun x hx => by rw [of_decide_eq_true hx]

theorem Team.group?_remap (t : Team) (F : Nat → Thread → Thread) (n : Nat) :
    (t.remap F).group? n = (t.group? n).map fun g => { g with threads := g.threads.map (F n) } :=
  find?_map_of_key t.groups (fun _ => rfl) fun x hx => by rw [of_decide_eq_true hx]

theorem State.group?_remap (s : State) (F : Nat → Nat → Thread → Thread) (t : Tid) :
    (s.remap F).group? t = (s.group? t).map fun g => { g with threads := g.threads.map (F t.team t.group) } := by
  unfold State.group?
  rw [State.team?_remap]
  cases s.team? t.team with
  | none => rfl
  | some x => simp only [Option.map_some, Option.bind_some, Team.group?_remap]

theorem State.thread?_remap (s : State) {F : Nat → Nat → Thread → Thread} (hF : ∀ k n th, (F k n th).lane = th.lane) (t : Tid) :
    (s.remap F).thread? t = (s.thread? t).map (F t.team t.group) := by
  unfold State.thread?
  rw [State.group?_remap]
  cases s.group? t with
  | none => rfl
  | some g => exact g.thread?_map _ (hF _ _) _

/-- A thread's own update is a change of every thread. -/
theorem State.updThread_eq_remap (s : State) (t : Tid) (f : Thread → Thread) :
    s.updThread t f = s.remap fun k n th => if k = t.team ∧ n = t.group ∧ th.lane = t.lane then f th else th := by
  have groups : ∀ x : Team, x.key = t.team → x.updGroup t.group (fun g => g.updThread t.lane f) =
      x.remap fun n th => if x.key = t.team ∧ n = t.group ∧ th.lane = t.lane then f th else th := fun x hx => by
    simp only [Team.updGroup, Team.remap, updWhere]
    congr 1
    refine List.map_congr_left fun g _ => ?_
    by_cases hg : g.num = t.group
    · simp [hg, hx, Group.updThread, updWhere]
    · simp [hg]
  simp only [State.updThread, State.updGroup, State.updTeam, updWhere, State.remap]
  congr 1
  refine List.map_congr_left fun x _ => ?_
  by_cases hx : x.key = t.team
  · rw [if_pos (decide_eq_true hx), groups x hx]
  · simp only [hx, decide_false, Bool.false_eq_true, if_false, false_and, Team.remap_id]

/-- From one state to another threads have woken, and nothing else has changed. -/
structure State.wakes (s s' : State) : Prop where
  regs : ∀ v r j, s'.regVal v r j = s.regVal v r j
  threads : ∃ F, (∀ k n th, Thread.wakes th (F k n th)) ∧ s' = s.remap F

theorem State.wakes_refl (s : State) : s.wakes s := by
  refine ⟨fun _ _ _ => rfl, fun _ _ th => th, fun _ _ th => th.wakes_refl, ?_⟩
  simp only [State.remap, Team.remap_id, List.map_id']

theorem State.wakes_trans {a b c : State} (h : a.wakes b) (k : b.wakes c) : a.wakes c := by
  obtain ⟨r1, F, hF, rfl⟩ := h
  obtain ⟨r2, G, hG, rfl⟩ := k
  refine ⟨fun v r j => (r2 v r j).trans (r1 v r j), fun k n th => G k n (F k n th), fun k n th => Thread.wakes_trans (hF k n th) (hG k n _), ?_⟩
  simp only [State.remap, List.map_map, Function.comp_def, Team.remap_remap]
  rfl

theorem State.wakes_updThread (s : State) (t : Tid) {f : Thread → Thread} (hf : ∀ th, Thread.wakes th (f th)) : s.wakes (s.updThread t f) := by
  refine ⟨fun v r j => s.regVal_updThread t v f r j, _, fun k n th => ?_, s.updThread_eq_remap t f⟩
  split
  · exact hf th
  · exact th.wakes_refl

theorem State.wakes.mem {s s' : State} (h : s.wakes s') : s'.mem = s.mem := by
  obtain ⟨-, F, -, rfl⟩ := h
  rfl

theorem State.wakes.cur {s s' : State} (h : s.wakes s') : s'.cur = s.cur := by
  obtain ⟨-, F, -, rfl⟩ := h
  rfl

theorem State.wakes.team {s s' : State} (h : s.wakes s') {k : Nat} {x : Team} (hx : s.team? k = some x) :
    ∃ F, (∀ n th, Thread.wakes th (F n th)) ∧ s'.team? k = some (x.remap F) := by
  obtain ⟨-, F, hF, rfl⟩ := h
  exact ⟨F k, hF k, by rw [State.team?_remap, hx, Option.map_some]⟩

theorem State.wakes.group {s s' : State} (h : s.wakes s') {t : Tid} {g : Group} (hg : s.group? t = some g) :
    ∃ F, (∀ th, Thread.wakes th (F th)) ∧ s'.group? t = some { g with threads := g.threads.map F } := by
  obtain ⟨-, F, hF, rfl⟩ := h
  exact ⟨F t.team t.group, hF _ _, by rw [State.group?_remap, hg, Option.map_some]⟩

theorem State.wakes.thread {s s' : State} (h : s.wakes s') (t : Tid) : ∃ F, (∀ th, Thread.wakes th (F th)) ∧ s'.thread? t = (s.thread? t).map F := by
  obtain ⟨-, F, hF, rfl⟩ := h
  exact ⟨F t.team t.group, hF _ _, s.thread?_remap (fun k n th => (hF k n th).lane) t⟩

theorem Team.mem_remap {x : Team} {F : Nat → Thread → Thread} {th : Thread} (h : th ∈ (x.remap F).allThreads) :
    ∃ y ∈ x.allThreads, ∃ n, th = F n y := by
  simp only [Team.allThreads, Team.remap, List.flatMap_map, List.mem_flatMap, List.mem_map] at h ⊢
  obtain ⟨g, hg, y, hy, rfl⟩ := h
  exact ⟨y, ⟨g, hg, hy⟩, g.num, rfl⟩

/-! #### Markers with no fault to take -/

/-- Threads that wait at a marker have no fault pending. -/
def State.calm (s : State) (P : Tid → Prop) : Prop := ∀ u, P u → ∀ th, s.thread? u = some th → Park.marker ∈ th.parks → th.afaults = []

/-- Threads that wait at markers where they did, with the faults that they had. -/
theorem State.calm_of {s s' : State} {P : Tid → Prop} (h : s.calm P)
    (hs : ∀ u, P u → ∀ th', s'.thread? u = some th' →
      ∃ th, s.thread? u = some th ∧ (Park.marker ∈ th'.parks → Park.marker ∈ th.parks) ∧ th'.afaults = th.afaults) :
    s'.calm P := by
  intro u hu th' hth' hm
  obtain ⟨th, hth, parks, faults⟩ := hs u hu th' hth'
  exact faults.trans (h u hu th hth (parks hm))

theorem State.calm_wakes {s s' : State} {P : Tid → Prop} (h : s.calm P) (hs : s.wakes s') : s'.calm P :=
  State.calm_of h fun u _ th' hth' => by
    obtain ⟨F, hF, e⟩ := hs.thread u
    obtain ⟨th, hth, rfl⟩ := Option.map_eq_some_iff.1 (e.symm.trans hth')
    exact ⟨th, hth, fun hm => (hF th).parks hm, (hF th).afaults⟩

theorem State.passMarker_wakes {s : State} {P : Tid → Prop} (h : s.calm P) {t : Tid} (ht : P t) : s.wakes (s.passMarker t) := by
  unfold State.passMarker
  split
  case isFalse => exact s.wakes_refl
  case isTrue waits =>
    have woken : s.wakes (s.updThread t fun th => th.unpark s.clk.acycle fun k => decide (k = .marker)) :=
      s.wakes_updThread t fun th => th.wakes_unpark _ _
    unfold State.threadIs at waits
    split at waits
    case h_2 => cases waits
    case h_1 th hth =>
      have parks : th.parks = [.marker] := by simp only [Bool.and_eq_true, decide_eq_true_eq] at waits; exact waits.1
      have faults := h t ht th hth (by simp [parks])
      obtain ⟨F, hF, e⟩ := woken.thread t
      rw [hth, Option.map_some] at e
      simp only [State.deliverAsync_none e ((hF th).afaults.trans faults)]
      exact woken

theorem State.passMarkers_wakes {s : State} {P : Tid → Prop} (h : s.calm P) {ts : List Tid} (ht : ∀ t ∈ ts, P t) : s.wakes (s.passMarkers ts) := by
  unfold State.passMarkers
  induction ts generalizing s with
  | nil => exact s.wakes_refl
  | cons t ts ih =>
    have one := State.passMarker_wakes h (ht t List.mem_cons_self)
    exact State.wakes_trans one (ih (State.calm_wakes h one) fun u hu => ht u (List.mem_cons_of_mem _ hu))

end Sys2Proof.Machine

/-! ### Rejoin masks -/

namespace Sys2Proof.Machine

theorem Group.mask_setMask_same {g : Group} {m : Nat} (hm : m < g.masks.length) (x : Mask) : (g.setMask m x).mask m = x := by
  simp [Group.mask, Group.setMask, List.getD_eq_getElem?_getD, hm]

theorem Group.mask_setMask_other (g : Group) {m n : Nat} (h : n ≠ m) (x : Mask) : (g.setMask m x).mask n = g.mask n := by
  simp only [Group.mask, Group.setMask, List.getD_eq_getElem?_getD, List.getElem?_set_ne h.symm]

/-- The lanes of a thread's group. -/
def mates (t u : Tid) : Prop := u.team = t.team ∧ u.group = t.group

theorem State.group?_mates {s : State} {t u : Tid} (h : mates t u) : s.group? u = s.group? t := by
  rw [State.group?, State.group?, h.1, h.2]

theorem State.groupTids_mates {s : State} {t u : Tid} (hu : u ∈ s.groupTids t) : mates t u := by
  unfold State.groupTids at hu
  split at hu
  case h_2 => cases hu
  case h_1 g hg =>
    obtain ⟨th, -, rfl⟩ := List.mem_map.1 hu
    obtain ⟨x, -, hx⟩ := State.group?_team hg
    exact ⟨rfl, by simpa using List.find?_some hx⟩

/-- A thread after its group's threads have changed one by one, and its group's masks. -/
theorem State.thread?_updGroup_map (s : State) (t u : Tid) {f : Group → Group} {F : Thread → Thread} (hn : ∀ g, (f g).num = g.num)
    (hf : ∀ g, (f g).threads = g.threads.map F) (hF : ∀ th, (F th).lane = th.lane) :
    (s.updGroup t f).thread? u = if u.team = t.team ∧ u.group = t.group then (s.thread? u).map F else s.thread? u := by
  simp only [State.thread?, State.group?_updGroup s t u f hn]
  split
  · cases s.group? u with
    | none => rfl
    | some g =>
      have := g.thread?_map F hF u.lane
      simp only [Group.thread?] at this
      simp only [Option.map_some, Option.bind_some, Group.thread?, hf, this]
  · rfl

/-- A group whose mask is released, its waiters resumed (R68). -/
def Group.released (g : Group) (m now : Nat) : Group :=
  { (g.setMask m {}) with threads := g.threads.map fun th => th.unpark now fun k => decide (k = .waitm m) }

theorem State.releaseMask_wakes {s : State} {t : Tid} (h : s.calm (mates t)) (m : Nat) :
    (s.updGroup t fun g => g.released m s.clk.acycle).wakes (s.releaseMask t m) := by
  refine State.passMarkers_wakes (P := mates t) (State.calm_of h fun u _ th' hth' => ?_) fun u hu => State.groupTids_mates hu
  rw [State.thread?_updGroup_map s t u (f := fun g => g.released m s.clk.acycle) (fun _ => rfl) (fun _ => rfl) fun th => (th.wakes_unpark _ _).lane] at hth'
  split at hth'
  · obtain ⟨th, hth, rfl⟩ := Option.map_eq_some_iff.1 hth'
    have woken := th.wakes_unpark s.clk.acycle fun k => decide (k = .waitm m)
    exact ⟨th, hth, fun hm => woken.parks hm, woken.afaults⟩
  · exact ⟨th', hth', id, rfl⟩

/-- A mask that is released is empty, and no thread of its group waits at it. -/
theorem State.releaseMask_spec {s : State} {t : Tid} {g : Group} {m : Nat} (hg : s.group? t = some g) (hm : m < g.masks.length) (h : s.calm (mates t)) :
    let u := s.releaseMask t m
    ∃ y, u.mem = s.mem ∧ (∀ v r j, u.regVal v r j = s.regVal v r j) ∧ u.group? t = some y ∧ y.mask m = {} ∧ (∀ n, n ≠ m → y.mask n = g.mask n) ∧
      ∀ th ∈ y.threads, Park.waitm m ∉ th.parks := by
  have wakes := State.releaseMask_wakes h m
  have released : (s.updGroup t fun g => g.released m s.clk.acycle).group? t = some (g.released m s.clk.acycle) := by
    rw [State.group?_updGroup_same s t t (fun g => g.released m s.clk.acycle) (fun _ => rfl) rfl rfl, hg, Option.map_some]
  obtain ⟨F, hF, e⟩ := wakes.group released
  refine ⟨_, wakes.mem, fun v r j => ?_, e, Group.mask_setMask_same hm _, fun n hn => g.mask_setMask_other hn _, fun th hth => ?_⟩
  · rw [wakes.regs]
    exact s.regVal_updGroup_keep t v _ r j fun _ => ⟨rfl, rfl, rfl, rfl, rfl⟩
  · obtain ⟨y, hy, rfl⟩ := List.mem_map.1 hth
    obtain ⟨z, -, rfl⟩ := List.mem_map.1 hy
    refine fun hp => absurd ((hF _).parks hp) ?_
    rw [Thread.unpark_parks]
    simp

theorem State.checkMasks_one {s : State} {t : Tid} {g : Group} (hg : s.group? t = some g) (m : Nat) :
    s.checkMasks t [m] = if (g.mask m).ready then s.releaseMask t m else s := by
  simp only [State.checkMasks, hg]

/-! #### The words that leave a mask -/

/-- A mask number that its word accepts is one of twelve. -/
theorem State.clear_mask {s : State} {c : Cur} {h : Hdr} {k : Checks} {m : BitVec 4} (hc : s.clear c h k = true) (hk : k.illReg = maskIllegal m) {t : Tid}
    (ht : t ∈ s.actives c h) : m.toNat < 12 := by
  have legal := (State.clear_checks hc ht).2
  rw [hk] at legal
  simp only [maskIllegal, Bool.or_eq_false_iff, decide_eq_false_iff_not] at legal
  omega

/-- The group of a lane once its word has issued: its masks are as they were. -/
theorem State.entered_group {s : State} {t : Tid} {g : Group} (hg : s.group? t = some g) (c : Cur) (h : Hdr) (ops : List Opd) :
    ∃ y, (s.entered c h ops).group? t = some y ∧ y.masks = g.masks := by
  obtain ⟨y, hy, bare⟩ := State.sameBare_group (State.sameBare_of_sameBeyond (s.entered_same c h ops)) hg
  have masks : y.bare.masks = g.bare.masks := congrArg Group.masks bare
  exact ⟨y, hy, masks⟩

/-- Issue parks no thread and brings it no fault. -/
theorem State.entered_calm {s : State} {P : Tid → Prop} (h : s.calm P) (c : Cur) (hd : Hdr) (ops : List Opd) : (s.entered c hd ops).calm P :=
  State.calm_of h fun u _ th' hth' => by
    rw [State.entered_thread] at hth'
    split at hth'
    · obtain ⟨th, hth, rfl⟩ := Option.map_eq_some_iff.1 hth'
      exact ⟨th, hth, id, rfl⟩
    · exact ⟨th', hth', id, rfl⟩

theorem State.calm_group {s : State} {t : Tid} {g : Group} (hg : s.group? t = some g) (h : ∀ th ∈ g.threads, Park.marker ∈ th.parks → th.afaults = []) :
    s.calm (mates t) := fun u hu th hth hm => by
  rw [State.thread?, State.group?_mates hu, hg] at hth
  exact h th (List.mem_of_find?_eq_some hth) hm

/-- What a mask word has done in its lane before the release rule: its group's masks are those of before but for one. -/
structure State.masks (e : State) (t : Tid) (ms : List Mask) (parks : Option Park) (a : State) : Prop where
  mem : a.mem = e.mem
  regs : ∀ v r j, a.regVal v r j = e.regVal v r j
  group : ∃ y, a.group? t = some y ∧ y.masks = ms
  calm : e.calm (mates t) → a.calm (mates t)
  parked : ∀ p, parks = some p → a.threadIs t (fun th => th.parks.contains p) = true

/-- Change one mask of a lane's group. -/
def State.putMask (s : State) (t : Tid) (m : Nat) (f : Mask → BitVec 64 → Mask) : State :=
  s.updGroup t fun g => g.setMask m (f (g.mask m) (laneBit t.lane))

theorem State.putMask_masks {e : State} {t : Tid} {g : Group} (hg : e.group? t = some g) (m : Nat) (f : Mask → BitVec 64 → Mask) :
    e.masks t (g.masks.set m (f (g.mask m) (laneBit t.lane))) none (e.putMask t m f) := by
  refine ⟨rfl, fun v r j => e.regVal_updGroup_keep t v _ r j fun _ => ⟨rfl, rfl, rfl, rfl, rfl⟩, ⟨g.setMask m (f (g.mask m) (laneBit t.lane)), ?_, rfl⟩,
    fun h => State.calm_of h fun u _ th hth => ⟨th, ?_, id, rfl⟩, nofun⟩
  · rw [State.putMask, State.group?_updGroup_same e t t (fun g => g.setMask m (f (g.mask m) (laneBit t.lane))) (fun _ => rfl) rfl rfl, hg, Option.map_some]
  · rw [State.putMask, State.thread?_updGroup_map e t u (f := fun g => g.setMask m (f (g.mask m) (laneBit t.lane))) (F := id) (fun _ => rfl)
      (fun _ => (List.map_id _).symm) fun _ => rfl] at hth
    simpa using hth

/-- A lane that changes a mask and waits at it. -/
theorem State.putMask_parks {e : State} {t : Tid} {ms : List Mask} {m : Nat} {a : State} (h : e.masks t ms none a) (ht : (a.thread? t).isSome = true) :
    e.masks t ms (some (.waitm m)) (a.updThread t fun th => { th with parks := Park.waitm m :: th.parks }) := by
  obtain ⟨mem, regs, ⟨y, hy, hms⟩, calm, -⟩ := h
  have parks := fun u => State.thread?_updThread a t u (fun th => { th with parks := Park.waitm m :: th.parks }) fun _ => rfl
  refine ⟨mem, fun v r j => (a.regVal_updThread t v _ r j).trans (regs v r j),
    ⟨y.updThread t.lane fun th => { th with parks := Park.waitm m :: th.parks }, ?_, hms⟩, fun hc => ?_, fun p hp => ?_⟩
  · rw [State.updThread, State.group?_updGroup_same a t t (fun g => g.updThread t.lane _) (fun _ => rfl) rfl rfl, hy, Option.map_some]
  · refine State.calm_of (calm hc) fun u _ th' hth' => ?_
    rw [parks] at hth'
    split at hth'
    · obtain ⟨th, hth, rfl⟩ := Option.map_eq_some_iff.1 hth'
      exact ⟨th, hth, by simp, rfl⟩
    · exact ⟨th', hth', id, rfl⟩
  · obtain rfl := Option.some.inj hp
    obtain ⟨th, hth⟩ := Option.isSome_iff_exists.1 ht
    rw [State.threadIs, parks, if_pos rfl, hth]
    simp

/-- A mask word that changes its group's mask and then checks it. -/
theorem leavesMask_of {i : Instr} {h : Hdr} {m : BitVec 4} {parks : Bool} {f : Mask → BitVec 64 → Mask}
    (hex : ∀ s c t g, s.clear c h { illReg := maskIllegal m } = true → s.actives c h = [t] → (s.entered c h []).group? t = some g →
      (parks = true → (s.entered c h []).deliverAsync t c.pc = (false, s.entered c h [])) →
      ∃ a, exec i s = .next ((a.checkMasks t [m.toNat]).wordEnd h c) ∧
        (s.entered c h []).masks t (g.masks.set m.toNat (f (g.mask m.toNat) (laneBit t.lane))) (if parks then some (.waitm m.toNat) else none) a) :
    LeavesMask i h m parks f := by
  intro s c t g hc hact hg hlen hcalm hquiet x free
  obtain ⟨hcur, -⟩ := (State.clear_iff s c h _).1 hc
  have hm : m.toNat < g.masks.length := hlen ▸ State.clear_mask hc rfl (hact ▸ List.mem_singleton_self t)
  obtain ⟨ge, hge, same⟩ := State.entered_group hg c h []
  obtain ⟨a, run, mem, regs, ⟨ga, hga, hms⟩, calm, parked⟩ := hex s c t ge hc hact hge hquiet
  have calm := calm (State.entered_calm (State.calm_group hg hcalm) c h [])
  have before : ∀ n, ge.mask n = g.mask n := fun n => by rw [Group.mask, same, Group.mask]
  rw [before, same] at hms
  have this : ga.mask m.toNat = x := by rw [Group.mask, hms]; exact Group.mask_setMask_same hm x
  have others : ∀ n, n ≠ m.toNat → ga.mask n = g.mask n := fun n hn => by rw [Group.mask, hms]; exact g.mask_setMask_other hn x
  have mem : a.mem = s.mem := mem.trans (State.sameBeyond_mem (s.entered_same c h []))
  have regs : ∀ v r j, a.regVal v r j = s.regVal v r j := fun v r j => (regs v r j).trans (State.entered_regVal hcur h [] v r j)
  have ready : (ga.mask m.toNat).ready = free := by rw [this]; rfl
  rw [State.checkMasks_one hga, ready] at run
  cases hfree : free with
  | true =>
    rw [hfree, if_pos rfl] at run
    have hm' : m.toNat < ga.masks.length := by rw [hms, List.length_set]; exact hm
    obtain ⟨y, mem', regs', hy, empty, others', none⟩ := State.releaseMask_spec hga hm' calm
    exact ⟨_, y, run, mem'.trans mem, hy, empty, fun n hn => (others' n hn).trans (others n hn), fun _ => none, nofun,
      fun v r j => (regs' v r j).trans (regs v r j)⟩
  | false =>
    rw [hfree, if_neg nofun] at run
    exact ⟨a, ga, run, mem, hga, this, others, nofun, fun _ hp => parked _ (if_pos hp), regs⟩

/-- A word that changes its group's mask in one lane. -/
theorem State.maskWord_one {s : State} {c : Cur} {h : Hdr} {m : BitVec 4} {t : Tid} {f : State → Tid → Nat → State}
    (hc : s.clear c h { illReg := maskIllegal m } = true) (hact : s.actives c h = [t]) :
    s.maskWord h m f = ((f (s.entered c h []) t m.toNat).checkMasks t [m.toNat]).wordEnd h c := by
  rw [State.maskWord, State.word_clear hc _ false, hact]
  rfl

theorem leavesMask_join (h : Hdr) (m : BitVec 4) : LeavesMask (.join h m) h m false fun x b => { x with e := x.e ||| b } :=
  leavesMask_of fun _ _ _ _ hc hact hg _ =>
    ⟨_, congrArg Host.Outcome.next (State.maskWord_one hc hact), State.putMask_masks hg m.toNat fun x b => { x with e := x.e ||| b }⟩

theorem leavesMask_leave (h : Hdr) (m : BitVec 4) : LeavesMask (.leave h m) h m false fun x b => { x with e := x.e &&& ~~~b } :=
  leavesMask_of fun _ _ _ _ hc hact hg _ =>
    ⟨_, congrArg Host.Outcome.next (State.maskWord_one hc hact), State.putMask_masks hg m.toNat fun x b => { x with e := x.e &&& ~~~b }⟩

theorem leavesMask_waitm (h : Hdr) (m : BitVec 4) : LeavesMask (.waitm h m) h m true fun x b => { x with w := x.w ||| b } := by
  refine leavesMask_of fun s c t g hc hact hg hquiet => ⟨_, ?_, State.putMask_parks (State.putMask_masks hg m.toNat fun x b => { x with w := x.w ||| b }) ?_⟩
  · obtain ⟨-, -, hpop, -⟩ := (State.clear_iff s c h _).1 hc
    have lanes := State.deliverIf_quiet hpop (hquiet rfl)
    show Host.Outcome.next (s.word h _ _) = _
    rw [State.word_clear hc, hact]
    simp only [lanes]
    rfl
  · have live := State.clear_thread hc (hact ▸ List.mem_singleton_self t)
    exact (congrArg Option.isSome (State.thread?_updGroup_keep (s := s.entered c h []) (t := t) (fun g => g.setMask m.toNat _)
      (fun _ => rfl) fun _ => rfl)).trans live

/-- MCLR of one lane: the release leaves the mask empty, so that the release rule finds nothing to do. -/
theorem mclrReleases {h : Hdr} {m : BitVec 4} {s : State} {c : Cur} {t : Tid} {g : Group} (hc : s.clear c h { illReg := maskIllegal m } = true)
    (hact : s.actives c h = [t]) (hg : s.group? t = some g) (hlen : g.masks.length = 12)
    (hcalm : ∀ th ∈ g.threads, Park.marker ∈ th.parks → th.afaults = []) :
    ∃ (u : State) (y : Group), exec (.mclr h m) s = .next (u.wordEnd h c) ∧ u.mem = s.mem ∧ u.group? t = some y ∧ y.mask m.toNat = {} ∧
      (∀ n, n ≠ m.toNat → y.mask n = g.mask n) ∧ ∀ th ∈ y.threads, Park.waitm m.toNat ∉ th.parks := by
  have hm := State.clear_mask hc rfl (hact ▸ List.mem_singleton_self t)
  obtain ⟨ge, hge, same⟩ := State.entered_group hg c h []
  obtain ⟨y, mem, -, hy, empty, others, none⟩ := State.releaseMask_spec hge (by rw [same, hlen]; exact hm)
    (State.entered_calm (State.calm_group hg hcalm) c h [])
  have settled : ((s.entered c h []).releaseMask t m.toNat).checkMasks t [m.toNat] = (s.entered c h []).releaseMask t m.toNat := by
    rw [State.checkMasks_one hy, empty]
    rfl
  refine ⟨(s.entered c h []).releaseMask t m.toNat, y, ?_, mem.trans (State.sameBeyond_mem (s.entered_same c h [])), hy, empty, fun n hn => ?_, none⟩
  · show Host.Outcome.next (s.maskWord h m _) = _
    rw [State.maskWord_one hc hact, settled]
  · rw [others n hn, Group.mask, same, Group.mask]

/-- The destination of MGET: a pair of s registers. -/
def mgetDest (r : Reg) : Opd := { reg := r, n := 2, align := 2, use := .wr, v := false, h := false, s := true }

theorem pairOf_lo_hi (v : DWord) : pairOf v.lo v.hi = v := (append_eq_iff (v := 32) (w := 32) v _ _).2 ⟨rfl, rfl⟩

/-- MGET of one lane, a short result. -/
theorem mgetReads {h : Hdr} {o : MgetF} {s : State} {c : Cur} {t : Tid} {g : Group}
    (hc : s.clear c h { ops := [mgetDest o.d], illReg := maskIllegal o.m } = true) (hact : s.actives c h = [t]) (hg : s.group? t = some g) :
    ∃ u : State, exec (.mget h o) s = .next (u.wordEnd h c) ∧ u.mem = s.mem ∧
      pairOf (u.regVal t o.d 0) (u.regVal t o.d 1) = if o.arr then (g.mask o.m.toNat).w else (g.mask o.m.toNat).e := by
  have ht : t ∈ s.actives c h := hact ▸ List.mem_singleton_self t
  have noQ : ∀ i, o.d ≠ .q i := fun i hi => by
    obtain ⟨th, tm, g, -, -, -, legal, -⟩ := State.clear_opd hc ht (List.mem_singleton_self _)
    simp [mgetDest, Opd.illegal, hi] at legal
  have dest : (s.entered c h [mgetDest o.d]).destOk t o.d 2 := State.clear_dest hc ht (List.mem_singleton_self (mgetDest o.d)) (.inl rfl) noQ (Nat.le_refl 2)
  have plain : (s.entered c h [mgetDest o.d]).plainAt t [mgetDest o.d] := fun x hx => by
    obtain rfl := List.mem_singleton.1 hx
    exact ⟨noQ, fun h => absurd (.inl rfl) h⟩
  obtain ⟨ge, hge, same⟩ := State.entered_group hg c h [mgetDest o.d]
  obtain ⟨v, hv⟩ : ∃ v : DWord, v = if o.arr then (ge.mask o.m.toNat).w else (ge.mask o.m.toNat).e := ⟨_, rfl⟩
  have result := State.result_written dest (fun _ => State.entered_leads hact _) [v.lo, v.hi]
  refine ⟨(s.entered c h [mgetDest o.d]).writeRegs t (destRegs true o.d 0 [v.lo, v.hi]),
    congrArg Host.Outcome.next (State.byLane_one hc hact plain rfl nofun ?_),
    State.sameBeyond_mem (State.sameBeyond_trans (s.entered_same c h [mgetDest o.d]) (State.writeRegs_same _ t _)), ?_⟩
  · unfold mgetDest at hge result
    dsimp only
    rw [hge, ← hv]
    exact result
  · obtain ⟨reads, -⟩ := State.writeDest _ t o.d 0 [v.lo, v.hi] dest
    have lo := reads 0 Nat.zero_lt_two
    have hi := reads 1 Nat.one_lt_two
    rw [Group.mask, ← same, ← Group.mask, ← hv]
    exact (congrArg₂ pairOf lo hi).trans (pairOf_lo_hi v)

theorem maskWords : MaskWords := fun h m _ =>
  ⟨leavesMask_join h m, leavesMask_leave h m, leavesMask_waitm h m, fun _ _ _ _ => mclrReleases, fun _ _ _ _ => mgetReads⟩

end Sys2Proof.Machine

/-! ### Barriers -/

namespace Sys2Proof.Machine

/-! #### One barrier of a team -/

theorem Team.barrier_setBarrier {x : Team} {b : Nat} (hb : b < x.barriers.length) (z : Barrier) : (x.setBarrier b z).barrier b = z := by
  simp [Team.barrier, Team.setBarrier, List.getD_eq_getElem?_getD, hb]

/-- The lanes of a team. -/
def teamMates (k : Nat) (u : Tid) : Prop := u.team = k

theorem State.teamTids_mates {s : State} {k : Nat} {u : Tid} (hu : u ∈ s.teamTids k) : teamMates k u := by
  unfold State.teamTids at hu
  split at hu
  case h_2 => cases hu
  case h_1 x hx =>
    obtain ⟨g, -, hg⟩ := List.mem_flatMap.1 hu
    obtain ⟨th, -, rfl⟩ := List.mem_map.1 hg
    exact (by simpa using List.find?_some hx : x.key = k)

/-- Threads of a team whose threads have changed one by one. -/
theorem State.thread?_of_remap {s u : State} {k : Nat} {v : Tid} {x y : Team} (hv : teamMates k v) (hx : s.team? k = some x) (hy : u.team? k = some y)
    {F : Nat → Thread → Thread} (hF : ∀ n th, (F n th).lane = th.lane) (hg : y.groups = (x.remap F).groups) :
    u.thread? v = (s.thread? v).map (F v.group) := by
  obtain rfl : v.team = k := hv
  have groups : y.group? v.group = (x.remap F).group? v.group := by rw [Team.group?, hg, Team.group?]
  simp only [State.thread?, State.group?, hx, hy, Option.bind_some, groups, Team.group?_remap]
  cases x.group? v.group with
  | none => rfl
  | some g => exact g.thread?_map _ (hF _) _

theorem State.calm_team {s : State} {k : Nat} {x : Team} (hx : s.team? k = some x) (h : ∀ th ∈ x.allThreads, Park.marker ∈ th.parks → th.afaults = []) :
    s.calm (teamMates k) := fun u hu th hth hm => by
  obtain ⟨g, hg, hth⟩ := Option.bind_eq_some_iff.1 hth
  obtain ⟨y, hy, hg⟩ := State.group?_team hg
  obtain rfl : x = y := Option.some.inj (hx.symm.trans (hu ▸ hy))
  exact h th (List.mem_flatMap.2 ⟨g, List.mem_of_find?_eq_some hg, List.mem_of_find?_eq_some hth⟩) hm

/-- What becomes of a barrier of a team: the barrier itself, and, where a phase has ended, no thread that waits for it; threads of the team at most wake. -/
structure State.settles (s : State) (k b : Nat) (z : Barrier) (ended : Prop) (p : BitVec 16) (u : State) : Prop where
  mem : u.mem = s.mem
  cur : u.cur = s.cur
  team : ∃ y, u.team? k = some y ∧ y.barriers.length = (s.team? k).elim 0 (fun x => x.barriers.length) ∧ y.barrier b = z ∧
    (ended → ∀ th ∈ y.allThreads, Park.barrier b p ∉ th.parks)
  thread : ∀ v, teamMates k v → ∃ F, (∀ th, Thread.wakes th (F th)) ∧ u.thread? v = (s.thread? v).map F

theorem State.settles.calm {s u : State} {k b : Nat} {z : Barrier} {ended : Prop} {p : BitVec 16} (h : s.settles k b z ended p u)
    (hs : s.calm (teamMates k)) : u.calm (teamMates k) :=
  State.calm_of hs fun v hv th' hth' => by
    obtain ⟨F, hF, e⟩ := h.thread v hv
    obtain ⟨th, hth, rfl⟩ := Option.map_eq_some_iff.1 (e.symm.trans hth')
    exact ⟨th, hth, fun hm => (hF th).parks hm, (hF th).afaults⟩

/-- Change one barrier of a team. -/
def State.putBarrier (s : State) (k b : Nat) (f : Barrier → Barrier) : State := s.updTeam k fun t => t.setBarrier b (f (t.barrier b))

theorem State.putBarrier_team {s : State} {k : Nat} {x : Team} (hx : s.team? k = some x) (b : Nat) (f : Barrier → Barrier) :
    (s.putBarrier k b f).team? k = some (x.setBarrier b (f (x.barrier b))) := by
  rw [State.putBarrier, State.team?_updTeam_same s k (fun t => t.setBarrier b (f (t.barrier b))) fun _ => rfl, hx, Option.map_some]

theorem State.putBarrier_settles {s : State} {k b : Nat} {x : Team} (hx : s.team? k = some x) (hb : b < x.barriers.length) (f : Barrier → Barrier)
    (p : BitVec 16) : s.settles k b (f (x.barrier b)) False p (s.putBarrier k b f) := by
  have team := State.putBarrier_team hx b f
  refine ⟨rfl, rfl, ⟨_, team, by simp [hx, Team.setBarrier], Team.barrier_setBarrier hb _, False.elim⟩, fun v hv => ⟨id, Thread.wakes_refl, ?_⟩⟩
  exact State.thread?_of_remap (F := fun _ th => th) hv hx team (fun _ _ => rfl) (congrArg Team.groups x.remap_id).symm

theorem State.settles_trans {s a u : State} {k b : Nat} {z z' : Barrier} {ended ended' : Prop} {p p' : BitVec 16} (h : s.settles k b z ended p a)
    (h' : a.settles k b z' ended' p' u) : s.settles k b z' ended' p' u := by
  obtain ⟨y, hy, len, -, -⟩ := h.team
  obtain ⟨y', hy', len', bar, parks⟩ := h'.team
  refine ⟨h'.mem.trans h.mem, h'.cur.trans h.cur, ⟨y', hy', ?_, bar, parks⟩, fun v hv => ?_⟩
  · rw [len', hy, ← len]
    rfl
  · obtain ⟨F, hF, e⟩ := h.thread v hv
    obtain ⟨G, hG, e'⟩ := h'.thread v hv
    exact ⟨G ∘ F, fun th => Thread.wakes_trans (hF th) (hG _), by rw [e', e, Option.map_map]⟩

/-- What a completed phase does to a thread of its team. -/
def Team.pass (t : Team) (b now : Nat) (_ : Nat) (th : Thread) : Thread := th.passBarrier now b (t.barrier b).p t.waveDone

/-- A team when a phase of its barrier completes (R72). -/
def Team.phase (t : Team) (b now : Nat) : Team := (t.setBarrier b { t.barrier b with c := 0, p := (t.barrier b).p + 1 }).remap (t.pass b now)

theorem Team.pass_wakes (t : Team) (b now n : Nat) (th : Thread) : th.wakes (t.pass b now n th) := th.wakes_passBarrier _ _ _ _

theorem State.completePhase_settles {s : State} {k b : Nat} {x : Team} (hx : s.team? k = some x) (hb : b < x.barriers.length) (h : s.calm (teamMates k)) :
    s.settles k b { x.barrier b with c := 0, p := (x.barrier b).p + 1 } True (x.barrier b).p (s.completePhase k b) := by
  have team : (s.updTeam k fun t => t.phase b s.clk.acycle).team? k = some (x.phase b s.clk.acycle) := by
    rw [State.team?_updTeam_same s k (fun t => t.phase b s.clk.acycle) fun _ => rfl, hx, Option.map_some]
  have threads : ∀ v, teamMates k v → (s.updTeam k fun t => t.phase b s.clk.acycle).thread? v = (s.thread? v).map (x.pass b s.clk.acycle v.group) :=
    fun v hv => State.thread?_of_remap hv hx team (fun n th => (x.pass_wakes b s.clk.acycle n th).lane) rfl
  have calm : (s.updTeam k fun t => t.phase b s.clk.acycle).calm (teamMates k) := State.calm_of h fun v hv th' hth' => by
    obtain ⟨th, hth, rfl⟩ := Option.map_eq_some_iff.1 ((threads v hv).symm.trans hth')
    obtain ⟨-, parks, faults⟩ := x.pass_wakes b s.clk.acycle v.group th
    exact ⟨th, hth, fun hm => parks hm, faults⟩
  have wakes : (s.updTeam k fun t => t.phase b s.clk.acycle).wakes (s.completePhase k b) :=
    State.passMarkers_wakes calm fun _ hu => State.teamTids_mates hu
  obtain ⟨F, hF, e⟩ := wakes.team team
  refine ⟨wakes.mem, wakes.cur, ⟨_, e, ?_, Team.barrier_setBarrier hb _, fun _ th hth => ?_⟩, fun v hv => ?_⟩
  · simp [hx, Team.phase, Team.setBarrier, Team.remap]
  · obtain ⟨y, hy, n, rfl⟩ := Team.mem_remap hth
    obtain ⟨z, -, n', rfl⟩ := Team.mem_remap hy
    exact fun hp => z.passBarrier_parks _ _ _ _ ((hF n _).parks hp)
  · obtain ⟨G, hG, e⟩ := wakes.thread v
    refine ⟨G ∘ x.pass b s.clk.acycle v.group, fun th => Thread.wakes_trans (x.pass_wakes b s.clk.acycle v.group th) (hG _), ?_⟩
    rw [e, threads v hv, Option.map_map]

/-- A barrier after an arrival (R72). -/
def Barrier.arrived (x : Barrier) : Barrier := if x.c + 1 = x.n then { x with c := 0, p := x.p + 1 } else { x with c := x.c + 1 }

theorem State.arrive_settles {s : State} {k b : Nat} {x : Team} (hx : s.team? k = some x) (hb : b < x.barriers.length) (h : s.calm (teamMates k)) :
    s.settles k b (x.barrier b).arrived ((x.barrier b).c + 1 = (x.barrier b).n) (x.barrier b).p (s.arrive k b) := by
  have counted := State.putBarrier_settles hx hb (fun z => { z with c := z.c + 1 }) (x.barrier b).p
  have team := State.putBarrier_team hx b fun z => { z with c := z.c + 1 }
  have bar : (x.setBarrier b { x.barrier b with c := (x.barrier b).c + 1 }).barrier b = { x.barrier b with c := (x.barrier b).c + 1 } :=
    Team.barrier_setBarrier hb _
  have unfolded : s.arrive k b = if (x.barrier b).c + 1 = (x.barrier b).n then (s.putBarrier k b fun z => { z with c := z.c + 1 }).completePhase k b
      else s.putBarrier k b fun z => { z with c := z.c + 1 } := by
    show (match (s.putBarrier k b fun z => { z with c := z.c + 1 }).team? k with | none => _ | some t => _) = _
    rw [team]
    simp only [bar]
    rfl
  rw [unfolded, Barrier.arrived]
  split
  case isTrue he =>
    have ended := State.settles_trans counted (State.completePhase_settles team (by simpa [Team.setBarrier] using hb) (counted.calm h))
    rw [bar] at ended
    exact ⟨ended.mem, ended.cur, by obtain ⟨y, h1, h2, h3, h4⟩ := ended.team; exact ⟨y, h1, h2, h3, fun _ => h4 trivial⟩, ended.thread⟩
  case isFalse he =>
    exact ⟨counted.mem, counted.cur, by obtain ⟨y, h1, h2, h3, -⟩ := counted.team; exact ⟨y, h1, h2, h3, fun e => absurd e he⟩, counted.thread⟩

end Sys2Proof.Machine

/-! ### Barrier words -/

namespace Sys2Proof.Machine

/-- The team of a lane once its word has issued: its barriers are as they were. -/
theorem State.entered_team {s : State} {k : Nat} {x : Team} (hx : s.team? k = some x) (c : Cur) (h : Hdr) (ops : List Opd) :
    ∃ y, (s.entered c h ops).team? k = some y ∧ y.barriers = x.barriers := by
  obtain ⟨y, hy, bare⟩ := State.sameBare_team (State.sameBare_of_sameBeyond (s.entered_same c h ops)) hx
  have barriers : y.bare.barriers = x.bare.barriers := congrArg Team.barriers bare
  exact ⟨y, hy, barriers⟩

theorem State.barrierOf_team {s : State} {t : Tid} {x : Team} (hx : s.team? t.team = some x) (b : Nat) : s.barrierOf t b = x.barrier b := by
  rw [State.barrierOf, hx]

/-- A team without deterministic order applies no wave at a barrier (R346). -/
theorem State.settleWaves_off {s : State} {t : Tid} (h : (s.descOfTid t).det = false) : s.settleWaves t = s := by
  rw [State.settleWaves, h]
  rfl

theorem State.closeThread_off {s : State} {t : Tid} (h : (s.descOfTid t).det = false) : s.closeThread t = s := by
  rw [State.closeThread, h]
  exact State.settleWaves_off h

/-- What a barrier word of one lane meets once it has issued: its team's barriers as they were, no deterministic order, no fault at a marker. -/
structure State.atBarriers (s : State) (t : Tid) (tm te : Team) (e : State) : Prop where
  team : e.team? t.team = some te
  barriers : te.barriers = tm.barriers
  det : (e.descOfTid t).det = false
  calm : e.calm (teamMates t.team)
  mem : e.mem = s.mem

theorem State.entered_atBarriers {s : State} {t : Tid} {tm : Team} (htm : s.team? t.team = some tm) (hdet : (s.descOf tm).det = false)
    (hcalm : ∀ th ∈ tm.allThreads, Park.marker ∈ th.parks → th.afaults = []) (c : Cur) (h : Hdr) (ops : List Opd) :
    ∃ te, s.atBarriers t tm te (s.entered c h ops) := by
  obtain ⟨te, hte, barriers⟩ := State.entered_team htm c h ops
  refine ⟨te, hte, barriers, ?_, State.entered_calm (State.calm_team htm hcalm) c h ops, State.sameBeyond_mem (s.entered_same c h ops)⟩
  rw [State.sameBeyond_descOfTid (s.entered_same c h ops), State.descOfTid, htm]
  exact hdet

theorem State.atBarriers.barrier {s e : State} {t : Tid} {tm te : Team} (h : s.atBarriers t tm te e) (b : Nat) : te.barrier b = tm.barrier b := by
  rw [Team.barrier, h.barriers, Team.barrier]

/-! #### BARI -/

/-- The operand of BARI's count, if it is a register. -/
def bariOps (n : CntOpd) : List Opd := match n with | .reg r => [Opd.sk r] | .imm _ => []

/-- BARI's count, from the values that it reads. -/
def bariN (n : CntOpd) (vals : List (List Word)) : Nat := match n with | .reg _ => (val1 vals 0).toNat | .imm i => i.toNat

/-- The count that a lane's BARI sets. -/
def State.bariCount (s : State) (t : Tid) (n : CntOpd) : Nat := bariN n (s.opdVals t (bariOps n))

/-- What BARI does in its lane. -/
def bariLane (o : BariF) (t : Tid) (vals : List (List Word)) (s : State) : State × Option Park :=
  let n := bariN o.n vals
  if n < 1 ∨ 1024 < n then (s.trap t fcIllegalOp, none)
  else
    let s := (s.settleWaves t).putBarrier t.team o.bar.toNat fun x => { x with n := n }
    let c := (s.barrierOf t o.bar.toNat).c
    (if 0 < c ∧ n ≤ c then s.completePhase t.team o.bar.toNat else s, none)

theorem exec_bari (h : Hdr) (o : BariF) (s : State) : exec (.bari h o) s = .next (s.byLane h { ops := bariOps o.n, illOp := inHandler } (bariLane o)) := rfl

/-- A barrier whose count has been set. -/
def Barrier.counted (x : Barrier) (n : Nat) : Barrier := if 0 < x.c ∧ n ≤ x.c then { n := n, c := 0, p := x.p + 1 } else { x with n := n }

theorem State.bariLane_settles {s e : State} {t : Tid} {tm te : Team} {o : BariF} {vals : List (List Word)} {n : Nat} (he : s.atBarriers t tm te e)
    (hlen : tm.barriers.length = 16) (hn : n = bariN o.n vals) (h1 : 1 ≤ n) (h2 : n ≤ 1024) :
    ∃ u, bariLane o t vals e = (u, none) ∧
      e.settles t.team o.bar.toNat ((tm.barrier o.bar.toNat).counted n) (0 < (tm.barrier o.bar.toNat).c ∧ n ≤ (tm.barrier o.bar.toNat).c)
        (tm.barrier o.bar.toNat).p u := by
  have hb : o.bar.toNat < te.barriers.length := by rw [he.barriers, hlen]; exact o.bar.isLt
  have set_ := State.putBarrier_settles he.team hb (fun x => { x with n := n }) (tm.barrier o.bar.toNat).p
  have team := State.putBarrier_team he.team o.bar.toNat fun x => { x with n := n }
  have bar := Team.barrier_setBarrier hb { te.barrier o.bar.toNat with n := n }
  have lane : bariLane o t vals e = (if 0 < (tm.barrier o.bar.toNat).c ∧ n ≤ (tm.barrier o.bar.toNat).c
      then (e.putBarrier t.team o.bar.toNat fun x => { x with n := n }).completePhase t.team o.bar.toNat
      else e.putBarrier t.team o.bar.toNat fun x => { x with n := n }, none) := by
    have legal : ¬(n < 1 ∨ 1024 < n) := by omega
    have count := State.barrierOf_team team o.bar.toNat
    rw [bar, he.barrier] at count
    simp only [bariLane, ← hn, if_neg legal, State.settleWaves_off he.det, count]
  rw [lane, Barrier.counted]
  refine ⟨_, rfl, ?_⟩
  split
  case isTrue hc =>
    have done := State.settles_trans set_ (State.completePhase_settles team (by simpa [Team.setBarrier] using hb) (set_.calm he.calm))
    rw [bar, he.barrier] at done
    exact ⟨done.mem, done.cur, by obtain ⟨y, h1, h2, h3, h4⟩ := done.team; exact ⟨y, h1, h2, h3, fun _ => h4 trivial⟩, done.thread⟩
  case isFalse hc =>
    rw [he.barrier] at set_
    exact ⟨set_.mem, set_.cur, by obtain ⟨y, h1, h2, h3, -⟩ := set_.team; exact ⟨y, h1, h2, h3, fun e => absurd e hc⟩, set_.thread⟩

/-- A source that an active lane reads at once. -/
theorem State.plainAt_one {s : State} {c : Cur} {h : Hdr} {k : Checks} {t : Tid} (hc : s.clear c h k = true) (hact : s.actives c h = [t])
    (hp : s.plain [t] k.ops = true) : (s.entered c h k.ops).plainAt t k.ops :=
  State.entered_plainAt ((State.clear_iff s c h k).1 hc).1 (hact ▸ hp) (hact ▸ List.mem_singleton_self t)

/-- A destination that is no queue is at once there. -/
theorem State.plainAt_dest {s : State} {c : Cur} {h : Hdr} {k : Checks} {t : Tid} {r : Reg} (hc : s.clear c h k = true) (ht : t ∈ s.actives c h)
    (hk : k.ops = [Opd.dvs r]) : (∀ i, r ≠ .q i) ∧ (s.entered c h k.ops).plainAt t k.ops := by
  have noQ : ∀ i, r ≠ .q i := fun i hi => by
    obtain ⟨th, tm, g, -, -, -, legal, -⟩ := State.clear_opd hc ht (hk ▸ List.mem_singleton_self (Opd.dvs r))
    simp [Opd.dvs, Opd.illegal, hi] at legal
  refine ⟨noQ, fun x hx => ?_⟩
  obtain rfl := List.mem_singleton.1 (hk ▸ hx)
  exact ⟨noQ, fun h => absurd (.inl rfl) h⟩

theorem bari_counts {h : Hdr} {o : BariF} {s : State} {c : Cur} {t : Tid} {tm : Team} (hact : s.actives c h = [t]) (htm : s.team? t.team = some tm)
    (hlen : tm.barriers.length = 16) (hdet : (s.descOf tm).det = false) (hcalm : ∀ th ∈ tm.allThreads, Park.marker ∈ th.parks → th.afaults = [])
    (hc : s.clear c h { ops := bariOps o.n, illOp := inHandler } = true) (hp : s.plain [t] (bariOps o.n) = true) (h1 : 1 ≤ s.bariCount t o.n)
    (h2 : s.bariCount t o.n ≤ 1024) :
    ∃ (u : State) (y : Team), exec (.bari h o) s = .next (u.wordEnd h c) ∧ u.mem = s.mem ∧ u.team? t.team = some y ∧
      y.barrier o.bar.toNat = (tm.barrier o.bar.toNat).counted (s.bariCount t o.n) ∧
      (0 < (tm.barrier o.bar.toNat).c → s.bariCount t o.n ≤ (tm.barrier o.bar.toNat).c →
        ∀ th ∈ y.allThreads, Park.barrier o.bar.toNat (tm.barrier o.bar.toNat).p ∉ th.parks) := by
  obtain ⟨te, he⟩ := State.entered_atBarriers htm hdet hcalm c h (bariOps o.n)
  obtain ⟨u, lane, settles⟩ := State.bariLane_settles he hlen rfl h1 h2
  obtain ⟨y, hy, -, bar, woken⟩ := settles.team
  refine ⟨u, y, ?_, settles.mem.trans he.mem, hy, bar, fun h1 h2 => woken ⟨h1, h2⟩⟩
  exact (exec_bari h o s).trans (congrArg Host.Outcome.next (State.byLane_one hc hact (State.plainAt_one hc hact hp) rfl nofun lane))

theorem bari_illegal {h : Hdr} {o : BariF} {s : State} {c : Cur} {t : Tid} (hact : s.actives c h = [t])
    (hc : s.clear c h { ops := bariOps o.n, illOp := inHandler } = true) (hp : s.plain [t] (bariOps o.n) = true)
    (hn : s.bariCount t o.n < 1 ∨ 1024 < s.bariCount t o.n) :
    exec (.bari h o) s = .next (((s.entered c h (bariOps o.n)).trap t fcIllegalOp).wordEnd h c) := by
  have lane : bariLane o t (s.opdVals t (bariOps o.n)) (s.entered c h (bariOps o.n)) = ((s.entered c h (bariOps o.n)).trap t fcIllegalOp, none) := if_pos hn
  exact (exec_bari h o s).trans (congrArg Host.Outcome.next (State.byLane_one hc hact (State.plainAt_one hc hact hp) rfl nofun lane))

/-! #### Results that wake no thread -/

/-- From one state to another a team's barriers stand, and its threads wait for what they waited for. -/
def State.keepsWaits (s u : State) (k : Nat) : Prop :=
  ∀ x, s.team? k = some x → ∃ y, u.team? k = some y ∧ y.barriers = x.barriers ∧ y.allThreads.map Thread.parks = x.allThreads.map Thread.parks

theorem State.keepsWaits_trans {s a u : State} {k : Nat} (h : s.keepsWaits a k) (h' : a.keepsWaits u k) : s.keepsWaits u k := fun x hx => by
  obtain ⟨y, hy, bars, parks⟩ := h x hx
  obtain ⟨z, hz, bars', parks'⟩ := h' y hy
  exact ⟨z, hz, bars'.trans bars, parks'.trans parks⟩

theorem State.updGroup_keepsWaits (s : State) (t : Tid) {f : Group → Group} (hf : ∀ g, (f g).threads.map Thread.parks = g.threads.map Thread.parks)
    (k : Nat) : s.keepsWaits (s.updGroup t f) k := fun x hx => by
  have parks : (x.updGroup t.group f).allThreads.map Thread.parks = x.allThreads.map Thread.parks := by
    simp only [Team.allThreads, Team.updGroup, updWhere, List.flatMap_map, List.map_flatMap]
    refine List.flatMap_congr fun g _ => ?_
    split
    · exact hf g
    · rfl
  rw [State.team?_updGroup, hx]
  split
  · exact ⟨_, rfl, rfl, parks⟩
  · exact ⟨x, rfl, rfl, rfl⟩

theorem State.updThread_keepsWaits (s : State) (t : Tid) {f : Thread → Thread} (hf : ∀ th, (f th).parks = th.parks) (k : Nat) :
    s.keepsWaits (s.updThread t f) k := by
  refine State.updGroup_keepsWaits s t (fun g => ?_) k
  simp only [Group.updThread, updWhere, List.map_map]
  refine List.map_congr_left fun th _ => ?_
  simp only [Function.comp]
  split
  · exact hf th
  · rfl

theorem State.addLong_keepsWaits (s : State) (t : Tid) (ready : Bool) (regs : List LReg) (sh : Bool) (k : Nat) :
    s.keepsWaits (s.addLong t ready regs sh).2 k := by
  refine State.updThread_keepsWaits s.fresh.2 t (fun th => ?_) k
  rfl

/-- A word to an s register. -/
theorem State.writeS_keepsWaits (s : State) (t : Tid) (i : Fin 64) (v : Word) (k : Nat) : s.keepsWaits (s.writeRegs t (destRegs true (.s i) 0 [v])) k := by
  refine State.keepsWaits_trans (a := s.updGroup t fun g => { g with threads := g.threads.map fun th => th.dropLong .s (i.val + 0) })
    (State.updGroup_keepsWaits s t (fun g => ?_) k) 
    (State.updGroup_keepsWaits _ t (f := fun g => { g with sregs := Mem.setW32 g.sregs (4 * (i.val + 0)) v }) (fun _ => rfl) k)
  rw [List.map_map]
  rfl

theorem State.result_long {s : State} {t : Tid} {r : Reg} (noQ : ∀ i, r ≠ .q i) (vals : List Word) :
    s.result t true r vals = ((s.addLong t true (destRegs (s.leads t) r 0 vals) r.isS).2, none) := by
  cases r with
  | q i => exact absurd rfl (noQ i)
  | _ => rfl

/-- A result of one word to a V register, long, or to an s register of the lead lane, short. -/
theorem State.result_dvs {s : State} {t : Tid} {r : Reg} (noQ : ∀ i, r ≠ .q i) (hlane : t.lane < 64) (hlead : s.leads t = true)
    (ht : (s.thread? t).isSome = true) (v : Word) :
    ∃ u, s.result t (!r.isS) r [v] = (u, none) ∧ s.sameBeyond u ∧ (∀ k, s.keepsWaits u k) ∧ (r.isS = true → u.regVal t r 0 = v) ∧
      (r.isS = false → HoldsLong u t (destRegs true r 0 [v])) := by
  cases hr : r.isS with
  | true =>
    cases r with
    | s i =>
      have group : (s.group? t).isSome = true := by
        obtain ⟨th, hth⟩ := Option.isSome_iff_exists.1 ht
        obtain ⟨g, hg, -⟩ := Option.bind_eq_some_iff.1 hth
        rw [hg]
        rfl
      have dest : s.destOk t (.s i) 1 := ⟨hlane, group, trivial⟩
      obtain ⟨reads, -⟩ := State.writeDest s t (.s i) 0 [v] dest
      exact ⟨_, State.result_written dest (fun _ => hlead) [v], s.writeRegs_same t _, s.writeS_keepsWaits t i v, fun _ => reads 0 Nat.zero_lt_one, nofun⟩
    | _ => cases hr
  | false =>
    have long : s.result t true r [v] = ((s.addLong t true (destRegs true r 0 [v]) false).2, none) := by rw [State.result_long noQ, hlead, hr]
    obtain ⟨th, hth⟩ := Option.isSome_iff_exists.1 ht
    refine ⟨_, long, s.addLong_same t true _ false, s.addLong_keepsWaits t true _ false, nofun, fun _ => ?_⟩
    refine ⟨_, by rw [s.addLong_thread, if_pos rfl, hth, Option.map_some], _, List.mem_append_right _ (List.mem_singleton_self _), rfl, rfl⟩

/-! #### BARA, BARW and BARS -/

/-- What a lane of a word at a delivery point need not wait for. -/
def State.goesOn (s : State) (c : Cur) (h : Hdr) (ops : List Opd) (t : Tid) (a : MemOrder) : Prop :=
  (s.entered c h ops).deliverAsync t c.pc = (false, s.entered c h ops) ∧ (s.entered c h ops).accessWaits a [t] = false

/-- A lane that waits for a phase. -/
def Thread.awaits (th : Thread) (b : Nat) (ph : BitVec 16) : Thread := { th with parks := Park.barrier b ph :: th.parks }

theorem State.awaitPhase_eq (s : State) (t : Tid) (b : Nat) (ph : BitVec 16) : s.awaitPhase t b ph = s.updThread t fun th => th.awaits b ph := rfl

theorem State.awaitPhase_same (s : State) (t : Tid) (b : Nat) (ph : BitVec 16) : s.sameBeyond (s.awaitPhase t b ph) :=
  State.sameBeyond_updThread s t (fun th => th.awaits b ph) fun _ => rfl

/-- A lane that goes on from a completed phase. -/
def Thread.opened (th : Thread) (w : Nat) : Thread := if th.closed then { th with closed := false, wave := w } else th

theorem Thread.opened_lane (th : Thread) (w : Nat) : (th.opened w).lane = th.lane := by
  unfold Thread.opened
  split <;> rfl

theorem Thread.opened_parks (th : Thread) (w : Nat) : (th.opened w).parks = th.parks := by
  unfold Thread.opened
  split <;> rfl

theorem State.openThread_eq (s : State) (t : Tid) : ∃ w, s.openThread t = s.updThread t fun th => th.opened w := ⟨_, rfl⟩

theorem State.keepsWaits.barrier {s u : State} {k : Nat} {x : Team} (h : s.keepsWaits u k) (hx : s.team? k = some x) :
    ∃ y, u.team? k = some y ∧ (∀ b, y.barrier b = x.barrier b) ∧ ∀ p, (∀ th ∈ x.allThreads, p ∉ th.parks) → ∀ th ∈ y.allThreads, p ∉ th.parks := by
  obtain ⟨y, hy, bars, parks⟩ := h x hx
  refine ⟨y, hy, fun b => by rw [Team.barrier, bars, Team.barrier], fun p hn th hth hp => ?_⟩
  obtain ⟨w, hw, e⟩ := List.mem_map.1 (parks ▸ List.mem_map_of_mem hth)
  exact hn w hw (e ▸ hp)

theorem bara_arrives {h : Hdr} {q : BarRF} {s : State} {c : Cur} {t : Tid} {tm : Team} (hact : s.actives c h = [t]) (htm : s.team? t.team = some tm)
    (hlen : tm.barriers.length = 16) (hdet : (s.descOf tm).det = false) (hcalm : ∀ th ∈ tm.allThreads, Park.marker ∈ th.parks → th.afaults = [])
    (hc : s.clear c h { ops := [Opd.dvs q.r], illOp := inHandler } = true) (hgo : s.goesOn c h [Opd.dvs q.r] t MemOrder.barrier) :
    let x := tm.barrier q.bar.toNat
    ∃ (u : State) (y : Team), exec (.bara h q) s = .next (u.wordEnd h c) ∧ u.mem = s.mem ∧ u.team? t.team = some y ∧
      y.barrier q.bar.toNat = x.arrived ∧ (x.c + 1 = x.n → ∀ th ∈ y.allThreads, Park.barrier q.bar.toNat x.p ∉ th.parks) ∧
      (q.r.isS = true → u.regVal t q.r 0 = x.p.setWidth 32) ∧ (q.r.isS = false → HoldsLong u t (destRegs true q.r 0 [x.p.setWidth 32])) := by
  intro x
  have ht : t ∈ s.actives c h := hact ▸ List.mem_singleton_self t
  obtain ⟨-, -, -, hok, -⟩ := (State.clear_iff s c h _).1 hc
  obtain ⟨noQ, plain⟩ := State.plainAt_dest hc ht rfl
  obtain ⟨te, he⟩ := State.entered_atBarriers htm hdet hcalm c h [Opd.dvs q.r]
  have settles := State.arrive_settles he.team (b := q.bar.toNat) (by rw [he.barriers, hlen]; exact q.bar.isLt) he.calm
  rw [he.barrier] at settles
  have live : (((s.entered c h [Opd.dvs q.r]).arrive t.team q.bar.toNat).thread? t).isSome = true := by
    obtain ⟨F, -, e⟩ := settles.thread t rfl
    rw [e, Option.isSome_map]
    exact State.clear_thread hc ht
  have lead : ((s.entered c h [Opd.dvs q.r]).arrive t.team q.bar.toNat).leads t = true := by
    rw [State.leads, settles.cur]
    exact State.entered_leads hact _
  obtain ⟨u, result, same, keeps, short, long⟩ := State.result_dvs noQ (Cur.ok_lane hok (State.actives_mem ht)).2 lead live (x.p.setWidth 32)
  obtain ⟨z, hz, -, bar, woken⟩ := settles.team
  obtain ⟨y, hy, bars, parks⟩ := (keeps t.team).barrier hz
  have run := State.byLane_one (k := { ops := [Opd.dvs q.r], illOp := inHandler }) (point := true)
    (hold := fun s act => s.accessWaits MemOrder.barrier act)
    (f := fun t _ s => ((s.settleWaves t).arrive t.team q.bar.toNat).result t (!q.r.isS) q.r [(s.barrierOf t q.bar.toNat).p.setWidth 32])
    hc hact plain hgo.2 (fun _ => ⟨State.accessWaits_of_barrier hgo.2, hgo.1⟩)
    (by simp only [State.settleWaves_off he.det, State.barrierOf_team he.team, he.barrier]; exact result)
  refine ⟨u, y, congrArg Host.Outcome.next run, (State.sameBeyond_mem same).trans (settles.mem.trans he.mem), hy, (bars _).trans bar, fun hn => parks _ (woken hn),
    short, long⟩

theorem barw_waits {h : Hdr} {q : BarRF} {s : State} {c : Cur} {t : Tid} {tm : Team} (hact : s.actives c h = [t]) (htm : s.team? t.team = some tm)
    (hdet : (s.descOf tm).det = false) (hcalm : ∀ th ∈ tm.allThreads, Park.marker ∈ th.parks → th.afaults = [])
    (hc : s.clear c h { ops := [Opd.vsk q.r], illOp := inHandler } = true) (hp : s.plain [t] [Opd.vsk q.r] = true)
    (hgo : s.goesOn c h [Opd.vsk q.r] t {}) :
    let ph := (val1 (s.opdVals t [Opd.vsk q.r]) 0).setWidth 16
    exec (.barw h q) s = .next ((if (tm.barrier q.bar.toNat).p = ph then (s.entered c h [Opd.vsk q.r]).awaitPhase t q.bar.toNat ph
      else s.entered c h [Opd.vsk q.r]).wordEnd h c) := by
  intro ph
  obtain ⟨te, he⟩ := State.entered_atBarriers htm hdet hcalm c h [Opd.vsk q.r]
  have parked : (((s.entered c h [Opd.vsk q.r]).awaitPhase t q.bar.toNat ph).descOfTid t).det = false := by
    rw [State.sameBeyond_descOfTid (State.awaitPhase_same _ t _ _)]
    exact he.det
  have run := State.byLane_one (k := { ops := [Opd.vsk q.r], illOp := inHandler }) (point := true) (hold := fun _ _ => false)
    (f := fun t vals s =>
      let ph := (val1 vals 0).setWidth 16
      (if (s.barrierOf t q.bar.toNat).p = ph then (s.awaitPhase t q.bar.toNat ph).closeThread t else s, none))
    hc hact (State.plainAt_one hc hact hp) rfl (fun _ => ⟨hgo.2, hgo.1⟩) rfl
  refine congrArg Host.Outcome.next (run.trans ?_)
  rw [State.barrierOf_team he.team, he.barrier, State.closeThread_off parked]

/-- BARS of one lane: it arrives, and waits where the phase is still that of its arrival. -/
theorem exec_bars_one {h : Hdr} {b : BitVec 4} {s : State} {c : Cur} {t : Tid} {tm te z : Team} (hact : s.actives c h = [t])
    (hc : s.clear c h { illOp := inHandler } = true) (hgo : s.goesOn c h [] t MemOrder.barrier) (he : s.atBarriers t tm te (s.entered c h []))
    (hz : ((s.entered c h []).arrive t.team b.toNat).team? t.team = some z) :
    exec (.bars h b) s = .next ((if (z.barrier b.toNat).p = (tm.barrier b.toNat).p
      then ((s.entered c h []).arrive t.team b.toNat).awaitPhase t b.toNat (tm.barrier b.toNat).p
      else ((s.entered c h []).arrive t.team b.toNat).openThread t).wordEnd h c) := by
  have run := State.byLane_one (k := { illOp := inHandler }) (point := true) (hold := fun s act => s.accessWaits MemOrder.barrier act)
    (f := fun t _ s =>
      let s := s.closeThread t
      let ph := (s.barrierOf t b.toNat).p
      let s := s.arrive t.team b.toNat
      (if (s.barrierOf t b.toNat).p = ph then s.awaitPhase t b.toNat ph else s.openThread t, none))
    hc hact nofun hgo.2 (fun _ => ⟨State.accessWaits_of_barrier hgo.2, hgo.1⟩) rfl
  refine congrArg Host.Outcome.next (run.trans ?_)
  simp only [State.closeThread_off he.det, State.barrierOf_team he.team, he.barrier, State.barrierOf_team hz]

theorem bars_arrives {h : Hdr} {b : BitVec 4} {s : State} {c : Cur} {t : Tid} {tm : Team} (hact : s.actives c h = [t]) (htm : s.team? t.team = some tm)
    (hlen : tm.barriers.length = 16) (hdet : (s.descOf tm).det = false) (hcalm : ∀ th ∈ tm.allThreads, Park.marker ∈ th.parks → th.afaults = [])
    (hc : s.clear c h { illOp := inHandler } = true) (hgo : s.goesOn c h [] t MemOrder.barrier) :
    let x := tm.barrier b.toNat
    ∃ (u : State) (y : Team), exec (.bars h b) s = .next (u.wordEnd h c) ∧ u.mem = s.mem ∧ u.team? t.team = some y ∧ y.barrier b.toNat = x.arrived ∧
      (x.c + 1 ≠ x.n → u.threadIs t (fun th => th.parks.contains (Park.barrier b.toNat x.p)) = true) ∧
      (x.c + 1 = x.n → (∀ th ∈ y.allThreads, Park.barrier b.toNat x.p ∉ th.parks) ∧
        (s.threadIs t (fun th => th.parks.isEmpty) = true → u.threadIs t (fun th => th.parks.isEmpty) = true)) := by
  intro x
  have ht : t ∈ s.actives c h := hact ▸ List.mem_singleton_self t
  obtain ⟨te, he⟩ := State.entered_atBarriers htm hdet hcalm c h []
  have settles := State.arrive_settles he.team (b := b.toNat) (by rw [he.barriers, hlen]; exact b.isLt) he.calm
  rw [he.barrier] at settles
  set a := (s.entered c h []).arrive t.team b.toNat with ha
  obtain ⟨z, hz, -, bar, woken⟩ := settles.team
  obtain ⟨F, hF, eF⟩ := settles.thread t rfl
  have run := exec_bars_one hact hc hgo he hz
  rw [bar] at run
  have thread : ∀ f : Thread → Thread, (∀ th, (f th).lane = th.lane) → (a.updThread t f).thread? t = ((s.entered c h []).thread? t).map (f ∘ F) :=
    fun f hf => by rw [State.thread?_updThread_same a t f hf, eF, Option.map_map]
  by_cases hn : x.c + 1 = x.n
  · have moved : x.arrived.p ≠ x.p := by
      rw [Barrier.arrived, if_pos hn]
      simp
    obtain ⟨w, opens⟩ := a.openThread_eq t
    rw [if_neg moved, opens] at run
    obtain ⟨y, hy, bars, parks⟩ := (State.updThread_keepsWaits a t (fun th => th.opened_parks w) t.team).barrier hz
    refine ⟨_, y, run, settles.mem.trans he.mem, hy, (bars _).trans bar, fun h => absurd hn h, fun _ => ⟨parks _ (woken hn), fun idle => ?_⟩⟩
    rw [State.threadIs, thread _ fun th => th.opened_lane w, State.entered_thread, if_pos (State.actives_mem ht)]
    unfold State.threadIs at idle
    split at idle
    case h_2 => cases idle
    case h_1 th hth =>
      have none := (hF (th.advance c.pc s.clk.acycle (gapCycles h.gap) h.gw)).parks
      rw [hth]
      simp only [Option.map_some, Function.comp, Thread.opened_parks, List.isEmpty_iff] at idle none ⊢
      exact List.subset_nil.1 (idle ▸ none)
  · have stays : x.arrived.p = x.p := by rw [Barrier.arrived, if_neg hn]
    rw [if_pos stays] at run
    have team : (a.awaitPhase t b.toNat x.p).team? t.team = _ := (a.team?_updGroup t t.team _).trans (by rw [if_pos rfl, hz, Option.map_some])
    refine ⟨_, _, run, settles.mem.trans he.mem, team, bar, fun _ => ?_, fun h => absurd h hn⟩
    obtain ⟨th, hth⟩ := Option.isSome_iff_exists.1 (State.clear_thread hc ht)
    rw [State.threadIs, State.awaitPhase_eq, thread (fun th => th.awaits b.toNat x.p) fun _ => rfl, hth]
    simp [Thread.awaits]

theorem barrierWords : BarrierWords := by
  intro h o q b s c t tm quiet arrived hact htm hlen hdet hcalm
  refine ⟨?_, ?_, ?_, ?_⟩
  · intro ops n x hc hp
    exact ⟨bari_counts hact htm hlen hdet hcalm hc hp, bari_illegal hact hc hp⟩
  · intro ops x hc hquiet hwait
    exact bara_arrives hact htm hlen hdet hcalm hc ⟨hquiet, hwait⟩
  · intro ops x hc hp hquiet hwait ph
    have run := barw_waits hact htm hdet hcalm hc hp ⟨hquiet, hwait⟩
    exact ⟨fun hne => by rw [run, if_neg hne], fun heq => by rw [run, if_pos heq]; rfl⟩
  · intro x hc hquiet hwait _
    exact bars_arrives hact htm hlen hdet hcalm hc ⟨hquiet, hwait⟩

end Sys2Proof.Machine

namespace Sys2Proof

open Machine

/-- Settles O44: a mask word changes one mask of its lane's group and then checks it, a barrier word one barrier of its lane's team; where no thread at
a marker has a fault to take, those whom a release or a phase resumes wake, and nothing else changes. -/
theorem masksAndBarriers : Obligations.MasksAndBarriers := ⟨maskWords, barrierWords⟩

end Sys2Proof

/-! ### Ends and kills -/

namespace Sys2Proof.Machine

/-! #### A thread that ends -/

theorem State.calm_mono {s : State} {P Q : Tid → Prop} (h : s.calm P) (hq : ∀ u, Q u → P u) : s.calm Q := fun u hu => h u (hq u hu)

/-- From one state to another the threads for which `P` holds at most wake, and memory stands. -/
structure State.rouses (s : State) (P : Tid → Prop) (u : State) : Prop where
  mem : u.mem = s.mem
  thread : ∀ v, P v → ∃ F, (∀ th, Thread.wakes th (F th)) ∧ u.thread? v = (s.thread? v).map F

theorem State.rouses_of_eq {s u : State} (P : Tid → Prop) (mem : u.mem = s.mem) (thread : ∀ v, P v → u.thread? v = s.thread? v) : s.rouses P u :=
  ⟨mem, fun v hv => ⟨id, Thread.wakes_refl, by rw [thread v hv, Option.map_id, id]⟩⟩

theorem State.rouses_refl (s : State) (P : Tid → Prop) : s.rouses P s := State.rouses_of_eq P rfl fun _ _ => rfl

theorem State.rouses_trans {s a u : State} {P Q : Tid → Prop} (h : s.rouses P a) (h' : a.rouses Q u) : s.rouses (fun v => P v ∧ Q v) u := by
  refine ⟨h'.mem.trans h.mem, fun v ⟨hp, hq⟩ => ?_⟩
  obtain ⟨F, hF, e⟩ := h.thread v hp
  obtain ⟨G, hG, e'⟩ := h'.thread v hq
  exact ⟨G ∘ F, fun th => Thread.wakes_trans (hF th) (hG _), by rw [e', e, Option.map_map]⟩

theorem State.rouses_mono {s u : State} {P Q : Tid → Prop} (h : s.rouses P u) (hq : ∀ v, Q v → P v) : s.rouses Q u :=
  ⟨h.mem, fun v hv => h.thread v (hq v hv)⟩

theorem State.rouses.isSome {s u : State} {P : Tid → Prop} (h : s.rouses P u) {v : Tid} (hv : P v) : (u.thread? v).isSome = (s.thread? v).isSome := by
  obtain ⟨F, -, e⟩ := h.thread v hv
  rw [e, Option.isSome_map]

/-- All threads. -/
def anyTid (_ : Tid) : Prop := True

theorem State.rouses_all {s a u : State} (h : s.rouses anyTid a) (h' : a.rouses anyTid u) : s.rouses anyTid u :=
  State.rouses_mono (State.rouses_trans h h') fun _ _ => ⟨trivial, trivial⟩

theorem State.wakes.rouses {s u : State} (h : s.wakes u) : s.rouses anyTid u := ⟨h.mem, fun v _ => h.thread v⟩

theorem State.rouses.calm {s u : State} {P : Tid → Prop} (h : s.rouses anyTid u) (hs : s.calm P) : u.calm P :=
  State.calm_of hs fun v _ th' hth' => by
    obtain ⟨F, hF, e⟩ := h.thread v trivial
    obtain ⟨th, hth, rfl⟩ := Option.map_eq_some_iff.1 (e.symm.trans hth')
    exact ⟨th, hth, fun hm => (hF th).parks hm, (hF th).afaults⟩

/-- A group's change that leaves its threads is none of any thread. -/
theorem State.updGroup_rouses (s : State) (t : Tid) {f : Group → Group} (hn : ∀ g, (f g).num = g.num) (hf : ∀ g, (f g).threads = g.threads) :
    s.rouses anyTid (s.updGroup t f) :=
  State.rouses_of_eq _ rfl fun v _ => by
    rw [s.thread?_updGroup_map t v (F := id) hn (fun g => (hf g).trans (List.map_id _).symm) fun _ => rfl]
    simp

theorem State.releaseMask_rouses {s : State} {t : Tid} (h : s.calm (mates t)) (m : Nat) : s.rouses anyTid (s.releaseMask t m) := by
  refine State.rouses_all (a := s.updGroup t fun g => g.released m s.clk.acycle) ⟨rfl, fun v _ => ?_⟩ (State.releaseMask_wakes h m).rouses
  have woken := fun th : Thread => th.wakes_unpark s.clk.acycle fun k => decide (k = .waitm m)
  rw [s.thread?_updGroup_map t v (f := fun g => g.released m s.clk.acycle) (fun _ => rfl) (fun _ => rfl) fun th => (woken th).lane]
  split
  · exact ⟨_, woken, rfl⟩
  · exact ⟨id, Thread.wakes_refl, by rw [Option.map_id, id]⟩

theorem State.checkMasks_rouses {s : State} {t : Tid} (h : s.calm (mates t)) (ms : List Nat) : s.rouses anyTid (s.checkMasks t ms) := by
  induction ms generalizing s with
  | nil => exact s.rouses_refl _
  | cons m ms ih =>
    unfold State.checkMasks
    split
    case h_1 => exact s.rouses_refl _
    case h_2 g hg =>
      split
      · have one := State.releaseMask_rouses h m
        exact State.rouses_all one (ih (one.calm h))
      · exact ih h

/-- A group's masks do not hold its number or its threads. -/
theorem Group.foldl_setMask (ms : List Nat) (F : Group → Nat → Mask) (g : Group) :
    (ms.foldl (fun g m => g.setMask m (F g m)) g).num = g.num ∧ (ms.foldl (fun g m => g.setMask m (F g m)) g).threads = g.threads := by
  induction ms generalizing g with
  | nil => exact ⟨rfl, rfl⟩
  | cons m ms ih => exact ih (g.setMask m (F g m))

theorem State.strike_rouses {s : State} {t : Tid} (h : s.calm (mates t)) (ms : List Nat) : s.rouses anyTid (s.strike t ms) := by
  have masks := s.updGroup_rouses t (f := fun g => ms.foldl (fun g m =>
    g.setMask m { e := (g.mask m).e &&& ~~~laneBit t.lane, w := (g.mask m).w &&& ~~~laneBit t.lane }) g)
    (fun g => (Group.foldl_setMask ms _ g).1) fun g => (Group.foldl_setMask ms _ g).2
  exact State.rouses_all masks (State.checkMasks_rouses (masks.calm h) ms)

theorem State.releaseFrame_rouses (s : State) (t : Tid) : s.rouses anyTid (s.releaseFrame t) := by
  unfold State.releaseFrame
  split
  · split
    · have frame := s.updGroup_rouses t (f := fun g => { g with frame := none, hregs := [] }) (fun _ => rfl) fun _ => rfl
      exact ⟨frame.mem, frame.thread⟩
    · exact s.rouses_refl _
  · exact s.rouses_refl _

/-- A group without the threads of a lane. -/
def Group.withoutLane (g : Group) (l : Nat) : Group := { g with threads := g.threads.filter fun th => decide (th.lane ≠ l) }

theorem Group.thread?_withoutLane (g : Group) (l j : Nat) : (g.withoutLane l).thread? j = if j = l then none else g.thread? j := by
  unfold Group.thread? Group.withoutLane
  split
  case isTrue h => simp [h, List.find?_eq_none]
  case isFalse h =>
    rw [List.find?_filter]
    congr 1
    funext th
    by_cases he : th.lane = j <;> simp [he, h]

/-- Take a lane's threads out of its group, and out of those that try their words again. -/
def State.without (s : State) (t : Tid) : State :=
  { (s.updGroup t fun g => g.withoutLane t.lane) with retries := s.retries.filter fun x => decide (x ≠ t) }

theorem State.without_thread (s : State) (t v : Tid) : (s.without t).thread? v = if v = t then none else s.thread? v := by
  have group := s.group?_updGroup t v (fun g => g.withoutLane t.lane) fun _ => rfl
  have unfolded : (s.without t).thread? v = ((s.updGroup t fun g => g.withoutLane t.lane).group? v).bind fun g => g.thread? v.lane := rfl
  rw [unfolded, group, State.thread?]
  by_cases hm : v.team = t.team ∧ v.group = t.group
  · rw [if_pos hm]
    have same : v = t ↔ v.lane = t.lane := by rw [Tid.eq_iff]; exact ⟨fun e => e.2.2, fun e => ⟨hm.1, hm.2, e⟩⟩
    cases s.group? v with
    | none => simp
    | some g => simp only [Option.map_some, Option.bind_some, Group.thread?_withoutLane, same]
  · rw [if_neg hm, if_neg fun e : v = t => hm ⟨congrArg Tid.team e, congrArg Tid.group e⟩]

/-- A thread that ends is gone, and the others at most wake (R69, R75). -/
theorem State.endThread_rouses {s : State} {t : Tid} (h : s.calm (mates t)) :
    s.rouses (fun v => v ≠ t) (s.endThread t) ∧ (s.endThread t).thread? t = none := by
  have struck := State.strike_rouses h (List.range 12)
  have gone := (s.strike t (List.range 12)).without_thread t
  have removed : (s.strike t (List.range 12)).rouses (fun v => v ≠ t) ((s.strike t (List.range 12)).without t) :=
    State.rouses_of_eq _ rfl fun v hv => (gone v).trans (if_neg hv)
  have released := ((s.strike t (List.range 12)).without t).releaseFrame_rouses t
  refine ⟨State.rouses_mono (State.rouses_trans (State.rouses_trans struck removed) released) fun v hv => ⟨⟨trivial, hv⟩, trivial⟩, ?_⟩
  obtain ⟨F, -, e⟩ := released.thread t trivial
  exact e.trans (by rw [gone, if_pos rfl, Option.map_none])

theorem State.endThread_calm {s : State} {t : Tid} {P : Tid → Prop} (h : s.calm (mates t)) (hs : s.calm P) : (s.endThread t).calm P :=
  State.calm_of hs fun v _ th' hth' => by
    obtain ⟨others, gone⟩ := State.endThread_rouses h
    by_cases hv : v = t
    · rw [hv, gone] at hth'
      cases hth'
    · obtain ⟨F, hF, e⟩ := others.thread v hv
      obtain ⟨th, hth, rfl⟩ := Option.map_eq_some_iff.1 (e.symm.trans hth')
      exact ⟨th, hth, fun hm => (hF th).parks hm, (hF th).afaults⟩

/-- Threads of one group that end one after another are gone, and the others at most wake. -/
theorem State.endThreads_rouses {t : Tid} (l : List Tid) {s : State} (h : s.calm (mates t)) (hl : ∀ v ∈ l, mates t v) :
    s.rouses (fun v => v ∉ l) (l.foldl (fun s u => s.endThread u) s) ∧
      ∀ v, v ∈ l ∨ s.thread? v = none → (l.foldl (fun s u => s.endThread u) s).thread? v = none := by
  induction l generalizing s with
  | nil => exact ⟨s.rouses_refl _, fun v hv => hv.resolve_left (List.not_mem_nil)⟩
  | cons u l ih =>
    have mate := hl u List.mem_cons_self
    have calm : s.calm (mates u) := State.calm_mono h fun v hv => ⟨hv.1.trans mate.1, hv.2.trans mate.2⟩
    obtain ⟨others, gone⟩ := State.endThread_rouses calm
    obtain ⟨others', gone'⟩ := ih (State.endThread_calm calm h) fun v hv => hl v (List.mem_cons_of_mem _ hv)
    rw [List.foldl_cons]
    refine ⟨State.rouses_mono (State.rouses_trans others others') fun v hv => not_or.1 fun e => hv (List.mem_cons.2 e), fun v hv => gone' v ?_⟩
    by_cases hu : v = u
    · exact .inr (hu ▸ gone)
    · rcases hv with hv | hv
      · exact .inl ((List.mem_cons.1 hv).resolve_left hu)
      · obtain ⟨F, -, e⟩ := others.thread v hu
        exact .inr (by rw [e, hv, Option.map_none])

/-! #### EXIT, TKILL.thread and TKILL.group -/

theorem State.entered_isSome (s : State) (c : Cur) (h : Hdr) (ops : List Opd) (v : Tid) : ((s.entered c h ops).thread? v).isSome = (s.thread? v).isSome := by
  rw [State.entered_thread]
  split
  · rw [Option.isSome_map]
  · rfl

/-- A thread's team has no fault to take at a marker. -/
theorem State.calm_mates {s : State} {t : Tid} {tm : Team} (htm : s.team? t.team = some tm)
    (h : ∀ y ∈ tm.allThreads, Park.marker ∈ y.parks → y.afaults = []) : s.calm (mates t) :=
  State.calm_mono (State.calm_team htm h) fun _ hu => hu.1

/-- What ends one lane of a word. -/
theorem State.entered_ends {s : State} {t : Tid} {tm : Team} (htm : s.team? t.team = some tm)
    (h : ∀ y ∈ tm.allThreads, Park.marker ∈ y.parks → y.afaults = []) (c : Cur) (hd : Hdr) :
    ((s.entered c hd []).endThread t).thread? t = none ∧ ((s.entered c hd []).endThread t).mem = s.mem ∧
      ∀ v, v ≠ t → (((s.entered c hd []).endThread t).thread? v).isSome = (s.thread? v).isSome := by
  obtain ⟨others, gone⟩ := State.endThread_rouses (State.entered_calm (State.calm_mates htm h) c hd [])
  exact ⟨gone, others.mem.trans (State.sameBeyond_mem (s.entered_same c hd [])), fun v hv => (others.isSome hv).trans (s.entered_isSome c hd [] v)⟩

/-- A thread in handler mode takes no asynchronous fault. -/
theorem State.deliverAsync_handler {s : State} {t : Tid} {th : Thread} (ht : s.thread? t = some th) (hh : th.handler = true) (rpc : DWord) :
    s.deliverAsync t rpc = (false, s) := by
  rw [State.deliverAsync, ht]
  exact if_pos hh

/-- What EXIT does in a lane. -/
def exitLane (s : State) (t : Tid) : State :=
  if s.threadIs t fun th => decide (th.longs ≠ []) then s.parkLane t .longs
  else
    let r := s.deliverAsync t s.curPc
    if r.1 then r.2 else r.2.endThread t

section
variable {h : Hdr} {s : State} {c : Cur} {t : Tid} {th : Thread} {tm : Team} (hact : s.actives c h = [t]) (hth : s.thread? t = some th)
  (htm : s.team? t.team = some tm) (hcalm : ∀ y ∈ tm.allThreads, Park.marker ∈ y.parks → y.afaults = [])
include hact

theorem exec_exit_one (hc : s.clear c h {} = true) : exec (.exit h) s = .next ((exitLane (s.entered c h []) t).wordEnd h c) := by
  show Host.Outcome.next (s.word h {} (fun act s => some (act.foldl exitLane s)) false) = _
  rw [State.word_clear hc _ false, hact]
  rfl

include hth in
/-- The thread of the lane has advanced. -/
theorem State.entered_lane : (s.entered c h []).thread? t = some (th.advance c.pc s.clk.acycle (gapCycles h.gap) h.gw) := by
  rw [State.entered_thread, if_pos (State.actives_mem (hact ▸ List.mem_singleton_self t)), hth, Option.map_some]

include hth in
theorem exit_waits (hc : s.clear c h {} = true) (hl : th.longs ≠ []) :
    exec (.exit h) s = .next (((s.entered c h []).parkLane t .longs).wordEnd h c) := by
  have waits : (s.entered c h []).threadIs t (fun th => decide (th.longs ≠ [])) = true := by
    rw [State.threadIs_some (State.entered_lane hact hth)]
    exact decide_eq_true hl
  rw [exec_exit_one hact hc, exitLane, if_pos waits]

include hth htm hcalm in
theorem exit_ends (hc : s.clear c h {} = true) (hl : th.longs = []) (ha : th.afaults = [] ∨ th.handler = true) :
    ∃ u : State, exec (.exit h) s = .next (u.wordEnd h c) ∧ u.thread? t = none ∧ u.mem = s.mem ∧ ∀ v, v ≠ t → (u.thread? v).isSome = (s.thread? v).isSome := by
  have lane := State.entered_lane hact hth
  have idle : (s.entered c h []).threadIs t (fun th => decide (th.longs ≠ [])) = false := by
    rw [State.threadIs_some lane]
    exact decide_eq_false (not_not.2 hl)
  have quiet : (s.entered c h []).deliverAsync t (s.entered c h []).curPc = (false, s.entered c h []) :=
    ha.elim (fun none => State.deliverAsync_none lane none _) fun handler => State.deliverAsync_handler lane handler _
  refine ⟨_, exec_exit_one hact hc, ?_⟩
  rw [exitLane, idle, quiet]
  exact State.entered_ends htm hcalm c h

include htm hcalm in
theorem tkillThread_ends (code : BitVec 8) (hc : s.clear c h {} = true) :
    ∃ u : State, exec (.tkillThread h code) s = .next (u.wordEnd h c) ∧ u.thread? t = none ∧ u.mem = s.mem ∧
      ∀ v, v ≠ t → (u.thread? v).isSome = (s.thread? v).isSome := by
  refine ⟨(s.entered c h []).endThread t, ?_, State.entered_ends htm hcalm c h⟩
  show Host.Outcome.next (s.word h {} fun act s => some (act.foldl (fun s t => s.endThread t) s)) = _
  rw [State.word_clear hc, hact]
  rfl

include hth htm hcalm in
theorem tkillGroup_ends (code : BitVec 8) (hc : s.clear c h {} = true) :
    ∃ u : State, exec (.tkillGroup h code) s = .next (u.wordEnd h c) ∧ u.mem = s.mem ∧
      (∀ v, v.team = t.team → v.group = t.group → u.thread? v = none) ∧
      ∀ v, v.team ≠ t.team ∨ v.group ≠ t.group → (u.thread? v).isSome = (s.thread? v).isSome := by
  obtain ⟨g, hg, -⟩ := Option.bind_eq_some_iff.1 (State.entered_lane hact hth)
  have tids : (s.entered c h []).groupTids t = g.tids t.team := by rw [State.groupTids, hg]
  have mem : ∀ v ∈ g.tids t.team, mates t v := fun v hv => State.groupTids_mates (tids ▸ hv)
  obtain ⟨others, gone⟩ := State.endThreads_rouses (g.tids t.team) (State.entered_calm (State.calm_mates htm hcalm) c h []) mem
  refine ⟨(g.tids t.team).foldl (fun s u => s.endThread u) (s.entered c h []), ?_, others.mem.trans (State.sameBeyond_mem (s.entered_same c h [])),
    fun v h1 h2 => gone v ?_, fun v hv => (others.isSome fun hm => ?_).trans (s.entered_isSome c h [] v)⟩
  · show Host.Outcome.next (s.word h {} _) = _
    rw [State.word_clear hc, hact]
    simp only [List.foldl_cons, List.foldl_nil, hg]
  · cases hv : (s.entered c h []).thread? v with
    | none => exact .inr rfl
    | some y =>
      rw [State.thread?, State.group?_mates ⟨h1, h2⟩, hg, Option.bind_some] at hv
      have lane : y.lane = v.lane := by simpa using List.find?_some hv
      obtain ⟨x, -, hx⟩ := State.group?_team hg
      have num : g.num = t.group := by simpa using List.find?_some hx
      refine .inl (List.mem_map.2 ⟨y, List.mem_of_find?_eq_some hv, (Tid.eq_iff _ _).2 ⟨h1.symm, num.trans h2.symm, lane⟩⟩)
  · obtain ⟨h1, h2⟩ := mem v hm
    exact hv.elim (fun e => e h1) fun e => e h2

/-! #### TKILL.team and TKILL.grid -/

include htm in
theorem tkillTeam_kills (code : BitVec 8) (hc : s.clear c h { illOp := noCode code } = true) :
    ∃ (u : State) (y : Team), exec (.tkillTeam h code) s = .next (u.wordEnd h c) ∧ u.team? t.team = some y ∧ y.killed = true ∧ y.allThreads = [] := by
  obtain ⟨te, hte, -⟩ := State.entered_team htm c h []
  obtain ⟨y, lost⟩ := State.killTeam_lost hte ((s.entered c h []).killCode code t)
  refine ⟨_, y, ?_, lost⟩
  show Host.Outcome.next (s.word h _ _) = _
  rw [State.word_clear hc, hact]

end

/-! #### What a kill leaves of launches -/

theorem State.unhold_steady (s : State) : s.steady s.unhold := by
  refine ⟨rfl, rfl, ?_, rfl⟩
  simp only [State.unhold, List.map_map]
  rfl

theorem State.arriveLine_steady (s : State) (k l : Nat) : s.steady (s.arriveLine k l) := by
  unfold State.arriveLine
  split
  · exact s.steady_refl
  · dsimp only
    split
    · refine State.steady_trans (State.steady_trans (s.updTeam_steady k ?_) (State.wakeTeam_steady _ k _)) (State.unhold_steady _)
      exact fun _ => ⟨rfl, rfl⟩
    · refine State.steady_trans (s.updTeam_steady k ?_) (State.unhold_steady _)
      exact fun _ => ⟨rfl, rfl⟩

theorem State.wakePushers_steady (s : State) (e : Engine) : s.steady (s.wakePushers e) := by
  unfold State.wakePushers
  split
  · exact s.steady_refl
  · refine State.steady_foldl (fun s t => ?_) _ s
    split
    · exact s.wakeTeam_steady _ _
    · exact s.steady_refl

theorem State.releaseLocks_steady (s : State) (cmd : Nat) (all : Bool) : s.steady (s.releaseLocks cmd all) :=
  (State.steady_trans (State.wakeAll_steady _ _) (State.unhold_steady _)).from_eq rfl rfl rfl rfl

theorem State.dropCmd_steady (s : State) (c : Cmd) : s.steady (s.dropCmd c) :=
  (State.steady_trans (State.steady_trans (State.steady_trans (State.releaseLocks_steady _ c.id true)
    (State.steady_foldl (fun s l => s.arriveLine_steady c.team l) _ _)) (State.wakePushers_steady _ c.eng)) (State.unhold_steady _)).from_eq rfl rfl rfl rfl

theorem State.dropTeam_steady (s : State) (k : Nat) : s.steady (s.dropTeam k) := by
  unfold State.dropTeam
  split
  · exact s.steady_refl
  · exact (State.steady_trans (State.steady_foldl State.dropCmd_steady _ s)
      (State.updTeam_steady _ k (f := Team.dropped) fun _ => ⟨rfl, rfl⟩)).to_eq rfl rfl rfl rfl

/-- Every team of a key has been killed. -/
def State.allKilled (s : State) (k : Nat) : Prop := ∀ y ∈ s.teams, y.key = k → y.killed = true

theorem State.culls_allKilled {s u : State} (h : s.culls u) {k : Nat} (hs : s.allKilled k) : u.allKilled k := by
  obtain ⟨-, F, hF, hk⟩ := h
  intro y hy key
  obtain ⟨x, hx, rfl⟩ := List.mem_map.1 (hF ▸ hy)
  obtain ⟨same, killed, -⟩ := hk x
  exact killed (hs x hx (same.symm.trans key))

theorem State.dropTeam_allKilled {s : State} {k : Nat} {x : Team} (hx : s.team? k = some x) : (s.dropTeam k).allKilled k := by
  obtain ⟨u, -, hd⟩ := State.dropTeam_some hx
  refine State.culls_allKilled hd fun y hy key => ?_
  obtain ⟨z, -, rfl⟩ := List.mem_map.1 hy
  by_cases hz : z.key = k
  · rw [if_pos (decide_eq_true hz)]
    rfl
  · rw [if_neg (by simpa using hz)] at key
    exact absurd key hz

/-- Of the teams that are dropped one after another, none stands. -/
theorem State.dropTeams_allKilled {k : Nat} (l : List Team) {s : State} {x : Team} (hx : s.team? k = some x) (hk : ∃ t ∈ l, t.key = k) :
    (l.foldl (fun s x => s.dropTeam x.key) s).allKilled k := by
  induction l generalizing s x with
  | nil => obtain ⟨t, ht, -⟩ := hk; cases ht
  | cons t l ih =>
    rw [List.foldl_cons]
    by_cases ht : t.key = k
    · exact State.culls_allKilled (State.culls_foldl _ (fun s (x : Team) => s.culls_dropTeam x.key) l _) (ht ▸ State.dropTeam_allKilled (ht ▸ hx))
    · obtain ⟨y, hy, -⟩ := State.culls_team (s.culls_dropTeam t.key) hx
      obtain ⟨u, hu, hku⟩ := hk
      exact ih hy ⟨u, (List.mem_cons.1 hu).resolve_left fun e => ht (e ▸ hku), hku⟩

/-- A team keeps its launch from one state to another that culls teams and is steady. -/
theorem State.culled_team {s u : State} (h : s.culls u) (k : s.steady u) {y : Team} (hy : y ∈ u.teams) :
    ∃ x ∈ s.teams, y.key = x.key ∧ y.launch = x.launch ∧ (x.killed = true → y.killed = true) := by
  obtain ⟨-, F, hF, hk⟩ := h
  obtain ⟨x, hx, rfl⟩ := List.mem_map.1 (hF ▸ hy)
  have launches := k.teams
  rw [hF, List.map_map, List.map_inj_left] at launches
  obtain ⟨key, killed, -⟩ := hk x
  exact ⟨x, hx, key, congrArg Prod.snd (launches x hx), killed⟩

/-- The teams of a launch that are not killed. -/
def State.grid (s : State) (launch : Nat) : List Team := s.teams.filter fun t => decide (t.launch = launch) && !t.killed

theorem State.dropGrid_killed {s : State} {launch : Nat} {y : Team} (hy : y ∈ ((s.grid launch).foldl (fun s x => s.dropTeam x.key) s).teams)
    (hl : y.launch = launch) : y.killed = true := by
  have culls := State.culls_foldl _ (fun s (x : Team) => s.culls_dropTeam x.key) (s.grid launch) s
  have steady := State.steady_foldl (fun s (x : Team) => s.dropTeam_steady x.key) (s.grid launch) s
  obtain ⟨x, hx, key, same, killed⟩ := State.culled_team culls steady hy
  cases hk : x.killed with
  | true => exact killed hk
  | false =>
    have mine : x ∈ s.grid launch := List.mem_filter.2 ⟨hx, by simp [hk, ← same, hl]⟩
    obtain ⟨z, hz⟩ : ∃ z, s.team? x.key = some z := Option.isSome_iff_exists.1 (List.find?_isSome.2 ⟨x, hx, by simp⟩)
    exact State.dropTeams_allKilled _ hz ⟨x, mine, rfl⟩ y hy key

/-- A launch whose grid is killed, for a cause. -/
def Launch.killedFor (l : Launch) (cause code : Nat) (low : Option Nat) : Launch :=
  if l.dropped then l
  else
    { l with
      dropped := true, cause := cause, code := if cause = 5 then 0 else if l.first.isSome then l.code else code,
      first := if l.first.isSome then l.first else low }

theorem State.killGrid_eq (s : State) (launch cause code : Nat) :
    ∃ low, s.killGrid launch cause code =
      ((s.grid launch).foldl (fun s x => s.dropTeam x.key) (s.updLaunch launch fun l => l.killedFor cause code low)).dropShells launch := ⟨_, rfl⟩

theorem State.updLaunch_launch {s : State} {k : Nat} {l : Launch} (hl : s.launch? k = some l) {f : Launch → Launch} (hf : ∀ l, (f l).key = l.key) :
    (s.updLaunch k f).launch? k = some (f l) :=
  (find_updWhere_same _ f s.launches fun x => by rw [hf]).trans (by rw [show s.launches.find? _ = some l from hl, Option.map_some])

theorem State.killGrid_kills {s : State} {launch : Nat} {l : Launch} (hl : s.launch? launch = some l) (hd : l.dropped = false) (cause code : Nat) :
    ∃ l', (s.killGrid launch cause code).launch? launch = some l' ∧ l'.dropped = true ∧ l'.cause = cause ∧
      ∀ y ∈ (s.killGrid launch cause code).teams, y.launch = launch → y.killed = true := by
  obtain ⟨low, e⟩ := s.killGrid_eq launch cause code
  have keys : ∀ l : Launch, (l.killedFor cause code low).key = l.key := fun l => by
    unfold Launch.killedFor
    split <;> rfl
  have launches := (State.steady_foldl (fun s (x : Team) => s.dropTeam_steady x.key) (s.grid launch)
    (s.updLaunch launch fun l => l.killedFor cause code low)).launches
  refine ⟨l.killedFor cause code low, ?_, ?_, ?_, fun y hy hyl => ?_⟩
  · rw [e, State.dropShells, State.launch?, launches]
    exact State.updLaunch_launch hl keys
  · simp [Launch.killedFor, hd]
  · simp [Launch.killedFor, hd]
  · rw [e] at hy
    exact State.dropGrid_killed (s := s.updLaunch launch fun l => l.killedFor cause code low) (List.mem_filter.1 hy).1 hyl

theorem tkillGrid_kills {h : Hdr} {s : State} {c : Cur} {t : Tid} {tm : Team} {l : Launch} (hact : s.actives c h = [t])
    (htm : s.team? t.team = some tm) (hl : s.launch? tm.launch = some l) (code : BitVec 8) (hc : s.clear c h { illOp := noCode code } = true)
    (hd : l.dropped = false) :
    ∃ (u : State) (l' : Launch), exec (.tkillGrid h code) s = .next (u.wordEnd h c) ∧ u.launch? tm.launch = some l' ∧ l'.dropped = true ∧ l'.cause = 3 ∧
      ∀ y ∈ u.teams, y.launch = tm.launch → y.killed = true := by
  obtain ⟨te, hte, bare⟩ := State.sameBare_team (State.sameBare_of_sameBeyond (s.entered_same c h [])) htm
  have launch : te.launch = tm.launch := (congrArg Team.launch bare : te.bare.launch = tm.bare.launch)
  have hle : (s.entered c h []).launch? tm.launch = some l := by
    rw [State.launch?, State.sameBeyond_launches (s.entered_same c h [])]
    exact hl
  obtain ⟨l', kills⟩ := State.killGrid_kills hle hd 3 ((s.entered c h []).killCode code t)
  refine ⟨_, l', ?_, kills⟩
  show Host.Outcome.next (s.word h _ _) = _
  rw [State.word_clear hc, hact]
  simp only [hte, launch]

end Sys2Proof.Machine

namespace Sys2Proof

open Machine

/-- Settles O47: a thread that ends is struck from its group's masks, which at most wakes the others; a kill drops its teams one after another. -/
theorem endsAndKills : Obligations.EndsAndKills := by
  intro h code s c t th tm l hact hth htm hl hcalm
  refine ⟨fun hc => ⟨exit_waits hact hth hc, exit_ends hact hth htm hcalm hc, tkillThread_ends hact htm hcalm code hc,
    tkillGroup_ends hact hth htm hcalm code hc⟩, fun hc => ⟨tkillTeam_kills hact htm code hc, tkillGrid_kills hact htm hl code hc⟩⟩

end Sys2Proof

/-! ### The pool by address -/

namespace Sys2Proof.Machine

/-! #### Changes of one thread alone -/

/-- A team without its threads: its pool, its registers and everything else. -/
def Team.unthreaded (x : Team) : Team := { x with groups := x.groups.map fun g => { g with threads := [] } }

theorem Team.unthreaded_updThread (x : Team) (g l : Nat) (f : Thread → Thread) : (x.updGroup g fun y => y.updThread l f).unthreaded = x.unthreaded := by
  simp only [Team.unthreaded, Team.updGroup, updWhere, List.map_map]
  congr 1
  refine List.map_congr_left fun y _ => ?_
  simp only [Function.comp]
  split <;> rfl

/-- No update of a thread reaches what else its team holds. -/
theorem State.updThread_unthreaded (s : State) (t : Tid) (f : Thread → Thread) :
    (s.updThread t f).teams.map Team.unthreaded = s.teams.map Team.unthreaded := by
  simp only [State.updThread, State.updGroup, State.updTeam, updWhere, List.map_map]
  refine List.map_congr_left fun x _ => ?_
  simp only [Function.comp]
  split
  · exact Team.unthreaded_updThread x _ _ f
  · rfl

theorem State.entered_unthreaded (s : State) (c : Cur) (h : Hdr) (ops : List Opd) :
    (s.entered c h ops).teams.map Team.unthreaded = s.teams.map Team.unthreaded := by
  obtain ⟨ms, e⟩ := s.entered_eq c h ops
  rw [e]
  show (s.advanceAll c (gapCycles h.gap) h.gw).teams.map Team.unthreaded = _
  clear e
  unfold State.advanceAll
  generalize c.lanes = ls
  induction ls generalizing s with
  | nil => rfl
  | cons t ls ih => rw [List.foldl_cons, ih, State.updThread_unthreaded]

/-- Where two states' teams agree but for their threads, each team of the one does with its fellow of the other. -/
theorem State.unthreaded_team {s u : State} (h : u.teams.map Team.unthreaded = s.teams.map Team.unthreaded) (k : Nat) :
    (u.team? k).map Team.unthreaded = (s.team? k).map Team.unthreaded := by
  have find : ∀ v : State, (v.team? k).map Team.unthreaded = (v.teams.map Team.unthreaded).find? fun x => decide (x.key = k) := fun v => by
    rw [List.find?_map]; rfl
  rw [find, find, h]

theorem State.unthreaded_pool {s u : State} (h : u.teams.map Team.unthreaded = s.teams.map Team.unthreaded) (k : Nat) :
    ((u.team? k).map fun y => y.pool) = (s.team? k).map fun y => y.pool := by
  have e := congrArg (Option.map fun y : Team => y.pool) (State.unthreaded_team h k)
  rwa [Option.map_map, Option.map_map] at e

theorem State.unthreaded_scratch {s u : State} (h : u.teams.map Team.unthreaded = s.teams.map Team.unthreaded) : s.scratchKept u := by
  have e := congrArg (List.map fun x : Team => (x.key, scratchBytes x.pool)) h
  rwa [List.map_map, List.map_map] at e

theorem Thread.lane_of_still {a b : Thread} (h : a.still = b.still) : a.lane = b.lane := (congrArg Thread.lane h : a.still.lane = b.still.lane)

/-- From one state to another, thread t has changed as F says, in what its own words change, and nothing else has but the model's own counters. -/
structure State.onlyThread (s : State) (t : Tid) (F : Thread → Thread) (u : State) : Prop where
  thread : u.thread? t = (s.thread? t).map F
  others : ∀ v, v ≠ t → u.thread? v = s.thread? v
  same : s.sameBeyond u
  teams : u.teams.map Team.unthreaded = s.teams.map Team.unthreaded
  regs : ∀ v r j, u.regVal v r j = s.regVal v r j

theorem State.onlyThread_refl (s : State) (t : Tid) : s.onlyThread t id s :=
  ⟨by rw [Option.map_id]; rfl, fun _ _ => rfl, s.sameBeyond_refl, rfl, fun _ _ _ => rfl⟩

theorem State.onlyThread_trans {s a u : State} {t : Tid} {F G : Thread → Thread} (h : s.onlyThread t F a) (h' : a.onlyThread t G u) :
    s.onlyThread t (G ∘ F) u where
  thread := by rw [h'.thread, h.thread, Option.map_map]
  others v hv := (h'.others v hv).trans (h.others v hv)
  same := State.sameBeyond_trans h.same h'.same
  teams := h'.teams.trans h.teams
  regs v r j := (h'.regs v r j).trans (h.regs v r j)

theorem State.onlyThread_updThread (s : State) (t : Tid) {F : Thread → Thread} (hF : ∀ th, (F th).still = th.still) :
    s.onlyThread t F (s.updThread t F) where
  thread := State.thread?_updThread_same s t F fun th => Thread.lane_of_still (hF th)
  others v hv := State.thread?_updThread_other s t v F (fun th => Thread.lane_of_still (hF th)) hv
  same := State.sameBeyond_updThread s t F hF
  teams := State.updThread_unthreaded s t F
  regs v r j := State.regVal_updThread s t v F r j

theorem State.onlyThread_addLong (s : State) (t : Tid) (ready : Bool) (regs : List LReg) (sh : Bool) :
    s.onlyThread t (fun th => { th with longs := th.longs ++ [{ id := s.nextId, ready := ready, regs := regs, issue := if sh then s.issueNo else none }] })
      (s.addLong t ready regs sh).2 where
  thread := by rw [s.addLong_thread, if_pos rfl]
  others v hv := by rw [s.addLong_thread, if_neg hv]
  same := s.addLong_same t ready regs sh
  teams := State.updThread_unthreaded s.fresh.2 t _
  regs v r j := s.addLong_regVal t ready regs sh v r j

theorem State.onlyThread_foldl {α : Type} {t : Tid} (f : State → α → State) (hf : ∀ s a, ∃ F, State.onlyThread s t F (f s a)) (l : List α) (s : State) :
    ∃ F, s.onlyThread t F (l.foldl f s) := by
  induction l generalizing s with
  | nil => exact ⟨id, s.onlyThread_refl t⟩
  | cons a l ih =>
    obtain ⟨F, first⟩ := hf s a
    obtain ⟨G, rest⟩ := ih (f s a)
    exact ⟨G ∘ F, State.onlyThread_trans first rest⟩

/-! #### What an access of the pool leaves behind in its thread -/

/-- Two threads differ at most in the moments of their reads and in their fences. -/
def Thread.sameButOrder (a b : Thread) : Prop := ∃ seen floor fences, b = { a with seen := seen, floor := floor, fences := fences }

/-- An order at team scope or narrower changes its thread's fences at most, and the moment that its reads may not precede (R215). -/
theorem State.ordered_team (s : State) (t : Tid) (o : MOrd) {c : Sco} {p : Place} (n : Nat) (hc : c.rank ≤ 2) (hp : p.pool = true) :
    ∃ F, (∀ th, Thread.sameButOrder th (F th)) ∧ s.onlyThread t F (s.ordered t o c p n) := by
  have fenced : ∀ (s : State) (m : FenceMark),
      s.onlyThread t (fun th => { th with fences := (th.fences ++ [m]).filter (s.markHolds t) }) (s.fenced t m) := fun s m =>
    s.onlyThread_updThread t fun _ => rfl
  have narrow : ¬5 ≤ c.rank := by omega
  cases o with
  | plain | release => exact ⟨id, fun th => ⟨_, _, _, rfl⟩, s.onlyThread_refl t⟩
  | acquire =>
    simp only [State.ordered, MOrd.acquires, hp, Bool.not_true, Bool.false_and, Bool.or_self, Bool.false_eq_true, if_false, reduceCtorEq, decide_false]
    refine ⟨_, ?_, fenced s _⟩
    exact fun th => ⟨_, _, _, rfl⟩
  | sc =>
    simp only [State.ordered, MOrd.acquires, hp, narrow, Bool.not_true, Bool.false_and, Bool.and_false, Bool.or_self, Bool.false_eq_true, if_false, if_true,
      decide_false]
    refine ⟨_, ?_, State.onlyThread_trans (s.onlyThread_updThread t (F := fun th => { th with floor := max th.floor th.seen }) fun _ => rfl) (fenced _ _)⟩
    exact fun th => ⟨_, _, _, rfl⟩

theorem teamScope_rank (c : Sco) : (teamScope c).rank ≤ 2 := by
  unfold teamScope
  split
  · exact Nat.le_refl 2
  · omega

theorem Wid.bytes_pos (w : Wid) : 0 < w.bytes := by cases w <;> decide

/-- The access that the one lane of a word makes at its issue. -/
theorem State.accOf_now (s : State) (t : Tid) : (s.accOf t).tid = t ∧ (s.accOf t).late = none := by
  unfold State.accOf
  split <;> exact ⟨rfl, rfl⟩

/-! #### What a pool access meets -/

/-- The bytes that a pool access must find in range are: all of them in the scratchpad, or its address in a region of the pool (R92, R147; log 54). -/
def poolInside (d : KDesc) (tm : Team) (pa w : Nat) (scratchOnly : Bool) : Bool :=
  poolIn d tm pa (if scratchOnly then w else 1) && !(scratchOnly && decide (winRegion ≤ pa))

/-- A lock, a queue's storage or, for a store, the hash region bars a pool access (R92, R161, R260). -/
def State.poolBarred (s : State) (d : KDesc) (tm : Team) (k pa w : Nat) (write : Bool) : Bool :=
  s.lockedPoolDst k pa w || inQueueStorage d pa w || (write && (s.lockedPoolSrc k pa w || inHashRegion tm pa w))

theorem not_poolInside (d : KDesc) (tm : Team) (pa w : Nat) (scratchOnly : Bool) :
    (!poolIn d tm pa (if scratchOnly then w else 1) || (scratchOnly && decide (winRegion ≤ pa))) = !poolInside d tm pa w scratchOnly := by
  rw [poolInside, Bool.not_and, Bool.not_not]

section
variable {s : State} {t : Tid} {tm : Team} (htm : s.team? t.team = some tm) {pa w : Nat} {scratchOnly write : Bool}
include htm

theorem State.poolMeet_outside (out : poolInside (s.descOf tm) tm pa w scratchOnly = false) :
    s.poolMeet t pa w scratchOnly write = .trap fcPoolRange pa := by
  simp only [State.poolMeet, htm, not_poolInside, out, Bool.not_false, if_true]

variable (inside : poolInside (s.descOf tm) tm pa w scratchOnly = true)
include inside

theorem State.poolMeet_misaligned (odd : pa % w ≠ 0) : s.poolMeet t pa w scratchOnly write = .trap fcMisalign pa := by
  simp only [State.poolMeet, htm, not_poolInside, inside, Bool.not_true, Bool.false_eq_true, if_false, if_pos odd]

variable (aligned : pa % w = 0)
include aligned

theorem State.poolMeet_barred (barred : s.poolBarred (s.descOf tm) tm t.team pa w write = true) :
    s.poolMeet t pa w scratchOnly write = .trap fcRangeLock pa := by
  have odd : ¬pa % w ≠ 0 := not_not.2 aligned
  simp only [State.poolBarred, Bool.or_eq_true, Bool.and_eq_true] at barred
  simp only [State.poolMeet, htm, not_poolInside, inside, Bool.not_true, Bool.false_eq_true, if_false, if_neg odd, Bool.and_eq_true]
  rcases barred with (dst | queue) | ⟨wr, src | hash⟩
  · simp only [dst, if_true, ite_self]
  · simp only [queue, if_true, ite_self]
  · rw [if_pos ⟨wr, src⟩]
  · simp only [wr, hash, and_self, if_true, ite_self]

theorem State.poolMeet_absent (free : s.poolBarred (s.descOf tm) tm t.team pa w write = false) (there : missingSeg (s.descOf tm) tm pa w = none)
    (low : pa < winRegion) (absent : tm.anyAbsent pa w = true) :
    s.poolMeet t pa w scratchOnly write = if write then .trap fcRangeLock pa else .park (.line (pa / 128)) := by
  have odd : ¬pa % w ≠ 0 := not_not.2 aligned
  simp only [State.poolBarred, Bool.or_eq_false_iff, Bool.and_or_distrib_left] at free
  obtain ⟨⟨dst, queue⟩, src, hash⟩ := free
  simp only [State.poolMeet, htm, not_poolInside, inside, Bool.not_true, Bool.false_eq_true, if_false, if_neg odd, src, dst, queue, hash, there, low,
    absent, decide_true, Bool.and_self, if_true]

end

/-- An access that meets nothing is in range and aligned. -/
theorem State.poolMeet_go {s : State} {t : Tid} {tm : Team} (htm : s.team? t.team = some tm) {pa w : Nat} {scratchOnly write : Bool}
    (h : s.poolMeet t pa w scratchOnly write = .go) : poolInside (s.descOf tm) tm pa w scratchOnly = true ∧ pa % w = 0 := by
  have inside : poolInside (s.descOf tm) tm pa w scratchOnly = true := by
    by_contra out
    rw [State.poolMeet_outside htm (Bool.eq_false_iff.2 out)] at h
    cases h
  refine ⟨inside, ?_⟩
  by_contra odd
  rw [State.poolMeet_misaligned htm inside odd] at h
  cases h

/-! #### The words of the scratchpad -/

theorem State.poolWord_scratch {s : State} {t : Tid} {tm : Team} (htm : s.team? t.team = some tm) {pa : Nat} (low : pa < winRegion) :
    s.poolWord t pa = (Mem.w32 tm.pool pa, s) := by
  simp only [State.poolWord, htm, if_pos low]

theorem State.poolWords_scratch {s : State} {t : Tid} {tm : Team} (htm : s.team? t.team = some tm) (n : Nat) {pa : Nat} (low : pa + 4 * n ≤ winRegion) :
    s.poolWords t pa n = ((List.range n).map fun j => Mem.w32 tm.pool (pa + 4 * j), s) := by
  induction n generalizing pa with
  | zero => rfl
  | succ n ih =>
    have shift : ∀ j, pa + 4 + 4 * j = pa + 4 * (j + 1) := fun j => by omega
    simp only [State.poolWords, State.poolWord_scratch htm (show pa < winRegion by omega), ih (show pa + 4 + 4 * n ≤ winRegion by omega),
      List.range_succ_eq_map, List.map_cons, List.map_map, Function.comp_def, shift, Nat.mul_zero, Nat.add_zero, Nat.succ_eq_add_one]

/-- The words that hold an aligned access below the windows lie there too. -/
theorem Wid.words_low (w : Wid) {pa : Nat} (aligned : pa % w.bytes = 0) (low : pa < winRegion) : pa / 4 * 4 + 4 * w.regs ≤ winRegion := by
  unfold winRegion at *
  cases w <;> simp only [Wid.bytes, Wid.regs] at * <;> omega

/-! #### A word of one lane that may trap or wait -/

/-- A lane's effect, where the lane that it leaves waiting parks. -/
def State.parkIf (t : Tid) : State × Option Park → State
  | (u, none) => u
  | (u, some why) => u.parkLane t why

theorem State.byLane_lane {s : State} {c : Cur} {h : Hdr} {k : Checks} {t : Tid} (ha : s.alone c h k t = true)
    (f : Tid → List (List Word) → State → State × Option Park) (joint : Bool) :
    s.byLane h k f (joint := joint) = (State.parkIf t (f t (s.opdVals t k.ops) (s.entered c h k.ops))).wordEnd h c := by
  simp only [State.alone, Bool.and_eq_true, decide_eq_true_eq] at ha
  obtain ⟨⟨hc, hp⟩, hact⟩ := ha
  obtain ⟨hcur, -, hpop, -⟩ := (State.clear_iff s c h k).1 hc
  have live := State.clear_thread hc (hact ▸ List.mem_singleton_self t)
  have there : ((s.entered c h k.ops).thread? t).isNone ≠ true := by rw [Option.isSome_iff_ne_none] at live; simpa using live
  have had : (s.entered c h k.ops).had t = [] := by
    simp only [State.had, s.entered_cur c h k.ops, State.curIn, Cur.withSet, Cur.had, hpop]; rfl
  rw [State.byLane_clear hc f (Opd.popsToken_plain hp) (Opd.pushes_plain hp) (joint := joint), hact]
  simp only [State.eachLane, if_neg there, had, State.readOps_plain _ t k.ops (State.plainAt_one hc hact hp), State.entered_opdVals hcur]
  congr 1
  generalize f t (s.opdVals t k.ops) (s.entered c h k.ops) = r
  obtain ⟨u, why⟩ := r
  cases why with
  | none => rfl
  | some why => simp only [State.parkIf, List.foldl_nil, ite_self]

/-- What a lane comes to whose access meets something. -/
def State.turnedAway (s : State) (t : Tid) : Met → State
  | .trap code a => s.metTrap t code a
  | .park why => s.parkLane t why
  | .go => s

section
variable {s : State} {t : Tid} {x : LaneAcc} {scratchOnly write : Bool} {act : Acc → State → State}

theorem State.poolTry_met (h : s.poolMeet t x.place.addr x.place.len scratchOnly write ≠ .go) :
    State.parkIf t (s.poolTry t x scratchOnly write act) = s.turnedAway t (s.poolMeet t x.place.addr x.place.len scratchOnly write) := by
  unfold State.poolTry State.poolDo
  generalize s.poolMeet t x.place.addr x.place.len scratchOnly write = m at h
  cases m with
  | go => exact absurd rfl h
  | _ => rfl

theorem State.poolTry_go (h : s.poolMeet t x.place.addr x.place.len scratchOnly write = .go) (hw : s.laneWaits x.mo t (some x.place) = false) :
    s.poolTry t x scratchOnly write act = (act (s.accOf t) s, none) := by
  simp only [State.poolTry, State.poolDo, h, State.access, hw, Bool.false_eq_true, if_false]

end

/-! #### Loads -/

/-- What a load gives of the words that hold its bytes: the words, or one byte or two of the first, zero-extended (R92, R147). -/
def MemF.cut (o : MemF) (pa : Nat) (words : List Word) : List Word :=
  if o.wid.bytes < 4 then [BitVec.ofNat 32 ((words.getD 0 0).toNat / 2 ^ (8 * (pa % 4)) % 2 ^ (8 * o.wid.bytes))] else words

/-- The operands of LDS and LDP. -/
def loadOps (o : MemF) : List Opd := [Opd.dv o.d o.wid.regs, Opd.vs o.a]

/-- A thread that has loaded: one long result more, ready to land, and its reads and fences moved on. -/
def Thread.loads (a b : Thread) (regs : List LReg) (issue : Option Nat) : Prop :=
  ∃ id seen floor fences, b = { a with
    longs := a.longs ++ [{ id := id, ready := true, regs := regs, issue := issue }], seen := seen, floor := floor, fences := fences }

/-- A load's access in the one lane of its word: the read is noted, its result set out and its order kept. -/
theorem State.poolGet_eq {e : State} {t : Tid} {o : MemF} {vals : List (List Word)} {words : List Word} (noQ : ∀ i, o.d ≠ .q i) (lead : e.leads t = true)
    (read : e.poolWords t (MemF.pa o vals / 4 * 4) o.wid.regs = (words, e)) :
    e.poolGet o vals (e.accOf t) =
      ((e.saw t e.nextId o.ord.acquires).addLong t true (destRegs true o.d 0 (MemF.cut o (MemF.pa o vals) words)) o.d.isS).2.ordered t o.ord
        (teamScope o.sco) { pool := true, addr := MemF.pa o vals, len := o.wid.bytes } (e.nextId + 1) := by
  obtain ⟨tid, now⟩ := e.accOf_now t
  have leads : (e.saw t e.nextId o.ord.acquires).leads t = true := lead
  simp only [State.poolGet, tid, read, State.accGive, State.accDone, now, State.result_long noQ, leads, Option.isNone_none, if_true]
  rfl

/-- A load's access gives its thread one long result more, and moves its reads and fences on. -/
theorem State.poolGet_loads {e : State} {t : Tid} {o : MemF} {vals : List (List Word)} {words : List Word} (noQ : ∀ i, o.d ≠ .q i) (lead : e.leads t = true)
    (read : e.poolWords t (MemF.pa o vals / 4 * 4) o.wid.regs = (words, e)) :
    ∃ F : Thread → Thread,
      (∀ th : Thread, th.loads (F th) (destRegs true o.d 0 (MemF.cut o (MemF.pa o vals) words)) (if o.d.isS then e.issueNo else none)) ∧
      e.onlyThread t F (e.poolGet o vals (e.accOf t)) := by
  rw [State.poolGet_eq noQ lead read]
  generalize destRegs true o.d 0 (MemF.cut o (MemF.pa o vals) words) = regs
  have saw : e.onlyThread t (fun th => { th with seen := max th.seen e.nextId, floor := if o.ord.acquires then max th.floor e.nextId else th.floor })
      (e.saw t e.nextId o.ord.acquires) := e.onlyThread_updThread t fun _ => rfl
  have long := (e.saw t e.nextId o.ord.acquires).onlyThread_addLong t true regs o.d.isS
  obtain ⟨G, order, ordered⟩ := State.ordered_team ((e.saw t e.nextId o.ord.acquires).addLong t true regs o.d.isS).2 t o.ord
    (p := { pool := true, addr := MemF.pa o vals, len := o.wid.bytes }) (e.nextId + 1) (teamScope_rank o.sco) rfl
  refine ⟨_, fun th => ?_, State.onlyThread_trans saw (State.onlyThread_trans long ordered)⟩
  obtain ⟨seen, floor, fences, moved⟩ := order _
  exact ⟨_, seen, floor, fences, moved⟩

/-- An access that adds a long result and changes nothing else, from the state in which its lane acts. -/
theorem State.loadsOnly_of {s u : State} {c : Cur} {h : Hdr} {ops : List Opd} {t : Tid} {d : Reg} {regs : List LReg} {F : Thread → Thread}
    (hcur : s.cur = some c) (gain : ∀ th : Thread, th.loads (F th) regs (if d.isS then (s.entered c h ops).issueNo else none)) (only : (s.entered c h ops).onlyThread t F u) :
    s.loadsOnly c h t d regs u ∧ s.sameBeyond u := by
  have issue : (if d.isS then (s.entered c h ops).issueNo else none) = c.shares [d] := by
    rw [State.issueNo, s.entered_cur c h ops, Cur.shares, List.any_cons, List.any_nil, Bool.or_false]
    rfl
  have thread := only.thread
  rw [State.entered_issued] at thread
  refine ⟨⟨?_, fun v hv => (only.others v hv).trans (s.entered_issued c h ops v), State.unthreaded_scratch (only.teams.trans (s.entered_unthreaded c h ops)),
    fun v r j => (only.regs v r j).trans (State.entered_regVal hcur h ops v r j)⟩, State.sameBeyond_trans (s.entered_same c h ops) only.same⟩
  cases hth : s.issuedThread c h t with
  | none => exact ⟨0, 0, 0, [], by rw [thread, hth]; rfl⟩
  | some th =>
    obtain ⟨id, seen, floor, fences, e⟩ := gain th
    exact ⟨id, seen, floor, fences, by rw [thread, hth, Option.map_some, e, issue]; rfl⟩

section
variable {h : Hdr} {o : MemF} {s : State} {c : Cur} {t : Tid} {scratchOnly : Bool}
  (ha : s.alone c h { ops := loadOps o, illOrder := decide (o.ord = .release) } t = true)
include ha

theorem State.poolLoad_lane :
    s.poolLoad h o scratchOnly = (State.parkIf t ((s.entered c h (loadOps o)).poolTry t
      (poolAcc o.ord o.sco (MemF.pa o (s.opdVals t (loadOps o))) o.wid.bytes false true (some (o.d, o.wid.regs)) (s.opdVals t (loadOps o))) scratchOnly false
      fun a s' => s'.poolGet o (s.opdVals t (loadOps o)) a)).wordEnd h c :=
  State.byLane_lane ha _ false

/-- A load that meets nothing and need not wait gives its long result and changes nothing else. -/
theorem State.poolLoad_go {words : List Word}
    (hw : (s.entered c h (loadOps o)).laneWaits (ordOf o.ord (teamScope o.sco) false) t
      (some { pool := true, addr := MemF.pa o (s.opdVals t (loadOps o)), len := o.wid.bytes }) = false)
    (go : (s.entered c h (loadOps o)).poolMeet t (MemF.pa o (s.opdVals t (loadOps o))) o.wid.bytes
      scratchOnly false = .go)
    (read : (s.entered c h (loadOps o)).poolWords t (MemF.pa o (s.opdVals t (loadOps o)) / 4 * 4) o.wid.regs =
      (words, s.entered c h (loadOps o))) :
    ∃ u, s.poolLoad h o scratchOnly = u.wordEnd h c ∧
      s.loadsOnly c h t o.d (destRegs true o.d 0 (MemF.cut o (MemF.pa o (s.opdVals t (loadOps o))) words)) u ∧ s.sameBeyond u := by
  have lane := ha
  simp only [State.alone, Bool.and_eq_true, decide_eq_true_eq] at lane
  obtain ⟨⟨hc, hp⟩, hact⟩ := lane
  obtain ⟨hcur, -⟩ := (State.clear_iff s c h _).1 hc
  have noQ : ∀ i, o.d ≠ .q i := (State.plain_at hp (List.mem_singleton_self t) _ (List.mem_cons_self ..)).1
  obtain ⟨F, gain, only⟩ := State.poolGet_loads (vals := s.opdVals t (loadOps o)) noQ (State.entered_leads hact _) read
  refine ⟨_, ?_, State.loadsOnly_of hcur gain only⟩
  rw [State.poolLoad_lane ha, State.poolTry_go go hw]
  rfl

/-- A load that meets something does what it meets says. -/
theorem State.poolLoad_met {m : Met} (met : m ≠ .go)
    (hm : (s.entered c h (loadOps o)).poolMeet t (MemF.pa o (s.opdVals t (loadOps o))) o.wid.bytes
      scratchOnly false = m) :
    s.poolLoad h o scratchOnly = ((s.entered c h (loadOps o)).turnedAway t m).wordEnd h c := by
  subst hm
  rw [State.poolLoad_lane ha, State.poolTry_met met]
  rfl

end

/-! #### Stores -/

theorem State.sameButPools_trans {s t u : State} (h : s.sameButPools t) (k : t.sameButPools u) : s.sameButPools u := by
  refine ⟨k.1.trans h.1, ?_⟩
  have e : ({ u with teams := s.teams, poolUe := s.poolUe, frameUe := s.frameUe, monitors := s.monitors, cur := s.cur, nextId := s.nextId } : State) =
      { ({ u with teams := t.teams, poolUe := t.poolUe, frameUe := t.frameUe, monitors := t.monitors, cur := t.cur, nextId := t.nextId } : State) with
        teams := s.teams, poolUe := s.poolUe, frameUe := s.frameUe, monitors := s.monitors, cur := s.cur, nextId := s.nextId } := rfl
  rw [e, k.2]
  exact h.2

theorem State.sameButPools_of_sameBeyond {s u : State} (h : s.sameBeyond u) : s.sameButPools u := by
  have e := congrArg (List.map fun x : Team => { x with pool := [] }) h.1
  rw [List.map_map, List.map_map] at e
  exact ⟨e, h.2⟩

theorem State.sameButPools_poolSet (s : State) (k pa : Nat) (bs : List Byte) : s.sameButPools (s.poolSet k pa bs) := by
  refine ⟨?_, rfl⟩
  simp only [State.poolSet, State.updTeam, updWhere, List.map_map]
  refine List.map_congr_left fun x _ => ?_
  simp only [Function.comp]
  split <;> rfl

/-- A store by pool address first drops results of its own thread that are older, and then writes its bytes (R93). -/
theorem State.poolStore_eq (s : State) (t : Tid) (pa : Nat) (bs : List Byte) (n : Nat) :
    ∃ F a, s.onlyThread t F a ∧ s.poolStore t pa bs n = a.poolSet t.team pa bs := by
  unfold State.poolStore
  refine Exists.elim (State.onlyThread_foldl (t := t) _ (fun s i => ?_) (List.range ((bs.length + 3) / 4)) s) fun F only => ⟨F, _, only, rfl⟩
  have unchanged : ∃ F, s.onlyThread t F s := ⟨id, s.onlyThread_refl t⟩
  split
  · split
    · split
      · exact ⟨_, s.onlyThread_updThread t fun _ => rfl⟩
      · exact unchanged
    · exact unchanged
  · exact unchanged

/-- What a store of bytes at a pool address does: they stand in the thread's team, and every other pool and all else is as it was. -/
def State.poolStored (s : State) (t : Tid) (m : Mem) (pa : Nat) (bs : List Byte) (u : State) : Prop :=
  (u.team? t.team).map (fun y => y.pool) = some (Mem.setN m pa bs) ∧
  (∀ k, k ≠ t.team → (u.team? k).map (fun y => y.pool) = (s.team? k).map fun y => y.pool) ∧ s.sameButPools u

/-- A store's access writes its bytes at the pool address and nothing else but what its thread has outstanding. -/
theorem State.poolPut_stores {e : State} {t : Tid} {te : Team} (hte : e.team? t.team = some te) (o : MemF) (vals : List (List Word)) :
    e.poolStored t te.pool (MemF.pa o vals) (dataBytes (vals.getD 0 []) o.wid.bytes) (e.poolPut o vals (e.accOf t)) := by
  obtain ⟨tid, now⟩ := e.accOf_now t
  generalize hbs : dataBytes (vals.getD 0 []) o.wid.bytes = bs
  obtain ⟨F, a, dropped, stored⟩ := State.poolStore_eq e t (MemF.pa o vals) bs e.nextId
  obtain ⟨G, -, ordered⟩ := State.ordered_team (a.poolSet t.team (MemF.pa o vals) bs) t o.ord
    (p := { pool := true, addr := MemF.pa o vals, len := o.wid.bytes }) a.nextId (teamScope_rank o.sco) rfl
  have put : e.poolPut o vals (e.accOf t) = (a.poolSet t.team (MemF.pa o vals) bs).ordered t o.ord (teamScope o.sco)
      { pool := true, addr := MemF.pa o vals, len := o.wid.bytes } a.nextId := by
    simp only [State.poolPut, tid, now, hbs, State.accDone, Option.isNone_none, if_true, Option.getD_none, stored]
    rfl
  rw [put]
  have before := State.unthreaded_pool dropped.teams
  have after := State.unthreaded_pool ordered.teams
  refine ⟨?_, fun k hk => ?_, State.sameButPools_trans (State.sameButPools_of_sameBeyond dropped.same)
    (State.sameButPools_trans (State.sameButPools_poolSet a _ _ _) (State.sameButPools_of_sameBeyond ordered.same))⟩
  · obtain ⟨ta, hta, pool⟩ := Option.map_eq_some_iff.1 ((before t.team).trans (congrArg _ hte))
    rw [after, State.poolSet_team, if_pos rfl, hta, Option.map_some, Option.map_some, pool]
  · rw [after, State.poolSet_team, if_neg hk, before]

/-- The operands of STS and STP. -/
def storeOps (o : MemF) : List Opd := [Opd.vsk o.d o.wid.regs, Opd.vs o.a]

section
variable {h : Hdr} {o : MemF} {s : State} {c : Cur} {t : Tid} {scratchOnly : Bool}
  (ha : s.alone c h { ops := storeOps o, illOrder := decide (o.ord = .acquire) } t = true)
include ha

theorem State.poolSave_lane :
    s.poolSave h o scratchOnly = (State.parkIf t ((s.entered c h (storeOps o)).poolTry t
      (poolAcc o.ord o.sco (MemF.pa o (s.opdVals t (storeOps o))) o.wid.bytes true false none (s.opdVals t (storeOps o))) scratchOnly true
      fun a s' => s'.poolPut o (s.opdVals t (storeOps o)) a)).wordEnd h c :=
  State.byLane_lane ha _ true

/-- A store that meets nothing and need not wait writes its bytes and changes nothing else. -/
theorem State.poolSave_go {tm : Team} (htm : s.team? t.team = some tm)
    (hw : (s.entered c h (storeOps o)).laneWaits (ordOf o.ord (teamScope o.sco) true false) t
      (some { pool := true, addr := MemF.pa o (s.opdVals t (storeOps o)), len := o.wid.bytes }) = false)
    (go : (s.entered c h (storeOps o)).poolMeet t (MemF.pa o (s.opdVals t (storeOps o))) o.wid.bytes scratchOnly true = .go) :
    ∃ u, s.poolSave h o scratchOnly = u.wordEnd h c ∧
      s.poolStored t tm.pool (MemF.pa o (s.opdVals t (storeOps o))) (dataBytes ((s.opdVals t (storeOps o)).getD 0 []) o.wid.bytes) u := by
  have pools := State.unthreaded_pool (s.entered_unthreaded c h (storeOps o))
  obtain ⟨te, hte, pool⟩ := Option.map_eq_some_iff.1 ((pools t.team).trans (congrArg _ htm))
  obtain ⟨own, others, rest⟩ := State.poolPut_stores hte o (s.opdVals t (storeOps o))
  refine ⟨_, ?_, by rw [own, pool], fun k hk => (others k hk).trans (pools k),
    State.sameButPools_trans (State.sameButPools_of_sameBeyond (s.entered_same c h (storeOps o))) rest⟩
  rw [State.poolSave_lane ha, State.poolTry_go go hw]
  rfl

/-- A store that meets something does what it meets says. -/
theorem State.poolSave_met {m : Met} (met : m ≠ .go)
    (hm : (s.entered c h (storeOps o)).poolMeet t (MemF.pa o (s.opdVals t (storeOps o))) o.wid.bytes scratchOnly true = m) :
    s.poolSave h o scratchOnly = ((s.entered c h (storeOps o)).turnedAway t m).wordEnd h c := by
  subst hm
  rw [State.poolSave_lane ha, State.poolTry_met met]
  rfl

end

/-! #### The team once a word has issued -/

theorem KDesc.winTotal_congr (d : KDesc) {x y : Team} (h : x.unthreaded = y.unthreaded) : d.winTotal x = d.winTotal y := by
  have total : ∀ z : Team, d.winTotal z.unthreaded = d.winTotal z := fun z => by
    simp only [KDesc.winTotal, Team.unthreaded, List.map_map]
    rfl
  rw [← total x, h, total]

theorem poolInside_congr (d : KDesc) {x y : Team} (h : x.unthreaded = y.unthreaded) (pa w : Nat) (scratchOnly : Bool) :
    poolInside d x pa w scratchOnly = poolInside d y pa w scratchOnly := by
  simp only [poolInside, poolIn, d.winTotal_congr h]

theorem missingSeg_congr (d : KDesc) {x y : Team} (h : x.unthreaded = y.unthreaded) (pa w : Nat) : missingSeg d x pa w = missingSeg d y pa w := by
  have segs : x.segs = y.segs := (congrArg Team.segs h : x.unthreaded.segs = y.unthreaded.segs)
  simp only [missingSeg, segOf, Team.seg?, d.winTotal_congr h, segs]

theorem State.poolBarred_congr (s : State) (d : KDesc) {x y : Team} (h : x.unthreaded = y.unthreaded) (k pa w : Nat) (write : Bool) :
    s.poolBarred d x k pa w write = s.poolBarred d y k pa w write := by
  have hash : x.hash = y.hash := (congrArg Team.hash h : x.unthreaded.hash = y.unthreaded.hash)
  simp only [State.poolBarred, inHashRegion, hash]

theorem Team.lineAbsent_congr {x y : Team} (h : x.unthreaded = y.unthreaded) (l : Nat) : x.lineAbsent l = y.lineAbsent l := by
  have absent : x.absent = y.absent := (congrArg Team.absent h : x.unthreaded.absent = y.unthreaded.absent)
  rw [Team.lineAbsent, absent, Team.lineAbsent]

/-- The team of a lane once its word has issued: all but its threads is as it was, and so is its descriptor. -/
theorem State.entered_team_unthreaded {s : State} {k : Nat} {tm : Team} (htm : s.team? k = some tm) (c : Cur) (h : Hdr) (ops : List Opd) :
    ∃ te, (s.entered c h ops).team? k = some te ∧ te.unthreaded = tm.unthreaded ∧ te.pool = tm.pool ∧ (s.entered c h ops).descOf te = s.descOf tm := by
  obtain ⟨te, hte, e⟩ := Option.map_eq_some_iff.1 ((State.unthreaded_team (s.entered_unthreaded c h ops) k).trans (congrArg _ htm))
  have pool : te.pool = tm.pool := (congrArg Team.pool e : te.unthreaded.pool = tm.unthreaded.pool)
  have launch : te.launch = tm.launch := (congrArg Team.launch e : te.unthreaded.launch = tm.unthreaded.launch)
  exact ⟨te, hte, e, pool, by rw [State.descOf, State.launchOf, State.launch?, State.sameBeyond_launches (s.entered_same c h ops), launch]; rfl⟩

theorem poolInside_scratch (d : KDesc) (tm : Team) (pa w : Nat) :
    poolInside d tm pa w true = true ↔ pa < winRegion ∧ pa + w ≤ d.scratch := by
  by_cases low : pa < winRegion
  · simp [poolInside, poolIn, low]
  · simp [poolInside, low, Nat.not_lt.1 low]

theorem poolInside_address (d : KDesc) (tm : Team) (pa w : Nat) :
    poolInside d tm pa w false = true ↔ if pa < winRegion then pa < d.scratch else pa < 2 * winRegion ∧ pa - winRegion < d.winTotal tm := by
  by_cases low : pa < winRegion <;> simp [poolInside, poolIn, low]

/-- An access of the scratchpad is in range for every pool word. -/
theorem poolInside_both {d : KDesc} {pa w : Nat} (tm : Team) (hw : 0 < w) (low : pa < winRegion) (fits : pa + w ≤ d.scratch) (scratchOnly : Bool) :
    poolInside d tm pa w scratchOnly = true := by
  cases scratchOnly with
  | true => exact (poolInside_scratch d tm pa w).2 ⟨low, fits⟩
  | false => exact (poolInside_address d tm pa w).2 (by rw [if_pos low]; omega)

/-- The line of an access's own address is one that it touches. -/
theorem Team.anyAbsent_first {tm : Team} {pa w : Nat} (hw : 0 < w) (h : tm.lineAbsent (pa / 128) = true) : tm.anyAbsent pa w = true := by
  refine List.any_eq_true.2 ⟨pa / 128, ?_, h⟩
  rw [linesOf, if_neg (by omega)]
  exact List.mem_map.2 ⟨0, List.mem_range.2 (by omega), rfl⟩

/-- A trap that is no uncorrectable error posts no record. -/
theorem State.metTrap_plain (s : State) (t : Tid) {code : Nat} (h : code ≠ fcMemUe) (a : Nat) : s.metTrap t code a = s.trap t code a := by
  rw [State.metTrap, if_neg h]

/-- A word that does in lane t what its access of the pool meets. -/
def State.heeds (s : State) (c : Cur) (h : Hdr) (ops : List Opd) (t : Tid) (pa w : Nat) (write : Bool) (i : Instr) (scratchOnly : Bool) : Prop :=
  ∀ m, m ≠ .go → (s.entered c h ops).poolMeet t pa w scratchOnly write = m → exec i s = .next (((s.entered c h ops).turnedAway t m).wordEnd h c)

section
variable {s : State} {c : Cur} {h : Hdr} {ops : List Opd} {t : Tid} {pa w : Nat} {write : Bool} {i : Instr} {scratchOnly : Bool}
  (heeds : s.heeds c h ops t pa w write i scratchOnly)
include heeds

theorem State.heeds.traps {code : Nat} (plain : code ≠ fcMemUe) (met : (s.entered c h ops).poolMeet t pa w scratchOnly write = .trap code pa) :
    exec i s = .next (((s.entered c h ops).trap t code pa).wordEnd h c) := by
  rw [← State.metTrap_plain _ _ plain]
  exact heeds (.trap code pa) nofun met

variable {tm : Team} (htm : s.team? t.team = some tm)
include htm

theorem State.heeds.outside (out : poolInside (s.descOf tm) tm pa w scratchOnly = false) :
    exec i s = .next (((s.entered c h ops).trap t fcPoolRange pa).wordEnd h c) := by
  obtain ⟨te, hte, e, -, desc⟩ := State.entered_team_unthreaded htm c h ops
  exact heeds.traps (by decide) (State.poolMeet_outside hte (by rw [desc, poolInside_congr _ e, out]))

variable (hw : 0 < w) (low : pa < winRegion) (fits : pa + w ≤ (s.descOf tm).scratch)
include hw low fits

theorem State.heeds.misaligned (odd : pa % w ≠ 0) : exec i s = .next (((s.entered c h ops).trap t fcMisalign pa).wordEnd h c) := by
  obtain ⟨te, hte, -, -, desc⟩ := State.entered_team_unthreaded htm c h ops
  exact heeds.traps (by decide) (State.poolMeet_misaligned hte (by rw [desc, poolInside_both te hw low fits]) odd)

variable (aligned : pa % w = 0)
include aligned

theorem State.heeds.barred (barred : (s.entered c h ops).poolBarred (s.descOf tm) tm t.team pa w write = true) :
    exec i s = .next (((s.entered c h ops).trap t fcRangeLock pa).wordEnd h c) := by
  obtain ⟨te, hte, e, -, desc⟩ := State.entered_team_unthreaded htm c h ops
  exact heeds.traps (by decide) (State.poolMeet_barred hte (by rw [desc, poolInside_both te hw low fits]) aligned
    (by rw [desc, State.poolBarred_congr _ _ e, barred]))

theorem State.heeds.absent (free : (s.entered c h ops).poolBarred (s.descOf tm) tm t.team pa w write = false)
    (there : missingSeg (s.descOf tm) tm pa w = none) (absent : tm.lineAbsent (pa / 128) = true) :
    exec i s = .next ((if write then (s.entered c h ops).trap t fcRangeLock pa else (s.entered c h ops).parkLane t (.line (pa / 128))).wordEnd h c) := by
  obtain ⟨te, hte, e, -, desc⟩ := State.entered_team_unthreaded htm c h ops
  have met := State.poolMeet_absent (scratchOnly := scratchOnly) hte (by rw [desc, poolInside_both te hw low fits]) aligned
    (by rw [desc, State.poolBarred_congr _ _ e, free]) (by rw [desc, missingSeg_congr _ e, there]) low
    (Team.anyAbsent_first hw (by rw [Team.lineAbsent_congr e, absent]))
  cases write with
  | true => exact heeds.traps (by decide) met
  | false => exact heeds (.park (.line (pa / 128))) nofun met

end

/-! #### The statements -/

theorem poolLoads : PoolLoads := by
  intro h o s c t tm ops e w pa words res ha hw htm
  have loads : ∀ (scratchOnly : Bool) (i : Instr), exec i s = .next (s.poolLoad h o scratchOnly) → e.poolMeet t pa w scratchOnly false = .go →
      e.poolWords t (pa / 4 * 4) o.wid.regs = (words, e) → ∃ u : State, exec i s = .next (u.wordEnd h c) ∧ s.loadsOnly c h t o.d res u ∧ s.sameBeyond u :=
    fun scratchOnly i hi go read => by
      obtain ⟨u, run, done⟩ := State.poolLoad_go ha hw go read
      exact ⟨u, by rw [hi, run], done⟩
  refine ⟨fun go => ?_, loads false _ rfl⟩
  obtain ⟨te, hte, -, pool, -⟩ := State.entered_team_unthreaded htm c h ops
  obtain ⟨inside, aligned⟩ := State.poolMeet_go hte go
  have low := ((poolInside_scratch _ te pa w).1 inside).1
  exact loads true _ rfl go (by rw [State.poolWords_scratch hte _ (Wid.words_low o.wid aligned low), pool])

theorem poolStores : PoolStores := by
  intro h o s c t tm ops e w v pa done ha hw htm
  have stores : ∀ (scratchOnly : Bool) (i : Instr), exec i s = .next (s.poolSave h o scratchOnly) → e.poolMeet t pa w scratchOnly true = .go →
      ∃ u : State, exec i s = .next (u.wordEnd h c) ∧ done u := fun scratchOnly i hi go => by
    obtain ⟨u, run, stored⟩ := State.poolSave_go ha htm hw go
    exact ⟨u, by rw [hi, run], stored⟩
  exact ⟨stores true _ rfl, stores false _ rfl⟩

/-- What the two words of one kind meet, LDS and LDP or STS and STP. -/
theorem poolTraps_of_heeds {s : State} {c : Cur} {h : Hdr} {ops : List Opd} {t : Tid} {tm : Team} (htm : s.team? t.team = some tm) {pa w : Nat} {write : Bool}
    {inside beside : Instr} (hw : 0 < w) (hin : s.heeds c h ops t pa w write inside true) (hbe : s.heeds c h ops t pa w write beside false) :
    let d := s.descOf tm
    let e := s.entered c h ops
    let both := fun (f : State) => exec inside s = .next (f.wordEnd h c) ∧ exec beside s = .next (f.wordEnd h c)
    (d.scratch < pa + w ∨ winRegion ≤ pa → exec inside s = .next ((e.trap t fcPoolRange pa).wordEnd h c)) ∧
    ((pa < winRegion → d.scratch ≤ pa) → (winRegion ≤ pa → 2 * winRegion ≤ pa ∨ d.winTotal tm ≤ pa - winRegion) →
      exec beside s = .next ((e.trap t fcPoolRange pa).wordEnd h c)) ∧
    (pa + w ≤ d.scratch → pa < winRegion →
      (pa % w ≠ 0 → both (e.trap t fcMisalign pa)) ∧ (pa % w = 0 → e.poolBarred d tm t.team pa w write = true → both (e.trap t fcRangeLock pa)) ∧
      (pa % w = 0 → e.poolBarred d tm t.team pa w write = false → missingSeg d tm pa w = none → tm.lineAbsent (pa / 128) = true →
        both (if write then e.trap t fcRangeLock pa else e.parkLane t (.line (pa / 128))))) := by
  refine ⟨fun out => hin.outside htm ?_, fun low high => hbe.outside htm ?_, fun fits low => ⟨fun odd => ?_, fun aligned barred => ?_,
    fun aligned free there absent => ?_⟩⟩
  · rw [Bool.eq_false_iff, ne_eq, poolInside_scratch]
    omega
  · rw [Bool.eq_false_iff, ne_eq, poolInside_address]
    split <;> omega
  · exact ⟨hin.misaligned htm hw low fits odd, hbe.misaligned htm hw low fits odd⟩
  · exact ⟨hin.barred htm hw low fits aligned barred, hbe.barred htm hw low fits aligned barred⟩
  · exact ⟨hin.absent htm hw low fits aligned free there absent, hbe.absent htm hw low fits aligned free there absent⟩

theorem poolTraps : PoolTraps := fun _ o _ _ _ _ htm =>
  ⟨fun ha => poolTraps_of_heeds htm (Wid.bytes_pos o.wid) (fun _ met hm => congrArg Host.Outcome.next (State.poolLoad_met ha met hm))
      fun _ met hm => congrArg Host.Outcome.next (State.poolLoad_met ha met hm),
    fun ha => poolTraps_of_heeds htm (Wid.bytes_pos o.wid) (fun _ met hm => congrArg Host.Outcome.next (State.poolSave_met ha met hm))
      fun _ met hm => congrArg Host.Outcome.next (State.poolSave_met ha met hm)⟩

end Sys2Proof.Machine

namespace Sys2Proof

open Machine

/-- Settles O33: a pool word of one lane does what its access meets; one that meets nothing adds one long result to its thread, or writes its bytes
in its team's pool. -/
theorem poolAccesses : Obligations.PoolAccesses := ⟨poolLoads, poolStores, poolTraps⟩

end Sys2Proof

/-! ### Canonical NaNs -/

namespace Sys2Proof.Machine

@[simp] theorem Fmt.round_nan (f : Fmt) (rm : Rm) (sat ftz : Bool) : f.round rm sat ftz .nan = f.nanCode := rfl

/-- Of the three readings only the finite-only one, 1, has no NaN (R99, R100); the precision plays no part. -/
theorem Fmt.nanCode_binary8 (p : Nat) {r : Nat} (hr : r = 0 ∨ r = 2) (uns : Bool) :
    Fmt.nanCode (.binary8 p r uns) = if uns then 0xFF else 0x80 := by
  cases uns with
  | false => obtain rfl | rfl := hr <;> rfl
  | true => obtain rfl | rfl := hr <;> rfl

end Sys2Proof.Machine

namespace Sys2Proof

open Machine

/-- Settles O20: rounding a NaN drops its origin for the format's one code, and the codes are those of R97's table. -/
theorem canonicalNan : Obligations.CanonicalNan :=
  ⟨Fmt.round_nan, rfl, rfl, rfl, rfl, fun p _ _ _ hr => ⟨Fmt.nanCode_binary8 p hr false, Fmt.nanCode_binary8 p hr true⟩⟩

end Sys2Proof

/-! ### Values of a bounded number of registers -/

namespace Sys2Proof.Machine

theorem wordsN_length_le (n v : Nat) : (wordsN n v).length ≤ n := List.length_take_le n _

/-- Words of n registers see a value modulo 2^(32n) alone. -/
theorem wordsN_congr {n v w : Nat} (h : v % 2 ^ (32 * n) = w % 2 ^ (32 * n)) : wordsN n v = wordsN n w := by
  obtain rfl | rfl | hn : n = 0 ∨ n = 1 ∨ 2 ≤ n := by omega
  case inl => rfl
  case inr.inl => simpa [wordsN, natPair, ← BitVec.toNat_inj] using h
  case inr.inr =>
    have h64 : v % 2 ^ 64 = w % 2 ^ 64 := by
      have hd : 2 ^ 64 ∣ 2 ^ (32 * n) := pow_dvd_pow 2 (by omega)
      rw [← Nat.mod_mod_of_dvd v hd, h, Nat.mod_mod_of_dvd w hd]
    have lo : v % 4294967296 = w % 4294967296 := by omega
    have hi : v / 4294967296 % 4294967296 = w / 4294967296 % 4294967296 := by omega
    have pair : natPair v = natPair w := by simp [natPair, ← BitVec.toNat_inj, lo, hi]
    rw [wordsN, pair, wordsN]

theorem wordsN_mod (n v : Nat) : wordsN n (v % 2 ^ (32 * n)) = wordsN n v := wordsN_congr (Nat.mod_mod _ _)

/-- a without its bits of b, in a register's bits, is a and not b. -/
theorem xor_and_mod_eq (m a b : Nat) : (a ^^^ (a &&& b)) % 2 ^ m = (a &&& (b ^^^ (2 ^ m - 1))) % 2 ^ m := by
  apply Nat.eq_of_testBit_eq
  intro i
  simp only [Nat.testBit_mod_two_pow, Nat.testBit_xor, Nat.testBit_and, Nat.testBit_two_pow_sub_one]
  by_cases hi : i < m
  · cases a.testBit i <;> simp [hi]
  · simp [hi]

end Sys2Proof.Machine

/-! ### Integer words -/

namespace Sys2Proof.Machine

/-- The destination of a word, read or not, is one that it writes. -/
theorem Opd.dest_use (reads : Bool) (r : Reg) (n : Nat) :
    (if reads then Opd.upd r n else Opd.dst r n).use = .wr ∨ (if reads then Opd.upd r n else Opd.dst r n).use = .rw := by
  cases reads with
  | false => exact .inl rfl
  | true => exact .inr rfl

theorem Opd.dest_n (reads : Bool) (r : Reg) (n : Nat) : (if reads then Opd.upd r n else Opd.dst r n).n = n := by cases reads <;> rfl

theorem intWord_of {i : Instr} {h : Hdr} {o : I3} {reads : Bool} {nd nb : Nat} {f g : Nat → Nat → Nat → Nat}
    (hex : ∀ s, exec i s = .next (s.int3 h o false reads nd nb f)) (hfg : ∀ d a b, wordsN nd (f d a b) = wordsN nd (g d a b)) :
    IntWord i h o reads nd nb g := by
  unfold IntWord
  simp only [← hfg]
  exact shortWord_compute hex (Opd.dest_use reads o.d nd) fun _ => by rw [Opd.dest_n]; exact wordsN_length_le nd _

theorem intElems_of {i : Instr} {h : Hdr} {o : I3} {reads : Bool} {f : Int → Int → Int → Int}
    (hex : ∀ s, exec i s = .next (s.intElems h o false reads f)) : IntElems i h o reads f := by
  simp only [State.intElems] at hex
  exact intWord_of hex fun _ _ _ => rfl

theorem intBits_of {i : Instr} {h : Hdr} {o : I3} {f g : Nat → Nat → Nat} (hex : ∀ s, exec i s = .next (s.intBits h o f))
    (hfg : ∀ a b, f a b % 2 ^ (32 * o.ty.regs) = g a b % 2 ^ (32 * o.ty.regs)) :
    IntWord i h o false o.ty.regs o.ty.regs fun _ a b => g a b :=
  intWord_of hex fun _ a b => (wordsN_mod _ _).trans (wordsN_congr (hfg a b))

/-- The form of a shift: f of the element's width, the element and its amount, which is operand B's one register for 64-bit types. -/
def IntShift (i : Instr) (h : Hdr) (o : I3) (f : Nat → Nat → Nat → Nat) : Prop :=
  IntWord i h o false o.ty.regs 1 fun _ a b => o.ty.map fun k =>
    f o.ty.width (elem o.ty.width a k) (if o.ty.is64 then b else elem o.ty.width b k)

theorem intShift_of {i : Instr} {h : Hdr} {o : I3} {f : Nat → Nat → Nat → Nat} (hex : ∀ s, exec i s = .next (s.intShift h o f)) :
    IntShift i h o f := by
  simp only [State.intShift] at hex
  exact intWord_of hex fun _ _ _ => rfl

theorem intUnary_of {i : Instr} {h : Hdr} {o : I2} {nd : Nat} {f : Nat → Nat} (hex : ∀ s, exec i s = .next (s.int2 h o nd f)) :
    IntUnary i h o nd f :=
  shortWord_compute hex (.inl rfl) fun _ => wordsN_length_le nd _

/-- IMIN's choice is the lesser. -/
theorem ite_lt_eq_min (a b : Int) : (if b < a then b else a) = min a b := by rw [min_comm, min_def_lt]

theorem sarBits_eq (w a k : Nat) : sarBits w a k = reduce true false w (signedOf w a / 2 ^ min k w) := by
  simp only [sarBits, min_comm k, min_def]

theorem integerArithmetic : IntegerArithmetic := by
  intro h o u
  have imin : IntElems (.imin h o) h o false fun _ a b => min a b := by
    simp only [← ite_lt_eq_min]
    exact intElems_of fun _ => rfl
  have imax : IntElems (.imax h o) h o false fun _ a b => max a b := by
    simp only [max_def_lt]
    exact intElems_of fun _ => rfl
  have iabs : IntUnary (.iabs h u) h u u.ty.regs fun a => u.ty.map fun k =>
      reduce u.ty.signed u.sat u.ty.width |u.ty.int (elem u.ty.width a k)| := by
    simp only [← Int.natCast_natAbs]
    exact intUnary_of fun _ => rfl
  exact ⟨intElems_of fun _ => rfl, intElems_of fun _ => rfl, intElems_of fun _ => rfl, intElems_of fun _ => rfl, intElems_of fun _ => rfl,
    imin, imax, iabs, intWord_of (fun _ => rfl) fun _ _ _ => rfl⟩

theorem logicAndShifts : LogicAndShifts := by
  intro h o u
  have shl : IntShift (.shl h o) h o shlBits := intShift_of fun _ => rfl
  have shr : IntShift (.shr h o) h o shrBits := intShift_of fun _ => rfl
  have sar : IntShift (.sar h o) h o fun w a k => reduce true false w (signedOf w a / 2 ^ min k w) := by
    simp only [← sarBits_eq]
    exact intShift_of fun _ => rfl
  have rotl : IntShift (.rotl h o) h o rotlBits := intShift_of fun _ => rfl
  exact ⟨intBits_of (fun _ => rfl) fun _ _ => rfl, intBits_of (fun _ => rfl) fun _ _ => rfl, intBits_of (fun _ => rfl) fun _ _ => rfl,
    intBits_of (fun _ => rfl) (xor_and_mod_eq _), shl, shr, sar, rotl, intUnary_of fun _ => rfl, intUnary_of fun _ => rfl, intUnary_of fun _ => rfl⟩

end Sys2Proof.Machine

namespace Sys2Proof

open Machine

/-- Settles O10: each word is the shared form of its operands, with the value of R111 in an element or in a register's bits. -/
theorem integerWords : Obligations.IntegerWords := ⟨integerArithmetic, logicAndShifts⟩

end Sys2Proof

/-! ### Floating words -/

namespace Sys2Proof.Machine

theorem fp1Word_of {i : Instr} {h : Hdr} {o : F3} {reads : Bool} {g : FMod → FVal → FVal → FVal → FExact}
    (hex : ∀ s, exec i s = .next (s.fp1 h o false reads g)) : Fp1Word i h o reads g :=
  shortWord_compute hex (Opd.dest_use reads o.d 1) fun _ => by rw [Opd.dest_n]; exact wordsN_length_le 1 _

theorem fp2Word_of {i : Instr} {h : Hdr} {o : F3} {reads : Bool} {g : FMod → FVal → FVal → FVal → FExact}
    (hex : ∀ s, exec i s = .next (s.fp2 h o reads g)) : Fp2Word i h o reads g :=
  longWord_compute hex

theorem floatArithmetic : FloatArithmetic := fun _ _ =>
  ⟨fp1Word_of fun _ => rfl, fp1Word_of fun _ => rfl, fp1Word_of fun _ => rfl, fp1Word_of fun _ => rfl, fp1Word_of fun _ => rfl,
    fp1Word_of fun _ => rfl⟩

theorem dotRoundClass : DotRoundClass := fun _ _ _ _ =>
  ⟨shortWord_compute (fun _ => rfl) (.inr rfl) fun _ => wordsN_length_le 1 _, shortWord_compute (fun _ => rfl) (.inl rfl) fun _ => wordsN_length_le 1 _,
    shortWord_compute (fun _ => rfl) (.inl rfl) fun _ => wordsN_length_le 1 _⟩

end Sys2Proof.Machine

namespace Sys2Proof

open Machine

/-- Settles O16: each word computes its destination from its sources in the form that R120 gives, and writes no more words than the destination has. -/
theorem floatWords : Obligations.FloatWords := ⟨floatArithmetic, dotRoundClass⟩

/-- Settles O17: each word computes its destination from its sources as a long result. -/
theorem elementaryFunctions : Obligations.ElementaryFunctions := fun _ _ _ =>
  ⟨longWord_compute fun _ => rfl, longWord_compute fun _ => rfl, longWord_compute fun _ => rfl, longWord_compute fun _ => rfl,
    longWord_compute fun _ => rfl, longWord_compute fun _ => rfl, longWord_compute fun _ => rfl, longWord_compute fun _ => rfl⟩

/-- Settles O18: each word computes an FP64 pair from its sources' pairs as a long result. -/
theorem doubleArithmetic : Obligations.DoubleArithmetic := fun _ _ _ =>
  ⟨fp2Word_of fun _ => rfl, fp2Word_of fun _ => rfl, fp2Word_of fun _ => rfl, fp2Word_of fun _ => rfl, fp2Word_of fun _ => rfl,
    fp2Word_of fun _ => rfl, fp2Word_of fun _ => rfl, longWord_compute fun _ => rfl⟩

end Sys2Proof

/-! ### Reduction to an element -/

namespace Sys2Proof.Machine

theorem two_pow_half {w : Nat} (hw : 1 ≤ w) : (2 : Int) ^ w = 2 * 2 ^ (w - 1) := by
  obtain ⟨k, rfl⟩ := Nat.exists_eq_add_of_le' hw
  rw [Nat.add_sub_cancel, pow_succ, mul_comm]

/-- A value of w bits as a type reads it. -/
def readAs (signed : Bool) (w v : Nat) : Int := if signed then signedOf w v else v

/-- A value lies in the range of w bits. -/
def InRange (signed : Bool) (w : Nat) (v : Int) : Prop := (rangeOf signed w).1 ≤ v ∧ v ≤ (rangeOf signed w).2

theorem inRange_signed {w : Nat} {v : Int} : InRange true w v ↔ -2 ^ (w - 1) ≤ v ∧ v ≤ 2 ^ (w - 1) - 1 := Iff.rfl

theorem inRange_unsigned {w : Nat} {v : Int} : InRange false w v ↔ 0 ≤ v ∧ v ≤ 2 ^ w - 1 := Iff.rfl

theorem inRange_zero (signed : Bool) (w : Nat) : InRange signed w 0 := by
  have half : (0 : Int) < 2 ^ (w - 1) := by positivity
  have whole : (0 : Int) < 2 ^ w := by positivity
  cases signed with
  | false => exact inRange_unsigned.2 (by omega)
  | true => exact inRange_signed.2 (by omega)

/-- What lies between 0 and a value of the range lies in it. -/
theorem InRange.toward_zero {signed : Bool} {w : Nat} {v x : Int} (hv : InRange signed w v) (hx : min 0 v ≤ x ∧ x ≤ max 0 v) : InRange signed w x := by
  have h0 := inRange_zero signed w
  unfold InRange at *
  omega

theorem natCast_reduce (signed sat : Bool) (w : Nat) (v : Int) :
    (reduce signed sat w v : Int) = (if sat then clampInt (rangeOf signed w) v else v) % 2 ^ w :=
  Int.toNat_of_nonneg (Int.emod_nonneg _ (by positivity))

theorem reduce_lt (signed sat : Bool) (w : Nat) (v : Int) : reduce signed sat w v < 2 ^ w := by
  zify
  rw [natCast_reduce]
  exact Int.emod_lt_of_pos _ (by positivity)

/-- Values of the range are read back from their residue. -/
theorem readAs_toNat_emod {signed : Bool} {w : Nat} (hw : 1 ≤ w) {v : Int} (hv : InRange signed w v) : readAs signed w (v % 2 ^ w).toNat = v := by
  have hpos : (0 : Int) < 2 ^ (w - 1) := by positivity
  cases signed with
  | false =>
    rw [inRange_unsigned] at hv
    rw [Int.emod_eq_of_lt hv.1 (by omega)]
    exact Int.toNat_of_nonneg hv.1
  | true =>
    rw [inRange_signed] at hv
    have hr : ((v % 2 ^ w).toNat : Int) = v % 2 ^ w := Int.toNat_of_nonneg (Int.emod_nonneg _ (by positivity))
    have hle : 2 ^ (w - 1) ≤ (v % 2 ^ w).toNat ↔ (2 : Int) ^ (w - 1) ≤ v % 2 ^ w := by
      rw [← hr]
      norm_cast
    simp only [readAs, signedOf, if_true, hle, hr]
    rw [two_pow_half hw]
    by_cases h0 : 0 ≤ v
    · rw [Int.emod_eq_of_lt h0 (by omega), if_neg (by omega)]
    · have : v % (2 * 2 ^ (w - 1)) = v + 2 * 2 ^ (w - 1) := by
        rw [← Int.add_emod_right, Int.emod_eq_of_lt (by omega) (by omega)]
      rw [this, if_pos (by omega)]
      omega

theorem clampInt_of_inRange {signed : Bool} {w : Nat} {v : Int} (hv : InRange signed w v) : clampInt (rangeOf signed w) v = v := by
  rw [clampInt, if_neg (not_lt.2 hv.1), if_neg (not_lt.2 hv.2)]

theorem readAs_reduce {signed sat : Bool} {w : Nat} (hw : 1 ≤ w) {v : Int} (hv : InRange signed w v) : readAs signed w (reduce signed sat w v) = v := by
  rw [reduce, clampInt_of_inRange hv, ite_self]
  exact readAs_toNat_emod hw hv

/-- A range's ends lie in it. -/
theorem inRange_ends (signed : Bool) (w : Nat) : InRange signed w (rangeOf signed w).1 ∧ InRange signed w (rangeOf signed w).2 := by
  have h0 := inRange_zero signed w
  exact ⟨⟨le_rfl, h0.1.trans h0.2⟩, h0.1.trans h0.2, le_rfl⟩

theorem readAs_reduce_sat {signed : Bool} {w : Nat} (hw : 1 ≤ w) (v : Int) :
    (v < (rangeOf signed w).1 → readAs signed w (reduce signed true w v) = (rangeOf signed w).1) ∧
    ((rangeOf signed w).2 < v → readAs signed w (reduce signed true w v) = (rangeOf signed w).2) := by
  obtain ⟨lo, hi⟩ := inRange_ends signed w
  refine ⟨fun h => ?_, fun h => ?_⟩
  · rw [reduce, if_pos rfl, clampInt, if_pos h]
    exact readAs_toNat_emod hw lo
  · rw [reduce, if_pos rfl, clampInt, if_neg (not_lt.2 (lo.2.trans h.le)), if_pos h]
    exact readAs_toNat_emod hw hi

end Sys2Proof.Machine

namespace Sys2Proof

open Machine

/-- Settles O13: a value of the range is its own residue, and clamping gives the nearest end of the range for any other. -/
theorem elementReduction : Obligations.ElementReduction := by
  intro signed sat w v hw
  refine ⟨reduce_lt signed sat w v, ?_, ?_⟩
  · rintro rfl
    exact natCast_reduce signed false w v
  · rintro rfl
    exact ⟨(readAs_reduce_sat hw v).1, (readAs_reduce_sat hw v).2, fun hl hr => readAs_reduce hw ⟨hl, hr⟩⟩

end Sys2Proof

/-! ### Division -/

namespace Sys2Proof

open Machine

theorem Ty.one_le_width (ty : Ty) : 1 ≤ ty.width := by cases ty <;> decide

theorem Ty.int_eq_readAs (ty : Ty) (v : Nat) : ty.int v = readAs ty.signed ty.width v := rfl

/-- A value of the type's width, as the type reads it, lies in its range. -/
theorem Ty.int_inRange (ty : Ty) {a : Nat} (ha : a < 2 ^ ty.width) : InRange ty.signed ty.width (ty.int a) := by
  have half := two_pow_half ty.one_le_width
  have ha' : (a : Int) < 2 ^ ty.width := by exact_mod_cast ha
  rw [ty.int_eq_readAs]
  cases ty.signed with
  | false => exact inRange_unsigned.2 ⟨Int.natCast_nonneg a, by change (a : Int) ≤ _; omega⟩
  | true =>
    rw [inRange_signed, readAs, if_pos rfl, signedOf]
    have hle : 2 ^ (ty.width - 1) ≤ a ↔ (2 : Int) ^ (ty.width - 1) ≤ a := by norm_cast
    split <;> omega

theorem Ty.int_reduce (ty : Ty) {sat : Bool} {v : Int} (hv : InRange ty.signed ty.width v) : ty.int (reduce ty.signed sat ty.width v) = v :=
  readAs_reduce ty.one_le_width hv

end Sys2Proof

namespace Sys2Proof.Machine

/-- A truncated remainder lies between 0 and the dividend. -/
theorem tmod_toward_zero (a b : Int) : min 0 a ≤ a.tmod b ∧ a.tmod b ≤ max 0 a := by
  have habs : (a.tmod b).natAbs ≤ a.natAbs := by
    rw [Int.natAbs_tmod]
    exact Nat.mod_le _ _
  rcases le_total 0 a with ha | ha
  · have := Int.tmod_nonneg b ha
    omega
  · have := Int.tmod_nonneg b (neg_nonneg.2 ha)
    rw [Int.neg_tmod] at this
    omega

/-- A truncated quotient lies in the dividend's range, but for −1 under the least value of a signed range. -/
theorem InRange.tdiv {signed : Bool} {w : Nat} {a b : Int} (ha : InRange signed w a) (hb : InRange signed w b)
    (ho : ¬(signed = true ∧ a = -2 ^ (w - 1) ∧ b = -1)) : InRange signed w (a.tdiv b) := by
  have habs : (a.tdiv b).natAbs = a.natAbs / b.natAbs := Int.natAbs_tdiv a b
  have hle : (a.tdiv b).natAbs ≤ a.natAbs := habs ▸ Nat.div_le_self _ _
  cases signed with
  | false =>
    rw [inRange_unsigned] at ha hb ⊢
    have := Int.tdiv_nonneg ha.1 hb.1
    omega
  | true =>
    rw [inRange_signed] at ha hb ⊢
    have pos : (0 : Int) < 2 ^ (w - 1) := by positivity
    by_cases htop : a.tdiv b = 2 ^ (w - 1)
    · exfalso
      have hmin : a = -2 ^ (w - 1) := by omega
      have hunit : b.natAbs = 1 := by
        have heq : a.natAbs / b.natAbs = a.natAbs := by omega
        exact ((Nat.div_eq_self.1 heq).resolve_left (by omega))
      rcases Int.natAbs_eq b with h1 | h1
      · rw [h1, hunit] at htop
        simp only [Nat.cast_one, Int.tdiv_one] at htop
        omega
      · exact ho ⟨rfl, hmin, by rw [h1, hunit]; rfl⟩
    · omega

theorem idivValue_zero (ty : Ty) (sat : Bool) (a : Nat) : idivValue ty sat a 0 = 2 ^ ty.width - 1 := rfl

theorem iremValue_zero (ty : Ty) (a : Nat) : iremValue ty a 0 = a := rfl

section
variable {ty : Ty} {a b : Nat} (ha : a < 2 ^ ty.width) (hb0 : b ≠ 0)
include ha hb0

theorem int_iremValue : ty.int (iremValue ty a b) = (ty.int a).tmod (ty.int b) := by
  rw [iremValue, if_neg hb0]
  exact ty.int_reduce ((ty.int_inRange ha).toward_zero (tmod_toward_zero _ _))

theorem int_idivValue {sat : Bool} (hb : b < 2 ^ ty.width) (ho : ¬(ty.signed = true ∧ ty.int a = -2 ^ (ty.width - 1) ∧ ty.int b = -1)) :
    ty.int (idivValue ty sat a b) = (ty.int a).tdiv (ty.int b) := by
  rw [idivValue, if_neg hb0]
  exact ty.int_reduce ((ty.int_inRange ha).tdiv (ty.int_inRange hb) ho)

end

end Sys2Proof.Machine

namespace Sys2Proof

open Machine

/-- The codes of the least value and of −1 of a signed type. -/
theorem Ty.int_corners {ty : Ty} (hs : ty.signed = true) {v : Nat} (hv : v < 2 ^ ty.width) :
    (ty.int v = -2 ^ (ty.width - 1) ↔ v = 2 ^ (ty.width - 1)) ∧ (ty.int v = -1 ↔ v = 2 ^ ty.width - 1) := by
  have half := two_pow_half ty.one_le_width
  have pos : (0 : Int) < 2 ^ (ty.width - 1) := by positivity
  have hv' : (v : Int) < 2 ^ ty.width := by exact_mod_cast hv
  have cast : ((2 ^ (ty.width - 1) : Nat) : Int) = 2 ^ (ty.width - 1) ∧ ((2 ^ ty.width : Nat) : Int) = 2 ^ ty.width := ⟨by norm_cast, by norm_cast⟩
  rw [ty.int_eq_readAs, hs, readAs, if_pos rfl, signedOf]
  split <;> omega

end Sys2Proof

namespace Sys2Proof.Machine

theorem divisionValues : DivisionValues := by
  intro ty sat a b _ ha hb
  refine ⟨?byZero, ?values, ?overflow⟩
  case byZero =>
    rintro rfl
    exact ⟨idivValue_zero ty sat a, iremValue_zero ty a⟩
  case values =>
    intro hb0 ho
    have hq : ty.int (idivValue ty sat a b) = (ty.int a).tdiv (ty.int b) := by
      refine int_idivValue ha hb0 hb fun ⟨hs, hmin, hunit⟩ => ho ⟨hs, ?_, ?_⟩
      · exact (Ty.int_corners hs ha).1.1 hmin
      · exact (Ty.int_corners hs hb).2.1 hunit
    have hr : ty.int (iremValue ty a b) = (ty.int a).tmod (ty.int b) := int_iremValue ha hb0
    refine ⟨hq, hr, ?_⟩
    rw [hq, hr]
    exact (Int.tdiv_mul_add_tmod _ _).symm
  case overflow =>
    intro hs hmin hunit
    have hb0 : b ≠ 0 := by
      have := Nat.one_lt_two_pow (Nat.one_le_iff_ne_zero.1 ty.one_le_width)
      omega
    have ia : ty.int a = -2 ^ (ty.width - 1) := (Ty.int_corners hs ha).1.2 hmin
    have ib : ty.int b = -1 := (Ty.int_corners hs hb).2.2 hunit
    have half := two_pow_half ty.one_le_width
    have pos : (0 : Int) < 2 ^ (ty.width - 1) := by positivity
    have cast : ((2 ^ (ty.width - 1) : Nat) : Int) = 2 ^ (ty.width - 1) := by norm_cast
    rw [idivValue, iremValue, if_neg hb0, if_neg hb0, ia, ib, hs]
    simp only [Int.tdiv_neg, Int.tdiv_one, neg_neg, Int.tmod_neg, Int.tmod_one]
    refine ⟨?_, by simp [reduce]⟩
    cases sat with
    | false =>
      have := natCast_reduce true false ty.width (2 ^ (ty.width - 1))
      rw [if_neg Bool.false_ne_true, Int.emod_eq_of_lt pos.le (by omega)] at this
      simp only [Bool.false_eq_true, if_false]
      omega
    | true =>
      have := natCast_reduce true true ty.width (2 ^ (ty.width - 1))
      rw [if_pos rfl, show rangeOf true ty.width = (-2 ^ (ty.width - 1), 2 ^ (ty.width - 1) - 1) from rfl, clampInt, if_neg (by omega),
        if_pos (by omega), Int.emod_eq_of_lt (by omega) (by omega)] at this
      simp only [if_true]
      omega

theorem divisionLong : DivisionLong := fun _ _ => ⟨longWord_compute fun _ => rfl, longWord_compute fun _ => rfl⟩

end Sys2Proof.Machine

/-! #### The forms that decode -/

namespace Sys2Proof

open Machine

/-- The instruction of a full-form word: what the opcode map reads, if it is well formed. -/
theorem decode_full {w : DWord} (hf : w.getLsbD 63 = false) :
    (∃ i, (unpack w).instr? = some i ∧ i.wf = true ∧ decode w = i) ∨ decode w = .illegalOp w := by
  cases hd : decodeFields (unpack w) with
  | none => exact .inr (by rw [decode, hf, if_neg Bool.false_ne_true, hd])
  | some i =>
    obtain ⟨hi, hw⟩ := (decodeFields_eq_some_iff _ i).1 hd
    exact .inl ⟨i, hi, hw, by rw [decode, hf, if_neg Bool.false_ne_true, hd]⟩

theorem wf_of_decode {w : DWord} {i : Instr} (hf : w.getLsbD 63 = false) (e : decode w = i) (hi : i ≠ .illegalOp w) : i.wf = true := by
  obtain ⟨j, -, hw, hj⟩ | hill := decode_full hf
  · rwa [← e, hj]
  · exact absurd (e.symm.trans hill) hi

/-- Both division opcodes read the REG3 layout of class 0. -/
theorem instr?_division {f : Fields} {i : Instr} (e : f.instr? = some i) :
    (f.opc.toNat = 0x1D → ∃ o, f.i3 = some o ∧ i = .idiv f.hdr o) ∧ (f.opc.toNat = 0x1E → ∃ o, f.i3 = some o ∧ i = .irem f.hdr o) := by
  have class0 (n : Nat) (hn : n < 128) (h : f.opc.toNat = n) : (f.opc.extractLsb' 7 3).toNat = 0 := by
    rw [BitVec.extractLsb'_toNat, h, Nat.shiftRight_eq_div_pow]
    omega
  refine ⟨fun h => ?_, fun h => ?_⟩
  · rw [Fields.instr?, class0 _ (by decide) h] at e
    simp only [decClass0, h, Option.map_eq_some_iff] at e
    obtain ⟨o, ho, rfl⟩ := e
    exact ⟨o, ho, rfl⟩
  · rw [Fields.instr?, class0 _ (by decide) h] at e
    simp only [decClass0, h, Option.map_eq_some_iff] at e
    obtain ⟨o, ho, rfl⟩ := e
    exact ⟨o, ho, rfl⟩

theorem i3_fields {f : Fields} {o : I3} (himm : f.xb 11 = false) (e : f.i3 = some o) : o.ty = Ty.ofBits (f.xf 0 3) ∧ o.sat = f.xb 3 := by
  rw [Fields.i3, himm, if_neg Bool.false_ne_true, req_eq_some_iff] at e
  obtain ⟨-, e⟩ := e
  obtain rfl := Option.some.inj e
  exact ⟨rfl, rfl⟩

/-- The type codes from 4 on are the packed types. -/
theorem Ty.wide_ofBits (b : BitVec 3) : (Ty.ofBits b).wide = !b.getLsbD 2 := by
  revert b
  decide

theorem I3.wf_parts {o : I3} {p : Ty → Bool} {satOk : Bool} (h : o.wf p satOk = true) : p o.ty = true ∧ (satOk = true ∨ o.sat = false) := by
  simp only [I3.wf, Bool.and_eq_true, Bool.or_eq_true, Bool.not_eq_true'] at h
  obtain ⟨⟨-, hp⟩, hs⟩ := h
  exact ⟨hp, hs⟩

theorem divisionForms : DivisionForms := by
  intro w hf himm
  set f := unpack w with hunpack
  have type2 : (f.xf 0 3).getLsbD 2 = w.getLsbD 2 := by simp [hunpack, unpack, Fields.xf]
  have sat3 : f.xb 3 = w.getLsbD 3 := by simp [hunpack, unpack, Fields.xb]
  have himm : f.xb 11 = false := by simpa [hunpack, unpack, Fields.xb] using himm
  refine ⟨fun hopc hpacked => ?packed, fun hopc hsat => ?sat, fun h o e => ?idiv, fun h o e => ?irem⟩
  case packed =>
    refine (decode_full hf).resolve_left ?_
    rintro ⟨i, hi, hw, -⟩
    obtain ⟨hdiv, hrem⟩ := instr?_division hi
    have notWide {o : I3} (ho : f.i3 = some o) : o.ty.wide = false := by rw [(i3_fields himm ho).1, Ty.wide_ofBits, type2, hpacked]; rfl
    rcases hopc with hopc | hopc
    · obtain ⟨o, ho, rfl⟩ := hdiv hopc
      exact absurd (I3.wf_parts hw).1 (by simp [notWide ho])
    · obtain ⟨o, ho, rfl⟩ := hrem hopc
      exact absurd (I3.wf_parts hw).1 (by simp [notWide ho])
  case sat =>
    refine (decode_full hf).resolve_left ?_
    rintro ⟨i, hi, hw, -⟩
    obtain ⟨o, ho, rfl⟩ := (instr?_division hi).2 hopc
    have := (I3.wf_parts hw).2.resolve_left Bool.false_ne_true
    rw [(i3_fields himm ho).2, sat3, hsat] at this
    cases this
  case idiv => exact (I3.wf_parts (wf_of_decode hf e nofun)).1
  case irem =>
    obtain ⟨hty, hs⟩ := I3.wf_parts (wf_of_decode hf e nofun)
    exact ⟨hty, hs.resolve_left Bool.false_ne_true⟩

/-- Settles O12: quotient and remainder lie in the dividend's range but for the one overflow, so their codes read back exactly; the decoder keeps
the types of one register or pair alone. -/
theorem division : Obligations.Division := ⟨divisionLong, divisionValues, divisionForms⟩

end Sys2Proof

/-! ### Floating conditions -/

namespace Sys2Proof.Machine

/-- Two values have no order where one is a NaN. -/
theorem fOrd_eq_none_iff (a b : FVal) : fOrd a b = none ↔ (a.isNan || b.isNan) = true := by
  cases a <;> cases b <;> simp [fOrd, FVal.isNan]

theorem scaled_eq_unitsOf (neg : Bool) (m : Nat) (e k : Int) : scaled neg m e k = unitsOf neg m e k := by
  cases neg <;> simp [scaled, unitsOf]

/-- A finer unit multiplies every count of units by one positive factor. -/
theorem unitsOf_finer {e k j : Int} (hj : j ≤ k) (hk : k ≤ e) (neg : Bool) (m : Nat) :
    unitsOf neg m e j = unitsOf neg m e k * 2 ^ (k - j).toNat := by
  have hsum : (e - j).toNat = (e - k).toNat + (k - j).toNat := by omega
  rw [unitsOf, unitsOf, hsum, pow_add, mul_assoc _ (2 ^ _) (2 ^ _)]

/-- Finite values are ordered as their counts of any common unit. -/
theorem fOrd_fin (n m : Bool) (x y : Nat) {e g k : Int} (he : k ≤ e) (hg : k ≤ g) :
    fOrd (.fin n x e) (.fin m y g) = some (compare (unitsOf n x e k) (unitsOf m y g k)) := by
  have common (b : Int) (hkb : k ≤ b) (hbe : b ≤ e) (hbg : b ≤ g) :
      compare (scaled n x e b) (scaled m y g b) = compare (unitsOf n x e k) (unitsOf m y g k) := by
    have hpos : (0 : Int) < 2 ^ (b - k).toNat := by positivity
    rw [scaled_eq_unitsOf, scaled_eq_unitsOf, unitsOf_finer hkb hbe, unitsOf_finer hkb hbg]
    rw [← cmp_eq_compare, ← cmp_eq_compare]
    exact (StrictMono.cmp_map_eq (strictMono_mul_right_of_pos hpos) _ _).symm
  have hmin : (if e < g then e else g) = min e g := by rw [min_def_lt]
  simp only [fOrd, hmin]
  rw [common (min e g) (le_min he hg) (min_le_left _ _) (min_le_right _ _)]

theorem fOrd_swap (a b : FVal) : fOrd b a = (fOrd a b).map Ordering.swap := by
  match a, b with
  | .nan, b => cases b <;> rfl
  | .inf _, .nan => rfl
  | .fin _ _ _, .nan => rfl
  | .inf n, .inf m => revert n m; decide
  | .inf n, .fin _ _ _ => cases n <;> rfl
  | .fin _ _ _, .inf n => cases n <;> rfl
  | .fin n x e, .fin m y g =>
    rw [fOrd_fin n m x y (min_le_left e g) (min_le_right e g), fOrd_fin m n y x (min_le_right e g) (min_le_left e g), Option.map_some,
      Std.OrientedCmp.eq_swap (cmp := compare)]

end Sys2Proof.Machine

namespace Sys2Proof

open Machine

theorem FCond.holds_unordered {a b : FVal} (h : fOrd a b = none) (c : FCond) : c.holds a b = decide (c = .ne ∨ c = .uno) := by
  cases c <;> simp [FCond.holds, h]

theorem FCond.holds_eq {a b : FVal} {o : Ordering} (h : fOrd a b = some o) : FCond.holds .eq a b = decide (o = .eq) := by
  simp only [FCond.holds, h]

theorem FCond.holds_lt {a b : FVal} {o : Ordering} (h : fOrd a b = some o) : FCond.holds .lt a b = decide (o = .lt) := by
  simp only [FCond.holds, h]

/-- Of two numbers, the conditions are the cases of their order. -/
theorem FCond.holds_ordered {a b : FVal} {o : Ordering} (h : fOrd a b = some o) :
    FCond.holds .ord a b = true ∧ FCond.holds .uno a b = false ∧ FCond.holds .ne a b = !FCond.holds .eq a b ∧
      FCond.holds .le a b = (FCond.holds .lt a b || FCond.holds .eq a b) ∧ FCond.holds .gt a b = FCond.holds .lt b a ∧
      FCond.holds .ge a b = FCond.holds .le b a := by
  have hs : fOrd b a = some o.swap := by rw [fOrd_swap, h, Option.map_some]
  simp only [FCond.holds, h, hs]
  cases o <;> decide

/-- Settles O15: every condition is a case of one order, which compares finite values in a common unit. -/
theorem floatConditions : Obligations.FloatConditions := by
  intro c a b
  refine ⟨fun h => FCond.holds_unordered ((fOrd_eq_none_iff a b).2 h) c, fun h => ?_, rfl, fun n m x y e g k he hg => ?_, fun n m x e => ?_⟩
  · cases ho : fOrd a b with
    | none => exact absurd ((fOrd_eq_none_iff a b).1 ho) (by rw [h]; exact Bool.false_ne_true)
    | some o => exact FCond.holds_ordered ho
  · have ho := fOrd_fin n m x y he hg
    rw [FCond.holds_eq ho, FCond.holds_lt ho]
    exact ⟨decide_eq_decide.2 compare_eq_iff_eq, decide_eq_decide.2 compare_lt_iff_lt⟩
  · have inf_inf : fOrd (.inf n) (.inf m) = some (if n = m then .eq else if n then .lt else .gt) := rfl
    have inf_fin : fOrd (.inf n) (.fin m x e) = some (if n then .lt else .gt) := rfl
    have fin_inf : fOrd (.fin m x e) (.inf n) = some (if n then .gt else .lt) := rfl
    rw [FCond.holds_eq inf_inf, FCond.holds_lt inf_inf, FCond.holds_eq inf_fin, FCond.holds_lt inf_fin, FCond.holds_eq fin_inf, FCond.holds_lt fin_inf]
    clear inf_inf inf_fin fin_inf
    revert n m
    decide

end Sys2Proof

/-! ### Fields and moves -/

namespace Sys2Proof.Machine

theorem State.readRegs_length (s : State) (t : Tid) (r : Reg) (j n : Nat) : (s.readRegs t r j n).1.length = n := by
  induction n generalizing s j with
  | zero => rfl
  | succ n ih => exact congrArg (· + 1) (ih _ _)

/-- A lane reads at most as many words of an operand as it has registers. -/
theorem State.readOps_fits {ops : List Opd} (hn : ∀ o ∈ ops, 1 ≤ o.n) {s s' : State} {t : Tid} {have_ taken p : List Word} {q : Nat}
    {vals : List (List Word)} (e : s.readOps t ops have_ taken = ((some vals, p, q), s')) :
    List.Forall₂ (fun o w => w.length ≤ o.n) ops vals := by
  induction ops generalizing s have_ taken vals with
  | nil =>
    obtain rfl : [] = vals := Option.some.inj (congrArg (fun x => x.1.1) e)
    exact .nil
  | cons o os ih =>
    have rest {u : State} {hd tk v : List Word} (hv : v.length ≤ o.n)
        (e : (((u.readOps t os hd tk).1.1.map fun vs => v :: vs, (u.readOps t os hd tk).1.2), (u.readOps t os hd tk).2) = ((some vals, p, q), s')) :
        List.Forall₂ (fun o w => w.length ≤ o.n) (o :: os) vals := by
      obtain ⟨⟨h1, h2⟩, h3⟩ := by simpa only [Prod.mk.injEq] using e
      obtain ⟨vs, hvs, rfl⟩ := Option.map_eq_some_iff.1 h1
      exact .cons hv (ih (fun x hx => hn x (List.mem_cons_of_mem _ hx)) (Prod.ext (Prod.ext hvs h2) h3))
    have one : 1 ≤ o.n := hn o (List.mem_cons_self ..)
    unfold State.readOps at e
    split at e
    · exact rest (Nat.zero_le _) e
    · split at e
      · split at e
        · exact rest (v := [_]) one e
        · split at e
          · simp at e
          · exact rest (v := [_]) one e
      · exact rest (s.readRegs_length t o.reg 0 o.n).le e

/-- Lane by lane, effects that agree on values of the operands' lengths do the same. -/
theorem State.eachLane_congr {ops : List Opd} (hn : ∀ o ∈ ops, 1 ≤ o.n) {f g : Tid → List (List Word) → State → State × Option Park}
    (h : ∀ t vals s, List.Forall₂ (fun o w => w.length ≤ o.n) ops vals → f t vals s = g t vals s) (s : State) (ts : List Tid) :
    s.eachLane ops f ts = s.eachLane ops g ts := by
  induction ts generalizing s with
  | nil => rfl
  | cons t ts ih =>
    unfold State.eachLane
    split
    · exact ih s
    · split
      · rfl
      · rename_i e
        rw [h _ _ _ (State.readOps_fits hn e)]
        split
        · exact ih _
        · simp only [ih]

theorem State.byLane_congr {k : Checks} (hn : ∀ o ∈ k.ops, 1 ≤ o.n) {f g : Tid → List (List Word) → State → State × Option Park}
    (h : ∀ t vals s, List.Forall₂ (fun o w => w.length ≤ o.n) k.ops vals → f t vals s = g t vals s) (s : State) (hd : Hdr) :
    s.byLane hd k f = s.byLane hd k g := by
  unfold State.byLane
  simp only [State.eachLane_congr hn h]

theorem State.opdVals_fits (s : State) (t : Tid) (ops : List Opd) : List.Forall₂ (fun o w => w.length ≤ o.n) ops (s.opdVals t ops) := by
  induction ops with
  | nil => exact .nil
  | cons o os ih =>
    refine .cons ?_ ih
    by_cases hu : o.use = .wr ∨ o.use = .name
    · simp only [if_pos hu, List.length_nil, Nat.zero_le]
    · simp only [if_neg hu, List.length_map, List.length_range, le_refl]

/-- A short word's results matter on what lanes read alone. -/
theorem ShortWord.congr {i : Instr} {h : Hdr} {d : Opd} {ops : List Opd} {f g : State → Tid → List (List Word) → List Word} (w : ShortWord i h d ops f)
    (e : ∀ s u, f s u (s.opdVals u ops) = g s u (s.opdVals u ops)) : ShortWord i h d ops g := by
  intro s c hc hp
  have := w s c hc hp
  simpa only [e] using this

theorem one_le_regs (ty : Ty) : 1 ≤ ty.regs := by cases ty <;> decide

/-- SEL's result in a lane: one of its two sources, by its predicate (R116). -/
def selValue (l : SelF) (s : State) (t : Tid) (v : List (List Word)) : List Word := if s.predOf t l.p != l.neg then v.getD 1 [] else v.getD 2 []

/-- SEL's operands, the destination first. -/
def selOpds (l : SelF) : List Opd := [Opd.dst l.d l.ty.regs, Opd.src l.a l.ty.regs, Opd.src l.b l.ty.regs]

theorem selValue_take (l : SelF) (s : State) (t : Tid) {v : List (List Word)} (hv : List.Forall₂ (fun o w => w.length ≤ o.n) (selOpds l) v) :
    (selValue l s t v).take l.ty.regs = selValue l s t v := by
  obtain _ | ⟨-, _ | ⟨ha, _ | ⟨hb, _⟩⟩⟩ := hv
  refine List.take_of_length_le ?_
  unfold selValue
  split
  · exact ha
  · exact hb

theorem selValue_congr {l : SelF} {s s' : State} {t : Tid} (h : s'.predOf t l.p = s.predOf t l.p) : selValue l s' t = selValue l s t := by
  unfold selValue
  rw [h]

/-- What changes outstanding results alone leaves the predicates. -/
theorem State.onlyLongs.predOf {s s' : State} {t : Tid} (h : s.onlyLongs s' t) (p : BitVec 3) : s'.predOf t p = s.predOf t p := by
  obtain ⟨ls, hls⟩ := h
  unfold State.predOf State.threadIs
  rw [hls]
  cases s.thread? t <;> rfl

theorem sel_short (h : Hdr) (l : SelF) : ShortWord (.sel h l) h (Opd.dst l.d l.ty.regs) (selOpds l) (selValue l) := by
  have oneEach : ∀ o ∈ selOpds l, 1 ≤ o.n := by
    simp only [selOpds, List.mem_cons, List.not_mem_nil, or_false]
    rintro o (rfl | rfl | rfl) <;> exact one_le_regs l.ty
  have bounded : ShortWord (.sel h l) h (Opd.dst l.d l.ty.regs) (selOpds l) fun s t v => (selValue l s t v).take l.ty.regs := by
    refine shortWord_byLane (b := [Opd.src l.a l.ty.regs, Opd.src l.b l.ty.regs].any Opd.pops) (fun s => ?_) any_cons_false (List.mem_cons_self ..)
      (.inl rfl) (fun _ _ _ => List.length_take_le _ _) (fun s s' t e => ?_) (fun s c h' _ => ?_)
    · refine congrArg Host.Outcome.next (State.byLane_congr oneEach (fun t v s hv => ?_) s h)
      rw [selValue_take l s t hv]
      rfl
    · rw [selValue_congr (e.predOf l.p)]
    · simp only [selValue_congr (s.entered_predOf c h' (selOpds l) _ l.p)]
  exact bounded.congr fun s u => selValue_take l s u (s.opdVals_fits u _)

end Sys2Proof.Machine

namespace Sys2Proof

open Machine

/-- Settles O11: each word computes its destination from its sources; SEL takes one of them by the predicate of its lane. -/
theorem fieldsAndMoves : Obligations.FieldsAndMoves := fun h _ l _ _ _ =>
  ⟨shortWord_compute (fun _ => rfl) (.inl rfl) fun _ => wordsN_length_le _ _, shortWord_compute (fun _ => rfl) (.inr rfl) fun _ => wordsN_length_le _ _,
    sel_short h l, intUnary_of fun _ => rfl, shortWord_compute (fun _ => rfl) (.inl rfl) fun _ => le_rfl,
    shortWord_compute (fun _ => rfl) (.inr rfl) fun _ => le_rfl, shortWord_compute (fun _ => rfl) (.inl rfl) fun _ => le_rfl⟩

end Sys2Proof

/-! ### Lane words -/

namespace Sys2Proof.Machine

/-- A class 3 word whose results are a matter of what its lanes read alone. -/
theorem crossWord_ofVals {i : Instr} {h : Hdr} {ops : List Opd} {f : LaneVals → Tid → List (List Word) → List (Reg × List Word)}
    (hex : ∀ s, exec i s = .next (s.cross h ops fun _ => f)) : CrossWord i h ops fun _ => f :=
  crossWord_of hex fun _ _ _ _ _ _ _ => rfl

theorem crossLaneWords : CrossLaneWords := by
  intro h o b m g k r d
  refine ⟨crossWord_ofVals fun _ => rfl, crossWord_of (fun _ => rfl) fun s c h' _ t _ v => ?bal, crossWord_ofVals fun _ => rfl,
    crossWord_ofVals fun _ => rfl, crossWord_ofVals fun _ => rfl, crossWord_ofVals fun _ => rfl, crossWord_ofVals fun _ => rfl,
    crossWord_of (fun _ => rfl) fun s c h' _ t _ v => ?seed⟩
  case bal => simp only [State.entered_predOf]
  case seed => simp only [State.seedOf_same (s.entered_same c h' _)]

/-- All values are equal where each equals the first. -/
theorem all_eq_first {α β : Type} [DecidableEq β] (f : α → β) (x : α) (xs : List α) :
    (xs.all fun y => decide (f y = f x)) = (x :: xs).all fun y => (x :: xs).all fun z => decide (f y = f z) := by
  rw [Bool.eq_iff_iff]
  simp only [List.all_eq_true, decide_eq_true_eq, List.mem_cons, forall_eq_or_imp, true_and]
  exact ⟨fun h => ⟨fun y hy => (h y hy).symm, fun y hy => ⟨h y hy, fun z hz => (h y hy).trans (h z hz).symm⟩⟩, fun h y hy => (h.1 y hy).symm⟩

theorem voteWords : VoteWords := by
  intro h o e
  refine ⟨crossPred_of (fun _ => rfl) fun s c h' _ => ?all, crossPred_of (fun _ => rfl) fun s c h' _ => ?any,
    crossPred_of (fun s => ?eq) fun _ _ _ _ => rfl⟩
  case all => simp only [State.entered_predOf]
  case any => simp only [State.entered_predOf]
  case eq =>
    refine congrArg Host.Outcome.next ?_
    congr 1
    funext _ vs
    cases vs with
    | nil => rfl
    | cons x xs => exact all_eq_first (fun y => y.2.getD 0 []) x xs

end Sys2Proof.Machine

namespace Sys2Proof

open Machine

/-- Settles O22: a class 3 word computes each lane's result from what all active lanes read before any is written. -/
theorem laneWords : Obligations.LaneWords := ⟨crossLaneWords, voteWords⟩

end Sys2Proof

/-! ### Conversion words -/

namespace Sys2Proof.Machine

theorem conversions : Conversions := fun _ _ => ⟨longWord_compute fun _ => rfl, longWord_compute fun _ => rfl⟩

/-! #### CVTQ (R132, R133) -/

/-- The elements that a narrow word of CVTQ holds. -/
def cvtqCount (o : QFmtF) : Nat := if o.fmt = 4 then 8 else 4

/-- CVTQ's destination: one register an element, or one of them all. -/
def cvtqDest (o : QFmtF) : Opd := if o.widen then { Opd.dst o.d with n := cvtqCount o } else Opd.dst o.d

/-- CVTQ's operands, the destination first. -/
def cvtqOpds (o : QFmtF) : List Opd :=
  if o.widen then [{ Opd.dst o.d with n := cvtqCount o }, Opd.src o.a] else [Opd.dst o.d, { Opd.src o.a with n := cvtqCount o }]

/-- CVTQ's result words from what a lane reads. -/
def cvtqValue (o : QFmtF) (v : List (List Word)) : List Word :=
  if o.widen then (List.range (cvtqCount o)).map fun i =>
    BitVec.ofNat 32 (Fmt.fp32.round .rne false false ((QFmtF.nf o).val (elem (32 / cvtqCount o) (val1 v 1).toNat i)).exact)
  else [BitVec.ofNat 32 (packElems (32 / cvtqCount o) (cvtqCount o) fun i =>
    (QFmtF.nf o).convert o.rm o.sat (Fmt.fp32.val ((v.getD 1 []).getD i 0).toNat))]

theorem cvtqDest_reg (o : QFmtF) : (cvtqDest o).reg = o.d := by
  unfold cvtqDest
  split <;> rfl

theorem cvtqDest_mem (o : QFmtF) : cvtqDest o ∈ cvtqOpds o := by
  unfold cvtqDest cvtqOpds
  split <;> exact List.mem_cons_self ..

/-- A plain operand is no q register. -/
theorem State.plain_noQ {s : State} {act : List Tid} {ops : List Opd} (hp : s.plain act ops = true) {o : Opd} (ho : o ∈ ops) (i : Fin 64) :
    o.reg ≠ .q i := by
  intro hr
  have := List.all_eq_true.1 hp o ho
  simp [hr] at this

/-- The effect of CVTQ and MXQ: a trap of every lane where the format fields are invalid, else the words' own effect at their turn. -/
def formatGuarded (invalid : Bool) (ops : List Opd) (own : State → List Tid → State) (act : List Tid) (s : State) : Option State :=
  if invalid then some (s.trapAll act fcFormatInvalid)
  else if s.queueWaits (ops.any Opd.popsToken) ops act then none
  else some (own (s.deliverIf (ops.any Opd.popsToken) act).2 (s.deliverIf (ops.any Opd.popsToken) act).1)

section
variable {s : State} {c : Cur} {h : Hdr} {ops : List Opd} (hc : s.clear c h { ops := ops } = true) (own : State → List Tid → State) (joint : Bool)
include hc

theorem formatGuarded_valid (hp : s.plain (s.actives c h) ops = true) :
    s.word h { ops := ops } (formatGuarded false ops own) joint = (own (s.entered c h ops) (s.actives c h)).wordEnd h c := by
  rw [State.word_clear hc _ joint]
  simp only [formatGuarded, Bool.false_eq_true, if_false, Opd.popsToken_plain hp, State.queueWaits_false _ _ _ (Opd.pushes_plain hp), State.deliverIf_false]

theorem formatGuarded_invalid :
    s.word h { ops := ops } (formatGuarded true ops own) joint = ((s.entered c h ops).trapAll (s.actives c h) fcFormatInvalid).wordEnd h c := by
  rw [State.word_clear hc _ joint]
  rfl

end

section
variable {h : Hdr} {o : QFmtF} {s : State} {c : Cur}

/-- CVTQ's effect: each lane's result, long. -/
def cvtqOwn (o : QFmtF) (s : State) (act : List Tid) : State :=
  s.eachLane (cvtqOpds o) (fun t v s => s.result t true o.d (cvtqValue o v)) act

theorem exec_cvtq (h : Hdr) (o : QFmtF) (s : State) :
    exec (.cvtq h o) s = .next (s.word h { ops := cvtqOpds o } (formatGuarded (!QFmtF.valid o false) (cvtqOpds o) (cvtqOwn o)) ((cvtqOpds o).any Opd.isQ)) := rfl

theorem cvtq_long (hc : s.clear c h { ops := cvtqOpds o } = true) (hp : s.plain (s.actives c h) (cvtqOpds o) = true) (hv : QFmtF.valid o false = true) :
    ∃ t : State, exec (.cvtq h o) s = .next (t.wordEnd h c) ∧ s.sameBeyond t ∧ (∀ u, u ∉ s.actives c h → t.thread? u = s.issuedThread c h u) ∧
      ∀ u ∈ s.actives c h, gainsLong (s.issuedThread c h u) (t.thread? u)
        (destRegs ((s.curIn c h).lead u) o.d 0 (cvtqValue o (s.opdVals u (cvtqOpds o)))) (c.shares [o.d]) := by
  obtain ⟨t, ht, same, -, idle, active, -⟩ := State.longLanes hc (f := fun _ _ => cvtqValue o) rfl hp (cvtqDest_mem o) fun _ _ _ _ _ _ _ => rfl
  refine ⟨t, ?_, same, idle, fun u hu => ?_⟩
  · rw [exec_cvtq, hv, Bool.not_true, formatGuarded_valid hc _ _ hp, cvtqOwn, ← cvtqDest_reg, ht]
  · have := active u hu
    rwa [State.entered_issued, cvtqDest_reg] at this

theorem cvtq_invalid (hc : s.clear c h { ops := cvtqOpds o } = true) (hv : QFmtF.valid o false = false) :
    exec (.cvtq h o) s = .next (((s.entered c h (cvtqOpds o)).trapAll (s.actives c h) fcFormatInvalid).wordEnd h c) := by
  rw [exec_cvtq, hv, Bool.not_false, formatGuarded_invalid hc]

end

/-! #### Words that combine their lanes without a queue (R23, R259) -/

/-- Reading all lanes of plain operands leaves the state alone, and stops at no lane. -/
theorem State.readAll_plain (s : State) (ops : List Opd) (ts : List Tid) (h : ∀ t ∈ ts, s.plainAt t ops) :
    s.readAll ops (ts.map fun t => (t, [])) = (ts.map fun t => (t, s.opdVals t ops, []), none, s) := by
  induction ts with
  | nil => rfl
  | cons t ts ih =>
    have ih := ih fun u hu => h u (List.mem_cons_of_mem _ hu)
    simp only [List.map_cons, State.readAll, State.readOps_plain s t ops (h t (List.mem_cons_self ..)), ih]

/-- Results of one word each to registers become long results, lane after lane. -/
theorem State.putAll_regs {d : Reg} (noQ : ∀ i, d ≠ .q i) (n : Nat) (s : State) (rs : List (Tid × Word)) :
    s.putAll d n rs = rs.foldl (fun s x => (s.addLong x.1 true (destRegs (s.leads x.1) d 0 [x.2]) d.isS).2) s := by
  induction rs generalizing s with
  | nil => rfl
  | cons x rs ih =>
    rw [State.putAll, State.result_long noQ, List.foldl_cons]
    exact ih _

theorem popCount_plain {s : State} {act : List Tid} {ops : List Opd} (hp : s.plain act ops = true) : popCount ops = 0 := by
  rw [popCount, List.length_eq_zero_iff, List.filter_eq_nil_iff]
  exact List.any_eq_false.1 (Opd.pops_plain hp)

/-- Without a queue, a word that combines its lanes gives each of them one long result from what all of them read. -/
theorem State.together_plain {s : State} {c : Cur} {h : Hdr} {ops : List Opd} (hc : s.clear c h { ops := ops } = true)
    (hp : s.plain (s.actives c h) ops = true) {d : Reg} (noQ : ∀ i, d ≠ .q i) (f : List (Tid × List (List Word)) → List (Tid × Word)) :
    (s.entered c h ops).together ops d (s.actives c h) f =
      (f (s.laneVals c h ops)).foldl (fun s x => (s.addLong x.1 true (destRegs (s.leads x.1) d 0 [x.2]) d.isS).2) (s.entered c h ops) := by
  obtain ⟨hcur, -, hpop, -⟩ := (State.clear_iff s c h _).1 hc
  have had (t : Tid) : (s.entered c h ops).had t = [] := by
    rw [State.had, State.entered_cur]
    simp only [State.curIn, Cur.had, Cur.withSet_popped, hpop]
    rfl
  have reads := (s.entered c h ops).readAll_plain ops (s.actives c h) fun _ ht => State.entered_plainAt hcur hp ht
  have vals : (s.actives c h).map (fun t => (t, (s.entered c h ops).opdVals t ops)) = s.laneVals c h ops :=
    List.map_congr_left fun t _ => by rw [State.entered_opdVals hcur]
  unfold State.together
  simp only [had, popCount_plain hp, List.length_nil, lt_self_iff_false, decide_false, List.filter_false, List.isEmpty_nil, Bool.not_true,
    Bool.false_eq_true, if_false, reads, List.map_map, Function.comp_def, vals]
  exact State.putAll_regs noQ 0 _ _

/-! #### MXQ (R134) -/

/-- MXQ's operands. -/
def mxqOpds (o : QFmtF) : List Opd := [Opd.dst o.d, Opd.src o.a]

/-- The floating format of MXQ's elements. -/
def mxqFmt (o : QFmtF) : Fmt := match QFmtF.nf o with | .fp f => f | .int8 _ => .e2m1

/-- The value that a lane gives to MXQ. -/
def mxqVal (v : List (List Word)) : FVal := Fmt.fp32.val (val1 v 1).toNat

/-- MXQ's word for a lane: its element, with the scale of the block of 32 lanes that it stands in. -/
def mxqWord (o : QFmtF) (vs : LaneVals) (t : Tid) (v : List (List Word)) : Word :=
  mxWord (mxqFmt o) o.rm
    (mxScale (mxqFmt o) ((vs.filter fun y => decide (y.1.group = t.group ∧ y.1.lane / 32 = t.lane / 32)).map fun y => mxqVal y.2)) (mxqVal v)

/-- MXQ's words for all lanes. -/
def mxqResults (o : QFmtF) (vs : LaneVals) : List (Tid × Word) := vs.map fun x => (x.1, mxqWord o vs x.1 x.2)

/-- The same words, from the lanes' values taken first. -/
theorem mxqResults_of_vals (o : QFmtF) (vs : LaneVals) {vals : List (Tid × FVal)} (hv : (vs.map fun x => (x.1, mxqVal x.2)) = vals) :
    mxqResults o vs = vals.map fun x =>
      (x.1, mxWord (mxqFmt o) o.rm
        (mxScale (mxqFmt o) ((vals.filter fun y => decide (y.1.group = x.1.group ∧ y.1.lane / 32 = x.1.lane / 32)).map fun y => y.2)) x.2) := by
  subst hv
  simp only [mxqResults, mxqWord, List.map_map, List.filter_map, Function.comp_def]

theorem exec_mxq (h : Hdr) (o : QFmtF) (s : State) :
    exec (.mxq h o) s = .next (s.word h { ops := mxqOpds o }
      (formatGuarded (!QFmtF.valid o true) (mxqOpds o) fun s act => s.together (mxqOpds o) o.d act (mxqResults o))) := by
  rw [funext fun vs => mxqResults_of_vals o vs rfl]
  rfl

section
variable {h : Hdr} {o : QFmtF} {s : State} {c : Cur}

/-- MXQ without a queue is a word that combines its lanes as the class 3 words do. -/
theorem mxq_cross (hc : s.clear c h { ops := mxqOpds o } = true) (hp : s.plain (s.actives c h) (mxqOpds o) = true) (hv : QFmtF.valid o true = true) :
    exec (.mxq h o) s = .next (s.cross h (mxqOpds o) fun _ vs t v => [(o.d, [mxqWord o vs t v])]) := by
  have noQ : ∀ i, o.d ≠ .q i := State.plain_noQ hp (o := Opd.dst o.d) (List.mem_cons_self ..)
  rw [exec_mxq, hv, Bool.not_true, formatGuarded_valid hc _ _ hp, State.together_plain hc hp noQ, State.cross, State.word_clear hc]
  simp only [State.entered_gather hc _ hp, mxqResults, List.foldl_map, List.flatMap_singleton, List.any_cons, List.any_nil, Bool.or_false]

theorem mxq_long (hc : s.clear c h { ops := mxqOpds o } = true) (hp : s.plain (s.actives c h) (mxqOpds o) = true) (hv : QFmtF.valid o true = true) :
    ∃ t : State, exec (.mxq h o) s = .next (t.wordEnd h c) ∧ (∀ u, u ∉ s.actives c h → t.thread? u = s.issuedThread c h u) ∧
      ∀ u ∈ s.actives c h, gainsLong (s.issuedThread c h u) (t.thread? u)
        (destRegs ((s.curIn c h).lead u) o.d 0 [mxqWord o (s.laneVals c h (mxqOpds o)) u (s.opdVals u (mxqOpds o))]) (c.shares [o.d]) := by
  obtain ⟨t, ht, -, idle, active, -⟩ := State.crossLanes hc hp fun _ vs t v => [(o.d, [mxqWord o vs t v])]
  refine ⟨t, by rw [mxq_cross hc hp hv, ht], idle, fun u hu => ?_⟩
  have := active u hu
  rwa [State.entered_issued, List.flatMap_singleton] at this

theorem mxq_invalid (hc : s.clear c h { ops := mxqOpds o } = true) (hv : QFmtF.valid o true = false) :
    exec (.mxq h o) s = .next (((s.entered c h (mxqOpds o)).trapAll (s.actives c h) fcFormatInvalid).wordEnd h c) := by
  rw [exec_mxq, hv, Bool.not_false, formatGuarded_invalid hc]

end

theorem narrowConversions : NarrowConversions := by
  intro h o s c
  refine ⟨cvtq_long, fun hc hp hv => ?_, cvtq_invalid, mxq_invalid⟩
  obtain ⟨t, ht, idle, active⟩ := mxq_long hc hp hv
  refine ⟨t, ht, idle, fun u hu => ?_⟩
  have := active u hu
  rw [mxqWord, State.laneVals, List.filter_map, List.map_map] at this
  exact this

end Sys2Proof.Machine

namespace Sys2Proof

open Machine

/-- Settles O19: the conversions are long words; MXQ without a queue combines its lanes as a class 3 word does, and invalid fields stop CVTQ and MXQ
before any lane reads. -/
theorem conversionWords : Obligations.ConversionWords := ⟨conversions, narrowConversions⟩

end Sys2Proof

/-! ### The scratch atomic -/

namespace Sys2Proof.Machine

/-- The issue number under which a word's lanes share a result to one destination. -/
theorem State.entered_shares (s : State) (c : Cur) (h : Hdr) (ops : List Opd) (d : Reg) :
    (if d.isS then (s.entered c h ops).issueNo else none) = c.shares [d] := by
  rw [State.issueNo, s.entered_cur c h ops, Cur.shares, List.any_cons, List.any_nil, Bool.or_false]
  rfl

/-- An access that reads, performed at the issue of its word: its thread's read is noted, its result set out and its order kept. -/
theorem State.accGive_loads {b : State} {t : Tid} {a : Acc} {d : Reg} (ht : a.tid = t) (now : a.late = none) (noQ : ∀ i, d ≠ .q i)
    (lead : b.leads t = true) (ws : List Word) (o : MOrd) {c : Sco} (narrow : c.rank ≤ 2) {p : Place} (hp : p.pool = true) :
    ∃ F : Thread → Thread, (∀ th : Thread, th.loads (F th) (destRegs true d 0 ws) (if d.isS then b.issueNo else none)) ∧
      b.onlyThread t F (((b.saw a.tid b.nextId o.acquires).accGive a d ws).accDone a o c p) := by
  have leads : (b.saw t b.nextId o.acquires).leads t = true := lead
  have access : ((b.saw a.tid b.nextId o.acquires).accGive a d ws).accDone a o c p =
      ((b.saw t b.nextId o.acquires).addLong t true (destRegs true d 0 ws) d.isS).2.ordered t o c p (b.nextId + 1) := by
    simp only [ht, State.accGive, State.accDone, now, State.result_long noQ, leads, Option.isNone_none, if_true]
    rfl
  rw [access]
  generalize destRegs true d 0 ws = regs
  have saw : b.onlyThread t (fun th => { th with seen := max th.seen b.nextId, floor := if o.acquires then max th.floor b.nextId else th.floor })
      (b.saw t b.nextId o.acquires) := b.onlyThread_updThread t fun _ => rfl
  have long := (b.saw t b.nextId o.acquires).onlyThread_addLong t true regs d.isS
  obtain ⟨G, order, ordered⟩ := State.ordered_team ((b.saw t b.nextId o.acquires).addLong t true regs d.isS).2 t o (b.nextId + 1) narrow hp
  refine ⟨_, fun th => ?_, State.onlyThread_trans saw (State.onlyThread_trans long ordered)⟩
  obtain ⟨seen, floor, fences, moved⟩ := order _
  exact ⟨_, seen, floor, fences, moved⟩

/-- A thread that has loaded has one long result more. -/
theorem longsGain_of_loads {a b : Option Thread} {F : Thread → Thread} {regs : List LReg} {issue : Option Nat}
    (gain : ∀ th : Thread, th.loads (F th) regs issue) (hb : b = a.map F) : longsGain a b regs issue := by
  subst hb
  cases a with
  | none => exact ⟨0, rfl⟩
  | some th =>
    obtain ⟨id, seen, floor, fences, e⟩ := gain th
    exact ⟨id, by rw [Option.map_some, Option.map_some, e]; rfl⟩

/-- ATOMS' access at the issue of its word, of bytes with no mark: its thread gains the old words as a long result, and the new bytes stand. -/
theorem State.atomsAct_stores {e : State} {t : Tid} {te : Team} {o : AtomsF} {vals : List (List Word)} (hte : e.team? t.team = some te)
    (noQ : ∀ i, o.d ≠ .q i) (lead : e.leads t = true) (unmarked : e.poolMarked t.team (poolAddr vals 1 0 1) o.ty.bytes = false) :
    ∃ F : Thread → Thread,
      (∀ th : Thread, th.loads (F th) (destRegs true o.d 0 (wordsOf (Mem.getN te.pool (poolAddr vals 1 0 1) o.ty.bytes)))
        (if o.d.isS then e.issueNo else none)) ∧
      (e.atomsAct o vals (e.accOf t)).thread? t = (e.thread? t).map F ∧
      e.poolStored t te.pool (poolAddr vals 1 0 1) (atomsNew o.aop o.ty (vals.getD 2 []) (Mem.getN te.pool (poolAddr vals 1 0 1) o.ty.bytes)) (e.atomsAct o vals (e.accOf t)) := by
  generalize hpa : poolAddr vals 1 0 1 = pa at unmarked ⊢
  generalize hold : Mem.getN te.pool pa o.ty.bytes = old
  generalize hnew : atomsNew o.aop o.ty (vals.getD 2 []) old = new
  obtain ⟨tid, now⟩ := e.accOf_now t
  obtain ⟨F, gain, only⟩ := State.accGive_loads (b := e.poolSet t.team pa new) tid now noQ lead (wordsOf old) o.ord
    (c := .team) (Nat.le_refl 2) (p := (AtomsF.acc o vals).place) rfl
  have act : e.atomsAct o vals (e.accOf t) =
      (((e.poolSet t.team pa new).saw (e.accOf t).tid (e.poolSet t.team pa new).nextId o.ord.acquires).accGive
        (e.accOf t) o.d (wordsOf old)).accDone (e.accOf t) o.ord .team (AtomsF.acc o vals).place := by
    simp only [State.atomsAct, hpa, tid, unmarked, Bool.false_eq_true, if_false, State.atomsDo, hte, hold, hnew]
  rw [act]
  have pools := State.unthreaded_pool only.teams
  refine ⟨F, gain, ?_, ?_, fun k hk => ?_, State.sameButPools_trans (State.sameButPools_poolSet e _ _ _) (State.sameButPools_of_sameBeyond only.same)⟩
  · rw [only.thread, State.poolSet_thread]
  · rw [pools, State.poolSet_team, if_pos rfl, hte]
    rfl
  · rw [pools, State.poolSet_team, if_neg hk]

theorem State.poolDo_go {s : State} {t : Tid} {pa w : Nat} {scratchOnly write : Bool} (go : s.poolMeet t pa w scratchOnly write = .go)
    (f : State → State × Option Park) : s.poolDo t pa w scratchOnly write f = f s := by
  rw [State.poolDo, go]

/-- The operands of ATOMS. -/
def atomsOps (o : AtomsF) : List Opd := [Opd.dvs o.d o.ty.regs, Opd.vs o.a, Opd.vsk o.b (if o.aop = .cas then 2 * o.ty.regs else o.ty.regs)]

/-- What ATOMS does in its lane. -/
def atomsLane (o : AtomsF) (t : Tid) (vals : List (List Word)) (s : State) : State × Option Park :=
  if (s.descOfTid t).det then s.poolDo t (AtomsF.acc o vals).place.addr o.ty.bytes true true fun s => (s.joinWave t (AtomsF.acc o vals), none)
  else s.poolTry t (AtomsF.acc o vals) true true fun a s => s.atomsAct o vals a

theorem exec_atoms (h : Hdr) (o : AtomsF) (s : State) : exec (.atoms h o) s = .next (s.byLane h { ops := atomsOps o } (atomsLane o) (joint := true)) := rfl

section
variable {h : Hdr} {o : AtomsF} {s : State} {c : Cur} {t : Tid} (ha : s.alone c h { ops := atomsOps o } t = true)
  (go : (s.entered c h (atomsOps o)).poolMeet t (poolAddr (s.opdVals t (atomsOps o)) 1 0 1) o.ty.bytes true true = .go)
include ha go

/-- In deterministic mode an ATOMS that meets nothing waits for its wave (R346). -/
theorem atoms_joins (det : ((s.entered c h (atomsOps o)).descOfTid t).det = true) :
    exec (.atoms h o) s = .next (((s.entered c h (atomsOps o)).joinWave t (AtomsF.acc o (s.opdVals t (atomsOps o)))).wordEnd h c) := by
  have lane : atomsLane o t (s.opdVals t (atomsOps o)) (s.entered c h (atomsOps o)) =
      ((s.entered c h (atomsOps o)).joinWave t (AtomsF.acc o (s.opdVals t (atomsOps o))), none) := by
    rw [atomsLane, if_pos det]
    exact State.poolDo_go go _
  rw [exec_atoms, State.byLane_lane ha, lane]
  rfl

/-- Outside deterministic mode an ATOMS that meets nothing and need not wait is performed at once. -/
theorem atoms_acts (det : ((s.entered c h (atomsOps o)).descOfTid t).det = false)
    (waits : (s.entered c h (atomsOps o)).laneWaits (ordOf o.ord .team true) t
      (some { pool := true, addr := poolAddr (s.opdVals t (atomsOps o)) 1 0 1, len := o.ty.bytes }) = false) :
    exec (.atoms h o) s = .next (((s.entered c h (atomsOps o)).atomsAct o (s.opdVals t (atomsOps o)) ((s.entered c h (atomsOps o)).accOf t)).wordEnd h c) := by
  have lane : atomsLane o t (s.opdVals t (atomsOps o)) (s.entered c h (atomsOps o)) =
      ((s.entered c h (atomsOps o)).atomsAct o (s.opdVals t (atomsOps o)) ((s.entered c h (atomsOps o)).accOf t), none) := by
    rw [atomsLane, if_neg (Bool.eq_false_iff.1 det)]
    exact State.poolTry_go go waits
  rw [exec_atoms, State.byLane_lane ha, lane]
  rfl

end

end Sys2Proof.Machine

namespace Sys2Proof

open Machine

/-- Settles O34: an ATOMS of one lane that meets nothing reads the old bytes and writes the new ones in one access, or joins its wave. -/
theorem scratchAtomics : Obligations.ScratchAtomics := by
  intro h o s c t tm n ops e v pa old ha htm go
  refine ⟨fun det waits unmarked => ⟨_, atoms_acts ha go det waits, ?_⟩, atoms_joins ha go⟩
  have lane := ha
  simp only [State.alone, Bool.and_eq_true, decide_eq_true_eq] at lane
  obtain ⟨⟨-, hp⟩, hact⟩ := lane
  have noQ : ∀ i, o.d ≠ .q i := (State.plain_at hp (List.mem_singleton_self t) _ (List.mem_cons_self ..)).1
  have pools := State.unthreaded_pool (s.entered_unthreaded c h ops)
  obtain ⟨te, hte, -, pool, -⟩ := State.entered_team_unthreaded htm c h ops
  obtain ⟨F, gain, thread, own, others, rest⟩ := State.atomsAct_stores hte noQ (State.entered_leads hact ops) unmarked
  rw [State.entered_shares, pool] at gain
  rw [pool] at own
  exact ⟨longsGain_of_loads gain (thread.trans (congrArg _ (s.entered_issued c h ops t))), own, fun k hk => (others k hk).trans (pools k),
    State.sameButPools_trans (State.sameButPools_of_sameBeyond (s.entered_same c h ops)) rest⟩

end Sys2Proof

/-! ### A hash region across the end of the scratchpad

HCLAIM takes no region that extends beyond the scratchpad (R156), so no run reaches the state below. The statements about hash words have no premise
that bars it, though: in it a region begins below the register windows and ends in their first segment, which is evicted. The search for missing
segments goes from the first byte's segment to the last byte's, and finds none, since windows come first in the allotment. What the hash unit then
writes goes to the save slot, in global memory (R89). -/

namespace Sys2Proof.Machine

/-- A region of one bucket whose first slot has its key below the register windows and its value within them. -/
def edgeRegion : HashR := { word0 := 0x3FFFF8, cap := 0, base := 0, live := 1 }

/-- A resident team that holds this region with the key 0x4000 in its first slot, and 0x4000 in s4:s5 too. The first segment of its windows is evicted
to 0x20000. -/
def edgeTeam : Team :=
  { probeTeam State.reset with
    hash := some edgeRegion,
    pool := Mem.setNat [] 0x3FFFF8 8 0x4000,
    groups := (probeTeam State.reset).groups.map fun g => { g with sregs := Mem.setNat [] 16 8 0x4000 },
    segs := (probeTeam State.reset).segs.map fun x => if x.index = 0 then { x with saved := some 0x20000 } else x }

/-- The one thread of the loaded machine. -/
def edgeTid : Tid := { team := 0, group := 0, lane := 0 }

/-- Its issue set at the word of an instruction. -/
def edgeCur (i : Instr) : Cur :=
  { core := 0, pipe := 0, team := 0, lanes := [edgeTid], pc := BitVec.ofNat 64 probePc, word := (encode i).getD 0 }

/-- The loaded machine with this team, executing an instruction; the value of the slot, 5, stands in the save slot. -/
def edgeState (i : Instr) : State :=
  { State.reset.loaded (edgeCur i).word with
    mem := Mem.setNat (probeMem (edgeCur i).word) (probeBase + 0x20000) 8 5, teams := [edgeTeam], cur := some (edgeCur i) }

/-- A header without marker, GAP and guard. -/
def plainHdr : Hdr := { marker := false, gap := 0, gw := false, pg := 0 }

/-- Global memory after an instruction. -/
def memAfter (i : Instr) (s : State) : Option Mem :=
  match exec i s with
  | .next u => some u.mem
  | _ => none

theorem memAfter_of_next {i : Instr} {s u : State} {c : Cur} (run : exec i s = .next (u.wordEnd plainHdr c)) : memAfter i s = some u.mem := by
  rw [memAfter, run]
  rfl

/-! #### HDEL -/

/-- The key is in s4:s5, and the result goes to v512 to v515, whose segment is there. -/
def edgeKey : R2 := { d := .v 512, a := .s 4 }

def edgeHdel : Instr := .hdel plainHdr edgeKey

/-- HDEL zeroes the value in the save slot. -/
theorem edgeHdel_writes_mem : memAfter edgeHdel (edgeState edgeHdel) ≠ some (edgeState edgeHdel).mem := by decide +kernel

/-- HDEL of a key found does more than make its slot a tombstone and count it. -/
theorem not_hashLane_hdel : ¬HashLane edgeHdel plainHdr edgeKey.d [Opd.vsk edgeKey.a 2] fun hr r _ _ =>
    match r.hit with
    | some (p, old) => some ((old, 5, p), some (p, keyTomb, 0), { hr with live := hr.live - 1, tomb := hr.tomb + 1 })
    | none => some ((0, 3, 0xFFFFFFFF), none, hr) := by
  intro lane
  obtain ⟨u, -, run, -, -, -, mem, -⟩ := lane (edgeState edgeHdel) (edgeCur edgeHdel) edgeTid edgeTeam edgeRegion
    (5, 5, 0) (some (0, keyTomb, 0)) { edgeRegion with live := 0, tomb := 1 } (by decide +kernel) (by decide +kernel) (by decide +kernel) rfl
    (by decide +kernel) rfl rfl rfl (by decide +kernel) (by decide +kernel) (by decide +kernel) (by decide +kernel)
  exact edgeHdel_writes_mem ((memAfter_of_next run).trans (congrArg some mem))

/-! #### HDRAIN -/

/-- The destination is in s4:s5. -/
def edgeDest : HdrainF := { a := .s 4, tag := 7 }

def edgeHdrain : Instr := .hdrain plainHdr edgeDest

/-- HDRAIN makes the slots in the save slot Empty. -/
theorem edgeHdrain_writes_mem : memAfter edgeHdrain (edgeState edgeHdrain) ≠ some (edgeState edgeHdrain).mem := by decide +kernel

end Sys2Proof.Machine

namespace Sys2Proof

open Machine

/-- Refutes O37: HDEL of a key that is found leaves memory as it was only where the slot lies in segments that are there, which the statement does not
say; in `edgeState` the value's part of the slot stands in its save slot in memory, and HDEL zeroes it there. -/
theorem not_hashWords : ¬ Obligations.HashWords := by
  intro words
  obtain ⟨-, -, hdel, -⟩ := words plainHdr { d := .v 0, a := .v 0, b := .v 0 } edgeKey { d := .v 0, a := .v 0, b := .v 0, ty := .u64 }
  exact not_hashLane_hdel hdel

/-- Refutes O38: HDRAIN leaves memory as it was only where the region lies in the scratchpad, which the statement does not say; in `edgeState` the
greater part of the region stands in its save slot in memory, and HDRAIN empties it there. -/
theorem not_hashTeamWords : ¬ Obligations.HashTeamWords := by
  intro words
  obtain ⟨-, -, -, hdrain⟩ := words plainHdr (.s 0) edgeDest { d := .s 0, sel := 0 } (edgeState edgeHdrain) (edgeCur edgeHdrain) edgeTid edgeTeam
    edgeRegion (by decide +kernel) rfl (by decide +kernel) rfl
  obtain ⟨u, -, run, -, mem, -⟩ := hdrain (by decide +kernel) (by decide +kernel) rfl rfl (by decide +kernel) (by decide +kernel) (by decide +kernel)
    (by decide +kernel) (by decide +kernel) (by decide +kernel) (by decide +kernel)
  exact edgeHdrain_writes_mem ((memAfter_of_next run).trans (congrArg some mem))

end Sys2Proof

/-! ### Lines of the scratchpad -/

namespace Sys2Proof.Machine

/-! #### Presence bits -/

theorem Team.lineAbsent_setAbsent (t : Team) (l : Nat) (b : Bool) (m : Nat) :
    (t.setAbsent l b).lineAbsent m = if m = l then b else t.lineAbsent m := by
  by_cases hm : m = l <;> cases b <;> simp [Team.lineAbsent, Team.setAbsent, hm]

/-- Clearing lines one by one makes just them absent. -/
theorem Team.foldl_clears {f : Team → Nat → Team} (hf : ∀ t l m, (f t l).lineAbsent m = (t.lineAbsent m || decide (m = l))) (lines : List Nat)
    (t : Team) (m : Nat) : (lines.foldl f t).lineAbsent m = (t.lineAbsent m || decide (m ∈ lines)) := by
  induction lines generalizing t with
  | nil => simp
  | cons l ls ih =>
    rw [List.foldl_cons, ih, hf]
    simp [Bool.or_assoc]

/-- What each step of a fold keeps, the fold keeps. -/
theorem foldl_keeps {α β γ : Type} {f : α → β → α} {p : α → γ} (hf : ∀ a b, p (f a b) = p a) (l : List β) (a : α) : p (l.foldl f a) = p a := by
  induction l generalizing a with
  | nil => rfl
  | cons b bs ih => rw [List.foldl_cons, ih, hf]

theorem Team.setAbsent_or (t : Team) (l m : Nat) : (t.setAbsent l true).lineAbsent m = (t.lineAbsent m || decide (m = l)) := by
  rw [Team.lineAbsent_setAbsent]
  split <;> simp_all

/-! #### PRES -/

/-- Lines of the scratchpad that lie clear of queue storage (R151). -/
structure KDesc.freeLines (d : KDesc) (pa n : Nat) : Prop where
  aligned : pa % 128 = 0
  fits : pa + 128 * n ≤ d.scratch
  clear : inQueueStorage d pa (128 * n) = false

/-- The n lines from an address up. -/
def linesFrom (pa n : Nat) : List Nat := (List.range n).map fun i => pa / 128 + i

theorem linesOf_aligned {pa n : Nat} (aligned : pa % 128 = 0) (hn : 0 < n) : linesOf pa (128 * n) = linesFrom pa n := by
  have last : (pa + 128 * n - 1) / 128 - pa / 128 + 1 = n := by omega
  rw [linesOf, if_neg (by omega), last, linesFrom]

theorem mem_linesFrom (pa n l : Nat) : l ∈ linesFrom pa n ↔ pa / 128 ≤ l ∧ l < pa / 128 + n := by
  refine ⟨fun h => ?_, fun h => List.mem_map.2 ⟨l - pa / 128, List.mem_range.2 (by omega), by omega⟩⟩
  obtain ⟨i, hi, rfl⟩ := List.mem_map.1 h
  have := List.mem_range.1 hi
  omega

theorem Team.presence_linesFrom (t : Team) (pa n : Nat) :
    t.presence (linesFrom pa n) = ((List.range n).map fun i => if t.lineAbsent (pa / 128 + i) then 0 else 2 ^ i).sum := by
  rw [Team.presence]
  congr 1
  refine List.ext_getElem (by simp [linesFrom]) fun i h1 h2 => ?_
  simp [linesFrom]

/-- PRES acts on such lines. -/
theorem State.presDo_freeLines {s : State} {t : Tid} {tm : Team} (htm : s.team? t.team = some tm) {pa n : Nat} (hn : 0 < n)
    (free : (s.descOf tm).freeLines pa n) (f : State → List Nat → State × Option Park) : s.presDo t pa n f = f s (linesFrom pa n) := by
  simp only [State.presDo, State.descOfTid, htm, free.aligned, ne_eq, not_true_eq_false, if_false, if_neg (Nat.not_lt.2 free.fits), free.clear,
    Bool.false_eq_true, linesOf_aligned free.aligned hn]

/-- Waking threads changes no team but in its threads. -/
theorem State.wakeTeam_unthreaded (s : State) (k : Nat) (p : Park → Bool) : (s.wakeTeam k p).teams.map Team.unthreaded = s.teams.map Team.unthreaded := by
  unfold State.wakeTeam
  split
  · rfl
  · simp only [State.updTeam, updWhere, List.map_map]
    refine List.map_congr_left fun x _ => ?_
    simp only [Function.comp]
    split
    · simp only [Team.unthreaded, List.map_map]
      rfl
    · rfl

/-- PRES.set of one line: it is present, and its readers wake. -/
def State.presentLine (k : Nat) (s : State) (l : Nat) : State :=
  (s.updTeam k fun tm => { tm.setAbsent l false with unfilled := tm.unfilled.filter fun x => decide (x ≠ l) }).wakeTeam k fun w => decide (w = .line l)

theorem State.presentLine_team {s : State} {k : Nat} {x : Team} (hx : s.team? k = some x) (l : Nat) :
    ∃ y, (State.presentLine k s l).team? k = some y ∧ ∀ m, y.lineAbsent m = (x.lineAbsent m && !decide (m = l)) := by
  have set_ := State.team?_updTeam_same s k (fun tm => { tm.setAbsent l false with unfilled := tm.unfilled.filter fun x => decide (x ≠ l) }) fun _ => rfl
  rw [hx, Option.map_some] at set_
  obtain ⟨y, hy, e⟩ := Option.map_eq_some_iff.1
    ((State.unthreaded_team (State.wakeTeam_unthreaded _ k fun w => decide (w = .line l)) k).trans (congrArg _ set_))
  refine ⟨y, hy, fun m => (Team.lineAbsent_congr e m).trans ((x.lineAbsent_setAbsent l false m).trans ?_)⟩
  split <;> simp_all

theorem State.presentLines_team (k : Nat) (lines : List Nat) {s : State} {x : Team} (hx : s.team? k = some x) :
    ∃ y, (lines.foldl (State.presentLine k) s).team? k = some y ∧ ∀ m, y.lineAbsent m = (x.lineAbsent m && !decide (m ∈ lines)) := by
  induction lines generalizing s x with
  | nil => exact ⟨x, hx, fun m => by simp⟩
  | cons l ls ih =>
    obtain ⟨y, hy, one⟩ := State.presentLine_team hx l
    obtain ⟨z, hz, rest⟩ := ih hy
    exact ⟨z, hz, fun m => by rw [rest, one]; simp [Bool.and_assoc]⟩

/-- PRES.clear of one line of a team. -/
def Team.clearLine (t : Team) (l : Nat) : Team := { t.setAbsent l true with unfilled := l :: t.unfilled.filter fun x => decide (x ≠ l) }

/-- The pool address in an operand. -/
def State.opdAddr (s : State) (t : Tid) (ops : List Opd) (i : Nat) : Nat := (val1 (s.opdVals t ops) i).toNat

section
variable {s : State} {c : Cur} {h : Hdr} {t : Tid} {tm : Team} (htm : s.team? t.team = some tm)
include htm

/-- What PRES does in its one lane, on lines of the scratchpad that lie clear of queue storage. -/
theorem State.pres_lane {ops : List Opd} (ha : s.alone c h { ops := ops } t = true) {i n : Nat} (hn : 0 < n)
    (free : (s.descOf tm).freeLines (s.opdAddr t ops i) n) (f : Tid → State → List Nat → State × Option Park) :
    (s.byLane h { ops := ops } fun t vals s => s.presDo t (val1 vals i).toNat n (f t)) =
      (State.parkIf t (f t (s.entered c h ops) (linesFrom (s.opdAddr t ops i) n))).wordEnd h c := by
  obtain ⟨te, hte, -, -, desc⟩ := State.entered_team_unthreaded htm c h ops
  rw [State.byLane_lane ha, State.presDo_freeLines hte hn (by rw [desc]; exact free)]
  rfl

/-- The operands of PRES.query. -/
def queryOps (q : PresQ) : List Opd := [Opd.dvs q.d, Opd.vs q.a]

theorem presQuery_reads {q : PresQ} (ha : s.alone c h { ops := queryOps q } t = true)
    (free : (s.descOf tm).freeLines (s.opdAddr t (queryOps q) 1) (q.nM1.toNat + 1)) :
    ∃ u : State, exec (.presQuery h q) s = .next (u.wordEnd h c) ∧ s.sameBeyond u ∧
      u.regVal t q.d 0 = BitVec.ofNat 32 (tm.presence (linesFrom (s.opdAddr t (queryOps q) 1) (q.nM1.toNat + 1))) := by
  have run := State.pres_lane htm ha (Nat.succ_pos _) free fun t s lines =>
    s.result t false q.d [BitVec.ofNat 32 (match s.team? t.team with | some tm => tm.presence lines | none => 0)]
  have lane := ha
  simp only [State.alone, Bool.and_eq_true, decide_eq_true_eq] at lane
  obtain ⟨⟨hc, hp⟩, hact⟩ := lane
  have noQ : ∀ i, q.d ≠ .q i := (State.plain_at hp (List.mem_singleton_self t) _ (List.mem_cons_self ..)).1
  have dest := State.clear_dest hc (hact ▸ List.mem_singleton_self t) (List.mem_cons_self ..) (.inl rfl) noQ (Nat.le_refl 1)
  obtain ⟨te, hte, e, -, -⟩ := State.entered_team_unthreaded htm c h (queryOps q)
  have presence : te.presence = tm.presence := funext fun lines => by simp only [Team.presence, Team.lineAbsent_congr e]
  have lead : (s.curIn c h).lead t = true := by
    have leads := State.entered_leads hact (queryOps q)
    rwa [State.leads, s.entered_cur] at leads
  simp only [State.result_plain (s.entered_cur c h _) t false q.d _ noQ, hte, presence, lead, Bool.false_eq_true, if_false] at run
  exact ⟨_, congrArg Host.Outcome.next run, State.sameBeyond_trans (s.entered_same c h _) (State.writeRegs_same _ t _),
    (State.writeDest _ t q.d 0 _ dest).1 0 Nat.one_pos⟩

variable {p : PresF} (ha : s.alone c h { ops := [Opd.vs p.a] } t = true)
  (free : (s.descOf tm).freeLines (s.opdAddr t [Opd.vs p.a] 0) (p.nM1.toNat + 1))
include ha free

theorem presSet_sets :
    ∃ (u : State) (y : Team), exec (.presSet h p) s = .next (u.wordEnd h c) ∧ u.team? t.team = some y ∧
      ∀ l, y.lineAbsent l = (tm.lineAbsent l && !decide (l ∈ linesFrom (s.opdAddr t [Opd.vs p.a] 0) (p.nM1.toNat + 1))) := by
  have run := State.pres_lane htm ha (Nat.succ_pos _) free fun t s lines => (lines.foldl (State.presentLine t.team) s, none)
  obtain ⟨te, hte, e, -, -⟩ := State.entered_team_unthreaded htm c h [Opd.vs p.a]
  obtain ⟨y, hy, present⟩ := State.presentLines_team t.team (linesFrom (s.opdAddr t [Opd.vs p.a] 0) (p.nM1.toNat + 1)) hte
  exact ⟨_, y, congrArg Host.Outcome.next run, hy, fun l => by rw [present, Team.lineAbsent_congr e]⟩

theorem presClear_clears :
    ∃ (u : State) (y : Team), exec (.presClear h p) s = .next (u.wordEnd h c) ∧ u.team? t.team = some y ∧ y.fills = tm.fills ∧
      ∀ l, y.lineAbsent l = (tm.lineAbsent l || decide (l ∈ linesFrom (s.opdAddr t [Opd.vs p.a] 0) (p.nM1.toNat + 1))) := by
  have run := State.pres_lane htm ha (Nat.succ_pos _) free fun t s lines => (s.updTeam t.team fun tm => lines.foldl Team.clearLine tm, none)
  generalize linesFrom (s.opdAddr t [Opd.vs p.a] 0) (p.nM1.toNat + 1) = lines at run
  obtain ⟨te, hte, e, -, -⟩ := State.entered_team_unthreaded htm c h [Opd.vs p.a]
  have fills : te.fills = tm.fills := (congrArg Team.fills e : te.unthreaded.fills = tm.unthreaded.fills)
  refine ⟨_, lines.foldl Team.clearLine te, congrArg Host.Outcome.next run, ?_, (foldl_keeps (f := Team.clearLine) (fun _ _ => rfl) lines te).trans fills, fun l => ?_⟩
  · refine (State.team?_updTeam_same _ _ _ fun x => foldl_keeps (f := Team.clearLine) (fun _ _ => rfl) lines x).trans ?_
    rw [hte, Option.map_some]
  · rw [Team.foldl_clears (f := Team.clearLine) (fun t l m => t.setAbsent_or l m), Team.lineAbsent_congr e]

end

/-! #### PQRY -/

/-- A state with teams as they are without pools, registers and threads. -/
def State.bared (s : State) : State := { s with teams := s.teams.map Team.bare }

theorem State.bared_team (s : State) (k : Nat) : s.bared.team? k = (s.team? k).map Team.bare := List.find?_map ..

theorem Team.bare_group (x : Team) (n : Nat) : x.bare.group? n = (x.group? n).map Group.bare := List.find?_map ..

theorem State.bared_group (s : State) (t : Tid) : s.bared.group? t = (s.group? t).map Group.bare := by
  rw [State.group?, State.bared_team, State.group?]
  cases s.team? t.team with
  | none => rfl
  | some x => exact x.bare_group t.group

theorem KDesc.winBase_bare (d : KDesc) (x : Team) (n : Nat) : d.winBase x.bare n = d.winBase x n := by
  simp only [KDesc.winBase, Team.bare, List.filter_map, List.map_map]
  rfl

theorem KDesc.winTotal_bare (d : KDesc) (x : Team) : d.winTotal x.bare = d.winTotal x := by
  simp only [KDesc.winTotal, Team.bare, List.map_map]
  rfl

theorem State.bared_partWord (s : State) (core : Nat) : s.bared.partWord core = s.partWord core := by
  simp only [State.partWord, State.bared, List.filter_map, List.map_map]
  rfl

theorem State.bared_freeFrames (s : State) (core ctx : Nat) : s.bared.freeFrames core ctx = s.freeFrames core ctx := by
  have frames : s.bared.framesIn = s.framesIn := funext fun r => (s.framesIn_bare r).symm
  have slots : s.bared.freeSlots = s.freeSlots := funext fun r => by rw [State.freeSlots, frames]; rfl
  rw [State.freeFrames, slots]
  rfl

/-- PQRY looks at no pool, register or thread. -/
theorem State.bared_pqry (s : State) (t : Tid) (sel : Nat) : s.bared.pqry t sel = s.pqry t sel := by
  have desc : ∀ x : Team, s.bared.descOf x.bare = s.descOf x := fun _ => rfl
  simp only [State.pqry, State.bared_team, State.bared_group]
  cases s.team? t.team with
  | none => rfl
  | some x =>
    cases s.group? t with
    | none => rfl
    | some g =>
      simp only [Option.map_some, desc, Team.bare_group, Option.isSome_map, KDesc.winBase_bare, KDesc.winTotal_bare, State.bared_partWord,
        State.bared_freeFrames]
      rfl

theorem State.sameBeyond_pqry {s u : State} (h : s.sameBeyond u) (t : Tid) (sel : Nat) : u.pqry t sel = s.pqry t sel := by
  have teams := (State.sameBare_of_sameBeyond h).1
  rw [← s.bared_pqry, ← u.bared_pqry, State.bared, State.bared, teams]
  have rest := congrArg (fun v : State => State.pqry { v with teams := s.teams.map Team.bare } t sel) h.2
  exact rest

theorem State.result_short {s : State} {t : Tid} {r : Reg} (noQ : ∀ i, r ≠ .q i) (vals : List Word) :
    s.result t false r vals = (s.writeRegs t (destRegs (s.leads t) r 0 vals), none) := by
  cases r with
  | q i => exact absurd rfl (noQ i)
  | _ => rfl

/-- A word that reads no register and gives short results of what no lane's result changes gives each lane the result of the state that it entered. -/
theorem State.eachLane_const {e : State} {d : Reg} (noQ : ∀ i, d ≠ .q i) {w : State → Tid → Word} (kept : ∀ s t, e.sameBeyond s → w s t = w e t)
    (ts : List Tid) {s : State} (hs : e.sameBeyond s) :
    s.eachLane [Opd.dvs d] (fun t _ s => s.result t false d [w s t]) ts = s.eachLane [Opd.dvs d] (fun t _ s => s.result t false d [w e t]) ts := by
  induction ts generalizing s with
  | nil => rfl
  | cons t ts ih =>
    have reads : ∀ have_, s.readOps t [Opd.dvs d] have_ [] = ((some [[]], [], 0), s) := fun _ => rfl
    have answer := State.result_short (s := s) (t := t) noQ [w e t]
    rw [State.eachLane, State.eachLane]
    split
    · exact ih hs
    · simp only [reads, kept s t hs, answer]
      exact ih (State.sameBeyond_trans hs (s.writeRegs_same t _))

theorem pqryWord (h : Hdr) (d : SelD) :
    ShortWord (.pqry h d) h (Opd.dvs d.d) [Opd.dvs d.d] fun s t _ => [BitVec.ofNat 32 (s.pqry t d.sel.toNat)] := by
  intro s c hc hp
  have mem : Opd.dvs d.d ∈ [Opd.dvs d.d] := List.mem_singleton_self _
  have noQ : ∀ i, d.d ≠ .q i := fun i hi => by simpa [Opd.dvs, hi] using List.all_eq_true.1 hp _ mem
  have entered := s.entered_same c h [Opd.dvs d.d]
  obtain ⟨u, lanes, same, longs, others, result, rest⟩ := State.shortLanes (f := fun _ t _ => [BitVec.ofNat 32 (s.pqry t d.sel.toNat)]) hc rfl hp mem
    (.inl rfl) (fun _ _ _ => Nat.le_refl 1) fun _ _ _ _ => rfl
  refine ⟨u, ?_, same, fun v => ?_, others, result, rest⟩
  · have const := State.eachLane_const noQ (w := fun z t => BitVec.ofNat 32 (z.pqry t d.sel.toNat))
      (fun z t hz => congrArg _ (State.sameBeyond_pqry hz t _)) (s.actives c h) (s.entered c h [Opd.dvs d.d]).sameBeyond_refl
    simp only [State.sameBeyond_pqry entered] at const
    show Host.Outcome.next (s.byLane h _ _) = _
    rw [State.byLane_clear hc _ (Opd.popsToken_plain hp) (Opd.pushes_plain hp), const]
    exact congrArg (fun v : State => Host.Outcome.next (v.wordEnd h c)) lanes
  · obtain ⟨ls, e⟩ := longs v
    exact ⟨ls, by rw [e, State.entered_issued]⟩

/-! #### The statements -/

theorem presenceOps : PresenceOps := by
  intro h q p d s c t tm
  refine ⟨?_, ?_, pqryWord h d⟩
  · intro ops pa n ha htm aligned fits clear
    rw [← Team.presence_linesFrom]
    exact presQuery_reads htm ha ⟨aligned, fits, clear⟩
  · intro ops pa n ha htm aligned fits clear
    have free : (s.descOf tm).freeLines pa n := ⟨aligned, fits, clear⟩
    simp only [← mem_linesFrom]
    exact ⟨presSet_sets htm ha free, presClear_clears htm ha free⟩

theorem KDesc.winBytes_sum (d : KDesc) (gs : List Group) : (gs.map d.winBytes).sum = 256 * (gs.map d.budget).sum := by
  rw [← List.sum_map_mul_left]
  exact congrArg List.sum (List.map_congr_left fun g _ => Nat.mul_comm ..)

theorem Team.group?_isSome (x : Team) (n : Nat) : (x.group? n).isSome = x.groups.any fun g => decide (g.num = n) := List.isSome_find? ..

theorem poolSelectors : PoolSelectors := by
  intro s t tm g htm hg d below budget
  have base : ∀ n, d.winBase tm n = below n := fun n => by rw [KDesc.winBase, KDesc.winBytes_sum]; rfl
  have bytes : d.winBytes g = 256 * d.budget g := Nat.mul_comm ..
  have total : d.winTotal tm = 256 * (tm.groups.map fun x => d.budget x).sum := d.winBytes_sum tm.groups
  refine ⟨?_, fun n hn => ?_⟩
  · simp only [List.all_cons, List.all_nil, State.pqry, htm, hg, ← base, ← bytes, ← total]
    simp [d, budget]
  · have high : 16 ≤ 16 + n := by omega
    have sel : 16 + n - 16 = n := by omega
    simp only [State.pqry, htm, hg, if_pos high, sel, Team.group?_isSome, ← base]
    rfl

end Sys2Proof.Machine

namespace Sys2Proof

open Machine

/-- Settles O35: PRES acts in its one lane on whole lines, PQRY is a word of short results, and what it selects is read off the team, its groups and its
descriptor. -/
theorem presenceWords : Obligations.PresenceWords := ⟨presenceOps, poolSelectors⟩

end Sys2Proof

/-! ### Rotation requests -/

namespace Sys2Proof.Machine

/-! #### Words that act once -/

theorem State.once_iff (s : State) (c : Cur) (h : Hdr) (k : Checks) (t : Tid) :
    s.once c h k t = true ↔ s.clear c h k = true ∧ s.plain [t] k.ops = true ∧ ∃ rest, s.actives c h = t :: rest := by
  simp only [State.once, Bool.and_eq_true, decide_eq_true_eq, List.head?_eq_some_iff, and_assoc]

/-- A plain operand that is read gives the words of its registers as they were before the word. -/
theorem State.entered_reads {s : State} {c : Cur} {h : Hdr} {ops : List Opd} {t : Tid} (hcur : s.cur = some c) (hp : s.plain [t] ops = true)
    {o : Opd} (ho : o ∈ ops) (source : ¬(o.use = .wr ∨ o.use = .name)) :
    ((s.entered c h ops).readRegs t o.reg 0 o.n).1 = (List.range o.n).map fun k => s.regVal t o.reg k := by
  have plain := State.plainAt_quieter (State.plain_at hp (List.mem_singleton_self t)) (State.entered_quieter hcur h ops t)
  rw [State.readRegs_quiet _ _ _ _ _ fun k _ hk f i e => (plain o ho).2 source k (by omega) f i e]
  simp only [Nat.zero_add, State.entered_regVal hcur]

/-- The word of a plain operand of one register. -/
theorem State.entered_reads_one {s : State} {c : Cur} {h : Hdr} {ops : List Opd} {t : Tid} (hcur : s.cur = some c) (hp : s.plain [t] ops = true)
    {r : Reg} (ho : Opd.sk r ∈ ops) : ((s.entered c h ops).readRegs t r 0 1).1 = [s.regVal t r 0] :=
  State.entered_reads (o := Opd.sk r) hcur hp ho (by simp [Opd.sk])

/-! #### Commands that clear lines -/

/-- A command clears one more line: it is absent, with one arrival more to come. -/
def Team.awaitLine (t : Team) (l : Nat) : Team :=
  { ((t.setAbsent l true).setFill l (t.fill l + 1)) with unfilled := t.unfilled.filter fun x => decide (x ≠ l) }

theorem Team.clearLines_absent (t : Team) (lines : List Nat) (m : Nat) : (t.clearLines lines).lineAbsent m = (t.lineAbsent m || decide (m ∈ lines)) :=
  Team.foldl_clears (f := Team.awaitLine) (fun t l m => t.setAbsent_or l m) lines t m

theorem Team.clearLines_key (t : Team) (lines : List Nat) : (t.clearLines lines).key = t.key :=
  foldl_keeps (f := Team.awaitLine) (p := Team.key) (fun _ _ => rfl) lines t

theorem Team.clearLines_rrots (t : Team) (lines : List Nat) : (t.clearLines lines).rrots = t.rrots :=
  foldl_keeps (f := Team.awaitLine) (p := Team.rrots) (fun _ _ => rfl) lines t

theorem Team.canClear_congr {x y : Team} (h : x.unthreaded = y.unthreaded) (lines : List Nat) : x.canClear lines = y.canClear lines := by
  have fills : x.fills = y.fills := (congrArg Team.fills h : x.unthreaded.fills = y.unthreaded.fills)
  unfold Team.canClear Team.fill
  rw [fills]

/-- A command without ranges that may clear its lines clears them as it enters. -/
theorem State.submit_clears {s : State} {c : Cmd} {x : Team} (hx : s.team? c.team = some x) {lines : List Nat} (can : x.canClear lines = true) :
    ∃ cmd, (s.submit c false [] lines).2 =
      ({ s with nextId := s.nextId + 1, cmds := s.cmds ++ [cmd] } : State).updTeam c.team fun t => t.clearLines lines := by
  have hx' : s.fresh.2.team? c.team = some x := hx
  simp only [State.submit, Bool.false_eq_true, if_false, hx', can, if_true, List.filter_nil, List.map_nil, List.append_nil]
  exact ⟨_, rfl⟩

/-! #### RROT -/

/-- A team has one counted request more. -/
def Team.countRrot (t : Team) : Team := { t with rrots := t.rrots + 1 }

/-- RROT's request, with the command that carries it. -/
def State.requestRrot (s : State) (cmd : Cmd) (tm : Team) (off n : Nat) (back : Bool) : State :=
  { ((s.submit cmd false [] (linesOf off n)).2.updTeam tm.key Team.countRrot) with
    rrots := (s.submit cmd false [] (linesOf off n)).2.rrots ++
      [{ cmd := (s.submit cmd false [] (linesOf off n)).1, team := tm.key, k := tm.rrots, off := off, size := n, back := back }] }

theorem State.requestRrot_counts {s : State} {cmd : Cmd} {tm : Team} {off n : Nat} {back : Bool} (htm : s.team? tm.key = some tm) (own : cmd.team = tm.key)
    (can : tm.canClear (linesOf off n) = true) :
    ∃ (y : Team) (q : RrotReq), (s.requestRrot cmd tm off n back).team? tm.key = some y ∧ y.rrots = tm.rrots + 1 ∧
      (s.requestRrot cmd tm off n back).rrots = s.rrots ++ [q] ∧ q.team = tm.key ∧ q.k = tm.rrots ∧ q.off = off ∧ q.size = n ∧ q.back = back ∧
      (s.requestRrot cmd tm off n back).mem = s.mem ∧ ∀ l ∈ linesOf off n, y.lineAbsent l = true := by
  obtain ⟨held, entered⟩ := State.submit_clears (c := cmd) (own ▸ htm) can
  have cleared : (s.submit cmd false [] (linesOf off n)).2.team? tm.key = some (tm.clearLines (linesOf off n)) := by
    rw [entered, own]
    exact (State.team?_updTeam_same _ _ _ fun t => t.clearLines_key _).trans (congrArg (Option.map _) htm)
  refine ⟨(tm.clearLines (linesOf off n)).countRrot, { cmd := s.nextId, team := tm.key, k := tm.rrots, off := off, size := n, back := back },
    ?_, congrArg (· + 1) (tm.clearLines_rrots _), ?_, rfl, rfl, rfl, rfl, rfl, ?_, fun l hl => ?_⟩
  · exact (State.team?_updTeam_same _ _ Team.countRrot fun _ => rfl).trans (congrArg (Option.map _) cleared)
  · rw [State.requestRrot, entered]
    rfl
  · rw [State.requestRrot, entered]
    rfl
  · exact (tm.clearLines_absent _ l).trans (by simp [hl])

section
variable {h : Hdr} {o : RrotF} {s : State} {c : Cur} {t : Tid} {tm : Team}

/-- The operands of RROT. -/
def rrotOps (o : RrotF) : List Opd := [Opd.sk o.a, Opd.sk o.b]

/-- The command that a team's RROT enters. -/
def rrotCmd (o : RrotF) (c : Cur) (act : List Tid) (t : Tid) (tm : Team) (off n : Nat) : Cmd :=
  { id := 0, eng := .rrot (clusterOf tm.core), team := tm.key, ctx := tm.ctx, core := tm.core, group := t.group, code := 0xE1,
    words := [BitVec.ofNat 32 off, BitVec.ofNat 32 n, if o.back then 1 else 0], pc := c.pc, word := c.word, age := 0, seq := none,
    tag := o.tag.toNat, notok := false, recips := act }

/-- An RROT that meets no trap and need not wait enters one request, with the team's command. -/
theorem exec_rrot (ho : s.once c h { ops := rrotOps o } t = true) {te : Team} (hte : (s.entered c h (rrotOps o)).team? t.team = some te)
    (trap : rrotTrap ((s.entered c h (rrotOps o)).descOf te) (s.regVal t o.a 0).toNat (s.regVal t o.b 0).toNat = none)
    (can : te.canClear (linesOf (s.regVal t o.a 0).toNat (s.regVal t o.b 0).toNat) = true)
    (noWait : (s.entered c h (rrotOps o)).accessWaits MemOrder.command (s.actives c h) = false) :
    ∃ cmd : Cmd, cmd.team = te.key ∧ exec (.rrot h o) s =
      .next (((s.entered c h (rrotOps o)).requestRrot cmd te (s.regVal t o.a 0).toNat (s.regVal t o.b 0).toNat o.back).wordEnd h c) := by
  obtain ⟨hc, hp, rest, act⟩ := (s.once_iff c h _ t).1 ho
  obtain ⟨hcur, -⟩ := (s.clear_iff c h _).1 hc
  have a := State.entered_reads_one (h := h) hcur hp (r := o.a) (List.mem_cons_self ..)
  have b := State.entered_reads_one (h := h) hcur hp (r := o.b) (List.mem_cons_of_mem _ (List.mem_cons_self ..))
  have run := fun effect => State.word_clear hc effect
  rw [act] at run noWait
  refine ⟨rrotCmd o (s.curIn c h) (t :: rest) t te (s.regVal t o.a 0).toNat (s.regVal t o.b 0).toNat, rfl, (congrArg Host.Outcome.next (run _)).trans ?_⟩
  simp only [s.entered_cur, hte, a, b, List.getD_cons_zero, trap, can, noWait, Bool.not_true, Bool.false_and, Bool.or_false, Bool.false_eq_true, if_false]
  rfl

theorem rrot_requests (ho : s.once c h { ops := rrotOps o } t = true) (htm : s.team? t.team = some tm)
    (trap : rrotTrap (s.descOf tm) (s.regVal t o.a 0).toNat (s.regVal t o.b 0).toNat = none)
    (can : tm.canClear (linesOf (s.regVal t o.a 0).toNat (s.regVal t o.b 0).toNat) = true)
    (noWait : (s.entered c h (rrotOps o)).accessWaits MemOrder.command (s.actives c h) = false) :
    ∃ (e : State) (te : Team) (cmd : Cmd), s.sameBeyond e ∧ e.team? te.key = some te ∧ te.key = t.team ∧ te.unthreaded = tm.unthreaded ∧ cmd.team = te.key ∧
      exec (.rrot h o) s = .next ((e.requestRrot cmd te (s.regVal t o.a 0).toNat (s.regVal t o.b 0).toNat o.back).wordEnd h c) := by
  obtain ⟨te, hte, same, -, desc⟩ := State.entered_team_unthreaded htm c h (rrotOps o)
  obtain ⟨cmd, own, run⟩ := exec_rrot ho hte (by rw [desc, trap]) (by rw [Team.canClear_congr same, can]) noWait
  have key : te.key = t.team := by simpa using List.find?_some hte
  exact ⟨_, te, cmd, s.entered_same c h _, key.symm ▸ hte, key, same, own, run⟩

end

end Sys2Proof.Machine

namespace Sys2Proof

open Machine

/-- Settles O36: RROT's one effect enters a command that clears its tile at issue, and counts its request. -/
theorem rotationRequests : Obligations.RotationRequests := by
  intro h o s c t tm ops off n ho htm trap can noWait
  obtain ⟨e, te, cmd, beyond, hte, key, same, own, run⟩ := rrot_requests ho htm trap can noWait
  obtain ⟨y, q, hy, counted, requests, team, k, at_, size, back, mem, absent⟩ :=
    State.requestRrot_counts (back := o.back) hte own ((Team.canClear_congr same _).trans can)
  have rrots : te.rrots = tm.rrots := (congrArg Team.rrots same : te.unthreaded.rrots = tm.unthreaded.rrots)
  have keys : te.key = tm.key := (congrArg Team.key same : te.unthreaded.key = tm.unthreaded.key)
  have before : e.rrots = s.rrots := (congrArg State.rrots beyond.2 :)
  exact ⟨_, y, q, run, key ▸ hy, rrots ▸ counted, before ▸ requests, keys ▸ team, rrots ▸ k, at_, size, back, mem.trans (State.sameBeyond_mem beyond), absent⟩

end Sys2Proof

/-! ### Matrix words -/

namespace Sys2Proof.Machine

/-! #### Entering a command -/

/-- The command that a class 6 word makes of what its issue says of it, in its array's queue (R166). -/
def Cmd.fromArrayWord (k : Cmd) (c : Cur) (tm : Team) (group : Nat) (set : List Tid) (m : MCmd) : Prop :=
  k.eng = .array c.core c.pipe ∧ k.stage = .queued ∧ k.team = tm.key ∧ k.group = group ∧ k.code = m.code ∧
    k.words = c.word.lo :: c.word.hi :: m.vals ∧ k.args = m.args ∧ k.tag = m.tag ∧ k.recips = set

theorem updWhere_id {α : Type} (p : α → Bool) (l : List α) : updWhere p (fun x => x) l = l := by
  simp [updWhere]

/-- Entering a command that clears no line takes one id and adds the command and its locks; nothing else changes. -/
theorem State.submit_ranges (s : State) (c : Cmd) (ranges : List Rng) :
    ∃ away locks, (s.submit c false ranges []).2 =
      { s with nextId := s.nextId + 1, locks := locks,
               cmds := s.cmds ++ [{ c with id := s.nextId, age := s.nextId, seq := none, lines := [], fillHeld := false, awaits := away }] } := by
  have kept : ∀ u : State, (u.updTeam c.team fun t => t.clearLines []) = u := fun u =>
    congrArg (fun ts => { u with teams := ts }) (updWhere_id (fun t : Team => decide (t.key = c.team)) u.teams)
  simp only [State.submit, Bool.false_eq_true, if_false]
  cases s.fresh.2.team? c.team with
  | none => exact ⟨_, _, kept _⟩
  | some x => exact ⟨_, _, kept _⟩

/-! #### Long results for a command's recipients -/

/-- One state comes after another without a change to memory or registers, and with every command still there but for the long results it will make
ready. -/
structure State.keepsCommands (x u : State) : Prop where
  mem : u.mem = x.mem
  regs : ∀ v r j, u.regVal v r j = x.regVal v r j
  cmds : ∀ k ∈ x.cmds, ∃ longs, { k with longs := longs } ∈ u.cmds

theorem State.keepsCommands_refl (x : State) : x.keepsCommands x := ⟨rfl, fun _ _ _ => rfl, fun k hk => ⟨k.longs, hk⟩⟩

theorem State.waitLong_regVal (s : State) (t : Tid) (regs : List LReg) (sh : Bool) (v : Tid) (r : Reg) (j : Nat) :
    (s.waitLong t regs sh).2.regVal v r j = s.regVal v r j := by
  unfold State.waitLong
  split
  · rfl
  · exact s.addLong_regVal t false regs sh v r j

theorem State.waitLong_mem_cmds (s : State) (t : Tid) (regs : List LReg) (sh : Bool) :
    (s.waitLong t regs sh).2.mem = s.mem ∧ (s.waitLong t regs sh).2.cmds = s.cmds := by
  unfold State.waitLong
  split <;> exact ⟨rfl, rfl⟩

theorem State.joinAll_keeps (d : Reg) (n : Nat) (ts : List Tid) (s : State) :
    (s.joinAll (some d) n false ts).2.mem = s.mem ∧ (s.joinAll (some d) n false ts).2.cmds = s.cmds ∧
      ∀ v r j, (s.joinAll (some d) n false ts).2.regVal v r j = s.regVal v r j := by
  induction ts generalizing s with
  | nil => exact ⟨rfl, rfl, fun _ _ _ => rfl⟩
  | cons t ts ih =>
    obtain ⟨mem, cmds⟩ := s.waitLong_mem_cmds t (s.waitingRegs t d n) d.isS
    obtain ⟨mem', cmds', regs'⟩ := ih (s.waitLong t (s.waitingRegs t d n) d.isS).2
    exact ⟨mem'.trans mem, cmds'.trans cmds, fun v r j => (regs' v r j).trans (s.waitLong_regVal t _ _ v r j)⟩

/-- What MCARRY does once its command is in: a long result of each lane waits for the command's turn (R196). -/
def mcarryWaits (o : McarryF) (id : Nat) (set : List Tid) (s : State) : State :=
  (s.joinAll (some o.d) 1 false set).2.updCmd id fun c => { c with longs := (s.joinAll (some o.d) 1 false set).1.map fun x => x.2 }

theorem mcarryWaits_keepsCommands (o : McarryF) (id : Nat) (set : List Tid) (s : State) : s.keepsCommands (mcarryWaits o id set s) := by
  obtain ⟨mem, cmds, regs⟩ := State.joinAll_keeps o.d 1 set s
  refine ⟨mem, regs, fun k hk => ?_⟩
  have there : (if decide (k.id = id) then { k with longs := (s.joinAll (some o.d) 1 false set).1.map fun x => x.2 } else k) ∈
      (mcarryWaits o id set s).cmds := List.mem_map_of_mem (cmds ▸ hk)
  split at there
  · exact ⟨_, there⟩
  · exact ⟨k.longs, there⟩

/-! #### A word that issues one command -/

/-- A class 6 word's one command enters its queue, whatever long results wait for it. -/
theorem State.enterArray_enters (s : State) (c : Cur) (tm : Team) (g : Nat) (set : List Tid) (m : MCmd) {after : Nat → List Tid → State → State}
    (ha : ∀ id set x, State.keepsCommands x (after id set x)) :
    ∃ k ∈ (after (s.enterArray c tm g set m).1 set (s.enterArray c tm g set m).2).cmds, k.fromArrayWord c tm g set m ∧
      (after (s.enterArray c tm g set m).1 set (s.enterArray c tm g set m).2).mem = s.mem ∧
      ∀ v r j, (after (s.enterArray c tm g set m).1 set (s.enterArray c tm g set m).2).regVal v r j = s.regVal v r j := by
  obtain ⟨away, locks, entered⟩ : ∃ away locks, (s.enterArray c tm g set m).2 = _ := State.submit_ranges s _ m.ranges
  obtain ⟨mem, regs, cmds⟩ := ha (s.enterArray c tm g set m).1 set (s.enterArray c tm g set m).2
  obtain ⟨longs, there⟩ := cmds _ (by rw [entered]; exact List.mem_append_right _ (List.mem_singleton_self _))
  refine ⟨_, there, ⟨rfl, rfl, rfl, rfl, rfl, rfl, rfl, rfl, rfl⟩, ?_, fun v r j => ?_⟩
  · rw [mem, entered]
  · rw [regs, entered]
    rfl

section
variable {s : State} {c : Cur} (hcur : s.cur = some c) {t : Tid} {rest : List Tid} {judge : State → Team → Tid → List Tid → MIssue}
  {after : Nat → List Tid → State → State}
include hcur

/-- R166: a full queue holds the word at issue. -/
theorem State.arrayOnce_full (full : s.queueFull (.array c.core c.pipe) = true) : s.arrayOnce (t :: rest) judge after = none := by
  simp only [State.arrayOnce, hcur, full, Bool.true_or, if_true]

variable (room : s.queueFull (.array c.core c.pipe) = false) (noWait : s.accessWaits MemOrder.command (t :: rest) = false) {tm : Team}
  (htm : s.team? t.team = some tm)
include room noWait htm

theorem State.arrayOnce_traps {code a : Nat} (trap : judge s tm t (t :: rest) = .trap code a) :
    s.arrayOnce (t :: rest) judge after = some (s.trapAll (t :: rest) code a) := by
  simp only [State.arrayOnce, hcur, room, noWait, Bool.false_and, Bool.or_self, Bool.false_eq_true, if_false, htm, trap]

theorem State.arrayOnce_enters {m : MCmd} (go : judge s tm t (t :: rest) = .go m)
    (locks : s.lockRoom c.core (m.ranges.filter fun x => decide (x.len ≠ 0)).length = true) :
    s.arrayOnce (t :: rest) judge after =
      some (after (s.enterArray c tm t.group (t :: rest) m).1 (t :: rest) (s.enterArray c tm t.group (t :: rest) m).2) := by
  simp only [State.arrayOnce, hcur, room, noWait, Bool.false_and, Bool.or_self, Bool.false_eq_true, if_false, htm, go, locks, Bool.not_true]

end

/-- A word whose effect is one class 6 command enters its array. -/
theorem entersArray_of {i : Instr} {h : Hdr} {k : State → Checks} {judge : State → Team → Tid → List Tid → MIssue}
    {after : Nat → List Tid → State → State} (hex : ∀ s, exec i s = .next (s.word h (k s) fun act s => s.arrayOnce act judge after))
    (ha : ∀ id set x, State.keepsCommands x (after id set x)) : EntersArray i h k judge := by
  intro s c t tm e hc hhead htm
  obtain ⟨rest, hact⟩ := List.head?_eq_some_iff.1 hhead
  have hcur : e.cur = some (s.curIn c h) := s.entered_cur c h _
  have run := (hex s).trans (congrArg Host.Outcome.next (State.word_clear hc _))
  change exec i s = .next (match e.arrayOnce (s.actives c h) judge after with | some u => u.wordEnd h c | none => s.holdWord (s.curIn c h)) at run
  rw [hact] at run ⊢
  refine ⟨fun full => ?_, fun room noWait => ⟨fun code a trap => ?_, fun m go locks => ?_⟩⟩
  · rw [run, State.arrayOnce_full hcur full]
  · rw [run, State.arrayOnce_traps hcur room noWait htm trap]
  · rw [State.arrayOnce_enters hcur room noWait htm go locks] at run
    obtain ⟨cmd, there, ⟨eng, stage, team, group, code, words, args, tag, recips⟩, mem, regs⟩ :=
      e.enterArray_enters (s.curIn c h) tm t.group (t :: rest) m ha
    refine ⟨_, cmd, run, there, eng, stage, team, group, code, words, args, tag, recips, mem.trans (State.sameBeyond_mem (s.entered_same c h _)),
      fun v r j => (regs v r j).trans ?_⟩
    exact State.entered_regVal ((s.clear_iff c h _).1 hc).1 h _ v r j

theorem matrixWordsEnter : MatrixWordsEnter := by
  intro h l z d a f n y
  have same : ∀ (id : Nat) (set : List Tid) (x : State), x.keepsCommands x := fun _ _ x => x.keepsCommands_refl
  exact ⟨entersArray_of (fun _ => rfl) same, entersArray_of (fun _ => rfl) same, entersArray_of (fun _ => rfl) same,
    entersArray_of (fun _ => rfl) same, entersArray_of (fun _ => rfl) same, entersArray_of (fun _ => rfl) same,
    entersArray_of (fun _ => rfl) same, entersArray_of (after := mcarryWaits y) (fun _ => rfl) (mcarryWaits_keepsCommands y)⟩

/-! #### MWAIT -/

/-- A command that an MWAIT of a thread looks at: one of its group's arrays, which names the block where the word names one (R181). -/
def Cmd.awaitedBy (k : Cmd) (d : Option Reg) (t : Tid) : Bool :=
  k.eng.isArray && decide (k.team = t.team ∧ k.group = t.group) && match d with | none => true | some r => decide (namedBlock k.word = some r)

theorem Cmd.awaitedBy_group {k : Cmd} {d : Option Reg} {t : Tid} (hk : k.awaitedBy d t = true) : k.awaitedBy none t = true := by
  simp only [Cmd.awaitedBy, Bool.and_eq_true, and_true] at hk ⊢
  exact hk.1

/-- The last command of a group that names the block. -/
def State.lastNaming (s : State) (d : Reg) (t : Tid) (k : Cmd) : Prop :=
  k.awaitedBy (some d) t = true ∧ ∀ k' ∈ s.cmds, k'.awaitedBy (some d) t = true → k'.id ≤ k.id

theorem State.mem_groupCmds (s : State) (t : Tid) (k : Cmd) : k ∈ s.groupCmds t ↔ k ∈ s.cmds ∧ k.awaitedBy none t = true := by
  simp only [State.groupCmds, List.mem_filter, Cmd.awaitedBy, Bool.and_true]

/-- An MWAIT waits for the greatest number among the commands that it looks at, counted from 1. -/
theorem State.mwaitTarget_eq (s : State) (t : Tid) (d : Option Reg) :
    s.mwaitTarget t d = (((s.cmds.filter fun k => k.awaitedBy d t).map fun k => k.id + 1).max?).getD 0 := by
  have named : s.mwaitTarget t d = (s.cmds.filter fun k => k.awaitedBy d t).foldl (fun m k => max m (k.id + 1)) 0 := by
    rw [State.mwaitTarget, State.groupCmds, List.filter_filter]
    congr 2
    funext k
    cases d <;> exact Bool.and_comm _ _
  rw [named, ← List.foldl_map (f := fun k : Cmd => k.id + 1) (g := max), List.foldl_max, Nat.zero_max]

/-- An MWAIT of a block waits for the number of its last command. -/
theorem State.mwaitTarget_last {s : State} {t : Tid} {d : Reg} {k : Cmd} (hk : k ∈ s.cmds) (last : s.lastNaming d t k) :
    s.mwaitTarget t (some d) = k.id + 1 := by
  have most : (((s.cmds.filter fun k => k.awaitedBy (some d) t).map fun k => k.id + 1).max?) = some (k.id + 1) := by
    refine List.max?_eq_some_iff.2 ⟨List.mem_map_of_mem (List.mem_filter.2 ⟨hk, last.1⟩), fun b hb => ?_⟩
    obtain ⟨k', hk', rfl⟩ := List.mem_map.1 hb
    obtain ⟨there, named⟩ := List.mem_filter.1 hk'
    exact Nat.succ_le_succ (last.2 k' there named)
  rw [State.mwaitTarget_eq, most, Option.getD_some]

/-- Any number but 0 that it waits for is the last command's. -/
theorem State.lastNaming_of_mwaitTarget {s : State} {t : Tid} {d : Reg} {n : Nat} (hn : s.mwaitTarget t (some d) = n + 1) :
    ∃ k ∈ s.cmds, s.lastNaming d t k ∧ k.id = n := by
  rw [State.mwaitTarget_eq] at hn
  have greatest := (Option.getD_eq_iff.1 hn).resolve_right fun empty => Nat.succ_ne_zero n empty.2.symm
  obtain ⟨mem, most⟩ := List.max?_eq_some_iff.1 greatest
  obtain ⟨k, hk, id⟩ := List.mem_map.1 mem
  obtain ⟨there, named⟩ := List.mem_filter.1 hk
  refine ⟨k, there, ⟨named, fun k' hk' named' => ?_⟩, Nat.succ.inj id⟩
  have := most _ (List.mem_map_of_mem (f := fun k : Cmd => k.id + 1) (List.mem_filter.2 ⟨hk', named'⟩))
  omega

/-- A command has come to the point that a kind of MWAIT waits for (R181). -/
def MKind.reached (kind : MKind) (k : Cmd) : Prop := (kind = .consumed ∧ k.stage = .consumed) ∨ k.stage = .done

/-- An MWAIT of a kind that waits for a number waits for a command: for the one of that number, or for all up to it. -/
def MKind.covers (kind : MKind) (n : Nat) (k : Cmd) : Prop := match kind with | .all => k.id + 1 ≤ n | _ => k.id + 1 = n

theorem State.mwaitOver_iff (s : State) (t : Tid) (kind : MKind) (n : Nat) :
    s.mwaitOver t kind n = true ↔ ∀ k ∈ s.cmds, k.awaitedBy none t = true → kind.covers n k → kind.reached k := by
  simp only [State.mwaitOver, List.all_eq_true, State.mem_groupCmds, and_imp]
  refine forall₃_congr fun k _ _ => ?_
  cases kind <;> simp [MKind.covers, MKind.reached, imp_iff_not_or]

/-- Where commands have numbers of their own, a wait for a block is over with its last command. -/
theorem State.mwaitOver_of_last {s : State} {t : Tid} {d : Reg} {kind : MKind} (block : kind ≠ .all) (distinct : (s.cmds.map fun k => k.id).Nodup)
    (done : ∀ k ∈ s.cmds, s.lastNaming d t k → kind.reached k) : s.mwaitOver t kind (s.mwaitTarget t (some d)) = true := by
  refine (s.mwaitOver_iff t kind _).2 fun k hk _ covered => ?_
  have number : s.mwaitTarget t (some d) = k.id + 1 := by
    cases kind with
    | all => exact absurd rfl block
    | consumed | done => exact covered.symm
  obtain ⟨k', hk', last, id⟩ := State.lastNaming_of_mwaitTarget number
  exact List.inj_on_of_nodup_map distinct hk' hk id ▸ done k' hk' last

/-- A last command that is still queued keeps every wait for its block. -/
theorem State.mwaitOver_of_queued {s : State} {t : Tid} {d : Reg} {kind : MKind} (block : kind ≠ .all) {k : Cmd} (hk : k ∈ s.cmds)
    (last : s.lastNaming d t k) (queued : k.stage = .queued) : s.mwaitOver t kind (s.mwaitTarget t (some d)) = false := by
  refine Bool.eq_false_iff.2 fun ended => ?_
  have covered : kind.covers (s.mwaitTarget t (some d)) k := by
    rw [State.mwaitTarget_last hk last]
    cases kind with
    | all => exact absurd rfl block
    | consumed | done => rfl
  have := (s.mwaitOver_iff t kind _).1 ended k hk (Cmd.awaitedBy_group last.1) covered
  simp [MKind.reached, queued] at this

/-- One lane of an MWAIT that issues: it goes on or parks for its number. -/
def State.mwaitLane (kind : MKind) (d : Option Reg) (s : State) (t : Tid) : State :=
  if s.mwaitOver t kind (s.mwaitTarget t d) then s else s.parkLane t .array (natPair (s.mwaitTarget t d))

section
variable {s : State} {c : Cur} {h : Hdr} {ops : List Opd} {illReg : State → Tid → Bool}
  (hc : s.clear c h { ops := ops, whole := true, illReg := illReg } = true)
  (calm : (s.entered c h ops).deliverPoint c.pc (s.actives c h) = (s.actives c h, s.entered c h ops)) {kind : MKind} {d : Option Reg}
include hc calm

/-- An MWAIT that no pending fault meets acts lane by lane. -/
theorem State.mwait_lanes :
    s.mwait h ops illReg kind d = ((s.actives c h).foldl (State.mwaitLane kind d) (s.entered c h ops)).wordEnd h c := by
  obtain ⟨-, retry, -⟩ := (s.clear_iff c h _).1 hc
  have first : (s.curIn c h).retry = false := retry
  have pc : (s.curIn c h).pc = c.pc := rfl
  rw [State.mwait, State.word_clear hc _ false]
  simp only [s.entered_cur, pc, calm, first, Bool.false_eq_true, if_false]
  congr 2
  funext x t
  cases ended : x.mwaitOver t kind (x.mwaitTarget t d) <;> simp [State.mwaitLane, ended]

/-- R181: a wait that is over in every lane changes nothing. -/
theorem State.mwait_passes (ended : ∀ t ∈ s.actives c h, (s.entered c h ops).mwaitOver t kind ((s.entered c h ops).mwaitTarget t d) = true) :
    s.mwait h ops illReg kind d = (s.entered c h ops).wordEnd h c := by
  have still : (s.actives c h).foldl (State.mwaitLane kind d) (s.entered c h ops) = s.entered c h ops :=
    List.foldlRecOn (motive := fun x => x = s.entered c h ops) _ _ rfl fun x hx t ht => by rw [hx, State.mwaitLane, if_pos (ended t ht)]
  rw [State.mwait_lanes hc calm, still]

/-- R181: one whose point has not come parks its lane. -/
theorem State.mwait_parks {t : Tid} (hact : s.actives c h = [t])
    (short : (s.entered c h ops).mwaitOver t kind ((s.entered c h ops).mwaitTarget t d) = false) :
    s.mwait h ops illReg kind d = ((s.entered c h ops).parkLane t .array (natPair ((s.entered c h ops).mwaitTarget t d))).wordEnd h c := by
  rw [State.mwait_lanes hc calm, hact, List.foldl_cons, List.foldl_nil, State.mwaitLane, short]
  rfl

end

theorem State.entered_cmds (s : State) (c : Cur) (h : Hdr) (ops : List Opd) : (s.entered c h ops).cmds = s.cmds :=
  (congrArg State.cmds (s.entered_same c h ops).2 :)

theorem State.entered_lastNaming {s : State} {c : Cur} {h : Hdr} {ops : List Opd} {d : Reg} {t : Tid} {k : Cmd} :
    (s.entered c h ops).lastNaming d t k ↔ s.lastNaming d t k := by
  rw [State.lastNaming, State.lastNaming, s.entered_cmds]

section
variable {s : State} {c : Cur} {h : Hdr} {d : Reg} {illReg : State → Tid → Bool}
  (hc : s.clear c h { ops := [Opd.block d 256 1], whole := true, illReg := illReg } = true)
  (calm : (s.entered c h [Opd.block d 256 1]).deliverPoint c.pc (s.actives c h) = (s.actives c h, s.entered c h [Opd.block d 256 1]))
  {kind : MKind} (block : kind ≠ .all)
include hc calm block

/-- R181: a wait for a block is over where its last command has come to the point. -/
theorem State.mwaitBlock_passes (points : ∀ t ∈ s.actives c h, ∀ k ∈ s.cmds, s.lastNaming d t k → kind.reached k)
    (distinct : (s.cmds.map fun k => k.id).Nodup) :
    s.mwait h [Opd.block d 256 1] illReg kind (some d) = (s.entered c h [Opd.block d 256 1]).wordEnd h c := by
  have cmds := s.entered_cmds c h [Opd.block d 256 1]
  refine State.mwait_passes hc calm fun t ht => State.mwaitOver_of_last block (cmds ▸ distinct) fun k hk last => ?_
  exact points t ht k (cmds ▸ hk) (State.entered_lastNaming.1 last)

/-- R181: while the block's last command is queued, its number is what a lane parks for. -/
theorem State.mwaitBlock_parks {t : Tid} (hact : s.actives c h = [t]) {k : Cmd} (hk : k ∈ s.cmds) (last : s.lastNaming d t k)
    (queued : k.stage = .queued) :
    s.mwait h [Opd.block d 256 1] illReg kind (some d) = ((s.entered c h [Opd.block d 256 1]).parkLane t .array (natPair (k.id + 1))).wordEnd h c := by
  have there : k ∈ (s.entered c h [Opd.block d 256 1]).cmds := s.entered_cmds c h _ ▸ hk
  have last := (State.entered_lastNaming (c := c) (h := h) (ops := [Opd.block d 256 1])).2 last
  rw [State.mwait_parks hc calm hact (State.mwaitOver_of_queued block there last queued), State.mwaitTarget_last there last]

end

/-- R181: MWAIT.all is over where every command of the group is done. -/
theorem State.mwaitAll_passes {s : State} {c : Cur} {h : Hdr} (hc : s.clear c h { whole := true } = true)
    (calm : (s.entered c h []).deliverPoint c.pc (s.actives c h) = (s.actives c h, s.entered c h []))
    (points : ∀ t ∈ s.actives c h, ∀ k ∈ s.cmds, k.awaitedBy none t = true → k.stage = .done) :
    s.mwait h [] (fun _ _ => false) .all none = (s.entered c h []).wordEnd h c :=
  State.mwait_passes hc calm fun t ht => (State.mwaitOver_iff ..).2 fun k hk named _ => .inr (points t ht k (s.entered_cmds c h [] ▸ hk) named)

theorem matrixWaits : MatrixWaits := by
  intro h d s c name last block
  refine ⟨fun hc calm => ⟨fun points distinct => ?_, fun points distinct => ?_, fun t k hact hk named queued => ⟨?_, ?_⟩⟩, fun hc calm points => ?_⟩
  · exact congrArg Host.Outcome.next (State.mwaitBlock_passes hc calm nofun (fun t ht k hk named => (points t ht k hk named).imp (⟨rfl, ·⟩) id) distinct)
  · exact congrArg Host.Outcome.next (State.mwaitBlock_passes hc calm nofun (fun t ht k hk named => .inr (points t ht k hk named)) distinct)
  · exact congrArg Host.Outcome.next (State.mwaitBlock_parks (kind := .consumed) hc calm nofun hact hk named queued)
  · exact congrArg Host.Outcome.next (State.mwaitBlock_parks (kind := .done) hc calm nofun hact hk named queued)
  · exact congrArg Host.Outcome.next (State.mwaitAll_passes hc calm points)

end Sys2Proof.Machine

namespace Sys2Proof

open Machine

/-- Settles O42: each of the eight words is one command that enters its array's queue, and MWAIT goes on or parks lane by lane, by the number of its
block's last command. -/
theorem matrixWords : Obligations.MatrixWords := ⟨matrixWordsEnter, matrixWaits⟩

end Sys2Proof

/-! ### Where physical addresses lie -/

namespace Sys2Proof.Machine

/-! #### The regions (R305) -/

theorem region_da {pa : Nat} (low : pa < 2 ^ 40) : region pa = .da := if_pos low

theorem region_die {c o : Nat} (hc : c < 8) (ho : o < 2 ^ 37) : region (0x100000000000 + c * 2 ^ 37 + o) = .die c := by
  rw [region, if_neg (by omega), if_pos (by omega)]
  congr 1
  omega

theorem region_module {o : Nat} (ho : o < 2 ^ 40) : region (0x200000000000 + o) = .module := by
  rw [region, if_neg (by omega), if_neg (by omega), if_pos (by omega)]

theorem lt_of_region_da {pa : Nat} (h : region pa = .da) : pa < 2 ^ 40 := by
  by_contra low
  rw [region, if_neg (show ¬pa < 0x10000000000 from low)] at h
  split at h
  · cases h
  · split at h
    · cases h
    · split at h <;> cases h

theorem lt_of_region_die {pa c : Nat} (h : region pa = .die c) : c < 8 := by
  unfold region at h
  split at h
  · cases h
  · split at h
    case isTrue hd => cases h; omega
    case isFalse =>
      split at h
      · cases h
      · split at h <;> cases h

/-! #### Fields of an address -/

/-- A field of an address read off its bits is what division and remainder give. -/
theorem toNat_extractLsb'_ofNat {v : Nat} (hv : v < 2 ^ 64) (i w : Nat) : ((BitVec.ofNat 64 v).extractLsb' i w).toNat = v / 2 ^ i % 2 ^ w := by
  rw [BitVec.extractLsb'_toNat, BitVec.toNat_ofNat, Nat.mod_eq_of_lt hv, Nat.shiftRight_eq_div_pow]

theorem toNat_getLsbD_ofNat {v : Nat} (hv : v < 2 ^ 64) (i : Nat) : ((BitVec.ofNat 64 v).getLsbD i).toNat = v / 2 ^ i % 2 := by
  rw [BitVec.getLsbD, BitVec.toNat_ofNat, Nat.mod_eq_of_lt hv, Nat.toNat_testBit]

/-- R309's hash, of the line number's bits. -/
theorem hashDie_ofNat {n : Nat} (hn : n < 2 ^ 64) : hashDie (BitVec.ofNat 64 n) = interleaveDie n := by
  simp only [hashDie, interleaveDie, BitVec.toNat_xor, toNat_extractLsb'_ofNat hn, Nat.reducePow, Nat.div_one]

theorem shiftRight_ofNat {n : Nat} (hn : n < 2 ^ 64) (i : Nat) : BitVec.ofNat 64 n >>> i = BitVec.ofNat 64 (n / 2 ^ i) := by
  apply BitVec.eq_of_toNat_eq
  have : n / 2 ^ i < 2 ^ 64 := Nat.lt_of_le_of_lt (Nat.div_le_self ..) hn
  rw [BitVec.toNat_ushiftRight, BitVec.toNat_ofNat, BitVec.toNat_ofNat, Nat.mod_eq_of_lt hn, Nat.mod_eq_of_lt this, Nat.shiftRight_eq_div_pow]

/-- R308's place, of the band offset's bits. -/
theorem bandPlace_eq (die bound : Nat) {o : Nat} (ho : o < 2 ^ 64) : bandPlace die bound o = bandLoc die bound o := by
  have hn : o / 256 < 2 ^ 64 := by omega
  have hq : o / 256 / 2 < 2 ^ 64 := by omega
  have hrr : o / 256 / 2 / 4096 < 2 ^ 64 := by omega
  have half : BitVec.ofNat 64 (o / 256) >>> 1 = BitVec.ofNat 64 (o / 256 / 2) := shiftRight_ofNat hn 1
  have row : (BitVec.ofNat 64 (o / 256 / 2) >>> 12).toNat = o / 256 / 2 / 4096 := by
    rw [shiftRight_ofNat hq, BitVec.toNat_ofNat]
    exact Nat.mod_eq_of_lt hrr
  simp only [bandPlace, bandLoc, Nat.reducePow, half, row, BitVec.toNat_xor, toNat_extractLsb'_ofNat hq, toNat_getLsbD_ofNat hn, Nat.div_one]

theorem slice_eq_bits {pa : Nat} (hpa : pa < 2 ^ 64) :
    slice pa = ((BitVec.ofNat 64 pa).extractLsb' 8 4 ^^^ (BitVec.ofNat 64 pa).extractLsb' 12 4 ^^^ (BitVec.ofNat 64 pa).extractLsb' 16 4 ^^^
      (BitVec.ofNat 64 pa).extractLsb' 20 4).toNat := by
  simp only [slice, BitVec.toNat_xor, toNat_extractLsb'_ofNat hpa, Nat.reducePow]

/-! #### Places by region -/

theorem dramLoc_da (b : Boot) {pa : Nat} (hr : region pa = .da) :
    dramLoc b pa = some (.mk (pa / 2 ^ 36 % 16) (pa % 2 ^ 16 / 2 ^ 10) (pa / 2 ^ 16 % 16) (pa / 2 ^ 20 % 2 ^ 16) (pa % 2 ^ 10)) := by
  rw [dramLoc, hr]

theorem dramLoc_die (b : Boot) {pa c : Nat} (hr : region pa = .die c) : dramLoc b pa = some (bandLoc c b.dabound ((pa - 0x100000000000) % 2 ^ 37)) := by
  rw [dramLoc, hr]

theorem dramLoc_module (b : Boot) {pa : Nat} (hr : region pa = .module) :
    dramLoc b pa = some (bandLoc (interleaveDie ((pa - 0x200000000000) / 256)) b.mibound
      ((pa - 0x200000000000) / 256 / 8 * 256 + (pa - 0x200000000000) % 256)) := by
  rw [dramLoc, hr]

theorem populated_da {b : Boot} {pa : Nat} {l : DramLoc} (hr : region pa = .da) (hl : dramLoc b pa = some l) : populated b pa = decide (l.row < b.dabound) := by
  simp only [populated, hr, hl]

theorem populated_die {b : Boot} {pa c : Nat} {l : DramLoc} (hr : region pa = .die c) (hl : dramLoc b pa = some l) :
    populated b pa = decide (l.row < b.mibound) := by
  simp only [populated, hr, hl]

theorem populated_module {b : Boot} {pa : Nat} {l : DramLoc} (hr : region pa = .module) (hl : dramLoc b pa = some l) :
    populated b pa = decide (l.row < 49152) := by
  simp only [populated, hr, hl]

/-! #### What R202 asks of a leaf -/

theorem leafRules_home_da {s : State} {part : Nat} {l : DWord} {size pa : Nat} (near : leafRm l = false) (h : leafRules s part l size pa = true)
    (da : region (leafPa l) = .da) : leafHome l = leafPa l / 2 ^ 37 := by
  simp only [leafRules, near, da, Bool.false_eq_true, if_false, Bool.and_eq_true] at h
  obtain ⟨-, ⟨-, home⟩, -⟩ := h
  exact of_decide_eq_true home

/-- HOME = interleave is the module band's alone: in the other bands HOME names the die that the address lies at, and elsewhere it may not be. -/
theorem leafRules_interleaved {s : State} {part : Nat} {l : DWord} {size pa : Nat} (near : leafRm l = false) (h : leafRules s part l size pa = true)
    (home : leafHome l = 8) : region (leafPa l) = .module := by
  cases mapped : region (leafPa l) with
  | module => rfl
  | da =>
    have named := leafRules_home_da near h mapped
    have := lt_of_region_da mapped
    omega
  | die c =>
    simp only [leafRules, near, mapped, home, Bool.false_eq_true, if_false, Bool.and_eq_true] at h
    obtain ⟨-, ⟨-, named⟩, -⟩ := h
    have := of_decide_eq_true named
    have := lt_of_region_die mapped
    omega
  | capacity chip rank => simp [leafRules, near, mapped, home] at h
  | none => simp [leafRules, near, mapped, home] at h

theorem leafRules_da {s : State} {part : Nat} {l : DWord} {size pa : Nat} (near : leafRm l = false) (da : leafDa l = true)
    (h : leafRules s part l size pa = true) : size = 65536 ∧ region (leafPa l) = .da := by
  simp only [leafRules, near, Bool.false_eq_true, if_false, Bool.and_eq_true, da, Bool.not_true, Bool.false_or, decide_eq_true_eq] at h
  obtain ⟨-, ⟨⟨-, page⟩, -⟩, -⟩ := h
  exact page

/-! #### Home dies (R207) -/

theorem homeDie_remote {l : DWord} (remote : leafRm l = true) (pa : Nat) : homeDie l pa = 8 := if_pos remote

theorem homeDie_named {l : DWord} (near : leafRm l = false) (named : leafHome l ≠ 8) (pa : Nat) : homeDie l pa = leafHome l := by
  rw [homeDie, if_neg (Bool.eq_false_iff.1 near), if_neg named]

theorem homeDie_interleaved {l : DWord} (near : leafRm l = false) (home : leafHome l = 8) (pa : Nat) :
    homeDie l pa = interleaveDie ((pa - 0x200000000000) / 256) := by
  rw [homeDie, if_neg (Bool.eq_false_iff.1 near), if_pos home]

/-! #### The statements -/

theorem dramLoc_page (b : Boot) {stack row bank o : Nat} (hr : row < 2 ^ 16) (hb : bank < 16) (ho : o < 2 ^ 16)
    (low : stack * 2 ^ 36 + row * 2 ^ 20 + bank * 2 ^ 16 + o < 2 ^ 40) :
    dramLoc b (stack * 2 ^ 36 + row * 2 ^ 20 + bank * 2 ^ 16 + o) =
      some { stack := stack, pc := o / 2 ^ 10, bank := bank, row := row, byte := o % 2 ^ 10 } := by
  rw [dramLoc_da b (region_da low)]
  congr 2 <;> omega

theorem daPages : DaPages := by
  refine ⟨fun b stack row bank o hs hr hb ho => ?_, fun s part l size pa near da rules => ?_⟩
  · have low : stack * 2 ^ 36 + row * 2 ^ 20 + bank * 2 ^ 16 + o < 2 ^ 40 := by omega
    have place : dramLoc b (stack * 2 ^ 36 + row * 2 ^ 20 + bank * 2 ^ 16 + o) =
        some { stack := stack, pc := o / 2 ^ 10, bank := bank, row := row, byte := o % 2 ^ 10 } := dramLoc_page b hr hb ho low
    exact ⟨place, populated_da (region_da low) place⟩
  · obtain ⟨page, da⟩ := leafRules_da near da rules
    have low := lt_of_region_da da
    have home := leafRules_home_da near rules da
    refine ⟨page, ?_⟩
    rw [homeDie_named near (by omega), home]
    omega

theorem bands : Bands := by
  refine ⟨fun b c o hc ho => ?_, fun b o ho => ?_, fun s part l size pa near home rules => ?_⟩
  · have place : dramLoc b (0x100000000000 + c * 2 ^ 37 + o) = some (bandPlace c b.dabound o) := by
      have offset : (0x100000000000 + c * 2 ^ 37 + o - 0x100000000000) % 2 ^ 37 = o := by omega
      rw [dramLoc_die b (region_die hc ho), offset, bandPlace_eq _ _ (by omega)]
    exact ⟨place, populated_die (region_die hc ho) place⟩
  · have place : dramLoc b (0x200000000000 + o) =
        some (bandPlace (hashDie (BitVec.ofNat 64 (o / 2 ^ 8))) b.mibound (o / 2 ^ 8 / 2 ^ 3 * 2 ^ 8 + o % 2 ^ 8)) := by
      rw [dramLoc_module b (region_module ho), Nat.add_sub_cancel_left, bandPlace_eq _ _ (by omega), hashDie_ofNat (by omega)]
      rfl
    exact ⟨place, populated_module (region_module ho) place⟩
  · exact leafRules_interleaved near rules home

theorem homesOfLines : HomesOfLines := by
  refine ⟨fun pa hpa => slice_eq_bits (by omega), fun l pa remote => homeDie_remote remote pa, fun l pa near named => homeDie_named near named pa,
    fun l o near home ho => ?_⟩
  rw [homeDie_interleaved near home, hashDie_ofNat (by omega), Nat.add_sub_cancel_left]
  rfl

end Sys2Proof.Machine

namespace Sys2Proof

open Machine

/-- Settles O32: each field of a place or of a home is read off an address alike by its bits and by division; R202's rules for a leaf's HOME leave one
region for each of the two cases said. -/
theorem physicalMap : Obligations.PhysicalMap := ⟨daPages, bands, homesOfLines⟩

end Sys2Proof

/-! ### Checks of an access, and its precise faults -/

namespace Sys2Proof.Machine

/-! #### The order of the checks (R232) -/

section
variable {s u : State} {w : Who} {va n : Nat} {p : Perm} {attr : Xlat → Bool}

theorem State.checkLane_misaligned (odd : va % n ≠ 0) (locks : Bool) : s.checkLane w va n p locks attr = (.error fcMisalign, s) := if_pos odd

theorem State.checkLane_untranslated (aligned : va % n = 0) {e : Nat}
    (fault : s.translate w.core w.ctx va p (fun x => s.badRemote w.ctx n x || attr x) = (.error e, u)) (locks : Bool) :
    s.checkLane w va n p locks attr = (.error e, u) := by
  rw [State.checkLane, if_neg (not_not.2 aligned), fault]

theorem State.checkLane_locked (aligned : va % n = 0) {x : Xlat}
    (there : s.translate w.core w.ctx va p (fun x => s.badRemote w.ctx n x || attr x) = (.ok x, u))
    (locked : u.lockedVa w.core w.ctx va n p.writes = true) : s.checkLane w va n p true attr = (.error fcRangeLock, u) := by
  rw [State.checkLane, if_neg (not_not.2 aligned), there]
  simp only [locked, Bool.and_self, if_true]

end

section
variable {s : State} {core : Option Nat} {ctx : Nat} {x : Xlat} {p : Perm} {attr : Xlat → Bool}

theorem State.permit_attr (bad : attr x = true) : s.permit core ctx x p attr = (.error fcPageAttr, s) := if_pos bad

theorem State.permit_perm (good : attr x = false) (denied : p.ok x.leaf = false) : s.permit core ctx x p attr = (.error fcPagePerm, s) := by
  rw [State.permit, if_neg (Bool.eq_false_iff.1 good), if_neg (Bool.eq_false_iff.1 denied)]

end

/-! #### Marked data (R234, R235) -/

theorem State.mailDram_mem (s : State) (ctx pa va pc home : Nat) : (s.mailDram ctx pa va pc home).mem = s.mem := by
  unfold State.mailDram
  split <;> rfl

theorem State.mailUe_mem (s : State) (ctx pa va pc home : Nat) : (s.mailUe ctx pa va pc home).mem = s.mem := by
  unfold State.mailUe
  split
  · rfl
  · exact State.mailDram_mem _ ctx pa va pc home

/-- What an access acquires touches neither memory nor its marks. -/
theorem State.acquireAt_mem_ue (s : State) (w : Who) (leaf : DWord) (acq : Acq) : (s.acquireAt w leaf acq).mem = s.mem ∧ (s.acquireAt w leaf acq).ue = s.ue := by
  unfold State.acquireAt
  split
  · exact ⟨rfl, rfl⟩
  · constructor
    · split <;> split <;> rfl
    · split <;> split <;> rfl

/-- A load whose checks pass and whose data are marked returns none of them. -/
theorem State.loadLane_marked {s u : State} {w : Who} {va n : Nat} {x : Xlat} (passes : s.checkLane w va n .load true = (.ok x, u))
    (near : leafRm x.leaf = false) (marked : u.marked x.pa n = true) (acq : Acq) (fill : Bool) :
    ∃ r, s.loadLane w va n acq fill = (.ue va, r) ∧ r.mem = u.mem := by
  obtain ⟨mem, ue⟩ := u.acquireAt_mem_ue w x.leaf acq
  have marked : (u.acquireAt w x.leaf acq).marked x.pa n = true := by rwa [State.marked, ue]
  refine ⟨(u.acquireAt w x.leaf acq).mailUe w.ctx x.pa va 0 (homeDie x.leaf x.pa), ?_, (State.mailUe_mem ..).trans mem⟩
  simp only [State.loadLane, passes, near, marked, Bool.false_eq_true, if_false, if_true]

theorem accessChecks : AccessChecks := fun _ _ _ _ _ _ acq fill =>
  ⟨fun odd => State.checkLane_misaligned odd true, fun _ _ aligned fault => State.checkLane_untranslated aligned fault true,
    fun _ _ _ bad => State.permit_attr bad, fun _ _ _ good denied => State.permit_perm good denied,
    fun _ _ aligned there locked => State.checkLane_locked aligned there locked,
    fun _ _ passes near marked => State.loadLane_marked passes near marked acq fill⟩

/-! #### Precise faults (R236) -/

/-- A fault that is not of returned data is one of the word itself. -/
theorem State.laneTrap_precise {u : State} {c : Cur} (cur : u.cur = some c) (t : Tid) (code addr : Nat) :
    u.laneTrap t code addr false = u.trap t code addr := by
  rw [State.laneTrap, cur]
  rfl

theorem State.checkAt_fails {s u : State} {t : Tid} {code ea n : Nat} {p : Perm} {attr : Xlat → Bool} (fails : s.checkLane (s.who t) ea n p true attr = (.error code, u)) :
    State.checkAt t ea n p attr s = (some code, u) := by
  rw [State.checkAt, fails]

section
variable {s u : State} {c : Cur} {t : Tid} {code : Nat} (cur : u.cur = some c)
include cur

/-- An access whose check fails traps so when it must wait, and when it is performed at once if its own check fails alike. -/
theorem State.access_traps {x : LaneAcc} {check : State → Option Nat × State} {act : Acc → State → State} (fails : check s = (some code, u))
    (acts : act (s.accOf t) s = u.trap t code x.place.addr) : s.access t x check act = u.trap t code x.place.addr := by
  unfold State.access
  split
  · rw [fails]
    exact State.laneTrap_precise cur t code _
  · exact acts

theorem State.accFail_precise (addr : Nat) : u.accFail (s.accOf t) code addr false = u.trap t code addr := by
  obtain ⟨tid, now⟩ := s.accOf_now t
  rw [State.accFail, now, tid]
  exact State.laneTrap_precise cur t code addr

/-- One lane of LD. -/
theorem State.ldLane_traps {o : MemF} {vals : List (List Word)}
    (fails : s.checkLane (s.who t) (MemF.ea o vals) o.wid.bytes .load true = (.error code, u)) :
    s.access t (MemF.ldAcc o vals) (State.checkAt t (MemF.ea o vals) o.wid.bytes .load) (fun a s => s.ldAct o vals a) = u.trap t code (MemF.ea o vals) := by
  refine State.access_traps cur (x := MemF.ldAcc o vals) (State.checkAt_fails fails) ?_
  obtain ⟨tid, now⟩ := s.accOf_now t
  simp only [State.ldAct, State.loadTo, State.loadLane, tid, now, Option.isNone_none, fails]
  exact State.accFail_precise cur _

/-- One lane of ST, of as many bytes as its width says. -/
theorem State.stLane_traps {o : MemF} {vals : List (List Word)} (full : (dataBytes (vals.getD 0 []) o.wid.bytes).length = o.wid.bytes)
    (fails : s.checkLane (s.who t) (MemF.ea o vals) o.wid.bytes .store true = (.error code, u)) :
    s.stLane t o vals = u.trap t code (MemF.ea o vals) := by
  refine State.access_traps cur (x := MemF.stAcc o vals) (State.checkAt_fails fails) ?_
  obtain ⟨tid, now⟩ := s.accOf_now t
  simp only [State.stAct, State.storeFrom, State.storeLane, tid, now, full, Option.isNone_none, fails]
  exact State.accFail_precise cur _

/-- One lane of ATOM, whether it would wait for its wave or be performed. -/
theorem State.atomTo_traps {o : AtomOpd} {ea : Nat} {act : AtomAct} (vals : List (List Word))
    (fails : s.checkLane (s.who t) ea o.ty.bytes .atomic true (fun x => leafRm x.leaf && act.remote.isNone) = (.error code, u)) :
    s.atomTo t o ea act vals = u.trap t code ea := by
  have checked : State.checkAtom t ea o.ty.bytes act s = (some code, u) := State.checkAt_fails fails
  unfold State.atomTo
  split
  · rw [checked]
    exact State.laneTrap_precise cur t code ea
  · refine State.access_traps cur (x := o.acc ea vals) checked ?_
    obtain ⟨tid, now⟩ := s.accOf_now t
    simp only [State.atomDo, State.atomicLane, tid, now, Option.isNone_none, fails]
    exact State.accFail_precise cur _

end

theorem bytesOf_length (ws : List Word) : (bytesOf ws).length = 4 * ws.length := by
  simp only [bytesOf, List.length_flatMap, leBytes_length, List.map_const', List.sum_replicate, smul_eq_mul]
  omega

/-- A source operand's value has as many words as the operand has registers. -/
theorem State.opdVals_head_length (s : State) (t : Tid) (o : Opd) (os : List Opd) (source : ¬(o.use = .wr ∨ o.use = .name)) :
    ((s.opdVals t (o :: os)).getD 0 []).length = o.n := by
  simp only [State.opdVals, List.map_cons, if_neg source, List.getD_cons_zero, List.length_map, List.length_range]

/-- The data registers of a width hold its bytes. -/
theorem dataBytes_length {ws : List Word} {w : Wid} (full : ws.length = w.regs) : (dataBytes ws w.bytes).length = w.bytes := by
  have fits : w.bytes ≤ 4 * w.regs := by cases w <;> decide
  rw [dataBytes, List.length_take, bytesOf_length, full]
  exact Nat.min_eq_left fits

/-- A word whose one lane traps. -/
theorem State.byLane_traps {s u : State} {c : Cur} {h : Hdr} {k : Checks} {t : Tid} {code addr : Nat} (ha : s.alone c h k t = true)
    {f : Tid → List (List Word) → State → State × Option Park} (joint : Bool)
    (lane : f t (s.opdVals t k.ops) (s.entered c h k.ops) = (u.trap t code addr, none)) :
    (.next (s.byLane h k f (joint := joint)) : Answer) = .next ((u.trap t code addr).wordEnd h c) := by
  rw [State.byLane_lane ha, lane]
  rfl

theorem accessesTrapPrecisely : AccessesTrapPrecisely := by
  intro h o q s u c t code
  refine ⟨fun ha fails cur => ?_, fun ha fails cur => ?_, fun ha allowed fails cur => ?_⟩
  · have cur := cur.trans (s.entered_cur c h _)
    exact State.byLane_traps ha false (Prod.ext (State.ldLane_traps cur fails) rfl)
  · have cur := cur.trans (s.entered_cur c h _)
    have full := dataBytes_length (s.opdVals_head_length t (Opd.vsk o.d o.wid.regs) [Opd.vsk o.a 2] (by simp [Opd.vsk]))
    exact State.byLane_traps ha true (Prod.ext (State.stLane_traps cur full fails) rfl)
  · have cur := cur.trans (s.entered_cur c h _)
    refine State.byLane_traps ha true (Prod.ext ?_ rfl)
    rw [if_neg (Bool.eq_false_iff.1 allowed)]
    exact State.atomTo_traps (o := AtF.opd q) cur _ fails

end Sys2Proof.Machine

namespace Sys2Proof

open Machine

/-- Settles O31: the first check that fails gives the fault, and LD, ST and ATOM make it a trap of the word, whether they are performed at once, wait
for earlier accesses or wait for their wave. -/
theorem accessFaults : Obligations.AccessFaults := ⟨accessChecks, accessesTrapPrecisely⟩

end Sys2Proof

/-! ### Cache maintenance -/

namespace Sys2Proof.Machine

/-! #### What holds after each of several changes -/

/-- What each element's change brings about, and every other leaves standing, holds of every element in the end. -/
theorem foldl_establishes {α β : Type} {f : α → β → α} {P : β → α → Prop} (own : ∀ a b, P b (f a b)) (kept : ∀ a b x, P x a → P x (f a b))
    (l : List β) (a : α) : ∀ x ∈ l, P x (l.foldl f a) := by
  induction l generalizing a with
  | nil => exact nofun
  | cons b l ih =>
    intro x hx
    rcases List.mem_cons.1 hx with rfl | hx
    · exact List.foldlRecOn l f (own a x) fun a' h b' _ => kept a' b' x h
    · exact ih (f a b) x hx

/-! #### Discarding sectors (R228) -/

/-- A sector of a range of sectors, both ends among them. -/
abbrev sectorIn (lo hi q : Nat) : Prop := lo ≤ q ∧ q ≤ hi

/-- A dirty sector that is discarded may have been written back before. -/
def State.mayWriteBack (s : State) (e : Nat × List Byte) : State :=
  if Mem.getN s.mem (32 * e.1) 32 = e.2 then s
  else
    let r := s.flip
    if r.1 then { (r.2.noteOld (32 * e.1) e.2 none) with mem := Mem.setN r.2.mem (32 * e.1) e.2 } else r.2

theorem State.discardSectors_eq (s : State) (core lo hi : Nat) :
    s.discardSectors core lo hi =
      let u := (s.dirty.filter fun e => decide (lo ≤ e.1 ∧ e.1 ≤ hi)).foldl State.mayWriteBack (s.cleanSectors lo hi)
      { u with l1 := u.l1.filter fun e => !(decide (e.core = core) && decide (lo ≤ e.sector ∧ e.sector ≤ hi)) } := rfl

/-- The old bytes of a write are noted for instruction fetch alone. -/
theorem State.noteOld_dirty_l1 (s : State) (pa : Nat) (bs : List Byte) (storer : Option Tid) :
    (s.noteOld pa bs storer).dirty = s.dirty ∧ (s.noteOld pa bs storer).l1 = s.l1 := by
  simp only [State.noteOld]
  split <;> exact ⟨rfl, rfl⟩

theorem State.mayWriteBack_dirty_l1 (s : State) (e : Nat × List Byte) : (s.mayWriteBack e).dirty = s.dirty ∧ (s.mayWriteBack e).l1 = s.l1 := by
  simp only [State.mayWriteBack]
  split
  · exact ⟨rfl, rfl⟩
  · split
    · exact s.flip.2.noteOld_dirty_l1 (32 * e.1) e.2 none
    · exact ⟨rfl, rfl⟩

theorem State.writeBacks_dirty (l : List (Nat × List Byte)) (s : State) : (l.foldl State.mayWriteBack s).dirty = s.dirty :=
  foldl_keeps (fun s e => (s.mayWriteBack_dirty_l1 e).1) l s

theorem State.writeBacks_l1 (l : List (Nat × List Byte)) (s : State) : (l.foldl State.mayWriteBack s).l1 = s.l1 :=
  foldl_keeps (fun s e => (s.mayWriteBack_dirty_l1 e).2) l s

/-- Only a sector's own bytes change when it is written back. -/
theorem State.mayWriteBack_mem (s : State) {e : Nat × List Byte} (whole : e.2.length = 32) {a : Nat} (other : a / 32 ≠ e.1) :
    Mem.get (s.mayWriteBack e).mem a = Mem.get s.mem a := by
  simp only [State.mayWriteBack]
  split
  · rfl
  · split
    · show Mem.get (Mem.setN s.mem (32 * e.1) e.2) a = Mem.get s.mem a
      rw [Mem.get_setN, if_neg (by omega)]
    · rfl

theorem State.mem_dirty_cleanSectors (s : State) (lo hi : Nat) (d : Nat × List Byte) :
    d ∈ (s.cleanSectors lo hi).dirty ↔ d ∈ s.dirty ∧ ¬sectorIn lo hi d.1 := by
  simp only [State.cleanSectors, List.mem_filter, Bool.not_eq_true', decide_eq_false_iff_not]

theorem State.mem_dirty_discardSectors (s : State) (core lo hi : Nat) (d : Nat × List Byte) :
    d ∈ (s.discardSectors core lo hi).dirty ↔ d ∈ s.dirty ∧ ¬sectorIn lo hi d.1 := by
  simp only [State.discardSectors_eq, State.writeBacks_dirty]
  exact s.mem_dirty_cleanSectors lo hi d

theorem State.mem_l1_discardSectors (s : State) (core lo hi : Nat) (k : L1Sector) :
    k ∈ (s.discardSectors core lo hi).l1 ↔ k ∈ s.l1 ∧ ¬(k.core = core ∧ sectorIn lo hi k.sector) := by
  simp only [State.discardSectors_eq, State.writeBacks_l1, List.mem_filter, Bool.not_eq_true', ← Bool.decide_and, decide_eq_false_iff_not]
  rfl

/-- No byte outside the range changes, where the sectors held dirty are whole. -/
theorem State.discardSectors_mem (s : State) (core : Nat) {lo hi a : Nat} (whole : ∀ d ∈ s.dirty, d.2.length = 32) (outside : ¬sectorIn lo hi (a / 32)) :
    Mem.get (s.discardSectors core lo hi).mem a = Mem.get s.mem a := by
  refine List.foldlRecOn (motive := fun u : State => Mem.get u.mem a = Mem.get s.mem a) _ State.mayWriteBack (b := s.cleanSectors lo hi) rfl
    fun u same e he => ?_
  obtain ⟨dirty, inside⟩ := List.mem_filter.1 he
  rw [State.mayWriteBack_mem u (whole e dirty) (fun hit => outside (hit ▸ of_decide_eq_true inside)), same]

/-- Where no sector of the range is dirty no byte changes. -/
theorem State.discardSectors_clean_mem (s : State) (core : Nat) {lo hi : Nat} (clean : ∀ d ∈ s.dirty, ¬sectorIn lo hi d.1) :
    (s.discardSectors core lo hi).mem = s.mem := by
  have nothing : (s.dirty.filter fun e => decide (lo ≤ e.1 ∧ e.1 ≤ hi)) = [] :=
    List.filter_eq_nil_iff.2 fun d hd inside => clean d hd (of_decide_eq_true inside)
  rw [State.discardSectors_eq, nothing]
  rfl

/-! #### Parts of a replaced word (R17) -/

/-- A replaced word once CMAINT clean at a scope's rank has reached it. -/
def ICopy.reach (rank : Nat) (e : ICopy) : ICopy := { e with cleaned := some (max rank (e.cleaned.getD 0)) }

/-- CMAINT clean of at least a rank has reached a replaced word. -/
def ICopy.reached (e : ICopy) (rank : Nat) : Prop := ∃ r, e.cleaned = some r ∧ rank ≤ r

theorem ICopy.reach_reached (rank : Nat) (e : ICopy) : (e.reach rank).reached rank := ⟨_, rfl, le_max_left ..⟩

/-- A part of a replaced word: its bytes lie among the word's, its storer is the same, and no clean that has reached the word is forgotten. -/
structure ICopy.partOf (k e : ICopy) : Prop where
  storer : k.storer = e.storer
  bytes : ∀ b m, meets k.pa k.old.length b m = true → meets e.pa e.old.length b m = true
  reached : ∀ r, e.reached r → k.reached r

theorem meets_iff (a n b m : Nat) : meets a n b m = true ↔ 0 < n ∧ 0 < m ∧ a < b + m ∧ b < a + n := decide_eq_true_iff

/-- What a clean of a range makes of a replaced word: its parts, and those in the range are reached. -/
theorem ICopy.mem_within_reach {e k : ICopy} {pa n rank : Nat} (hk : k ∈ e.within pa n (ICopy.reach rank)) :
    k.partOf e ∧ (meets k.pa k.old.length pa n = true → k.reached rank) := by
  simp only [ICopy.within] at hk
  split at hk
  case isTrue apart =>
    obtain rfl := List.mem_singleton.1 hk
    exact ⟨⟨rfl, fun _ _ h => h, fun _ h => h⟩, fun h => absurd h (by simpa using apart)⟩
  case isFalse meet =>
    rw [Bool.not_eq_true', Bool.not_eq_false, meets_iff] at meet
    simp only [List.mem_append, List.mem_singleton] at hk
    obtain (before | inside) | after := hk
    · split at before
      · exact absurd before List.not_mem_nil
      · obtain rfl := List.mem_singleton.1 before
        refine ⟨⟨rfl, fun b m h => ?_, fun _ h => h⟩, fun h => ?_⟩ <;> simp only [meets_iff, List.length_take] at h ⊢ <;> omega
    · subst inside
      refine ⟨⟨rfl, fun b m h => ?_, fun r ⟨r', was, le⟩ => ⟨_, rfl, ?_⟩⟩, fun _ => ICopy.reach_reached ..⟩
      · simp only [ICopy.reach, meets_iff, List.length_take, List.length_drop] at h ⊢
        omega
      · rw [was]
        exact le_trans le (le_max_right ..)
    · split at after
      · exact absurd after List.not_mem_nil
      · obtain rfl := List.mem_singleton.1 after
        refine ⟨⟨rfl, fun b m h => ?_, fun _ h => h⟩, fun h => ?_⟩ <;> simp only [meets_iff, List.length_drop] at h ⊢ <;> omega

/-- The thread's own replaced words, and those that no thread stored, are the ones that its cleans reach. -/
def ICopy.ownedBy (e : ICopy) (t : Tid) : Prop := e.storer = none ∨ e.storer = some t

theorem State.mem_icache_cleanedBy {s : State} {t : Tid} {rank pa n : Nat} {k : ICopy} (hk : k ∈ (s.cleanedBy t rank pa n).icache) :
    ∃ e ∈ s.icache, k.partOf e ∧ (k.ownedBy t → meets k.pa k.old.length pa n = true → k.reached rank) := by
  obtain ⟨e, he, hk⟩ := List.mem_flatMap.1 hk
  split at hk
  · obtain ⟨part, inside⟩ := ICopy.mem_within_reach hk
    exact ⟨e, he, part, fun _ => inside⟩
  case isFalse others =>
    obtain rfl := List.mem_singleton.1 hk
    exact ⟨k, he, ⟨rfl, fun _ _ h => h, fun _ h => h⟩, fun own => absurd own others⟩

/-! #### One range of sectors -/

/-- What inv, clean or flush does to one range of sectors. -/
def State.maintRange (s : State) (t : Tid) (core rank : Nat) (clean inv : Bool) (q : Nat × Nat) : State :=
  let s := if clean then ((s.cleanSectors q.1 q.2).cleanedBy t rank (32 * q.1) (32 * (q.2 - q.1 + 1))).dropInstr rank core q.1 q.2 else s
  if inv then s.discardSectors core q.1 q.2 else s

/-- No sector of a range is dirty. -/
def State.noneDirty (q : Nat × Nat) (s : State) : Prop := ∀ d ∈ s.dirty, ¬sectorIn q.1 q.2 d.1

/-- A core's L1 holds no sector of a range. -/
def State.noneCopied (core : Nat) (q : Nat × Nat) (s : State) : Prop := ∀ k ∈ s.l1, k.core = core → ¬sectorIn q.1 q.2 k.sector

/-- A clean has reached a thread's replaced words of a range. -/
def State.wordsReached (t : Tid) (rank : Nat) (q : Nat × Nat) (s : State) : Prop :=
  ∀ k ∈ s.icache, k.ownedBy t → meets k.pa k.old.length (32 * q.1) (32 * (q.2 - q.1 + 1)) = true → k.reached rank

section
variable (s : State) (t : Tid) (core rank : Nat) (q : Nat × Nat)

theorem State.mem_dirty_maintRange {clean inv : Bool} (acts : clean = true ∨ inv = true) (d : Nat × List Byte) :
    d ∈ (s.maintRange t core rank clean inv q).dirty ↔ d ∈ s.dirty ∧ ¬sectorIn q.1 q.2 d.1 := by
  have cleaned := s.mem_dirty_cleanSectors q.1 q.2 d
  cases clean with
  | false =>
    obtain rfl := acts.resolve_left Bool.false_ne_true
    exact s.mem_dirty_discardSectors core q.1 q.2 d
  | true =>
    cases inv with
    | false => exact cleaned
    | true =>
      have discarded := State.mem_dirty_discardSectors (s.maintRange t core rank true false q) core q.1 q.2 d
      exact (discarded.trans (and_congr_left' cleaned)).trans (by rw [and_assoc, and_self])

theorem State.mem_l1_maintRange (clean : Bool) (k : L1Sector) :
    k ∈ (s.maintRange t core rank clean true q).l1 ↔ k ∈ s.l1 ∧ ¬(k.core = core ∧ sectorIn q.1 q.2 k.sector) := by
  cases clean <;> exact State.mem_l1_discardSectors _ core q.1 q.2 k

theorem State.maintRange_clean_mem (inv : Bool) : (s.maintRange t core rank true inv q).mem = s.mem := by
  cases inv with
  | false => rfl
  | true => exact State.discardSectors_clean_mem _ core fun d hd => ((State.mem_dirty_maintRange s t core rank q (inv := false) (.inl rfl) d).1 hd).2

end

/-! #### Several ranges of sectors -/

section
variable (s : State) (t : Tid) (core rank : Nat) (qs : List (Nat × Nat))

/-- What inv, clean or flush does to several ranges of sectors. -/
def State.maintRanges (clean inv : Bool) : State := qs.foldl (fun s q => s.maintRange t core rank clean inv q) s

theorem State.maintRanges_noneDirty {clean inv : Bool} (acts : clean = true ∨ inv = true) :
    ∀ q ∈ qs, (s.maintRanges t core rank qs clean inv).noneDirty q :=
  foldl_establishes (P := State.noneDirty) (fun s q d hd => ((s.mem_dirty_maintRange t core rank q acts d).1 hd).2)
    (fun s q _ was d hd => was d ((s.mem_dirty_maintRange t core rank q acts d).1 hd).1) qs s

theorem State.maintRanges_noneCopied (clean : Bool) : ∀ q ∈ qs, (s.maintRanges t core rank qs clean true).noneCopied core q :=
  foldl_establishes (P := State.noneCopied core) (fun s q k hk own inside => ((s.mem_l1_maintRange t core rank q clean k).1 hk).2 ⟨own, inside⟩)
    (fun s q _ was k hk => was k ((s.mem_l1_maintRange t core rank q clean k).1 hk).1) qs s

theorem State.maintRanges_wordsReached : ∀ q ∈ qs, (s.maintRanges t core rank qs true false).wordsReached t rank q :=
  foldl_establishes (P := State.wordsReached t rank)
    (fun _ _ _ hk => by
      obtain ⟨_, _, _, inside⟩ := State.mem_icache_cleanedBy hk
      exact inside)
    (fun _ _ _ was _ hk own inside => by
      obtain ⟨e, he, part, -⟩ := State.mem_icache_cleanedBy hk
      exact part.reached rank (was e he (by rwa [ICopy.ownedBy, ← part.storer]) (part.bytes _ _ inside)))
    qs s

theorem State.maintRanges_clean_mem (inv : Bool) : (s.maintRanges t core rank qs true inv).mem = s.mem :=
  foldl_keeps (p := State.mem) (fun s q => s.maintRange_clean_mem t core rank q inv) qs s

/-- inv changes bytes of the ranges' own sectors alone. -/
theorem State.maintRanges_inv_mem (whole : ∀ d ∈ s.dirty, d.2.length = 32) {a : Nat} (outside : ∀ q ∈ qs, ¬sectorIn q.1 q.2 (a / 32)) :
    Mem.get (s.maintRanges t core rank qs false true).mem a = Mem.get s.mem a := by
  refine (List.foldlRecOn (motive := fun u : State => (∀ d ∈ u.dirty, d.2.length = 32) ∧ Mem.get u.mem a = Mem.get s.mem a) qs _ ⟨whole, rfl⟩
    fun u ⟨whole, same⟩ q hq => ⟨fun d hd => ?_, ?_⟩).2
  · exact whole d ((u.mem_dirty_maintRange t core rank q (.inr rfl) d).1 hd).1
  · exact (u.discardSectors_mem core whole (outside q hq)).trans same

end

/-! #### One lane -/

/-- A destination lock of the thread's core and context lies over a range of addresses (R230). -/
def State.destLocked (s : State) (w : Who) (lo n : Nat) : Bool :=
  s.locks.any fun l => !l.pool && l.dst && decide (l.core = w.core ∧ l.ctx = w.ctx) && l.overlaps lo n

theorem State.maintain_empty (s : State) (t : Tid) (va : Nat) (sco : CSco) (clean inv : Bool) : s.maintain t va 0 sco clean inv = s := by
  rw [State.maintain, if_pos rfl]

theorem State.maintain_go {s : State} {t : Tid} {va len : Nat} {qs : List (Nat × Nat)} (nonempty : 0 < len) (sco : CSco) {clean inv : Bool}
    (pages : s.maintPages (s.who t) (inv && !clean) (parts (va / 32 * 32) ((va + len + 31) / 32 * 32 - va / 32 * 32)) = (.ok qs, s))
    (free : inv = true → s.destLocked (s.who t) (va / 32 * 32) ((va + len + 31) / 32 * 32 - va / 32 * 32) = false) :
    s.maintain t va len sco clean inv = s.maintRanges t (s.who t).core sco.rank qs clean inv := by
  have unlocked : (inv && s.destLocked (s.who t) (va / 32 * 32) ((va + len + 31) / 32 * 32 - va / 32 * 32)) ≠ true := by
    cases inv with
    | false => exact Bool.false_ne_true
    | true => rw [free rfl]; exact Bool.false_ne_true
  rw [State.maintain, if_neg (Nat.ne_of_gt nonempty)]
  simp only [pages]
  exact if_neg unlocked

/-! #### A word of one lane that may be held at issue -/

theorem State.byLane_unheld {s : State} {c : Cur} {h : Hdr} {k : Checks} {t : Tid} (ha : s.alone c h k t = true)
    (f : Tid → List (List Word) → State → State × Option Park) {hold : State → List Tid → Bool} (go : hold (s.entered c h k.ops) [t] = false) :
    s.byLane h k f hold = (State.parkIf t (f t (s.opdVals t k.ops) (s.entered c h k.ops))).wordEnd h c := by
  have lane := State.byLane_lane ha f false
  simp only [State.alone, Bool.and_eq_true, decide_eq_true_eq] at ha
  obtain ⟨⟨hc, hp⟩, hact⟩ := ha
  have unheld := State.byLane_clear hc f (Opd.popsToken_plain hp) (Opd.pushes_plain hp)
  exact (State.byLane_clear hc f (Opd.popsToken_plain hp) (Opd.pushes_plain hp) hold (hact ▸ go)).trans (unheld.symm.trans lane)

theorem pairOf_toNat (lo hi : Word) : (pairOf lo hi).toNat = pairNat lo hi := by
  rw [pairOf, BitVec.toNat_append, ← Nat.shiftLeft_add_eq_or_of_lt lo.isLt, Nat.shiftLeft_eq, pairNat]
  omega

/-- The operands of CMAINT. -/
def maintOps (o : CmaintF) : List Opd := [Opd.vsk o.a 2, Opd.vsk o.b]

/-- The start of CMAINT's range. -/
def State.maintVa (s : State) (t : Tid) (o : CmaintF) : Nat := (val2 (s.opdVals t (maintOps o)) 0).toNat

/-- The length of CMAINT's range. -/
def State.maintLen (s : State) (t : Tid) (o : CmaintF) : Nat := (val1 (s.opdVals t (maintOps o)) 1).toNat

section
variable {s : State} {c : Cur} {h : Hdr} {o : CmaintF} {t : Tid} (ha : s.alone c h { ops := maintOps o } t = true)
  (go : (s.entered c h (maintOps o)).laneWaits { writes := true } t (some (vaPlace (s.maintVa t o) (s.maintLen t o))) = false)
include ha go

theorem State.cmaint_lane (f : State → Tid → Nat → Nat → State) :
    s.cmaint h o f = (f (s.entered c h (maintOps o)) t (s.maintVa t o) (s.maintLen t o)).wordEnd h c := by
  refine State.byLane_unheld ha _ ?_
  simp only [State.alone, Bool.and_eq_true, decide_eq_true_eq] at ha
  obtain ⟨⟨hc, hp⟩, -⟩ := ha
  obtain ⟨hcur, -⟩ := (State.clear_iff s c h _).1 hc
  have start : wordPair ((s.entered c h (maintOps o)).readRegs t o.a 0 2).1 0 = s.maintVa t o := by
    have reads := State.entered_reads (c := c) (h := h) (o := Opd.vsk o.a 2) hcur hp (by simp [maintOps]) (by simp [Opd.vsk])
    exact (congrArg (wordPair · 0) reads).trans (pairOf_toNat ..).symm
  have length : (((s.entered c h (maintOps o)).readRegs t o.b 0 1).1.getD 0 0).toNat = s.maintLen t o := by
    have reads := State.entered_reads (c := c) (h := h) (o := Opd.vsk o.b) hcur hp (by simp [maintOps]) (by simp [Opd.vsk])
    exact congrArg (fun ws : List Word => (ws.getD 0 0).toNat) reads
  simp only [List.any_cons, List.any_nil, Bool.or_false, start, length]
  exact go

end

/-! #### tinv (R205) -/

/-- The state in which a context's cached translations of a range are gone from some cores. -/
def State.dropTlb (s : State) (ctx : Nat) (cores : List Nat) (va len : Nat) : State :=
  { s with tlb := s.tlb.filter fun e => !(decide (e.ctx = ctx) && cores.contains e.core && meets e.base e.size va len) }

theorem State.dropTlb_empty (s : State) (ctx : Nat) (cores : List Nat) (va : Nat) : s.dropTlb ctx cores va 0 = s := by
  have nothing : ∀ a n : Nat, meets a n va 0 = false := fun a n => decide_eq_false (by omega)
  simp only [State.dropTlb, nothing, Bool.and_false, Bool.not_false, List.filter_true]

theorem State.mem_partCores {s : State} {core : Nat} (there : core < 256) : core ∈ s.partCores (s.dieParts.getD (dieOf core) 0) := by
  simp only [State.partCores, List.mem_flatMap, List.mem_range]
  refine ⟨dieOf core, by unfold dieOf; omega, ?_⟩
  rw [if_pos rfl]
  exact List.mem_map.2 ⟨core % 32, List.mem_range.2 (Nat.mod_lt _ (by decide)), Nat.div_add_mod core 32⟩

/-- The cores of CMAINT.tinv's scope: its own die's, and for a wider scope those of its partition's dies. -/
theorem State.mem_maintCores {s : State} {w : Who} {sco : CSco} {core : Nat} (there : core < 256)
    (near : dieOf core = dieOf w.core ∨ (sco ≠ .die ∧ s.dieParts.getD (dieOf core) 0 = s.dieParts.getD (dieOf w.core) 0)) : core ∈ s.maintCores w sco := by
  have part : dieOf core = dieOf w.core ∨ s.dieParts.getD (dieOf core) 0 = s.dieParts.getD (dieOf w.core) 0 → core ∈ s.partCores (s.dieParts.getD (dieOf w.core) 0) :=
    fun near => by
      have same : s.dieParts.getD (dieOf core) 0 = s.dieParts.getD (dieOf w.core) 0 := near.elim (fun e => by rw [e]) id
      exact same ▸ State.mem_partCores there
  cases sco with
  | die =>
    have same := near.resolve_right fun h => h.1 rfl
    exact List.mem_filter.2 ⟨List.mem_range.2 there, decide_eq_true same⟩
  | module | system => exact part (near.imp_right And.right)

theorem State.dropTlb_drops {s : State} {ctx : Nat} {cores : List Nat} {va len : Nat} {k : TlbEntry} (hk : k ∈ (s.dropTlb ctx cores va len).tlb)
    (own : k.ctx = ctx) (reach : k.core ∈ cores) : meets k.base k.size va len = false := by
  have stays := (List.mem_filter.1 hk).2
  simpa [own, reach] using stays

theorem State.sameBeyond_dropTlb {s e : State} (same : s.sameBeyond e) (ctx : Nat) (cores : List Nat) (va len : Nat) :
    s.sameBeyond { e.dropTlb ctx cores va len with tlb := s.tlb } :=
  ⟨same.1, congrArg (fun u : State => { u with tlb := s.tlb }) same.2⟩

/-! #### The statement -/

end Sys2Proof.Machine

namespace Sys2Proof

open Machine

/-- Settles O30: each mode goes over the ranges of sectors that the pages give, one after another; what it brings about in one range, the others keep. -/
theorem cacheMaintenance : Obligations.CacheMaintenance := by
  intro h o s c t qs ops e va len lo n locked ha go
  have mem : e.mem = s.mem := State.sameBeyond_mem (s.entered_same c h ops)
  have run := State.cmaint_lane ha go
  have maintains : ∀ clean inv, s.cmaint h o (fun s t a n => s.maintain t a n o.sco clean inv) = (e.maintain t va len o.sco clean inv).wordEnd h c :=
    fun clean inv => run _
  have drops : exec (.cmaintTinv h o) s = .next ((e.dropTlb (e.who t).ctx (e.maintCores (e.who t) o.sco) va len).wordEnd h c) :=
    congrArg Host.Outcome.next (run _)
  refine ⟨fun empty => ?_, fun nonempty pages => ⟨⟨_, congrArg Host.Outcome.next (maintains true false), ?_⟩, fun free =>
    ⟨_, congrArg Host.Outcome.next (maintains true true), ?_⟩⟩, fun nonempty pages free whole => ⟨_, congrArg Host.Outcome.next (maintains false true), ?_⟩,
    _, drops, State.sameBeyond_dropTlb (s.entered_same c h ops) .., fun k hk own there _ near => ?_⟩
  · have nothing : ∀ clean inv, e.maintain t va len o.sco clean inv = e := fun clean inv => by rw [empty, State.maintain_empty]
    have unread : e.dropTlb (e.who t).ctx (e.maintCores (e.who t) o.sco) va len = e := by rw [empty, State.dropTlb_empty]
    refine ⟨?_, ?_, ?_, unread ▸ drops⟩
    all_goals exact congrArg Host.Outcome.next ((maintains ..).trans (by rw [nothing]))
  · rw [State.maintain_go (clean := true) (inv := false) nonempty o.sco pages (fun h => absurd h Bool.false_ne_true)]
    exact ⟨(State.maintRanges_clean_mem ..).trans mem, fun q hq => ⟨State.maintRanges_noneDirty e t _ _ qs (.inl rfl) q hq,
      State.maintRanges_wordsReached e t _ _ qs q hq⟩⟩
  · rw [State.maintain_go (clean := true) (inv := true) nonempty o.sco pages fun _ => free]
    exact ⟨fun q hq => ⟨State.maintRanges_noneDirty e t _ _ qs (.inl rfl) q hq, State.maintRanges_noneCopied e t _ _ qs true q hq⟩,
      (State.maintRanges_clean_mem ..).trans mem⟩
  · rw [State.maintain_go (clean := false) (inv := true) nonempty o.sco pages fun _ => free]
    exact ⟨fun q hq => ⟨State.maintRanges_noneDirty e t _ _ qs (.inr rfl) q hq, State.maintRanges_noneCopied e t _ _ qs false q hq⟩,
      fun a outside => mem ▸ State.maintRanges_inv_mem e t _ _ qs whole outside⟩
  · have parts : e.dieParts = s.dieParts := (congrArg State.dieParts (s.entered_same c h ops).2 :)
    exact State.dropTlb_drops hk own (State.mem_maintCores there (by rwa [parts]))

end Sys2Proof

/-! ### Fences and prefetches -/

namespace Sys2Proof.Machine

/-! #### What a thread's earlier accesses are read off -/

theorem State.sameBeyond_who {s u : State} (h : s.sameBeyond u) (t : Tid) : u.who t = s.who t := by
  have read : ∀ v : State, v.who t = match (v.team? t.team).map Team.still with
      | some tm => { core := tm.core, ctx := tm.ctx, team := tm.key, thread := 64 * t.group + t.lane }
      | none => { core := 0, ctx := 0, team := t.team, thread := 0 } := fun v => by
    unfold State.who
    cases v.team? t.team <;> rfl
  rw [read, read, State.sameBeyond_team h]

theorem State.sameBeyond_dues {s u : State} (h : s.sameBeyond u) (t : Tid) (before : Nat) : u.dues t before = s.dues t before := by
  have read : ∀ v : State, v.dues t before =
      ((v.contribs ++ v.sets.flatMap fun e => e.held).filter fun k => k.ofThread t before).map Contrib.due ++
      match (v.team? t.team).map Team.still with
      | some tm => (tm.waveOps.filter fun o => o.ofThread t before).map (fun o => o.due true) ++
          (tm.lsu.filter fun o => o.ofThread t before).map fun o => o.due o.ord.reads
      | none => [] := fun v => by
    unfold State.dues
    cases v.team? t.team <;> rfl
  have contribs : u.contribs = s.contribs := (congrArg State.contribs h.2 :)
  have sets : u.sets = s.sets := (congrArg State.sets h.2 :)
  rw [read, read, State.sameBeyond_team h, contribs, sets]

theorem State.sameBeyond_remoteDue {s u : State} (h : s.sameBeyond u) (t : Tid) (before : Nat) : u.remoteDue t before = s.remoteDue t before := by
  have ops : u.remoteOps = s.remoteOps := (congrArg State.remoteOps h.2 :)
  rw [State.remoteDue, State.remoteDue, ops]

theorem State.sameBeyond_markHolds {s u : State} (h : s.sameBeyond u) (t : Tid) (m : FenceMark) : u.markHolds t m = s.markHolds t m := by
  simp only [State.markHolds, State.sameBeyond_dues h, State.sameBeyond_remoteDue h]

/-- A mark that holds keeps back each access that it stands before. -/
theorem State.laneWaits_of_mark {s : State} {t : Tid} {th : Thread} {m : FenceMark} {a : MemOrder} {place : Option Place} (live : s.thread? t = some th)
    (there : m ∈ th.fences) (holds : s.markHolds t m = true) (before : (a.writes || !m.writes) = true) : s.laneWaits a t place = true := by
  have mark : (s.marksOf t).any (fun m => (a.writes || !m.writes) && s.markHolds t m) = true := by
    simp only [State.marksOf, live]
    exact List.any_eq_true.2 ⟨m, List.mem_filter.2 ⟨there, holds⟩, by rw [before, holds]; rfl⟩
  simp only [State.laneWaits, State.mustFollow, mark, Bool.or_true]

theorem State.entered_nextId (s : State) (c : Cur) (h : Hdr) (ops : List Opd) : (s.entered c h ops).nextId = s.nextId := by
  obtain ⟨ms, e⟩ := s.entered_eq c h ops
  rw [e]
  exact foldl_keeps (f := fun s t => s.updThread t fun th => th.advance c.pc s.clk.acycle (gapCycles h.gap) h.gw) (p := State.nextId) (fun _ _ => rfl) c.lanes s

/-! #### FENCE in one lane -/

/-- A state with the copies of memory in L1 and in instruction fetch that another has. -/
def State.copiesOf (u s : State) : State := { u with l1 := s.l1, icache := s.icache }

theorem State.markHolds_of_copies {s u : State} (h : s.sameBeyond (u.copiesOf s)) (t : Tid) (m : FenceMark) : u.markHolds t m = s.markHolds t m :=
  State.sameBeyond_markHolds h t m

/-- A thread with one mark more, its marks that hold nothing back any more gone. -/
def State.withMark (s : State) (t : Tid) (m : FenceMark) (th : Thread) : Thread := { th with fences := (th.fences ++ [m]).filter (s.markHolds t) }

theorem State.mem_withMark {s : State} {t : Tid} {m : FenceMark} (holds : s.markHolds t m = true) (th : Thread) : m ∈ (s.withMark t m th).fences :=
  List.mem_filter.2 ⟨List.mem_append_right _ (List.mem_singleton_self m), holds⟩

theorem State.fenced_only (s : State) (t : Tid) (m : FenceMark) : s.onlyThread t (s.withMark t m) (s.fenced t m) :=
  s.onlyThread_updThread t fun _ => rfl

/-- The mark that a FENCE leaves in its thread (R222, R225). -/
def fenceMark (o : FenceF) (age : Nat) : FenceMark :=
  { age := age, writes := decide (o.kind = .release), reds := decide (o.kind ≠ .acquire), remote := decide (o.sco = .system) }

/-- FENCE orders its thread's later reads behind the earlier ones, and at cluster scope or wider empties its core's L1 (R223). -/
def State.fenceReads (s : State) (t : Tid) (o : FenceF) : State :=
  if o.kind = .release then s
  else
    let s := s.updThread t fun th => { th with floor := max th.floor th.seen }
    if 3 ≤ o.sco.rank then s.invalL1 (s.who t).core else s

/-- FENCE wider than thread counts for what had been cleaned before it (R17). -/
def State.fenceFetch (s : State) (t : Tid) (o : FenceF) : State := if 1 ≤ o.sco.rank then s.fencedBy t o.sco.rank else s

/-- FENCE in one lane. -/
def State.fenceLane (s : State) (t : Tid) (o : FenceF) : State :=
  let s := (s.fenceReads t o).fenceFetch t o
  s.fenced t (fenceMark o s.nextId)

theorem exec_fence (h : Hdr) (o : FenceF) (s : State) : exec (.fence h o) s = .next (s.byLane h {} fun t _ s => (s.fenceLane t o, none)) := rfl

section
variable (s : State) (t : Tid) (o : FenceF)

theorem State.fenceReads_only : ∃ F, s.onlyThread t F ((s.fenceReads t o).copiesOf s) := by
  have floor := s.onlyThread_updThread t (F := fun th => { th with floor := max th.floor th.seen }) fun _ => rfl
  unfold State.fenceReads
  split
  · exact ⟨id, s.onlyThread_refl t⟩
  · split <;> exact ⟨_, floor⟩

theorem State.fenceReads_counters : (s.fenceReads t o).cur = s.cur ∧ (s.fenceReads t o).nextId = s.nextId := by
  unfold State.fenceReads
  split
  · exact ⟨rfl, rfl⟩
  · split <;> exact ⟨rfl, rfl⟩

theorem State.fenceReads_icache : (s.fenceReads t o).icache = s.icache := by
  unfold State.fenceReads
  split
  · rfl
  · split <;> rfl

/-- FENCE takes L1 copies away alone, and when it acquires at cluster scope or wider all of its core's. -/
theorem State.mem_l1_fenceReads {k : L1Sector} (hk : k ∈ (s.fenceReads t o).l1) :
    k ∈ s.l1 ∧ (o.kind ≠ .release → 3 ≤ o.sco.rank → k.core ≠ (s.who t).core) := by
  have moved := s.onlyThread_updThread t (F := fun th => { th with floor := max th.floor th.seen }) fun _ => rfl
  unfold State.fenceReads at hk
  split at hk
  case isTrue release => exact ⟨hk, fun acquires => absurd release acquires⟩
  case isFalse =>
    split at hk
    case isTrue =>
      obtain ⟨there, other⟩ := List.mem_filter.1 hk
      exact ⟨there, fun _ _ => State.sameBeyond_who moved.same t ▸ of_decide_eq_true other⟩
    case isFalse narrow => exact ⟨hk, fun _ wide => absurd wide narrow⟩

/-- No fence that counts for a replaced word is forgotten, and one wider than thread counts for each that has been cleaned. -/
theorem State.mem_icache_fenceFetch {k : ICopy} (hk : k ∈ (s.fenceFetch t o).icache) :
    (∃ e ∈ s.icache, e.cleaned = k.cleaned ∧ ∀ x ∈ e.fences, x ∈ k.fences) ∧
      (1 ≤ o.sco.rank → k.cleaned.isSome = true → (t, o.sco.rank) ∈ k.fences) := by
  unfold State.fenceFetch at hk
  split at hk
  case isFalse thread => exact ⟨⟨k, hk, rfl, fun _ h => h⟩, fun wide => absurd wide thread⟩
  case isTrue =>
    obtain ⟨e, he, rfl⟩ := List.mem_map.1 hk
    split
    case isTrue cleaned =>
      refine ⟨⟨e, he, rfl, fun x hx => ?_⟩, fun _ _ => List.mem_cons_self ..⟩
      by_cases own : x.1 = t ∧ x.2 = o.sco.rank
      · exact List.mem_cons.2 (.inl (Prod.ext own.1 own.2))
      · exact List.mem_cons_of_mem _ (List.mem_filter.2 ⟨hx, by rw [decide_eq_false own]; rfl⟩)
    case isFalse dirty => exact ⟨⟨e, he, rfl, fun _ h => h⟩, fun _ cleaned => absurd cleaned dirty⟩

/-- FENCE before its mark: nothing but its thread and copies of memory has changed. -/
theorem State.fenceFetch_only : ∃ F, s.onlyThread t F (((s.fenceReads t o).fenceFetch t o).copiesOf s) := by
  obtain ⟨F, only⟩ := s.fenceReads_only t o
  unfold State.fenceFetch
  split <;> exact ⟨F, only⟩

theorem State.fenceFetch_counters : ((s.fenceReads t o).fenceFetch t o).cur = s.cur ∧ ((s.fenceReads t o).fenceFetch t o).nextId = s.nextId := by
  unfold State.fenceFetch
  split <;> exact s.fenceReads_counters t o

theorem State.fenceLane_counters : (s.fenceLane t o).cur = s.cur ∧ (s.fenceLane t o).nextId = s.nextId := s.fenceFetch_counters t o

theorem State.fenceLane_only : ∃ F, s.onlyThread t F ((s.fenceLane t o).copiesOf s) := by
  obtain ⟨F, only⟩ := s.fenceFetch_only t o
  exact ⟨_, State.onlyThread_trans only (State.fenced_only _ t _)⟩

/-- FENCE leaves its mark in its thread where there is something to wait for. -/
theorem State.fenceLane_mark {th : Thread} (live : s.thread? t = some th) :
    ∃ th', (s.fenceLane t o).thread? t = some th' ∧ (s.markHolds t (fenceMark o s.nextId) = true → fenceMark o s.nextId ∈ th'.fences) := by
  obtain ⟨F, only⟩ := s.fenceFetch_only t o
  have thread : ((s.fenceReads t o).fenceFetch t o).thread? t = some (F th) := only.thread.trans (by rw [live]; rfl)
  have lane : s.fenceLane t o = ((s.fenceReads t o).fenceFetch t o).fenced t (fenceMark o s.nextId) := by
    rw [State.fenceLane, (s.fenceFetch_counters t o).2]
  rw [lane, ← State.markHolds_of_copies only.same]
  exact ⟨_, (State.fenced_only _ t _).thread.trans (congrArg _ thread), fun holds => State.mem_withMark holds (F th)⟩

end

/-! #### FENCE in several lanes -/

/-- What FENCE has brought about once some lanes have acted. -/
structure State.fencedIn (e : State) (o : FenceF) (done : List Tid) (u : State) : Prop where
  same : e.sameBeyond (u.copiesOf e)
  cur : u.cur = e.cur
  now : u.nextId = e.nextId
  rest : ∀ v, v ∉ done → u.thread? v = e.thread? v
  l1 : o.kind ≠ .release → 3 ≤ o.sco.rank → ∀ t ∈ done, ∀ k ∈ u.l1, k.core ≠ (e.who t).core
  fetch : 1 ≤ o.sco.rank → ∀ t ∈ done, ∀ k ∈ u.icache, k.cleaned.isSome = true → (t, o.sco.rank) ∈ k.fences
  mark : ∀ t ∈ done, ∃ th, u.thread? t = some th ∧ (e.markHolds t (fenceMark o e.nextId) = true → fenceMark o e.nextId ∈ th.fences)

theorem State.fencedIn_nil (e : State) (o : FenceF) : e.fencedIn o [] e :=
  ⟨e.sameBeyond_refl, rfl, rfl, fun _ _ => rfl, fun _ _ => nofun, fun _ => nofun, nofun⟩

theorem State.fencedIn.next {e u : State} {o : FenceF} {done : List Tid} (p : e.fencedIn o done u) {t : Tid} (new : t ∉ done)
    (live : (e.thread? t).isSome = true) : e.fencedIn o (done ++ [t]) (u.fenceLane t o) := by
  obtain ⟨F, only⟩ := u.fenceLane_only t o
  obtain ⟨cur, now⟩ := u.fenceLane_counters t o
  have who : u.who t = e.who t := State.sameBeyond_who p.same t
  have which : ∀ v ∈ done ++ [t], v ≠ t ∧ v ∈ done ∨ v = t := fun v hv => (List.mem_append.1 hv).imp
    (fun hd => ⟨fun e => new (e ▸ hd), hd⟩) List.mem_singleton.1
  refine ⟨?_, cur.trans p.cur, now.trans p.now, fun v hv => ?_, fun acquires wide v hv k hk => ?_, fun wide v hv k hk cleaned => ?_, fun v hv => ?_⟩
  · have moved : (u.copiesOf e).sameBeyond ((u.fenceLane t o).copiesOf e) :=
      ⟨only.same.1, congrArg (fun x : State => x.copiesOf e) only.same.2⟩
    exact State.sameBeyond_trans p.same moved
  · rw [List.mem_append, List.mem_singleton, not_or] at hv
    exact (only.others v hv.2).trans (p.rest v hv.1)
  · obtain ⟨there, gone⟩ := u.mem_l1_fenceReads t o (show k ∈ (u.fenceReads t o).l1 by
      unfold State.fenceLane State.fenceFetch at hk
      split at hk <;> exact hk)
    obtain ⟨-, old⟩ | rfl := which v hv
    · exact p.l1 acquires wide v old k there
    · exact who ▸ gone acquires wide
  · obtain ⟨⟨e', he', same, kept⟩, counts⟩ := State.mem_icache_fenceFetch (u.fenceReads t o) t o hk
    rw [State.fenceReads_icache] at he'
    obtain ⟨-, old⟩ | rfl := which v hv
    · exact kept _ (p.fetch wide v old e' he' (same ▸ cleaned))
    · exact counts wide cleaned
  · obtain ⟨other, old⟩ | rfl := which v hv
    · obtain ⟨th, thread, mark⟩ := p.mark v old
      exact ⟨th, (only.others v other).trans thread, mark⟩
    · obtain ⟨th, thread⟩ := Option.isSome_iff_exists.1 live
      obtain ⟨th', after, mark⟩ := u.fenceLane_mark v o ((p.rest v new).trans thread)
      rw [State.markHolds_of_copies p.same, p.now] at mark
      exact ⟨th', after, mark⟩

theorem fence_lanes {s : State} {c : Cur} {h : Hdr} (hc : s.clear c h {} = true) (o : FenceF) :
    ∃ u, exec (.fence h o) s = .next (u.wordEnd h c) ∧ (s.entered c h []).fencedIn o (s.actives c h) u := by
  obtain ⟨-, -, hpop, hok, -⟩ := (State.clear_iff s c h _).1 hc
  have distinct : (s.actives c h).Nodup := (Cur.ok_nodup hok).filter _
  have hecur := s.entered_cur c h []
  have run := State.byLane_clear hc (fun t _ s => (s.fenceLane t o, none)) rfl rfl
  refine ⟨_, (exec_fence h o s).trans (congrArg Host.Outcome.next run), ?_⟩
  obtain ⟨done, all, fenced⟩ := State.eachLane_inv [] (fun t _ s => (s.fenceLane t o, none))
    (fun ts u => ∃ done, s.actives c h = done ++ ts ∧ (s.entered c h []).fencedIn o done u) (fun t ts u ⟨done, split, p⟩ => by
      have new : t ∉ done := fun hd => (List.nodup_append.1 (split ▸ distinct)).2.2 t hd t (List.mem_cons_self ..) rfl
      have live : ((s.entered c h []).thread? t).isSome = true :=
        State.clear_thread hc (split ▸ List.mem_append_right _ (List.mem_cons_self ..))
      have split' : s.actives c h = done ++ [t] ++ ts := by rw [split, List.append_assoc]; rfl
      have plain : u.plainAt t [] := fun o ho => absurd ho List.not_mem_nil
      exact ⟨p.rest t new ▸ live, ⟨_, p.cur.trans hecur, hpop⟩, plain, _, rfl, _, split', p.next new live⟩)
    (s.actives c h) (s.entered c h []) ⟨[], rfl, State.fencedIn_nil _ o⟩
  rw [List.append_nil] at all
  exact all ▸ fenced

theorem fenceMark_holds {s : State} {t : Tid} {o : FenceF} {n : Nat} :
    s.markHolds t (fenceMark o n) = true ↔ (∃ d ∈ s.dues t n, d.reads = true ∨ o.kind ≠ .acquire) ∨ o.sco = .system ∧ s.remoteDue t n = true := by
  simp only [State.markHolds, fenceMark, Bool.or_eq_true, List.any_eq_true, Bool.and_eq_true, decide_eq_true_eq]

/-! #### PREF -/

/-- Only copies in L1 differ. -/
def State.onlyL1 (s u : State) : Prop := ∃ l, u = { s with l1 := l }

theorem State.onlyL1_refl (s : State) : s.onlyL1 s := ⟨s.l1, rfl⟩

theorem State.onlyL1_trans {s a u : State} (h : s.onlyL1 a) (h' : a.onlyL1 u) : s.onlyL1 u := by
  obtain ⟨l, rfl⟩ := h
  obtain ⟨m, rfl⟩ := h'
  exact ⟨m, rfl⟩

/-- A prefetch fills lines of L1. -/
theorem State.prefetch_onlyL1 (s : State) (w : Who) (va n : Nat) : s.onlyL1 (s.prefetch w va n) := by
  unfold State.prefetch
  split
  · exact s.onlyL1_refl
  · refine List.foldlRecOn (List.range n) _ s.onlyL1_refl fun u only i _ => State.onlyL1_trans only ?_
    split
    · exact ⟨_, rfl⟩
    · exact u.onlyL1_refl

/-- PREF in one lane. -/
def State.prefLane (s : State) (t : Tid) (o : PrefF) (vals : List (List Word)) : State :=
  if o.tgt = .l1 then s.prefetch (s.who t) (effAddr vals 0 o.off 256 / 256 * 256) (o.nM1.toNat + 1) else s

theorem exec_pref (h : Hdr) (o : PrefF) (s : State) :
    exec (.pref h o) s = .next (s.byLane h { ops := [Opd.vsk o.a 2] } fun t vals s => (s.prefLane t o vals, none)) := rfl

theorem State.prefLane_onlyL1 (s : State) (t : Tid) (o : PrefF) (vals : List (List Word)) : s.onlyL1 (s.prefLane t o vals) := by
  unfold State.prefLane
  split
  · exact s.prefetch_onlyL1 ..
  · exact s.onlyL1_refl

theorem pref_lanes {s : State} {c : Cur} {h : Hdr} {o : PrefF} (hc : s.clear c h { ops := [Opd.vsk o.a 2] } = true)
    (hp : s.plain (s.actives c h) [Opd.vsk o.a 2] = true) :
    ∃ u, exec (.pref h o) s = .next (u.wordEnd h c) ∧ (s.entered c h [Opd.vsk o.a 2]).onlyL1 u := by
  obtain ⟨hcur, -, hpop, -⟩ := (State.clear_iff s c h _).1 hc
  have run := State.byLane_clear hc (fun t vals s => (s.prefLane t o vals, none)) (Opd.popsToken_plain hp) (Opd.pushes_plain hp)
  refine ⟨_, (exec_pref h o s).trans (congrArg Host.Outcome.next run), ?_⟩
  refine (State.eachLane_inv _ (fun t vals s => (s.prefLane t o vals, none))
    (fun ts u => (∀ t ∈ ts, t ∈ s.actives c h) ∧ (s.entered c h [Opd.vsk o.a 2]).onlyL1 u) (fun t ts u ⟨acting, only⟩ => ?_)
    (s.actives c h) (s.entered c h [Opd.vsk o.a 2]) ⟨fun _ h => h, State.onlyL1_refl _⟩).2
  have active := acting t (List.mem_cons_self ..)
  have next := State.onlyL1_trans only (u.prefLane_onlyL1 t o (u.opdVals t [Opd.vsk o.a 2]))
  obtain ⟨l, rfl⟩ := only
  exact ⟨State.clear_thread hc active, ⟨_, s.entered_cur c h _, hpop⟩,
    State.plainAt_quieter (State.entered_plainAt hcur hp active) (State.quieter_same rfl rfl t),
    _, rfl, fun v hv => acting v (List.mem_cons_of_mem _ hv), next⟩

/-! #### The statements -/

theorem fences {h : Hdr} {o : FenceF} {s : State} {c : Cur} (hc : s.clear c h {} = true) :
    ∃ u : State, exec (.fence h o) s = .next (u.wordEnd h c) ∧ s.sameBeyond { u with l1 := s.l1, icache := s.icache } ∧
      (o.kind ≠ .release → 3 ≤ o.sco.rank → ∀ t ∈ s.actives c h, ∀ k ∈ u.l1, k.core ≠ (s.who t).core) ∧
      (1 ≤ o.sco.rank → ∀ t ∈ s.actives c h, ∀ k ∈ u.icache, k.cleaned.isSome = true → (t, o.sco.rank) ∈ k.fences) ∧
      (o.kind ≠ .acquire → ∀ t ∈ s.actives c h, s.accessDue t s.nextId = true → u.laneWaits { writes := true } t = true) ∧
      (o.kind ≠ .release → ∀ t ∈ s.actives c h, (s.dues t s.nextId).any (fun d => d.reads) = true → u.laneWaits {} t = true) ∧
      (o.sco = .system → ∀ t ∈ s.actives c h, s.remoteDue t s.nextId = true → u.laneWaits { writes := true } t = true) := by
  obtain ⟨u, run, fenced⟩ := fence_lanes hc o
  have entered := s.entered_same c h []
  have waits : ∀ t ∈ s.actives c h, s.markHolds t (fenceMark o s.nextId) = true → ∀ a : MemOrder, (a.writes = true ∨ o.kind ≠ .release) →
      u.laneWaits a t = true := fun t ht holds a before => by
    obtain ⟨th, thread, mark⟩ := fenced.mark t ht
    have kept := (State.markHolds_of_copies fenced.same t (fenceMark o s.nextId)).trans (State.sameBeyond_markHolds entered t _)
    rw [State.sameBeyond_markHolds entered, s.entered_nextId] at mark
    exact State.laneWaits_of_mark thread (mark holds) (kept.trans holds) (by simpa [fenceMark] using before)
  refine ⟨u, run, ?_, fun acquires wide t ht => State.sameBeyond_who entered t ▸ fenced.l1 acquires wide t ht, fenced.fetch, fun releases t ht due => ?_,
    fun acquires t ht due => ?_, fun system t ht due => ?_⟩
  · have l1 : (s.entered c h []).l1 = s.l1 := (congrArg State.l1 entered.2 :)
    have icache : (s.entered c h []).icache = s.icache := (congrArg State.icache entered.2 :)
    have same := State.sameBeyond_trans entered fenced.same
    rwa [State.copiesOf, l1, icache] at same
  · obtain ⟨d, hd⟩ := List.exists_mem_of_ne_nil _ (show s.dues t s.nextId ≠ [] by simpa [State.accessDue] using due)
    exact waits t ht (fenceMark_holds.2 (.inl ⟨d, hd, .inr releases⟩)) _ (.inl rfl)
  · obtain ⟨d, hd, reads⟩ := List.any_eq_true.1 due
    exact waits t ht (fenceMark_holds.2 (.inl ⟨d, hd, .inl reads⟩)) _ (.inr acquires)
  · exact waits t ht (fenceMark_holds.2 (.inr ⟨system, due⟩)) _ (.inl rfl)

end Sys2Proof.Machine

namespace Sys2Proof

open Machine

/-- Settles O29: FENCE acts lane by lane on copies of memory and on its own thread's fences, among which its mark stays while what it waits for is due;
PREF fills lines of L1. -/
theorem fencesAndPrefetches : Obligations.FencesAndPrefetches := by
  intro h f p s c
  refine ⟨fences, fun hc hp => ?_⟩
  obtain ⟨u, run, l, rfl⟩ := pref_lanes hc hp
  have entered := s.entered_same c h [Opd.vsk p.a 2]
  exact ⟨_, run, entered.1, congrArg (fun x : State => { x with l1 := s.l1 }) entered.2⟩

end Sys2Proof

/-! ### Accesses of global memory -/

namespace Sys2Proof.Machine

/-! #### What an access changes besides memory -/

/-- A state with another's copies of memory: in L1, under dirty sectors and in instruction fetch. -/
def State.cachesOf (u s : State) : State := { u with l1 := s.l1, dirty := s.dirty, icache := s.icache }

/-- Changes of one thread alone, from state to state, copies of memory aside. -/
theorem State.onlyThread_caches {s a u : State} {t : Tid} {F G : Thread → Thread} (h : s.onlyThread t F (a.cachesOf s))
    (h' : a.onlyThread t G (u.cachesOf a)) : s.onlyThread t (G ∘ F) (u.cachesOf s) := by
  obtain ⟨thread, others, ⟨still, rest⟩, teams, regs⟩ := h'
  exact State.onlyThread_trans h ⟨thread, others, ⟨still, congrArg (fun x : State => x.cachesOf s) rest⟩, teams, regs⟩

/-- A field of each thread that a change of one thread does not touch. -/
theorem State.onlyThread.field {α : Type} {s u : State} {t : Tid} {F : Thread → Thread} (h : s.onlyThread t F u) (g : Thread → α) (hg : ∀ th, g (F th) = g th)
    (v : Tid) : (u.thread? v).map g = (s.thread? v).map g := by
  by_cases own : v = t
  · subst own
    rw [h.thread, Option.map_map]
    exact congrArg (Option.map · _) (funext hg)
  · rw [h.others v own]

/-- From one state to another only copies of memory have changed, the order of a thread's reads and fences, and the model's own counters. -/
structure State.reorders (s : State) (t : Tid) (u : State) : Prop where
  moved : ∃ F, (∀ th, Thread.sameButOrder th (F th)) ∧ s.onlyThread t F (u.cachesOf s)
  cur : u.cur = s.cur

theorem Thread.sameButOrder_refl (th : Thread) : th.sameButOrder th := ⟨_, _, _, rfl⟩

theorem Thread.sameButOrder_trans {a b c : Thread} (h : a.sameButOrder b) (k : b.sameButOrder c) : a.sameButOrder c := by
  obtain ⟨_, _, _, rfl⟩ := h
  obtain ⟨_, _, _, rfl⟩ := k
  exact ⟨_, _, _, rfl⟩

theorem State.reorders_trans {s a u : State} {t : Tid} (h : s.reorders t a) (k : a.reorders t u) : s.reorders t u := by
  obtain ⟨⟨F, hF, first⟩, cur⟩ := h
  obtain ⟨⟨G, hG, second⟩, cur'⟩ := k
  exact ⟨⟨_, fun th => Thread.sameButOrder_trans (hF th) (hG (F th)), State.onlyThread_caches first second⟩, cur'.trans cur⟩

theorem State.reorders_refl (s : State) (t : Tid) : s.reorders t s := ⟨⟨id, Thread.sameButOrder_refl, s.onlyThread_refl t⟩, rfl⟩

/-- Only copies of memory have changed. -/
theorem State.reorders_copies {s u : State} (t : Tid) (h : u.cachesOf s = s) : s.reorders t u :=
  ⟨⟨id, Thread.sameButOrder_refl, h.symm ▸ s.onlyThread_refl t⟩, (congrArg State.cur h :)⟩

theorem State.reorders_onlyL1 {s u : State} (t : Tid) (h : s.onlyL1 u) : s.reorders t u := by
  obtain ⟨l, rfl⟩ := h
  exact State.reorders_copies t rfl

/-- Only the order of the thread's own reads and fences has changed. -/
theorem State.reorders_updThread (s : State) (t : Tid) {f : Thread → Thread} (hf : ∀ th, Thread.sameButOrder th (f th)) : s.reorders t (s.updThread t f) :=
  ⟨⟨f, hf, s.onlyThread_updThread t fun th => by obtain ⟨_, _, _, e⟩ := hf th; rw [e]; rfl⟩, rfl⟩

theorem State.saw_reorders (s : State) (t : Tid) (m : Nat) (orders : Bool) : s.reorders t (s.saw t m orders) :=
  s.reorders_updThread t fun _ => ⟨_, _, _, rfl⟩

theorem State.fenced_reorders (s : State) (t : Tid) (m : FenceMark) : s.reorders t (s.fenced t m) :=
  s.reorders_updThread t fun _ => ⟨_, _, _, rfl⟩

theorem State.uncache_reorders (s : State) (t : Tid) (leaf : DWord) (pa n : Nat) : s.reorders t (s.uncache leaf pa n) := by
  unfold State.uncache
  split
  · exact State.reorders_copies t rfl
  · exact s.reorders_refl t

theorem State.reorders_ite {s a b : State} {t : Tid} {p : Prop} [Decidable p] (h : s.reorders t a) (k : s.reorders t b) : s.reorders t (if p then a else b) := by
  split
  · exact h
  · exact k

/-- The thread's later reads may not precede its earlier ones. -/
theorem State.floor_reorders (s : State) (t : Tid) : s.reorders t (s.updThread t fun th => { th with floor := max th.floor th.seen }) :=
  s.reorders_updThread t fun _ => ⟨_, _, _, rfl⟩

/-- An access's own order (R215, R220). -/
theorem State.ordered_reorders (s : State) (t : Tid) (o : MOrd) (c : Sco) (p : Place) (n : Nat) : s.reorders t (s.ordered t o c p n) := by
  have fetched : ∀ u : State, u.reorders t (u.fencedBy t c.rank) := fun u => State.reorders_copies t rfl
  exact State.reorders_ite (s.reorders_refl t) (State.reorders_trans (State.reorders_ite (s.floor_reorders t) (s.reorders_refl t))
    (State.reorders_ite (State.reorders_trans (fetched _) (State.fenced_reorders _ t _)) (State.fenced_reorders _ t _)))

/-- What an access acquires (R209, R215): the thread that acts is the lane's own. -/
theorem State.acquireAt_reorders (s : State) {w : Who} {t : Tid} (own : w.tid = t) (leaf : DWord) (acq : Acq) : s.reorders t (s.acquireAt w leaf acq) := by
  subst own
  have emptied : ∀ u : State, u.reorders w.tid (u.invalL1 w.core) := fun u => State.reorders_copies w.tid rfl
  exact State.reorders_ite (s.reorders_refl _) (State.reorders_trans (State.reorders_ite (s.floor_reorders _) (s.reorders_refl _))
    (State.reorders_ite (emptied _) (State.reorders_refl _ _)))

/-- The model's own counters, and those of monitors, are of no thread. -/
theorem State.counters_reorders (s : State) (t : Tid) (ms : List Monitor) (n : Nat) : s.reorders t { s with monitors := ms, nextId := n } :=
  ⟨⟨id, Thread.sameButOrder_refl, by rw [Option.map_id]; rfl, fun _ _ => rfl, ⟨rfl, rfl⟩, rfl, fun _ _ _ => rfl⟩, rfl⟩

/-- A load's latency is counted in monitors alone (R374). -/
theorem State.loadEvent_reorders (s : State) (t : Tid) : s.reorders t (s.loadEvent t) := by
  have counts : ∃ ms, s.loadEvent t = { s with monitors := ms, nextId := s.nextId + 1 } := by
    unfold State.loadEvent
    dsimp only
    split <;> exact ⟨_, rfl⟩
  obtain ⟨ms, e⟩ := counts
  exact e ▸ s.counters_reorders t ms _

section
variable {s u : State} {t : Tid} (h : s.reorders t u)
include h

theorem State.reorders.beyond : s.sameBeyond (u.cachesOf s) := by
  obtain ⟨⟨F, -, only⟩, -⟩ := h
  exact only.same

theorem State.reorders.teams : u.teams.map Team.unthreaded = s.teams.map Team.unthreaded := by
  obtain ⟨⟨F, -, only⟩, -⟩ := h
  exact only.teams

theorem State.reorders.regs (v : Tid) (r : Reg) (j : Nat) : u.regVal v r j = s.regVal v r j := by
  obtain ⟨⟨F, -, only⟩, -⟩ := h
  exact only.regs v r j

theorem State.reorders.mem : u.mem = s.mem := (congrArg State.mem h.beyond.2 :)

theorem State.reorders.readPhys (pa n : Nat) : u.readPhys pa n = s.readPhys pa n := by rw [State.readPhys, h.mem]; rfl

theorem State.reorders.marked (pa n : Nat) : u.marked pa n = s.marked pa n := by
  have ue : u.ue = s.ue := (congrArg State.ue h.beyond.2 :)
  rw [State.marked, ue, State.marked]

/-- A field of each thread that an order does not touch. -/
theorem State.reorders.thread {α : Type} (g : Thread → α) (hg : ∀ a b, Thread.sameButOrder a b → g b = g a) (v : Tid) :
    (u.thread? v).map g = (s.thread? v).map g := by
  obtain ⟨⟨F, hF, only⟩, -⟩ := h
  exact only.field g (fun th => hg th _ (hF th)) v

end

/-- From one state to another every team but for its threads, the launches and the issue set stand, and each thread's predicates and outstanding results. -/
structure State.keepsRecords (s u : State) : Prop where
  teams : u.teams.map Team.unthreaded = s.teams.map Team.unthreaded
  launches : u.launches = s.launches
  cur : u.cur = s.cur
  preds : ∀ v, (u.thread? v).map (fun th => th.preds) = (s.thread? v).map fun th => th.preds
  longs : ∀ v, (u.thread? v).map (fun th => th.longs) = (s.thread? v).map fun th => th.longs

theorem State.keepsRecords_trans {s a u : State} (h : s.keepsRecords a) (k : a.keepsRecords u) : s.keepsRecords u :=
  ⟨k.teams.trans h.teams, k.launches.trans h.launches, k.cur.trans h.cur, fun v => (k.preds v).trans (h.preds v), fun v => (k.longs v).trans (h.longs v)⟩

theorem State.reorders.records {s u : State} {t : Tid} (h : s.reorders t u) : s.keepsRecords u where
  teams := h.teams
  launches := (congrArg State.launches h.beyond.2 :)
  cur := h.cur
  preds := h.thread _ fun _ _ ⟨_, _, _, e⟩ => by rw [e]
  longs := h.thread _ fun _ _ ⟨_, _, _, e⟩ => by rw [e]

/-- The team of a lane: it runs as what it ran as, with the commit buffer that it had. -/
theorem State.keepsRecords.team {s u : State} (h : s.keepsRecords u) {k : Nat} {tm : Team} (htm : s.team? k = some tm) :
    ∃ y, u.team? k = some y ∧ y.commit = tm.commit ∧ u.isTwin y = s.isTwin tm := by
  obtain ⟨y, hy, e⟩ := Option.map_eq_some_iff.1 ((State.unthreaded_team h.teams k).trans (congrArg _ htm))
  have commit : y.commit = tm.commit := (congrArg Team.commit e : y.unthreaded.commit = tm.unthreaded.commit)
  have launch : y.launch = tm.launch := (congrArg Team.launch e : y.unthreaded.launch = tm.unthreaded.launch)
  have index : y.index = tm.index := (congrArg Team.index e : y.unthreaded.index = tm.unthreaded.index)
  refine ⟨y, hy, commit, ?_⟩
  simp only [State.isTwin, State.descOf, State.launchOf, State.launch?, h.launches, launch, index]

/-- Registers that can be written lie in what a team holds besides its threads. -/
theorem State.regVal_of_unthreaded {s u : State} (teams : u.teams.map Team.unthreaded = s.teams.map Team.unthreaded) (launches : u.launches = s.launches)
    (v : Tid) {r : Reg} {j : Nat} (hr : Reg.file? r j ≠ none) : u.regVal v r j = s.regVal v r j := by
  have read : ∀ a : State, a.launches = s.launches → a.regVal v r j = match (a.team? v.team).map Team.unthreaded with
      | some x => (match x.group? v.group with | some g => s.regOf v x g r j | none => 0)
      | none => 0 := fun a la => by
    unfold State.regVal State.group?
    cases a.team? v.team with
    | none => rfl
    | some x =>
      have group : x.unthreaded.group? v.group = (x.group? v.group).map fun g => { g with threads := [] } := List.find?_map ..
      simp only [Option.bind_some, Option.map_some, group]
      cases x.group? v.group with
      | none => rfl
      | some g =>
        have base : (a.descOf x).winBase x v.group = (s.descOf x.unthreaded).winBase x.unthreaded v.group := by
          have desc : a.descOf x = s.descOf x.unthreaded := by simp only [State.descOf, State.launchOf, State.launch?, la]; rfl
          rw [desc]
          simp only [KDesc.winBase, Team.unthreaded, List.filter_map, List.map_map]
          rfl
        cases r with
        | v i => simp only [State.regOf, KDesc.laneAddr, base]; rfl
        | s i | h i => rfl
        | _ => exact absurd rfl hr
  rw [read u launches, read s rfl, State.unthreaded_team teams]

/-! #### Translation of a page of this module -/

/-- A leaf's RM bit is not one of those that an access sets (R203). -/
theorem leafRm_or_dirty (l : DWord) : leafRm (l ||| 0x8000000000000000) = leafRm l := by simp [leafRm]

theorem leafRm_or_accessed (l : DWord) : leafRm (l ||| 0x4000000000000000) = leafRm l := by simp [leafRm]

theorem State.setDirty_rm {s u : State} {core : Option Nat} {ctx : Nat} {x y : Xlat} {p : Perm} (h : s.setDirty core ctx x p = (.ok y, u)) :
    leafRm y.leaf = leafRm x.leaf := by
  simp only [State.setDirty] at h
  split at h
  · split at h
    · cases h
    · split at h
      · cases h
      · cases h
        exact leafRm_or_dirty x.leaf
  · cases h
    rfl

/-- Where a choice gives a result, so does one whose alternatives give it wherever those of the first do. -/
theorem ite_eq_of {α : Type} {p : Prop} [Decidable p] {a b a' b' r : α} (h : (if p then a else b) = r) (ha : a = r → a' = r) (hb : b = r → b' = r) :
    (if p then a' else b') = r := by
  split at h
  · next hp => rw [if_pos hp]; exact ha h
  · next hp => rw [if_neg hp]; exact hb h

section
variable {attr attr' : Xlat → Bool} (agree : ∀ y : Xlat, leafRm y.leaf = false → attr' y = attr y) {s u : State} {ctx : Nat} {x : Xlat} {p : Perm}
  (near : leafRm x.leaf = false)
include agree near

theorem State.permit_near {core : Option Nat} {y : Xlat} (h : s.permit core ctx y p attr = (.ok x, u)) : s.permit core ctx y p attr' = (.ok x, u) := by
  have same : leafRm y.leaf = false → s.permit core ctx y p attr' = s.permit core ctx y p attr := fun hy => by
    rw [State.permit, State.permit, agree y hy]
  have rm : leafRm y.leaf = leafRm x.leaf := by
    rw [State.permit] at h
    split at h
    · cases h
    · split at h
      · exact (State.setDirty_rm h).symm
      · cases h
  exact (same (rm.trans near)).trans h

theorem State.walked_near {va : Nat} (h : s.walked ctx va p attr = (.ok x, u)) : s.walked ctx va p attr' = (.ok x, u) := by
  rw [State.walked] at h ⊢
  cases hw : s.walk ctx va with
  | error e => rw [hw] at h; cases h
  | ok y =>
    simp only [hw] at h ⊢
    have rm : leafRm y.leaf = leafRm x.leaf := by
      split at h
      · cases h
      · split at h
        · cases h
          exact (leafRm_or_accessed y.leaf).symm
        · cases h
    rw [agree y (rm.trans near)]
    exact h

theorem State.translateFresh_near {core va : Nat} (h : s.translateFresh core ctx va p attr = (.ok x, u)) :
    s.translateFresh core ctx va p attr' = (.ok x, u) := by
  rw [State.translateFresh] at h ⊢
  split at h
  · cases h
  · next y a walked =>
    rw [State.walked_near agree ((State.setDirty_rm h).symm.trans near) walked]
    exact h

theorem State.translate_near {core va : Nat} (h : s.translate core ctx va p attr = (.ok x, u)) : s.translate core ctx va p attr' = (.ok x, u) := by
  rw [State.translate] at h ⊢
  split at h
  · cases h
  · next inRange =>
    rw [if_neg inRange]
    cases hf : s.tlb.find? fun t => t.serves core ctx va with
    | none =>
      rw [hf] at h
      exact State.translateFresh_near agree near h
    | some e =>
      simp only [hf] at h ⊢
      exact ite_eq_of h (State.permit_near agree near) fun stale =>
        ite_eq_of stale (State.permit_near agree near) (State.translateFresh_near agree near)

end

/-- A check that asks nothing more of this module's pages passes where the plain one does. -/
theorem State.checkLane_near {s u : State} {w : Who} {va n : Nat} {p : Perm} {locks : Bool} {x : Xlat} {attr : Xlat → Bool}
    (h : s.checkLane w va n p locks = (.ok x, u)) (near : leafRm x.leaf = false) (quiet : ∀ y : Xlat, leafRm y.leaf = false → attr y = false) :
    s.checkLane w va n p locks attr = (.ok x, u) := by
  rw [State.checkLane] at h ⊢
  split at h
  · cases h
  · next aligned =>
    rw [if_neg aligned]
    split at h
    · cases h
    · next y a there =>
      have same : y = x ∧ a = u := by
        split at h
        · cases h
        · cases h; exact ⟨rfl, rfl⟩
      rw [State.translate_near (fun y hy => by rw [quiet y hy]) (same.1 ▸ near) there]
      exact h

/-! #### Bytes of one sector -/

theorem Mem.getN_drop (m : Mem) (k a n : Nat) : (Mem.getN m a n).drop k = Mem.getN m (a + k) (n - k) := by
  induction k generalizing a n with
  | zero => rfl
  | succ k ih =>
    cases n with
    | zero => simp [Mem.getN]
    | succ n => rw [Mem.getN, List.drop_succ_cons, ih, Nat.add_sub_add_right, Nat.add_right_comm, Nat.add_assoc]

theorem Mem.getN_take (m : Mem) (k a n : Nat) : (Mem.getN m a n).take k = Mem.getN m a (min k n) := by
  induction n generalizing k a with
  | zero => simp [Mem.getN]
  | succ n ih =>
    cases k with
    | zero => simp [Mem.getN]
    | succ k => rw [Mem.getN, List.take_succ_cons, ih, Nat.succ_min_succ, Mem.getN]

/-- A zero row is made of whole sectors. -/
theorem zeroRow_sector (pa : Nat) : zeroRow (32 * (pa / 32)) = zeroRow pa := by
  have low : 32 * (pa / 32) < 0x10000000000 ↔ pa < 0x10000000000 := by omega
  have row : 32 * (pa / 32) / 2 ^ 20 = pa / 2 ^ 20 := by omega
  rw [zeroRow, zeroRow, row, decide_eq_decide.2 low]

/-- Bytes that lie in one sector are bytes of that sector. -/
theorem State.readPhys_sector (s : State) {pa n : Nat} (fits : pa % 32 + n ≤ 32) :
    ((s.readPhys (32 * (pa / 32)) 32).drop (pa % 32)).take n = s.readPhys pa n := by
  rw [State.readPhys, State.readPhys, zeroRow_sector]
  split
  · rw [List.drop_replicate, List.take_replicate]
    congr 1
    omega
  · rw [Mem.getN_drop, Mem.getN_take, Nat.div_add_mod, Nat.min_eq_left (by omega)]

/-- An aligned access of an access width lies in one sector. -/
theorem Wid.in_sector (w : Wid) {pa : Nat} (aligned : pa % w.bytes = 0) : pa % 32 + w.bytes ≤ 32 := by
  cases w <;> simp only [Wid.bytes] at * <;> omega

/-! #### A lane's load -/

theorem State.fillL1_onlyL1 (s : State) (core q : Nat) : s.onlyL1 (s.fillL1 core q) := by
  unfold State.fillL1
  split <;> exact ⟨_, rfl⟩

/-- A load of a page that L1 may hold gives what the home slice holds, where the core's copy is as that. -/
theorem State.loadL1_current {s : State} {core pa n : Nat} (now : s.l1Current core pa) (fits : pa % 32 + n ≤ 32) (t : Tid) (fill : Bool) :
    ∃ m u, s.loadL1 core t pa n fill = (some (s.readPhys pa n, m), u) ∧ s.onlyL1 u := by
  unfold State.loadL1
  dsimp only
  cases hf : s.l1.find? fun e => decide (e.core = core ∧ e.sector = pa / 32) with
  | none =>
    simp only [State.readPhys_sector s fits]
    refine ⟨_, _, rfl, ?_⟩
    split
    · exact s.fillL1_onlyL1 core (pa / 32)
    · exact s.onlyL1_refl
  | some e =>
    obtain ⟨hcore, hsector⟩ := of_decide_eq_true (List.find?_some hf :)
    obtain ⟨bytes, good⟩ := now e (List.mem_of_find?_eq_some hf) hcore hsector
    simp only [bytes, good, State.readPhys_sector s fits, Bool.false_eq_true, if_false, if_true]
    have either : ∀ late : Bool, ∃ m u, (if late = true then (some (s.readPhys pa n, s.nextId), s) else (some (s.readPhys pa n, e.stamp), s)) =
        (some (s.readPhys pa n, m), u) ∧ s.onlyL1 u := fun late => by cases late <;> exact ⟨_, _, rfl, s.onlyL1_refl⟩
    exact either _

theorem State.barL1_reorders (s : State) (t : Tid) (core : Nat) (v : Tid) (q : Nat) : s.reorders t (s.barL1 core v q) := State.reorders_copies t rfl

/-- What an access acquires leaves fewer copies in L1 at most. -/
theorem State.mem_l1_acquireAt {s : State} {w : Who} {leaf : DWord} {acq : Acq} {k : L1Sector} (hk : k ∈ (s.acquireAt w leaf acq).l1) : k ∈ s.l1 := by
  have thread : ∀ b : Bool, (if b = true then s.updThread w.tid fun th => { th with floor := max th.floor th.seen } else s).l1 = s.l1 := fun b => by
    split <;> rfl
  unfold State.acquireAt at hk
  split at hk
  · exact hk
  · dsimp only at hk
    split at hk
    · exact thread _ ▸ (List.mem_filter.1 hk).1
    · exact thread _ ▸ hk

/-- The thread that a lane's access is made by. -/
theorem State.who_tid {s : State} {t : Tid} {tm : Team} (htm : s.team? t.team = some tm) (lane : t.lane < 64) : (s.who t).tid = t := by
  have key : tm.key = t.team := of_decide_eq_true (List.find?_some htm :)
  have group : (64 * t.group + t.lane) / 64 = t.group := by omega
  have last : (64 * t.group + t.lane) % 64 = t.lane := by omega
  simp only [State.who, htm, Who.tid, key, group, last]

theorem State.who_team {s : State} {t : Tid} {tm : Team} (htm : s.team? t.team = some tm) : (s.who t).team = t.team := by
  have key : tm.key = t.team := of_decide_eq_true (List.find?_some htm :)
  simp only [State.who, htm, key]

/-- A load in ordinary conditions reads the bytes of memory and moves its thread's reads on. -/
theorem State.loadLane_reads {e : State} {t : Tid} {va n : Nat} {x : Xlat} (lane : t.lane < 64) (meets : e.reaches t va n .load x)
    (now : e.l1Current (e.who t).core x.pa) (fits : x.pa % 32 + n ≤ 32) (acq : Acq) (fill : Bool) :
    ∃ a, e.loadLane (e.who t) va n acq fill true = (.ok (e.readPhys x.pa n), a) ∧ e.reorders t a := by
  obtain ⟨check, near, clean, -, tm, htm, empty, -⟩ := meets
  have own := State.who_tid htm lane
  have acquires := e.acquireAt_reorders own x.leaf acq
  obtain ⟨y, hy, commit, -⟩ := acquires.records.team htm
  simp only [State.loadLane, check, near, (acquires.marked _ _).trans clean, State.who_team htm, own, hy, commit.trans empty, Bool.false_eq_true, if_false,
    overlay, List.foldl_nil]
  split
  · have copies : (e.acquireAt (e.who t) x.leaf acq).l1Current (e.who t).core x.pa := fun k hk => by
      rw [acquires.readPhys]
      exact now k (State.mem_l1_acquireAt hk)
    obtain ⟨m, u, load, only⟩ := State.loadL1_current copies fits t fill
    rw [load, acquires.readPhys]
    exact ⟨_, rfl, State.reorders_trans (State.reorders_trans acquires (State.reorders_onlyL1 t only)) (u.saw_reorders t _ _)⟩
  · have uncached := State.reorders_trans acquires (State.uncache_reorders _ t x.leaf x.pa n)
    have barred := State.reorders_trans uncached (State.barL1_reorders _ t (e.who t).core t (x.pa / 32))
    rw [barred.readPhys]
    exact ⟨_, rfl, State.reorders_trans barred (State.saw_reorders _ t _ _)⟩

/-! #### A lane's store and atomic -/

theorem State.keepsRecords_refl (s : State) : s.keepsRecords s := ⟨rfl, rfl, rfl, fun _ => rfl, fun _ => rfl⟩

/-- Where teams stand every record does. -/
theorem State.keepsRecords_of_eq {s u : State} (teams : u.teams = s.teams) (launches : u.launches = s.launches) (cur : u.cur = s.cur) : s.keepsRecords u := by
  have thread : ∀ v, u.thread? v = s.thread? v := fun v => by simp only [State.thread?, State.group?, State.team?, teams]
  exact ⟨by rw [teams], launches, cur, fun v => by rw [thread], fun v => by rw [thread]⟩

/-- A thread that wakes keeps its predicates and its outstanding results. -/
theorem Thread.unpark_keeps (th : Thread) (now : Nat) (p : Park → Bool) :
    (th.unpark now p).lane = th.lane ∧ (th.unpark now p).preds = th.preds ∧ (th.unpark now p).longs = th.longs := by
  unfold Thread.unpark
  split <;> exact ⟨rfl, rfl, rfl⟩

theorem State.wakeTeam_records (s : State) (k : Nat) (p : Park → Bool) : s.keepsRecords (s.wakeTeam k p) := by
  have steady := s.wakeTeam_steady k p
  have field : ∀ {α : Type} (g : Thread → α), (∀ th now, g (Thread.unpark th now p) = g th) → ∀ v, ((s.wakeTeam k p).thread? v).map g = (s.thread? v).map g := by
    intro α g hg v
    unfold State.wakeTeam
    split
    · rfl
    · have remap : (s.updTeam k fun t => { t with groups := t.groups.map fun g => { g with threads := g.threads.map fun th => th.unpark s.clk.acycle p } }) =
          s.remap fun j _ th => if j = k then th.unpark s.clk.acycle p else th := by
        simp only [State.updTeam, updWhere, State.remap]
        congr 1
        refine List.map_congr_left fun x _ => ?_
        by_cases hx : x.key = k
        · simp only [hx, decide_true, if_true, Team.remap]
        · simp only [hx, decide_false, Bool.false_eq_true, if_false, Team.remap_id]
      refine (congrArg (Option.map g) ((congrArg (State.thread? · v) remap).trans (s.thread?_remap (fun j n th => ?_) v))).trans ?_
      · split
        · exact (th.unpark_keeps _ p).1
        · rfl
      · rw [Option.map_map]
        refine congrArg (Option.map · _) (funext fun th => ?_)
        simp only [Function.comp]
        split
        · exact hg th _
        · rfl
  exact ⟨s.wakeTeam_unthreaded k p, steady.launches, steady.cur, field _ fun th now => (th.unpark_keeps now p).2.1,
    field _ fun th now => (th.unpark_keeps now p).2.2⟩

theorem State.wakeAll_records (s : State) (p : Park → Bool) : s.keepsRecords (s.wakeAll p) :=
  List.foldlRecOn s.teams _ s.keepsRecords_refl fun u kept x _ => State.keepsRecords_trans kept (u.wakeTeam_records x.key p)

theorem State.wakeAll_mem (s : State) (p : Park → Bool) : (s.wakeAll p).mem = s.mem :=
  foldl_keeps (f := fun (s : State) (x : Team) => s.wakeTeam x.key p) (p := fun s : State => s.mem) (fun s x => by unfold State.wakeTeam; split <;> rfl)
    s.teams s

theorem State.wakeSectors_records (s : State) (pa n : Nat) : s.keepsRecords (s.wakeSectors pa n) := s.wakeAll_records _

/-- What memory holds after bytes have been written at a physical address: a zero row takes none (R306). -/
def State.memWith (s : State) (pa : Nat) (bs : List Byte) : Mem := if zeroRow pa then s.mem else Mem.setN s.mem pa bs

theorem State.memWith_nil (s : State) (pa : Nat) : s.memWith pa [] = s.mem := by
  unfold State.memWith
  split <;> rfl

/-- From one state to another bytes have been written at a physical address, and threads that wait for them have woken. -/
structure State.puts (s : State) (pa : Nat) (bs : List Byte) (u : State) : Prop where
  mem : u.mem = s.memWith pa bs
  records : s.keepsRecords u

theorem State.noteOld_copies (s : State) (pa : Nat) (bs : List Byte) (storer : Option Tid) : (s.noteOld pa bs storer).cachesOf s = s := by
  unfold State.noteOld
  dsimp only
  split <;> rfl

/-- A write at its home slice (R208, R245). -/
theorem State.writePhys_puts (s : State) (ctx : Nat) (keep : Bool) (pa : Nat) (bs : List Byte) (storer : Option Tid) :
    s.puts pa bs (s.writePhys ctx keep pa bs storer) := by
  have sunk : s.keepsRecords (s.sink ctx) := State.keepsRecords_of_eq rfl rfl rfl
  unfold State.writePhys
  split
  · next empty =>
    rw [List.isEmpty_iff.1 empty]
    exact ⟨(s.memWith_nil pa).symm, s.keepsRecords_refl⟩
  · dsimp only
    split
    · next row => exact ⟨by rw [State.memWith, if_pos row]; rfl, sunk⟩
    · next row =>
      generalize hd : (if keep = true then (s.sink ctx).noteDirty pa bs.length else (s.sink ctx).cleanSectors (pa / 32) ((pa + bs.length - 1) / 32)) = d
      have dirtied : d.cachesOf s = (s.sink ctx).cachesOf s := by
        subst hd
        split <;> rfl
      have noted : (d.noteOld pa bs storer).cachesOf s = (s.sink ctx).cachesOf s :=
        (congrArg (State.cachesOf · s) (d.noteOld_copies pa bs storer)).trans dirtied
      have mem : (d.noteOld pa bs storer).mem = s.mem := (congrArg State.mem noted :)
      refine ⟨(State.wakeAll_mem _ _).trans ?_, State.keepsRecords_trans ?_ (State.wakeSectors_records _ pa bs.length)⟩
      · rw [State.memWith, if_neg row]
        exact congrArg (Mem.setN · pa bs) mem
      · exact State.keepsRecords_of_eq (congrArg State.teams noted :) (congrArg State.launches noted :) (congrArg State.cur noted :)

theorem State.storeL1_onlyL1 (s : State) (core pa : Nat) (bs : List Byte) : s.onlyL1 (s.storeL1 core pa bs) := by
  unfold State.storeL1
  split
  · exact s.onlyL1_refl
  · exact ⟨_, rfl⟩

/-- What an order moves before a write leaves the write as it is. -/
theorem State.puts_after {s a u : State} {t : Tid} {pa : Nat} {bs : List Byte} (h : s.reorders t a) (k : a.puts pa bs u) : s.puts pa bs u :=
  ⟨by rw [k.mem, State.memWith, State.memWith, h.mem], State.keepsRecords_trans h.records k.records⟩

/-- What an order moves after a write leaves the bytes written. -/
theorem State.puts.then {s a u : State} {t : Tid} {pa : Nat} {bs : List Byte} (h : s.puts pa bs a) (k : a.reorders t u) : s.puts pa bs u :=
  ⟨k.mem.trans h.mem, State.keepsRecords_trans h.records k.records⟩

/-- A store in ordinary conditions writes its bytes. -/
theorem State.storeLane_puts {e : State} {t : Tid} {va n : Nat} {x : Xlat} (lane : t.lane < 64) (meets : e.reaches t va n .store x) {bs : List Byte}
    (full : bs.length = n) (acq : Acq) (pc word : DWord) :
    ∃ a, e.storeLane (e.who t) va bs acq pc word t true = (.ok (), a) ∧ e.puts x.pa bs a := by
  obtain ⟨check, near, clean, -, tm, htm, -, single⟩ := meets
  subst full
  have acquires := e.acquireAt_reorders (State.who_tid htm lane) x.leaf acq
  obtain ⟨y, hy, -, twin⟩ := acquires.records.team htm
  simp only [State.storeLane, check, near, (acquires.marked _ _).trans clean, State.who_team htm, hy, twin.trans single, Bool.false_and, Bool.false_eq_true,
    if_false]
  exact ⟨_, rfl, State.puts_after (State.reorders_trans acquires (State.reorders_onlyL1 t (State.storeL1_onlyL1 ..))) (State.writePhys_puts ..)⟩

/-- An atomic in ordinary conditions reads the old bytes and writes the new ones, if any. -/
theorem State.atomicLane_puts {e : State} {t : Tid} {va n : Nat} {x : Xlat} (lane : t.lane < 64) (meets : e.reaches t va n .atomic x) (act : AtomAct)
    (acq : Acq) :
    ∃ a, e.atomicLane (e.who t) va n true act acq = (.ok (e.readPhys x.pa n), a) ∧ e.puts x.pa ((act.f (e.readPhys x.pa n)).getD []) a := by
  obtain ⟨plain, near, clean, -, tm, htm, -, -⟩ := meets
  have check := State.checkLane_near (attr := fun x => leafRm x.leaf && act.remote.isNone) plain near fun y hy => by rw [hy, Bool.false_and]
  have own := State.who_tid htm lane
  have acquires := e.acquireAt_reorders own x.leaf acq
  have reads : e.reorders t (((e.acquireAt (e.who t) x.leaf acq).barL1 (e.who t).core t (x.pa / 32)).saw t (e.acquireAt (e.who t) x.leaf acq).nextId
      (ordersLater x.leaf acq)) :=
    State.reorders_trans (State.reorders_trans acquires (State.barL1_reorders ..)) (State.saw_reorders _ t _ _)
  simp only [State.atomicLane, check, near, (acquires.marked _ _).trans clean, own, acquires.readPhys, Bool.false_eq_true, if_false]
  cases act.f (e.readPhys x.pa n) with
  | none =>
    have uncached := State.reorders_trans reads (State.uncache_reorders _ t x.leaf x.pa n)
    exact ⟨_, rfl, ⟨uncached.mem.trans (e.memWith_nil x.pa).symm, State.keepsRecords_trans uncached.records (State.keepsRecords_of_eq rfl rfl rfl)⟩⟩
  | some bs =>
    exact ⟨_, rfl, State.puts_after (State.reorders_trans reads (State.reorders_onlyL1 t (State.storeL1_onlyL1 ..))) (State.writePhys_puts ..)⟩

/-! #### What a word leaves -/

/-- What a word leaves that has stored bytes in the state that it entered, where what its team holds and every predicate stand. -/
theorem State.entered_stores {s u : State} {c : Cur} {h : Hdr} {ops : List Opd} {pa : Nat} {bs : List Byte} (stored : u.mem = (s.entered c h ops).memWith pa bs)
    (records : u.teams.map Team.unthreaded = (s.entered c h ops).teams.map Team.unthreaded) (described : u.launches = (s.entered c h ops).launches)
    (preds : ∀ v, (u.thread? v).map (fun th => th.preds) = ((s.entered c h ops).thread? v).map fun th => th.preds) : storesOnly s pa bs u := by
  have same := s.entered_same c h ops
  have mem : u.mem = if zeroRow pa then s.mem else Mem.setN s.mem pa bs := by rw [stored, State.memWith, State.sameBeyond_mem same]
  have teams := records.trans (s.entered_unthreaded c h ops)
  have launches := described.trans (State.sameBeyond_launches same)
  refine ⟨fun row i hi => ?_, fun row => ?_, fun a out => ?_, fun v r j hr => State.regVal_of_unthreaded teams launches v hr,
    State.unthreaded_scratch teams, fun v => (preds v).trans (s.entered_preds c h ops v)⟩
  · rw [mem, if_neg (Bool.eq_false_iff.1 row), Mem.get_setN, if_pos (by omega), Nat.add_sub_cancel_left]
  · rw [mem, if_pos row]
  · rw [mem]
    split
    · rfl
    · rw [Mem.get_setN, if_neg (by omega)]

/-- A word that writes bytes and gives no result. -/
theorem State.puts.storesOnly {s u : State} {c : Cur} {h : Hdr} {ops : List Opd} {pa : Nat} {bs : List Byte} (put : (s.entered c h ops).puts pa bs u) :
    storesOnly s pa bs u := by
  obtain ⟨mem, teams, launches, -, preds, -⟩ := put
  exact State.entered_stores mem teams launches preds

/-- An access that adds a long result: it may have moved its thread's order before and after. -/
theorem Thread.loads_of {a b d e : Thread} {id : Nat} {regs : List LReg} {issue : Option Nat} (before : a.sameButOrder b)
    (long : d = { b with longs := b.longs ++ [{ id := id, ready := true, regs := regs, issue := issue }] }) (after : d.sameButOrder e) :
    a.loads e regs issue := by
  obtain ⟨_, _, _, rfl⟩ := before
  obtain ⟨_, _, _, rfl⟩ := after
  subst long
  exact ⟨_, _, _, _, rfl⟩

/-- An access gives its result: its thread gains one long result, and the order of its reads and fences moves on. -/
theorem State.result_loads {e a : State} {t : Tid} {d : Reg} (noQ : ∀ i, d ≠ .q i) (lead : e.leads t = true) (read : e.reorders t a) (ws : List Word) (o : MOrd)
    (c : Sco) (p : Place) (n : Nat) :
    ∃ F : Thread → Thread, (∀ th : Thread, th.loads (F th) (destRegs true d 0 ws) (if d.isS then e.issueNo else none)) ∧
      e.onlyThread t F (((a.result t true d ws).1.ordered t o c p n).cachesOf e) ∧ ((a.result t true d ws).1.ordered t o c p n).cur = e.cur := by
  obtain ⟨⟨F, hF, first⟩, cur⟩ := read
  have issue : a.issueNo = e.issueNo := by rw [State.issueNo, cur, State.issueNo]
  have leads : a.leads t = true := by rw [State.leads, cur]; exact lead
  rw [State.result_long noQ, leads]
  have long := a.onlyThread_addLong t true (destRegs true d 0 ws) d.isS
  rw [issue] at long
  obtain ⟨⟨G, hG, last⟩, cur'⟩ := State.ordered_reorders (a.addLong t true (destRegs true d 0 ws) d.isS).2 t o c p n
  refine ⟨_, fun th => ?_, State.onlyThread_caches first (State.onlyThread_caches (u := State.ordered _ t o c p n) long last), cur'.trans cur⟩
  exact Thread.loads_of (hF th) rfl (hG _)

/-! #### A word of one lane that accesses memory -/

theorem State.alone_iff (s : State) (c : Cur) (h : Hdr) (k : Checks) (t : Tid) :
    s.alone c h k t = true ↔ s.clear c h k = true ∧ s.plain [t] k.ops = true ∧ s.actives c h = [t] := by
  simp only [State.alone, Bool.and_eq_true, decide_eq_true_eq, and_assoc]

section
variable {s : State} {c : Cur} {h : Hdr} {k : Checks} {t : Tid} (ha : s.alone c h k t = true)
include ha

theorem State.alone_cur : s.cur = some c := ((State.clear_iff s c h k).1 ((State.alone_iff ..).1 ha).1).1

theorem State.alone_lane : t.lane < 64 := by
  obtain ⟨hc, -, hact⟩ := (State.alone_iff ..).1 ha
  obtain ⟨-, -, -, hok, -⟩ := (State.clear_iff s c h k).1 hc
  exact (Cur.ok_lane hok (State.actives_mem (hact ▸ List.mem_singleton_self t))).2

theorem State.alone_leads : (s.entered c h k.ops).leads t = true := State.entered_leads ((State.alone_iff ..).1 ha).2.2 _

theorem State.alone_noQ {o : Opd} (ho : o ∈ k.ops) (i : Fin 64) : o.reg ≠ .q i :=
  (State.plain_at ((State.alone_iff ..).1 ha).2.1 (List.mem_singleton_self t) o ho).1 i

/-- The pair that a lane reads from a source. -/
theorem State.alone_reads {o : Opd} (ho : o ∈ k.ops) (source : ¬(o.use = .wr ∨ o.use = .name)) :
    ((s.entered c h k.ops).readRegs t o.reg 0 o.n).1 = (List.range o.n).map fun j => s.regVal t o.reg j :=
  State.entered_reads (State.alone_cur ha) ((State.alone_iff ..).1 ha).2.1 ho source

end

/-- An access that need not wait is performed at once. -/
theorem State.access_go {s : State} {t : Tid} {x : LaneAcc} (go : s.laneWaits x.mo t (some x.place) = false) (check : State → Option Nat × State)
    (act : Acc → State → State) : s.access t x check act = act (s.accOf t) s := by
  rw [State.access, go]
  rfl

end Sys2Proof.Machine

/-! ### Loads of global memory -/

namespace Sys2Proof.Machine

/-! #### LD (R238) -/

/-- From one state to another thread t has changed as F says, every other thread stands, and so do registers and scratchpads. -/
structure State.gains (s : State) (t : Tid) (F : Thread → Thread) (u : State) : Prop where
  thread : u.thread? t = (s.thread? t).map F
  others : ∀ v, v ≠ t → u.thread? v = s.thread? v
  scratch : s.scratchKept u
  regs : ∀ v r j, u.regVal v r j = s.regVal v r j

theorem State.gains_trans {s a u : State} {t : Tid} {F G : Thread → Thread} (h : s.gains t F a) (k : a.gains t G u) : s.gains t (G ∘ F) u where
  thread := by rw [k.thread, h.thread, Option.map_map]
  others v hv := (k.others v hv).trans (h.others v hv)
  scratch := k.scratch.trans h.scratch
  regs v r j := (k.regs v r j).trans (h.regs v r j)

theorem State.gains_of_only {s a u : State} {t : Tid} {F : Thread → Thread} (h : s.onlyThread t F (u.cachesOf a)) : s.gains t F u :=
  ⟨h.thread, h.others, State.unthreaded_scratch h.teams, h.regs⟩

/-- A lane that gains a long result in the state that its word entered. -/
theorem State.gains.loadsOnly {s u : State} {c : Cur} {h : Hdr} {ops : List Opd} {t : Tid} {d : Reg} {regs : List LReg} {F : Thread → Thread} (hcur : s.cur = some c)
    (gain : ∀ th : Thread, th.loads (F th) regs (if d.isS then (s.entered c h ops).issueNo else none)) (gained : (s.entered c h ops).gains t F u) :
    s.loadsOnly c h t d regs u := by
  obtain ⟨thread, others, scratch, kept⟩ := gained
  refine ⟨?_, fun v hv => (others v hv).trans (s.entered_issued c h ops v), scratch.trans (State.unthreaded_scratch (s.entered_unthreaded c h ops)),
    fun v r j => (kept v r j).trans (State.entered_regVal hcur h ops v r j)⟩
  rw [State.entered_issued] at thread
  cases hth : s.issuedThread c h t with
  | none => exact ⟨0, 0, 0, [], by rw [thread, hth]; rfl⟩
  | some th =>
    obtain ⟨id, seen, floor, fences, e⟩ := gain th
    exact ⟨id, seen, floor, fences, by rw [thread, hth, Option.map_some, e, State.entered_shares]; rfl⟩

/-- The copies of memory are the same when a word has issued. -/
theorem State.entered_copies (s : State) (c : Cur) (h : Hdr) (ops : List Opd) (u : State) : u.cachesOf (s.entered c h ops) = u.cachesOf s := by
  have rest := (s.entered_same c h ops).2
  have l1 : (s.entered c h ops).l1 = s.l1 := (congrArg State.l1 rest :)
  have dirty : (s.entered c h ops).dirty = s.dirty := (congrArg State.dirty rest :)
  have icache : (s.entered c h ops).icache = s.icache := (congrArg State.icache rest :)
  rw [State.cachesOf, l1, dirty, icache, State.cachesOf]

theorem State.entered_readPhys (s : State) (c : Cur) (h : Hdr) (ops : List Opd) (pa n : Nat) : (s.entered c h ops).readPhys pa n = s.readPhys pa n := by
  rw [State.readPhys, State.sameBeyond_mem (s.entered_same c h ops), State.readPhys]

/-- LD's access in ordinary conditions gives its thread the bytes of memory. -/
theorem State.ldAct_loads {e : State} {t : Tid} {o : MemF} {vals : List (List Word)} {x : Xlat} (noQ : ∀ i, o.d ≠ .q i) (lead : e.leads t = true)
    (lane : t.lane < 64) (meets : e.reaches t (MemF.ea o vals) o.wid.bytes .load x) (current : e.l1Current (e.who t).core x.pa) :
    ∃ F : Thread → Thread,
      (∀ th : Thread, th.loads (F th) (destRegs true o.d 0 (wordsOf (e.readPhys x.pa o.wid.bytes))) (if o.d.isS then e.issueNo else none)) ∧
      e.onlyThread t F ((e.ldAct o vals (e.accOf t)).cachesOf e) := by
  obtain ⟨tid, now⟩ := e.accOf_now t
  obtain ⟨-, -, -, aligned, -⟩ := id meets
  obtain ⟨a, read, moved⟩ := State.loadLane_reads lane meets current (Wid.in_sector o.wid aligned) (acqOf o.ord o.sco) (decide (o.ch ≠ .bypassL1))
  have counted := State.reorders_trans moved (a.loadEvent_reorders t)
  obtain ⟨F, gain, only, -⟩ := State.result_loads noQ lead counted (wordsOf (e.readPhys x.pa o.wid.bytes)) o.ord o.sco (vaPlace (MemF.ea o vals) o.wid.bytes)
    ((a.loadEvent t).result t true o.d (wordsOf (e.readPhys x.pa o.wid.bytes))).1.nextId
  refine ⟨F, gain, ?_⟩
  have act : e.ldAct o vals (e.accOf t) = ((a.loadEvent t).result t true o.d (wordsOf (e.readPhys x.pa o.wid.bytes))).1.ordered t o.ord o.sco
      (vaPlace (MemF.ea o vals) o.wid.bytes) ((a.loadEvent t).result t true o.d (wordsOf (e.readPhys x.pa o.wid.bytes))).1.nextId := by
    simp only [State.ldAct, State.loadTo, tid, now, Option.isNone_none, read, State.accGive, State.accDone, if_true]
  rw [act]
  exact only

/-- The operands of LD and GATHER. -/
def ldOps (d a : Reg) (w : Wid) : List Opd := [Opd.dvs d w.regs, Opd.vsk a 2]

theorem ld_loads {h : Hdr} {o : MemF} {s : State} {c : Cur} {t : Tid} {x : Xlat}
    (ha : s.alone c h { ops := ldOps o.d o.a o.wid, illOrder := decide (o.ord = .release) } t = true)
    (go : (s.entered c h (ldOps o.d o.a o.wid)).laneWaits (ordOf o.ord o.sco false) t
      (some (vaPlace (MemF.ea o (s.opdVals t (ldOps o.d o.a o.wid))) o.wid.bytes)) = false)
    (meets : (s.entered c h (ldOps o.d o.a o.wid)).reaches t (MemF.ea o (s.opdVals t (ldOps o.d o.a o.wid))) o.wid.bytes .load x)
    (current : (s.entered c h (ldOps o.d o.a o.wid)).l1Current ((s.entered c h (ldOps o.d o.a o.wid)).who t).core x.pa) :
    ∃ u : State, exec (.ld h o) s = .next (u.wordEnd h c) ∧ s.loadsOnly c h t o.d (destRegs true o.d 0 (wordsOf (s.readPhys x.pa o.wid.bytes))) u ∧
      s.sameBeyond (u.cachesOf s) := by
  obtain ⟨F, gain, only⟩ := State.ldAct_loads (State.alone_noQ ha (List.mem_cons_self ..)) (State.alone_leads ha) (State.alone_lane ha) meets current
  rw [State.entered_readPhys] at gain
  have performed : exec (.ld h o) s = .next (((s.entered c h (ldOps o.d o.a o.wid)).ldAct o (s.opdVals t (ldOps o.d o.a o.wid))
      ((s.entered c h (ldOps o.d o.a o.wid)).accOf t)).wordEnd h c) :=
    congrArg Host.Outcome.next ((State.byLane_lane ha _ false).trans
      (congrArg (fun u => (State.parkIf t (u, none)).wordEnd h c) (State.access_go (x := MemF.ldAcc o (s.opdVals t (ldOps o.d o.a o.wid))) go _ _)))
  exact ⟨_, performed, State.gains.loadsOnly (State.alone_cur ha) gain (State.gains_of_only only),
    s.entered_copies c h _ _ ▸ State.sameBeyond_trans (s.entered_same c h _) only.same⟩

/-! #### GATHER (R240, R243) -/

theorem State.unthreaded_masks {s u : State} (h : u.teams.map Team.unthreaded = s.teams.map Team.unthreaded) (t : Tid) :
    (u.group? t).map (fun y => y.masks) = (s.group? t).map fun y => y.masks := by
  have read : ∀ a : State, (a.group? t).map (fun y => y.masks) = ((a.team? t.team).map Team.unthreaded).bind fun x => (x.group? t.group).map fun y => y.masks :=
    fun a => by
      unfold State.group?
      cases a.team? t.team with
      | none => rfl
      | some x =>
        have group : x.unthreaded.group? t.group = (x.group? t.group).map fun g => { g with threads := [] } := List.find?_map ..
        simp only [Option.bind_some, Option.map_some, group, Option.map_map, Function.comp_def]
  rw [read, read, State.unthreaded_team h]

/-- Enrolling a lane in a mask changes no thread, no register and no scratchpad. -/
theorem State.enrol_gains (s : State) (t : Tid) (m : Nat) : s.gains t id (s.enrol t m) := by
  have thread : ∀ v, (s.enrol t m).thread? v = s.thread? v := fun v => by
    have kept := State.thread?_updGroup_map s t v (f := fun g => g.setMask m { g.mask m with e := (g.mask m).e ||| laneBit t.lane }) (F := id)
      (fun _ => rfl) (fun _ => (List.map_id _).symm) fun _ => rfl
    exact Eq.trans kept (by rw [Option.map_id]; exact ite_self _)
  refine ⟨by rw [thread, Option.map_id]; rfl, fun v _ => thread v, ?_, fun v r j => State.regVal_updGroup_keep s t v _ r j fun _ => ⟨rfl, rfl, rfl, rfl, rfl⟩⟩
  simp only [State.scratchKept, State.enrol, State.updGroup, State.updTeam, updWhere, List.map_map]
  refine List.map_congr_left fun y _ => ?_
  simp only [Function.comp]
  split <;> rfl

/-- A lane's mask once it has been enrolled. -/
theorem State.enrol_mask {s : State} {t : Tid} {m : Nat} (there : ∀ y, s.group? t = some y → m < y.masks.length) :
    ((s.enrol t m).group? t).map (fun y => y.mask m) = (s.group? t).map fun y => { y.mask m with e := (y.mask m).e ||| laneBit t.lane } := by
  have group := State.group?_updGroup_same s t t (fun g => g.setMask m { g.mask m with e := (g.mask m).e ||| laneBit t.lane }) (fun _ => rfl) rfl rfl
  refine (congrArg (Option.map fun y : Group => y.mask m) group).trans ?_
  cases hg : s.group? t with
  | none => rfl
  | some g => exact congrArg some (Group.mask_setMask_same (there g hg) _)

/-- What GATHER has done in its lane: it has read, or need not, and then it has enrolled the lane and given it its result. -/
theorem State.enrolled_loads {s a u : State} {c : Cur} {h : Hdr} {ops : List Opd} {t : Tid} {d : Reg} {regs : List LReg} {m : Nat} {F : Thread → Thread}
    (hcur : s.cur = some c) (there : ∀ y, s.group? t = some y → m < y.masks.length) (read : (s.entered c h ops).reorders t a)
    (gain : ∀ th : Thread, th.loads (F th) regs (if d.isS then (a.enrol t m).issueNo else none))
    (only : (a.enrol t m).onlyThread t F (u.cachesOf (a.enrol t m))) :
    s.loadsOnly c h t d regs u ∧
      (u.group? t).map (fun y => y.mask m) = (s.group? t).map (fun y => { y.mask m with e := (y.mask m).e ||| laneBit t.lane }) ∧
      ∀ i, Mem.get u.mem i = Mem.get s.mem i := by
  obtain ⟨⟨G, order, moved⟩, cur⟩ := id read
  have issue : (a.enrol t m).issueNo = (s.entered c h ops).issueNo := congrArg (Option.map fun c : Cur => c.issue) cur
  rw [issue] at gain
  have gained := State.gains_trans (State.gains_of_only moved) (State.gains_trans (a.enrol_gains t m) (State.gains_of_only only))
  have masks : (a.group? t).map (fun y => y.masks) = (s.group? t).map fun y => y.masks :=
    State.unthreaded_masks (read.teams.trans (s.entered_unthreaded c h ops)) t
  have ofMasks : ∀ {v w : State} (f : Mask → Mask), (v.group? t).map (fun y => y.masks) = (w.group? t).map (fun y => y.masks) →
      (v.group? t).map (fun y => f (y.mask m)) = (w.group? t).map fun y => f (y.mask m) := fun f same => by
    have e := congrArg (Option.map fun ms : List Mask => f (ms.getD m {})) same
    rwa [Option.map_map, Option.map_map] at e
  refine ⟨State.gains.loadsOnly hcur (fun th => ?_) gained, ?_, fun i => ?_⟩
  · obtain ⟨_, _, _, e⟩ := order th
    obtain ⟨_, _, _, _, e'⟩ := gain (G th)
    exact ⟨_, _, _, _, by rw [e] at e'; simpa [e] using e'⟩
  · refine (ofMasks id (State.unthreaded_masks only.teams t)).trans ((State.enrol_mask fun y hy => ?_).trans
      (ofMasks (fun x => { x with e := x.e ||| laneBit t.lane }) masks))
    obtain ⟨z, hz, e⟩ := Option.map_eq_some_iff.1 (masks.symm.trans (congrArg _ hy))
    have e : z.masks = y.masks := e
    exact e ▸ there z hz
  · have mem : u.mem = s.mem := (congrArg State.mem only.same.2 :).trans (read.mem.trans (State.sameBeyond_mem (s.entered_same c h ops)))
    rw [mem]

/-- GATHER's access in a lane whose address is not zero, in ordinary conditions. -/
theorem State.gatherLane_reads {e a : State} {t : Tid} {m : Nat} {d : Reg} (noQ : ∀ i, d ≠ .q i) (lead : e.leads t = true) (read : e.reorders t a)
    (ws : List Word) (o : MOrd) (c : Sco) (p : Place) (n : Nat) :
    ∃ F : Thread → Thread, (∀ th : Thread, th.loads (F th) (destRegs true d 0 ws) (if d.isS then (a.enrol t m).issueNo else none)) ∧
      (a.enrol t m).onlyThread t F (((((a.enrol t m).loadEvent t).result t true d ws).1.ordered t o c p n).cachesOf (a.enrol t m)) := by
  have leads : (a.enrol t m).leads t = true := by
    have cur : (a.enrol t m).cur = e.cur := read.cur
    rw [State.leads, cur]
    exact lead
  obtain ⟨F, gain, only, -⟩ := State.result_loads noQ leads ((a.enrol t m).loadEvent_reorders t) ws o c p n
  exact ⟨F, gain, only⟩

/-- A null lane of GATHER gains zeros (R242). -/
theorem State.gatherLane_null {e : State} {t : Tid} {m : Nat} {d : Reg} (noQ : ∀ i, d ≠ .q i) (lead : e.leads t = true) (ws : List Word) :
    ∃ F : Thread → Thread, (∀ th : Thread, th.loads (F th) (destRegs true d 0 ws) (if d.isS then (e.enrol t m).issueNo else none)) ∧
      (e.enrol t m).onlyThread t F (((e.enrol t m).result t true d ws).1.cachesOf (e.enrol t m)) := by
  have leads : (e.enrol t m).leads t = true := lead
  rw [State.result_long noQ, leads]
  refine ⟨_, fun th => ?_, (e.enrol t m).onlyThread_addLong t true (destRegs true d 0 ws) d.isS⟩
  exact ⟨_, _, _, _, rfl⟩

/-- What GATHER does in its lane. -/
def gatherLane (o : GatherF) (t : Tid) (vals : List (List Word)) (s : State) : State × Option Park :=
  if val2 vals 1 = 0 then (((s.enrol t o.mask.toNat).result t true o.d (List.replicate o.wid.regs 0)).1, none)
  else
    match s.loadLane (s.who t) (effAddr vals 1 o.off o.wid.bytes) o.wid.bytes (acqOf o.ord o.sco) true with
    | (.ok bs, s) =>
      (((((s.enrol t o.mask.toNat).loadEvent t).result t true o.d (wordsOf bs)).1).accDone (s.accOf t) o.ord o.sco
        (vaPlace (effAddr vals 1 o.off o.wid.bytes) o.wid.bytes), none)
    | (.trap e a, s) => (s.laneTrap t e a false, none)
    | (.ue a, s) => (s.laneTrap t fcMemUe a true, none)
    | (.later e k a, s) => (s.laterFault t e k a 0 [], none)

/-- GATHER is held at issue where a lane's access must wait (R243). -/
def gatherHeld (o : GatherF) (s : State) (act : List Tid) : Bool :=
  act.any fun t => s.laneWaits (ordOf o.ord o.sco false) t (some (vaPlace (effAddr [[], (s.readRegs t o.a 0 2).1] 1 o.off o.wid.bytes) o.wid.bytes))

theorem exec_gather (h : Hdr) (o : GatherF) (s : State) :
    exec (.gather h o) s = .next (s.byLane { h with marker := true }
      { ops := ldOps o.d o.a o.wid, illReg := maskIllegal o.mask, illOrder := decide (o.ord = .release) } (gatherLane o) (gatherHeld o)) := rfl

theorem gather_loads {h : Hdr} {o : GatherF} {s : State} {c : Cur} {t : Tid} {x : Xlat}
    (ha : s.alone c h { ops := ldOps o.d o.a o.wid, illReg := maskIllegal o.mask, illOrder := decide (o.ord = .release) } t = true) (marks : h.marker = true)
    (go : (s.entered c h (ldOps o.d o.a o.wid)).laneWaits (ordOf o.ord o.sco false) t
      (some (vaPlace (effAddr (s.opdVals t (ldOps o.d o.a o.wid)) 1 o.off o.wid.bytes) o.wid.bytes)) = false)
    (twelve : ∀ y, s.group? t = some y → y.masks.length = 12)
    (meets : val2 (s.opdVals t (ldOps o.d o.a o.wid)) 1 ≠ 0 →
      (s.entered c h (ldOps o.d o.a o.wid)).reaches t (effAddr (s.opdVals t (ldOps o.d o.a o.wid)) 1 o.off o.wid.bytes) o.wid.bytes .load x ∧
        (s.entered c h (ldOps o.d o.a o.wid)).l1Current ((s.entered c h (ldOps o.d o.a o.wid)).who t).core x.pa) :
    ∃ u : State, exec (.gather h o) s = .next (u.wordEnd h c) ∧
      s.loadsOnly c h t o.d (destRegs true o.d 0
        (if val2 (s.opdVals t (ldOps o.d o.a o.wid)) 1 = 0 then List.replicate o.wid.regs 0 else wordsOf (s.readPhys x.pa o.wid.bytes))) u ∧
      (u.group? t).map (fun y => y.mask o.mask.toNat) =
        (s.group? t).map (fun y => { y.mask o.mask.toNat with e := (y.mask o.mask.toNat).e ||| laneBit t.lane }) ∧
      ∀ i, Mem.get u.mem i = Mem.get s.mem i := by
  have noQ : ∀ i, o.d ≠ .q i := State.alone_noQ ha (List.mem_cons_self ..)
  have lead := State.alone_leads ha
  have there : ∀ y, s.group? t = some y → o.mask.toNat < y.masks.length := fun y hy => by
    obtain ⟨hc, -, hact⟩ := (State.alone_iff ..).1 ha
    rw [twelve y hy]
    exact State.clear_mask hc rfl (hact ▸ List.mem_singleton_self t)
  have unheld : gatherHeld o (s.entered c h (ldOps o.d o.a o.wid)) [t] = false := by
    have reads := State.alone_reads ha (o := Opd.vsk o.a 2) (by simp [ldOps]) (by simp [Opd.vsk])
    simp only [gatherHeld, List.any_cons, List.any_nil, Bool.or_false]
    exact (congrArg (fun ws => State.laneWaits _ (ordOf o.ord o.sco false) t (some (vaPlace (effAddr [[], ws] 1 o.off o.wid.bytes) o.wid.bytes))) reads).trans go
  have run : exec (.gather h o) s =
      .next ((State.parkIf t (gatherLane o t (s.opdVals t (ldOps o.d o.a o.wid)) (s.entered c h (ldOps o.d o.a o.wid)))).wordEnd h c) := by
    have hm : ({ h with marker := true } : Hdr) = h := by rw [← marks]
    rw [exec_gather, hm, State.byLane_unheld ha _ unheld]
  rw [run, gatherLane]
  split
  · obtain ⟨F, gain, only⟩ := State.gatherLane_null (m := o.mask.toNat) noQ lead (List.replicate o.wid.regs 0)
    exact ⟨_, rfl, State.enrolled_loads (State.alone_cur ha) there (State.reorders_refl _ t) gain only⟩
  · next address =>
    obtain ⟨ordinary, current⟩ := meets address
    obtain ⟨-, -, -, aligned, -⟩ := id ordinary
    obtain ⟨a, read, moved⟩ := State.loadLane_reads (State.alone_lane ha) ordinary current (Wid.in_sector o.wid aligned) (acqOf o.ord o.sco) true
    obtain ⟨tid, now⟩ := a.accOf_now t
    simp only [read, State.accDone, tid, now, Option.isNone_none, if_true, State.entered_readPhys]
    obtain ⟨F, gain, only⟩ := State.gatherLane_reads (m := o.mask.toNat) noQ lead moved (wordsOf (s.readPhys x.pa o.wid.bytes)) o.ord o.sco
      (vaPlace (effAddr (s.opdVals t (ldOps o.d o.a o.wid)) 1 o.off o.wid.bytes) o.wid.bytes) _
    exact ⟨_, rfl, State.enrolled_loads (State.alone_cur ha) there moved gain only⟩

end Sys2Proof.Machine

namespace Sys2Proof

open Machine

/-- Settles O24: a load in ordinary conditions reads the bytes of memory, whether L1 serves it or the home slice, and its thread gains them as a long
result; GATHER enrols its lane besides. -/
theorem loadsReadMemory : Obligations.LoadsReadMemory := by
  intro h o g s c t x
  refine ⟨fun ha go meets current => ?_, fun ha go twelve meets => ?_⟩
  · obtain ⟨u, run, loads, rest⟩ := ld_loads ha go meets current
    have mem : u.mem = s.mem := (congrArg State.mem rest.2 :)
    exact ⟨u, run, loads, rest, fun a => by rw [mem]⟩
  · exact gather_loads (h := { h with marker := true }) ha rfl go twelve meets

end Sys2Proof

/-! ### Stores to global memory -/

namespace Sys2Proof.Machine

/-- A commit buffer that holds nothing is not past its end. -/
theorem State.checkCommit_empty {s : State} {k : Nat} {tm : Team} (htm : s.team? k = some tm) (empty : tm.commit = []) : s.checkCommit k = s := by
  simp only [State.checkCommit, htm, empty]
  rfl

/-- ST's and SCATTER's access in ordinary conditions writes its bytes. -/
theorem State.stAct_puts {e : State} {t : Tid} {o : MemF} {vals : List (List Word)} {x : Xlat} (lane : t.lane < 64)
    (full : (dataBytes (vals.getD 0 []) o.wid.bytes).length = o.wid.bytes) (meets : e.reaches t (MemF.ea o vals) o.wid.bytes .store x) :
    e.puts x.pa (dataBytes (vals.getD 0 []) o.wid.bytes) (e.stAct o vals (e.accOf t)) := by
  obtain ⟨tid, now⟩ := e.accOf_now t
  obtain ⟨-, -, -, -, tm, htm, empty, -⟩ := id meets
  obtain ⟨a, stored, put⟩ := State.storeLane_puts lane meets full (acqOf o.ord o.sco) (e.accOf t).pc (e.accOf t).word
  have done := put.then (a.ordered_reorders t o.ord o.sco (vaPlace (MemF.ea o vals) (dataBytes (vals.getD 0 []) o.wid.bytes).length) a.nextId)
  obtain ⟨y, hy, commit, -⟩ := done.records.team htm
  have act : e.stAct o vals (e.accOf t) =
      a.ordered t o.ord o.sco (vaPlace (MemF.ea o vals) (dataBytes (vals.getD 0 []) o.wid.bytes).length) a.nextId := by
    simp only [State.stAct, State.storeFrom, tid, now, Option.isNone_none, stored, State.accDone, if_true]
    exact State.checkCommit_empty hy (commit.trans empty)
  rw [act]
  exact done

/-- The operands of ST and SCATTER. -/
def stOps (o : MemF) : List Opd := [Opd.vsk o.d o.wid.regs, Opd.vsk o.a 2]

section
variable {h : Hdr} {o : MemF} {s : State} {c : Cur} {t : Tid}
  (ha : s.alone c h { ops := stOps o, illOrder := decide (o.ord = .acquire) } t = true)
include ha

theorem scatter_lane :
    exec (.scatter h o) s = .next ((if val2 (s.opdVals t (stOps o)) 1 = 0 then s.entered c h (stOps o)
      else (s.entered c h (stOps o)).stLane t o (s.opdVals t (stOps o))).wordEnd h c) :=
  congrArg Host.Outcome.next (State.byLane_lane ha _ true)

theorem scatter_null (null : val2 (s.opdVals t (stOps o)) 1 = 0) : exec (.scatter h o) s = .next ((s.entered c h (stOps o)).wordEnd h c) := by
  rw [scatter_lane ha, if_pos null]

theorem scatter_address (address : val2 (s.opdVals t (stOps o)) 1 ≠ 0) :
    exec (.scatter h o) s = .next (((s.entered c h (stOps o)).stLane t o (s.opdVals t (stOps o))).wordEnd h c) := by
  rw [scatter_lane ha, if_neg address]

theorem st_lane : exec (.st h o) s = .next (((s.entered c h (stOps o)).stLane t o (s.opdVals t (stOps o))).wordEnd h c) :=
  congrArg Host.Outcome.next (State.byLane_lane ha _ true)

variable {x : Xlat}
  (go : (s.entered c h (stOps o)).laneWaits (ordOf o.ord o.sco true false) t (some (vaPlace (MemF.ea o (s.opdVals t (stOps o))) o.wid.bytes)) = false)
  (meets : (s.entered c h (stOps o)).reaches t (MemF.ea o (s.opdVals t (stOps o))) o.wid.bytes .store x)
include go meets

theorem stLane_stores : storesOnly s x.pa (dataBytes ((s.opdVals t (stOps o)).getD 0 []) o.wid.bytes)
    ((s.entered c h (stOps o)).stLane t o (s.opdVals t (stOps o))) := by
  have full := dataBytes_length (s.opdVals_head_length t (Opd.vsk o.d o.wid.regs) [Opd.vsk o.a 2] (by simp [Opd.vsk]))
  rw [State.stLane, State.access_go (x := MemF.stAcc o _) go]
  exact (State.stAct_puts (State.alone_lane ha) full meets).storesOnly

end

end Sys2Proof.Machine

namespace Sys2Proof

open Machine

/-- Settles O25: a store in ordinary conditions writes its bytes at its home slice, which wakes threads and touches nothing else that a thread reads; a null
lane of SCATTER does nothing. -/
theorem storesWriteMemory : Obligations.StoresWriteMemory := by
  intro h o s c t x ops e v bs ha go
  refine ⟨fun meets => ?_, scatter_null ha⟩
  have stores := stLane_stores ha go meets
  exact ⟨⟨_, st_lane ha, stores⟩, fun address => ⟨_, scatter_address ha address, stores⟩⟩

end Sys2Proof

/-! ### Atomics -/

namespace Sys2Proof.Machine

/-- A lane's team in ordinary conditions is no twin copy. -/
theorem State.reaches.single {s : State} {t : Tid} {va n : Nat} {p : Perm} {x : Xlat} (meets : s.reaches t va n p x) : s.twinTid t = false := by
  obtain ⟨-, -, -, -, tm, htm, -, single⟩ := meets
  simp only [State.twinTid, htm, single]

/-- A thread with the results of another gains what that one gains. -/
theorem longsGain_of_same {a b d : Option Thread} {regs : List LReg} {issue : Option Nat} (same : b.map (fun th => th.longs) = a.map fun th => th.longs)
    (gain : longsGain b d regs issue) : longsGain a d regs issue := by
  obtain ⟨id, e⟩ := gain
  have both := congrArg (Option.map fun ls : List LongRes => ls ++ [LongRes.mk id true regs issue]) same
  rw [Option.map_map, Option.map_map] at both
  exact ⟨id, e.trans both⟩

/-- An atomic's access in ordinary conditions writes its bytes, if any, and gives its thread the old ones. -/
theorem State.atomDo_acts {s : State} {c : Cur} {h : Hdr} {ops : List Opd} {t : Tid} {o : AtomOpd} {ea : Nat} {x : Xlat} (noQ : ∀ i, o.d ≠ .q i)
    (lead : (s.entered c h ops).leads t = true) (lane : t.lane < 64) (meets : (s.entered c h ops).reaches t ea o.ty.bytes .atomic x) (act : AtomAct) :
    let u := (s.entered c h ops).atomDo o ea act ((s.entered c h ops).accOf t)
    let old := s.readPhys x.pa o.ty.bytes
    u.mem = s.memWith x.pa ((act.f old).getD []) ∧ storesOnly s x.pa ((act.f old).getD []) u ∧
      longsGain (s.issuedThread c h t) (u.thread? t) (destRegs true o.d 0 (wordsOf old)) (c.shares [o.d]) := by
  intro u old
  obtain ⟨tid, now⟩ := (s.entered c h ops).accOf_now t
  obtain ⟨a, read, mem, records⟩ := State.atomicLane_puts lane meets act (acqOf o.ord o.sco)
  rw [State.entered_readPhys] at read mem
  have leads : a.leads t = true := by rw [State.leads, records.cur]; exact lead
  have issue : a.issueNo = (s.entered c h ops).issueNo := by rw [State.issueNo, records.cur, State.issueNo]
  obtain ⟨F, gain, only, -⟩ := State.result_loads noQ leads (a.reorders_refl t) (wordsOf old) o.ord o.sco (vaPlace ea o.ty.bytes)
    (a.result t true o.d (wordsOf old)).1.nextId
  have performed : u = (a.result t true o.d (wordsOf old)).1.ordered t o.ord o.sco (vaPlace ea o.ty.bytes) (a.result t true o.d (wordsOf old)).1.nextId := by
    simp only [u, State.atomDo, tid, now, Option.isNone_none, read, State.accGive, State.accDone, if_true, old]
  clear_value u
  subst performed
  have stored := (congrArg State.mem only.same.2 :).trans mem
  refine ⟨stored.trans ?_, State.entered_stores stored (only.teams.trans records.teams) ((congrArg State.launches only.same.2 :).trans records.launches)
    fun v => ?_, ?_⟩
  · rw [State.memWith, State.memWith, State.sameBeyond_mem (s.entered_same c h ops)]
  · refine (only.field (fun th => th.preds) (fun th => ?_) v).trans (records.preds v)
    obtain ⟨_, _, _, _, e⟩ := gain th
    rw [e]
  · rw [issue, State.entered_shares] at gain
    rw [← s.entered_issued c h ops t]
    exact longsGain_of_same (records.longs t) (longsGain_of_loads gain only.thread)

/-- An atomic's check at issue passes in ordinary conditions. -/
theorem State.checkAtom_passes {s : State} {t : Tid} {va n : Nat} {x : Xlat} (meets : s.reaches t va n .atomic x) (act : AtomAct) :
    State.checkAtom t va n act s = (none, s) := by
  obtain ⟨plain, near, -⟩ := meets
  have check := State.checkLane_near (attr := fun x => leafRm x.leaf && act.remote.isNone) plain near fun y hy => by rw [hy, Bool.false_and]
  simp only [State.checkAtom, State.checkAt, check]

theorem State.joinWave_mem (s : State) (t : Tid) (x : LaneAcc) : (s.joinWave t x).mem = s.mem := by
  unfold State.joinWave
  split
  · exact (State.ordered_reorders ..).mem.trans (s.waitLong_mem_cmds t _ _).1
  · rfl

/-- One lane of ATOM or CAS, where it is not forbidden. -/
def atomLane (sco : Sco) (o : AtomOpd) (i : Nat) (act : List (List Word) → AtomAct) (t : Tid) (vals : List (List Word)) (s : State) : State × Option Park :=
  (if s.atomForbidden t sco then s.trap t fcDetViolation else s.atomTo t o (effAddr vals i 0 1) (act vals) vals, none)

section
variable {s : State} {t : Tid} {sco : Sco} {o : AtomOpd} {i : Nat} {act : List (List Word) → AtomAct} {vals : List (List Word)} {x : Xlat}

/-- Outside deterministic mode an atomic that need not wait is performed at once (R246). -/
theorem atomLane_performs (det : (s.descOfTid t).det = false) (go : s.laneWaits (ordOf o.ord o.sco true) t (some (vaPlace (effAddr vals i 0 1) o.ty.bytes)) = false)
    (meets : s.reaches t (effAddr vals i 0 1) o.ty.bytes .atomic x) :
    atomLane sco o i act t vals s = (s.atomDo o (effAddr vals i 0 1) (act vals) (s.accOf t), none) := by
  have allowed : s.atomForbidden t sco = false := by rw [State.atomForbidden, meets.single, det]; rfl
  have performed := State.access_go (x := o.acc (effAddr vals i 0 1) vals) go (State.checkAtom t (effAddr vals i 0 1) o.ty.bytes (act vals))
    fun a s => s.atomDo o (effAddr vals i 0 1) (act vals) a
  simp only [atomLane, allowed, State.atomTo, det, performed, Bool.false_eq_true, if_false]

/-- In deterministic mode an atomic of scope team or narrower waits for its wave (R346). -/
theorem atomLane_joins (det : (s.descOfTid t).det = true) (narrow : sco.rank ≤ 2) (meets : s.reaches t (effAddr vals i 0 1) o.ty.bytes .atomic x) :
    atomLane sco o i act t vals s = (s.joinWave t (o.acc (effAddr vals i 0 1) vals), none) := by
  have allowed : s.atomForbidden t sco = false := by rw [State.atomForbidden, meets.single, det, decide_eq_false (by omega)]; rfl
  simp only [atomLane, allowed, State.atomTo, det, State.checkAtom_passes meets, Bool.false_eq_true, if_false, if_true]

/-- In deterministic mode an atomic of a wider scope traps (R256, R347). -/
theorem atomLane_traps (det : (s.descOfTid t).det = true) (wide : 2 < sco.rank) : atomLane sco o i act t vals s = (s.trap t fcDetViolation, none) := by
  have forbidden : s.atomForbidden t sco = true := by rw [State.atomForbidden, det, decide_eq_true wide, Bool.and_self, Bool.or_true]
  rw [atomLane, if_pos forbidden]

end

/-- CAS whose compare value stands writes the new one (R247). -/
theorem casAct_same {ty : ATy} {ws : List Word} {old : List Byte} (same : leNat old = leNat (bytesOf (ws.take ty.regs))) :
    (casAct ty ws).f old = some (leBytes ty.bytes (leNat (bytesOf (ws.drop ty.regs)))) := if_pos same

theorem casAct_other {ty : ATy} {ws : List Word} {old : List Byte} (other : leNat old ≠ leNat (bytesOf (ws.take ty.regs))) :
    (casAct ty ws).f old = none := if_neg other

theorem exec_atom (h : Hdr) (o : AtF) (s : State) : exec (.atom h o) s = .next (s.byLane h
    { ops := [Opd.dvs o.d o.ty.regs, Opd.vsk o.a 2, Opd.vsk o.b o.ty.regs] } (atomLane o.sco (AtF.opd o) 1 (AtF.act o)) (joint := true)) := rfl

theorem exec_cas (h : Hdr) (o : CasF) (s : State) : exec (.cas h o) s = .next (s.byLane h
    { ops := [Opd.dvs o.d o.ty.regs, Opd.vsk o.a 2, Opd.vsk o.b (2 * o.ty.regs)] } (atomLane o.sco (CasF.opd o) 1 (CasF.act o)) (joint := true)) := rfl

/-- A word of one lane that goes on. -/
theorem State.byLane_goes {s u : State} {c : Cur} {h : Hdr} {k : Checks} {t : Tid} (ha : s.alone c h k t = true)
    {f : Tid → List (List Word) → State → State × Option Park} (joint : Bool) (lane : f t (s.opdVals t k.ops) (s.entered c h k.ops) = (u, none)) :
    (.next (s.byLane h k f (joint := joint)) : Answer) = .next (u.wordEnd h c) := by
  rw [State.byLane_lane ha, lane]
  rfl

/-! #### RED (R246, R256) -/

/-- One lane of RED. -/
def redLane (o : RedF) (t : Tid) (vals : List (List Word)) (s : State) : State × Option Park :=
  if s.twinTid t || ((s.descOfTid t).det && redForbidden o.aop o.ty) then (s.trap t fcDetViolation, none)
  else (s.access t (RedF.acc o vals) (State.checkAtom t (effAddr vals 0 0 1) o.ty.bytes (RedF.act o vals)) fun a s => s.redDo o vals a, none)

theorem exec_red (h : Hdr) (o : RedF) (s : State) : exec (.red h o) s = .next (s.byLane h
    { ops := [Opd.vsk o.a 2, Opd.vsk o.b o.ty.regs], illOrder := decide (o.ord = .acquire) } (redLane o) (joint := true)) := rfl

section
variable {s : State} {t : Tid} {o : RedF} {vals : List (List Word)} {x : Xlat}

theorem redLane_performs (allowed : (s.descOfTid t).det = true → redForbidden o.aop o.ty = false)
    (go : s.laneWaits (ordOf o.ord o.sco true false) t (some (vaPlace (effAddr vals 0 0 1) o.ty.bytes)) = false)
    (meets : s.reaches t (effAddr vals 0 0 1) o.ty.bytes .atomic x) : redLane o t vals s = (s.redDo o vals (s.accOf t), none) := by
  have free : ((s.descOfTid t).det && redForbidden o.aop o.ty) = false := by
    cases hd : (s.descOfTid t).det with
    | false => rfl
    | true => rw [allowed hd]; rfl
  rw [redLane, meets.single, free, State.access_go (x := RedF.acc o vals) go]
  rfl

/-- In deterministic mode RED traps that exchanges or computes in floating point. -/
theorem redLane_traps (det : (s.descOfTid t).det = true) (other : o.aop = .exch ∨ o.ty = .f32 ∨ o.ty = .f64) :
    redLane o t vals s = (s.trap t fcDetViolation, none) := by
  have forbidden : redForbidden o.aop o.ty = true := by rw [redForbidden, ← Bool.decide_or]; exact decide_eq_true other
  rw [redLane, det, forbidden, Bool.and_self, Bool.or_true, if_pos rfl]

/-- RED's access in ordinary conditions writes its new value. -/
theorem State.redDo_puts (lane : t.lane < 64) (meets : s.reaches t (effAddr vals 0 0 1) o.ty.bytes .atomic x) :
    s.puts x.pa (leBytes o.ty.bytes (atomicNew o.aop o.ty (leNat (s.readPhys x.pa o.ty.bytes)) (opdNat vals 1))) (s.redDo o vals (s.accOf t)) := by
  obtain ⟨tid, now⟩ := s.accOf_now t
  obtain ⟨a, read, put⟩ := State.atomicLane_puts lane meets (RedF.act o vals) (acqOf o.ord o.sco)
  simp only [State.redDo, tid, now, Option.isNone_none, read, State.accDone, if_true]
  exact put.then (State.ordered_reorders ..)

end

/-! #### The statements -/

theorem atomicsReadModifyWrite : AtomicsReadModifyWrite := by
  intro h o q r s c t x
  refine ⟨fun ha det go meets => ?_, fun ha det go meets => ?_, fun ha go allowed meets => ?_⟩
  · obtain ⟨-, stores, gain⟩ := State.atomDo_acts (o := AtF.opd o) (State.alone_noQ ha (List.mem_cons_self ..)) (State.alone_leads ha) (State.alone_lane ha)
      meets (AtF.act o (s.opdVals t _))
    exact ⟨_, (exec_atom h o s).trans (State.byLane_goes ha true (atomLane_performs det go meets)), stores, gain⟩
  · obtain ⟨mem, stores, gain⟩ := State.atomDo_acts (o := CasF.opd q) (State.alone_noQ ha (List.mem_cons_self ..)) (State.alone_leads ha)
      (State.alone_lane ha) meets (CasF.act q (s.opdVals t _))
    refine ⟨_, (exec_cas h q s).trans (State.byLane_goes ha true (atomLane_performs det go meets)), gain, fun same => ?_, fun other => ?_⟩
    · change storesOnly s x.pa (((casAct q.ty _).f (s.readPhys x.pa q.ty.bytes)).getD []) _ at stores
      rwa [casAct_same same] at stores
    · change _ = s.memWith x.pa (((casAct q.ty _).f (s.readPhys x.pa q.ty.bytes)).getD []) at mem
      rw [casAct_other other] at mem
      exact mem.trans (s.memWith_nil x.pa)
  · have stores := (State.redDo_puts (State.alone_lane ha) meets).storesOnly
    rw [State.entered_readPhys] at stores
    exact ⟨_, (exec_red h r s).trans (State.byLane_goes ha true (redLane_performs allowed go meets)), stores⟩

theorem deterministicAtomics : DeterministicAtomics := by
  intro h o q r s c t x
  have waits : ∀ (ops : List Opd) (y : LaneAcc), ((s.entered c h ops).joinWave t y).mem = s.mem := fun ops y =>
    (State.joinWave_mem ..).trans (State.sameBeyond_mem (s.entered_same c h ops))
  refine ⟨fun ha det => ⟨fun narrow meets => ?_, fun wide => ?_⟩, fun ha det => ⟨fun narrow meets => ?_, fun wide => ?_⟩, fun ha det other => ?_⟩
  · exact ⟨_, (exec_atom h o s).trans (State.byLane_goes ha true (atomLane_joins det narrow meets)), rfl, waits _ _⟩
  · exact (exec_atom h o s).trans (State.byLane_goes ha true (atomLane_traps det wide))
  · exact ⟨_, (exec_cas h q s).trans (State.byLane_goes ha true (atomLane_joins det narrow meets)), rfl, waits _ _⟩
  · exact (exec_cas h q s).trans (State.byLane_goes ha true (atomLane_traps det wide))
  · exact (exec_red h r s).trans (State.byLane_goes ha true (redLane_traps det other))

end Sys2Proof.Machine

namespace Sys2Proof

open Machine

/-- Settles O26: outside deterministic mode ATOM and CAS are performed at the home slice and give the old value, in it they wait for their wave or trap; RED is
performed at once in either, or traps. -/
theorem atomics : Obligations.Atomics := ⟨atomicsReadModifyWrite, deterministicAtomics⟩

end Sys2Proof

/-! ### Contributions -/

namespace Sys2Proof.Machine

/-- One lane of REDSEQ. -/
def redseqLane (o : AtF) (t : Tid) (vals : List (List Word)) (s : State) : State × Option Park :=
  if s.twinTid t then (s.trap t fcDetViolation, none)
  else (s.access t (AtF.redseqAcc o vals) (State.checkAt t (effAddr vals 1 0 1) o.ty.bytes .atomic) fun a s => s.redseqDo o vals a, none)

/-- The operands of REDSEQ. -/
def redseqOps (o : AtF) : List Opd := [Opd.vsk o.d 2, Opd.vsk o.a 2, Opd.vsk o.b o.ty.regs]

theorem exec_redseq (h : Hdr) (o : AtF) (s : State) : exec (.redseq h o) s = .next (s.byLane h
    { ops := redseqOps o, illOrder := decide (o.ord = .acquire) } (redseqLane o) (joint := true)) := rfl

theorem redseqLane_performs {s : State} {t : Tid} {o : AtF} {vals : List (List Word)} {x : Xlat}
    (go : s.laneWaits { ordOf o.ord o.sco true false with reduces := true } t (some (vaPlace (effAddr vals 1 0 1) o.ty.bytes)) = false)
    (meets : s.reaches t (effAddr vals 1 0 1) o.ty.bytes .atomic x) : redseqLane o t vals s = (s.redseqDo o vals (s.accOf t), none) := by
  rw [redseqLane, meets.single, State.access_go (x := AtF.redseqAcc o vals) go]
  rfl

/-- A contribution is what its lane's operands say (R249). -/
structure Contrib.ofLane (k : Contrib) (o : AtF) (t : Tid) (pc : DWord) (vals : List (List Word)) : Prop where
  set : k.set = (vals.getD 0 []).getD 0 0
  idx : k.idx = (vals.getD 0 []).getD 1 0
  va : k.va = BitVec.ofNat 64 (effAddr vals 1 0 1)
  aop : k.aop = o.aop
  ty : k.ty = o.ty
  value : k.value = BitVec.ofNat 64 (opdNat vals 2)
  recips : k.recips = [t]
  pc : k.pc = pc

/-- REDSEQ's access in ordinary conditions: a contribution sets out, and beside it only the order of its thread moves on. -/
theorem State.redseqDo_sets_out {s : State} {c : Cur} {t : Tid} {o : AtF} {vals : List (List Word)} {x : Xlat} (hcur : s.cur = some c) (lane : t.lane < 64)
    (meets : s.reaches t (effAddr vals 1 0 1) o.ty.bytes .atomic x) :
    ∃ (k : Contrib) (a : State), k.ofLane o t c.pc vals ∧ s.reorders t a ∧
      ({ a with contribs := a.contribs ++ [k] } : State).reorders t (s.redseqDo o vals (s.accOf t)) := by
  obtain ⟨check, -, -, -, tm, htm, -⟩ := meets
  have acc : s.accOf t = { tid := t, pc := c.pc, word := c.word } := by rw [State.accOf, hcur]
  have acquires := s.acquireAt_reorders (State.who_tid htm lane) x.leaf (acqOf o.ord o.sco)
  have counted := State.reorders_trans acquires (State.counters_reorders _ t (s.acquireAt (s.who t) x.leaf (acqOf o.ord o.sco)).monitors
    ((s.acquireAt (s.who t) x.leaf (acqOf o.ord o.sco)).nextId + 1))
  simp only [State.redseqDo, acc, Option.isNone_none, check, if_true]
  exact ⟨_, _, ⟨rfl, rfl, rfl, rfl, rfl, rfl, rfl, rfl⟩, counted, State.ordered_reorders ..⟩

end Sys2Proof.Machine

namespace Sys2Proof

open Machine

/-- Settles O27: in ordinary conditions a contribution sets out with what its lane's operands say, and nothing that a thread reads changes. -/
theorem contributionsSetOut : Obligations.ContributionsSetOut := by
  intro h o s c t x ops e v ha go meets
  obtain ⟨k, a, told, before, after⟩ := State.redseqDo_sets_out (s.entered_cur c h ops) (State.alone_lane ha) meets
  obtain ⟨set, idx, va, aop, ty, value, recips, pc⟩ := told
  have same := s.entered_same c h ops
  have contribs : (e.redseqDo o v (e.accOf t)).contribs = s.contribs ++ [k] := by
    have now : (e.redseqDo o v (e.accOf t)).contribs = a.contribs ++ [k] := (congrArg State.contribs after.beyond.2 :)
    have moved : a.contribs = e.contribs := (congrArg State.contribs before.beyond.2 :)
    have entered : e.contribs = s.contribs := (congrArg State.contribs same.2 :)
    rw [now, moved, entered]
  have mem : (e.redseqDo o v (e.accOf t)).mem = s.mem := after.mem.trans (before.mem.trans (State.sameBeyond_mem same))
  have teams := after.teams.trans (before.teams.trans (s.entered_unthreaded c h ops))
  exact ⟨_, k, (exec_redseq h o s).trans (State.byLane_goes ha true (redseqLane_performs go meets)), contribs, mem, set, idx, va, aop, ty, value, recips, pc,
    State.unthreaded_scratch teams,
    fun w r j _ => (after.regs w r j).trans ((before.regs w r j).trans (State.entered_regVal (State.alone_cur ha) h ops w r j))⟩

end Sys2Proof

/-! ### Waits for a signal -/

namespace Sys2Proof.Machine

/-- What an access acquires and reads at its home slice leaves what instruction fetch may see (R17). -/
theorem State.acquireAt_icache (s : State) (w : Who) (leaf : DWord) (acq : Acq) : (s.acquireAt w leaf acq).icache = s.icache := by
  have thread : ∀ b : Bool, (if b = true then s.updThread w.tid fun th => { th with floor := max th.floor th.seen } else s).icache = s.icache := fun b => by
    split <;> rfl
  unfold State.acquireAt
  split
  · rfl
  · dsimp only
    split
    · exact thread _
    · exact thread _

theorem State.uncache_icache (s : State) (leaf : DWord) (pa n : Nat) : (s.uncache leaf pa n).icache = s.icache := by
  unfold State.uncache
  split <;> rfl

/-- SIGW's read in ordinary conditions gives the word of memory. -/
theorem State.sigwRead_reads {e : State} {t : Tid} {va n : Nat} {x : Xlat} (lane : t.lane < 64) (meets : e.reaches t va n .load x) (acq : Acq) :
    ∃ a, e.sigwRead t va n acq = (.ok (x.pa, leNat (e.readPhys x.pa n)), a) ∧ e.reorders t a ∧ a.icache = e.icache := by
  obtain ⟨plain, near, clean, -, tm, htm, empty, -⟩ := meets
  have check := State.checkLane_near (attr := fun x => leafRm x.leaf) plain near fun y hy => hy
  have acquires := State.reorders_trans (e.uncache_reorders t x.leaf x.pa n) (State.acquireAt_reorders _ (State.who_tid htm lane) x.leaf acq)
  have reads := State.reorders_trans (State.reorders_trans acquires (State.barL1_reorders _ t (e.who t).core t (x.pa / 32)))
    (State.saw_reorders _ t e.nextId (ordersLater x.leaf acq))
  have fetch : ((e.uncache x.leaf x.pa n).acquireAt (e.who t) x.leaf acq).icache = e.icache := (State.acquireAt_icache ..).trans (State.uncache_icache ..)
  obtain ⟨y, hy, commit, -⟩ := reads.records.team htm
  simp only [State.sigwRead, check, clean, hy, commit.trans empty, reads.readPhys, overlay, List.foldl_nil, Bool.false_eq_true, if_false]
  exact ⟨_, rfl, reads, fetch⟩

/-- The operands of SIGW. -/
def sigwOps (o : SigwF) (n : Nat) : List Opd := [Opd.vsk o.a 2, Opd.vsk o.b n] ++ (match o.res with | some r => [Opd.dvs r n] | none => [])

/-- What SIGW does in its lane. -/
def sigwLane (o : SigwF) (n : Nat) (t : Tid) (vals : List (List Word)) (s : State) : State × Option Park :=
  match s.sigwRead t (effAddr vals 0 0 1) (4 * n) (acqOf .acquire o.sco) with
  | (.ok (pa, x), s) =>
    if SCond.holds o.cond x (opdNat vals 1) then
      (match o.res with
        | some r => s.result t false r (wordsN n x)
        | none => (s, none))
    else (s, some (.sector pa))
  | (.trap e a, s) => (s.laneTrap t e a false, none)
  | (.ue a, s) => (s.laneTrap t fcMemUe a true, none)
  | (.later e k a, s) => (s.laterFault t e k a 0 [], none)

/-- SIGW is held at issue where a lane's read must wait. -/
def sigwHeld (o : SigwF) (n : Nat) (s : State) (act : List Tid) : Bool :=
  act.any fun t => s.laneWaits { reads := true } t (some (vaPlace (effAddr [(s.readRegs t o.a 0 2).1] 0 0 1) (4 * n)))

/-- The registers of SIGW's word. -/
def SigwF.regs (o : SigwF) : Nat := if o.w64 then 2 else 1

theorem exec_sigw (h : Hdr) (o : SigwF) (s : State) :
    exec (.sigw h o) s = .next (s.byLane h { ops := sigwOps o (SigwF.regs o) } (sigwLane o (SigwF.regs o)) (sigwHeld o (SigwF.regs o))) := rfl

section
variable {h : Hdr} {o : SigwF} {s : State} {c : Cur} {t : Tid} {x : Xlat} {n : Nat} (ha : s.alone c h { ops := sigwOps o n } t = true)
include ha

theorem sigw_unheld
    (go : (s.entered c h (sigwOps o n)).laneWaits { reads := true } t (some (vaPlace (effAddr (s.opdVals t (sigwOps o n)) 0 0 1) (4 * n))) = false) :
    sigwHeld o n (s.entered c h (sigwOps o n)) [t] = false := by
  have reads := State.alone_reads ha (o := Opd.vsk o.a 2) (by simp [sigwOps]) (by simp [Opd.vsk])
  simp only [sigwHeld, List.any_cons, List.any_nil, Bool.or_false]
  exact (congrArg (fun ws => State.laneWaits _ { reads := true } t (some (vaPlace (effAddr [ws] 0 0 1) (4 * n)))) reads).trans go

/-- The register that SIGW gives its word in. -/
theorem sigw_result {r : Reg} (asked : o.res = some r) {a : State} (read : (s.entered c h (sigwOps o n)).reorders t a) (words : n ≤ 2) (v : Nat) :
    ∃ u, a.result t false r (wordsN n v) = (u, none) ∧ u.mem = a.mem ∧ ∀ j, j < n → u.regVal t r j = (wordsN n v).getD j 0 := by
  obtain ⟨hc, -, hact⟩ := (State.alone_iff ..).1 ha
  have there : Opd.dvs r n ∈ sigwOps o n := by simp [sigwOps, asked]
  have length : (wordsN n v).length = n := by simp [wordsN, natPair, words]
  have dest : a.destOk t r n := State.destOk_same (s' := a.cachesOf (s.entered c h (sigwOps o n))) read.beyond
    (State.clear_dest hc (hact ▸ List.mem_singleton_self t) there (.inl rfl) (State.alone_noQ ha there) (Nat.le_refl n))
  have leads : a.leads t = true := by rw [State.leads, read.cur]; exact State.alone_leads ha
  have holds := (a.writeDest t r 0 (wordsN n v) (by rwa [length, Nat.zero_add])).1
  refine ⟨_, State.result_written dest (fun _ => leads) _, State.sameBeyond_mem (a.writeRegs_same t _), fun j hj => ?_⟩
  rw [← holds j (by rwa [length]), Nat.zero_add]

/-- SIGW's lane, its word read. -/
theorem sigwLane_reads {vals : List (List Word)} (meets : (s.entered c h (sigwOps o n)).reaches t (effAddr vals 0 0 1) (4 * n) .load x) :
    ∃ a, (s.entered c h (sigwOps o n)).reorders t a ∧ a.icache = (s.entered c h (sigwOps o n)).icache ∧
      sigwLane o n t vals (s.entered c h (sigwOps o n)) =
        if SCond.holds o.cond (leNat (s.readPhys x.pa (4 * n))) (opdNat vals 1) then
          (match o.res with
            | some r => a.result t false r (wordsN n (leNat (s.readPhys x.pa (4 * n))))
            | none => (a, none))
        else (a, some (.sector x.pa)) := by
  obtain ⟨a, read, moved, fetch⟩ := State.sigwRead_reads (State.alone_lane ha) meets (acqOf .acquire o.sco)
  refine ⟨a, moved, fetch, ?_⟩
  rw [sigwLane, read, State.entered_readPhys]

end

section
variable {h : Hdr} {o : SigwF} {s : State} {c : Cur} {t : Tid} {x : Xlat} (ha : s.alone c h { ops := sigwOps o (SigwF.regs o) } t = true)
  (go : (s.entered c h (sigwOps o (SigwF.regs o))).laneWaits { reads := true } t
    (some (vaPlace (effAddr (s.opdVals t (sigwOps o (SigwF.regs o))) 0 0 1) (4 * SigwF.regs o))) = false)
  (meets : (s.entered c h (sigwOps o (SigwF.regs o))).reaches t (effAddr (s.opdVals t (sigwOps o (SigwF.regs o))) 0 0 1) (4 * SigwF.regs o) .load x)
include ha go meets

theorem sigw_completes
    (met : SCond.holds o.cond (leNat (s.readPhys x.pa (4 * SigwF.regs o))) (opdNat (s.opdVals t (sigwOps o (SigwF.regs o))) 1) = true) :
    ∃ u : State, exec (.sigw h o) s = .next (u.wordEnd h c) ∧ u.mem = s.mem ∧
      ∀ r, o.res = some r → ∀ j, j < SigwF.regs o → u.regVal t r j = (wordsN (SigwF.regs o) (leNat (s.readPhys x.pa (4 * SigwF.regs o)))).getD j 0 := by
  obtain ⟨a, read, -, lane⟩ := sigwLane_reads ha meets
  have mem : a.mem = s.mem := read.mem.trans (State.sameBeyond_mem (s.entered_same c h _))
  rw [if_pos met] at lane
  rw [exec_sigw, State.byLane_unheld ha _ (sigw_unheld ha go), lane]
  cases asked : o.res with
  | none => exact ⟨a, rfl, mem, nofun⟩
  | some r =>
    have words : SigwF.regs o ≤ 2 := by unfold SigwF.regs; split <;> omega
    obtain ⟨u, result, same, holds⟩ := sigw_result ha asked read words (leNat (s.readPhys x.pa (4 * SigwF.regs o)))
    refine ⟨u, by simp only [result, State.parkIf], same.trans mem, fun r' hr => ?_⟩
    obtain rfl := Option.some.inj hr
    exact holds

theorem sigw_parks
    (unmet : SCond.holds o.cond (leNat (s.readPhys x.pa (4 * SigwF.regs o))) (opdNat (s.opdVals t (sigwOps o (SigwF.regs o))) 1) = false) :
    ∃ u : State, exec (.sigw h o) s = .next ((u.parkLane t (.sector x.pa)).wordEnd h c) ∧ s.sameBeyond { u with l1 := s.l1, dirty := s.dirty } := by
  obtain ⟨a, read, fetch, lane⟩ := sigwLane_reads ha meets
  rw [if_neg (Bool.eq_false_iff.1 unmet)] at lane
  rw [exec_sigw, State.byLane_unheld ha _ (sigw_unheld ha go), lane]
  have same := s.entered_same c h (sigwOps o (SigwF.regs o))
  have icache : a.icache = s.icache := fetch.trans (congrArg State.icache same.2 :)
  have rest := State.sameBeyond_trans same read.beyond
  rw [State.entered_copies, State.cachesOf, ← icache] at rest
  exact ⟨a, rfl, rest⟩

end

end Sys2Proof.Machine

namespace Sys2Proof

open Machine

/-- Settles O28: SIGW reads its word at the home slice; where the condition holds a result is written at once, and where it does not only what the read
moved has changed before the lane parks. -/
theorem signalWaits : Obligations.SignalWaits := fun _ _ _ _ _ _ ha go meets => ⟨sigw_completes ha go meets, sigw_parks ha go meets⟩

end Sys2Proof

namespace Sys2Proof.Machine

-- One theorem after another: threads for so many at once would reserve more memory than a check has.
set_option Elab.async false

/-! ### What every step keeps -/

/-- What the invariant says of a team: its key, its tokens and its barriers. -/
def Team.bone (t : Team) : Nat × List (Nat × Word) × List Barrier := (t.key, t.tokens, t.barriers)

/-- A team's token queues hold 32 tokens at most, and no barrier has counted up to its size (R259, R71, R72). -/
def boneOk (b : Nat × List (Nat × Word) × List Barrier) : Prop :=
  (∀ q, (b.2.1.filter fun x => decide (x.1 = q)).length ≤ 32) ∧ ∀ x ∈ b.2.2, 1 ≤ x.n → x.c < x.n

/-- What every step keeps, in a state whose teams all have keys of one kind. -/
structure Sound (K : Nat → Prop) (s : State) : Prop where
  mem : s.mem.wf = true
  keys : (s.teams.map fun t => t.key).Nodup
  team : ∀ t ∈ s.teams, boneOk t.bone
  known : ∀ t ∈ s.teams, K t.key

theorem sound_iff_kept (s : State) : Sound (fun _ => True) s ↔ Kept s :=
  ⟨fun h => ⟨h.mem, h.keys, h.team⟩, fun ⟨mem, keys, team⟩ => ⟨mem, keys, team, fun _ _ => trivial⟩⟩

variable {K : Nat → Prop} {s t : State}

section
variable {clk : Clocks} {boot : Boot} {dieParts : List Nat} {removing : List Nat} {mem : Mem} {dirty : List (Nat × List Byte)} {l1 : List L1Sector}
    {icache : List ICopy} {tlb : List TlbEntry} {ue : List Nat} {ueHome : List Nat} {icUe : List (Nat × Nat)} {poolUe : List (Nat × Nat)} {frameUe :
    List (Nat × Nat)} {locks : List Lock} {contexts : List Ctx} {launches : List Launch} {launchWaits : List LaunchReq} {teams : List Team} {reserves
    : List RSeg} {thaw : List (Nat × Nat × Nat)} {cmds : List Cmd} {rrots : List RrotReq} {rings : List Ring} {ringGens : List (Nat × Nat)} {renqs :
    List RenqPkt} {held : List (Nat × RenqPkt)} {hostRings : List HostRing} {hostSignals : List HostSignal} {sets : List SetEntry} {contribs : List
    Contrib} {monitors : List Monitor} {mailbox : Mailbox} {qps : List QPair} {windows : List Window} {remoteOps : List RemoteOp} {pauses : List (Nat
    × Nat × Nat)} {collChunks : List CollChunk} {ckpts : List CkptImage} {outbox : List OutMsg} {inputs : List Instr} {cur : Option Cur} {retries :
    List Tid} {turn : Nat} {nextId : Nat} {freeCtr : Nat}

/-- A change beside memory and teams. -/
theorem Sound.same (h : Sound K s) :
    Sound K ⟨clk, boot, dieParts, removing, s.mem, dirty, l1, icache, tlb, ue, ueHome, icUe, poolUe, frameUe, locks, contexts, launches, launchWaits,
        s.teams,
    reserves, thaw, cmds, rrots, rings, ringGens, renqs, held, hostRings, hostSignals, sets, contribs, monitors, mailbox, qps, windows, remoteOps,
    pauses, collChunks, ckpts, outbox, inputs, cur, retries, turn, nextId, freeCtr⟩ := ⟨h.mem, h.keys, h.team, h.known⟩

/-- A change of memory, and beside teams. -/
theorem Sound.store (h : Sound K s) (wf : mem.wf = true) :
    Sound K ⟨clk, boot, dieParts, removing, mem, dirty, l1, icache, tlb, ue, ueHome, icUe, poolUe, frameUe, locks, contexts, launches, launchWaits,
        s.teams,
    reserves, thaw, cmds, rrots, rings, ringGens, renqs, held, hostRings, hostSignals, sets, contribs, monitors, mailbox, qps, windows, remoteOps,
    pauses, collChunks, ckpts, outbox, inputs, cur, retries, turn, nextId, freeCtr⟩ := ⟨wf, h.keys, h.team, h.known⟩

/-- Teams are changed each on its own: they keep their keys, and what the invariant says of them. -/
theorem Sound.editTeams {f : Team → Team} (h : Sound K s) (key : ∀ x, (f x).key = x.key) (ok : ∀ x ∈ s.teams, boneOk x.bone → boneOk (f x).bone) :
    Sound K ⟨clk, boot, dieParts, removing, s.mem, dirty, l1, icache, tlb, ue, ueHome, icUe, poolUe, frameUe, locks, contexts, launches, launchWaits,
        s.teams.map
    f, reserves, thaw, cmds, rrots, rings, ringGens, renqs, held, hostRings, hostSignals, sets, contribs, monitors, mailbox, qps, windows, remoteOps,
    pauses, collChunks, ckpts, outbox, inputs, cur, retries, turn, nextId, freeCtr⟩ := by
  refine ⟨h.mem, ?_, ?_, ?_⟩
  · rw [List.map_map]
    exact (List.map_congr_left fun x _ => key x) ▸ h.keys
  · intro y hy
    obtain ⟨x, hx, rfl⟩ := List.mem_map.1 hy
    exact ok x hx (h.team x hx)
  · intro y hy
    obtain ⟨x, hx, rfl⟩ := List.mem_map.1 hy
    exact key x ▸ h.known x hx

/-- Teams are changed each on its own: they keep their keys, tokens and barriers. -/
theorem Sound.mapTeams {f : Team → Team} (h : Sound K s) (bone : ∀ x, (f x).bone = x.bone := by intro _; rfl) :
    Sound K ⟨clk, boot, dieParts, removing, s.mem, dirty, l1, icache, tlb, ue, ueHome, icUe, poolUe, frameUe, locks, contexts, launches, launchWaits,
        s.teams.map
    f, reserves, thaw, cmds, rrots, rings, ringGens, renqs, held, hostRings, hostSignals, sets, contribs, monitors, mailbox, qps, windows, remoteOps,
    pauses, collChunks, ckpts, outbox, inputs, cur, retries, turn, nextId, freeCtr⟩ :=
  h.editTeams (fun x => congrArg Prod.fst (bone x)) fun x _ hx => bone x ▸ hx

/-- Some teams are changed each on its own. -/
theorem Sound.updTeams {p : Team → Bool} {f : Team → Team} (h : Sound K s) (bone : ∀ x, (f x).bone = x.bone := by intro _; rfl) :
    Sound K ⟨clk, boot, dieParts, removing, s.mem, dirty, l1, icache, tlb, ue, ueHome, icUe, poolUe, frameUe, locks, contexts, launches, launchWaits,
        updWhere p f
    s.teams, reserves, thaw, cmds, rrots, rings, ringGens, renqs, held, hostRings, hostSignals, sets, contribs, monitors, mailbox, qps, windows,
    remoteOps, pauses, collChunks, ckpts, outbox, inputs, cur, retries, turn, nextId, freeCtr⟩ :=
  h.mapTeams fun x => by
    split
    · exact bone x
    · rfl

/-- Some teams are gone. -/
theorem Sound.dropTeams {p : Team → Bool} (h : Sound K s) :
    Sound K ⟨clk, boot, dieParts, removing, s.mem, dirty, l1, icache, tlb, ue, ueHome, icUe, poolUe, frameUe, locks, contexts, launches, launchWaits,
    s.teams.filter p, reserves, thaw, cmds, rrots, rings, ringGens, renqs, held, hostRings, hostSignals, sets, contribs, monitors, mailbox, qps,
    windows, remoteOps, pauses, collChunks, ckpts, outbox, inputs, cur, retries, turn, nextId, freeCtr⟩ :=
  ⟨h.mem, (List.filter_sublist.map _).nodup h.keys, fun x hx => h.team x (List.mem_of_mem_filter hx), fun x hx => h.known x
      (List.mem_of_mem_filter hx)⟩

end

theorem Sound.updTeam {k : Nat} {f : Team → Team} (h : Sound K s) (bone : ∀ x, (f x).bone = x.bone := by intro _; rfl) : Sound K (s.updTeam k f) :=
  h.updTeams bone

/-- One team's tokens and barriers change as the invariant allows. -/
theorem Sound.editTeam {k : Nat} {f : Team → Team} (h : Sound K s) (key : ∀ x, (f x).key = x.key)
    (ok : ∀ x ∈ s.teams, x.key = k → boneOk x.bone → boneOk (f x).bone) : Sound K (s.updTeam k f) := by
  refine h.editTeams (fun x => ?_) fun x hx hk => ?_
  · split
    · exact key x
    · rfl
  · split
    · exact ok x hx (of_decide_eq_true ‹_›) hk
    · exact hk

/-- The team that a key names is the one of that key. -/
theorem Sound.team_eq (h : Sound K s) {k : Nat} {a x : Team} (ha : s.team? k = some a) (hx : x ∈ s.teams) (hk : x.key = k) : x = a := by
  have hm := List.mem_of_find?_eq_some ha
  have hak : a.key = k := of_decide_eq_true (List.find?_some ha :)
  exact List.inj_on_of_nodup_map h.keys hx hm (hk.trans hak.symm)

theorem Sound.updGroup {u : Tid} {f : Group → Group} (h : Sound K s) : Sound K (s.updGroup u f) := h.updTeam
theorem Sound.updThread {u : Tid} {f : Thread → Thread} (h : Sound K s) : Sound K (s.updThread u f) := h.updGroup

theorem Sound.ite {c : Prop} [Decidable c] (ht : Sound K s) (he : Sound K t) : Sound K (if c then s else t) := by
  split
  · exact ht
  · exact he

theorem Sound.foldl {α : Type} {f : State → α → State} {l : List α} (h : Sound K s) (hf : ∀ {s a}, Sound K s → Sound K (f s a)) :
    Sound K (l.foldl f s) := by
  induction l generalizing s with
  | nil => exact h
  | cons a l ih => exact ih (hf h)

theorem Sound.foldl_snd {α β : Type} {f : β × State → α → β × State} {l : List α} {b : β} (h : Sound K s)
    (hf : ∀ {b a}, Sound K b.2 → Sound K (f b a).2) : Sound K (l.foldl f (b, s)).2 := by
  induction l generalizing b s with
  | nil => exact h
  | cons a l ih => exact ih (hf (b := (b, s)) h)

theorem Sound.getD {o : Option State} (h : Sound K s) (ho : ∀ u ∈ o, Sound K u) : Sound K (o.getD s) := by
  cases o with
  | none => exact h
  | some u => exact ho u rfl

/-! Where a function may fail, its result is said of the state that it may give. -/

theorem Sound.of_none : ∀ u ∈ (none : Option State), Sound K u := fun _ e => nomatch e
theorem Sound.of_some (h : Sound K s) : ∀ u ∈ some s, Sound K u := fun _ e => Option.some.inj e ▸ h
theorem Sound.of_none_snd {α : Type} : ∀ u ∈ (none : Option (α × State)), Sound K u.2 := fun _ e => nomatch e
theorem Sound.of_some_snd {α : Type} {x : α × State} (h : Sound K x.2) : ∀ u ∈ some x, Sound K u.2 := fun _ e => Option.some.inj e ▸ h
theorem Sound.of_next (h : Sound K s) : ∀ u, (Host.Outcome.next s : Answer) = .next u → Sound K u := fun _ e => Host.Outcome.next.inj e ▸ h

/-- The state of a pair. -/
theorem Sound.of_eq {α : Type} {r : α × State} {a : α} (h : Sound K r.2) (e : r = (a, s)) : Sound K s := by
  rw [e] at h
  exact h

theorem Sound.of_eq_fst {α : Type} {r : State × α} {a : α} (h : Sound K r.1) (e : r = (s, a)) : Sound K s := by
  rw [e] at h
  exact h

@[simp] theorem Team.bone_clearLines (x : Team) (ls : List Nat) : (x.clearLines ls).bone = x.bone := by
  unfold Team.clearLines
  induction ls generalizing x with
  | nil => rfl
  | cons l ls ih => exact ih _

/-! #### Access -/

theorem Sound.ask (h : Sound K s) : Sound K s.ask.2 := by
  unfold State.ask
  dsimp only
  exact h.same

theorem Sound.flip (h : Sound K s) : Sound K s.flip.2 := by
  unfold State.flip
  dsimp only
  exact h.ask

theorem Sound.pick {n : Nat} (h : Sound K s) : Sound K ((s.pick n).2) := by
  unfold State.pick
  dsimp only
  split
  · exact h
  · exact h.ask

theorem Sound.fresh (h : Sound K s) : Sound K s.fresh.2 := by
  unfold State.fresh
  dsimp only
  exact h.same

theorem Sound.setCur {c : Cur} (h : Sound K s) : Sound K (s.setCur c) := by
  unfold State.setCur
  exact h.same

theorem Sound.updLaunch {k : Nat} {f : Launch → Launch} (h : Sound K s) : Sound K (s.updLaunch k f) := by
  unfold State.updLaunch
  exact h.same

theorem Sound.updCtx {c : Nat} {f : Ctx → Ctx} (h : Sound K s) : Sound K (s.updCtx c f) := by
  unfold State.updCtx
  exact h.same

theorem Sound.updCmd {c : Nat} {f : Cmd → Cmd} (h : Sound K s) : Sound K (s.updCmd c f) := by
  unfold State.updCmd
  exact h.same

theorem Sound.send {m : OutMsg} (h : Sound K s) : Sound K (s.send m) := by
  unfold State.send
  exact h.same

theorem Sound.setMonitor {m : Monitor} (h : Sound K s) : Sound K (s.setMonitor m) := by
  unfold State.setMonitor
  exact h.same

theorem Sound.event {die src inst v : Nat} (h : Sound K s) : Sound K (s.event die src inst v) := by
  unfold State.event
  exact h.same

theorem Sound.mail {kind code ctx src pa va pc : Nat} {detail : List Byte} (h : Sound K s) : Sound K (s.mail kind code ctx src pa va pc detail) := by
  unfold State.mail
  dsimp only
  exact h.same

theorem Sound.sink {ctx : Nat} (h : Sound K s) : Sound K (s.sink ctx) := by
  unfold State.sink
  exact h.updCtx

theorem Sound.unhold (h : Sound K s) : Sound K s.unhold := by
  unfold State.unhold
  exact h.mapTeams

theorem Sound.wakeTeam {team : Nat} {p : Park → Bool} (h : Sound K s) : Sound K (s.wakeTeam team p) := by
  unfold State.wakeTeam
  dsimp only
  split
  · exact h
  · exact h.updTeam.same

theorem Sound.wakeAll {p : Park → Bool} (h : Sound K s) : Sound K (s.wakeAll p) := by
  unfold State.wakeAll
  exact h.foldl (fun h1 => h1.wakeTeam)

/-! #### Translate -/

theorem Sound.mailDram {ctx pa va pc home : Nat} (h : Sound K s) : Sound K (s.mailDram ctx pa va pc home) := by
  unfold State.mailDram
  split
  · exact h.mail
  · exact h.mail
  · exact h.mail

theorem Sound.mailUe {ctx pa va pc home : Nat} (h : Sound K s) : Sound K (s.mailUe ctx pa va pc home) := by
  unfold State.mailUe
  exact .ite h.mail h.same.mailDram

theorem Sound.mailPool {core ctx pc : Nat} (h : Sound K s) : Sound K (s.mailPool core ctx pc) := by
  unfold State.mailPool
  exact h.mail

theorem Sound.mailWalk {ctx va e : Nat} (h : Sound K s) : Sound K (s.mailWalk ctx va e) := by
  unfold State.mailWalk
  split
  · exact h
  · split
    · exact h.mailUe
    · exact h

theorem Sound.wakeSectors {pa n : Nat} (h : Sound K s) : Sound K (s.wakeSectors pa n) := by
  unfold State.wakeSectors
  exact h.wakeAll

theorem Sound.orEntry {a b : Nat} (h : Sound K s) : Sound K (s.orEntry a b) := by
  unfold State.orEntry
  exact (h.store (Mem.wf_setNat _ _ _ h.mem)).wakeSectors

theorem Sound.setDirty {core : Option Nat} {ctx : Nat} {x : Xlat} {p : Perm} (h : Sound K s) : Sound K ((s.setDirty core ctx x p).2) := by
  unfold State.setDirty
  dsimp only
  split
  · split
    · exact h
    · split
      · exact h
      · exact h.orEntry.same
  · exact h

theorem Sound.permit {core : Option Nat} {ctx : Nat} {x : Xlat} {p : Perm} {attr : Xlat → Bool} (h : Sound K s) : Sound K
    ((s.permit core ctx x p attr).2) := by
  unfold State.permit
  split
  · exact h
  · split
    · exact h.setDirty
    · exact h

theorem Sound.walked {ctx va : Nat} {p : Perm} {attr : Xlat → Bool} (h : Sound K s) : Sound K ((s.walked ctx va p attr).2) := by
  unfold State.walked
  split
  · exact h.mailWalk
  · split
    · exact h
    · split
      · exact h.orEntry
      · exact h

theorem Sound.translateWalk {ctx va : Nat} {p : Perm} {attr : Xlat → Bool} (h : Sound K s) : Sound K ((s.translateWalk ctx va p attr).2) := by
  unfold State.translateWalk
  split
  next e => exact h.walked.of_eq e
  next e => exact (h.walked.of_eq e).setDirty

theorem Sound.cacheLeaf {core ctx : Nat} {x : Xlat} (h : Sound K s) : Sound K (s.cacheLeaf core ctx x) := by
  unfold State.cacheLeaf
  dsimp only
  exact h.same

theorem Sound.translateFresh {core ctx va : Nat} {p : Perm} {attr : Xlat → Bool} (h : Sound K s) : Sound K ((s.translateFresh core ctx va p attr).2)
    := by
  unfold State.translateFresh
  split
  next e => exact h.same.walked.of_eq e
  next e => exact (h.same.walked.of_eq e).cacheLeaf.setDirty

theorem Sound.translate {core ctx va : Nat} {p : Perm} {attr : Xlat → Bool} (h : Sound K s) : Sound K ((s.translate core ctx va p attr).2) := by
  unfold State.translate
  dsimp only
  split
  · exact h
  · split
    · exact h.translateFresh
    · split
      · split
        · exact h.permit
        · split
          · exact h.flip.permit
          · exact h.flip.translateFresh
      · split
        · exact h.permit
        · split
          · exact h.flip.permit
          · exact h.flip.translateFresh

/-! #### Global -/

theorem Sound.noteDirty {pa n : Nat} (h : Sound K s) : Sound K (s.noteDirty pa n) := by
  unfold State.noteDirty
  dsimp only
  exact h.same

theorem Sound.cleanSectors {lo hi : Nat} (h : Sound K s) : Sound K (s.cleanSectors lo hi) := by
  unfold State.cleanSectors
  exact h.same

theorem Sound.uncache {leaf : DWord} {pa n : Nat} (h : Sound K s) : Sound K (s.uncache leaf pa n) := by
  unfold State.uncache
  exact .ite h.cleanSectors h

theorem Sound.noteOld {pa : Nat} {bs : List Byte} {storer : Option Tid} (h : Sound K s) : Sound K (s.noteOld pa bs storer) := by
  unfold State.noteOld
  dsimp only
  exact .ite h h.same

theorem Sound.writePhys {ctx : Nat} {keep : Bool} {pa : Nat} {bs : List Byte} {storer : Option Tid} (h : Sound K s) : Sound K
    (s.writePhys ctx keep pa bs storer) := by
  unfold State.writePhys
  dsimp only
  exact .ite h (.ite h.sink (((Sound.ite h.sink.noteDirty h.sink.cleanSectors).noteOld.store
      (Mem.wf_setN _ _ ((Sound.ite h.sink.noteDirty h.sink.cleanSectors).noteOld.mem))).wakeSectors))

theorem Sound.askBytes {n : Nat} (h : Sound K s) : Sound K ((s.askBytes n).2) := by
  unfold State.askBytes
  dsimp only
  exact h.ask

theorem Sound.cleanedBy {t : Tid} {rank pa n : Nat} (h : Sound K s) : Sound K (s.cleanedBy t rank pa n) := by
  unfold State.cleanedBy
  exact h.same

theorem Sound.dropInstr {rank core lo hi : Nat} (h : Sound K s) : Sound K (s.dropInstr rank core lo hi) := by
  unfold State.dropInstr
  exact h.same

theorem Sound.fencedBy {t : Tid} {rank : Nat} (h : Sound K s) : Sound K (s.fencedBy t rank) := by
  unfold State.fencedBy
  exact h.same

theorem Sound.invalL1 {core : Nat} (h : Sound K s) : Sound K (s.invalL1 core) := by
  unfold State.invalL1
  exact h.same

theorem Sound.putL1 {core line : Nat} {qs : List Nat} (h : Sound K s) : Sound K (s.putL1 core line qs) := by
  unfold State.putL1
  dsimp only
  exact h.same

theorem Sound.fillLine {core line : Nat} (h : Sound K s) : Sound K (s.fillLine core line) := by
  unfold State.fillLine
  exact h.putL1

theorem Sound.fillL1 {core q : Nat} (h : Sound K s) : Sound K (s.fillL1 core q) := by
  unfold State.fillL1
  exact .ite h.putL1 h.fillLine

theorem Sound.barL1 {core : Nat} {t : Tid} {q : Nat} (h : Sound K s) : Sound K (s.barL1 core t q) := by
  unfold State.barL1
  exact h.same

theorem Sound.saw {t : Tid} {m : Nat} {orders : Bool} (h : Sound K s) : Sound K (s.saw t m orders) := by
  unfold State.saw
  exact h.updThread

theorem Sound.loadL1 {core : Nat} {t : Tid} {pa n : Nat} {fill : Bool} (h : Sound K s) : Sound K ((s.loadL1 core t pa n fill).2) := by
  unfold State.loadL1
  dsimp only
  split
  · split
    · split
      · exact h
      · split
        · exact h
        · split
          · exact h.flip
          · exact h.flip.fillL1
    · split
      · exact h
      · split
        · exact h
        · split
          · exact h.flip
          · exact h.flip.fillL1
  · exact .ite h.fillL1 h

theorem Sound.mailCopy {core ctx pa va pc : Nat} (h : Sound K s) : Sound K (s.mailCopy core ctx pa va pc) := by
  unfold State.mailCopy
  exact h.mail

theorem Sound.storeL1 {core pa : Nat} {bs : List Byte} (h : Sound K s) : Sound K (s.storeL1 core pa bs) := by
  unfold State.storeL1
  exact .ite h h.same

theorem Sound.checkLane {w : Who} {va n : Nat} {p : Perm} {locks : Bool} {attr : Xlat → Bool} (h : Sound K s) : Sound K
    ((s.checkLane w va n p locks attr).2) := by
  unfold State.checkLane
  split
  · exact h
  · split
    next e => exact h.translate.of_eq e
    next e =>
      split
      · exact h.translate.of_eq e
      · exact h.translate.of_eq e

theorem Sound.acquireAt {w : Who} {leaf : DWord} {acq : Acq} (h : Sound K s) : Sound K (s.acquireAt w leaf acq) := by
  unfold State.acquireAt
  dsimp only
  exact .ite h (.ite ((Sound.ite h.updThread h).invalL1) (.ite h.updThread h))

theorem Sound.remoteRead {ctx n : Nat} {m : OutMsg} (h : Sound K s) : Sound K (s.remoteRead ctx n m).2 := by
  unfold State.remoteRead
  dsimp only
  split
  · exact h.send.sink.flip
  · exact (h.send.sink.flip.askBytes (n := n))

theorem Sound.remoteStore {ctx : Nat} {win : Window} {ra : DWord} {va : Nat} {bs : List Byte} {by_ : Writer} (h : Sound K s) : Sound K
    (s.remoteStore ctx win ra va bs by_) := by
  unfold State.remoteStore
  dsimp only
  exact h.fresh.send.sink.same

theorem Sound.loadLane {w : Who} {va n : Nat} {acq : Acq} {fill locks : Bool} (h : Sound K s) : Sound K ((s.loadLane w va n acq fill locks).2) := by
  unfold State.loadLane
  dsimp only
  split
  next e => exact h.checkLane.of_eq e
  next e =>
    split
    · split
      · exact (h.checkLane.of_eq e).acquireAt
      · split
        next e3 => exact (h.checkLane.of_eq e).acquireAt.remoteRead.of_eq e3
        next e3 => exact ((h.checkLane.of_eq e).acquireAt.remoteRead.of_eq e3).saw
    · split
      · exact (h.checkLane.of_eq e).acquireAt.mailUe
      · split
        · split
          next e2 => exact ((h.checkLane.of_eq e).acquireAt.loadL1.of_eq e2).saw
          next e2 => exact ((h.checkLane.of_eq e).acquireAt.loadL1.of_eq e2).mailCopy
        · exact (h.checkLane.of_eq e).acquireAt.uncache.barL1.saw

theorem Sound.commitWrite {team agent order va : Nat} {bs : List Byte} (h : Sound K s) : Sound K (s.commitWrite team agent order va bs) := by
  unfold State.commitWrite
  exact h.updTeam

theorem Sound.storeLane {w : Who} {va : Nat} {bs : List Byte} {acq : Acq} {pc word : DWord} {tid : Tid} {locks : Bool} (h : Sound K s) : Sound K
    ((s.storeLane w va bs acq pc word tid locks).2) := by
  unfold State.storeLane
  dsimp only
  split
  next e => exact h.checkLane.of_eq e
  next e =>
    split
    · split
      · exact (h.checkLane.of_eq e).acquireAt.commitWrite
      · split
        · split
          · exact (h.checkLane.of_eq e).acquireAt
          · exact (h.checkLane.of_eq e).acquireAt.remoteStore
        · split
          · exact (h.checkLane.of_eq e).acquireAt.mailUe
          · exact (h.checkLane.of_eq e).acquireAt.storeL1.writePhys
    · split
      · exact (h.checkLane.of_eq e).acquireAt.commitWrite
      · split
        · split
          · exact (h.checkLane.of_eq e).acquireAt
          · exact (h.checkLane.of_eq e).acquireAt.remoteStore
        · split
          · exact (h.checkLane.of_eq e).acquireAt.mailUe
          · exact (h.checkLane.of_eq e).acquireAt.storeL1.writePhys

theorem Sound.atomicLane {w : Who} {va n : Nat} {locks : Bool} {a : AtomAct} {acq : Acq} (h : Sound K s) : Sound K
    ((s.atomicLane w va n locks a acq).2) := by
  unfold State.atomicLane
  dsimp only
  split
  next e => exact h.checkLane.of_eq e
  next e =>
    split
    · split
      · split
        next e4 => exact (h.checkLane.of_eq e).acquireAt.remoteRead.of_eq e4
        next e4 => exact ((h.checkLane.of_eq e).acquireAt.remoteRead.of_eq e4).saw
      · exact (h.checkLane.of_eq e).acquireAt
    · split
      · exact (h.checkLane.of_eq e).acquireAt.mailUe
      · split
        · exact (h.checkLane.of_eq e).acquireAt.barL1.saw.uncache.sink
        · exact (h.checkLane.of_eq e).acquireAt.barL1.saw.storeL1.writePhys

theorem Sound.readPart {ctx va n : Nat} (h : Sound K s) : Sound K ((s.readPart ctx va n).2) := by
  unfold State.readPart
  dsimp only
  split
  next e => exact h.translateWalk.of_eq e
  next e =>
    split
    · split
      · exact h.translateWalk.of_eq e
      · split
        next e3 => exact (h.translateWalk.of_eq e).remoteRead.of_eq e3
        next e3 => exact (h.translateWalk.of_eq e).remoteRead.of_eq e3
    · split
      · exact (h.translateWalk.of_eq e).mailUe
      · exact (h.translateWalk.of_eq e).uncache

theorem Sound.readParts {ctx : Nat} {x : List (Nat × Nat)} (h : Sound K s) : Sound K ((s.readParts ctx x).2) := by
  induction x generalizing s with
  | nil =>
    unfold State.readParts
    dsimp only
    exact h
  | cons _ _ ih =>
    unfold State.readParts
    split
    next e => exact h.readPart.of_eq e
    next e =>
      split
      next e1 => exact (ih (h.readPart.of_eq e)).of_eq e1
      next e1 => exact (ih (h.readPart.of_eq e)).of_eq e1

theorem Sound.readVa {ctx va n : Nat} (h : Sound K s) : Sound K ((s.readVa ctx va n).2) := by
  unfold State.readVa
  exact h.readParts

theorem Sound.writeAround {ctx : Nat} {keep : Bool} {pa : Nat} {bs : List Byte} {storer : Option Tid} (h : Sound K s) : Sound K
    ((s.writeAround ctx keep pa bs storer).2) := by
  unfold State.writeAround
  dsimp only
  exact h.writePhys

theorem Sound.writePart {ctx va : Nat} {bs : List Byte} {by_ : Writer} (h : Sound K s) : Sound K ((s.writePart ctx va bs by_).2) := by
  unfold State.writePart
  split
  next e => exact h.translateWalk.of_eq e
  next e =>
    split
    · split
      · exact h.translateWalk.of_eq e
      · exact (h.translateWalk.of_eq e).remoteStore
    · split
      next e1 => exact (h.translateWalk.of_eq e).writeAround.of_eq e1
      next e1 => exact ((h.translateWalk.of_eq e).writeAround.of_eq e1).mailUe

theorem Sound.writeParts {ctx : Nat} {by_ : Writer} {x : List (Nat × Nat)} {x1 : List Byte} (h : Sound K s) : Sound K ((s.writeParts ctx by_ x x1).2)
    := by
  induction x generalizing s ctx by_ x1 with
  | nil =>
    unfold State.writeParts
    dsimp only
    exact h
  | cons _ _ ih =>
    unfold State.writeParts
    split
    next e => exact h.writePart.of_eq e
    next e => exact ih (h.writePart.of_eq e)
    next e => exact ih (h.writePart.of_eq e)

theorem Sound.writeVa {ctx va : Nat} {bs : List Byte} {by_ : Writer} (h : Sound K s) : Sound K ((s.writeVa ctx va bs by_).2) := by
  unfold State.writeVa
  exact h.writeParts

theorem Sound.probeParts {ctx : Nat} {p : Perm} {x : List (Nat × Nat)} (h : Sound K s) : Sound K ((s.probeParts ctx p x).2) := by
  induction x generalizing s with
  | nil =>
    unfold State.probeParts
    dsimp only
    exact h
  | cons _ _ ih =>
    unfold State.probeParts
    split
    next e => exact h.translateWalk.of_eq e
    next e => exact ih (h.translateWalk.of_eq e)

theorem Sound.probeVa {ctx va n : Nat} {p : Perm} (h : Sound K s) : Sound K ((s.probeVa ctx va n p).2) := by
  unfold State.probeVa
  exact h.probeParts

theorem Sound.readVaNat {ctx va n : Nat} (h : Sound K s) : Sound K ((s.readVaNat ctx va n).2) := by
  unfold State.readVaNat
  split
  next e => exact h.readVa.of_eq e
  next e => exact h.readVa.of_eq e

/-! #### Pool -/

theorem Sound.arriveLine {team line : Nat} (h : Sound K s) : Sound K (s.arriveLine team line) := by
  unfold State.arriveLine
  dsimp only
  split
  · exact h
  · exact .ite h.updTeam.wakeTeam.unhold h.updTeam.unhold

theorem Sound.arriveLines {team : Nat} {lines : List Nat} (h : Sound K s) : Sound K (s.arriveLines team lines) := by
  unfold State.arriveLines
  exact h.foldl (fun h1 => h1.arriveLine)

theorem Sound.saveBytes {dry : Bool} {core ctx va : Nat} {clean : Bool} {bs : List Byte} (h : Sound K s) : Sound K
    ((s.saveBytes dry core ctx va clean bs).2) := by
  unfold State.saveBytes
  split
  · exact h
  · split
    · exact h.writeVa
    · exact h.mailPool

theorem Sound.evict {dry : Bool} {core : Nat} {v : Victim} (h : Sound K s) : Sound K ((s.evict dry core v).2) := by
  unfold State.evict
  dsimp only
  split
  · split
    · exact h
    · split
      · exact h
      · split
        next e2 => exact (h.saveBytes.of_eq e2).updTeam.mail
        next e2 => exact (h.saveBytes.of_eq e2).updTeam
  · split
    · exact h
    · split
      next e1 => exact (h.saveBytes.of_eq e1).same.mail
      next e1 => exact (h.saveBytes.of_eq e1).same

theorem Sound.evictMany {dry : Bool} {core n : Nat} {vs : List Victim} (h : Sound K s) : Sound K (s.evictMany dry core n vs).2 := by
  induction vs generalizing s n with
  | nil => cases n <;> exact h
  | cons v vs ih =>
    cases n with
    | zero => exact h
    | succ n =>
      unfold State.evictMany
      split
      next e => exact ih (h.evict.of_eq e)
      next e => exact ih (h.evict.of_eq e)

theorem Sound.claim {ctx core n : Nat} {dry : Bool} (h : Sound K s) : Sound K ((s.claim ctx core n dry).2) := by
  unfold State.claim
  dsimp only
  split
  · exact h
  · split
    · exact h
    · split
      · exact h.evictMany
      · exact h.evictMany

theorem Sound.poolPart {t : Team} {pa n : Nat} (h : Sound K s) : Sound K ((s.poolPart t pa n).2) := by
  unfold State.poolPart
  split
  · exact h.mailPool
  · split
    · exact h.readVa
    · exact h

theorem Sound.poolReadParts {t : Team} {x : List (Nat × Nat)} (h : Sound K s) : Sound K ((s.poolReadParts t x).2) := by
  induction x generalizing s with
  | nil =>
    unfold State.poolReadParts
    dsimp only
    exact h
  | cons _ _ ih =>
    unfold State.poolReadParts
    split
    next e => exact h.poolPart.of_eq e
    next e =>
      split
      next e1 => exact (ih (h.poolPart.of_eq e)).of_eq e1
      next e1 => exact (ih (h.poolPart.of_eq e)).of_eq e1

theorem Sound.poolRead {team pa n : Nat} (h : Sound K s) : Sound K ((s.poolRead team pa n).2) := by
  unfold State.poolRead
  split
  · exact h
  · exact h.poolReadParts

theorem Sound.poolSet {team pa : Nat} {bs : List Byte} (h : Sound K s) : Sound K (s.poolSet team pa bs) := by
  unfold State.poolSet
  dsimp only
  exact h.updTeam.same

theorem Sound.poolWriteParts {team : Nat} {x : List (Nat × Nat)} {x1 : List Byte} (h : Sound K s) : Sound K ((s.poolWriteParts team x x1).2) := by
  induction x generalizing s team x1 with
  | nil =>
    unfold State.poolWriteParts
    dsimp only
    exact h
  | cons _ _ ih =>
    unfold State.poolWriteParts
    split
    · exact h
    · split
      · split
        next e2 => exact h.writeVa.of_eq e2
        next e2 => exact ih (h.writeVa.of_eq e2)
      · exact ih h.poolSet

theorem Sound.poolWrite {team pa : Nat} {bs : List Byte} (h : Sound K s) : Sound K ((s.poolWrite team pa bs).2) := by
  unfold State.poolWrite
  exact h.poolWriteParts

theorem Sound.takeFrame {core ctx : Nat} (h : Sound K s) : Sound K ((s.takeFrame core ctx).2) := by
  unfold State.takeFrame
  dsimp only
  split
  · exact h
  · split
    next e1 => exact (h.claim.of_eq e1).fresh.same
    next e1 => exact h.claim.of_eq e1

theorem Sound.trimReserves {core ctx : Nat} (h : Sound K s) : Sound K (s.trimReserves core ctx) := by
  unfold State.trimReserves
  dsimp only
  exact h.same

theorem Sound.releaseFrame {t : Tid} (h : Sound K s) : Sound K (s.releaseFrame t) := by
  unfold State.releaseFrame
  split
  · exact .ite h.updGroup.trimReserves h
  · exact h

/-! #### Operands -/

theorem Sound.readReg {t : Tid} {r : Reg} {j : Nat} (h : Sound K s) : Sound K ((s.readReg t r j).2) := by
  unfold State.readReg
  dsimp only
  split
  · split
    · exact h
    · exact h.pick
  · exact h

theorem Sound.readRegs {t : Tid} {r : Reg} {j x : Nat} (h : Sound K s) : Sound K ((s.readRegs t r j x).2) := by
  induction x generalizing s t r j with
  | zero =>
    unfold State.readRegs
    dsimp only
    exact h
  | succ _ ih =>
    unfold State.readRegs
    dsimp only
    exact ih h.readReg

/-- What a pop leaves of a team's tokens was there before. -/
theorem boneOk_tokens {b : Nat × List (Nat × Word) × List Barrier} {ts : List (Nat × Word)} (ok : boneOk b) (fewer : ts.Sublist b.2.1) :
    boneOk (b.1, ts, b.2.2) :=
  ⟨fun q => (fewer.filter _).length_le.trans (ok.1 q), ok.2⟩

theorem Team.popQueue_bone {x y : Team} {q : Nat} {slot : List Word} (e : x.popQueue q = some (slot, y)) :
    y.key = x.key ∧ y.barriers = x.barriers ∧ y.tokens.Sublist x.tokens := by
  unfold Team.popQueue at e
  split at e
  · split at e
    · cases e
    · cases e
      exact ⟨rfl, rfl, List.Sublist.refl _⟩
  · split at e
    · cases e
    · cases e
      exact ⟨rfl, rfl, List.eraseP_sublist⟩

theorem Team.takeTag_bone {x y : Team} {q tag : Nat} {w : Word} (e : x.takeTag q tag = some (w, y)) :
    y.key = x.key ∧ y.barriers = x.barriers ∧ y.tokens.Sublist x.tokens := by
  unfold Team.takeTag at e
  split at e
  · cases e
  · cases e
    exact ⟨rfl, rfl, List.erase_sublist⟩

/-- A team gives way to one of its key and barriers whose tokens it held. -/
theorem Sound.retake {k : Nat} {x y : Team} (h : Sound K s) (e : s.team? k = some x)
    (hy : y.key = x.key ∧ y.barriers = x.barriers ∧ y.tokens.Sublist x.tokens) : Sound K (s.updTeam k fun _ => y) := by
  obtain ⟨key, bars, toks⟩ := hy
  have hx : x ∈ s.teams := List.mem_of_find?_eq_some e
  have hk : x.key = k := of_decide_eq_true (List.find?_some e :)
  have ok : boneOk y.bone := by
    rw [Team.bone, key, bars]
    exact boneOk_tokens (h.team x hx) toks
  have same : s.updTeam k (fun _ => y) = s.updTeam k fun z => if z.key = k then y else z := by
    simp only [State.updTeam, updWhere, State.mk.injEq, true_and, and_true]
    refine List.map_congr_left fun z _ => ?_
    by_cases hz : z.key = k <;> simp [hz]
  rw [same]
  refine h.editTeam (fun z => ?_) fun z _ hz _ => ?_
  · split
    next hz => exact (key.trans hk).trans hz.symm
    · rfl
  · rw [if_pos hz]
    exact ok

/-- A pop takes a slot or a token away. -/
theorem Sound.pop {tid : Tid} {q : Nat} (h : Sound K s) : ∀ u ∈ s.pop tid q, Sound K u.2 := by
  unfold State.pop
  split
  · exact Sound.of_none_snd
  next x e =>
    split
    · exact Sound.of_none_snd
    next slot y p =>
      refine Sound.of_some_snd ?_
      have taken := h.retake e (Team.popQueue_bone p)
      exact (Sound.ite taken.invalL1 taken).wakeTeam.unhold

theorem Sound.push {t : Tid} {q : Nat} {slot : List Word} (h : Sound K s) : ∀ u ∈ s.push t q slot, Sound K u := by
  unfold State.push
  dsimp only
  split
  · exact Sound.of_none
  · split
    · exact Sound.of_some h.updTeam.wakeTeam
    · exact Sound.of_none

theorem Sound.dropLongs {t : Tid} {f : RFile} {i : Nat} (h : Sound K s) : Sound K (s.dropLongs t f i) := by
  unfold State.dropLongs
  exact .ite h.updGroup h.updThread

theorem Sound.unmarkFrame {at_ : Option (Nat × Nat)} (h : Sound K s) : Sound K (s.unmarkFrame at_) := by
  unfold State.unmarkFrame
  exact h.same

theorem Sound.putReg {t : Tid} {f : RFile} {i : Nat} {v : Word} (h : Sound K s) : Sound K (s.putReg t f i v) := by
  unfold State.putReg
  dsimp only
  split
  · exact h.poolSet
  · exact h.updGroup
  · exact h.updGroup.unmarkFrame

theorem Sound.writeShort {t : Tid} {f : RFile} {i : Nat} {v : Word} (h : Sound K s) : Sound K (s.writeShort t f i v) := by
  unfold State.writeShort
  exact h.dropLongs.putReg

theorem Sound.writeRegs {t : Tid} {x : List LReg} (h : Sound K s) : Sound K (s.writeRegs t x) := by
  induction x generalizing s with
  | nil =>
    unfold State.writeRegs
    exact h
  | cons _ _ ih =>
    unfold State.writeRegs
    exact ih h.writeShort

theorem Sound.addLong {t : Tid} {ready : Bool} {regs : List LReg} {shared : Bool} (h : Sound K s) : Sound K ((s.addLong t ready regs shared).2) := by
  unfold State.addLong
  dsimp only
  exact h.fresh.updThread

theorem Sound.landLong {t : Tid} {id : Nat} (h : Sound K s) : Sound K (s.landLong t id) := by
  unfold State.landLong
  dsimp only
  split
  · exact h
  · split
    · exact h
    · exact h.updGroup.updThread.foldl (fun h1 => h1.putReg)

/-! #### Ops -/

theorem Sound.wakePushers {e : Engine} (h : Sound K s) : Sound K (s.wakePushers e) := by
  unfold State.wakePushers
  exact .ite h (h.foldl (fun h1 => .ite h1.wakeTeam h1))

theorem Sound.releaseLocks {cmd : Nat} {all : Bool} (h : Sound K s) : Sound K (s.releaseLocks cmd all) := by
  unfold State.releaseLocks
  dsimp only
  exact h.same.wakeAll.unhold

theorem Sound.dropCmd {c : Cmd} (h : Sound K s) : Sound K (s.dropCmd c) := by
  unfold State.dropCmd
  dsimp only
  exact h.same.releaseLocks.arriveLines.wakePushers.unhold

/-- A killed team's token queues are empty. -/
theorem Sound.dropTeam {key : Nat} (h : Sound K s) : Sound K (s.dropTeam key) := by
  unfold State.dropTeam
  dsimp only
  split
  · exact h
  · refine Sound.trimReserves (Sound.same (Sound.editTeam (h.foldl fun h1 => h1.dropCmd) (fun _ => rfl) fun x _ _ hx => ⟨fun q => ?_, hx.2⟩))
    exact Nat.zero_le 32

theorem Sound.killTeam {key code : Nat} (h : Sound K s) : Sound K (s.killTeam key code) := by
  unfold State.killTeam
  dsimp only
  split
  · exact h
  · exact h.updLaunch.foldl (fun h1 => h1.dropTeam)

theorem Sound.dropShells {launch : Nat} (h : Sound K s) : Sound K (s.dropShells launch) := by
  unfold State.dropShells
  exact h.dropTeams

theorem Sound.killGrid {launch cause code : Nat} (h : Sound K s) : Sound K (s.killGrid launch cause code) := by
  unfold State.killGrid
  dsimp only
  refine Sound.dropShells ?_
  exact h.updLaunch.foldl (fun h1 => h1.dropTeam)

theorem Sound.postPacket {ctx : Nat} {target ret : Word} {words : List Word} (h : Sound K s) : Sound K (s.postPacket ctx target ret words) := by
  unfold State.postPacket
  dsimp only
  exact h.fresh.same

theorem Sound.errorRecord {t : Team} {kill first second : Nat} {pc addr : DWord} (h : Sound K s) : Sound K
    (s.errorRecord t kill first second pc addr) := by
  unfold State.errorRecord
  dsimp only
  split
  · exact h
  · exact h.postPacket.mail

theorem Sound.unmarkLane {g : Option Group} {lane : Nat} (h : Sound K s) : Sound K (s.unmarkLane g lane) := by
  unfold State.unmarkLane
  exact h.foldl (fun h1 => h1.unmarkFrame)

theorem Sound.unmarkSlot {fr : Nat × Nat} (h : Sound K s) : Sound K (s.unmarkSlot fr) := by
  unfold State.unmarkSlot
  exact h.same

theorem Sound.enterWith {t : Tid} {f : FaultInfo} {hentry : DWord} (h : Sound K s) : Sound K (s.enterWith t f hentry) := by
  unfold State.enterWith
  exact h.unmarkLane.updGroup.updThread

theorem Sound.tryEnter {t : Tid} (h : Sound K s) : Sound K (s.tryEnter t) := by
  unfold State.tryEnter
  dsimp only
  split
  · split
    · exact h
    · split
      · exact h
      · split
        · split
          · exact h.killTeam
          · split
            · exact h.enterWith
            · split
              next e5 => exact (h.takeFrame.of_eq e5).unmarkSlot.updGroup.enterWith
              next e5 => exact h.takeFrame.of_eq e5
        · split
          · exact h.killTeam
          · split
            · exact h.enterWith
            · split
              next e5 => exact (h.takeFrame.of_eq e5).unmarkSlot.updGroup.enterWith
              next e5 => exact h.takeFrame.of_eq e5
  · exact h

theorem Sound.takeFault {t : Tid} {f : FaultInfo} (h : Sound K s) : Sound K (s.takeFault t f) := by
  unfold State.takeFault
  dsimp only
  split
  · exact .ite h.errorRecord.killTeam (.ite h.killTeam h.updThread.tryEnter)
  · exact h

theorem Sound.trap {t : Tid} {code addr : Nat} (h : Sound K s) : Sound K (s.trap t code addr) := by
  unfold State.trap
  split
  · exact h
  · exact h.takeFault

theorem Sound.trapAll {ts : List Tid} {code addr : Nat} (h : Sound K s) : Sound K (s.trapAll ts code addr) := by
  unfold State.trapAll
  exact h.foldl (fun h1 => h1.trap)

theorem Sound.asyncFault {t : Tid} {f : FaultInfo} (h : Sound K s) : Sound K (s.asyncFault t f) := by
  unfold State.asyncFault
  exact h.updThread

theorem Sound.deliverAsync {t : Tid} {rpc : DWord} (h : Sound K s) : Sound K ((s.deliverAsync t rpc).2) := by
  unfold State.deliverAsync
  split
  · exact h
  · split
    · exact h
    · split
      · exact h
      · exact h.updThread.takeFault

theorem Sound.deliverPoint {pc : DWord} {x : List Tid} (h : Sound K s) : Sound K ((s.deliverPoint pc x).2) := by
  induction x generalizing s with
  | nil =>
    unfold State.deliverPoint
    dsimp only
    exact h
  | cons _ _ ih =>
    unfold State.deliverPoint
    dsimp only
    exact ih h.deliverAsync

theorem Sound.passMarker {t : Tid} (h : Sound K s) : Sound K (s.passMarker t) := by
  unfold State.passMarker
  dsimp only
  exact .ite h.updThread.deliverAsync h

theorem Sound.passMarkers {ts : List Tid} (h : Sound K s) : Sound K (s.passMarkers ts) := by
  unfold State.passMarkers
  exact h.foldl (fun h1 => h1.passMarker)

theorem Sound.releaseMask {t : Tid} {m : Nat} (h : Sound K s) : Sound K (s.releaseMask t m) := by
  unfold State.releaseMask
  dsimp only
  exact h.updGroup.passMarkers

theorem Sound.checkMasks {t : Tid} {x : List Nat} (h : Sound K s) : Sound K (s.checkMasks t x) := by
  induction x generalizing s with
  | nil =>
    unfold State.checkMasks
    exact h
  | cons _ _ ih =>
    unfold State.checkMasks
    split
    · exact h
    · exact ih (.ite h.releaseMask h)

theorem Sound.strike {t : Tid} {ms : List Nat} (h : Sound K s) : Sound K (s.strike t ms) := by
  unfold State.strike
  dsimp only
  exact h.updGroup.checkMasks

/-- A barrier's count is below its size once it is set so (R71). -/
theorem boneOk_setBarrier {x : Team} {b : Nat} {y : Barrier} (ok : boneOk x.bone) (below : 1 ≤ y.n → y.c < y.n) : boneOk (x.setBarrier b y).bone :=
  ⟨ok.1, fun z hz => (List.mem_or_eq_of_mem_set hz).elim (ok.2 z) fun e => e ▸ below⟩

theorem Team.setBarrier_beyond (x : Team) {b : Nat} (y : Barrier) (hb : ¬b < x.barriers.length) : x.setBarrier b y = x := by
  simp [Team.setBarrier, List.set_eq_of_length_le (Nat.le_of_not_lt hb)]

theorem Team.barrier_below {x : Team} {b : Nat} (ok : boneOk x.bone) (hn : 1 ≤ (x.barrier b).n) : (x.barrier b).c < (x.barrier b).n := by
  unfold Team.barrier at *
  by_cases hb : b < x.barriers.length
  · rw [List.getD_eq_getElem _ _ hb] at *
    exact ok.2 _ (List.getElem_mem hb) hn
  · rw [List.getD_eq_default _ _ (Nat.le_of_not_lt hb)]
    decide

theorem State.updTeam_updTeam {k : Nat} {f g : Team → Team} (key : ∀ x, (f x).key = x.key) :
    (s.updTeam k f).updTeam k g = s.updTeam k fun x => g (f x) := by
  simp only [State.updTeam, updWhere, List.map_map, State.mk.injEq, true_and, and_true]
  refine List.map_congr_left fun x _ => ?_
  by_cases hx : x.key = k <;> simp [hx, key]

/-- A phase that completes after a change of its barrier. -/
theorem Sound.phase {k b : Nat} {f : Barrier → Barrier} (h : Sound K s) : Sound K ((s.putBarrier k b f).completePhase k b) := by
  unfold State.completePhase State.putBarrier
  refine Sound.passMarkers ?_
  rw [State.updTeam_updTeam (f := fun t => t.setBarrier b (f (t.barrier b))) fun _ => rfl]
  refine h.editTeam (fun _ => rfl) fun x _ _ ok => ⟨ok.1, fun z hz => ?_⟩
  simp only [Team.bone, Team.mapThreads, Team.setBarrier, List.set_set] at hz
  exact (List.mem_or_eq_of_mem_set hz).elim (ok.2 z) fun e => e ▸ id

/-- A barrier changes so that its count stays below its size. -/
theorem Sound.putBarrier {k b : Nat} {f : Barrier → Barrier} (h : Sound K s)
    (below : ∀ y, (s.putBarrier k b f).team? k = some y → 1 ≤ (y.barrier b).n → (y.barrier b).c < (y.barrier b).n) :
    Sound K (s.putBarrier k b f) := by
  refine h.editTeam (fun _ => rfl) fun x hx hk ok => ?_
  obtain ⟨y, hy⟩ : ∃ y, s.team? k = some y := Option.isSome_iff_exists.1 (List.find?_isSome.2 ⟨x, hx, decide_eq_true hk⟩)
  obtain rfl := h.team_eq hy hx hk
  by_cases hb : b < x.barriers.length
  · have after := below _ (State.putBarrier_team hy b f)
    rw [Team.barrier_setBarrier hb] at after
    exact boneOk_setBarrier ok after
  · rw [x.setBarrier_beyond _ hb]
    exact ok

/-- What a team's barrier is after a change: the changed one, or one of a number beyond the team's barriers. -/
theorem Sound.putBarrier_barrier {k b : Nat} {f : Barrier → Barrier} {y : Team} (h : Sound K s) (e : (s.putBarrier k b f).team? k = some y) :
    (∃ z : Barrier, (1 ≤ z.n → z.c < z.n) ∧ y.barrier b = f z) ∨ (1 ≤ (y.barrier b).n → (y.barrier b).c < (y.barrier b).n) := by
  obtain ⟨x, hx⟩ | none : (∃ x, s.team? k = some x) ∨ s.team? k = none := by cases s.team? k <;> simp
  · have ok := h.team x (List.mem_of_find?_eq_some hx)
    obtain rfl := Option.some.inj ((State.putBarrier_team hx b f).symm.trans e)
    by_cases hb : b < x.barriers.length
    · exact .inl ⟨x.barrier b, Team.barrier_below ok, Team.barrier_setBarrier hb _⟩
    · rw [x.setBarrier_beyond _ hb]
      exact .inr (Team.barrier_below ok)
  · rw [State.putBarrier, State.team?_updTeam_same s k (fun t => t.setBarrier b (f (t.barrier b))) fun _ => rfl, none] at e
    nomatch e

/-- An arrival counts, or completes the phase (R72). -/
theorem Sound.arrive {team b : Nat} (h : Sound K s) : Sound K (s.arrive team b) := by
  unfold State.arrive
  dsimp only
  split
  next e =>
    refine h.putBarrier (f := fun x => { x with c := x.c + 1 }) fun y e' => ?_
    cases e.symm.trans e'
  next x e =>
    split
    · exact h.phase (f := fun x => { x with c := x.c + 1 })
    next full =>
      refine h.putBarrier (f := fun x => { x with c := x.c + 1 }) fun y e' hn => ?_
      obtain rfl : x = y := Option.some.inj (e.symm.trans e')
      obtain ⟨z, below, eq⟩ | below := h.putBarrier_barrier (f := fun x => { x with c := x.c + 1 }) e
      · rw [eq] at full hn ⊢
        exact Nat.lt_of_le_of_ne (below hn) full
      · exact below hn

theorem Sound.endThread {t : Tid} (h : Sound K s) : Sound K (s.endThread t) := by
  unfold State.endThread
  dsimp only
  exact h.strike.updGroup.same.releaseFrame

theorem Sound.leaveHandler {t : Tid} {target : DWord} {keepp : Bool} (h : Sound K s) : Sound K (s.leaveHandler t target keepp) := by
  unfold State.leaveHandler
  dsimp only
  split
  · exact h
  · split
    · exact (Sound.ite h h.updThread).strike.updThread.tryEnter
    · exact (Sound.ite h h.updThread).strike.updThread.releaseFrame

theorem Sound.fenced {t : Tid} {m : FenceMark} (h : Sound K s) : Sound K (s.fenced t m) := by
  unfold State.fenced
  exact h.updThread

theorem Sound.performedFor {t : Tid} {age : Nat} (h : Sound K s) : Sound K (s.performedFor t age) := by
  unfold State.performedFor
  dsimp only
  exact .ite h.fresh.updThread h

theorem Sound.parkLane {t : Tid} {why : Park} {popped : List Word} {joint : Bool} (h : Sound K s) : Sound K (s.parkLane t why popped joint) := by
  unfold State.parkLane
  split
  · exact h
  · exact h.updThread

theorem Sound.parkWord {ts : List Tid} {why : Park} {popped : List Word} (h : Sound K s) : Sound K (s.parkWord ts why popped) := by
  unfold State.parkWord
  exact h.foldl (fun h1 => h1.parkLane)

theorem Sound.awaitPeers {ts : List Tid} (h : Sound K s) : Sound K (s.awaitPeers ts) := by
  unfold State.awaitPeers
  dsimp only
  split
  · exact h
  · exact (h.foldl (fun h1 => h1.updThread)).same

theorem Sound.holdWord {c : Cur} (h : Sound K s) : Sound K (s.holdWord c) := by
  unfold State.holdWord
  exact h.foldl (fun h1 => h1.updThread)

theorem Sound.pipeEvent {c : Cur} {src v : Nat} (h : Sound K s) : Sound K (s.pipeEvent c src v) := by
  unfold State.pipeEvent
  exact h.event

theorem Sound.issue {c : Cur} {gap : Nat} {gw : Bool} (h : Sound K s) : Sound K (s.issue c gap gw) := by
  unfold State.issue
  exact h.pipeEvent.foldl (fun h1 => h1.updThread)

theorem Sound.marker {c : Cur} (h : Sound K s) : Sound K (s.marker c) := by
  unfold State.marker
  exact h.foldl (fun h1 => .ite h1 (.ite h1.deliverAsync h1.updThread.passMarker))

theorem Sound.metTrap {t : Tid} {code addr : Nat} (h : Sound K s) : Sound K (s.metTrap t code addr) := by
  unfold State.metTrap
  dsimp only
  refine Sound.trap ?_
  split
  · split
    · exact h.mailPool
    · exact h
  · exact h

theorem Sound.letIn {ops : List Opd} {joint : Bool} {x : List Tid} (h : Sound K s) : Sound K ((s.letIn ops joint x).2) := by
  induction x generalizing s with
  | nil =>
    unfold State.letIn
    dsimp only
    exact h
  | cons _ _ ih =>
    unfold State.letIn
    dsimp only
    split
    · exact ih h
    · exact ih h.metTrap
    · exact ih h.parkLane

theorem Sound.afterLongs {x : List Tid} (h : Sound K s) : Sound K ((s.afterLongs x).2) := by
  induction x generalizing s with
  | nil =>
    unfold State.afterLongs
    dsimp only
    exact h
  | cons _ _ ih =>
    unfold State.afterLongs
    dsimp only
    split
    · exact ih h.parkLane
    · exact ih h

theorem Sound.letAll {k : Checks} {joint : Bool} {ts : List Tid} (h : Sound K s) : Sound K ((s.letAll k joint ts).2) := by
  unfold State.letAll
  dsimp only
  split
  · exact h.foldl (fun h1 => h1.metTrap)
  · split
    · exact h.afterLongs.letIn
    · exact h.letIn

theorem Sound.decodeTraps {k : Checks} {x : List Tid} (h : Sound K s) : Sound K ((s.decodeTraps k x).2) := by
  induction x generalizing s with
  | nil =>
    unfold State.decodeTraps
    dsimp only
    exact h
  | cons _ _ ih =>
    unfold State.decodeTraps
    dsimp only
    split
    · split
      · exact ih h
      · exact ih h.trap
    · exact ih h

theorem Sound.countUniform {c : Cur} {ops : List Opd} {act : List Tid} (h : Sound K s) : Sound K (s.countUniform c ops act) := by
  unfold State.countUniform
  split
  · refine h.foldl ?_
    intro _ _ h1
    split
    · exact h1
    · refine h1.foldl ?_
      intro _ _ h2
      split
      · exact .ite h2 (h2.foldl (fun h3 => .ite h3.pipeEvent h3))
      · exact h2
  · exact h

/-- The course of a word keeps what its effect keeps. -/
theorem Sound.course {mk gw joint : Bool} {gap : Nat} {ok : Thread → Bool} {k : Checks} {effect : List Tid → State → Option State} (h : Sound K s)
    (heffect : ∀ {act s'}, Sound K s' → ∀ u ∈ effect act s', Sound K u) : Sound K (s.course mk gw gap ok k joint effect) := by
  unfold State.course
  split
  · exact h
  next c _ =>
    have acts : ∀ {r : List Tid × State} {ts : List Tid}, Sound K r.2 →
        ∀ u ∈ (if joint && r.2.someParked ts then some (r.2.awaitPeers r.1) else effect r.1 r.2), Sound K u := by
      intro r ts hr
      split
      · exact Sound.of_some hr.awaitPeers
      · exact heffect hr
    dsimp only
    split
    next u e =>
      have acted : Sound K u := by
        cases hr : c.retry
        · simp only [Cur.withSet_retry, hr, Bool.false_eq_true, if_false] at e
          refine acts ?_ u e
          exact Sound.letAll h.issue.setCur.decodeTraps.countUniform
        · simp only [hr, if_true] at e
          refine acts ?_ u e
          exact Sound.letAll h.setCur
      exact .ite acted.marker acted
    · exact h.holdWord

theorem Sound.word {h' : Hdr} {k : Checks} {effect : List Tid → State → Option State} {joint : Bool} (h : Sound K s)
    (heffect : ∀ {a s'}, Sound K s' → ∀ u ∈ effect a s', Sound K u) : Sound K (s.word h' k effect joint) := by
  unfold State.word
  split
  · refine h.course ?_
    intro _ _ h1
    exact Sound.of_some h1
  · exact h.course heffect

theorem Sound.readOps {t : Tid} {x : List Opd} {x1 x2 : List Word} (h : Sound K s) : Sound K ((s.readOps t x x1 x2).2) := by
  induction x generalizing s t x1 x2 with
  | nil =>
    unfold State.readOps
    dsimp only
    exact h
  | cons _ _ ih =>
    unfold State.readOps
    dsimp only
    split
    · exact ih h
    · split
      · split
        · exact ih h
        · split
          · exact h
          next e1 => exact ih (h.pop _ e1)
      · exact ih h.readRegs

theorem Sound.eachLane {ops : List Opd} {f : Tid → List (List Word) → State → State × Option Park} {x : List Tid} (h : Sound K s)
    (hf : ∀ {a a1 s'}, Sound K s' → Sound K ((f a a1 s').1)) : Sound K (s.eachLane ops f x) := by
  induction x generalizing s with
  | nil =>
    unfold State.eachLane
    exact h
  | cons _ _ ih =>
    unfold State.eachLane
    dsimp only
    split
    · exact ih h
    · split
      next e => exact (h.readOps.of_eq e).parkLane.foldl (fun h1 => h1.parkLane)
      next e =>
        split
        next e1 => exact ih ((hf (h.readOps.of_eq e)).of_eq_fst e1)
        next e1 =>
          exact .ite (((hf (h.readOps.of_eq e)).of_eq_fst e1).parkLane.foldl (fun h1 => h1.parkLane))
              (ih (((hf (h.readOps.of_eq e)).of_eq_fst e1).parkLane))

theorem Sound.result {t : Tid} {long : Bool} {d : Reg} {vals : List Word} (h : Sound K s) : Sound K ((s.result t long d vals).1) := by
  unfold State.result
  dsimp only
  split
  · split
    next e => exact h.push _ e
    · exact h
  · split
    · exact h.addLong
    · exact h.writeRegs

theorem Sound.deliverIf {point : Bool} {act : List Tid} (h : Sound K s) : Sound K ((s.deliverIf point act).2) := by
  unfold State.deliverIf
  dsimp only
  split
  · split
    · exact h.deliverPoint
    · exact h
  · exact h

theorem Sound.byLane {h' : Hdr} {k : Checks} {f : Tid → List (List Word) → State → State × Option Park} {hold : State → List Tid → Bool}
    {point joint : Bool} (h : Sound K s) (hf : ∀ {a a1 s'}, Sound K s' → Sound K ((f a a1 s').1)) : Sound K (s.byLane h' k f hold point joint) := by
  unfold State.byLane
  dsimp only
  refine h.word ?_
  intro _ _ h1
  split
  · exact Sound.of_none
  · exact Sound.of_some (h1.deliverIf.eachLane hf)

theorem Sound.compute {h' : Hdr} {long : Bool} {d : Opd} {srcs : List Opd} {f : List (List Word) → List Word} (h : Sound K s) : Sound K
    (s.compute h' long d srcs f) := by
  unfold State.compute
  exact h.byLane (fun h1 => h1.result)

theorem Sound.gather {ops : List Opd} {x : List Tid} (h : Sound K s) : Sound K ((s.gather ops x).2) := by
  induction x generalizing s with
  | nil =>
    unfold State.gather
    dsimp only
    exact h
  | cons _ _ ih =>
    unfold State.gather
    dsimp only
    split
    next e => exact ih (h.readOps.of_eq e)
    next e => exact ih (h.readOps.of_eq e)

/-! #### Flags -/

theorem Sound.putPred {t : Tid} {p : BitVec 3} {b : Bool} (h : Sound K s) : Sound K (s.putPred t p b) := by
  unfold State.putPred
  exact h.updThread

theorem Sound.comparing {h' : Hdr} {p : BitVec 3} {ops : List Opd} {f : List (List Word) → Bool} (h : Sound K s) : Sound K (s.comparing h' p ops f)
    := by
  unfold State.comparing
  exact h.byLane (fun h1 => h1.putPred)

/-! #### Integer -/

theorem Sound.int3 {h' : Hdr} {o : I3} {long reads : Bool} {nd nb : Nat} {f : Nat → Nat → Nat → Nat} (h : Sound K s) : Sound K
    (s.int3 h' o long reads nd nb f) := by
  unfold State.int3
  exact h.compute

theorem Sound.intElems {h' : Hdr} {o : I3} {long reads : Bool} {f : Int → Int → Int → Int} (h : Sound K s) : Sound K (s.intElems h' o long reads f)
    := by
  unfold State.intElems
  dsimp only
  exact h.int3

theorem Sound.intBits {h' : Hdr} {o : I3} {f : Nat → Nat → Nat} (h : Sound K s) : Sound K (s.intBits h' o f) := by
  unfold State.intBits
  exact h.int3

theorem Sound.intShift {h' : Hdr} {o : I3} {f : Nat → Nat → Nat → Nat} (h : Sound K s) : Sound K (s.intShift h' o f) := by
  unfold State.intShift
  dsimp only
  exact h.int3

theorem Sound.int2 {h' : Hdr} {o : I2} {nd : Nat} {f : Nat → Nat} (h : Sound K s) : Sound K (s.int2 h' o nd f) := by
  unfold State.int2
  exact h.compute

theorem execIadd_sound {h' : Hdr} {o : I3} (h : Sound K s) : ∀ u, execIadd h' o s = .next u → Sound K u := by
  unfold execIadd
  exact Sound.of_next h.intElems

theorem execIsub_sound {h' : Hdr} {o : I3} (h : Sound K s) : ∀ u, execIsub h' o s = .next u → Sound K u := by
  unfold execIsub
  exact Sound.of_next h.intElems

theorem execImul_sound {h' : Hdr} {o : I3} (h : Sound K s) : ∀ u, execImul h' o s = .next u → Sound K u := by
  unfold execImul
  exact Sound.of_next h.intElems

theorem execImulh_sound {h' : Hdr} {o : I3} (h : Sound K s) : ∀ u, execImulh h' o s = .next u → Sound K u := by
  unfold execImulh
  exact Sound.of_next h.intElems

theorem execImad_sound {h' : Hdr} {o : I3} (h : Sound K s) : ∀ u, execImad h' o s = .next u → Sound K u := by
  unfold execImad
  exact Sound.of_next h.intElems

theorem execImin_sound {h' : Hdr} {o : I3} (h : Sound K s) : ∀ u, execImin h' o s = .next u → Sound K u := by
  unfold execImin
  exact Sound.of_next h.intElems

theorem execImax_sound {h' : Hdr} {o : I3} (h : Sound K s) : ∀ u, execImax h' o s = .next u → Sound K u := by
  unfold execImax
  exact Sound.of_next h.intElems

theorem execIabs_sound {h' : Hdr} {o : I2} (h : Sound K s) : ∀ u, execIabs h' o s = .next u → Sound K u := by
  unfold execIabs
  exact Sound.of_next h.int2

theorem execImulw_sound {h' : Hdr} {o : I3} (h : Sound K s) : ∀ u, execImulw h' o s = .next u → Sound K u := by
  unfold execImulw
  exact Sound.of_next h.int3

theorem execIdiv_sound {h' : Hdr} {o : I3} (h : Sound K s) : ∀ u, execIdiv h' o s = .next u → Sound K u := by
  unfold execIdiv
  exact Sound.of_next h.int3

theorem execIrem_sound {h' : Hdr} {o : I3} (h : Sound K s) : ∀ u, execIrem h' o s = .next u → Sound K u := by
  unfold execIrem
  exact Sound.of_next h.int3

theorem execIand_sound {h' : Hdr} {o : I3} (h : Sound K s) : ∀ u, execIand h' o s = .next u → Sound K u := by
  unfold execIand
  exact Sound.of_next h.intBits

theorem execIor_sound {h' : Hdr} {o : I3} (h : Sound K s) : ∀ u, execIor h' o s = .next u → Sound K u := by
  unfold execIor
  exact Sound.of_next h.intBits

theorem execIxor_sound {h' : Hdr} {o : I3} (h : Sound K s) : ∀ u, execIxor h' o s = .next u → Sound K u := by
  unfold execIxor
  exact Sound.of_next h.intBits

theorem execIandn_sound {h' : Hdr} {o : I3} (h : Sound K s) : ∀ u, execIandn h' o s = .next u → Sound K u := by
  unfold execIandn
  exact Sound.of_next h.intBits

theorem execShl_sound {h' : Hdr} {o : I3} (h : Sound K s) : ∀ u, execShl h' o s = .next u → Sound K u := by
  unfold execShl
  exact Sound.of_next h.intShift

theorem execShr_sound {h' : Hdr} {o : I3} (h : Sound K s) : ∀ u, execShr h' o s = .next u → Sound K u := by
  unfold execShr
  exact Sound.of_next h.intShift

theorem execSar_sound {h' : Hdr} {o : I3} (h : Sound K s) : ∀ u, execSar h' o s = .next u → Sound K u := by
  unfold execSar
  exact Sound.of_next h.intShift

theorem execRotl_sound {h' : Hdr} {o : I3} (h : Sound K s) : ∀ u, execRotl h' o s = .next u → Sound K u := by
  unfold execRotl
  exact Sound.of_next h.intShift

theorem execPopc_sound {h' : Hdr} {o : I2} (h : Sound K s) : ∀ u, execPopc h' o s = .next u → Sound K u := by
  unfold execPopc
  exact Sound.of_next h.int2

theorem execClz_sound {h' : Hdr} {o : I2} (h : Sound K s) : ∀ u, execClz h' o s = .next u → Sound K u := by
  unfold execClz
  exact Sound.of_next h.int2

theorem execBrev_sound {h' : Hdr} {o : I2} (h : Sound K s) : ∀ u, execBrev h' o s = .next u → Sound K u := by
  unfold execBrev
  exact Sound.of_next h.int2

theorem execBfe_sound {h' : Hdr} {o : BField} (h : Sound K s) : ∀ u, execBfe h' o s = .next u → Sound K u := by
  unfold execBfe
  exact Sound.of_next h.compute

theorem execBfi_sound {h' : Hdr} {o : BField} (h : Sound K s) : ∀ u, execBfi h' o s = .next u → Sound K u := by
  unfold execBfi
  exact Sound.of_next h.compute

theorem execIcmp_sound {h' : Hdr} {o : ICmp} (h : Sound K s) : ∀ u, execIcmp h' o s = .next u → Sound K u := by
  unfold execIcmp
  exact Sound.of_next h.comparing

theorem execSel_sound {h' : Hdr} {o : SelF} (h : Sound K s) : ∀ u, execSel h' o s = .next u → Sound K u := by
  unfold execSel
  dsimp only
  exact Sound.of_next (h.byLane (fun h1 => h1.result))

theorem execPlop_sound {h' : Hdr} {o : PlopF} (h : Sound K s) : ∀ u, execPlop h' o s = .next u → Sound K u := by
  unfold execPlop
  exact Sound.of_next (h.byLane (fun h1 => h1.putPred))

theorem execMov_sound {h' : Hdr} {o : I2} (h : Sound K s) : ∀ u, execMov h' o s = .next u → Sound K u := by
  unfold execMov
  exact Sound.of_next h.int2

theorem execMovi_sound {h' : Hdr} {o : ImmF} (h : Sound K s) : ∀ u, execMovi h' o s = .next u → Sound K u := by
  unfold execMovi
  exact Sound.of_next h.compute

theorem execMovhi_sound {h' : Hdr} {o : ImmF} (h : Sound K s) : ∀ u, execMovhi h' o s = .next u → Sound K u := by
  unfold execMovhi
  exact Sound.of_next h.compute

theorem execAadd_sound {h' : Hdr} {o : AaddF} (h : Sound K s) : ∀ u, execAadd h' o s = .next u → Sound K u := by
  unfold execAadd
  dsimp only
  exact Sound.of_next h.compute

/-! #### Floating -/

theorem Sound.fp3 {h' : Hdr} {o : F3} {fmt : Fmt} {n regs : Nat} {long reads : Bool} {g : FMod → FVal → FVal → FVal → FExact} (h : Sound K s) : Sound
    K (s.fp3 h' o fmt n regs long reads g) := by
  unfold State.fp3
  dsimp only
  exact h.compute

theorem Sound.fp1 {h' : Hdr} {o : F3} {long reads : Bool} {g : FMod → FVal → FVal → FVal → FExact} (h : Sound K s) : Sound K
    (s.fp1 h' o long reads g) := by
  unfold State.fp1
  dsimp only
  exact h.fp3

theorem Sound.fp2 {h' : Hdr} {o : F3} {reads : Bool} {g : FMod → FVal → FVal → FVal → FExact} (h : Sound K s) : Sound K (s.fp2 h' o reads g) := by
  unfold State.fp2
  exact h.fp3

theorem Sound.fpUnary {h' : Hdr} {o : F2} {fmt : Fmt} {n regs : Nat} {long : Bool} {g : FVal → Nat} (h : Sound K s) : Sound K
    (s.fpUnary h' o fmt n regs long g) := by
  unfold State.fpUnary
  exact h.compute

theorem execFadd_sound {h' : Hdr} {o : F3} (h : Sound K s) : ∀ u, execFadd h' o s = .next u → Sound K u := by
  unfold execFadd
  exact Sound.of_next h.fp1

theorem execFsub_sound {h' : Hdr} {o : F3} (h : Sound K s) : ∀ u, execFsub h' o s = .next u → Sound K u := by
  unfold execFsub
  exact Sound.of_next h.fp1

theorem execFmul_sound {h' : Hdr} {o : F3} (h : Sound K s) : ∀ u, execFmul h' o s = .next u → Sound K u := by
  unfold execFmul
  exact Sound.of_next h.fp1

theorem execFfma_sound {h' : Hdr} {o : F3} (h : Sound K s) : ∀ u, execFfma h' o s = .next u → Sound K u := by
  unfold execFfma
  exact Sound.of_next h.fp1

theorem execFmin_sound {h' : Hdr} {o : F3} (h : Sound K s) : ∀ u, execFmin h' o s = .next u → Sound K u := by
  unfold execFmin
  exact Sound.of_next h.fp1

theorem execFmax_sound {h' : Hdr} {o : F3} (h : Sound K s) : ∀ u, execFmax h' o s = .next u → Sound K u := by
  unfold execFmax
  exact Sound.of_next h.fp1

theorem execFdiv_sound {h' : Hdr} {o : F3} (h : Sound K s) : ∀ u, execFdiv h' o s = .next u → Sound K u := by
  unfold execFdiv
  exact Sound.of_next h.fp1

theorem execFcmp_sound {h' : Hdr} {o : FCmpF} (h : Sound K s) : ∀ u, execFcmp h' o s = .next u → Sound K u := by
  unfold execFcmp
  exact Sound.of_next h.comparing

theorem execFdot2_sound {h' : Hdr} {o : FDotF} (h : Sound K s) : ∀ u, execFdot2 h' o s = .next u → Sound K u := by
  unfold execFdot2
  dsimp only
  exact Sound.of_next h.compute

theorem execFrcp_sound {h' : Hdr} {o : F2} (h : Sound K s) : ∀ u, execFrcp h' o s = .next u → Sound K u := by
  unfold execFrcp
  exact Sound.of_next h.fpUnary

theorem execFrsq_sound {h' : Hdr} {o : F2} (h : Sound K s) : ∀ u, execFrsq h' o s = .next u → Sound K u := by
  unfold execFrsq
  exact Sound.of_next h.fpUnary

theorem execFsqrt_sound {h' : Hdr} {o : F2} (h : Sound K s) : ∀ u, execFsqrt h' o s = .next u → Sound K u := by
  unfold execFsqrt
  exact Sound.of_next h.fpUnary

theorem execFexp2_sound {h' : Hdr} {o : F2} (h : Sound K s) : ∀ u, execFexp2 h' o s = .next u → Sound K u := by
  unfold execFexp2
  exact Sound.of_next h.fpUnary

theorem execFlog2_sound {h' : Hdr} {o : F2} (h : Sound K s) : ∀ u, execFlog2 h' o s = .next u → Sound K u := by
  unfold execFlog2
  exact Sound.of_next h.fpUnary

theorem execFsinpi_sound {h' : Hdr} {o : F2} (h : Sound K s) : ∀ u, execFsinpi h' o s = .next u → Sound K u := by
  unfold execFsinpi
  exact Sound.of_next h.fpUnary

theorem execFcospi_sound {h' : Hdr} {o : F2} (h : Sound K s) : ∀ u, execFcospi h' o s = .next u → Sound K u := by
  unfold execFcospi
  exact Sound.of_next h.fpUnary

theorem execFrint_sound {h' : Hdr} {o : F2} (h : Sound K s) : ∀ u, execFrint h' o s = .next u → Sound K u := by
  unfold execFrint
  exact Sound.of_next h.fpUnary

theorem execFclass_sound {h' : Hdr} {o : R2} (h : Sound K s) : ∀ u, execFclass h' o s = .next u → Sound K u := by
  unfold execFclass
  exact Sound.of_next h.compute

theorem execDadd_sound {h' : Hdr} {o : F3} (h : Sound K s) : ∀ u, execDadd h' o s = .next u → Sound K u := by
  unfold execDadd
  exact Sound.of_next h.fp2

theorem execDsub_sound {h' : Hdr} {o : F3} (h : Sound K s) : ∀ u, execDsub h' o s = .next u → Sound K u := by
  unfold execDsub
  exact Sound.of_next h.fp2

theorem execDmul_sound {h' : Hdr} {o : F3} (h : Sound K s) : ∀ u, execDmul h' o s = .next u → Sound K u := by
  unfold execDmul
  exact Sound.of_next h.fp2

theorem execDfma_sound {h' : Hdr} {o : F3} (h : Sound K s) : ∀ u, execDfma h' o s = .next u → Sound K u := by
  unfold execDfma
  exact Sound.of_next h.fp2

theorem execDmin_sound {h' : Hdr} {o : F3} (h : Sound K s) : ∀ u, execDmin h' o s = .next u → Sound K u := by
  unfold execDmin
  exact Sound.of_next h.fp2

theorem execDmax_sound {h' : Hdr} {o : F3} (h : Sound K s) : ∀ u, execDmax h' o s = .next u → Sound K u := by
  unfold execDmax
  exact Sound.of_next h.fp2

theorem execDdiv_sound {h' : Hdr} {o : F3} (h : Sound K s) : ∀ u, execDdiv h' o s = .next u → Sound K u := by
  unfold execDdiv
  exact Sound.of_next h.fp2

theorem execDsqrt_sound {h' : Hdr} {o : F2} (h : Sound K s) : ∀ u, execDsqrt h' o s = .next u → Sound K u := by
  unfold execDsqrt
  exact Sound.of_next h.fpUnary

theorem execDcmp_sound {h' : Hdr} {o : FCmpF} (h : Sound K s) : ∀ u, execDcmp h' o s = .next u → Sound K u := by
  unfold execDcmp
  exact Sound.of_next h.comparing

theorem execCvt_sound {h' : Hdr} {o : CvtF} (h : Sound K s) : ∀ u, execCvt h' o s = .next u → Sound K u := by
  unfold execCvt
  exact Sound.of_next h.compute

theorem execCvtd_sound {h' : Hdr} {o : CvtF} (h : Sound K s) : ∀ u, execCvtd h' o s = .next u → Sound K u := by
  unfold execCvtd
  exact Sound.of_next h.compute

theorem execCvtq_sound {h' : Hdr} {o : QFmtF} (h : Sound K s) : ∀ u, execCvtq h' o s = .next u → Sound K u := by
  unfold execCvtq
  dsimp only
  refine Sound.of_next ?_
  refine h.word ?_
  intro _ _ h1
  split
  · exact Sound.of_some h1.trapAll
  · split
    · split
      · split
        · exact Sound.of_none
        · exact Sound.of_some (h1.deliverIf.eachLane (fun h2 => h2.result))
      · split
        · exact Sound.of_none
        · exact Sound.of_some (h1.deliverIf.eachLane (fun h2 => h2.result))
    · split
      · split
        · exact Sound.of_none
        · exact Sound.of_some (h1.deliverIf.eachLane (fun h2 => h2.result))
      · split
        · exact Sound.of_none
        · exact Sound.of_some (h1.deliverIf.eachLane (fun h2 => h2.result))

theorem Sound.readAll {ops : List Opd} {x : List (Tid × List Word)} (h : Sound K s) : Sound K (((s.readAll ops x).2).2) := by
  induction x generalizing s with
  | nil =>
    unfold State.readAll
    dsimp only
    exact h
  | cons _ _ ih =>
    unfold State.readAll
    dsimp only
    split
    next e => exact ih (h.readOps.of_eq e)
    next e => exact h.readOps.of_eq e

theorem Sound.putAll {d : Reg} {n : Nat} {x : List (Tid × Word)} (h : Sound K s) : Sound K (s.putAll d n x) := by
  induction x generalizing s with
  | nil =>
    unfold State.putAll
    exact h
  | cons _ _ ih =>
    unfold State.putAll
    split
    next e => exact ih (h.result.of_eq_fst e)
    next e => exact (h.result.of_eq_fst e).foldl (fun h1 => h1.parkLane)

theorem Sound.together {ops : List Opd} {d : Reg} {act : List Tid} {f : List (Tid × List (List Word)) → List (Tid × Word)} (h : Sound K s) : Sound K
    (s.together ops d act f) := by
  unfold State.together
  dsimp only
  split
  · exact h.putAll
  · split
    · exact h.readAll.putAll
    · exact h.readAll.foldl (fun h1 => h1.parkLane)

theorem execMxq_sound {h' : Hdr} {o : QFmtF} (h : Sound K s) : ∀ u, execMxq h' o s = .next u → Sound K u := by
  unfold execMxq
  dsimp only
  refine Sound.of_next ?_
  refine h.word ?_
  intro _ _ h1
  split
  · exact Sound.of_some h1.trapAll
  · split
    · exact Sound.of_none
    · exact Sound.of_some h1.deliverIf.together

/-! #### Lanes -/

theorem Sound.cross {h' : Hdr} {ops : List Opd} {f : State → LaneVals → Tid → List (List Word) → List (Reg × List Word)} (h : Sound K s) : Sound K
    (s.cross h' ops f) := by
  unfold State.cross
  dsimp only
  refine h.word ?_
  intro _ _ h1
  exact Sound.of_some (h1.gather.foldl (fun h2 => h2.addLong))

theorem Sound.crossPred {h' : Hdr} {ops : List Opd} {p : BitVec 3} {f : State → LaneVals → Bool} (h : Sound K s) : Sound K (s.crossPred h' ops p f)
    := by
  unfold State.crossPred
  dsimp only
  refine h.word ?_
  intro _ _ h1
  exact Sound.of_some (h1.gather.foldl (fun h2 => h2.putPred))

theorem execShfl_sound {h' : Hdr} {o : ShflF} (h : Sound K s) : ∀ u, execShfl h' o s = .next u → Sound K u := by
  unfold execShfl
  dsimp only
  exact Sound.of_next h.cross

theorem execVoteAll_sound {h' : Hdr} {o : VoteF} (h : Sound K s) : ∀ u, execVoteAll h' o s = .next u → Sound K u := by
  unfold execVoteAll
  exact Sound.of_next h.crossPred

theorem execVoteAny_sound {h' : Hdr} {o : VoteF} (h : Sound K s) : ∀ u, execVoteAny h' o s = .next u → Sound K u := by
  unfold execVoteAny
  exact Sound.of_next h.crossPred

theorem execVoteBal_sound {h' : Hdr} {o : BalF} (h : Sound K s) : ∀ u, execVoteBal h' o s = .next u → Sound K u := by
  unfold execVoteBal
  dsimp only
  exact Sound.of_next h.cross

theorem execVoteEq_sound {h' : Hdr} {o : VEqF} (h : Sound K s) : ∀ u, execVoteEq h' o s = .next u → Sound K u := by
  unfold execVoteEq
  exact Sound.of_next h.crossPred

theorem execMatchLanes_sound {h' : Hdr} {o : MatchF} (h : Sound K s) : ∀ u, execMatchLanes h' o s = .next u → Sound K u := by
  unfold execMatchLanes
  dsimp only
  exact Sound.of_next h.cross

theorem execGred_sound {h' : Hdr} {o : GredF} (h : Sound K s) : ∀ u, execGred h' o s = .next u → Sound K u := by
  unfold execGred
  dsimp only
  exact Sound.of_next h.cross

theorem execGscan_sound {h' : Hdr} {o : GredF} (h : Sound K s) : ∀ u, execGscan h' o s = .next u → Sound K u := by
  unfold execGscan
  dsimp only
  exact Sound.of_next h.cross

theorem execTopk_sound {h' : Hdr} {o : TopkF} (h : Sound K s) : ∀ u, execTopk h' o s = .next u → Sound K u := by
  unfold execTopk
  dsimp only
  exact Sound.of_next h.cross

theorem execRnd_sound {h' : Hdr} {o : R3} (h : Sound K s) : ∀ u, execRnd h' o s = .next u → Sound K u := by
  unfold execRnd
  dsimp only
  refine Sound.of_next ?_
  refine h.word ?_
  intro _ _ h1
  refine Sound.of_some ?_
  refine h1.gather.foldl ?_
  intro _ _ h2
  refine Sound.result ?_
  split
  · exact .ite h2.pipeEvent h2
  · exact h2

theorem execRndu_sound {h' : Hdr} {o : R2} (h : Sound K s) : ∀ u, execRndu h' o s = .next u → Sound K u := by
  unfold execRndu
  exact Sound.of_next h.cross

theorem execSeedr_sound {h' : Hdr} {d : Reg} (h : Sound K s) : ∀ u, execSeedr h' d s = .next u → Sound K u := by
  unfold execSeedr
  dsimp only
  exact Sound.of_next h.cross

/-! #### Memory -/

theorem Sound.laneTrap {t : Tid} {code addr : Nat} {data : Bool} (h : Sound K s) : Sound K (s.laneTrap t code addr data) := by
  unfold State.laneTrap
  split
  · exact .ite h.takeFault h.trap
  · exact h

theorem Sound.laterFault {t : Tid} {code cause addr engine : Nat} {cmd : List Word} (h : Sound K s) : Sound K
    (s.laterFault t code cause addr engine cmd) := by
  unfold State.laterFault
  dsimp only
  split
  · exact h.fresh.asyncFault
  · exact h

theorem Sound.checkCommit {team : Nat} (h : Sound K s) : Sound K (s.checkCommit team) := by
  unfold State.checkCommit
  split
  · exact h
  · exact .ite h.errorRecord.killTeam h

theorem Sound.ordered {t : Tid} {o : MOrd} {c : Sco} {p : Place} {n : Nat} (h : Sound K s) : Sound K (s.ordered t o c p n) := by
  unfold State.ordered
  dsimp only
  exact .ite h (.ite ((Sound.ite h.updThread h).fencedBy.fenced) ((Sound.ite h.updThread h).fenced))

theorem Sound.giveLong {t : Tid} {id : Nat} {d : Reg} {vals : List Word} (h : Sound K s) : Sound K (s.giveLong t id d vals) := by
  unfold State.giveLong
  dsimp only
  exact h.updThread

theorem Sound.lateFault {t : Tid} {pc word : DWord} {long code addr : Nat} (h : Sound K s) : Sound K (s.lateFault t pc word long code addr) := by
  unfold State.lateFault
  dsimp only
  split
  · exact h.updThread
  · exact h.updThread.takeFault

theorem Sound.accGive {a : Acc} {d : Reg} {vals : List Word} (h : Sound K s) : Sound K (s.accGive a d vals) := by
  unfold State.accGive
  split
  · exact h.result
  · exact h.giveLong

theorem Sound.accFail {a : Acc} {code addr : Nat} {data : Bool} (h : Sound K s) : Sound K (s.accFail a code addr data) := by
  unfold State.accFail
  split
  · exact h.laneTrap
  · exact h.lateFault

theorem Sound.accLater {a : Acc} {code cause addr : Nat} (h : Sound K s) : Sound K (s.accLater a code cause addr) := by
  unfold State.accLater
  split
  · exact h.laterFault
  · exact h.asyncFault

theorem Sound.accDone {a : Acc} {o : MOrd} {c : Sco} {p : Place} (h : Sound K s) : Sound K (s.accDone a o c p) := by
  unfold State.accDone
  exact .ite h.ordered h

theorem Sound.waitLong {t : Tid} {regs : List LReg} {shared : Bool} (h : Sound K s) : Sound K ((s.waitLong t regs shared).2) := by
  unfold State.waitLong
  dsimp only
  split
  · exact h.fresh
  · exact h.addLong

theorem Sound.defer {t : Tid} {x : LaneAcc} (h : Sound K s) : Sound K (s.defer t x) := by
  unfold State.defer
  dsimp only
  refine Sound.ordered ?_
  refine Sound.updTeam ?_
  split
  · exact h.waitLong
  · exact h.waitLong

theorem Sound.access {t : Tid} {x : LaneAcc} {check : State → Option Nat × State} {act : Acc → State → State} (h : Sound K s)
    (hcheck : ∀ {s'}, Sound K s' → Sound K ((check s').2)) (hact : ∀ {a s'}, Sound K s' → Sound K (act a s')) : Sound K (s.access t x check act) := by
  unfold State.access
  split
  · split
    next e1 => exact ((hcheck h).of_eq e1).laneTrap
    next e1 => exact ((hcheck h).of_eq e1).defer
  · exact hact h

theorem Sound.checkAt {t : Tid} {ea n : Nat} {p : Perm} {attr : Xlat → Bool} (h : Sound K s) : Sound K ((State.checkAt t ea n p attr s).2) := by
  unfold State.checkAt
  split
  next e => exact h.checkLane.of_eq e
  next e => exact h.checkLane.of_eq e

theorem Sound.loadEvent {t : Tid} (h : Sound K s) : Sound K (s.loadEvent t) := by
  unfold State.loadEvent
  dsimp only
  split
  · exact h.fresh.event
  · exact h.fresh

theorem Sound.loadTo {a : Acc} {d : Reg} {ea w : Nat} {o : MOrd} {c : Sco} {fill : Bool} (h : Sound K s) : Sound K (s.loadTo a d ea w o c fill) := by
  unfold State.loadTo
  split
  next e => exact (h.loadLane.of_eq e).loadEvent.accGive.accDone
  next e => exact (h.loadLane.of_eq e).accFail
  next e => exact (h.loadLane.of_eq e).accFail
  next e => exact (h.loadLane.of_eq e).accLater

theorem Sound.storeFrom {a : Acc} {ea : Nat} {bs : List Byte} {o : MOrd} {k : Sco} (h : Sound K s) : Sound K (s.storeFrom a ea bs o k) := by
  unfold State.storeFrom
  split
  next e => exact (h.storeLane.of_eq e).accDone.checkCommit
  next e => exact (h.storeLane.of_eq e).accFail
  next e => exact (h.storeLane.of_eq e).accFail
  next e => exact (h.storeLane.of_eq e).accLater

theorem Sound.ldAct {o : MemF} {vals : List (List Word)} {a : Acc} (h : Sound K s) : Sound K (s.ldAct o vals a) := by
  unfold State.ldAct
  exact h.loadTo

theorem Sound.stAct {o : MemF} {vals : List (List Word)} {a : Acc} (h : Sound K s) : Sound K (s.stAct o vals a) := by
  unfold State.stAct
  exact h.storeFrom

theorem Sound.ldLane {t : Tid} {o : MemF} {vals : List (List Word)} (h : Sound K s) :
    Sound K (s.access t (MemF.ldAcc o vals) (State.checkAt t (MemF.ea o vals) o.wid.bytes .load) fun a s => s.ldAct o vals a) :=
  h.access (fun h1 => h1.checkAt) (fun h1 => h1.ldAct)

theorem execLd_sound {h' : Hdr} {o : MemF} (h : Sound K s) : ∀ u, execLd h' o s = .next u → Sound K u := by
  refine Sound.of_next (h.byLane ?_)
  intro _ _ _ h1
  exact h1.ldLane

theorem Sound.stLane {t : Tid} {o : MemF} {vals : List (List Word)} (h : Sound K s) : Sound K (s.stLane t o vals) := by
  unfold State.stLane
  exact h.access (fun h1 => h1.checkAt) (fun h1 => h1.stAct)

theorem execSt_sound {h' : Hdr} {o : MemF} (h : Sound K s) : ∀ u, execSt h' o s = .next u → Sound K u := by
  unfold execSt
  exact Sound.of_next (h.byLane (fun h1 => h1.stLane))

theorem Sound.enrol {t : Tid} {m : Nat} (h : Sound K s) : Sound K (s.enrol t m) := by
  unfold State.enrol
  dsimp only
  exact h.updGroup

theorem execGather_sound {h' : Hdr} {o : GatherF} (h : Sound K s) : ∀ u, execGather h' o s = .next u → Sound K u := by
  unfold execGather
  dsimp only
  refine Sound.of_next ?_
  refine h.byLane ?_
  intro _ _ _ h1
  split
  · exact h1.enrol.result
  · split
    next e => exact (h1.loadLane.of_eq e).enrol.loadEvent.result.accDone
    next e => exact (h1.loadLane.of_eq e).laneTrap
    next e => exact (h1.loadLane.of_eq e).laneTrap
    next e => exact (h1.loadLane.of_eq e).laterFault

theorem execScatter_sound {h' : Hdr} {o : MemF} (h : Sound K s) : ∀ u, execScatter h' o s = .next u → Sound K u := by
  unfold execScatter
  exact Sound.of_next (h.byLane (fun h1 => .ite h1 h1.stLane))

theorem Sound.sigwRead {t : Tid} {ea n : Nat} {acq : Acq} (h : Sound K s) : Sound K ((s.sigwRead t ea n acq).2) := by
  unfold State.sigwRead
  dsimp only
  split
  next e => exact h.checkLane.of_eq e
  next e =>
    split
    · exact (h.checkLane.of_eq e).mailUe
    · exact (h.checkLane.of_eq e).uncache.acquireAt.barL1.saw

theorem execSigw_sound {h' : Hdr} {o : SigwF} (h : Sound K s) : ∀ u, execSigw h' o s = .next u → Sound K u := by
  unfold execSigw
  dsimp only
  refine Sound.of_next ?_
  refine h.byLane ?_
  intro _ _ _ h1
  split
  next e =>
    split
    · split
      · exact (h1.sigwRead.of_eq e).result
      · exact h1.sigwRead.of_eq e
    · exact h1.sigwRead.of_eq e
  next e => exact (h1.sigwRead.of_eq e).laneTrap
  next e => exact (h1.sigwRead.of_eq e).laneTrap
  next e => exact (h1.sigwRead.of_eq e).laterFault

theorem execSigwRecheck_sound {t : Tid} (h : Sound K s) : ∀ u, execSigwRecheck t s = .next u → Sound K u := by
  unfold execSigwRecheck
  dsimp only
  exact Sound.of_next (Sound.ite (.ite h.updThread h.updThread.same) h)

theorem Sound.joinWave {t : Tid} {x : LaneAcc} (h : Sound K s) : Sound K (s.joinWave t x) := by
  unfold State.joinWave
  dsimp only
  split
  · exact h.waitLong.updThread.updTeam.ordered
  · exact h

theorem Sound.atomDo {o : AtomOpd} {ea : Nat} {act : AtomAct} {a : Acc} (h : Sound K s) : Sound K (s.atomDo o ea act a) := by
  unfold State.atomDo
  split
  next e => exact (h.atomicLane.of_eq e).accGive.accDone
  next e => exact (h.atomicLane.of_eq e).accFail
  next e => exact (h.atomicLane.of_eq e).accFail
  next e => exact (h.atomicLane.of_eq e).accLater

theorem Sound.checkAtom {t : Tid} {ea n : Nat} {act : AtomAct} (h : Sound K s) : Sound K ((State.checkAtom t ea n act s).2) := by
  unfold State.checkAtom
  exact h.checkAt

theorem Sound.atomTo {t : Tid} {o : AtomOpd} {ea : Nat} {act : AtomAct} {vals : List (List Word)} (h : Sound K s) : Sound K
    (s.atomTo t o ea act vals) := by
  unfold State.atomTo
  split
  · split
    next e1 => exact (h.checkAtom.of_eq e1).laneTrap
    next e1 => exact (h.checkAtom.of_eq e1).joinWave
  · exact h.access (fun h1 => h1.checkAtom) (fun h1 => h1.atomDo)

theorem execAtom_sound {h' : Hdr} {o : AtF} (h : Sound K s) : ∀ u, execAtom h' o s = .next u → Sound K u := by
  unfold execAtom
  dsimp only
  exact Sound.of_next (h.byLane (fun h1 => .ite h1.trap h1.atomTo))

theorem execCas_sound {h' : Hdr} {o : CasF} (h : Sound K s) : ∀ u, execCas h' o s = .next u → Sound K u := by
  unfold execCas
  dsimp only
  exact Sound.of_next (h.byLane (fun h1 => .ite h1.trap h1.atomTo))

theorem Sound.redDo {o : RedF} {vals : List (List Word)} {a : Acc} (h : Sound K s) : Sound K (s.redDo o vals a) := by
  unfold State.redDo
  split
  next e => exact (h.atomicLane.of_eq e).accDone
  next e => exact (h.atomicLane.of_eq e).accFail
  next e => exact (h.atomicLane.of_eq e).accLater
  next e => exact (h.atomicLane.of_eq e).accLater

theorem execRed_sound {h' : Hdr} {o : RedF} (h : Sound K s) : ∀ u, execRed h' o s = .next u → Sound K u := by
  unfold execRed
  dsimp only
  refine Sound.of_next ?_
  refine h.byLane ?_
  intro _ _ _ h1
  split
  · exact h1.trap
  · exact h1.access (fun h2 => h2.checkAtom) (fun h2 => h2.redDo)

theorem Sound.redseqDo {o : AtF} {vals : List (List Word)} {a : Acc} (h : Sound K s) : Sound K (s.redseqDo o vals a) := by
  unfold State.redseqDo
  dsimp only
  split
  next e => exact (h.checkLane.of_eq e).accFail
  next e => exact .ite ((h.checkLane.of_eq e).acquireAt.fresh.same.ordered) ((h.checkLane.of_eq e).acquireAt.fresh.same)

theorem execRedseq_sound {h' : Hdr} {o : AtF} (h : Sound K s) : ∀ u, execRedseq h' o s = .next u → Sound K u := by
  unfold execRedseq
  dsimp only
  refine Sound.of_next ?_
  refine h.byLane ?_
  intro _ _ _ h1
  split
  · exact h1.trap
  · exact h1.access (fun h2 => h2.checkAt) (fun h2 => h2.redseqDo)

theorem execFence_sound {h' : Hdr} {o : FenceF} (h : Sound K s) : ∀ u, execFence h' o s = .next u → Sound K u := by
  unfold execFence
  dsimp only
  refine Sound.of_next ?_
  exact h.byLane (fun h1 => (Sound.ite ((Sound.ite h1 (.ite h1.updThread.invalL1 h1.updThread)).fencedBy)
      (.ite h1 (.ite h1.updThread.invalL1 h1.updThread))).fenced)

theorem Sound.prefetch {w : Who} {va n : Nat} (h : Sound K s) : Sound K (s.prefetch w va n) := by
  unfold State.prefetch
  split
  · exact h
  · refine h.foldl ?_
    intro _ _ h1
    split
    · exact h1.fillLine
    · exact h1

theorem execPref_sound {h' : Hdr} {o : PrefF} (h : Sound K s) : ∀ u, execPref h' o s = .next u → Sound K u := by
  unfold execPref
  dsimp only
  exact Sound.of_next (h.byLane (fun h1 => .ite h1.prefetch h1))

theorem Sound.maintPages {w : Who} {write : Bool} {x : List (Nat × Nat)} (h : Sound K s) : Sound K ((s.maintPages w write x).2) := by
  induction x generalizing s with
  | nil =>
    unfold State.maintPages
    dsimp only
    exact h
  | cons _ _ ih =>
    unfold State.maintPages
    split
    next e => exact h.translate.of_eq e
    next e =>
      split
      next e1 => exact (ih (h.translate.of_eq e)).of_eq e1
      next e1 => exact (ih (h.translate.of_eq e)).of_eq e1

theorem Sound.discardSectors {core lo hi : Nat} (h : Sound K s) : Sound K (s.discardSectors core lo hi) := by
  unfold State.discardSectors
  dsimp only
  exact (h.cleanSectors.foldl (fun h1 => .ite h1 (.ite (h1.flip.noteOld.store (Mem.wf_setN _ _ h1.flip.mem)) h1.flip))).same

theorem Sound.maintain {t : Tid} {va len : Nat} {sco : CSco} {clean inv : Bool} (h : Sound K s) : Sound K (s.maintain t va len sco clean inv) := by
  unfold State.maintain
  dsimp only
  split
  · exact h
  · split
    next e => exact (h.maintPages.of_eq e).trap
    next e =>
      exact .ite ((h.maintPages.of_eq e).trap) ((h.maintPages.of_eq e).foldl
          (fun h1 => .ite ((Sound.ite h1.cleanSectors.cleanedBy.dropInstr h1).discardSectors) (.ite h1.cleanSectors.cleanedBy.dropInstr h1)))

theorem Sound.cmaint {h' : Hdr} {o : CmaintF} {f : State → Tid → Nat → Nat → State} (h : Sound K s)
    (hf : ∀ {s' a1 a2 a3}, Sound K s' → Sound K (f s' a1 a2 a3)) : Sound K (s.cmaint h' o f) := by
  unfold State.cmaint
  exact h.byLane (fun h1 => hf h1)

theorem execCmaintInv_sound {h' : Hdr} {o : CmaintF} (h : Sound K s) : ∀ u, execCmaintInv h' o s = .next u → Sound K u := by
  unfold execCmaintInv
  exact Sound.of_next (h.cmaint (fun h1 => h1.maintain))

theorem execCmaintClean_sound {h' : Hdr} {o : CmaintF} (h : Sound K s) : ∀ u, execCmaintClean h' o s = .next u → Sound K u := by
  unfold execCmaintClean
  exact Sound.of_next (h.cmaint (fun h1 => h1.maintain))

theorem execCmaintFlush_sound {h' : Hdr} {o : CmaintF} (h : Sound K s) : ∀ u, execCmaintFlush h' o s = .next u → Sound K u := by
  unfold execCmaintFlush
  exact Sound.of_next (h.cmaint (fun h1 => h1.maintain))

theorem execCmaintTinv_sound {h' : Hdr} {o : CmaintF} (h : Sound K s) : ∀ u, execCmaintTinv h' o s = .next u → Sound K u := by
  unfold execCmaintTinv
  dsimp only
  exact Sound.of_next (h.cmaint (fun h1 => h1.same))

/-! #### Scratch -/

theorem Sound.poolWord {t : Tid} {pa : Nat} (h : Sound K s) : Sound K ((s.poolWord t pa).2) := by
  unfold State.poolWord
  dsimp only
  split
  · exact h
  · split
    · exact h
    · split
      · exact h
      · split
        · exact h
        · split
          · exact h
          · exact h.pick

theorem Sound.poolWords {t : Tid} {pa x : Nat} (h : Sound K s) : Sound K ((s.poolWords t pa x).2) := by
  induction x generalizing s t pa with
  | zero =>
    unfold State.poolWords
    dsimp only
    exact h
  | succ _ ih =>
    unfold State.poolWords
    dsimp only
    exact ih h.poolWord

theorem Sound.poolStore {t : Tid} {pa : Nat} {bs : List Byte} {n : Nat} (h : Sound K s) : Sound K (s.poolStore t pa bs n) := by
  unfold State.poolStore
  dsimp only
  refine Sound.poolSet ?_
  refine h.foldl ?_
  intro _ _ h1
  split
  · split
    · exact .ite h1.updThread h1
    · exact h1
  · exact h1

theorem Sound.poolDo {t : Tid} {pa w : Nat} {scratchOnly write : Bool} {f : State → State × Option Park} (h : Sound K s)
    (hf : ∀ {s'}, Sound K s' → Sound K ((f s').1)) : Sound K ((s.poolDo t pa w scratchOnly write f).1) := by
  unfold State.poolDo
  split
  · exact h.metTrap
  · exact h
  · exact hf h

theorem Sound.poolTry {t : Tid} {x : LaneAcc} {scratchOnly write : Bool} {act : Acc → State → State} (h : Sound K s)
    (hact : ∀ {a s'}, Sound K s' → Sound K (act a s')) : Sound K ((s.poolTry t x scratchOnly write act).1) := by
  unfold State.poolTry
  refine h.poolDo ?_
  intro _ h1
  dsimp only
  refine h1.access ?_ hact
  intro _ h2
  dsimp only
  exact h2

theorem Sound.poolGet {o : MemF} {vals : List (List Word)} {a : Acc} (h : Sound K s) : Sound K (s.poolGet o vals a) := by
  unfold State.poolGet
  dsimp only
  exact h.poolWords.saw.accGive.accDone

theorem Sound.poolPut {o : MemF} {vals : List (List Word)} {a : Acc} (h : Sound K s) : Sound K (s.poolPut o vals a) := by
  unfold State.poolPut
  exact h.poolStore.accDone

theorem Sound.poolLoad {h' : Hdr} {o : MemF} {scratchOnly : Bool} (h : Sound K s) : Sound K (s.poolLoad h' o scratchOnly) := by
  unfold State.poolLoad
  exact h.byLane (fun h1 => h1.poolTry (fun h2 => h2.poolGet))

theorem Sound.poolSave {h' : Hdr} {o : MemF} {scratchOnly : Bool} (h : Sound K s) : Sound K (s.poolSave h' o scratchOnly) := by
  unfold State.poolSave
  exact h.byLane (fun h1 => h1.poolTry (fun h2 => h2.poolPut))

theorem execLdp_sound {h' : Hdr} {o : MemF} (h : Sound K s) : ∀ u, execLdp h' o s = .next u → Sound K u := by
  unfold execLdp
  exact Sound.of_next h.poolLoad

theorem execStp_sound {h' : Hdr} {o : MemF} (h : Sound K s) : ∀ u, execStp h' o s = .next u → Sound K u := by
  unfold execStp
  exact Sound.of_next h.poolSave

theorem execLds_sound {h' : Hdr} {o : MemF} (h : Sound K s) : ∀ u, execLds h' o s = .next u → Sound K u := by
  unfold execLds
  exact Sound.of_next h.poolLoad

theorem execSts_sound {h' : Hdr} {o : MemF} (h : Sound K s) : ∀ u, execSts h' o s = .next u → Sound K u := by
  unfold execSts
  exact Sound.of_next h.poolSave

theorem execPqry_sound {h' : Hdr} {o : SelD} (h : Sound K s) : ∀ u, execPqry h' o s = .next u → Sound K u := by
  unfold execPqry
  exact Sound.of_next (h.byLane (fun h1 => h1.result))

theorem Sound.atomsDo {t : Tid} {pa : Nat} {op : SAop} {ty : ATy} {ws : List Word} (h : Sound K s) : Sound K ((s.atomsDo t pa op ty ws).2) := by
  unfold State.atomsDo
  dsimp only
  split
  · exact h
  · exact h.poolSet

theorem Sound.poolFail {a : Acc} {addr : Nat} (h : Sound K s) : Sound K (s.poolFail a addr) := by
  unfold State.poolFail
  split
  · exact h.mailPool.lateFault
  · exact h.metTrap

theorem Sound.atomsAct {o : AtomsF} {vals : List (List Word)} {a : Acc} (h : Sound K s) : Sound K (s.atomsAct o vals a) := by
  unfold State.atomsAct
  dsimp only
  exact .ite h.poolFail h.atomsDo.saw.accGive.accDone

theorem execAtoms_sound {h' : Hdr} {o : AtomsF} (h : Sound K s) : ∀ u, execAtoms h' o s = .next u → Sound K u := by
  unfold execAtoms
  dsimp only
  refine Sound.of_next ?_
  refine h.byLane ?_
  intro _ _ _ h1
  split
  · exact h1.poolDo (fun h2 => h2.joinWave)
  · exact h1.poolTry (fun h2 => h2.atomsAct)

theorem Sound.presDo {t : Tid} {pa n : Nat} {f : State → List Nat → State × Option Park} (h : Sound K s)
    (hf : ∀ {s' a1}, Sound K s' → Sound K ((f s' a1).1)) : Sound K ((s.presDo t pa n f).1) := by
  unfold State.presDo
  dsimp only
  split
  · exact h.trap
  · split
    · exact h.trap
    · split
      · exact h.trap
      · exact hf h

theorem execPresQuery_sound {h' : Hdr} {o : PresQ} (h : Sound K s) : ∀ u, execPresQuery h' o s = .next u → Sound K u := by
  unfold execPresQuery
  dsimp only
  exact Sound.of_next (h.byLane (fun h1 => h1.presDo (fun h2 => h2.result)))

theorem execPresSet_sound {h' : Hdr} {o : PresF} (h : Sound K s) : ∀ u, execPresSet h' o s = .next u → Sound K u := by
  unfold execPresSet
  dsimp only
  exact Sound.of_next (h.byLane (fun h1 => h1.presDo (fun h2 => h2.foldl (fun h3 => h3.updTeam.wakeTeam))))

/-- Marking lines as absent and not yet filled. -/
theorem Team.bone_unfill (x : Team) (ls : List Nat) : (ls.foldl
    (fun tm l => { tm.setAbsent l true with unfilled := l :: tm.unfilled.filter fun x => decide (x ≠ l) }) x).bone = x.bone := by
  induction ls generalizing x with
  | nil => rfl
  | cons l ls ih => exact ih _

/-! #### Commands -/

theorem Sound.takeSeq {team : Nat} {e : Engine} (h : Sound K s) : Sound K ((s.takeSeq team e).2) := by
  unfold State.takeSeq
  dsimp only
  split
  · exact h
  · exact h.updTeam

/-- A token is posted where its queue has room (R269). -/
theorem Sound.postToken {team q : Nat} {w : Word} (h : Sound K s) (hq : q < 32) : ∀ u ∈ s.postToken team q w, Sound K u := by
  unfold State.postToken
  split
  · exact Sound.of_some h
  next x e =>
    split
    · exact Sound.of_none
    next room =>
      refine Sound.of_some ?_
      refine Sound.wakeTeam (Sound.sink (h.editTeam (fun _ => rfl) fun y hy hk ok => ⟨fun p => ?_, ok.2⟩))
      rw [h.team_eq e hy hk] at ok ⊢
      have held := ok.1 p
      simp only [Team.queueLen, if_neg (show ¬32 ≤ q by omega)] at room
      simp only [Team.bone, List.filter_append, List.length_append] at held ⊢
      by_cases hp : q = p
      · subst hp
        simp only [decide_true, List.filter_cons_of_pos, List.filter_nil, List.length_singleton]
        omega
      · simpa [hp] using held

theorem Cmd.tokenQueue_lt (c : Cmd) : c.tokenQueue < 32 := by
  unfold Cmd.tokenQueue
  split <;> decide

theorem Sound.postOwed {c : Cmd} {ws : List (Nat × Word)} (h : Sound K s) : Sound K (s.postOwed c ws).2 := by
  induction ws generalizing s with
  | nil => exact h
  | cons x ws ih =>
    unfold State.postOwed
    split
    · exact h
    · split
      next e => exact ih (h.postToken c.tokenQueue_lt _ e)
      · exact h

theorem Sound.settleTokens {id : Nat} (h : Sound K s) : Sound K (s.settleTokens id) := by
  unfold State.settleTokens
  dsimp only
  split
  · exact h
  · exact .ite h.postOwed.updCmd.wakePushers h.postOwed.updCmd

theorem Sound.oweTokens {id : Nat} {ws : List Word} (h : Sound K s) : Sound K (s.oweTokens id ws) := by
  unfold State.oweTokens
  dsimp only
  exact .ite h h.fresh.updCmd

theorem Sound.submit {c : Cmd} {numbered : Bool} {ranges : List Rng} {lines : List Nat} (h : Sound K s) : Sound K
    ((s.submit c numbered ranges lines).2) := by
  unfold State.submit
  dsimp only
  split
  · split
    · refine Sound.updTeam ?_ (fun _ => by simp)
      refine Sound.same ?_
      split
      · exact h.fresh.takeSeq
      · exact h.fresh
    · refine Sound.same ?_
      split
      · exact h.fresh.takeSeq
      · exact h.fresh
  · split
    · refine Sound.updTeam ?_ (fun _ => by simp)
      refine Sound.same ?_
      split
      · exact h.fresh.takeSeq
      · exact h.fresh
    · refine Sound.same ?_
      split
      · exact h.fresh.takeSeq
      · exact h.fresh

theorem Sound.tellFault {id : Nat} (h : Sound K s) : Sound K (s.tellFault id) := by
  unfold State.tellFault
  split
  · exact h
  · split
    · exact h
    · exact h.foldl (fun h1 => h1.asyncFault)

theorem Sound.close {id : Nat} (h : Sound K s) : Sound K (s.close id) := by
  unfold State.close
  dsimp only
  split
  · exact h
  · exact h.updCmd.oweTokens.releaseLocks.tellFault.settleTokens.wakeTeam.unhold

theorem Sound.acceptCmd {c : Cmd} {r : Ruling} (h : Sound K s) : Sound K (s.acceptCmd c r) := by
  unfold State.acceptCmd
  dsimp only
  split
  · exact h.submit
  · split
    · exact .ite h.submit.updCmd h.submit.updCmd.close
    · exact h.submit.updCmd

theorem Sound.clearHeld {c : Cmd} (h : Sound K s) : Sound K (s.clearHeld c) := by
  unfold State.clearHeld
  exact .ite ((h.updTeam (fun _ => by simp)).updCmd) h

theorem Sound.takeHead {c : Cmd} (h : Sound K s) : Sound K (s.takeHead c) := by
  unfold State.takeHead
  dsimp only
  exact .ite h (.ite h.clearHeld h.clearHeld.updCmd)

theorem Sound.latchLines (h : Sound K s) : Sound K s.latchLines := by
  unfold State.latchLines
  exact h.same

theorem Sound.takeHeads (h : Sound K s) : Sound K s.takeHeads := by
  unfold State.takeHeads
  dsimp only
  exact h.latchLines.foldl (fun h1 => h1.takeHead)

theorem Sound.runNow {c : Cmd} {f : State → Cmd → Ran × State} (h : Sound K s) (hf : ∀ {s' a1}, Sound K s' → Sound K ((f s' a1).2)) : Sound K
    (s.runNow c f) := by
  unfold State.runNow
  dsimp only
  exact (hf h).updCmd

theorem Sound.runCmd {id code : Nat} {f : State → Cmd → Ran × State} (h : Sound K s) (hf : ∀ {s' a1}, Sound K s' → Sound K ((f s' a1).2)) : Sound K
    (s.runCmd id code f) := by
  unfold State.runCmd
  split
  · exact h
  · exact .ite (h.runNow (fun h1 => hf h1)) h

theorem Sound.cmdRead {c : Cmd} {pool : Bool} {a n : Nat} (h : Sound K s) : Sound K ((s.cmdRead c pool a n).2) := by
  unfold State.cmdRead
  split
  · exact h
  · split
    · exact h.poolRead
    · split
      next e => exact h.readVa.of_eq e
      next e => exact h.readVa.of_eq e

theorem Sound.cmdReads {c : Cmd} {x : List (Bool × Nat × Nat)} (h : Sound K s) : Sound K ((s.cmdReads c x).2) := by
  induction x generalizing s with
  | nil =>
    unfold State.cmdReads
    dsimp only
    exact h
  | cons _ _ ih =>
    unfold State.cmdReads
    split
    next e => exact h.cmdRead.of_eq e
    next e =>
      split
      next e1 => exact (ih (h.cmdRead.of_eq e)).of_eq e1
      next e1 => exact (ih (h.cmdRead.of_eq e)).of_eq e1

theorem Sound.writeThrough {c : Cmd} {a n : Nat} (h : Sound K s) : Sound K (s.writeThrough c a n) := by
  unfold State.writeThrough
  split
  · split
    · exact h.cleanSectors
    · exact h
  · exact h

theorem Sound.writeKeptPart {c : Cmd} {va : Nat} {bs : List Byte} (h : Sound K s) : Sound K ((s.writeKeptPart c va bs).2) := by
  unfold State.writeKeptPart
  dsimp only
  split
  · split
    · exact h.writePart.writeThrough
    · exact h.writePart
  · split
    next e1 => exact h.writeAround.of_eq e1
    next e1 => exact (h.writeAround.of_eq e1).mailDram

theorem Sound.writeKept {c : Cmd} {x : List (Nat × Nat)} {x1 : List Byte} (h : Sound K s) : Sound K ((s.writeKept c x x1).2) := by
  induction x generalizing s c x1 with
  | nil =>
    unfold State.writeKept
    dsimp only
    exact h
  | cons _ _ ih =>
    unfold State.writeKept
    split
    next e => exact h.writeKeptPart.of_eq e
    next e => exact ih (h.writeKeptPart.of_eq e)
    next e => exact ih (h.writeKeptPart.of_eq e)

theorem Sound.cmdWrite {c : Cmd} {w : CmdWrite} (h : Sound K s) : Sound K ((s.cmdWrite c w).2) := by
  unfold State.cmdWrite
  split
  · exact h
  · split
    · exact h.poolWrite
    · split
      · split
        next e1 => exact h.probeVa.of_eq e1
        next e1 => exact (h.probeVa.of_eq e1).commitWrite.checkCommit
      · exact h.writeKept

theorem Sound.cmdWrites {c : Cmd} {x : List CmdWrite} (h : Sound K s) : Sound K ((s.cmdWrites c x).2) := by
  induction x generalizing s with
  | nil =>
    unfold State.cmdWrites
    dsimp only
    exact h
  | cons _ _ ih =>
    unfold State.cmdWrites
    split
    next e => exact h.cmdWrite.of_eq e
    next e => exact ih (h.cmdWrite.of_eq e)

theorem execLineArrival_sound {cmd line : Nat} (h : Sound K s) : ∀ u, execLineArrival cmd line s = .next u → Sound K u := by
  unfold execLineArrival
  dsimp only
  refine Sound.of_next ?_
  split
  · exact h
  · exact .ite h.cmdWrites.updCmd.arriveLine h

theorem Sound.consume {c : Cmd} (h : Sound K s) : Sound K (s.consume c) := by
  unfold State.consume
  dsimp only
  exact h.updCmd.oweTokens.releaseLocks.settleTokens.wakeTeam

theorem Sound.lowerLines {c : Cmd} (h : Sound K s) : Sound K (s.lowerLines c) := by
  unfold State.lowerLines
  exact h.updCmd.arriveLines

theorem Sound.putCs {c : Cmd} (h : Sound K s) : Sound K (s.putCs c) := by
  unfold State.putCs
  split
  · exact h
  · exact h.updGroup

theorem Sound.finish {c : Cmd} (h : Sound K s) : Sound K (s.finish c) := by
  unfold State.finish
  dsimp only
  exact h.cmdWrites.updCmd.putCs.lowerLines.close

theorem Sound.discard {c : Cmd} (h : Sound K s) : Sound K (s.discard c) := by
  unfold State.discard
  dsimp only
  exact (Sound.ite h.updCmd h.lowerLines).updCmd.releaseLocks

/-! #### Copy -/

theorem Sound.copyRows {c : Cmd} {k : CopyShape} {sp dp : Bool} {x : List (Nat × Nat)} (h : Sound K s) : Sound K ((s.copyRows c k sp dp x).2) := by
  induction x generalizing s with
  | nil =>
    unfold State.copyRows
    dsimp only
    exact h
  | cons _ _ ih =>
    unfold State.copyRows
    dsimp only
    split
    next e => exact h.cmdRead.of_eq e
    next e => exact ih (h.cmdRead.of_eq e)

theorem Sound.runCopy {c : Cmd} (h : Sound K s) : Sound K ((s.runCopy c).2) := by
  unfold State.runCopy
  dsimp only
  split
  · exact h
  · exact h.copyRows

theorem execCopy1d_sound {cmd : Nat} (h : Sound K s) : ∀ u, execCopy1d cmd s = .next u → Sound K u := by
  unfold execCopy1d
  exact Sound.of_next (h.runCmd (fun h1 => h1.runCopy))

theorem execCopy2d_sound {cmd : Nat} (h : Sound K s) : ∀ u, execCopy2d cmd s = .next u → Sound K u := by
  unfold execCopy2d
  exact Sound.of_next (h.runCmd (fun h1 => h1.runCopy))

theorem execCopy3d_sound {cmd : Nat} (h : Sound K s) : ∀ u, execCopy3d cmd s = .next u → Sound K u := by
  unfold execCopy3d
  exact Sound.of_next (h.runCmd (fun h1 => h1.runCopy))

theorem execFill_sound {cmd : Nat} (h : Sound K s) : ∀ u, execFill cmd s = .next u → Sound K u := by
  unfold execFill
  exact Sound.of_next (h.runCmd (fun h1 => h1.runCopy))

/-! #### Physics -/

theorem Sound.sortSegments {c : Cmd} {f : SortF} (h : Sound K s) : Sound K ((s.sortSegments c f).2) := by
  unfold State.sortSegments
  dsimp only
  split
  · exact h
  · split
    next e1 => exact h.cmdRead.of_eq e1
    next e1 =>
      split
      · exact h.cmdRead.of_eq e1
      · exact h.cmdRead.of_eq e1

theorem Sound.runSort {c : Cmd} (h : Sound K s) : Sound K ((s.runSort c).2) := by
  unfold State.runSort
  dsimp only
  split
  · exact h
  · split
    next e => exact h.sortSegments.of_eq e
    next e =>
      split
      next e1 => exact (h.sortSegments.of_eq e).cmdReads.of_eq e1
      next e1 => exact (h.sortSegments.of_eq e).cmdReads.of_eq e1

theorem execSort_sound {cmd : Nat} (h : Sound K s) : ∀ u, execSort cmd s = .next u → Sound K u := by
  unfold execSort
  exact Sound.of_next (h.runCmd (fun h1 => h1.runSort))

theorem execSortseg_sound {cmd : Nat} (h : Sound K s) : ∀ u, execSortseg cmd s = .next u → Sound K u := by
  unfold execSortseg
  exact Sound.of_next (h.runCmd (fun h1 => h1.runSort))

theorem Sound.trvPairs {c : Cmd} {table : Nat} {x : List (List Byte)} (h : Sound K s) : Sound K (((s.trvPairs c table x).2).2) := by
  induction x generalizing s with
  | nil =>
    unfold State.trvPairs
    dsimp only
    exact h
  | cons _ _ ih =>
    unfold State.trvPairs
    dsimp only
    split
    next e => exact h.cmdReads.of_eq e
    next e => exact ih (h.cmdReads.of_eq e)

theorem execTrvpair_sound {cmd : Nat} (h : Sound K s) : ∀ u, execTrvpair cmd s = .next u → Sound K u := by
  unfold execTrvpair
  dsimp only
  refine Sound.of_next ?_
  refine h.runCmd ?_
  intro _ _ h1
  split
  next e => exact h1.cmdRead.of_eq e
  next e =>
    split
    · exact (h1.cmdRead.of_eq e).trvPairs
    · exact (h1.cmdRead.of_eq e).trvPairs

theorem Sound.visit {c : Cmd} {base cap j fuel node : Nat} {query : List FVal} {p : Trav × State} (h : Sound K p.2) :
    Sound K (State.visit c base cap j query fuel node p).2 := by
  induction fuel generalizing node p with
  | zero => exact h
  | succ fuel ih =>
    obtain ⟨v, s⟩ := p
    unfold State.visit
    dsimp only
    split
    next e => exact Sound.of_eq (Sound.cmdRead h) e
    next e =>
      refine Sound.foldl_snd (Sound.of_eq (Sound.cmdRead h) e) fun h1 => ?_
      split
      · exact h1
      · split
        next e2 => exact h1.cmdRead.of_eq e2
        next e2 =>
          have read := h1.cmdRead.of_eq e2
          split
          · exact read
          · split
            · exact read
            · exact ih read

theorem execTrvq_sound {cmd : Nat} (h : Sound K s) : ∀ u, execTrvq cmd s = .next u → Sound K u := by
  unfold execTrvq
  dsimp only
  refine Sound.of_next ?_
  refine h.runCmd ?_
  intro _ _ h1
  split
  next e => exact h1.cmdRead.of_eq e
  next e =>
    split
    · refine (h1.cmdRead.of_eq e).foldl_snd ?_
      intro _ _ h2
      split
      · exact h2
      · exact h2.visit
    · refine (h1.cmdRead.of_eq e).foldl_snd ?_
      intro _ _ h2
      split
      · exact h2
      · exact h2.visit

theorem execFact_sound {cmd : Nat} (h : Sound K s) : ∀ u, execFact cmd s = .next u → Sound K u := by
  unfold execFact
  dsimp only
  refine Sound.of_next ?_
  refine h.runCmd ?_
  intro _ _ h1
  split
  next e => exact h1.cmdReads.of_eq e
  next e => exact h1.cmdReads.of_eq e

theorem Sound.narrow {id : Nat} {ns : List (Option Nat)} (h : Sound K s) : Sound K (s.narrow id ns) := by
  unfold State.narrow
  exact h.same

theorem Sound.readRecord {c : Cmd} (h : Sound K s) : Sound K ((s.readRecord c).2) := by
  unfold State.readRecord
  split
  next e => exact h.cmdRead.of_eq e
  next e =>
    split
    · exact h.cmdRead.of_eq e
    · exact h.cmdRead.of_eq e

theorem execSolve_sound {cmd : Nat} (h : Sound K s) : ∀ u, execSolve cmd s = .next u → Sound K u := by
  unfold execSolve
  dsimp only
  refine Sound.of_next ?_
  refine h.runCmd ?_
  intro _ _ h1
  split
  next e => exact h1.readRecord.of_eq e
  next e =>
    split
    · exact (h1.readRecord.of_eq e).narrow
    · split
      · exact (h1.readRecord.of_eq e).narrow
      · split
        next e1 => exact (h1.readRecord.of_eq e).narrow.cmdRead.of_eq e1
        next e1 => exact (h1.readRecord.of_eq e).narrow.cmdRead.of_eq e1

theorem execSolvebwd_sound {cmd : Nat} (h : Sound K s) : ∀ u, execSolvebwd cmd s = .next u → Sound K u := by
  unfold execSolvebwd
  dsimp only
  refine Sound.of_next ?_
  refine h.runCmd ?_
  intro _ _ h1
  split
  next e => exact h1.readRecord.of_eq e
  next e =>
    split
    · exact (h1.readRecord.of_eq e).narrow
    · split
      · exact (h1.readRecord.of_eq e).narrow
      · split
        next e2 => exact (h1.readRecord.of_eq e).narrow.cmdReads.of_eq e2
        next e2 => exact (h1.readRecord.of_eq e).narrow.cmdReads.of_eq e2

theorem execLcp_sound {cmd : Nat} (h : Sound K s) : ∀ u, execLcp cmd s = .next u → Sound K u := by
  unfold execLcp
  dsimp only
  refine Sound.of_next ?_
  refine h.runCmd ?_
  intro _ _ h1
  split
  next e => exact h1.cmdReads.of_eq e
  next e => exact h1.cmdReads.of_eq e

/-! #### Base die -/

theorem Sound.rejectPages {ctx : Nat} {eng : Engine} {f : Nat × Nat × Nat} (h : Sound K s) : Sound K ((s.rejectPages ctx eng f).2) := by
  unfold State.rejectPages
  dsimp only
  exact h.mailWalk

theorem Sound.usePages {ctx : Nat} {xs : List Span} (h : Sound K s) : Sound K (s.usePages ctx xs) := by
  unfold State.usePages
  exact h.foldl (fun h1 => h1.foldl (fun h2 => h2.translateWalk))

theorem Sound.stackOf {ctx va : Nat} {p : Perm} (h : Sound K s) : Sound K ((s.stackOf ctx va p).2) := by
  unfold State.stackOf
  split
  · exact h.mailWalk
  · split
    · exact h
    · split
      · exact h
      · exact h

theorem Sound.cleanSpans {ctx : Nat} {xs : List Span} (h : Sound K s) : Sound K (s.cleanSpans ctx xs) := by
  unfold State.cleanSpans
  refine h.foldl ?_
  intro _ _ h1
  split
  · exact h1.cleanSectors
  · exact h1

theorem Sound.ruleDa {ctx stack : Nat} {fields : Bool} {bad : Option Nat} {overlap : Bool} {da other : List Span} (h : Sound K s) : Sound K
    ((s.ruleDa ctx stack fields bad overlap da other).2) := by
  unfold State.ruleDa
  dsimp only
  split
  · exact h
  · split
    · exact h
    · split
      · exact h
      · split
        · exact h.rejectPages
        · exact h.usePages.cleanSpans

theorem Sound.ruleBase {ctx : Nat} {ws : List Word} (h : Sound K s) : Sound K ((s.ruleBase ctx ws).2) := by
  unfold State.ruleBase
  dsimp only
  split
  · split
    · exact h
    · split
      · split
        next e2 => exact h.readVa.of_eq e2
        next e2 =>
          split
          next e3 => exact (h.readVa.of_eq e2).stackOf.of_eq e3
          next e3 => exact ((h.readVa.of_eq e2).stackOf.of_eq e3).ruleDa
      · split
        next e1 => exact h.stackOf.of_eq e1
        next e1 => exact (h.stackOf.of_eq e1).ruleDa
  · split
    · split
      · exact h
      · split
        · split
          next e2 => exact h.readVa.of_eq e2
          next e2 =>
            split
            next e3 => exact (h.readVa.of_eq e2).stackOf.of_eq e3
            next e3 => exact ((h.readVa.of_eq e2).stackOf.of_eq e3).ruleDa
        · split
          next e1 => exact h.stackOf.of_eq e1
          next e1 => exact (h.stackOf.of_eq e1).ruleDa
    · split
      · exact h
      · split
        · split
          next e1 => exact h.readVa.of_eq e1
          next e1 =>
            split
            next e2 => exact (h.readVa.of_eq e1).stackOf.of_eq e2
            next e2 => exact ((h.readVa.of_eq e1).stackOf.of_eq e2).ruleDa
        · split
          next e => exact h.stackOf.of_eq e
          next e => exact (h.stackOf.of_eq e).ruleDa

theorem Sound.dieRead {c : Cmd} {x : List (Nat × Nat)} (h : Sound K s) : Sound K ((s.dieRead c x).2) := by
  induction x generalizing s with
  | nil =>
    unfold State.dieRead
    dsimp only
    exact h
  | cons _ _ ih =>
    unfold State.dieRead
    dsimp only
    split
    · exact h
    · split
      · exact h.mailDram
      · split
        next e1 => exact (ih h).of_eq e1
        next e1 => exact (ih h).of_eq e1

theorem Sound.dieReads {c : Cmd} {x : List (Nat × Nat)} (h : Sound K s) : Sound K ((s.dieReads c x).2) := by
  induction x generalizing s with
  | nil =>
    unfold State.dieReads
    dsimp only
    exact h
  | cons _ _ ih =>
    unfold State.dieReads
    split
    next e => exact h.dieRead.of_eq e
    next e =>
      split
      next e1 => exact (ih (h.dieRead.of_eq e)).of_eq e1
      next e1 => exact (ih (h.dieRead.of_eq e)).of_eq e1

theorem Sound.bredElems {c : Cmd} {f : BredF} {x : List Nat} (h : Sound K s) : Sound K ((s.bredElems c f x).2) := by
  induction x generalizing s with
  | nil =>
    unfold State.bredElems
    dsimp only
    exact h
  | cons _ _ ih =>
    unfold State.bredElems
    dsimp only
    split
    next e => exact h.dieReads.of_eq e
    next e =>
      split
      next e1 => exact (h.dieReads.of_eq e).cmdWrite.of_eq e1
      next e1 => exact ih ((h.dieReads.of_eq e).cmdWrite.of_eq e1)

theorem execBred_sound {cmd : Nat} (h : Sound K s) : ∀ u, execBred cmd s = .next u → Sound K u := by
  unfold execBred
  dsimp only
  exact Sound.of_next (h.runCmd (fun h1 => h1.bredElems))

theorem execRowz_sound {cmd : Nat} (h : Sound K s) : ∀ u, execRowz cmd s = .next u → Sound K u := by
  unfold execRowz
  exact Sound.of_next (h.runCmd (fun h1 => h1))

theorem Sound.copyHead {c : Cmd} {src dst : Nat} {e : Nat × Nat} (h : Sound K s) : Sound K (s.copyHead c src dst e) := by
  unfold State.copyHead
  dsimp only
  split
  · exact h.cmdWrite
  · exact h

theorem Sound.copyPages {c : Cmd} {src dst : Nat} {x : List Nat} (h : Sound K s) : Sound K ((s.copyPages c src dst x).2) := by
  induction x generalizing s with
  | nil =>
    unfold State.copyPages
    dsimp only
    exact h
  | cons _ _ ih =>
    unfold State.copyPages
    split
    next e => exact (h.dieRead.of_eq e).copyHead
    next e =>
      split
      next e1 => exact (h.dieRead.of_eq e).cmdWrite.of_eq e1
      next e1 => exact ih ((h.dieRead.of_eq e).cmdWrite.of_eq e1)

theorem execRowcp_sound {cmd : Nat} (h : Sound K s) : ∀ u, execRowcp cmd s = .next u → Sound K u := by
  unfold execRowcp
  dsimp only
  exact Sound.of_next (h.runCmd (fun h1 => h1.copyPages))

/-! #### Embag -/

theorem Sound.ruleEmbag {ctx : Nat} {ws : List Word} (h : Sound K s) : Sound K ((s.ruleEmbag ctx ws).2) := by
  unfold State.ruleEmbag
  dsimp only
  split
  · exact h
  · split
    · exact h
    · split
      next e => exact h.readVa.of_eq e
      next e =>
        split
        · exact h.readVa.of_eq e
        · split
          next e1 => exact (h.readVa.of_eq e).readVa.of_eq e1
          next e1 =>
            split
            · exact (h.readVa.of_eq e).readVa.of_eq e1
            · exact ((h.readVa.of_eq e).readVa.of_eq e1).cleanSpans

theorem Sound.bagRows {c : Cmd} {f : EmbagF} {x : List (Nat × Nat)} (h : Sound K s) : Sound K ((s.bagRows c f x).2) := by
  induction x generalizing s with
  | nil =>
    unfold State.bagRows
    dsimp only
    exact h
  | cons _ _ ih =>
    unfold State.bagRows
    split
    · exact h
    · split
      next e => exact h.cmdRead.of_eq e
      next e =>
        split
        next e1 => exact (ih (h.cmdRead.of_eq e)).of_eq e1
        next e1 => exact (ih (h.cmdRead.of_eq e)).of_eq e1

theorem Sound.runBags {c : Cmd} {f : EmbagF} {x : List ((Nat × Nat) × Nat)} (h : Sound K s) : Sound K ((s.runBags c f x).2) := by
  induction x generalizing s with
  | nil =>
    unfold State.runBags
    dsimp only
    exact h
  | cons _ _ ih =>
    unfold State.runBags
    dsimp only
    split
    next e => exact h.cmdReads.of_eq e
    next e =>
      split
      next e1 => exact (h.cmdReads.of_eq e).bagRows.of_eq e1
      next e1 =>
        split
        next e2 => exact ((h.cmdReads.of_eq e).bagRows.of_eq e1).cmdWrite.of_eq e2
        next e2 => exact ih (((h.cmdReads.of_eq e).bagRows.of_eq e1).cmdWrite.of_eq e2)

theorem execEmbag_sound {cmd : Nat} (h : Sound K s) : ∀ u, execEmbag cmd s = .next u → Sound K u := by
  unfold execEmbag
  dsimp only
  refine Sound.of_next ?_
  refine h.runCmd ?_
  intro _ _ h1
  split
  next e => exact h1.cmdRead.of_eq e
  next e =>
    split
    · exact h1.cmdRead.of_eq e
    · split
      · exact h1.cmdRead.of_eq e
      · exact (h1.cmdRead.of_eq e).runBags

/-! #### Coll -/

theorem Sound.ruleColl {ctx : Nat} {ws : List Word} (h : Sound K s) : Sound K ((s.ruleColl ctx ws).2) := by
  unfold State.ruleColl
  dsimp only
  split
  · exact h
  · split
    next e => exact h.readVa.of_eq e
    next e =>
      split
      · exact h.readVa.of_eq e
      · split
        next e1 => exact (h.readVa.of_eq e).readVa.of_eq e1
        next e1 =>
          split
          · exact (h.readVa.of_eq e).readVa.of_eq e1
          · split
            · exact (h.readVa.of_eq e).readVa.of_eq e1
            · exact ((h.readVa.of_eq e).readVa.of_eq e1).updCtx.postPacket

theorem Sound.sendChunk {c : Cmd} {v : CView} {dest : Word} {down : Bool} {i : Nat} {bs : List Byte} (h : Sound K s) : Sound K
    (s.sendChunk c v dest down i bs) := by
  unfold State.sendChunk
  split
  · exact h
  · exact .ite h.same h.sink.send

theorem Sound.chunkResult {c : Cmd} {v : CView} {i : Nat} {bs : List Byte} (h : Sound K s) : Sound K (s.chunkResult c v i bs) := by
  unfold State.chunkResult
  dsimp only
  exact .ite h.updCmd (h.updCmd.foldl (fun h1 => h1.sendChunk))

theorem Sound.collStep {c : Cmd} {v : CView} (h : Sound K s) : ∀ u ∈ s.collStep c v, Sound K u := by
  unfold State.collStep
  dsimp only
  split
  · exact Sound.of_some h.same.updCmd
  · split
    · exact Sound.of_some h.same.chunkResult
    · split
      · exact Sound.of_none
      · split
        · exact Sound.of_some h.same.chunkResult
        · exact Sound.of_some h.same.updCmd.sendChunk

theorem Sound.collRun {fuel : Nat} (h : Sound K s) : Sound K (State.collRun fuel s) := by
  induction fuel generalizing s with
  | zero => exact h
  | succ fuel ih =>
    unfold State.collRun
    split
    next u e =>
      obtain ⟨c, -, e⟩ := List.exists_of_findSome?_eq_some e
      split at e
      · split at e
        · exact ih (h.collStep u e)
        · cases e
      · cases e
    · exact h

theorem Sound.rootBroadcast {cmd : Nat} (h : Sound K s) : Sound K (s.rootBroadcast cmd) := by
  unfold State.rootBroadcast
  split
  · exact h
  · split
    · exact h
    · exact .ite (h.foldl (fun h1 => h1.chunkResult)) h

theorem execColl_sound {cmd : Nat} (h : Sound K s) : ∀ u, execColl cmd s = .next u → Sound K u := by
  unfold execColl
  dsimp only
  refine Sound.of_next ?_
  refine Sound.collRun ?_
  refine Sound.rootBroadcast ?_
  refine h.runCmd ?_
  intro _ _ h1
  split
  · exact h1
  · split
    next e1 => exact h1.cmdRead.of_eq e1
    next e1 => exact (h1.cmdRead.of_eq e1).updCmd

theorem Sound.takeChunk {m : EvMsg} {down : Bool} (h : Sound K s) : Sound K (s.takeChunk m down) := by
  unfold State.takeChunk
  dsimp only
  exact .ite h h.same.collRun

/-! #### Queue instr -/

theorem Sound.rule {t : Team} {q : Nat} {ws : List Word} (h : Sound K s) : Sound K ((s.rule t q ws).2) := by
  unfold State.rule
  dsimp only
  split
  · exact h
  · exact h
  · exact h
  · exact h
  · exact h.ruleBase
  · exact h.ruleEmbag
  · exact h.ruleColl

theorem Sound.pushCmd {t : Tid} {recips : List Tid} {q : Nat} {grd : Option (BitVec 4)} {ws : List Word} (h : Sound K s) : Sound K
    ((s.pushCmd t recips q grd ws).1) := by
  unfold State.pushCmd
  dsimp only
  split
  · split
    · exact h
    · split
      · exact h
      · exact h.rule.acceptCmd
  · exact h

theorem Sound.pushPacket {t : Tid} {recips : List Tid} {q : Nat} {grd : Option (BitVec 4)} {ws : List Word} (h : Sound K s) : Sound K
    ((s.pushPacket t recips q grd ws).1) := by
  unfold State.pushPacket
  split
  · exact h.trapAll
  · split
    · split
      · exact h
      · split
        · exact h.trapAll
        · split
          · exact h.trapAll
          · split
            next e2 => exact h.push _ e2
            · exact h
    · exact h.pushCmd

theorem Sound.qsubOnce {o : QsubF} {act : List Tid} (h : Sound K s) : Sound K (s.qsubOnce o act) := by
  unfold State.qsubOnce
  dsimp only
  split
  · exact h
  · split
    next e => exact h.readRegs.pushPacket.of_eq_fst e
    next e => exact (h.readRegs.pushPacket.of_eq_fst e).parkWord

theorem execQsub_sound {h' : Hdr} {o : QsubF} (h : Sound K s) : ∀ u, execQsub h' o s = .next u → Sound K u := by
  unfold execQsub
  dsimp only
  refine Sound.of_next ?_
  refine h.word ?_
  intro _ _ h1
  split
  · exact Sound.of_none
  · exact Sound.of_some (Sound.ite h1.qsubOnce (h1.eachLane (fun h2 => h2.pushPacket)))

theorem execGset_sound {h' : Hdr} {g : BitVec 4} (h : Sound K s) : ∀ u, execGset h' g s = .next u → Sound K u := by
  unfold execGset
  refine Sound.of_next ?_
  refine h.word ?_
  intro _ _ h1
  refine Sound.of_some ?_
  split
  · exact h1
  · exact h1.updTeam

theorem execGres_sound {h' : Hdr} {o : GresF} (h : Sound K s) : ∀ u, execGres h' o s = .next u → Sound K u := by
  unfold execGres
  dsimp only
  refine Sound.of_next ?_
  refine h.word ?_
  intro _ _ h1
  refine Sound.of_some ?_
  split
  · exact h1
  · exact .ite h1 (.ite (h1.updTeam.foldl (fun h2 => h2.updCmd)) (h1.updTeam.foldl (fun h2 => h2.discard)))

theorem execQpop_sound {h' : Hdr} {o : R2} (h : Sound K s) : ∀ u, execQpop h' o s = .next u → Sound K u := by
  unfold execQpop
  dsimp only
  refine Sound.of_next ?_
  refine h.byLane ?_
  intro _ _ _ h1
  split
  · exact h1.result
  · split
    next e => exact (h1.pop _ e).result
    · exact h1

theorem execQstat_sound {h' : Hdr} {o : R2} (h : Sound K s) : ∀ u, execQstat h' o s = .next u → Sound K u := by
  unfold execQstat
  exact Sound.of_next (h.byLane (fun h1 => h1.result))

theorem execPresClear_sound {h : Hdr} {o : PresF} (hs : Sound K s) : ∀ u, execPresClear h o s = .next u → Sound K u := by
  exact Sound.of_next (hs.byLane fun h1 => h1.presDo fun h2 => h2.updTeam fun x => x.bone_unfill _)

theorem execQwait_sound {h : Hdr} {o : R3} (hs : Sound K s) : ∀ u, execQwait h o s = .next u → Sound K u := by
  refine Sound.of_next ?_
  refine hs.byLane ?_
  intro t vals s' h1
  split
  · exact h1
  next e =>
    split
    next taken => exact (h1.retake e (Team.takeTag_bone taken)).invalL1.unhold.result
    · exact h1.parkLane

theorem Sound.leaveQueue {t : Tid} {q : Nat} {f : Pend → Option Pend} (h : Sound K s) : Sound K (s.leaveQueue t q f) := by
  unfold State.leaveQueue
  dsimp only
  exact h.updThread.same

theorem execTeamQueuePush_sound {t : Tid} {q : Nat} {slot : Word} (h : Sound K s) : ∀ u, execTeamQueuePush t q slot s = .next u → Sound K u := by
  unfold execTeamQueuePush
  refine Sound.of_next ?_
  split
  · exact h
  next e => exact .ite ((h.push _ e).leaveQueue) (h.push _ e)

theorem Sound.lanePop {t : Tid} {q : Nat} (h : Sound K s) : Sound K (s.lanePop t q) := by
  unfold State.lanePop
  split
  · exact h
  next e => exact .ite ((h.pop _ e).leaveQueue) (h.pop _ e)

theorem execTeamQueuePop_sound {t : Tid} {q : Nat} (h : Sound K s) : ∀ u, execTeamQueuePop t q s = .next u → Sound K u := by
  unfold execTeamQueuePop
  exact Sound.of_next (Sound.ite h.lanePop h)

theorem execTokenPop_sound {t : Tid} {q : Nat} (h : Sound K s) : ∀ u, execTokenPop t q s = .next u → Sound K u := by
  unfold execTokenPop
  dsimp only
  exact Sound.of_next (Sound.ite h (.ite h.deliverAsync h.lanePop))

theorem Sound.landed {t : Tid} (h : Sound K s) : Sound K (s.landed t) := by
  unfold State.landed
  dsimp only
  exact .ite h (.ite h.passMarker.updThread.same h.passMarker.tryEnter)

theorem execLongResultLands_sound {t : Tid} {id : Nat} (h : Sound K s) : ∀ u, execLongResultLands t id s = .next u → Sound K u := by
  unfold execLongResultLands
  exact Sound.of_next h.landLong.landed

theorem execGapExpiry_sound {t : Tid} (h : Sound K s) : ∀ u, execGapExpiry t s = .next u → Sound K u := by
  unfold execGapExpiry
  exact Sound.of_next h.updThread

theorem execSleepExpiry_sound {t : Tid} (h : Sound K s) : ∀ u, execSleepExpiry t s = .next u → Sound K u := by
  unfold execSleepExpiry
  exact Sound.of_next h.updThread.passMarker

theorem execHandlerEntry_sound {t : Tid} (h : Sound K s) : ∀ u, execHandlerEntry t s = .next u → Sound K u := by
  unfold execHandlerEntry
  exact Sound.of_next h.tryEnter

/-! #### Hash -/

theorem execRrot_sound {h' : Hdr} {o : RrotF} (h : Sound K s) : ∀ u, execRrot h' o s = .next u → Sound K u := by
  unfold execRrot
  dsimp only
  refine Sound.of_next ?_
  refine h.word ?_
  intro _ _ h1
  split
  · split
    · exact Sound.of_some h1
    · split
      · exact Sound.of_some h1.trapAll
      · split
        · exact Sound.of_none
        · exact Sound.of_some h1.submit.updTeam.same
  · exact Sound.of_some h1

theorem Sound.rrotDisagree {b : List (RrotReq × Team)} (h : Sound K s) : Sound K (s.rrotDisagree b) := by
  unfold State.rrotDisagree
  refine h.foldl ?_
  intro _ _ h1
  split
  · exact h1
  · exact h1.lowerLines.updCmd.close

theorem Sound.rrotMove {b : List (RrotReq × Team)} (h : Sound K s) : Sound K (s.rrotMove b) := by
  unfold State.rrotMove
  dsimp only
  refine Sound.foldl ?_ ?_
  · exact h.foldl_snd (fun h1 => h1.poolRead)
  · intro _ _ h1
    split
    · exact h1.updCmd
    · exact h1.updCmd

theorem Sound.rrotExchange {cmd : Nat} (h : Sound K s) : Sound K (s.rrotExchange cmd) := by
  unfold State.rrotExchange
  dsimp only
  split
  · exact h
  · exact .ite h (.ite h.same.rrotMove h.same.rrotDisagree)

theorem Sound.putSlot {team pa k v : Nat} (h : Sound K s) : Sound K (s.putSlot team pa k v) := by
  unfold State.putSlot
  exact h.poolWrite

theorem Sound.searchSpill {t : Team} {h' : HashR} {k x x1 : Nat} (h : Sound K s) : Sound K ((s.searchSpill t h' k x x1).2) := by
  induction x generalizing s t h' k x1 with
  | zero =>
    unfold State.searchSpill
    dsimp only
    exact h
  | succ _ ih =>
    unfold State.searchSpill
    dsimp only
    split
    next e => exact h.readVa.of_eq e
    next e =>
      split
      · exact h.readVa.of_eq e
      · exact ih (h.readVa.of_eq e)

theorem Sound.putSpill {t : Team} {h' : HashR} {n k v : Nat} (h : Sound K s) : Sound K ((s.putSpill t h' n k v).2) := by
  unfold State.putSpill
  dsimp only
  split
  · split
    next e1 => exact h.probeVa.of_eq e1
    next e1 => exact (h.probeVa.of_eq e1).commitWrite.checkCommit
  · exact h.writeVa

theorem Sound.updHash {team : Nat} {f : HashR → HashR} (h : Sound K s) : Sound K (s.updHash team f) := by
  unfold State.updHash
  exact h.updTeam

theorem Sound.hashPut {t : Team} {h' : HashR} {f : Found} {k x ret : Nat} (h : Sound K s) : Sound K ((s.hashPut t h' f k x ret).2) := by
  unfold State.hashPut
  split
  · exact h.putSlot.updHash
  · split
    · split
      next e1 => exact h.putSpill.of_eq e1
      next e1 => exact (h.putSpill.of_eq e1).updHash
    · exact h

theorem Sound.hashLane {t : Team} {h' : HashR} {kind : HKind} {k x : Nat} (h : Sound K s) : ∀ u ∈ s.hashLane t h' kind k x, Sound K u.2 := by
  unfold State.hashLane
  dsimp only
  split
  · exact Sound.of_none_snd
  · split
    · exact Sound.of_some_snd h
    · refine Sound.of_some_snd ?_
      split
      · exact h
      · exact h
      · exact h.putSlot.updHash
      · exact h.putSlot
    · split
      next e2 =>
        refine Sound.of_some_snd ?_
        refine Sound.of_eq ?_ e2
        split
        · exact h
        · exact h.searchSpill
      next e2 =>
        split
        · refine Sound.of_some_snd ?_
          refine Sound.of_eq ?_ e2
          split
          · exact h
          · exact h.searchSpill
        · refine Sound.of_some_snd ?_
          refine Sound.of_eq ?_ e2
          split
          · exact h
          · exact h.searchSpill
        · split
          next e3 =>
            refine Sound.of_some_snd ?_
            refine Sound.of_eq ?_ e3
            refine Sound.putSpill ?_
            refine Sound.of_eq ?_ e2
            split
            · exact h
            · exact h.searchSpill
          next e3 =>
            refine Sound.of_some_snd ?_
            refine Sound.updHash ?_
            refine Sound.of_eq ?_ e3
            refine Sound.putSpill ?_
            refine Sound.of_eq ?_ e2
            split
            · exact h
            · exact h.searchSpill
        · split
          next e3 =>
            refine Sound.of_some_snd ?_
            refine Sound.of_eq ?_ e3
            refine Sound.putSpill ?_
            refine Sound.of_eq ?_ e2
            split
            · exact h
            · exact h.searchSpill
          next e3 =>
            refine Sound.of_some_snd ?_
            refine Sound.of_eq ?_ e3
            refine Sound.putSpill ?_
            refine Sound.of_eq ?_ e2
            split
            · exact h
            · exact h.searchSpill
      next e2 =>
        split
        · refine Sound.of_some_snd ?_
          refine Sound.of_eq ?_ e2
          split
          · exact h
          · exact h.searchSpill
        · refine Sound.of_some_snd ?_
          refine Sound.of_eq ?_ e2
          split
          · exact h
          · exact h.searchSpill
        · refine Sound.of_some_snd ?_
          refine Sound.hashPut ?_
          refine Sound.of_eq ?_ e2
          split
          · exact h
          · exact h.searchSpill
        · refine Sound.of_some_snd ?_
          refine Sound.hashPut ?_
          refine Sound.of_eq ?_ e2
          split
          · exact h
          · exact h.searchSpill

theorem Sound.waveFault {o : WaveOp} {t : Tid} {long code addr : Nat} (h : Sound K s) : Sound K (s.waveFault o t long code addr) := by
  unfold State.waveFault
  exact h.lateFault

theorem Sound.hashAnswer {o : WaveOp} {d : Reg} {r : HAns} (h : Sound K s) : Sound K (s.hashAnswer o d r) := by
  unfold State.hashAnswer
  dsimp only
  split
  · exact h.giveLong
  · exact h.giveLong.asyncFault

theorem Sound.applyLane {o : WaveOp} {d : Reg} {kind : HKind} (h : Sound K s) : ∀ u ∈ s.applyLane o d kind, Sound K u := by
  unfold State.applyLane
  split
  · exact Sound.of_some h
  · split
    · exact Sound.of_some h.waveFault
    · intro u e
      obtain ⟨r, found, rfl⟩ := Option.mem_map.1 e
      exact (h.hashLane _ found).hashAnswer

theorem Sound.applyClaim {o : WaveOp} (h : Sound K s) : ∀ u ∈ s.applyClaim o, Sound K u := by
  unfold State.applyClaim
  dsimp only
  split
  · exact Sound.of_some h
  · split
    · exact Sound.of_some (h.foldl (fun h1 => h1.waveFault))
    · split
      · exact Sound.of_none
      · exact Sound.of_some h.updTeam.submit

theorem Sound.submitDrain {o : WaveOp} {c : Cmd} {ranges : List Rng} (h : Sound K s) : Sound K ((s.submitDrain o c ranges).2) := by
  unfold State.submitDrain
  dsimp only
  exact h.submit.updCmd

theorem Sound.failDrain {o : WaveOp} {c : Cmd} {e : Nat × Nat} (h : Sound K s) : Sound K (s.failDrain o c e) := by
  unfold State.failDrain
  dsimp only
  exact h.submitDrain.updCmd.close

theorem Sound.applyDrain {o : WaveOp} {tag : Nat} (h : Sound K s) : ∀ u ∈ s.applyDrain o tag, Sound K u := by
  unfold State.applyDrain
  dsimp only
  split
  · exact Sound.of_some h
  · split
    · exact Sound.of_some (h.foldl (fun h1 => h1.waveFault))
    · split
      · exact Sound.of_none
      · refine Sound.of_some ?_
        split
        · exact h.failDrain
        next e3 =>
          refine Sound.failDrain ?_
          refine Sound.of_eq ?_ e3
          split
          · exact h
          · exact h.readVa
        next e3 =>
          split
          next e4 =>
            refine Sound.failDrain ?_
            refine Sound.of_eq ?_ e4
            refine Sound.probeVa ?_
            refine Sound.of_eq ?_ e3
            split
            · exact h
            · exact h.readVa
          next e4 =>
            refine Sound.submitDrain ?_
            refine Sound.updHash ?_
            refine Sound.poolWrite ?_
            refine Sound.of_eq ?_ e4
            refine Sound.probeVa ?_
            refine Sound.of_eq ?_ e3
            split
            · exact h
            · exact h.readVa

theorem Sound.hashApply {o : WaveOp} (h : Sound K s) : ∀ u ∈ s.hashApply o, Sound K u := by
  unfold State.hashApply
  split
  · exact h.applyLane
  · exact h.applyLane
  · exact h.applyLane
  · exact h.applyLane
  · exact h.applyClaim
  · exact h.applyDrain
  · refine Sound.of_some ?_
    split
    · exact h.updTeam
    · exact h.foldl (fun h1 => h1.waveFault)
  · refine Sound.of_some ?_
    split
    · exact h.foldl (fun h1 => h1.giveLong)
    · exact h.foldl (fun h1 => h1.waveFault)
  · exact Sound.of_some h

theorem Sound.joinAll {d : Option Reg} {n : Nat} {det : Bool} {x : List Tid} (h : Sound K s) : Sound K ((s.joinAll d n det x).2) := by
  induction x generalizing s with
  | nil =>
    unfold State.joinAll
    dsimp only
    exact h
  | cons _ _ ih =>
    unfold State.joinAll
    dsimp only
    refine ih ?_
    split
    · refine Sound.updThread ?_
      split
      · exact h.waitLong
      · exact h
    · split
      · exact h.waitLong
      · exact h

theorem Sound.hashIssue {act : List Tid} {d : Option Reg} {n : Nat} {vals : List (List Word)} (h : Sound K s) : Sound K (s.hashIssue act d n vals) :=
    by
  unfold State.hashIssue
  dsimp only
  split
  · split
    · exact h
    · split
      · exact h.fresh.joinAll.updTeam
      · split
        next e2 => exact h.fresh.joinAll.hashApply _ e2
        · exact h.fresh.joinAll.updTeam
  · exact h

theorem Sound.hashWord {h' : Hdr} {d : Reg} {ops : List Opd} (h : Sound K s) : Sound K (s.hashWord h' d ops) := by
  unfold State.hashWord
  dsimp only
  refine h.byLane ?_
  intro _ _ _ h1
  split
  · exact h1.trap
  · split
    · exact h1.trap
    · exact h1.hashIssue

theorem execHins_sound {h' : Hdr} {o : R3} (h : Sound K s) : ∀ u, execHins h' o s = .next u → Sound K u := by
  unfold execHins
  exact Sound.of_next h.hashWord

theorem execHprobe_sound {h' : Hdr} {o : R2} (h : Sound K s) : ∀ u, execHprobe h' o s = .next u → Sound K u := by
  unfold execHprobe
  exact Sound.of_next h.hashWord

theorem execHdel_sound {h' : Hdr} {o : R2} (h : Sound K s) : ∀ u, execHdel h' o s = .next u → Sound K u := by
  unfold execHdel
  exact Sound.of_next h.hashWord

theorem execHacc_sound {h' : Hdr} {o : HaccF} (h : Sound K s) : ∀ u, execHacc h' o s = .next u → Sound K u := by
  unfold execHacc
  exact Sound.of_next h.hashWord

theorem Sound.hashTeam {h' : Hdr} {ops : List Opd} {d : Option Reg} {src : Option (Reg × Nat)} {region : Bool}
    {trap : State → Team → List Word → Option (Nat × Nat)} {hold : State → List Tid → Team → List Word → Bool} {full : State → Team → Bool}
    (h : Sound K s) : Sound K (s.hashTeam h' ops d src region trap hold full) := by
  unfold State.hashTeam
  dsimp only
  refine h.word ?_
  intro _ _ h1
  split
  · exact Sound.of_some h1
  · split
    · exact Sound.of_some h1
    · split
      · exact Sound.of_some h1.trapAll
      · split
        · exact Sound.of_some h1.trapAll
        · split
          · split
            · exact Sound.of_none
            · split
              · exact Sound.of_some h1.parkWord
              · exact Sound.of_some h1.hashIssue
          · split
            · exact Sound.of_none
            · split
              · exact Sound.of_some h1.parkWord
              · exact Sound.of_some h1.hashIssue

theorem execHclaim_sound {h' : Hdr} {a : Reg} (h : Sound K s) : ∀ u, execHclaim h' a s = .next u → Sound K u := by
  unfold execHclaim
  dsimp only
  exact Sound.of_next h.hashTeam

theorem execHfree_sound {h' : Hdr} (h : Sound K s) : ∀ u, execHfree h' s = .next u → Sound K u := by
  unfold execHfree
  exact Sound.of_next h.hashTeam

theorem execHdrain_sound {h' : Hdr} {o : HdrainF} (h : Sound K s) : ∀ u, execHdrain h' o s = .next u → Sound K u := by
  unfold execHdrain
  exact Sound.of_next h.hashTeam

theorem execHstat_sound {h' : Hdr} {o : HstatF} (h : Sound K s) : ∀ u, execHstat h' o s = .next u → Sound K u := by
  unfold execHstat
  exact Sound.of_next h.hashTeam

theorem Sound.performAcc {o : WaveOp} (h : Sound K s) : ∀ u ∈ s.performAcc o, Sound K u := by
  unfold State.performAcc
  split
  · exact Sound.of_some h.ldAct
  · exact Sound.of_some h.stAct
  · exact Sound.of_some h.stAct
  · exact Sound.of_some h.atomDo
  · exact Sound.of_some h.atomDo
  · exact Sound.of_some h.redDo
  · exact Sound.of_some h.redseqDo
  · exact Sound.of_some h.poolGet
  · exact Sound.of_some h.poolGet
  · exact Sound.of_some h.poolPut
  · exact Sound.of_some h.poolPut
  · exact Sound.of_some h.atomsAct
  · exact Sound.of_none

theorem Sound.applyOp {o : WaveOp} (h : Sound K s) : ∀ u ∈ s.applyOp o, Sound K u := by
  unfold State.applyOp
  split
  · exact Sound.of_none
  · split
    next e =>
      exact Sound.of_some ((h.performAcc _ e).performedFor)
    · exact h.hashApply

theorem Sound.applyOps {team : Nat} {x : List WaveOp} (h : Sound K s) : Sound K (s.applyOps team x) := by
  induction x generalizing s with
  | nil =>
    unfold State.applyOps
    exact h
  | cons _ _ ih =>
    unfold State.applyOps
    split
    · exact h
    next e => exact ih ((h.applyOp _ e).updTeam.unhold)

theorem Sound.applyWave {team : Nat} (h : Sound K s) : Sound K (s.applyWave team) := by
  unfold State.applyWave
  split
  · exact h
  · split
    · exact h
    · exact .ite h h.applyOps.updTeam

theorem Sound.performLsu {o : WaveOp} (h : Sound K s) : Sound K (s.performLsu o) := by
  unfold State.performLsu
  dsimp only
  refine Sound.unhold ?_
  split
  · split
    · refine Sound.lateFault ?_
      split
      · split
        · exact h.updTeam.mailPool
        · exact h.updTeam
      · exact h.updTeam
    · exact h.updTeam.getD h.updTeam.performAcc
  · refine Sound.performedFor ?_
    split
    · refine Sound.lateFault ?_
      split
      · split
        · exact h.updTeam.mailPool
        · exact h.updTeam
      · exact h.updTeam
    · exact h.updTeam.getD h.updTeam.performAcc

theorem Sound.drainLsu {x : List WaveOp} (h : Sound K s) : Sound K (s.drainLsu x) := by
  induction x generalizing s with
  | nil =>
    unfold State.drainLsu
    exact h
  | cons _ _ ih =>
    unfold State.drainLsu
    exact ih (.ite h.performLsu h)

theorem execWaveApply_sound {team : Nat} (h : Sound K s) : ∀ u, execWaveApply team s = .next u → Sound K u := by
  unfold execWaveApply
  dsimp only
  exact Sound.of_next h.applyWave.drainLsu

theorem Sound.applyWaves {team x : Nat} (h : Sound K s) : Sound K (State.applyWaves team x s) := by
  induction x generalizing s with
  | zero =>
    unfold State.applyWaves
    exact h
  | succ _ ih =>
    unfold State.applyWaves
    dsimp only
    exact .ite h (ih h.applyWave)

theorem Sound.touchFault {t : Team} {o : WaveOp} {e : Nat × Nat} (h : Sound K s) : Sound K (s.touchFault t o e) := by
  unfold State.touchFault
  dsimp only
  split
  · exact h.updTeam.hashAnswer
  · exact h.updTeam.hashAnswer
  · exact h.updTeam.hashAnswer
  · exact h.updTeam.hashAnswer
  · exact h.updTeam.failDrain
  · exact h.updTeam.waveFault

theorem Sound.faultAt {t : Tid} {e : Nat × Nat} (h : Sound K s) : Sound K (s.faultAt t e) := by
  unfold State.faultAt
  split
  · exact h
  · exact h.takeFault

theorem Sound.dropTouching {t : Tid} {touch : Nat} {e : Nat × Nat} (h : Sound K s) : Sound K (s.dropTouching t touch e) := by
  unfold State.dropTouching
  dsimp only
  split
  · exact h
  · exact .ite h h.updThread.faultAt

theorem Sound.reloadCmd {lo : Nat} {e : Nat × Nat} {c : Cmd} (h : Sound K s) : Sound K (s.reloadCmd lo e c) := by
  unfold State.reloadCmd
  dsimp only
  exact .ite h (.ite h.updCmd.same h.updCmd)

theorem Sound.reloadFault {team : Nat} {why : Park} {touch : Nat} {lo : Option Nat} {e : Nat × Nat} (h : Sound K s) : Sound K
    (s.reloadFault team why touch lo e) := by
  unfold State.reloadFault
  dsimp only
  split
  · exact h.foldl (fun h1 => (Sound.ite h1.faultAt h1).dropTouching)
  · refine Sound.foldl ?_ (fun h1 => h1.reloadCmd)
    exact h.foldl (fun h1 => (Sound.ite h1.faultAt h1).dropTouching)

theorem Sound.entryFault {tm : Team} {id : Nat} {e : Nat × Nat} (h : Sound K s) : Sound K (s.entryFault tm id e) := by
  unfold State.entryFault
  refine h.foldl ?_
  intro _ _ h1
  refine h1.foldl ?_
  intro _ _ h2
  split
  · exact .ite h2.errorRecord.killTeam h2
  · exact h2

theorem execSegmentReload_sound {team seg : Nat} (h : Sound K s) : ∀ u, execSegmentReload team seg s = .next u → Sound K u := by
  unfold execSegmentReload
  dsimp only
  refine Sound.of_next ?_
  split
  · exact h
  · split
    · exact h
    · split
      · split
        · exact h
        · split
          next e2 => exact (h.readVa.of_eq e2).reloadFault.foldl (fun h1 => .ite h1.touchFault h1)
          next e2 => exact (h.readVa.of_eq e2).updTeam.wakeTeam
      · split
        · exact h
        · split
          · exact h
          · split
            next e3 => exact (h.readVa.of_eq e3).reloadFault.entryFault
            next e3 =>
              refine Sound.wakeAll ?_
              refine Sound.same ?_
              exact (h.readVa.of_eq e3).foldl (fun h1 => h1.updGroup)

/-! #### Matrix -/

theorem Sound.enterArray {c : Cur} {tm : Team} {group : Nat} {set : List Tid} {m : MCmd} (h : Sound K s) : Sound K
    ((s.enterArray c tm group set m).2) := by
  unfold State.enterArray
  dsimp only
  exact h.submit

theorem Sound.arrayOnce {act : List Tid} {judge : State → Team → Tid → List Tid → MIssue} {after : Nat → List Tid → State → State} (h : Sound K s)
    (hafter : ∀ {a a1 s'}, Sound K s' → Sound K (after a a1 s')) : ∀ u ∈ s.arrayOnce act judge after, Sound K u := by
  unfold State.arrayOnce
  dsimp only
  split
  · split
    · exact Sound.of_none
    · split
      · exact Sound.of_some h
      · split
        · exact Sound.of_some h.trapAll
        · split
          · exact Sound.of_some h.parkWord
          · exact Sound.of_some (hafter h.enterArray)
  · exact Sound.of_some h

theorem Sound.arrayWord {h' : Hdr} {ops : List Opd} {d : Option Reg} {judge : State → Team → Tid → List Tid → MIssue}
    {after : Nat → List Tid → State → State} (h : Sound K s) (hafter : ∀ {a a1 s'}, Sound K s' → Sound K (after a a1 s')) : Sound K
    (s.arrayWord h' ops d judge after) := by
  unfold State.arrayWord
  exact h.word (fun h1 => h1.arrayOnce hafter)

theorem execMloop_sound {h' : Hdr} {o : MloopF} (h : Sound K s) : ∀ u, execMloop h' o s = .next u → Sound K u := by
  unfold execMloop
  exact Sound.of_next (h.arrayWord (fun h1 => h1))

theorem Sound.mloopSteps {c : Cmd} {f : Word} {ev : State → State} {x : List (Nat × Int × Int)} {x1 : List (List Nat)} (h : Sound K s)
    (hev : ∀ {s'}, Sound K s' → Sound K (ev s')) : Sound K ((s.mloopSteps c f ev x x1).2) := by
  induction x generalizing s c f ev x1 with
  | nil =>
    unfold State.mloopSteps
    dsimp only
    exact h
  | cons _ _ ih =>
    unfold State.mloopSteps
    dsimp only
    split
    next e => exact h.cmdReads.of_eq e
    next e =>
      refine ih ?_ hev
      exact (h.cmdReads.of_eq e).foldl (fun h1 => hev h1)

theorem Sound.mloopRun {c : Cmd} {o : MloopF} (h : Sound K s) : Sound K ((s.mloopRun c o).2) := by
  unfold State.mloopRun
  dsimp only
  split
  next e =>
    refine Sound.of_eq ?_ e
    split
    · exact h.cmdRead
    · exact h
  next e =>
    split
    next e1 =>
      refine Sound.of_eq ?_ e1
      refine Sound.mloopSteps ?_ ?_
      · refine Sound.of_eq ?_ e
        split
        · exact h.cmdRead
        · exact h
      · intro _ h1
        split
        · exact h1.event
        · exact h1
    next e1 =>
      refine Sound.of_eq ?_ e1
      refine Sound.mloopSteps ?_ ?_
      · refine Sound.of_eq ?_ e
        split
        · exact h.cmdRead
        · exact h
      · intro _ h1
        split
        · exact h1.event
        · exact h1

theorem execMzero_sound {h' : Hdr} {o : MzeroF} (h : Sound K s) : ∀ u, execMzero h' o s = .next u → Sound K u := by
  unfold execMzero
  exact Sound.of_next (h.arrayWord (fun h1 => h1))

theorem execMdrain_sound {h' : Hdr} {o : MdrainF} (h : Sound K s) : ∀ u, execMdrain h' o s = .next u → Sound K u := by
  unfold execMdrain
  exact Sound.of_next (h.arrayWord (fun h1 => h1))

theorem execMstore_sound {h' : Hdr} {o : MdrainF} (h : Sound K s) : ∀ u, execMstore h' o s = .next u → Sound K u := by
  unfold execMstore
  exact Sound.of_next (h.arrayWord (fun h1 => h1))

theorem Sound.drainRun {c : Cmd} {o : MdrainF} {pool : Bool} (h : Sound K s) : Sound K ((s.drainRun c o pool).2) := by
  unfold State.drainRun
  dsimp only
  split
  next e => exact h.cmdRead.of_eq e
  next e => exact h.cmdRead.of_eq e

theorem execMstadd_sound {h' : Hdr} {o : MstaddF} (h : Sound K s) : ∀ u, execMstadd h' o s = .next u → Sound K u := by
  unfold execMstadd
  exact Sound.of_next (h.arrayWord (fun h1 => h1))

theorem Sound.probeTile {ctx : Nat} {x : List Nat} (h : Sound K s) : Sound K ((s.probeTile ctx x).2) := by
  induction x generalizing s with
  | nil =>
    unfold State.probeTile
    dsimp only
    exact h
  | cons _ _ ih =>
    unfold State.probeTile
    dsimp only
    split
    next e => exact h.probeVa.of_eq e
    next e =>
      split
      · split
        · exact .ite ((h.probeVa.of_eq e).mailUe) (h.probeVa.of_eq e)
        · exact h.probeVa.of_eq e
      · exact ih (h.probeVa.of_eq e)

theorem Sound.tileSums {c : Cmd} {pool : Bool} {as : List Nat} {rs : List (List Word)} (h : Sound K s) : Sound K (s.tileSums c pool as rs).2 := by
  induction as generalizing s rs with
  | nil => exact h
  | cons a as ih =>
    cases rs with
    | nil => exact h
    | cons r rs =>
      unfold State.tileSums
      split
      next e => exact h.cmdRead.of_eq e
      next e =>
        have more := ih (rs := rs) (h.cmdRead.of_eq e)
        split
        next e2 => exact more.of_eq e2
        next e2 => exact more.of_eq e2

theorem Sound.tileUpdate {c : Cmd} {pool : Bool} {base stride : Nat} {vals : List Word} (h : Sound K s) : Sound K
    ((s.tileUpdate c pool base stride vals).2) := by
  unfold State.tileUpdate
  dsimp only
  split
  next e =>
    refine Sound.of_eq ?_ e
    split
    · exact h
    · exact h.probeTile
  next e =>
    refine Sound.tileSums ?_
    refine Sound.of_eq ?_ e
    split
    · exact h
    · exact h.probeTile

theorem Sound.mstaddRun {c : Cmd} {o : MstaddF} (h : Sound K s) : Sound K ((s.mstaddRun c o).2) := by
  unfold State.mstaddRun
  dsimp only
  split
  next e => exact h.cmdRead.of_eq e
  next e => exact (h.cmdRead.of_eq e).updCmd

theorem Sound.handOver {c : Cmd} (h : Sound K s) : Sound K (s.handOver c) := by
  unfold State.handOver
  dsimp only
  exact .ite h.same h

theorem Sound.mstaddDone {c : Cmd} {pool : Bool} (h : Sound K s) : Sound K (s.mstaddDone c pool) := by
  unfold State.mstaddDone
  dsimp only
  split
  · exact h
  · split
    next e => exact (h.tileUpdate.of_eq e).updCmd
    next e => exact (h.tileUpdate.of_eq e).updCmd

theorem execMldf_sound {h' : Hdr} {o : MldfF} (h : Sound K s) : ∀ u, execMldf h' o s = .next u → Sound K u := by
  unfold execMldf
  exact Sound.of_next (h.arrayWord (fun h1 => h1))

theorem Sound.mldfRun {c : Cmd} {o : MldfF} (h : Sound K s) : Sound K ((s.mldfRun c o).2) := by
  unfold State.mldfRun
  dsimp only
  split
  next e => exact h.cmdRead.of_eq e
  next e => exact h.cmdRead.of_eq e

theorem execMscan_sound {h' : Hdr} {o : MscanF} (h : Sound K s) : ∀ u, execMscan h' o s = .next u → Sound K u := by
  unfold execMscan
  exact Sound.of_next (h.arrayWord (fun h1 => h1))

theorem Sound.mscanRun {c : Cmd} {o : MscanF} (h : Sound K s) : Sound K ((s.mscanRun c o).2) := by
  unfold State.mscanRun
  dsimp only
  split
  next e => exact h.cmdReads.of_eq e
  next e => exact h.cmdReads.of_eq e

theorem execMcarry_sound {h' : Hdr} {o : McarryF} (h : Sound K s) : ∀ u, execMcarry h' o s = .next u → Sound K u := by
  unfold execMcarry
  dsimp only
  exact Sound.of_next (h.arrayWord (fun h1 => h1.joinAll.updCmd))

theorem Sound.mcarryRun {c : Cmd} {o : McarryF} (h : Sound K s) : Sound K ((s.mcarryRun c o).2) := by
  unfold State.mcarryRun
  dsimp only
  exact h.foldl (fun h1 => h1.giveLong)

theorem Sound.mwait {h' : Hdr} {ops : List Opd} {illReg : State → Tid → Bool} {kind : MKind} {d : Option Reg} (h : Sound K s) : Sound K
    (s.mwait h' ops illReg kind d) := by
  unfold State.mwait
  dsimp only
  refine h.word ?_
  intro _ _ h1
  split
  · exact Sound.of_some h1
  · exact Sound.of_some (h1.deliverPoint.foldl (fun h2 => .ite h2.parkLane (.ite h2.invalL1 h2)))

theorem execMwaitConsumed_sound {h' : Hdr} {d : Reg} (h : Sound K s) : ∀ u, execMwaitConsumed h' d s = .next u → Sound K u := by
  unfold execMwaitConsumed
  exact Sound.of_next h.mwait

theorem execMwaitDone_sound {h' : Hdr} {d : Reg} (h : Sound K s) : ∀ u, execMwaitDone h' d s = .next u → Sound K u := by
  unfold execMwaitDone
  exact Sound.of_next h.mwait

theorem execMwaitAll_sound {h' : Hdr} (h : Sound K s) : ∀ u, execMwaitAll h' s = .next u → Sound K u := by
  unfold execMwaitAll
  exact Sound.of_next h.mwait

theorem Sound.arrayRun {c : Cmd} (h : Sound K s) : Sound K ((s.arrayRun c).2) := by
  unfold State.arrayRun
  split
  · exact h.mloopRun
  · exact h
  · exact h.drainRun
  · exact h.drainRun
  · exact h.mstaddRun
  · exact h.mldfRun
  · exact h.mscanRun
  · exact h.mcarryRun
  · exact h

theorem Sound.consumeId {id : Nat} (h : Sound K s) : Sound K (s.consumeId id) := by
  unfold State.consumeId
  dsimp only
  split
  · exact h
  · split
    · exact h.consume
    · exact h.consume.handOver

theorem execConsumedPoint_sound {cmd : Nat} (h : Sound K s) : ∀ u, execConsumedPoint cmd s = .next u → Sound K u := by
  unfold execConsumedPoint
  refine Sound.of_next ?_
  split
  · exact h
  · split
    · exact h.settleTokens
    · split
      · split
        · refine Sound.consumeId ?_
          exact h.runNow (fun h1 => h1.arrayRun)
        · exact h
      · exact .ite h.rrotExchange h
      · exact .ite h.consumeId h

theorem execDonePoint_sound {cmd : Nat} (h : Sound K s) : ∀ u, execDonePoint cmd s = .next u → Sound K u := by
  unfold execDonePoint
  dsimp only
  refine Sound.of_next ?_
  split
  · exact h
  · split
    · exact h.settleTokens
    · split
      · split
        · split
          · exact h.mstaddDone
          · exact h
        · refine Sound.finish ?_
          split
          · exact h.mstaddDone
          · exact h
      · exact h

/-! #### Rings -/

theorem Sound.updRing {r : Ring} {f : Ring → Ring} (h : Sound K s) : Sound K (s.updRing r f) := by
  unfold State.updRing
  exact h.same

theorem Sound.ringWrite {w : Who} {va : Nat} {bs : List Byte} (h : Sound K s) : Sound K ((s.ringWrite w va bs).2) := by
  unfold State.ringWrite
  dsimp only
  split
  · split
    · split
      next e2 => exact h.probeVa.of_eq e2
      next e2 => exact (h.probeVa.of_eq e2).commitWrite.checkCommit
    · exact h.writeVa
  · split
    · split
      next e2 => exact h.probeVa.of_eq e2
      next e2 => exact (h.probeVa.of_eq e2).commitWrite.checkCommit
    · exact h.writeVa

theorem Sound.defineRing {t : Tid} {tm : Team} {va : Nat} (h : Sound K s) : Sound K ((s.defineRing t tm va).2) := by
  unfold State.defineRing
  dsimp only
  split
  · exact h
  · split
    next e => exact h.translate.of_eq e
    next e =>
      split
      · exact h.translate.of_eq e
      · split
        next e1 => exact (h.translate.of_eq e).readVa.of_eq e1
        next e1 =>
          split
          · split
            next e4 => exact ((h.translate.of_eq e).readVa.of_eq e1).pick.ringWrite.of_eq e4
            next e4 => exact (((h.translate.of_eq e).readVa.of_eq e1).pick.ringWrite.of_eq e4).same
          · exact (h.translate.of_eq e).readVa.of_eq e1

theorem Sound.ringTeamOp {h' : Hdr} {ops : List Opd} {f : State → Tid → Team → List Tid → Option (Nat × Nat) × State} (h : Sound K s)
    (hf : ∀ {s' a1 a2 a3}, Sound K s' → Sound K ((f s' a1 a2 a3).2)) : Sound K (s.ringTeamOp h' ops f) := by
  unfold State.ringTeamOp
  refine h.word ?_
  intro _ _ h1
  split
  · exact Sound.of_some h1
  · split
    · exact Sound.of_some h1
    · split
      next e1 =>
        exact Sound.of_some ((hf h1).of_eq e1)
      next e1 =>
        exact Sound.of_some (((hf h1).of_eq e1).trapAll)

theorem execRdefDefine_sound {h' : Hdr} {o : R2} (h : Sound K s) : ∀ u, execRdefDefine h' o s = .next u → Sound K u := by
  unfold execRdefDefine
  refine Sound.of_next ?_
  refine h.ringTeamOp ?_
  intro _ _ _ _ h1
  split
  next e => exact h1.defineRing.of_eq e
  next e => exact (h1.defineRing.of_eq e).foldl (fun h2 => h2.result)

theorem Sound.writeBack {r : Ring} {w : Option Who} (h : Sound K s) : Sound K ((s.writeBack r w).2) := by
  unfold State.writeBack
  dsimp only
  split
  · exact h.ringWrite
  · exact h.writeVa

theorem Sound.dropRing {r : Ring} (h : Sound K s) : Sound K (s.dropRing r) := by
  unfold State.dropRing
  dsimp only
  exact h.same

theorem execRdefFree_sound {h' : Hdr} {a : Reg} (h : Sound K s) : ∀ u, execRdefFree h' a s = .next u → Sound K u := by
  unfold execRdefFree
  refine Sound.of_next ?_
  refine h.ringTeamOp ?_
  intro _ _ _ _ h1
  split
  · exact h1
  · split
    next e1 => exact h1.writeBack.of_eq e1
    next e1 => exact (h1.writeBack.of_eq e1).dropRing

theorem execRdefAdopt_sound {h' : Hdr} {a : Reg} (h : Sound K s) : ∀ u, execRdefAdopt h' a s = .next u → Sound K u := by
  unfold execRdefAdopt
  dsimp only
  refine Sound.of_next ?_
  refine h.ringTeamOp ?_
  intro _ _ _ _ h1
  split
  · exact h1
  · split
    next e1 => exact h1.ringWrite.of_eq e1
    next e1 => exact (h1.ringWrite.of_eq e1).updRing

theorem execRpush_sound {h' : Hdr} {o : RpushF} (h : Sound K s) : ∀ u, execRpush h' o s = .next u → Sound K u := by
  unfold execRpush
  dsimp only
  refine Sound.of_next ?_
  refine h.byLane ?_
  intro _ _ _ h1
  split
  · exact h1
  · split
    · exact h1.trap
    · split
      · exact h1.trap
      · split
        · exact h1.trap
        · split
          · exact h1.putPred
          · split
            next e2 => exact (h1.ringWrite.of_eq e2).trap
            next e2 => exact (h1.ringWrite.of_eq e2).updRing.putPred

theorem Sound.ringTake {t : Tid} {d : Reg} {n : Nat} {h' : Word} {steal : Bool} (h : Sound K s) : Sound K (s.ringTake t d n h' steal) := by
  unfold State.ringTake
  dsimp only
  split
  · exact h
  · split
    · exact h.result
    · split
      · exact h.result
      · split
        · exact h.result
        · split
          next e2 => exact (h.readVa.of_eq e2).laneTrap
          next e2 => exact (h.readVa.of_eq e2).updRing.invalL1.result

theorem Sound.ringTakes {h' : Hdr} {o : RpopF} {steal : Bool} (h : Sound K s) : Sound K (s.ringTakes h' o steal) := by
  unfold State.ringTakes
  dsimp only
  exact h.byLane (fun h1 => .ite h1.trap h1.ringTake)

theorem execRpop_sound {h' : Hdr} {o : RpopF} (h : Sound K s) : ∀ u, execRpop h' o s = .next u → Sound K u := by
  unfold execRpop
  exact Sound.of_next h.ringTakes

theorem execRsteal_sound {h' : Hdr} {o : RpopF} (h : Sound K s) : ∀ u, execRsteal h' o s = .next u → Sound K u := by
  unfold execRsteal
  exact Sound.of_next h.ringTakes

theorem execRenq_sound {h' : Hdr} {o : RenqF} (h : Sound K s) : ∀ u, execRenq h' o s = .next u → Sound K u := by
  unfold execRenq
  dsimp only
  refine Sound.of_next ?_
  refine h.byLane ?_
  intro _ _ _ h1
  split
  · exact h1
  · split
    · split
      · exact h1.trap
      · exact h1.fresh.same
    · split
      · exact h1.trap
      · exact h1.fresh.same

theorem Sound.dropPacket {p : RenqPkt} {code : Nat} (h : Sound K s) : Sound K (s.dropPacket p code) := by
  unfold State.dropPacket
  exact h.mail

theorem Sound.pktWrite {p : RenqPkt} {va : Nat} {bs : List Byte} (h : Sound K s) : Sound K ((s.pktWrite p va bs).2) := by
  unfold State.pktWrite
  split
  · exact h.writeVa
  · exact h.ringWrite

theorem Sound.appendPkt {r : Ring} {p : RenqPkt} (h : Sound K s) : Sound K ((s.appendPkt r p).2) := by
  unfold State.appendPkt
  split
  · exact h
  · split
    next e => exact h.pktWrite.of_eq e
    next e => exact (h.pktWrite.of_eq e).updRing

theorem Sound.holdPkt {die : Nat} {p : RenqPkt} (h : Sound K s) : ∀ u ∈ s.holdPkt die p, Sound K u := by
  unfold State.holdPkt
  dsimp only
  split
  · exact Sound.of_none
  · exact Sound.of_some h.pktWrite.same

theorem Sound.unheld {die : Nat} {p : RenqPkt} (h : Sound K s) : Sound K ((s.unheld die p).2) := by
  unfold State.unheld
  dsimp only
  split
  · exact h
  · split
    next e1 => exact h.readVa.of_eq e1
    next e1 => exact h.readVa.of_eq e1

theorem Sound.returnPkt {p : RenqPkt} (h : Sound K s) : ∀ u ∈ s.returnPkt p, Sound K u := by
  unfold State.returnPkt
  dsimp only
  split
  · exact Sound.of_some h.dropPacket
  · split
    · exact h.holdPkt
    · split
      next e1 =>
        exact Sound.of_some (h.appendPkt.of_eq e1)
      next e1 =>
        exact Sound.of_some ((h.appendPkt.of_eq e1).dropPacket)

theorem Sound.takePkt {p : RenqPkt} (h : Sound K s) : ∀ u ∈ s.takePkt p, Sound K u := by
  unfold State.takePkt
  split
  · exact h.returnPkt
  · split
    · exact h.holdPkt
    · split
      next e1 =>
        exact Sound.of_some (h.appendPkt.of_eq e1)
      next e1 =>
        exact Sound.of_some ((h.appendPkt.of_eq e1).dropPacket)

theorem execRenqArrival_sound {id : Nat} (h : Sound K s) : ∀ u, execRenqArrival id s = .next u → Sound K u := by
  unfold execRenqArrival
  refine Sound.of_next ?_
  split
  · exact h
  · exact .ite h (h.getD h.same.takePkt)

theorem execOverflowDelivery_sound {id : Nat} (h : Sound K s) : ∀ u, execOverflowDelivery id s = .next u → Sound K u := by
  unfold execOverflowDelivery
  dsimp only
  refine Sound.of_next ?_
  split
  · exact h
  · exact .ite h (h.getD h.unheld.same.takePkt)

/-! #### Sets -/

theorem Sound.contribFault {k : Contrib} {f : Nat × Nat × Nat} (h : Sound K s) : Sound K (s.contribFault k f) := by
  unfold State.contribFault
  split
  · split
    · exact h.updCmd.close
    · exact h
  · exact h.foldl (fun h1 => h1.asyncFault)

theorem Sound.rejectContrib {k : Contrib} (h : Sound K s) : Sound K (s.rejectContrib k) := by
  unfold State.rejectContrib
  exact h.contribFault

theorem Sound.updSet {ctx set : Nat} {f : SetEntry → SetEntry} (h : Sound K s) : Sound K (s.updSet ctx set f) := by
  unfold State.updSet
  exact h.same

theorem Sound.enterSet {ctx set : Nat} (h : Sound K s) : Sound K ((s.enterSet ctx set).2) := by
  unfold State.enterSet
  dsimp only
  split
  · exact h
  · split
    next e1 => exact h.translateWalk.of_eq e1
    next e1 =>
      split
      · exact h.translateWalk.of_eq e1
      · split
        next e2 => exact (h.translateWalk.of_eq e1).readVa.of_eq e2
        next e2 =>
          split
          · exact (h.translateWalk.of_eq e1).readVa.of_eq e2
          · exact ((h.translateWalk.of_eq e1).readVa.of_eq e2).same

theorem Sound.holdContrib {e : SetEntry} {k : Contrib} (h : Sound K s) : Sound K (s.holdContrib e k) := by
  unfold State.holdContrib
  dsimp only
  exact .ite h.askBytes.writeVa.updSet h.updSet

theorem execContributionArrival_sound {id : Nat} (h : Sound K s) : ∀ u, execContributionArrival id s = .next u → Sound K u := by
  unfold execContributionArrival
  dsimp only
  refine Sound.of_next ?_
  split
  · exact h
  · split
    · exact h.same.unhold.rejectContrib
    · split
      next e1 => exact (h.enterSet.of_eq e1).same
      next e1 => exact (h.enterSet.of_eq e1).same.unhold.rejectContrib
      next e1 => exact (h.enterSet.of_eq e1).same.unhold.contribFault
      next e1 =>
        exact .ite ((h.enterSet.of_eq e1).same.unhold.rejectContrib) (.ite ((h.enterSet.of_eq e1).same)
            ((h.enterSet.of_eq e1).same.unhold.holdContrib))

theorem Sound.storeL1All {ts : List Tid} {pa : Nat} {bs : List Byte} (h : Sound K s) : Sound K (s.storeL1All ts pa bs) := by
  unfold State.storeL1All
  refine h.foldl ?_
  intro _ _ h1
  split
  · exact h1.storeL1
  · exact h1

theorem Sound.applyWord {k : Contrib} (h : Sound K s) : Sound K (s.applyWord k) := by
  unfold State.applyWord
  dsimp only
  split
  next e => exact (h.translateWalk.of_eq e).contribFault
  next e =>
    split
    · split
      · exact (h.translateWalk.of_eq e).contribFault
      · exact .ite ((h.translateWalk.of_eq e).send.flip.contribFault) ((h.translateWalk.of_eq e).send.flip.sink)
    · exact .ite ((h.translateWalk.of_eq e).mailUe.contribFault) ((h.translateWalk.of_eq e).storeL1All.writePhys)

theorem Sound.applyTile {k : Contrib} {stride : Nat} {vals : List Word} (h : Sound K s) : Sound K (s.applyTile k stride vals) := by
  unfold State.applyTile
  split
  · exact h
  · split
    next e1 => exact (h.tileUpdate.of_eq e1).contribFault
    next e1 => exact (h.tileUpdate.of_eq e1).finish

theorem Sound.setRecord {e : SetEntry} {what : Nat} {f : Nat × Nat} (h : Sound K s) : Sound K (s.setRecord e what f) := by
  unfold State.setRecord
  exact h.mail

theorem Sound.completeRound {e : SetEntry} (h : Sound K s) : Sound K (s.completeRound e) := by
  unfold State.completeRound
  dsimp only
  refine Sound.same ?_
  split
  · split
    next e2 => exact h.writeVa.of_eq e2
    next e2 => exact (h.writeVa.of_eq e2).setRecord
  · split
    next e1 =>
      refine Sound.of_eq ?_ e1
      refine Sound.writeVa ?_
      split
      next e2 => exact h.writeVa.of_eq e2
      next e2 => exact (h.writeVa.of_eq e2).setRecord
    next e1 =>
      refine Sound.setRecord ?_
      refine Sound.of_eq ?_ e1
      refine Sound.writeVa ?_
      split
      next e2 => exact h.writeVa.of_eq e2
      next e2 => exact (h.writeVa.of_eq e2).setRecord

theorem execContributionApply_sound {set : Nat} (h : Sound K s) : ∀ u, execContributionApply set s = .next u → Sound K u := by
  unfold execContributionApply
  dsimp only
  refine Sound.of_next ?_
  split
  · exact h
  · split
    · exact h
    · split
      · refine Sound.completeRound ?_
        split
        · exact h.updSet.unhold.applyWord.foldl (fun h1 => h1.performedFor)
        · exact h.updSet.unhold.applyTile
      · split
        · exact h.updSet.unhold.applyWord.foldl (fun h1 => h1.performedFor)
        · exact h.updSet.unhold.applyTile

/-! #### Control -/

theorem execNop_sound {h' : Hdr} (h : Sound K s) : ∀ u, execNop h' s = .next u → Sound K u := by
  unfold execNop
  refine Sound.of_next ?_
  refine h.word ?_
  intro _ _ h1
  exact Sound.of_some h1

theorem Sound.split {lanes : List Tid} {pref : DWord} (h : Sound K s) : Sound K (s.split lanes pref) := by
  unfold State.split
  dsimp only
  split
  · exact h
  · exact .ite h (h.foldl (fun h1 => .ite h1 h1.updThread))

theorem Sound.branch {targets : List (Tid × DWord)} {hint : Hint} {direct : Bool} {link : Option Reg} (h : Sound K s) : Sound K
    (s.branch targets hint direct link) := by
  unfold State.branch
  dsimp only
  split
  · split
    · exact h.trapAll
    · refine Sound.split ?_
      refine h.foldl ?_
      intro _ _ h1
      split
      · exact h1.trap
      · refine Sound.updThread ?_
        split
        · exact h1.result
        · exact h1
  · exact h

theorem execBra_sound {h' : Hdr} {o : BrF} (h : Sound K s) : ∀ u, execBra h' o s = .next u → Sound K u := by
  unfold execBra
  refine Sound.of_next ?_
  refine h.word ?_
  intro _ _ h1
  exact Sound.of_some h1.branch

theorem execCall_sound {h' : Hdr} {o : BrF} (h : Sound K s) : ∀ u, execCall h' o s = .next u → Sound K u := by
  unfold execCall
  dsimp only
  refine Sound.of_next ?_
  refine h.word ?_
  intro _ _ h1
  exact Sound.of_some h1.branch

theorem Sound.targetsOf {a : Reg} {x : List Tid} (h : Sound K s) : Sound K ((s.targetsOf a x).2) := by
  induction x generalizing s with
  | nil =>
    unfold State.targetsOf
    dsimp only
    exact h
  | cons _ _ ih =>
    unfold State.targetsOf
    dsimp only
    exact ih h.readRegs

theorem Sound.indirect {h' : Hdr} {o : BrxF} (h : Sound K s) : Sound K (s.indirect h' o) := by
  unfold State.indirect
  dsimp only
  refine h.word ?_
  intro _ _ h1
  exact Sound.of_some h1.targetsOf.branch

theorem execBrx_sound {h' : Hdr} {o : BrxF} (h : Sound K s) : ∀ u, execBrx h' o s = .next u → Sound K u := by
  unfold execBrx
  exact Sound.of_next h.indirect

theorem execRet_sound {h' : Hdr} {o : BrxF} (h : Sound K s) : ∀ u, execRet h' o s = .next u → Sound K u := by
  unfold execRet
  exact Sound.of_next h.indirect

theorem execCallx_sound {h' : Hdr} {o : CallxF} (h : Sound K s) : ∀ u, execCallx h' o s = .next u → Sound K u := by
  unfold execCallx
  dsimp only
  refine Sound.of_next ?_
  refine h.word ?_
  intro _ _ h1
  exact Sound.of_some h1.targetsOf.branch

theorem Sound.checkGroups {act : List Tid} {m : Nat} (h : Sound K s) : Sound K (s.checkGroups act m) := by
  unfold State.checkGroups
  exact h.foldl (fun h1 => h1.checkMasks)

theorem Sound.maskWord {h' : Hdr} {m : BitVec 4} {f : State → Tid → Nat → State} (h : Sound K s)
    (hf : ∀ {s' a1 a2}, Sound K s' → Sound K (f s' a1 a2)) : Sound K (s.maskWord h' m f) := by
  unfold State.maskWord
  refine h.word ?_
  intro _ _ h1
  refine Sound.of_some ?_
  refine Sound.checkGroups ?_
  exact h1.foldl (fun h2 => hf h2)

theorem execJoin_sound {h' : Hdr} {m : BitVec 4} (h : Sound K s) : ∀ u, execJoin h' m s = .next u → Sound K u := by
  unfold execJoin
  exact Sound.of_next (h.maskWord (fun h1 => h1.enrol))

theorem execLeave_sound {h' : Hdr} {m : BitVec 4} (h : Sound K s) : ∀ u, execLeave h' m s = .next u → Sound K u := by
  unfold execLeave
  dsimp only
  exact Sound.of_next (h.maskWord (fun h1 => h1.updGroup))

theorem execWaitm_sound {h' : Hdr} {m : BitVec 4} (h : Sound K s) : ∀ u, execWaitm h' m s = .next u → Sound K u := by
  unfold execWaitm
  dsimp only
  refine Sound.of_next ?_
  refine h.word ?_
  intro _ _ h1
  refine Sound.of_some ?_
  refine Sound.checkGroups ?_
  exact h1.deliverIf.foldl (fun h2 => h2.updGroup.updThread)

theorem execMclr_sound {h' : Hdr} {m : BitVec 4} (h : Sound K s) : ∀ u, execMclr h' m s = .next u → Sound K u := by
  unfold execMclr
  exact Sound.of_next (h.maskWord (fun h1 => h1.releaseMask))

theorem execMget_sound {h' : Hdr} {o : MgetF} (h : Sound K s) : ∀ u, execMget h' o s = .next u → Sound K u := by
  unfold execMget
  dsimp only
  exact Sound.of_next (h.byLane (fun h1 => h1.result))

theorem Sound.settleWaves {t : Tid} (h : Sound K s) : Sound K (s.settleWaves t) := by
  unfold State.settleWaves
  exact .ite h.applyWaves h

theorem Sound.closeThread {t : Tid} (h : Sound K s) : Sound K (s.closeThread t) := by
  unfold State.closeThread
  exact (Sound.ite h.updThread h).settleWaves

theorem Sound.openThread {t : Tid} (h : Sound K s) : Sound K (s.openThread t) := by
  unfold State.openThread
  dsimp only
  exact h.updThread

/-- A new size for a barrier that no phase completes is above its count. -/
theorem Sound.resize {u : Tid} {b n : Nat} (h : Sound K s) (hn : ¬n < 1)
    (open' : ¬(0 < ((s.putBarrier u.team b fun y => { y with n := n }).barrierOf u b).c ∧
      n ≤ ((s.putBarrier u.team b fun y => { y with n := n }).barrierOf u b).c)) :
    Sound K (s.putBarrier u.team b fun y => { y with n := n }) := by
  refine h.putBarrier fun y e hy => ?_
  obtain ⟨z, -, eq⟩ | below := h.putBarrier_barrier e
  · rw [State.barrierOf, e] at open'
    simp only [eq] at open' ⊢
    omega
  · exact below hy

/-- BARI sets a barrier's size, and completes a phase that has as many arrivals (R71). -/
theorem execBari_sound {h : Hdr} {o : BariF} (hs : Sound K s) : ∀ u, execBari h o s = .next u → Sound K u := by
  refine Sound.of_next ?_
  refine hs.byLane ?_
  intro t vals s' h1
  dsimp only
  split
  · split
    · exact h1.trap
    next hn =>
      split
      · exact h1.settleWaves.phase (f := fun y => { y with n := _ })
      next open' => exact h1.settleWaves.resize (fun lt => hn (.inl lt)) open'
  · split
    · exact h1.trap
    next hn =>
      split
      · exact h1.settleWaves.phase (f := fun y => { y with n := _ })
      next open' => exact h1.settleWaves.resize (fun lt => hn (.inl lt)) open'

theorem execBara_sound {h' : Hdr} {o : BarRF} (h : Sound K s) : ∀ u, execBara h' o s = .next u → Sound K u := by
  unfold execBara
  dsimp only
  exact Sound.of_next (h.byLane (fun h1 => h1.settleWaves.arrive.result))

theorem Sound.awaitPhase {t : Tid} {b : Nat} {ph : BitVec 16} (h : Sound K s) : Sound K (s.awaitPhase t b ph) := by
  unfold State.awaitPhase
  exact h.updThread

theorem execBarw_sound {h' : Hdr} {o : BarRF} (h : Sound K s) : ∀ u, execBarw h' o s = .next u → Sound K u := by
  unfold execBarw
  dsimp only
  exact Sound.of_next (h.byLane (fun h1 => .ite h1.awaitPhase.closeThread h1))

theorem execBars_sound {h' : Hdr} {bar : BitVec 4} (h : Sound K s) : ∀ u, execBars h' bar s = .next u → Sound K u := by
  unfold execBars
  dsimp only
  exact Sound.of_next (h.byLane (fun h1 => .ite h1.closeThread.arrive.awaitPhase h1.closeThread.arrive.openThread))

theorem execExit_sound {h' : Hdr} (h : Sound K s) : ∀ u, execExit h' s = .next u → Sound K u := by
  unfold execExit
  dsimp only
  refine Sound.of_next ?_
  refine h.word ?_
  intro _ _ h1
  exact Sound.of_some (h1.foldl (fun h2 => .ite h2.parkLane (.ite h2.deliverAsync h2.deliverAsync.endThread)))

theorem execSleep_sound {h' : Hdr} {n : CntOpd} (h : Sound K s) : ∀ u, execSleep h' n s = .next u → Sound K u := by
  unfold execSleep
  dsimp only
  exact Sound.of_next (h.byLane (fun h1 => h1.updThread))

theorem execSvr_sound {h' : Hdr} {o : SelD} (h : Sound K s) : ∀ u, execSvr h' o s = .next u → Sound K u := by
  unfold execSvr
  exact Sound.of_next (h.byLane (fun h1 => h1.result))

/-! #### Traps -/

theorem Sound.softFault {h' : Hdr} {code : Nat} {imm : BitVec 12} {past : Bool} (h : Sound K s) : Sound K (s.softFault h' code imm past) := by
  unfold State.softFault
  refine h.word ?_
  intro _ _ h1
  split
  · exact Sound.of_some h1
  · exact Sound.of_some (h1.foldl (fun h2 => h2.takeFault))

theorem execTrap_sound {h' : Hdr} {imm : BitVec 12} (h : Sound K s) : ∀ u, execTrap h' imm s = .next u → Sound K u := by
  unfold execTrap
  exact Sound.of_next h.softFault

theorem execBkpt_sound {h' : Hdr} {imm : BitVec 12} (h : Sound K s) : ∀ u, execBkpt h' imm s = .next u → Sound K u := by
  unfold execBkpt
  exact Sound.of_next h.softFault

theorem Sound.tretLane {t : Tid} {keepp : Bool} {target : FaultRec → State → DWord × State} (h : Sound K s)
    (htarget : ∀ {a s'}, Sound K s' → Sound K ((target a s').2)) : Sound K (s.tretLane t keepp target) := by
  unfold State.tretLane
  dsimp only
  split
  · exact h
  · split
    · exact h.parkLane
    · split
      · exact h
      · exact .ite ((htarget h).trap) ((htarget h).leaveHandler)

theorem Sound.tret {h' : Hdr} {ops : List Opd} {keepp : Bool} {target : Tid → FaultRec → State → DWord × State} (h : Sound K s)
    (htarget : ∀ {a a1 s'}, Sound K s' → Sound K ((target a a1 s').2)) : Sound K (s.tret h' ops keepp target) := by
  unfold State.tret
  refine h.word ?_
  intro _ _ h1
  exact Sound.of_some (h1.foldl (fun h2 => h2.tretLane (fun h3 => htarget h3)))

theorem execTretResume_sound {h' : Hdr} {keepp : Bool} (h : Sound K s) : ∀ u, execTretResume h' keepp s = .next u → Sound K u := by
  unfold execTretResume
  exact Sound.of_next (h.tret (fun h1 => h1))

theorem execTretSkip_sound {h' : Hdr} {keepp : Bool} (h : Sound K s) : ∀ u, execTretSkip h' keepp s = .next u → Sound K u := by
  unfold execTretSkip
  exact Sound.of_next (h.tret (fun h1 => h1))

theorem execTretRedirect_sound {h' : Hdr} {o : TretToF} (h : Sound K s) : ∀ u, execTretRedirect h' o s = .next u → Sound K u := by
  unfold execTretRedirect
  dsimp only
  exact Sound.of_next (h.tret (fun h1 => h1.readRegs))

theorem execTkillThread_sound {h' : Hdr} {code : BitVec 8} (h : Sound K s) : ∀ u, execTkillThread h' code s = .next u → Sound K u := by
  unfold execTkillThread
  refine Sound.of_next ?_
  refine h.word ?_
  intro _ _ h1
  exact Sound.of_some (h1.foldl (fun h2 => h2.endThread))

theorem execTkillGroup_sound {h' : Hdr} {code : BitVec 8} (h : Sound K s) : ∀ u, execTkillGroup h' code s = .next u → Sound K u := by
  unfold execTkillGroup
  refine Sound.of_next ?_
  refine h.word ?_
  intro _ _ h1
  refine Sound.of_some ?_
  refine h1.foldl ?_
  intro _ _ h2
  split
  · exact h2.foldl (fun h3 => h3.endThread)
  · exact h2

theorem execTkillTeam_sound {h' : Hdr} {code : BitVec 8} (h : Sound K s) : ∀ u, execTkillTeam h' code s = .next u → Sound K u := by
  unfold execTkillTeam
  refine Sound.of_next ?_
  refine h.word ?_
  intro _ _ h1
  refine Sound.of_some ?_
  split
  · exact h1.killTeam
  · exact h1

theorem execTkillGrid_sound {h' : Hdr} {code : BitVec 8} (h : Sound K s) : ∀ u, execTkillGrid h' code s = .next u → Sound K u := by
  unfold execTkillGrid
  refine Sound.of_next ?_
  refine h.word ?_
  intro _ _ h1
  refine Sound.of_some ?_
  split
  · split
    · exact h1.killGrid
    · exact h1
  · exact h1

theorem execTinfo_sound {h' : Hdr} {o : SelD} (h : Sound K s) : ∀ u, execTinfo h' o s = .next u → Sound K u := by
  unfold execTinfo
  dsimp only
  exact Sound.of_next (h.byLane (fun h1 => h1.result))

theorem execIllegalOp_sound {w : DWord} (h : Sound K s) : ∀ u, execIllegalOp w s = .next u → Sound K u := by
  unfold execIllegalOp
  dsimp only
  refine Sound.of_next ?_
  split
  · refine h.course ?_
    intro _ _ h1
    exact Sound.of_some h1
  · refine h.word ?_
    intro _ _ h1
    exact Sound.of_some h1

theorem execPairWord_sound {o : PairF} (h : Sound K s) : ∀ u, execPairWord o s = .next u → Sound K u := by
  unfold execPairWord
  dsimp only
  refine Sound.of_next ?_
  refine h.course ?_
  intro _ _ h1
  exact Sound.of_some (h1.eachLane (fun h2 => .ite ((Sound.ite h2.result h2).result) (.ite h2.result h2)))

/-! #### Launch -/

theorem Sound.writeRecord {ctx va v what : Nat} {seq : Word} (h : Sound K s) : Sound K (s.writeRecord ctx va v what seq) := by
  unfold State.writeRecord
  split
  next e => exact h.writeVa.of_eq e
  next e => exact (h.writeVa.of_eq e).mail

theorem Sound.writeCompletion {ctx caddr : Nat} {cval : DWord} {first : Option Nat} {cause code : Nat} {seq : Word} (h : Sound K s) : Sound K
    (s.writeCompletion ctx caddr cval first cause code seq) := by
  unfold State.writeCompletion
  dsimp only
  exact .ite h h.writeRecord.writeRecord

theorem Sound.notices {ctx ring : Nat} {index : Word} {succs : List (Word × Nat)} {status : Nat} (h : Sound K s) : Sound K
    (s.notices ctx ring index succs status) := by
  unfold State.notices
  dsimp only
  exact (h.foldl (fun h1 => h1.postPacket)).sink

theorem Sound.originNotices {ctx : Nat} {h' : Option HostOrigin} {status : Nat} (h : Sound K s) : Sound K (s.originNotices ctx h' status) := by
  unfold State.originNotices
  split
  · exact h.notices
  · exact h

theorem Sound.dropLaunch {key : Nat} (h : Sound K s) : Sound K (s.dropLaunch key) := by
  unfold State.dropLaunch
  exact h.same

theorem Sound.completeLaunch {l : Launch} (h : Sound K s) : Sound K (s.completeLaunch l) := by
  unfold State.completeLaunch
  dsimp only
  exact h.writeCompletion.originNotices.dropLaunch.updCtx

theorem Sound.completeDone (h : Sound K s) : Sound K s.completeDone := by
  unfold State.completeDone
  exact h.foldl (fun h1 => .ite h1.completeLaunch h1)

theorem Sound.overlapRecord {ctx : Nat} {n r : Reservation} (h : Sound K s) : Sound K (s.overlapRecord ctx n r) := by
  unfold State.overlapRecord
  split
  · exact h
  · exact h.postPacket

theorem Sound.reportOverlaps {c : Ctx} {n : Reservation} (h : Sound K s) : Sound K (s.reportOverlaps c n) := by
  unfold State.reportOverlaps
  dsimp only
  exact .ite h (h.foldl (fun h1 => h1.overlapRecord))

theorem Sound.readDeps {ctx : Nat} {x : List (Nat × Nat)} (h : Sound K s) : Sound K ((s.readDeps ctx x).2) := by
  induction x generalizing s with
  | nil =>
    unfold State.readDeps
    dsimp only
    exact h
  | cons _ _ ih =>
    unfold State.readDeps
    split
    · split
      next e1 => exact (ih h).of_eq e1
      next e1 => exact (ih h).of_eq e1
    · split
      next e => exact h.readVaNat.of_eq e
      next e =>
        split
        next e1 => exact (ih (h.readVaNat.of_eq e)).of_eq e1
        next e1 => exact (ih (h.readVaNat.of_eq e)).of_eq e1

theorem Sound.refuseLaunch {ctx : Nat} {seq : Word} {d : KDesc} {code : Nat} {host : Option HostOrigin} (h : Sound K s) : Sound K
    (s.refuseLaunch ctx seq d code host) := by
  unfold State.refuseLaunch
  exact h.writeCompletion.originNotices

theorem Sound.readLaunch {ctx va : Nat} (h : Sound K s) : Sound K ((s.readLaunch ctx va).2) := by
  unfold State.readLaunch
  split
  next e => exact h.readVa.of_eq e
  next e =>
    split
    next e1 => exact (h.readVa.of_eq e).readVa.of_eq e1
    next e1 =>
      split
      · exact (h.readVa.of_eq e).readVa.of_eq e1
      · exact (h.readVa.of_eq e).readVa.of_eq e1

theorem Sound.enterLaunch {c : Ctx} {seq : Word} {bs ks : List Byte} {met : List Bool} {host : Option HostOrigin} (h : Sound K s) : Sound K
    (s.enterLaunch c seq bs ks met host) := by
  unfold State.enterLaunch
  dsimp only
  exact (Sound.ite h.reportOverlaps h.reportOverlaps.sink).fresh.same.completeDone

theorem Sound.acceptLaunch {ctx va : Nat} {host : Option HostOrigin} (h : Sound K s) : Sound K ((s.acceptLaunch ctx va host).2) := by
  unfold State.acceptLaunch
  dsimp only
  split
  · exact h
  · split
    next e1 => exact (h.updCtx.readLaunch.of_eq e1).refuseLaunch
    next e1 =>
      split
      next e2 => exact ((h.updCtx.readLaunch.of_eq e1).readDeps.of_eq e2).refuseLaunch
      next e2 => exact ((h.updCtx.readLaunch.of_eq e1).readDeps.of_eq e2).enterLaunch

theorem Sound.fillLong {t : Tid} {id : Nat} {vals : List Word} (h : Sound K s) : Sound K (s.fillLong t id vals) := by
  unfold State.fillLong
  dsimp only
  exact h.updThread

theorem Sound.acceptReq {q : LaunchReq} (h : Sound K s) : Sound K (s.acceptReq q) := by
  unfold State.acceptReq
  dsimp only
  exact h.acceptLaunch.foldl (fun h1 => h1.fillLong)

theorem Sound.drainReqs {x : List LaunchReq} (h : Sound K s) : Sound K (State.drainReqs x s) := by
  induction x generalizing s with
  | nil =>
    unfold State.drainReqs
    exact h
  | cons _ _ ih =>
    unfold State.drainReqs
    exact .ite (ih h.acceptReq) (ih h.same)

theorem Sound.drainLaunches (h : Sound K s) : Sound K s.drainLaunches := by
  unfold State.drainLaunches
  exact .ite h h.same.drainReqs.unhold

theorem Sound.sendLaunch {ts : List Tid} {d : Reg} {va : Nat} (h : Sound K s) : Sound K (s.sendLaunch ts d va) := by
  unfold State.sendLaunch
  dsimp only
  split
  · exact h
  · refine Sound.drainLaunches ?_
    refine Sound.same ?_
    exact h.foldl_snd (fun h1 => h1.addLong)

theorem execLaunch_sound {h' : Hdr} {o : R2} (h : Sound K s) : ∀ u, execLaunch h' o s = .next u → Sound K u := by
  unfold execLaunch
  dsimp only
  refine Sound.of_next ?_
  split
  · split
    · refine h.word ?_
      intro _ _ h1
      split
      · exact Sound.of_some h1
      · split
        · exact Sound.of_none
        · exact Sound.of_some h1.sendLaunch
    · refine h.byLane ?_
      intro _ _ _ h1
      dsimp only
      exact h1.sendLaunch
  · split
    · refine h.word ?_
      intro _ _ h1
      split
      · exact Sound.of_some h1
      · split
        · exact Sound.of_none
        · exact Sound.of_some h1.sendLaunch
    · refine h.byLane ?_
      intro _ _ _ h1
      dsimp only
      exact h1.sendLaunch
  · split
    · refine h.word ?_
      intro _ _ h1
      split
      · exact Sound.of_some h1
      · split
        · exact Sound.of_none
        · exact Sound.of_some h1.sendLaunch
    · refine h.byLane ?_
      intro _ _ _ h1
      dsimp only
      exact h1.sendLaunch

theorem execDependencyMet_sound {launch k : Nat} (h : Sound K s) : ∀ u, execDependencyMet launch k s = .next u → Sound K u := by
  unfold execDependencyMet
  dsimp only
  refine Sound.of_next ?_
  split
  · exact h
  · split
    · exact h
    · split
      next e1 => exact (h.readVaNat.of_eq e1).updLaunch.completeDone.drainLaunches
      next e1 => exact .ite ((h.readVaNat.of_eq e1).fresh.updLaunch.completeDone.drainLaunches) (h.readVaNat.of_eq e1)

theorem execLullWatchdog_sound {ctx : Nat} (h : Sound K s) : ∀ u, execLullWatchdog ctx s = .next u → Sound K u := by
  unfold execLullWatchdog
  dsimp only
  refine Sound.of_next ?_
  split
  · exact h
  · split
    · exact h
    · refine Sound.sink ?_
      split
      · refine Sound.drainLaunches ?_
        refine Sound.completeDone ?_
        exact h.postPacket.mail.foldl (fun h1 => h1.killGrid)
      · exact h.postPacket.mail

/-! #### Placement -/

theorem Sound.addReserves {core ctx kind : Nat} {phys : List Nat} (h : Sound K s) : Sound K (s.addReserves core ctx kind phys) := by
  unfold State.addReserves
  dsimp only
  exact h.foldl (fun h1 => h1.fresh.same)

theorem Sound.markThaw {core ctx : Nat} (h : Sound K s) : Sound K (s.markThaw core ctx) := by
  unfold State.markThaw
  exact h.same

theorem Sound.unskip {core : Nat} (h : Sound K s) : Sound K (s.unskip core) := by
  unfold State.unskip
  exact h.updTeams

/-! #### Placement (R325 to R331) -/

theorem Sound.among {L : Nat → Prop} (h : Sound K s) (known : ∀ x ∈ s.teams, L x.key) : Sound L s := ⟨h.mem, h.keys, h.team, known⟩

/-- A team of a new key joins, with no token and no barrier that has counted. -/
theorem Sound.join {x : Team} (h : Sound (fun k => K k ∧ k ≠ x.key) s) (hK : K x.key) (ok : boneOk x.bone) :
    Sound K { s with teams := s.teams ++ [x] } := by
  refine ⟨h.mem, ?_, fun y hy => ?_, fun y hy => ?_⟩
  · simp only [List.map_append, List.map_singleton]
    refine h.keys.append (List.nodup_singleton _) (List.disjoint_singleton.2 fun hx => ?_)
    obtain ⟨y, hy, e⟩ := List.mem_map.1 hx
    exact (h.known y hy).2 e
  · rcases List.mem_append.1 hy with hy | hy
    · exact h.team y hy
    · exact List.mem_singleton.1 hy ▸ ok
  · rcases List.mem_append.1 hy with hy | hy
    · exact (h.known y hy).1
    · exact List.mem_singleton.1 hy ▸ hK

theorem newTeam_bone (l : Launch) (c : Cand) (core lcore : Nat) (counts pipes phys : List Nat) (cycle now at_ : Nat) :
    boneOk ({ newTeam l c core lcore counts pipes phys cycle now with placedAt := at_ } : Team).bone :=
  ⟨fun _ => Nat.zero_le 32, fun y hy hn => by
    obtain ⟨_, rfl⟩ := List.mem_replicate.1 hy
    exact hn⟩

/-- A team is placed under a key that no other has. The claim of its segments gives way to any function that keeps a sound state sound, so that the
kernel compares no claim by its value. -/
theorem Sound.placeNew {dry : Bool} {l : Launch} {c : Cand} {core : Nat} (h : Sound K s) (all : ∀ k, K k) : Sound K (s.placeNew dry l c core).2 := by
  have fresh : (s.team? c.key).isSome ≠ true → Sound (fun k => K k ∧ k ≠ c.key) s := fun new => h.among fun x hx =>
    ⟨all _, fun hk => new (List.find?_isSome.2 ⟨x, hx, decide_eq_true hk⟩)⟩
  obtain ⟨claim, same, claims⟩ : ∃ claim, claim = @State.claim s ∧ ∀ {L : Nat → Prop}, Sound L s → ∀ ctx core n dry, Sound L (claim ctx core n dry).2 :=
    ⟨_, rfl, fun h _ _ _ _ => h.claim⟩
  unfold State.placeNew
  rw [← same]
  clear same
  split
  · exact h
  next counts e =>
    have new : (s.team? c.key).isSome ≠ true := fun found => by
      rw [if_pos found] at e
      cases e
    dsimp only
    split
    next e => exact (claims h ..).of_eq e
    next e =>
      have claimed := (claims (fresh new) ..).of_eq e
      refine Sound.unskip (Sound.updLaunch (Sound.join ?_ (all _) (newTeam_bone ..)))
      exact (Sound.ite claimed claimed.markThaw).addReserves.addReserves.fresh

theorem Sound.halfBack {t : Team} (h : Sound K s) : Sound K (s.halfBack t) := by
  unfold State.halfBack
  dsimp only
  exact h.updTeam.same

theorem Sound.placeBack {t : Team} (h : Sound K s) : Sound K ((s.placeBack t).2) := by
  unfold State.placeBack
  dsimp only
  split
  · exact h
  · split
    next e => exact (h.halfBack.claim.of_eq e).updTeam.same
    next e =>
      exact (Sound.ite (h.halfBack.claim.of_eq e)
          ((h.halfBack.claim.of_eq e).markThaw)).updTeam.same.addReserves.addReserves.fresh.updTeam.wakeTeam.unskip

theorem Sound.settleReserves {core ctx : Nat} (h : Sound K s) : Sound K (s.settleReserves core ctx) := by
  unfold State.settleReserves
  exact .ite h.same h.same

theorem Sound.landTeam {t : Team} (h : Sound K s) : Sound K (s.landTeam t) := by
  unfold State.landTeam
  dsimp only
  exact h.foldl (fun h1 => h1.foldl (fun h2 => h2.foldl (fun h3 => h3.landLong.landed)))

theorem Sound.takeOff {key : Nat} (h : Sound K s) : Sound K (s.takeOff key) := by
  unfold State.takeOff
  dsimp only
  split
  · exact h
  · exact .ite h h.landTeam.fresh.updTeam.settleReserves

theorem Sound.placeEach {dry : Bool} {l : Launch} {c : Cand} {core : Nat} (h : Sound K s) (all : ∀ k, K k) : Sound K (s.placeEach dry l c core).2 :=
    by
  unfold State.placeEach
  refine h.foldl_snd fun {_ _} h1 => ?_
  split
  · exact h1
  · exact h1.placeNew all

theorem Sound.retract {r : State} (h : Sound K r) : Sound K (r.retract s) := by
  refine Sound.mapTeams (s := { r with teams := r.teams.filter fun x => (s.team? x.key).isSome }) h.dropTeams fun x => ?_
  split <;> rfl

theorem Sound.placeCand {l : Launch} {c : Cand} {core : Nat} (h : Sound K s) (all : ∀ k, K k) : Sound K (s.placeCand l c core).2 := by
  unfold State.placeCand
  dsimp only
  split
  · split
    · exact h.placeBack
    · exact h
  · split
    · exact h.placeEach all
    · exact (h.placeEach all).retract

theorem Sound.preemptFor {l : Launch} {c : Cand} {p : Nat × Nat} {ts : List Team} (h : Sound K s) : ∀ u ∈ s.preemptFor l c p ts, Sound K u := by
  induction ts generalizing s with
  | nil => exact fun _ e => nomatch e
  | cons x ts ih =>
    unfold State.preemptFor
    dsimp only
    split
    · exact Sound.of_none
    · split
      · exact Sound.of_some h.takeOff
      · exact ih h.takeOff

theorem Sound.preemptAll {l : Launch} {c : Cand} {ps : List (Nat × Nat)} (h : Sound K s) : ∀ u ∈ State.preemptAll l c ps s, Sound K u := by
  induction ps generalizing s with
  | nil => exact Sound.of_some h
  | cons p ps ih =>
    unfold State.preemptAll
    split
    · exact ih h
    · intro u e
      obtain ⟨v, found, rest⟩ := Option.bind_eq_some_iff.1 e
      exact ih (h.preemptFor v found) u rest

theorem Sound.roomMade {l : Launch} {c : Cand} {core : Nat} (h : Sound K s) : ∀ u ∈ s.roomMade l c core, Sound K u := by
  unfold State.roomMade
  split
  · exact Sound.of_some h
  · split
    · exact Sound.of_none
    · exact fun u e => h.preemptAll u (Option.mem_filter_iff.1 e).1

theorem execTeamPlacement_sound {team core : Nat} (h : Sound K s) (all : ∀ k, K k) : ∀ u, execTeamPlacement team core s = .next u → Sound K u := by
  refine Sound.of_next ?_
  split
  · exact h
  · split
    · exact h
    · split
      · exact h
      · split
        · exact h
        next e => exact (h.roomMade _ e).placeCand all

theorem execThawSwap_sound {core ctx : Nat} (h : Sound K s) (all : ∀ k, K k) : ∀ u, execThawSwap core ctx s = .next u → Sound K u := by
  refine Sound.of_next ?_
  split
  next v _ _ _ =>
    have off : Sound K ((s.takeOff v.key).updTeam v.key fun t => { t with skip := true }) := h.takeOff.updTeam
    exact (Sound.ite (off.placeCand all) off).markThaw
  · exact h

theorem Sound.freeTeam {t : Team} (h : Sound K s) : Sound K (s.freeTeam t) := by
  unfold State.freeTeam
  dsimp only
  exact h.same.settleReserves.unskip

theorem Sound.isobar {a b : Team} (h : Sound K s) : Sound K (s.isobar a b) := by
  unfold State.isobar
  dsimp only
  exact .ite h.dropTeams (.ite (h.dropTeams.foldl (fun h1 => h1.writeVa)) h.errorRecord.killTeam.dropTeams)

theorem Team.boneOk_shell {x : Team} (ok : boneOk x.bone) : boneOk x.shell.bone := boneOk_tokens ok (List.nil_sublist _)

/-! #### Host rings -/

theorem Sound.updHostRing {ring : Nat} {f : HostRing → HostRing} (h : Sound K s) : Sound K (s.updHostRing ring f) := by
  unfold State.updHostRing
  exact h.same

theorem Sound.seeTail {r : HostRing} (h : Sound K s) : Sound K (s.seeTail r) := by
  unfold State.seeTail
  split
  next e => exact h.readVa.of_eq e
  next e => exact (h.readVa.of_eq e).updHostRing

theorem Sound.hostSlot {r : HostRing} (h : Sound K s) : Sound K ((s.hostSlot r).2) := by
  unfold State.hostSlot
  dsimp only
  split
  · exact h
  · split
    next e => exact h.readVa.of_eq e
    next e =>
      split
      · exact h.readVa.of_eq e
      · split
        next e1 => exact (h.readVa.of_eq e).readVa.of_eq e1
        next e1 => exact (h.readVa.of_eq e).readVa.of_eq e1

theorem Sound.hostPacket {ring : Nat} (h : Sound K s) : Sound K ((s.hostPacket ring).2) := by
  unfold State.hostPacket
  split
  · exact h
  · split
    next e1 => exact h.hostSlot.of_eq e1
    next e1 => exact h.hostSlot.of_eq e1

theorem Sound.lookAt {r : HostRing} (h : Sound K s) : Sound K (s.lookAt r) := by
  unfold State.lookAt
  dsimp only
  split
  · exact .ite h.flip.updHostRing h.flip
  next e => exact (h.hostSlot.of_eq e).updHostRing
  · exact h

theorem Sound.lookAtRings (h : Sound K s) : Sound K s.lookAtRings := by
  unfold State.lookAtRings
  exact h.foldl (fun h1 => h1.lookAt)

theorem Sound.hostAdvance {r : HostRing} (h : Sound K s) : Sound K (s.hostAdvance r) := by
  unfold State.hostAdvance
  dsimp only
  exact h.updHostRing.writeVa

theorem execHostNop_sound {ring : Nat} (h : Sound K s) : ∀ u, execHostNop ring s = .next u → Sound K u := by
  unfold execHostNop
  refine Sound.of_next ?_
  split
  next e => exact (h.hostPacket.of_eq e).hostAdvance
  next e => exact h.hostPacket.of_eq e

theorem execHostLaunch_sound {ring : Nat} (h : Sound K s) : ∀ u, execHostLaunch ring s = .next u → Sound K u := by
  unfold execHostLaunch
  dsimp only
  refine Sound.of_next ?_
  split
  next e => exact .ite h ((h.hostPacket.of_eq e).acceptLaunch.hostAdvance)
  next e => exact h.hostPacket.of_eq e

theorem execHostSignal_sound {ring : Nat} (h : Sound K s) : ∀ u, execHostSignal ring s = .next u → Sound K u := by
  unfold execHostSignal
  dsimp only
  refine Sound.of_next ?_
  split
  next e => exact (h.hostPacket.of_eq e).fresh.same.hostAdvance
  next e => exact h.hostPacket.of_eq e

theorem execSignalStore_sound {id : Nat} (h : Sound K s) : ∀ u, execSignalStore id s = .next u → Sound K u := by
  unfold execSignalStore
  dsimp only
  refine Sound.of_next ?_
  split
  · exact h
  · split
    · exact h
    · split
      next e1 => exact (h.same.writeVa.of_eq e1).notices
      next e1 => exact h.same.writeVa.of_eq e1

theorem execHostPacketSkipped_sound {ring : Nat} (h : Sound K s) : ∀ u, execHostPacketSkipped ring s = .next u → Sound K u := by
  unfold execHostPacketSkipped
  dsimp only
  refine Sound.of_next ?_
  split
  next e => exact (h.hostPacket.of_eq e).postPacket.hostAdvance
  next e => exact h.hostPacket.of_eq e

/-! #### System -/

theorem execSeedw_sound {h' : Hdr} {a : Reg} (h : Sound K s) : ∀ u, execSeedw h' a s = .next u → Sound K u := by
  unfold execSeedw
  dsimp only
  refine Sound.of_next ?_
  refine h.word ?_
  intro _ _ h1
  split
  · exact Sound.of_some h1
  · split
    · exact Sound.of_none
    · exact Sound.of_some h1.updCtx

theorem Sound.pmon {h' : Hdr} {k : Checks} {a : Reg} {f : State → List Tid → Tid → Nat → State} (h : Sound K s)
    (hf : ∀ {s' a1 a2 a3}, Sound K s' → Sound K (f s' a1 a2 a3)) : Sound K (s.pmon h' k a f) := by
  unfold State.pmon
  dsimp only
  refine h.word ?_
  intro _ _ h1
  split
  · exact Sound.of_some h1
  · split
    · exact Sound.of_some h1.trapAll
    · exact Sound.of_some (hf h1)

theorem execPmonRead_sound {h' : Hdr} {o : PmonF} (h : Sound K s) : ∀ u, execPmonRead h' o s = .next u → Sound K u := by
  unfold execPmonRead
  dsimp only
  exact Sound.of_next (h.pmon (fun h1 => h1.foldl (fun h2 => h2.result)))

theorem execPmonArm_sound {h' : Hdr} {a : Reg} (h : Sound K s) : ∀ u, execPmonArm h' a s = .next u → Sound K u := by
  unfold execPmonArm
  exact Sound.of_next (h.pmon (fun h1 => .ite h1.setMonitor h1))

theorem execPmonFreeze_sound {h' : Hdr} {a : Reg} (h : Sound K s) : ∀ u, execPmonFreeze h' a s = .next u → Sound K u := by
  unfold execPmonFreeze
  exact Sound.of_next (h.pmon (fun h1 => .ite h1.setMonitor h1))

/-! #### Orders -/

theorem Sound.performed {path : OrderPath} {ctx : Nat} {seq : Word} {value : Nat} (h : Sound K s) : Sound K (s.performed path ctx seq value) := by
  unfold State.performed
  exact h.send.mail

theorem Sound.refusedOrder {path : OrderPath} {ctx : Nat} {seq : Word} {code : Nat} (h : Sound K s) : Sound K (s.refusedOrder path ctx seq code) := by
  unfold State.refusedOrder
  exact h.send.mail

theorem Sound.order {o : OrderRec} {code used : Nat} {n : Names} {f : State → Done × State} (h : Sound K s)
    (hf : ∀ {s'}, Sound K s' → Sound K ((f s').2)) : Sound K (s.order o code used n f) := by
  unfold State.order
  dsimp only
  split
  · exact h
  · split
    · exact h.refusedOrder
    · split
      next e => exact ((hf h).of_eq e).performed
      next e => exact ((hf h).of_eq e).performed.foldl (fun h1 => h1.send)
      next e => exact ((hf h).of_eq e).refusedOrder
      next e => exact (hf h).of_eq e

theorem Sound.unstick {ctx : Nat} (h : Sound K s) : Sound K (s.unstick ctx) := by
  unfold State.unstick
  exact h.updTeams

theorem execRegisterContext_sound {o : OrderRec} (h : Sound K s) : ∀ u, execRegisterContext o s = .next u → Sound K u := by
  unfold execRegisterContext
  dsimp only
  refine Sound.of_next ?_
  refine h.order ?_
  intro _ h1
  split
  · exact h1
  · split
    · exact h1
    · split
      · exact h1.mailUe
      · split
        · exact h1
        · split
          · exact h1.updCtx.unstick
          · exact h1.same

theorem Sound.killLaunches {p : Launch → Bool} (h : Sound K s) : Sound K ((s.killLaunches p).2) := by
  unfold State.killLaunches
  dsimp only
  refine Sound.drainLaunches ?_
  refine Sound.completeDone ?_
  exact h.foldl (fun h1 => h1.killGrid)

theorem Sound.finishRelease {c : Ctx} (h : Sound K s) : Sound K (s.finishRelease c) := by
  unfold State.finishRelease
  dsimp only
  split
  · exact h
  · exact .ite h ((h.foldl (fun h1 => h1.dropRing)).same.performed)

theorem Sound.finishReleases (h : Sound K s) : Sound K s.finishReleases := by
  unfold State.finishReleases
  exact h.foldl (fun h1 => h1.finishRelease)

theorem execReleaseContext_sound {o : OrderRec} (h : Sound K s) : ∀ u, execReleaseContext o s = .next u → Sound K u := by
  unfold execReleaseContext
  dsimp only
  exact Sound.of_next (h.order (fun h1 => h1.same.killLaunches.updCtx.finishReleases))

theorem Sound.holdTeam {key : Nat} (h : Sound K s) : Sound K (s.holdTeam key) := by
  unfold State.holdTeam
  exact h.takeOff.updTeam

theorem execPreemptContext_sound {o : OrderRec} (h : Sound K s) : ∀ u, execPreemptContext o s = .next u → Sound K u := by
  unfold execPreemptContext
  dsimp only
  refine Sound.of_next ?_
  split
  · exact h
  · refine h.order ?_
    intro _ h1
    refine Sound.updCtx ?_
    refine Sound.same ?_
    refine Sound.foldl ?_ (fun h2 => h2.writeBack)
    exact h1.foldl (fun h2 => h2.holdTeam)

theorem execResumeContext_sound {o : OrderRec} (h : Sound K s) : ∀ u, execResumeContext o s = .next u → Sound K u := by
  unfold execResumeContext
  dsimp only
  exact Sound.of_next (h.order (fun h1 => h1.updTeams.updCtx))

theorem execPreemptTeam_sound {o : OrderRec} (h : Sound K s) : ∀ u, execPreemptTeam o s = .next u → Sound K u := by
  unfold execPreemptTeam
  refine Sound.of_next ?_
  split
  · exact h
  · refine h.order ?_
    intro _ h1
    split
    · exact h1
    · exact h1.foldl (fun h2 => h2.holdTeam)

theorem execKill_sound {o : OrderRec} (h : Sound K s) : ∀ u, execKill o s = .next u → Sound K u := by
  unfold execKill
  dsimp only
  exact Sound.of_next (h.order (fun h1 => h1.killLaunches))

theorem execSetSeed_sound {o : OrderRec} (h : Sound K s) : ∀ u, execSetSeed o s = .next u → Sound K u := by
  unfold execSetSeed
  exact Sound.of_next (h.order (fun h1 => h1.updCtx))

theorem execCheckpoint_sound {o : OrderRec} (h : Sound K s) : ∀ u, execCheckpoint o s = .next u → Sound K u := by
  unfold execCheckpoint
  refine Sound.of_next ?_
  refine h.order ?_
  intro _ h1
  split
  · exact h1
  · exact h1.updCtx

theorem execCheckpointTaken_sound {ctx : Nat} (h : Sound K s) : ∀ u, execCheckpointTaken ctx s = .next u → Sound K u := by
  unfold execCheckpointTaken
  dsimp only
  refine Sound.of_next ?_
  split
  · exact h
  · split
    · exact h
    · exact .ite h h.ask.same.updCtx.performed

theorem Sound.restorePage {ctx fuel va n : Nat} {cells : Mem} (h : Sound K s) : ∀ u, s.restorePage ctx fuel va n cells = .ok u → Sound K u := by
  induction fuel generalizing s va n cells with
  | zero =>
    rintro _ ⟨⟩
    exact h
  | succ fuel ih =>
    unfold State.restorePage
    split
    · rintro _ ⟨⟩
      exact h
    · split
      · exact fun _ e => nomatch e
      · split
        · exact fun _ e => nomatch e
        · exact ih (h.store (Mem.wf_paste _ _ (Mem.wf_zero _ _ h.mem)))

theorem Sound.restorePages {ctx : Nat} {ps : List CkptPage} (h : Sound K s) : Sound K (s.restorePages ctx ps).2 := by
  induction ps generalizing s with
  | nil => exact h
  | cons p ps ih =>
    unfold State.restorePages
    split
    · exact ih h
    · split
      · exact h
      next e => exact ih (h.restorePage _ e)

theorem Sound.reissue {ctx : Nat} {old : Word} {r : Ring} (h : Sound K s) : ∀ u ∈ s.reissue ctx old r, Sound K u.2 := by
  unfold State.reissue
  dsimp only
  split
  · exact Sound.of_none_snd
  · split
    · exact Sound.of_none_snd
    · exact Sound.of_some_snd h.pick.same.writeVa

theorem Sound.reissueAll {ctx : Nat} {rs : List (Word × Ring)} (h : Sound K s) : ∀ u ∈ s.reissueAll ctx rs, Sound K u.2 := by
  induction rs generalizing s with
  | nil =>
    exact Sound.of_some_snd h
  | cons r rs ih =>
    unfold State.reissueAll
    split
    · exact Sound.of_none_snd
    next e =>
      intro u hu
      obtain ⟨v, hv, rfl⟩ := Option.map_eq_some_iff.1 hu
      exact ih (h.reissue _ e) v hv

theorem Sound.restoreLaunches {ctx : Nat} {ms : List (Word × Word)} {x : List Launch} (h : Sound K s) : Sound K ((s.restoreLaunches ctx ms x).2) := by
  induction x generalizing s with
  | nil =>
    unfold State.restoreLaunches
    dsimp only
    exact h
  | cons _ _ ih =>
    unfold State.restoreLaunches
    dsimp only
    exact ih h.fresh.same

theorem Sound.restorePkts {ctx : Nat} {ms : List (Word × Word)} {hold : Bool} {x : List RenqPkt} (h : Sound K s) : Sound K
    (s.restorePkts ctx ms hold x) := by
  induction x generalizing s with
  | nil =>
    unfold State.restorePkts
    exact h
  | cons _ _ ih =>
    unfold State.restorePkts
    dsimp only
    exact ih (.ite (h.fresh.same.getD h.fresh.holdPkt) h.fresh.same)

theorem Sound.restoreContribs {ctx : Nat} {ls : List (Nat × Nat)} {x : List Contrib} (h : Sound K s) : Sound K (s.restoreContribs ctx ls x) := by
  induction x generalizing s with
  | nil =>
    unfold State.restoreContribs
    exact h
  | cons _ _ ih =>
    unfold State.restoreContribs
    dsimp only
    exact ih h.fresh.same

theorem Sound.restoreSet {ctx : Nat} {ls : List (Nat × Nat)} {e : SetEntry} (h : Sound K s) : ∀ u ∈ s.restoreSet ctx ls e, Sound K u := by
  unfold State.restoreSet
  dsimp only
  split
  · split
    · exact Sound.of_none
    · exact Sound.of_some (h.same.foldl (fun h1 => h1.fresh.holdContrib))
  · split
    · exact Sound.of_none
    · exact Sound.of_some (h.same.foldl (fun h1 => h1.fresh.holdContrib))

theorem Sound.restoreSets {ctx : Nat} {ls : List (Nat × Nat)} {es : List SetEntry} (h : Sound K s) :
    ∀ u ∈ State.restoreSets ctx ls es s, Sound K u := by
  induction es generalizing s with
  | nil => exact Sound.of_some h
  | cons e es ih =>
    intro u hu
    obtain ⟨v, hv, hu⟩ := Option.bind_eq_some_iff.1 hu
    exact ih (h.restoreSet v hv) u hu

theorem Sound.restoreHostRings {ctx : Nat} {rs : List HostRing} (h : Sound K s) : Sound K (s.restoreHostRings ctx rs) := by
  unfold State.restoreHostRings
  dsimp only
  exact h.same

theorem Sound.restoreImage {c : Ctx} {img : CkptImage} (h : Sound K s) : Sound K ((s.restoreImage c img).2) := by
  unfold State.restoreImage
  dsimp only
  split
  · exact h
  next e =>
    split
    · exact h
    next e1 =>
      split
      · exact h
      next e2 =>
        exact (((((h.restorePages.of_eq e).reissueAll) _ e1).updCtx.restorePkts.restorePkts.restoreLaunches.restoreSets) _
            e2).restoreContribs.restoreHostRings

theorem Sound.imageAt {addr : DWord} (h : Sound K s) : Sound K ((s.imageAt addr).2) := by
  unfold State.imageAt
  split
  · exact h
  · exact h.same

theorem execRestore_sound {o : OrderRec} (h : Sound K s) : ∀ u, execRestore o s = .next u → Sound K u := by
  unfold execRestore
  refine Sound.of_next ?_
  refine h.order ?_
  intro _ h1
  split
  · exact h1
  · split
    · exact h1
    · split
      next e1 => exact (h1.imageAt.of_eq e1).restoreImage
      next e1 => exact h1.imageAt.of_eq e1

theorem Sound.killByOrder {t : Team} (h : Sound K s) : Sound K (s.killByOrder t) := by
  unfold State.killByOrder
  dsimp only
  exact h.updLaunch.killTeam

theorem execPartitionChange_sound {o : OrderRec} (h : Sound K s) : ∀ u, execPartitionChange o s = .next u → Sound K u := by
  unfold execPartitionChange
  dsimp only
  refine Sound.of_next ?_
  refine h.order ?_
  intro _ h1
  split
  · exact h1
  · split
    · exact h1
    · exact .ite (h1.same.foldl (fun h2 => h2.foldl (fun h3 => h3.killByOrder))) h1.same

theorem execPartitionChangeComplete_sound {die : Nat} (h : Sound K s) : ∀ u, execPartitionChangeComplete die s = .next u → Sound K u := by
  unfold execPartitionChangeComplete
  exact Sound.of_next (Sound.ite h h.same)

theorem execAssignHostWorkRings_sound {o : OrderRec} (h : Sound K s) : ∀ u, execAssignHostWorkRings o s = .next u → Sound K u := by
  unfold execAssignHostWorkRings
  dsimp only
  refine Sound.of_next ?_
  refine h.order ?_
  intro _ h1
  split
  · exact h1
  · exact h1.same

theorem execAssignQueuePairs_sound {o : OrderRec} (h : Sound K s) : ∀ u, execAssignQueuePairs o s = .next u → Sound K u := by
  unfold execAssignQueuePairs
  dsimp only
  refine Sound.of_next ?_
  refine h.order ?_
  intro _ h1
  split
  · exact h1
  · exact h1.same

theorem execWriteWindowEntry_sound {o : OrderRec} (h : Sound K s) : ∀ u, execWriteWindowEntry o s = .next u → Sound K u := by
  unfold execWriteWindowEntry
  dsimp only
  refine Sound.of_next ?_
  refine h.order ?_
  intro _ h1
  split
  · exact h1
  · exact h1.same

theorem execAssignMonitor_sound {o : OrderRec} (h : Sound K s) : ∀ u, execAssignMonitor o s = .next u → Sound K u := by
  unfold execAssignMonitor
  dsimp only
  refine Sound.of_next ?_
  refine h.order ?_
  intro _ h1
  split
  · exact h1
  · exact h1.setMonitor

theorem execReadMailbox_sound {o : OrderRec} (h : Sound K s) : ∀ u, execReadMailbox o s = .next u → Sound K u := by
  unfold execReadMailbox
  dsimp only
  refine Sound.of_next ?_
  refine h.order ?_
  intro _ h1
  split
  · exact h1
  · exact h1

/-! #### Mgmt -/

theorem execFirmwareUpdate_sound {img : FwImage} (h : Sound K s) : ∀ u, execFirmwareUpdate img s = .next u → Sound K u := by
  unfold execFirmwareUpdate
  dsimp only
  exact Sound.of_next h.same

theorem Sound.recordStep {e : JournalEntry} (h : Sound K s) : Sound K (s.recordStep e) := by
  unfold State.recordStep
  dsimp only
  exact h.same.mail

theorem Sound.attempt {rep : StartReport} {step n path : Nat} (h : Sound K s) : Sound K ((s.attempt rep step n path).2) := by
  unfold State.attempt
  dsimp only
  exact .ite h.recordStep.same h.recordStep

theorem Sound.startStep {rep : StartReport} {step : Nat} (h : Sound K s) : Sound K ((s.startStep rep step).2) := by
  unfold State.startStep
  split
  · split
    · exact h.attempt
    · split
      next e1 => exact h.attempt.of_eq e1
      next e1 => exact (h.attempt.of_eq e1).attempt
  · exact h.attempt

theorem Sound.startSteps {rep : StartReport} {x : List Nat} (h : Sound K s) : Sound K (s.startSteps rep x) := by
  induction x generalizing s with
  | nil =>
    unfold State.startSteps
    exact h
  | cons _ _ ih =>
    unfold State.startSteps
    dsimp only
    split
    next e => exact ih ((Sound.ite h.same h).startStep.of_eq e)
    next e => exact .ite (ih (((Sound.ite h.same h).startStep.of_eq e).same.mail)) (((Sound.ite h.same h).startStep.of_eq e).same.mail)

/-- A module that is off or starts has no memory and no teams. -/
theorem Sound.cleared (s : State) : Sound K s.cleared := ⟨rfl, List.nodup_nil, (fun _ h => nomatch h), (fun _ h => nomatch h)⟩

theorem execStartSequence_sound {rep : StartReport} {s : State} : ∀ u, execStartSequence rep s = .next u → Sound K u := by
  exact Sound.of_next (Sound.ite (Sound.cleared s).startSteps (Sound.cleared s).startSteps.same)

theorem execPowerOff_sound {s : State} : ∀ u, execPowerOff s = .next u → Sound K u := by
  exact Sound.of_next ((Sound.cleared s).same)

theorem Sound.spdmAnswer {req : List Byte} {blocks : List (List Byte)} (h : Sound K s) : Sound K (s.spdmAnswer req blocks) := by
  unfold State.spdmAnswer
  exact .ite h h.send

theorem execGetVersion_sound {req : List Byte} (h : Sound K s) : ∀ u, execGetVersion req s = .next u → Sound K u := by
  unfold execGetVersion
  exact Sound.of_next h.spdmAnswer

theorem execGetCapabilities_sound {req : List Byte} (h : Sound K s) : ∀ u, execGetCapabilities req s = .next u → Sound K u := by
  unfold execGetCapabilities
  exact Sound.of_next h.spdmAnswer

theorem execNegotiateAlgorithms_sound {req : List Byte} (h : Sound K s) : ∀ u, execNegotiateAlgorithms req s = .next u → Sound K u := by
  unfold execNegotiateAlgorithms
  exact Sound.of_next h.spdmAnswer

theorem execGetDigests_sound {req : List Byte} (h : Sound K s) : ∀ u, execGetDigests req s = .next u → Sound K u := by
  unfold execGetDigests
  exact Sound.of_next h.spdmAnswer

theorem execGetCertificate_sound {req : List Byte} (h : Sound K s) : ∀ u, execGetCertificate req s = .next u → Sound K u := by
  unfold execGetCertificate
  exact Sound.of_next h.spdmAnswer

theorem execChallenge_sound {req : List Byte} (h : Sound K s) : ∀ u, execChallenge req s = .next u → Sound K u := by
  unfold execChallenge
  exact Sound.of_next h.spdmAnswer

theorem execGetMeasurements_sound {req : List Byte} (h : Sound K s) : ∀ u, execGetMeasurements req s = .next u → Sound K u := by
  unfold execGetMeasurements
  exact Sound.of_next h.spdmAnswer

theorem execPowerClockLower_sound {mhz : Nat} (h : Sound K s) : ∀ u, execPowerClockLower mhz s = .next u → Sound K u := by
  unfold execPowerClockLower
  exact Sound.of_next (Sound.ite h h.same.event)

theorem execArithmeticClockRestored_sound {mhz : Nat} (h : Sound K s) : ∀ u, execArithmeticClockRestored mhz s = .next u → Sound K u := by
  unfold execArithmeticClockRestored
  exact Sound.of_next (Sound.ite h h.same)

theorem Sound.sample {m : Monitor} (h : Sound K s) : Sound K (s.sample m) := by
  unfold State.sample
  dsimp only
  exact .ite h.setMonitor (.ite h.ask.setMonitor (.ite h.ask.setMonitor h))

theorem Sound.samples {x : Nat} (h : Sound K s) : Sound K (s.samples x) := by
  induction x generalizing s with
  | zero =>
    unfold State.samples
    exact h
  | succ _ ih =>
    unfold State.samples
    exact ih (h.foldl (fun h1 => h1.sample))

theorem execMonitorSample_sound (h : Sound K s) : ∀ u, execMonitorSample s = .next u → Sound K u := by
  unfold execMonitorSample
  exact Sound.of_next h.samples

theorem execManagementMonitorCommand_sound {mon : Nat} {freeze : Bool} (h : Sound K s) : ∀ u, execManagementMonitorCommand mon freeze s = .next u →
    Sound K u := by
  unfold execManagementMonitorCommand
  exact Sound.of_next (Sound.ite h h.setMonitor)

/-! #### Fabric -/

theorem Sound.arriving {f : State → State} (h : Sound K s) (hf : ∀ {s'}, Sound K s' → Sound K (f s')) : Sound K (s.arriving f) := by
  unfold State.arriving
  exact .ite (hf h) h

theorem Sound.frame {x : RoceFrame} {f : State → State} (h : Sound K s) (hf : ∀ {s'}, Sound K s' → Sound K (f s')) : Sound K (s.frame x f) := by
  unfold State.frame
  exact h.arriving (fun h1 => .ite ((hf h1).send) (hf h1))

theorem Sound.reply {ctx : Nat} {m : OutMsg} (h : Sound K s) : Sound K (s.reply ctx m) := by
  unfold State.reply
  exact h.send.sink

theorem execRdmaWrite_sound {f : RoceFrame} {va : DWord} {data : List Byte} (h : Sound K s) : ∀ u, execRdmaWrite f va data s = .next u → Sound K u :=
    by
  unfold execRdmaWrite
  refine Sound.of_next ?_
  refine h.frame ?_
  intro _ h1
  split
  · exact h1
  · split
    next e1 => exact (h1.writeVa.of_eq e1).reply
    next e1 => exact (h1.writeVa.of_eq e1).foldl (fun h2 => h2.seeTail)

theorem execRdmaRead_sound {f : RoceFrame} {va : DWord} {len : Nat} (h : Sound K s) : ∀ u, execRdmaRead f va len s = .next u → Sound K u := by
  unfold execRdmaRead
  refine Sound.of_next ?_
  refine h.frame ?_
  intro _ h1
  split
  · exact h1
  · split
    next e1 => exact (h1.readVa.of_eq e1).reply
    next e1 => exact (h1.readVa.of_eq e1).reply

theorem Sound.hostAtomic {qp va : Nat} {f : Nat → Option Nat} (h : Sound K s) : Sound K (s.hostAtomic qp va f) := by
  unfold State.hostAtomic
  dsimp only
  split
  · exact h
  · split
    · exact h.reply
    · split
      next e1 => exact (h.translateWalk.of_eq e1).reply
      next e1 =>
        split
        · exact (h.translateWalk.of_eq e1).reply
        · split
          · exact (h.translateWalk.of_eq e1).mailUe.reply
          · split
            · exact (h.translateWalk.of_eq e1).reply.writePhys
            · exact (h.translateWalk.of_eq e1).reply.uncache

theorem execFetchAndAdd_sound {f : RoceFrame} {va val : DWord} (h : Sound K s) : ∀ u, execFetchAndAdd f va val s = .next u → Sound K u := by
  unfold execFetchAndAdd
  exact Sound.of_next (h.frame (fun h1 => h1.hostAtomic))

theorem execCompareAndSwap_sound {f : RoceFrame} {va cmp swap : DWord} (h : Sound K s) : ∀ u, execCompareAndSwap f va cmp swap s = .next u → Sound K
    u := by
  unfold execCompareAndSwap
  exact Sound.of_next (h.frame (fun h1 => h1.hostAtomic))

theorem Sound.discarded {port : Nat} (h : Sound K s) : Sound K (s.discarded port) := by
  unfold State.discarded
  exact h.event

theorem Sound.takeEvavo {m : EvMsg} {down : Bool} (h : Sound K s) : Sound K (s.takeEvavo m down) := by
  unfold State.takeEvavo
  exact .ite h.discarded h.takeChunk

theorem execCollectiveChunk_sound {m : EvMsg} (h : Sound K s) : ∀ u, execCollectiveChunk m s = .next u → Sound K u := by
  unfold execCollectiveChunk
  exact Sound.of_next (h.arriving (fun h1 => h1.takeEvavo))

theorem execCollectiveResult_sound {m : EvMsg} (h : Sound K s) : ∀ u, execCollectiveResult m s = .next u → Sound K u := by
  unfold execCollectiveResult
  exact Sound.of_next (h.arriving (fun h1 => h1.takeEvavo))

theorem Sound.takeRenq {m : EvMsg} (h : Sound K s) : Sound K (s.takeRenq m) := by
  unfold State.takeRenq
  dsimp only
  exact .ite h.discarded h.fresh.same

theorem execRenqPacket_sound {m : EvMsg} (h : Sound K s) : ∀ u, execRenqPacket m s = .next u → Sound K u := by
  unfold execRenqPacket
  exact Sound.of_next (h.arriving (fun h1 => h1.takeRenq))

theorem Sound.takeOrder {o : OrderRec} (h : Sound K s) : Sound K (s.takeOrder o) := by
  unfold State.takeOrder
  exact h.same

theorem execSend_sound {f : RoceFrame} {data : List Byte} (h : Sound K s) : ∀ u, execSend f data s = .next u → Sound K u := by
  unfold execSend
  refine Sound.of_next ?_
  refine h.frame ?_
  intro _ h1
  split
  · exact .ite h1.takeOrder h1
  · split
    · exact h1
    · split
      · exact h1.takeEvavo
      · exact h1.takeEvavo
      · exact h1.takeRenq
      · exact h1.discarded

theorem execCongestionNotification_sound {qp : Nat} (h : Sound K s) : ∀ u, execCongestionNotification qp s = .next u → Sound K u := by
  unfold execCongestionNotification
  dsimp only
  exact Sound.of_next (h.arriving (fun h1 => h1.same))

theorem execPauseFrame_sound {port prio quanta : Nat} (h : Sound K s) : ∀ u, execPauseFrame port prio quanta s = .next u → Sound K u := by
  unfold execPauseFrame
  dsimp only
  exact Sound.of_next (Sound.ite h h.same.event)

theorem execDiscardedFrame_sound {port : Nat} (h : Sound K s) : ∀ u, execDiscardedFrame port s = .next u → Sound K u := by
  unfold execDiscardedFrame
  exact Sound.of_next (Sound.ite h.discarded h)

theorem execRemoteAccessError_sound {op : Nat} (h : Sound K s) : ∀ u, execRemoteAccessError op s = .next u → Sound K u := by
  unfold execRemoteAccessError
  dsimp only
  refine Sound.of_next ?_
  refine h.arriving ?_
  intro _ h1
  split
  · exact h1
  · refine Sound.drainLaunches ?_
    refine Sound.completeDone ?_
    refine Sound.unhold ?_
    exact h1.same.foldl (fun h2 => h2.asyncFault)

theorem execRemoteWriteAcknowledged_sound {op : Nat} (h : Sound K s) : ∀ u, execRemoteWriteAcknowledged op s = .next u → Sound K u := by
  unfold execRemoteWriteAcknowledged
  exact Sound.of_next (h.arriving (fun h1 => h1.same.unhold.completeDone.drainLaunches))

theorem execRetryExhausted_sound {qp : Nat} (h : Sound K s) : ∀ u, execRetryExhausted qp s = .next u → Sound K u := by
  unfold execRetryExhausted
  dsimp only
  exact Sound.of_next (h.foldl (fun h1 => h1.updCmd))

/-! #### Schedule -/

theorem Sound.fetch {core ctx pc : Nat} {ts : List Tid} (h : Sound K s) : Sound K ((s.fetch core ctx pc ts).2) := by
  unfold State.fetch
  dsimp only
  split
  · exact h
  · split
    next e => exact h.translate.of_eq e
    next e =>
      split
      · split
        · exact h.translate.of_eq e
        · split
          next e3 => exact (h.translate.of_eq e).remoteRead.of_eq e3
          next e3 => exact (h.translate.of_eq e).remoteRead.of_eq e3
      · split
        · exact (h.translate.of_eq e).mailUe
        · split
          · exact (h.translate.of_eq e).mailCopy
          · exact (h.translate.of_eq e).pick

theorem Sound.clearGw {rs : List Ready} (h : Sound K s) : Sound K (s.clearGw rs) := by
  unfold State.clearGw
  exact h.foldl (fun h1 => h1.updThread)

theorem Sound.fetchFault {ts : List Tid} {pc : DWord} {code : Nat} (h : Sound K s) : Sound K (s.fetchFault ts pc code) := by
  unfold State.fetchFault
  exact h.foldl (fun h1 => h1.takeFault)

theorem Sound.taken {i : Instr} (h : Sound K s) : Sound K (s.taken i) := by
  unfold State.taken
  exact .ite h.same h

theorem Sound.tick (h : Sound K s) : Sound K s.tick := by
  unfold State.tick
  dsimp only
  exact h.same

theorem Sound.markParked {old : State} (h : Sound K s) : Sound K (s.markParked old) := by
  unfold State.markParked
  refine h.mapTeams fun x => ?_
  split <;> rfl

theorem Sound.dropDone (h : Sound K s) : Sound K s.dropDone := by
  unfold State.dropDone
  exact h.same

theorem Sound.settle {old : State} (h : Sound K s) : Sound K (s.settle old) := by
  unfold State.settle
  exact h.same.markParked.takeHeads.dropDone.completeDone.drainLaunches.finishReleases.lookAtRings

/-! #### Step -/

theorem execTeamRetire_sound {team : Nat} (h : Sound K s) : ∀ u, execTeamRetire team s = .next u → Sound K u := by
  refine Sound.of_next ?_
  split
  · exact h
  · split
    · exact h
    · dsimp only
      refine Sound.drainLaunches (Sound.completeDone ?_)
      have shell := (h.editTeam (k := team) (f := Team.shell) (fun _ => rfl) fun x _ _ ok => Team.boneOk_shell ok)
      split
      · exact shell.freeTeam.dropTeams
      · split
        · exact Sound.ite (Sound.ite shell.freeTeam.isobar shell.freeTeam.isobar) shell.freeTeam
        · exact Sound.ite (Sound.updLaunch shell.freeTeam.dropTeams) shell.freeTeam

theorem settleOutcome_sound {old : State} {r : Answer} (h : ∀ u, r = .next u → Sound K u) :
    ∀ u, settleOutcome old r = .next u → Sound K u := by
  cases r with
  | next s => exact Sound.of_next ((h s rfl).settle)
  | fault => exact fun _ e => nomatch e
  | refused => exact fun _ e => nomatch e

/-! #### The step -/

/-- What every instruction and event keeps. -/
theorem exec_sound (sound : Sound K s) (all : ∀ k, K k) (i : Instr) : ∀ u, exec i s = .next u → Sound K u := by
  cases i with
  | iadd h o => exact execIadd_sound sound
  | isub h o => exact execIsub_sound sound
  | imul h o => exact execImul_sound sound
  | imulh h o => exact execImulh_sound sound
  | imad h o => exact execImad_sound sound
  | imin h o => exact execImin_sound sound
  | imax h o => exact execImax_sound sound
  | iabs h o => exact execIabs_sound sound
  | iand h o => exact execIand_sound sound
  | ior h o => exact execIor_sound sound
  | ixor h o => exact execIxor_sound sound
  | iandn h o => exact execIandn_sound sound
  | shl h o => exact execShl_sound sound
  | shr h o => exact execShr_sound sound
  | sar h o => exact execSar_sound sound
  | rotl h o => exact execRotl_sound sound
  | popc h o => exact execPopc_sound sound
  | clz h o => exact execClz_sound sound
  | brev h o => exact execBrev_sound sound
  | bfe h o => exact execBfe_sound sound
  | bfi h o => exact execBfi_sound sound
  | icmp h o => exact execIcmp_sound sound
  | sel h o => exact execSel_sound sound
  | plop h o => exact execPlop_sound sound
  | mov h o => exact execMov_sound sound
  | movi h o => exact execMovi_sound sound
  | movhi h o => exact execMovhi_sound sound
  | aadd h o => exact execAadd_sound sound
  | imulw h o => exact execImulw_sound sound
  | idiv h o => exact execIdiv_sound sound
  | irem h o => exact execIrem_sound sound
  | fadd h o => exact execFadd_sound sound
  | fsub h o => exact execFsub_sound sound
  | fmul h o => exact execFmul_sound sound
  | ffma h o => exact execFfma_sound sound
  | fmin h o => exact execFmin_sound sound
  | fmax h o => exact execFmax_sound sound
  | fcmp h o => exact execFcmp_sound sound
  | fdot2 h o => exact execFdot2_sound sound
  | frcp h o => exact execFrcp_sound sound
  | frsq h o => exact execFrsq_sound sound
  | fsqrt h o => exact execFsqrt_sound sound
  | fdiv h o => exact execFdiv_sound sound
  | fexp2 h o => exact execFexp2_sound sound
  | flog2 h o => exact execFlog2_sound sound
  | fsinpi h o => exact execFsinpi_sound sound
  | fcospi h o => exact execFcospi_sound sound
  | frint h o => exact execFrint_sound sound
  | fclass h o => exact execFclass_sound sound
  | dadd h o => exact execDadd_sound sound
  | dsub h o => exact execDsub_sound sound
  | dmul h o => exact execDmul_sound sound
  | dfma h o => exact execDfma_sound sound
  | dmin h o => exact execDmin_sound sound
  | dmax h o => exact execDmax_sound sound
  | dcmp h o => exact execDcmp_sound sound
  | ddiv h o => exact execDdiv_sound sound
  | dsqrt h o => exact execDsqrt_sound sound
  | cvt h o => exact execCvt_sound sound
  | cvtq h o => exact execCvtq_sound sound
  | cvtd h o => exact execCvtd_sound sound
  | mxq h o => exact execMxq_sound sound
  | shfl h o => exact execShfl_sound sound
  | voteAll h o => exact execVoteAll_sound sound
  | voteAny h o => exact execVoteAny_sound sound
  | voteBal h o => exact execVoteBal_sound sound
  | voteEq h o => exact execVoteEq_sound sound
  | gred h o => exact execGred_sound sound
  | gscan h o => exact execGscan_sound sound
  | topk h o => exact execTopk_sound sound
  | matchLanes h o => exact execMatchLanes_sound sound
  | rnd h o => exact execRnd_sound sound
  | rndu h o => exact execRndu_sound sound
  | seedr h d => exact execSeedr_sound sound
  | ld h o => exact execLd_sound sound
  | st h o => exact execSt_sound sound
  | gather h o => exact execGather_sound sound
  | scatter h o => exact execScatter_sound sound
  | atom h o => exact execAtom_sound sound
  | cas h o => exact execCas_sound sound
  | red h o => exact execRed_sound sound
  | redseq h o => exact execRedseq_sound sound
  | fence h o => exact execFence_sound sound
  | pref h o => exact execPref_sound sound
  | cmaintInv h o => exact execCmaintInv_sound sound
  | cmaintClean h o => exact execCmaintClean_sound sound
  | cmaintFlush h o => exact execCmaintFlush_sound sound
  | cmaintTinv h o => exact execCmaintTinv_sound sound
  | ldp h o => exact execLdp_sound sound
  | stp h o => exact execStp_sound sound
  | pqry h o => exact execPqry_sound sound
  | lds h o => exact execLds_sound sound
  | sts h o => exact execSts_sound sound
  | atoms h o => exact execAtoms_sound sound
  | presQuery h o => exact execPresQuery_sound sound
  | presSet h o => exact execPresSet_sound sound
  | presClear h o => exact execPresClear_sound sound
  | rrot h o => exact execRrot_sound sound
  | hclaim h a => exact execHclaim_sound sound
  | hfree h => exact execHfree_sound sound
  | hins h o => exact execHins_sound sound
  | hprobe h o => exact execHprobe_sound sound
  | hdel h o => exact execHdel_sound sound
  | hacc h o => exact execHacc_sound sound
  | hdrain h o => exact execHdrain_sound sound
  | hstat h o => exact execHstat_sound sound
  | rdefDefine h o => exact execRdefDefine_sound sound
  | rdefFree h a => exact execRdefFree_sound sound
  | rdefAdopt h a => exact execRdefAdopt_sound sound
  | rpush h o => exact execRpush_sound sound
  | rpop h o => exact execRpop_sound sound
  | rsteal h o => exact execRsteal_sound sound
  | renq h o => exact execRenq_sound sound
  | gset h g => exact execGset_sound sound
  | gres h o => exact execGres_sound sound
  | qsub h o => exact execQsub_sound sound
  | qpop h o => exact execQpop_sound sound
  | qstat h o => exact execQstat_sound sound
  | qwait h o => exact execQwait_sound sound
  | mloop h o => exact execMloop_sound sound
  | mwaitConsumed h d => exact execMwaitConsumed_sound sound
  | mwaitDone h d => exact execMwaitDone_sound sound
  | mwaitAll h => exact execMwaitAll_sound sound
  | mzero h o => exact execMzero_sound sound
  | mdrain h o => exact execMdrain_sound sound
  | mstore h o => exact execMstore_sound sound
  | mstadd h o => exact execMstadd_sound sound
  | mldf h o => exact execMldf_sound sound
  | mscan h o => exact execMscan_sound sound
  | mcarry h o => exact execMcarry_sound sound
  | nop h => exact execNop_sound sound
  | bra h o => exact execBra_sound sound
  | brx h o => exact execBrx_sound sound
  | call h o => exact execCall_sound sound
  | callx h o => exact execCallx_sound sound
  | ret h o => exact execRet_sound sound
  | exit h => exact execExit_sound sound
  | join h m => exact execJoin_sound sound
  | leave h m => exact execLeave_sound sound
  | waitm h m => exact execWaitm_sound sound
  | mclr h m => exact execMclr_sound sound
  | mget h o => exact execMget_sound sound
  | bari h o => exact execBari_sound sound
  | bara h o => exact execBara_sound sound
  | barw h o => exact execBarw_sound sound
  | bars h bar => exact execBars_sound sound
  | sleep h n => exact execSleep_sound sound
  | sigw h o => exact execSigw_sound sound
  | trap h imm => exact execTrap_sound sound
  | tretResume h keepp => exact execTretResume_sound sound
  | tretSkip h keepp => exact execTretSkip_sound sound
  | tretRedirect h o => exact execTretRedirect_sound sound
  | tkillThread h code => exact execTkillThread_sound (code := code) sound
  | tkillGroup h code => exact execTkillGroup_sound (code := code) sound
  | tkillTeam h code => exact execTkillTeam_sound (code := code) sound
  | tkillGrid h code => exact execTkillGrid_sound (code := code) sound
  | tinfo h o => exact execTinfo_sound sound
  | bkpt h imm => exact execBkpt_sound sound
  | launch h o => exact execLaunch_sound sound
  | seedw h a => exact execSeedw_sound sound
  | svr h o => exact execSvr_sound sound
  | pmonRead h o => exact execPmonRead_sound sound
  | pmonArm h a => exact execPmonArm_sound sound
  | pmonFreeze h a => exact execPmonFreeze_sound sound
  | illegalOp w => exact execIllegalOp_sound sound
  | pairWord o => exact execPairWord_sound sound
  | teamQueuePush t q slot => exact execTeamQueuePush_sound sound
  | teamQueuePop t q => exact execTeamQueuePop_sound sound
  | tokenPop t q => exact execTokenPop_sound sound
  | longResultLands t id => exact execLongResultLands_sound sound
  | gapExpiry t => exact execGapExpiry_sound sound
  | sleepExpiry t => exact execSleepExpiry_sound sound
  | handlerEntry t => exact execHandlerEntry_sound sound
  | segmentReload team seg => exact execSegmentReload_sound sound
  | lineArrival cmd line => exact execLineArrival_sound sound
  | consumedPoint cmd => exact execConsumedPoint_sound sound
  | donePoint cmd => exact execDonePoint_sound sound
  | copy1d cmd => exact execCopy1d_sound sound
  | copy2d cmd => exact execCopy2d_sound sound
  | copy3d cmd => exact execCopy3d_sound sound
  | fill cmd => exact execFill_sound sound
  | sort cmd => exact execSort_sound sound
  | sortseg cmd => exact execSortseg_sound sound
  | trvq cmd => exact execTrvq_sound sound
  | trvpair cmd => exact execTrvpair_sound sound
  | fact cmd => exact execFact_sound sound
  | solve cmd => exact execSolve_sound sound
  | solvebwd cmd => exact execSolvebwd_sound sound
  | lcp cmd => exact execLcp_sound sound
  | bred cmd => exact execBred_sound sound
  | rowz cmd => exact execRowz_sound sound
  | rowcp cmd => exact execRowcp_sound sound
  | embag cmd => exact execEmbag_sound sound
  | coll cmd => exact execColl_sound sound
  | waveApply team => exact execWaveApply_sound sound
  | sigwRecheck t => exact execSigwRecheck_sound sound
  | contributionArrival id => exact execContributionArrival_sound sound
  | contributionApply set => exact execContributionApply_sound sound
  | renqArrival id => exact execRenqArrival_sound sound
  | overflowDelivery id => exact execOverflowDelivery_sound sound
  | hostNop ring => exact execHostNop_sound sound
  | hostLaunch ring => exact execHostLaunch_sound sound
  | hostSignal ring => exact execHostSignal_sound sound
  | signalStore id => exact execSignalStore_sound sound
  | hostPacketSkipped ring => exact execHostPacketSkipped_sound sound
  | dependencyMet launch k => exact execDependencyMet_sound sound
  | teamPlacement team core => exact execTeamPlacement_sound sound all
  | thawSwap core ctx => exact execThawSwap_sound sound all
  | teamRetire team => exact execTeamRetire_sound sound
  | lullWatchdog ctx => exact execLullWatchdog_sound sound
  | registerContext o => exact execRegisterContext_sound sound
  | releaseContext o => exact execReleaseContext_sound sound
  | preemptContext o => exact execPreemptContext_sound sound
  | resumeContext o => exact execResumeContext_sound sound
  | preemptTeam o => exact execPreemptTeam_sound sound
  | kill o => exact execKill_sound sound
  | setSeed o => exact execSetSeed_sound sound
  | checkpoint o => exact execCheckpoint_sound sound
  | checkpointTaken ctx => exact execCheckpointTaken_sound sound
  | restore o => exact execRestore_sound sound
  | partitionChange o => exact execPartitionChange_sound sound
  | partitionChangeComplete die => exact execPartitionChangeComplete_sound sound
  | assignHostWorkRings o => exact execAssignHostWorkRings_sound sound
  | assignQueuePairs o => exact execAssignQueuePairs_sound sound
  | writeWindowEntry o => exact execWriteWindowEntry_sound sound
  | assignMonitor o => exact execAssignMonitor_sound sound
  | readMailbox o => exact execReadMailbox_sound sound
  | startSequence rep => exact execStartSequence_sound
  | getVersion req => exact execGetVersion_sound sound
  | getCapabilities req => exact execGetCapabilities_sound sound
  | negotiateAlgorithms req => exact execNegotiateAlgorithms_sound sound
  | getDigests req => exact execGetDigests_sound sound
  | getCertificate req => exact execGetCertificate_sound sound
  | challenge req => exact execChallenge_sound sound
  | getMeasurements req => exact execGetMeasurements_sound sound
  | powerClockLower mhz => exact execPowerClockLower_sound sound
  | monitorSample => exact execMonitorSample_sound sound
  | rdmaWrite f va data => exact execRdmaWrite_sound sound
  | rdmaRead f va len => exact execRdmaRead_sound sound
  | send f data => exact execSend_sound sound
  | fetchAndAdd f va val => exact execFetchAndAdd_sound sound
  | compareAndSwap f va cmp swap => exact execCompareAndSwap_sound sound
  | congestionNotification qp => exact execCongestionNotification_sound sound
  | pauseFrame port prio quanta => exact execPauseFrame_sound sound
  | discardedFrame port => exact execDiscardedFrame_sound sound
  | collectiveChunk m => exact execCollectiveChunk_sound sound
  | collectiveResult m => exact execCollectiveResult_sound sound
  | renqPacket m => exact execRenqPacket_sound sound
  | remoteAccessError op => exact execRemoteAccessError_sound sound
  | retryExhausted qp => exact execRetryExhausted_sound sound
  | remoteWriteAcknowledged op => exact execRemoteWriteAcknowledged_sound sound
  | powerOff => exact execPowerOff_sound
  | arithmeticClockRestored mhz => exact execArithmeticClockRestored_sound sound
  | firmwareUpdate img => exact execFirmwareUpdate_sound sound
  | managementMonitorCommand mon freeze => exact execManagementMonitorCommand_sound sound

/-- The state that an act takes up is sound. -/
inductive Act.Sound (K : Nat → Prop) : Act → Prop
  | stop (f : Fault) : Act.Sound K (.stop f)
  | run (i : Instr) {u : State} (h : Machine.Sound K u) : Act.Sound K (.run i u)
  | quiet {u : State} (h : Machine.Sound K u) : Act.Sound K (.quiet u)

theorem Sound.retryOn {x : Team} {g : Group} {p : Pend} {ts : List Tid} (h : Sound K s) : (s.retryOn x g p ts).Sound K :=
  .run _ (Sound.foldl h.same fun h1 => h1.updThread).same

theorem Sound.retryLane {u : Tid} (h : Sound K s) : ∀ a ∈ s.retryLane u, a.Sound K := by
  unfold State.retryLane
  split
  · split
    · exact fun a e => nomatch e
    · split
      · exact fun a e => nomatch e
      · exact fun a e => Option.some.inj e ▸ h.retryOn
  · exact fun a e => nomatch e

theorem Sound.retryNow (h : Sound K s) : ∀ a ∈ s.retryNow, a.Sound K := by
  unfold State.retryNow
  dsimp only
  split
  · exact fun a e => Option.some.inj e ▸ .quiet h.same
  · intro a e
    obtain ⟨u, -, e⟩ := List.exists_of_findSome?_eq_some e
    exact h.retryLane a e

theorem Sound.beforeStart (h : Sound K s) : ∀ a ∈ s.beforeStart, a.Sound K := by
  unfold State.beforeStart
  dsimp only
  split
  · split
    · exact fun a e => Option.some.inj e ▸ .run _ h.taken
    · exact fun a e => Option.some.inj e ▸ .stop _
  · split
    · exact fun a e => Option.some.inj e ▸ .run _ h
    · exact fun a e => nomatch e

theorem Sound.issueOn {core pipe : Nat} (h : Sound K s) : (s.issueOn core pipe).Sound K := by
  unfold State.issueOn
  dsimp only
  split
  · exact .quiet h.same
  · split
    next e => exact .quiet (Sound.of_eq h.pick.clearGw.same.fetch e).fetchFault
    next e => exact .run _ (Sound.of_eq h.pick.clearGw.same.fetch e).markThaw.fresh.same

theorem Sound.endCycle (h : Sound K s) : s.endCycle.Sound K := by
  unfold State.endCycle
  dsimp only
  split
  · exact .quiet h.tick
  · exact .run _ h.tick.samples

theorem Sound.issueOrTick (h : Sound K s) : s.issueOrTick.Sound K := by
  unfold State.issueOrTick
  split
  · exact h.issueOn
  · exact h.endCycle

theorem Sound.eventOrIssue (h : Sound K s) : s.eventOrIssue.Sound K := by
  unfold State.eventOrIssue
  dsimp only
  split
  · exact .run _ h.pick.taken
  · exact h.pick.issueOrTick

/-- What happens next begins from a sound state. -/
theorem Sound.nextAct (h : Sound K s) : s.nextAct.Sound K := by
  unfold State.nextAct
  split
  next e => exact h.beforeStart _ e
  · split
    next e => exact h.retryNow _ e
    · split
      · exact .run _ h
      · exact h.eventOrIssue

/-- Every step keeps what it finds. -/
theorem Sound.step (h : Sound K s) (all : ∀ k, K k) : ∀ u, step s = .next u → Sound K u := by
  have next := h.nextAct
  unfold Machine.step
  split
  · exact fun _ e => nomatch e
  next e =>
    rw [e] at next
    cases next with
    | run _ before => exact settleOutcome_sound (exec_sound before all _)
  next e =>
    rw [e] at next
    refine Sound.of_next ?_
    cases next with
    | quiet before => exact before.settle

end Sys2Proof.Machine

namespace Sys2Proof

/-- Settles O4, by one rule per function of the step: each keeps `Sound`, and so does their composition. -/
theorem stepInvariants : Obligations.StepInvariants := fun s t h e =>
  (Machine.sound_iff_kept t).1 (((Machine.sound_iff_kept s).2 h).step (fun _ => trivial) t e)

end Sys2Proof

namespace Sys2Proof.Machine

-- One theorem after another, for the memory that a check has.
set_option Elab.async false

/-! ### Queues and what lands on threads -/

/-! #### What a queue act leaves unchanged -/

/-- Memory stands, and so does what `keepsRecords` says. -/
structure State.settled (s u : State) : Prop where
  mem : u.mem = s.mem
  records : s.keepsRecords u

theorem State.settled_refl (s : State) : s.settled s := ⟨rfl, s.keepsRecords_refl⟩

theorem State.settled_trans {s a u : State} (h : s.settled a) (k : a.settled u) : s.settled u :=
  ⟨k.mem.trans h.mem, State.keepsRecords_trans h.records k.records⟩

/-- A change beside memory, teams, launches and the issue set. -/
theorem State.settled_of_eq {s u : State} (mem : u.mem = s.mem) (teams : u.teams = s.teams) (launches : u.launches = s.launches) (cur : u.cur = s.cur) :
    s.settled u := ⟨mem, State.keepsRecords_of_eq teams launches cur⟩

theorem State.wakeTeam_mem (s : State) (k : Nat) (p : Park → Bool) : (s.wakeTeam k p).mem = s.mem := by
  unfold State.wakeTeam
  split <;> rfl

theorem State.wakeTeam_l1 (s : State) (k : Nat) (p : Park → Bool) : (s.wakeTeam k p).l1 = s.l1 := by
  unfold State.wakeTeam
  split <;> rfl

theorem State.wakeTeam_settled (s : State) (k : Nat) (p : Park → Bool) : s.settled (s.wakeTeam k p) := ⟨s.wakeTeam_mem k p, s.wakeTeam_records k p⟩

/-- Releasing what is held at issue changes threads one by one. -/
theorem State.unhold_remap (s : State) : s.unhold = s.remap fun _ _ th => if th.held then { th with held := false } else th := rfl

theorem State.unhold_settled (s : State) : s.settled s.unhold := by
  have lane : ∀ th : Thread, (if th.held then { th with held := false } else th).lane = th.lane := fun th => by split <;> rfl
  have field : ∀ {α : Type} (g : Thread → α), (∀ th : Thread, g { th with held := false } = g th) → ∀ v, (s.unhold.thread? v).map g = (s.thread? v).map g := by
    intro α g hg v
    rw [s.unhold_remap, s.thread?_remap (fun _ _ => lane), Option.map_map]
    refine congrArg (Option.map · _) (funext fun th => ?_)
    simp only [Function.comp]
    split
    · exact hg th
    · rfl
  refine ⟨rfl, ?_, rfl, rfl, field _ fun _ => rfl, field _ fun _ => rfl⟩
  rw [s.unhold_remap, State.remap, List.map_map]
  refine List.map_congr_left fun x _ => ?_
  simp only [Function.comp, Team.unthreaded, Team.remap, List.map_map]
  rfl

/-- A thread's change keeps its predicates and outstanding results. -/
theorem State.updThread_settled (s : State) (t : Tid) {f : Thread → Thread} (keeps : ∀ th, (f th).lane = th.lane ∧ (f th).preds = th.preds ∧ (f th).longs = th.longs) :
    s.settled (s.updThread t f) := by
  have field : ∀ {α : Type} (g : Thread → α), (∀ th, g (f th) = g th) → ∀ v, ((s.updThread t f).thread? v).map g = (s.thread? v).map g := by
    intro α g hg v
    rw [State.thread?_updThread s t v f fun th => (keeps th).1]
    split
    next e =>
      rw [Option.map_map]
      exact congrArg (Option.map · _) (funext hg)
    · rfl
  exact ⟨rfl, State.updThread_unthreaded s t f, rfl, rfl, field _ fun th => (keeps th).2.1, field _ fun th => (keeps th).2.2⟩

theorem State.leaveQueue_settled (s : State) (t : Tid) (q : Nat) (f : Pend → Option Pend) : s.settled (s.leaveQueue t q f) := by
  refine State.settled_trans (s.updThread_settled t (f := fun th =>
    { th.unpark s.clk.acycle (fun k => decide (k = .queue q)) with pend := th.pend.bind f }) fun th => th.unpark_keeps _ _) ?_
  exact State.settled_of_eq rfl rfl rfl rfl

theorem State.invalL1_settled (s : State) (core : Nat) : s.settled (s.invalL1 core) := State.settled_of_eq rfl rfl rfl rfl

/-- A team after such a change: its queues, tokens and barriers stand. -/
theorem State.settled.team {s u : State} (h : s.settled u) {k : Nat} {x : Team} (hx : s.team? k = some x) :
    ∃ y, u.team? k = some y ∧ y.unthreaded = x.unthreaded := by
  obtain ⟨y, hy, e⟩ := Option.map_eq_some_iff.1 ((State.unthreaded_team h.records.teams k).trans (congrArg _ hx))
  exact ⟨y, hy, e⟩

theorem Team.unthreaded_queues {x y : Team} (h : y.unthreaded = x.unthreaded) : y.queues = x.queues :=
  (congrArg Team.queues h : y.unthreaded.queues = x.unthreaded.queues)

theorem Team.unthreaded_tokens {x y : Team} (h : y.unthreaded = x.unthreaded) : y.tokens = x.tokens :=
  (congrArg Team.tokens h : y.unthreaded.tokens = x.unthreaded.tokens)

/-! #### Association lists -/

theorem assoc_assocSet_same {α β : Type} [DecidableEq α] (d : β) (l : List (α × β)) (k : α) (v : β) : assoc d (assocSet l k v) k = v := by
  simp [assoc, assocSet]

theorem assoc_assocSet_other {α β : Type} [DecidableEq α] (d : β) (l : List (α × β)) {k j : α} (v : β) (h : j ≠ k) :
    assoc d (assocSet l k v) j = assoc d l j := by
  have keeps : (l.filter fun x => !decide (x.1 = k)).find? (fun x => decide (x.1 = j)) = l.find? fun x => decide (x.1 = j) := by
    rw [List.find?_filter]
    refine List.find?_congr fun x _ => ?_
    by_cases hx : x.1 = j <;> simp [hx, h]
  rw [assoc, assocSet, List.find?_cons_of_neg (by simpa using Ne.symm h), keeps, assoc]

/-! #### Pushing and popping a slot -/

/-- The team that a key names gives way to another of its key. -/
theorem State.team?_updTeam_const {s : State} {k : Nat} {x y : Team} (hx : s.team? k = some x) (hy : y.key = x.key) :
    (s.updTeam k fun _ => y).team? k = some y := by
  have key : x.key = k := of_decide_eq_true (List.find?_some hx :)
  have same : s.updTeam k (fun _ => y) = s.updTeam k fun z => if z.key = k then y else z := by
    simp only [State.updTeam, updWhere, State.mk.injEq, true_and, and_true]
    refine List.map_congr_left fun z _ => ?_
    by_cases hz : z.key = k <;> simp [hz]
  rw [same, State.team?_updTeam_same s k (fun z => if z.key = k then y else z), hx, Option.map_some, if_pos key]
  intro z
  split
  next hz => exact hy.trans (key.trans hz.symm)
  · rfl

/-- A team whose queue holds these slots. -/
def Team.queued (x : Team) (q : Nat) (slots : List (List Word)) : Team := { x with queues := assocSet x.queues q slots }

/-- A queue with room takes a slot at its end (R260, R261). -/
theorem State.push_room {s : State} {t : Tid} {q : Nat} {slot : List Word} {x : Team} (hx : s.team? t.team = some x)
    (room : x.hasRoom (s.descOf x) q = true) :
    ∃ u, s.push t q slot = some u ∧ (s.updTeam t.team fun x => x.queued q (assoc [] x.queues q ++ [slot])).settled u := by
  refine ⟨_, ?_, State.wakeTeam_settled _ t.team fun k => decide (k = .queue q)⟩
  rw [State.push, hx]
  exact if_pos room

/-- A queue that holds a slot gives it up (R259); the pop of a token invalidates the core's L1 (R257). -/
theorem State.pop_slot {s : State} {t : Tid} {q : Nat} {slot : List Word} {x y : Team} (hx : s.team? t.team = some x)
    (taken : x.popQueue q = some (slot, y)) :
    ∃ u, s.pop t q = some (slot, u) ∧ (s.updTeam t.team fun _ => y).settled u ∧ (q < 32 → ∀ k ∈ u.l1, k.core ≠ x.core) := by
  refine ⟨_, by simp only [State.pop, hx, taken]; rfl, ?_, fun hq k hk => ?_⟩
  · refine State.settled_trans ?_ (State.settled_trans (State.wakeTeam_settled _ t.team fun k => decide (k = .queue q)) (State.unhold_settled _))
    split
    · exact State.invalL1_settled _ x.core
    · exact State.settled_refl _
  · rw [State.unhold_l1, State.wakeTeam_l1] at hk
    rw [popInvalidates, decide_eq_true hq, if_pos rfl] at hk
    simpa using (List.mem_filter.1 hk).2

/-- The oldest slot of a team queue. -/
theorem Team.popQueue_slot {x : Team} {q : Nat} {slot : List Word} {rest : List (List Word)} (hq : 32 ≤ q) (hs : assoc [] x.queues q = slot :: rest) :
    x.popQueue q = some (slot, x.queued q rest) := by
  rw [Team.popQueue, if_pos hq, hs]
  rfl

/-- The oldest token of a token queue. -/
theorem Team.popQueue_token {x : Team} {q : Nat} {p : Nat × Word} (hq : q < 32) (hp : x.tokens.find? (fun y => decide (y.1 = q)) = some p) :
    x.popQueue q = some ([p.2], { x with tokens := x.tokens.eraseP fun y => decide (y.1 = q) }) := by
  rw [Team.popQueue, if_neg (Nat.not_le.2 hq), hp]

/-- A lane's slot comes out of its queue: what the team holds then is what the pop leaves. -/
theorem State.lanePop_team {s : State} {t : Tid} {q : Nat} {slot : List Word} {x y : Team} (hx : s.team? t.team = some x)
    (taken : x.popQueue q = some (slot, y)) (key : y.key = x.key) :
    ∃ z, (s.lanePop t q).team? t.team = some z ∧ (s.lanePop t q).mem = s.mem ∧ z.unthreaded = y.unthreaded := by
  obtain ⟨u, hu, popped, -⟩ := State.pop_slot hx taken
  have left : (s.updTeam t.team fun _ => y).settled (s.lanePop t q) := by
    rw [State.lanePop, hu]
    refine State.settled_trans popped ?_
    dsimp only
    split
    · exact State.leaveQueue_settled u t q _
    · exact State.settled_refl u
  obtain ⟨z, hz, e⟩ := left.team (State.team?_updTeam_const hx key)
  exact ⟨z, hz, left.mem, e⟩

/-! #### Queue acts of one lane (R259 to R261) -/

/-- TEAM_QUEUE_PUSH where there is room. -/
theorem teamQueuePush_room {s : State} {t : Tid} {q : Nat} {slot : Word} {x : Team} (hx : s.team? t.team = some x)
    (room : x.hasRoom (s.descOf x) q = true) :
    ∃ (u : State) (y : Team), exec (.teamQueuePush t q slot) s = .next u ∧ u.team? t.team = some y ∧ u.mem = s.mem ∧
      assoc [] y.queues q = assoc [] x.queues q ++ [[slot]] ∧ ∀ p, p ≠ q → assoc [] y.queues p = assoc [] x.queues p := by
  obtain ⟨u, hu, pushed⟩ := State.push_room (slot := [slot]) hx room
  have run : exec (.teamQueuePush t q slot) s = .next (if s.waitsAt t q then u.leaveQueue t q fun _ => none else u) := by
    show Host.Outcome.next (match s.push t q [slot] with | none => _ | some s' => _) = _
    rw [hu]
  have left : (s.updTeam t.team fun x => x.queued q (assoc [] x.queues q ++ [[slot]])).settled (if s.waitsAt t q then u.leaveQueue t q fun _ => none else u) := by
    split
    · exact State.settled_trans pushed (u.leaveQueue_settled t q _)
    · exact pushed
  have team := State.team?_updTeam_same s t.team (fun x => x.queued q (assoc [] x.queues q ++ [[slot]])) fun _ => rfl
  rw [hx, Option.map_some] at team
  obtain ⟨y, hy, e⟩ := left.team team
  have queues : y.queues = assocSet x.queues q (assoc [] x.queues q ++ [[slot]]) := Team.unthreaded_queues e
  exact ⟨_, y, run, hy, left.mem, queues ▸ assoc_assocSet_same .., fun p hp => queues ▸ assoc_assocSet_other _ _ _ hp⟩

/-- TEAM_QUEUE_POP of a queue that holds a slot. -/
theorem teamQueuePop_slot {s : State} {t : Tid} {q : Nat} {x : Team} {slot : List Word} {rest : List (List Word)} (hx : s.team? t.team = some x)
    (hq : 32 ≤ q) (held : assoc [] x.queues q = slot :: rest) :
    ∃ (u : State) (y : Team), exec (.teamQueuePop t q) s = .next u ∧ u.team? t.team = some y ∧ u.mem = s.mem ∧ assoc [] y.queues q = rest := by
  obtain ⟨y, hy, mem, e⟩ := State.lanePop_team hx (Team.popQueue_slot hq held) rfl
  refine ⟨_, y, congrArg Host.Outcome.next (if_pos hq), hy, mem, ?_⟩
  rw [Team.unthreaded_queues e]
  exact assoc_assocSet_same ..

/-- TOKEN_POP of a queue that holds a token, by a thread that takes no fault first (R274). -/
theorem tokenPop_token {s : State} {t : Tid} {q : Nat} {x : Team} {th : Thread} {p : Nat × Word} (ht : s.thread? t = some th)
    (hx : s.team? t.team = some x) (hq : q < 32) (held : x.tokens.find? (fun y => decide (y.1 = q)) = some p)
    (quiet : th.afaults = [] ∨ th.handler = true) :
    ∃ (u : State) (y : Team), exec (.tokenPop t q) s = .next u ∧ u.team? t.team = some y ∧ u.mem = s.mem ∧
      y.tokens = x.tokens.eraseP fun y => decide (y.1 = q) := by
  have calm : ∀ pc, s.deliverAsync t pc = (false, s) := fun pc =>
    quiet.elim (fun h => State.deliverAsync_none ht h pc) fun h => State.deliverAsync_handler ht h pc
  have run : exec (.tokenPop t q) s = .next (s.lanePop t q) := by
    show Host.Outcome.next (if 32 ≤ q then s else _) = _
    rw [if_neg (Nat.not_le.2 hq)]
    simp only [calm, Bool.false_eq_true, if_false]
  obtain ⟨y, hy, mem, e⟩ := State.lanePop_team hx (Team.popQueue_token hq held) rfl
  exact ⟨_, y, run, hy, mem, Team.unthreaded_tokens e⟩

/-! #### Landing and expiry (R54, R56, R61) -/

/-- A known result of an s register may land, where no other lane leads its word. -/
theorem State.landable_sreg {s : State} {t : Tid} {l : LongRes} {q : Nat} {v : Word} (ready : l.ready = true)
    (regs : l.regs = [{ file := .s, idx := q, val := v }]) (leads : s.awaitsLead t l = false) : s.landable t l = true := by
  have touch : s.landTouch t l = none := by
    unfold State.landTouch
    split
    · simp [regs]
    · rfl
  simp [State.landable, ready, leads, touch, State.landLocked, regs]

/-- The thread after its one long result has landed. -/
def Thread.drained (th : Thread) : Thread := { th with longs := [] }

/-- A thread's only long result lands: its register is written, and nothing is outstanding. -/
theorem State.landLong_only {s : State} {t : Tid} {th : Thread} {l : LongRes} {q : Nat} {v : Word} (ht : s.thread? t = some th) (only : th.longs = [l])
    (regs : l.regs = [{ file := .s, idx := q, val := v }]) (can : s.landable t l = true) :
    (s.landLong t l.id).mem = s.mem ∧ (s.landLong t l.id).thread? t = some th.drained ∧
      ∀ n : Fin 64, n.val = q → (s.landLong t l.id).regVal t (.s n) 0 = v := by
  obtain ⟨a, ha, mem, thread⟩ : ∃ a : State, s.landLong t l.id = a.putReg t .s q v ∧ a.mem = s.mem ∧ a.thread? t = some th.drained := by
    refine ⟨(s.updGroup t fun g => { g with threads := g.threads.map fun th => th.yieldTo l (decide (th.lane = t.lane)) }).updThread t
      fun th => { th with longs := th.longs.filter fun x => decide (x.id ≠ l.id) }, ?_, rfl, ?_⟩
    · simp only [State.landLong, ht, only, List.find?_cons, can, decide_true, Bool.and_self, regs, List.foldl_cons, List.foldl_nil]
    · rw [State.thread?_updThread_same _ t (fun th => { th with longs := th.longs.filter fun x => decide (x.id ≠ l.id) }) fun _ => rfl,
        State.thread?_threads s t t (fun th => th.yieldTo l (decide (th.lane = t.lane))) fun _ => rfl, ht]
      simp [Thread.yieldTo, Thread.drained, only]
  have live : (a.group? t).isSome = true := by
    obtain ⟨g, hg, -⟩ := Option.bind_eq_some_iff.1 thread
    exact Option.isSome_iff_exists.2 ⟨g, hg⟩
  rw [ha]
  refine ⟨mem, (State.thread?_updGroup_keep (fun g => { g with sregs := Mem.setW32 g.sregs (4 * q) v }) (fun _ => rfl) fun _ => rfl).trans thread,
    fun n hn => State.regVal_putReg_self a t .s q v (.s n) 0 ?_ live⟩
  simp [Reg.file?, ← hn]

/-- A thread that waits for nothing stays as it is when its last result has landed. -/
theorem State.landed_unparked {s : State} {t : Tid} {th : Thread} (ht : s.thread? t = some th) (parks : th.parks = []) (longs : th.longs = []) :
    s.landed t = s := by
  have mark : s.passMarker t = s := by
    rw [State.passMarker, State.threadIs_some ht, parks]
    rfl
  have enter : s.tryEnter t = s := by
    unfold State.tryEnter
    split
    next th' _ _ e _ _ =>
      obtain rfl := Option.some.inj (ht.symm.trans e)
      rw [parks]
      rfl
    · rfl
  simp only [State.landed, State.threadIs_some ht, longs, parks, mark, enter]
  rfl

/-- LONG_RESULT_LANDS of a thread's only result, of an s register. -/
theorem longResultLands_sreg {s : State} {t : Tid} {th : Thread} {l : LongRes} {q : Nat} {v : Word} (ht : s.thread? t = some th) (only : th.longs = [l])
    (ready : l.ready = true) (regs : l.regs = [{ file := .s, idx := q, val := v }]) (leads : s.awaitsLead t l = false) (parks : th.parks = []) :
    ∃ (u : State) (y : Thread), exec (.longResultLands t l.id) s = .next u ∧ u.thread? t = some y ∧ y.longs = [] ∧ u.mem = s.mem ∧
      ∀ n : Fin 64, n.val = q → u.regVal t (.s n) 0 = v := by
  obtain ⟨mem, thread, reads⟩ := State.landLong_only ht only regs (State.landable_sreg ready regs leads)
  refine ⟨_, _, ?_, thread, rfl, mem, reads⟩
  exact congrArg Host.Outcome.next (State.landed_unparked thread parks rfl)

/-- GAP_EXPIRY. -/
theorem gapExpiry_thread {s : State} {t : Tid} {th : Thread} (ht : s.thread? t = some th) :
    ∃ (u : State) (y : Thread), exec (.gapExpiry t) s = .next u ∧ u.thread? t = some y ∧
      y = if th.gapUntil < s.clk.acycle then { th with gapUntil := 0 } else th := by
  refine ⟨_, _, rfl, ?_, rfl⟩
  rw [State.thread?_updThread_same s t _ fun x => by split <;> rfl, ht]
  rfl

/-- What SLEEP_EXPIRY ends: a sleep whose cycle has come. -/
def sleepOver (now : Nat) : Park → Bool
  | .sleep w => decide (w ≤ now)
  | _ => false

/-- A thread's sleeps after SLEEP_EXPIRY. -/
theorem Thread.unpark_sleep (th : Thread) (now cycle w : Nat) :
    Park.sleep w ∈ (th.unpark now (sleepOver cycle)).parks ↔ Park.sleep w ∈ th.parks ∧ cycle < w := by
  rw [Thread.unpark_parks, List.mem_filter]
  simp [sleepOver]

/-- A thread that passes a marker, with no fault pending where it waits at one, keeps its sleeps. -/
theorem State.passMarker_sleeps {s : State} {t : Tid} {th : Thread} (ht : s.thread? t = some th) (quiet : Park.marker ∈ th.parks → th.afaults = []) :
    ∃ y, (s.passMarker t).thread? t = some y ∧ ∀ w, Park.sleep w ∈ y.parks ↔ Park.sleep w ∈ th.parks := by
  unfold State.passMarker
  rw [State.threadIs_some ht]
  split
  next at_ =>
    have marked : th.parks = [.marker] := of_decide_eq_true (Bool.and_eq_true_iff.1 at_).1
    have woken := State.thread?_updThread_same s t (fun th => th.unpark s.clk.acycle fun k => decide (k = .marker)) fun th => (th.unpark_keeps _ _).1
    rw [ht, Option.map_some] at woken
    have calm : (th.unpark s.clk.acycle fun k => decide (k = .marker)).afaults = [] :=
      (th.wakes_unpark _ _).afaults.trans (quiet (marked ▸ List.mem_singleton_self _))
    simp only [State.deliverAsync_none woken calm]
    refine ⟨_, woken, fun w => ?_⟩
    rw [Thread.unpark_parks, List.mem_filter]
    simp
  · exact ⟨th, ht, fun _ => Iff.rfl⟩

/-- SLEEP_EXPIRY. -/
theorem sleepExpiry_thread {s : State} {t : Tid} {th : Thread} (ht : s.thread? t = some th) (quiet : Park.marker ∈ th.parks → th.afaults = []) :
    ∃ (u : State) (y : Thread), exec (.sleepExpiry t) s = .next u ∧ u.thread? t = some y ∧
      ∀ w, Park.sleep w ∈ y.parks ↔ Park.sleep w ∈ th.parks ∧ s.clk.cycle.toNat < w := by
  have woken := State.thread?_updThread_same s t (fun th => th.unpark s.clk.acycle (sleepOver s.clk.cycle.toNat)) fun th => (th.unpark_keeps _ _).1
  rw [ht, Option.map_some] at woken
  have wakes := th.wakes_unpark s.clk.acycle (sleepOver s.clk.cycle.toNat)
  obtain ⟨y, hy, sleeps⟩ := State.passMarker_sleeps woken fun hm => wakes.afaults.trans (quiet (wakes.parks hm))
  exact ⟨_, y, rfl, hy, fun w => (sleeps w).trans (th.unpark_sleep _ _ w)⟩

/-- A wait for a word of a sector. -/
def atSector : Park → Bool
  | .sector _ => true
  | _ => false

/-- SIGW_RECHECK of a thread that waits at a sector (R245). -/
theorem sigwRecheck_thread {s : State} {t : Tid} {th : Thread} {pa : Nat} (ht : s.thread? t = some th) (waits : Park.sector pa ∈ th.parks) :
    ∃ (u : State) (y : Thread), exec (.sigwRecheck t) s = .next u ∧ u.thread? t = some y ∧ (∀ pa, Park.sector pa ∉ y.parks) ∧ t ∈ u.retries := by
  have woken := State.thread?_updThread_same s t (fun th => th.unpark s.clk.acycle atSector) fun th => (th.unpark_keeps _ _).1
  rw [ht, Option.map_some] at woken
  have waiting : (s.threadIs t fun th => th.parks.any atSector) = true := by
    rw [State.threadIs_some ht]
    exact List.any_eq_true.2 ⟨_, waits, rfl⟩
  have gone : ∀ pa, Park.sector pa ∉ (th.unpark s.clk.acycle atSector).parks := fun pa h => by
    rw [Thread.unpark_parks, List.mem_filter] at h
    exact absurd h.2 (by simp [atSector])
  refine ⟨_, _, congrArg Host.Outcome.next (if_pos waiting), ?_, gone, ?_⟩
  · dsimp only
    split <;> exact woken
  · dsimp only
    split
    next h => exact List.contains_iff_mem.1 h
    · exact List.mem_append_right _ (List.mem_singleton_self t)

/-! #### Handler entry (R355) -/

/-- Frames are free somewhere only where one is free in its place or in a segment that is missing. -/
theorem State.freeFrames_zero {s : State} {core ctx : Nat} (h : ∀ missing, s.freeFrame core ctx missing = none) : s.freeFrames core ctx = 0 := by
  rw [State.freeFrames, List.sum_eq_zero_iff_forall_eq_nat]
  intro n hn
  obtain ⟨r, hr, rfl⟩ := List.mem_map.1 hn
  have none := List.findSome?_eq_none_iff.1 (h r.saved.isSome) r hr
  rw [beq_self_eq_true, if_pos rfl] at none
  split at none
  · cases none
  next e => rw [e, List.length_nil]

/-- Where an entry touches no missing segment, a group with a frame or a free frame has one that is ready. -/
theorem State.frameReady_of {s : State} {x : Team} {g : Group} (touch : s.entryTouch x g = none)
    (frame : g.frame.isSome = true ∨ 0 < s.freeFrames x.core x.ctx) : s.frameReady x g := by
  unfold State.entryTouch at touch
  unfold State.frameReady
  split at touch
  next id _ e =>
    rw [e]
    simpa using touch
  next e =>
    rw [e] at frame ⊢
    have free := frame.resolve_left nofun
    by_contra none
    rw [Option.not_isSome_iff_eq_none] at none
    rw [none, Option.isSome_none, if_neg nofun, Option.map_eq_none_iff] at touch
    exact absurd (State.freeFrames_zero fun m => m.casesOn none touch) (Nat.ne_of_gt free)

/-- HANDLER_ENTRY in a context without a handler: the team is lost (R321, R355). -/
theorem State.tryEnter_kills {s : State} {t : Tid} {th : Thread} {x : Team} {g : Group} {cx : Ctx} {f : FaultInfo} (ht : s.thread? t = some th)
    (hx : s.team? t.team = some x) (hg : s.group? t = some g) (hcx : s.ctx? x.ctx = some cx) (hentry : cx.hentry = 0)
    (parks : th.parks = [.entry f]) (longs : th.longs = []) (touch : s.entryTouch x g = none) : s.tryEnter t = s.killTeam t.team f.code := by
  simp only [State.tryEnter, ht, hx, hg, parks, List.findSome?_cons, longs, touch, hcx, hentry, ne_eq, not_true_eq_false,
    Option.isSome_none, Bool.false_eq_true, or_self, if_false, if_true]

/-- HANDLER_ENTRY with nothing outstanding. -/
theorem handlerEntry_thread {s : State} {t : Tid} {th : Thread} {x : Team} {g : Group} {cx : Ctx} {f : FaultInfo} (ht : s.thread? t = some th)
    (hx : s.team? t.team = some x) (hg : s.group? t = some g) (hcx : s.ctx? x.ctx = some cx) (parks : th.parks = [.entry f]) (longs : th.longs = [])
    (touch : s.entryTouch x g = none) (frame : g.frame.isSome = true ∨ 0 < s.freeFrames x.core x.ctx) :
    (cx.hentry ≠ 0 → ∃ u : State, exec (.handlerEntry t) s = .next u ∧ EntersHandler s t th cx.hentry f u) ∧
      (cx.hentry = 0 → ∃ (u : State) (y : Team), exec (.handlerEntry t) s = .next u ∧ u.team? t.team = some y ∧ y.killed = true ∧ y.allThreads = []) := by
  refine ⟨fun hentry => ⟨_, rfl, State.tryEnter_enters ht hx hg hcx hentry parks longs (State.frameReady_of touch frame)⟩, fun hentry => ?_⟩
  obtain ⟨y, hy, killed, none⟩ := State.killTeam_lost hx f.code
  exact ⟨_, y, congrArg Host.Outcome.next (State.tryEnter_kills ht hx hg hcx hentry parks longs touch), hy, killed, none⟩

/-- A queue that a launch declares has room where it holds fewer slots than it is deep. -/
theorem Team.hasRoom_of {x : Team} {d : KDesc} {q : Nat} {e : QDecl} (he : d.queue? q = some e) (room : x.queueLen q < 2 ^ e.ldepth) :
    x.hasRoom d q = true := by
  rw [Team.hasRoom, he]
  exact decide_eq_true room

end Sys2Proof.Machine

namespace Sys2Proof

open Machine

/-- Settles O53, row by row: a queue act changes a team's queue or tokens and wakes threads, and what lands, expires or is tried again changes its one thread. -/
theorem threadEvents : Obligations.ThreadEvents := by
  intro s t q id slot th tm g cx ht htm hg
  refine ⟨fun d hd _ room => teamQueuePush_room htm (Team.hasRoom_of hd room), fun x xs hq held => teamQueuePop_slot htm hq held,
    fun x hq held quiet => tokenPop_token ht htm hq held quiet, ?_, gapExpiry_thread ht, sleepExpiry_thread ht, fun pa waits => sigwRecheck_thread ht waits,
    fun f parks longs hcx touch frame => handlerEntry_thread ht htm hg hcx parks longs touch frame⟩
  rintro v x only rfl ready regs leads - parks
  exact longResultLands_sreg ht only ready regs leads parks

end Sys2Proof

namespace Sys2Proof.Machine

-- One theorem after another, for the memory that a check has.
set_option Elab.async false

/-! ### Words that name queues -/

/-! #### One lane of a word that names a queue -/

/-- What a lane reads of its operands are no queues, and nothing is outstanding for it. -/
def State.readsAt (s : State) (t : Tid) (ops : List Opd) : Prop :=
  ∀ o ∈ ops, ¬(o.use = .wr ∨ o.use = .name) → s.plainAt t [o]

/-- An operand that is written or named alone is not read. -/
theorem State.readOps_skip {s : State} {t : Tid} {o : Opd} {os : List Opd} {had taken : List Word} (hu : o.use = .wr ∨ o.use = .name) :
    s.readOps t (o :: os) had taken = (((s.readOps t os had taken).1.1.map fun vs => [] :: vs, (s.readOps t os had taken).1.2), (s.readOps t os had taken).2) := by
  simp only [State.readOps, if_pos hu]

theorem State.readOps_reads (s : State) (t : Tid) (ops : List Opd) (h : s.readsAt t ops) :
    s.readOps t ops [] [] = ((some (s.opdVals t ops), [], 0), s) := by
  induction ops with
  | nil => rfl
  | cons o os ih =>
    have ih := ih fun x hx => h x (List.mem_cons_of_mem _ hx)
    by_cases hu : o.use = .wr ∨ o.use = .name
    · simp only [State.readOps_skip hu, ih, Option.map_some, State.opdVals, List.map_cons, if_pos hu]
    · obtain ⟨noQ, quiet⟩ := h o (List.mem_cons_self ..) hu o (List.mem_singleton_self o)
      have read := State.readRegs_quiet s t o.reg o.n 0 fun k _ hk => quiet hu k (by omega)
      simp only [Nat.zero_add] at read
      unfold State.readOps
      rw [if_neg hu]
      split
      next i e => exact absurd e (noQ i)
      · simp only [read, ih, Option.map_some, State.opdVals, List.map_cons, if_neg hu]

/-- The one active lane of a clear word. -/
structure Lane (s : State) (c : Cur) (h : Hdr) (k : Checks) (t : Tid) : Prop where
  clear : s.clear c h k = true
  only : s.actives c h = [t]

section
variable {s : State} {c : Cur} {h : Hdr} {k : Checks} {t : Tid} {f : Tid → List (List Word) → State → State × Option Park}

theorem Lane.cur (l : Lane s c h k t) : s.cur = some c := ((State.clear_iff s c h k).1 l.clear).1

theorem Lane.mem (l : Lane s c h k t) : t ∈ s.actives c h := l.only ▸ List.mem_singleton_self t

theorem Lane.live (l : Lane s c h k t) : ((s.entered c h k.ops).thread? t).isNone ≠ true := by
  have live := State.clear_thread l.clear l.mem
  rw [Option.isSome_iff_ne_none] at live
  simpa using live

/-- A lane of a word at its issue has popped nothing yet. -/
theorem Lane.had (l : Lane s c h k t) : (s.entered c h k.ops).had t = [] := by
  obtain ⟨-, -, popped, -⟩ := (State.clear_iff s c h k).1 l.clear
  simp only [State.had, s.entered_cur c h k.ops, State.curIn, Cur.withSet, Cur.had, popped]
  rfl

/-- A lane-by-lane word whose turn has come acts in its lane. -/
theorem Lane.acts (l : Lane s c h k t) {hold : State → List Tid → Bool} {point : Bool} (go : hold (s.entered c h k.ops) [t] = false)
    (turn : (point || k.ops.any Opd.popsToken) = true → (s.entered c h k.ops).accessWaits {} [t] = false ∧
      (s.entered c h k.ops).deliverAsync t c.pc = (false, s.entered c h k.ops))
    (push : k.ops.any Opd.pushes = true → (s.entered c h k.ops).accessWaits { releases := true } [t] = false) :
    s.byLane h k f hold point = ((s.entered c h k.ops).eachLane k.ops f [t]).wordEnd h c := by
  obtain ⟨-, -, popped, -⟩ := (State.clear_iff s c h k).1 l.clear
  have waits : (s.entered c h k.ops).queueWaits (point || k.ops.any Opd.popsToken) k.ops [t] = false := by
    unfold State.queueWaits
    cases hp : (point || k.ops.any Opd.popsToken) <;> cases hq : k.ops.any Opd.pushes <;> simp_all
  have lanes : (s.entered c h k.ops).deliverIf (point || k.ops.any Opd.popsToken) [t] = ([t], s.entered c h k.ops) := by
    cases hp : (point || k.ops.any Opd.popsToken) with
    | false => exact State.deliverIf_false _ _
    | true => exact State.deliverIf_quiet popped (turn hp).2
  rw [State.byLane, State.word_clear l.clear _ (false || k.ops.any Opd.isQ), l.only]
  simp only [go, Bool.false_and, waits, Bool.or_self, Bool.false_eq_true, if_false, lanes]

/-- A word that pushes while an access that the push releases waits is held at issue (R215, R261). -/
theorem Lane.held (l : Lane s c h k t) (push : k.ops.any Opd.pushes = true) (waits : (s.entered c h k.ops).accessWaits { releases := true } [t] = true) :
    s.byLane h k f = s.holdWord (s.curIn c h) := by
  obtain ⟨-, retry, -⟩ := (State.clear_iff s c h k).1 l.clear
  have retrying : (s.entered c h k.ops).retrying = false := by
    rw [State.retrying, s.entered_cur c h k.ops]
    exact retry
  rw [State.byLane, State.word_clear l.clear _ (false || k.ops.any Opd.isQ), l.only]
  simp only [State.queueWaits, push, waits, retrying, Bool.false_and, Bool.and_self, Bool.or_true, Bool.not_false, Bool.false_or, if_true]

/-- A lane that reads its operands does what its word does with them. -/
theorem Lane.each (l : Lane s c h k t) {vals : List (List Word)} {taken : List Word} {n : Nat} {a u : State} {park : Option Park}
    (read : (s.entered c h k.ops).readOps t k.ops [] [] = ((some vals, taken, n), a)) (does : f t vals a = (u, park)) :
    (s.entered c h k.ops).eachLane k.ops f [t] = park.elim u fun why => u.parkLane t why taken := by
  simp only [State.eachLane, if_neg l.live, l.had, read, does]
  cases park with
  | none => rfl
  | some why => simp only [List.foldl_nil, ite_self, Option.elim_some]

/-- A lane whose queue is empty parks there with what it has popped. -/
theorem Lane.parks (l : Lane s c h k t) {taken : List Word} {q : Nat} {a : State}
    (read : (s.entered c h k.ops).readOps t k.ops [] [] = ((none, taken, q), a)) :
    (s.entered c h k.ops).eachLane k.ops f [t] = a.parkLane t (.queue q) taken := by
  simp only [State.eachLane, if_neg l.live, l.had, read, List.foldl_nil]

end

/-! #### Queue sources and destinations (R23, R56, R259, R261) -/

section
variable {o : Opd} (noQ : ∀ i, o.reg ≠ .q i)
include noQ

theorem Opd.isQ_false : o.isQ = false := by
  unfold Opd.isQ
  split
  next i e => exact absurd e (noQ i)
  · rfl

theorem Opd.pushes_false : o.pushes = false := by rw [Opd.pushes, Opd.isQ_false noQ, Bool.false_and]

theorem Opd.popsToken_false : o.popsToken = false := by
  unfold Opd.popsToken
  split
  next i e => exact absurd e (noQ i)
  · rfl

end

theorem poppingWords : PoppingWords := by
  intro s s' c h t long d srcs f taken hc hact pops noToken noQ noPush
  have lane : Lane s c h { ops := d :: srcs } t := ⟨hc, hact⟩
  have acts := lane.acts (f := fun t vals s => s.result t (long || srcs.any Opd.pops) d.reg (f vals)) (hold := fun _ _ => false) (point := false) rfl
    (fun e => by rw [Bool.false_or, noToken] at e; cases e) (fun e => by rw [List.any_cons, Opd.pushes_false noQ, noPush] at e; cases e)
  refine ⟨fun vals read => ?_, fun q read => ?_⟩
  · refine acts.trans (congrArg (fun u : State => u.wordEnd h c) (lane.each (park := none) read ?_))
    rw [pops, Bool.or_true]
    exact State.result_long noQ _
  · exact acts.trans (congrArg (fun u : State => u.wordEnd h c) (lane.parks read))

/-- The one word of a value of one word. -/
theorem wordsN_opdNat (vals : List (List Word)) (i : Nat) : wordsN 1 (opdNat vals i) = [val1 vals i] := by
  have low : (pairNat (val1 vals i) ((vals.getD i []).getD 1 0)) % 2 ^ 32 = (val1 vals i).toNat := by
    have := (val1 vals i).isLt
    unfold pairNat
    omega
  show [BitVec.ofNat 32 (pairNat (val1 vals i) _)] = _
  refine congrArg (· :: []) (BitVec.eq_of_toNat_eq ?_)
  rw [BitVec.toNat_ofNat, low]

/-- MOV of one register. -/
theorem exec_mov_one {h : Hdr} {o : I2} (one : o.ty.regs = 1) (s : State) :
    exec (.mov h o) s = .next (s.compute h false (Opd.dst o.d 1) [Opd.src o.a 1] fun vals => [val1 vals 1]) := by
  show Host.Outcome.next (s.int2 h o o.ty.regs fun a => a) = _
  simp only [State.int2, one, wordsN_opdNat]

theorem pushingWords : PushingWords := by
  intro h o s c t q ops e hd one hc hact hp
  have lane : Lane s c h { ops := ops } t := ⟨hc, hact⟩
  have pushes : ops.any Opd.pushes = true := rfl
  have plain : e.plainAt t [Opd.src o.a 1] := State.plainAt_quieter (State.plain_at hp (List.mem_singleton_self t)) (State.entered_quieter lane.cur h ops t)
  have reads : e.readsAt t ops := fun x hx => by
    obtain rfl | hx := List.mem_cons.1 hx
    · exact fun hu => absurd (.inl rfl) hu
    · exact fun _ => List.mem_singleton.1 hx ▸ plain
  have noQ : ∀ i, o.a ≠ .q i := fun i => (plain _ (List.mem_singleton_self _)).1 i
  have token : ops.any Opd.popsToken = false := by
    rw [List.any_cons, List.any_cons, List.any_nil, Bool.or_false, Opd.popsToken_false (o := Opd.src o.a 1) noQ]
    rfl
  have read := (State.readOps_reads e t ops reads).trans (by rw [State.entered_opdVals lane.cur])
  rw [exec_mov_one one, hd]
  refine congrArg Host.Outcome.next ?_
  unfold State.compute
  split
  next waits => exact lane.held pushes waits
  next free =>
    refine (lane.acts rfl (fun e => by rw [Bool.false_or, token] at e; cases e) fun _ => Bool.eq_false_iff.2 free).trans
      (congrArg (fun u : State => u.wordEnd h c) ?_)
    have value : val1 (s.opdVals t ops) 1 = s.regVal t o.a 0 := rfl
    cases pushed : e.push t q.val [s.regVal t o.a 0] with
    | some u => exact lane.each (park := none) read (by simp only [State.result, Opd.dst, value]; rw [pushed])
    | none => exact lane.each (park := some (.queue q.val)) read (by simp only [State.result, Opd.dst, value]; rw [pushed])

/-- A lane's slot comes off its queue before its word's long result: what stands then. -/
theorem State.addLong_settles {s u : State} {t : Tid} (h : s.settled u) (regs : List LReg) (d : Reg) :
    (u.addLong t true regs d.isS).2.mem = s.mem ∧
      longsGain (s.thread? t) ((u.addLong t true regs d.isS).2.thread? t) regs (if d.isS then s.issueNo else none) ∧
      (u.addLong t true regs d.isS).2.teams.map Team.unthreaded = s.teams.map Team.unthreaded := by
  have long := u.onlyThread_addLong t true regs d.isS
  have issue : u.issueNo = s.issueNo := by rw [State.issueNo, h.records.cur]; rfl
  refine ⟨(State.sameBeyond_mem long.same).trans h.mem, ⟨u.nextId, ?_⟩, long.teams.trans h.records.teams⟩
  have same := h.records.longs t
  rw [long.thread, issue]
  cases hu : u.thread? t with
  | none => rw [hu] at same; cases hs : s.thread? t with
    | none => rfl
    | some th => rw [hs] at same; cases same
  | some y => rw [hu] at same; cases hs : s.thread? t with
    | none => rw [hs] at same; cases same
    | some th =>
      rw [hs] at same
      exact congrArg (fun l => some (l ++ _)) (Option.some.inj same)

/-- A team that gives way to one with its groups: every thread stands. -/
theorem State.thread?_updTeam_const {s : State} {t : Tid} {x y : Team} (hx : s.team? t.team = some x) (hy : y.key = x.key) (groups : y.groups = x.groups) :
    (s.updTeam t.team fun _ => y).thread? t = s.thread? t := by
  simp only [State.thread?, State.group?, State.team?_updTeam_const hx hy, hx, Option.bind_some, Team.group?, groups]

theorem poppingCompletes : PoppingCompletes := by
  intro h o s c t q tm w rest ops ha hq noQ one hc hact htm held
  have lane : Lane s c h { ops := ops } t := ⟨hc, hact⟩
  obtain ⟨te, hte, same, -, -⟩ := State.entered_team_unthreaded htm c h ops
  obtain ⟨a, popped, settled, -⟩ := State.pop_slot hte (Team.popQueue_slot hq (by rw [Team.unthreaded_queues same]; exact held))
  have read : (s.entered c h ops).readOps t ops [] [] = ((some [[], [w]], [w], 0), a) := by
    have one : (s.entered c h ops).readOps t [Opd.src o.a 1] [] [] = ((some [[w]], [w], 0), a) := by
      rw [ha]
      simp only [State.readOps, Opd.src, reduceCtorEq, or_self, if_false, popped]
      rfl
    rw [State.readOps_skip (.inl rfl), one]
    rfl
  have pops : [Opd.src o.a 1].any Opd.pops = true := by rw [ha]; rfl
  have token : (Opd.dst o.d 1 :: [Opd.src o.a 1]).any Opd.popsToken = false := by
    rw [List.any_cons, List.any_cons, List.any_nil, Bool.or_false, Opd.popsToken_false (o := Opd.dst o.d 1) noQ, Bool.false_or]
    simpa [Opd.popsToken, Opd.src, ha] using hq
  have run := (poppingWords s a c h t false (Opd.dst o.d 1) [Opd.src o.a 1] (fun vals => [val1 vals 1]) [w] hc hact pops token noQ
    (by rw [ha]; rfl)).1 [[], [w]] read
  have lead : a.leads t = true := by
    rw [State.leads, settled.records.cur]
    exact State.entered_leads hact ops
  have entered := State.sameBeyond_mem (s.entered_same c h ops)
  obtain ⟨mem, gain, teams⟩ := State.addLong_settles (t := t) settled (destRegs true o.d 0 [w]) o.d
  rw [lead] at run
  refine ⟨_, (exec_mov_one one s).trans (congrArg _ run), mem.trans entered, ?_, ?_⟩
  · obtain ⟨id, e⟩ := gain
    refine ⟨id, e.trans ?_⟩
    have thread := (State.thread?_updTeam_const (y := te.queued q.val rest) hte rfl rfl).trans (State.entered_issued s c h ops t)
    rw [thread]
    have shares := s.entered_shares c h ops o.d
    rw [← shares]
    rfl
  · obtain ⟨y, hy, e⟩ := Option.map_eq_some_iff.1 ((State.unthreaded_team teams t.team).trans (congrArg _ (State.team?_updTeam_const (y := te.queued q.val rest) hte rfl)))
    refine (congrArg (Option.map fun y => assoc [] y.queues q.val) hy).trans ?_
    rw [Option.map_some, Team.unthreaded_queues e]
    exact congrArg some (assoc_assocSet_same ..)

end Sys2Proof.Machine

namespace Sys2Proof

open Machine

/-- Settles O21: the one active lane reads its operands, popping where a source is a queue, and what it read decides between its result and its park. -/
theorem queueOperands : Obligations.QueueOperands := ⟨poppingWords, poppingCompletes, pushingWords⟩

end Sys2Proof

namespace Sys2Proof.Machine

-- One theorem after another, for the memory that a check has.
set_option Elab.async false

/-! ### QSUB, QPOP, QSTAT and QWAIT -/

/-! #### Packets (R259 to R265) -/

/-- A packet of the right size on a team queue that has room is pushed as a slot. -/
theorem State.pushPacket_slot {s z : State} {t : Tid} {recips : List Tid} {q : Nat} {ws : List Word} {x : Team} {d : QDecl} (hq : 32 ≤ q)
    (hx : s.team? t.team = some x) (hd : (s.descOf x).queue? q = some d) (size : 2 ^ d.lslot = 4 * ws.length) (room : s.push t q ws = some z) :
    s.pushPacket t recips q none ws = (z, none) := by
  have fabric : ¬(q = 10 ∨ q = 12 ∨ q = 14) := by omega
  simp only [State.pushPacket, fabric, decide_false, Bool.and_false, Bool.false_eq_true, if_false, if_pos hq, hx, hd, size, ne_eq, not_true_eq_false,
    Option.isSome_none, or_self, room]

theorem State.takeSeq_mem (s : State) (team : Nat) (e : Engine) : (s.takeSeq team e).2.mem = s.mem := by
  unfold State.takeSeq
  split <;> rfl

/-- A command enters as it is but for what its entry gives it; memory stands. -/
theorem State.submit_enters (s : State) (c : Cmd) (numbered : Bool) (ranges : List Rng) (lines : List Nat) :
    (s.submit c numbered ranges lines).2.mem = s.mem ∧
      ∃ id seq held away, { c with id := id, age := id, seq := seq, lines := lines, fillHeld := held, awaits := away } ∈
        (s.submit c numbered ranges lines).2.cmds := by
  obtain ⟨r, same, mem⟩ : ∃ r : Option Nat × State, r = (if numbered then
      (some (s.fresh.2.takeSeq c.team c.eng).1, (s.fresh.2.takeSeq c.team c.eng).2) else (none, s.fresh.2)) ∧ r.2.mem = s.mem := by
    refine ⟨_, rfl, ?_⟩
    split
    · exact s.fresh.2.takeSeq_mem c.team c.eng
    · rfl
  have clears : ∀ (b : Bool) (u : State), (if b then u.updTeam c.team fun t => t.clearLines lines else u).mem = u.mem ∧
      (if b then u.updTeam c.team fun t => t.clearLines lines else u).cmds = u.cmds := fun b u => by cases b <;> exact ⟨rfl, rfl⟩
  simp only [State.submit, ← same]
  refine ⟨(clears _ _).1.trans mem, s.fresh.1, r.1, ?_⟩
  rw [(clears _ _).2]
  exact ⟨_, _, List.mem_append_right _ (List.mem_singleton_self _)⟩

/-- A packet that the engine behind a command queue accepts, where its queue and the lock table have room, enters as a command. -/
theorem State.pushPacket_cmd {s : State} {c : Cur} {t : Tid} {recips : List Tid} {q : Nat} {grd : Option (BitVec 4)} {ws : List Word} {x : Team}
    (hq : q < 32) (hc : s.cur = some c) (hx : s.team? t.team = some x) (single : s.twinTid t = false) (ok : (s.rule x q ws).1.reject = none)
    (room : s.queueFull (s.rule x q ws).1.eng = false) (locks : s.lockRoom x.core (s.rule x q ws).1.locks.length = true) :
    ∃ (u : State) (k : Cmd), s.pushPacket t recips q grd ws = (u, none) ∧ k ∈ u.cmds ∧ k.words = ws ∧ k.team = x.key ∧ k.pc = c.pc ∧
      k.eng = (s.rule x q ws).1.eng ∧ k.tag = wAt ws 0 / 65536 ∧ k.recips = recips ∧ k.stage = .queued ∧ u.mem = (s.rule x q ws).2.mem := by
  have entry := (s.rule x q ws).2.submit_enters
  obtain ⟨u, k, mem, hu, words, team, pc, eng, tag, rs, stage, hk⟩ : ∃ (u : State) (k : Cmd), u.mem = (s.rule x q ws).2.mem ∧
      s.pushPacket t recips q grd ws = (u, none) ∧ k.words = ws ∧ k.team = x.key ∧ k.pc = c.pc ∧ k.eng = (s.rule x q ws).1.eng ∧
      k.tag = wAt ws 0 / 65536 ∧ k.recips = recips ∧ k.stage = .queued ∧ k ∈ u.cmds := by
    simp only [State.pushPacket, single, Bool.false_and, Bool.false_eq_true, if_false, if_neg (Nat.not_le.2 hq), State.pushCmd, hc, hx, room, ok, locks,
      Bool.not_true, Bool.and_false, State.acceptCmd]
    obtain ⟨mem, id, seq, held, away, hk⟩ := entry _ _ _ _
    exact ⟨_, _, mem, rfl, rfl, rfl, rfl, rfl, rfl, rfl, rfl, hk⟩
  exact ⟨u, k, hu, hk, words, team, pc, eng, tag, rs, stage, mem⟩

theorem State.entered_descOf (s : State) (c : Cur) (h : Hdr) (ops : List Opd) (tm : Team) : (s.entered c h ops).descOf tm = s.descOf tm := by
  rw [State.descOf, State.launchOf, State.launch?, State.sameBeyond_launches (s.entered_same c h ops)]
  rfl

/-- The packet's registers. -/
def qsubPacket (o : QsubF) : Opd := { reg := o.a, n := o.cnt.toNat + 1, s := true }

/-- QSUB's checks: it names a queue that is no token queue. -/
def qsubChecks (o : QsubF) : Checks where
  ops := [{ reg := o.d, use := .name, v := false, h := false, q := true }, qsubPacket o]
  illReg := fun _ _ => match o.d with | .q i => decide (queueKind i.val = 1) | _ => true

/-- QSUB where its packet is taken: from an s register once for its lanes, else by the one lane. -/
theorem qsub_pushes {h : Hdr} {o : QsubF} {s z : State} {c : Cur} {t : Tid} (hc : s.clear c h (qsubChecks o) = true)
    (lead : o.a.isS = true ∧ (s.actives c h).head? = some t ∨ s.actives c h = [t]) (hp : s.plain [t] [qsubPacket o] = true)
    (go : (s.entered c h (qsubChecks o).ops).accessWaits (pushOrd o.d.queueNum) (s.actives c h) = false)
    (pushed : (s.entered c h (qsubChecks o).ops).pushPacket t (s.actives c h) o.d.queueNum o.grd ((s.opdVals t (qsubChecks o).ops).getD 1 []) = (z, none)) :
    exec (.qsub h o) s = .next (z.wordEnd h c) := by
  have hcur := ((State.clear_iff s c h _).1 hc).1
  show Host.Outcome.next (s.word h (qsubChecks o) _) = _
  rw [State.word_clear hc]
  simp only [go, Bool.false_and, Bool.false_eq_true, if_false]
  refine congrArg (fun u : State => Host.Outcome.next (u.wordEnd h c)) ?_
  obtain ⟨acts, ha⟩ : ∃ acts, s.actives c h = t :: acts := by
    rcases lead with ⟨-, e⟩ | e
    · obtain ⟨acts, ha⟩ := List.head?_eq_some_iff.1 e
      exact ⟨acts, ha⟩
    · exact ⟨[], e⟩
  have plain := State.plainAt_quieter (State.plain_at hp (List.mem_singleton_self t)) (State.entered_quieter hcur h (qsubChecks o).ops t)
  split
  next isS =>
    have read := State.readRegs_quiet (s.entered c h (qsubChecks o).ops) t o.a (o.cnt.toNat + 1) 0 fun j _ hj =>
      (plain _ (List.mem_singleton_self _)).2 (fun hu => hu.elim nofun nofun) j (by simpa [qsubPacket] using hj)
    simp only [Nat.zero_add, State.entered_regVal hcur] at read
    rw [ha] at pushed ⊢
    have value : (s.opdVals t (qsubChecks o).ops).getD 1 [] = (List.range (o.cnt.toNat + 1)).map fun j => s.regVal t o.a j := rfl
    rw [value] at pushed
    simp only [State.qsubOnce, read, pushed]
  next notS =>
    have only : s.actives c h = [t] := lead.resolve_left fun e => notS e.1
    rw [only] at pushed ⊢
    refine Lane.each (k := (qsubChecks o)) (park := none) ⟨hc, only⟩ (State.readOps_reads _ t _ fun x hx hu => ?_) ?_
    · obtain rfl | hx := List.mem_cons.1 hx
      · exact absurd (.inr rfl) hu
      · exact List.mem_singleton.1 hx ▸ plain
    · rw [State.entered_opdVals hcur]
      exact pushed

/-! #### QPOP, QWAIT (R269) -/

/-- A destination that may be no queue is none. -/
theorem Lane.noQueue {s : State} {c : Cur} {h : Hdr} {k : Checks} {t : Tid} (l : Lane s c h k t) {o : Opd} (ho : o ∈ k.ops) (hq : o.q = false) (i : Fin 64) :
    o.reg ≠ .q i := fun e => by
  obtain ⟨th, tm, g, -, -, -, legal, -⟩ := State.clear_opd l.clear l.mem ho
  simp [Opd.illegal, e, hq] at legal

theorem Opd.popsToken_queue (r : Reg) : (Opd.queue r).popsToken = false := by
  unfold Opd.popsToken
  split <;> rfl

theorem Opd.pushes_queue (r : Reg) : (Opd.queue r).pushes = false := Bool.and_false _

/-- A word that names the queue it acts on acts there when its turn has come. -/
theorem Lane.names {s u : State} {c : Cur} {h : Hdr} {k : Checks} {t : Tid} {f : Tid → List (List Word) → State → State × Option Park} {point : Bool}
    {park : Option Park} (l : Lane s c h k t) {d : Opd} {r : Reg} {srcs : List Opd} (ops : k.ops = d :: Opd.queue r :: srcs) (noD : ∀ i, d.reg ≠ .q i)
    (noS : ∀ o ∈ srcs, ∀ i, o.reg ≠ .q i) (reads : (s.entered c h k.ops).readsAt t k.ops)
    (turn : point = true → (s.entered c h k.ops).accessWaits {} [t] = false ∧
      (s.entered c h k.ops).deliverAsync t c.pc = (false, s.entered c h k.ops))
    (does : f t (s.opdVals t k.ops) (s.entered c h k.ops) = (u, park)) :
    s.byLane h k f (fun _ _ => false) point = (park.elim u fun why => u.parkLane t why).wordEnd h c := by
  have token : k.ops.any Opd.popsToken = false := by
    rw [ops, List.any_cons, List.any_cons, Opd.popsToken_false noD, Opd.popsToken_queue, Bool.false_or, Bool.false_or]
    exact List.any_eq_false.2 fun o ho => Bool.eq_false_iff.1 (Opd.popsToken_false (noS o ho))
  have push : k.ops.any Opd.pushes = false := by
    rw [ops, List.any_cons, List.any_cons, Opd.pushes_false noD, Opd.pushes_queue, Bool.false_or, Bool.false_or]
    exact List.any_eq_false.2 fun o ho => Bool.eq_false_iff.1 (Opd.pushes_false (noS o ho))
  refine (l.acts rfl (fun e => turn (by rwa [token, Bool.or_false] at e)) fun e => by rw [push] at e; cases e).trans
    (congrArg (fun v : State => v.wordEnd h c) (l.each (State.readOps_reads _ t _ reads) ?_))
  rw [State.entered_opdVals l.cur]
  exact does

/-- A pop leaves the issue set as it is. -/
theorem State.pop_cur {s z : State} {t : Tid} {q : Nat} {slot : List Word} (popped : s.pop t q = some (slot, z)) : z.cur = s.cur := by
  cases hx : s.team? t.team with
  | none => rw [State.pop, hx] at popped; cases popped
  | some x =>
    cases hy : x.popQueue q with
    | none => simp only [State.pop, hx, hy] at popped; cases popped
    | some r =>
      obtain ⟨u, hu, settled, -⟩ := State.pop_slot hx hy
      obtain ⟨-, rfl⟩ := Prod.ext_iff.1 (Option.some.inj (hu.symm.trans popped))
      exact settled.records.cur

/-- QPOP's destination. -/
def State.qpopDest (s : State) (p : R2) : Opd := { reg := p.d, n := s.slotWords p.a, use := .wr, s := decide (s.slotWords p.a = 1) }

/-- QPOP's checks. -/
def State.qpopChecks (s : State) (p : R2) : Checks where
  ops := [s.qpopDest p, Opd.queue p.a]
  illReg := fun _ _ => !queueOf [1, 2] p.a

/-- What QPOP does in a lane. -/
def qpopLane (p : R2) (t : Tid) (_ : List (List Word)) (s : State) : State × Option Park :=
  if !(s.had t).isEmpty then s.result t true p.d (s.had t)
  else match s.pop t p.a.queueNum with
    | some (slot, s) => s.result t true p.d slot
    | none => (s, some (.queue p.a.queueNum))

theorem exec_qpop (h : Hdr) (p : R2) (s : State) :
    exec (.qpop h p) s = .next (s.byLane h (s.qpopChecks p) (qpopLane p) (fun _ _ => false) (decide (p.a.queueNum < 32))) := rfl

/-- QPOP of one lane: its queue's oldest slot as a long result, or a park. -/
theorem qpopWord {h : Hdr} {p : R2} {s : State} {c : Cur} {t : Tid} (l : Lane s c h (s.qpopChecks p) t)
    (turn : p.a.queueNum < 32 → (s.entered c h (s.qpopChecks p).ops).accessWaits {} [t] = false ∧
      (s.entered c h (s.qpopChecks p).ops).deliverAsync t c.pc = (false, s.entered c h (s.qpopChecks p).ops)) :
    (∀ slot z, (s.entered c h (s.qpopChecks p).ops).pop t p.a.queueNum = some (slot, z) →
      exec (.qpop h p) s = .next (((z.addLong t true (destRegs true p.d 0 slot) p.d.isS).2).wordEnd h c)) ∧
    ((s.entered c h (s.qpopChecks p).ops).pop t p.a.queueNum = none →
      exec (.qpop h p) s = .next (((s.entered c h (s.qpopChecks p).ops).parkLane t (.queue p.a.queueNum)).wordEnd h c)) := by
  have noD : ∀ i, p.d ≠ .q i := l.noQueue (o := s.qpopDest p) (List.mem_cons_self ..) rfl
  have reads : (s.entered c h (s.qpopChecks p).ops).readsAt t (s.qpopChecks p).ops := fun x hx hu => by
    obtain rfl | rfl := List.mem_pair.1 hx
    · exact absurd (.inl rfl) hu
    · exact absurd (.inr rfl) hu
  have word := fun {u park} => l.names (u := u) (park := park) (f := qpopLane p) (d := s.qpopDest p) (r := p.a) (srcs := []) rfl noD (fun _ e => absurd e List.not_mem_nil) reads
    fun e => turn (of_decide_eq_true e)
  rw [exec_qpop]
  refine ⟨fun slot z popped => congrArg Host.Outcome.next (word (park := none) ?_),
    fun empty => congrArg Host.Outcome.next (word (park := some (.queue p.a.queueNum)) ?_)⟩
  · have lead : z.leads t = true := by
      rw [State.leads, State.pop_cur popped]
      exact State.entered_leads l.only _
    simp only [qpopLane, l.had, popped, List.isEmpty_nil, Bool.not_true, Bool.false_eq_true, if_false]
    rw [State.result_long noD, lead]
  · simp only [qpopLane, l.had, empty, List.isEmpty_nil, Bool.not_true, Bool.false_eq_true, if_false]

/-- Entering a word touches no thread's faults. -/
theorem State.entered_faultHeld (s : State) (c : Cur) (h : Hdr) (ops : List Opd) (k : Cmd) : (s.entered c h ops).faultHeld k = s.faultHeld k := by
  have same : ∀ t, ((s.entered c h ops).threadIs t fun th => th.afaults.any fun f => decide (f.age = k.age)) =
      s.threadIs t fun th => th.afaults.any fun f => decide (f.age = k.age) := fun t => by
    simp only [State.threadIs, State.entered_issued, State.issuedThread]
    by_cases ht : t ∈ c.lanes
    · rw [if_pos ht]
      cases s.thread? t <;> rfl
    · rw [if_neg ht]
  simp only [State.faultHeld, same]

theorem State.entered_cmdOpen (s : State) (c : Cur) (h : Hdr) (ops : List Opd) (k : Cmd) : (s.entered c h ops).cmdOpen k = s.cmdOpen k := by
  rw [State.cmdOpen, State.entered_faultHeld, State.cmdOpen]

/-- The team's commands behind a command queue, those that RROT starts excepted. -/
def State.behindQueue (s : State) (team q : Nat) : List Cmd :=
  s.cmds.filter fun k => decide (k.team = team ∧ k.tokenQueue = q + 1) && (match k.eng with | .rrot _ => false | _ => true) && s.cmdOpen k

/-- QSTAT of a command queue. -/
theorem State.qstat_cmds {s : State} {t : Tid} {x : Team} (hx : s.team? t.team = some x) {q : Nat} (kind : queueKind q = 0) :
    s.qstat t q = (s.behindQueue t.team q).length % 65536 + 65536 * queueCapacity q := by
  simp only [State.qstat, hx, if_pos kind, List.filter_filter]
  refine congrArg (fun l : List Cmd => l.length % 65536 + _) (List.filter_congr fun k _ => ?_)
  exact Bool.and_comm _ _

/-- The slots that QSTAT says a token queue or team queue has. -/
def KDesc.capacity (d : KDesc) (q : Nat) : Nat := match d.queue? q with | some d => 2 ^ d.ldepth | none => 32

/-- QSTAT of a token queue or team queue. -/
theorem State.qstat_team {s : State} {t : Tid} {x : Team} (hx : s.team? t.team = some x) {q : Nat} (kind : queueKind q ≠ 0) :
    s.qstat t q = x.queueLen q + 65536 * (s.descOf x).capacity q := by
  simp only [State.qstat, hx, if_neg kind]
  rfl

/-- QSTAT's checks. -/
def qstatChecks (p : R2) : Checks where
  ops := [Opd.dvs p.d, Opd.queue p.a]
  illReg := fun _ _ => !queueOf [0, 1, 2] p.a

theorem exec_qstat (h : Hdr) (p : R2) (s : State) : exec (.qstat h p) s =
    .next (s.byLane h (qstatChecks p) fun t _ s => s.result t false p.d [BitVec.ofNat 32 (s.qstat t p.a.queueNum)]) := rfl

/-- QSTAT of one lane: its value, written at once. -/
theorem qstatWord {h : Hdr} {p : R2} {s : State} {c : Cur} {t : Tid} (l : Lane s c h (qstatChecks p) t) :
    ∃ u : State, exec (.qstat h p) s = .next (u.wordEnd h c) ∧ u.mem = s.mem ∧
      u.regVal t p.d 0 = BitVec.ofNat 32 ((s.entered c h (qstatChecks p).ops).qstat t p.a.queueNum) := by
  have noD : ∀ i, p.d ≠ .q i := l.noQueue (o := Opd.dvs p.d) (List.mem_cons_self ..) rfl
  have dest : (s.entered c h (qstatChecks p).ops).destOk t p.d 1 :=
    State.clear_dest (o := Opd.dvs p.d) l.clear l.mem (List.mem_cons_self ..) (.inl rfl) noD (Nat.le_refl 1)
  have reads : (s.entered c h (qstatChecks p).ops).readsAt t (qstatChecks p).ops := fun x hx hu => by
    obtain rfl | rfl := List.mem_pair.1 hx
    · exact absurd (.inl rfl) hu
    · exact absurd (.inr rfl) hu
  have written := State.result_written dest (fun _ => State.entered_leads l.only _) [BitVec.ofNat 32 ((s.entered c h (qstatChecks p).ops).qstat t p.a.queueNum)]
  rw [exec_qstat]
  refine ⟨_, congrArg Host.Outcome.next (l.names (park := none) (d := Opd.dvs p.d) (r := p.a) (srcs := []) (point := false) rfl noD (fun _ e => absurd e List.not_mem_nil) reads (fun e => nomatch e) written),
    State.sameBeyond_mem (State.sameBeyond_trans (s.entered_same c h _) (State.writeRegs_same _ t _)), ?_⟩
  exact (State.writeDest _ t p.d 0 _ dest).1 0 Nat.zero_lt_one

/-- A count and a capacity that share a word. -/
theorem toNat_countWord {n k : Nat} (hn : n < 65536) (hk : k < 65536) : (BitVec.ofNat 32 (n + 65536 * k)).toNat = n + 65536 * k := by
  rw [BitVec.toNat_ofNat]
  exact Nat.mod_eq_of_lt (by omega)

theorem queueCapacity_lt (q : Nat) : queueCapacity q < 65536 := by
  unfold queueCapacity
  repeat' split
  all_goals omega

/-- What QSTAT gives of each kind of queue (R269). -/
theorem qstatReads {h : Hdr} {p : R2} {s : State} {c : Cur} {t : Tid} {tm : Team} {d : QDecl} (l : Lane s c h (qstatChecks p) t)
    (htm : s.team? t.team = some tm) :
    ∃ u : State, exec (.qstat h p) s = .next (u.wordEnd h c) ∧ u.mem = s.mem ∧
      (queueKind p.a.queueNum = 1 → (s.descOf tm).queue? p.a.queueNum = none → (tm.tokens.filter fun x => decide (x.1 = p.a.queueNum)).length < 65536 →
        (u.regVal t p.d 0).toNat = (tm.tokens.filter fun x => decide (x.1 = p.a.queueNum)).length + 65536 * 32) ∧
      (32 ≤ p.a.queueNum → (s.descOf tm).queue? p.a.queueNum = some d → d.ldepth ≤ 15 → (assoc [] tm.queues p.a.queueNum).length < 65536 →
        (u.regVal t p.d 0).toNat = (assoc [] tm.queues p.a.queueNum).length + 65536 * 2 ^ d.ldepth) ∧
      (queueKind p.a.queueNum = 0 → (s.behindQueue t.team p.a.queueNum).length < 65536 →
        (u.regVal t p.d 0).toNat = (s.behindQueue t.team p.a.queueNum).length + 65536 * queueCapacity p.a.queueNum) := by
  obtain ⟨u, run, mem, value⟩ := qstatWord l
  obtain ⟨te, hte, same, -, desc⟩ := State.entered_team_unthreaded htm c h (qstatChecks p).ops
  have count : queueKind p.a.queueNum ≠ 0 → (s.entered c h (qstatChecks p).ops).qstat t p.a.queueNum =
      tm.queueLen p.a.queueNum + 65536 * (s.descOf tm).capacity p.a.queueNum := fun kind => by
    rw [State.qstat_team hte kind, desc, Team.queueLen, Team.unthreaded_queues same, Team.unthreaded_tokens same]
    rfl
  refine ⟨u, run, mem, fun kind none room => ?_, fun team some depth room => ?_, fun kind room => ?_⟩
  · have token : ¬32 ≤ p.a.queueNum := fun h => by rw [queueKind, if_pos h] at kind; cases kind
    rw [value, count (kind ▸ Nat.one_ne_zero), KDesc.capacity, none, Team.queueLen, if_neg token]
    exact toNat_countWord room (by decide)
  · have kind : queueKind p.a.queueNum ≠ 0 := by rw [queueKind, if_pos team]; decide
    have cap : 2 ^ d.ldepth < 65536 := lt_of_le_of_lt (Nat.pow_le_pow_right Nat.zero_lt_two depth) (by decide)
    rw [value, count kind, KDesc.capacity, some, Team.queueLen, if_pos team]
    exact toNat_countWord room cap
  · have cmds : (s.entered c h (qstatChecks p).ops).behindQueue t.team p.a.queueNum = s.behindQueue t.team p.a.queueNum := by
      simp only [State.behindQueue, State.entered_cmds, State.entered_cmdOpen]
    rw [value, State.qstat_cmds hte kind, cmds, Nat.mod_eq_of_lt room]
    exact toNat_countWord room (queueCapacity_lt _)

/-! #### QWAIT -/

/-- QWAIT's checks. -/
def qwaitChecks (w : R3) : Checks where
  ops := [Opd.dvs w.d, Opd.queue w.a, Opd.vsk w.b]
  illReg := fun _ _ => !queueOf [1] w.a

/-- A lane that takes a token with its tag: the token leaves, and the core's L1 is invalidated (R257, R269). -/
def State.tokenTaken (s : State) (t : Tid) (y : Team) : State := ((s.updTeam t.team fun _ => y).invalL1 y.core).unhold

theorem State.tokenTaken_cur (s : State) (t : Tid) (y : Team) : (s.tokenTaken t y).cur = s.cur := rfl

/-- What QWAIT does in a lane. -/
def qwaitLane (w : R3) (t : Tid) (vals : List (List Word)) (s : State) : State × Option Park :=
  match s.team? t.team with
  | none => (s, none)
  | some tm => match tm.takeTag w.a.queueNum ((val1 vals 2).toNat % 65536) with
    | some (v, tm') => (((s.updTeam t.team fun _ => tm').invalL1 tm.core).unhold).result t true w.d [v]
    | none => (s.parkLane t (.queue w.a.queueNum), none)

theorem exec_qwait (h : Hdr) (w : R3) (s : State) :
    exec (.qwait h w) s = .next (s.byLane h (qwaitChecks w) (qwaitLane w) (fun _ _ => false) true) := rfl

/-- QWAIT of one lane. -/
theorem qwaitWord {h : Hdr} {w : R3} {s : State} {c : Cur} {t : Tid} {te : Team} (l : Lane s c h (qwaitChecks w) t)
    (hp : s.plain [t] [Opd.vsk w.b] = true) (go : (s.entered c h (qwaitChecks w).ops).accessWaits {} [t] = false)
    (calm : (s.entered c h (qwaitChecks w).ops).deliverAsync t c.pc = (false, s.entered c h (qwaitChecks w).ops))
    (hte : (s.entered c h (qwaitChecks w).ops).team? t.team = some te) :
    let tag := (val1 (s.opdVals t (qwaitChecks w).ops) 2).toNat % 65536
    (∀ x, te.tokens.find? (fun x => decide (x.1 = w.a.queueNum ∧ x.2.toNat / 65536 = tag)) = some x →
      exec (.qwait h w) s = .next ((((s.entered c h (qwaitChecks w).ops).tokenTaken t { te with tokens := te.tokens.erase x }).addLong t true
        (destRegs true w.d 0 [x.2]) w.d.isS).2.wordEnd h c)) ∧
    (te.tokens.find? (fun x => decide (x.1 = w.a.queueNum ∧ x.2.toNat / 65536 = tag)) = none →
      exec (.qwait h w) s = .next (((s.entered c h (qwaitChecks w).ops).parkLane t (.queue w.a.queueNum)).wordEnd h c)) := by
  intro tag
  have noD : ∀ i, w.d ≠ .q i := l.noQueue (o := Opd.dvs w.d) (List.mem_cons_self ..) rfl
  have plain := State.plainAt_quieter (State.plain_at hp (List.mem_singleton_self t)) (State.entered_quieter l.cur h (qwaitChecks w).ops t)
  have reads : (s.entered c h (qwaitChecks w).ops).readsAt t (qwaitChecks w).ops := fun x hx hu => by
    obtain rfl | hx := List.mem_cons.1 hx
    · exact absurd (.inl rfl) hu
    · obtain rfl | rfl := List.mem_pair.1 hx
      · exact absurd (.inr rfl) hu
      · exact plain
  have noS : ∀ o ∈ [Opd.vsk w.b], ∀ i, o.reg ≠ .q i := fun o ho => (plain o ho).1
  have word : ∀ u, qwaitLane w t (s.opdVals t (qwaitChecks w).ops) (s.entered c h (qwaitChecks w).ops) = (u, none) →
      exec (.qwait h w) s = .next (u.wordEnd h c) := fun u does => (exec_qwait h w s).trans (congrArg Host.Outcome.next
    (l.names (park := none) (d := Opd.dvs w.d) (r := w.a) rfl noD noS reads (fun _ => ⟨go, calm⟩) does))
  refine ⟨fun x found => word _ ?_, fun missing => word _ ?_⟩
  · have lead : ((s.entered c h (qwaitChecks w).ops).tokenTaken t { te with tokens := te.tokens.erase x }).leads t = true := by
      rw [State.leads, State.tokenTaken_cur]
      exact State.entered_leads l.only _
    simp only [qwaitLane, hte, Team.takeTag]
    rw [found]
    dsimp only
    rw [State.result_long noD, ← lead]
    rfl
  · simp only [qwaitLane, hte, Team.takeTag]
    rw [missing]

/-- A token taken: what stands then. -/
theorem State.tokenTaken_stands {s : State} {t : Tid} {x y : Team} (hx : s.team? t.team = some x) (hy : y.key = x.key) (groups : y.groups = x.groups)
    (regs : List LReg) (sh : Bool) (live : (s.thread? t).isSome = true) :
    ∃ z, HoldsLong ((s.tokenTaken t y).addLong t true regs sh).2 t regs ∧ ((s.tokenTaken t y).addLong t true regs sh).2.team? t.team = some z ∧
      z.tokens = y.tokens ∧ ((s.tokenTaken t y).addLong t true regs sh).2.mem = s.mem ∧
      ∀ k ∈ ((s.tokenTaken t y).addLong t true regs sh).2.l1, k.core ≠ y.core := by
  have taken : (s.updTeam t.team fun _ => y).settled (s.tokenTaken t y) := State.settled_trans (State.invalL1_settled _ y.core) (State.unhold_settled _)
  have long := (s.tokenTaken t y).onlyThread_addLong t true regs sh
  have thread : ((s.tokenTaken t y).thread? t).isSome = true := by
    have := congrArg Option.isSome (taken.records.longs t)
    rw [Option.isSome_map, Option.isSome_map, State.thread?_updTeam_const hx hy groups] at this
    exact this.trans live
  obtain ⟨th, hth⟩ := Option.isSome_iff_exists.1 thread
  obtain ⟨z, hz, e⟩ := Option.map_eq_some_iff.1
    ((State.unthreaded_team (long.teams.trans taken.records.teams) t.team).trans (congrArg _ (State.team?_updTeam_const hx hy)))
  refine ⟨z, ⟨_, by rw [long.thread, hth]; rfl, _, List.mem_append_right _ (List.mem_singleton_self _), rfl, rfl⟩, hz, Team.unthreaded_tokens e,
    (State.sameBeyond_mem long.same).trans taken.mem, fun k hk => ?_⟩
  have l1 : ((s.tokenTaken t y).addLong t true regs sh).2.l1 = ((s.updTeam t.team fun _ => y).invalL1 y.core).l1 := rfl
  rw [l1] at hk
  simpa using (List.mem_filter.1 hk).2

theorem queueWords : QueueWords := by
  intro h o p w s z c t tm d slot
  refine ⟨?_, ?_, ?_, ?_⟩
  · intro src ops e ws hc lead hp htm single go
    refine ⟨fun team decl size none room => ?_, fun cmd ok free locks => ?_⟩
    · refine qsub_pushes hc lead hp go ?_
      rw [none]
      exact State.pushPacket_slot team htm ((congrArg (fun d : KDesc => d.queue? _) (s.entered_descOf c h ops tm)).trans decl) size room
    · obtain ⟨u, k, pushed, entry⟩ := State.pushPacket_cmd (recips := s.actives c h) (grd := o.grd) cmd (s.entered_cur c h ops) htm single ok free locks
      exact ⟨u, k, qsub_pushes hc lead hp go pushed, entry⟩
  · intro q ops e hc hact turn
    have word := qpopWord (p := p) ⟨hc, hact⟩ fun hq => hact ▸ turn hq
    exact ⟨word.1 slot z, word.2⟩
  · intro ops hc hact htm
    obtain ⟨u, run, mem, token, team, cmds⟩ := qstatReads (d := d) (p := p) ⟨hc, hact⟩ htm
    refine ⟨u, run, mem, token, team, ?_⟩
    intro behind kind room
    refine (cmds kind room).trans (congrArg (fun n => behind + 65536 * n) ?_)
    split <;> simp_all [queueCapacity]
  · intro q ops e tag hc hact hp go calm htm
    have l : Lane s c h (qwaitChecks w) t := ⟨hc, hact⟩
    have word := qwaitWord l hp (hact ▸ go) calm htm
    refine ⟨fun x found => ?_, word.2⟩
    obtain ⟨y, long, hy, tokens, mem, l1⟩ := State.tokenTaken_stands (y := { tm with tokens := tm.tokens.erase x }) htm rfl rfl
      (destRegs true w.d 0 [x.2]) w.d.isS (State.clear_thread hc l.mem)
    exact ⟨_, y, word.1 x found, long, hy, tokens, mem.trans (State.sameBeyond_mem (s.entered_same c h ops)), l1⟩

/-! ### GSET and GRES -/

/-! #### What commands leave behind -/

/-- Memory, commands and every team's guards stand. -/
structure State.guardsStand (s u : State) : Prop where
  mem : u.mem = s.mem
  cmds : u.cmds = s.cmds
  guards : ∀ k, (u.team? k).map Team.guards = (s.team? k).map Team.guards

theorem State.guardsStand_refl (s : State) : s.guardsStand s := ⟨rfl, rfl, fun _ => rfl⟩

theorem State.guardsStand_trans {s a u : State} (h : s.guardsStand a) (k : a.guardsStand u) : s.guardsStand u :=
  ⟨k.mem.trans h.mem, k.cmds.trans h.cmds, fun n => (k.guards n).trans (h.guards n)⟩

theorem State.settled.guards {s u : State} (h : s.settled u) (k : Nat) : (u.team? k).map Team.guards = (s.team? k).map Team.guards := by
  have same := congrArg (Option.map Team.guards) (State.unthreaded_team h.records.teams k)
  rwa [Option.map_map, Option.map_map] at same

theorem State.settled.guardsStand {s u : State} (h : s.settled u) (cmds : u.cmds = s.cmds) : s.guardsStand u := ⟨h.mem, cmds, h.guards⟩

theorem State.wakeTeam_guards (s : State) (k : Nat) (p : Park → Bool) : s.guardsStand (s.wakeTeam k p) :=
  (s.wakeTeam_settled k p).guardsStand (by unfold State.wakeTeam; split <;> rfl)

theorem State.unhold_guards (s : State) : s.guardsStand s.unhold := s.unhold_settled.guardsStand rfl

theorem State.updTeam_guards (s : State) (k : Nat) {f : Team → Team} (key : ∀ x, (f x).key = x.key) (guards : ∀ x, (f x).guards = x.guards) :
    s.guardsStand (s.updTeam k f) := by
  refine ⟨rfl, rfl, fun n => ?_⟩
  by_cases hn : n = k
  · rw [hn, State.team?_updTeam_same s k f key, Option.map_map]
    exact congrArg (Option.map · _) (funext guards)
  · rw [State.team?_updTeam_other s k n f key hn]

theorem State.arriveLine_guards (s : State) (k line : Nat) : s.guardsStand (s.arriveLine k line) := by
  unfold State.arriveLine
  split
  · exact s.guardsStand_refl
  next x hx =>
    have lines := s.updTeam_guards k (f := fun t => (t.setFill line (x.fill line - 1)).setAbsent line
      (t.lineAbsent line && (decide (x.fill line - 1 ≠ 0) || t.unfilled.contains line))) (fun _ => rfl) fun _ => rfl
    dsimp only
    split
    · exact State.guardsStand_trans lines (State.guardsStand_trans (State.wakeTeam_guards _ k _) (State.unhold_guards _))
    · exact State.guardsStand_trans lines (State.unhold_guards _)

theorem foldl_stands {α : Type} {f : State → α → State} (h : ∀ (s : State) a, s.guardsStand (f s a)) (l : List α) (s : State) : s.guardsStand (l.foldl f s) := by
  induction l generalizing s with
  | nil => exact s.guardsStand_refl
  | cons a l ih => exact State.guardsStand_trans (h s a) (ih _)

theorem State.arriveLines_guards (s : State) (k : Nat) (lines : List Nat) : s.guardsStand (s.arriveLines k lines) :=
  foldl_stands (fun s l => s.arriveLine_guards k l) lines s

theorem State.releaseLocks_guards (s : State) (cmd : Nat) (all : Bool) : s.guardsStand (s.releaseLocks cmd all) := by
  unfold State.releaseLocks State.wakeAll
  refine State.guardsStand_trans (a := { s with locks := s.locks.filter fun l => !(decide (l.cmd = cmd) && (all || !l.dst)) }) ⟨rfl, rfl, fun _ => rfl⟩ ?_
  exact State.guardsStand_trans (foldl_stands (fun (s : State) (x : Team) => s.wakeTeam_guards x.key _) _ _) (State.unhold_guards _)

/-- A command that is not to run: it has consumed, with its status, and waits for no guard. -/
def Cmd.refused (c : Cmd) : Cmd := { c with guard := none, status := 1, out := [], stage := .consumed, idle := true, fillHeld := false }

/-- A discarded command: refused, its lines having come back. -/
def Cmd.discarded (c : Cmd) : Cmd := { c with lines := [] }.refused

theorem updWhere_updWhere {p : Cmd → Bool} {f g : Cmd → Cmd} (keeps : ∀ k, p (f k) = p k) (l : List Cmd) :
    updWhere p g (updWhere p f l) = updWhere p (g ∘ f) l := by
  simp only [updWhere, List.map_map]
  refine List.map_congr_left fun k _ => ?_
  by_cases hk : p k = true <;> simp [hk, keeps]

/-- A command discarded (R268). -/
theorem State.discard_stands (s : State) (c : Cmd) : (s.updCmd c.id Cmd.discarded).guardsStand (s.discard c) := by
  obtain ⟨a, ha, lowered⟩ : ∃ a, a = (if c.fillHeld then s.updCmd c.id fun c => { c with lines := [] } else s.lowerLines c) ∧
      (s.updCmd c.id fun c => { c with lines := [] }).guardsStand a := by
    refine ⟨_, rfl, ?_⟩
    split
    · exact State.guardsStand_refl _
    · exact State.arriveLines_guards _ c.team c.lines
  unfold State.discard
  rw [← ha]
  refine State.guardsStand_trans (a := a.updCmd c.id Cmd.refused) ⟨lowered.mem, ?_, lowered.guards⟩ (State.releaseLocks_guards _ c.id true)
  simp only [State.updCmd, lowered.cmds]
  exact updWhere_updWhere (p := fun x => decide (x.id = c.id)) (f := fun c => { c with lines := [] }) (g := Cmd.refused) (fun _ => rfl) s.cmds

/-- Each command whose number stands in a list gives way to another. -/
def settleCmds (f : Cmd → Cmd) (ids : List Nat) (cs : List Cmd) : List Cmd := cs.map fun k => if k.id ∈ ids then f k else k

theorem settleCmds_cons {f : Cmd → Cmd} (keeps : ∀ k, (f k).id = k.id) (again : ∀ k, f (f k) = f k) (i : Nat) (ids : List Nat) (cs : List Cmd) :
    settleCmds f ids (updWhere (fun k => decide (k.id = i)) f cs) = settleCmds f (i :: ids) cs := by
  simp only [settleCmds, updWhere, List.map_map]
  refine List.map_congr_left fun k _ => ?_
  by_cases hi : k.id = i <;> by_cases hk : k.id ∈ ids <;> simp [hi, hk, keeps, again]

/-- Commands settled one after the other: memory and guards stand. -/
theorem State.foldl_settles {step : State → Cmd → State} {f : Cmd → Cmd} (keeps : ∀ k, (f k).id = k.id) (again : ∀ k, f (f k) = f k)
    (stands : ∀ (s : State) c, (s.updCmd c.id f).guardsStand (step s c)) (l : List Cmd) (s : State) :
    (l.foldl step s).mem = s.mem ∧ (l.foldl step s).cmds = settleCmds f (l.map Cmd.id) s.cmds ∧
      ∀ k, ((l.foldl step s).team? k).map Team.guards = (s.team? k).map Team.guards := by
  induction l generalizing s with
  | nil => exact ⟨rfl, (List.map_id' s.cmds).symm, fun _ => rfl⟩
  | cons c l ih =>
    obtain ⟨mem, cmds, guards⟩ := stands s c
    obtain ⟨mems, settles, stand⟩ := ih (step s c)
    refine ⟨mems.trans mem, ?_, fun k => (stand k).trans (guards k)⟩
    rw [List.map_cons, ← settleCmds_cons keeps again, List.foldl_cons, settles, cmds]
    rfl

/-! #### The two words -/

/-- A team that makes a guard pending. -/
def Team.pend (x : Team) (g : Nat) : Team := { x with guards := if x.guards.contains g then x.guards else g :: x.guards }

/-- GSET makes its guard pending. -/
theorem gset_pends {h : Hdr} {g : BitVec 4} {s : State} {c : Cur} {t : Tid} {tm : Team} (hc : s.clear c h {} = true) {rest : List Tid}
    (hact : s.actives c h = t :: rest) (htm : s.team? t.team = some tm) :
    ∃ (u : State) (y : Team), exec (.gset h g) s = .next (u.wordEnd h c) ∧ u.team? t.team = some y ∧ g.toNat ∈ y.guards ∧
      (∀ k, k ≠ g.toNat → (k ∈ y.guards ↔ k ∈ tm.guards)) ∧ u.mem = s.mem ∧ u.cmds = s.cmds := by
  obtain ⟨te, hte, same, -, -⟩ := State.entered_team_unthreaded htm c h []
  have guards : te.guards = tm.guards := (congrArg Team.guards same : te.unthreaded.guards = tm.unthreaded.guards)
  refine ⟨(s.entered c h []).updTeam t.team fun x => x.pend g.toNat, te.pend g.toNat, ?_, ?_, ?_, fun k hk => ?_,
    (State.sameBeyond_mem (s.entered_same c h []) :), (s.entered_cmds c h [] :)⟩
  · show Host.Outcome.next (s.word h {} _) = _
    rw [State.word_clear hc, hact]
    rfl
  · have := State.team?_updTeam_same (s.entered c h []) t.team (fun x => x.pend g.toNat) fun _ => rfl
    rw [this, hte]
    rfl
  · simp only [Team.pend]
    split
    next held => exact List.contains_iff_mem.1 held
    · exact List.mem_cons_self ..
  · simp only [Team.pend, ← guards]
    split
    · rfl
    · simp [hk]

/-- The commands that wait on a team's guard. -/
def State.waitingOn (s : State) (team g : Nat) : List Cmd := s.cmds.filter fun c => decide (c.team = team) && decide (c.guard = some g)

/-- A team that resolves a guard. -/
def Team.resolve (x : Team) (g : Nat) : Team := { x with guards := x.guards.filter fun k => decide (k ≠ g) }

/-- A guard resolved: each command that waits on it gives way to one that waits for none. -/
theorem State.resolve_stands {e u : State} {t : Tid} {te : Team} {g : Nat} {f : Cmd → Cmd} (hte : e.team? t.team = some te) (free : ∀ k, (f k).guard = none)
    (mem : u.mem = e.mem) (cmds : u.cmds = settleCmds f ((e.waitingOn t.team g).map Cmd.id) e.cmds)
    (guards : (u.team? t.team).map Team.guards = ((e.updTeam t.team fun x => x.resolve g).team? t.team).map Team.guards) :
    (∃ y, u.team? t.team = some y ∧ g ∉ y.guards) ∧ u.mem = e.mem ∧ (∀ k ∈ u.cmds, k.team = t.team → k.guard ≠ some g) ∧
      ∀ k ∈ e.cmds, k.team = t.team → k.guard = some g → f k ∈ u.cmds := by
  have waits : ∀ k ∈ e.cmds, k.team = t.team → k.guard = some g → k.id ∈ (e.waitingOn t.team g).map Cmd.id := fun k hk team guard =>
    List.mem_map_of_mem (List.mem_filter.2 ⟨hk, by simp [team, guard]⟩)
  refine ⟨?_, mem, fun k hk team guard => ?_, fun k hk team guard => ?_⟩
  · have team : (e.updTeam t.team fun x => x.resolve g).team? t.team = some (te.resolve g) := by
      rw [State.team?_updTeam_same e t.team (fun x => x.resolve g) fun _ => rfl, hte]
      rfl
    obtain ⟨y, hy, same⟩ := Option.map_eq_some_iff.1 (guards.trans (congrArg (Option.map Team.guards) team))
    refine ⟨y, hy, ?_⟩
    rw [same]
    simp [Team.resolve]
  · rw [cmds] at hk
    obtain ⟨k0, hk0, rfl⟩ := List.mem_map.1 hk
    by_cases settled : k0.id ∈ (e.waitingOn t.team g).map Cmd.id
    · rw [if_pos settled, free] at guard
      cases guard
    · rw [if_neg settled] at team guard
      exact settled (waits k0 hk0 team guard)
  · rw [cmds]
    exact List.mem_map.2 ⟨k, hk, if_pos (waits k hk team guard)⟩

/-- GRES's act, in the lowest active lane. -/
def State.gres (s : State) (t : Tid) (o : GresF) : State :=
  if s.predOf t o.p != o.neg then
    (s.waitingOn t.team o.g.toNat).foldl (fun s c => s.updCmd c.id fun c => { c with guard := none }) (s.updTeam t.team fun x => x.resolve o.g.toNat)
  else (s.waitingOn t.team o.g.toNat).foldl (fun s c => s.discard c) (s.updTeam t.team fun x => x.resolve o.g.toNat)

/-- GRES of a guard that its team has, or has not, pending. -/
theorem exec_gres {h : Hdr} {o : GresF} {s : State} {c : Cur} {t : Tid} {te : Team} (hc : s.clear c h {} = true) {rest : List Tid}
    (hact : s.actives c h = t :: rest) (hte : (s.entered c h []).team? t.team = some te) :
    exec (.gres h o) s = .next ((if o.g.toNat ∈ te.guards then (s.entered c h []).gres t o else s.entered c h []).wordEnd h c) := by
  show Host.Outcome.next (s.word h {} _) = _
  rw [State.word_clear hc, hact]
  dsimp only
  rw [hte]
  by_cases pending : o.g.toNat ∈ te.guards
  · simp only [List.contains_iff_mem.2 pending, pending, if_true, Bool.not_true, Bool.false_eq_true, if_false]
    rfl
  · simp only [Bool.eq_false_iff.2 fun e => pending (List.contains_iff_mem.1 e), pending, if_false, Bool.not_false, if_true]

/-- GRES of a pending guard. -/
theorem gres_resolves {h : Hdr} {o : GresF} {s : State} {c : Cur} {t : Tid} {te : Team} (hte : (s.entered c h []).team? t.team = some te) :
    ∃ y, ((s.entered c h []).gres t o).team? t.team = some y ∧ o.g.toNat ∉ y.guards ∧ ((s.entered c h []).gres t o).mem = s.mem ∧
      (∀ k ∈ ((s.entered c h []).gres t o).cmds, k.team = t.team → k.guard ≠ some o.g.toNat) ∧
      ((s.predOf t o.p != o.neg) = false → ∀ k ∈ s.cmds, k.team = t.team → k.guard = some o.g.toNat →
        ∃ k' ∈ ((s.entered c h []).gres t o).cmds, k'.id = k.id ∧ k'.stage = .consumed ∧ k'.status = 1 ∧ k'.guard = none) := by
  have entered := State.sameBeyond_mem (s.entered_same c h [])
  unfold State.gres
  rw [State.entered_predOf]
  cases v : s.predOf t o.p != o.neg with
  | true =>
    obtain ⟨mem, cmds, guards⟩ := State.foldl_settles (f := fun c => { c with guard := none }) (step := fun s c => s.updCmd c.id fun c => { c with guard := none })
      (fun _ => rfl) (fun _ => rfl) (fun _ _ => State.guardsStand_refl _) ((s.entered c h []).waitingOn t.team o.g.toNat)
      ((s.entered c h []).updTeam t.team fun x => x.resolve o.g.toNat)
    obtain ⟨⟨y, hy, none⟩, mem, unguarded, -⟩ := State.resolve_stands hte (fun _ => rfl) mem cmds (guards t.team)
    exact ⟨y, hy, none, mem.trans entered, unguarded, nofun⟩
  | false =>
    obtain ⟨mem, cmds, guards⟩ := State.foldl_settles (f := Cmd.discarded) (step := State.discard) (fun _ => rfl) (fun _ => rfl) State.discard_stands
      ((s.entered c h []).waitingOn t.team o.g.toNat) ((s.entered c h []).updTeam t.team fun x => x.resolve o.g.toNat)
    obtain ⟨⟨y, hy, none⟩, mem, unguarded, refused⟩ := State.resolve_stands hte (fun _ => rfl) mem cmds (guards t.team)
    exact ⟨y, hy, none, mem.trans entered, unguarded, fun _ k hk team guard =>
      ⟨_, refused k (s.entered_cmds c h [] ▸ hk) team guard, rfl, rfl, rfl, rfl⟩⟩

theorem guardWords : GuardWords := by
  intro h g o s c t tm once htm
  obtain ⟨hc, -, rest, hact⟩ := (State.once_iff ..).1 once
  obtain ⟨te, hte, same, -, -⟩ := State.entered_team_unthreaded htm c h []
  have guards : te.guards = tm.guards := (congrArg Team.guards same : te.unthreaded.guards = tm.unthreaded.guards)
  have run := exec_gres (o := o) hc hact hte
  rw [guards] at run
  refine ⟨gset_pends hc hact htm, fun idle => by rw [run, if_neg idle], fun pending => ?_⟩
  obtain ⟨y, resolved⟩ := gres_resolves (o := o) hte
  exact ⟨_, y, run.trans (by rw [if_pos pending]), resolved⟩

end Sys2Proof.Machine

namespace Sys2Proof

open Machine

/-- Settles O41: a queue word's one lane finds its queue's slots and tokens, or hands its packet on; GRES's commands go on or are discarded one after the other. -/
theorem queuesAndGuards : Obligations.QueuesAndGuards := ⟨queueWords, guardWords⟩

end Sys2Proof

namespace Sys2Proof.Machine

-- One theorem after another, for the memory that a check has.
set_option Elab.async false

/-! ### Command points -/

/-! #### A twin copy whose command overflows its commit buffer (R350, R351) -/

/-- A table at 0 whose first entry leads to a remote page of 1 GiB at the start of the address space, readable and writable. -/
def overflowMem : Mem := [(0, 3), (2, 1), (65536, 0x0D), (65537, 0x41)]

def overflowCtx : Ctx :=
  { id := 0, root := 0, save := 0, hentry := 0, rsbase := 0, rsspill := 0, ovfl := 0, hrtab := 0, evring := 0, erring := 0, lullW := 0, lullKill := false,
    clog := 0, seed0 := 0, part := 0, seed := 0 }

/-- A launch of which every team is twinned. -/
def overflowLaunch : Launch := { key := 0, ctx := 0, seq := 0, d := { flags := 2, tmod := 1 }, seed := 0, met := [], next := [] }

/-- A copy whose commit buffer is over its limit with the next write. -/
def overflowTeam : Team :=
  { key := 0, ctx := 0, launch := 0, index := 0, copy := 0, core := 0, place := .resident, groups := [], segs := [], barriers := [],
    commit := List.replicate 256 { agent := 0, order := 0, addr := 0, bytes := List.replicate 256 0 } }

/-- A copy command that has consumed, with a byte still to write. -/
def overflowCmd : Cmd :=
  { id := 1, eng := .cpy 0, team := 0, ctx := 0, core := 0, group := 0, code := 1, words := [], pc := 0, word := 0, age := 1, seq := none, tag := 0,
    notok := false, recips := [], stage := .consumed, out := [{ pool := false, addr := 0, bytes := [0] }] }

/-- Behind it stands a command of the same id that has not started. -/
def overflowState : State :=
  { State.reset with
    mem := overflowMem, contexts := [overflowCtx], launches := [overflowLaunch], teams := [overflowTeam],
    cmds := [overflowCmd, { overflowCmd with stage := .queued, out := [] }] }

/-- The commands after an instruction. -/
def cmdsAfter (i : Instr) (s : State) : Option (List Cmd) :=
  match exec i s with
  | .next u => some u.cmds
  | _ => none

/-- The write ends the team, whose command that has not started is dropped, and with it every command of its id. -/
theorem overflow_drops : cmdsAfter (.donePoint 1) overflowState = some [] := by decide +kernel

theorem overflow_mayEnd : MayEnd overflowState overflowCmd :=
  ⟨rfl, .inr ⟨rfl, rfl, rfl⟩, by decide +kernel, by decide +kernel, nofun⟩

theorem not_commandPoints : ¬ CommandPoints := by
  intro points
  obtain ⟨-, -, -, done⟩ := points overflowState 1 0 overflowCmd overflowTeam plainHdr
    { d := .v 0, tok := false, tag := 0 } rfl rfl
  obtain ⟨u, k, run, found, -⟩ := done rfl overflow_mayEnd
  have gone : some u.cmds = some [] := by
    rw [← overflow_drops, cmdsAfter, run]
  rw [State.cmd?, Option.some.inj gone] at found
  cases found

end Sys2Proof.Machine

namespace Sys2Proof

open Machine

/-- Refutes O51: DONE_POINT leaves its command DONE only where no other command has the command's id, which the statement does not say; in
`overflowState` the last write of a twin copy's command overflows its commit buffer, which ends the team and drops its queued command of the same id,
and the command itself with it. -/
theorem not_engines : ¬ Obligations.Engines := fun engines => not_commandPoints engines.2

end Sys2Proof
